-- ==== Sys2Proof/Word.lean ====
section
/-! DEFINITION. The words of the machine: bytes, 64-bit words, and the sparse map in which the model holds what there is
one of for each number (strands, cores, quires, dies). Nothing here can be mended later, so nothing here is a rule of the
spec but the sizes (00 R2). -/

namespace Sys2Proof

/-- A byte of memory. -/
abbrev Byte := BitVec 8

/-- The 64 data bits of a g-register, a CSR or an address (04 R65). -/
abbrev Word := BitVec 64

/-- What there is one of for each number: the numbers written so far with their values, in rising order. A number not
listed has the default that the reader names. -/
abbrev Map (α : Type) := List (Nat × α)

end Sys2Proof
end

