-- ==== Sys2Proof/Syntax.lean ====
section
/-! DEFINITION. The instructions and steps of the machine: one constructor for each row of spec/opcode_table.json.
An encoded row carries the fields of its format (03 R48), each at its own width: g-register fields are 6 bits, v-register
fields 5 bits, immediates the bits of the word. The park marker P stands in every word alike (03 R47), so it is read beside
the instruction (Sys2Proof.decode) and held by the state while the instruction issues. A row without an encoding is an
event of the part (spec/95), of a strand, a core, an engine, the network or the Bindery: its operands stand in `Args`. -/

namespace Sys2Proof

/-- The operands of an event of the table: numbers and bytes, in the order that the event's constructor lists
(DESIGN CHOICE, assumption 75). -/
structure Args where
  /-- The numbers. -/
  n : List Nat
  /-- The bytes of a message. -/
  bytes : List (BitVec 8)
  deriving DecidableEq, Repr, Inhabited

/-- The instruction set and the events of the part, one constructor for each row of the table. -/
inductive Instr where
  | add (d : BitVec 6) (a : BitVec 6) (b : BitVec 6)
  | sub (d : BitVec 6) (a : BitVec 6) (b : BitVec 6)
  | mul (d : BitVec 6) (a : BitVec 6) (b : BitVec 6)
  | mulh (d : BitVec 6) (a : BitVec 6) (b : BitVec 6)
  | mulhz (d : BitVec 6) (a : BitVec 6) (b : BitVec 6)
  | div (d : BitVec 6) (a : BitVec 6) (b : BitVec 6)
  | divz (d : BitVec 6) (a : BitVec 6) (b : BitVec 6)
  | rem (d : BitVec 6) (a : BitVec 6) (b : BitVec 6)
  | remz (d : BitVec 6) (a : BitVec 6) (b : BitVec 6)
  | and (d : BitVec 6) (a : BitVec 6) (b : BitVec 6)
  | or (d : BitVec 6) (a : BitVec 6) (b : BitVec 6)
  | xor (d : BitVec 6) (a : BitVec 6) (b : BitVec 6)
  | andn (d : BitVec 6) (a : BitVec 6) (b : BitVec 6)
  | shl (d : BitVec 6) (a : BitVec 6) (b : BitVec 6)
  | shr (d : BitVec 6) (a : BitVec 6) (b : BitVec 6)
  | sha (d : BitVec 6) (a : BitVec 6) (b : BitVec 6)
  | rol (d : BitVec 6) (a : BitVec 6) (b : BitVec 6)
  | min (d : BitVec 6) (a : BitVec 6) (b : BitVec 6)
  | max (d : BitVec 6) (a : BitVec 6) (b : BitVec 6)
  | minz (d : BitVec 6) (a : BitVec 6) (b : BitVec 6)
  | maxz (d : BitVec 6) (a : BitVec 6) (b : BitVec 6)
  | clz (d : BitVec 6) (a : BitVec 6)
  | ctz (d : BitVec 6) (a : BitVec 6)
  | popc (d : BitVec 6) (a : BitVec 6)
  | mov (d : BitVec 6) (a : BitVec 6)
  | sel (d : BitVec 6) (a : BitVec 6) (b : BitVec 6)
  | addI (d : BitVec 6) (a : BitVec 6) (imm : BitVec 13)
  | andI (d : BitVec 6) (a : BitVec 6) (imm : BitVec 13)
  | orI (d : BitVec 6) (a : BitVec 6) (imm : BitVec 13)
  | xorI (d : BitVec 6) (a : BitVec 6) (imm : BitVec 13)
  | shlI (d : BitVec 6) (a : BitVec 6) (n : BitVec 6)
  | shrI (d : BitVec 6) (a : BitVec 6) (n : BitVec 6)
  | shaI (d : BitVec 6) (a : BitVec 6) (n : BitVec 6)
  | rolI (d : BitVec 6) (a : BitVec 6) (n : BitVec 6)
  | li (d : BitVec 6) (imm : BitVec 19)
  | lis (d : BitVec 6) (imm : BitVec 19)
  | setEq (d : BitVec 6) (a : BitVec 6) (b : BitVec 6)
  | setNe (d : BitVec 6) (a : BitVec 6) (b : BitVec 6)
  | setLt (d : BitVec 6) (a : BitVec 6) (b : BitVec 6)
  | setGe (d : BitVec 6) (a : BitVec 6) (b : BitVec 6)
  | setLo (d : BitVec 6) (a : BitVec 6) (b : BitVec 6)
  | setHs (d : BitVec 6) (a : BitVec 6) (b : BitVec 6)
  | cincr (d : BitVec 6) (a : BitVec 6) (b : BitVec 6)
  | cset (d : BitVec 6) (a : BitVec 6) (b : BitVec 6)
  | cbnd (d : BitVec 6) (a : BitVec 6) (b : BitVec 6)
  | cbndr (d : BitVec 6) (a : BitVec 6) (b : BitVec 6)
  | cperm (d : BitVec 6) (a : BitVec 6) (b : BitVec 6)
  | cseal (d : BitVec 6) (a : BitVec 6) (b : BitVec 6)
  | cunseal (d : BitVec 6) (a : BitVec 6) (b : BitVec 6)
  | cbase (d : BitVec 6) (a : BitVec 6)
  | clen (d : BitVec 6) (a : BitVec 6)
  | cperms (d : BitVec 6) (a : BitVec 6)
  | ctag (d : BitVec 6) (a : BitVec 6)
  | cclr (d : BitVec 6) (a : BitVec 6)
  | ceq (d : BitVec 6) (a : BitVec 6) (b : BitVec 6)
  | csub (d : BitVec 6) (a : BitVec 6) (b : BitVec 6)
  | cincrI (d : BitVec 6) (a : BitVec 6) (imm : BitVec 13)
  | bEq (a : BitVec 6) (b : BitVec 6) (off : BitVec 10)
  | bNe (a : BitVec 6) (b : BitVec 6) (off : BitVec 10)
  | bLt (a : BitVec 6) (b : BitVec 6) (off : BitVec 10)
  | bGe (a : BitVec 6) (b : BitVec 6) (off : BitVec 10)
  | bLo (a : BitVec 6) (b : BitVec 6) (off : BitVec 10)
  | bHs (a : BitVec 6) (b : BitVec 6) (off : BitVec 10)
  | jmp (off : BitVec 25)
  | call (off : BitVec 25)
  | jr (a : BitVec 6)
  | callr (a : BitVec 6)
  | rptConst (len : BitVec 4) (d : BitVec 2) (a : BitVec 2) (b : BitVec 2) (cnt : BitVec 14)
  | rptReg (len : BitVec 4) (d : BitVec 2) (a : BitVec 2) (b : BitVec 2) (g : BitVec 6)
  | ldB (g : BitVec 6) (a : BitVec 6) (off : BitVec 10)
  | ldBz (g : BitVec 6) (a : BitVec 6) (off : BitVec 10)
  | ldH (g : BitVec 6) (a : BitVec 6) (off : BitVec 10)
  | ldHz (g : BitVec 6) (a : BitVec 6) (off : BitVec 10)
  | ldW (g : BitVec 6) (a : BitVec 6) (off : BitVec 10)
  | ldWz (g : BitVec 6) (a : BitVec 6) (off : BitVec 10)
  | ldD (g : BitVec 6) (a : BitVec 6) (off : BitVec 10)
  | ldQ (g : BitVec 6) (a : BitVec 6) (off : BitVec 10)
  | stB (g : BitVec 6) (a : BitVec 6) (off : BitVec 10)
  | stH (g : BitVec 6) (a : BitVec 6) (off : BitVec 10)
  | stW (g : BitVec 6) (a : BitVec 6) (off : BitVec 10)
  | stD (g : BitVec 6) (a : BitVec 6) (off : BitVec 10)
  | stQ (g : BitVec 6) (a : BitVec 6) (off : BitVec 10)
  | stc (g : BitVec 6) (a : BitVec 6) (off : BitVec 10)
  | vld (v : BitVec 5) (a : BitVec 6) (vm : BitVec 3) (z : Bool) (m : Bool)
  | vst (v : BitVec 5) (a : BitVec 6) (vm : BitVec 3) (m : Bool)
  | vldS (v : BitVec 5) (a : BitVec 6) (b : BitVec 6) (vm : BitVec 3) (z : Bool) (m : Bool)
  | vstS (v : BitVec 5) (a : BitVec 6) (b : BitVec 6) (vm : BitVec 3) (m : Bool)
  | vldX (v : BitVec 5) (a : BitVec 6) (b : BitVec 5) (vm : BitVec 3) (z : Bool) (m : Bool)
  | vstX (v : BitVec 5) (a : BitVec 6) (b : BitVec 5) (vm : BitVec 3) (m : Bool)
  | vldB (v : BitVec 5) (a : BitVec 6) (vm : BitVec 3) (z : Bool) (m : Bool)
  | vldH (v : BitVec 5) (a : BitVec 6) (vm : BitVec 3) (z : Bool) (m : Bool)
  | vstH (v : BitVec 5) (a : BitVec 6) (vm : BitVec 3) (m : Bool)
  | vldHs (v : BitVec 5) (a : BitVec 6) (b : BitVec 6) (vm : BitVec 3) (z : Bool) (m : Bool)
  | vstHs (v : BitVec 5) (a : BitVec 6) (b : BitVec 6) (vm : BitVec 3) (m : Bool)
  | vldHx (v : BitVec 5) (a : BitVec 6) (b : BitVec 5) (vm : BitVec 3) (z : Bool) (m : Bool)
  | vstHx (v : BitVec 5) (a : BitVec 6) (b : BitVec 5) (vm : BitVec 3) (m : Bool)
  | pref (a : BitVec 6) (off : BitVec 10)
  | cln (a : BitVec 6) (off : BitVec 10)
  | inv (a : BitVec 6) (off : BitVec 10)
  | fence (eng : Bool) (scope : BitVec 3)
  | trap (x : BitVec 6)
  | idle (x : BitVec 6)
  | ctxSave (x : BitVec 6)
  | ctxLoad (x : BitVec 6)
  | gquit (x : BitVec 6)
  | gkill (x : BitVec 6)
  | gpre (x : BitVec 6)
  | csrr (d : BitVec 6) (csr : BitVec 12)
  | csrw (a : BitVec 6) (csr : BitVec 12)
  | csrx (d : BitVec 6) (a : BitVec 6) (csr : BitVec 12)
  | sfqRd (x : BitVec 6) (y : BitVec 6) (zr : BitVec 6)
  | plbInv (x : BitVec 6) (y : BitVec 6)
  | mapInv (x : BitVec 6) (y : BitVec 6)
  | amoAdd (d : BitVec 6) (a : BitVec 6) (b : BitVec 6) (w : Bool)
  | amoAnd (d : BitVec 6) (a : BitVec 6) (b : BitVec 6) (w : Bool)
  | amoOr (d : BitVec 6) (a : BitVec 6) (b : BitVec 6) (w : Bool)
  | amoXor (d : BitVec 6) (a : BitVec 6) (b : BitVec 6) (w : Bool)
  | amoMin (d : BitVec 6) (a : BitVec 6) (b : BitVec 6) (w : Bool)
  | amoMax (d : BitVec 6) (a : BitVec 6) (b : BitVec 6) (w : Bool)
  | amoMinz (d : BitVec 6) (a : BitVec 6) (b : BitVec 6) (w : Bool)
  | amoMaxz (d : BitVec 6) (a : BitVec 6) (b : BitVec 6) (w : Bool)
  | amoSwap (d : BitVec 6) (a : BitVec 6) (b : BitVec 6) (w : Bool)
  | amoCas (d : BitVec 6) (a : BitVec 6) (b : BitVec 6) (w : Bool)
  | amoFaddW (d : BitVec 6) (a : BitVec 6) (b : BitVec 6)
  | amoTopkD (d : BitVec 6) (a : BitVec 6) (b : BitVec 6)
  | bnCnt (d : BitVec 6) (a : BitVec 6)
  | bnAnti (d : BitVec 6) (a : BitVec 6)
  | bnSpread (a : BitVec 6) (b : BitVec 6)
  | bnArr (a : BitVec 6) (b : BitVec 6)
  | bnWait (a : BitVec 6) (b : BitVec 6)
  | bnCfg (a : BitVec 6) (b : BitVec 6)
  | bnClr (a : BitVec 6) (b : BitVec 6)
  | bnRd (d : BitVec 6) (a : BitVec 6)
  | vadd (d : BitVec 5) (a : BitVec 5) (b : BitVec 5) (vm : BitVec 3) (z : Bool) (m : Bool)
  | vsub (d : BitVec 5) (a : BitVec 5) (b : BitVec 5) (vm : BitVec 3) (z : Bool) (m : Bool)
  | vmul (d : BitVec 5) (a : BitVec 5) (b : BitVec 5) (vm : BitVec 3) (z : Bool) (m : Bool)
  | vfma (d : BitVec 5) (a : BitVec 5) (b : BitVec 5) (vm : BitVec 3) (z : Bool) (m : Bool)
  | vfms (d : BitVec 5) (a : BitVec 5) (b : BitVec 5) (vm : BitVec 3) (z : Bool) (m : Bool)
  | vfnma (d : BitVec 5) (a : BitVec 5) (b : BitVec 5) (vm : BitVec 3) (z : Bool) (m : Bool)
  | vmin (d : BitVec 5) (a : BitVec 5) (b : BitVec 5) (vm : BitVec 3) (z : Bool) (m : Bool)
  | vmax (d : BitVec 5) (a : BitVec 5) (b : BitVec 5) (vm : BitVec 3) (z : Bool) (m : Bool)
  | vabs (d : BitVec 5) (a : BitVec 5) (vm : BitVec 3) (z : Bool) (m : Bool)
  | vneg (d : BitVec 5) (a : BitVec 5) (vm : BitVec 3) (z : Bool) (m : Bool)
  | vcmpEq (d : BitVec 5) (a : BitVec 5) (b : BitVec 5) (vm : BitVec 3) (z : Bool) (m : Bool)
  | vcmpLt (d : BitVec 5) (a : BitVec 5) (b : BitVec 5) (vm : BitVec 3) (z : Bool) (m : Bool)
  | vcmpLe (d : BitVec 5) (a : BitVec 5) (b : BitVec 5) (vm : BitVec 3) (z : Bool) (m : Bool)
  | vcmpUn (d : BitVec 5) (a : BitVec 5) (b : BitVec 5) (vm : BitVec 3) (z : Bool) (m : Bool)
  | vrcpE (d : BitVec 5) (a : BitVec 5) (vm : BitVec 3) (z : Bool) (m : Bool)
  | vrsqE (d : BitVec 5) (a : BitVec 5) (vm : BitVec 3) (z : Bool) (m : Bool)
  | vgexp (d : BitVec 5) (a : BitVec 5) (vm : BitVec 3) (z : Bool) (m : Bool)
  | vscl (d : BitVec 5) (a : BitVec 5) (b : BitVec 5) (vm : BitVec 3) (z : Bool) (m : Bool)
  | vrnd (d : BitVec 5) (a : BitVec 5) (vm : BitVec 3) (z : Bool) (m : Bool)
  | vsel (d : BitVec 5) (a : BitVec 5) (b : BitVec 5) (vm : BitVec 3)
  | vredsum (d : BitVec 5) (a : BitVec 5) (vm : BitVec 3) (m : Bool)
  | vredmax (d : BitVec 5) (a : BitVec 5) (vm : BitVec 3) (m : Bool)
  | vredmin (d : BitVec 5) (a : BitVec 5) (vm : BitVec 3) (m : Bool)
  | vaddI (d : BitVec 5) (a : BitVec 5) (b : BitVec 5) (vm : BitVec 3) (z : Bool) (m : Bool)
  | vsubI (d : BitVec 5) (a : BitVec 5) (b : BitVec 5) (vm : BitVec 3) (z : Bool) (m : Bool)
  | vmulI (d : BitVec 5) (a : BitVec 5) (b : BitVec 5) (vm : BitVec 3) (z : Bool) (m : Bool)
  | vand (d : BitVec 5) (a : BitVec 5) (b : BitVec 5) (vm : BitVec 3) (z : Bool) (m : Bool)
  | vor (d : BitVec 5) (a : BitVec 5) (b : BitVec 5) (vm : BitVec 3) (z : Bool) (m : Bool)
  | vxor (d : BitVec 5) (a : BitVec 5) (b : BitVec 5) (vm : BitVec 3) (z : Bool) (m : Bool)
  | vshl (d : BitVec 5) (a : BitVec 5) (b : BitVec 5) (vm : BitVec 3) (z : Bool) (m : Bool)
  | vshr (d : BitVec 5) (a : BitVec 5) (b : BitVec 5) (vm : BitVec 3) (z : Bool) (m : Bool)
  | vsha (d : BitVec 5) (a : BitVec 5) (b : BitVec 5) (vm : BitVec 3) (z : Bool) (m : Bool)
  | vminI (d : BitVec 5) (a : BitVec 5) (b : BitVec 5) (vm : BitVec 3) (z : Bool) (m : Bool)
  | vmaxI (d : BitVec 5) (a : BitVec 5) (b : BitVec 5) (vm : BitVec 3) (z : Bool) (m : Bool)
  | vcmpIeq (d : BitVec 5) (a : BitVec 5) (b : BitVec 5) (vm : BitVec 3) (z : Bool) (m : Bool)
  | vcmpIlt (d : BitVec 5) (a : BitVec 5) (b : BitVec 5) (vm : BitVec 3) (z : Bool) (m : Bool)
  | vcmpIlo (d : BitVec 5) (a : BitVec 5) (b : BitVec 5) (vm : BitVec 3) (z : Bool) (m : Bool)
  | vredaddI (d : BitVec 5) (a : BitVec 5) (vm : BitVec 3) (m : Bool)
  | vperm (d : BitVec 5) (a : BitVec 5) (b : BitVec 5) (vm : BitVec 3) (z : Bool) (m : Bool)
  | vbc (d : BitVec 5) (b : BitVec 6) (vm : BitVec 3) (z : Bool) (m : Bool)
  | vaddS (d : BitVec 5) (a : BitVec 5) (b : BitVec 6) (vm : BitVec 3) (z : Bool) (m : Bool)
  | vmulS (d : BitVec 5) (a : BitVec 5) (b : BitVec 6) (vm : BitVec 3) (z : Bool) (m : Bool)
  | vfmaS (d : BitVec 5) (a : BitVec 5) (b : BitVec 6) (vm : BitVec 3) (z : Bool) (m : Bool)
  | vslup (d : BitVec 5) (a : BitVec 5) (b : BitVec 6) (vm : BitVec 3) (z : Bool) (m : Bool)
  | vsldn (d : BitVec 5) (a : BitVec 5) (b : BitVec 6) (vm : BitVec 3) (z : Bool) (m : Bool)
  | vidx (d : BitVec 5) (b : BitVec 6) (vm : BitVec 3) (z : Bool) (m : Bool)
  | vext (v : BitVec 5) (g : BitVec 6) (idx : BitVec 6)
  | vins (v : BitVec 5) (g : BitVec 6) (idx : BitVec 6)
  | mpopc (v : BitVec 5) (g : BitVec 6)
  | mfirst (v : BitVec 5) (g : BitVec 6)
  | vcvtI2f (d : BitVec 5) (a : BitVec 5) (vm : BitVec 3) (z : Bool) (m : Bool)
  | vcvtF2i (d : BitVec 5) (a : BitVec 5) (vm : BitVec 3) (z : Bool) (m : Bool)
  | vcvtF2bf (d : BitVec 5) (a : BitVec 5) (b : BitVec 5) (vm : BitVec 3) (z : Bool) (m : Bool)
  | vcvtBf2f (d : BitVec 5) (a : BitVec 5) (vm : BitVec 3) (z : Bool) (m : Bool)
  | vcvtF2h (d : BitVec 5) (a : BitVec 5) (b : BitVec 5) (vm : BitVec 3) (z : Bool) (m : Bool)
  | vcvtH2f (d : BitVec 5) (a : BitVec 5) (vm : BitVec 3) (z : Bool) (m : Bool)
  | mmaT8 (acc : BitVec 2) (a : BitVec 6) (b : BitVec 6) (ge : BitVec 6)
  | mmaT6 (acc : BitVec 2) (a : BitVec 6) (b : BitVec 6) (ge : BitVec 6)
  | mmaI8 (acc : BitVec 2) (a : BitVec 6) (b : BitVec 6) (ge : BitVec 6)
  | mmaBf (acc : BitVec 2) (a : BitVec 6) (b : BitVec 6) (ge : BitVec 6)
  | mmaH (acc : BitVec 2) (a : BitVec 6) (b : BitVec 6) (ge : BitVec 6)
  | mzero (acc : BitVec 2)
  | mld (acc : BitVec 2) (a : BitVec 6) (ge : BitVec 6)
  | mst (acc : BitVec 2) (a : BitVec 6) (ge : BitVec 6)
  | mwaitSus (b : BitVec 6)
  | mwaitRes (b : BitVec 6)
  | cdec (x : BitVec 6) (y : BitVec 6)
  | cpush (x : BitVec 6) (y : BitVec 6)
  | carm (x : BitVec 6) (y : BitVec 6)
  | csteal (x : BitVec 6) (y : BitVec 6)
  | cpT (x : BitVec 6) (y : BitVec 6) (zr : BitVec 6)
  | cpB (x : BitVec 6) (y : BitVec 6) (zr : BitVec 6)
  | cpG (x : BitVec 6) (y : BitVec 6) (zr : BitVec 6)
  | cpWait (x : BitVec 6)
  | cpSt (x : BitVec 6) (y : BitVec 6)
  | sbInit (x : BitVec 6) (y : BitVec 6)
  | sbArr (x : BitVec 6)
  | sbExp (x : BitVec 6) (y : BitVec 6)
  | sbTest (x : BitVec 6) (y : BitVec 6) (zr : BitVec 6)
  | sbWait (x : BitVec 6) (y : BitVec 6)
  | sbBrk (x : BitVec 6) (y : BitVec 6)
  | get (x : BitVec 6) (y : BitVec 6) (zr : BitVec 6)
  | put (x : BitVec 6) (y : BitVec 6) (zr : BitVec 6)
  | getW (x : BitVec 6) (y : BitVec 6)
  | putW (x : BitVec 6) (y : BitVec 6)
  | mig (x : BitVec 6) (y : BitVec 6) (zr : BitVec 6)
  | ramoAdd (d : BitVec 6) (a : BitVec 6) (b : BitVec 6) (w : Bool)
  | ramoAnd (d : BitVec 6) (a : BitVec 6) (b : BitVec 6) (w : Bool)
  | ramoOr (d : BitVec 6) (a : BitVec 6) (b : BitVec 6) (w : Bool)
  | ramoXor (d : BitVec 6) (a : BitVec 6) (b : BitVec 6) (w : Bool)
  | ramoMin (d : BitVec 6) (a : BitVec 6) (b : BitVec 6) (w : Bool)
  | ramoMax (d : BitVec 6) (a : BitVec 6) (b : BitVec 6) (w : Bool)
  | ramoMinz (d : BitVec 6) (a : BitVec 6) (b : BitVec 6) (w : Bool)
  | ramoMaxz (d : BitVec 6) (a : BitVec 6) (b : BitVec 6) (w : Bool)
  | ramoSwap (d : BitVec 6) (a : BitVec 6) (b : BitVec 6) (w : Bool)
  | ramoCas (d : BitVec 6) (a : BitVec 6) (b : BitVec 6) (w : Bool)
  | clkRd (x : BitVec 6) (y : BitVec 6)
  | stStamp (x : BitVec 6) (y : BitVec 6) (zr : BitVec 6)
  | ldAsof (x : BitVec 6) (y : BitVec 6) (zr : BitVec 6)
  | clkWt (x : BitVec 6)
  | stpRd (x : BitVec 6) (y : BitVec 6)
  | tryEach (x : BitVec 6) (y : BitVec 6) (zr : BitVec 6)
  | cutto (x : BitVec 6)
  | cpmark (x : BitVec 6)
  | tsteal (x : BitVec 6) (y : BitVec 6)
  | nop
  | cdone
  | drainst
  | cend
  | sret
  | ebrk
  | sfqPop
  | mwait
  | gwait
  | fail
  | cut
  /-- CHUNK_COMMIT: Numbers: sid. -/
  | chunkCommit
  /-- CHUNK_LIMIT: Numbers: sid. -/
  | chunkLimit
  /-- LINE_LIMIT: Numbers: sid. -/
  | lineLimit
  /-- PAIR_MISMATCH: Numbers: sid. -/
  | pairMismatch
  /-- RESULT_RETURN: Numbers: sid, k. -/
  | resultReturn
  /-- ICACHE_FILL: Numbers: sid. -/
  | icacheFill
  /-- TRAP_ENTRY: Numbers: sid. -/
  | trapEntry
  /-- MACHINE_CHECK: Numbers: sid, unit, addr. -/
  | machineCheck
  /-- TRANSLATION_LOOKUP: Numbers: sid. -/
  | translationLookup
  /-- PLB_FILL: Numbers: sid. -/
  | plbFill
  /-- PGFLT_ANSWER: Numbers: sid, resume. -/
  | pgfltAnswer
  /-- L1_FILL: Numbers: cid, k. -/
  | l1Fill
  /-- SIBLING_ACCESS: Numbers: sid, k, j. -/
  | siblingAccess
  /-- AMO_EXECUTE: Numbers: mid. -/
  | amoExecute
  /-- VECTOR_DISPATCH: Numbers: qid. -/
  | vectorDispatch
  /-- MATRIX_BLOCK: Numbers: qid. -/
  | matrixBlock
  /-- ACC_TRANSFER: Numbers: qid. -/
  | accTransfer
  /-- BALANCER: Numbers: die, layer, idx. -/
  | balancer
  /-- COUNTER_CELL: Numbers: die, j. -/
  | counterCell
  /-- BARRIER_TREE: Numbers: die, ctx. -/
  | barrierTree
  /-- RELEASE_MULTICAST: Numbers: mid. -/
  | releaseMulticast
  /-- DIE_QUEUE_SPILL: Numbers: mid. -/
  | dieQueueSpill
  /-- DIE_QUEUE_CLAIM: Numbers: cid. -/
  | dieQueueClaim
  /-- CDEC_APPLY: Numbers: mid. -/
  | cdecApply
  /-- DEQUE_PUSH: Numbers: mid. -/
  | dequePush
  /-- CARM_APPLY: Numbers: mid. -/
  | carmApply
  /-- FIND_WORK: Numbers: sid. -/
  | findWork
  /-- CSTEAL_TAKE: Numbers: mid. -/
  | cstealTake
  /-- COPY_ACCEPT: Numbers: sid. -/
  | copyAccept
  /-- COPY_COMPLETE: Numbers: qid, slot, n. -/
  | copyComplete
  /-- BARRIER_BYTES: Numbers: mid. -/
  | barrierBytes
  /-- COPY_FAULT: Numbers: qid, slot, err. -/
  | copyFault
  /-- SAVE_TRANSFER: Numbers: qid. -/
  | saveTransfer
  /-- GANG_RESUME: Numbers: gang. -/
  | gangResume
  /-- QUIT_MARK: Numbers: mid. -/
  | quitMark
  /-- REMOTE_PERFORM: Numbers: rid, k. -/
  | remotePerform
  /-- REMOTE_COMPLETE: Numbers: rid. -/
  | remoteComplete
  /-- REMOTE_TIMEOUT: Numbers: rid. -/
  | remoteTimeout
  /-- MIGRATION: Numbers: rid, err. -/
  | migration
  /-- DIE_FENCE: Numbers: die. -/
  | dieFence
  /-- PORT_LOSS: Numbers: port. -/
  | portLoss
  /-- STAMP_VERSION: Numbers: mid. -/
  | stampVersion
  /-- STAMP_RELEASE: Numbers: die. -/
  | stampRelease
  /-- VERSION_APPLY: Numbers: line. -/
  | versionApply
  /-- HORIZON_COLLECT: No operands. -/
  | horizonCollect
  /-- HORIZON_UPDATE: Numbers: die. -/
  | horizonUpdate
  /-- HORIZON_EXCHANGE: Numbers: g. -/
  | horizonExchange
  /-- STAMPED_READ: Numbers: sid, k, j. -/
  | stampedRead
  /-- CLOCK_DISCIPLINE: Numbers: die, up, hold. -/
  | clockDiscipline
  /-- CLOCK_WAIT_EXPIRY: Numbers: sid. -/
  | clockWaitExpiry
  /-- IDLE_TIMEOUT: Numbers: sid. -/
  | idleTimeout
  /-- EBRK_RELEASE: Numbers: sid. -/
  | ebrkRelease
  /-- GANG_TIMEOUT: Numbers: gang. -/
  | gangTimeout
  /-- GANG_END: Numbers: gang. -/
  | gangEnd
  /-- LOAD: Numbers: sender, id, frames; bytes: body. -/
  | load
  /-- MAP_PAGE: Numbers: sender, id, off, last, dom, a, b, c. -/
  | mapPage
  /-- UNMAP_PAGE: Numbers: sender, id, off, last, dom, a, b, c. -/
  | unmapPage
  /-- SET_REGION: Numbers: sender, id, off, last, dom, a, b, c. -/
  | setRegion
  /-- REMOVE_REGION: Numbers: sender, id, off, last, dom, a, b, c. -/
  | removeRegion
  /-- SET_DOMAIN: Numbers: sender, id, off, last, dom, a, b, c, array. -/
  | setDomain
  /-- SET_SENDER: Numbers: sender, id, off, last, dom, a, b, c. -/
  | setSender
  /-- REGISTER_PEER: Numbers: sender, id, off, last, dom, a, b, c. -/
  | registerPeer
  /-- LAUNCH: Numbers: sender, id, va, frame, arrays; bytes: body. -/
  | launch
  /-- LAUNCH_DEQUEUE: Numbers: va, frame, arrays. -/
  | launchDequeue
  /-- QUERY_GANGS: Numbers: sender, id. -/
  | queryGangs
  /-- QUERY_FEATURES: Numbers: sender, id, gang. -/
  | queryFeatures
  /-- QUERY_SENSORS: Numbers: sender, id. -/
  | querySensors
  /-- QUERY_LOG: Numbers: sender, id, start. -/
  | queryLog
  /-- QUERY_IDENTITY: Numbers: sender, id; bytes: nonce. -/
  | queryIdentity
  /-- QUERY_GANG: Numbers: sender, id, gang. -/
  | queryGang
  /-- KILL: Numbers: sender, id, gang. -/
  | kill
  /-- PREPARE: Numbers: peer, gang, va, frame, arrays; bytes: body. -/
  | prepare
  /-- READY: Numbers: peer, gang, status, stamp. -/
  | ready
  /-- GO: Numbers: peer, gang, stamp. -/
  | go
  /-- ABORT: Numbers: peer, gang. -/
  | abort
  /-- LATE: Numbers: peer, gang, kill. -/
  | late
  /-- LAUNCH_DEADLINE: Numbers: gang. -/
  | launchDeadline
  /-- CHIP_START: Numbers: gang. -/
  | chipStart
  /-- POWER_GOOD: Numbers: failed, drt, t64, t32. -/
  | powerGood
  /-- THERMAL_ALARM: Numbers: sensor, reading. -/
  | thermalAlarm
  /-- POWER_REMOVAL: Numbers: cause. -/
  | powerRemoval
  /-- FIRMWARE_UPDATE: Numbers: image, version; bytes: body. -/
  | firmwareUpdate
  /-- ADMIN_LIST_WRITE: Numbers: admins. -/
  | adminListWrite
  /-- CPSTK_WRITE: Numbers: sid, v. -/
  | cpstkWrite
  /-- TRAIL_WRITE: Numbers: sid, v. -/
  | trailWrite
  /-- TPC_WRITE: Numbers: sid, sset, v. -/
  | tpcWrite
  /-- FFLAGS_ACCESS: Numbers: sid. -/
  | fflagsAccess
  /-- CSR_WRITE: Numbers: sid, csr, v. -/
  | csrWrite
  /-- UNASSIGNED_WORD: Numbers: w. -/
  | unassignedWord
  /-- CHIP_LOSS: Numbers: gang, chip. -/
  | chipLoss
  /-- LOSS_OF_DISCIPLINE: No operands. -/
  | lossOfDiscipline
  /-- CONDITION_CLEARS: No operands. -/
  | conditionClears
  /-- MESSAGE_DROPPED: Bytes: body. -/
  | messageDropped
  deriving DecidableEq, Repr

/-- A turn of the schedule: a strand takes an issue slot (01 R7), or an event of the part happens. -/
inductive Turn where
  | issue (sid : Nat)
  | event (e : Instr) (arg : Args)
  deriving DecidableEq, Repr, Inhabited

end Sys2Proof
end

