-- ==== Sys2Proof/WellFormed.lean ====
section
/-! DEFINITION. Which terms of the syntax are instructions of the part: the fields that 03 R49 reserves when a form is
unmasked, and the scopes of fence (03 R55). Every other field takes every value of its width. -/

namespace Sys2Proof

/-- 03 R49: with `m` clear the mask register and `z` are reserved, so they are zero. -/
def Instr.maskFieldsOk (vm : BitVec 3) (z m : Bool) : Bool := m || (vm == 0 && !z)

/-- An instruction the decoder can answer: its reserved fields are zero and its scope is one of the four. An event has
no word and is well formed as it stands. -/
def Instr.wellFormed : Instr → Bool
  | .add _ _ _ => true
  | .sub _ _ _ => true
  | .mul _ _ _ => true
  | .mulh _ _ _ => true
  | .mulhz _ _ _ => true
  | .div _ _ _ => true
  | .divz _ _ _ => true
  | .rem _ _ _ => true
  | .remz _ _ _ => true
  | .and _ _ _ => true
  | .or _ _ _ => true
  | .xor _ _ _ => true
  | .andn _ _ _ => true
  | .shl _ _ _ => true
  | .shr _ _ _ => true
  | .sha _ _ _ => true
  | .rol _ _ _ => true
  | .min _ _ _ => true
  | .max _ _ _ => true
  | .minz _ _ _ => true
  | .maxz _ _ _ => true
  | .clz _ _ => true
  | .ctz _ _ => true
  | .popc _ _ => true
  | .mov _ _ => true
  | .sel _ _ _ => true
  | .addI _ _ _ => true
  | .andI _ _ _ => true
  | .orI _ _ _ => true
  | .xorI _ _ _ => true
  | .shlI _ _ _ => true
  | .shrI _ _ _ => true
  | .shaI _ _ _ => true
  | .rolI _ _ _ => true
  | .li _ _ => true
  | .lis _ _ => true
  | .setEq _ _ _ => true
  | .setNe _ _ _ => true
  | .setLt _ _ _ => true
  | .setGe _ _ _ => true
  | .setLo _ _ _ => true
  | .setHs _ _ _ => true
  | .cincr _ _ _ => true
  | .cset _ _ _ => true
  | .cbnd _ _ _ => true
  | .cbndr _ _ _ => true
  | .cperm _ _ _ => true
  | .cseal _ _ _ => true
  | .cunseal _ _ _ => true
  | .cbase _ _ => true
  | .clen _ _ => true
  | .cperms _ _ => true
  | .ctag _ _ => true
  | .cclr _ _ => true
  | .ceq _ _ _ => true
  | .csub _ _ _ => true
  | .cincrI _ _ _ => true
  | .bEq _ _ _ => true
  | .bNe _ _ _ => true
  | .bLt _ _ _ => true
  | .bGe _ _ _ => true
  | .bLo _ _ _ => true
  | .bHs _ _ _ => true
  | .jmp _ => true
  | .call _ => true
  | .jr _ => true
  | .callr _ => true
  | .rptConst _ _ _ _ _ => true
  | .rptReg _ _ _ _ _ => true
  | .nop => true
  | .cdone => true
  | .ldB _ _ _ => true
  | .ldBz _ _ _ => true
  | .ldH _ _ _ => true
  | .ldHz _ _ _ => true
  | .ldW _ _ _ => true
  | .ldWz _ _ _ => true
  | .ldD _ _ _ => true
  | .ldQ _ _ _ => true
  | .stB _ _ _ => true
  | .stH _ _ _ => true
  | .stW _ _ _ => true
  | .stD _ _ _ => true
  | .stQ _ _ _ => true
  | .stc _ _ _ => true
  | .vld _ _ vm z m => maskFieldsOk vm z m
  | .vst _ _ vm m => maskFieldsOk vm false m
  | .vldS _ _ _ vm z m => maskFieldsOk vm z m
  | .vstS _ _ _ vm m => maskFieldsOk vm false m
  | .vldX _ _ _ vm z m => maskFieldsOk vm z m
  | .vstX _ _ _ vm m => maskFieldsOk vm false m
  | .vldB _ _ vm z m => maskFieldsOk vm z m
  | .vldH _ _ vm z m => maskFieldsOk vm z m
  | .vstH _ _ vm m => maskFieldsOk vm false m
  | .vldHs _ _ _ vm z m => maskFieldsOk vm z m
  | .vstHs _ _ _ vm m => maskFieldsOk vm false m
  | .vldHx _ _ _ vm z m => maskFieldsOk vm z m
  | .vstHx _ _ _ vm m => maskFieldsOk vm false m
  | .pref _ _ => true
  | .cln _ _ => true
  | .inv _ _ => true
  | .drainst => true
  | .fence _ scope => !scope.getLsbD 2
  | .cend => true
  | .trap _ => true
  | .sret => true
  | .idle _ => true
  | .ctxSave _ => true
  | .ctxLoad _ => true
  | .gquit _ => true
  | .gkill _ => true
  | .gpre _ => true
  | .ebrk => true
  | .csrr _ _ => true
  | .csrw _ _ => true
  | .csrx _ _ _ => true
  | .sfqRd _ _ _ => true
  | .sfqPop => true
  | .plbInv _ _ => true
  | .mapInv _ _ => true
  | .amoAdd _ _ _ _ => true
  | .amoAnd _ _ _ _ => true
  | .amoOr _ _ _ _ => true
  | .amoXor _ _ _ _ => true
  | .amoMin _ _ _ _ => true
  | .amoMax _ _ _ _ => true
  | .amoMinz _ _ _ _ => true
  | .amoMaxz _ _ _ _ => true
  | .amoSwap _ _ _ _ => true
  | .amoCas _ _ _ _ => true
  | .amoFaddW _ _ _ => true
  | .amoTopkD _ _ _ => true
  | .bnCnt _ _ => true
  | .bnAnti _ _ => true
  | .bnSpread _ _ => true
  | .bnArr _ _ => true
  | .bnWait _ _ => true
  | .bnCfg _ _ => true
  | .bnClr _ _ => true
  | .bnRd _ _ => true
  | .vadd _ _ _ vm z m => maskFieldsOk vm z m
  | .vsub _ _ _ vm z m => maskFieldsOk vm z m
  | .vmul _ _ _ vm z m => maskFieldsOk vm z m
  | .vfma _ _ _ vm z m => maskFieldsOk vm z m
  | .vfms _ _ _ vm z m => maskFieldsOk vm z m
  | .vfnma _ _ _ vm z m => maskFieldsOk vm z m
  | .vmin _ _ _ vm z m => maskFieldsOk vm z m
  | .vmax _ _ _ vm z m => maskFieldsOk vm z m
  | .vabs _ _ vm z m => maskFieldsOk vm z m
  | .vneg _ _ vm z m => maskFieldsOk vm z m
  | .vcmpEq _ _ _ vm z m => maskFieldsOk vm z m
  | .vcmpLt _ _ _ vm z m => maskFieldsOk vm z m
  | .vcmpLe _ _ _ vm z m => maskFieldsOk vm z m
  | .vcmpUn _ _ _ vm z m => maskFieldsOk vm z m
  | .vrcpE _ _ vm z m => maskFieldsOk vm z m
  | .vrsqE _ _ vm z m => maskFieldsOk vm z m
  | .vgexp _ _ vm z m => maskFieldsOk vm z m
  | .vscl _ _ _ vm z m => maskFieldsOk vm z m
  | .vrnd _ _ vm z m => maskFieldsOk vm z m
  | .vsel _ _ _ _ => true
  | .vredsum _ _ vm m => maskFieldsOk vm false m
  | .vredmax _ _ vm m => maskFieldsOk vm false m
  | .vredmin _ _ vm m => maskFieldsOk vm false m
  | .vaddI _ _ _ vm z m => maskFieldsOk vm z m
  | .vsubI _ _ _ vm z m => maskFieldsOk vm z m
  | .vmulI _ _ _ vm z m => maskFieldsOk vm z m
  | .vand _ _ _ vm z m => maskFieldsOk vm z m
  | .vor _ _ _ vm z m => maskFieldsOk vm z m
  | .vxor _ _ _ vm z m => maskFieldsOk vm z m
  | .vshl _ _ _ vm z m => maskFieldsOk vm z m
  | .vshr _ _ _ vm z m => maskFieldsOk vm z m
  | .vsha _ _ _ vm z m => maskFieldsOk vm z m
  | .vminI _ _ _ vm z m => maskFieldsOk vm z m
  | .vmaxI _ _ _ vm z m => maskFieldsOk vm z m
  | .vcmpIeq _ _ _ vm z m => maskFieldsOk vm z m
  | .vcmpIlt _ _ _ vm z m => maskFieldsOk vm z m
  | .vcmpIlo _ _ _ vm z m => maskFieldsOk vm z m
  | .vredaddI _ _ vm m => maskFieldsOk vm false m
  | .vperm _ _ _ vm z m => maskFieldsOk vm z m
  | .vbc _ _ vm z m => maskFieldsOk vm z m
  | .vaddS _ _ _ vm z m => maskFieldsOk vm z m
  | .vmulS _ _ _ vm z m => maskFieldsOk vm z m
  | .vfmaS _ _ _ vm z m => maskFieldsOk vm z m
  | .vslup _ _ _ vm z m => maskFieldsOk vm z m
  | .vsldn _ _ _ vm z m => maskFieldsOk vm z m
  | .vidx _ _ vm z m => maskFieldsOk vm z m
  | .vext _ _ _ => true
  | .vins _ _ _ => true
  | .mpopc _ _ => true
  | .mfirst _ _ => true
  | .vcvtI2f _ _ vm z m => maskFieldsOk vm z m
  | .vcvtF2i _ _ vm z m => maskFieldsOk vm z m
  | .vcvtF2bf _ _ _ vm z m => maskFieldsOk vm z m
  | .vcvtBf2f _ _ vm z m => maskFieldsOk vm z m
  | .vcvtF2h _ _ _ vm z m => maskFieldsOk vm z m
  | .vcvtH2f _ _ vm z m => maskFieldsOk vm z m
  | .mmaT8 _ _ _ _ => true
  | .mmaT6 _ _ _ _ => true
  | .mmaI8 _ _ _ _ => true
  | .mmaBf _ _ _ _ => true
  | .mmaH _ _ _ _ => true
  | .mzero _ => true
  | .mld _ _ _ => true
  | .mst _ _ _ => true
  | .mwait => true
  | .mwaitSus _ => true
  | .mwaitRes _ => true
  | .cdec _ _ => true
  | .cpush _ _ => true
  | .carm _ _ => true
  | .csteal _ _ => true
  | .cpT _ _ _ => true
  | .cpB _ _ _ => true
  | .cpG _ _ _ => true
  | .cpWait _ => true
  | .cpSt _ _ => true
  | .sbInit _ _ => true
  | .sbArr _ => true
  | .sbExp _ _ => true
  | .sbTest _ _ _ => true
  | .sbWait _ _ => true
  | .sbBrk _ _ => true
  | .get _ _ _ => true
  | .put _ _ _ => true
  | .getW _ _ => true
  | .putW _ _ => true
  | .gwait => true
  | .mig _ _ _ => true
  | .ramoAdd _ _ _ _ => true
  | .ramoAnd _ _ _ _ => true
  | .ramoOr _ _ _ _ => true
  | .ramoXor _ _ _ _ => true
  | .ramoMin _ _ _ _ => true
  | .ramoMax _ _ _ _ => true
  | .ramoMinz _ _ _ _ => true
  | .ramoMaxz _ _ _ _ => true
  | .ramoSwap _ _ _ _ => true
  | .ramoCas _ _ _ _ => true
  | .clkRd _ _ => true
  | .stStamp _ _ _ => true
  | .ldAsof _ _ _ => true
  | .clkWt _ => true
  | .stpRd _ _ => true
  | .tryEach _ _ _ => true
  | .fail => true
  | .cut => true
  | .cutto _ => true
  | .cpmark _ => true
  | .tsteal _ _ => true
  | .chunkCommit => true
  | .chunkLimit => true
  | .lineLimit => true
  | .pairMismatch => true
  | .resultReturn => true
  | .icacheFill => true
  | .trapEntry => true
  | .machineCheck => true
  | .translationLookup => true
  | .plbFill => true
  | .pgfltAnswer => true
  | .l1Fill => true
  | .siblingAccess => true
  | .amoExecute => true
  | .vectorDispatch => true
  | .matrixBlock => true
  | .accTransfer => true
  | .balancer => true
  | .counterCell => true
  | .barrierTree => true
  | .releaseMulticast => true
  | .dieQueueSpill => true
  | .dieQueueClaim => true
  | .cdecApply => true
  | .dequePush => true
  | .carmApply => true
  | .findWork => true
  | .cstealTake => true
  | .copyAccept => true
  | .copyComplete => true
  | .barrierBytes => true
  | .copyFault => true
  | .saveTransfer => true
  | .gangResume => true
  | .quitMark => true
  | .remotePerform => true
  | .remoteComplete => true
  | .remoteTimeout => true
  | .migration => true
  | .dieFence => true
  | .portLoss => true
  | .stampVersion => true
  | .stampRelease => true
  | .versionApply => true
  | .horizonCollect => true
  | .horizonUpdate => true
  | .horizonExchange => true
  | .stampedRead => true
  | .clockDiscipline => true
  | .clockWaitExpiry => true
  | .idleTimeout => true
  | .ebrkRelease => true
  | .gangTimeout => true
  | .gangEnd => true
  | .load => true
  | .mapPage => true
  | .unmapPage => true
  | .setRegion => true
  | .removeRegion => true
  | .setDomain => true
  | .setSender => true
  | .registerPeer => true
  | .launch => true
  | .launchDequeue => true
  | .queryGangs => true
  | .queryFeatures => true
  | .querySensors => true
  | .queryLog => true
  | .queryIdentity => true
  | .queryGang => true
  | .kill => true
  | .prepare => true
  | .ready => true
  | .go => true
  | .abort => true
  | .late => true
  | .launchDeadline => true
  | .chipStart => true
  | .powerGood => true
  | .thermalAlarm => true
  | .powerRemoval => true
  | .firmwareUpdate => true
  | .adminListWrite => true
  | .cpstkWrite => true
  | .trailWrite => true
  | .tpcWrite => true
  | .fflagsAccess => true
  | .csrWrite => true
  | .unassignedWord => true
  | .chipLoss => true
  | .lossOfDiscipline => true
  | .conditionClears => true
  | .messageDropped => true

end Sys2Proof
end

