-- ==== Sys2Proof/Decode.lean ====
section
/-! DEFINITION. The decoder (03 R47 to R58) and, after it, the encoder written from the same formats. A word is read as
one of the thirteen formats that its major opcode selects (03 R48, R54); a word that is no instruction is rejected by the
name of the first of the checks 1 to 3 of 03 R51 that it fails. -/

namespace Sys2Proof

/-- Why a word is no instruction: the first failing check of 03 R51. -/
inductive Reject where
  /-- Check 1: the major opcode is unassigned. -/
  | major
  /-- Check 2: the function, kind, mode or condition code is unassigned for the major. -/
  | function
  /-- Check 3: a reserved field, or a reserved bit inside a field, is not zero. -/
  | reserved
  deriving DecidableEq, Repr

/-- The park marker of a word (03 R47). -/
def parkBit (w : BitVec 32) : Bool := w.getLsbD 31

/-- The major opcode of a word (03 R47). -/
def majorOf (w : BitVec 32) : BitVec 6 := w.extractLsb' 25 6

/-- Format A3 (03 R48): two g sources, one g destination. -/
structure FA3 where
  gd : BitVec 6
  ga : BitVec 6
  gb : BitVec 6
  fn : BitVec 7
  deriving DecidableEq, Repr

/-- The fields of a word under format A3. -/
def readFA3 (w : BitVec 32) : FA3 :=
  { gd := w.extractLsb' 19 6, ga := w.extractLsb' 13 6, gb := w.extractLsb' 7 6, fn := w.extractLsb' 0 7 }

/-- The word of a park marker, a major opcode and the fields of format A3, most significant first. -/
def wordFA3 (p : Bool) (major : BitVec 6) (f : FA3) : BitVec 32 :=
  (BitVec.ofBool p ++ major ++ f.gd ++ f.ga ++ f.gb ++ f.fn : BitVec 32)

/-- Format AI (03 R48): a 13-bit immediate. -/
structure FAI where
  gd : BitVec 6
  ga : BitVec 6
  imm13 : BitVec 13
  deriving DecidableEq, Repr

/-- The fields of a word under format AI. -/
def readFAI (w : BitVec 32) : FAI :=
  { gd := w.extractLsb' 19 6, ga := w.extractLsb' 13 6, imm13 := w.extractLsb' 0 13 }

/-- The word of a park marker, a major opcode and the fields of format AI, most significant first. -/
def wordFAI (p : Bool) (major : BitVec 6) (f : FAI) : BitVec 32 :=
  (BitVec.ofBool p ++ major ++ f.gd ++ f.ga ++ f.imm13 : BitVec 32)

/-- Format AL (03 R48): a 19-bit immediate. -/
structure FAL where
  gd : BitVec 6
  imm19 : BitVec 19
  deriving DecidableEq, Repr

/-- The fields of a word under format AL. -/
def readFAL (w : BitVec 32) : FAL :=
  { gd := w.extractLsb' 19 6, imm19 := w.extractLsb' 0 19 }

/-- The word of a park marker, a major opcode and the fields of format AL, most significant first. -/
def wordFAL (p : Bool) (major : BitVec 6) (f : FAL) : BitVec 32 :=
  (BitVec.ofBool p ++ major ++ f.gd ++ f.imm19 : BitVec 32)

/-- Format BR (03 R48): a conditional branch. -/
structure FBR where
  cond : BitVec 3
  ga : BitVec 6
  gb : BitVec 6
  off10 : BitVec 10
  deriving DecidableEq, Repr

/-- The fields of a word under format BR. -/
def readFBR (w : BitVec 32) : FBR :=
  { cond := w.extractLsb' 22 3, ga := w.extractLsb' 16 6, gb := w.extractLsb' 10 6, off10 := w.extractLsb' 0 10 }

/-- The word of a park marker, a major opcode and the fields of format BR, most significant first. -/
def wordFBR (p : Bool) (major : BitVec 6) (f : FBR) : BitVec 32 :=
  (BitVec.ofBool p ++ major ++ f.cond ++ f.ga ++ f.gb ++ f.off10 : BitVec 32)

/-- Format JL (03 R48): a direct jump. -/
structure FJL where
  off25 : BitVec 25
  deriving DecidableEq, Repr

/-- The fields of a word under format JL. -/
def readFJL (w : BitVec 32) : FJL :=
  { off25 := w.extractLsb' 0 25 }

/-- The word of a park marker, a major opcode and the fields of format JL, most significant first. -/
def wordFJL (p : Bool) (major : BitVec 6) (f : FJL) : BitVec 32 :=
  (BitVec.ofBool p ++ major ++ f.off25 : BitVec 32)

/-- Format MM (03 R48): a scalar memory access. -/
structure FMM where
  g : BitVec 6
  ga : BitVec 6
  kind : BitVec 3
  off10 : BitVec 10
  deriving DecidableEq, Repr

/-- The fields of a word under format MM. -/
def readFMM (w : BitVec 32) : FMM :=
  { g := w.extractLsb' 19 6, ga := w.extractLsb' 13 6, kind := w.extractLsb' 10 3, off10 := w.extractLsb' 0 10 }

/-- The word of a park marker, a major opcode and the fields of format MM, most significant first. -/
def wordFMM (p : Bool) (major : BitVec 6) (f : FMM) : BitVec 32 :=
  (BitVec.ofBool p ++ major ++ f.g ++ f.ga ++ f.kind ++ f.off10 : BitVec 32)

/-- Format V3 (03 R48): two vector sources. -/
structure FV3 where
  vd : BitVec 5
  va : BitVec 5
  vb : BitVec 5
  vm : BitVec 3
  z : Bool
  m : Bool
  fn : BitVec 5
  deriving DecidableEq, Repr

/-- The fields of a word under format V3. -/
def readFV3 (w : BitVec 32) : FV3 :=
  { vd := w.extractLsb' 20 5, va := w.extractLsb' 15 5, vb := w.extractLsb' 10 5, vm := w.extractLsb' 7 3, z := w.getLsbD 6, m := w.getLsbD 5, fn := w.extractLsb' 0 5 }

/-- The word of a park marker, a major opcode and the fields of format V3, most significant first. -/
def wordFV3 (p : Bool) (major : BitVec 6) (f : FV3) : BitVec 32 :=
  (BitVec.ofBool p ++ major ++ f.vd ++ f.va ++ f.vb ++ f.vm ++ BitVec.ofBool f.z ++ BitVec.ofBool f.m ++ f.fn : BitVec 32)

/-- Format VG (03 R48): a vector and a scalar source. -/
structure FVG where
  vd : BitVec 5
  va : BitVec 5
  gb : BitVec 6
  vm : BitVec 3
  z : Bool
  m : Bool
  fn : BitVec 4
  deriving DecidableEq, Repr

/-- The fields of a word under format VG. -/
def readFVG (w : BitVec 32) : FVG :=
  { vd := w.extractLsb' 20 5, va := w.extractLsb' 15 5, gb := w.extractLsb' 9 6, vm := w.extractLsb' 6 3, z := w.getLsbD 5, m := w.getLsbD 4, fn := w.extractLsb' 0 4 }

/-- The word of a park marker, a major opcode and the fields of format VG, most significant first. -/
def wordFVG (p : Bool) (major : BitVec 6) (f : FVG) : BitVec 32 :=
  (BitVec.ofBool p ++ major ++ f.vd ++ f.va ++ f.gb ++ f.vm ++ BitVec.ofBool f.z ++ BitVec.ofBool f.m ++ f.fn : BitVec 32)

/-- Format VM (03 R48): a vector memory access. -/
structure FVM where
  v : BitVec 5
  ga : BitVec 6
  gb : BitVec 6
  vm : BitVec 3
  z : Bool
  m : Bool
  mode : BitVec 3
  deriving DecidableEq, Repr

/-- The fields of a word under format VM. -/
def readFVM (w : BitVec 32) : FVM :=
  { v := w.extractLsb' 20 5, ga := w.extractLsb' 14 6, gb := w.extractLsb' 8 6, vm := w.extractLsb' 5 3, z := w.getLsbD 4, m := w.getLsbD 3, mode := w.extractLsb' 0 3 }

/-- The word of a park marker, a major opcode and the fields of format VM, most significant first. -/
def wordFVM (p : Bool) (major : BitVec 6) (f : FVM) : BitVec 32 :=
  (BitVec.ofBool p ++ major ++ f.v ++ f.ga ++ f.gb ++ f.vm ++ BitVec.ofBool f.z ++ BitVec.ofBool f.m ++ f.mode : BitVec 32)

/-- Format VX (03 R48): an element move. -/
structure FVX where
  v : BitVec 5
  g : BitVec 6
  idx6 : BitVec 6
  rsv : BitVec 4
  fn : BitVec 4
  deriving DecidableEq, Repr

/-- The fields of a word under format VX. -/
def readFVX (w : BitVec 32) : FVX :=
  { v := w.extractLsb' 20 5, g := w.extractLsb' 14 6, idx6 := w.extractLsb' 8 6, rsv := w.extractLsb' 4 4, fn := w.extractLsb' 0 4 }

/-- The word of a park marker, a major opcode and the fields of format VX, most significant first. -/
def wordFVX (p : Bool) (major : BitVec 6) (f : FVX) : BitVec 32 :=
  (BitVec.ofBool p ++ major ++ f.v ++ f.g ++ f.idx6 ++ f.rsv ++ f.fn : BitVec 32)

/-- Format XE (03 R48): three g operands. -/
structure FXE where
  x : BitVec 6
  y : BitVec 6
  zreg : BitVec 6
  fn : BitVec 7
  deriving DecidableEq, Repr

/-- The fields of a word under format XE. -/
def readFXE (w : BitVec 32) : FXE :=
  { x := w.extractLsb' 19 6, y := w.extractLsb' 13 6, zreg := w.extractLsb' 7 6, fn := w.extractLsb' 0 7 }

/-- The word of a park marker, a major opcode and the fields of format XE, most significant first. -/
def wordFXE (p : Bool) (major : BitVec 6) (f : FXE) : BitVec 32 :=
  (BitVec.ofBool p ++ major ++ f.x ++ f.y ++ f.zreg ++ f.fn : BitVec 32)

/-- Format MX (03 R48): a matrix instruction. -/
structure FMX where
  acc : BitVec 2
  ga : BitVec 6
  gb : BitVec 6
  ge : BitVec 6
  fn : BitVec 5
  deriving DecidableEq, Repr

/-- The fields of a word under format MX. -/
def readFMX (w : BitVec 32) : FMX :=
  { acc := w.extractLsb' 23 2, ga := w.extractLsb' 17 6, gb := w.extractLsb' 11 6, ge := w.extractLsb' 5 6, fn := w.extractLsb' 0 5 }

/-- The word of a park marker, a major opcode and the fields of format MX, most significant first. -/
def wordFMX (p : Bool) (major : BitVec 6) (f : FMX) : BitVec 32 :=
  (BitVec.ofBool p ++ major ++ f.acc ++ f.ga ++ f.gb ++ f.ge ++ f.fn : BitVec 32)

/-- Format RP (03 R48): a repeat frame. -/
structure FRP where
  len1 : BitVec 4
  dstep : BitVec 2
  astep : BitVec 2
  bstep : BitVec 2
  form : Bool
  count1 : BitVec 14
  deriving DecidableEq, Repr

/-- The fields of a word under format RP. -/
def readFRP (w : BitVec 32) : FRP :=
  { len1 := w.extractLsb' 21 4, dstep := w.extractLsb' 19 2, astep := w.extractLsb' 17 2, bstep := w.extractLsb' 15 2, form := w.getLsbD 14, count1 := w.extractLsb' 0 14 }

/-- The word of a park marker, a major opcode and the fields of format RP, most significant first. -/
def wordFRP (p : Bool) (major : BitVec 6) (f : FRP) : BitVec 32 :=
  (BitVec.ofBool p ++ major ++ f.len1 ++ f.dstep ++ f.astep ++ f.bstep ++ BitVec.ofBool f.form ++ f.count1 : BitVec 32)

/-- 03 R49: when `m` is 0 every lane is active, and `vm` and `z` are reserved. -/
def maskOk (vm : BitVec 3) (z m : Bool) : Bool := m || (vm == 0 && !z)

/-- An instruction whose reserved fields are zero (03 R51 check 3). -/
def whenZero (c : Bool) (i : Instr) : Except Reject Instr := if c then .ok i else .error .reserved

/-- Major 0x01, format A3 (03 R54). -/
def decodeInteger (f : FA3) : Except Reject Instr :=
  match f.fn.toNat with
  | 0 => .ok (.add f.gd f.ga f.gb)
  | 1 => .ok (.sub f.gd f.ga f.gb)
  | 2 => .ok (.mul f.gd f.ga f.gb)
  | 3 => .ok (.mulh f.gd f.ga f.gb)
  | 4 => .ok (.mulhz f.gd f.ga f.gb)
  | 5 => .ok (.div f.gd f.ga f.gb)
  | 6 => .ok (.divz f.gd f.ga f.gb)
  | 7 => .ok (.rem f.gd f.ga f.gb)
  | 8 => .ok (.remz f.gd f.ga f.gb)
  | 9 => .ok (.and f.gd f.ga f.gb)
  | 10 => .ok (.or f.gd f.ga f.gb)
  | 11 => .ok (.xor f.gd f.ga f.gb)
  | 12 => .ok (.andn f.gd f.ga f.gb)
  | 13 => .ok (.shl f.gd f.ga f.gb)
  | 14 => .ok (.shr f.gd f.ga f.gb)
  | 15 => .ok (.sha f.gd f.ga f.gb)
  | 16 => .ok (.rol f.gd f.ga f.gb)
  | 17 => .ok (.min f.gd f.ga f.gb)
  | 18 => .ok (.max f.gd f.ga f.gb)
  | 19 => .ok (.minz f.gd f.ga f.gb)
  | 20 => .ok (.maxz f.gd f.ga f.gb)
  | 21 => whenZero (f.gb == 0) (.clz f.gd f.ga)
  | 22 => whenZero (f.gb == 0) (.ctz f.gd f.ga)
  | 23 => whenZero (f.gb == 0) (.popc f.gd f.ga)
  | 24 => whenZero (f.gb == 0) (.mov f.gd f.ga)
  | 25 => .ok (.sel f.gd f.ga f.gb)
  | _ => .error .function

/-- Major 0x02, format AI (03 R54). -/
def decodeAddI (f : FAI) : Except Reject Instr :=
  .ok (.addI f.gd f.ga f.imm13)

/-- Major 0x03, format AI (03 R54). -/
def decodeAndI (f : FAI) : Except Reject Instr :=
  .ok (.andI f.gd f.ga f.imm13)

/-- Major 0x04, format AI (03 R54). -/
def decodeOrI (f : FAI) : Except Reject Instr :=
  .ok (.orI f.gd f.ga f.imm13)

/-- Major 0x05, format AI (03 R54). -/
def decodeXorI (f : FAI) : Except Reject Instr :=
  .ok (.xorI f.gd f.ga f.imm13)

/-- Major 0x06, format AI (03 R54). -/
def decodeShiftI (f : FAI) : Except Reject Instr :=
  match (f.imm13.extractLsb' 11 2).toNat with
  | 0 => whenZero (f.imm13.extractLsb' 6 5 == 0) (.shlI f.gd f.ga (f.imm13.extractLsb' 0 6))
  | 1 => whenZero (f.imm13.extractLsb' 6 5 == 0) (.shrI f.gd f.ga (f.imm13.extractLsb' 0 6))
  | 2 => whenZero (f.imm13.extractLsb' 6 5 == 0) (.shaI f.gd f.ga (f.imm13.extractLsb' 0 6))
  | _ => whenZero (f.imm13.extractLsb' 6 5 == 0) (.rolI f.gd f.ga (f.imm13.extractLsb' 0 6))

/-- Major 0x07, format AL (03 R54). -/
def decodeLi (f : FAL) : Except Reject Instr :=
  .ok (.li f.gd f.imm19)

/-- Major 0x08, format AL (03 R54). -/
def decodeLis (f : FAL) : Except Reject Instr :=
  .ok (.lis f.gd f.imm19)

/-- Major 0x09, format A3 (03 R54). -/
def decodeSet (f : FA3) : Except Reject Instr :=
  match f.fn.toNat with
  | 0 => .ok (.setEq f.gd f.ga f.gb)
  | 1 => .ok (.setNe f.gd f.ga f.gb)
  | 2 => .ok (.setLt f.gd f.ga f.gb)
  | 3 => .ok (.setGe f.gd f.ga f.gb)
  | 4 => .ok (.setLo f.gd f.ga f.gb)
  | 5 => .ok (.setHs f.gd f.ga f.gb)
  | _ => .error .function

/-- Major 0x0A, format A3 (03 R54). -/
def decodeCap (f : FA3) : Except Reject Instr :=
  match f.fn.toNat with
  | 0 => .ok (.cincr f.gd f.ga f.gb)
  | 1 => .ok (.cset f.gd f.ga f.gb)
  | 2 => .ok (.cbnd f.gd f.ga f.gb)
  | 3 => .ok (.cbndr f.gd f.ga f.gb)
  | 4 => .ok (.cperm f.gd f.ga f.gb)
  | 5 => .ok (.cseal f.gd f.ga f.gb)
  | 6 => .ok (.cunseal f.gd f.ga f.gb)
  | 7 => whenZero (f.gb == 0) (.cbase f.gd f.ga)
  | 8 => whenZero (f.gb == 0) (.clen f.gd f.ga)
  | 9 => whenZero (f.gb == 0) (.cperms f.gd f.ga)
  | 10 => whenZero (f.gb == 0) (.ctag f.gd f.ga)
  | 11 => whenZero (f.gb == 0) (.cclr f.gd f.ga)
  | 12 => .ok (.ceq f.gd f.ga f.gb)
  | 13 => .ok (.csub f.gd f.ga f.gb)
  | _ => .error .function

/-- Major 0x0B, format AI (03 R54). -/
def decodeCincrI (f : FAI) : Except Reject Instr :=
  .ok (.cincrI f.gd f.ga f.imm13)

/-- Major 0x0C, format BR (03 R54). -/
def decodeBranch (f : FBR) : Except Reject Instr :=
  match f.cond.toNat with
  | 0 => .ok (.bEq f.ga f.gb f.off10)
  | 1 => .ok (.bNe f.ga f.gb f.off10)
  | 2 => .ok (.bLt f.ga f.gb f.off10)
  | 3 => .ok (.bGe f.ga f.gb f.off10)
  | 4 => .ok (.bLo f.ga f.gb f.off10)
  | 5 => .ok (.bHs f.ga f.gb f.off10)
  | _ => .error .function

/-- Major 0x0D, format JL (03 R54). -/
def decodeJmp (f : FJL) : Except Reject Instr :=
  .ok (.jmp f.off25)

/-- Major 0x0E, format JL (03 R54). -/
def decodeCall (f : FJL) : Except Reject Instr :=
  .ok (.call f.off25)

/-- Major 0x0F, format A3 (03 R54). -/
def decodeJump (f : FA3) : Except Reject Instr :=
  match f.fn.toNat with
  | 0 => whenZero (f.gd == 0 && f.gb == 0) (.jr f.ga)
  | 1 => whenZero (f.gd == 0 && f.gb == 0) (.callr f.ga)
  | _ => .error .function

/-- Major 0x10, format RP (03 R54). -/
def decodeRpt (f : FRP) : Except Reject Instr :=
  if f.form then whenZero (f.count1.extractLsb' 0 8 == 0) (.rptReg f.len1 f.dstep f.astep f.bstep (f.count1.extractLsb' 8 6)) else .ok (.rptConst f.len1 f.dstep f.astep f.bstep f.count1)

/-- Major 0x11, format A3 (03 R54). -/
def decodeNopCdone (f : FA3) : Except Reject Instr :=
  match f.fn.toNat with
  | 0 => whenZero (f.gd == 0 && f.ga == 0 && f.gb == 0) (.nop)
  | 1 => whenZero (f.gd == 0 && f.ga == 0 && f.gb == 0) (.cdone)
  | _ => .error .function

/-- Major 0x12, format MM (03 R54). -/
def decodeLoad (f : FMM) : Except Reject Instr :=
  match f.kind.toNat with
  | 0 => .ok (.ldB f.g f.ga f.off10)
  | 1 => .ok (.ldBz f.g f.ga f.off10)
  | 2 => .ok (.ldH f.g f.ga f.off10)
  | 3 => .ok (.ldHz f.g f.ga f.off10)
  | 4 => .ok (.ldW f.g f.ga f.off10)
  | 5 => .ok (.ldWz f.g f.ga f.off10)
  | 6 => .ok (.ldD f.g f.ga f.off10)
  | 7 => .ok (.ldQ f.g f.ga f.off10)
  | _ => .error .function

/-- Major 0x13, format MM (03 R54). -/
def decodeStore (f : FMM) : Except Reject Instr :=
  match f.kind.toNat with
  | 0 => .ok (.stB f.g f.ga f.off10)
  | 1 => .ok (.stH f.g f.ga f.off10)
  | 2 => .ok (.stW f.g f.ga f.off10)
  | 3 => .ok (.stD f.g f.ga f.off10)
  | 4 => .ok (.stQ f.g f.ga f.off10)
  | 5 => .ok (.stc f.g f.ga f.off10)
  | _ => .error .function

/-- Major 0x14, format VM (03 R54). -/
def decodeVecMem (f : FVM) : Except Reject Instr :=
  match f.mode.toNat with
  | 0 => whenZero (f.gb == 0 && maskOk f.vm f.z f.m) (.vld f.v f.ga f.vm f.z f.m)
  | 1 => whenZero (f.gb == 0 && !f.z && maskOk f.vm false f.m) (.vst f.v f.ga f.vm f.m)
  | 2 => whenZero (maskOk f.vm f.z f.m) (.vldS f.v f.ga f.gb f.vm f.z f.m)
  | 3 => whenZero (!f.z && maskOk f.vm false f.m) (.vstS f.v f.ga f.gb f.vm f.m)
  | 4 => whenZero (!f.gb.getLsbD 5 && maskOk f.vm f.z f.m) (.vldX f.v f.ga (f.gb.extractLsb' 0 5) f.vm f.z f.m)
  | 5 => whenZero (!f.gb.getLsbD 5 && !f.z && maskOk f.vm false f.m) (.vstX f.v f.ga (f.gb.extractLsb' 0 5) f.vm f.m)
  | 6 => whenZero (f.gb == 0 && maskOk f.vm f.z f.m) (.vldB f.v f.ga f.vm f.z f.m)
  | _ => .error .function

/-- Major 0x15, format VM (03 R54). -/
def decodeVecMemH (f : FVM) : Except Reject Instr :=
  match f.mode.toNat with
  | 0 => whenZero (f.gb == 0 && maskOk f.vm f.z f.m) (.vldH f.v f.ga f.vm f.z f.m)
  | 1 => whenZero (f.gb == 0 && !f.z && maskOk f.vm false f.m) (.vstH f.v f.ga f.vm f.m)
  | 2 => whenZero (maskOk f.vm f.z f.m) (.vldHs f.v f.ga f.gb f.vm f.z f.m)
  | 3 => whenZero (!f.z && maskOk f.vm false f.m) (.vstHs f.v f.ga f.gb f.vm f.m)
  | 4 => whenZero (!f.gb.getLsbD 5 && maskOk f.vm f.z f.m) (.vldHx f.v f.ga (f.gb.extractLsb' 0 5) f.vm f.z f.m)
  | 5 => whenZero (!f.gb.getLsbD 5 && !f.z && maskOk f.vm false f.m) (.vstHx f.v f.ga (f.gb.extractLsb' 0 5) f.vm f.m)
  | _ => .error .function

/-- Major 0x16, format MM (03 R54). -/
def decodeLine (f : FMM) : Except Reject Instr :=
  match f.kind.toNat with
  | 0 => whenZero (f.g == 0) (.pref f.ga f.off10)
  | 1 => whenZero (f.g == 0) (.cln f.ga f.off10)
  | 2 => whenZero (f.g == 0) (.inv f.ga f.off10)
  | 3 => whenZero (f.g == 0 && f.ga == 0 && f.off10 == 0) (.drainst)
  | 4 => if f.off10.getLsbD 2 then .error .function else whenZero (f.g == 0 && f.ga == 0 && f.off10.extractLsb' 4 6 == 0) (.fence (f.off10.getLsbD 3) (f.off10.extractLsb' 0 3))
  | 5 => whenZero (f.g == 0 && f.ga == 0 && f.off10 == 0) (.cend)
  | _ => .error .function

/-- Major 0x17, format XE (03 R54). -/
def decodeSystem (f : FXE) : Except Reject Instr :=
  match f.fn.toNat with
  | 0 => whenZero (f.y == 0 && f.zreg == 0) (.trap f.x)
  | 1 => whenZero (f.x == 0 && f.y == 0 && f.zreg == 0) (.sret)
  | 2 => whenZero (f.y == 0 && f.zreg == 0) (.idle f.x)
  | 3 => whenZero (f.y == 0 && f.zreg == 0) (.ctxSave f.x)
  | 4 => whenZero (f.y == 0 && f.zreg == 0) (.ctxLoad f.x)
  | 5 => whenZero (f.y == 0 && f.zreg == 0) (.gquit f.x)
  | 6 => whenZero (f.y == 0 && f.zreg == 0) (.gkill f.x)
  | 7 => whenZero (f.y == 0 && f.zreg == 0) (.gpre f.x)
  | 8 => whenZero (f.x == 0 && f.y == 0 && f.zreg == 0) (.ebrk)
  | _ => .error .function

/-- Major 0x18, format AI (03 R54). -/
def decodeCsrr (f : FAI) : Except Reject Instr :=
  whenZero (f.ga == 0 && !f.imm13.getLsbD 12) (.csrr f.gd (f.imm13.extractLsb' 0 12))

/-- Major 0x19, format AI (03 R54). -/
def decodeCsrw (f : FAI) : Except Reject Instr :=
  whenZero (f.gd == 0 && !f.imm13.getLsbD 12) (.csrw f.ga (f.imm13.extractLsb' 0 12))

/-- Major 0x1A, format AI (03 R54). -/
def decodeCsrx (f : FAI) : Except Reject Instr :=
  whenZero (!f.imm13.getLsbD 12) (.csrx f.gd f.ga (f.imm13.extractLsb' 0 12))

/-- Major 0x1B, format XE (03 R54). -/
def decodeSfq (f : FXE) : Except Reject Instr :=
  match f.fn.toNat with
  | 0 => .ok (.sfqRd f.x f.y f.zreg)
  | 1 => whenZero (f.x == 0 && f.y == 0 && f.zreg == 0) (.sfqPop)
  | 2 => whenZero (f.zreg == 0) (.plbInv f.x f.y)
  | 3 => whenZero (f.zreg == 0) (.mapInv f.x f.y)
  | _ => .error .function

/-- Major 0x1C, format A3 (03 R54). -/
def decodeAmo (f : FA3) : Except Reject Instr :=
  match (f.fn.extractLsb' 0 6).toNat with
  | 0 => .ok (.amoAdd f.gd f.ga f.gb (f.fn.getLsbD 6))
  | 1 => .ok (.amoAnd f.gd f.ga f.gb (f.fn.getLsbD 6))
  | 2 => .ok (.amoOr f.gd f.ga f.gb (f.fn.getLsbD 6))
  | 3 => .ok (.amoXor f.gd f.ga f.gb (f.fn.getLsbD 6))
  | 4 => .ok (.amoMin f.gd f.ga f.gb (f.fn.getLsbD 6))
  | 5 => .ok (.amoMax f.gd f.ga f.gb (f.fn.getLsbD 6))
  | 6 => .ok (.amoMinz f.gd f.ga f.gb (f.fn.getLsbD 6))
  | 7 => .ok (.amoMaxz f.gd f.ga f.gb (f.fn.getLsbD 6))
  | 8 => .ok (.amoSwap f.gd f.ga f.gb (f.fn.getLsbD 6))
  | 9 => .ok (.amoCas f.gd f.ga f.gb (f.fn.getLsbD 6))
  | 10 => if f.fn.getLsbD 6 then .error .function else .ok (.amoFaddW f.gd f.ga f.gb)
  | 11 => if f.fn.getLsbD 6 then .ok (.amoTopkD f.gd f.ga f.gb) else .error .function
  | _ => .error .function

/-- Major 0x1D, format A3 (03 R54). -/
def decodeStitch (f : FA3) : Except Reject Instr :=
  match f.fn.toNat with
  | 0 => whenZero (f.gb == 0) (.bnCnt f.gd f.ga)
  | 1 => whenZero (f.gb == 0) (.bnAnti f.gd f.ga)
  | 2 => whenZero (f.gd == 0) (.bnSpread f.ga f.gb)
  | 3 => whenZero (f.gd == 0) (.bnArr f.ga f.gb)
  | 4 => whenZero (f.gd == 0) (.bnWait f.ga f.gb)
  | 5 => whenZero (f.gd == 0) (.bnCfg f.ga f.gb)
  | 6 => whenZero (f.gd == 0) (.bnClr f.ga f.gb)
  | 7 => whenZero (f.gb == 0) (.bnRd f.gd f.ga)
  | _ => .error .function

/-- Major 0x1E, format V3 (03 R54). -/
def decodeFp (f : FV3) : Except Reject Instr :=
  match f.fn.toNat with
  | 0 => whenZero (maskOk f.vm f.z f.m) (.vadd f.vd f.va f.vb f.vm f.z f.m)
  | 1 => whenZero (maskOk f.vm f.z f.m) (.vsub f.vd f.va f.vb f.vm f.z f.m)
  | 2 => whenZero (maskOk f.vm f.z f.m) (.vmul f.vd f.va f.vb f.vm f.z f.m)
  | 3 => whenZero (maskOk f.vm f.z f.m) (.vfma f.vd f.va f.vb f.vm f.z f.m)
  | 4 => whenZero (maskOk f.vm f.z f.m) (.vfms f.vd f.va f.vb f.vm f.z f.m)
  | 5 => whenZero (maskOk f.vm f.z f.m) (.vfnma f.vd f.va f.vb f.vm f.z f.m)
  | 6 => whenZero (maskOk f.vm f.z f.m) (.vmin f.vd f.va f.vb f.vm f.z f.m)
  | 7 => whenZero (maskOk f.vm f.z f.m) (.vmax f.vd f.va f.vb f.vm f.z f.m)
  | 8 => whenZero (f.vb == 0 && maskOk f.vm f.z f.m) (.vabs f.vd f.va f.vm f.z f.m)
  | 9 => whenZero (f.vb == 0 && maskOk f.vm f.z f.m) (.vneg f.vd f.va f.vm f.z f.m)
  | 10 => whenZero (maskOk f.vm f.z f.m) (.vcmpEq f.vd f.va f.vb f.vm f.z f.m)
  | 11 => whenZero (maskOk f.vm f.z f.m) (.vcmpLt f.vd f.va f.vb f.vm f.z f.m)
  | 12 => whenZero (maskOk f.vm f.z f.m) (.vcmpLe f.vd f.va f.vb f.vm f.z f.m)
  | 13 => whenZero (maskOk f.vm f.z f.m) (.vcmpUn f.vd f.va f.vb f.vm f.z f.m)
  | 14 => whenZero (f.vb == 0 && maskOk f.vm f.z f.m) (.vrcpE f.vd f.va f.vm f.z f.m)
  | 15 => whenZero (f.vb == 0 && maskOk f.vm f.z f.m) (.vrsqE f.vd f.va f.vm f.z f.m)
  | 16 => whenZero (f.vb == 0 && maskOk f.vm f.z f.m) (.vgexp f.vd f.va f.vm f.z f.m)
  | 17 => whenZero (maskOk f.vm f.z f.m) (.vscl f.vd f.va f.vb f.vm f.z f.m)
  | 18 => whenZero (f.vb == 0 && maskOk f.vm f.z f.m) (.vrnd f.vd f.va f.vm f.z f.m)
  | 19 => whenZero (!f.z && f.m) (.vsel f.vd f.va f.vb f.vm)
  | 20 => whenZero (f.vb == 0 && !f.z && maskOk f.vm false f.m) (.vredsum f.vd f.va f.vm f.m)
  | 21 => whenZero (f.vb == 0 && !f.z && maskOk f.vm false f.m) (.vredmax f.vd f.va f.vm f.m)
  | 22 => whenZero (f.vb == 0 && !f.z && maskOk f.vm false f.m) (.vredmin f.vd f.va f.vm f.m)
  | _ => .error .function

/-- Major 0x1F, format V3 (03 R54). -/
def decodeVint (f : FV3) : Except Reject Instr :=
  match f.fn.toNat with
  | 0 => whenZero (maskOk f.vm f.z f.m) (.vaddI f.vd f.va f.vb f.vm f.z f.m)
  | 1 => whenZero (maskOk f.vm f.z f.m) (.vsubI f.vd f.va f.vb f.vm f.z f.m)
  | 2 => whenZero (maskOk f.vm f.z f.m) (.vmulI f.vd f.va f.vb f.vm f.z f.m)
  | 3 => whenZero (maskOk f.vm f.z f.m) (.vand f.vd f.va f.vb f.vm f.z f.m)
  | 4 => whenZero (maskOk f.vm f.z f.m) (.vor f.vd f.va f.vb f.vm f.z f.m)
  | 5 => whenZero (maskOk f.vm f.z f.m) (.vxor f.vd f.va f.vb f.vm f.z f.m)
  | 6 => whenZero (maskOk f.vm f.z f.m) (.vshl f.vd f.va f.vb f.vm f.z f.m)
  | 7 => whenZero (maskOk f.vm f.z f.m) (.vshr f.vd f.va f.vb f.vm f.z f.m)
  | 8 => whenZero (maskOk f.vm f.z f.m) (.vsha f.vd f.va f.vb f.vm f.z f.m)
  | 9 => whenZero (maskOk f.vm f.z f.m) (.vminI f.vd f.va f.vb f.vm f.z f.m)
  | 10 => whenZero (maskOk f.vm f.z f.m) (.vmaxI f.vd f.va f.vb f.vm f.z f.m)
  | 11 => whenZero (maskOk f.vm f.z f.m) (.vcmpIeq f.vd f.va f.vb f.vm f.z f.m)
  | 12 => whenZero (maskOk f.vm f.z f.m) (.vcmpIlt f.vd f.va f.vb f.vm f.z f.m)
  | 13 => whenZero (maskOk f.vm f.z f.m) (.vcmpIlo f.vd f.va f.vb f.vm f.z f.m)
  | 14 => whenZero (f.vb == 0 && !f.z && maskOk f.vm false f.m) (.vredaddI f.vd f.va f.vm f.m)
  | 15 => whenZero (maskOk f.vm f.z f.m) (.vperm f.vd f.va f.vb f.vm f.z f.m)
  | _ => .error .function

/-- Major 0x20, format VG (03 R54). -/
def decodeVecScalar (f : FVG) : Except Reject Instr :=
  match f.fn.toNat with
  | 0 => whenZero (f.va == 0 && maskOk f.vm f.z f.m) (.vbc f.vd f.gb f.vm f.z f.m)
  | 1 => whenZero (maskOk f.vm f.z f.m) (.vaddS f.vd f.va f.gb f.vm f.z f.m)
  | 2 => whenZero (maskOk f.vm f.z f.m) (.vmulS f.vd f.va f.gb f.vm f.z f.m)
  | 3 => whenZero (maskOk f.vm f.z f.m) (.vfmaS f.vd f.va f.gb f.vm f.z f.m)
  | 4 => whenZero (maskOk f.vm f.z f.m) (.vslup f.vd f.va f.gb f.vm f.z f.m)
  | 5 => whenZero (maskOk f.vm f.z f.m) (.vsldn f.vd f.va f.gb f.vm f.z f.m)
  | 6 => whenZero (f.va == 0 && maskOk f.vm f.z f.m) (.vidx f.vd f.gb f.vm f.z f.m)
  | _ => .error .function

/-- Major 0x21, format VX (03 R54). -/
def decodeElement (f : FVX) : Except Reject Instr :=
  match f.fn.toNat with
  | 0 => whenZero (f.rsv == 0) (.vext f.v f.g f.idx6)
  | 1 => whenZero (f.rsv == 0) (.vins f.v f.g f.idx6)
  | 2 => whenZero (f.idx6 == 0 && f.rsv == 0) (.mpopc f.v f.g)
  | 3 => whenZero (f.idx6 == 0 && f.rsv == 0) (.mfirst f.v f.g)
  | _ => .error .function

/-- Major 0x22, format V3 (03 R54). -/
def decodeConvert (f : FV3) : Except Reject Instr :=
  match f.fn.toNat with
  | 0 => whenZero (f.vb == 0 && maskOk f.vm f.z f.m) (.vcvtI2f f.vd f.va f.vm f.z f.m)
  | 1 => whenZero (f.vb == 0 && maskOk f.vm f.z f.m) (.vcvtF2i f.vd f.va f.vm f.z f.m)
  | 2 => whenZero (maskOk f.vm f.z f.m) (.vcvtF2bf f.vd f.va f.vb f.vm f.z f.m)
  | 3 => whenZero (f.vb == 0 && maskOk f.vm f.z f.m) (.vcvtBf2f f.vd f.va f.vm f.z f.m)
  | 4 => whenZero (maskOk f.vm f.z f.m) (.vcvtF2h f.vd f.va f.vb f.vm f.z f.m)
  | 5 => whenZero (f.vb == 0 && maskOk f.vm f.z f.m) (.vcvtH2f f.vd f.va f.vm f.z f.m)
  | _ => .error .function

/-- Major 0x23, format MX (03 R54). -/
def decodeMatrix (f : FMX) : Except Reject Instr :=
  match f.fn.toNat with
  | 0 => .ok (.mmaT8 f.acc f.ga f.gb f.ge)
  | 1 => .ok (.mmaT6 f.acc f.ga f.gb f.ge)
  | 2 => .ok (.mmaI8 f.acc f.ga f.gb f.ge)
  | 3 => .ok (.mmaBf f.acc f.ga f.gb f.ge)
  | 4 => .ok (.mmaH f.acc f.ga f.gb f.ge)
  | 5 => whenZero (f.ga == 0 && f.gb == 0 && f.ge == 0) (.mzero f.acc)
  | 6 => whenZero (f.gb == 0) (.mld f.acc f.ga f.ge)
  | 7 => whenZero (f.gb == 0) (.mst f.acc f.ga f.ge)
  | 8 =>
    match f.acc.toNat with
    | 0 => whenZero (f.ga == 0 && f.gb == 0 && f.ge == 0) (.mwait)
    | 1 => whenZero (f.ga == 0 && f.ge == 0) (.mwaitSus f.gb)
    | 2 => whenZero (f.ga == 0 && f.ge == 0) (.mwaitRes f.gb)
    | _ => .error .function
  | _ => .error .function

/-- Major 0x24, format XE (03 R54). -/
def decodeCodelet (f : FXE) : Except Reject Instr :=
  match f.fn.toNat with
  | 0 => whenZero (f.zreg == 0) (.cdec f.x f.y)
  | 1 => whenZero (f.zreg == 0) (.cpush f.x f.y)
  | 2 => whenZero (f.zreg == 0) (.carm f.x f.y)
  | 3 => whenZero (f.zreg == 0) (.csteal f.x f.y)
  | _ => .error .function

/-- Major 0x25, format XE (03 R54). -/
def decodeCopy (f : FXE) : Except Reject Instr :=
  match f.fn.toNat with
  | 0 => .ok (.cpT f.x f.y f.zreg)
  | 1 => .ok (.cpB f.x f.y f.zreg)
  | 2 => .ok (.cpG f.x f.y f.zreg)
  | 3 => whenZero (f.y == 0 && f.zreg == 0) (.cpWait f.x)
  | 4 => whenZero (f.zreg == 0) (.cpSt f.x f.y)
  | _ => .error .function

/-- Major 0x26, format XE (03 R54). -/
def decodeBarrier (f : FXE) : Except Reject Instr :=
  match f.fn.toNat with
  | 0 => whenZero (f.zreg == 0) (.sbInit f.x f.y)
  | 1 => whenZero (f.y == 0 && f.zreg == 0) (.sbArr f.x)
  | 2 => whenZero (f.zreg == 0) (.sbExp f.x f.y)
  | 3 => .ok (.sbTest f.x f.y f.zreg)
  | 4 => whenZero (f.zreg == 0) (.sbWait f.x f.y)
  | 5 => whenZero (f.zreg == 0) (.sbBrk f.x f.y)
  | _ => .error .function

/-- Major 0x27, format XE (03 R54). -/
def decodeRemote (f : FXE) : Except Reject Instr :=
  match f.fn.toNat with
  | 0 => .ok (.get f.x f.y f.zreg)
  | 1 => .ok (.put f.x f.y f.zreg)
  | 2 => whenZero (f.zreg == 0) (.getW f.x f.y)
  | 3 => whenZero (f.zreg == 0) (.putW f.x f.y)
  | 4 => whenZero (f.x == 0 && f.y == 0 && f.zreg == 0) (.gwait)
  | 5 => .ok (.mig f.x f.y f.zreg)
  | _ => .error .function

/-- Major 0x28, format A3 (03 R54). -/
def decodeRamo (f : FA3) : Except Reject Instr :=
  match (f.fn.extractLsb' 0 6).toNat with
  | 0 => .ok (.ramoAdd f.gd f.ga f.gb (f.fn.getLsbD 6))
  | 1 => .ok (.ramoAnd f.gd f.ga f.gb (f.fn.getLsbD 6))
  | 2 => .ok (.ramoOr f.gd f.ga f.gb (f.fn.getLsbD 6))
  | 3 => .ok (.ramoXor f.gd f.ga f.gb (f.fn.getLsbD 6))
  | 4 => .ok (.ramoMin f.gd f.ga f.gb (f.fn.getLsbD 6))
  | 5 => .ok (.ramoMax f.gd f.ga f.gb (f.fn.getLsbD 6))
  | 6 => .ok (.ramoMinz f.gd f.ga f.gb (f.fn.getLsbD 6))
  | 7 => .ok (.ramoMaxz f.gd f.ga f.gb (f.fn.getLsbD 6))
  | 8 => .ok (.ramoSwap f.gd f.ga f.gb (f.fn.getLsbD 6))
  | 9 => .ok (.ramoCas f.gd f.ga f.gb (f.fn.getLsbD 6))
  | _ => .error .function

/-- Major 0x29, format XE (03 R54). -/
def decodeClock (f : FXE) : Except Reject Instr :=
  match f.fn.toNat with
  | 0 => whenZero (f.zreg == 0) (.clkRd f.x f.y)
  | 1 => .ok (.stStamp f.x f.y f.zreg)
  | 2 => .ok (.ldAsof f.x f.y f.zreg)
  | 3 => whenZero (f.y == 0 && f.zreg == 0) (.clkWt f.x)
  | 4 => whenZero (f.zreg == 0) (.stpRd f.x f.y)
  | _ => .error .function

/-- Major 0x2A, format XE (03 R54). -/
def decodeTry (f : FXE) : Except Reject Instr :=
  match f.fn.toNat with
  | 0 => .ok (.tryEach f.x f.y f.zreg)
  | 1 => whenZero (f.x == 0 && f.y == 0 && f.zreg == 0) (.fail)
  | 2 => whenZero (f.x == 0 && f.y == 0 && f.zreg == 0) (.cut)
  | 3 => whenZero (f.y == 0 && f.zreg == 0) (.cutto f.x)
  | 4 => whenZero (f.y == 0 && f.zreg == 0) (.cpmark f.x)
  | 5 => whenZero (f.zreg == 0) (.tsteal f.x f.y)
  | _ => .error .function

/-- The instruction of a word, or the check of 03 R51 that it fails; total on every word. -/
def decode (w : BitVec 32) : Except Reject Instr :=
  match (majorOf w).toNat with
  | 0x01 => decodeInteger (readFA3 w)
  | 0x02 => decodeAddI (readFAI w)
  | 0x03 => decodeAndI (readFAI w)
  | 0x04 => decodeOrI (readFAI w)
  | 0x05 => decodeXorI (readFAI w)
  | 0x06 => decodeShiftI (readFAI w)
  | 0x07 => decodeLi (readFAL w)
  | 0x08 => decodeLis (readFAL w)
  | 0x09 => decodeSet (readFA3 w)
  | 0x0A => decodeCap (readFA3 w)
  | 0x0B => decodeCincrI (readFAI w)
  | 0x0C => decodeBranch (readFBR w)
  | 0x0D => decodeJmp (readFJL w)
  | 0x0E => decodeCall (readFJL w)
  | 0x0F => decodeJump (readFA3 w)
  | 0x10 => decodeRpt (readFRP w)
  | 0x11 => decodeNopCdone (readFA3 w)
  | 0x12 => decodeLoad (readFMM w)
  | 0x13 => decodeStore (readFMM w)
  | 0x14 => decodeVecMem (readFVM w)
  | 0x15 => decodeVecMemH (readFVM w)
  | 0x16 => decodeLine (readFMM w)
  | 0x17 => decodeSystem (readFXE w)
  | 0x18 => decodeCsrr (readFAI w)
  | 0x19 => decodeCsrw (readFAI w)
  | 0x1A => decodeCsrx (readFAI w)
  | 0x1B => decodeSfq (readFXE w)
  | 0x1C => decodeAmo (readFA3 w)
  | 0x1D => decodeStitch (readFA3 w)
  | 0x1E => decodeFp (readFV3 w)
  | 0x1F => decodeVint (readFV3 w)
  | 0x20 => decodeVecScalar (readFVG w)
  | 0x21 => decodeElement (readFVX w)
  | 0x22 => decodeConvert (readFV3 w)
  | 0x23 => decodeMatrix (readFMX w)
  | 0x24 => decodeCodelet (readFXE w)
  | 0x25 => decodeCopy (readFXE w)
  | 0x26 => decodeBarrier (readFXE w)
  | 0x27 => decodeRemote (readFXE w)
  | 0x28 => decodeRamo (readFA3 w)
  | 0x29 => decodeClock (readFXE w)
  | 0x2A => decodeTry (readFXE w)
  | _ => .error .major

/-- The word of four bytes, the first at the lowest address (00 R2, 03 R47). -/
def wordOfBytes (b0 b1 b2 b3 : Byte) : BitVec 32 := b3 ++ b2 ++ b1 ++ b0

/-- The instruction of a run of bytes, with the bytes after it; fewer than four bytes hold none. -/
def decodeBytes : List Byte → Except Reject (Instr × List Byte)
  | b0 :: b1 :: b2 :: b3 :: rest =>
    match decode (wordOfBytes b0 b1 b2 b3) with
    | .ok i => .ok (i, rest)
    | .error e => .error e
  | _ => .error .major

/-- The four bytes of a word as memory holds it, lowest address first. -/
def bytesOfWord (w : BitVec 32) : List Byte :=
  [w.extractLsb' 0 8, w.extractLsb' 8 8, w.extractLsb' 16 8, w.extractLsb' 24 8]

/-- The instruction the decoder reads where the bits of the table's numbering are `w`: a word of four bytes, every bit
above `nbits` zero. -/
def decodeTableWord (nbits w : Nat) : Option Instr :=
  match decodeBytes (bytesOfWord (BitVec.ofNat 32 (w % 2 ^ nbits))) with
  | .ok (i, _) => some i
  | .error _ => none

/-- The word of an instruction, from the same formats; an event of the table has none. -/
def encode (p : Bool) : Instr → Option (BitVec 32)
  | .add d a b => some (wordFA3 p 1 { gd := d, ga := a, gb := b, fn := 0 })
  | .sub d a b => some (wordFA3 p 1 { gd := d, ga := a, gb := b, fn := 1 })
  | .mul d a b => some (wordFA3 p 1 { gd := d, ga := a, gb := b, fn := 2 })
  | .mulh d a b => some (wordFA3 p 1 { gd := d, ga := a, gb := b, fn := 3 })
  | .mulhz d a b => some (wordFA3 p 1 { gd := d, ga := a, gb := b, fn := 4 })
  | .div d a b => some (wordFA3 p 1 { gd := d, ga := a, gb := b, fn := 5 })
  | .divz d a b => some (wordFA3 p 1 { gd := d, ga := a, gb := b, fn := 6 })
  | .rem d a b => some (wordFA3 p 1 { gd := d, ga := a, gb := b, fn := 7 })
  | .remz d a b => some (wordFA3 p 1 { gd := d, ga := a, gb := b, fn := 8 })
  | .and d a b => some (wordFA3 p 1 { gd := d, ga := a, gb := b, fn := 9 })
  | .or d a b => some (wordFA3 p 1 { gd := d, ga := a, gb := b, fn := 10 })
  | .xor d a b => some (wordFA3 p 1 { gd := d, ga := a, gb := b, fn := 11 })
  | .andn d a b => some (wordFA3 p 1 { gd := d, ga := a, gb := b, fn := 12 })
  | .shl d a b => some (wordFA3 p 1 { gd := d, ga := a, gb := b, fn := 13 })
  | .shr d a b => some (wordFA3 p 1 { gd := d, ga := a, gb := b, fn := 14 })
  | .sha d a b => some (wordFA3 p 1 { gd := d, ga := a, gb := b, fn := 15 })
  | .rol d a b => some (wordFA3 p 1 { gd := d, ga := a, gb := b, fn := 16 })
  | .min d a b => some (wordFA3 p 1 { gd := d, ga := a, gb := b, fn := 17 })
  | .max d a b => some (wordFA3 p 1 { gd := d, ga := a, gb := b, fn := 18 })
  | .minz d a b => some (wordFA3 p 1 { gd := d, ga := a, gb := b, fn := 19 })
  | .maxz d a b => some (wordFA3 p 1 { gd := d, ga := a, gb := b, fn := 20 })
  | .clz d a => some (wordFA3 p 1 { gd := d, ga := a, gb := 0, fn := 21 })
  | .ctz d a => some (wordFA3 p 1 { gd := d, ga := a, gb := 0, fn := 22 })
  | .popc d a => some (wordFA3 p 1 { gd := d, ga := a, gb := 0, fn := 23 })
  | .mov d a => some (wordFA3 p 1 { gd := d, ga := a, gb := 0, fn := 24 })
  | .sel d a b => some (wordFA3 p 1 { gd := d, ga := a, gb := b, fn := 25 })
  | .addI d a imm => some (wordFAI p 2 { gd := d, ga := a, imm13 := imm })
  | .andI d a imm => some (wordFAI p 3 { gd := d, ga := a, imm13 := imm })
  | .orI d a imm => some (wordFAI p 4 { gd := d, ga := a, imm13 := imm })
  | .xorI d a imm => some (wordFAI p 5 { gd := d, ga := a, imm13 := imm })
  | .shlI d a n => some (wordFAI p 6 { gd := d, ga := a, imm13 := ((0 : BitVec 2) ++ (0 : BitVec 5) ++ n : BitVec 13) })
  | .shrI d a n => some (wordFAI p 6 { gd := d, ga := a, imm13 := ((1 : BitVec 2) ++ (0 : BitVec 5) ++ n : BitVec 13) })
  | .shaI d a n => some (wordFAI p 6 { gd := d, ga := a, imm13 := ((2 : BitVec 2) ++ (0 : BitVec 5) ++ n : BitVec 13) })
  | .rolI d a n => some (wordFAI p 6 { gd := d, ga := a, imm13 := ((3 : BitVec 2) ++ (0 : BitVec 5) ++ n : BitVec 13) })
  | .li d imm => some (wordFAL p 7 { gd := d, imm19 := imm })
  | .lis d imm => some (wordFAL p 8 { gd := d, imm19 := imm })
  | .setEq d a b => some (wordFA3 p 9 { gd := d, ga := a, gb := b, fn := 0 })
  | .setNe d a b => some (wordFA3 p 9 { gd := d, ga := a, gb := b, fn := 1 })
  | .setLt d a b => some (wordFA3 p 9 { gd := d, ga := a, gb := b, fn := 2 })
  | .setGe d a b => some (wordFA3 p 9 { gd := d, ga := a, gb := b, fn := 3 })
  | .setLo d a b => some (wordFA3 p 9 { gd := d, ga := a, gb := b, fn := 4 })
  | .setHs d a b => some (wordFA3 p 9 { gd := d, ga := a, gb := b, fn := 5 })
  | .cincr d a b => some (wordFA3 p 10 { gd := d, ga := a, gb := b, fn := 0 })
  | .cset d a b => some (wordFA3 p 10 { gd := d, ga := a, gb := b, fn := 1 })
  | .cbnd d a b => some (wordFA3 p 10 { gd := d, ga := a, gb := b, fn := 2 })
  | .cbndr d a b => some (wordFA3 p 10 { gd := d, ga := a, gb := b, fn := 3 })
  | .cperm d a b => some (wordFA3 p 10 { gd := d, ga := a, gb := b, fn := 4 })
  | .cseal d a b => some (wordFA3 p 10 { gd := d, ga := a, gb := b, fn := 5 })
  | .cunseal d a b => some (wordFA3 p 10 { gd := d, ga := a, gb := b, fn := 6 })
  | .cbase d a => some (wordFA3 p 10 { gd := d, ga := a, gb := 0, fn := 7 })
  | .clen d a => some (wordFA3 p 10 { gd := d, ga := a, gb := 0, fn := 8 })
  | .cperms d a => some (wordFA3 p 10 { gd := d, ga := a, gb := 0, fn := 9 })
  | .ctag d a => some (wordFA3 p 10 { gd := d, ga := a, gb := 0, fn := 10 })
  | .cclr d a => some (wordFA3 p 10 { gd := d, ga := a, gb := 0, fn := 11 })
  | .ceq d a b => some (wordFA3 p 10 { gd := d, ga := a, gb := b, fn := 12 })
  | .csub d a b => some (wordFA3 p 10 { gd := d, ga := a, gb := b, fn := 13 })
  | .cincrI d a imm => some (wordFAI p 11 { gd := d, ga := a, imm13 := imm })
  | .bEq a b off => some (wordFBR p 12 { cond := 0, ga := a, gb := b, off10 := off })
  | .bNe a b off => some (wordFBR p 12 { cond := 1, ga := a, gb := b, off10 := off })
  | .bLt a b off => some (wordFBR p 12 { cond := 2, ga := a, gb := b, off10 := off })
  | .bGe a b off => some (wordFBR p 12 { cond := 3, ga := a, gb := b, off10 := off })
  | .bLo a b off => some (wordFBR p 12 { cond := 4, ga := a, gb := b, off10 := off })
  | .bHs a b off => some (wordFBR p 12 { cond := 5, ga := a, gb := b, off10 := off })
  | .jmp off => some (wordFJL p 13 { off25 := off })
  | .call off => some (wordFJL p 14 { off25 := off })
  | .jr a => some (wordFA3 p 15 { gd := 0, ga := a, gb := 0, fn := 0 })
  | .callr a => some (wordFA3 p 15 { gd := 0, ga := a, gb := 0, fn := 1 })
  | .rptConst len d a b cnt => some (wordFRP p 16 { len1 := len, dstep := d, astep := a, bstep := b, form := false, count1 := cnt })
  | .rptReg len d a b g => some (wordFRP p 16 { len1 := len, dstep := d, astep := a, bstep := b, form := true, count1 := (g ++ (0 : BitVec 8) : BitVec 14) })
  | .nop => some (wordFA3 p 17 { gd := 0, ga := 0, gb := 0, fn := 0 })
  | .cdone => some (wordFA3 p 17 { gd := 0, ga := 0, gb := 0, fn := 1 })
  | .ldB g a off => some (wordFMM p 18 { g := g, ga := a, kind := 0, off10 := off })
  | .ldBz g a off => some (wordFMM p 18 { g := g, ga := a, kind := 1, off10 := off })
  | .ldH g a off => some (wordFMM p 18 { g := g, ga := a, kind := 2, off10 := off })
  | .ldHz g a off => some (wordFMM p 18 { g := g, ga := a, kind := 3, off10 := off })
  | .ldW g a off => some (wordFMM p 18 { g := g, ga := a, kind := 4, off10 := off })
  | .ldWz g a off => some (wordFMM p 18 { g := g, ga := a, kind := 5, off10 := off })
  | .ldD g a off => some (wordFMM p 18 { g := g, ga := a, kind := 6, off10 := off })
  | .ldQ g a off => some (wordFMM p 18 { g := g, ga := a, kind := 7, off10 := off })
  | .stB g a off => some (wordFMM p 19 { g := g, ga := a, kind := 0, off10 := off })
  | .stH g a off => some (wordFMM p 19 { g := g, ga := a, kind := 1, off10 := off })
  | .stW g a off => some (wordFMM p 19 { g := g, ga := a, kind := 2, off10 := off })
  | .stD g a off => some (wordFMM p 19 { g := g, ga := a, kind := 3, off10 := off })
  | .stQ g a off => some (wordFMM p 19 { g := g, ga := a, kind := 4, off10 := off })
  | .stc g a off => some (wordFMM p 19 { g := g, ga := a, kind := 5, off10 := off })
  | .vld v a vm z m => some (wordFVM p 20 { v := v, ga := a, gb := 0, vm := vm, z := z, m := m, mode := 0 })
  | .vst v a vm m => some (wordFVM p 20 { v := v, ga := a, gb := 0, vm := vm, z := false, m := m, mode := 1 })
  | .vldS v a b vm z m => some (wordFVM p 20 { v := v, ga := a, gb := b, vm := vm, z := z, m := m, mode := 2 })
  | .vstS v a b vm m => some (wordFVM p 20 { v := v, ga := a, gb := b, vm := vm, z := false, m := m, mode := 3 })
  | .vldX v a b vm z m => some (wordFVM p 20 { v := v, ga := a, gb := ((0 : BitVec 1) ++ b : BitVec 6), vm := vm, z := z, m := m, mode := 4 })
  | .vstX v a b vm m => some (wordFVM p 20 { v := v, ga := a, gb := ((0 : BitVec 1) ++ b : BitVec 6), vm := vm, z := false, m := m, mode := 5 })
  | .vldB v a vm z m => some (wordFVM p 20 { v := v, ga := a, gb := 0, vm := vm, z := z, m := m, mode := 6 })
  | .vldH v a vm z m => some (wordFVM p 21 { v := v, ga := a, gb := 0, vm := vm, z := z, m := m, mode := 0 })
  | .vstH v a vm m => some (wordFVM p 21 { v := v, ga := a, gb := 0, vm := vm, z := false, m := m, mode := 1 })
  | .vldHs v a b vm z m => some (wordFVM p 21 { v := v, ga := a, gb := b, vm := vm, z := z, m := m, mode := 2 })
  | .vstHs v a b vm m => some (wordFVM p 21 { v := v, ga := a, gb := b, vm := vm, z := false, m := m, mode := 3 })
  | .vldHx v a b vm z m => some (wordFVM p 21 { v := v, ga := a, gb := ((0 : BitVec 1) ++ b : BitVec 6), vm := vm, z := z, m := m, mode := 4 })
  | .vstHx v a b vm m => some (wordFVM p 21 { v := v, ga := a, gb := ((0 : BitVec 1) ++ b : BitVec 6), vm := vm, z := false, m := m, mode := 5 })
  | .pref a off => some (wordFMM p 22 { g := 0, ga := a, kind := 0, off10 := off })
  | .cln a off => some (wordFMM p 22 { g := 0, ga := a, kind := 1, off10 := off })
  | .inv a off => some (wordFMM p 22 { g := 0, ga := a, kind := 2, off10 := off })
  | .drainst => some (wordFMM p 22 { g := 0, ga := 0, kind := 3, off10 := 0 })
  | .fence eng scope => some (wordFMM p 22 { g := 0, ga := 0, kind := 4, off10 := ((0 : BitVec 6) ++ BitVec.ofBool eng ++ scope : BitVec 10) })
  | .cend => some (wordFMM p 22 { g := 0, ga := 0, kind := 5, off10 := 0 })
  | .trap x => some (wordFXE p 23 { x := x, y := 0, zreg := 0, fn := 0 })
  | .sret => some (wordFXE p 23 { x := 0, y := 0, zreg := 0, fn := 1 })
  | .idle x => some (wordFXE p 23 { x := x, y := 0, zreg := 0, fn := 2 })
  | .ctxSave x => some (wordFXE p 23 { x := x, y := 0, zreg := 0, fn := 3 })
  | .ctxLoad x => some (wordFXE p 23 { x := x, y := 0, zreg := 0, fn := 4 })
  | .gquit x => some (wordFXE p 23 { x := x, y := 0, zreg := 0, fn := 5 })
  | .gkill x => some (wordFXE p 23 { x := x, y := 0, zreg := 0, fn := 6 })
  | .gpre x => some (wordFXE p 23 { x := x, y := 0, zreg := 0, fn := 7 })
  | .ebrk => some (wordFXE p 23 { x := 0, y := 0, zreg := 0, fn := 8 })
  | .csrr d csr => some (wordFAI p 24 { gd := d, ga := 0, imm13 := ((0 : BitVec 1) ++ csr : BitVec 13) })
  | .csrw a csr => some (wordFAI p 25 { gd := 0, ga := a, imm13 := ((0 : BitVec 1) ++ csr : BitVec 13) })
  | .csrx d a csr => some (wordFAI p 26 { gd := d, ga := a, imm13 := ((0 : BitVec 1) ++ csr : BitVec 13) })
  | .sfqRd x y zr => some (wordFXE p 27 { x := x, y := y, zreg := zr, fn := 0 })
  | .sfqPop => some (wordFXE p 27 { x := 0, y := 0, zreg := 0, fn := 1 })
  | .plbInv x y => some (wordFXE p 27 { x := x, y := y, zreg := 0, fn := 2 })
  | .mapInv x y => some (wordFXE p 27 { x := x, y := y, zreg := 0, fn := 3 })
  | .amoAdd d a b w => some (wordFA3 p 28 { gd := d, ga := a, gb := b, fn := (BitVec.ofBool w ++ (0 : BitVec 6) : BitVec 7) })
  | .amoAnd d a b w => some (wordFA3 p 28 { gd := d, ga := a, gb := b, fn := (BitVec.ofBool w ++ (1 : BitVec 6) : BitVec 7) })
  | .amoOr d a b w => some (wordFA3 p 28 { gd := d, ga := a, gb := b, fn := (BitVec.ofBool w ++ (2 : BitVec 6) : BitVec 7) })
  | .amoXor d a b w => some (wordFA3 p 28 { gd := d, ga := a, gb := b, fn := (BitVec.ofBool w ++ (3 : BitVec 6) : BitVec 7) })
  | .amoMin d a b w => some (wordFA3 p 28 { gd := d, ga := a, gb := b, fn := (BitVec.ofBool w ++ (4 : BitVec 6) : BitVec 7) })
  | .amoMax d a b w => some (wordFA3 p 28 { gd := d, ga := a, gb := b, fn := (BitVec.ofBool w ++ (5 : BitVec 6) : BitVec 7) })
  | .amoMinz d a b w => some (wordFA3 p 28 { gd := d, ga := a, gb := b, fn := (BitVec.ofBool w ++ (6 : BitVec 6) : BitVec 7) })
  | .amoMaxz d a b w => some (wordFA3 p 28 { gd := d, ga := a, gb := b, fn := (BitVec.ofBool w ++ (7 : BitVec 6) : BitVec 7) })
  | .amoSwap d a b w => some (wordFA3 p 28 { gd := d, ga := a, gb := b, fn := (BitVec.ofBool w ++ (8 : BitVec 6) : BitVec 7) })
  | .amoCas d a b w => some (wordFA3 p 28 { gd := d, ga := a, gb := b, fn := (BitVec.ofBool w ++ (9 : BitVec 6) : BitVec 7) })
  | .amoFaddW d a b => some (wordFA3 p 28 { gd := d, ga := a, gb := b, fn := 10 })
  | .amoTopkD d a b => some (wordFA3 p 28 { gd := d, ga := a, gb := b, fn := 75 })
  | .bnCnt d a => some (wordFA3 p 29 { gd := d, ga := a, gb := 0, fn := 0 })
  | .bnAnti d a => some (wordFA3 p 29 { gd := d, ga := a, gb := 0, fn := 1 })
  | .bnSpread a b => some (wordFA3 p 29 { gd := 0, ga := a, gb := b, fn := 2 })
  | .bnArr a b => some (wordFA3 p 29 { gd := 0, ga := a, gb := b, fn := 3 })
  | .bnWait a b => some (wordFA3 p 29 { gd := 0, ga := a, gb := b, fn := 4 })
  | .bnCfg a b => some (wordFA3 p 29 { gd := 0, ga := a, gb := b, fn := 5 })
  | .bnClr a b => some (wordFA3 p 29 { gd := 0, ga := a, gb := b, fn := 6 })
  | .bnRd d a => some (wordFA3 p 29 { gd := d, ga := a, gb := 0, fn := 7 })
  | .vadd d a b vm z m => some (wordFV3 p 30 { vd := d, va := a, vb := b, vm := vm, z := z, m := m, fn := 0 })
  | .vsub d a b vm z m => some (wordFV3 p 30 { vd := d, va := a, vb := b, vm := vm, z := z, m := m, fn := 1 })
  | .vmul d a b vm z m => some (wordFV3 p 30 { vd := d, va := a, vb := b, vm := vm, z := z, m := m, fn := 2 })
  | .vfma d a b vm z m => some (wordFV3 p 30 { vd := d, va := a, vb := b, vm := vm, z := z, m := m, fn := 3 })
  | .vfms d a b vm z m => some (wordFV3 p 30 { vd := d, va := a, vb := b, vm := vm, z := z, m := m, fn := 4 })
  | .vfnma d a b vm z m => some (wordFV3 p 30 { vd := d, va := a, vb := b, vm := vm, z := z, m := m, fn := 5 })
  | .vmin d a b vm z m => some (wordFV3 p 30 { vd := d, va := a, vb := b, vm := vm, z := z, m := m, fn := 6 })
  | .vmax d a b vm z m => some (wordFV3 p 30 { vd := d, va := a, vb := b, vm := vm, z := z, m := m, fn := 7 })
  | .vabs d a vm z m => some (wordFV3 p 30 { vd := d, va := a, vb := 0, vm := vm, z := z, m := m, fn := 8 })
  | .vneg d a vm z m => some (wordFV3 p 30 { vd := d, va := a, vb := 0, vm := vm, z := z, m := m, fn := 9 })
  | .vcmpEq d a b vm z m => some (wordFV3 p 30 { vd := d, va := a, vb := b, vm := vm, z := z, m := m, fn := 10 })
  | .vcmpLt d a b vm z m => some (wordFV3 p 30 { vd := d, va := a, vb := b, vm := vm, z := z, m := m, fn := 11 })
  | .vcmpLe d a b vm z m => some (wordFV3 p 30 { vd := d, va := a, vb := b, vm := vm, z := z, m := m, fn := 12 })
  | .vcmpUn d a b vm z m => some (wordFV3 p 30 { vd := d, va := a, vb := b, vm := vm, z := z, m := m, fn := 13 })
  | .vrcpE d a vm z m => some (wordFV3 p 30 { vd := d, va := a, vb := 0, vm := vm, z := z, m := m, fn := 14 })
  | .vrsqE d a vm z m => some (wordFV3 p 30 { vd := d, va := a, vb := 0, vm := vm, z := z, m := m, fn := 15 })
  | .vgexp d a vm z m => some (wordFV3 p 30 { vd := d, va := a, vb := 0, vm := vm, z := z, m := m, fn := 16 })
  | .vscl d a b vm z m => some (wordFV3 p 30 { vd := d, va := a, vb := b, vm := vm, z := z, m := m, fn := 17 })
  | .vrnd d a vm z m => some (wordFV3 p 30 { vd := d, va := a, vb := 0, vm := vm, z := z, m := m, fn := 18 })
  | .vsel d a b vm => some (wordFV3 p 30 { vd := d, va := a, vb := b, vm := vm, z := false, m := true, fn := 19 })
  | .vredsum d a vm m => some (wordFV3 p 30 { vd := d, va := a, vb := 0, vm := vm, z := false, m := m, fn := 20 })
  | .vredmax d a vm m => some (wordFV3 p 30 { vd := d, va := a, vb := 0, vm := vm, z := false, m := m, fn := 21 })
  | .vredmin d a vm m => some (wordFV3 p 30 { vd := d, va := a, vb := 0, vm := vm, z := false, m := m, fn := 22 })
  | .vaddI d a b vm z m => some (wordFV3 p 31 { vd := d, va := a, vb := b, vm := vm, z := z, m := m, fn := 0 })
  | .vsubI d a b vm z m => some (wordFV3 p 31 { vd := d, va := a, vb := b, vm := vm, z := z, m := m, fn := 1 })
  | .vmulI d a b vm z m => some (wordFV3 p 31 { vd := d, va := a, vb := b, vm := vm, z := z, m := m, fn := 2 })
  | .vand d a b vm z m => some (wordFV3 p 31 { vd := d, va := a, vb := b, vm := vm, z := z, m := m, fn := 3 })
  | .vor d a b vm z m => some (wordFV3 p 31 { vd := d, va := a, vb := b, vm := vm, z := z, m := m, fn := 4 })
  | .vxor d a b vm z m => some (wordFV3 p 31 { vd := d, va := a, vb := b, vm := vm, z := z, m := m, fn := 5 })
  | .vshl d a b vm z m => some (wordFV3 p 31 { vd := d, va := a, vb := b, vm := vm, z := z, m := m, fn := 6 })
  | .vshr d a b vm z m => some (wordFV3 p 31 { vd := d, va := a, vb := b, vm := vm, z := z, m := m, fn := 7 })
  | .vsha d a b vm z m => some (wordFV3 p 31 { vd := d, va := a, vb := b, vm := vm, z := z, m := m, fn := 8 })
  | .vminI d a b vm z m => some (wordFV3 p 31 { vd := d, va := a, vb := b, vm := vm, z := z, m := m, fn := 9 })
  | .vmaxI d a b vm z m => some (wordFV3 p 31 { vd := d, va := a, vb := b, vm := vm, z := z, m := m, fn := 10 })
  | .vcmpIeq d a b vm z m => some (wordFV3 p 31 { vd := d, va := a, vb := b, vm := vm, z := z, m := m, fn := 11 })
  | .vcmpIlt d a b vm z m => some (wordFV3 p 31 { vd := d, va := a, vb := b, vm := vm, z := z, m := m, fn := 12 })
  | .vcmpIlo d a b vm z m => some (wordFV3 p 31 { vd := d, va := a, vb := b, vm := vm, z := z, m := m, fn := 13 })
  | .vredaddI d a vm m => some (wordFV3 p 31 { vd := d, va := a, vb := 0, vm := vm, z := false, m := m, fn := 14 })
  | .vperm d a b vm z m => some (wordFV3 p 31 { vd := d, va := a, vb := b, vm := vm, z := z, m := m, fn := 15 })
  | .vbc d b vm z m => some (wordFVG p 32 { vd := d, va := 0, gb := b, vm := vm, z := z, m := m, fn := 0 })
  | .vaddS d a b vm z m => some (wordFVG p 32 { vd := d, va := a, gb := b, vm := vm, z := z, m := m, fn := 1 })
  | .vmulS d a b vm z m => some (wordFVG p 32 { vd := d, va := a, gb := b, vm := vm, z := z, m := m, fn := 2 })
  | .vfmaS d a b vm z m => some (wordFVG p 32 { vd := d, va := a, gb := b, vm := vm, z := z, m := m, fn := 3 })
  | .vslup d a b vm z m => some (wordFVG p 32 { vd := d, va := a, gb := b, vm := vm, z := z, m := m, fn := 4 })
  | .vsldn d a b vm z m => some (wordFVG p 32 { vd := d, va := a, gb := b, vm := vm, z := z, m := m, fn := 5 })
  | .vidx d b vm z m => some (wordFVG p 32 { vd := d, va := 0, gb := b, vm := vm, z := z, m := m, fn := 6 })
  | .vext v g idx => some (wordFVX p 33 { v := v, g := g, idx6 := idx, rsv := 0, fn := 0 })
  | .vins v g idx => some (wordFVX p 33 { v := v, g := g, idx6 := idx, rsv := 0, fn := 1 })
  | .mpopc v g => some (wordFVX p 33 { v := v, g := g, idx6 := 0, rsv := 0, fn := 2 })
  | .mfirst v g => some (wordFVX p 33 { v := v, g := g, idx6 := 0, rsv := 0, fn := 3 })
  | .vcvtI2f d a vm z m => some (wordFV3 p 34 { vd := d, va := a, vb := 0, vm := vm, z := z, m := m, fn := 0 })
  | .vcvtF2i d a vm z m => some (wordFV3 p 34 { vd := d, va := a, vb := 0, vm := vm, z := z, m := m, fn := 1 })
  | .vcvtF2bf d a b vm z m => some (wordFV3 p 34 { vd := d, va := a, vb := b, vm := vm, z := z, m := m, fn := 2 })
  | .vcvtBf2f d a vm z m => some (wordFV3 p 34 { vd := d, va := a, vb := 0, vm := vm, z := z, m := m, fn := 3 })
  | .vcvtF2h d a b vm z m => some (wordFV3 p 34 { vd := d, va := a, vb := b, vm := vm, z := z, m := m, fn := 4 })
  | .vcvtH2f d a vm z m => some (wordFV3 p 34 { vd := d, va := a, vb := 0, vm := vm, z := z, m := m, fn := 5 })
  | .mmaT8 acc a b ge => some (wordFMX p 35 { acc := acc, ga := a, gb := b, ge := ge, fn := 0 })
  | .mmaT6 acc a b ge => some (wordFMX p 35 { acc := acc, ga := a, gb := b, ge := ge, fn := 1 })
  | .mmaI8 acc a b ge => some (wordFMX p 35 { acc := acc, ga := a, gb := b, ge := ge, fn := 2 })
  | .mmaBf acc a b ge => some (wordFMX p 35 { acc := acc, ga := a, gb := b, ge := ge, fn := 3 })
  | .mmaH acc a b ge => some (wordFMX p 35 { acc := acc, ga := a, gb := b, ge := ge, fn := 4 })
  | .mzero acc => some (wordFMX p 35 { acc := acc, ga := 0, gb := 0, ge := 0, fn := 5 })
  | .mld acc a ge => some (wordFMX p 35 { acc := acc, ga := a, gb := 0, ge := ge, fn := 6 })
  | .mst acc a ge => some (wordFMX p 35 { acc := acc, ga := a, gb := 0, ge := ge, fn := 7 })
  | .mwait => some (wordFMX p 35 { acc := 0, ga := 0, gb := 0, ge := 0, fn := 8 })
  | .mwaitSus b => some (wordFMX p 35 { acc := 1, ga := 0, gb := b, ge := 0, fn := 8 })
  | .mwaitRes b => some (wordFMX p 35 { acc := 2, ga := 0, gb := b, ge := 0, fn := 8 })
  | .cdec x y => some (wordFXE p 36 { x := x, y := y, zreg := 0, fn := 0 })
  | .cpush x y => some (wordFXE p 36 { x := x, y := y, zreg := 0, fn := 1 })
  | .carm x y => some (wordFXE p 36 { x := x, y := y, zreg := 0, fn := 2 })
  | .csteal x y => some (wordFXE p 36 { x := x, y := y, zreg := 0, fn := 3 })
  | .cpT x y zr => some (wordFXE p 37 { x := x, y := y, zreg := zr, fn := 0 })
  | .cpB x y zr => some (wordFXE p 37 { x := x, y := y, zreg := zr, fn := 1 })
  | .cpG x y zr => some (wordFXE p 37 { x := x, y := y, zreg := zr, fn := 2 })
  | .cpWait x => some (wordFXE p 37 { x := x, y := 0, zreg := 0, fn := 3 })
  | .cpSt x y => some (wordFXE p 37 { x := x, y := y, zreg := 0, fn := 4 })
  | .sbInit x y => some (wordFXE p 38 { x := x, y := y, zreg := 0, fn := 0 })
  | .sbArr x => some (wordFXE p 38 { x := x, y := 0, zreg := 0, fn := 1 })
  | .sbExp x y => some (wordFXE p 38 { x := x, y := y, zreg := 0, fn := 2 })
  | .sbTest x y zr => some (wordFXE p 38 { x := x, y := y, zreg := zr, fn := 3 })
  | .sbWait x y => some (wordFXE p 38 { x := x, y := y, zreg := 0, fn := 4 })
  | .sbBrk x y => some (wordFXE p 38 { x := x, y := y, zreg := 0, fn := 5 })
  | .get x y zr => some (wordFXE p 39 { x := x, y := y, zreg := zr, fn := 0 })
  | .put x y zr => some (wordFXE p 39 { x := x, y := y, zreg := zr, fn := 1 })
  | .getW x y => some (wordFXE p 39 { x := x, y := y, zreg := 0, fn := 2 })
  | .putW x y => some (wordFXE p 39 { x := x, y := y, zreg := 0, fn := 3 })
  | .gwait => some (wordFXE p 39 { x := 0, y := 0, zreg := 0, fn := 4 })
  | .mig x y zr => some (wordFXE p 39 { x := x, y := y, zreg := zr, fn := 5 })
  | .ramoAdd d a b w => some (wordFA3 p 40 { gd := d, ga := a, gb := b, fn := (BitVec.ofBool w ++ (0 : BitVec 6) : BitVec 7) })
  | .ramoAnd d a b w => some (wordFA3 p 40 { gd := d, ga := a, gb := b, fn := (BitVec.ofBool w ++ (1 : BitVec 6) : BitVec 7) })
  | .ramoOr d a b w => some (wordFA3 p 40 { gd := d, ga := a, gb := b, fn := (BitVec.ofBool w ++ (2 : BitVec 6) : BitVec 7) })
  | .ramoXor d a b w => some (wordFA3 p 40 { gd := d, ga := a, gb := b, fn := (BitVec.ofBool w ++ (3 : BitVec 6) : BitVec 7) })
  | .ramoMin d a b w => some (wordFA3 p 40 { gd := d, ga := a, gb := b, fn := (BitVec.ofBool w ++ (4 : BitVec 6) : BitVec 7) })
  | .ramoMax d a b w => some (wordFA3 p 40 { gd := d, ga := a, gb := b, fn := (BitVec.ofBool w ++ (5 : BitVec 6) : BitVec 7) })
  | .ramoMinz d a b w => some (wordFA3 p 40 { gd := d, ga := a, gb := b, fn := (BitVec.ofBool w ++ (6 : BitVec 6) : BitVec 7) })
  | .ramoMaxz d a b w => some (wordFA3 p 40 { gd := d, ga := a, gb := b, fn := (BitVec.ofBool w ++ (7 : BitVec 6) : BitVec 7) })
  | .ramoSwap d a b w => some (wordFA3 p 40 { gd := d, ga := a, gb := b, fn := (BitVec.ofBool w ++ (8 : BitVec 6) : BitVec 7) })
  | .ramoCas d a b w => some (wordFA3 p 40 { gd := d, ga := a, gb := b, fn := (BitVec.ofBool w ++ (9 : BitVec 6) : BitVec 7) })
  | .clkRd x y => some (wordFXE p 41 { x := x, y := y, zreg := 0, fn := 0 })
  | .stStamp x y zr => some (wordFXE p 41 { x := x, y := y, zreg := zr, fn := 1 })
  | .ldAsof x y zr => some (wordFXE p 41 { x := x, y := y, zreg := zr, fn := 2 })
  | .clkWt x => some (wordFXE p 41 { x := x, y := 0, zreg := 0, fn := 3 })
  | .stpRd x y => some (wordFXE p 41 { x := x, y := y, zreg := 0, fn := 4 })
  | .tryEach x y zr => some (wordFXE p 42 { x := x, y := y, zreg := zr, fn := 0 })
  | .fail => some (wordFXE p 42 { x := 0, y := 0, zreg := 0, fn := 1 })
  | .cut => some (wordFXE p 42 { x := 0, y := 0, zreg := 0, fn := 2 })
  | .cutto x => some (wordFXE p 42 { x := x, y := 0, zreg := 0, fn := 3 })
  | .cpmark x => some (wordFXE p 42 { x := x, y := 0, zreg := 0, fn := 4 })
  | .tsteal x y => some (wordFXE p 42 { x := x, y := y, zreg := 0, fn := 5 })
  | .chunkCommit => none
  | .chunkLimit => none
  | .lineLimit => none
  | .pairMismatch => none
  | .resultReturn => none
  | .icacheFill => none
  | .trapEntry => none
  | .machineCheck => none
  | .translationLookup => none
  | .plbFill => none
  | .pgfltAnswer => none
  | .l1Fill => none
  | .siblingAccess => none
  | .amoExecute => none
  | .vectorDispatch => none
  | .matrixBlock => none
  | .accTransfer => none
  | .balancer => none
  | .counterCell => none
  | .barrierTree => none
  | .releaseMulticast => none
  | .dieQueueSpill => none
  | .dieQueueClaim => none
  | .cdecApply => none
  | .dequePush => none
  | .carmApply => none
  | .findWork => none
  | .cstealTake => none
  | .copyAccept => none
  | .copyComplete => none
  | .barrierBytes => none
  | .copyFault => none
  | .saveTransfer => none
  | .gangResume => none
  | .quitMark => none
  | .remotePerform => none
  | .remoteComplete => none
  | .remoteTimeout => none
  | .migration => none
  | .dieFence => none
  | .portLoss => none
  | .stampVersion => none
  | .stampRelease => none
  | .versionApply => none
  | .horizonCollect => none
  | .horizonUpdate => none
  | .horizonExchange => none
  | .stampedRead => none
  | .clockDiscipline => none
  | .clockWaitExpiry => none
  | .idleTimeout => none
  | .ebrkRelease => none
  | .gangTimeout => none
  | .gangEnd => none
  | .load => none
  | .mapPage => none
  | .unmapPage => none
  | .setRegion => none
  | .removeRegion => none
  | .setDomain => none
  | .setSender => none
  | .registerPeer => none
  | .launch => none
  | .launchDequeue => none
  | .queryGangs => none
  | .queryFeatures => none
  | .querySensors => none
  | .queryLog => none
  | .queryIdentity => none
  | .queryGang => none
  | .kill => none
  | .prepare => none
  | .ready => none
  | .go => none
  | .abort => none
  | .late => none
  | .launchDeadline => none
  | .chipStart => none
  | .powerGood => none
  | .thermalAlarm => none
  | .powerRemoval => none
  | .firmwareUpdate => none
  | .adminListWrite => none
  | .cpstkWrite => none
  | .trailWrite => none
  | .tpcWrite => none
  | .fflagsAccess => none
  | .csrWrite => none
  | .unassignedWord => none
  | .chipLoss => none
  | .lossOfDiscipline => none
  | .conditionClears => none
  | .messageDropped => none

end Sys2Proof
end

