-- ==== Sys2Proof/Config.lean ====
section
/-! DEFINITION. What the spec leaves open and no proof may see: constants without a body. A statement that holds of the
model holds for every value of them. -/

namespace Sys2Proof.Config

/-- The schedule (DESIGN CHOICE, assumption 1): which strand issues or which event happens at turn `n`, once the plain schedule held in
the state is used up. The spec fixes who is ready, and who is next on one core, not which core is (01 R7, R23). -/
opaque turn : Nat → Turn

/-- Nanoseconds of reference time that pass at turn `n` (DESIGN CHOICE, assumption 2). -/
opaque elapsed : Nat → Nat

/-- How far the clock of a die would widen by itself at a turn (19 R357); the model cuts it to the spec's bound (DESIGN CHOICE, assumption
2). -/
opaque drift : Nat → Nat → Nat

/-- A value the spec does not state, numbered by the turn in which it arises and its place in it (DESIGN CHOICE, assumption 5). -/
opaque freeWord : Nat → Nat → BitVec 64

/-- The reading of a sensor of Colophon at a turn (DESIGN CHOICE, assumption 6). -/
opaque sensor : Nat → Nat → BitVec 64

/-- The identity record of the package: serial number, stepping, measurements (DESIGN CHOICE, assumption 6). -/
opaque identity : List (BitVec 8)

/-- The LMS signature over a statement with a given leaf (21 R402, DESIGN CHOICE, assumption 6). -/
opaque lmsSign : List (BitVec 8) → Nat → List (BitVec 8)

/-- Whether an image carries a signature that verifies (21 R402, DESIGN CHOICE, assumption 6). -/
opaque lmsVerify : List (BitVec 8) → Bool

/-- The capacity of the device on a CXL port as enumeration finds it at boot; none if there is none that 16 R323 supports
(DESIGN CHOICE, assumption 6). -/
opaque device : Nat → Option Nat

/-- The base of the save area of a strand (07 R123), which the Bindery chooses (DESIGN CHOICE, assumption 7). -/
opaque saveArea : Nat → Nat

/-- The base of the matrix save area of a core (07 R123), which the Bindery chooses (DESIGN CHOICE, assumption 7). -/
opaque matrixArea : Nat → Nat

/-- The capability to the message area of a core (07 R123), which the Bindery chooses (DESIGN CHOICE, assumption 7). -/
opaque messageArea : Nat → BitVec 128

end Sys2Proof.Config
end

