-- ==== Sys2Proof/Machine/State.lean ====
section
/-! DEFINITION. The state of the package as plain data, holding every piece of state the spec gives it (INVENTORY.md), and
the state right after reset. What there is one of for each strand, core, quire or die stands in a sparse map; one not
listed is as its reset value says. A strand is named by its CSR STRAND value (01 R10), a core by that value divided by 4,
a quire by it divided by 16, a die by it divided by 512. -/

namespace Sys2Proof.Machine

open Sys2Proof

/-- A g-register or a 16-byte sector: 128 bits and a tag (04 R65, R66). -/
structure Reg where
  bits : BitVec 128
  tag : Bool
  deriving DecidableEq, Repr, Inhabited

/-- The null capability (04 R66). -/
def Reg.null : Reg := { bits := 0, tag := false }

/-- The trap causes (03 R61). -/
inductive Cause where
  | ill | priv | pend | captag | capbnd | capperm | capseal | align | range | plb | pgflt | stflt | tryempty
  | trailfull | clkwide | stamplow | stale | sbbroken | ganglost | preempt | mchk | engfault | swtrap | bndom | accbusy
  deriving DecidableEq, Repr

/-- A register that can be outstanding (05 R83): a g-register or a v-register. -/
inductive RegName where
  | g (n : BitVec 6)
  | v (n : BitVec 5)
  deriving DecidableEq, Repr

/-- A set of trap state with its full saved PCC (07 R124). -/
structure TrapSet where
  pcc : Reg
  cause : Word
  val : Word
  state : Word
  repctx : Word
  deriving DecidableEq, Repr

/-- The live frame while its V is 1 (05 R96), with the words of its frame buffer. -/
structure Frame where
  len : Nat
  index : Nat
  dstep : Nat
  astep : Nat
  bstep : Nat
  left : Nat
  k : Nat
  base : Word
  words : List (BitVec 32)
  deriving DecidableEq, Repr

/-- What a squash restores (17 R337, 05 R85, R99): the registers, the mode, the trap sets, the CSRs that instructions of
the strand write, the live frame, and the strand's own view of the SFRQ. -/
structure Arch where
  g : Vector Reg 64
  sbank : Vector Reg 4
  v : Vector (BitVec 2048) 32
  pcc : Reg
  frame : Option Frame
  /-- The frame buffer: the base and the words of the last frame (05 R96, R98). -/
  fbuf : Word × List (BitVec 32)
  smode : Bool
  hf : Bool
  uset : TrapSet
  sset : TrapSet
  frm : Word
  fflags : Word
  srseed : Word
  sclbase : Word
  tvec : Word
  cpstk : Word
  trail : Word
  cpdepth : Word
  twmax : Word
  evcnt : Vector Word 8
  svec : Word
  sscratch : Word
  dbg : Word
  stage : Word
  gang : Word
  /-- Records of the strand that sfq.pop removed from its view, and whether it cleared OVF (08 R166). -/
  popped : Nat
  ovfClear : Bool
  deriving DecidableEq, Repr

/-- How many lanes or elements raised each flag (11 R214, R215). -/
structure Flags where
  nv : Nat
  dz : Nat
  of : Nat
  uf : Nat
  nx : Nat
  sat : Nat
  inv : Nat
  deriving DecidableEq, Repr

/-- A register write that a result makes when it settles. -/
inductive RegWrite where
  | g (r : BitVec 6) (x : Reg)
  | v (r : BitVec 5) (x : BitVec 2048)
  deriving DecidableEq, Repr

/-- One element that a load reads: the locations of its raw bytes, lowest first; in windows 1 to 5 also its position in a
T6 group and its scale byte (06 R107). -/
structure Elem where
  win : Nat
  bytes : List Nat
  pos : Nat
  scale : Option Nat
  lane : Nat
  deriving DecidableEq, Repr

/-- What a load does with the elements it has read (06 R115, R117): a scalar of `s` bytes, a sector with or without its
tag, lanes of `w` bytes of a vector register whose other lanes are already in `old`, or the scales of a store. -/
inductive LoadForm where
  | scalar (r : BitVec 6) (s : Nat) (signed : Bool)
  | quad (r : BitVec 6) (ldc : Bool)
  | vec (r : BitVec 5) (w : Nat) (old : BitVec 2048)
  /-- The scale bytes of an encoding store (06 R113). -/
  | scale
  deriving DecidableEq, Repr

/-- Where a part of a load is read: at another core's sibling/remote port of the die (06 R113), at a home on another die or
package (17 R338, 16 R311), or at the own die's home of a stamped line (19 R363). -/
inductive Port where
  | sibling | remote | stamped
  deriving DecidableEq, Repr

/-- A group of locations that a load reads as one; for a stamped page, L once the read has arrived at its home (19 R363). -/
structure Need where
  port : Port
  locs : List Nat
  stamped : Bool
  arrived : Option Nat
  deriving DecidableEq, Repr

/-- A load whose bytes are being read: `need` lists the groups still to read, `got` the bytes read so far, `own` the bits
of the strand's own held stores over them (06 R115), `tag` the tag read and `ownTag` the tag of an own store over it. -/
structure LoadReq where
  form : LoadForm
  elems : List Elem
  need : List Need
  got : List (Nat × Byte)
  own : List (Nat × Byte × Byte)
  tag : Bool
  ownTag : Option Bool
  deriving DecidableEq, Repr

/-- A read of a stamped line for ld.asof at stamp `t`, or for stp.rd (19 R363, R369, R370): the location of its current
line, the byte offset, the destination, and L once it has arrived. -/
structure StampReq where
  line : Nat
  off : Nat
  asof : Option Word
  r : BitVec 6
  arrived : Option Nat
  deriving DecidableEq, Repr

/-- Where an outstanding result comes from: it is computed and settles in time; it waits in the core's vector dispatch
queue or in the divider; it is a load; it is a read of a stamped line; a message or a remote access brings it. -/
inductive Source where
  | ready (ws : List RegWrite) (fl : Flags)
  | queued (ws : List RegWrite) (fl : Flags)
  | divide (ws : List RegWrite)
  | load (l : LoadReq)
  | stamped (q : StampReq)
  | reply
  deriving DecidableEq, Repr

/-- An outstanding result of a strand (05 R83): its chunk, the mode in which its instruction issued, by which its registers are
named (07 R123), and whether a squash has made it one that arrives and is discarded (05 R85). -/
structure Out where
  id : Nat
  chunk : Nat
  smode : Bool
  dead : Bool
  dsts : List RegName
  src : Source
  deriving DecidableEq, Repr

/-- The translation of a held store (08 R157, R160): still in the background, a location, a failure code (R158), or the
location of an element whose scale byte result `out` still reads (06 R113), with what encodes it: the bytes from 16 before the
piece to the element's first raw byte, window, position in a T6 group, lane value, FRM and stochastic draw. -/
inductive Xl where
  | pending
  | ok (loc : Nat)
  | failed (code : Nat)
  | encoding (out loc scale shift win pos : Nat) (x : BitVec 32) (frm u : Nat)
  deriving DecidableEq, Repr

/-- A store of at most one sector that waits for its chunk's commit (06 R103): the bits written and their values, and
whether it is an stc of a register with tag 1. `addr` is the virtual address of the sector. -/
structure Piece where
  addr : Word
  xl : Xl
  data : BitVec 128
  bits : BitVec 128
  tag : Bool
  deriving DecidableEq, Repr

/-- An entry of the undo log (06 R103): a sector of the own scratchpad as it was. -/
structure Undo where
  loc : Nat
  data : BitVec 128
  tag : Bool
  deriving DecidableEq, Repr

/-- A chunk that has not committed (01 R16): its start, its instructions so far, its held stores, undo log and read
signature, the lines it counts toward the limits, and how often it was squashed. -/
structure Chunk where
  id : Nat
  born : Nat
  ckpt : Arch
  count : Nat
  held : List Piece
  undo : List Undo
  reads : List Nat
  wlines : List Nat
  /-- Lines that a cln, or an inv (true), of the chunk acts on at its commit (06 R119). -/
  lineOps : List (Nat × Bool)
  squashes : Nat
  mism : Nat
  pinned : Bool
  /-- It begins with a terminator that has ended the chunk before and is not complete (03 R57). -/
  lead : Bool
  /-- It begins with an ld.asof, which a squash runs again (19 R367). -/
  redo : Bool
  deriving DecidableEq, Repr

/-- An entry of a PLB (08 R153). -/
structure PlbEntry where
  base : Nat
  size : Nat
  domain : Nat
  r : Bool
  w : Bool
  x : Bool
  e : Bool
  deriving DecidableEq, Repr

/-- An entry of a page buffer (08 R157): page and frame are addresses, `big` says 32 MB. -/
structure PageEntry where
  page : Nat
  big : Bool
  frame : Nat
  w : Bool
  st : Bool
  deriving DecidableEq, Repr

/-- What the fills and lookups made for the instruction at hand have brought: entries, and addresses without one (08 R154,
R156, R159: a failed lookup is kept nowhere else). -/
structure Looked where
  plb : List PlbEntry
  plbNone : List Nat
  pages : List PageEntry
  pageNone : List Nat
  deriving DecidableEq, Repr

/-- A copy command (15 R279, R282, R283): the order in which it reached the engine, the issuing core, strand, gang and group,
whether the firing that issued it still runs, its kind (0 cp.t, 1 cp.b, 2 cp.g), its shape, capabilities and rows, its action
and target. `at_` is the number of elements written or passed, and `buf` what has been read of those that follow, nothing for an
edge element. -/
structure CopyCmd where
  slot : Nat
  seq : Nat
  cid : Nat
  sid : Nat
  gang : Nat
  group : Nat
  live : Bool
  kind : Nat
  esz : Nat
  dims : Nat
  skip : Bool
  counts : List Nat
  valids : List Nat
  sstride : List Int
  dstride : List Int
  dst : Reg
  src : Reg
  rows : List Reg
  action : Nat
  arg : Word
  target : Reg
  at_ : Nat
  buf : List (Option (List Byte))
  deriving DecidableEq, Repr

/-- What an invalidation waits for (08 R165, R167): a chunk of a strand, or an access that has its translation: a remote access,
a message, an entry of a matrix command queue. -/
inductive OpenRef where
  | chunk (sid id : Nat)
  | remote (id : Nat)
  | msg (id : Nat)
  | entry (cid id : Nat)
  deriving DecidableEq, Repr

/-- Why a strand does not issue its next instruction. -/
inductive Wait where
  /-- It does not wait. -/
  | none
  /-- A park marker waits for outstanding results (05 R83). -/
  | park
  /-- A terminator waits for its chunks to be able to commit (17 R336). -/
  | commit
  /-- A PLB miss at an address (08 R154), with what earlier fills for the instruction have brought. -/
  | plb (a : Nat) (got : Looked)
  /-- A lookup of an address (08 R156). -/
  | xlate (a : Nat) (got : Looked)
  /-- The instruction may issue again with what has been brought. -/
  | looked (got : Looked)
  /-- An instruction cache miss at an address (05 R89). -/
  | fetch (a : Nat)
  /-- A load of bytes that a store of the strand still encodes (06 R113). -/
  | encode
  /-- The access would pass a line limit (01 R16). -/
  | lineLimit
  /-- A sector that an uncommitted chunk of another strand has written (17 R339). -/
  | chunk (sid : Nat)
  /-- FFLAGS or EVCNT waits for outstanding results (07 R126). -/
  | flags
  /-- A squash waits for the results of earlier chunks (05 R85). -/
  | drain
  /-- A wait instruction that tests its condition again when it issues again. -/
  | instr
  /-- idle, with the cycles it may last (07 R136). -/
  | idle (cycles : Nat)
  /-- A unit is full: remote-access unit, command slots, home slice (01 R7). -/
  | full
  /-- A member of 0x23 waits for the entries of its core's queue; `took` says that it has taken the claim (13 R239, R256, R258). -/
  | array (took : Bool)
  /-- clk.wt or ld.asof waits until earliest passes a time (19 R367, R368). -/
  | clock (t : Word)
  /-- cp.t, cp.b or cp.g has passed its checks and waits for a slot and lock entries (15 R299). -/
  | copySlot (c : CopyCmd)
  /-- gquit waits for the marks of the member cores (07 R140). -/
  | quit (mids : List Nat)
  /-- plb.inv or map.inv waits for what was open when it issued (08 R165, R167). -/
  | inval (open_ : List OpenRef)
  /-- bn.wait waits for phase `p` of a context (10 R188, R194). -/
  | phase (ctx p : Nat)
  /-- sb.wait waits for phase `p` of the stage barrier at a location, which it names by an address (15 R307). -/
  | stage (loc p : Nat) (a : Word)
  /-- The phase that bn.wait or sb.wait waited for has been released. -/
  | passed
  /-- A record on a stamped page is read, and has arrived with L (19 R363). -/
  | stamps (l : Nat)
  /-- A version that the strand has sent waits for room in its home slice (19 R366). -/
  | sent (mid : Nat)
  /-- A precise PGFLT is with the Bindery (08 R159). -/
  | answer
  deriving DecidableEq, Repr

/-- A precise cause that waits for its entry: the results outstanding, or the prefix of its chunk (07 R129, R130). -/
structure TrapReq where
  cause : Cause
  val : Word
  deriving DecidableEq, Repr

/-- A strand (01 R7, R8). -/
structure Strand where
  /-- The running firing's record reference (14 R260), if it holds a firing. -/
  firing : Option Word
  asleep : Bool
  arch : Arch
  domain : Word
  featcap : Word
  out : List Out
  chunks : List Chunk
  nextChunk : Nat
  wait : Wait
  trap : Option TrapReq
  mchk : Option Word
  ganglost : Option Word
  preempt : Bool
  engfault : List Word
  /-- On-die places of terminated chunks not taken yet: the next chunk commits after them (09 R169, 14 R271). -/
  places : List Nat
  ovf : Bool
  halted : Bool
  deriving DecidableEq, Repr

/-- A line of the instruction cache (05 R89): the virtual line number and its 128 bytes. -/
structure ILine where
  line : Nat
  data : BitVec 1024
  deriving DecidableEq, Repr

/-- A line of the L1 (06 R104, 08 R157): the virtual line number, the line of its frame, W, and a valid and a dirty bit
for each sector. Its bytes are those of the die, which keeps its L1s coherent (01 R11), so memory holds them once
(DESIGN CHOICE, assumption 32). -/
structure L1Line where
  line : Nat
  frame : Nat
  w : Bool
  valid : BitVec 8
  dirty : BitVec 8
  deriving DecidableEq, Repr

/-- A store-fault record (08 R161). -/
structure SfRec where
  addr : Word
  data : BitVec 128
  info : Word
  deriving DecidableEq, Repr

/-- An entry of a matrix command queue (13 R247): the function code, accumulator, extents, the two capabilities, the next
block or sector of a transfer, the sectors of a transfer as translated at issue (R255), whether its first block or transfer
has begun, whether it waits on a range lock, the issuing strand and its gang; `scales` are the scale bytes that an mma read at its
start, by location (13 R237). -/
structure MEntry where
  id : Nat
  fn : Nat
  acc : Nat
  ge : Word
  a : Reg
  b : Reg
  next : Nat
  locs : List Nat
  scales : List (Nat × Byte)
  started : Bool
  waiting : Bool
  sid : Nat
  gang : Nat
  deriving DecidableEq, Repr

/-- A compute core or service core. -/
structure Core where
  /-- The strand, 0 to 3, that issued last: the next one is the next ready strand after it (01 R7). -/
  lastIssue : Nat
  msplit : Word
  msplitNext : Option Word
  chunklim : Word
  paired : Bool
  recov : Nat
  coord : Word
  drtbase : Word
  mapt64 : Word
  mapt32 : Word
  dqstate : Word
  /-- Most recently used first (08 R153, R157, 05 R89, 06 R104). -/
  plb : List PlbEntry
  pages : List PageEntry
  icache : List ILine
  l1 : List L1Line
  /-- L1 fills on their way: virtual line, frame line, W, sectors (06 R104). -/
  fills : List L1Line
  /-- Oldest first. -/
  sfrq : List SfRec
  /-- Elements of acc a at 4096 a + 64 i + j (13 R238). -/
  acc : Map (BitVec 32)
  accFlags : Vector (BitVec 5) 4
  /-- The strand whose firing holds the accumulator claim (13 R239). -/
  claim : Option Nat
  mq : List MEntry
  /-- Strand and result of each entry of the vector dispatch queue, oldest first (12 R217). -/
  vq : List (Nat × Nat)
  /-- The gang that holds the core (14 R274). -/
  gang : Option Nat
  quit : List Nat
  gangCode : Reg
  stubCode : Reg
  gp : Reg
  feat : Reg
  stack : Nat
  /-- The core's die-queue claim (10 R193): whether it has sent for a head token, and the token. -/
  claiming : Bool
  claimDq : Option Nat
  deriving DecidableEq, Repr

/-- A side of a copy in one space: 0 for mapped memory by virtual address, 1 + core for a scratchpad by raw offset. -/
structure Lock where
  dst : Bool
  space : Nat
  lo : Int
  hi : Int
  gang : Nat
  slot : Nat
  deriving DecidableEq, Repr

/-- An entry of a barrier directory (15 R293). -/
structure DirEntry where
  cid : Nat
  off : Nat
  gang : Nat
  deriving DecidableEq, Repr

/-- A quire: the copy engine, range locks, barrier directory, and whom the press served last. -/
structure Quire where
  cmds : List CopyCmd
  locks : List Lock
  dir : List DirEntry
  lastVec : Nat
  lastArr : Nat
  lastXfer : Nat
  deriving DecidableEq, Repr

/-- What travels the Stitch network (10 R181, R188, R191); a spill or a claim is a token of a die queue (R193). -/
inductive Token where
  | token | anti | arrive | spread | spill | claim
  deriving DecidableEq, Repr

/-- An item in flight in a Stitch network: its context, position, the layer it waits at (0 to 14 the balancers, 15 the
cell, 16 the tree, 17 the input crossbar while its context is stopped), its order of arrival there, the strand and result
it answers, its payload, and the reference of a spill. -/
structure Item where
  id : Nat
  ctx : Nat
  kind : Token
  pos : Nat
  layer : Nat
  arrived : Nat
  sid : Nat
  out : Nat
  payload : Word
  ref : Word
  deriving DecidableEq, Repr

/-- A Stitch context (10 R184): its record, toggles by 16 layer + balancer, cell counts, and its barrier state. -/
structure Ctx where
  mode : Nat
  lw : Nat
  domain : Nat
  target : Nat
  gang : Nat
  base : Word
  release : Word
  ends : List Nat
  toggles : Map Bool
  cells : Map (BitVec 32)
  phase : Nat
  arrived : Nat
  sums : List Nat
  broken : Bool
  /-- New items are stopped at the input crossbar (10 R195). -/
  stopped : Bool
  /-- The Bindery's bn.clr with the break option waits until it is quiescent (10 R189). -/
  breaking : Bool
  deriving DecidableEq, Repr

/-- A version, held at its home or on its way there (19 R361): the location of its word, the data, the stamp, the storing package, die
and strand, its order among the commits of that die, and whether its release has arrived. -/
structure Version where
  loc : Nat
  data : Word
  stamp : Nat
  package : Nat
  die : Nat
  sid : Nat
  seq : Nat
  released : Bool
  deriving DecidableEq, Repr

/-- The die queue of a gang on a die (10 R193): its size, array, and the contexts that count its tail and head. -/
structure DieQueue where
  gang : Nat
  log : Nat
  array : Nat
  tail : Nat
  head : Nat
  deriving DecidableEq, Repr

/-- A die: its clock, horizon, Stitch network, versions, queues, and whether it is fenced. -/
structure Die where
  earliest : Nat
  latest : Nat
  /-- Nanoseconds for which discipline still holds latest (19 R357). -/
  hold : Nat
  /-- Discipline has stopped, and the pair is no longer kept within its bound (19 R357). -/
  lost : Bool
  horizon : Nat
  /-- A horizon on its way from F0 (19 R362). -/
  horizonNext : Option Nat
  ctxs : Map Ctx
  items : List Item
  /-- Context last served by each balancer (16 layer + number) and cell (240 + j). -/
  served : Map Nat
  /-- Phase copies of the cores, by 64 times the core within the die plus the context (10 R188). -/
  phases : Map Nat
  versions : List Version
  queues : List DieQueue
  fenced : Bool
  deriving DecidableEq, Repr

/-- A part of a get or put that is not performed (16 R319): its side, the bytes of the access that it covers, where they lie,
and for a read of a stamped line L once it has arrived (19 R363). -/
structure Part where
  write : Bool
  off : Nat
  len : Nat
  loc : Nat
  stamped : Bool
  arrived : Option Nat
  deriving DecidableEq, Repr

/-- What an entry of a remote-access unit does (16 R317): a load of a strand's result, a store of a committed chunk, the
move of a get or put, an atomic, or a migration request. -/
inductive RKind where
  | load (out : Nat) (locs : List Nat)
  | store (loc : Nat) (data bits : BitVec 128) (tag : Bool)
  | move (src dst : Word) (len : Nat) (data : List (Nat × Byte)) (parts : List Part)
  | rmw (va : Nat) (out : Nat) (loc : Nat) (op : Nat) (wide : Bool) (x e : Word) (amo : Bool)
  | mig (va : Nat) (frame : Nat) (status : Nat)
  deriving DecidableEq, Repr

/-- A remote access in flight: its core and strand, the gang and group that issued it and whether that firing still runs, and
whether it has been performed or has failed with a reason and an address (16 R321). -/
structure Remote where
  id : Nat
  cid : Nat
  sid : Nat
  gang : Nat
  group : Nat
  live : Bool
  kind : RKind
  performed : Bool
  failed : Option (Nat × Word)
  deriving DecidableEq, Repr

/-- A message in flight on a die or between dies; a release has still to reach the cores `left` of its die (10 R188). -/
inductive MsgKind where
  | amo (sid out loc op : Nat) (wide : Bool) (x e : Word)
  | cdec (sid gang : Nat) (ref : Word) (d : Int)
  | push (sid : Option Nat) (gang : Nat) (ref : Word) (arg : Word) (top : Bool)
  | carm (sid gang : Nat) (ref : Word) (v : Word)
  | steal (sid out victim gang : Nat)
  | quit (cid gang group : Nat)
  | bytes (gang cid off n : Nat)
  | release (die ctx phase : Nat) (left : List Nat)
  | spill (die gang token : Nat) (ref arg : Word)
  | version (v : Version)
  deriving DecidableEq, Repr

/-- A message with its number, the core it comes from, and if it completes an engine command the strand that issued that and the
smallest scope in which an operand or the target of the command lies (06 R121). -/
structure Msg where
  id : Nat
  src : Nat
  eng : Option (Nat × Nat)
  kind : MsgKind
  deriving DecidableEq, Repr

/-- A migration (16 R325): the access that asked for it, its Rebinder, page and frames, its step (0 queued, 1 frozen, 2 moved
and mapped), and the chunks that were open when it invalidated the page (08 R167). -/
structure Migration where
  rid : Nat
  reb : Nat
  va : Nat
  frame : Nat
  old : Nat
  status : Nat
  step : Nat
  open_ : List OpenRef
  deriving DecidableEq, Repr

/-- A region of a domain (08 R154). -/
structure Region where
  base : Nat
  size : Nat
  r : Bool
  w : Bool
  x : Bool
  e : Bool
  deriving DecidableEq, Repr

/-- A domain as the Bindery keeps it (08 R154, 21 R392). -/
structure Domain where
  caps : Nat
  otypes : Nat
  /-- The physical address of its region array. -/
  array : Nat
  regions : List Region
  senders : List Nat
  deriving DecidableEq, Repr

/-- A loaded object (21 R394): its sections, the scratch image with the capabilities and records resolved in it. -/
structure Obj where
  handle : Nat
  domain : Nat
  textva : Nat
  textlen : Nat
  datava : Nat
  datalen : Nat
  scratch : List Byte
  scratchTags : List Nat
  records : List Nat
  deriving DecidableEq, Repr

/-- The life of a launch (21 R393 selector 1, R399). -/
inductive GangState where
  | queued | running | preempted | reserved | ready
  deriving DecidableEq, Repr

/-- What a pre-empted core leaves with the Bindery (07 R143, R145, 14 R265): its core state with DQSTATE and the matrix
entries not finished, its strands, where the HBM holds the image of its scratchpad, its entries of the barrier directory, the
groups quit while it is away, and the messages held for it in order of arrival. -/
structure Saved where
  cid : Nat
  core : Core
  strands : List (Nat × Strand)
  image : Nat
  dir : List DirEntry
  quits : List Nat
  held : List Msg
  deriving DecidableEq, Repr

/-- A launch (21 R393, R395 to R399). -/
structure Launch where
  gang : Nat
  state : GangState
  sender : Nat
  id : Nat
  domain : Nat
  prio : Nat
  place : Nat
  count : Nat
  pair : Bool
  msplit : Nat
  chunklim : Nat
  stack : Nat
  argw : Bool
  handle : Nat
  entry : Nat
  args : Option Nat
  timeout : Nat
  dqlog : Nat
  ctxmap : Option Nat
  ctxs : List (Nat × List Byte)
  chips : List (Nat × Nat × Nat)
  deadline : Nat
  /-- Cores reserved, in the order of COORD (14 R274). -/
  cores : List Nat
  /-- Contexts held, as die and number (21 R396). -/
  held : List (Nat × Nat)
  start : Nat
  stamp : Option Nat
  coordinator : Bool
  readies : List Nat
  lost : Bool
  killed : Bool
  saved : List Saved
  featva : Nat
  deriving DecidableEq, Repr

/-- What leaves the package (21 R390, R391): a reply with its status, offset and body, an EVENTS record with the senders or
administrators that it goes to (R393), a message to the Bindery of another package, or a message on the board bus (DESIGN CHOICE,
assumption 71). -/
inductive Sent where
  | reply (dest id status offset : Nat) (body : List Byte)
  | event (dests : List Nat) (code gang group cause : Nat) (strand tpc tval : Word) (earliest latest : Nat) (detail : BitVec 128)
  | peer (package type gang : Nat) (value : Nat)
  | board (code : Nat)
  deriving DecidableEq, Repr

/-- An operation of a MAP that has been applied, or failed with a status: whether its MAP came on ordered delivery, whether the reply
follows it, and what was open at its invalidation (08 R165, 21 R389, R393). -/
structure MapWait where
  sender : Nat
  id : Nat
  ordered : Bool
  off : Nat
  last : Bool
  status : Nat
  open_ : List OpenRef
  deriving DecidableEq, Repr

/-- The Bindery (21). -/
structure Bindery where
  accepting : Bool
  /-- Launches are refused until a condition clears or the package is reset (16 R327, 21 R404). -/
  noLaunch : Bool
  package : Nat
  peers : List (Nat × Nat)
  /-- The base of the domain-rights table (08 R154), and MAPT64 and MAPT32 of each N-die's copy of the mapping tables (R155). -/
  drt : Nat
  t64 : List Word
  t32 : List Word
  /-- The pages that the tables map. -/
  pages : List PageEntry
  mapWaits : List MapWait
  domains : Map Domain
  admins : List Nat
  objects : List Obj
  launches : List Launch
  nextHandle : Nat
  sent : List Sent
  deriving DecidableEq, Repr

/-- Colophon (21 R401, R402). -/
structure Colophon where
  log : List (List Byte)
  logged : Nat
  minColophon : Nat
  minBindery : Nat
  leaf : Nat
  deriving DecidableEq, Repr

/-- The state of the package. -/
structure State where
  strands : Map Strand
  cores : Map Core
  quires : Map Quire
  dies : Map Die
  /-- Bytes that are not 0, by location in rising order (DESIGN CHOICE, assumption 4): physical addresses of the HBM and the far tier
  below 2^52, then 2^19 locations for each core's scratchpad. -/
  mem : List Host.Cell
  /-- Sectors whose tag is 1, as location divided by 16, in rising order (04 R71). -/
  tags : List Nat
  remotes : List Remote
  msgs : List Msg
  migrations : List Migration
  /-- Populated bytes of CXL port n (16 R323), and at 8 + n a 1 if the port is lost (R327). -/
  ports : Map Nat
  bindery : Bindery
  colophon : Colophon
  power : Bool
  /-- F0 collects the horizons here (19 R362). -/
  collected : Option Nat
  /-- Numbers given to results, messages and remote accesses. -/
  serial : Nat
  /-- The model's own fields: the strand that issues, its park marker, the operands of the event, the schedule still to be
  used, the number of the turn, the reference time in nanoseconds. -/
  cur : Nat
  park : Bool
  arg : Args
  turns : List Turn
  ticks : Nat
  now : Nat
  deriving DecidableEq, Repr

/-- What stops the machine: nothing. Every trap of the spec is a next state, and the loss of power (21 R404) and of a die
(16 R327) are states, so no meaning raises a fault and the type has no constructor. -/
inductive Fault where
  deriving DecidableEq, Repr

/-- Why the model gives no answer. -/
inductive Refusal where
  /-- The instruction has no meaning yet. Raised by Sys2Proof.Machine.exec alone; safe. -/
  | notModelled (mnemonic : String)
  deriving DecidableEq, Repr

/-! ## Reset

The spec gives a reset value for the served contexts of the Stitch network (10 R183). Every other value below is the
model's choice (DESIGN CHOICE, assumption 3), and every byte of memory reads 0 (DESIGN CHOICE, assumption 4). -/

/-- A trap set at reset. -/
def TrapSet.reset : TrapSet := { pcc := .null, cause := 0, val := 0, state := 0, repctx := 0 }

/-- The registers and CSRs of a strand at reset (DESIGN CHOICE, assumption 3). -/
def Arch.reset : Arch :=
  { g := Vector.replicate 64 .null, sbank := Vector.replicate 4 .null, v := Vector.replicate 32 0, pcc := .null,
    frame := none, fbuf := (0, []), smode := false, hf := false, uset := .reset, sset := .reset, frm := 0, fflags := 0, srseed := 0,
    sclbase := 0, tvec := 0, cpstk := 0, trail := 0, cpdepth := 0, twmax := 0, evcnt := Vector.replicate 8 0, svec := 0,
    sscratch := 0, dbg := 0, stage := 0, gang := 0, popped := 0,
    ovfClear := false }

/-- A strand at reset: it holds no firing (DESIGN CHOICE, assumption 3). -/
def Strand.reset : Strand :=
  { firing := none, asleep := false, arch := .reset, domain := 0, featcap := 0, out := [], chunks := [], nextChunk := 1,
    wait := .none, trap := none, mchk := none, ganglost := none, preempt := false, engfault := [], places := [],
    ovf := false, halted := false }

/-- A core at reset (DESIGN CHOICE, assumption 3): MSPLIT and CHUNKLIM are the defaults of a launch (02 R40), its tables are disabled (08
R155). -/
def Core.reset : Core :=
  { lastIssue := 3, msplit := 6, msplitNext := none, chunklim := 64, paired := false, recov := 0, coord := 0, drtbase := 0, mapt64 := 0,
    mapt32 := 0, dqstate := 0, plb := [], pages := [], icache := [], l1 := [], fills := [], sfrq := [], acc := [],
    accFlags := Vector.replicate 4 0, claim := none, mq := [], vq := [], gang := none, quit := [], gangCode := .null,
    stubCode := .null, gp := .null, feat := .null, stack := 0, claiming := false, claimDq := none }

/-- A quire at reset: the pipe, the array and the transfer path begin after core 3 (DESIGN CHOICE, assumption 3). -/
def Quire.reset : Quire := { cmds := [], locks := [], dir := [], lastVec := 3, lastArr := 3, lastXfer := 3 }

/-- A Stitch context that is off (10 R184). -/
def Ctx.off : Ctx :=
  { mode := 0, lw := 0, domain := 0, target := 0, gang := 0, base := 0, release := 0, ends := [], toggles := [],
    cells := [], phase := 0, arrived := 0, sums := [0, 0, 0, 0], broken := false, stopped := false,
    breaking := false }

/-- A die at reset. -/
def Die.reset : Die :=
  { earliest := 0, latest := 0, hold := 0, lost := false, horizon := 0, horizonNext := none, ctxs := [], items := [], served := [], phases := [],
    versions := [], queues := [], fenced := false }

/-- The Bindery before it runs. -/
def Bindery.reset : Bindery :=
  { accepting := false, noLaunch := false, package := 0, peers := [], drt := 0, t64 := [], t32 := [], pages := [],
    mapWaits := [], domains := [], admins := [], objects := [], launches := [], nextHandle := 1, sent := [] }

/-- Colophon before it runs. -/
def Colophon.reset : Colophon := { log := [], logged := 0, minColophon := 0, minBindery := 0, leaf := 0 }

/-- The package right after reset: no power-good yet, no strand holds a firing, memory lists nothing. -/
def State.reset : State :=
  { strands := [], cores := [], quires := [], dies := [], mem := [], tags := [], remotes := [], msgs := [],
    migrations := [], ports := [], bindery := .reset, colophon := .reset, power := false, collected := none, serial := 0,
    cur := 0, park := false, arg := { n := [], bytes := [] }, turns := [], ticks := 0, now := 0 }

end Sys2Proof.Machine
end

