-- ==== Sys2Proof/Machine/Flags.lean ====
section
/-! DEFINITION. The exception flags and event counters (11 R214, R215): how an instruction's flags are summed over its lanes
or elements, ORed into FFLAGS and counted in EVCNT. -/

namespace Sys2Proof.Machine

open Sys2Proof

/-- No flag. -/
def Flags.none : Flags := { nv := 0, dz := 0, of := 0, uf := 0, nx := 0, sat := 0, inv := 0 }

/-- One element raising NV. -/
def Flags.nv1 : Flags := { Flags.none with nv := 1 }
/-- One element raising DZ. -/
def Flags.dz1 : Flags := { Flags.none with dz := 1 }
/-- One element raising NX. -/
def Flags.nx1 : Flags := { Flags.none with nx := 1 }
/-- One element raising INV. -/
def Flags.inv1 : Flags := { Flags.none with inv := 1 }
/-- One element raising SAT. -/
def Flags.sat1 : Flags := { Flags.none with sat := 1 }
/-- One element saturating inexactly (06 R109, 11 R206). -/
def Flags.satNx : Flags := { Flags.none with sat := 1, nx := 1 }

/-- The flags of two groups of elements (11 R215 counts each element once). -/
def Flags.add (a b : Flags) : Flags :=
  { nv := a.nv + b.nv, dz := a.dz + b.dz, of := a.of + b.of, uf := a.uf + b.uf, nx := a.nx + b.nx,
    sat := a.sat + b.sat, inv := a.inv + b.inv }

/-- One element that raises what either of two of its operations raises. -/
def Flags.or (a b : Flags) : Flags :=
  { nv := max a.nv b.nv, dz := max a.dz b.dz, of := max a.of b.of, uf := max a.uf b.uf, nx := max a.nx b.nx,
    sat := max a.sat b.sat, inv := max a.inv b.inv }

/-- The bits of FFLAGS that a sum of flags sets (11 R214). -/
def Flags.bits (f : Flags) : Word :=
  (if f.nv = 0 then 0 else 1) ||| (if f.dz = 0 then 0 else 2) ||| (if f.of = 0 then 0 else 4) |||
  (if f.uf = 0 then 0 else 8) ||| (if f.nx = 0 then 0 else 16) ||| (if f.sat = 0 then 0 else 32) |||
  (if f.inv = 0 then 0 else 64)

/-- How often a flag event of EVCNT occurred (11 R215, events 1 to 7). -/
def Flags.event (f : Flags) : Nat → Nat
  | 1 => f.nv
  | 2 => f.dz
  | 3 => f.of
  | 4 => f.uf
  | 5 => f.nx
  | 6 => f.sat
  | 7 => f.inv
  | _ => 0

/-- The event that a counter counts (11 R215). -/
def evOf (c : Word) : Nat := (c.extractLsb' 32 8).toNat

/-- A counter after `n` occurrences of what it counts; the count saturates (11 R215). -/
def evAdd (c : Word) (n : Nat) : Word :=
  (c.extractLsb' 32 32 ++ BitVec.ofNat 32 (min ((c.extractLsb' 0 32).toNat + n) 0xFFFFFFFF) : BitVec 64)

/-- The counters after `n` occurrences of event `e`. -/
def Arch.count (a : Arch) (e n : Nat) : Arch :=
  { a with evcnt := a.evcnt.map fun c => if evOf c = e then evAdd c n else c }

/-- FFLAGS and the counters after an instruction's flags are applied (11 R214, R215). -/
def Arch.raise (a : Arch) (f : Flags) : Arch :=
  { a with fflags := a.fflags ||| f.bits, evcnt := a.evcnt.map fun c => evAdd c (f.event (evOf c)) }

/-- The counters that a squash keeps from the squashed run: events 9 to 12 are not restored (11 R215). -/
def keepEvents (now then_ : Vector Word 8) : Vector Word 8 :=
  Vector.ofFn fun n => if 9 ≤ evOf then_[n] ∧ evOf then_[n] ≤ 12 then now[n] else then_[n]

end Sys2Proof.Machine
end

