-- ==== Sys2Proof/Machine/Ops.lean ====
section
/-! DEFINITION. The named operations that every meaning is built of: the maps of the state, memory and its tags, registers,
capabilities (04), the address map (01 R13 to R15), translation and rights (08), chunks and their commit (01 R16, 17),
taking a trap (07 R127 to R132), and the steps of issue that every instruction shares (03 R51, 05 R83 to R85). -/

namespace Sys2Proof.Machine

open Sys2Proof

/-! ## Maps and the parts of the state -/

/-- The value a map gives a number, or the default. -/
def mapGet {α : Type} (d : α) (k : Nat) : Map α → α
  | [] => d
  | (k', x) :: m => if k' = k then x else mapGet d k m

/-- A map with one number's value replaced; the numbers stay in rising order. -/
def mapSet {α : Type} (k : Nat) (x : α) : Map α → Map α
  | [] => [(k, x)]
  | (k', y) :: m => if k < k' then (k, x) :: (k', y) :: m else if k = k' then (k, x) :: m else (k', y) :: mapSet k x m

/-- The strand of a CSR STRAND value. -/
def State.strand (s : State) (sid : Nat) : Strand := mapGet Strand.reset sid s.strands
/-- A core. -/
def State.core (s : State) (cid : Nat) : Core := mapGet Core.reset cid s.cores
/-- A quire. -/
def State.quire (s : State) (qid : Nat) : Quire := mapGet Quire.reset qid s.quires
/-- A die. -/
def State.die (s : State) (d : Nat) : Die := mapGet Die.reset d s.dies

/-- The state with a strand replaced. -/
def State.setStrand (s : State) (sid : Nat) (t : Strand) : State := { s with strands := mapSet sid t s.strands }
/-- The state with a core replaced. -/
def State.setCore (s : State) (cid : Nat) (c : Core) : State := { s with cores := mapSet cid c s.cores }
/-- The state with a quire replaced. -/
def State.setQuire (s : State) (qid : Nat) (q : Quire) : State := { s with quires := mapSet qid q s.quires }
/-- The state with a die replaced. -/
def State.setDie (s : State) (d : Nat) (x : Die) : State := { s with dies := mapSet d x s.dies }

/-- The state with a strand changed. -/
def State.onStrand (s : State) (sid : Nat) (f : Strand → Strand) : State := s.setStrand sid (f (s.strand sid))
/-- The state with a core changed. -/
def State.onCore (s : State) (cid : Nat) (f : Core → Core) : State := s.setCore cid (f (s.core cid))
/-- The state with a quire changed. -/
def State.onQuire (s : State) (qid : Nat) (f : Quire → Quire) : State := s.setQuire qid (f (s.quire qid))
/-- The state with a die changed. -/
def State.onDie (s : State) (d : Nat) (f : Die → Die) : State := s.setDie d (f (s.die d))
/-- The state with the Bindery changed. -/
def State.onBindery (s : State) (f : Bindery → Bindery) : State := { s with bindery := f s.bindery }

/-- The core of a strand (01 R10). -/
def coreOf (sid : Nat) : Nat := sid / 4
/-- The quire of a strand (01 R10). -/
def quireOf (sid : Nat) : Nat := sid / 16
/-- The die of a strand (01 R10). -/
def dieOf (sid : Nat) : Nat := sid / 512
/-- The die of a core. -/
def dieOfCore (cid : Nat) : Nat := cid / 128
/-- The quire of a core. -/
def quireOfCore (cid : Nat) : Nat := cid / 4
/-- The four strands of a core. -/
def strandsOf (cid : Nat) : List Nat := [4 * cid, 4 * cid + 1, 4 * cid + 2, 4 * cid + 3]
/-- The four cores of a quire. -/
def coresOf (qid : Nat) : List Nat := [4 * qid, 4 * qid + 1, 4 * qid + 2, 4 * qid + 3]

/-- The registers of a strand. -/
def State.arch (s : State) (sid : Nat) : Arch := (s.strand sid).arch
/-- The state with the registers of a strand changed. -/
def State.onArch (s : State) (sid : Nat) (f : Arch → Arch) : State :=
  s.onStrand sid fun t => { t with arch := f t.arch }

/-- The state with a fresh number taken. -/
def State.bump (s : State) : State := { s with serial := s.serial + 1 }

/-- A value the spec does not state (DESIGN CHOICE, assumption 5): nothing constrains it. -/
def State.free (s : State) (n : Nat) : Word := Config.freeWord s.ticks n

/-- A number of the event's operands. -/
def State.argN (s : State) (k : Nat) : Nat := s.arg.n.getD k 0

/-- The divider of a core holds a divide of one of its strands (04 R62). -/
def State.dividing (s : State) (cid : Nat) : Bool :=
  (strandsOf cid).any fun sid => (s.strand sid).out.any fun o =>
    match o.src with
    | .divide _ => true
    | _ => false

/-- A vector dispatch queue that an instruction of a core enters holds 4 entries: that of the core, and of a pair that of the odd core
too (12 R217, R219). -/
def State.pipeFull (s : State) (cid : Nat) : Bool :=
  decide (4 ≤ (s.core cid).vq.length) || ((s.core cid).paired && decide (4 ≤ (s.core (cid + 1)).vq.length))

/-- Applies a change of state to each number of a list in turn. -/
def forAll {α : Type} (l : List α) (f : State → α → State) (s : State) : State := l.foldl f s

/-! ## Memory and tags (04 R71) -/

/-- What a byte that nothing has written reads as (DESIGN CHOICE, assumption 4). -/
def blankByte : Byte := 0

/-- One byte of memory. -/
def readByte (m : List Host.Cell) (a : Nat) : Byte := mapGet blankByte a m

/-- Memory with one byte written; a byte equal to what an unlisted one reads as is not listed. -/
def writeByte (m : List Host.Cell) (a : Nat) (b : Byte) : List Host.Cell :=
  if b = blankByte then m.filter (fun c => c.1 != a) else mapSet a b m

/-- Strictly rising locations, from a bound on. -/
def cellsRise : Nat → List Host.Cell → Bool
  | _, [] => true
  | lo, (a, b) :: m => decide (lo ≤ a) && b != blankByte && cellsRise (a + 1) m

/-- The canonical form of memory: locations strictly rising and no listed byte equal to a blank one. -/
def Memory.wf (m : List Host.Cell) : Bool := cellsRise 0 m

/-- `n` bytes as a little-endian number (00 R2). -/
def readNat (m : List Host.Cell) (a : Nat) : Nat → Nat
  | 0 => 0
  | n + 1 => (readByte m a).toNat + 256 * readNat m (a + 1) n

/-- The low `n` bytes of a number, written little-endian. -/
def writeNat (m : List Host.Cell) (a : Nat) : Nat → Nat → List Host.Cell
  | 0, _ => m
  | n + 1, v => writeNat (writeByte m a (BitVec.ofNat 8 v)) (a + 1) n (v / 256)

/-- A list of bytes written from a location on. -/
def writeBytes (m : List Host.Cell) (a : Nat) : List Byte → List Host.Cell
  | [] => m
  | b :: bs => writeBytes (writeByte m a b) (a + 1) bs

/-- A list of `n` bytes. -/
def readBytes (m : List Host.Cell) (a : Nat) : Nat → List Byte
  | 0 => []
  | n + 1 => readByte m a :: readBytes m (a + 1) n

/-- The number of a list of bytes, lowest first. -/
def natOfBytes : List Byte → Nat
  | [] => 0
  | b :: bs => b.toNat + 256 * natOfBytes bs

/-- The `n` bytes of a number, lowest first. -/
def bytesOfNat : Nat → Nat → List Byte
  | 0, _ => []
  | n + 1, v => BitVec.ofNat 8 v :: bytesOfNat n (v / 256)

/-- Field of a little-endian run of bytes. -/
def fieldAt (bs : List Byte) (off n : Nat) : Nat := natOfBytes ((bs.drop off).take n)

/-- The tag of a sector. -/
def tagAt (ts : List Nat) (sector : Nat) : Bool := ts.contains sector

/-- A number added to a rising list. -/
def insertNat (k : Nat) : List Nat → List Nat
  | [] => [k]
  | k' :: l => if k < k' then k :: k' :: l else if k = k' then k' :: l else k' :: insertNat k l

/-- The tags with one sector's tag written. -/
def setTag (ts : List Nat) (sector : Nat) (t : Bool) : List Nat :=
  if t then insertNat sector ts else ts.filter (· != sector)

/-- Strictly rising numbers, from a bound on. -/
def natsRise : Nat → List Nat → Bool
  | _, [] => true
  | lo, a :: l => decide (lo ≤ a) && natsRise (a + 1) l

/-- The canonical form of the tag list. -/
def Tags.wf (ts : List Nat) : Bool := natsRise 0 ts

/-- The 16 bytes and the tag of the sector at a location (04 R71: read together). -/
def State.sector (s : State) (loc : Nat) : Reg :=
  { bits := BitVec.ofNat 128 (readNat s.mem (loc / 16 * 16) 16), tag := tagAt s.tags (loc / 16) }

/-- The byte `n` of a sector image. -/
def byteOf (x : BitVec 128) (n : Nat) : Byte := x.extractLsb' (8 * n) 8

/-- The bytes of a sector of which some bit is written, each merged with what it holds. -/
def mergeBytes (m : List Host.Cell) (loc : Nat) (data bits : BitVec 128) : Nat → List Host.Cell
  | 0 => m
  | n + 1 =>
    let m' := mergeBytes m loc data bits n
    let k := byteOf bits n
    if k = 0 then m' else writeByte m' (loc + n) ((readByte m (loc + n) &&& ~~~k) ||| (byteOf data n &&& k))

/-- The tags of the sectors of which a write from a location on changes some bit. -/
def mergeTags (ts : List Nat) (loc : Nat) (bits : BitVec 128) (tag : Bool) : Nat → List Nat
  | 0 => ts
  | n + 1 =>
    let ts' := mergeTags ts loc bits tag n
    if byteOf bits n = 0 then ts' else setTag ts' ((loc + n) / 16) tag

/-- A write of the chosen bits of the 16 bytes from a location on, and of the tags of the sectors it changes (04 R71: the
bytes and the tag together). The location is the start of a sector but for a T6 group (11 R204). -/
def State.writeSector (s : State) (loc : Nat) (data bits : BitVec 128) (tag : Bool) : State :=
  { s with mem := mergeBytes s.mem loc data bits 16, tags := mergeTags s.tags loc bits tag 16 }

/-- The tags of the sectors that a run of bytes touches, cleared. -/
def clearTags (ts : List Nat) (loc : Nat) : Nat → List Nat
  | 0 => ts
  | n + 1 => setTag (clearTags ts loc n) ((loc + n) / 16) false

/-- Plain bytes written at a location; the tag of every sector touched is cleared (04 R71). -/
def State.store (s : State) (loc : Nat) (bs : List Byte) : State :=
  { s with mem := writeBytes s.mem loc bs, tags := clearTags s.tags loc bs.length }

/-! ## Registers (03 R59, 07 R123) -/

/-- A g-register: g0 reads as null, and in S mode g60 to g63 name the S bank. -/
def Arch.readG (a : Arch) (n : BitVec 6) : Reg :=
  if n = 0 then .null
  else if h : a.smode = true ∧ 60 ≤ n.toNat then a.sbank[n.toNat - 60]'(by have := n.isLt; omega)
  else a.g[n.toNat]'(by have := n.isLt; omega)

/-- A g-register written: g0 ignores it, and in S mode g60 to g63 name the S bank. -/
def Arch.writeG (a : Arch) (n : BitVec 6) (x : Reg) : Arch :=
  if n = 0 then a
  else if h : a.smode = true ∧ 60 ≤ n.toNat then
    { a with sbank := a.sbank.set (n.toNat - 60) x (by have := n.isLt; omega) }
  else { a with g := a.g.set n.toNat x (by have := n.isLt; omega) }

/-- A v-register. -/
def Arch.readV (a : Arch) (n : BitVec 5) : BitVec 2048 := a.v[n.toNat]'(by have := n.isLt; omega)

/-- A v-register written. -/
def Arch.writeV (a : Arch) (n : BitVec 5) (x : BitVec 2048) : Arch :=
  { a with v := a.v.set n.toNat x (by have := n.isLt; omega) }

/-- Data form (04 R65): 64 bits, zero above, tag 0. -/
def Reg.data (x : Word) : Reg := { bits := x.setWidth 128, tag := false }

/-- The 64 data bits of a register; in capability form its cursor (04 R66). -/
def Reg.low (r : Reg) : Word := r.bits.setWidth 64

/-- The data bits of a g-register. -/
def Arch.word (a : Arch) (n : BitVec 6) : Word := (a.readG n).low

/-- Lane `n` of width 32 of a vector register (12 R220). -/
def lane32 (x : BitVec 2048) (n : Nat) : BitVec 32 := x.extractLsb' (32 * n) 32

/-- Lane `n` of width 16 of a vector register (12 R220). -/
def lane16 (x : BitVec 2048) (n : Nat) : BitVec 16 := x.extractLsb' (16 * n) 16

/-- A vector register with the `w` bits from `w n` on replaced. -/
def setLane (x : BitVec 2048) (w n : Nat) (v : Nat) : BitVec 2048 :=
  let mask : BitVec 2048 := BitVec.ofNat 2048 (2 ^ w - 1) <<< (w * n)
  (x &&& ~~~mask) ||| ((BitVec.ofNat 2048 (v % 2 ^ w)) <<< (w * n))

/-- A register write applied. -/
def Arch.put (a : Arch) : RegWrite → Arch
  | .g r x => a.writeG r x
  | .v r x => a.writeV r x

/-! ## Capabilities (04 R66 to R70) -/

/-- Permission of an index of 04 R67. -/
def Reg.perm (c : Reg) (k : Nat) : Bool := c.bits.getLsbD (116 + k)

/-- The index of LD in the 12-bit masks (04 R67). -/
def permLD : Nat := 11
/-- ST. -/
def permST : Nat := 10
/-- X. -/
def permX : Nat := 9
/-- LDC. -/
def permLDC : Nat := 8
/-- STC. -/
def permSTC : Nat := 7
/-- SEAL. -/
def permSEAL : Nat := 6
/-- UNSEAL. -/
def permUNSEAL : Nat := 5
/-- ENG. -/
def permENG : Nat := 4
/-- STAMP. -/
def permSTAMP : Nat := 3
/-- TRY. -/
def permTRY : Nat := 2
/-- SYS. -/
def permSYS : Nat := 1
/-- GLOBAL. -/
def permGLOBAL : Nat := 0

/-- The object type of a capability. -/
def Reg.otype (c : Reg) : Nat := (c.bits.extractLsb' 112 4).toNat
/-- The exponent of its bounds. -/
def Reg.exp (c : Reg) : Nat := (c.bits.extractLsb' 106 6).toNat
/-- The base mantissa. -/
def Reg.bm (c : Reg) : Nat := (c.bits.extractLsb' 85 21).toNat
/-- The top mantissa. -/
def Reg.tm (c : Reg) : Nat := (c.bits.extractLsb' 64 21).toNat
/-- The cursor as a number. -/
def Reg.cursor (c : Reg) : Nat := c.low.toNat

/-- Base(c) of 04 R68: exact, so an image with tag 0 may give a negative number. -/
def Reg.base (c : Reg) : Int :=
  let amid := c.cursor / 2 ^ c.exp % 2 ^ 21
  let atop := c.cursor / 2 ^ (c.exp + 21)
  let hb : Int := if amid < c.bm then (atop : Int) - 1 else atop
  hb * 2 ^ (c.exp + 21) + (c.bm * 2 ^ c.exp : Nat)

/-- The length that the mantissas and the exponent encode (04 R68). -/
def Reg.length (c : Reg) : Nat := (c.tm + 2 ^ 21 - c.bm) % 2 ^ 21 * 2 ^ c.exp

/-- Top(c) of 04 R68. -/
def Reg.top (c : Reg) : Int := c.base + c.length

/-- A cursor is representable for a capability when it lies within 2^(E+21) above its base (04 R69). -/
def Reg.representable (c : Reg) (a : Nat) : Bool :=
  decide (c.base ≤ (a : Int)) && decide ((a : Int) < c.base + 2 ^ (c.exp + 21))

/-- A capability with its cursor replaced; the tag stays. -/
def Reg.withCursor (c : Reg) (a : Word) : Reg := { c with bits := (c.bits.extractLsb' 64 64 ++ a : BitVec 128) }

/-- The smallest exponent from `e` on that holds a length (04 R69), at most 36. -/
def smallestExp (len : Nat) : Nat → Nat → Nat
  | e, 0 => e
  | e, fuel + 1 => if len ≤ (2 ^ 21 - 1) * 2 ^ e then e else smallestExp len (e + 1) fuel

/-- The exponent of a length (04 R69). -/
def expFor (len : Nat) : Nat := smallestExp len 0 36

/-- A capability image: permissions in index order, object type, bounds under an exponent, cursor; tag 1. -/
def mkCap (perms : BitVec 12) (otype e base top : Nat) (cursor : Word) : Reg :=
  { bits := (perms ++ BitVec.ofNat 4 otype ++ BitVec.ofNat 6 e ++ BitVec.ofNat 21 (base / 2 ^ e) ++
      BitVec.ofNat 21 (top / 2 ^ e) ++ cursor : BitVec 128), tag := true }

/-- Bounds that are exactly representable (04 R69). -/
def exactBounds (base top : Nat) : Bool :=
  let e := expFor (top - base)
  decide (base ≤ top) && decide (top ≤ 2 ^ 56) && decide (top - base ≤ (2 ^ 21 - 1) * 2 ^ e) &&
    base % 2 ^ e == 0 && top % 2 ^ e == 0

/-- The mask of a list of permission indices. -/
def permMask (l : List Nat) : BitVec 12 := l.foldl (fun m k => m ||| (1#12 <<< k)) 0

/-- A capability over a range, its cursor given. -/
def capOver (l : List Nat) (base top : Nat) (cursor : Nat) : Reg :=
  mkCap (permMask l) 0 (expFor (top - base)) base top (BitVec.ofNat 64 cursor)

/-- A code capability with the cursor of a handler (07 R129). A vector for which it is not representable lies outside the code, and
the first fetch traps CAPBND: the PCC then has empty bounds (DEDUCED, assumption 62). -/
def Reg.jumpTo (c : Reg) (a : Word) : Reg :=
  if c.representable a.toNat then c.withCursor a
  else { mkCap (c.bits.extractLsb' 116 12) c.otype 0 a.toNat a.toNat a with tag := c.tag }

/-- A byte address that no dereference may touch (01 R14): one of bits [63:56] set, or in the reserved range. -/
def badAddress (a : Nat) : Bool :=
  decide (2 ^ 56 ≤ a) || (decide (0x7F0002000000 ≤ a) && decide (a < 0x800000000000))

/-- CheckCap of 02 R46 on a range of `n` bytes from `a`, with the permissions named and, when `al` is not 0, alignment to
`al`: the first failing check. A capability with SYS is dereferenced in S mode only (04 R67). -/
def checkCap (smode : Bool) (c : Reg) (a n : Nat) (perms : List Nat) (al : Nat) : Option Cause :=
  if c.tag = false then some .captag
  else if c.otype ≠ 0 then some .capseal
  else if perms.any (fun k => !c.perm k) || (c.perm permSYS && !smode) then some .capperm
  else if badAddress a || badAddress (a + (n - 1)) || (decide (a < 0x7F0002000000) && decide (0x800000000000 ≤ a + (n - 1)))
      || decide ((a : Int) < c.base) || decide (c.top < (a : Int) + n) then some .capbnd
  else if al ≠ 0 ∧ a % al ≠ 0 then some .align
  else none

/-! ## The address map (01 R13 to R15) -/

/-- What a virtual address names. -/
inductive Place where
  /-- Mapped memory. -/
  | mapped (va : Nat)
  /-- Offset `off` of window `win` of the scratchpad of a core. -/
  | pad (cid win off : Nat)
  /-- An aperture address whose die is 8 or more. -/
  | hole
  deriving DecidableEq, Repr

/-- The core whose scratchpad a core's addresses name: the even core of a pair serves both (07 R148). -/
def State.owner (s : State) (cid : Nat) : Nat := if (s.core (cid - cid % 2)).paired then cid - cid % 2 else cid

/-- What an address names, for a core (01 R14, R15). -/
def State.place (s : State) (cid a : Nat) : Place :=
  if 0x7F0000000000 ≤ a ∧ a < 0x7F0002000000 then
    let r := a - 0x7F0000000000
    .pad (s.owner cid) (r / 0x400000) (r % 0x400000)
  else if 0x7E0000000000 ≤ a ∧ a < 0x7F0000000000 then
    let r := a - 0x7E0000000000
    let d := r / 2 ^ 32
    if 8 ≤ d then .hole
    else .pad (s.owner (d * 128 + r / 2 ^ 25 % 128)) (r / 0x400000 % 8) (r % 0x400000)
  else .mapped a

/-- The scratchpad bytes of a core: MSPLIT x 64 KB (06 R102). -/
def State.padSize (s : State) (cid : Nat) : Nat := (s.core cid).msplit.toNat * 65536

/-- Where scratchpad locations begin. -/
def padOrigin : Nat := 2 ^ 52

/-- The location of a raw offset of a core's scratchpad. -/
def padLoc (cid raw : Nat) : Nat := padOrigin + cid * 2 ^ 19 + raw

/-- The core whose scratchpad a location lies in. -/
def padCore (loc : Nat) : Nat := (loc - padOrigin) / 2 ^ 19

/-- The raw offset of a scratchpad location. -/
def padRaw (loc : Nat) : Nat := (loc - padOrigin) % 2 ^ 19

/-- The populated bytes of a window of a scratchpad of `size` bytes (06 R106). -/
def windowBytes (win size : Nat) : Nat :=
  match win with
  | 0 => size
  | 1 => 4 * size
  | 2 => 16 * (size / 3)
  | 3 => 2 * size
  | 4 => 2 * size
  | 5 => 4 * size
  | 6 => size
  | _ => 0

/-- A physical address as this package sees it (01 R13): a local location, an address in the other-packages range that names
this package or a registered peer, or no memory. -/
inductive Phys where
  | here (pa : Nat)
  | peer (pa : Nat)
  | nothing
  deriving DecidableEq, Repr

/-- Populated local memory (01 R13, 16 R323). -/
def State.localPhys (s : State) (pa : Nat) : Phys :=
  if pa < 2 ^ 40 then .here pa
  else if 2 ^ 43 ≤ pa ∧ pa < 2 ^ 44 then
    if pa % 2 ^ 40 < mapGet 0 (pa / 2 ^ 40 % 8) s.ports then .here pa else .nothing
  else .nothing

/-- What a physical address names (01 R13). One that names the own package stays as it is: it is served locally, with the
ordering of a get or put. -/
def State.phys (s : State) (pa : Nat) : Phys :=
  if 2 ^ 51 ≤ pa then
    let pkg := pa / 2 ^ 45 % 64
    if pkg = s.bindery.package then
      match s.localPhys (pa % 2 ^ 45) with
      | .nothing => .nothing
      | _ => .peer pa
    else if (s.bindery.peers.map Prod.fst).contains pkg then .peer pa
    else .nothing
  else s.localPhys pa

/-- A location named by its package (01 R13). -/
def isForeign (loc : Nat) : Bool := decide (2 ^ 51 ≤ loc) && decide (loc < padOrigin)

/-- The storage that a location names: one that names the own package is its local location (01 R13). -/
def State.real (s : State) (loc : Nat) : Nat :=
  if isForeign loc && loc / 2 ^ 45 % 64 == s.bindery.package then loc % 2 ^ 45 else loc

/-- The die that orders a location (01 R12, 17 R333); no die of this package for a location of another. -/
def homeDie (loc : Nat) : Option Nat :=
  if padOrigin ≤ loc then some (dieOfCore (padCore loc))
  else if isForeign loc then none
  else some (loc / 4096 % 8)

/-- A target on the die (17 R333). -/
def locOnDie (die loc : Nat) : Bool := homeDie loc == some die

/-- The line of a location, by which signatures and remote order are kept. -/
def lineOf (loc : Nat) : Nat := loc / 128

/-- Whether a location can be reached from a die (16 R327): neither its home die, nor the F-die or the port behind which its data
lie, nor, for another package, the F-die through which the request leaves (16 R322), is lost. -/
def State.reachable (s : State) (die loc : Nat) : Bool :=
  let loc := s.real loc
  (match homeDie loc with
   | some d => !(s.die d).fenced
   | none => !(s.die (8 + die / 4 % 2)).fenced) &&
  !(decide (2 ^ 43 ≤ loc) && decide (loc < 2 ^ 44) &&
    ((s.die (8 + loc / 2 ^ 42 % 2)).fenced || mapGet 0 (8 + loc / 2 ^ 40 % 8) s.ports != 0))

/-- A byte as an observer reads it. Memory holds the bytes of the other packages of the domain as well, at the physical addresses
that name them (DESIGN CHOICE, assumption 6). -/
def State.byteAt (s : State) (loc : Nat) : Byte := readByte s.mem (s.real loc)

/-! ## Rights and translation (08) -/

/-- The rights an access needs (08 R153). -/
inductive Right where
  | r | w | x | e
  deriving DecidableEq, Repr

/-- Whether an entry grants a right. -/
def PlbEntry.grants (p : PlbEntry) : Right → Bool
  | .r => p.r
  | .w => p.w
  | .x => p.x
  | .e => p.e

/-- Whether a region of the PLB contains an address. -/
def PlbEntry.covers (p : PlbEntry) (a : Nat) : Bool := decide (p.base ≤ a) && decide (a < p.base + 2 ^ p.size)

/-- The PLB entry of a domain that contains an address. -/
def plbFind (l : List PlbEntry) (dom a : Nat) : Option PlbEntry := l.find? fun p => p.domain == dom && p.covers a

/-- A list with its element moved to the front: it is now the most recently used. -/
def touch {α : Type} [DecidableEq α] (x : α) (l : List α) : List α := x :: l.filter (· ≠ x)

/-- A list with a new front element, at most `n` long. -/
def install {α : Type} (n : Nat) (x : α) (l : List α) : List α := (x :: l).take n

/-- The 128 bits of physical memory at a location. -/
def State.quad (s : State) (loc : Nat) : BitVec 128 := BitVec.ofNat 128 (readNat s.mem (s.real loc) 16)

/-- The entry of a region array with the largest base not above an address, among `n` entries (08 R154). -/
def State.regionSearch (s : State) (array a : Nat) : Nat → Option (BitVec 128)
  | 0 => none
  | n + 1 =>
    let e := s.quad (array + 16 * n)
    if (e.extractLsb' 20 36).toNat * 2 ^ 20 ≤ a then some e else s.regionSearch array a n

/-- The entry that a fill installs for an address of a domain, if the table covers it (08 R154). -/
def State.plbLookup (s : State) (cid dom a : Nat) : Option PlbEntry :=
  let hdr := s.quad ((s.core cid).drtbase.toNat / 4096 * 4096 % 2 ^ 52 + 16 * dom)
  let array := (hdr.extractLsb' 0 64).toNat
  match s.regionSearch array a (min ((hdr.extractLsb' 64 16).toNat) 4096) with
  | none => none
  | some e =>
    let size := (e.extractLsb' 64 6).toNat
    let base := (e.extractLsb' 20 36).toNat * 2 ^ 20
    if 20 ≤ size ∧ size ≤ 56 ∧ base % 2 ^ size = 0 ∧ a < base + 2 ^ size then
      some
        { base := base, size := size, domain := dom, r := e.getLsbD 75, w := e.getLsbD 74, x := e.getLsbD 73,
          e := e.getLsbD 72 }
    else none

/-- What the PLB says at issue. -/
inductive Verdict where
  | granted | denied | miss
  deriving DecidableEq, Repr

/-- Nothing looked up yet (DESIGN CHOICE, assumption 47). -/
def Looked.none : Looked := { plb := [], plbNone := [], pages := [], pageNone := [] }

/-- What the instruction at hand has looked up so far. -/
def Wait.got : Wait → Looked
  | .plb _ g | .xlate _ g | .looked g => g
  | _ => .none

/-- The PLB check of one address of mapped memory for a strand (08 R153). -/
def State.plbCheck (s : State) (sid a : Nat) (rights : List Right) : Verdict :=
  let dom := (s.strand sid).domain.toNat
  let got := (s.strand sid).wait.got
  match (plbFind (s.core (coreOf sid)).plb dom a).or (plbFind got.plb dom a) with
  | some p => if rights.all p.grants then .granted else .denied
  | none => if got.plbNone.contains a then .denied else .miss

/-- The use of a PLB entry makes it the most recently used (08 R154). -/
def State.usePlb (s : State) (sid a : Nat) : State :=
  s.onCore (coreOf sid) fun c =>
    match plbFind c.plb (s.strand sid).domain.toNat a with
    | some p => { c with plb := touch p c.plb }
    | none => c

/-- The PLB check of a range by an engine operand: every region that its bytes touch must grant the rights, and a region
that the PLB lacks is filled first (08 R153, R154). -/
def State.plbRange (s : State) (sid : Nat) (rights : List Right) (hi : Nat) : Nat → Nat → State × Bool
  | a, 0 => (s, decide (hi ≤ a))
  | a, fuel + 1 =>
    if hi ≤ a then (s, true) else
    let dom := (s.strand sid).domain.toNat
    let next (s : State) (p : PlbEntry) : State × Bool :=
      if rights.all p.grants then s.plbRange sid rights hi (p.base + 2 ^ p.size) fuel else (s, false)
    match plbFind (s.core (coreOf sid)).plb dom a with
    | some p => next (s.usePlb sid a) p
    | none =>
      match s.plbLookup (coreOf sid) dom a with
      | none => (s, false)
      | some p => next (s.onCore (coreOf sid) fun c => { c with plb := install 64 p c.plb }) p

/-- The hash of 08 R156. -/
def mapHash (p n : Nat) : Nat := (p ^^^ (p / 2 ^ 13) ^^^ (p / 2 ^ 26)) % 2 ^ n

/-- The lowest slot of a bucket with a valid entry of a page (08 R155, R156). -/
def State.bucketFind (s : State) (bucket page : Nat) : Nat → Nat → Option (BitVec 128)
  | _, 0 => none
  | j, fuel + 1 =>
    let e := s.quad (bucket + 16 * j)
    if e.getLsbD 64 ∧ (e.extractLsb' 16 40).toNat * 2 ^ 16 = page then some e else s.bucketFind bucket page (j + 1) fuel

/-- The lookup of one table, named by its CSR (08 R155, R156). -/
def State.tableFind (s : State) (csr : Word) (key page : Nat) : Option (BitVec 128) :=
  let n := csr.toNat % 64
  if n < 4 ∨ 30 < n then none else
  let base := csr.toNat / 4096 % 2 ^ 40 * 4096
  let b := mapHash key n
  match s.bucketFind (base + 128 * b) page 0 8 with
  | some e => some e
  | none => s.bucketFind (base + 128 * ((b + 1) % 2 ^ n)) page 0 8

/-- An entry of a mapping table as the page buffer keeps it (08 R155, R157) (DEDUCED, assumption 36). -/
def pageEntry (big : Bool) (page : Nat) (e : BitVec 128) : PageEntry :=
  { page := page, big := big, frame := (e.extractLsb' 80 36).toNat * 2 ^ 16, w := e.getLsbD 65, st := e.getLsbD 67 }

/-- The lookup of an address for a core (08 R156): the 32 MB table first. A 32 MB entry with ST set counts as no valid entry
(19 R359). -/
def State.lookup (s : State) (cid a : Nat) : Option PageEntry :=
  let p32 := a / 2 ^ 25 * 2 ^ 25
  let p64 := a / 2 ^ 16 * 2 ^ 16
  match s.tableFind (s.core cid).mapt32 (a / 2 ^ 25) p32 with
  | some e => if e.getLsbD 67 then none else some (pageEntry true p32 e)
  | none => (s.tableFind (s.core cid).mapt64 (a / 2 ^ 16) p64).map (pageEntry false p64)

/-- The page buffer's entry for an address. -/
def pageFind (l : List PageEntry) (a : Nat) : Option PageEntry :=
  l.find? fun e => e.page == (if e.big then a / 2 ^ 25 * 2 ^ 25 else a / 2 ^ 16 * 2 ^ 16)

/-- A translation: a location with its entry, a failure code (08 R158), or no entry at hand. -/
inductive Trans where
  | ok (loc : Nat) (e : PageEntry)
  | failed (code : Nat)
  | miss
  deriving DecidableEq, Repr

/-- An address under an entry (01 R13, 08 R158). -/
def State.under (s : State) (e : PageEntry) (a : Nat) : Trans :=
  match s.phys (e.frame + (if e.big then a % 2 ^ 25 else a % 2 ^ 16)) with
  | .here pa => .ok pa e
  | .peer pa => .ok pa e
  | .nothing => .failed 3

/-- The L1 line that holds the sector of a virtual address. -/
def l1Find (l : List L1Line) (a : Nat) : Option L1Line :=
  l.find? fun x => x.line == a / 128 && x.valid.getLsbD (a / 16 % 8)

/-- The L1 line of a virtual address, whatever sectors of it are valid. -/
def l1Line (l : List L1Line) (a : Nat) : Option L1Line := l.find? fun x => x.line == a / 128

/-- The translation of a load at issue (08 R157): the L1 line if it hits, else the page buffer, else what the lookups of the
instruction have brought. A failed lookup has code 1 (R158). -/
def State.transLoad (s : State) (sid a : Nat) : Trans :=
  let c := s.core (coreOf sid)
  let got := (s.strand sid).wait.got
  match l1Find c.l1 a with
  | some x =>
    .ok (x.frame * 128 + a % 128)
      { page := a / 65536 * 65536, big := false, frame := x.frame * 128 / 65536 * 65536, w := x.w, st := false }
  | none =>
    match (pageFind c.pages a).or (pageFind got.pages a) with
    | some e => s.under e a
    | none => if got.pageNone.contains a then .failed 1 else .miss

/-- The translation of a store in the background (08 R157, R158): the L1 line if present, else the page buffer, else a lookup;
code 2 for a page whose entry has W = 0 or is stamped (19 R360). -/
def State.transStore (s : State) (sid a : Nat) : Xl :=
  match l1Line (s.core (coreOf sid)).l1 a with
  | some x => if x.w then .ok (x.frame * 128 + a % 128) else .failed 2
  | none =>
    match s.transLoad sid a with
    | .ok loc e => if e.w && !e.st then .ok loc else .failed 2
    | .failed c => .failed c
    | .miss => .pending

/-! ## Events, the clock and messages -/

/-- The launch that runs as a gang. -/
def State.launch (s : State) (gang : Nat) : Option Launch :=
  s.bindery.launches.find? fun l => l.gang == gang

/-- The domain of a number. -/
def State.domain (s : State) (d : Nat) : Option Domain := (s.bindery.domains.find? fun x => x.1 == d).map Prod.snd

/-- The senders on the list of a domain (21 R392). -/
def State.sendersOf (s : State) (d : Nat) : List Nat := ((s.domain d).map Domain.senders).getD []

/-- Those to whom the events of a gang go (21 R393). -/
def State.gangSenders (s : State) (gang : Nat) : List Nat := ((s.launch gang).map fun l => s.sendersOf l.domain).getD []

/-- A record about a strand for the senders of its gang's domain (21 R393). -/
def State.event (s : State) (sid code cause : Nat) (tpc tval : Word) : State :=
  let a := (s.strand sid).arch
  let d := s.die (dieOf sid)
  let gang := a.gang.toNat / 256 % 65536
  s.onBindery fun x => { x with sent := x.sent ++
    [.event (s.gangSenders gang) code gang (a.gang.toNat % 256) cause (BitVec.ofNat 64 sid) tpc tval d.earliest d.latest 0] }

/-- A record about a gang and group for the senders of its domain (21 R393). -/
def State.eventOf (s : State) (sid gang group code cause : Nat) (tval : Word) : State :=
  let d := s.die (dieOf sid)
  s.onBindery fun x => { x with sent := x.sent ++
    [.event (s.gangSenders gang) code gang group cause (BitVec.ofNat 64 sid) 0 tval d.earliest d.latest 0] }

/-- The completion action of a strand's engine command sent from a core; `near` is the smallest scope that the command meets. -/
def State.sendAction (s : State) (src sid near : Nat) (k : MsgKind) : State :=
  { s with msgs := s.msgs ++ [{ id := s.serial, src := src, eng := some (sid, near), kind := k }], serial := s.serial + 1 }

/-- A message sent from a core. -/
def State.send (s : State) (src : Nat) (k : MsgKind) : State :=
  { s with msgs := s.msgs ++ [{ id := s.serial, src := src, eng := none, kind := k }], serial := s.serial + 1 }

/-- What an invalidation waits for is still there (08 R165, R167). -/
def State.stillOpen (s : State) : OpenRef → Bool
  | .chunk sid id => (s.strand sid).chunks.any (·.id == id)
  | .remote id => s.remotes.any fun r => r.id == id && !r.performed && r.failed.isNone
  | .msg id => s.msgs.any (·.id == id)
  | .entry cid id => (s.core cid).mq.any (·.id == id)

/-- The message of a number. -/
def State.msg (s : State) (id : Nat) : Option Msg := s.msgs.find? (·.id == id)

/-- The messages held for cores that a pre-empted gang has left (14 R265). -/
def State.heldMsgs (s : State) : List Msg := s.bindery.launches.flatMap fun l => l.saved.flatMap Saved.held

/-- The state without a message. -/
def State.dropMsg (s : State) (id : Nat) : State := { s with msgs := s.msgs.filter (·.id != id) }

/-- The member cores of a gang, in rising order; a pair is its even core (07 R148). -/
def State.members (s : State) (gang : Nat) : List Nat :=
  (s.cores.filter fun c => c.2.gang == some gang && (c.1 % 2 == 0 || !(mapGet Core.reset (c.1 - 1) s.cores).paired)).map
    (·.1)

/-- The gang number of the running firing (14 R269). -/
def Arch.gangNo (a : Arch) : Nat := a.gang.toNat / 256 % 65536
/-- The group of the running firing (14 R269). -/
def Arch.group (a : Arch) : Nat := a.gang.toNat % 256

/-! ## Chunks (01 R16, 06 R103, 17 R333 to R339) -/

/-- Whether some register result of the strand is outstanding (05 R83); an access whose result is discarded holds none. -/
def Strand.busy (t : Strand) : Bool := t.out.any fun o => o.dsts != []

/-- A register of the S bank when an S-mode instruction names it (07 R123). -/
def RegName.banked : RegName → Bool
  | .g n => decide (60 ≤ n.toNat)
  | .v _ => false

/-- Whether a register, as the strand's mode names it, is outstanding. -/
def Strand.isOut (t : Strand) (r : RegName) : Bool :=
  t.out.any fun o => o.dsts.contains r && (!r.banked || o.smode == t.arch.smode)

/-- A chunk that begins with the registers as they stand. -/
def Strand.fresh (t : Strand) (born : Nat) : Chunk :=
  { id := t.nextChunk, born := born, ckpt := t.arch, count := 0, held := [], undo := [], reads := [], wlines := [],
    lineOps := [], squashes := 0, mism := 0, pinned := false, lead := false,
    redo := false }

/-- The strand with its open chunk ended and a new one begun behind it. -/
def Strand.nextOpen (t : Strand) (born : Nat) : Strand :=
  { t with chunks := t.chunks ++ [t.fresh born], nextChunk := t.nextChunk + 1 }

/-- The strand with one new chunk and no other. -/
def Strand.restart (t : Strand) (born : Nat) : Strand :=
  { t with chunks := [t.fresh born], nextChunk := t.nextChunk + 1 }

/-- A change of the last chunk of a list. -/
def onLast (f : Chunk → Chunk) : List Chunk → List Chunk
  | [] => []
  | [c] => [f c]
  | c :: cs => c :: onLast f cs

/-- The strand with its open chunk changed. -/
def Strand.onOpen (t : Strand) (f : Chunk → Chunk) : Strand := { t with chunks := onLast f t.chunks }

/-- The open chunk. -/
def Strand.opened (t : Strand) : Option Chunk := t.chunks.getLast?

/-- The number of the open chunk. -/
def Strand.openId (t : Strand) : Nat :=
  match t.opened with
  | some c => c.id
  | none => t.nextChunk

/-- The strand of a die that runs a pinned chunk (17 R337). -/
def State.pinned (s : State) (d : Nat) : Option Nat :=
  (s.strands.find? fun x => dieOf x.1 == d && x.2.chunks.any (·.pinned)).map (·.1)

/-- A place of a die that would squash a pinned chunk of another strand waits (17 R337). -/
def State.placeBlocked (s : State) (d : Nat) (lines : List Nat) (self : Option Nat) : Bool :=
  match s.pinned d with
  | none => false
  | some sid => some sid != self &&
      (s.strand sid).chunks.any fun c => c.pinned && lines.any c.reads.contains

/-- A result of a squashed chunk: it arrives and is discarded (05 R85); one that waits at another core's port for an uncommitted
chunk is released (17 R339). -/
def Out.kill (o : Out) : Out :=
  { o with
    dead := true
    src := match o.src with
      | .load l => if l.need.any (·.port == .sibling) then .ready [] Flags.none else o.src
      | x => x }

/-- A squash of chunk `k` of a strand and of every later one (17 R337): the own scratchpad, the registers, the live frame,
FFLAGS and SRSEED are those of the chunk's start; the strand waits for what is outstanding, and the results of the squashed chunks
are discarded as they arrive (05 R85); the events of 11 R215 that are not restored stay (DEDUCED, assumption 56). -/
def State.squash (s : State) (sid k : Nat) (conflict mism : Bool) : State :=
  let t := s.strand sid
  match t.chunks[k]? with
  | none => s
  | some c =>
    let dead := t.chunks.drop k
    let s := forAll (dead.reverse.flatMap (·.undo))
      (fun s u => s.writeSector u.loc u.data (BitVec.allOnes 128) u.tag) s
    let out := t.out.map fun o => if o.chunk < c.id then o else o.kill
    let arch := { c.ckpt with evcnt := keepEvents t.arch.evcnt c.ckpt.evcnt }
    let arch := if conflict then arch.count 11 dead.length else arch
    let again : Chunk :=
      { id := t.nextChunk, born := if c.lead then c.born else s.ticks, ckpt := arch, count := 0, held := [], undo := [], reads := [], wlines := [],
        lineOps := [], squashes := if conflict then c.squashes + 1 else c.squashes, mism := if mism then c.mism + 1 else c.mism,
        pinned := c.pinned && mism, lead := c.lead || c.redo, redo := false }
    s.setStrand sid
      { t with arch := arch, out := out, chunks := t.chunks.take k ++ [again], nextChunk := t.nextChunk + 1,
               wait := if out.any (fun o => o.dsts != []) then .drain else .none, trap := none, halted := false }

/-- The first chunk of a list whose read signature holds one of the lines. -/
def readerIndex (lines : List Nat) : Nat → List Chunk → Option Nat
  | _, [] => none
  | k, c :: cs => if !c.pinned && lines.any c.reads.contains then some k else readerIndex lines (k + 1) cs

/-- A place of a die that writes lines squashes the chunks of the die that may have read them (17 R337)
(DESIGN CHOICE, assumption 30). -/
def State.squashReaders (s : State) (d : Nat) (lines : List Nat) (self : Option Nat) : State :=
  forAll (s.strands.map (·.1)) (fun s sid =>
    if dieOf sid = d ∧ some sid ≠ self then
      match readerIndex lines 0 (s.strand sid).chunks with
      | some k => s.squash sid k true false
      | none => s
    else s) s

/-- Whether an uncommitted chunk of a strand other than `self` has written a sector of a scratchpad in place (06 R113). -/
def State.padWriter (s : State) (self : Option Nat) (loc : Nat) : Option Nat :=
  if loc < padOrigin then none else
  (strandsOf (padCore loc)).find? fun sid => some sid != self &&
    (s.strand sid).chunks.any fun c => c.undo.any fun u => u.loc / 16 == loc / 16

/-- The lines that a run of bytes touches. -/
def linesOf (loc n : Nat) : List Nat := (List.range ((loc % 128 + n + 127) / 128)).map fun k => loc / 128 + k

/-- The readers of some lines of a location's home die are squashed (17 R337); a home of another package has none here. -/
def State.squashHome (s : State) (loc : Nat) (lines : List Nat) (self : Option Nat) : State :=
  match homeDie loc with
  | some d => s.squashReaders d lines self
  | none => s

/-- A write that takes a place of its own in the die order of its home (17 R334): bytes, tags cleared, readers squashed. -/
def State.placeStore (s : State) (loc : Nat) (bs : List Byte) (self : Option Nat) : State :=
  (s.store (s.real loc) bs).squashHome (s.real loc) (linesOf (s.real loc) bs.length) self

/-- The bytes of a sector of which some bit is written, as a mask of 16 bits. -/
def byteMask (bits : BitVec 128) : BitVec 16 :=
  BitVec.ofBoolListLE ((List.range 16).map fun n => byteOf bits n != 0) |>.setWidth 16

/-- The address of the first byte that a held store writes. -/
def Piece.first (p : Piece) : Word :=
  p.addr + BitVec.ofNat 64 (((List.range 16).find? fun n => byteOf p.bits n != 0).getD 0)

/-- The fault record of a discarded store (08 R161) (DEDUCED, assumption 40). -/
def sfRecord (sid : Nat) (gang : Word) (code : Nat) (p : Piece) : SfRec :=
  { addr := p.addr, data := p.data &&& p.bits,
    info := BitVec.ofNat 64 ((gang.toNat / 256 % 65536) * 2 ^ 40 + (gang.toNat % 256) * 2 ^ 32 + code * 2 ^ 24 +
      sid % 4 * 2 ^ 20 + (if p.tag then 2 ^ 16 else 0) + (byteMask p.bits).toNat) }

/-- A discarded store: its record is appended to the core's SFRQ, or OVF is set when the queue is full (08 R161). -/
def State.discard (s : State) (sid code : Nat) (p : Piece) : State :=
  let c := s.core (coreOf sid)
  if c.sfrq.length < 16 then
    s.setCore (coreOf sid) { c with sfrq := c.sfrq ++ [sfRecord sid (s.arch sid).gang code p] }
  else s.onStrand sid fun t => { t with ovf := true }

/-- The L1 sets of a split (06 R102). -/
def l1Sets (msplit : Nat) : Nat := (6 - msplit) * 64

/-- The L1 after a committed sector passes into it (06 R103): into its line, into a new line when the set has room, and
otherwise to the home slice. -/
def l1Write (sets va frame : Nat) (l : List L1Line) : List L1Line :=
  let bit : BitVec 8 := 1 <<< (va / 16 % 8)
  if sets = 0 then l
  else match l.find? fun x => x.line == va / 128 with
    | some x => touch { x with valid := x.valid ||| bit, dirty := x.dirty ||| bit } (l.filter fun y => y.line != x.line)
    | none =>
      if (l.filter fun x => x.line % sets == va / 128 % sets).length < 8 then
        { line := va / 128, frame := frame / 128, w := true, valid := bit, dirty := bit } :: l
      else l

/-- The dirty sectors of a line go back to the home slice; the line stays, or leaves the L1 (06 R119). The bytes are those
the die already holds (06 R104). -/
def cleanLine (drop : Bool) (line : Nat) (l : List L1Line) : List L1Line :=
  if drop then l.filter (·.line != line) else l.map fun x => if x.line = line then { x with dirty := 0 } else x

/-- A new access of the remote-access unit of a strand's core (16 R317) (DEDUCED, assumption 29). -/
def State.addRemote (s : State) (sid : Nat) (k : RKind) : State :=
  { s with
    remotes := s.remotes ++ [{ id := s.serial, cid := coreOf sid, sid := sid, gang := (s.arch sid).gangNo,
                               group := (s.arch sid).group, live := true, kind := k, performed := false, failed := none }],
    serial := s.serial + 1 }

/-- A machine check of a strand with unit 6 for a location (07 R147). -/
def State.memoryCheck (s : State) (sid loc : Nat) : State :=
  if (s.strand sid).firing.isSome then
    s.onStrand sid fun t => { t with mchk := some (t.mchk.getD (BitVec.ofNat 64 (loc / 16 * 256 + 6))) }
  else s

/-- One held store at its chunk's commit (08 R160, 17 R335, R338): applied, sent to another die, or discarded; one that cannot
reach its target is a machine check (16 R327). The second component is the address of the first discarded one so far. -/
def State.commitPiece (sid : Nat) (x : State × Option Word) (p : Piece) : State × Option Word :=
  match p.xl with
  | .pending | .encoding _ _ _ _ _ _ _ _ _ => x
  | .failed code => (x.1.discard sid code p, some (x.2.getD p.first))
  | .ok loc =>
    if !locOnDie (dieOf sid) loc then (x.1.addRemote sid (.store loc p.data p.bits p.tag), x.2)
    else if !x.1.reachable (dieOf sid) loc then (x.1.memoryCheck sid loc, x.2)
    else
      let s := x.1.writeSector loc p.data p.bits p.tag
      (if padOrigin ≤ loc then s
       else s.onCore (coreOf sid) fun c => { c with l1 := l1Write (l1Sets c.msplit.toNat) p.addr.toNat loc c.l1 }, x.2)

/-- The on-die lines that a chunk's commit writes. -/
def Chunk.writes (c : Chunk) (d : Nat) : List Nat :=
  (c.held.filterMap fun p =>
    match p.xl with
    | .ok loc => if locOnDie d loc then some (lineOf loc) else none
    | _ => none) ++ c.undo.map fun u => lineOf u.loc

/-- A list without the first `n` elements that satisfy a test. -/
def dropFirst {α : Type} (f : α → Bool) : Nat → List α → List α
  | _, [] => []
  | 0, l => l
  | n + 1, x :: l => if f x then dropFirst f n l else x :: dropFirst f (n + 1) l

/-- The strand of a store-fault record (08 R161). -/
def SfRec.strand (r : SfRec) : Nat := (r.info.extractLsb' 20 2).toNat

/-- Whether a load of the chunk has not been performed and returned (17 R336). -/
def Strand.loading (t : Strand) (chunk : Nat) : Bool :=
  t.out.any fun o => o.chunk == chunk && !o.dead &&
    match o.src with
    | .load _ => true
    | .stamped _ => true
    | _ => false

/-- The store has a translation or a failure, and is encoded (08 R160, 06 R113). -/
def Xl.settled : Xl → Bool
  | .ok _ | .failed _ => true
  | _ => false

/-- Whether the Spine accepts the commit of a strand's oldest chunk (17 R336, R337, 09 R169): its loads have returned, its
stores are translated, the places after its predecessors are taken, no other chunk of the die is pinned, and no scratchpad
sector it writes is held by another uncommitted chunk (DEDUCED, assumption 37). -/
def State.canCommit (s : State) (sid : Nat) (c : Chunk) : Bool :=
  let t := s.strand sid
  !t.loading c.id && c.held.all (fun p => p.xl.settled) && t.places.isEmpty &&
  (match s.pinned (dieOf sid) with
   | some x => x == sid
   | none => true) &&
  c.held.all fun p =>
    match p.xl with
    | .ok loc => (s.padWriter (some sid) loc).isNone
    | _ => true

/-- The commit of a strand's oldest chunk through the Spine (17 R335 to R337, 08 R160 to R162), as one place: its writes
are applied, the chunks that read them are squashed, its sfq.pop removals become permanent, its counters count. The
second component is the first discarded store, if any. The records of its discarded stores are appended, or OVF set, before the
records that it popped leave the queue (DESIGN CHOICE, assumption 79). -/
def State.commitOldest (s : State) (sid : Nat) : State × Option Word :=
  let t := s.strand sid
  match t.chunks with
  | [] => (s, none)
  | c :: rest =>
    let clears := match rest with
      | d :: _ => d.ckpt.ovfClear
      | [] => t.arch.ovfClear
    let s := if clears then s.onStrand sid fun t => { t with ovf := false } else s
    let x := c.held.foldl (State.commitPiece sid) (s, none)
    let clean (l : List L1Line) : List L1Line := c.lineOps.foldl (fun l o => cleanLine o.2 o.1 l) l
    let s := (if c.lineOps = [] then x.1 else x.1.onCore (coreOf sid) fun k => { k with l1 := clean k.l1 }).squashReaders (dieOf sid) (c.writes (dieOf sid)) (some sid)
    let tally (a : Arch) : Arch :=
      let a := (a.count 8 c.count).count 10 1
      if c.pinned then a.count 12 1 else a
    let t := s.strand sid
    let after := match rest with
      | d :: _ => d.ckpt.popped
      | [] => t.arch.popped
    let n := after - c.ckpt.popped
    let fix (a : Arch) : Arch :=
      let a := tally a
      { a with popped := a.popped - n, ovfClear := a.ovfClear && !clears }
    let s := s.onCore (coreOf sid) fun k => { k with sfrq := dropFirst (fun r => r.strand == sid % 4) n k.sfrq }
    (s.setStrand sid { t with arch := fix t.arch, chunks := rest.map fun d => { d with ckpt := fix d.ckpt } }, x.2)

/-- What ending a chunk comes to. -/
inductive Ended where
  /-- Every chunk of the strand has committed. -/
  | ready (s : State)
  /-- The Spine does not accept a chunk yet. -/
  | hold (s : State)
  /-- A chunk has committed and a store of it was discarded, first at this address; later chunks are squashed. -/
  | stflt (s : State) (a : Word)

/-- The strand stands where its next chunk begins: what later chunks did is undone (08 R160, 07 R127). -/
def State.dropLater (s : State) (sid : Nat) : State :=
  if (s.strand sid).chunks = [] then s else s.squash sid 0 false false

/-- The commit of every chunk of a strand, oldest first. -/
def State.commitAll (s : State) (sid : Nat) : Nat → Ended
  | 0 => .ready s
  | fuel + 1 =>
    match (s.strand sid).chunks with
    | [] => .ready s
    | c :: _ =>
      if s.canCommit sid c then
        match s.commitOldest sid with
        | (s, none) => s.commitAll sid fuel
        | (s, some a) => .stflt (s.dropLater sid) a
      else .hold s

/-! ## Taking a trap (07 R127 to R132) -/

/-- The code of a cause (03 R61). -/
def Cause.code : Cause → Nat
  | .ill => 0x01 | .priv => 0x02 | .pend => 0x03 | .captag => 0x04 | .capbnd => 0x05 | .capperm => 0x06
  | .capseal => 0x07 | .align => 0x08 | .range => 0x09 | .plb => 0x0A | .pgflt => 0x0B | .stflt => 0x0C
  | .tryempty => 0x0D | .trailfull => 0x0E | .clkwide => 0x0F | .stamplow => 0x10 | .stale => 0x11 | .sbbroken => 0x12
  | .ganglost => 0x13 | .preempt => 0x14 | .mchk => 0x15 | .engfault => 0x16 | .swtrap => 0x17 | .bndom => 0x18
  | .accbusy => 0x19

/-- The service causes, which go to the S stub (07 R128). -/
def Cause.service : Cause → Bool
  | .priv | .pgflt | .preempt | .mchk => true
  | _ => false

/-- The imprecise causes (03 R61). -/
def Cause.imprecise : Cause → Bool
  | .stflt | .mchk | .engfault => true
  | _ => false

/-- The asynchronous causes (03 R61). -/
def Cause.async : Cause → Bool
  | .ganglost | .preempt => true
  | _ => false

/-- The repeat context of a live frame (05 R97). -/
def frameWord (pcc : Reg) : Option Frame → Word
  | none => 0
  | some f =>
    BitVec.ofNat 64 (2 ^ 63 + (f.len - 1) * 2 ^ 59 + f.index * 2 ^ 55 + f.dstep * 2 ^ 53 + f.astep * 2 ^ 51 +
      f.bstep * 2 ^ 49 + f.left * 2 ^ 34 + f.k * 2 ^ 20 + (((f.base.toNat : Int) - pcc.base) / 4 % 2 ^ 20).toNat)

/-- The trap set that an entry writes (07 R129): the saved PCC with its cursor at the PC, the cause, the value, the state
of the interrupted code and the repeat context. -/
def Arch.trapSet (a : Arch) (cause : Cause) (val : Word) (toS : Bool) : TrapSet :=
  { pcc := a.pcc, cause := BitVec.ofNat 64 cause.code, val := val,
    state := BitVec.ofNat 64 ((if cause.async then 8 else 0) + (if cause.imprecise then 4 else 0) +
      (if toS && a.hf then 2 else 0) + (if toS && a.smode then 1 else 0)),
    repctx := frameWord a.pcc a.frame }

/-- Whether a cause is delivered at level S (07 R128). -/
def Arch.levelS (a : Arch) (cause : Cause) : Bool := cause.service || a.smode || a.hf

/-- Entry at the gang handler (07 R129). -/
def Arch.enterU (a : Arch) (cause : Cause) (val : Word) (code : Reg) : Arch :=
  { a with uset := a.trapSet cause val false, hf := true, pcc := code.jumpTo a.tvec, frame := none }

/-- Entry at the S stub (07 R129). -/
def Arch.enterS (a : Arch) (cause : Cause) (val : Word) (code : Reg) : Arch :=
  { a with sset := a.trapSet cause val true, smode := true, hf := false, pcc := code.jumpTo a.svec, frame := none }

/-- Sends the quit of a group to every member core of a gang (07 R140); a core that is away has the group marked for its
resume (14 R265). -/
def State.sendQuit (s : State) (src gang group : Nat) : State :=
  let s := s.onBindery fun b => { b with launches := b.launches.map fun l =>
    if l.gang = gang then { l with saved := l.saved.map fun x => { x with quits := insertNat group x.quits } } else l }
  forAll (s.members gang) (fun s cid => s.send src (.quit cid gang group)) s

/-- The strand of a firing that ends is free (14 R270): the claim it holds is released and its choice points are discarded. -/
def State.freeStrand (s : State) (sid : Nat) : State :=
  let s := s.onCore (coreOf sid) fun c => if c.claim = some sid then { c with claim := none } else c
  let gang := (s.arch sid).gangNo
  let s := if (s.quire (quireOf sid)).cmds = [] then s else
    s.onQuire (quireOf sid) fun q =>
      { q with cmds := q.cmds.map fun c => if c.sid = sid ∧ c.gang = gang then { c with live := false } else c }
  let s := if s.remotes = [] then s else
    { s with remotes := s.remotes.map fun r => if r.sid = sid ∧ r.gang = gang then { r with live := false } else r }
  s.onStrand sid fun t =>
    { t with firing := none, asleep := false, wait := .none, trap := none, halted := false, chunks := [],
             mchk := none, ganglost := none, preempt := false, engfault := [],
             arch := { t.arch with cpdepth := 0, trail := t.arch.trail &&& 0xFFFF8000FFFFFFFF, frame := none,
                                   smode := false, hf := false } }

/-- Strands whose park ends in SBBROKEN (10 R189, 15 R297): `hit` says which, and with what value; each traps at its wait
instruction. -/
def State.trapParked (s : State) (l : List Nat) (hit : Wait → Option Word) : State :=
  forAll l (fun s sid => s.onStrand sid fun t =>
    match hit t.wait with
    | some v => { t with trap := some { cause := .sbbroken, val := v }, wait := .none }
    | none => t) s

/-- Breaks a stage barrier at a location: BROKEN is set, and every strand parked on it traps (15 R297). -/
def State.breakBarrier (s : State) (loc : Nat) : State :=
  let x := readByte s.mem (loc + 10)
  (s.placeStore (loc + 10) [x ||| 1] none).trapParked ((coresOf (quireOfCore (padCore loc))).flatMap strandsOf) fun w =>
    match w with
    | .stage l _ a => if l = loc then some a else none
    | _ => none

/-- Breaks every registered stage barrier of a gang in the quires of its members (07 R141, R146). -/
def State.breakGangBarriers (s : State) (gang : Nat) : State :=
  forAll (s.quires.flatMap fun q => q.2.dir.filter (·.gang == gang)) (fun s e => s.breakBarrier (padLoc e.cid e.off)) s

/-- A context of a die. -/
def Die.ctx (d : Die) (n : Nat) : Ctx := mapGet Ctx.off n d.ctxs

/-- A context changed. -/
def Die.onCtx (d : Die) (n : Nat) (f : Ctx → Ctx) : Die := { d with ctxs := mapSet n (f (d.ctx n)) d.ctxs }

/-- The items held at the crossbar enter, on the state that now holds (10 R195). -/
def Die.releaseItems (d : Die) (ctx : Nat) : Die :=
  let d := d.onCtx ctx fun c => { c with stopped := false }
  { d with items := d.items.map fun i =>
      if i.ctx = ctx ∧ i.layer = 17 then { i with layer := 0, pos := quireOf i.sid % 32 % 2 ^ (d.ctx ctx).lw } else i }

/-- A context is quiescent: no item of it is in the network, and no release of it is on its way (10 R195). -/
def State.quiet (s : State) (die ctx : Nat) : Bool :=
  !((s.die die).items.any fun i => i.ctx == ctx && i.layer != 17) &&
  !s.msgs.any fun m => match m.kind with
    | .release d c _ _ => d == die && c == ctx
    | _ => false

/-- Breaks a Stitch barrier context that is quiescent: BROKEN is set, every strand parked on it traps, and the items held go on
(10 R189, R195). -/
def State.breakCtx (s : State) (die ctx : Nat) : State :=
  (s.onDie die fun d => (d.onCtx ctx fun c => { c with broken := true, breaking := false }).releaseItems ctx).trapParked
    ((s.strands.map (·.1)).filter fun sid => dieOf sid == die) fun w =>
      match w with
      | .phase c _ => if c = ctx then some (BitVec.ofNat 64 ctx) else none
      | _ => none

/-- The Bindery breaks a Stitch barrier context (10 R189): new items are stopped until it is quiescent. -/
def State.clearCtx (s : State) (die ctx : Nat) : State :=
  if s.quiet die ctx then s.breakCtx die ctx
  else s.onDie die fun d => d.onCtx ctx fun c => { c with stopped := true, breaking := true }

/-- Breaks every Stitch barrier context of a gang (10 R189). -/
def State.breakGangContexts (s : State) (gang : Nat) : State :=
  forAll (s.dies.flatMap fun d => (d.2.ctxs.filter fun c => c.2.gang == gang && c.2.mode == 2).map fun c => (d.1, c.1))
    (fun s x => s.clearCtx x.1 x.2) s

/-- The die queues of a gang are emptied (07 R146): the claims and spills on their way find the gang gone. -/
def State.emptyQueues (s : State) (gang : Nat) : State :=
  let s := forAll (s.members gang) (fun s cid => s.onCore cid fun c => { c with dqstate := 0, claiming := false, claimDq := none }) s
  { s with dies := s.dies.map fun d => (d.1, { d.2 with queues := d.2.queues.filter (·.gang != gang) }) }

/-- The registered stage barriers of the cores that a gang has left are broken in their images (07 R141, R146). -/
def State.breakImages (s : State) (gang : Nat) : State :=
  forAll (((s.launch gang).map Launch.saved).getD []) (fun s x => forAll x.dir (fun s d =>
    s.placeStore (x.image + d.off + 10) [readByte s.mem (x.image + d.off + 10) ||| 1] none) s) s

/-- A pre-empted core of a lost gang: its deque is emptied, and its firings take GANGLOST after the resume. -/
def Saved.lose (val : Word) (x : Saved) : Saved :=
  { x with
    core := { x.core with dqstate := 0, claiming := false, claimDq := none }
    strands := x.strands.map fun t => (t.1, if t.2.firing.isSome then { t.2 with ganglost := some val } else t.2) }

/-- The loss of a member of a gang (07 R146): barriers are broken, deques and die queues emptied, and every other strand
of the gang that holds a firing takes GANGLOST once, with the value given; a further loss in the same gang raises it again
(DESIGN CHOICE, assumption 80). -/
def State.gangLoss (s : State) (gang : Nat) (val : Word) (except_ : List Nat) : State :=
  let s := ((s.breakGangBarriers gang).breakImages gang).breakGangContexts gang
  let s := s.emptyQueues gang
  let s := s.onBindery fun b =>
    { b with launches := b.launches.map fun l =>
        if l.gang = gang then { l with lost := true, saved := l.saved.map (Saved.lose val) } else l }
  forAll ((s.members gang).flatMap strandsOf) (fun s sid =>
    s.onStrand sid fun t =>
      if t.firing.isSome ∧ !except_.contains sid then { t with ganglost := some val } else t) s

/-- The outstanding results of a strand, dropped with the entries of the vector dispatch queue that bring them. -/
def State.dropResults (s : State) (sid : Nat) : State :=
  (s.onCore (coreOf sid) fun c => { c with vq := c.vq.filter (·.1 != sid) }).onStrand sid fun t => { t with out := [] }

/-- A firing that ends at once, its chunks squashed (07 R141, R147). -/
def State.killFiring (s : State) (sid : Nat) : State :=
  if (s.strand sid).firing.isSome then
    ((if (s.strand sid).chunks = [] then s else s.squash sid 0 false false).dropResults sid).freeStrand sid
  else s

/-- A machine check that ends every firing of a core (07 R147): the strands named that hold a firing take MCHK into their S
set, the firings end, and the gang of the core is lost (DEDUCED, assumption 51). -/
def State.machineCheck (s : State) (cid : Nat) (takers : List Nat) (val : Word) : State :=
  let s := forAll takers (fun s sid =>
    if (s.strand sid).firing.isSome then s.onArch sid fun a => a.enterS .mchk val (s.core cid).stubCode else s) s
  let lost := (s.core cid).gang
  let s := forAll (strandsOf cid) (fun s sid =>
    let set := (s.arch sid).sset
    (s.killFiring sid).onArch sid fun a => { a with sset := set }) s
  match lost with
  | some g => s.gangLoss g ((s.core cid).coord &&& 0xFFFF) (strandsOf cid)
  | none => s

/-- An uncorrectable error of a location is delivered to the strand whose access met it (07 R147, 16 R327): it takes MCHK with
unit 6 at its next chunk boundary, and the core of a strand that has no firing reports it directly (R127). -/
def State.lostAccess (s : State) (sid loc : Nat) : State :=
  if (s.strand sid).firing.isSome then s.memoryCheck sid loc
  else s.machineCheck (coreOf sid) [] (BitVec.ofNat 64 (loc / 16 * 256 + 6))

/-- The firing of a strand ends (14 R270). An MCHK that it has not taken is reported by its core (07 R127); its other pending
causes are dropped. -/
def State.endFiring (s : State) (sid : Nat) : State :=
  match (s.strand sid).mchk with
  | some v => (s.freeStrand sid).machineCheck (coreOf sid) [] v
  | none => s.freeStrand sid

/-- Taking a trap, the one operation of 07 R129, for a strand with no result outstanding and every chunk committed. A cause
that no handler takes goes to the S stub, which reports it, and the Bindery acts for the group as gquit does (R132). MCHK
ends every firing of the core (R147), and so does a cause raised in S mode on a compute core, with unit 8 (R132). A strand
whose core has no stub code placed waits for what the stub does (DESIGN CHOICE, assumption 20). -/
def State.enterTrap (s : State) (sid : Nat) (cause : Cause) (val : Word) : State :=
  let a := s.arch sid
  let c := s.core (coreOf sid)
  if cause = .mchk then s.machineCheck (coreOf sid) [sid] val
  else if a.smode && !cause.async && dieOf sid < 8 then
    s.machineCheck (coreOf sid) (strandsOf (coreOf sid)) 8
  else
    let unhandled := !a.levelS cause && a.tvec == 0
    let toS := a.levelS cause || unhandled
    let ends := unhandled || cause == Cause.priv || (a.hf && cause != Cause.pgflt && !cause.service)
    let a' := if toS then a.enterS cause val c.stubCode else a.enterU cause val c.gangCode
    let t := { s.strand sid with arch := a', trap := none, wait := if toS && !c.stubCode.tag then .answer else .none }
    let s := s.setStrand sid (t.restart s.ticks)
    if toS && ends then
      (s.event sid 1 cause.code a.pcc.low val).sendQuit (coreOf sid) a.gangNo a.group
    else s

/-- The entry of the cause that waits, as far as it can go now (07 R129, R130): every result must be settled and the prefix
of the chunk committed; a store the commit discards is taken in its place. -/
def State.tryTrap (s : State) (sid : Nat) : State :=
  let t := s.strand sid
  match t.trap with
  | none => s
  | some r =>
    if t.busy then s else
    match s.commitAll sid (t.chunks.length + 1) with
    | .ready s => s.enterTrap sid r.cause r.val
    | .stflt s a => s.enterTrap sid .stflt a
    | .hold s => s

/-- A cause is raised on a strand (02 R46 Trap): it is entered at once if it can be, and waits otherwise. -/
def State.raise (s : State) (sid : Nat) (cause : Cause) (val : Word) : State :=
  (s.onStrand sid fun t => { t with trap := some { cause := cause, val := val }, wait := .none }).tryTrap sid

/-- A wait instruction or idle, which an asynchronous cause abandons (07 R127). -/
def Wait.abandoned : Wait → Bool
  | .instr | .idle _ | .full | .clock _ | .copySlot _ | .answer | .array _ | .phase _ _ | .stage _ _ _ | .passed => true
  | _ => false

/-- The pending cause that a strand takes next at a chunk boundary (07 R131). While HF is 1 GANGLOST and ENGFAULT are
held, and a strand in S mode takes only MCHK (DEDUCED, assumption 33). -/
def Strand.nextCause (t : Strand) : Option (Cause × Word) :=
  let u := !t.arch.smode && !t.arch.hf
  match t.mchk with
  | some v => some (.mchk, v)
  | none =>
    match t.ganglost.filter fun _ => u with
    | some v => some (.ganglost, v)
    | none =>
      if t.preempt && !t.arch.smode then some (.preempt, 0)
      else match t.engfault.head?.filter fun _ => u with
        | some v => some (.engfault, v)
        | none => none

/-- The strand with a pending cause removed. -/
def Strand.dropCause (t : Strand) : Cause → Strand
  | .mchk => { t with mchk := none }
  | .ganglost => { t with ganglost := none }
  | .preempt => { t with preempt := false }
  | .engfault => { t with engfault := t.engfault.tail }
  | _ => t

/-- A strand stands at a chunk boundary (07 R127): its open chunk has no instruction yet or is full (01 R16). -/
def State.atBoundary (s : State) (sid : Nat) : Bool :=
  match (s.strand sid).opened with
  | none => true
  | some c => c.count == 0 || decide ((s.core (coreOf sid)).chunklim.toNat ≤ c.count)

/-- A strand has a pending cause to take before it issues again (07 R127, R131): at a chunk boundary, and an asynchronous
one at once in a wait instruction or in idle. -/
def State.causeDue (s : State) (sid : Nat) : Bool :=
  let t := s.strand sid
  t.firing.isSome &&
    match t.nextCause with
    | none => false
    | some (c, _) => s.atBoundary sid || (c.async && t.wait.abandoned)

/-- The next pending cause is taken at the boundary, if the chunks have committed (07 R127, R131). -/
def State.takeCause (s : State) (sid : Nat) : State :=
  let t := s.strand sid
  if s.causeDue sid && !t.busy then
    match t.nextCause with
    | none => s
    | some (c, v) =>
      match s.commitAll sid (t.chunks.length + 1) with
      | .ready s => (s.onStrand sid (·.dropCause c)).enterTrap sid c v
      | .stflt s a => s.enterTrap sid .stflt a
      | .hold s => s
  else s

/-! ## Issue (03 R51, 05 R83 to R85) -/

/-- How an instruction's own part ends. -/
inductive Act where
  /-- It is complete and the PC moves past it. -/
  | done (s : State)
  /-- It is complete and has set the PC. -/
  | jump (s : State)
  /-- It waits at the instruction, and issues again. -/
  | hold (s : State)
  /-- It raises a precise cause. -/
  | trap (s : State) (cause : Cause) (val : Word)
  /-- A trap has been taken, or the firing has ended. -/
  | gone (s : State)

/-- The registers after an instruction that does not jump: the next word, or the next place in the live frame (05 R96). -/
def Arch.advance (a : Arch) : Arch :=
  match a.frame with
  | none => { a with pcc := a.pcc.withCursor (a.pcc.low + 4) }
  | some f =>
    if f.index + 1 < f.len then
      { a with pcc := a.pcc.withCursor (a.pcc.low + 4), frame := some { f with index := f.index + 1 } }
    else if 1 < f.left then
      { a with pcc := a.pcc.withCursor f.base, frame := some { f with index := 0, left := f.left - 1, k := f.k + 1 } }
    else { a with pcc := a.pcc.withCursor (f.base + BitVec.ofNat 64 (4 * f.len)), frame := none }

/-- A completed instruction counts in its chunk (01 R16) (DEDUCED, assumption 61). -/
def State.counted (s : State) : State :=
  s.onStrand s.cur fun t => { (t.onOpen fun c => { c with count := c.count + 1 }) with wait := .none }

/-- The waits in which a strand is parked (05 R83, 07 R136, R140, 08 R167). -/
def Wait.parks : Wait → Bool
  | .park | .flags | .instr | .idle _ | .full | .array _ | .phase _ _ | .stage _ _ _ | .passed | .clock _ | .copySlot _ | .quit _ | .inval _ | .sent _ => true
  | _ => false

/-- The strand waits for a reason. The cycles for which it is parked count under event 9 (11 R215); their number is a
matter of timing (DESIGN CHOICE, assumption 8). -/
def State.waiting (s : State) (w : Wait) : State :=
  s.onStrand s.cur fun t =>
    { t with wait := w, arch := if w.parks then t.arch.count 9 (s.free 9).toNat else t.arch }

/-- The state that an instruction's end leaves. -/
def Act.settle : Act → State
  | .done s => (s.onArch s.cur Arch.advance).counted
  | .jump s => s.counted
  | .hold s => s
  | .trap s cause val => s.raise s.cur cause val
  | .gone s => s

/-- TVAL of PEND (05 R84): bit 6 set for a v-register, the number below. -/
def RegName.tval : RegName → Word
  | .g n => n.setWidth 64
  | .v n => n.setWidth 64 ||| 64

/-- The chunk that the next instruction joins: a strand without one begins one, and a full one ends behind it (01 R16). -/
def State.joinChunk (s : State) : State :=
  s.onStrand s.cur fun t =>
    match t.opened with
    | none => t.restart s.ticks
    | some c => if (s.core (coreOf s.cur)).chunklim.toNat ≤ c.count then t.nextOpen s.ticks else t

/-- A chunk squashed four times by conflict runs pinned (17 R337): it takes the die's commit token once the strand's earlier chunks
have committed, and its strand is not ready while another chunk holds it. -/
def State.pinDue (s : State) : Option State :=
  let t := s.strand s.cur
  match t.opened with
  | none => some s
  | some c =>
    if c.squashes < 4 ∨ c.pinned then some s
    else if (s.pinned (dieOf s.cur)).isSome || t.places != [] || decide (1 < t.chunks.length) then none
    else some (s.setStrand s.cur (t.onOpen fun c => { c with pinned := true }))

/-- The steps that every instruction shares (03 R51 steps 4 and 5, 05 R83, R84): the mode check of a privileged one, the park
marker, the PEND test on the registers it reads, in the order mask, sources, destinations; then its own part
(DEDUCED, assumption 43). -/
def issue (priv : Bool) (reads : List RegName) (s : State) (body : State → Act) :
    Host.Outcome State Fault Refusal :=
  let t := s.strand s.cur
  if priv && !t.arch.smode then .next (s.raise s.cur .priv (s.free 0))
  else if s.park && t.busy then .next (s.waiting .park)
  else match reads.find? t.isOut with
    | some r => .next (s.raise s.cur .pend r.tval)
    | none =>
      match s.joinChunk.pinDue with
      | none => .next s
      | some s => .next (body s).settle

/-- The open chunk begins with a terminator that has ended the chunk before it and now issues again. -/
def Strand.leads (t : Strand) : Bool :=
  match t.opened with
  | some c => c.lead
  | none => false

/-- EndChunk (02 R46, 03 R57) for the strand that issues: every chunk commits, and the strand begins a new one. -/
def State.endChunk (s : State) : Ended :=
  let t := s.strand s.cur
  if t.leads then .ready s else
  match s.commitAll s.cur (t.chunks.length + 1) with
  | .ready s => .ready (s.onStrand s.cur fun t => (t.restart s.ticks).onOpen fun c => { c with lead := true })
  | .hold s => .hold (s.waiting .commit)
  | .stflt s a => .stflt s a

/-- A completed terminator: its chunk has committed, it counts as committed itself, and the new chunk begins after it. -/
def State.begun (s : State) : State :=
  s.onStrand s.cur fun t =>
    let a := t.arch.count 8 1
    { (({ t with arch := a }).onOpen fun c => { c with ckpt := a, lead := false }) with wait := .none }

/-- The state that a terminator's end leaves. -/
def Act.settleT : Act → State
  | .done s => (s.onArch s.cur Arch.advance).begun
  | .jump s => s.begun
  | .hold s => s
  | .trap s cause val => s.raise s.cur cause val
  | .gone s => s

/-- The chunks of a strand whose group is quit commit; their store faults are recorded and raise nothing (07 R140). -/
def State.commitQuiet (s : State) (sid : Nat) : Nat → Option State
  | 0 => some s
  | fuel + 1 =>
    match (s.strand sid).chunks with
    | [] => some s
    | c :: _ => if s.canCommit sid c then (s.commitOldest sid).1.commitQuiet sid fuel else none

/-- Whether the group of a strand's firing is quit (07 R140). -/
def State.quitMarked (s : State) (sid : Nat) : Bool := (s.core (coreOf sid)).quit.contains (s.arch sid).group

/-- The end of a firing whose group is quit, once its chunks can commit (07 R140). -/
def State.quitEnd (s : State) (sid : Nat) : State :=
  match s.commitQuiet sid ((s.strand sid).chunks.length + 1) with
  | some s => s.endFiring sid
  | none => s

/-- What the boundary at a terminator comes to before the terminator acts (07 R127, R131, R140): the firing of a quit group ends
there, the STFLT of the commit is taken at the instruction, and so are the causes that are pending (DEDUCED, assumption 76). -/
def State.boundary (s : State) (act : State → State) : State :=
  if (s.strand s.cur).firing.isSome && s.quitMarked s.cur then s.quitEnd s.cur
  else match s.endChunk with
    | .ready s => if s.causeDue s.cur then s.takeCause s.cur else act s
    | .hold s => s
    | .stflt s a => s.raise s.cur .stflt a

/-- The steps that every chunk terminator shares: those of `issue`, then the chunk boundary (06 R120, 07 R127), then its own part.
`waits` says that it waits for every outstanding result as if it carried the marker (05 R84). -/
def terminate (priv waits : Bool) (reads : List RegName) (s : State) (body : State → Act) :
    Host.Outcome State Fault Refusal :=
  let t := s.strand s.cur
  if priv && !t.arch.smode then .next (s.raise s.cur .priv (s.free 0))
  else if (s.park || waits) && t.busy then .next (s.waiting .park)
  else match reads.find? t.isOut with
    | some r => .next (s.raise s.cur .pend r.tval)
    | none => .next (s.boundary fun s => (body s).settleT)

/-- A result left outstanding by an instruction of a chunk. -/
def State.pendIn (s : State) (chunk : Nat) (dsts : List RegName) (src : Source) : State :=
  let s' := s.onStrand s.cur fun t =>
    { t with out := t.out ++ [{ id := s.serial, chunk := chunk, smode := t.arch.smode, dead := false,
                                dsts := dsts.filter (· ≠ .g 0), src := src }] }
  { s' with serial := s.serial + 1 }

/-- A result left outstanding (02 R46 SetPending, 05 R83): writes to g0 are discarded and leave nothing pending. -/
def State.setPending (s : State) (dsts : List RegName) (src : Source) : State :=
  s.pendIn (s.strand s.cur).openId dsts src

/-- A result that a terminator leaves outstanding: no squash of the chunks after it discards it
(DEDUCED, assumption 48). -/
def State.setPendingT (s : State) (dsts : List RegName) (src : Source) : State :=
  s.pendIn ((s.strand s.cur).openId - 1) dsts src

/-- Register writes of an instruction that issued in a mode: the mode names the bank of g60 to g63 (07 R123). -/
def Arch.putAll (a : Arch) (smode : Bool) (ws : List RegWrite) : Arch :=
  { ws.foldl Arch.put { a with smode := smode } with smode := a.smode }

/-- A result that lands (05 R83, R85): the registers of the bank that its instruction named, the flags, and the starts of the
chunks begun while it was outstanding. -/
def Strand.land (t : Strand) (chunk : Nat) (smode : Bool) (ws : List RegWrite) (fl : Flags) : Strand :=
  let f (a : Arch) : Arch := (a.putAll smode ws).raise fl
  { t with arch := f t.arch, chunks := t.chunks.map fun c => if chunk < c.id then { c with ckpt := f c.ckpt } else c }

/-- The result of a number is replaced by one that is computed and settles in time (a reply has arrived). -/
def State.answer (s : State) (sid out : Nat) (ws : List RegWrite) (fl : Flags) : State :=
  s.onStrand sid fun t =>
    { t with out := t.out.map fun o => if o.id = out then { o with src := .ready ws fl } else o }

/-- The end of an idle (07 R136): the instruction is complete. -/
def State.wakeIdle (s : State) (sid : Nat) : State :=
  match (s.strand sid).wait with
  | .idle _ => { (Act.done { s with cur := sid }).settle with cur := s.cur }
  | _ => s

/-- The registers of the strand that issues. -/
def State.me (s : State) : Arch := s.arch s.cur

end Sys2Proof.Machine
end

