-- ==== Sys2Proof/Machine/Integer.lean ====
section
/-! DEFINITION. The scalar integer class, majors 0x01 to 0x09 (04 R62 to R76). -/

namespace Sys2Proof.Machine

open Sys2Proof

/-- The registers of a three-register instruction in the order of the PEND test: sources, then the destination (04 R64, 05
R84). -/
def reads3 (d a b : BitVec 6) : List RegName := [.g a, .g b, .g d]

/-- The registers of a two-register instruction in that order. -/
def reads2 (d a : BitVec 6) : List RegName := [.g a, .g d]

/-- An instruction whose g-register result is fixed (03 R56): it is settled before the next instruction. -/
def fixedReg (reads : List RegName) (d : BitVec 6) (f : Arch → Reg) (s : State) : Host.Outcome State Fault Refusal :=
  issue false reads s fun s => .done (s.onArch s.cur fun a => a.writeG d (f a))

/-- A fixed result in data form of two source words (04 R65, R72). -/
def alu2 (d a b : BitVec 6) (f : Word → Word → Word) (s : State) : Host.Outcome State Fault Refusal :=
  fixedReg (reads3 d a b) d (fun x => .data (f (x.word a) (x.word b))) s

/-- A fixed result in data form of one source word. -/
def alu1 (d a : BitVec 6) (f : Word → Word) (s : State) : Host.Outcome State Fault Refusal :=
  fixedReg (reads2 d a) d (fun x => .data (f (x.word a))) s

/-- A product: the destination is pending until the multiplier's result returns (04 R63). -/
def multiply (d a b : BitVec 6) (f : Word → Word → Word) (s : State) : Host.Outcome State Fault Refusal :=
  issue false (reads3 d a b) s fun s =>
    let x := s.arch s.cur
    .done (s.setPending [.g d] (.ready [.g d (.data (f (x.word a) (x.word b)))] Flags.none))

/-- A quotient or remainder: the strand is not ready while the core's divider is busy, and the destination is pending until
its result returns (04 R62, R63). -/
def divide (d a b : BitVec 6) (f : Word → Word → Word) (s : State) : Host.Outcome State Fault Refusal :=
  if s.dividing (coreOf s.cur) then .next s
  else issue false (reads3 d a b) s fun s =>
    let x := s.arch s.cur
    .done (s.setPending [.g d] (.divide [.g d (.data (f (x.word a) (x.word b)))]))

/-- Bits [127:64] of a signed product (04 R72). -/
def mulHigh (a b : Word) : Word := (a.signExtend 128 * b.signExtend 128).extractLsb' 64 64
/-- Bits [127:64] of an unsigned product (04 R72). -/
def mulHighZ (a b : Word) : Word := (a.setWidth 128 * b.setWidth 128).extractLsb' 64 64
/-- Signed division truncated toward zero; all ones for a zero divisor (04 R72). -/
def divS (a b : Word) : Word := if b = 0 then -1 else a.sdiv b
/-- Unsigned division; all ones for a zero divisor (04 R72). -/
def divZ (a b : Word) : Word := if b = 0 then -1 else a / b
/-- Remainder with the sign of the dividend; the dividend for a zero divisor (04 R72). -/
def remS (a b : Word) : Word := if b = 0 then a else a.srem b
/-- Unsigned remainder; the dividend for a zero divisor (04 R72). -/
def remZ (a b : Word) : Word := if b = 0 then a else a % b

/-- The shift amount b[5:0] (04 R72). -/
def shiftOf (b : Word) : Nat := b.toNat % 64

/-- The smaller of two signed words. -/
def minS (a b : Word) : Word := if a.slt b then a else b
/-- The larger of two signed words. -/
def maxS (a b : Word) : Word := if a.slt b then b else a
/-- The smaller of two unsigned words. -/
def minZ (a b : Word) : Word := if a.ult b then a else b
/-- The larger of two unsigned words. -/
def maxZ (a b : Word) : Word := if a.ult b then b else a

/-- Leading zero bits; 64 for zero (04 R72). -/
def leadingZeros (a : Word) : Nat := if a = 0 then 64 else 63 - Nat.log2 a.toNat

/-- The first of the bits from `k` on, among `fuel` bits, that is 1; `k + fuel` if none is. -/
def firstOne {w : Nat} (a : BitVec w) (k : Nat) : Nat → Nat
  | 0 => k
  | fuel + 1 => if a.getLsbD k then k else firstOne a (k + 1) fuel

/-- The number of one bits among the first `n`. -/
def onesIn {w : Nat} (a : BitVec w) : Nat → Nat
  | 0 => 0
  | n + 1 => onesIn a n + (if a.getLsbD n then 1 else 0)

/-- Rotation left (04 R72). -/
def rotl (a : Word) (n : Nat) : Word := (a <<< n) ||| (a >>> (64 - n))

/-- The conditions of 04 R76, which the branches share (05 R91). -/
inductive Cond where
  | eq | ne | lt | ge | lo | hs
  deriving DecidableEq, Repr

/-- Holds of 04 R76. -/
def Cond.holds : Cond → Word → Word → Bool
  | .eq, a, b => a == b
  | .ne, a, b => a != b
  | .lt, a, b => a.slt b
  | .ge, a, b => !a.slt b
  | .lo, a, b => a.ult b
  | .hs, a, b => !a.ult b

/-- A truth value as a word. -/
def bit (b : Bool) : Word := if b then 1 else 0

/-- add (04 R72). -/
def execAdd (d a b : BitVec 6) (s : State) : Host.Outcome State Fault Refusal := alu2 d a b (· + ·) s

/-- sub (04 R72). -/
def execSub (d a b : BitVec 6) (s : State) : Host.Outcome State Fault Refusal := alu2 d a b (· - ·) s

/-- mul (04 R72). -/
def execMul (d a b : BitVec 6) (s : State) : Host.Outcome State Fault Refusal := multiply d a b (· * ·) s

/-- mulh (04 R72). -/
def execMulh (d a b : BitVec 6) (s : State) : Host.Outcome State Fault Refusal := multiply d a b mulHigh s

/-- mulhz (04 R72). -/
def execMulhz (d a b : BitVec 6) (s : State) : Host.Outcome State Fault Refusal := multiply d a b mulHighZ s

/-- div (04 R72). -/
def execDiv (d a b : BitVec 6) (s : State) : Host.Outcome State Fault Refusal := divide d a b divS s

/-- divz (04 R72). -/
def execDivz (d a b : BitVec 6) (s : State) : Host.Outcome State Fault Refusal := divide d a b divZ s

/-- rem (04 R72). -/
def execRem (d a b : BitVec 6) (s : State) : Host.Outcome State Fault Refusal := divide d a b remS s

/-- remz (04 R72). -/
def execRemz (d a b : BitVec 6) (s : State) : Host.Outcome State Fault Refusal := divide d a b remZ s

/-- and (04 R72). -/
def execAnd (d a b : BitVec 6) (s : State) : Host.Outcome State Fault Refusal := alu2 d a b (· &&& ·) s

/-- or (04 R72). -/
def execOr (d a b : BitVec 6) (s : State) : Host.Outcome State Fault Refusal := alu2 d a b (· ||| ·) s

/-- xor (04 R72). -/
def execXor (d a b : BitVec 6) (s : State) : Host.Outcome State Fault Refusal := alu2 d a b (· ^^^ ·) s

/-- andn (04 R72). -/
def execAndn (d a b : BitVec 6) (s : State) : Host.Outcome State Fault Refusal := alu2 d a b (fun x y => x &&& ~~~y) s

/-- shl (04 R72). -/
def execShl (d a b : BitVec 6) (s : State) : Host.Outcome State Fault Refusal := alu2 d a b (fun x y => x <<< shiftOf y) s

/-- shr (04 R72). -/
def execShr (d a b : BitVec 6) (s : State) : Host.Outcome State Fault Refusal := alu2 d a b (fun x y => x >>> shiftOf y) s

/-- sha (04 R72). -/
def execSha (d a b : BitVec 6) (s : State) : Host.Outcome State Fault Refusal := alu2 d a b (fun x y => x.sshiftRight (shiftOf y)) s

/-- rol (04 R72). -/
def execRol (d a b : BitVec 6) (s : State) : Host.Outcome State Fault Refusal := alu2 d a b (fun x y => rotl x (shiftOf y)) s

/-- min (04 R72). -/
def execMin (d a b : BitVec 6) (s : State) : Host.Outcome State Fault Refusal := alu2 d a b minS s

/-- max (04 R72). -/
def execMax (d a b : BitVec 6) (s : State) : Host.Outcome State Fault Refusal := alu2 d a b maxS s

/-- minz (04 R72). -/
def execMinz (d a b : BitVec 6) (s : State) : Host.Outcome State Fault Refusal := alu2 d a b minZ s

/-- maxz (04 R72). -/
def execMaxz (d a b : BitVec 6) (s : State) : Host.Outcome State Fault Refusal := alu2 d a b maxZ s

/-- clz (04 R72). -/
def execClz (d a : BitVec 6) (s : State) : Host.Outcome State Fault Refusal := alu1 d a (fun x => BitVec.ofNat 64 (leadingZeros x)) s

/-- ctz (04 R72). -/
def execCtz (d a : BitVec 6) (s : State) : Host.Outcome State Fault Refusal := alu1 d a (fun x => BitVec.ofNat 64 (firstOne x 0 64)) s

/-- popc (04 R72). -/
def execPopc (d a : BitVec 6) (s : State) : Host.Outcome State Fault Refusal := alu1 d a (fun x => BitVec.ofNat 64 (onesIn x 64)) s

/-- mov: all 128 bits and the tag (04 R72). -/
def execMov (d a : BitVec 6) (s : State) : Host.Outcome State Fault Refusal :=
  fixedReg (reads2 d a) d (fun x => x.readG a) s

/-- sel: all 128 bits and the tag (04 R72). -/
def execSel (d a b : BitVec 6) (s : State) : Host.Outcome State Fault Refusal :=
  fixedReg [.g d, .g a, .g b] d (fun x => if x.word d ≠ 0 then x.readG a else x.readG b) s

/-- add.i (04 R73). -/
def execAddI (d a : BitVec 6) (imm : BitVec 13) (s : State) : Host.Outcome State Fault Refusal :=
  alu1 d a (fun x => x + imm.signExtend 64) s

/-- and.i (04 R73). -/
def execAndI (d a : BitVec 6) (imm : BitVec 13) (s : State) : Host.Outcome State Fault Refusal :=
  alu1 d a (fun x => x &&& imm.signExtend 64) s

/-- or.i (04 R73). -/
def execOrI (d a : BitVec 6) (imm : BitVec 13) (s : State) : Host.Outcome State Fault Refusal :=
  alu1 d a (fun x => x ||| imm.signExtend 64) s

/-- xor.i (04 R73). -/
def execXorI (d a : BitVec 6) (imm : BitVec 13) (s : State) : Host.Outcome State Fault Refusal :=
  alu1 d a (fun x => x ^^^ imm.signExtend 64) s

/-- shl.i (04 R74). -/
def execShlI (d a n : BitVec 6) (s : State) : Host.Outcome State Fault Refusal :=
  alu1 d a (fun x => x <<< n.toNat) s

/-- shr.i (04 R74). -/
def execShrI (d a n : BitVec 6) (s : State) : Host.Outcome State Fault Refusal :=
  alu1 d a (fun x => x >>> n.toNat) s

/-- sha.i (04 R74). -/
def execShaI (d a n : BitVec 6) (s : State) : Host.Outcome State Fault Refusal :=
  alu1 d a (fun x => x.sshiftRight n.toNat) s

/-- rol.i (04 R74). -/
def execRolI (d a n : BitVec 6) (s : State) : Host.Outcome State Fault Refusal :=
  alu1 d a (fun x => rotl x n.toNat) s

/-- li (04 R75). -/
def execLi (d : BitVec 6) (imm : BitVec 19) (s : State) : Host.Outcome State Fault Refusal :=
  fixedReg [.g d] d (fun _ => .data (imm.signExtend 64)) s

/-- lis (04 R75). -/
def execLis (d : BitVec 6) (imm : BitVec 19) (s : State) : Host.Outcome State Fault Refusal :=
  fixedReg [.g d] d (fun x => .data ((x.word d <<< 19) ||| imm.setWidth 64)) s

/-- set.eq (04 R76). -/
def execSetEq (d a b : BitVec 6) (s : State) : Host.Outcome State Fault Refusal := alu2 d a b (fun x y => bit (Cond.holds .eq x y)) s

/-- set.ne (04 R76). -/
def execSetNe (d a b : BitVec 6) (s : State) : Host.Outcome State Fault Refusal := alu2 d a b (fun x y => bit (Cond.holds .ne x y)) s

/-- set.lt (04 R76). -/
def execSetLt (d a b : BitVec 6) (s : State) : Host.Outcome State Fault Refusal := alu2 d a b (fun x y => bit (Cond.holds .lt x y)) s

/-- set.ge (04 R76). -/
def execSetGe (d a b : BitVec 6) (s : State) : Host.Outcome State Fault Refusal := alu2 d a b (fun x y => bit (Cond.holds .ge x y)) s

/-- set.lo (04 R76). -/
def execSetLo (d a b : BitVec 6) (s : State) : Host.Outcome State Fault Refusal := alu2 d a b (fun x y => bit (Cond.holds .lo x y)) s

/-- set.hs (04 R76). -/
def execSetHs (d a b : BitVec 6) (s : State) : Host.Outcome State Fault Refusal := alu2 d a b (fun x y => bit (Cond.holds .hs x y)) s

end Sys2Proof.Machine
end

