-- ==== Sys2Proof/Machine/Capability.lean ====
section
/-! DEFINITION. The capability operations, majors 0x0A and 0x0B (04 R77 to R81). -/

namespace Sys2Proof.Machine

open Sys2Proof

/-- A capability operation with a fixed result that may trap instead. -/
def capOp (reads : List RegName) (d : BitVec 6) (f : Arch → Except (Cause × Word) Reg) (s : State) :
    Host.Outcome State Fault Refusal :=
  issue false reads s fun s =>
    match f (s.arch s.cur) with
    | .ok r => .done (s.onArch s.cur fun a => a.writeG d r)
    | .error e => .trap s e.1 e.2

/-- The permissions in index order (04 R67). -/
def Reg.perms (c : Reg) : BitVec 12 := c.bits.extractLsb' 116 12

/-- A capability with its permissions replaced. -/
def Reg.withPerms (c : Reg) (p : BitVec 12) : Reg := { c with bits := (p ++ c.bits.extractLsb' 0 116 : BitVec 128) }

/-- A capability with its object type replaced. -/
def Reg.withOtype (c : Reg) (t : BitVec 4) : Reg :=
  { c with bits := (c.bits.extractLsb' 116 12 ++ t ++ c.bits.extractLsb' 0 112 : BitVec 128) }

/-- A capability with its exponent and mantissas replaced (04 R66, R78). -/
def Reg.withBounds (c : Reg) (e nb nt : Nat) : Reg :=
  { c with bits := (c.bits.extractLsb' 112 16 ++ BitVec.ofNat 6 e ++ BitVec.ofNat 21 (nb / 2 ^ e) ++
      BitVec.ofNat 21 (nt / 2 ^ e) ++ c.low : BitVec 128) }

/-- The end of cincr, cset and cperm (04 R77): a sealed tagged source traps; the tag is kept when the new cursor is
representable for the source. -/
def deriveCap (c : Reg) (r : Reg) : Except (Cause × Word) Reg :=
  if c.tag ∧ c.otype ≠ 0 then .error (.capseal, c.low)
  else if c.tag ∧ !c.representable r.cursor then .ok { r with tag := false }
  else .ok r

/-- cbnd and cbndr of 04 R78. -/
def boundCap (rounded : Bool) (c : Reg) (x : Word) : Except (Cause × Word) Reg :=
  if c.tag = false then .error (.captag, c.low)
  else if c.otype ≠ 0 then .error (.capseal, c.low)
  else
    let b := c.cursor
    let t := b + x.toNat
    if (b : Int) < c.base ∨ c.top < (t : Int) then .error (.capbnd, c.low)
    else
      let e := expFor (t - b)
      if !rounded then
        if b % 2 ^ e ≠ 0 ∨ t % 2 ^ e ≠ 0 then .error (.capbnd, x) else .ok (c.withBounds e b t)
      else
        let down (e : Nat) : Nat := b / 2 ^ e * 2 ^ e
        let up (e : Nat) : Nat := (t + 2 ^ e - 1) / 2 ^ e * 2 ^ e
        let e := if (2 ^ 21 - 1) * 2 ^ e < up e - down e then e + 1 else e
        if (down e : Int) < c.base ∨ c.top < (up e : Int) then .error (.capbnd, c.low)
        else .ok (c.withBounds e (down e) (up e))

/-- The checks that cseal and cunseal share (04 R79). -/
def sealChecks (c x : Reg) : Option (Cause × Word) :=
  if c.tag = false then some (.captag, c.low)
  else if x.tag = false then some (.captag, x.low)
  else if x.otype ≠ 0 then some (.capseal, x.low)
  else none

/-- The cursor lies within the capability's own bounds. -/
def Reg.cursorIn (x : Reg) : Bool := decide (x.base ≤ (x.cursor : Int)) && decide ((x.cursor : Int) < x.top)

/-- cseal of 04 R79. -/
def sealCap (c x : Reg) : Except (Cause × Word) Reg :=
  match sealChecks c x with
  | some e => .error e
  | none =>
    if c.otype ≠ 0 then .error (.capseal, c.low)
    else if !x.perm permSEAL then .error (.capperm, x.low)
    else if x.cursor < 1 ∨ 15 < x.cursor ∨ !x.cursorIn then .error (.capbnd, x.low)
    else .ok (c.withOtype (BitVec.ofNat 4 x.cursor))

/-- cunseal of 04 R79. -/
def unsealCap (c x : Reg) : Except (Cause × Word) Reg :=
  match sealChecks c x with
  | some e => .error e
  | none =>
    if c.otype = 0 then .error (.capseal, c.low)
    else if !x.perm permUNSEAL then .error (.capperm, x.low)
    else if !x.cursorIn then .error (.capbnd, x.low)
    else if x.cursor ≠ c.otype then .error (.capseal, c.low)
    else
      .ok ((c.withOtype 0).withPerms (if x.perm permGLOBAL then c.perms else c.perms &&& 0xFFE))

/-- cincr (04 R77). -/
def execCincr (d a b : BitVec 6) (s : State) : Host.Outcome State Fault Refusal :=
  capOp (reads3 d a b) d (fun x => let c := x.readG a; deriveCap c (c.withCursor (c.low + x.word b))) s

/-- cset (04 R77). -/
def execCset (d a b : BitVec 6) (s : State) : Host.Outcome State Fault Refusal :=
  capOp (reads3 d a b) d (fun x => let c := x.readG a; deriveCap c (c.withCursor (x.word b))) s

/-- cbnd (04 R78). -/
def execCbnd (d a b : BitVec 6) (s : State) : Host.Outcome State Fault Refusal :=
  capOp (reads3 d a b) d (fun x => boundCap false (x.readG a) (x.word b)) s

/-- cbndr (04 R78). -/
def execCbndr (d a b : BitVec 6) (s : State) : Host.Outcome State Fault Refusal :=
  capOp (reads3 d a b) d (fun x => boundCap true (x.readG a) (x.word b)) s

/-- cperm (04 R77). -/
def execCperm (d a b : BitVec 6) (s : State) : Host.Outcome State Fault Refusal :=
  capOp (reads3 d a b) d
    (fun x => let c := x.readG a; deriveCap c (c.withPerms (c.perms &&& (x.word b).setWidth 12))) s

/-- cseal (04 R79). -/
def execCseal (d a b : BitVec 6) (s : State) : Host.Outcome State Fault Refusal :=
  capOp (reads3 d a b) d (fun x => sealCap (x.readG a) (x.readG b)) s

/-- cunseal (04 R79). -/
def execCunseal (d a b : BitVec 6) (s : State) : Host.Outcome State Fault Refusal :=
  capOp (reads3 d a b) d (fun x => unsealCap (x.readG a) (x.readG b)) s

/-- cbase (04 R80). -/
def execCbase (d a : BitVec 6) (s : State) : Host.Outcome State Fault Refusal :=
  fixedReg (reads2 d a) d (fun x => .data (BitVec.ofInt 64 (x.readG a).base)) s

/-- clen (04 R80). -/
def execClen (d a : BitVec 6) (s : State) : Host.Outcome State Fault Refusal :=
  fixedReg (reads2 d a) d (fun x => .data (BitVec.ofNat 64 (x.readG a).length)) s

/-- cperms (04 R80). -/
def execCperms (d a : BitVec 6) (s : State) : Host.Outcome State Fault Refusal :=
  fixedReg (reads2 d a) d
    (fun x => let c := x.readG a; .data ((c.bits.extractLsb' 112 4 ++ c.perms : BitVec 16).setWidth 64)) s

/-- ctag (04 R80). -/
def execCtag (d a : BitVec 6) (s : State) : Host.Outcome State Fault Refusal :=
  fixedReg (reads2 d a) d (fun x => .data (bit (x.readG a).tag)) s

/-- cclr (04 R80). -/
def execCclr (d a : BitVec 6) (s : State) : Host.Outcome State Fault Refusal :=
  fixedReg (reads2 d a) d (fun x => { x.readG a with tag := false }) s

/-- ceq (04 R80). -/
def execCeq (d a b : BitVec 6) (s : State) : Host.Outcome State Fault Refusal :=
  fixedReg (reads3 d a b) d (fun x => .data (bit (x.readG a == x.readG b))) s

/-- csub (04 R80). -/
def execCsub (d a b : BitVec 6) (s : State) : Host.Outcome State Fault Refusal :=
  fixedReg (reads3 d a b) d (fun x => .data (x.word a - x.word b)) s

/-- cincr.i (04 R81). -/
def execCincrI (d a : BitVec 6) (imm : BitVec 13) (s : State) : Host.Outcome State Fault Refusal :=
  capOp (reads2 d a) d (fun x => let c := x.readG a; deriveCap c (c.withCursor (c.low + imm.signExtend 64))) s

end Sys2Proof.Machine
end

