-- ==== Sys2Proof/Machine/Numbers.lean ====
section
/-! DEFINITION. The number formats (11): exact values, rounding to FP32, BF16 and FP16, the tapered formats T8 and T6 with
their E8 scales, stochastic draws, seeds, and the FP32 operations of R197. Every intermediate value is exact. -/

namespace Sys2Proof.Machine

open Sys2Proof

/-- An exact value: a signed multiple `m` of 2^e, an infinity, or a NaN. -/
inductive Num where
  | fin (neg : Bool) (m : Nat) (e : Int)
  | inf (neg : Bool)
  | nan
  deriving DecidableEq, Repr

/-- The canonical FP32 NaN (11 R197). -/
def nan32 : BitVec 32 := 0x7FC00000

/-- The value of a word of an IEEE format with `fb` fraction bits, `eb` exponent bits and bias `bias` (11 R196, R200). -/
def decodeIEEE (fb eb : Nat) (bias : Int) (x : Nat) : Num :=
  let neg := x / 2 ^ (fb + eb) % 2 == 1
  let ex := x / 2 ^ fb % 2 ^ eb
  let fr := x % 2 ^ fb
  if ex = 2 ^ eb - 1 then (if fr = 0 then .inf neg else .nan)
  else if ex = 0 then .fin neg fr (1 - bias - fb)
  else .fin neg (2 ^ fb + fr) (ex - bias - fb)

/-- The value of an FP32 word. -/
def f32 (x : BitVec 32) : Num := decodeIEEE 23 8 127 x.toNat
/-- The value of a BF16 word. -/
def bf16 (x : BitVec 16) : Num := decodeIEEE 7 8 127 x.toNat
/-- The value of an FP16 word. -/
def fp16 (x : BitVec 16) : Num := decodeIEEE 10 5 15 x.toNat

/-- A NaN of FP32 (11 R196). -/
def isNaN32 (x : BitVec 32) : Bool := x.extractLsb' 23 8 == 0xFF && x.extractLsb' 0 23 != 0

/-- A signalling NaN of FP32 (11 R196). -/
def isSNaN32 (x : BitVec 32) : Bool := isNaN32 x && !x.getLsbD 22

/-! ## Rounding -/

/-- The mode that a rounding of FP32, BF16 or FP16 uses: 5, 6 and 7 act as RNE (11 R198, 06 R109). -/
def roundMode (frm : Nat) : Nat := if frm ≤ 4 then frm else 0

/-- Whether a magnitude strictly between two neighbours goes to the larger one (11 R198): `r` parts of `d` above the
smaller, which is `odd` or not. -/
def roundsUp (mode : Nat) (neg : Bool) (odd : Bool) (r d : Nat) : Bool :=
  r != 0 && match mode with
    | 1 => false
    | 2 => neg
    | 3 => !neg
    | 4 => decide (d ≤ 2 * r)
    | _ => decide (d < 2 * r) || (decide (2 * r = d) && odd)

/-- A magnitude cut to `fb` fraction bits with exponents from `emin` on: the format's magnitude pattern, not limited above,
and whether it is inexact (11 R198). -/
def roundMag (fb : Nat) (emin : Int) (mode : Nat) (neg : Bool) (m : Nat) (e : Int) : Nat × Bool :=
  let q : Int := max ((Nat.log2 m : Int) + e) emin - fb
  let ex := (q - (emin - fb)).toNat
  if q ≤ e then (ex * 2 ^ fb + m * 2 ^ (e - q).toNat, false)
  else
    let d := 2 ^ (q - e).toNat
    (ex * 2 ^ fb + m / d + (if roundsUp mode neg (m / d % 2 == 1) (m % d) d then 1 else 0), m % d != 0)

/-- Whether a non-zero magnitude lies below 2^emin (11 R199: tininess is judged before rounding). -/
def isTiny (emin : Int) (m : Nat) (e : Int) : Bool := decide ((Nat.log2 m : Int) + e < emin)

/-- A sign bit above `n` bits. -/
def signed (neg : Bool) (n x : Nat) : Nat := if neg then 2 ^ n + x else x

/-- RoundF32 of 11 R198 and R199. -/
def roundF32 (frm : Nat) : Num → BitVec 32 × Flags
  | .nan => (nan32, Flags.none)
  | .inf neg => (BitVec.ofNat 32 (signed neg 31 0x7F800000), Flags.none)
  | .fin neg m e =>
    if m = 0 then (BitVec.ofNat 32 (signed neg 31 0), Flags.none) else
    let mode := roundMode frm
    let x := roundMag 23 (-126) mode neg m e
    if 0x7F800000 ≤ x.1 then
      let big := mode == 1 || (mode == 2 && !neg) || (mode == 3 && neg)
      (BitVec.ofNat 32 (signed neg 31 (if big then 0x7F7FFFFF else 0x7F800000)), { Flags.none with of := 1, nx := 1 })
    else
      (BitVec.ofNat 32 (signed neg 31 x.1),
       if x.2 then { Flags.none with nx := 1, uf := if isTiny (-126) m e then 1 else 0 } else Flags.none)

/-- The narrowing of a value into BF16 or FP16 under FRM (06 R109): saturating, with SAT and NX. -/
def narrow16 (fb : Nat) (emin : Int) (top nan : Nat) (frm : Nat) : Num → BitVec 16 × Flags
  | .nan => (BitVec.ofNat 16 nan, Flags.none)
  | .inf neg => (BitVec.ofNat 16 (signed neg 15 (top + 1)), Flags.none)
  | .fin neg m e =>
    if m = 0 then (BitVec.ofNat 16 (signed neg 15 0), Flags.none) else
    let x := roundMag fb emin (roundMode frm) neg m e
    if top < x.1 then (BitVec.ofNat 16 (signed neg 15 top), Flags.satNx)
    else
      (BitVec.ofNat 16 (signed neg 15 x.1),
       if x.2 then { Flags.none with nx := 1, uf := if isTiny emin m e then 1 else 0 } else Flags.none)

/-- An FP32 word narrowed into BF16 (06 R109); NV only for a signalling NaN. -/
def toBf16 (frm : Nat) (x : BitVec 32) : BitVec 16 × Flags :=
  let r := narrow16 7 (-126) 0x7F7F 0x7FC0 frm (f32 x)
  (r.1, if isSNaN32 x then Flags.nv1 else r.2)

/-- An FP32 word narrowed into FP16 (06 R109); NV only for a signalling NaN. -/
def toFp16 (frm : Nat) (x : BitVec 32) : BitVec 16 × Flags :=
  let r := narrow16 10 (-14) 0x7BFF 0x7E00 frm (f32 x)
  (r.1, if isSNaN32 x then Flags.nv1 else r.2)

/-- A 16-bit word widened to FP32 exactly (11 R200, 06 R107). -/
def widen (n : Num) : BitVec 32 := (roundF32 0 n).1

/-- BF16 widened (06 R107). -/
def fromBf16 (x : BitVec 16) : BitVec 32 := widen (bf16 x)
/-- FP16 widened (06 R107). -/
def fromFp16 (x : BitVec 16) : BitVec 32 := widen (fp16 x)

/-! ## Exact arithmetic -/

/-- An exact sum of two finite values as a signed multiple of a power of two. -/
def addExact (m1 : Int) (e1 : Int) (m2 : Int) (e2 : Int) : Int × Int :=
  let e := min e1 e2
  (m1 * 2 ^ (e1 - e).toNat + m2 * 2 ^ (e2 - e).toNat, e)

/-- A signed multiple as an exact value; a zero takes the sign given. -/
def ofSigned (zneg : Bool) (m : Int) (e : Int) : Num :=
  if m = 0 then .fin zneg 0 0 else .fin (decide (m < 0)) m.natAbs e

/-- The signed multiple of a finite value. -/
def signedOf (neg : Bool) (m : Nat) : Int := if neg then -(m : Int) else m

/-- The sum of two values and whether it is ∞ − ∞ (11 R197): an exact sum of zero is −0 in RDN or when both addends are
−0, and +0 otherwise. -/
def addNum (frm : Nat) : Num → Num → Num × Bool
  | .nan, _ => (.nan, false)
  | _, .nan => (.nan, false)
  | .inf a, .inf b => if a = b then (.inf a, false) else (.nan, true)
  | .inf a, .fin _ _ _ => (.inf a, false)
  | .fin _ _ _, .inf b => (.inf b, false)
  | .fin na ma ea, .fin nb mb eb =>
    let s := addExact (signedOf na ma) ea (signedOf nb mb) eb
    let bothNegZero := na && nb && ma == 0 && mb == 0
    (ofSigned (bothNegZero || roundMode frm == 2) s.1 s.2, false)

/-- The product of two values and whether it is 0 × ∞ (11 R197). -/
def mulNum : Num → Num → Num × Bool
  | .nan, .nan => (.nan, false)
  | .nan, _ => (.nan, false)
  | _, .nan => (.nan, false)
  | .inf a, .inf b => (.inf (a != b), false)
  | .inf a, .fin nb mb _ => if mb = 0 then (.nan, true) else (.inf (a != nb), false)
  | .fin na ma _, .inf b => if ma = 0 then (.nan, true) else (.inf (na != b), false)
  | .fin na ma ea, .fin nb mb eb => (.fin (na != nb) (ma * mb) (ea + eb), false)

/-- A value with its sign changed. -/
def Num.neg : Num → Num
  | .fin n m e => .fin (!n) m e
  | .inf n => .inf (!n)
  | .nan => .nan

/-- NV of one operation. -/
def nvIf (b : Bool) : Flags := if b then Flags.nv1 else Flags.none

/-- FP32 addition (11 R197). -/
def fAdd (frm : Nat) (a b : BitVec 32) : BitVec 32 × Flags :=
  let s := addNum frm (f32 a) (f32 b)
  let r := roundF32 frm s.1
  (r.1, r.2.or (nvIf (s.2 || isSNaN32 a || isSNaN32 b)))

/-- An FP32 word with its sign bit changed. -/
def negBit (x : BitVec 32) : BitVec 32 := x ^^^ 0x80000000

/-- FP32 subtraction: a + (−b) (12 R223). -/
def fSub (frm : Nat) (a b : BitVec 32) : BitVec 32 × Flags :=
  let s := addNum frm (f32 a) (f32 b).neg
  let r := roundF32 frm s.1
  (r.1, r.2.or (nvIf (s.2 || isSNaN32 a || isSNaN32 b)))

/-- FP32 multiplication (11 R197). -/
def fMul (frm : Nat) (a b : BitVec 32) : BitVec 32 × Flags :=
  let p := mulNum (f32 a) (f32 b)
  let r := roundF32 frm p.1
  (r.1, r.2.or (nvIf (p.2 || isSNaN32 a || isSNaN32 b)))

/-- FP32 fused multiply-add ± a × b ± c, rounded once (11 R197). -/
def fFma (frm : Nat) (np nc : Bool) (a b c : BitVec 32) : BitVec 32 × Flags :=
  let p := mulNum (f32 a) (f32 b)
  let s := addNum frm (if np then p.1.neg else p.1) (if nc then (f32 c).neg else f32 c)
  let r := roundF32 frm s.1
  (r.1, r.2.or (nvIf (p.2 || s.2 || isSNaN32 a || isSNaN32 b || isSNaN32 c)))

/-- An FP32 word as a number that rises with its value, −0 below +0 (11 R197). -/
def order32 (x : BitVec 32) : Int :=
  if x.getLsbD 31 then -1 - (x.extractLsb' 0 31).toNat else (x.extractLsb' 0 31).toNat

/-- FP32 minimum or maximum (11 R197). -/
def fMinMax (isMax : Bool) (a b : BitVec 32) : BitVec 32 × Flags :=
  if isNaN32 a || isNaN32 b then (nan32, nvIf (isSNaN32 a || isSNaN32 b))
  else (if decide (order32 a < order32 b) == isMax then b else a, Flags.none)

/-! ## T8, T6 and E8 -/

/-- How many of the top bits of an `L`-bit magnitude, from bit `n − 1` down, equal `b`. -/
def runLen (m : Nat) (b : Nat) : Nat → Nat
  | 0 => 0
  | n + 1 => if m / 2 ^ n % 2 = b then 1 + runLen m b n else 0

/-- A non-zero magnitude of `L` bits (11 R201), in units of the format's smallest magnitude 2^(2 − 2L). -/
def tMag (L m : Nat) : Nat :=
  let lead := m / 2 ^ (L - 1) % 2
  let k := runLen m lead L
  let r : Int := if lead = 1 then (k : Int) - 1 else -(k : Int)
  let rest := L - k - 1
  let e := if 1 ≤ rest then m / 2 ^ (rest - 1) % 2 else 0
  let fb := rest - 1
  let f := m % 2 ^ fb
  let ex : Int := 2 * r + e - fb + (2 * L - 2)
  (2 ^ fb + f) * 2 ^ ex.toNat

/-- DecodeT of 11 R201: none is INV. -/
def decodeT (n : Nat) (b : Nat) : Option Num :=
  let m := b % 2 ^ (n - 1)
  let neg := b / 2 ^ (n - 1) % 2 == 1
  if m = 0 then (if neg then none else some (.fin false 0 0))
  else some (.fin neg (tMag (n - 1) m) (4 - 2 * (n : Int)))

/-- DecodeE8 of 11 R205: the exponent, or none for INV. -/
def decodeE8 (s : Nat) : Option Int := if s = 255 then none else some ((s : Int) - 127)

/-- A value times a power of two. -/
def Num.scale (k : Int) : Num → Num
  | .fin n m e => .fin n m (e + k)
  | x => x

/-- The largest pattern from `p` down whose magnitude, times `d`, is not above `a`; 0 if none is. -/
def patBelow (L a d : Nat) : Nat → Nat
  | 0 => 0
  | p + 1 => if tMag L (p + 1) * d ≤ a then p + 1 else patBelow L a d p

/-- EncodeT of 11 R206, `u` the draw of R207. -/
def encodeT (n frm u : Nat) : Num → Nat × Flags
  | .nan => (2 ^ (n - 1), Flags.inv1)
  | .inf _ => (2 ^ (n - 1), Flags.inv1)
  | .fin neg m e =>
    if m = 0 then (0, Flags.none) else
    let L := n - 1
    let last := 2 ^ L - 1
    let k : Int := e + (2 * L - 2)
    let a := if 0 ≤ k then m * 2 ^ k.toNat else m
    let d := if 0 ≤ k then 1 else 2 ^ (-k).toNat
    let sgn (p : Nat) : Nat := if p = 0 then 0 else signed neg L p
    if tMag L last * d < a then (sgn last, Flags.satNx)
    else
      let p := patBelow L a d last
      let lo := if p = 0 then 0 else tMag L p * d
      if lo = a then (sgn p, Flags.none)
      else
        let hi := tMag L (p + 1) * d
        let up := match frm with
          | 1 => false
          | 2 => neg
          | 3 => !neg
          | 4 => decide (hi - a ≤ a - lo)
          | 5 => decide (u < (a - lo) * 2 ^ 16 / (hi - lo))
          | _ => decide (hi - a < a - lo) || (decide (hi - a = a - lo) && p % 2 == 1)
        (sgn (if up then p + 1 else p), Flags.nx1)

/-- The step of the stochastic generator (11 R207). -/
def srStep (t : Word) : Word :=
  let t := t ^^^ (t <<< 13)
  let t := t ^^^ (t >>> 7)
  t ^^^ (t <<< 17)

/-- The draw of element `i` under a seed (11 R207). -/
def srDraw (seed : Word) (i : Nat) : Nat :=
  let t := seed ^^^ (BitVec.ofNat 64 (i + 1) * 0x9E3779B97F4A7C15)
  (srStep (if t = 0 then 1 else t)).toNat / 2 ^ 48

/-- SRSEED after an instruction that encodes an element (11 R207). -/
def srNext (seed : Word) : Word := if seed = 0 then 1 else srStep seed

/-- The decoded value of a T8 or T6 element under its scale byte (06 R107). -/
def decodeScaled (n b scale : Nat) : BitVec 32 × Flags :=
  match decodeT n b, decodeE8 scale with
  | some x, some k => roundF32 0 (x.scale k)
  | _, _ => (nan32, Flags.inv1)

/-- The pattern a T8 or T6 element store writes (06 R109). -/
def encodeScaled (n frm u : Nat) (x : BitVec 32) (scale : Nat) : Nat × Flags :=
  match decodeE8 scale with
  | none => (2 ^ (n - 1), Flags.inv1)
  | some k => encodeT n frm u ((f32 x).scale (-k))

/-! ## Seeds (11 R208) -/

/-- The square root of a number, rounded down, bit by bit from 2^k down. -/
def isqrt (x : Nat) : Nat → Nat → Nat
  | 0, r => r
  | k + 1, r => let r' := r + 2 ^ k; isqrt x k (if r' * r' ≤ x then r' else r)

/-- vrsq.e of one lane. -/
def seedRsq (x : BitVec 32) : BitVec 32 × Flags :=
  match f32 x with
  | .nan => (nan32, nvIf (isSNaN32 x))
  | .inf neg => if neg then (nan32, Flags.nv1) else (0, Flags.none)
  | .fin neg m e =>
    if m = 0 then (BitVec.ofNat 32 (signed neg 31 0x7F800000), Flags.dz1)
    else if neg then (nan32, Flags.nv1)
    else
      let l := Nat.log2 m
      let f := m * 2 ^ (23 - l) % 2 ^ 23
      let ex : Int := l + e
      let p := (ex % 2).toNat
      let mid := 2 ^ p * (2 ^ 11 + 2 * (f / 2 ^ 13) + 1)
      let entry := (isqrt (2 ^ 47 / mid) 24 0 + 1) / 2
      (roundF32 0 (.fin false entry (-17 - (ex - p) / 2)))

/-- vrcp.e of one lane. -/
def seedRcp (x : BitVec 32) : BitVec 32 × Flags :=
  match f32 x with
  | .nan => (nan32, nvIf (isSNaN32 x))
  | .inf neg => (BitVec.ofNat 32 (signed neg 31 0), Flags.none)
  | .fin neg m e =>
    if m = 0 then (BitVec.ofNat 32 (signed neg 31 0x7F800000), Flags.dz1)
    else
      let l := Nat.log2 m
      let f := m * 2 ^ (23 - l) % 2 ^ 23
      let ex : Int := l + e
      let entry := (2 ^ 30 / (2 ^ 12 + 2 * (f / 2 ^ 12) + 1) + 1) / 2
      roundF32 0 (.fin neg entry (-17 - ex))

end Sys2Proof.Machine
end

