-- ==== Sys2Proof/Machine/Operands.lean ====
section
/-! DEFINITION. The operand forms of memory: the checks that every access passes (06 R114), the alias windows (06 R106 to
R110), what a load reads and how its result is formed (06 R107, R113, R115, R117), and what a store writes, in place, in the
write-hold array and on the trail (06 R103, R109, R116, 20 R379). -/

namespace Sys2Proof.Machine

open Sys2Proof

/-- One access of an instruction: a scalar access, or one active lane of a vector access. -/
structure Access where
  lane : Nat
  va : Nat
  n : Nat
  deriving DecidableEq, Repr

/-- What keeps an instruction from completing: a precise trap or a wait. -/
inductive Stop where
  | trap (cause : Cause) (val : Word)
  | wait (w : Wait)
  deriving DecidableEq, Repr

/-- A trap whose value is an address. -/
def Stop.at (cause : Cause) (a : Nat) : Stop := .trap cause (BitVec.ofNat 64 a)

/-- A stop as an instruction's end. -/
def Stop.act (s : State) : Stop → Act
  | .trap c v => .trap s c v
  | .wait w => .hold (s.waiting w)

/-! ## Windows (06 R106 to R108) -/

/-- The raw bytes of an access of `n` bytes at offset `off` of a window, each with its position in the access; those of an
encoding window stand at the first byte of their element. -/
def padBytes (win off n size scl : Nat) : List (Nat × Nat) :=
  match win with
  | 1 | 5 => (List.range (n / 4)).map fun j => (4 * j, off / 4 + j)
  | 2 => (List.range (n / 4)).flatMap fun j =>
      [(4 * j, 3 * ((off / 4 + j) / 4)), (4 * j, 3 * ((off / 4 + j) / 4) + 1), (4 * j, 3 * ((off / 4 + j) / 4) + 2)]
  | 3 | 4 => (List.range (n / 4)).flatMap fun j => [(4 * j, 2 * (off / 4 + j)), (4 * j, 2 * (off / 4 + j) + 1)]
  | 6 => (List.range n).map fun k => (k, (scl + off + k) % size)
  | _ => (List.range n).map fun k => (k, off + k)

/-- The raw offset of the scale byte of element `i` (06 R108). -/
def scaleRaw (i size scl : Nat) : Nat := (scl + i / 256) % size

/-- The scale bytes of an access (06 R108), each at its element. -/
def scaleBytes (win off n size scl : Nat) : List (Nat × Nat) :=
  if win = 1 ∨ win = 2 then (List.range (n / 4)).map fun j => (4 * j, scaleRaw (off / 4 + j) size scl) else []

/-- A window that decodes (06 R110). -/
def coded (win : Nat) : Bool := decide (1 ≤ win) && decide (win ≤ 5)

/-- SCLBASE of a strand (06 R108) (DEDUCED, assumption 41). -/
def State.sclbase (s : State) (sid : Nat) : Nat := (s.arch sid).sclbase.toNat % 2 ^ 19

/-- The aperture address of a raw offset in window 0 of a core's scratchpad (01 R15). -/
def padVA (cid raw : Nat) : Nat :=
  0x7E0000000000 + cid / 128 * 2 ^ 32 + cid / 4 % 32 * 2 ^ 27 + cid % 4 * 2 ^ 25 + raw

/-! ## Areas that no U-mode access may touch (14 R263, 20 R375) -/

/-- Start of the choice-point area (20 R373). -/
def Arch.cpBase (a : Arch) : Nat := a.cpstk.toNat % 1024 * 512
/-- Choice points the area holds. -/
def Arch.cpSlots (a : Arch) : Nat := a.cpstk.toNat / 1024 % 128
/-- Start of the trail area. -/
def Arch.trBase (a : Arch) : Nat := a.trail.toNat % 32768 * 16
/-- Entries the trail holds. -/
def Arch.trLimit (a : Arch) : Nat := a.trail.toNat / 65536 % 32768
/-- Entries in use. -/
def Arch.trTop (a : Arch) : Nat := a.trail.toNat / 2 ^ 32 % 32768

/-- The trail with another number of entries in use. -/
def Arch.setTop (a : Arch) (n : Nat) : Arch :=
  { a with trail := BitVec.ofNat 64 (a.trail.toNat % 2 ^ 32 + n % 32768 * 2 ^ 32) }

/-- A raw offset of the choice points or the trail of a strand. -/
def Arch.ownsRaw (a : Arch) (raw : Nat) : Bool :=
  (decide (a.cpBase ≤ raw) && decide (raw < a.cpBase + 512 * a.cpSlots)) ||
  (decide (a.trBase ≤ raw) && decide (raw < a.trBase + 16 * a.trLimit))

/-- A raw offset of the ready deque of a core (14 R263). -/
def State.dequeRaw (s : State) (cid raw : Nat) : Bool :=
  decide (s.padSize cid ≤ raw + 4096) && decide (raw < s.padSize cid)

/-- A raw offset of a choice-point or trail area of a strand of a core (20 R375). -/
def State.tryRaw (s : State) (cid raw : Nat) : Bool := (strandsOf cid).any fun sid => (s.arch sid).ownsRaw raw

/-- A raw offset that no U-mode access may touch (DEDUCED, assumption 14). -/
def State.protectedRaw (s : State) (cid raw : Nat) : Bool := s.dequeRaw cid raw || s.tryRaw cid raw

/-- A raw offset that the footprint of a copy, get or put may not reach: a choice-point or trail area in either mode (20 R375), the
ready deque in U mode. -/
def State.sideRaw (s : State) (smode : Bool) (cid raw : Nat) : Bool := s.tryRaw cid raw || (!smode && s.dequeRaw cid raw)

/-! ## Range locks (15 R289, R293) -/

/-- Whether a byte of a space lies in a lock that the access may not touch: a locked destination for a load, a locked side
or a registered stage barrier for a store. -/
def Quire.lockHit (q : Quire) (space : Nat) (store : Bool) (x : Nat) : Bool :=
  (q.locks.any fun l => (store || l.dst) && l.space == space && decide (l.lo ≤ x) && decide ((x : Int) < l.hi)) ||
  (store && q.dir.any fun d => space == d.cid + 1 && decide (d.off ≤ x) && decide (x < d.off + 16))

/-- The first byte of a list of positions and bytes of a space that conflicts, as an address from `va` on. -/
def Quire.rangeHit (q : Quire) (space va : Nat) (store : Bool) (bs : List (Nat × Nat)) : Option Nat :=
  (bs.find? fun b => q.lockHit space store b.2).map fun b => va + b.1

/-- The smaller of two addresses that may be absent. -/
def lowest : Option Nat → Option Nat → Option Nat
  | some a, some b => some (min a b)
  | a, b => a.or b

/-! ## The checks of an access (06 R114) -/

/-- The entry that translates an address, as the page buffer or the tables now say (08 R156). -/
def State.entryAt (s : State) (cid a : Nat) : Option PageEntry := (pageFind (s.core cid).pages a).or (s.lookup cid a)

/-- A page is stamped by its 64 KB entry (19 R359) (DEDUCED, assumption 39). -/
def State.stampedAt (s : State) (sid a : Nat) : Bool :=
  match s.entryAt (coreOf sid) a with
  | some e => e.st
  | none => false

/-- What an instruction asks of its accesses. -/
structure Demand where
  perms : List Nat
  align : Bool
  /-- Windows 1 to 5 are accepted (06 R110). -/
  wide : Bool
  store : Bool
  rights : List Right
  /-- An stc of a tagged register without GLOBAL (06 R116). -/
  localOnly : Bool
  deriving DecidableEq, Repr

/-- The demands of a load. -/
def loadDemand (wide : Bool) : Demand :=
  { perms := [permLD], align := true, wide := wide, store := false, rights := [.r], localOnly := false }

/-- The demands of a store. -/
def storeDemand (wide : Bool) : Demand :=
  { perms := [permST], align := true, wide := wide, store := true, rights := [.w], localOnly := false }

/-- Steps 3 and 4 and, for a load, step 5 of 06 R114 for mapped memory, with the shadow half of 19 R360. -/
def State.checkMapped (s : State) (sid a : Nat) (x : Access) (k : Demand) : Option Stop :=
  match s.plbCheck sid a k.rights with
  | .denied => some (.at .plb a)
  | .miss => some (.wait (.plb a (s.strand sid).wait.got))
  | .granted =>
    if 32768 ≤ a % 65536 ∧ s.stampedAt sid a then some (.at .align a)
    else match (s.quire (quireOf sid)).rangeHit 0 a k.store ((List.range x.n).map fun j => (j, a + j)) with
      | some b => some (.at .range b)
      | none =>
        if k.store then none
        else match s.transLoad sid a with
          | .ok _ _ => none
          | .failed _ => some (.at .pgflt a)
          | .miss => some (.wait (.xlate a (s.strand sid).wait.got))

/-- The window rules, the protected areas and the range locks for a scratchpad (06 R110, 14 R263, 20 R375, 15 R289), and
the wait for a sector of the own scratchpad that another strand's uncommitted chunk has written (17 R339)
(DEDUCED, assumption 42). -/
def State.checkPad (s : State) (sid cid win off : Nat) (x : Access) (k : Demand) : Option Stop :=
  let own := cid == s.owner (coreOf sid)
  if coded win && !k.wide then some (.at .align x.va)
  else if k.localOnly && !(own && (win == 0 || win == 6)) then some (.at .capperm x.va)
  else if windowBytes win (s.padSize cid) < off + x.n then (if k.store then none else some (.at .pgflt x.va))
  else
    let bs := padBytes win off x.n (s.padSize cid) (s.sclbase sid)
    let sc := scaleBytes win off x.n (s.padSize cid) (s.sclbase sid)
    let q := s.quire (quireOf sid)
    if !(s.arch sid).smode && bs.any (fun b => s.protectedRaw cid b.2) then some (.at .capbnd x.va)
    else match lowest (q.rangeHit (cid + 1) x.va k.store bs) (q.rangeHit (cid + 1) x.va false sc) with
      | some b => some (.at .range b)
      | none =>
        if own then
          match (bs ++ sc).findSome? fun b => s.padWriter (some sid) (padLoc cid b.2) with
          | some w => some (.wait (.chunk w))
          | none => none
        else none

/-- All checks of one access, in the order of 06 R114: none if it passes. -/
def State.checkAccess (s : State) (sid : Nat) (c : Reg) (x : Access) (k : Demand) : Option Stop :=
  match checkCap (s.arch sid).smode c x.va x.n k.perms (if k.align then x.n else 0) with
  | some cause => some (.at cause x.va)
  | none =>
    match s.place (coreOf sid) x.va with
    | .hole =>
      if k.localOnly then some (.at .capperm x.va) else if k.store then none else some (.at .pgflt x.va)
    | .pad cid win off => s.checkPad sid cid win off x k
    | .mapped a => if k.localOnly then some (.at .capperm x.va) else s.checkMapped sid a x k

/-- The checks of the active lanes, in ascending order: the first that stops decides (06 R114). -/
def State.checkAll (s : State) (sid : Nat) (c : Reg) (l : List Access) (k : Demand) : Option Stop :=
  l.findSome? fun x => s.checkAccess sid c x k

/-- An access that has passed its checks counts as a use of its PLB entry (08 R154), and of its page-buffer entry unless the L1
translated it: by the sector for a load, by the line for a store (08 R157). -/
def State.touchAccess (s : State) (sid : Nat) (store : Bool) (x : Access) : State :=
  match s.place (coreOf sid) x.va with
  | .mapped a =>
    (s.usePlb sid a).onCore (coreOf sid) fun c =>
      { c with
        pages := match if (if store then l1Line c.l1 a else l1Find c.l1 a).isSome then none else pageFind c.pages a with
          | some e => touch e c.pages
          | none => c.pages }
  | _ => s

/-! ## Loads -/

/-- A place in a scratchpad of the own core, of the own die, or farther; or a home on the own die or farther; a stamped page
is read at its home. None is read when the instruction issues. -/
def State.portOf (s : State) (sid loc : Nat) (stamped : Bool) : Option Port :=
  if padOrigin ≤ loc then
    if padCore loc = s.owner (coreOf sid) then none
    else if dieOfCore (padCore loc) = dieOf sid then some .sibling else some .remote
  else if homeDie loc ≠ some (dieOf sid) then some .remote
  else if stamped then some .stamped else none

/-- The elements that an access reads (06 R107), and whether its page is stamped. -/
def State.elemsOf (s : State) (sid : Nat) (x : Access) : List Elem × Bool :=
  match s.place (coreOf sid) x.va with
  | .hole => ([], false)
  | .mapped a =>
    match s.transLoad sid a with
    | .ok loc e =>
      ([{ win := 0, bytes := (List.range x.n).map (loc + ·), pos := 0, scale := none, lane := x.lane }], e.st)
    | _ => ([], false)
  | .pad cid win off =>
    let size := s.padSize cid
    let scl := s.sclbase sid
    if coded win then
      ((List.range (x.n / 4)).map fun j =>
        { win := win, bytes := (padBytes win (off + 4 * j) 4 size scl).map fun b => padLoc cid b.2,
          pos := (off / 4 + j) % 4,
          scale := if win ≤ 2 then some (padLoc cid (scaleRaw (off / 4 + j) size scl)) else none, lane := x.lane }, false)
    else
      ([{ win := 0, bytes := (padBytes win off x.n size scl).map fun b => padLoc cid b.2, pos := 0, scale := none,
          lane := x.lane }], false)

/-- Every location that an element reads. -/
def Elem.locs (e : Elem) : List Nat := e.bytes ++ e.scale.toList

/-- A group to read joined to those there: each distinct sector, or line of a stamped page on the own die, is read once for all its
lanes, in a window with the scale bytes of its elements (06 R111, R113). -/
def addNeed (l : List Need) (p : Port) (stamped : Bool) (locs : List Nat) : List Need :=
  let unit := if p = .stamped then 128 else 16
  let key (n : List Nat) : Nat := n.headD 0 / unit
  if l.any (fun n => n.port == p && key n.locs == key locs) then
    l.map fun n => if n.port == p && key n.locs == key locs then { n with locs := n.locs ++ locs } else n
  else l ++ [{ port := p, locs := locs, stamped := stamped, arrived := none }]

/-- The part of a held store that covers a byte, given by location and address. -/
def Piece.over (p : Piece) (loc va : Nat) : Option (Byte × Byte) :=
  let base := match p.xl with
    | .ok l => some (l, loc)
    | .encoding _ l _ _ _ _ _ _ _ => some (l, loc)
    | _ => some (p.addr.toNat, va)
  match base with
  | some (b, x) => if b ≤ x ∧ x < b + 16 ∧ byteOf p.bits (x - b) ≠ 0 then some (byteOf p.data (x - b), byteOf p.bits (x - b)) else none
  | none => none

/-- The store still waits for its scale byte. -/
def Piece.encoding (p : Piece) : Bool :=
  match p.xl with
  | .encoding _ _ _ _ _ _ _ _ _ => true
  | _ => false

/-- The strand's held stores, oldest first. -/
def Strand.held (t : Strand) : List Piece := t.chunks.flatMap (·.held)

/-- What the strand's own held stores put over a byte (06 R115): the latest value of each written bit. -/
def overByte (l : List Piece) (loc va : Nat) : Byte × Byte :=
  l.foldl (fun x p => match p.over loc va with
    | some (d, k) => ((x.1 &&& ~~~k) ||| (d &&& k), x.2 ||| k)
    | none => x) (0, 0)

/-- The bytes of an access with their addresses; those of a scratchpad are known by location alone. -/
def Elem.named (e : Elem) (va : Nat) : List (Nat × Nat) := e.locs.zipIdx.map fun b => (b.1, va + b.2)

/-- A byte read of memory with the own bits over it. -/
def overlay (own : List (Nat × Byte × Byte)) (loc : Nat) (b : Byte) : Byte :=
  match own.find? (·.1 == loc) with
  | some (_, d, k) => (b &&& ~~~k) ||| (d &&& k)
  | none => b

/-- The byte that a load has read at a location. -/
def LoadReq.byte (l : LoadReq) (loc : Nat) : Byte :=
  overlay l.own loc (match l.got.find? (·.1 == loc) with
    | some x => x.2
    | none => 0)

/-- The decoded value of an element with the number of its bytes (06 R107). -/
def Elem.value (e : Elem) (f : Nat → Byte) : Nat × Nat × Flags :=
  let raw := natOfBytes (e.bytes.map f)
  let sc := (e.scale.map fun l => (f l).toNat).getD 127
  match e.win with
  | 1 => let r := decodeScaled 8 raw sc; (r.1.toNat, 4, r.2)
  | 2 => let r := decodeScaled 6 (raw / 2 ^ (6 * e.pos) % 64) sc; (r.1.toNat, 4, r.2)
  | 3 => ((fromBf16 (BitVec.ofNat 16 raw)).toNat, 4, Flags.none)
  | 4 => ((fromFp16 (BitVec.ofNat 16 raw)).toNat, 4, Flags.none)
  | 5 => (((BitVec.ofNat 8 raw).signExtend 32).toNat, 4, Flags.none)
  | _ => (raw, e.bytes.length, Flags.none)

/-- The values of elements side by side, lowest first, and the sum of their flags. -/
def joinElems (f : Nat → Byte) : List Elem → Nat × Flags
  | [] => (0, Flags.none)
  | e :: l =>
    let v := e.value f
    let r := joinElems f l
    (v.1 + 2 ^ (8 * v.2.1) * r.1, v.2.2.add r.2)

/-- A vector register with the lanes that the elements give. -/
def laneElems (f : Nat → Byte) (w : Nat) (old : BitVec 2048) (l : List Elem) : BitVec 2048 × Flags :=
  l.foldl (fun x e => let v := e.value f; (setLane x.1 (8 * w) e.lane v.1, x.2.add v.2.2)) (old, Flags.none)

/-- A value of `n` bytes extended to 64 bits by its sign or with zeros (06 R115). -/
def extendTo (n : Nat) (sgn : Bool) (x : Nat) : Word :=
  if sgn then (BitVec.ofNat (8 * n) x).signExtend 64 else BitVec.ofNat 64 (x % 2 ^ (8 * n))

/-- The register writes and flags of a load whose bytes are all there (06 R115, R117). -/
def LoadReq.result (l : LoadReq) : List RegWrite × Flags :=
  match l.form with
  | .scalar r n sgn => let v := joinElems l.byte l.elems; ([.g r (.data (extendTo n sgn v.1))], v.2)
  | .quad r ldc =>
    let v := joinElems l.byte l.elems
    ([.g r { bits := BitVec.ofNat 128 v.1, tag := l.ownTag.getD l.tag && ldc }], v.2)
  | .vec r w old => let v := laneElems l.byte w old l.elems; ([.v r v.1], v.2)
  | .scale => ([], Flags.none)

/-- Whether a load names one whole raw sector, whose tag it reads (04 R71, 06 R110); 16 bytes of window 6 that lie in two sectors
read tag 0 (DEDUCED, assumption 41). -/
def wholeSector (l : List Elem) : Option Nat :=
  match l with
  | [e] => if e.win = 0 ∧ e.bytes.length = 16 ∧ e.bytes.headD 1 % 16 = 0 then e.bytes.head? else none
  | _ => none

/-- The lines of the die among some locations: those that enter the read signature (01 R16). -/
def onDieLines (d : Nat) (locs : List Nat) : List Nat := ((locs.filter (locOnDie d)).map lineOf).eraseDups

/-- Lines joined to lines there. -/
def joinLines (old new : List Nat) : List Nat := new.foldl (fun l x => if l.contains x then l else l ++ [x]) old

/-- The fill of some sectors of the line of an address starts, if it is mapped and homed on the die and the L1 lacks one of them
(06 R104). -/
def State.l1Fill (s : State) (sid : Nat) (want : BitVec 8) (va : Nat) : State :=
  match s.place (coreOf sid) va with
  | .mapped a =>
    s.onCore (coreOf sid) fun c =>
      let there (v : BitVec 8) : Bool := want &&& ~~~v == 0
      if l1Sets c.msplit.toNat = 0 ∨ (l1Line c.l1 a).any (fun y => there y.valid) then c
      else
        match (s.entryAt (coreOf sid) a).map fun e => s.under e a with
        | some (.ok loc e) =>
          if e.st || !locOnDie (dieOf sid) loc || c.fills.any (fun f => f.line == a / 128 && there f.valid) then c
          else { c with fills := c.fills ++ [{ line := a / 128, frame := loc / 128, w := e.w, valid := want, dirty := 0 }] }
        | _ => c
  | _ => s

/-- A load that hits the L1 is a use of its line; one of a mapped line homed on the die that misses starts the fill of its sector
(06 R104). -/
def State.l1Load (s : State) (sid : Nat) (x : Access) : State :=
  match s.place (coreOf sid) x.va with
  | .mapped a =>
    (s.onCore (coreOf sid) fun c =>
      match l1Find c.l1 a with
      | some y => { c with l1 := touch y c.l1 }
      | none => c).l1Fill sid (1 <<< (a / 16 % 8)) x.va
  | _ => s

/-- An own-die access of a strand to a line of a ramo that the strand has issued and that is not performed: the two are performed
in program order (17 R340, 16 R332). -/
def State.behindRmw (s : State) (sid : Nat) (locs : List Nat) : Bool :=
  s.remotes.any fun r => r.sid == sid && !r.performed && r.failed.isNone && match r.kind with
    | .rmw _ _ loc _ _ _ _ _ => locs.any fun b => locOnDie (dieOf sid) b && lineOf b == lineOf (s.real loc)
    | _ => false

/-- The remote-access unit of a core has no free entry (16 R317). -/
def State.rauFull (s : State) (cid : Nat) : Bool := decide (32 ≤ (s.remotes.filter (·.cid == cid)).length)

/-- The gets that a load sends to other dies and packages (17 R338). -/
def sendNeeds (sid out : Nat) (l : List Need) (s : State) : State :=
  forAll (l.filter (·.port == .remote)) (fun s n => s.addRemote sid (.load out n.locs)) s

/-- Whether an access may join the open chunk under the line limits (01 R16); a chunk with no instruction takes any. -/
def Chunk.takes (c : Chunk) (reads wlines : List Nat) : Bool :=
  c.count == 0 && c.reads == [] && c.wlines == [] ||
    (decide ((joinLines c.reads reads).length ≤ 64) && decide ((joinLines c.wlines wlines).length ≤ 32))

/-- The line limits of the open chunk. -/
def State.lineRoom (s : State) (sid : Nat) (reads wlines : List Nat) : Bool :=
  match (s.strand sid).opened with
  | some c => c.takes reads wlines
  | none => true

/-- The lines entered in the open chunk. -/
def State.enterLines (s : State) (sid : Nat) (reads wlines : List Nat) : State :=
  s.onStrand sid fun t =>
    t.onOpen fun c => { c with reads := joinLines c.reads reads, wlines := joinLines c.wlines wlines }

/-- The request that some elements make, `quad` for the tag of a whole sector. -/
def State.request (s : State) (sid : Nat) (form : LoadForm) (l : List (Access × Elem × Bool)) : LoadReq :=
  let elems := l.map (·.2.1)
  let named := l.flatMap fun x => x.2.1.named x.1.va
  let held := (s.strand sid).held
  let here := (l.filter fun x => (s.portOf sid (x.2.1.bytes.headD 0) x.2.2).isNone).flatMap fun x => x.2.1.locs
  let sector := wholeSector elems
  { form := form, elems := elems,
    need := l.foldl (fun n x => match s.portOf sid (x.2.1.bytes.headD 0) x.2.2 with
      | some p => addNeed n p x.2.2 x.2.1.locs
      | none => n) [],
    got := here.eraseDups.map fun b => (b, readByte s.mem b),
    own := (named.map fun b => (b.1, overByte held b.1 b.2)).filter fun b => b.2.2 != 0,
    tag := match sector with
      | some b => tagAt s.tags (b / 16)
      | none => false,
    ownTag := if sector.isNone then none
      else (held.reverse.find? fun p => named.any fun b => (p.over b.1 b.2).isSome).map (·.tag) }

/-- A register that settles to zero. -/
def zeroWrite : RegName → RegWrite
  | .g n => .g n (.data 0)
  | .v n => .v n 0

/-- A load whose checks have passed (06 R115, R117): it enters the read signature, reads what is at hand, sends for the
rest, and leaves its destinations pending. One that cannot reach its target settles to zero and is a machine check (16
R327). -/
def State.startLoad (s : State) (sid : Nat) (accs : List Access) (form : LoadForm) (dsts : List RegName) : Act :=
  let l := accs.flatMap fun x => let e := s.elemsOf sid x; e.1.map fun y => (x, y, e.2)
  let named := l.flatMap fun x => x.2.1.named x.1.va
  let r := s.request sid form l
  let locs := l.flatMap fun x => x.2.1.locs
  let reads := onDieLines (dieOf sid) locs
  if (s.strand sid).held.any (fun p => p.encoding && named.any fun b => (p.over b.1 b.2).isSome) then
    .hold (s.waiting .encode)
  else if s.behindRmw sid locs then .hold (s.waiting .instr)
  else if !s.lineRoom sid reads [] then .hold (s.waiting .lineLimit)
  else if r.need.any (·.port == .remote) && s.rauFull (coreOf sid) then .hold (s.waiting .full)
  else
    let out := s.serial
    let s := forAll accs (fun s x => (s.touchAccess sid false x).l1Load sid x) s
    let lost := (l.filter fun x => (s.portOf sid (x.2.1.bytes.headD 0) x.2.2).isNone).findSome? fun x =>
      x.2.1.locs.find? fun b => !s.reachable (dieOf sid) b
    match lost with
    | some b => .done ((s.setPending dsts (.ready (dsts.map zeroWrite) Flags.none)).memoryCheck sid b)
    | none => .done (sendNeeds sid out r.need ((s.enterLines sid reads []).setPending dsts (.load r)))

/-! ## Stores -/

/-- A value of at most 16 bytes written to the first `n` bytes of a run. -/
def bitsFor (n : Nat) : BitVec 128 := BitVec.ofNat 128 (2 ^ (8 * n) - 1)

/-- Held stores of raw bytes of a scratchpad: one if they lie in one sector, else one for each byte, with tag 0. -/
def rawPieces (ok : Bool) (cid : Nat) (raws : List Nat) (v : BitVec 128) (tag : Bool) : List Piece :=
  let first := raws.headD 0
  let xl (r : Nat) : Xl := if ok then .ok (padLoc cid (r / 16 * 16)) else .failed 3
  if raws.all (fun r => r / 16 == first / 16) then
    [{ addr := BitVec.ofNat 64 (padVA cid (first / 16 * 16)), xl := xl first, data := v <<< (8 * (first % 16)),
       bits := bitsFor raws.length <<< (8 * (first % 16)), tag := tag }]
  else
    raws.zipIdx.map fun r =>
      { addr := BitVec.ofNat 64 (padVA cid (r.1 / 16 * 16)), xl := xl r.1,
        data := (byteOf v r.2).setWidth 128 <<< (8 * (r.1 % 16)), bits := bitsFor 1 <<< (8 * (r.1 % 16)), tag := false }

/-- The raw pattern of an element store and its flags (06 R109). -/
def encodeElem (win frm u : Nat) (x : BitVec 32) (scale : Nat) : Nat × Flags :=
  match win with
  | 1 => encodeScaled 8 frm u x scale
  | 2 => encodeScaled 6 frm u x scale
  | 3 => let r := toBf16 frm x; (r.1.toNat, r.2)
  | 4 => let r := toFp16 frm x; (r.1.toNat, r.2)
  | _ =>
    let i := x.toInt
    let c := max (-128) (min 127 i)
    ((BitVec.ofInt 8 c).toNat, if c = i then Flags.none else Flags.sat1)

/-- The bits of an element's raw bytes that belong to it (06 R107, 11 R204). -/
def elemBits (win pos : Nat) : Nat :=
  match win with
  | 2 => 63 * 2 ^ (6 * pos)
  | 3 | 4 => 65535
  | _ => 255

/-- An element's pattern at its place among its raw bytes. -/
def elemPlace (win pos pat : Nat) : Nat := if win = 2 then pat * 2 ^ (6 * pos) else pat

/-- A run of bits that begins `shift` bytes after the start of the sector before, as the sector holds it. -/
def placeBits (x shift : Nat) : BitVec 128 := BitVec.ofNat 128 (x * 2 ^ (8 * shift) / 2 ^ 128)

/-- The sectors that `n` raw bytes from an offset on lie in, each with the distance from 16 bytes before it to them. -/
def rawSectors (raw n : Nat) : List (Nat × Nat) :=
  if raw % 16 + n ≤ 16 then [(raw / 16 * 16, raw % 16 + 16)]
  else [(raw / 16 * 16, raw % 16 + 16), (raw / 16 * 16 + 16, raw % 16)]

/-- What a store writes of element `j` of an access through windows 1 to 5: a piece for each sector that its bits lie in, and its flags
(06 R109, R113). `frm` and the draws are fixed at issue (06 R113, 11 R207). -/
def State.elemWrites (s : State) (sid cid win off : Nat) (ok : Bool) (lane j : Nat) (v : BitVec 128) : List Piece × Flags :=
  let size := s.padSize cid
  let i := off / 4 + j
  let raw := ((padBytes win (off + 4 * j) 4 size (s.sclbase sid)).head?.map (·.2)).getD 0
  let y : BitVec 32 := v.extractLsb' (32 * j) 32
  let frm := (s.arch sid).frm.toNat % 8
  let u := srDraw (s.arch sid).srseed (lane + j)
  let scale := padLoc cid (scaleRaw i size (s.sclbase sid))
  let later := ok && decide (win ≤ 2) && cid != s.owner (coreOf sid)
  let e := encodeElem win frm u y (readByte s.mem scale).toNat
  let piece (x : Nat × Nat) : Piece :=
    { addr := BitVec.ofNat 64 (padVA cid x.1)
      xl := if later then .encoding s.serial (padLoc cid x.1) scale x.2 win (i % 4) y frm u
        else if ok then .ok (padLoc cid x.1) else .failed 3
      data := if later then 0 else placeBits (elemPlace win (i % 4) e.1) x.2
      bits := placeBits (elemBits win (i % 4)) x.2
      tag := false }
  (((rawSectors raw (if win = 2 then 3 else if win = 3 ∨ win = 4 then 2 else 1)).map piece).filter fun p => p.bits != 0,
   if ok && !later then e.2 else Flags.none)

/-- What a store writes of one access: the pieces in ascending order, and their flags (06 R109, R113, R116). -/
def State.writesOf (s : State) (sid : Nat) (x : Access) (v : BitVec 128) (tag : Bool) : List Piece × Flags :=
  let plain (a : Nat) (xl : Xl) : List Piece × Flags :=
    ([{ addr := BitVec.ofNat 64 (a / 16 * 16), xl := xl, data := v <<< (8 * (a % 16)), bits := bitsFor x.n <<< (8 * (a % 16)),
        tag := tag }], Flags.none)
  match s.place (coreOf sid) x.va with
  | .hole => plain x.va (.failed 3)
  | .mapped a =>
    plain a (match s.transStore sid a with
      | .ok loc => .ok (loc / 16 * 16)
      | r => r)
  | .pad cid win off =>
    let ok := decide (off + x.n ≤ windowBytes win (s.padSize cid))
    if coded win then
      (List.range (x.n / 4)).foldl (fun r j =>
        let e := s.elemWrites sid cid win off ok x.lane j v
        (r.1 ++ e.1, r.2.add e.2)) ([], Flags.none)
    else if ok then
      let raws := (padBytes win off x.n (s.padSize cid) (s.sclbase sid)).map (·.2)
      (rawPieces true cid raws v (tag && raws.headD 1 % 16 == 0), Flags.none)
    else plain x.va (.failed 3)

/-- A piece joined to an earlier one of the instruction that has the same sector and the same outcome, its bits over the
earlier ones: a vector store writes each sector that it touches as one (06 R112, 08 R160). A piece still to be encoded stays
alone. -/
def joinPiece (l : List Piece) (p : Piece) : List Piece :=
  let same (q : Piece) : Bool := q.addr == p.addr && q.xl == p.xl && !q.encoding && !q.tag && !p.tag
  if l.any same then
    l.map fun q => if same q then { q with data := (q.data &&& ~~~p.bits) ||| (p.data &&& p.bits), bits := q.bits ||| p.bits } else q
  else l ++ [p]

/-- A write in place to the own scratchpad: the sector as it was goes to the undo log once for each chunk (06 R103). -/
def State.writeOwn (s : State) (sid loc : Nat) (data bits : BitVec 128) (tag : Bool) : State :=
  let s' := s.onStrand sid fun t =>
    t.onOpen fun c =>
      { c with undo := if c.undo.any (·.loc == loc) then c.undo
          else c.undo ++ [{ loc := loc, data := (s.sector loc).bits, tag := (s.sector loc).tag }] }
  s'.writeSector loc data bits tag

/-- A piece that lies in the own scratchpad. -/
def State.ownPiece (s : State) (sid : Nat) (p : Piece) : Option Nat :=
  match p.xl with
  | .ok loc => if padOrigin ≤ loc ∧ padCore loc = s.owner (coreOf sid) then some loc else none
  | _ => none

/-- A piece written in place, or held until its chunk's commit (06 R103, R113). -/
def State.putPiece (sid : Nat) (s : State) (p : Piece) : State :=
  match s.ownPiece sid p with
  | some loc => s.writeOwn sid loc p.data p.bits p.tag
  | none => s.onStrand sid fun t => t.onOpen fun c => { c with held := c.held ++ [p] }

/-- The line that a piece counts toward the written lines (01 R16); a mapped one by its virtual line. -/
def Piece.line (p : Piece) : Nat :=
  match p.xl with
  | .ok loc => if padOrigin ≤ loc then 2 * lineOf loc + 1 else 2 * (p.addr.toNat / 128)
  | .encoding _ loc _ _ _ _ _ _ _ => 2 * lineOf loc + 1
  | _ => 2 * (p.addr.toNat / 128)

/-! ## Trailed stores (20 R379, R380) -/

/-- The raw offsets of the own scratchpad that an access writes bits of; none if it lies elsewhere. -/
def State.trailBytes (s : State) (sid : Nat) (x : Access) : Option (List Nat) :=
  match s.place (coreOf sid) x.va with
  | .pad cid win off =>
    if cid = s.owner (coreOf sid) ∧ off + x.n ≤ windowBytes win (s.padSize cid) then
      if win = 2 then
        some ((List.range (x.n / 4)).flatMap fun j =>
          let i := off / 4 + j
          let g := 3 * (i / 4)
          match i % 4 with
          | 0 => [g]
          | 1 => [g, g + 1]
          | 2 => [g + 1, g + 2]
          | _ => [g + 2])
      else some ((padBytes win off x.n (s.padSize cid) (s.sclbase sid)).map (·.2))
    else none
  | _ => none

/-- The location of a choice point (20 R373). -/
def State.cpLoc (s : State) (sid d : Nat) : Nat := padLoc (s.owner (coreOf sid)) ((s.arch sid).cpBase + 512 * d)

/-- A 16-byte field of a choice point with its tag bit of the tags field (20 R376). -/
def State.cpCap (s : State) (loc off bit : Nat) : Reg :=
  { bits := BitVec.ofNat 128 (readNat s.mem (loc + off) 16), tag := readNat s.mem (loc + 0x1C) 4 / 2 ^ bit % 2 == 1 }

/-- The raw offset of the base of an area in window 0 (20 R385). -/
def Reg.rawBase (a : Reg) : Nat := (a.base % 0x400000).toNat

/-- The words that a trailed store records, or what stops it (20 R379). -/
def State.trailWords (s : State) (sid : Nat) (accs : List Access) : Except Stop (List Nat) :=
  let a := s.arch sid
  let area := s.cpCap (s.cpLoc sid (a.cpdepth.toNat - 1)) 0x20 30
  let lo := area.rawBase
  let hi := lo + area.length
  match accs.find? fun x => match s.trailBytes sid x with
      | some bs => bs.any fun b => decide (b < lo) || decide (hi ≤ b)
      | none => true with
  | some x => .error (.at .capperm x.va)
  | none =>
    let bs := accs.flatMap fun x => (s.trailBytes sid x).getD []
    let ws := bs.foldl (fun l b => insertNat (b / 8) l) []
    if a.trLimit < a.trTop + ws.length then .error (.at .trailfull ((accs.head?.map (·.va)).getD 0))
    else .ok ws

/-- One trail entry written for a word (20 R380). -/
def State.trailWord (sid : Nat) (s : State) (w : Nat) : State :=
  let a := s.arch sid
  let cid := s.owner (coreOf sid)
  let loc := padLoc cid (8 * w)
  let entry : BitVec 128 := BitVec.ofNat 128 (readNat s.mem loc 8 * 2 ^ 64 + 8 * w +
    (if tagAt s.tags (loc / 16) then 1 else 0))
  (s.writeOwn sid (padLoc cid (a.trBase + 16 * a.trTop)) entry (BitVec.allOnes 128) false).onArch sid fun a =>
    a.setTop (a.trTop + 1)

/-- The words that a store through a capability must record first (20 R379); none without TRY or without choice points. -/
def State.trailPlan (s : State) (sid : Nat) (c : Reg) (accs : List Access) : Except Stop (List Nat) :=
  if c.perm permTRY && (s.arch sid).cpdepth != 0 && accs != [] then s.trailWords sid accs else .ok []

/-- The lines that trail entries are written to. -/
def State.trailLines (s : State) (sid n : Nat) : List Nat :=
  ((List.range n).map fun k =>
    2 * lineOf (padLoc (s.owner (coreOf sid)) ((s.arch sid).trBase + 16 * ((s.arch sid).trTop + k))) + 1).eraseDups

/-- SRSEED advances once if the instruction encodes a T8 or T6 element under FRM 5 (11 R207). -/
def State.advanceSeed (s : State) (sid : Nat) (accs : List Access) : State :=
  if (s.arch sid).frm.toNat % 8 = 5 ∧ accs.any (fun x => match s.place (coreOf sid) x.va with
      | .pad _ win _ => win == 1 || win == 2
      | _ => false) then s.onArch sid fun a => { a with srseed := srNext a.srseed }
  else s

/-- The scale bytes that a store's elements still need, as a result of its own (06 R113); `own` are the bits that the strand's
earlier stores hold over them (06 R115). -/
def State.scaleNeeds (s : State) (sid : Nat) (ps : List Piece) (own : List (Nat × Byte × Byte)) : State :=
  let l := ps.filterMap fun p => match p.xl with
    | .encoding _ _ sc _ _ _ _ _ _ => some sc
    | _ => none
  if l = [] then s
  else
    let need := l.eraseDups.foldl (fun n sc => match s.portOf sid sc false with
      | some p => addNeed n p false [sc]
      | none => n) []
    let out := s.serial
    sendNeeds sid out need (s.setPending [] (.load
      { form := .scale, elems := [], need := need, got := [], own := own.filter fun b => l.contains b.1, tag := false,
        ownTag := none }))

/-- The scale bytes of a store, by location (06 R108). -/
def State.scaleLocs (s : State) (sid : Nat) (xs : List Access) : List Nat :=
  xs.flatMap fun x => match s.place (coreOf sid) x.va with
    | .pad cid win off => (scaleBytes win off x.n (s.padSize cid) (s.sclbase sid)).map fun b => padLoc cid b.2
    | _ => []

/-- The pieces of a store's accesses, lanes ascending, and their flags (06 R117). -/
def State.piecesOf (s : State) (sid : Nat) (accs : List (Access × BitVec 128)) (tag : Bool) : List Piece × Flags :=
  accs.foldl (fun r x => let p := s.writesOf sid x.1 x.2 tag; (p.1.foldl joinPiece r.1, r.2.add p.2)) ([], Flags.none)

/-- A location that names no mapped address, by which held stores to a scratchpad are found. -/
def noVA : Nat := 2 ^ 64

/-- A store whose checks have passed (06 R116, R117): `v` gives the value of each access. -/
def State.startStore (s : State) (sid : Nat) (c : Reg) (accs : List (Access × BitVec 128)) (tag : Bool) : Act :=
  let xs := accs.map (·.1)
  match s.trailPlan sid c xs with
  | .error e => e.act s
  | .ok words =>
    let w := s.piecesOf sid accs tag
    let scaleAt := s.scaleLocs sid xs
    let scales := onDieLines (dieOf sid) scaleAt
    let wl := s.trailLines sid words.length ++ w.1.map (·.line)
    let held := (s.strand sid).held
    if held.any (fun p => p.encoding && scaleAt.any fun b => (p.over b noVA).isSome) then .hold (s.waiting .encode)
    else if s.behindRmw sid (w.1.filterMap fun p => match p.xl with
        | .ok loc => some loc
        | _ => none) then .hold (s.waiting .instr)
    else if !s.lineRoom sid scales wl then .hold (s.waiting .lineLimit)
    else if w.1.any Piece.encoding && s.rauFull (coreOf sid) then .hold (s.waiting .full)
    else
      let own := (scaleAt.eraseDups.map fun b => (b, overByte held b noVA)).filter fun b => b.2.2 != 0
      let s := forAll xs (fun s x => s.touchAccess sid true x) (s.enterLines sid scales wl)
      let s := forAll words (State.trailWord sid) s
      let s := (forAll w.1 (State.putPiece sid) s).scaleNeeds sid w.1 own
      .done ((s.advanceSeed sid xs).onArch sid (·.raise w.2))

/-- A piece whose scale byte has arrived, encoded (06 R109, R113). -/
def Piece.encode (out : Nat) (byte : Nat → Byte) (p : Piece) : Piece × Flags :=
  match p.xl with
  | .encoding o loc sc shift win pos x frm u =>
    if o = out then
      let e := encodeElem win frm u x (byte sc).toNat
      ({ p with xl := .ok loc, data := placeBits (elemPlace win pos e.1) shift },
       if 16 ≤ shift then e.2 else Flags.none)
    else (p, Flags.none)
  | _ => (p, Flags.none)

/-! ## Whole areas, moved at once by ctx.save, ctx.load, mld and mst (07 R139, 13 R255) -/

/-- The location of the 16 bytes at an address of such an area: windows 0 and 6 of a scratchpad (06 R110), or mapped memory, which a
store may write only under W. -/
def State.areaLoc (s : State) (sid : Nat) (store : Bool) (a : Nat) : Option Nat :=
  match s.place (coreOf sid) a with
  | .hole => none
  | .pad cid win off =>
    let size := s.padSize cid
    if (win = 0 ∨ win = 6) ∧ off + 16 ≤ size then some (padLoc cid (if win = 6 then (s.sclbase sid + off) % size else off))
    else none
  | .mapped va =>
    match s.entryAt (coreOf sid) va with
    | none => none
    | some e =>
      if store && (!e.w || e.st) then none
      else match s.under e va with
        | .ok loc _ => some loc
        | _ => none

/-- The locations of the `n` sectors from an address on, or the first address without one. -/
def State.areaLocs (s : State) (sid : Nat) (store : Bool) (a : Nat) : Nat → Except Nat (List Nat)
  | 0 => .ok []
  | n + 1 =>
    match s.areaLoc sid store a with
    | none => .error a
    | some l =>
      match s.areaLocs sid store (a + 16) n with
      | .ok ls => .ok (l :: ls)
      | .error e => .error e

/-- The raw bytes of an area of `len` bytes of a scratchpad, each with its position. -/
def State.areaBytes (s : State) (sid cid win off len : Nat) : List (Nat × Nat) :=
  padBytes (if win = 6 then 6 else 0) off len (s.padSize cid) (s.sclbase sid)

/-- An area of at most 32 KB of mapped memory that touches the shadow half of a stamped page (19 R360). -/
def State.shadowArea (s : State) (sid va len : Nat) : Bool :=
  [va, va + (len - 1)].any fun x => decide (32768 ≤ x % 65536) && s.stampedAt sid x

/-- The protected areas, the PLB and the shadow half of a stamped page for an area of `len` bytes: the state after the fills of the
PLB, and what stops the access (06 R114 step 3, 19 R360). -/
def State.areaRights (s : State) (sid : Nat) (right : List Right) (a len : Nat) : State × Option Stop :=
  match s.place (coreOf sid) a with
  | .hole => (s, none)
  | .pad cid win off =>
    if !(s.arch sid).smode && (s.areaBytes sid cid win off len).any fun b => s.protectedRaw cid b.2 then
      (s, some (.at .capbnd a))
    else (s, none)
  | .mapped va =>
    match s.plbRange sid right (va + len) va (len / 2 ^ 20 + 2) with
    | (s, false) => (s, some (.at .plb a))
    | (s, true) => (s, if s.shadowArea sid va len then some (.at .align a) else none)

/-- Those checks and the range locks (06 R114 steps 3 and 4). -/
def State.areaCheck (s : State) (sid : Nat) (store : Bool) (right : List Right) (a len : Nat) : State × Option Stop :=
  match s.areaRights sid right a len with
  | (s, some e) => (s, some e)
  | (s, none) =>
    (s, match s.place (coreOf sid) a with
      | .hole => none
      | .pad cid win off =>
        ((s.quire (quireOf sid)).rangeHit (cid + 1) a store (s.areaBytes sid cid win off len)).map (Stop.at .range)
      | .mapped va =>
        ((s.quire (quireOf sid)).rangeHit 0 a store ((List.range len).map fun j => (j, va + j))).map (Stop.at .range))

/-- The die that holds the versions of a line and serves its reads (19 R361): its home. F0 stands for the homes of the other packages
(DESIGN CHOICE, assumption 6). -/
def stampHome (loc : Nat) : Nat := (homeDie loc).getD 8

/-- L of a read that arrives now: the home die's latest (19 R363). -/
def State.arriveL (s : State) (loc : Nat) : Nat := (s.die (stampHome (s.real loc))).latest

/-- A read of a stamped line that arrived with L may be served (19 R363). -/
def State.mayServe (s : State) (loc l : Nat) : Bool :=
  let loc := s.real loc
  let d := s.die (stampHome loc)
  decide (l < d.horizon) && d.versions.all fun v => !(lineOf v.loc == lineOf loc && decide (v.stamp ≤ l))

/-- What the read of an area on a stamped page waits for: its lines are served under 19 R363, all together, with the greatest L of
their homes (DEDUCED, assumption 45). -/
def State.serveArea (s : State) (sid a len : Nat) (locs : List Nat) : Option Wait :=
  match s.place (coreOf sid) a with
  | .mapped va =>
    if !(s.stampedAt sid va || s.stampedAt sid (va + (len - 1))) then none
    else match (s.strand sid).wait with
      | .stamps l => if locs.all fun x => s.mayServe x l then none else some (.stamps l)
      | _ => some (.stamps (locs.foldl (fun m x => max m (s.arriveL x)) 0))
  | _ => none

/-- A record of `len` bytes in memory that an instruction reads or writes whole: CheckCap, alignment, the rights, with `range` the
range locks, the translation, and for a read of a stamped page its service. The state after the fills of the PLB, and its sectors
or what stops the instruction. A record in windows 1 to 5 or 7 traps ALIGN (06 R110) (DEDUCED, assumption 22). -/
def State.recordArea (s : State) (c : Reg) (len al : Nat) (perms : List Nat) (store range : Bool) :
    State × Except Stop (List Nat) :=
  let a := c.cursor
  match checkCap (s.arch s.cur).smode c a len perms 0 with
  | some cause => (s, .error (.at cause a))
  | none =>
    let coded := match s.place (coreOf s.cur) a with
      | .pad _ win _ => win != 0 && win != 6
      | _ => false
    let right : List Right := [if store then .w else .r]
    if a % al != 0 || coded then (s, .error (.at .align a))
    else match (if range then s.areaCheck s.cur store right a len else s.areaRights s.cur right a len) with
      | (s, some x) => (s, .error x)
      | (s, none) =>
        match s.areaLocs s.cur store a ((len + 15) / 16) with
        | .error x => (s, .error (.at .pgflt x))
        | .ok l =>
          (s, match (if store then none else s.serveArea s.cur a len l) with
            | some w => .error (.wait w)
            | none => .ok l)

/-- The locations of a run of bytes; a run in a scratchpad may wrap through window 6 (06 R108). -/
def State.runLocs (s : State) (loc n : Nat) : List Nat :=
  if padOrigin ≤ loc then
    (List.range n).map fun k => padLoc (padCore loc) ((padRaw loc + k) % max 1 (s.padSize (padCore loc)))
  else (List.range n).map (loc + ·)

/-- The 16 bytes at a location as an observer reads them. Through window 6 they may begin within a sector, and then have no tag
(DEDUCED, assumption 41). -/
def State.sectorAt (s : State) (loc : Nat) : Reg :=
  if loc % 16 = 0 then s.sector (s.real loc)
  else { bits := BitVec.ofNat 128 (natOfBytes ((s.runLocs loc 16).map fun b => readByte s.mem b)), tag := false }

/-- The 16 bytes at a location written; what begins within a sector leaves no tag. -/
def State.putSector (s : State) (loc : Nat) (x : Reg) : State :=
  if loc % 16 = 0 then s.writeSector (s.real loc) x.bits (BitVec.allOnes 128) x.tag
  else forAll ((s.runLocs loc 16).zipIdx) (fun s b => s.store b.1 [byteOf x.bits b.2]) s

/-- Sectors written at their homes as places of their own: the readers of each die are squashed (17 R334, R337). -/
def State.placeSectors (s : State) (self : Option Nat) (l : List (Nat × Reg)) : State :=
  let s := forAll l (fun s x => s.putSector x.1 x.2) s
  let at_ := l.flatMap fun x => [s.real x.1, s.real x.1 + (if x.1 % 16 = 0 then 0 else 15)]
  forAll (s.dies.map (·.1)) (fun s d =>
    s.squashReaders d ((at_.filter (locOnDie d)).map lineOf).eraseDups self) s

/-- Why sectors cannot be written now: an uncommitted chunk of another strand has written one in place (06 R113), or it lies
in the read signature of a pinned chunk (17 R337). -/
def State.sectorsHeld (s : State) (self : Option Nat) (l : List Nat) : Option Wait :=
  let l := l.map s.real
  match l.findSome? (s.padWriter self) with
  | some w => some (.chunk w)
  | none =>
    if s.dies.any fun d => s.placeBlocked d.1 ((l.filter (locOnDie d.1)).map lineOf).eraseDups self then some .instr else none

end Sys2Proof.Machine
end

