-- ==== Sys2Proof/Machine/Fetch.lean ====
section
/-! DEFINITION. Instruction fetch (05 R88, R89, 08 R153) and repeat frames: which words may stand in one (05 R94), how their
register fields step (05 R95), the words of a frame and its context (05 R96 to R98). -/

namespace Sys2Proof.Machine

open Sys2Proof

/-! ## Fetch -/

/-- A word fetched, or what keeps it from being fetched. -/
inductive Fetched where
  | word (w : BitVec 32)
  | stop (e : Stop)
  deriving DecidableEq, Repr

/-- The word at an address of a cached line. -/
def ILine.word (l : ILine) (a : Nat) : BitVec 32 := l.data.extractLsb' (8 * (a % 128)) 32

/-- Fetch of 05 R88 under a PCC: CheckCap with alignment, the PLB's X, then the instruction cache; a miss waits for the line
(05 R89). A scratchpad is read without the cache, which holds lines of mapped memory (DEDUCED, assumption 38). -/
def State.fetchWord (s : State) (sid : Nat) (pcc : Reg) (a : Nat) : Fetched :=
  match checkCap (s.arch sid).smode pcc a 4 [permX] 4 with
  | some cause => .stop (.at cause a)
  | none =>
    match s.place (coreOf sid) a with
    | .hole => .stop (.at .pgflt a)
    | .pad cid win off =>
      if windowBytes win (s.padSize cid) < off + 4 then .stop (.at .pgflt a)
      else .word (BitVec.ofNat 32 (joinElems (readByte s.mem) (s.elemsOf sid { lane := 0, va := a, n := 4 }).1).1)
    | .mapped va =>
      match s.plbCheck sid va [.x] with
      | .denied => .stop (.at .plb va)
      | .miss => .stop (.wait (.plb va (s.strand sid).wait.got))
      | .granted =>
        match (s.core (coreOf sid)).icache.find? (·.line == va / 128) with
        | some l => .word (l.word va)
        | none => .stop (.wait (.fetch va))

/-- A fetch that does not wait: what a fill of the PLB and of the instruction cache would bring is read at once. -/
def State.fetchNow (s : State) (sid : Nat) (pcc : Reg) (a : Nat) : Fetched :=
  match s.fetchWord sid pcc a with
  | .stop (.wait _) =>
    let cid := coreOf sid
    let dom := (s.strand sid).domain.toNat
    match s.place cid a with
    | .mapped va =>
      match (plbFind (s.core cid).plb dom va).or (s.plbLookup cid dom va) with
      | none => .stop (.at .plb va)
      | some p =>
        if !p.x then .stop (.at .plb va)
        else match (s.entryAt cid va).map fun e => s.under e va with
          | some (.ok loc e) =>
            if e.st && decide (32768 ≤ va % 65536) then .stop (.at .align va)
            else .word (BitVec.ofNat 32 (natOfBytes ((List.range 4).map fun j => s.byteAt (loc + j))))
          | _ => .stop (.at .pgflt va)
    | _ => .stop (.at .pgflt a)
  | x => x

/-- The use of a line by a fetch makes it, and the PLB entry that grants the fetch, the most recently used (05 R89, 08 R154). -/
def State.touchLine (s : State) (sid a : Nat) : State :=
  (s.usePlb sid a).onCore (coreOf sid) fun c =>
    match c.icache.find? (·.line == a / 128) with
    | some l => { c with icache := l :: c.icache.filter fun x => x.line != l.line }
    | none => c

/-- The fetch of `n` words from an address on uses their lines (05 R89, R96). -/
def State.touchWords (s : State) (sid a n : Nat) : State := forAll (List.range n) (fun s j => s.touchLine sid (a + 4 * j)) s

/-- A line put into the instruction cache: 8 ways of the set of bits [11:7], least recently used out (05 R89). -/
def cacheLine (x : ILine) (l : List ILine) : List ILine :=
  let same := l.filter fun y => y.line % 32 == x.line % 32 && y.line != x.line
  x :: l.filter fun y => y.line != x.line && (y.line % 32 != x.line % 32 || (same.take 7).contains y)

/-! ## Repeat frames -/

/-- The instructions that may stand in a frame (05 R94). -/
def framed : Instr → Bool
  | .add _ _ _ => true
  | .sub _ _ _ => true
  | .mul _ _ _ => true
  | .mulh _ _ _ => true
  | .mulhz _ _ _ => true
  | .div _ _ _ => true
  | .divz _ _ _ => true
  | .rem _ _ _ => true
  | .remz _ _ _ => true
  | .and _ _ _ => true
  | .or _ _ _ => true
  | .xor _ _ _ => true
  | .andn _ _ _ => true
  | .shl _ _ _ => true
  | .shr _ _ _ => true
  | .sha _ _ _ => true
  | .rol _ _ _ => true
  | .min _ _ _ => true
  | .max _ _ _ => true
  | .minz _ _ _ => true
  | .maxz _ _ _ => true
  | .clz _ _ => true
  | .ctz _ _ => true
  | .popc _ _ => true
  | .mov _ _ => true
  | .sel _ _ _ => true
  | .addI _ _ _ => true
  | .andI _ _ _ => true
  | .orI _ _ _ => true
  | .xorI _ _ _ => true
  | .shlI _ _ _ => true
  | .shrI _ _ _ => true
  | .shaI _ _ _ => true
  | .rolI _ _ _ => true
  | .li _ _ => true
  | .lis _ _ => true
  | .setEq _ _ _ => true
  | .setNe _ _ _ => true
  | .setLt _ _ _ => true
  | .setGe _ _ _ => true
  | .setLo _ _ _ => true
  | .setHs _ _ _ => true
  | .cincr _ _ _ => true
  | .cset _ _ _ => true
  | .cbnd _ _ _ => true
  | .cbndr _ _ _ => true
  | .cperm _ _ _ => true
  | .cseal _ _ _ => true
  | .cunseal _ _ _ => true
  | .cbase _ _ => true
  | .clen _ _ => true
  | .cperms _ _ => true
  | .ctag _ _ => true
  | .cclr _ _ => true
  | .ceq _ _ _ => true
  | .csub _ _ _ => true
  | .cincrI _ _ _ => true
  | .nop => true
  | .ldB _ _ _ => true
  | .ldBz _ _ _ => true
  | .ldH _ _ _ => true
  | .ldHz _ _ _ => true
  | .ldW _ _ _ => true
  | .ldWz _ _ _ => true
  | .ldD _ _ _ => true
  | .ldQ _ _ _ => true
  | .stB _ _ _ => true
  | .stH _ _ _ => true
  | .stW _ _ _ => true
  | .stD _ _ _ => true
  | .stQ _ _ _ => true
  | .stc _ _ _ => true
  | .vld _ _ _ _ _ => true
  | .vst _ _ _ _ => true
  | .vldS _ _ _ _ _ _ => true
  | .vstS _ _ _ _ _ => true
  | .vldX _ _ _ _ _ _ => true
  | .vstX _ _ _ _ _ => true
  | .vldB _ _ _ _ _ => true
  | .vldH _ _ _ _ _ => true
  | .vstH _ _ _ _ => true
  | .vldHs _ _ _ _ _ _ => true
  | .vstHs _ _ _ _ _ => true
  | .vldHx _ _ _ _ _ _ => true
  | .vstHx _ _ _ _ _ => true
  | .pref _ _ => true
  | .cln _ _ => true
  | .inv _ _ => true
  | .csrr _ _ => true
  | .vadd _ _ _ _ _ _ => true
  | .vsub _ _ _ _ _ _ => true
  | .vmul _ _ _ _ _ _ => true
  | .vfma _ _ _ _ _ _ => true
  | .vfms _ _ _ _ _ _ => true
  | .vfnma _ _ _ _ _ _ => true
  | .vmin _ _ _ _ _ _ => true
  | .vmax _ _ _ _ _ _ => true
  | .vabs _ _ _ _ _ => true
  | .vneg _ _ _ _ _ => true
  | .vcmpEq _ _ _ _ _ _ => true
  | .vcmpLt _ _ _ _ _ _ => true
  | .vcmpLe _ _ _ _ _ _ => true
  | .vcmpUn _ _ _ _ _ _ => true
  | .vrcpE _ _ _ _ _ => true
  | .vrsqE _ _ _ _ _ => true
  | .vgexp _ _ _ _ _ => true
  | .vscl _ _ _ _ _ _ => true
  | .vrnd _ _ _ _ _ => true
  | .vsel _ _ _ _ => true
  | .vredsum _ _ _ _ => true
  | .vredmax _ _ _ _ => true
  | .vredmin _ _ _ _ => true
  | .vaddI _ _ _ _ _ _ => true
  | .vsubI _ _ _ _ _ _ => true
  | .vmulI _ _ _ _ _ _ => true
  | .vand _ _ _ _ _ _ => true
  | .vor _ _ _ _ _ _ => true
  | .vxor _ _ _ _ _ _ => true
  | .vshl _ _ _ _ _ _ => true
  | .vshr _ _ _ _ _ _ => true
  | .vsha _ _ _ _ _ _ => true
  | .vminI _ _ _ _ _ _ => true
  | .vmaxI _ _ _ _ _ _ => true
  | .vcmpIeq _ _ _ _ _ _ => true
  | .vcmpIlt _ _ _ _ _ _ => true
  | .vcmpIlo _ _ _ _ _ _ => true
  | .vredaddI _ _ _ _ => true
  | .vperm _ _ _ _ _ _ => true
  | .vbc _ _ _ _ _ => true
  | .vaddS _ _ _ _ _ _ => true
  | .vmulS _ _ _ _ _ _ => true
  | .vfmaS _ _ _ _ _ _ => true
  | .vslup _ _ _ _ _ _ => true
  | .vsldn _ _ _ _ _ _ => true
  | .vidx _ _ _ _ _ => true
  | .vext _ _ _ => true
  | .vins _ _ _ => true
  | .mpopc _ _ => true
  | .mfirst _ _ => true
  | .vcvtI2f _ _ _ _ _ => true
  | .vcvtF2i _ _ _ _ _ => true
  | .vcvtF2bf _ _ _ _ _ _ => true
  | .vcvtBf2f _ _ _ _ _ => true
  | .vcvtF2h _ _ _ _ _ _ => true
  | .vcvtH2f _ _ _ _ _ => true
  | .clkRd _ _ => true
  | .stpRd _ _ => true
  | _ => false

/-- The numbers that name a CSR (03 R60, 07 R125, 08 R154, R155, 14 R263). -/
def csrAssigned (csr : Nat) : Bool :=
  csr < 5 || (0x010 ≤ csr && csr < 0x014) || csr == 0x020 || csr == 0x021 || (0x030 ≤ csr && csr < 0x036) || csr == 0x040 ||
  (0x050 ≤ csr && csr < 0x053) || csr == 0x060 || (0x070 ≤ csr && csr < 0x078) || csr == 0x080 || csr == 0x090 || csr == 0x0A0 ||
  (0x130 ≤ csr && csr < 0x138) || (0x140 ≤ csr && csr < 0x143) || csr == 0x150

/-- An instruction that traps ILL whatever its registers hold, in a mode: csrr of a number that names no CSR (03 R60), clk.rd
into one register twice (19 R365). -/
def trapsIll (smode : Bool) : Instr → Bool
  | .csrr _ csr => !csrAssigned csr.toNat && (smode || csr.toNat < 0x100)
  | .clkRd x y => x == y && x != 0
  | _ => false

/-- Permitted of 05 R94, in a mode. -/
def permittedWord (smode : Bool) (w : BitVec 32) : Bool :=
  match decode w with
  | .ok i => framed i && !trapsIll smode i
  | .error _ => false

/-- A frame instruction with its register fields increased (05 R95): the destination field by `p`, the first source field by
`q`, the second by `r`, each modulo the size of its file. -/
def stepInstr (p q r : Nat) : Instr → Instr
  | .add d a b => .add (d + BitVec.ofNat 6 p) (a + BitVec.ofNat 6 q) (b + BitVec.ofNat 6 r)
  | .sub d a b => .sub (d + BitVec.ofNat 6 p) (a + BitVec.ofNat 6 q) (b + BitVec.ofNat 6 r)
  | .mul d a b => .mul (d + BitVec.ofNat 6 p) (a + BitVec.ofNat 6 q) (b + BitVec.ofNat 6 r)
  | .mulh d a b => .mulh (d + BitVec.ofNat 6 p) (a + BitVec.ofNat 6 q) (b + BitVec.ofNat 6 r)
  | .mulhz d a b => .mulhz (d + BitVec.ofNat 6 p) (a + BitVec.ofNat 6 q) (b + BitVec.ofNat 6 r)
  | .div d a b => .div (d + BitVec.ofNat 6 p) (a + BitVec.ofNat 6 q) (b + BitVec.ofNat 6 r)
  | .divz d a b => .divz (d + BitVec.ofNat 6 p) (a + BitVec.ofNat 6 q) (b + BitVec.ofNat 6 r)
  | .rem d a b => .rem (d + BitVec.ofNat 6 p) (a + BitVec.ofNat 6 q) (b + BitVec.ofNat 6 r)
  | .remz d a b => .remz (d + BitVec.ofNat 6 p) (a + BitVec.ofNat 6 q) (b + BitVec.ofNat 6 r)
  | .and d a b => .and (d + BitVec.ofNat 6 p) (a + BitVec.ofNat 6 q) (b + BitVec.ofNat 6 r)
  | .or d a b => .or (d + BitVec.ofNat 6 p) (a + BitVec.ofNat 6 q) (b + BitVec.ofNat 6 r)
  | .xor d a b => .xor (d + BitVec.ofNat 6 p) (a + BitVec.ofNat 6 q) (b + BitVec.ofNat 6 r)
  | .andn d a b => .andn (d + BitVec.ofNat 6 p) (a + BitVec.ofNat 6 q) (b + BitVec.ofNat 6 r)
  | .shl d a b => .shl (d + BitVec.ofNat 6 p) (a + BitVec.ofNat 6 q) (b + BitVec.ofNat 6 r)
  | .shr d a b => .shr (d + BitVec.ofNat 6 p) (a + BitVec.ofNat 6 q) (b + BitVec.ofNat 6 r)
  | .sha d a b => .sha (d + BitVec.ofNat 6 p) (a + BitVec.ofNat 6 q) (b + BitVec.ofNat 6 r)
  | .rol d a b => .rol (d + BitVec.ofNat 6 p) (a + BitVec.ofNat 6 q) (b + BitVec.ofNat 6 r)
  | .min d a b => .min (d + BitVec.ofNat 6 p) (a + BitVec.ofNat 6 q) (b + BitVec.ofNat 6 r)
  | .max d a b => .max (d + BitVec.ofNat 6 p) (a + BitVec.ofNat 6 q) (b + BitVec.ofNat 6 r)
  | .minz d a b => .minz (d + BitVec.ofNat 6 p) (a + BitVec.ofNat 6 q) (b + BitVec.ofNat 6 r)
  | .maxz d a b => .maxz (d + BitVec.ofNat 6 p) (a + BitVec.ofNat 6 q) (b + BitVec.ofNat 6 r)
  | .clz d a => .clz (d + BitVec.ofNat 6 p) (a + BitVec.ofNat 6 q)
  | .ctz d a => .ctz (d + BitVec.ofNat 6 p) (a + BitVec.ofNat 6 q)
  | .popc d a => .popc (d + BitVec.ofNat 6 p) (a + BitVec.ofNat 6 q)
  | .mov d a => .mov (d + BitVec.ofNat 6 p) (a + BitVec.ofNat 6 q)
  | .sel d a b => .sel (d + BitVec.ofNat 6 p) (a + BitVec.ofNat 6 q) (b + BitVec.ofNat 6 r)
  | .addI d a imm => .addI (d + BitVec.ofNat 6 p) (a + BitVec.ofNat 6 q) imm
  | .andI d a imm => .andI (d + BitVec.ofNat 6 p) (a + BitVec.ofNat 6 q) imm
  | .orI d a imm => .orI (d + BitVec.ofNat 6 p) (a + BitVec.ofNat 6 q) imm
  | .xorI d a imm => .xorI (d + BitVec.ofNat 6 p) (a + BitVec.ofNat 6 q) imm
  | .shlI d a n => .shlI (d + BitVec.ofNat 6 p) (a + BitVec.ofNat 6 q) n
  | .shrI d a n => .shrI (d + BitVec.ofNat 6 p) (a + BitVec.ofNat 6 q) n
  | .shaI d a n => .shaI (d + BitVec.ofNat 6 p) (a + BitVec.ofNat 6 q) n
  | .rolI d a n => .rolI (d + BitVec.ofNat 6 p) (a + BitVec.ofNat 6 q) n
  | .li d imm => .li (d + BitVec.ofNat 6 p) imm
  | .lis d imm => .lis (d + BitVec.ofNat 6 p) imm
  | .setEq d a b => .setEq (d + BitVec.ofNat 6 p) (a + BitVec.ofNat 6 q) (b + BitVec.ofNat 6 r)
  | .setNe d a b => .setNe (d + BitVec.ofNat 6 p) (a + BitVec.ofNat 6 q) (b + BitVec.ofNat 6 r)
  | .setLt d a b => .setLt (d + BitVec.ofNat 6 p) (a + BitVec.ofNat 6 q) (b + BitVec.ofNat 6 r)
  | .setGe d a b => .setGe (d + BitVec.ofNat 6 p) (a + BitVec.ofNat 6 q) (b + BitVec.ofNat 6 r)
  | .setLo d a b => .setLo (d + BitVec.ofNat 6 p) (a + BitVec.ofNat 6 q) (b + BitVec.ofNat 6 r)
  | .setHs d a b => .setHs (d + BitVec.ofNat 6 p) (a + BitVec.ofNat 6 q) (b + BitVec.ofNat 6 r)
  | .cincr d a b => .cincr (d + BitVec.ofNat 6 p) (a + BitVec.ofNat 6 q) (b + BitVec.ofNat 6 r)
  | .cset d a b => .cset (d + BitVec.ofNat 6 p) (a + BitVec.ofNat 6 q) (b + BitVec.ofNat 6 r)
  | .cbnd d a b => .cbnd (d + BitVec.ofNat 6 p) (a + BitVec.ofNat 6 q) (b + BitVec.ofNat 6 r)
  | .cbndr d a b => .cbndr (d + BitVec.ofNat 6 p) (a + BitVec.ofNat 6 q) (b + BitVec.ofNat 6 r)
  | .cperm d a b => .cperm (d + BitVec.ofNat 6 p) (a + BitVec.ofNat 6 q) (b + BitVec.ofNat 6 r)
  | .cseal d a b => .cseal (d + BitVec.ofNat 6 p) (a + BitVec.ofNat 6 q) (b + BitVec.ofNat 6 r)
  | .cunseal d a b => .cunseal (d + BitVec.ofNat 6 p) (a + BitVec.ofNat 6 q) (b + BitVec.ofNat 6 r)
  | .cbase d a => .cbase (d + BitVec.ofNat 6 p) (a + BitVec.ofNat 6 q)
  | .clen d a => .clen (d + BitVec.ofNat 6 p) (a + BitVec.ofNat 6 q)
  | .cperms d a => .cperms (d + BitVec.ofNat 6 p) (a + BitVec.ofNat 6 q)
  | .ctag d a => .ctag (d + BitVec.ofNat 6 p) (a + BitVec.ofNat 6 q)
  | .cclr d a => .cclr (d + BitVec.ofNat 6 p) (a + BitVec.ofNat 6 q)
  | .ceq d a b => .ceq (d + BitVec.ofNat 6 p) (a + BitVec.ofNat 6 q) (b + BitVec.ofNat 6 r)
  | .csub d a b => .csub (d + BitVec.ofNat 6 p) (a + BitVec.ofNat 6 q) (b + BitVec.ofNat 6 r)
  | .cincrI d a imm => .cincrI (d + BitVec.ofNat 6 p) (a + BitVec.ofNat 6 q) imm
  | .ldB g a off => .ldB (g + BitVec.ofNat 6 p) (a + BitVec.ofNat 6 q) off
  | .ldBz g a off => .ldBz (g + BitVec.ofNat 6 p) (a + BitVec.ofNat 6 q) off
  | .ldH g a off => .ldH (g + BitVec.ofNat 6 p) (a + BitVec.ofNat 6 q) off
  | .ldHz g a off => .ldHz (g + BitVec.ofNat 6 p) (a + BitVec.ofNat 6 q) off
  | .ldW g a off => .ldW (g + BitVec.ofNat 6 p) (a + BitVec.ofNat 6 q) off
  | .ldWz g a off => .ldWz (g + BitVec.ofNat 6 p) (a + BitVec.ofNat 6 q) off
  | .ldD g a off => .ldD (g + BitVec.ofNat 6 p) (a + BitVec.ofNat 6 q) off
  | .ldQ g a off => .ldQ (g + BitVec.ofNat 6 p) (a + BitVec.ofNat 6 q) off
  | .stB g a off => .stB (g + BitVec.ofNat 6 p) (a + BitVec.ofNat 6 q) off
  | .stH g a off => .stH (g + BitVec.ofNat 6 p) (a + BitVec.ofNat 6 q) off
  | .stW g a off => .stW (g + BitVec.ofNat 6 p) (a + BitVec.ofNat 6 q) off
  | .stD g a off => .stD (g + BitVec.ofNat 6 p) (a + BitVec.ofNat 6 q) off
  | .stQ g a off => .stQ (g + BitVec.ofNat 6 p) (a + BitVec.ofNat 6 q) off
  | .stc g a off => .stc (g + BitVec.ofNat 6 p) (a + BitVec.ofNat 6 q) off
  | .vld v a vm z m => .vld (v + BitVec.ofNat 5 p) (a + BitVec.ofNat 6 q) vm z m
  | .vst v a vm m => .vst (v + BitVec.ofNat 5 p) (a + BitVec.ofNat 6 q) vm m
  | .vldS v a b vm z m => .vldS (v + BitVec.ofNat 5 p) (a + BitVec.ofNat 6 q) (b + BitVec.ofNat 6 r) vm z m
  | .vstS v a b vm m => .vstS (v + BitVec.ofNat 5 p) (a + BitVec.ofNat 6 q) (b + BitVec.ofNat 6 r) vm m
  | .vldX v a b vm z m => .vldX (v + BitVec.ofNat 5 p) (a + BitVec.ofNat 6 q) (b + BitVec.ofNat 5 r) vm z m
  | .vstX v a b vm m => .vstX (v + BitVec.ofNat 5 p) (a + BitVec.ofNat 6 q) (b + BitVec.ofNat 5 r) vm m
  | .vldB v a vm z m => .vldB (v + BitVec.ofNat 5 p) (a + BitVec.ofNat 6 q) vm z m
  | .vldH v a vm z m => .vldH (v + BitVec.ofNat 5 p) (a + BitVec.ofNat 6 q) vm z m
  | .vstH v a vm m => .vstH (v + BitVec.ofNat 5 p) (a + BitVec.ofNat 6 q) vm m
  | .vldHs v a b vm z m => .vldHs (v + BitVec.ofNat 5 p) (a + BitVec.ofNat 6 q) (b + BitVec.ofNat 6 r) vm z m
  | .vstHs v a b vm m => .vstHs (v + BitVec.ofNat 5 p) (a + BitVec.ofNat 6 q) (b + BitVec.ofNat 6 r) vm m
  | .vldHx v a b vm z m => .vldHx (v + BitVec.ofNat 5 p) (a + BitVec.ofNat 6 q) (b + BitVec.ofNat 5 r) vm z m
  | .vstHx v a b vm m => .vstHx (v + BitVec.ofNat 5 p) (a + BitVec.ofNat 6 q) (b + BitVec.ofNat 5 r) vm m
  | .pref a off => .pref (a + BitVec.ofNat 6 q) off
  | .cln a off => .cln (a + BitVec.ofNat 6 q) off
  | .inv a off => .inv (a + BitVec.ofNat 6 q) off
  | .csrr d csr => .csrr (d + BitVec.ofNat 6 p) csr
  | .vadd d a b vm z m => .vadd (d + BitVec.ofNat 5 p) (a + BitVec.ofNat 5 q) (b + BitVec.ofNat 5 r) vm z m
  | .vsub d a b vm z m => .vsub (d + BitVec.ofNat 5 p) (a + BitVec.ofNat 5 q) (b + BitVec.ofNat 5 r) vm z m
  | .vmul d a b vm z m => .vmul (d + BitVec.ofNat 5 p) (a + BitVec.ofNat 5 q) (b + BitVec.ofNat 5 r) vm z m
  | .vfma d a b vm z m => .vfma (d + BitVec.ofNat 5 p) (a + BitVec.ofNat 5 q) (b + BitVec.ofNat 5 r) vm z m
  | .vfms d a b vm z m => .vfms (d + BitVec.ofNat 5 p) (a + BitVec.ofNat 5 q) (b + BitVec.ofNat 5 r) vm z m
  | .vfnma d a b vm z m => .vfnma (d + BitVec.ofNat 5 p) (a + BitVec.ofNat 5 q) (b + BitVec.ofNat 5 r) vm z m
  | .vmin d a b vm z m => .vmin (d + BitVec.ofNat 5 p) (a + BitVec.ofNat 5 q) (b + BitVec.ofNat 5 r) vm z m
  | .vmax d a b vm z m => .vmax (d + BitVec.ofNat 5 p) (a + BitVec.ofNat 5 q) (b + BitVec.ofNat 5 r) vm z m
  | .vabs d a vm z m => .vabs (d + BitVec.ofNat 5 p) (a + BitVec.ofNat 5 q) vm z m
  | .vneg d a vm z m => .vneg (d + BitVec.ofNat 5 p) (a + BitVec.ofNat 5 q) vm z m
  | .vcmpEq d a b vm z m => .vcmpEq (d + BitVec.ofNat 5 p) (a + BitVec.ofNat 5 q) (b + BitVec.ofNat 5 r) vm z m
  | .vcmpLt d a b vm z m => .vcmpLt (d + BitVec.ofNat 5 p) (a + BitVec.ofNat 5 q) (b + BitVec.ofNat 5 r) vm z m
  | .vcmpLe d a b vm z m => .vcmpLe (d + BitVec.ofNat 5 p) (a + BitVec.ofNat 5 q) (b + BitVec.ofNat 5 r) vm z m
  | .vcmpUn d a b vm z m => .vcmpUn (d + BitVec.ofNat 5 p) (a + BitVec.ofNat 5 q) (b + BitVec.ofNat 5 r) vm z m
  | .vrcpE d a vm z m => .vrcpE (d + BitVec.ofNat 5 p) (a + BitVec.ofNat 5 q) vm z m
  | .vrsqE d a vm z m => .vrsqE (d + BitVec.ofNat 5 p) (a + BitVec.ofNat 5 q) vm z m
  | .vgexp d a vm z m => .vgexp (d + BitVec.ofNat 5 p) (a + BitVec.ofNat 5 q) vm z m
  | .vscl d a b vm z m => .vscl (d + BitVec.ofNat 5 p) (a + BitVec.ofNat 5 q) (b + BitVec.ofNat 5 r) vm z m
  | .vrnd d a vm z m => .vrnd (d + BitVec.ofNat 5 p) (a + BitVec.ofNat 5 q) vm z m
  | .vsel d a b vm => .vsel (d + BitVec.ofNat 5 p) (a + BitVec.ofNat 5 q) (b + BitVec.ofNat 5 r) vm
  | .vredsum d a vm m => .vredsum (d + BitVec.ofNat 5 p) (a + BitVec.ofNat 5 q) vm m
  | .vredmax d a vm m => .vredmax (d + BitVec.ofNat 5 p) (a + BitVec.ofNat 5 q) vm m
  | .vredmin d a vm m => .vredmin (d + BitVec.ofNat 5 p) (a + BitVec.ofNat 5 q) vm m
  | .vaddI d a b vm z m => .vaddI (d + BitVec.ofNat 5 p) (a + BitVec.ofNat 5 q) (b + BitVec.ofNat 5 r) vm z m
  | .vsubI d a b vm z m => .vsubI (d + BitVec.ofNat 5 p) (a + BitVec.ofNat 5 q) (b + BitVec.ofNat 5 r) vm z m
  | .vmulI d a b vm z m => .vmulI (d + BitVec.ofNat 5 p) (a + BitVec.ofNat 5 q) (b + BitVec.ofNat 5 r) vm z m
  | .vand d a b vm z m => .vand (d + BitVec.ofNat 5 p) (a + BitVec.ofNat 5 q) (b + BitVec.ofNat 5 r) vm z m
  | .vor d a b vm z m => .vor (d + BitVec.ofNat 5 p) (a + BitVec.ofNat 5 q) (b + BitVec.ofNat 5 r) vm z m
  | .vxor d a b vm z m => .vxor (d + BitVec.ofNat 5 p) (a + BitVec.ofNat 5 q) (b + BitVec.ofNat 5 r) vm z m
  | .vshl d a b vm z m => .vshl (d + BitVec.ofNat 5 p) (a + BitVec.ofNat 5 q) (b + BitVec.ofNat 5 r) vm z m
  | .vshr d a b vm z m => .vshr (d + BitVec.ofNat 5 p) (a + BitVec.ofNat 5 q) (b + BitVec.ofNat 5 r) vm z m
  | .vsha d a b vm z m => .vsha (d + BitVec.ofNat 5 p) (a + BitVec.ofNat 5 q) (b + BitVec.ofNat 5 r) vm z m
  | .vminI d a b vm z m => .vminI (d + BitVec.ofNat 5 p) (a + BitVec.ofNat 5 q) (b + BitVec.ofNat 5 r) vm z m
  | .vmaxI d a b vm z m => .vmaxI (d + BitVec.ofNat 5 p) (a + BitVec.ofNat 5 q) (b + BitVec.ofNat 5 r) vm z m
  | .vcmpIeq d a b vm z m => .vcmpIeq (d + BitVec.ofNat 5 p) (a + BitVec.ofNat 5 q) (b + BitVec.ofNat 5 r) vm z m
  | .vcmpIlt d a b vm z m => .vcmpIlt (d + BitVec.ofNat 5 p) (a + BitVec.ofNat 5 q) (b + BitVec.ofNat 5 r) vm z m
  | .vcmpIlo d a b vm z m => .vcmpIlo (d + BitVec.ofNat 5 p) (a + BitVec.ofNat 5 q) (b + BitVec.ofNat 5 r) vm z m
  | .vredaddI d a vm m => .vredaddI (d + BitVec.ofNat 5 p) (a + BitVec.ofNat 5 q) vm m
  | .vperm d a b vm z m => .vperm (d + BitVec.ofNat 5 p) (a + BitVec.ofNat 5 q) (b + BitVec.ofNat 5 r) vm z m
  | .vbc d b vm z m => .vbc (d + BitVec.ofNat 5 p) (b + BitVec.ofNat 6 r) vm z m
  | .vaddS d a b vm z m => .vaddS (d + BitVec.ofNat 5 p) (a + BitVec.ofNat 5 q) (b + BitVec.ofNat 6 r) vm z m
  | .vmulS d a b vm z m => .vmulS (d + BitVec.ofNat 5 p) (a + BitVec.ofNat 5 q) (b + BitVec.ofNat 6 r) vm z m
  | .vfmaS d a b vm z m => .vfmaS (d + BitVec.ofNat 5 p) (a + BitVec.ofNat 5 q) (b + BitVec.ofNat 6 r) vm z m
  | .vslup d a b vm z m => .vslup (d + BitVec.ofNat 5 p) (a + BitVec.ofNat 5 q) (b + BitVec.ofNat 6 r) vm z m
  | .vsldn d a b vm z m => .vsldn (d + BitVec.ofNat 5 p) (a + BitVec.ofNat 5 q) (b + BitVec.ofNat 6 r) vm z m
  | .vidx d b vm z m => .vidx (d + BitVec.ofNat 5 p) (b + BitVec.ofNat 6 r) vm z m
  | .vext v g idx => .vext (v + BitVec.ofNat 5 p) (g + BitVec.ofNat 6 q) (idx + BitVec.ofNat 6 r)
  | .vins v g idx => .vins (v + BitVec.ofNat 5 p) (g + BitVec.ofNat 6 q) (idx + BitVec.ofNat 6 r)
  | .mpopc v g => .mpopc (v + BitVec.ofNat 5 p) (g + BitVec.ofNat 6 q)
  | .mfirst v g => .mfirst (v + BitVec.ofNat 5 p) (g + BitVec.ofNat 6 q)
  | .vcvtI2f d a vm z m => .vcvtI2f (d + BitVec.ofNat 5 p) (a + BitVec.ofNat 5 q) vm z m
  | .vcvtF2i d a vm z m => .vcvtF2i (d + BitVec.ofNat 5 p) (a + BitVec.ofNat 5 q) vm z m
  | .vcvtF2bf d a b vm z m => .vcvtF2bf (d + BitVec.ofNat 5 p) (a + BitVec.ofNat 5 q) (b + BitVec.ofNat 5 r) vm z m
  | .vcvtBf2f d a vm z m => .vcvtBf2f (d + BitVec.ofNat 5 p) (a + BitVec.ofNat 5 q) vm z m
  | .vcvtF2h d a b vm z m => .vcvtF2h (d + BitVec.ofNat 5 p) (a + BitVec.ofNat 5 q) (b + BitVec.ofNat 5 r) vm z m
  | .vcvtH2f d a vm z m => .vcvtH2f (d + BitVec.ofNat 5 p) (a + BitVec.ofNat 5 q) vm z m
  | .clkRd x y => .clkRd (x + BitVec.ofNat 6 p) (y + BitVec.ofNat 6 q)
  | .stpRd x y => .stpRd (x + BitVec.ofNat 6 p) (y + BitVec.ofNat 6 q)
  | i => i

/-- The words of a frame of `n` words from `base` on, fetched by `f` in a mode and checked under 05 R94: ILL with the address of the
first that may not stand in a frame. -/
def frameWords (smode : Bool) (f : Nat → Fetched) (base : Nat) : Nat → Except Stop (List (BitVec 32))
  | 0 => .ok []
  | n + 1 =>
    match f base with
    | .stop e => .error e
    | .word w =>
      if permittedWord smode w then
        match frameWords smode f (base + 4) n with
        | .ok l => .ok (w :: l)
        | .error e => .error e
      else .error (.at .ill base)

/-- The live frame of a repeat context under a saved PCC (05 R97, R98), without its words; none if V is 0, and an error if
its checks fail. -/
def frameOf (pcc : Reg) (ctx : Word) : Except Unit (Option Frame) :=
  if ctx.getLsbD 63 = false then .ok none
  else
    let len := (ctx.extractLsb' 59 4).toNat + 1
    let index := (ctx.extractLsb' 55 4).toNat
    let left := (ctx.extractLsb' 34 15).toNat
    let k := (ctx.extractLsb' 20 14).toNat
    let base : Int := (pcc.cursor : Int) - 4 * index
    if index ≤ len - 1 ∧ k + left ≤ 16384 ∧
        (base - pcc.base) / 4 % 2 ^ 20 = ((ctx.extractLsb' 0 20).toNat : Int) then
      .ok (some { len := len, index := index, dstep := (ctx.extractLsb' 53 2).toNat, astep := (ctx.extractLsb' 51 2).toNat,
                  bstep := (ctx.extractLsb' 49 2).toNat, left := left, k := k, base := BitVec.ofInt 64 base, words := [] })
    else .error ()

/-- What a strand issues next: an instruction with its park marker and the word it was decoded from. -/
inductive NextWord where
  | run (p : Bool) (w : BitVec 32) (i : Instr)
  /-- A word that decode rejects (03 R51). -/
  | bad (w : BitVec 32)
  | stop (e : Stop)
  deriving DecidableEq, Repr

/-- The instruction of a frame word, stepped (05 R95). -/
def Frame.next (f : Frame) (w : BitVec 32) : NextWord :=
  match decode w with
  | .ok i => .run (parkBit w) w (stepInstr (f.k * f.dstep) (f.k * f.astep) (f.k * f.bstep) i)
  | .error _ => .bad w

/-- The next instruction of a strand: of the live frame, stepped (05 R95, R96), or fetched at the PC (05 R88). A frame that a return
resumed without its words fetches each at its place (DEDUCED, assumption 77). -/
def State.nextWord (s : State) (sid : Nat) : NextWord :=
  let a := s.arch sid
  match a.frame with
  | some f =>
    match f.words[f.index]? with
    | some w => f.next w
    | none =>
      match s.fetchWord sid a.pcc a.pcc.cursor with
      | .stop e => .stop e
      | .word w => if permittedWord a.smode w then f.next w else .bad w
  | none =>
    match s.fetchWord sid a.pcc a.pcc.cursor with
    | .stop e => .stop e
    | .word w =>
      match decode w with
      | .ok i => .run (parkBit w) w i
      | .error _ => .bad w

/-! ## Who issues -/

/-- The rows of the table that are events of the part and come about by themselves. The other rows without an encoding
(CPSTK_WRITE, TRAIL_WRITE, TPC_WRITE, CSR_WRITE, UNASSIGNED_WORD) come about within the issue of an instruction. -/
def isEvent : Instr → Bool
  | .chunkCommit | .chunkLimit | .lineLimit | .pairMismatch | .resultReturn | .icacheFill | .trapEntry |
    .machineCheck | .translationLookup | .plbFill | .pgfltAnswer | .l1Fill | .siblingAccess | .amoExecute |
    .vectorDispatch | .matrixBlock | .accTransfer | .balancer | .counterCell | .barrierTree | .releaseMulticast |
    .dieQueueSpill | .dieQueueClaim | .cdecApply | .dequePush | .carmApply | .findWork | .cstealTake | .copyAccept |
    .copyComplete | .barrierBytes | .copyFault | .saveTransfer | .gangResume | .quitMark | .remotePerform |
    .remoteComplete | .remoteTimeout | .migration | .dieFence | .portLoss | .stampVersion | .stampRelease |
    .versionApply | .horizonCollect | .horizonUpdate | .horizonExchange | .stampedRead | .clockDiscipline |
    .clockWaitExpiry | .idleTimeout | .ebrkRelease | .gangTimeout | .gangEnd | .load | .mapPage | .unmapPage |
    .setRegion | .removeRegion | .setDomain | .setSender | .registerPeer | .launch | .launchDequeue | .queryGangs |
    .queryFeatures | .querySensors | .queryLog | .queryIdentity | .queryGang | .kill | .prepare | .ready | .go |
    .abort | .late | .launchDeadline | .chipStart | .powerGood | .thermalAlarm | .powerRemoval | .firmwareUpdate |
    .adminListWrite | .fflagsAccess | .chipLoss | .lossOfDiscipline | .conditionClears | .messageDropped => true
  | _ => false

/-- The firing of a quit group ends at a chunk boundary, or at once in a wait instruction or in idle (07 R140). -/
def State.quitDue (s : State) (sid : Nat) : Bool :=
  let t := s.strand sid
  t.firing.isSome && s.quitMarked sid && (s.atBoundary sid || t.wait.abandoned)

/-- The waits that an event ends. -/
def Wait.held : Wait → Bool
  | .plb _ _ | .xlate _ _ | .fetch _ | .lineLimit | .flags | .idle _ | .copySlot _ | .answer | .phase _ _ | .stage _ _ _ => true
  | _ => false

/-- What a strand waits for may have come: a park is over when no result is outstanding (05 R83), a gquit when every core has
marked the group (07 R140), an invalidation when nothing is open (08 R167), a clock wait when earliest has passed (19 R368), a
version's room when it has arrived (19 R366). The other waits test their condition when the strand issues again. -/
def State.waitOver (s : State) (sid : Nat) : Bool :=
  let t := s.strand sid
  match t.wait with
  | .park | .drain => !t.busy
  | .quit ids => ids.all fun m => (s.msg m).isNone
  | .inval l => !l.any s.stillOpen
  | .sent mid => (s.msg mid).isNone
  | .clock x => decide (x.toNat < (s.die (dieOf sid)).earliest)
  | w => !w.held

/-- Whether a strand may issue: it holds a firing and is not halted, has no cause to take, and what it waited for may have
come (01 R7) (DESIGN CHOICE, assumption 46). -/
def State.strandReady (s : State) (sid : Nat) : Bool :=
  let t := s.strand sid
  t.firing.isSome && !t.halted && s.waitOver sid && t.trap.isNone && !s.causeDue sid && !s.quitDue sid

/-- An instruction that uses the divider (04 R62). -/
def usesDivider : Instr → Bool
  | .div _ _ _ | .divz _ _ _ | .rem _ _ _ | .remz _ _ _ => true
  | _ => false

/-- The unit that an instruction needs can accept it (01 R7): the divider (04 R62), the core's vector dispatch queue of 4 entries
(12 R217) for majors 0x1E to 0x22, its matrix command queue of 2 entries (13 R247) for major 0x23. -/
def State.unitFree (s : State) (sid : Nat) (w : BitVec 32) (i : Instr) : Bool :=
  let c := s.core (coreOf sid)
  let major := (w.extractLsb' 25 6).toNat
  if usesDivider i then !s.dividing (coreOf sid)
  else if 0x1E ≤ major ∧ major ≤ 0x22 then !s.pipeFull (coreOf sid)
  else if major = 0x23 then decide (c.mq.length < 2)
  else true

/-- A strand is ready to take an issue slot (01 R7): its next word is there, and the unit that it needs can accept it. -/
def State.issueReady (s : State) (sid : Nat) : Bool :=
  s.strandReady sid && match s.nextWord sid with
    | .run _ w i => s.unitFree sid w i
    | .bad _ => true
    | .stop (.trap _ _) => true
    | .stop (.wait _) => false

/-- The strand of a core that takes the next issue slot: the first ready one after the strand that issued last (01 R7). -/
def State.nextIssuer (s : State) (cid : Nat) : Option Nat :=
  ([1, 2, 3, 4].map fun k => 4 * cid + ((s.core cid).lastIssue + k) % 4).find? s.issueReady

/-- What happens to a strand that does not issue: the end of its firing if that is due. -/
def State.unready (s : State) (sid : Nat) : State := if s.quitDue sid then s.quitEnd sid else s

/-- The issue slot goes to a strand; a fetch makes its line the most recently used, and the words of a frame are not fetched again
(01 R7, 05 R89, R96). -/
def State.fetched (s : State) (sid : Nat) : State :=
  let s := s.onCore (coreOf sid) fun c => { c with lastIssue := sid % 4 }
  match (s.arch sid).frame with
  | none => s.touchLine sid (s.arch sid).pcc.cursor
  | some f => if f.words = [] then s.touchLine sid (s.arch sid).pcc.cursor else s

end Sys2Proof.Machine
end

