-- ==== Sys2Proof/Machine/Control.lean ====
section
/-! DEFINITION. Control flow, majors 0x0C to 0x11 (05 R91 to R101). -/

namespace Sys2Proof.Machine

open Sys2Proof

/-- The PC of a strand. -/
def State.pc (s : State) (sid : Nat) : Word := (s.arch sid).pcc.low

/-- A transfer within the PCC (05 R91, R92): its target is checked first, and a failed check leaves it without effect. -/
def transfer (s : State) (t : Word) (f : Arch → Arch) : Act :=
  let a := s.arch s.cur
  match checkCap a.smode a.pcc t.toNat 4 [permX] 0 with
  | some cause => .trap s cause t
  | none => .jump (s.onArch s.cur fun a => { f a with pcc := a.pcc.withCursor t })

/-- The return capability: the PCC with its cursor at the next word (05 R92). -/
def Arch.link (a : Arch) : Reg := { a.pcc.withCursor (a.pcc.low + 4) with tag := true }

/-- A conditional branch (05 R91): one not taken checks nothing. -/
def branch (c : Cond) (a b : BitVec 6) (off : BitVec 10) (s : State) : Host.Outcome State Fault Refusal :=
  issue false [.g a, .g b] s fun s =>
    let x := s.arch s.cur
    if c.holds (x.word a) (x.word b) then transfer s (x.pcc.low + 4 * off.signExtend 64) id else .done s

/-- b.eq (05 R91). -/
def execBEq (a b : BitVec 6) (off : BitVec 10) (s : State) : Host.Outcome State Fault Refusal := branch .eq a b off s

/-- b.ne (05 R91). -/
def execBNe (a b : BitVec 6) (off : BitVec 10) (s : State) : Host.Outcome State Fault Refusal := branch .ne a b off s

/-- b.lt (05 R91). -/
def execBLt (a b : BitVec 6) (off : BitVec 10) (s : State) : Host.Outcome State Fault Refusal := branch .lt a b off s

/-- b.ge (05 R91). -/
def execBGe (a b : BitVec 6) (off : BitVec 10) (s : State) : Host.Outcome State Fault Refusal := branch .ge a b off s

/-- b.lo (05 R91). -/
def execBLo (a b : BitVec 6) (off : BitVec 10) (s : State) : Host.Outcome State Fault Refusal := branch .lo a b off s

/-- b.hs (05 R91). -/
def execBHs (a b : BitVec 6) (off : BitVec 10) (s : State) : Host.Outcome State Fault Refusal := branch .hs a b off s

/-- jmp (05 R92). -/
def execJmp (off : BitVec 25) (s : State) : Host.Outcome State Fault Refusal :=
  issue false [] s fun s => transfer s (s.pc s.cur + 4 * off.signExtend 64) id

/-- call (05 R92): lk is its destination. -/
def execCall (off : BitVec 25) (s : State) : Host.Outcome State Fault Refusal :=
  issue false [.g 1] s fun s => transfer s (s.pc s.cur + 4 * off.signExtend 64) fun a => a.writeG 1 a.link

/-- A jump through a capability (05 R93): it replaces the PCC whole. -/
def jumpThrough (a : BitVec 6) (f : Arch → Arch) (s : State) : Act :=
  let x := s.arch s.cur
  let c := x.readG a
  match checkCap x.smode c c.cursor 4 [permX] 4 with
  | some cause => .trap s cause c.low
  | none => .jump (s.onArch s.cur fun a => { f a with pcc := c })

/-- jr (05 R93). -/
def execJr (a : BitVec 6) (s : State) : Host.Outcome State Fault Refusal :=
  issue false [.g a] s (jumpThrough a id)

/-- callr (05 R93): ga is read before lk is written. -/
def execCallr (a : BitVec 6) (s : State) : Host.Outcome State Fault Refusal :=
  issue false [.g a, .g 1] s (jumpThrough a fun x => x.writeG 1 x.link)

/-- rpt of 05 R96 with the checks in its order; the count is computed after the frame's words are checked. -/
def startFrame (len : BitVec 4) (d a b : BitVec 2) (count : Except Word Nat) (s : State) : Act :=
  let x := s.arch s.cur
  let n := len.toNat + 1
  let base := x.pcc.low + 4
  match checkCap x.smode x.pcc base.toNat (4 * n) [permX] 0 with
  | some cause => .trap s cause base
  | none =>
    match frameWords x.smode (s.fetchWord s.cur x.pcc) base.toNat n with
    | .error e => e.act s
    | .ok words =>
      let s := s.touchWords s.cur base.toNat n
      match count with
      | .error v => .trap s .ill v
      | .ok 0 => .jump (s.onArch s.cur fun y => { y with pcc := y.pcc.withCursor (base + BitVec.ofNat 64 (4 * n)) })
      | .ok k =>
        let f : Frame := { len := n, index := 0, dstep := d.toNat, astep := a.toNat, bstep := b.toNat, left := k, k := 0,
                           base := base, words := words }
        .jump (s.onArch s.cur fun y => { y with pcc := y.pcc.withCursor base, frame := some f, fbuf := (base, words) })

/-- rpt with a constant count (05 R96). -/
def execRptConst (len : BitVec 4) (d a b : BitVec 2) (cnt : BitVec 14) (s : State) : Host.Outcome State Fault Refusal :=
  issue false [] s (startFrame len d a b (.ok (cnt.toNat + 1)))

/-- The iterations that a register count gives (05 R96): above 16,384 it is an error. -/
def frameCount (n : Word) : Except Word Nat := if 16384 < n.toNat then .error n else .ok n.toNat

/-- rpt with a count in a g-register (05 R96). -/
def execRptReg (len : BitVec 4) (d a b : BitVec 2) (g : BitVec 6) (s : State) : Host.Outcome State Fault Refusal :=
  issue false [.g g] s fun s => startFrame len d a b (frameCount ((s.arch s.cur).word g)) s

/-- nop (05 R100). -/
def execNop (s : State) : Host.Outcome State Fault Refusal := issue false [] s .done

/-- The end of a firing by its own code (05 R101): a handler that executes it discards REPCTX. -/
def State.done (s : State) : State :=
  (s.onArch s.cur fun a =>
    { a.count 8 1 with uset := if a.hf then { a.uset with repctx := 0 } else a.uset }).endFiring s.cur

/-- cdone (05 R101): it commits its chunk, waits for every outstanding result, and ends the firing. -/
def execCdone (s : State) : Host.Outcome State Fault Refusal :=
  terminate false false [] s fun s =>
    if (s.strand s.cur).busy then .hold (s.waiting .instr) else .gone s.done

end Sys2Proof.Machine
end

