-- ==== Sys2Proof/Machine/Memory.lean ====
section
/-! DEFINITION. Loads, stores, line operations and chunk ends, majors 0x12 to 0x16 (06 R115 to R121). -/

namespace Sys2Proof.Machine

open Sys2Proof

/-! ## Scalar loads and stores -/

/-- The address of a scalar access (06 R115). -/
def memAddr (c : Reg) (n : Nat) (off : BitVec 10) : Nat := (c.low + BitVec.ofNat 64 n * off.signExtend 64).toNat

/-- A scalar load of `n` bytes (06 R115). -/
def scalarLoad (n : Nat) (g a : BitVec 6) (off : BitVec 10) (form : Reg → LoadForm) (s : State) :
    Host.Outcome State Fault Refusal :=
  issue false [.g a, .g g] s fun s =>
    let c := (s.arch s.cur).readG a
    let x : Access := { lane := 0, va := memAddr c n off, n := n }
    match s.checkAccess s.cur c x (loadDemand (decide (4 ≤ n))) with
    | some e => e.act s
    | none => s.startLoad s.cur [x] (form c) [.g g]

/-- A scalar store of the low `n` bytes of g (06 R116). -/
def scalarStore (n : Nat) (g a : BitVec 6) (off : BitVec 10) (s : State) : Host.Outcome State Fault Refusal :=
  issue false [.g g, .g a] s fun s =>
    let c := (s.arch s.cur).readG a
    let v := ((s.arch s.cur).readG g).bits &&& bitsFor n
    let x : Access := { lane := 0, va := memAddr c n off, n := n }
    match s.checkAccess s.cur c x (storeDemand (decide (4 ≤ n))) with
    | some e => e.act s
    | none => s.startStore s.cur c [(x, v)] false

/-- ld.b (06 R115). -/
def execLdB (g a : BitVec 6) (off : BitVec 10) (s : State) : Host.Outcome State Fault Refusal :=
  scalarLoad 1 g a off (fun _ => .scalar g 1 true) s

/-- ld.bz (06 R115). -/
def execLdBz (g a : BitVec 6) (off : BitVec 10) (s : State) : Host.Outcome State Fault Refusal :=
  scalarLoad 1 g a off (fun _ => .scalar g 1 false) s

/-- ld.h (06 R115). -/
def execLdH (g a : BitVec 6) (off : BitVec 10) (s : State) : Host.Outcome State Fault Refusal :=
  scalarLoad 2 g a off (fun _ => .scalar g 2 true) s

/-- ld.hz (06 R115). -/
def execLdHz (g a : BitVec 6) (off : BitVec 10) (s : State) : Host.Outcome State Fault Refusal :=
  scalarLoad 2 g a off (fun _ => .scalar g 2 false) s

/-- ld.w (06 R115). -/
def execLdW (g a : BitVec 6) (off : BitVec 10) (s : State) : Host.Outcome State Fault Refusal :=
  scalarLoad 4 g a off (fun _ => .scalar g 4 true) s

/-- ld.wz (06 R115). -/
def execLdWz (g a : BitVec 6) (off : BitVec 10) (s : State) : Host.Outcome State Fault Refusal :=
  scalarLoad 4 g a off (fun _ => .scalar g 4 false) s

/-- ld.d (06 R115). -/
def execLdD (g a : BitVec 6) (off : BitVec 10) (s : State) : Host.Outcome State Fault Refusal :=
  scalarLoad 8 g a off (fun _ => .scalar g 8 false) s

/-- ld.q (06 R115): it keeps the tag if its base holds LDC. -/
def execLdQ (g a : BitVec 6) (off : BitVec 10) (s : State) : Host.Outcome State Fault Refusal :=
  scalarLoad 16 g a off (fun c => .quad g (c.perm permLDC)) s

/-- st.b (06 R116). -/
def execStB (g a : BitVec 6) (off : BitVec 10) (s : State) : Host.Outcome State Fault Refusal := scalarStore 1 g a off s

/-- st.h (06 R116). -/
def execStH (g a : BitVec 6) (off : BitVec 10) (s : State) : Host.Outcome State Fault Refusal := scalarStore 2 g a off s

/-- st.w (06 R116). -/
def execStW (g a : BitVec 6) (off : BitVec 10) (s : State) : Host.Outcome State Fault Refusal := scalarStore 4 g a off s

/-- st.d (06 R116). -/
def execStD (g a : BitVec 6) (off : BitVec 10) (s : State) : Host.Outcome State Fault Refusal := scalarStore 8 g a off s

/-- st.q (06 R116). -/
def execStQ (g a : BitVec 6) (off : BitVec 10) (s : State) : Host.Outcome State Fault Refusal := scalarStore 16 g a off s

/-- stc (06 R116): 128 bits and the tag; a tagged register without GLOBAL stays in the own scratchpad. -/
def execStc (g a : BitVec 6) (off : BitVec 10) (s : State) : Host.Outcome State Fault Refusal :=
  issue false [.g g, .g a] s fun s =>
    let c := (s.arch s.cur).readG a
    let v := (s.arch s.cur).readG g
    let x : Access := { lane := 0, va := memAddr c 16 off, n := 16 }
    let k : Demand := { perms := [permST, permSTC], align := true, wide := false, store := true, rights := [.w],
                        localOnly := v.tag && !v.perm permGLOBAL }
    match s.checkAccess s.cur c x k with
    | some e => e.act s
    | none => s.startStore s.cur c [(x, v.bits)] v.tag

/-! ## Vector loads and stores -/

/-- Whether a lane is active (02 R46): the mask bits are bits [63:0] of the mask register, or bits [127:0] for 128 lanes
(12 R221). -/
def laneActive (x : Arch) (vm : BitVec 3) (m : Bool) (i : Nat) : Bool := !m || (x.readV (vm.setWidth 5)).getLsbD i

/-- The mask register as a register read (05 R84). -/
def maskReads (vm : BitVec 3) (m : Bool) : List RegName := if m then [.v (vm.setWidth 5)] else []

/-- The addressing modes of major 0x14 and 0x15 (06 R117). -/
inductive VMode where
  | unit
  | strided (stride : Word)
  | indexed (index : BitVec 2048)
  | block
  deriving DecidableEq, Repr

/-- The address of lane `i` of width `w` bytes, without the wrap (06 R117). -/
def VMode.addr (k : VMode) (c : Reg) (w i : Nat) : Nat :=
  let off : Word := match k with
    | .unit => BitVec.ofNat 64 (w * i)
    | .strided t => t * BitVec.ofNat 64 i
    | .indexed x => BitVec.ofNat 64 w * (x.extractLsb' (8 * w * i) (8 * w)).signExtend 64
    | .block => BitVec.ofNat 64 (4 * (i % 4))
  (c.low + off).toNat

/-- The accesses of the active lanes, ascending (06 R117). -/
def vecAccesses (x : Arch) (c : Reg) (k : VMode) (w : Nat) (vm : BitVec 3) (m : Bool) : List Access :=
  ((List.range (256 / w)).filter (laneActive x vm m)).map fun i => { lane := i, va := k.addr c w i, n := w }

/-- The register as a vector load leaves its inactive lanes (03 R49). -/
def clearInactive (x : Arch) (v : BitVec 5) (w : Nat) (vm : BitVec 3) (z m : Bool) : BitVec 2048 :=
  if z then
    (List.range (256 / w)).foldl (fun r i => if laneActive x vm m i then r else setLane r (8 * w) i 0) (x.readV v)
  else x.readV v

/-- vld.b needs its cursor aligned to 16 when some lane is active (06 R117). The spec does not order this test against the CheckCap of
the lanes; it comes first (DESIGN CHOICE, assumption 78). -/
def VMode.misaligned (k : VMode) (c : Reg) (l : List Access) : Bool :=
  match k with
  | .block => c.cursor % 16 != 0 && l != []
  | _ => false

/-- A vector load (06 R117). -/
def vectorLoad (w : Nat) (extra : List RegName) (mode : Arch → VMode) (v : BitVec 5) (a : BitVec 6) (vm : BitVec 3)
    (z m : Bool) (s : State) : Host.Outcome State Fault Refusal :=
  issue false (maskReads vm m ++ [.g a] ++ extra ++ [.v v]) s fun s =>
    let x := s.arch s.cur
    let c := x.readG a
    let l := vecAccesses x c (mode x) w vm m
    if (mode x).misaligned c l then (Stop.at .align ((l.head?.map (·.va)).getD 0)).act s
    else match s.checkAll s.cur c l (loadDemand (w == 4)) with
      | some e => e.act s
      | none => s.startLoad s.cur l (.vec v w (clearInactive x v w vm z m)) [.v v]

/-- A vector store (06 R117): lanes in ascending order, so the higher lane's value remains. -/
def vectorStore (w : Nat) (extra : List RegName) (mode : Arch → VMode) (v : BitVec 5) (a : BitVec 6) (vm : BitVec 3)
    (m : Bool) (s : State) : Host.Outcome State Fault Refusal :=
  issue false (maskReads vm m ++ [.v v, .g a] ++ extra) s fun s =>
    let x := s.arch s.cur
    let c := x.readG a
    let l := vecAccesses x c (mode x) w vm m
    match s.checkAll s.cur c l (storeDemand (w == 4)) with
    | some e => e.act s
    | none =>
      s.startStore s.cur c (l.map fun y => (y, ((x.readV v).extractLsb' (8 * w * y.lane) (8 * w)).setWidth 128)) false

/-- vld (06 R117). -/
def execVld (v : BitVec 5) (a : BitVec 6) (vm : BitVec 3) (z m : Bool) (s : State) :
    Host.Outcome State Fault Refusal := vectorLoad 4 [] (fun _ => .unit) v a vm z m s

/-- vst (06 R117). -/
def execVst (v : BitVec 5) (a : BitVec 6) (vm : BitVec 3) (m : Bool) (s : State) :
    Host.Outcome State Fault Refusal := vectorStore 4 [] (fun _ => .unit) v a vm m s

/-- vld.s (06 R117). -/
def execVldS (v : BitVec 5) (a : BitVec 6) (b : BitVec 6) (vm : BitVec 3) (z m : Bool) (s : State) :
    Host.Outcome State Fault Refusal := vectorLoad 4 [.g b] (fun x => .strided (x.word b)) v a vm z m s

/-- vst.s (06 R117). -/
def execVstS (v : BitVec 5) (a : BitVec 6) (b : BitVec 6) (vm : BitVec 3) (m : Bool) (s : State) :
    Host.Outcome State Fault Refusal := vectorStore 4 [.g b] (fun x => .strided (x.word b)) v a vm m s

/-- vld.x (06 R117). -/
def execVldX (v : BitVec 5) (a : BitVec 6) (b : BitVec 5) (vm : BitVec 3) (z m : Bool) (s : State) :
    Host.Outcome State Fault Refusal := vectorLoad 4 [.v b] (fun x => .indexed (x.readV b)) v a vm z m s

/-- vst.x (06 R117). -/
def execVstX (v : BitVec 5) (a : BitVec 6) (b : BitVec 5) (vm : BitVec 3) (m : Bool) (s : State) :
    Host.Outcome State Fault Refusal := vectorStore 4 [.v b] (fun x => .indexed (x.readV b)) v a vm m s

/-- vld.b (06 R117). -/
def execVldB (v : BitVec 5) (a : BitVec 6) (vm : BitVec 3) (z m : Bool) (s : State) :
    Host.Outcome State Fault Refusal := vectorLoad 4 [] (fun _ => .block) v a vm z m s

/-- vld.h (06 R117). -/
def execVldH (v : BitVec 5) (a : BitVec 6) (vm : BitVec 3) (z m : Bool) (s : State) :
    Host.Outcome State Fault Refusal := vectorLoad 2 [] (fun _ => .unit) v a vm z m s

/-- vst.h (06 R117). -/
def execVstH (v : BitVec 5) (a : BitVec 6) (vm : BitVec 3) (m : Bool) (s : State) :
    Host.Outcome State Fault Refusal := vectorStore 2 [] (fun _ => .unit) v a vm m s

/-- vld.hs (06 R117). -/
def execVldHs (v : BitVec 5) (a : BitVec 6) (b : BitVec 6) (vm : BitVec 3) (z m : Bool) (s : State) :
    Host.Outcome State Fault Refusal := vectorLoad 2 [.g b] (fun x => .strided (x.word b)) v a vm z m s

/-- vst.hs (06 R117). -/
def execVstHs (v : BitVec 5) (a : BitVec 6) (b : BitVec 6) (vm : BitVec 3) (m : Bool) (s : State) :
    Host.Outcome State Fault Refusal := vectorStore 2 [.g b] (fun x => .strided (x.word b)) v a vm m s

/-- vld.hx (06 R117). -/
def execVldHx (v : BitVec 5) (a : BitVec 6) (b : BitVec 5) (vm : BitVec 3) (z m : Bool) (s : State) :
    Host.Outcome State Fault Refusal := vectorLoad 2 [.v b] (fun x => .indexed (x.readV b)) v a vm z m s

/-- vst.hx (06 R117). -/
def execVstHx (v : BitVec 5) (a : BitVec 6) (b : BitVec 5) (vm : BitVec 3) (m : Bool) (s : State) :
    Host.Outcome State Fault Refusal := vectorStore 2 [.v b] (fun x => .indexed (x.readV b)) v a vm m s

/-! ## Line operations (06 R119) -/

/-- The address of a line operation. -/
def lineAddr (c : Reg) (off : BitVec 10) : Nat := memAddr c 128 off

/-- CheckCap and the PLB check of a line operation (06 R119); what `lineUse` does follows one that passes. -/
def State.lineCheck (s : State) (c : Reg) (a : Nat) : Option Stop :=
  match checkCap (s.arch s.cur).smode c a 1 [permLD] 0 with
  | some cause => some (.at cause a)
  | none =>
    match s.place (coreOf s.cur) a with
    | .mapped va =>
      match s.plbCheck s.cur va [.r] with
      | .denied => some (.at .plb a)
      | .miss => some (.wait (.plb va (s.strand s.cur).wait.got))
      | .granted => none
    | _ => none

/-- A line operation that has passed its checks uses the PLB entry (08 R154). -/
def State.lineUse (s : State) (a : Nat) : State :=
  match s.place (coreOf s.cur) a with
  | .mapped va => s.usePlb s.cur va
  | _ => s

/-- pref (06 R119): a fill of the line into the L1 starts if its checks pass and the line is homed on the die; otherwise it has no
effect. -/
def execPref (a : BitVec 6) (off : BitVec 10) (s : State) : Host.Outcome State Fault Refusal :=
  issue false [.g a] s fun s =>
    let c := (s.arch s.cur).readG a
    let va := lineAddr c off
    match s.lineCheck c va with
    | some (.trap _ _) => .done s
    | some (.wait w) => .hold (s.waiting w)
    | none => .done ((s.lineUse va).l1Fill s.cur 0xFF va)

/-- cln and inv (06 R119). A line that the strand's uncommitted chunk has written is cleaned at its commit, which makes no
difference to what the L1 holds of it before. -/
def lineOp (drop : Bool) (a : BitVec 6) (off : BitVec 10) (s : State) : Host.Outcome State Fault Refusal :=
  issue false [.g a] s fun s =>
    let c := (s.arch s.cur).readG a
    let va := lineAddr c off
    match s.lineCheck c va with
    | some e => e.act s
    | none =>
      let s := s.lineUse va
      match s.place (coreOf s.cur) va with
      | .mapped x =>
        if (s.strand s.cur).held.any fun p => p.addr.toNat / 128 == x / 128 then
          .done (s.onStrand s.cur fun t => t.onOpen fun k => { k with lineOps := k.lineOps ++ [(x / 128, drop)] })
        else .done (s.onCore (coreOf s.cur) fun k => { k with l1 := cleanLine drop (x / 128) k.l1 })
      | _ => .done s

/-- cln (06 R119). -/
def execCln (a : BitVec 6) (off : BitVec 10) (s : State) : Host.Outcome State Fault Refusal := lineOp false a off s

/-- inv (06 R119). -/
def execInv (a : BitVec 6) (off : BitVec 10) (s : State) : Host.Outcome State Fault Refusal := lineOp true a off s

/-! ## Chunk ends and fences (06 R120, R121) -/

/-- cend (06 R120). -/
def execCend (s : State) : Host.Outcome State Fault Refusal := terminate false false [] s .done

/-- What an access in flight targets, by the scope that holds it (17 R345): 0 the quire, 1 the die, 2 the package, 3 the
domain. -/
def State.scopeOf (s : State) (sid loc : Nat) : Nat :=
  let loc := s.real loc
  if isForeign loc then 3
  else if padOrigin ≤ loc then
    if quireOfCore (padCore loc) = quireOf sid then 0 else if dieOfCore (padCore loc) = dieOf sid then 1 else 2
  else if homeDie loc = some (dieOf sid) then 1 else 2

/-- A store or an off-die amo of the strand's committed chunks that is not performed at its home (06 R120, R121). -/
def State.storesOut (s : State) (sid scope : Nat) : Bool :=
  (s.remotes.any fun r => r.sid == sid && !r.performed && r.failed.isNone && match r.kind with
    | .store loc _ _ _ => decide (s.scopeOf sid loc ≤ scope)
    | .rmw _ _ loc _ _ _ _ true => decide (s.scopeOf sid loc ≤ scope)
    | _ => false) ||
  (s.msgs.any fun m => match m.kind with
    | .amo sid' _ loc _ _ _ _ => sid' == sid && decide (s.scopeOf sid loc ≤ scope)
    | .version v => v.sid == sid && decide (s.scopeOf sid v.loc ≤ scope)
    | _ => false)

/-- drainst (06 R120, 09 R169): every store and every amo of the strand's committed chunks is performed at its home. -/
def execDrainst (s : State) : Host.Outcome State Fault Refusal :=
  terminate false false [] s fun s => if s.storesOut s.cur 3 then .hold (s.waiting .instr) else .done s

/-- The scope of an address that an engine operand names (17 R345). -/
def State.scopeVA (s : State) (sid a : Nat) : Nat :=
  match s.place (coreOf sid) a with
  | .pad cid _ _ => s.scopeOf sid (padLoc cid 0)
  | .hole => 2
  | .mapped va =>
    match (s.entryAt (coreOf sid) va).map fun e => s.under e va with
    | some (.ok loc _) => s.scopeOf sid loc
    | _ => 3

/-- Whether a run of addresses has a byte within a scope (17 R345). Blocks of 4 KB have one home (01 R12), so each is tested
once; a run of more than 64 KB counts as within every scope (DEDUCED, assumption 44). -/
def State.runNear (s : State) (sid scope lo len : Nat) : Bool :=
  decide (65536 < len) || (decide (0 < len) && (decide (s.scopeVA sid (lo + len - 1) ≤ scope) ||
    (List.range (len / 4096 + 1)).any fun k => decide (s.scopeVA sid (lo + 4096 * k) ≤ scope)))

/-- Whether the bytes that a capability covers lie within a scope. -/
def State.capNear (s : State) (sid scope : Nat) (c : Reg) : Bool := s.runNear sid scope c.base.toNat c.length

/-- An operand or the completion target of a copy command lies within a scope (06 R121). -/
def State.commandNear (s : State) (c : CopyCmd) (scope : Nat) : Bool :=
  s.capNear c.sid scope c.dst || s.capNear c.sid scope c.src || c.rows.any (s.capNear c.sid scope) ||
    (c.action != 0 && s.capNear c.sid scope c.target)

/-- The smallest scope within which an operand or the target of a copy command lies. -/
def State.commandScope (s : State) (c : CopyCmd) : Nat := ([0, 1, 2].find? (s.commandNear c)).getD 3

/-- An engine command, get, put, get.w, put.w, ramo or mig that the strand issued is not complete, some operand or the
completion target of it lying within a scope (06 R121); a copy is complete when its completion action has been applied. -/
def State.enginesOut (s : State) (sid scope : Nat) : Bool :=
  (s.quires.any fun q => q.2.cmds.any fun c => c.sid == sid && s.commandNear c scope) ||
  (s.remotes.any fun r => r.sid == sid && match r.kind with
    | .move src dst len _ _ => s.runNear sid scope src.toNat len || s.runNear sid scope dst.toNat len
    | .rmw _ _ loc _ _ _ _ false => decide (s.scopeOf sid loc ≤ scope)
    | .mig va _ status => s.runNear sid scope va 65536 || s.runNear sid scope status 8
    | _ => false) ||
  ((s.msgs ++ s.heldMsgs).any fun m => match m.eng with
    | some (k, near) => k == sid && decide (near ≤ scope)
    | none => false)

/-- fence (06 R121). -/
def execFence (eng : Bool) (scope : BitVec 3) (s : State) : Host.Outcome State Fault Refusal :=
  terminate false false [] s fun s =>
    if s.storesOut s.cur scope.toNat || (eng && s.enginesOut s.cur scope.toNat) then .hold (s.waiting .instr)
    else .done s

end Sys2Proof.Machine
end

