-- ==== Sys2Proof/Machine/System.lean ====
section
/-! DEFINITION. Traps, sleep and debug, the save areas, the gang instructions and the CSRs, majors 0x17 to 0x1A (07). -/

namespace Sys2Proof.Machine

open Sys2Proof

/-! ## trap, sret, idle and ebrk -/

/-- trap (07 R134): the PC already stands behind it when SWTRAP is raised. -/
def execTrap (x : BitVec 6) (s : State) : Host.Outcome State Fault Refusal :=
  terminate false false [.g x] s fun s =>
    let v := (s.arch s.cur).word x
    .trap (Act.done s).settleT .swtrap v

/-- The registers after the return to a saved PCC (07 R135). -/
def Arch.return (a : Arch) (set : TrapSet) (smode hf : Bool) (frame : Option Frame) : Arch :=
  { a with pcc := set.pcc, smode := smode, hf := hf, frame := frame }

/-- The return from a trap set: its repeat context is checked, and the frame is in the frame buffer, or its words are fetched
by `fetch` (in the mode returned to) and checked (05 R98, 07 R135). The value of an ILL raised here is not stated by the spec
(DESIGN CHOICE, assumption 5). A fetch of the words that fails a check is raised where the word is fetched again, in the mode
returned to (DEDUCED, assumption 77). -/
def State.returnTo (s : State) (sid : Nat) (fetch : State → Reg → Nat → Fetched) (set : TrapSet) (smode hf : Bool) :
    Except Stop Arch :=
  match frameOf set.pcc set.repctx with
  | .error _ => .error (.trap .ill (s.free 1))
  | .ok none => .ok ((s.arch sid).return set smode hf none)
  | .ok (some f) =>
    let buf := (s.arch sid).fbuf
    if buf.1 = f.base ∧ buf.2.length = f.len then .ok ((s.arch sid).return set smode hf (some { f with words := buf.2 }))
    else
      match frameWords smode (fetch (s.onArch sid fun a => { a with smode := smode }) set.pcc) f.base.toNat f.len with
      | .error (.trap .ill _) => .error (.trap .ill (s.free 1))
      | .error (.trap _ _) => .ok ((s.arch sid).return set smode hf (some f))
      | .error e => .error e
      | .ok words =>
        .ok { (s.arch sid).return set smode hf (some { f with words := words }) with fbuf := (f.base, words) }

/-- sret's own part (07 R135). -/
def sretBody (fetch : State → Reg → Nat → Fetched) (s : State) : Act :=
  let a := s.arch s.cur
  if !a.smode && !a.hf then .trap s .ill a.pcc.low
  else
    match (if a.smode then s.returnTo s.cur fetch a.sset (a.sset.state.getLsbD 0) (a.sset.state.getLsbD 1)
           else s.returnTo s.cur fetch a.uset false false) with
    | .error e => e.act s
    | .ok a' =>
      let s := match a'.frame with
        | some f => if a'.fbuf = (s.arch s.cur).fbuf then s else s.touchWords s.cur f.base.toNat f.len
        | none => s
      .jump (s.onArch s.cur fun _ => a')

/-- sret (07 R135). -/
def execSret (s : State) : Host.Outcome State Fault Refusal := 
  terminate false false [] s (sretBody fun s => s.fetchWord s.cur)

/-- idle (07 R136): the strand waits; IDLE_TIMEOUT and the wakes of R136 complete it. -/
def execIdle (x : BitVec 6) (s : State) : Host.Outcome State Fault Refusal :=
  issue false [.g x] s fun s =>
    .hold (s.waiting (.idle (max 1 (((s.arch s.cur).word x).extractLsb' 0 32).toNat)))

/-- ebrk (07 R137). -/
def execEbrk (s : State) : Host.Outcome State Fault Refusal :=
  issue false [] s fun s =>
    if (s.arch s.cur).dbg.getLsbD 0 then
      .done ((s.event s.cur 7 0 (s.pc s.cur) 0).onStrand s.cur fun t => { t with halted := true })
    else .done s

/-! ## CSRs (03 R60, 07 R125, R126) -/

/-- The bits of a CSR that its layout defines (DEDUCED, assumption 54). -/
def csrKeep (csr : Nat) (v : Word) : Word :=
  match csr with
  | 0x010 => v &&& 7
  | 0x011 => v &&& 0x7F
  | 0x013 => v &&& 0x7FFFF
  | 0x020 => v &&& 7
  | 0x021 => v &&& 0x1FF
  | 0x032 => v &&& 0xFF
  | 0x132 => v &&& 0xFF
  | 0x034 => v &&& 0xC
  | 0x134 => v &&& 0xF
  | 0x035 => if v.getLsbD 63 then v else 0
  | 0x135 => if v.getLsbD 63 then v else 0
  | 0x050 => v &&& 0x1FFFF
  | 0x051 => v &&& 0x7FFF7FFF7FFF
  | 0x052 => v &&& 0x7F
  | 0x060 => v &&& 0xFFFF
  | 0x137 => v &&& 1
  | 0x140 => v &&& 0xFFFFFFFFFF000
  | 0x141 => v &&& 0xFFFFFFFFFF03F
  | 0x142 => v &&& 0xFFFFFFFFFF03F
  | 0x150 => v &&& 0xFF01FF
  | n => if 0x070 ≤ n ∧ n ≤ 0x077 then v &&& 0xFFFFFFFFFF else v

/-- The records of a strand in its own view (08 R162, R166), oldest first. -/
def State.sfView (s : State) (sid : Nat) : List SfRec :=
  ((s.core (coreOf sid)).sfrq.filter fun r => r.strand == sid % 4).drop (s.arch sid).popped

/-- SFRQN (08 R162). -/
def State.sfrqn (s : State) (sid : Nat) : Word :=
  BitVec.ofNat 64 ((if (s.strand sid).ovf && !(s.arch sid).ovfClear then 256 else 0) + (s.sfView sid).length)

/-- ACCST (13 R240). -/
def State.accst (s : State) (sid : Nat) : Word :=
  let c := s.core (coreOf sid)
  let nb (e : MEntry) : Nat := if e.fn ≤ 4 then e.next % 16 else 0
  let e0 := c.mq[0]?
  let e1 := c.mq[1]?
  let mask (f : MEntry → Bool) : Nat :=
    ((List.range 4).map fun a => if c.mq.any (fun e => f e && e.acc == a) then 2 ^ a else 0).sum
  BitVec.ofNat 64 (
    ((List.range 4).map fun a => (c.accFlags.toList.getD a 0).toNat * 2 ^ (32 + 5 * a)).sum +
    ((e1.map nb).getD 0) * 2 ^ 20 + ((e0.map nb).getD 0) * 2 ^ 16 +
    ((e1.map (·.acc)).getD 0) * 2 ^ 14 + ((e0.map (·.acc)).getD 0) * 2 ^ 12 +
    (if c.claim = some sid then 2 ^ 11 else 0) + (if c.claim.isSome then 2 ^ 10 else 0) + c.mq.length % 4 * 2 ^ 8 +
    mask (·.waiting) * 16 + mask fun _ => true)

/-- PAIR (07 R150). -/
def State.pairWord (s : State) (sid : Nat) : Word :=
  let c := s.core (coreOf sid)
  BitVec.ofNat 64 (min c.recov 0xFFFFFFFF * 2 ^ 32 + ((s.strand sid).opened.map (·.mism)).getD 0 % 4 * 2 +
    (if c.paired then 1 else 0))

/-- The value of a CSR for a strand; none for a number without a CSR (03 R60, 07 R125). -/
def State.csrRead (s : State) (sid csr : Nat) : Option Word :=
  let t := s.strand sid
  let a := t.arch
  let c := s.core (coreOf sid)
  match csr with
  | 0x000 => some (BitVec.ofNat 64 sid)
  | 0x001 => some c.coord
  | 0x002 => some a.stage
  | 0x003 => some a.gang
  | 0x004 => some t.domain
  | 0x010 => some a.frm
  | 0x011 => some a.fflags
  | 0x012 => some a.srseed
  | 0x013 => some a.sclbase
  | 0x020 => some c.msplit
  | 0x021 => some c.chunklim
  | 0x030 => some a.tvec
  | 0x031 => some a.uset.pcc.low
  | 0x032 => some a.uset.cause
  | 0x033 => some a.uset.val
  | 0x034 => some a.uset.state
  | 0x035 => some a.uset.repctx
  | 0x040 => some (s.sfrqn sid)
  | 0x050 => some a.cpstk
  | 0x051 => some a.trail
  | 0x052 => some a.cpdepth
  | 0x060 => some a.twmax
  | 0x070 => some a.evcnt[0]
  | 0x071 => some a.evcnt[1]
  | 0x072 => some a.evcnt[2]
  | 0x073 => some a.evcnt[3]
  | 0x074 => some a.evcnt[4]
  | 0x075 => some a.evcnt[5]
  | 0x076 => some a.evcnt[6]
  | 0x077 => some a.evcnt[7]
  | 0x080 => some t.featcap
  | 0x090 => some (s.accst sid)
  | 0x0A0 => some (s.pairWord sid)
  | 0x130 => some a.svec
  | 0x131 => some a.sset.pcc.low
  | 0x132 => some a.sset.cause
  | 0x133 => some a.sset.val
  | 0x134 => some a.sset.state
  | 0x135 => some a.sset.repctx
  | 0x136 => some a.sscratch
  | 0x137 => some a.dbg
  | 0x140 => some c.drtbase
  | 0x141 => some c.mapt64
  | 0x142 => some c.mapt32
  | 0x150 => some c.dqstate
  | _ => none

/-- The CSRs below 0x100 that no CSR instruction writes in either mode (03 R60). -/
def csrReadOnly (csr : Nat) : Bool :=
  [0x000, 0x001, 0x002, 0x003, 0x004, 0x040, 0x052, 0x080, 0x090, 0x0A0].contains csr

/-- A CSR access that only S mode may make (03 R53). -/
def csrPrivileged (csr : Nat) (write : Bool) : Bool := decide (0x100 ≤ csr) || (write && (csr == 0x020 || csr == 0x021))

/-- Whether an access that the mode allows names a CSR that it may read or write (03 R60). -/
def State.csrAllowed (s : State) (sid csr : Nat) (write : Bool) : Bool :=
  (s.csrRead sid csr).isSome && !(write && csrReadOnly csr)

/-- FFLAGS and the event counters, whose access waits for every outstanding result (07 R126). -/
def csrWaits (csr : Nat) : Bool := csr == 0x011 || (decide (0x070 ≤ csr) && decide (csr ≤ 0x077))

/-- A saved PCC with its cursor written, as cset writes it (07 R124). A sealed one keeps its tag too (DESIGN CHOICE, assumption 81). -/
def Reg.setCursor (c : Reg) (v : Word) : Reg := { c.withCursor v with tag := c.tag && c.representable v.toNat }

/-- Two ranges that overlap. -/
def overlap (lo hi lo' hi' : Nat) : Bool := decide (lo < hi') && decide (lo' < hi)

/-- The area rules of 20 R374 for a new CPSTK or TRAIL: the area `[lo, hi)` of a strand, and its other area. -/
def State.areaBad (s : State) (sid lo hi lo' hi' : Nat) : Bool :=
  let cid := s.owner (coreOf sid)
  let size := s.padSize cid
  let low := size - 4096 - 4 * (s.core cid).stack
  (s.arch sid).cpdepth != 0 || decide (size - 4096 < hi) ||
    (decide (lo < hi) && ((decide (lo' < hi') && overlap lo hi lo' hi') || overlap lo hi low (size - 4096) ||
      (strandsOf cid).any fun k => k != sid &&
        let a := s.arch k
        (decide (0 < a.cpSlots) && overlap lo hi a.cpBase (a.cpBase + 512 * a.cpSlots)) ||
        (decide (0 < a.trLimit) && overlap lo hi a.trBase (a.trBase + 16 * a.trLimit))))

/-- A write of CPSTK that 20 R374 forbids. -/
def State.cpstkBad (s : State) (sid : Nat) (v : Word) : Bool :=
  let a := { s.arch sid with cpstk := csrKeep 0x050 v }
  s.areaBad sid a.cpBase (a.cpBase + 512 * a.cpSlots) a.trBase (a.trBase + 16 * a.trLimit)

/-- A write of TRAIL that 20 R374 forbids. -/
def State.trailBad (s : State) (sid : Nat) (v : Word) : Bool :=
  let a := { s.arch sid with trail := csrKeep 0x051 v }
  decide (a.trLimit < a.trTop) ||
    s.areaBad sid a.trBase (a.trBase + 16 * a.trLimit) a.cpBase (a.cpBase + 512 * a.cpSlots)

/-- The write of a CSR that an instruction may write (07 R126, R151). -/
def State.csrPut (s : State) (sid csr : Nat) (w : Word) : State :=
  let v := csrKeep csr w
  let on (f : Arch → Arch) : State := s.onArch sid f
  let core (f : Core → Core) : State := s.onCore (coreOf sid) f
  match csr with
  | 0x010 => on fun a => { a with frm := v }
  | 0x011 => on fun a => { a with fflags := v }
  | 0x012 => on fun a => { a with srseed := v }
  | 0x013 => on fun a => { a with sclbase := v }
  | 0x020 => core fun c => if c.gang.isSome then { c with msplitNext := some v } else { c with msplit := v, l1 := [] }
  | 0x021 => core fun c => { c with chunklim := v }
  | 0x030 => on fun a => { a with tvec := v }
  | 0x031 => on fun a => { a with uset := { a.uset with pcc := a.uset.pcc.setCursor v } }
  | 0x032 => on fun a => { a with uset := { a.uset with cause := v } }
  | 0x033 => on fun a => { a with uset := { a.uset with val := v } }
  | 0x034 => on fun a => { a with uset := { a.uset with state := v } }
  | 0x035 => on fun a => { a with uset := { a.uset with repctx := v } }
  | 0x050 => on fun a => { a with cpstk := v }
  | 0x051 => on fun a => { a with trail := v }
  | 0x060 => on fun a => { a with twmax := v }
  | 0x070 => on fun a => { a with evcnt := a.evcnt.set 0 v }
  | 0x071 => on fun a => { a with evcnt := a.evcnt.set 1 v }
  | 0x072 => on fun a => { a with evcnt := a.evcnt.set 2 v }
  | 0x073 => on fun a => { a with evcnt := a.evcnt.set 3 v }
  | 0x074 => on fun a => { a with evcnt := a.evcnt.set 4 v }
  | 0x075 => on fun a => { a with evcnt := a.evcnt.set 5 v }
  | 0x076 => on fun a => { a with evcnt := a.evcnt.set 6 v }
  | 0x077 => on fun a => { a with evcnt := a.evcnt.set 7 v }
  | 0x130 => on fun a => { a with svec := v }
  | 0x131 => on fun a => { a with sset := { a.sset with pcc := a.sset.pcc.setCursor v } }
  | 0x132 => on fun a => { a with sset := { a.sset with cause := v } }
  | 0x133 => on fun a => { a with sset := { a.sset with val := v } }
  | 0x134 => on fun a => { a with sset := { a.sset with state := v } }
  | 0x135 => on fun a => { a with sset := { a.sset with repctx := v } }
  | 0x136 => on fun a => { a with sscratch := v }
  | 0x137 => on fun a => { a with dbg := v }
  | 0x140 => core fun c => { c with drtbase := v }
  | 0x141 => core fun c => { c with mapt64 := v }
  | 0x142 => core fun c => { c with mapt32 := v }
  | 0x150 => core fun c => { c with dqstate := v }
  | _ => s

/-- A CSR write with the checks of 20 R374: ILL with the value written, or the new state. -/
def State.csrWrite (s : State) (sid csr : Nat) (v : Word) : Except Word State :=
  if (csr = 0x050 ∧ s.cpstkBad sid v) ∨ (csr = 0x051 ∧ s.trailBad sid v) then .error v else .ok (s.csrPut sid csr v)

/-- FFLAGS or an event counter may be read: no result of the strand is outstanding (07 R126). -/
def State.csrHeld (s : State) (csr : Nat) : Bool := csrWaits csr && (s.strand s.cur).out != []

/-- csrr (07 R151). -/
def execCsrr (d : BitVec 6) (csr : BitVec 12) (s : State) : Host.Outcome State Fault Refusal :=
  issue (csrPrivileged csr.toNat false) [.g d] s fun s =>
    match s.csrRead s.cur csr.toNat with
    | none => .trap s .ill (s.free 0)
    | some v =>
      if s.csrHeld csr.toNat then .hold (s.waiting .flags)
      else .done (s.onArch s.cur fun a => a.writeG d (.data v))

/-- A completed write of an event counter: the other counters count the instruction, and the one written stands as written
(11 R215). -/
def State.started (s : State) (csr : Nat) : State :=
  s.onStrand s.cur fun t =>
    let b := t.arch.count 8 1
    let a := { b with evcnt := Vector.ofFn fun n => if 0x070 + n.val = csr then t.arch.evcnt[n] else b.evcnt[n] }
    { (({ t with arch := a }).onOpen fun c => { c with ckpt := a, lead := false }) with wait := .none }

/-- CSRs EVCNT0 to EVCNT7. -/
def isCounter (csr : Nat) : Bool := decide (0x070 ≤ csr) && decide (csr < 0x078)

/-- csrw and csrx (07 R151); `f` is what they do with the old value. -/
def writeCsr (reads : List RegName) (a : BitVec 6) (csr : BitVec 12) (f : Word → State → State) (s : State) :
    Host.Outcome State Fault Refusal :=
  if s.csrAllowed s.cur csr.toNat true then
    terminate (csrPrivileged csr.toNat true) false reads s fun s =>
      if s.csrHeld csr.toNat then .hold (s.waiting .flags)
      else match s.csrWrite s.cur csr.toNat ((s.arch s.cur).word a) with
        | .error v => .trap s .ill v
        | .ok s' =>
          let s'' := f ((s.csrRead s.cur csr.toNat).getD 0) s'
          if isCounter csr.toNat then .gone ((s''.onArch s''.cur Arch.advance).started csr.toNat) else .done s''
  else issue (csrPrivileged csr.toNat true) reads s fun s => .trap s .ill (s.free 0)

/-- csrw (07 R151). -/
def execCsrw (a : BitVec 6) (csr : BitVec 12) (s : State) : Host.Outcome State Fault Refusal :=
  writeCsr [.g a] a csr (fun _ s => s) s

/-- csrx (07 R151): gd is left pending. -/
def execCsrx (d a : BitVec 6) (csr : BitVec 12) (s : State) : Host.Outcome State Fault Refusal :=
  writeCsr [.g a, .g d] a csr (fun old s => s.setPendingT [.g d] (.ready [.g d (.data old)] .none)) s

/-! ## ctx.save and ctx.load (07 R138, R139) -/

/-- Two 8-byte words as a sector with tag 0. -/
def sectorOf (lo hi : Word) : Reg := { bits := (hi ++ lo : BitVec 128), tag := false }

/-- The CSR words of a save area from offset 0x500 on; those of the S set only in S mode. -/
def Arch.ctxWords (a : Arch) : List Word :=
  [a.frm, a.fflags, a.srseed, a.sclbase, a.tvec, a.uset.cause, a.uset.val, a.uset.state, a.uset.repctx, a.cpstk, a.trail,
   a.cpdepth, a.twmax] ++ a.evcnt.toList ++
  (if a.smode then [a.sset.cause, a.sset.val, a.sset.state, a.sset.repctx] else [0, 0, 0, 0])

/-- The flags word of a save area: HF, the ACC claim, and what is pending. -/
def State.ctxFlags (s : State) (sid : Nat) : Word :=
  let t := s.strand sid
  BitVec.ofNat 64 ((if t.arch.hf then 1 else 0) + (if (s.core (coreOf sid)).claim = some sid then 2 else 0) +
    (if t.ganglost.isSome then 256 else 0) + (if t.engfault != [] then 512 else 0))

/-- Sector `k` of a save area (07 R138); reserved bytes are written as zeros (DESIGN CHOICE, assumption 82). -/
def State.ctxSector (s : State) (sid k : Nat) : Reg :=
  let a := s.arch sid
  let mine (x : Word) : Word := if a.smode then x else 0
  if k = 0 then sectorOf 1 (BitVec.ofNat 64 sid)
  else if k = 1 then sectorOf (mine (s.ctxFlags sid)) (mine a.gang)
  else if k = 2 then sectorOf (mine a.stage) 0
  else if k = 4 then (if a.smode then a.sset.pcc else .null)
  else if k = 5 then a.uset.pcc
  else if 16 ≤ k ∧ k < 80 then (if k = 16 then .null else a.g.toList.getD (k - 16) .null)
  else if 80 ≤ k ∧ k < 96 then sectorOf (a.ctxWords.getD (2 * (k - 80)) 0) (a.ctxWords.getD (2 * (k - 80) + 1) 0)
  else if 96 ≤ k then
    { bits := (a.v.toList.getD ((k - 96) / 16) 0).extractLsb' (128 * ((k - 96) % 16)) 128, tag := false }
  else .null

/-- The registers that a save area gives (07 R139), its sectors given by number. -/
def Arch.ctxRestore (a : Arch) (img : Nat → Reg) : Arch :=
  let word (k : Nat) : Word := (img (k / 2)).bits.extractLsb' (64 * (k % 2)) 64
  let csr (k : Nat) : Word := word (160 + k)
  let b : Arch :=
    { a with
      g := Vector.ofFn fun n => if n.val = 0 then .null else img (16 + n.val)
      v := Vector.ofFn fun n => (List.range 16).foldl
        (fun x j => x ||| ((img (96 + 16 * n.val + j)).bits.setWidth 2048 <<< (128 * j))) 0
      frm := csrKeep 0x010 (csr 0), fflags := csrKeep 0x011 (csr 1), srseed := csr 2, sclbase := csrKeep 0x013 (csr 3),
      tvec := csr 4,
      uset := { pcc := img 5, cause := csrKeep 0x032 (csr 5), val := csr 6, state := csrKeep 0x034 (csr 7),
                repctx := csrKeep 0x035 (csr 8) },
      cpstk := csrKeep 0x050 (csr 9), trail := csrKeep 0x051 (csr 10), cpdepth := csrKeep 0x052 (csr 11),
      twmax := csrKeep 0x060 (csr 12)
      evcnt := Vector.ofFn fun n => csrKeep 0x070 (csr (13 + n.val)) }
  if a.smode then
    { b with gang := word 3 &&& 0xFFFFFF, stage := word 4 &&& 0xFF, hf := (word 2).getLsbD 0
             sset := { pcc := img 4, cause := csrKeep 0x132 (csr 21), val := csr 22, state := csrKeep 0x134 (csr 23),
                       repctx := csrKeep 0x135 (csr 24) } }
  else b

/-- The checks of ctx.save and ctx.load in their order: the sectors of the area, or what stops the instruction (07 R139). -/
def State.ctxArea (s : State) (c : Reg) (store : Bool) : State × Except Stop (List Nat) :=
  let sid := s.cur
  let a := c.cursor
  let aligned := a % 256 == 0 && match s.place (coreOf sid) a with
    | .pad _ win _ => win == 0
    | _ => true
  if (s.strand sid).opened.any fun k => k.held != [] || k.undo != [] then (s, .error (.trap .ill c.low))
  else match checkCap (s.arch sid).smode c a 9728 (if store then [permST, permSTC] else [permLD, permLDC]) 0 with
    | some cause => (s, .error (.trap cause c.low))
    | none =>
      if !aligned then (s, .error (.trap .align c.low))
      else match s.areaCheck sid store [if store then .w else .r] a 9728 with
        | (s, some e) => (s, .error e)
        | (s, none) =>
          match s.areaLocs sid store a 608 with
          | .error x => (s, .error (.at .pgflt (x / 128 * 128)))
          | .ok l => (s, .ok l)

/-- The commit token, or a wait for it: the strand's earlier chunks have committed, and no other chunk of the die is pinned
(07 R139, 17 R337). -/
def State.takeToken (s : State) : Option State :=
  if 1 < (s.strand s.cur).chunks.length ∨ (s.strand s.cur).places ≠ [] then none
  else match s.pinned (dieOf s.cur) with
    | some x => if x = s.cur then some s else none
    | none => some (s.onStrand s.cur fun t => t.onOpen fun c => { c with pinned := true })

/-- ctx.save (07 R139) (DEDUCED, assumption 45). -/
def execCtxSave (x : BitVec 6) (s : State) : Host.Outcome State Fault Refusal :=
  issue false [.g x] s fun s =>
    if (s.strand s.cur).busy then .hold (s.waiting .park)
    else match s.ctxArea ((s.arch s.cur).readG x) true with
      | (s, .error e) => e.act s
      | (s, .ok l) =>
        match s.sectorsHeld (some s.cur) l with
        | some w => .hold (s.waiting w)
        | none =>
          match s.takeToken with
          | none => .hold (s.waiting .instr)
          | some s => .done (s.placeSectors (some s.cur) (l.zipIdx.map fun y => (y.1, s.ctxSector s.cur y.2)))

/-- ctx.load (07 R139): in S mode the ACC claim goes to the firing for which the strand runs, and what was pending is pending
again; the value of a pending GANGLOST or ENGFAULT is not in the area (DESIGN CHOICE, assumption 5). -/
def execCtxLoad (x : BitVec 6) (s : State) : Host.Outcome State Fault Refusal :=
  issue false [] s fun s =>
    if (s.strand s.cur).busy then .hold (s.waiting .park)
    else
      let c := (s.arch s.cur).readG x
      match s.ctxArea c false with
      | (s, .error e) => e.act s
      | (s, .ok l) =>
        match l.findSome? (s.padWriter (some s.cur)) with
        | some w => .hold (s.waiting (.chunk w))
        | none =>
          match s.takeToken with
          | none => .hold (s.waiting .instr)
          | some s =>
            match s.serveArea s.cur c.cursor 9728 l with
            | some w => .hold (s.waiting w)
            | none =>
            let img (k : Nat) : Reg := (l[k]?.map s.sectorAt).getD .null
            let flags := (img 1).low
            let sm := (s.arch s.cur).smode
            let claims := sm && flags.getLsbD 1
            let core := s.core (coreOf s.cur)
            if claims && core.claim.isSome && core.claim != some s.cur then .trap s .ill c.low
            else
              let s := if claims then s.setCore (coreOf s.cur) { core with claim := some s.cur } else s
              .done (s.onStrand s.cur fun t =>
                { t with arch := t.arch.ctxRestore img
                         ganglost := if sm && flags.getLsbD 8 then some (t.ganglost.getD (s.free 2)) else t.ganglost
                         engfault := if sm && flags.getLsbD 9 && t.engfault == [] then [s.free 3] else t.engfault })

/-- The stub of a strand returns, as its sret would (07 R135): what the Bindery's answer and a resume make it do. -/
def State.stubReturn (s : State) (sid : Nat) : State :=
  let cur := s.cur
  { (sretBody (fun s => s.fetchNow s.cur) { s with cur := sid }).settleT with cur := cur }

/-! ## gquit, gkill and gpre (07 R140, R141) -/

/-- The messages of a gquit, with their numbers. -/
def State.sendQuits (s : State) (src gang group : Nat) : State × List Nat :=
  ((s.sendQuit src gang group), (List.range (s.members gang).length).map (s.serial + ·))

/-- gquit (07 R140): the caller waits until every member core has marked the group. -/
def execGquit (x : BitVec 6) (s : State) : Host.Outcome State Fault Refusal :=
  issue false [.g x] s fun s =>
    match (s.strand s.cur).wait with
    | .quit ids => if ids.any fun m => (s.msg m).isSome then .hold s else .done s
    | _ =>
      let a := s.arch s.cur
      match s.sendQuits (coreOf s.cur) a.gangNo ((a.word x).extractLsb' 0 8).toNat with
      | (s, ids) => .hold (s.waiting (.quit ids))

/-- The gang number in the layout of CSR GANG. -/
def gangField (v : Word) : Nat := (v.extractLsb' 8 16).toNat

/-- The end of a gang at once (07 R141): its firings end with their chunks squashed, its records are discarded, its barriers
are broken. Engine commands that have begun complete; matrix entries that have not are dropped (DESIGN CHOICE, assumption 12). -/
def State.killGang (s : State) (gang : Nat) : State :=
  let s := forAll ((s.members gang).flatMap strandsOf) State.killFiring s
  let s := ((s.breakGangBarriers gang).breakGangContexts gang).emptyQueues gang
  let s := forAll (s.members gang) (fun s cid => s.onCore cid fun c => { c with mq := [], vq := [], claim := none }) s
  s.onBindery fun b => { b with launches := b.launches.map fun l =>
    if l.gang = gang then { l with lost := true, killed := true, saved := [] } else l }

/-- gkill (07 R141). -/
def execGkill (x : BitVec 6) (s : State) : Host.Outcome State Fault Refusal :=
  issue true [.g x] s fun s => .done (s.killGang (gangField ((s.arch s.cur).word x)))

/-- PREEMPT sent to every strand of a gang that holds a firing (07 R141, R143); from now on the gang is on its way out, and no
firing of it starts (DESIGN CHOICE, assumption 12). -/
def State.preemptGang (s : State) (gang : Nat) : State :=
  let s := s.onBindery fun b => { b with launches := b.launches.map fun l =>
    if l.gang = gang ∧ l.state = .running then { l with state := .preempted } else l }
  forAll ((s.members gang).flatMap strandsOf) (fun s sid =>
    s.onStrand sid fun t => if t.firing.isSome then { t with preempt := true } else t) s

/-- gpre (07 R141). -/
def execGpre (x : BitVec 6) (s : State) : Host.Outcome State Fault Refusal :=
  issue true [.g x] s fun s => .done (s.preemptGang (gangField ((s.arch s.cur).word x)))

/-! ## The writes that come about within csrw and csrx, and words without an encoding -/

/-- Operands of such a write: the strand and the value. -/
def State.argWord (s : State) (k : Nat) : Word := BitVec.ofNat 64 (s.argN k)

/-- CSR_WRITE (07 R126): operands sid, csr, v (DESIGN CHOICE, assumption 35). -/
def execCsrWrite (s : State) : Host.Outcome State Fault Refusal := .next (s.csrPut (s.argN 0) (s.argN 1) (s.argWord 2))

/-- CPSTK_WRITE (20 R374): operands sid, v. -/
def execCpstkWrite (s : State) : Host.Outcome State Fault Refusal :=
  match s.csrWrite (s.argN 0) 0x050 (s.argWord 1) with
  | .ok s => .next s
  | .error v => .next (s.raise (s.argN 0) .ill v)

/-- TRAIL_WRITE (20 R374): operands sid, v. -/
def execTrailWrite (s : State) : Host.Outcome State Fault Refusal :=
  match s.csrWrite (s.argN 0) 0x051 (s.argWord 1) with
  | .ok s => .next s
  | .error v => .next (s.raise (s.argN 0) .ill v)

/-- TPC_WRITE (07 R124): operands sid, whether the S set, v. -/
def execTpcWrite (s : State) : Host.Outcome State Fault Refusal :=
  .next (s.csrPut (s.argN 0) (if s.argN 1 = 0 then 0x031 else 0x131) (s.argWord 2))

/-- FFLAGS_ACCESS (07 R126): operand sid. The wait of an access ends when no result of the strand is outstanding. -/
def execFflagsAccess (s : State) : Host.Outcome State Fault Refusal :=
  let sid := s.argN 0
  if (s.strand sid).wait = .flags ∧ (s.strand sid).out = [] then
    .next (s.onStrand sid fun t => { t with wait := .none })
  else .next s

/-- UNASSIGNED_WORD (03 R51, R52): ILL of the strand that issues; the spec states no value (DESIGN CHOICE, assumption 5). -/
def execUnassignedWord (s : State) : Host.Outcome State Fault Refusal := .next (s.raise s.cur .ill (s.free 0))

end Sys2Proof.Machine
end

