-- ==== Sys2Proof/Machine/Matrix.lean ====
section
/-! DEFINITION. The matrix class, major 0x23 (13): claims, tiles and extents, the checks of an entry, the arithmetic of a block
(11 R210 to R212), the accumulator transfers, and the array that runs the queues of a quire's cores. -/

namespace Sys2Proof.Machine

open Sys2Proof

/-! ## The claim (13 R239) -/

/-- CheckClaim: a U-mode firing that does not hold the core's claim takes it if it is free, and traps ACCBUSY otherwise. -/
def State.checkClaim (s : State) : State × Option Stop :=
  if s.me.smode then (s, none)
  else match (s.core (coreOf s.cur)).claim with
    | none => (s.onCore (coreOf s.cur) fun c => { c with claim := some s.cur }, none)
    | some h => if h = s.cur then (s, none) else (s, some (.trap .accbusy (s.arch h).gang))

/-! ## Tiles and extents (13 R241, R242, R244) -/

/-- Block bytes of a format (13 R241). -/
def blockBytes (fn : Nat) : Nat := if fn = 1 then 192 else if 3 ≤ fn then 512 else 256

/-- A format with E8 scales. -/
def scaled (fn : Nat) : Bool := decide (fn ≤ 1)

/-- m of ge. -/
def geM (e : Word) : Nat := (e.extractLsb' 0 7).toNat
/-- n of ge. -/
def geN (e : Word) : Nat := (e.extractLsb' 7 7).toNat
/-- kb of ge. -/
def geKb (e : Word) : Nat := (e.extractLsb' 14 5).toNat
/-- klast of ge. -/
def geKl (e : Word) : Nat := (e.extractLsb' 19 9).toNat

/-- m and n in their ranges. -/
def geFits (e : Word) : Bool := decide (1 ≤ geM e ∧ geM e ≤ 64 ∧ 1 ≤ geN e ∧ geN e ≤ 64)

/-- The extents of an mma in their ranges (13 R242). -/
def geFitsMma (e : Word) : Bool :=
  e.extractLsb' 28 36 == 0 && geFits e && decide (1 ≤ geKb e ∧ geKb e ≤ 16 ∧ 1 ≤ geKl e ∧ geKl e ≤ 256)

/-- The bytes that hold the first `k` terms of a row (11 R204, 13 R243). -/
def termBytes (fn k : Nat) : Nat := if fn = 1 then 3 * (k / 4) + k % 4 else if 3 ≤ fn then 2 * k else k

/-- Span of an operand with `r` rows (13 R244). -/
def spanOf (fn r : Nat) (e : Word) : Nat :=
  let rs := blockBytes fn * geKb e
  if scaled fn then 64 * rs + r * geKb e else (r - 1) * rs + (geKb e - 1) * blockBytes fn + termBytes fn (geKl e)

/-- The size of the image of mld and mst (13 R255). -/
def imageBytes (e : Word) : Nat := 4 * geM e * geN e + 16

/-! ## The checks of an entry (13 R253, R255) -/

/-- CheckCap and the place of an mma operand of `r` rows. -/
def State.operandCheck (s : State) (fn r : Nat) (e : Word) (c : Reg) : Option Stop :=
  let a := c.cursor
  let span := spanOf fn r e
  match checkCap s.me.smode c a span [permLD] 0 with
  | some cause => some (.at cause a)
  | none =>
    match s.place (coreOf s.cur) a with
    | .pad cid 0 off =>
      if a % 16 = 0 ∧ quireOfCore cid = quireOf s.cur ∧ off + span ≤ s.padSize cid then none else some (.at .align a)
    | _ => some (.at .align a)

/-- The checks of an mma. -/
def State.mmaCheck (s : State) (fn : Nat) (e : Word) (a b : Reg) : Option Stop :=
  if !geFitsMma e then some (.trap .ill e)
  else (s.operandCheck fn (geM e) e a).or (s.operandCheck fn (geN e) e b)

/-- The checks of mld and mst: the state after the fills of the PLB, and the sectors of the image as they are now. -/
def State.imageCheck (s : State) (store : Bool) (e : Word) (c : Reg) : State × Except Stop (List Nat) :=
  let a := c.cursor
  let len := imageBytes e
  if !geFits e then (s, .error (.trap .ill e))
  else match checkCap s.me.smode c a len [if store then permST else permLD] 0 with
    | some cause => (s, .error (.at cause a))
    | none =>
      let odd := match s.place (coreOf s.cur) a with
        | .pad cid win _ => win != 0 || quireOfCore cid != quireOf s.cur
        | .mapped va => s.stampedAt s.cur va || s.stampedAt s.cur (va + (len - 1))
        | .hole => false
      if a % 16 != 0 || odd then (s, .error (.at .align a))
      else if c.perm permTRY && s.me.cpdepth != 0 then (s, .error (.at .capperm a))
      else match s.areaRights s.cur [if store then .w else .r] a len with
        | (s, some x) => (s, .error x)
        | (s, none) =>
          match s.areaLocs s.cur store a ((len + 15) / 16) with
          | .error x => (s, .error (.at .pgflt x))
          | .ok l => (s, .ok l)

/-- A new entry of the core's queue, with a number of its own. -/
def State.enterMatrix (s : State) (x : MEntry) : State :=
  s.bump.onCore (coreOf s.cur) fun c => { c with mq := c.mq ++ [{ x with id := s.serial }] }

/-- An entry of the issuing strand; an mma that resumes behind its first block has started (13 R258). -/
def State.entry (s : State) (fn acc : Nat) (ge : Word) (a b : Reg) (next : Nat) (locs : List Nat) : MEntry :=
  { id := s.serial, fn := fn, acc := acc, ge := ge, a := a, b := b, next := next, locs := locs, scales := [],
    started := next != 0, waiting := false, sid := s.cur, gang := s.me.gangNo }

/-- The strand waits with the array in a member of 0x23 that took the claim. -/
def Wait.took : Wait → Bool
  | .array b => b
  | _ => false

/-- CheckClaim and the part of a member of 0x23 that follows it. The claim it took stays while the member waits for the array, and is
given back if it traps: a terminator that traps precisely has no effect (03 R57). -/
def claimed (body : State → Act) (s : State) : Act :=
  match s.checkClaim with
  | (s, some e) => e.act s
  | (v, none) =>
    let took := (v.core (coreOf s.cur)).claim != (s.core (coreOf s.cur)).claim || (s.strand s.cur).wait.took
    let back (x : State) : State := if took then x.onCore (coreOf s.cur) fun c => { c with claim := none } else x
    match body v with
    | .trap x cause val => .trap (back x) cause val
    | .hold x =>
      match (x.strand s.cur).wait with
      | .array _ => .hold (x.onStrand s.cur fun t => { t with wait := .array took })
      | _ => .hold (back x)
    | x => x

/-- A member of 0x23: while both entries of the core are occupied the strand is not ready (13 R247). -/
def matrixOp (reads : List RegName) (body : State → Act) (s : State) : Host.Outcome State Fault Refusal :=
  if 2 ≤ (s.core (coreOf s.cur)).mq.length then .next s
  else terminate false false reads s (claimed body)

/-- A matrix product (13 R253). -/
def mma (fn : Nat) (acc : BitVec 2) (a b ge : BitVec 6) (s : State) : Host.Outcome State Fault Refusal :=
  matrixOp [.g a, .g b, .g ge] (fun s =>
    let x := s.me
    match s.mmaCheck fn (x.word ge) (x.readG a) (x.readG b) with
    | some e => e.act s
    | none => .done (s.enterMatrix (s.entry fn acc.toNat (x.word ge) (x.readG a) (x.readG b) 0 []))) s

/-- mma.t8 (13 R253). -/
def execMmaT8 (acc : BitVec 2) (a b ge : BitVec 6) (s : State) : Host.Outcome State Fault Refusal := mma 0 acc a b ge s
/-- mma.t6 (13 R253). -/
def execMmaT6 (acc : BitVec 2) (a b ge : BitVec 6) (s : State) : Host.Outcome State Fault Refusal := mma 1 acc a b ge s
/-- mma.i8 (13 R253). -/
def execMmaI8 (acc : BitVec 2) (a b ge : BitVec 6) (s : State) : Host.Outcome State Fault Refusal := mma 2 acc a b ge s
/-- mma.bf (13 R253). -/
def execMmaBf (acc : BitVec 2) (a b ge : BitVec 6) (s : State) : Host.Outcome State Fault Refusal := mma 3 acc a b ge s
/-- mma.h (13 R253). -/
def execMmaH (acc : BitVec 2) (a b ge : BitVec 6) (s : State) : Host.Outcome State Fault Refusal := mma 4 acc a b ge s

/-- mzero (13 R254). -/
def execMzero (acc : BitVec 2) (s : State) : Host.Outcome State Fault Refusal :=
  matrixOp [] (fun s => .done (s.enterMatrix (s.entry 5 acc.toNat 0 .null .null 0 []))) s

/-- mld and mst (13 R255). -/
def accTransfer (fn : Nat) (acc : BitVec 2) (a ge : BitVec 6) (s : State) : Host.Outcome State Fault Refusal :=
  matrixOp [.g a, .g ge] (fun s =>
    let x := s.me
    match s.imageCheck (fn == 7) (x.word ge) (x.readG a) with
    | (s, .error e) => e.act s
    | (s, .ok l) => .done (s.enterMatrix (s.entry fn acc.toNat (x.word ge) (x.readG a) .null 0 l))) s

/-- mld (13 R255) (DEDUCED, assumption 10). -/
def execMld (acc : BitVec 2) (a ge : BitVec 6) (s : State) : Host.Outcome State Fault Refusal := accTransfer 6 acc a ge s
/-- mst (13 R255). -/
def execMst (acc : BitVec 2) (a ge : BitVec 6) (s : State) : Host.Outcome State Fault Refusal := accTransfer 7 acc a ge s

/-! ## Waiting, suspending and resuming (13 R256 to R258) -/

/-- mwait (13 R256): every entry of the core's queue has completed (DEDUCED, assumption 9). -/
def execMwait (s : State) : Host.Outcome State Fault Refusal :=
  matrixOp [] (fun s => if (s.core (coreOf s.cur)).mq = [] then .done s else .hold (s.waiting (.array false))) s

/-- The checks of the suspend record: its 16 sectors, or what stops the instruction (13 R258). -/
def State.suspendArea (s : State) (store : Bool) (c : Reg) : State × Except Stop (List Nat) :=
  s.recordArea c 256 256 (if store then [permST, permSTC] else [permLD, permLDC]) store false

/-- Two words as a sector without a tag, the first low. -/
def pairSector (lo hi : Word) : Reg := { bits := (hi ++ lo : BitVec 128), tag := false }

/-- The control word of a recorded entry (13 R257). -/
def MEntry.control (x : MEntry) : Word :=
  BitVec.ofNat 64 (x.fn + x.acc * 32 + (if x.fn ≤ 4 then x.next else 0) * 128 + 2 ^ 16)

/-- Sector `k` of the suspend record of some entries (13 R257). -/
def recordSector (l : List MEntry) (k : Nat) : Reg :=
  if k = 0 then pairSector (BitVec.ofNat 64 (l.length + 256)) 0
  else match l[(k - 1) / 4]? with
    | none => .null
    | some x =>
      match (k - 1) % 4 with
      | 0 => pairSector x.control x.ge
      | 1 => x.a
      | 2 => x.b
      | _ => .null

/-- mwait.sus (13 R258): the transfers have completed; the array stands between blocks, since a block is applied at once. -/
def execMwaitSus (b : BitVec 6) (s : State) : Host.Outcome State Fault Refusal :=
  matrixOp [.g b] (fun s =>
    match s.suspendArea true (s.me.readG b) with
    | (s, .error e) => e.act s
    | (s, .ok l) =>
      let q := (s.core (coreOf s.cur)).mq
      if q.any fun x => 6 ≤ x.fn then .hold (s.waiting (.array false))
      else match s.sectorsHeld (some s.cur) l with
        | some w => .hold (s.waiting w)
        | none =>
          let s := s.placeSectors (some s.cur) (l.zipIdx.map fun y => (y.1, recordSector q y.2))
          .done (s.onCore (coreOf s.cur) fun c => { c with mq := [] })) s

/-- One recorded entry that passes the checks of its instruction (13 R258). -/
def State.readEntry (s : State) (c : Reg) (img : Nat → Reg) (k : Nat) : State × Except Stop (Option MEntry) :=
  let w := (img (4 * k + 1)).low
  let ge := (img (4 * k + 1)).bits.extractLsb' 64 64
  let fn := (w.extractLsb' 0 5).toNat
  let acc := (w.extractLsb' 5 2).toNat
  let next := (w.extractLsb' 7 4).toNat
  let a := img (4 * k + 2)
  let b := img (4 * k + 3)
  if w.getLsbD 16 = false then (s, .ok none)
  else if fn ≤ 4 then
    match s.mmaCheck fn ge a b with
    | some e => (s, .error e)
    | none => if geKb ge ≤ next then (s, .error (.at .ill c.cursor)) else (s, .ok (some (s.entry fn acc ge a b next [])))
  else if fn = 5 then (s, .ok (some (s.entry 5 acc 0 .null .null 0 [])))
  else if fn ≤ 7 then
    match s.imageCheck (fn == 7) ge a with
    | (s, .error e) => (s, .error e)
    | (s, .ok l) => (s, .ok (some (s.entry fn acc ge a .null 0 l)))
  else (s, .error (.at .ill c.cursor))

/-- mwait.res (13 R258) (DEDUCED, assumption 11). -/
def execMwaitRes (b : BitVec 6) (s : State) : Host.Outcome State Fault Refusal :=
  matrixOp [.g b] (fun s =>
    let c := s.me.readG b
    match s.suspendArea false c with
    | (s, .error e) => e.act s
    | (s, .ok l) =>
      if (s.core (coreOf s.cur)).mq ≠ [] then .hold (s.waiting (.array false))
      else match l.findSome? (s.padWriter (some s.cur)) with
        | some w => .hold (s.waiting (.chunk w))
        | none =>
          let img (k : Nat) : Reg := (l[k]?.map s.sectorAt).getD .null
          match s.readEntry c img 0 with
          | (s, .error e) => e.act s
          | (s, .ok x) =>
            match s.readEntry c img 1 with
            | (s, .error e) => e.act s
            | (s, .ok y) => .done (forAll (x.toList ++ y.toList) State.enterMatrix s)) s

/-! ## The arithmetic of a block (11 R210 to R213) -/

/-- A decoded element of an operand: none is INV. -/
def decodeTerm (fn raw : Nat) : Option Num :=
  match fn with
  | 0 => decodeT 8 raw
  | 1 => decodeT 6 raw
  | 2 => some (.fin (decide (128 ≤ raw)) (if 128 ≤ raw then 256 - raw else raw) 0)
  | 3 => some (bf16 (BitVec.ofNat 16 raw))
  | _ => some (fp16 (BitVec.ofNat 16 raw))

/-- Term `t` of a row that begins at a location (13 R241, 11 R204). -/
def rawTerm (fn : Nat) (m : List Host.Cell) (loc t : Nat) : Nat :=
  match fn with
  | 0 | 2 => readNat m (loc + t) 1
  | 1 => readNat m (loc + 3 * (t / 4)) 3 / 2 ^ (6 * (t % 4)) % 64
  | _ => readNat m (loc + 2 * t) 2

/-- The in-extent terms of a row. -/
def rowTerms (fn : Nat) (m : List Host.Cell) (loc k : Nat) : List (Option Num) :=
  (List.range k).map fun t => decodeTerm fn (rawTerm fn m loc t)

/-- The signed multiple of a finite value in units of 2^u, for u at most its exponent. -/
def Num.units (u : Int) : Num → Int
  | .fin neg m e => signedOf neg m * 2 ^ (e - u).toNat
  | _ => 0

/-- The exact sum of products of two rows of finite terms in units of 2^(2 u). -/
def dotSum (u : Int) : List (Option Num) → List (Option Num) → Int
  | some x :: xs, some y :: ys => x.units u * y.units u + dotSum u xs ys
  | _, _ => 0

/-- The accumulator plus an exact value in units of 2^u, rounded once. -/
def accPlus (acc : BitVec 32) (v u : Int) : BitVec 32 × Flags :=
  match f32 acc with
  | .nan => (nan32, Flags.none)
  | .inf _ => (acc, Flags.none)
  | x => roundF32 0 (addNum 0 x (ofSigned false v u)).1

/-- BlockT of 11 R210 on the decoded rows, `u` the exponent of the format's smallest magnitude. -/
def blockT (u : Int) (acc : BitVec 32) (a b : List (Option Num)) (sa sb : Nat) : BitVec 32 × Flags :=
  match decodeE8 sa, decodeE8 sb with
  | some ka, some kb =>
    if a.any Option.isNone || b.any Option.isNone then (nan32, Flags.inv1)
    else accPlus acc (dotSum u a b) (2 * u + ka + kb)
  | _, _ => (nan32, Flags.inv1)

/-- BlockI of 11 R211. -/
def blockI (acc : BitVec 32) (a b : List (Option Num)) : BitVec 32 × Flags :=
  (acc + BitVec.ofInt 32 (dotSum 0 a b), Flags.none)

/-- The products of two rows and whether some is 0 × ∞. -/
def products : List (Option Num) → List (Option Num) → List (Num × Bool)
  | some x :: xs, some y :: ys => mulNum x y :: products xs ys
  | _, _ => []

/-- floor(log2) of a non-zero magnitude. -/
def Num.log : Num → Option Int
  | .fin _ m e => if m = 0 then none else some ((Nat.log2 m : Int) + e)
  | _ => none

/-- A product cut toward zero in units of 2^w, and whether something was cut (11 R212). -/
def Num.cut (w : Int) : Num → Int × Bool
  | .fin neg m e =>
    if w ≤ e then (signedOf neg (m * 2 ^ (e - w).toNat), false)
    else (signedOf neg (m / 2 ^ (w - e).toNat), m % 2 ^ (w - e).toNat != 0)
  | _ => (0, false)

/-- The sign, as 1 or −1, of a finite value plus v in units of 2^w; 1 for zero. -/
def signPlus (x : Num) (v w : Int) : Int :=
  match x with
  | .fin neg m e => if (addExact (signedOf neg m) e v w).1 < 0 then -1 else 1
  | _ => 1

/-- BlockW of 11 R212 on the decoded rows. -/
def blockW (acc : BitVec 32) (a b : List (Option Num)) : BitVec 32 × Flags :=
  let ps := products a b
  let inf (neg : Bool) : Bool := ps.any fun p => p.1 == .inf neg
  if ps.any (fun p => p.1 == .nan) || (inf true && inf false) then (nan32, Flags.nv1)
  else if inf true then fAdd 0 acc 0xFF800000
  else if inf false then fAdd 0 acc 0x7F800000
  else
    let logs := ps.filterMap fun p => p.1.log
    match logs with
    | [] => accPlus acc 0 0
    | l :: ls =>
      let w := ls.foldl max l - 96
      let cuts := ps.map fun p => p.1.cut w
      let v := (cuts.map Prod.fst).foldl (· + ·) 0
      let sticky : Int := if cuts.any Prod.snd then signPlus (f32 acc) v w else 0
      accPlus acc (2 * v + sticky) (w - 1)

/-- The bits of an accumulator's flags that some flags set (13 R240). -/
def Flags.accBits (f : Flags) : BitVec 5 :=
  (if f.nv = 0 then 0 else 1) ||| (if f.of = 0 then 0 else 2) ||| (if f.uf = 0 then 0 else 4) |||
  (if f.nx = 0 then 0 else 8) ||| (if f.inv = 0 then 0 else 16)

/-! ## The array (13 R247 to R250) -/

/-- An element of an accumulator. -/
def Core.elem (c : Core) (acc i j : Nat) : BitVec 32 := mapGet 0 (4096 * acc + 64 * i + j) c.acc

/-- An element replaced; one that is 0 is not listed. -/
def setElem (acc i j : Nat) (m : Map (BitVec 32)) (x : BitVec 32) : Map (BitVec 32) :=
  let k := 4096 * acc + 64 * i + j
  if x = 0 then m.filter (fun e => e.1 != k) else mapSet k x m

/-- The flags of an accumulator replaced. -/
def Core.setFlags (c : Core) (acc : Nat) (f : BitVec 5 → BitVec 5) : Core :=
  { c with accFlags := Vector.ofFn fun k => if k.val = acc then f c.accFlags[k] else c.accFlags[k] }

/-- A footprint: its space, its first byte and the byte after its last (15 R289). -/
def State.footprint (s : State) (cid : Nat) (c : Reg) (len : Nat) : Nat × Nat × Nat :=
  match s.place cid c.cursor with
  | .pad k _ off => (k + 1, off, off + len)
  | .mapped a => (0, a, a + len)
  | .hole => (0, 0, 0)

/-- A lock of the table that keeps an entry from starting (13 R250): a locked destination, and for an mst a locked source too. -/
def Quire.spanLocked (q : Quire) (store : Bool) (f : Nat × Nat × Nat) : Bool :=
  q.locks.any fun l => (store || l.dst) && l.space == f.1 && decide (l.lo < (f.2.2 : Int)) && decide ((f.2.1 : Int) < l.hi)

/-- Whether the range-lock table keeps an entry of a core from starting (13 R250). -/
def State.entryLocked (s : State) (cid : Nat) (x : MEntry) : Bool :=
  let q := s.quire (quireOfCore cid)
  if x.fn ≤ 4 then
    q.spanLocked false (s.footprint cid x.a (spanOf x.fn (geM x.ge) x.ge)) ||
      q.spanLocked false (s.footprint cid x.b (spanOf x.fn (geN x.ge) x.ge))
  else if x.fn = 5 then false
  else q.spanLocked (x.fn == 7) (s.footprint cid x.a (imageBytes x.ge))

/-- The oldest ready entry of a core that the array, or the transfer path, takes (13 R247), and the queue with what this
consultation of the locks leaves. -/
def State.readyEntry (s : State) (cid : Nat) (path : Bool) (before : List MEntry) :
    List MEntry → List MEntry × Option Nat
  | [] => ([], none)
  | x :: l =>
    let mine := decide (6 ≤ x.fn) == path && !before.any (·.acc == x.acc)
    if mine && (x.started || !s.entryLocked cid x) then
      ({ x with started := true, waiting := false } :: l, some before.length)
    else
      let y := if mine then { x with waiting := true } else x
      let r := s.readyEntry cid path (before ++ [x]) l
      (y :: r.1, r.2)

/-- The core whose turn it is, its queue, and which entry (13 R248): round-robin after the core served last. -/
def State.takeEntry (s : State) (qid last : Nat) (path : Bool) : Option (Nat × List MEntry × Nat) :=
  [1, 2, 3, 4].findSome? fun k =>
    let cid := 4 * qid + (last + k) % 4
    match s.readyEntry cid path [] (s.core cid).mq with
    | (l, some i) => some (cid, l, i)
    | _ => none

/-- The queues of a quire with every entry marked that waits on a lock now (13 R240, R250). -/
def State.markWaiting (s : State) (qid : Nat) (path : Bool) : State :=
  forAll (coresOf qid) (fun s cid =>
    match s.readyEntry cid path [] (s.core cid).mq with
    | (l, none) => if l = (s.core cid).mq then s else s.onCore cid fun c => { c with mq := l }
    | _ => s) s

/-- Where the rows of an operand begin. -/
def State.operandLoc (s : State) (cid : Nat) (c : Reg) : Nat :=
  match s.place cid c.cursor with
  | .pad k _ off => padLoc k off
  | _ => 0

/-- The bytes of block `b` of an operand that hold its `k` terms in extent (13 R241, R243, R245). -/
def operandBytes (fn r : Nat) (e : Word) (loc b k : Nat) : List Nat :=
  (List.range r).flatMap fun i =>
    (List.range (termBytes fn k)).map fun t => loc + i * (blockBytes fn * geKb e) + b * blockBytes fn + t

/-- The scale bytes of all blocks of an operand of `r` rows (13 R241). -/
def operandScales (fn r : Nat) (e : Word) (loc : Nat) : List Nat :=
  if scaled fn then (List.range (r * geKb e)).map fun i => loc + 64 * (blockBytes fn * geKb e) + i else []

/-- The scale bytes that the start-up of an mma reads (13 R237); none are left to read when it has. -/
def State.startScales (s : State) (cid : Nat) (x : MEntry) : List Nat :=
  if x.scales = [] then
    operandScales x.fn (geM x.ge) x.ge (s.operandLoc cid x.a) ++ operandScales x.fn (geN x.ge) x.ge (s.operandLoc cid x.b)
  else []

/-- The terms of a row in the block that an entry runs next. -/
def MEntry.terms (x : MEntry) : Nat := if x.next + 1 < geKb x.ge then 256 else geKl x.ge

/-- The bytes that the next block of an mma fetches, with its start-up (13 R237, R245). -/
def State.blockBytesOf (s : State) (cid : Nat) (x : MEntry) : List Nat :=
  operandBytes x.fn (geM x.ge) x.ge (s.operandLoc cid x.a) x.next x.terms ++
    operandBytes x.fn (geN x.ge) x.ge (s.operandLoc cid x.b) x.next x.terms ++ s.startScales cid x

/-- The scale byte at a location as an entry has read it, or reads it now. -/
def MEntry.scaleAt (x : MEntry) (m : List Host.Cell) (loc : Nat) : Nat :=
  match x.scales.find? (·.1 == loc) with
  | some b => b.2.toNat
  | none => readNat m loc 1

/-- One block of an entry applied (13 R253): every in-extent element, and the flags they raise. -/
def State.runBlock (s : State) (cid : Nat) (x : MEntry) : State :=
  let kb := geKb x.ge
  let rs := blockBytes x.fn * kb
  let k := x.terms
  let la := s.operandLoc cid x.a
  let lb := s.operandLoc cid x.b
  let row (loc i : Nat) : List (Option Num) := rowTerms x.fn s.mem (loc + i * rs + x.next * blockBytes x.fn) k
  let sc (loc i : Nat) : Nat := x.scaleAt s.mem (loc + 64 * rs + i * kb + x.next)
  let rowsB := (List.range (geN x.ge)).map fun j => (j, row lb j, sc lb j)
  let c := s.core cid
  let block (acc : BitVec 32) (a b : List (Option Num)) (sa sb : Nat) : BitVec 32 × Flags :=
    match x.fn with
    | 0 => blockT (-12) acc a b sa sb
    | 1 => blockT (-8) acc a b sa sb
    | 2 => blockI acc a b
    | _ => blockW acc a b
  let r := (List.range (geM x.ge)).foldl (fun st i =>
    let ra := row la i
    let sa := sc la i
    rowsB.foldl (fun (st : Map (BitVec 32) × Flags) y =>
      let v := block (c.elem x.acc i y.1) ra y.2.1 sa y.2.2
      (setElem x.acc i y.1 st.1 v.1, st.2.add v.2)) st) (c.acc, Flags.none)
  s.setCore cid ({ c with acc := r.1 }.setFlags x.acc (· ||| r.2.accBits))

/-- The queue of a core with an entry replaced, or removed when it is complete. -/
def State.putEntry (s : State) (cid i : Nat) (x : MEntry) (complete : Bool) : State :=
  s.onCore cid fun c => { c with mq := if complete then c.mq.eraseIdx i else c.mq.set i x }

/-- MATRIX_BLOCK (13 R237, R248, R253, R254): operand, the quire. The array runs the next block of one core, the first with its start-up,
or its mzero; a press fetch waits for a sector that an uncommitted chunk has written (R245). -/
def execMatrixBlock (s : State) : Host.Outcome State Fault Refusal :=
  let qid := s.argN 0
  let s := s.markWaiting qid false
  match s.takeEntry qid (s.quire qid).lastArr false with
  | none => .next s
  | some (cid, l, i) =>
    let s := s.onCore cid fun c => { c with mq := l }
    match l[i]? with
    | none => .next s
    | some x =>
      if x.fn = 5 then
        let s := s.onCore cid fun c =>
          { c with acc := c.acc.filter fun e => e.1 / 4096 != x.acc }.setFlags x.acc fun _ => 0
        .next ((s.putEntry cid i x true).onQuire qid fun q => { q with lastArr := cid % 4 })
      else
        if (s.blockBytesOf cid x).any fun b => (s.padWriter none b).isSome then .next s
        else
          let read := (s.startScales cid x).map fun b => (b, readByte s.mem b)
          let s := (s.runBlock cid x).putEntry cid i { x with next := x.next + 1, scales := x.scales ++ read }
            (decide (geKb x.ge ≤ x.next + 1))
          .next (s.onQuire qid fun q => { q with lastArr := cid % 4 })

/-- Sector `k` of the image of an accumulator (13 R255). -/
def imageSector (c : Core) (acc : Nat) (e : Word) (k : Nat) : BitVec 128 :=
  let word (q : Nat) : Nat :=
    if q < geM e * geN e then (c.elem acc (q / geN e) (q % geN e)).toNat
    else if q = geM e * geN e then (c.accFlags.toList.getD acc 0).toNat else 0
  BitVec.ofNat 128 (word (4 * k) + 2 ^ 32 * word (4 * k + 1) + 2 ^ 64 * word (4 * k + 2) + 2 ^ 96 * word (4 * k + 3))

/-- An accumulator after sector `k` of its image has been read (13 R255). -/
def loadSector (c : Core) (acc : Nat) (e : Word) (k : Nat) (x : BitVec 128) : Core :=
  (List.range 4).foldl (fun c j =>
    let q := 4 * k + j
    let w : BitVec 32 := x.extractLsb' (32 * j) 32
    if q < geM e * geN e then { c with acc := setElem acc (q / geN e) (q % geN e) c.acc w }
    else if q = geM e * geN e then c.setFlags acc fun _ => w.setWidth 5 else c) c

/-- How many sectors of a transfer touch the image's bytes [0, 4mn + 16); an image whose elements do not fill whole sectors
ends within its last one. -/
def MEntry.sectors (x : MEntry) : Nat := (imageBytes x.ge + 15) / 16

/-- The bytes of sector `k` that belong to the image. -/
def MEntry.sectorBits (x : MEntry) (k : Nat) : BitVec 128 := bitsFor (min 16 (imageBytes x.ge - 16 * k))

/-- An access that the strand of a transfer issued before it, to a line that its next sector lies in, is not performed
(13 R250, 16 R318). -/
def State.transferHeld (s : State) (x : MEntry) (loc : Nat) : Bool :=
  let line := lineOf (s.real loc)
  let hits (l : Nat) : Bool := lineOf (s.real l) == line
  (s.remotes.any fun r => r.sid == x.sid && decide (r.id < x.id) && !r.performed && r.failed.isNone && match r.kind with
    | .store l _ _ _ | .rmw _ _ l _ _ _ _ _ => hits l
    | .move _ _ _ _ parts => parts.any fun p => hits p.loc
    | _ => false) ||
  s.msgs.any fun m => match m.kind with
    | .amo sid _ l _ _ _ _ => sid == x.sid && decide (m.id < x.id) && hits l
    | _ => false

/-- ACC_TRANSFER (13 R248, R251, R255): operand, the quire. The transfer path moves the next sector of the one transfer that
has begun, or begins the next one. -/
def execAccTransfer (s : State) : Host.Outcome State Fault Refusal :=
  let qid := s.argN 0
  let s := s.markWaiting qid true
  let begun := (coresOf qid).findSome? fun cid =>
    ((s.core cid).mq.findIdx? fun x => 6 ≤ x.fn && x.started).map fun i => (cid, (s.core cid).mq, i)
  match begun.or (s.takeEntry qid (s.quire qid).lastXfer true) with
  | none => .next s
  | some (cid, l, i) =>
    let s := (s.onCore cid fun c => { c with mq := l }).onQuire qid fun q => { q with lastXfer := cid % 4 }
    match l[i]? with
    | none => .next s
    | some x =>
      match x.locs[x.next]? with
      | none => .next (s.putEntry cid i x true)
      | some loc =>
        if s.transferHeld x loc then .next s
        else if !s.reachable (dieOfCore cid) loc then
          .next ((s.lostAccess x.sid loc).putEntry cid i { x with next := x.next + 1 } (decide (x.sectors ≤ x.next + 1))) else
        let last := decide (x.sectors ≤ x.next + 1)
        let go (s : State) : State := s.putEntry cid i { x with next := x.next + 1 } last
        if x.fn = 6 then
          if (s.padWriter none loc).isSome then .next s
          else .next (go (s.onCore cid fun c => loadSector c x.acc x.ge x.next (s.sectorAt loc).bits))
        else
          match s.sectorsHeld none [loc] with
          | some _ => .next s
          | none =>
            let loc := s.real loc
            let s := s.writeSector loc (imageSector (s.core cid) x.acc x.ge x.next) (x.sectorBits x.next) false
            .next (go (s.squashHome loc [lineOf loc] none))

end Sys2Proof.Machine
end

