-- ==== Sys2Proof/Machine/Translation.lean ====
section
/-! DEFINITION. Store-fault and translation control, major 0x1B, and the events that fill the PLB and the page buffer and
answer a page fault (08 R153 to R167). -/

namespace Sys2Proof.Machine

open Sys2Proof

/-- sfq.rd (08 R166). The spec states no value for its ILL (DESIGN CHOICE, assumption 5). -/
def execSfqRd (x y zr : BitVec 6) (s : State) : Host.Outcome State Fault Refusal :=
  issue false [.g x, .g y, .g zr] s fun s =>
    if (x = y ∧ x ≠ 0) ∨ (x = zr ∧ x ≠ 0) ∨ (y = zr ∧ y ≠ 0) then .trap s .ill (s.free 0)
    else
      let ws : List RegWrite := match s.sfView s.cur with
        | [] => [.g x (.data 0), .g y (.data 0), .g zr (.data 0)]
        | r :: _ => [.g x (.data r.addr), .g y { bits := r.data, tag := false }, .g zr (.data r.info)]
      .done (s.setPending [.g x, .g y, .g zr] (.ready ws .none))

/-- sfq.pop (08 R166). -/
def execSfqPop (s : State) : Host.Outcome State Fault Refusal :=
  issue false [] s fun s =>
    match s.sfView s.cur with
    | [] => .done (s.onArch s.cur fun a => { a with ovfClear := true })
    | [_] => .done (s.onArch s.cur fun a => { a with popped := a.popped + 1, ovfClear := true })
    | _ => .done (s.onArch s.cur fun a => { a with popped := a.popped + 1 })

/-- The chunks of the package that have done something and have not committed, but the open one of a strand (08 R167), and the
accesses in flight that have their translation (08 R165) (DEDUCED, assumption 50). -/
def State.openChunks (s : State) (self : Option Nat) : List OpenRef :=
  (s.strands.flatMap fun t =>
    (t.2.chunks.filter fun c => (c.count != 0 || c.reads != [] || c.held != [] || c.undo != []) &&
      !(some t.1 == self && c.id == t.2.openId)).map fun c => .chunk t.1 c.id) ++
  (s.remotes.filterMap fun r => match r.kind with
    | .mig _ _ _ => none
    | _ => if r.performed || r.failed.isSome then none else some (.remote r.id)) ++
  (s.msgs.filterMap fun m => match m.kind with
    | .amo _ _ _ _ _ _ _ | .version _ => some (.msg m.id)
    | _ => none) ++
  s.cores.flatMap fun c => c.2.mq.filterMap fun e => if 6 ≤ e.fn then some (.entry c.1 e.id) else none

/-- What every strand has looked up, changed. -/
def Wait.mapGot (f : Looked → Looked) : Wait → Wait
  | .plb a g => .plb a (f g)
  | .xlate a g => .xlate a (f g)
  | .looked g => .looked (f g)
  | w => w

/-- An invalidation of every core of the package: of its tables, and of what its strands have looked up. -/
def State.invalidate (s : State) (core : Core → Core) (got : Looked → Looked) : State :=
  { s with
    cores := s.cores.map fun c => (c.1, core c.2)
    strands := s.strands.map fun t => (t.1, { t.2 with wait := t.2.wait.mapGot got }) }

/-- plb.inv and map.inv (08 R167): they act at every core, then the strand waits for the chunks that were open. -/
def invalidating (x y : BitVec 6) (act : State → State) (s : State) : Host.Outcome State Fault Refusal :=
  issue true [.g x, .g y] s fun s =>
    match (s.strand s.cur).wait with
    | .inval l => if l.any s.stillOpen then .hold s else .done s
    | _ => .hold ((act s).waiting (.inval (s.openChunks (some s.cur))))

/-- The PLB entries that plb.inv removes. -/
def plbGone (x y : Word) (p : PlbEntry) : Bool :=
  (x.getLsbD 8 || p.domain == (x.extractLsb' 0 8).toNat) && (x.getLsbD 9 || p.covers y.toNat)

/-- plb.inv (08 R167). -/
def execPlbInv (x y : BitVec 6) (s : State) : Host.Outcome State Fault Refusal :=
  invalidating x y (fun s =>
    let a := s.arch s.cur
    let keep (l : List PlbEntry) : List PlbEntry := l.filter fun p => !plbGone (a.word x) (a.word y) p
    s.invalidate (fun c => { c with plb := keep c.plb }) fun g => { g with plb := keep g.plb }) s

/-- The invalidation of a page (08 R167): page-buffer entries, and L1 lines, whose dirty sectors are written back. -/
def State.invalidatePage (s : State) (page : Nat) (big : Bool) : State :=
  let size := if big then 2 ^ 25 else 2 ^ 16
  let base := page / size * size
  let keep (l : List PageEntry) : List PageEntry := l.filter fun e => !(e.big == big && e.page == base)
  let lines (l : List L1Line) : List L1Line := l.filter fun x => !(x.line * 128 / size * size == base)
  s.invalidate (fun c => { c with pages := keep c.pages, l1 := lines c.l1, fills := lines c.fills })
    fun g => { g with pages := keep g.pages }

/-- map.inv (08 R167). -/
def execMapInv (x y : BitVec 6) (s : State) : Host.Outcome State Fault Refusal :=
  invalidating x y (fun s =>
    let a := s.arch s.cur
    s.invalidatePage (a.word x).toNat ((a.word y).getLsbD 0)) s

/-! ## Fills and lookups -/

/-- PLB_FILL (08 R154): operand sid. -/
def execPlbFill (s : State) : Host.Outcome State Fault Refusal :=
  let sid := s.argN 0
  match (s.strand sid).wait with
  | .plb a got =>
    match s.plbLookup (coreOf sid) (s.strand sid).domain.toNat a with
    | some p =>
      .next ((s.onCore (coreOf sid) fun c => { c with plb := install 64 p (c.plb.filter (· ≠ p)) }).onStrand sid fun t =>
        { t with wait := .looked { got with plb := p :: got.plb } })
    | none => .next (s.onStrand sid fun t => { t with wait := .looked { got with plbNone := a :: got.plbNone } })
  | _ => .next s

/-- A page-buffer entry installed (08 R157). -/
def State.fillPage (s : State) (cid : Nat) (e : PageEntry) : State :=
  s.onCore cid fun c => { c with pages := install 32 e (c.pages.filter (· ≠ e)) }

/-- The first element of a list that satisfies a test, changed. -/
def mapFirst {α : Type} (p : α → Bool) (f : α → α) : List α → List α
  | [] => []
  | x :: l => if p x then f x :: l else x :: mapFirst p f l

/-- A piece whose translation is in the background. -/
def Piece.pending (p : Piece) : Bool := p.xl == .pending

/-- The outcome of a store's translation (08 R158, R160): a frame that is not there counts before W = 0 (DESIGN CHOICE, assumption 84). -/
def State.storeXl (s : State) (a : Nat) : Option PageEntry → Xl
  | none => .failed 1
  | some e =>
    match s.under e a with
    | .ok loc e => if e.w && !e.st then .ok (loc / 16 * 16) else .failed 2
    | .failed c => .failed c
    | .miss => .failed 1

/-- TRANSLATION_LOOKUP (08 R156, R157): operand sid. It ends the wait of a load, or translates the oldest held store that
has no translation; a failed lookup is not kept in the page buffer (R159). -/
def execTranslationLookup (s : State) : Host.Outcome State Fault Refusal :=
  let sid := s.argN 0
  let t := s.strand sid
  match t.wait with
  | .xlate a got =>
    match s.lookup (coreOf sid) a with
    | some e =>
      .next ((s.fillPage (coreOf sid) e).onStrand sid fun t => { t with wait := .looked { got with pages := e :: got.pages } })
    | none => .next (s.onStrand sid fun t => { t with wait := .looked { got with pageNone := a :: got.pageNone } })
  | _ =>
    match t.held.find? Piece.pending with
    | none => .next s
    | some p =>
      let a := p.addr.toNat
      let e := s.entryAt (coreOf sid) a
      let s' := match e with
        | some e => s.fillPage (coreOf sid) e
        | none => s
      let held (l : List Piece) : List Piece := mapFirst Piece.pending (fun q => { q with xl := s.storeXl a e }) l
      let chunks (l : List Chunk) : List Chunk :=
        mapFirst (fun c => c.held.any Piece.pending) (fun c => { c with held := held c.held }) l
      .next (s'.onStrand sid fun t => { t with chunks := chunks t.chunks })

end Sys2Proof.Machine
end

