-- ==== Sys2Proof/Machine/Spine.lean ====
section
/-! DEFINITION. What the Spine, the caches and the die bring about by themselves for a strand: chunk ends and commits (01 R16,
17 R334 to R337), results that land (05 R83), fills (05 R89, 06 R104), sibling reads (06 R113), trap entry (07 R127 to R131),
machine checks (07 R147) and mismatches of a pair (07 R149). -/

namespace Sys2Proof.Machine

open Sys2Proof

/-! ## Chunks -/

/-- CHUNK_LIMIT (01 R16): operand sid. A full chunk ends, and the strand begins the next one. -/
def execChunkLimit (s : State) : Host.Outcome State Fault Refusal :=
  let sid := s.argN 0
  .next (s.onStrand sid fun t =>
    match t.opened with
    | some c => if (s.core (coreOf sid)).chunklim.toNat ≤ c.count then t.nextOpen s.ticks else t
    | none => t)

/-- LINE_LIMIT (01 R16): operand sid. The chunk ends before the access that would pass a line limit
(DEDUCED, assumption 28). -/
def execLineLimit (s : State) : Host.Outcome State Fault Refusal :=
  let sid := s.argN 0
  if (s.strand sid).wait = .lineLimit then
    .next (s.onStrand sid fun t => { t.nextOpen s.ticks with wait := .none })
  else .next s

/-- The strands whose uncommitted chunks keep the matrix entries of a core from their next blocks (13 R245). -/
def State.pressWaits (s : State) (cid : Nat) : List Nat :=
  (s.core cid).mq.flatMap fun x => if x.fn ≤ 4 then (s.blockBytesOf cid x).filterMap (s.padWriter none) else []

/-- A strand's next instruction is a member of 0x23 and its core's queue has no free entry (13 R247). -/
def State.queueFull (s : State) (sid : Nat) : Bool :=
  decide (2 ≤ (s.core (coreOf sid)).mq.length) && match s.nextWord sid with
    | .run _ w _ => (w.extractLsb' 25 6).toNat == 0x23
    | _ => false

/-- The strands on whose uncommitted chunks a strand's chunk waits (17 R339): by a wait of its own, by a read at another core's port,
by a held store to another core's scratchpad, by an atomic there, and by a matrix entry of its core that a press fetch keeps from
its next block while the strand waits for the queue. -/
def State.waitsOn (s : State) (sid : Nat) : List Nat :=
  let t := s.strand sid
  (match t.wait with
   | .chunk w => [w]
   | .array _ => s.pressWaits (coreOf sid)
   | _ => if s.queueFull sid then s.pressWaits (coreOf sid) else []) ++
  (t.out.flatMap fun o => match o.src with
    | .load l => l.need.flatMap fun n => if n.port = .sibling then n.locs.filterMap (s.padWriter (some sid)) else []
    | _ => []) ++
  (t.held.filterMap fun p => match p.xl with
    | .ok loc => s.padWriter (some sid) loc
    | _ => none) ++
  s.msgs.filterMap fun m => match m.kind with
    | .amo sid' _ loc _ _ _ _ => if sid' = sid then s.padWriter (some sid) loc else none
    | _ => none

/-- The strands reached from some by waits, in at most `n` steps. -/
def State.reach (s : State) : Nat → List Nat → List Nat
  | 0, l => l
  | n + 1, l => s.reach n (l ++ l.flatMap s.waitsOn).eraseDups

/-- The strands of a cycle of waits through a strand (DEDUCED, assumption 74). -/
def State.cycle (s : State) (sid : Nat) : List Nat :=
  let n := s.strands.length
  (s.reach n (s.waitsOn sid)).filter fun u => u == sid || (s.reach n (s.waitsOn u)).contains sid

/-- Where the chunk of a strand that others wait on begins, with its place in the list: the first that has written in
place. -/
def Strand.writing (t : Strand) : Option (Nat × Nat) :=
  (t.chunks.zipIdx.find? fun c => c.1.undo != [] && !c.1.pinned).map fun c => (c.1.born, c.2)

/-- Of some strands, the one whose writing chunk began latest. -/
def State.latest (s : State) (l : List Nat) : Option (Nat × Nat) :=
  (l.foldl (fun best u =>
    match (s.strand u).writing with
    | none => best
    | some (born, k) =>
      match best with
      | some (b, _, _) => if b ≤ born then some (born, u, k) else best
      | none => some (born, u, k)) none).map fun x => (x.2.1, x.2.2)

/-- The release of waits (17 R339): a chunk on which the pinned chunk waits is squashed, and so is the latest chunk of a cycle
of waits through a strand. -/
def State.breakWaits (s : State) (sid : Nat) : State :=
  let blocking := match s.pinned (dieOf sid) with
    | some p => s.waitsOn p
    | none => []
  let l := if blocking = [] then (if (s.cycle sid).contains sid then s.cycle sid else []) else blocking
  match s.latest l with
  | some (u, k) => s.squash u k true false
  | none => s

/-- CHUNK_COMMIT (17 R336): operand sid. The Spine commits the strand's oldest chunk, if it has ended and is accepted. STFLT
is raised for a store it discards (08 R160), but for a group that is quit (07 R140). -/
def execChunkCommit (s : State) : Host.Outcome State Fault Refusal :=
  let sid := s.argN 0
  let t := s.strand sid
  match t.chunks with
  | c :: _ :: _ =>
    if s.canCommit sid c then
      match s.commitOldest sid with
      | (s, none) => .next s
      | (s, some a) =>
        if (s.core (coreOf sid)).quit.contains t.arch.group then .next s
        else .next ((s.dropLater sid).raise sid .stflt a)
    else .next (s.breakWaits sid)
  | _ => .next (s.breakWaits sid)

/-- PAIR_MISMATCH (07 R149): operands sid, and how many younger chunks of the strand stand behind the one in which a write-back, or at
its commit the write-hold or undo log, differs. That chunk is squashed and run again; the third mismatch in one chunk is a machine
check of both cores with unit 9. -/
def execPairMismatch (s : State) : Host.Outcome State Fault Refusal :=
  let sid := s.argN 0
  let t := s.strand sid
  if (s.core (coreOf sid)).paired && t.firing.isSome then
    let k := t.chunks.length - 1 - s.argN 1
    match t.chunks[k]? with
    | none => .next s
    | some c =>
      if 2 ≤ c.mism then .next (s.machineCheck (coreOf sid) (strandsOf (coreOf sid)) 9)
      else
        let s := s.onCore (coreOf sid) fun k => { k with recov := min (k.recov + 1) 0xFFFFFFFF }
        .next (s.squash sid k false true)
  else .next s

/-! ## Results -/

/-- A result of a strand by its number. -/
def Strand.outOf (t : Strand) (k : Nat) : Option Out := t.out.find? (·.id == k)

/-- The held stores that a scale byte completes, and the flags they raise (06 R113). -/
def encodeHeld (k : Nat) (byte : Nat → Byte) (l : List Piece) : List Piece × Flags :=
  l.foldl (fun x p => let r := p.encode k byte; (x.1 ++ [r.1], x.2.add r.2)) ([], Flags.none)

/-- The strand with the stores that wait for result `k` encoded, and the flags they raise. -/
def Strand.encodeStores (t : Strand) (k : Nat) (byte : Nat → Byte) : Strand × Flags :=
  ({ t with chunks := t.chunks.map fun c => { c with held := (encodeHeld k byte c.held).1 } },
   (t.chunks.map fun c => (encodeHeld k byte c.held).2).foldl Flags.add Flags.none)

/-- A result lands: it is no longer outstanding (05 R83). One of a squashed chunk is discarded (05 R85). -/
def Strand.settleOut (t : Strand) (o : Out) (ws : List RegWrite) (fl : Flags) : Strand :=
  { (if o.dead then t else t.land o.chunk o.smode ws fl) with out := t.out.filter (·.id != o.id) }

/-- RESULT_RETURN (03 R56, 05 R83): operands sid, the number of the result. -/
def execResultReturn (s : State) : Host.Outcome State Fault Refusal :=
  let sid := s.argN 0
  let t := s.strand sid
  match t.outOf (s.argN 1) with
  | none => .next s
  | some o =>
    match o.src with
    | .ready ws fl => .next (s.setStrand sid (t.settleOut o ws fl))
    | .divide ws => .next (s.setStrand sid (t.settleOut o ws .none))
    | .load l =>
      if l.need != [] then .next s
      else
        let r := l.result
        let e := t.encodeStores o.id l.byte
        .next (s.setStrand sid (e.1.settleOut o r.1 (r.2.add e.2)))
    | _ => .next s

/-- The bytes of a group of a load read at once. -/
def LoadReq.take (l : LoadReq) (j : Nat) (byte : Nat → Byte) (tag : Bool) : LoadReq :=
  match l.need[j]? with
  | none => l
  | some n => { l with need := l.need.eraseIdx j, got := l.got ++ n.locs.map fun b => (b, byte b), tag := tag }

/-- The tag a load reads with a group of bytes: that of the whole raw sector it names (04 R71), on another die too
(DEDUCED, assumption 83). -/
def State.needTag (s : State) (l : LoadReq) : Bool :=
  match wholeSector l.elems with
  | some b => tagAt s.tags (s.real b / 16)
  | none => l.tag

/-- A load's group `j` is read now. -/
def State.readNeed (s : State) (sid k j : Nat) : State :=
  s.onStrand sid fun t =>
    { t with out := t.out.map fun o =>
        if o.id = k then
          match o.src with
          | .load l => { o with src := .load (l.take j s.byteAt (s.needTag l)) }
          | _ => o
        else o }

/-- An access of a strand that cannot reach its target: the registers it was to write settle to zero and the strand takes MCHK
(16 R327). -/
def State.readLost (s : State) (sid k loc : Nat) : State :=
  let dsts := (((s.strand sid).outOf k).map Out.dsts).getD []
  (s.answer sid k (dsts.map zeroWrite) Flags.none).lostAccess sid loc

/-- SIBLING_ACCESS (06 R113): operands sid, result, group. A read at another core's port waits for a sector that the owner's
uncommitted chunk has written. -/
def execSiblingAccess (s : State) : Host.Outcome State Fault Refusal :=
  let sid := s.argN 0
  match ((s.strand sid).outOf (s.argN 1)).map Out.src with
  | some (.load l) =>
    match l.need[s.argN 2]? with
    | some n =>
      if n.port = .sibling ∧ n.locs.all (fun b => (s.padWriter (some sid) b).isNone) then
        .next (s.readNeed sid (s.argN 1) (s.argN 2))
      else .next s
    | none => .next s
  | _ => .next s

/-! ## Fills of the caches -/

/-- The bytes of a line at a location. -/
def State.lineData (s : State) (loc : Nat) : BitVec 1024 :=
  BitVec.ofNat 1024 (natOfBytes ((List.range 128).map fun j => s.byteAt (loc + j)))

/-- ICACHE_FILL (05 R89): operand sid. The line arrives; a fetch that has no translation traps PGFLT (DEDUCED, assumption 21), one of
the shadow half of a stamped page ALIGN (19 R360), and one of a line that cannot be reached is a machine check. -/
def execIcacheFill (s : State) : Host.Outcome State Fault Refusal :=
  let sid := s.argN 0
  match (s.strand sid).wait with
  | .fetch a =>
    match s.entryAt (coreOf sid) a with
    | none => .next (s.raise sid .pgflt (BitVec.ofNat 64 a))
    | some e =>
      match s.under e (a / 128 * 128) with
      | .ok loc e =>
        if e.st && decide (32768 ≤ a % 65536) then .next (s.raise sid .align (BitVec.ofNat 64 a))
        else if !s.reachable (dieOf sid) loc then .next (s.raise sid .mchk (BitVec.ofNat 64 (loc / 16 * 256 + 6))) else
        let x : ILine := { line := a / 128, data := s.lineData loc }
        .next (((s.fillPage (coreOf sid) e).onCore (coreOf sid) fun c => { c with icache := cacheLine x c.icache }).onStrand
          sid fun t => { t with wait := .none })
      | _ => .next (s.raise sid .pgflt (BitVec.ofNat 64 a))
  | _ => .next s

/-- A sector filled into the L1 (06 R102, R104): into its line, or into a new line of an 8-way set, the least recently used
out, whose dirty sectors are written back. -/
def l1Install (sets : Nat) (x : L1Line) (l : List L1Line) : List L1Line :=
  if sets = 0 then l
  else match l.find? (·.line == x.line) with
    | some y => { y with valid := y.valid ||| x.valid } :: l.filter (·.line != x.line)
    | none =>
      let same := l.filter fun y => y.line % sets == x.line % sets
      x :: l.filter fun y => y.line % sets != x.line % sets || (same.take 7).contains y

/-- L1_FILL (06 R104): operands cid, which fill of the core's. -/
def execL1Fill (s : State) : Host.Outcome State Fault Refusal :=
  .next (s.onCore (s.argN 0) fun c =>
    match c.fills[s.argN 1]? with
    | none => c
    | some x => { c with fills := c.fills.eraseIdx (s.argN 1), l1 := l1Install (l1Sets c.msplit.toNat) x c.l1 })

/-! ## Traps, machine checks, idle and ebrk -/

/-- TRAP_ENTRY (07 R127 to R131): operand sid. The strand enters the handler of the cause that waits, or takes the next
pending cause at its chunk boundary. -/
def execTrapEntry (s : State) : Host.Outcome State Fault Refusal :=
  let sid := s.argN 0
  if (s.strand sid).trap.isSome then .next (s.tryTrap sid) else .next (s.takeCause sid)

/-- MACHINE_CHECK (07 R147): operands sid, unit, address. The strand that holds the state, or strand 0 of its core for the scratchpad
and the accumulators, takes MCHK at its next chunk boundary; a core reports one of a strand without a firing directly (R127). -/
def execMachineCheck (s : State) : Host.Outcome State Fault Refusal :=
  let unit := s.argN 1
  let sid := if unit = 3 ∨ unit = 7 then s.argN 0 / 4 * 4 else s.argN 0
  let v : Word := BitVec.ofNat 64 (s.argN 2 / 16 * 256 + unit)
  if unit = 0 ∨ 7 < unit then .next s
  else if (s.strand sid).firing.isSome then .next (s.onStrand sid fun t => { t with mchk := some v })
  else .next (s.machineCheck (coreOf sid) [] v)

/-- IDLE_TIMEOUT (07 R136): operand sid. How many cycles pass is a matter of timing (DESIGN CHOICE, assumption 8). -/
def execIdleTimeout (s : State) : Host.Outcome State Fault Refusal := .next (s.wakeIdle (s.argN 0))

/-- EBRK_RELEASE (07 R137): operand sid. -/
def execEbrkRelease (s : State) : Host.Outcome State Fault Refusal :=
  .next (s.onStrand (s.argN 0) fun t => { t with halted := false })

end Sys2Proof.Machine
end

