-- ==== Sys2Proof/Machine/Atomic.lean ====
section
/-! DEFINITION. Atomic operations and top-k records, major 0x1C (09 R168 to R174). -/

namespace Sys2Proof.Machine

open Sys2Proof

/-! ## The operations (09 R171 to R174) -/

/-- New value of an integer operation of width `w` (09 R171): `op` as in its table, 9 is cas with the expected value `e`. -/
def atomInt {w : Nat} (op : Nat) (old x e : BitVec w) : BitVec w :=
  match op with
  | 0 => old + x
  | 1 => old &&& x
  | 2 => old ||| x
  | 3 => old ^^^ x
  | 4 => if x.slt old then x else old
  | 5 => if old.slt x then x else old
  | 6 => if x.ult old then x else old
  | 7 => if old.ult x then x else old
  | 8 => x
  | _ => if old = e then x else old

/-- The result of an operation at .w (09 R171). -/
def atomRes (op : Nat) (old : BitVec 32) : Word :=
  if op = 6 ∨ op = 7 ∨ op = 10 then old.setWidth 64 else old.signExtend 64

/-- A score as a number to compare: both zeros are equal. -/
def scoreKey (x : BitVec 32) : Int := if x &&& 0x7FFFFFFF = 0 then 0 else order32 x

/-- Entry `p` of a top-k record ranks before entry `q` (09 R173); a NaN that software left ranks before nothing. -/
def ranksBefore (p q : Word) : Bool :=
  let sp := scoreKey (p.extractLsb' 32 32)
  let sq := scoreKey (q.extractLsb' 32 32)
  let ep := p.extractLsb' 0 32
  let eq := q.extractLsb' 0 32
  !isNaN32 (p.extractLsb' 32 32) && (decide (sq < sp) || (sp == sq && ep.ult eq))

/-- A top-k record: its header and its fifteen entries. -/
structure TopK where
  header : Word
  entries : List Word
  deriving DecidableEq, Repr

/-- The posts count after one more (09 R173). -/
def topPosts (h : Word) : Word :=
  let n := min ((h.extractLsb' 32 16).toNat + 1) 0xFFFF
  (h &&& ~~~(0xFFFF00000000 : Word)) ||| BitVec.ofNat 64 (n * 2 ^ 32)

/-- The header with its count field. -/
def topCount (h : Word) (n : Nat) : Word := (h &&& ~~~(0xFF00 : Word)) ||| BitVec.ofNat 64 (n * 256)

/-- The record update of 09 R174: the record after a post, and the result word. -/
def topPost (r : TopK) (x : Word) : TopK × Word :=
  let k := (r.header.extractLsb' 0 4).toNat
  let n := (r.header.extractLsb' 8 8).toNat
  let res (c result : Nat) : Word := BitVec.ofNat 64 (c * 256 + result)
  if k = 0 ∨ k < n then (r, res n 0xFF)
  else
    let h := topPosts r.header
    let score := x.extractLsb' 32 32
    if isNaN32 score then ({ r with header := h }, res n 0xFE)
    else
      let x := if score = 0x80000000 then x &&& 0xFFFFFFFF else x
      let p := ((r.entries.take n).filter fun e => ranksBefore e x).length
      if k ≤ p then ({ r with header := h ||| 0x10000 }, res n 0xFE)
      else
        let h := if n = k then h ||| 0x10000 else h
        let keep := min n (k - 1)
        let c := min (n + 1) k
        ({ header := topCount h c, entries := r.entries.take p ++ [x] ++ ((r.entries.take keep).drop p) ++ r.entries.drop c },
         res c p)

/-- The words of a run of bytes. -/
def wordsOf : Nat → List Byte → List Word
  | 0, _ => []
  | n + 1, bs => BitVec.ofNat 64 (natOfBytes (bs.take 8)) :: wordsOf n (bs.drop 8)

/-- What an atomic writes back, its result, and the flags it raises: `n` bytes were read (09 R170 to R174). -/
def atomOp (op : Nat) (wide : Bool) (x e : Word) (old : List Byte) : List Byte × Word × Flags :=
  if op = 11 then
    let ws := wordsOf 16 old
    let r := topPost { header := ws.headD 0, entries := ws.tail } x
    ((r.1.header :: r.1.entries).flatMap fun w => bytesOfNat 8 w.toNat, r.2, Flags.none)
  else if wide then
    let o : Word := BitVec.ofNat 64 (natOfBytes old)
    (bytesOfNat 8 (atomInt op o x e).toNat, o, Flags.none)
  else
    let o : BitVec 32 := BitVec.ofNat 32 (natOfBytes old)
    if op = 10 then
      let r := fAdd 0 o (x.setWidth 32)
      (bytesOfNat 4 r.1.toNat, atomRes op o, r.2)
    else (bytesOfNat 4 (atomInt op o (x.setWidth 32) (e.setWidth 32)).toNat, atomRes op o, Flags.none)

/-- The bytes of an atomic: 4, 8 or the 128 of a record. -/
def atomBytes (op : Nat) (wide : Bool) : Nat := if op = 11 then 128 else if wide then 8 else 4

/-! ## Performing one (09 R168, R169) -/

/-- Whether an atomic must wait at its home: an uncommitted chunk of another strand has written a sector of it in place (06
R113), or it would squash a pinned chunk (17 R337). -/
def State.atomHeld (s : State) (sid : Nat) (locs : List Nat) : Bool :=
  locs.any (fun l => (s.padWriter (some sid) l).isSome) ||
    match homeDie (locs.headD 0) with
    | some d => s.placeBlocked d (locs.map lineOf).eraseDups (some sid)
    | none => false

/-- A later chunk of the issuing strand that has written a sector of the own scratchpad in place is squashed, so that the
atomic's place precedes it (09 R169) (DEDUCED, assumption 49). -/
def State.undoWriters (s : State) (sid : Nat) (locs : List Nat) : State :=
  match (s.strand sid).chunks.zipIdx.find? fun c =>
      c.1.undo.any fun u => locs.any fun l => l / 16 == u.loc / 16 && decide (padOrigin ≤ l) with
  | some c => s.squash sid c.2 true false
  | none => s

/-- The read, the combination and the write at one place of the home's order (09 R169): the readers of the line are
squashed, the tags cleared. The second component is the result and its flags. -/
def State.atomic (s : State) (sid loc op : Nat) (wide : Bool) (x e : Word) : State × Word × Flags :=
  let locs := s.runLocs loc (atomBytes op wide)
  let s := s.undoWriters sid locs
  let r := atomOp op wide x e (locs.map s.byteAt)
  let s' := forAll ((locs.map s.real).zip r.1) (fun s y => s.store y.1 [y.2]) s
  (s'.squashHome (s.real loc) ((locs.map s.real).map lineOf).eraseDups none, r.2)

/-- AMO_EXECUTE (09 R168, R169): operand, the message. The next chunk of the strand may commit once its place is taken. -/
def execAmoExecute (s : State) : Host.Outcome State Fault Refusal :=
  match s.msg (s.argN 0) with
  | some { kind := .amo sid out loc op wide x e, .. } =>
    if !s.reachable (dieOf sid) loc then
      .next (((s.dropMsg (s.argN 0)).onStrand sid fun t => { t with places := t.places.filter (· != s.argN 0) }).readLost
        sid out loc)
    else if s.atomHeld sid (s.runLocs loc (atomBytes op wide)) then .next s
    else
      let r := s.atomic sid loc op wide x e
      let s := (r.1.dropMsg (s.argN 0)).onStrand sid fun t => { t with places := t.places.filter (· != s.argN 0) }
      let dst := ((s.strand sid).outOf out).bind fun o => o.dsts.head?
      let ws := match dst with
        | some (.g d) => [RegWrite.g d (.data r.2.1)]
        | _ => []
      .next (s.answer sid out ws r.2.2)
  | _ => .next s

/-! ## Issuing one (09 R170) -/

/-- The location of an atomic's target whose capability checks have passed, or what stops it: the windows, stamped pages,
protected areas, rights, range locks and the translation, in that order (09 R170, 20 R375). -/
def State.atomTarget (s : State) (rights : List Right) (a n : Nat) (topk : Bool) : Except Stop Nat :=
  let sid := s.cur
  let bytes (x : Nat) : List (Nat × Nat) := (List.range n).map fun j => (j, x + j)
  match s.place (coreOf sid) a with
  | .hole => if topk then .error (.at .align a) else .error (.at .pgflt a)
  | .pad cid win off =>
    if topk || coded win then .error (.at .align a)
    else if windowBytes win (s.padSize cid) < off + n then .error (.at .pgflt a)
    else
      let bs := padBytes win off n (s.padSize cid) (s.sclbase sid)
      if !(s.arch sid).smode && bs.any fun b => s.protectedRaw cid b.2 then .error (.at .capbnd a)
      else match (s.quire (quireOf sid)).rangeHit (cid + 1) a true bs with
        | some b => .error (.at .range b)
        | none => .ok (padLoc cid ((bs.head?.map (·.2)).getD 0))
  | .mapped va =>
    if s.stampedAt sid va then .error (.at .align a)
    else match s.plbCheck sid va rights with
      | .denied => .error (.at .plb a)
      | .miss => .error (.wait (.plb va (s.strand sid).wait.got))
      | .granted =>
        match (s.quire (quireOf sid)).rangeHit 0 a true (bytes va) with
        | some b => .error (.at .range b)
        | none =>
          match s.transLoad sid va with
          | .ok loc e => if e.w then .ok loc else .error (.at .pgflt a)
          | .failed _ => .error (.at .pgflt a)
          | .miss => .error (.wait (.xlate va (s.strand sid).wait.got))

/-- An atomic on a target of the die is on its way to its executor, and the strand's next chunk commits after it; one farther
away takes an entry of the remote-access unit (09 R169). -/
def State.sendAtomic (s : State) (va loc op : Nat) (wide : Bool) (x e : Word) (d : BitVec 6) : Act :=
  let sid := s.cur
  if locOnDie (dieOf sid) loc then
    let s' := s.setPendingT [.g d] .reply
    let s'' := s'.send (coreOf sid) (.amo sid s.serial loc op wide x e)
    .done (s''.onStrand sid fun t => { t with places := t.places ++ [s'.serial] })
  else if s.rauFull (coreOf sid) then .hold (s.waiting .full)
  else
    let s' := s.setPendingT [.g d] .reply
    .done (s'.addRemote sid (.rmw va s.serial loc op wide x e true))

/-- An atomic (09 R170). -/
def amo (op : Nat) (wide : Bool) (d a b : BitVec 6) (s : State) : Host.Outcome State Fault Refusal :=
  terminate false false (if op = 9 then [.g d, .g a, .g b] else [.g a, .g b, .g d]) s fun s =>
    let x := s.arch s.cur
    let c := x.readG a
    let n := atomBytes op wide
    match checkCap x.smode c c.cursor n [permLD, permST] n with
    | some cause => .trap s cause c.low
    | none =>
      if c.perm permTRY && x.cpdepth != 0 then .trap s .capperm c.low
      else match s.atomTarget [.r, .w] c.cursor n (op == 11) with
        | .error e => e.act s
        | .ok loc => (s.touchAccess s.cur false { lane := 0, va := c.cursor, n := n }).sendAtomic c.cursor loc op wide (x.word b) (x.word d) d

/-- amo.add.w and amo.add.d (09 R171). -/
def execAmoAdd (d a b : BitVec 6) (w : Bool) (s : State) : Host.Outcome State Fault Refusal := amo 0 w d a b s

/-- amo.and.w and amo.and.d (09 R171). -/
def execAmoAnd (d a b : BitVec 6) (w : Bool) (s : State) : Host.Outcome State Fault Refusal := amo 1 w d a b s

/-- amo.or.w and amo.or.d (09 R171). -/
def execAmoOr (d a b : BitVec 6) (w : Bool) (s : State) : Host.Outcome State Fault Refusal := amo 2 w d a b s

/-- amo.xor.w and amo.xor.d (09 R171). -/
def execAmoXor (d a b : BitVec 6) (w : Bool) (s : State) : Host.Outcome State Fault Refusal := amo 3 w d a b s

/-- amo.min.w and amo.min.d (09 R171). -/
def execAmoMin (d a b : BitVec 6) (w : Bool) (s : State) : Host.Outcome State Fault Refusal := amo 4 w d a b s

/-- amo.max.w and amo.max.d (09 R171). -/
def execAmoMax (d a b : BitVec 6) (w : Bool) (s : State) : Host.Outcome State Fault Refusal := amo 5 w d a b s

/-- amo.minz.w and amo.minz.d (09 R171). -/
def execAmoMinz (d a b : BitVec 6) (w : Bool) (s : State) : Host.Outcome State Fault Refusal := amo 6 w d a b s

/-- amo.maxz.w and amo.maxz.d (09 R171). -/
def execAmoMaxz (d a b : BitVec 6) (w : Bool) (s : State) : Host.Outcome State Fault Refusal := amo 7 w d a b s

/-- amo.swap.w and amo.swap.d (09 R171). -/
def execAmoSwap (d a b : BitVec 6) (w : Bool) (s : State) : Host.Outcome State Fault Refusal := amo 8 w d a b s

/-- amo.cas.w and amo.cas.d (09 R171). -/
def execAmoCas (d a b : BitVec 6) (w : Bool) (s : State) : Host.Outcome State Fault Refusal := amo 9 w d a b s

/-- amo.fadd.w (09 R172). -/
def execAmoFaddW (d a b : BitVec 6) (s : State) : Host.Outcome State Fault Refusal := amo 10 false d a b s

/-- amo.topk.d (09 R173, R174). -/
def execAmoTopkD (d a b : BitVec 6) (s : State) : Host.Outcome State Fault Refusal := amo 11 true d a b s

end Sys2Proof.Machine
end

