-- ==== Sys2Proof/Machine/Stitch.lean ====
section
/-! DEFINITION. Stitch: the balancer network (10 R179 to R183), contexts (R184, R185), counting (R186), barriers (R188,
R189), and major 0x1D (R194, R195). A die queue's tokens travel as tokens of its two count contexts (R193). -/

namespace Sys2Proof.Machine

open Sys2Proof

/-! ## The network (10 R179, R182) -/

/-- The elements of a list at even, or at odd, places. -/
def everyOther {α : Type} : Bool → List α → List α
  | _, [] => []
  | true, x :: l => x :: everyOther false l
  | false, _ :: l => everyOther true l

/-- The pairs of neighbours of a list. -/
def pairUp : List Nat → List (Nat × Nat)
  | a :: b :: l => (a, b) :: pairUp l
  | _ => []

/-- Merger[2^(n+1)] on a list of positions: for each layer, the top and bottom exits of its balancers. -/
def merger : Nat → List Nat → List (List (Nat × Nat))
  | 0, p => [pairUp p]
  | n + 1, p =>
    let x := p.take (p.length / 2)
    let y := p.drop (p.length / 2)
    List.zipWith (· ++ ·) (merger n (everyOther true x ++ everyOther false y))
      (merger n (everyOther false x ++ everyOther true y)) ++ [pairUp p]

/-- Bitonic[2^(n+1)] on a list of positions. -/
def bitonic : Nat → List Nat → List (List (Nat × Nat))
  | 0, p => [pairUp p]
  | n + 1, p =>
    List.zipWith (· ++ ·) (bitonic n (p.take (p.length / 2))) (bitonic n (p.drop (p.length / 2))) ++ merger (n + 1) p

/-- A pair put into a list that rises by its first components. -/
def insertPair (x : Nat × Nat) : List (Nat × Nat) → List (Nat × Nat)
  | [] => [x]
  | y :: l => if x.1 ≤ y.1 then x :: y :: l else y :: insertPair x l

/-- The fifteen layers of Bitonic[32], the balancers of each in ascending order of their top exits. -/
def network : List (List (Nat × Nat)) := (bitonic 4 (List.range 32)).map fun l => l.foldr insertPair []

/-- A balancer of a layer (counted from 0). -/
def balancerAt (layer idx : Nat) : Nat × Nat := (network.getD layer []).getD idx (0, 0)

/-- The balancer of a layer that a position feeds. -/
def balancerOf (layer pos : Nat) : Nat := ((network.getD layer []).findIdx? fun b => b.1 == pos || b.2 == pos).getD 0

/-- The depth d(w) of Bitonic[2^lw] (10 R179). -/
def depthOf (lw : Nat) : Nat := lw * (lw + 1) / 2

/-- An item enters the network at a position (10 R182), or waits at the input crossbar while its context is stopped (R195). -/
def State.inject (s : State) (die ctx : Nat) (kind : Token) (sid out : Nat) (payload ref : Word) : State :=
  let s' := s.onDie die fun d =>
    let c := d.ctx ctx
    { d with items := d.items ++ [{
        id := s.serial, ctx := ctx, kind := kind, pos := quireOf sid % 32 % 2 ^ c.lw, layer := if c.stopped then 17 else 0,
        arrived := s.serial, sid := sid, out := out, payload := payload, ref := ref }] }
  { s' with serial := s'.serial + 1 }

/-- The item that a balancer or a cell serves next (10 R183, R186): the context is chosen round-robin after the one served
last, the earliest arrival within it. -/
def nextItem (last : Nat) (l : List Item) : Option Item :=
  let ctx := (List.range 64).map (fun k => (last + 1 + k) % 64) |>.find? fun c => l.any (·.ctx == c)
  ctx.bind fun c =>
    (l.filter (·.ctx == c)).foldl (fun best i => match best with
      | some b => if i.arrived < b.arrived then some i else best
      | none => some i) none

/-- The die without an item. -/
def Die.dropItem (d : Die) (id : Nat) : Die := { d with items := d.items.filter (·.id != id) }

/-- BALANCER (10 R181 to R183): operands die, layer from 0, balancer of its 16. In the layers of the context an item acts on the toggle;
behind them it crosses in route mode, on its position (DESIGN CHOICE, assumption 13). -/
def execBalancer (s : State) : Host.Outcome State Fault Refusal :=
  let layer := s.argN 1
  let idx := s.argN 2
  let key := 16 * layer + idx
  let d := s.die (s.argN 0)
  let b := balancerAt layer idx
  match nextItem (mapGet 63 key d.served) (d.items.filter fun i => i.layer == layer && (i.pos == b.1 || i.pos == b.2)) with
  | none => .next s
  | some i =>
    if 15 ≤ layer ∨ 16 ≤ idx then .next s
    else
      let c := d.ctx i.ctx
      let count := decide (layer < depthOf c.lw)
      let t := mapGet false key c.toggles
      let top := if i.kind = .anti then t else !t
      let moved : Item := { i with pos := if !count then i.pos else if top then b.1 else b.2, layer := layer + 1, arrived := s.serial }
      let s' := s.bump.onDie (s.argN 0) fun d =>
        { (if count then (d.dropItem i.id).onCtx i.ctx fun c => { c with toggles := mapSet key (!t) c.toggles } else d.dropItem i.id) with
          items := (d.dropItem i.id).items ++ [moved], served := mapSet key i.ctx d.served }
      .next s'

/-! ## Cells and trees (10 R186, R188, R191, R193) -/

/-- The value that a cell gives (10 R186). -/
def cellValue (c : Ctx) (j : Nat) (n : BitVec 32) : Word :=
  c.base + BitVec.ofNat 64 j + (BitVec.ofNat 64 (2 ^ c.lw)) * n.signExtend 64

/-- The g-register that a result of a strand writes. -/
def State.answerG (s : State) (sid out : Nat) (v : Word) (fl : Flags) : State :=
  let dst := ((s.strand sid).outOf out).bind fun o => o.dsts.head?
  s.answer sid out (match dst with
    | some (.g d) => [RegWrite.g d (.data v)]
    | _ => []) fl

/-- COUNTER_CELL (10 R186, R188, R191, R193): operands die, cell. -/
def execCounterCell (s : State) : Host.Outcome State Fault Refusal :=
  let die := s.argN 0
  let j := s.argN 1
  let d := s.die die
  match nextItem (mapGet 63 (240 + j) d.served) (d.items.filter fun i => i.layer == 15 && i.pos == j) with
  | none => .next s
  | some i =>
    let c := d.ctx i.ctx
    let n := mapGet 0 j c.cells
    let n' := if i.kind = .anti then n - 1 else n + 1
    let v := cellValue c j (if i.kind = .anti then n' else n)
    let s := s.bump.onDie die fun d =>
      let d := (d.dropItem i.id).onCtx i.ctx fun c => { c with cells := mapSet j n' c.cells }
      { d with served := mapSet (240 + j) i.ctx d.served }
    match i.kind with
    | .token => .next (s.answerG i.sid i.out v .none)
    | .anti => .next (s.answerG i.sid i.out v .none)
    | .arrive =>
      .next (s.onDie die fun d => { d with items := d.items ++ [{ i with layer := 16, arrived := s.serial }] })
    | .spread =>
      let e := c.ends.getD j 0
      .next (s.send (coreOf i.sid) (.push none c.gang (BitVec.ofNat 64 (die * 2 ^ 23 + e)) i.payload false))
    | .spill =>
      match d.queues.find? fun q => q.tail == i.ctx with
      | some q => .next (s.send (coreOf i.sid) (.spill die q.gang v.toNat i.ref i.payload))
      | none => .next s
    | .claim =>
      match d.queues.find? fun q => q.head == i.ctx with
      | some q =>
        .next (s.onCore (coreOf i.sid) fun k => if k.gang = some q.gang then { k with claimDq := some v.toNat } else k)
      | none => .next s

/-- The payload sums after an arrival (10 R188). -/
def addSums (sums : List Nat) (p : Word) : List Nat :=
  sums.zipIdx.map fun x => min 0xFFFF (x.1 + (p.extractLsb' (16 * x.2) 16).toNat)

/-- The release word (10 R188). -/
def releaseWord (sums : List Nat) (phase : Nat) : Nat :=
  (phase + 1) % 2 ^ 16 + (sums.zipIdx.map fun x => x.1 * 2 ^ (64 + 16 * x.2)).sum

/-- The break of a context that waited until it was quiescent (10 R189). -/
def State.finishBreak (s : State) (die ctx : Nat) : State :=
  if ((s.die die).ctx ctx).breaking && s.quiet die ctx then s.breakCtx die ctx else s

/-- BARRIER_TREE (10 R188): operands die, context. The earliest arrival joins the open phase; the last one of a phase writes
the release word, advances the phase and sends the release, in that order. A break that waited for quiescence may follow (R189). -/
def execBarrierTree (s : State) : Host.Outcome State Fault Refusal :=
  let die := s.argN 0
  let ctx := s.argN 1
  let d := s.die die
  match nextItem 63 (d.items.filter fun i => i.layer == 16 && i.ctx == ctx) with
  | none => .next s
  | some i =>
    let c := d.ctx ctx
    let sums := addSums c.sums i.payload
    if c.arrived + 1 < c.target then
      .next ((s.onDie die fun d =>
        (d.dropItem i.id).onCtx ctx fun c => { c with arrived := c.arrived + 1, sums := sums }).finishBreak die ctx)
    else if s.placeBlocked die [lineOf c.release.toNat] none then .next s
    else
      let s := s.placeStore c.release.toNat (bytesOfNat 16 (releaseWord sums c.phase)) none
      let s := s.onDie die fun d =>
        (d.dropItem i.id).onCtx ctx fun c =>
          { c with phase := (c.phase + 1) % 2 ^ 16, arrived := 0, sums := [0, 0, 0, 0] }
      .next (s.send 0 (.release die ctx ((c.phase + 1) % 2 ^ 16) (List.range 128)))

/-- bn.wait succeeds for a phase (10 R188). -/
def phaseOver (copy p : Nat) : Bool :=
  let d := (copy + 2 ^ 16 - p % 2 ^ 16) % 2 ^ 16
  decide (1 ≤ d) && decide (d < 2 ^ 15)

/-- Where a die keeps the phase copy of a core (10 R188). -/
def phaseKey (cid ctx : Nat) : Nat := 64 * (cid % 128) + ctx

/-- A strand of a core whose phase copy of a context becomes `phase`: its bn.wait may be satisfied, and an idle one goes on
(07 R136). -/
def State.phaseReaches (s : State) (sid ctx phase : Nat) : State :=
  (s.onStrand sid fun t =>
    match t.wait with
    | .phase c p => if c = ctx ∧ phaseOver phase p then { t with wait := .passed } else t
    | _ => t).wakeIdle sid

/-- RELEASE_MULTICAST (10 R188): operands, the message and the cores of the die, by their numbers in it, whose copies it now updates;
all that are left if none is named. The releases of a context reach each core in their order. -/
def execReleaseMulticast (s : State) : Host.Outcome State Fault Refusal :=
  match s.msg (s.argN 0) with
  | some { id := id, kind := .release die ctx phase left, .. } =>
    let earlier := s.msgs.any fun m => match m.kind with
      | .release d c _ _ => d == die && c == ctx && decide (m.id < id)
      | _ => false
    if earlier then .next s
    else
      let now := if s.arg.n.length ≤ 1 then left else left.filter (s.arg.n.drop 1).contains
      let left := left.filter fun c => !now.contains c
      let s := if left = [] then s.dropMsg id
        else { s with msgs := s.msgs.map fun m => if m.id = id then { m with kind := .release die ctx phase left } else m }
      let s := s.onDie die fun d => { d with phases := now.foldl (fun l c => mapSet (phaseKey c ctx) phase l) d.phases }
      let hit := (s.strands.map (·.1)).filter fun sid => dieOf sid == die && now.contains (coreOf sid % 128)
      .next ((forAll hit (fun s sid => s.phaseReaches sid ctx phase) s).finishBreak die ctx)
  | _ => .next s

/-! ## Instructions (10 R194) -/

/-- The context that an operand names (10 R194). -/
def ctxField (v : Word) : Nat := v.toNat % 64

/-- CheckAccepts of 10 R185: the reason of a refusal. -/
def State.refuses (s : State) (ctx mode : Nat) : Option Word :=
  let c := (s.die (dieOf s.cur)).ctx ctx
  if c.mode = 0 ∨ c.domain ≠ (s.strand s.cur).domain.toNat then some (BitVec.ofNat 64 ctx)
  else if c.mode ≠ mode then some (BitVec.ofNat 64 (256 + ctx))
  else none

/-- The steps that every unprivileged member shares (10 R194). -/
def stitchOp (reads : List RegName) (a : BitVec 6) (mode : Nat) (f : Nat → State → Act) (s : State) :
    Host.Outcome State Fault Refusal :=
  terminate false false reads s fun s =>
    let ctx := ctxField ((s.arch s.cur).word a)
    match s.refuses ctx mode with
    | some v => .trap s .bndom v
    | none =>
      if mode = 2 ∧ ((s.die (dieOf s.cur)).ctx ctx).broken then .trap s .sbbroken (BitVec.ofNat 64 ctx) else f ctx s

/-- An item of a strand that waits for its value. -/
def injectFor (kind : Token) (d : BitVec 6) (ctx : Nat) (s : State) : Act :=
  let s' := s.setPendingT [.g d] .reply
  .done (s'.inject (dieOf s.cur) ctx kind s.cur s.serial 0 0)

/-- bn.cnt (10 R186, R194). -/
def execBnCnt (d a : BitVec 6) (s : State) : Host.Outcome State Fault Refusal :=
  stitchOp [.g a, .g d] a 1 (injectFor .token d) s

/-- bn.anti (10 R186, R194). -/
def execBnAnti (d a : BitVec 6) (s : State) : Host.Outcome State Fault Refusal :=
  stitchOp [.g a, .g d] a 1 (injectFor .anti d) s

/-- bn.spread (10 R191, R194). -/
def execBnSpread (a b : BitVec 6) (s : State) : Host.Outcome State Fault Refusal :=
  stitchOp [.g a, .g b] a 3 (fun ctx s =>
    .done (s.inject (dieOf s.cur) ctx .spread s.cur 0 ((s.arch s.cur).word b) 0)) s

/-- bn.arr (10 R188, R194). -/
def execBnArr (a b : BitVec 6) (s : State) : Host.Outcome State Fault Refusal :=
  stitchOp [.g a, .g b] a 2 (fun ctx s =>
    .done (s.inject (dieOf s.cur) ctx .arrive s.cur 0 ((s.arch s.cur).word b) 0)) s

/-- bn.wait (10 R188, R189, R194). A strand that parks keeps what it waits for, and ends its park only when the phase is released or
the context is broken. -/
def execBnWait (a b : BitVec 6) (s : State) : Host.Outcome State Fault Refusal :=
  match (s.strand s.cur).wait with
  | .passed => terminate false false [.g a, .g b] s .done
  | .phase _ _ => .next s
  | _ =>
    stitchOp [.g a, .g b] a 2 (fun ctx s =>
      let p := ((s.arch s.cur).word b).toNat % 2 ^ 16
      if phaseOver (mapGet 0 (phaseKey (coreOf s.cur) ctx) (s.die (dieOf s.cur)).phases) p then .done s
      else .hold (s.waiting (.phase ctx p))) s

/-! ## Privileged instructions (10 R195) -/

/-- The first field of a context record that breaks 10 R184, by its offset (DEDUCED, assumption 52). -/
def ctxRecordBad (die : Nat) (bs : List Byte) : Option Nat :=
  let f := fieldAt bs
  let mode := f 0 1
  let lw := f 1 1
  let badEnd := (List.range 32).find? fun j =>
    let e := f (64 + 4 * j) 4
    if mode = 3 ∧ j < 2 ^ lw then e % 2 ^ 13 + e / 2 ^ 16 % 2 ^ 7 * 2 ^ 16 != e else e != 0
  if 3 < mode then some 0
  else if lw < 1 ∨ 5 < lw then some 1
  else if f 2 1 = 0 then some 2
  else if (mode = 2 ∧ f 4 2 = 0) ∨ (mode ≠ 2 ∧ f 4 2 ≠ 0) then some 4
  else if (mode = 2 ∧ (f 16 8 % 16 ≠ 0 ∨ 2 ^ 52 ≤ f 16 8 ∨ homeDie (f 16 8) ≠ some die)) ∨ (mode ≠ 2 ∧ f 16 8 ≠ 0) then some 16
  else badEnd.map fun j => 64 + 4 * j

/-- The context that a record configures, in the state of 10 R184. -/
def ctxOfRecord (bs : List Byte) : Ctx :=
  let f := fieldAt bs
  { Ctx.off with
    mode := f 0 1, lw := f 1 1, domain := f 2 1, target := f 4 2, gang := f 6 2, base := BitVec.ofNat 64 (f 8 8),
    release := BitVec.ofNat 64 (f 16 8), ends := (List.range 32).map fun j => f (64 + 4 * j) 4 }

/-- A context with its counters, toggles and barrier state as configured (10 R184). -/
def Ctx.cleared (c : Ctx) : Ctx :=
  { c with toggles := [], cells := [], phase := 0, arrived := 0, sums := [0, 0, 0, 0], broken := false, breaking := false }

/-- The phase copies of a context begin anew (10 R184). -/
def Die.freshPhases (d : Die) (ctx : Nat) : Die := { d with phases := d.phases.filter fun x => x.1 % 64 != ctx }

/-- An action on a context once it is quiescent; until then new items are stopped (10 R195). -/
def State.whenQuiet (s : State) (ctx : Nat) (f : State → State) : Act :=
  let die := dieOf s.cur
  if s.quiet die ctx then .done (f s)
  else .hold ((s.onDie die fun d => d.onCtx ctx fun c => { c with stopped := true }).waiting .instr)

/-- A change of a context once it is quiescent (10 R195). The cores' copies of its phase begin anew with it. -/
def State.changeCtx (s : State) (ctx : Nat) (f : Ctx → Ctx) : Act :=
  s.whenQuiet ctx fun s => s.onDie (dieOf s.cur) fun d => ((d.onCtx ctx f).releaseItems ctx).freshPhases ctx

/-- A failed check of bn.cfg leaves the context unchanged and its held items released (10 R195). -/
def State.cfgTrap (s : State) (ctx : Nat) (cause : Cause) (v : Word) : Act :=
  .trap (if ((s.die (dieOf s.cur)).ctx ctx).stopped then s.onDie (dieOf s.cur) fun d => d.releaseItems ctx else s) cause v

/-- bn.cfg (10 R195). -/
def execBnCfg (a b : BitVec 6) (s : State) : Host.Outcome State Fault Refusal :=
  terminate true false [.g a, .g b] s fun s =>
    let ctx := ctxField ((s.arch s.cur).word a)
    let c := (s.arch s.cur).readG b
    match checkCap (s.arch s.cur).smode c c.cursor 256 [permLD] 0 with
    | some cause => s.cfgTrap ctx cause c.low
    | none =>
      if c.cursor % 64 ≠ 0 then s.cfgTrap ctx .align c.low
      else match s.areaLocs s.cur false c.cursor 16 with
        | .error x => s.cfgTrap ctx .pgflt (BitVec.ofNat 64 x)
        | .ok l =>
          let bs := l.flatMap fun loc => (List.range 16).map fun j => byteOf (s.sectorAt loc).bits j
          if s.shadowArea s.cur c.cursor 256 then s.cfgTrap ctx .align c.low
          else if !s.quiet (dieOf s.cur) ctx then s.changeCtx ctx id
          else match s.serveArea s.cur c.cursor 256 l with
          | some w => .hold (s.waiting w)
          | none =>
          match ctxRecordBad (dieOf s.cur) bs with
            | some off => s.cfgTrap ctx .ill (BitVec.ofNat 64 off)
            | none => s.changeCtx ctx fun _ => ctxOfRecord bs

/-- bn.clr (10 R189, R195). -/
def execBnClr (a b : BitVec 6) (s : State) : Host.Outcome State Fault Refusal :=
  terminate true false [.g a, .g b] s fun s =>
    let x := s.arch s.cur
    let ctx := ctxField (x.word a)
    let die := dieOf s.cur
    if (x.word b).getLsbD 0 = false then s.changeCtx ctx Ctx.cleared
    else s.whenQuiet ctx fun s =>
      if ((s.die die).ctx ctx).mode = 2 then s.breakCtx die ctx else s.onDie die fun d => d.releaseItems ctx

/-- The bytes 7:0 of a context's record, with bit 24 replaced by BROKEN (10 R195). -/
def Ctx.head (c : Ctx) : Word :=
  BitVec.ofNat 64 (c.mode + c.lw * 2 ^ 8 + c.domain * 2 ^ 16 + (if c.broken then 2 ^ 24 else 0) + c.target * 2 ^ 32 +
    c.gang * 2 ^ 48)

/-- Item of 10 R195. -/
def Ctx.item (c : Ctx) (k : Nat) : Word :=
  if k = 0 then c.head
  else if k = 1 then c.base
  else if k = 2 then c.release
  else if k = 3 then BitVec.ofNat 64 (c.phase + c.arrived * 2 ^ 16)
  else if k = 4 then BitVec.ofNat 64 ((c.sums.zipIdx.map fun x => x.1 * 2 ^ (16 * x.2)).sum)
  else if 8 ≤ k ∧ k ≤ 39 then (mapGet 0 (k - 8) c.cells).signExtend 64
  else if 40 ≤ k ∧ k ≤ 54 then
    BitVec.ofNat 64 (((List.range 16).map fun b => if mapGet false (16 * (k - 40) + b) c.toggles then 2 ^ b else 0).sum)
  else 0

/-- bn.rd (10 R195). -/
def execBnRd (d a : BitVec 6) (s : State) : Host.Outcome State Fault Refusal :=
  terminate true false [.g a, .g d] s fun s =>
    let v := (s.arch s.cur).word a
    let x := ((s.die (dieOf s.cur)).ctx (ctxField v)).item (v.extractLsb' 8 8).toNat
    .done (s.setPendingT [.g d] (.ready [.g d (.data x)] .none))

end Sys2Proof.Machine
end

