-- ==== Sys2Proof/Machine/Codelet.lean ====
section
/-! DEFINITION. Codelet records and references (14 R259, R260), counters (R261), the ready deque (R263, R264), die queues (10
R193), finding work and the start of a firing (R266, R268), and major 0x24 (R276 to R278). -/

namespace Sys2Proof.Machine

open Sys2Proof

/-! ## References and deques -/

/-- The owner core of a record reference (14 R260). -/
def refCore (ref : Word) : Nat := (ref.extractLsb' 16 10).toNat
/-- The raw offset of the record. -/
def refRaw (ref : Word) : Nat := (ref.extractLsb' 0 13).toNat * 64
/-- The location of the record. -/
def refLoc (ref : Word) : Nat := padLoc (refCore ref) (refRaw ref)
/-- The reference of a record of a core. -/
def mkRef (cid raw : Nat) : Word := BitVec.ofNat 64 (cid * 2 ^ 16 + raw / 64)

/-- Entries held by a deque (14 R263). -/
def dqCount (v : Word) : Nat := (v.extractLsb' 0 9).toNat
/-- Slot of its bottom entry. -/
def dqBot (v : Word) : Nat := (v.extractLsb' 16 8).toNat

/-- The location of a slot of a core's ready deque (14 R263). -/
def State.dqLoc (s : State) (cid slot : Nat) : Nat := padLoc cid (s.padSize cid - 4096 + 16 * (slot % 256))

/-- The entries of a core's deque, bottom first: record reference and argument. -/
def State.deque (s : State) (cid : Nat) : List (Word × Word) :=
  let v := (s.core cid).dqstate
  (List.range (dqCount v)).map fun i =>
    let loc := s.dqLoc cid (dqBot v + i)
    (BitVec.ofNat 64 (readNat s.mem loc 8), BitVec.ofNat 64 (readNat s.mem (loc + 8) 8))

/-- An entry written in a slot of a core's deque. Chunks that have read its line are squashed (17 R334). -/
def State.putSlot (s : State) (cid slot : Nat) (e : Word × Word) : State :=
  s.placeStore (s.dqLoc cid slot) (bytesOfNat 8 e.1.toNat ++ bytesOfNat 8 e.2.toNat) none

/-- A core's deque with only some of its entries left, bottom first: those above a removed one move down, and no other slot is
written. -/
def State.setDeque (s : State) (cid : Nat) (l : List (Word × Word)) : State :=
  let bot := dqBot (s.core cid).dqstate
  if l = s.deque cid then s
  else
    let moved := l.zipIdx.filter fun e => (s.deque cid)[e.2]? != some e.1
    (forAll moved (fun s e => s.putSlot cid (bot + e.2) e.1) s).onCore cid fun c =>
      { c with dqstate := BitVec.ofNat 64 (bot * 2 ^ 16 + l.length) }

/-- The contents of a byte without what uncommitted chunks have written in place (06 R103). -/
def State.committedByte (s : State) (loc : Nat) : Byte :=
  match s.padWriter none loc with
  | none => s.byteAt loc
  | some w =>
    match ((s.strand w).chunks.flatMap (·.undo)).find? fun u => u.loc == loc / 16 * 16 with
    | some u => byteOf u.data (loc % 16)
    | none => s.byteAt loc

/-- A field of a record's committed contents. -/
def State.recField (s : State) (ref : Word) (off n : Nat) : Nat :=
  natOfBytes ((List.range n).map fun j => s.committedByte (refLoc ref + off + j))

/-- The group of a record (14 R259). -/
def State.recGroup (s : State) (ref : Word) : Nat := s.recField ref 34 1

/-- A record is of a group that is quit at a core (07 R140). -/
def State.recQuit (s : State) (cid : Nat) (ref : Word) : Bool := (s.core cid).quit.contains (s.recGroup ref)

/-- No record of the gang of a core is fired again (07 R146). -/
def State.gangLost (s : State) (cid : Nat) : Bool :=
  match (s.core cid).gang.bind s.launch with
  | some l => l.lost
  | none => false

/-- A gang has been told to leave its cores (07 R143). -/
def State.leaving (s : State) (gang : Nat) : Bool :=
  match s.launch gang with
  | some l => l.state == .preempted
  | none => false

/-- What is addressed to a core of a pre-empted gang that has left it is held and applied at its resume (14 R265). -/
def State.gangAway (s : State) (gang cid : Nat) : Bool := s.leaving gang && (s.core cid).gang != some gang

/-- What a gang has left with the Bindery for its cores. -/
def State.savedOf (s : State) (gang : Nat) : List Saved := ((s.launch gang).map Launch.saved).getD []

/-- A member core of a gang, also while the gang is pre-empted (14 R276). -/
def State.isMember (s : State) (gang cid : Nat) : Bool :=
  (s.core cid).gang == some gang || (s.savedOf gang).any (·.cid == cid)

/-- The die queue of a core's gang on its die (10 R193). -/
def State.dieQueue (s : State) (cid : Nat) : Option DieQueue :=
  (s.die (dieOfCore cid)).queues.find? fun q => some q.gang == (s.core cid).gang

/-- A sleeping free strand of a core. -/
def State.sleeper (s : State) (cid : Nat) : Option Nat :=
  (strandsOf cid).find? fun sid => (s.strand sid).asleep && (s.strand sid).firing.isNone

/-- The quire sibling `k` places before a core (14 R266). -/
def siblingBefore (v k : Nat) : Nat := v / 4 * 4 + (v % 4 + 4 - k) % 4

/-- The strand that an arrival on a core's deque wakes (14 R266). -/
def State.wakes (s : State) (v : Nat) : Option Nat :=
  match s.sleeper v with
  | some sid => some sid
  | none =>
    if dqCount (s.core v).dqstate < 2 then none
    else [1, 2, 3].findSome? fun k =>
      let c := siblingBefore v k
      if (s.core c).gang.isSome && (s.core c).gang == (s.core v).gang then s.sleeper c else none

/-- An entry has reached a core's deque: one strand wakes (14 R266), and the core's strands in idle go on (07 R136). -/
def State.arrival (s : State) (cid : Nat) : State :=
  let s := match s.wakes cid with
    | some sid => s.onStrand sid fun t => { t with asleep := false }
    | none => s
  forAll (strandsOf cid) State.wakeIdle s

/-- A spill to the die queue of a core's gang: it takes a tail token (10 R193). -/
def State.spill (s : State) (cid : Nat) (ref arg : Word) : State :=
  match s.dieQueue cid with
  | some q => s.inject (dieOfCore cid) q.tail .spill (4 * cid) 0 arg ref
  | none => s

/-- Push (02 R46, 14 R264): one entry on the top or the bottom of a core's deque; it spills when the deque is full. A record
of a quit group, or of a gang that is lost, is discarded (07 R140, R146). -/
def State.push (s : State) (cid : Nat) (ref arg : Word) (top : Bool) : State :=
  if s.recQuit cid ref || s.gangLost cid then s
  else
    let v := (s.core cid).dqstate
    let n := dqCount v
    if 256 ≤ n then s.spill cid ref arg
    else
      let bot := if top then dqBot v else (dqBot v + 255) % 256
      ((s.putSlot cid (if top then dqBot v + n else bot) (ref, arg)).onCore cid fun c =>
        { c with dqstate := BitVec.ofNat 64 (bot * 2 ^ 16 + (n + 1)) }).arrival cid

/-- A push of a core waits while the slot that it would write lies in the read signature of a pinned chunk (17 R337). -/
def State.pushHeld (s : State) (cid : Nat) (top : Bool) : Bool :=
  let v := (s.core cid).dqstate
  (s.sectorsHeld none [s.dqLoc cid (if top then dqBot v + dqCount v else dqBot v + 255)]).isSome

/-! ## Counters (14 R261) -/

/-- A counter after a decrement of `d` (14 R261), and whether it fires. -/
def countDown (old rearm d : Int) : Int × Bool :=
  let new := old - d
  let fire := decide (0 < old) && decide (new ≤ 0)
  let new := if fire then new + rearm else new
  (min (max new (-(2 ^ 31))) (2 ^ 31 - 1), fire)

/-- A signed 32-bit field of memory. -/
def State.int32At (s : State) (loc : Nat) : Int := (BitVec.ofNat 32 (readNat s.mem loc 4)).toInt

/-- A decrement applied at the owner (14 R261): `src` is the core it comes from. -/
def State.decrement (s : State) (src : Nat) (ref : Word) (d : Int) : State :=
  let loc := refLoc ref
  let r := countDown (s.int32At (loc + 24)) (s.int32At (loc + 28)) d
  let s := s.placeStore (loc + 24) (bytesOfNat 4 (BitVec.ofInt 32 r.1).toNat) none
  if r.2 then s.push (refCore ref) ref (BitVec.ofNat 64 (readNat s.mem (loc + 16) 8)) (src == refCore ref) else s

/-- An uncommitted chunk of another strand has written some bytes of a record in place, or the readers of their line include a pinned
chunk: a message cannot act on them yet. -/
def State.recordHeld (s : State) (sid : Nat) (ref : Word) (off n : Nat) : Bool :=
  s.atomHeld sid ((List.range n).map (refLoc ref + off + ·))

/-- A message has taken its place: the strand's next chunk may commit (14 R271). -/
def State.placed (s : State) (sid mid : Nat) : State :=
  (s.dropMsg mid).onStrand sid fun t => { t with places := t.places.filter (· != mid) }

/-- A decrement applied for a strand (14 R261, R277). -/
def State.applyCdec (s : State) (sid src : Nat) (ref : Word) (d : Int) : State :=
  (s.undoWriters sid [refLoc ref + 16, refLoc ref + 24]).decrement src ref d

/-- A counter armed for a strand (14 R277). -/
def State.applyCarm (s : State) (sid : Nat) (ref v : Word) : State :=
  (s.undoWriters sid [refLoc ref + 24]).placeStore (refLoc ref + 24) (bytesOfNat 8 v.toNat) none

/-- The strand whose place a message takes (14 R271). -/
def MsgKind.issuer : MsgKind → Option Nat
  | .cdec sid _ _ _ | .carm sid _ _ _ => some sid
  | .push sid _ _ _ _ => sid
  | _ => none

/-- A message leaves the network; it has taken the place that it had. -/
def State.arrived (s : State) (m : Msg) : State :=
  match m.kind.issuer with
  | some sid => s.placed sid m.id
  | none => s.dropMsg m.id

/-- The Bindery holds a message for a core that a pre-empted gang has left, behind those that came before it (14 R265). -/
def State.keepMsg (s : State) (gang cid : Nat) (m : Msg) : State :=
  (s.onBindery fun b => { b with launches := b.launches.map fun l =>
    if l.gang = gang then
      { l with saved := l.saved.map fun x => if x.cid = cid then { x with held := x.held ++ [m] } else x }
    else l }).arrived m

/-- CDEC_APPLY (14 R261, R277): operand, the message. -/
def execCdecApply (s : State) : Host.Outcome State Fault Refusal :=
  match s.msg (s.argN 0) with
  | some { kind := .cdec sid gang ref d, src := src, id := id, eng := eng } =>
    if s.gangAway gang (refCore ref) then .next (s.keepMsg gang (refCore ref) ⟨id, src, eng, .cdec sid gang ref d⟩)
    else if s.recordHeld sid ref 16 16 || s.pushHeld (refCore ref) (src == refCore ref) then .next s
    else .next ((s.applyCdec sid src ref d).placed sid (s.argN 0))
  | _ => .next s

/-- DEQUE_PUSH (14 R264, R277): operand, the message. -/
def execDequePush (s : State) : Host.Outcome State Fault Refusal :=
  match s.msg (s.argN 0) with
  | some { kind := .push sid gang ref arg top, src := src, id := id, eng := eng } =>
    if s.gangAway gang (refCore ref) then .next (s.keepMsg gang (refCore ref) ⟨id, src, eng, .push sid gang ref arg top⟩)
    else if s.pushHeld (refCore ref) top then .next s
    else .next (match sid with
      | some k => (s.push (refCore ref) ref arg top).placed k (s.argN 0)
      | none => (s.push (refCore ref) ref arg top).dropMsg (s.argN 0))
  | _ => .next s

/-- CARM_APPLY (14 R277): operand, the message. -/
def execCarmApply (s : State) : Host.Outcome State Fault Refusal :=
  match s.msg (s.argN 0) with
  | some { kind := .carm sid gang ref v, src := src, id := id, eng := eng } =>
    if s.gangAway gang (refCore ref) then .next (s.keepMsg gang (refCore ref) ⟨id, src, eng, .carm sid gang ref v⟩)
    else if s.recordHeld sid ref 24 8 then .next s
    else .next ((s.applyCarm sid ref v).placed sid (s.argN 0))
  | _ => .next s

/-! ## Die queues (10 R193) -/

/-- The location of a slot of a die queue: the 4 KB blocks of the array that the die homes (DESIGN CHOICE, assumption 7). -/
def DieQueue.slot (q : DieQueue) (t : Nat) : Nat :=
  let o := 32 * (t % 2 ^ q.log)
  q.array + o / 4096 * 32768 + o % 4096

/-- DIE_QUEUE_SPILL (10 R193): operand, the message with a tail token. It waits for the slot's turn. -/
def execDieQueueSpill (s : State) : Host.Outcome State Fault Refusal :=
  match s.msg (s.argN 0) with
  | some { kind := .spill die gang t ref arg, .. } =>
    match (s.die die).queues.find? fun q => q.gang == gang with
    | none => .next (s.dropMsg (s.argN 0))
    | some q =>
      if readNat s.mem (q.slot t + 16) 8 = t then
        let bs := bytesOfNat 8 ref.toNat ++ bytesOfNat 8 arg.toNat ++ bytesOfNat 8 (t + 1)
        .next ((s.placeStore (q.slot t) bs none).dropMsg (s.argN 0))
      else .next s
  | _ => .next s

/-- The record that a slot of a die queue names. -/
def State.slotRef (s : State) (q : DieQueue) (t : Nat) : Word := BitVec.ofNat 64 (readNat s.mem (q.slot t) 8)

/-- The sequence number of a slot. -/
def State.slotSeq (s : State) (q : DieQueue) (t : Nat) : Nat := readNat s.mem (q.slot t + 16) 8

/-- A slot of a die queue is emptied of the entry with number `t` (10 R193). -/
def State.emptySlot (s : State) (q : DieQueue) (t : Nat) : State :=
  s.placeStore (q.slot t + 16) (bytesOfNat 8 (t + 2 ^ q.log)) none

/-- The core's die-queue claim is over without an entry: a sleeping strand of it looks for work again. -/
def State.claimAgain (s : State) (cid : Nat) : State :=
  match s.sleeper cid with
  | some sid => s.onStrand sid fun t => { t with asleep := false }
  | none => s

/-- DIE_QUEUE_CLAIM (10 R193, 14 R266 step 3): operand cid. The core's head token has come and its slot is full: the entry moves to the
bottom of the core's deque, and a strand goes on at step 1. The entry of a quit group is gone, and a strand goes on as well
(07 R140). -/
def execDieQueueClaim (s : State) : Host.Outcome State Fault Refusal :=
  let cid := s.argN 0
  match (s.core cid).claimDq, s.dieQueue cid with
  | some h, some q =>
    let seq := s.slotSeq q h
    let ref := s.slotRef q h
    let spent (s : State) : State := s.onCore cid fun c => { c with claiming := false, claimDq := none }
    if seq < h + 1 then .next s
    else if h + 1 < seq then .next ((spent s).claimAgain cid)
    else if s.recQuit cid ref || s.gangLost cid then .next (((spent s).emptySlot q h).claimAgain cid)
    else if s.pushHeld cid false then .next s
    else
      .next (((spent s).emptySlot q h).push cid ref (BitVec.ofNat 64 (readNat s.mem (q.slot h + 8) 8)) false)
  | _, _ => .next s

/-! ## Finding work (01 R18, 14 R266) -/

/-- The first entry that a strand may start, and the entries that stay, in order; those of a quit group are removed as they
are met (14 R266). -/
def pick (quit pass : Word → Bool) : List (Word × Word) → Option (Word × Word) × List (Word × Word)
  | [] => (none, [])
  | e :: l =>
    if quit e.1 then pick quit pass l
    else if pass e.1 then ((pick quit pass l).1, e :: (pick quit pass l).2)
    else (some e, l)

/-- A capability to raw offsets of a core's scratchpad, as a strand of a core sees it (14 R268). -/
def padCap (l : List Nat) (own : Bool) (cid raw len : Nat) (cursor : Nat) : Reg :=
  let base := if own then 0x7F0000000000 + raw else padVA cid raw
  capOver l base (base + len) (base + cursor)

/-- The registers at the start of a firing (02 R42, 14 R268, 20 R374). -/
def Arch.begin (a : Arch) (sp ar cr gp feat entry : Reg) (stage gang group : Nat) : Arch :=
  { a with
    g := Vector.ofFn fun n =>
      if n.val = 2 then sp else if n.val = 3 then ar else if n.val = 4 then cr else if n.val = 5 then gp
      else if n.val = 6 then feat else .null
    v := Vector.replicate 32 0, pcc := entry, frame := none, fbuf := (0, []), smode := false, hf := false, fflags := 0,
    frm := 0, sclbase := 0, cpdepth := 0, trail := a.trail &&& 0xFFFF8000FFFFFFFF, stage := BitVec.ofNat 64 stage,
    gang := BitVec.ofNat 64 (gang * 256 + group) }

/-- The stack capability of a strand (02 R41, R42). -/
def State.stackCap (s : State) (sid : Nat) : Reg :=
  let cid := coreOf sid
  let size := (s.core cid).stack
  padCap [permLD, permST, permLDC, permSTC] true cid (s.padSize cid - 4096 - (sid % 4 + 1) * size) size size

/-- The start of a firing (14 R268), in one step: the record's bytes are read, fires counts, and the strand begins; an entry of
another gang is discarded and reported to the senders of the core's gang. None while the record cannot be written. -/
def State.startFiring (s : State) (sid : Nat) (ref arg : Word) : Option State :=
  let cid := coreOf sid
  let c := s.core cid
  let loc := refLoc ref
  let gang := s.recField ref 32 2
  let s1 := s.placeStore (loc + 40) (bytesOfNat 8 (s.recField ref 40 8 + 1)) none
  if (s.padWriter none (loc + 32)).isSome || s.placeBlocked (dieOfCore (refCore ref)) [lineOf loc] none then none
  else if some gang ≠ c.gang then some (s1.eventOf sid (c.gang.getD 0) (s.recGroup ref) 9 0 ref)
  else
    let entry : Reg := { bits := BitVec.ofNat 128 (s.recField ref 0 16),
                         tag := match s.padWriter none loc with
                           | none => tagAt s.tags (loc / 16)
                           | some w => ((s.strand w).chunks.flatMap (·.undo)).any fun u => u.loc == loc && u.tag }
    let own := refCore ref == s.owner cid
    let cr := padCap [permLD, permST] own (refCore ref) (refRaw ref) 64 0
    let acc := s.recField ref 36 1 % 2 == 1
    let a := (s.arch sid).begin (s.stackCap sid) (.data arg) cr c.gp c.feat entry (s.recField ref 35 1) gang (s.recField ref 34 1)
    let s := if acc then s1.onCore cid fun c => { c with claim := some sid } else s1
    some (s.onStrand sid fun t =>
      { t with firing := some ref, asleep := false, arch := a, chunks := [], wait := .none, trap := none, mchk := none,
               ganglost := none, preempt := false, engfault := [], halted := false })

/-- A record that a free strand of a core may not start now: it has the ACC flag and another firing holds the claim. -/
def State.recPass (s : State) (cid : Nat) (ref : Word) : Bool :=
  s.recField ref 36 1 % 2 == 1 && (s.core cid).claim.isSome

/-- The sibling that a free strand of a core steals from (14 R266). -/
def State.victim (s : State) (cid : Nat) : Option Nat :=
  [1, 2, 3].findSome? fun k =>
    let v := cid / 4 * 4 + (cid + k) % 4
    if (s.core v).gang == (s.core cid).gang && dqCount (s.core v).dqstate != 0 then some v else none

/-- The bottom `k` entries of a deque taken in one operation (14 R264). -/
def State.stealFrom (s : State) (v k : Nat) : State × List (Word × Word) :=
  let l := s.deque v
  let bot := dqBot (s.core v).dqstate
  (s.onCore v fun c => { c with dqstate := BitVec.ofNat 64 ((bot + k) % 256 * 2 ^ 16 + (l.length - k)) }, l.take k)

/-- Step 3 of 14 R266: the core takes a head token if it holds no claim, and the strand sleeps. -/
def State.claimAndSleep (s : State) (sid : Nat) : State :=
  let cid := coreOf sid
  let s := s.onStrand sid fun t => { t with asleep := true }
  match s.dieQueue cid with
  | some q =>
    if (s.core cid).claiming then s
    else (s.inject (dieOfCore cid) q.head .claim (4 * cid) 0 0 0).onCore cid fun c => { c with claiming := true }
  | none => s

/-- Step 1 of 14 R266 on the own deque: none if it holds no entry that may start. The inner none says that the record cannot
be written yet. -/
def State.fromOwn (s : State) (sid : Nat) : State × Option (Option State) :=
  let cid := coreOf sid
  let r := pick (s.recQuit cid) (s.recPass cid) (s.deque cid).reverse
  let s' := s.setDeque cid r.2.reverse
  match r.1 with
  | none => (s', none)
  | some e => (s', some (s'.startFiring sid e.1 e.2))

/-- FIND_WORK (14 R266): operand sid. A free strand of a gang's core, awake and with nothing outstanding, finds a firing or
sleeps (DEDUCED, assumption 53). -/
def execFindWork (s : State) : Host.Outcome State Fault Refusal :=
  let sid := s.argN 0
  let cid := coreOf sid
  let t := s.strand sid
  let away := match (s.core cid).gang with
    | some g => s.leaving g
    | none => true
  if t.firing.isSome || t.asleep || (s.die (dieOf sid)).fenced || t.out != [] || away || s.owner cid != cid then .next s
  else match s.fromOwn sid with
    | (_, some (some s')) => .next s'
    | (_, some none) => .next s
    | (s', none) =>
      match s'.victim cid with
      | none => .next (s'.claimAndSleep sid)
      | some v =>
        let n := dqCount (s'.core v).dqstate
        let x := s'.stealFrom v ((n + 1) / 2)
        let r := pick (x.1.recQuit cid) (x.1.recPass cid) x.2
        let rest (s : State) : State := forAll r.2 (fun s e => s.push cid e.1 e.2 true) s
        match r.1 with
        | none => .next ((rest x.1).claimAndSleep sid)
        | some e =>
          match x.1.startFiring sid e.1 e.2 with
          | some s'' => .next (rest s'')
          | none => .next s

/-! ## Instructions (14 R276 to R278) -/

/-- The reference of a record capability whose checks pass (14 R276). -/
def State.recordOf (s : State) (c : Reg) : Except Stop Word :=
  let a := c.cursor
  match checkCap (s.arch s.cur).smode c a 64 [permST] 64 with
  | some cause => .error (.at cause a)
  | none =>
    match s.place (coreOf s.cur) a with
    | .pad cid 0 off =>
      if !(s.arch s.cur).smode && !s.isMember (s.arch s.cur).gangNo cid then .error (.at .capperm a)
      else if s.padSize cid ≤ off + 4096 ∧ off < s.padSize cid then .error (.at .capbnd a)
      else .ok (mkRef cid off)
    | _ => .error (.at .align a)

/-- A message to the owner of a record (14 R271, R272): on the die it takes a place of its own; to another die it leaves when
every store and atomic of the strand's committed chunks is performed. -/
def recordMsg (a b : BitVec 6) (kind : State → Word → MsgKind) (s : State) : Host.Outcome State Fault Refusal :=
  terminate false false [.g a, .g b] s fun s =>
    match s.recordOf ((s.arch s.cur).readG a) with
    | .error e => e.act s
    | .ok ref =>
      let near := dieOfCore (refCore ref) == dieOf s.cur
      if !near && s.storesOut s.cur 2 then .hold (s.waiting .instr)
      else
        let s' := s.send (coreOf s.cur) (kind s ref)
        .done (if near then s'.onStrand s.cur fun t => { t with places := t.places ++ [s.serial] } else s')

/-- The gang that a strand runs for. -/
def State.myGang (s : State) : Nat := s.me.gangNo

/-- cdec (14 R277). -/
def execCdec (x y : BitVec 6) (s : State) : Host.Outcome State Fault Refusal :=
  recordMsg x y (fun s ref => .cdec s.cur s.myGang ref ((s.me.word y).extractLsb' 0 32).toInt) s

/-- cpush (14 R277): at the top if the owner is the issuing core. -/
def execCpush (x y : BitVec 6) (s : State) : Host.Outcome State Fault Refusal :=
  recordMsg x y (fun s ref => .push (some s.cur) s.myGang ref (s.me.word y) (refCore ref == coreOf s.cur)) s

/-- carm (14 R277). -/
def execCarm (x y : BitVec 6) (s : State) : Host.Outcome State Fault Refusal :=
  recordMsg x y (fun s ref => .carm s.cur s.myGang ref (s.me.word y)) s

/-- The member core of a gang whose COORD equals a value, the chip field ignored (14 R278); it may have been left in a
pre-emption. -/
def State.coordCore (s : State) (gang : Nat) (v : Word) : Option Nat :=
  let named (coord : Word) : Bool := coord.extractLsb' 0 10 == v.extractLsb' 0 10
  ((s.members gang).find? fun c => named (s.core c).coord).or
    (((s.savedOf gang).find? fun x => named x.core.coord).map (·.cid))

/-- csteal (14 R278): nothing is sent when the victim does not exist or is the issuing core. -/
def execCsteal (x y : BitVec 6) (s : State) : Host.Outcome State Fault Refusal :=
  terminate false false [.g y, .g x] s fun s =>
    let a := s.me
    match (s.coordCore a.gangNo (a.word y)).filter (· != coreOf s.cur) with
    | none => .done (s.setPendingT [.g x] (.ready [.g x (.data 0)] .none))
    | some v =>
      let s' := s.setPendingT [.g x] .reply
      .done (s'.send (coreOf s.cur) (.steal s.cur s.serial v a.gangNo))

/-- A steal: entries move from the bottom of the victim's deque to the top of the thief's, and the thief's result is their number
(14 R278) (DEDUCED, assumption 55). -/
def State.applySteal (s : State) (sid out v gang : Nat) : State :=
  let cid := coreOf sid
  let k := min ((dqCount (s.core v).dqstate + 1) / 2) (256 - dqCount (s.core cid).dqstate)
  let r := if (s.core v).gang = some gang then s.stealFrom v k else (s, [])
  let kept := r.2.filter fun e => !r.1.recQuit cid e.1
  (forAll kept (fun s e => s.push cid e.1 e.2 true) r.1).answerG sid out (BitVec.ofNat 64 kept.length) .none

/-- CSTEAL_TAKE (14 R278): operand, the message. -/
def execCstealTake (s : State) : Host.Outcome State Fault Refusal :=
  match s.msg (s.argN 0) with
  | some { kind := .steal sid out v gang, src := src, id := id, eng := eng } =>
    if s.gangAway gang v then .next (s.keepMsg gang v ⟨id, src, eng, .steal sid out v gang⟩)
    else .next ((s.applySteal sid out v gang).dropMsg (s.argN 0))
  | _ => .next s

/-- A message that was held for a pre-empted gang, applied at its resume (14 R265). -/
def State.applyHeld (s : State) (m : Msg) : State :=
  match m.kind with
  | .cdec sid _ ref d => s.applyCdec sid m.src ref d
  | .push _ _ ref arg top => s.push (refCore ref) ref arg top
  | .carm sid _ ref v => s.applyCarm sid ref v
  | .steal sid out v gang => s.applySteal sid out v gang
  | _ => s

end Sys2Proof.Machine
end

