-- ==== Sys2Proof/Machine/Copy.lean ====
section
/-! DEFINITION. Tensor copies (15 R279 to R287, R299 to R303), their range locks (R288), stage barriers (R292 to R297, R304 to
R308), and the mark of a quit group (07 R140). The engine reads the source of a command run by run and writes its destination sector
by sector; a command reads once those before it have read (DESIGN CHOICE, assumption 23). -/

namespace Sys2Proof.Machine

open Sys2Proof

/-! ## Stage barriers (15 R292 to R295) -/

/-- The phase counter. -/
def State.sbPhase (s : State) (loc : Nat) : Nat := readNat s.mem loc 2
/-- Arrivals still awaited. -/
def State.sbRemaining (s : State) (loc : Nat) : Nat := readNat s.mem (loc + 2) 2
/-- Arrivals of a phase. -/
def State.sbExpected (s : State) (loc : Nat) : Nat := readNat s.mem (loc + 4) 2
/-- Transaction bytes outstanding. -/
def State.sbPending (s : State) (loc : Nat) : Int := s.int32At (loc + 6)
/-- BROKEN. -/
def State.sbBroken (s : State) (loc : Nat) : Bool := readNat s.mem (loc + 10) 1 % 2 == 1

/-- The test of 15 R295 on phase `p`. -/
def phasePassed (phase p : Nat) : Bool :=
  let d := (phase + 65536 - p % 65536) % 65536
  decide (1 ≤ d) && decide (d < 32768)

/-- A barrier's counters written; its other fields stay (00 R3) (DEDUCED, assumption 16). -/
def State.sbPut (s : State) (loc phase remaining : Nat) (pending : Int) : State :=
  s.placeStore loc (bytesOfNat 2 phase ++ bytesOfNat 2 remaining ++ bytesOfNat 2 (s.sbExpected loc) ++
    bytesOfNat 4 (BitVec.ofInt 32 pending).toNat) none

/-- A strand of a quire whose stage barrier at a location reaches a phase: its sb.wait may be satisfied (15 R307), and an idle one
goes on (07 R136). -/
def State.stageReaches (s : State) (sid loc phase : Nat) : State :=
  (s.onStrand sid fun t =>
    match t.wait with
    | .stage l p _ => if l = loc ∧ phasePassed phase p then { t with wait := .passed } else t
    | _ => t).wakeIdle sid

/-- Advance of 15 R294, and whether the barrier still holds: a count out of range breaks it; a completed phase reaches every strand
of the quire. -/
def State.sbAdvance (s : State) (loc remaining : Nat) (pending : Int) : State × Bool :=
  let phase := s.sbPhase loc
  if pending < -(2 ^ 31) ∨ 2 ^ 31 ≤ pending then ((s.sbPut loc phase remaining pending).breakBarrier loc, false)
  else if remaining = 0 ∧ pending = 0 then
    let next := (phase + 1) % 65536
    let s := s.sbPut loc next (s.sbExpected loc) 0
    (forAll ((coresOf (quireOfCore (padCore loc))).flatMap strandsOf) (fun s sid => s.stageReaches sid loc next) s, true)
  else (s.sbPut loc phase remaining pending, true)

/-- Arrive of 15 R294. -/
def State.sbArrive (s : State) (loc n : Nat) : State × Bool :=
  if s.sbRemaining loc = 0 then (s.breakBarrier loc, false)
  else s.sbAdvance loc (s.sbRemaining loc - 1) (s.sbPending loc + n)

/-- Bytes of 15 R294. -/
def State.sbBytes (s : State) (loc n : Nat) : State :=
  (s.sbAdvance loc (s.sbRemaining loc) (s.sbPending loc - n)).1

/-- A directory entry of a quire names a barrier (15 R293). -/
def Quire.names (q : Quire) (cid off : Nat) : Bool := q.dir.any fun d => d.cid == cid && d.off == off

/-- BARRIER_BYTES (15 R285, R294): operand, the message of a completion action 1. A broken barrier, or one no longer registered,
ignores it. -/
def execBarrierBytes (s : State) : Host.Outcome State Fault Refusal :=
  match s.msg (s.argN 0) with
  | some { kind := .bytes gang cid off n, .. } =>
    let loc := padLoc cid off
    if s.gangAway gang cid || (s.sectorsHeld none [loc]).isSome then .next s
    else
      let live := (s.quire (quireOfCore cid)).names cid off && !s.sbBroken loc
      .next ((if live then s.sbBytes loc n else s).dropMsg (s.argN 0))
  | _ => .next s

/-- The entries of a core's die queue whose record is of a group that the core has quit are removed (07 R140): the number of a full
slot `k` is the one below its sequence number. -/
def State.purgeQueue (s : State) (cid : Nat) : State :=
  match s.dieQueue cid with
  | none => s
  | some q =>
    forAll (List.range (2 ^ q.log)) (fun s k =>
      let t := s.slotSeq q k - 1
      if s.slotSeq q k % 2 ^ q.log = (k + 1) % 2 ^ q.log ∧ s.recQuit cid (s.slotRef q k) then s.emptySlot q t else s) s

/-- A core marks a group of its gang quit (07 R140): it removes its records from the deque and the die queue, and breaks its
registered barriers of that group. -/
def State.markQuit (s : State) (cid gang group : Nat) : State :=
  let s := s.onCore cid fun c => { c with quit := insertNat group c.quit }
  let s := (s.setDeque cid ((s.deque cid).filter fun e => !s.recQuit cid e.1)).purgeQueue cid
  let hit := (s.quire (quireOfCore cid)).dir.filter fun d =>
    let loc := padLoc d.cid d.off
    d.cid == cid && d.gang == gang && decide (readNat s.mem (loc + 12) 1 ≤ group) &&
      decide (group ≤ readNat s.mem (loc + 13) 1)
  forAll hit (fun s d => s.breakBarrier (padLoc d.cid d.off)) s

/-- QUIT_MARK (07 R140): operand, the message. For a core that its gang has left, the Bindery has the group (14 R265). -/
def execQuitMark (s : State) : Host.Outcome State Fault Refusal :=
  match s.msg (s.argN 0) with
  | some { kind := .quit cid gang group, .. } =>
    if s.gangAway gang cid then
      .next ((s.onBindery fun b => { b with launches := b.launches.map fun l =>
        if l.gang = gang then
          { l with saved := l.saved.map fun x => if x.cid = cid then { x with quits := insertNat group x.quits } else x }
        else l }).dropMsg (s.argN 0))
    else if (s.core cid).gang ≠ some gang then .next (s.dropMsg (s.argN 0))
    else .next ((s.markQuit cid gang group).dropMsg (s.argN 0))
  | _ => .next s

/-- What every member of 0x26 does first (15 R304): the barrier's core and offset, after its chunk has ended. In U mode a barrier in a
protected area traps CAPBND (14 R263, 20 R375) (DEDUCED, assumption 14). One that cannot be written yet makes the strand wait. -/
def barrierOp (reads : List RegName) (bar : BitVec 6) (perm : Nat) (init : Bool) (body : State → Nat → Nat → Act)
    (s : State) : Host.Outcome State Fault Refusal :=
  terminate false false reads s fun s =>
    let c := s.me.readG bar
    let a := c.cursor
    match checkCap s.me.smode c a 16 [perm] 0 with
    | some cause => .trap s cause c.low
    | none =>
      match s.place (coreOf s.cur) a with
      | .pad cid 0 off =>
        if a % 16 ≠ 0 ∨ quireOfCore cid ≠ quireOf s.cur ∨ s.padSize cid < off + 16 then .trap s .align c.low
        else if !s.me.smode && s.protectedRaw cid off then .trap s .capbnd c.low
        else if !init && !(s.quire (quireOf s.cur)).names cid off then .trap s .sbbroken c.low
        else match s.sectorsHeld (some s.cur) [padLoc cid off] with
          | some w => .hold (s.waiting w)
          | none => body s cid off
      | _ => .trap s .align c.low

/-- sb.init (15 R305) (DEDUCED, assumption 19). -/
def execSbInit (x y : BitVec 6) (s : State) : Host.Outcome State Fault Refusal :=
  barrierOp [.g x, .g y] x permST true (fun s cid off =>
    let v := (s.me.word y).toNat
    let expected := v % 65536
    let glo := v / 2 ^ 16 % 256
    let ghi := v / 2 ^ 24 % 256
    let q := s.quire (quireOf s.cur)
    if expected = 0 ∨ ghi < glo then .trap s .ill (s.me.word y)
    else if q.names cid off ∨ 16 ≤ q.dir.length then .trap s .range (s.me.readG x).low
    else
      let bs := bytesOfNat 2 0 ++ bytesOfNat 2 expected ++ bytesOfNat 2 expected ++ bytesOfNat 4 0 ++
        bytesOfNat 6 (2 + glo * 2 ^ 16 + ghi * 2 ^ 24)
      .done ((s.placeStore (padLoc cid off) bs (some s.cur)).onQuire (quireOf s.cur) fun q =>
        { q with dir := q.dir ++ [{ cid := cid, off := off, gang := s.me.gangNo }] })) s

/-- An arrival (15 R306). -/
def State.arriveAt (s : State) (bar : BitVec 6) (cid off n : Nat) : Act :=
  if s.sbBroken (padLoc cid off) then .trap s .sbbroken (s.me.readG bar).low
  else match s.sbArrive (padLoc cid off) n with
    | (s', true) => .done s'
    | (s', false) => .trap s' .sbbroken (s.me.readG bar).low

/-- sb.arr (15 R306). -/
def execSbArr (x : BitVec 6) (s : State) : Host.Outcome State Fault Refusal :=
  barrierOp [.g x] x permST false (fun s cid off => s.arriveAt x cid off 0) s

/-- sb.exp (15 R306). -/
def execSbExp (x y : BitVec 6) (s : State) : Host.Outcome State Fault Refusal :=
  barrierOp [.g x, .g y] x permST false (fun s cid off =>
    if 2 ^ 31 ≤ (s.me.word y).toNat then .trap s .ill (s.me.word y)
    else s.arriveAt x cid off (s.me.word y).toNat) s

/-- sb.test (15 R307). -/
def execSbTest (x y zr : BitVec 6) (s : State) : Host.Outcome State Fault Refusal :=
  barrierOp [.g y, .g zr, .g x] y permLD false (fun s cid off =>
    let loc := padLoc cid off
    let v := (if phasePassed (s.sbPhase loc) (s.me.word zr).toNat then 1 else 0) + (if s.sbBroken loc then 2 else 0) +
      s.sbPhase loc * 2 ^ 16 + s.sbRemaining loc * 2 ^ 32
    .done (s.setPendingT [.g x] (.ready [.g x (.data (BitVec.ofNat 64 v))] Flags.none))) s

/-- sb.wait (15 R307): a broken barrier traps, whether or not the phase has passed (DEDUCED, assumption 15). A strand that parks keeps
what it waits for, and ends its park only when the phase is completed or the barrier is broken. -/
def execSbWait (x y : BitVec 6) (s : State) : Host.Outcome State Fault Refusal :=
  match (s.strand s.cur).wait with
  | .passed => terminate false false [.g x, .g y] s .done
  | .stage _ _ _ => .next s
  | _ =>
    barrierOp [.g x, .g y] x permLD false (fun s cid off =>
      let loc := padLoc cid off
      if s.sbBroken loc then .trap s .sbbroken (s.me.readG x).low
      else if phasePassed (s.sbPhase loc) (s.me.word y).toNat then .done s
      else .hold (s.waiting (.stage loc ((s.me.word y).toNat % 65536) (s.me.readG x).low))) s

/-- sb.brk (15 R308). -/
def execSbBrk (x y : BitVec 6) (s : State) : Host.Outcome State Fault Refusal :=
  barrierOp [.g x, .g y] x permST false (fun s cid off =>
    let loc := padLoc cid off
    if (s.me.word y).getLsbD 0 then
      let s := s.breakBarrier loc
      let s := s.placeStore (loc + 10) [readByte s.mem (loc + 10) &&& 0xFD] none
      .done (s.onQuire (quireOf s.cur) fun q => { q with dir := q.dir.filter fun d => !(d.cid == cid && d.off == off) })
    else .done (s.breakBarrier loc)) s

/-! ## Shapes (15 R282 to R284) -/

/-- The product of a list. -/
def prod (l : List Nat) : Nat := l.foldl (· * ·) 1

/-- The elements of a command. -/
def CopyCmd.total (c : CopyCmd) : Nat := prod c.counts

/-- The destination bytes B (15 R283). -/
def CopyCmd.bytes (c : CopyCmd) : Nat := 2 ^ c.esz * prod (if c.skip then c.valids else c.counts)

/-- The extents of a side: the destination (true) or the source (15 R284). -/
def CopyCmd.extents (c : CopyCmd) (dst : Bool) : List Nat := if dst && !c.skip then c.counts else c.valids

/-- The sum of (n_d − 1) × stride_d, cut at zero from above or below (15 R284). -/
def spread (cut : Int → Int) : List Nat → List Int → Int
  | n :: ns, t :: ts => cut (((n : Int) - 1) * t) + spread cut ns ts
  | _, _ => 0

/-- The footprint of a side of a shape from a cursor on; none if it is empty (15 R284). -/
def CopyCmd.span (c : CopyCmd) (dst : Bool) (cursor : Nat) : Option (Int × Int) :=
  let n := c.extents dst
  let t := if dst then c.dstride else c.sstride
  if n.any (· == 0) then none
  else some ((cursor : Int) + spread (min 0) (n.drop 1) t,
    (cursor : Int) + (2 ^ c.esz * n.headD 0 : Nat) + spread (max 0) (n.drop 1) t)

/-- The first index of a list whose element fails a test. -/
def firstBad {α : Type} (f : α → Bool) (l : List α) : Option Nat := l.findIdx? fun x => !f x

/-- The fields of a shape record, or the offset of the first in error (15 R282, R300): `g` says cp.g. Reserved fields are
ignored (00 R3). -/
def parseShape (g : Bool) (bs : List Byte) : Except Nat CopyCmd :=
  let esz := fieldAt bs 0 1
  let dims := fieldAt bs 1 1
  let action := fieldAt bs 3 1
  let counts := (List.range dims).map fun d => fieldAt bs (4 + 2 * d) 2
  let valids := (List.range dims).map fun d => fieldAt bs (14 + 2 * d) 2
  let stride (base d : Nat) : Int := (BitVec.ofNat 32 (fieldAt bs (base + 4 * d) 4)).toInt
  let countOk (d : Nat) : Bool := decide (1 ≤ counts.getD d 0) && !(g && d == 1 && decide (1024 < counts.getD 1 0))
  let validOk (d : Nat) : Bool := decide (valids.getD d 0 ≤ counts.getD d 0)
  let productOk (d : Nat) : Bool := decide (prod (counts.take (d + 1)) ≤ 2 ^ 21)
  let c : CopyCmd :=
    { slot := 0, seq := 0, cid := 0, sid := 0, gang := 0, group := 0, live := true, kind := if g then 2 else 0, esz := esz,
      dims := dims, skip := fieldAt bs 2 1 % 2 == 1, counts := counts, valids := valids,
      sstride := (List.range (dims - 1)).map (stride 24), dstride := (List.range (dims - 1)).map (stride 40),
      dst := .null, src := .null, rows := [], action := action, arg := BitVec.ofNat 64 (fieldAt bs 56 8), target := .null,
      at_ := 0, buf := [] }
  if 4 < esz then .error 0
  else if dims = 0 ∨ 5 < dims ∨ (g ∧ dims ≠ 2) then .error 1
  else if 3 < action then .error 3
  else match firstBad countOk (List.range dims) with
    | some d => .error (4 + 2 * d)
    | none =>
      match firstBad validOk (List.range dims) with
      | some d => .error (14 + 2 * d)
      | none =>
        if g ∧ fieldAt bs 24 4 ≠ 0 then .error 24
        else match firstBad productOk (List.range dims) with
          | some d => .error (4 + 2 * d)
          | none => if 2 ^ 24 < c.bytes then .error 0 else .ok c

/-- The command of cp.b (15 R300). -/
def blockShape (n : Nat) : CopyCmd :=
  { slot := 0, seq := 0, cid := 0, sid := 0, gang := 0, group := 0, live := true, kind := 1, esz := 0, dims := 1, skip := false,
    counts := [n], valids := [n], sstride := [], dstride := [], dst := .null, src := .null, rows := [], action := 0, arg := 0,
    target := .null, at_ := 0, buf := [] }

/-- The bytes of some sectors. -/
def State.sectorBytes (s : State) (l : List Nat) : List Byte :=
  l.flatMap fun x => (List.range 16).map fun j => byteOf (s.sectorAt x).bits j

/-- The shape that cp.t and cp.g read, with its completion capability (15 R282, R299). -/
def State.readShape (s : State) (g : Bool) (c : Reg) : State × Except Stop CopyCmd :=
  match s.recordArea c 64 16 [permLD] false true with
  | (s, .error e) => (s, .error e)
  | (s, .ok l) =>
    match l.findSome? (s.padWriter (some s.cur)) with
    | some w => (s, .error (.wait (.chunk w)))
    | none =>
      let bs := s.sectorBytes l
      let parsed (target : Reg) : Except Stop CopyCmd :=
        match parseShape g bs with
        | .error k => .error (.trap .ill (BitVec.ofNat 64 k))
        | .ok x => .ok { x with target := target }
      if fieldAt bs 3 1 = 0 then (s, parsed .null)
      else match s.recordArea c 80 16 [permLD, permLDC] false true with
        | (s, .error e) => (s, .error e)
        | (s, .ok l) =>
          match (l.getLast?).bind (s.padWriter (some s.cur)) with
          | some w => (s, .error (.wait (.chunk w)))
          | none => (s, parsed ((l.getLast?.map s.sectorAt).getD .null))

/-! ## The checks at issue (15 R299, R300) -/

/-- An address of a side as a trap reports it. -/
def intWord (x : Int) : Word := BitVec.ofInt 64 x

/-- A side whose footprint is not empty: its space and interval, or what stops the instruction. `val` is the trap value. -/
def State.sideCheck (s : State) (c : Reg) (dst : Bool) (e : Nat) (lo hi : Int) (aligned : List Int) (val : Word) :
    State × Except Stop (Nat × Int × Int) :=
  let a := (lo % 2 ^ 64).toNat
  let len := (hi - lo).toNat
  match checkCap s.me.smode c a len [if dst then permST else permLD, permENG] 0 with
  | some cause => (s, .error (.trap cause val))
  | none =>
    if (lo :: aligned).any fun x => x % (e : Int) != 0 then (s, .error (.trap .align val))
    else match s.place (coreOf s.cur) a with
      | .hole => (s, .error (.trap .align val))
      | .pad cid win off =>
        if win ≠ 0 ∨ dieOfCore cid ≠ dieOf s.cur ∨ s.padSize cid < off + len then (s, .error (.trap .align val))
        else if (List.range (len / 16 + 2)).any fun k => s.sideRaw s.me.smode cid (min (off + 16 * k) (off + len - 1)) then
          (s, .error (.trap .capbnd val))
        else (s, .ok (cid + 1, off, off + len))
      | .mapped va =>
        match s.plbRange s.cur [.e, if dst then .w else .r] (va + len) va (len / 2 ^ 20 + 2) with
        | (s, false) => (s, .error (.trap .plb val))
        | (s, true) => (s, .ok (0, va, va + len))

/-- Two intervals of one space overlap. -/
def overlapSpan (x y : Nat × Int × Int) : Bool := x.1 == y.1 && decide (x.2.1 < y.2.2) && decide (y.2.1 < x.2.2)

/-- The rows of cp.g, checked in order: each gives its space and interval (15 R300). -/
def State.rowChecks (s : State) (e n : Nat) : List Reg → State × Except Stop (List (Nat × Int × Int))
  | [] => (s, .ok [])
  | c :: l =>
    match s.sideCheck c false e c.cursor (c.cursor + n : Nat) [] c.low with
    | (s, .error x) => (s, .error x)
    | (s, .ok y) =>
      match s.rowChecks e n l with
      | (s, .error x) => (s, .error x)
      | (s, .ok ys) => (s, .ok (y :: ys))

/-- The destination side of a command: none if it is empty. -/
def State.dstCheck (s : State) (k : CopyCmd) : State × Except Stop (List (Nat × Int × Int)) :=
  match k.span true k.dst.cursor with
  | none => (s, .ok [])
  | some (lo, hi) =>
    match s.sideCheck k.dst true (2 ^ k.esz) lo hi ((k.dst.cursor : Int) :: k.dstride) (intWord lo) with
    | (s, .error x) => (s, .error x)
    | (s, .ok y) => (s, .ok [y])

/-- The source side: its intervals, and for cp.g the rows, read from the table (15 R300). -/
def State.srcCheck (s : State) (k : CopyCmd) : State × Except Stop (List (Nat × Int × Int) × List Reg) :=
  if k.kind = 2 then
    let n := k.valids.getD 1 0
    if k.valids.any (· == 0) then (s, .ok ([], []))
    else match s.recordArea k.src (16 * n) 16 [permLD, permLDC] false true with
      | (s, .error e) => (s, .error e)
      | (s, .ok l) =>
        match l.findSome? (s.padWriter (some s.cur)) with
        | some w => (s, .error (.wait (.chunk w)))
        | none =>
          let rows := l.map s.sectorAt
          match s.rowChecks (2 ^ k.esz) (2 ^ k.esz * k.valids.headD 0) rows with
          | (s, .error e) => (s, .error e)
          | (s, .ok ys) => (s, .ok (ys, rows))
  else
    match k.span false k.src.cursor with
    | none => (s, .ok ([], []))
    | some (lo, hi) =>
      match s.sideCheck k.src false (2 ^ k.esz) lo hi ((k.src.cursor : Int) :: k.sstride) (intWord lo) with
      | (s, .error x) => (s, .error x)
      | (s, .ok y) => (s, .ok ([y], []))

/-- The barrier of a completion action 1: its core and offset (15 R285). -/
def State.barrierAt (s : State) (cid : Nat) (t : Reg) : Option (Nat × Nat) :=
  match s.place cid t.cursor with
  | .pad k 0 off => if t.cursor % 16 = 0 ∧ quireOfCore k = quireOfCore cid then some (k, off) else none
  | _ => none

/-- The checks of a completion target (15 R299). -/
def State.targetCheck (s : State) (k : CopyCmd) : Option Stop :=
  let t := k.target
  if k.action = 0 then none
  else if k.action = 1 then
    match checkCap s.me.smode t t.cursor 16 [permST] 0 with
    | some cause => some (.at cause t.cursor)
    | none =>
      match s.barrierAt (coreOf s.cur) t with
      | some (cid, off) =>
        if (s.quire (quireOf s.cur)).names cid off && !s.sbBroken (padLoc cid off) then none
        else some (.at .sbbroken t.cursor)
      | none => some (.at .sbbroken t.cursor)
  else match s.recordOf t with
    | .error e => some e
    | .ok _ => none

/-- A side lies in part outside the issuing die: blocks of 4 KB that follow each other have different homes (01 R12)
(DEDUCED, assumption 18). -/
def State.sideOff (s : State) (x : Nat × Int × Int) : Bool :=
  x.1 == 0 && (decide (x.2.1 / 4096 ≠ (x.2.2 - 1) / 4096) || decide (1 < s.scopeVA s.cur x.2.1.toNat))

/-- The range-lock entries of a command: its destination, and but for cp.g its source (15 R288, R300). -/
def copyLocks (k : CopyCmd) (d src : List (Nat × Int × Int)) : List Lock :=
  let mk (dst : Bool) (x : Nat × Int × Int) : Lock :=
    { dst := dst, space := x.1, lo := x.2.1, hi := x.2.2, gang := k.gang, slot := k.slot }
  d.map (mk true) ++ (if k.kind = 2 then [] else src.map (mk false))

/-- The checks of 15 R299 after the shape; the command then waits for its slot. -/
def State.issueCopy (s : State) (k : CopyCmd) : Act :=
  match s.dstCheck k with
  | (s, .error e) => e.act s
  | (s, .ok d) =>
    match s.srcCheck k with
    | (s, .error e) => e.act s
    | (s, .ok (src, rows)) =>
      let q := s.quire (quireOf s.cur)
      let bar (x : Nat × Int × Int) : Bool := q.dir.any fun b => overlapSpan x (b.cid + 1, (b.off : Int), (b.off : Int) + 16)
      if k.dst.perm permTRY && s.me.cpdepth != 0 then .trap s .capperm k.dst.low
      else if d.any fun x => src.any (overlapSpan x) || bar x then
        .trap s .range (intWord (((k.span true k.dst.cursor).map (·.1)).getD 0))
      else match s.targetCheck k with
        | some e => e.act s
        | none =>
          if (d ++ src).any s.sideOff && s.storesOut s.cur 2 then .hold (s.waiting .instr)
          else
            let k := { k with seq := s.serial, cid := coreOf s.cur, sid := s.cur, gang := s.me.gangNo, group := s.me.group,
                              rows := rows }
            .hold (s.bump.waiting (.copySlot k))

/-- cp.t (15 R299). -/
def execCpT (x y zr : BitVec 6) (s : State) : Host.Outcome State Fault Refusal :=
  terminate false false [.g x, .g y, .g zr] s fun s =>
    match s.readShape false (s.me.readG zr) with
    | (s, .error e) => e.act s
    | (s, .ok k) => s.issueCopy { k with dst := s.me.readG x, src := s.me.readG y }

/-- cp.b (15 R300). -/
def execCpB (x y zr : BitVec 6) (s : State) : Host.Outcome State Fault Refusal :=
  terminate false false [.g x, .g y, .g zr] s fun s =>
    let n := (s.me.word zr).toNat
    if n = 0 ∨ 2 ^ 24 < n then .trap s .ill (s.me.word zr)
    else s.issueCopy { blockShape n with dst := s.me.readG x, src := s.me.readG y }

/-- cp.g (15 R300) (DEDUCED, assumption 17). -/
def execCpG (x y zr : BitVec 6) (s : State) : Host.Outcome State Fault Refusal :=
  terminate false false [.g x, .g y, .g zr] s fun s =>
    match s.readShape true (s.me.readG zr) with
    | (s, .error e) => e.act s
    | (s, .ok k) => s.issueCopy { k with dst := s.me.readG x, src := s.me.readG y }

/-- The commands of the running firing of a strand that are not complete (15 R301). -/
def State.commands (s : State) (sid : Nat) : Nat :=
  ((s.quire (quireOf sid)).cmds.filter fun c => c.sid == sid && c.live && c.gang == (s.arch sid).gangNo).length

/-- An operand of a command lies in a scratchpad of its quire, or it has a completion action (07 R143, 15 R301): the destination, and
the source or the rows of cp.g. -/
def State.owed (s : State) (c : CopyCmd) : Bool :=
  c.action != 0 || (c.dst :: if c.kind = 2 then c.rows else [c.src]).any fun x =>
    match s.place c.cid x.cursor with
    | .pad k _ _ => quireOfCore k == quireOfCore c.cid
    | _ => false

/-- cp.wait (15 R301). -/
def execCpWait (x : BitVec 6) (s : State) : Host.Outcome State Fault Refusal :=
  terminate false false [.g x] s fun s =>
    let v := s.me.word x
    if s.me.smode && v.getLsbD 8 then
      if (s.quire (quireOf s.cur)).cmds.any fun c => c.gang == s.me.gangNo && s.owed c then .hold (s.waiting .instr)
      else .done s
    else if v.toNat % 32 < s.commands s.cur then .hold (s.waiting .instr)
    else .done s

/-- The quire capability (15 R303), or null. -/
def State.quireCap (s : State) : Reg :=
  let qid := quireOf s.cur
  let base := 0x7E0000000000 + qid / 32 * 2 ^ 32 + qid % 32 * 2 ^ 27
  if (coresOf qid).all fun c => (s.core c).gang == some s.me.gangNo then
    capOver [permLD, permST, permENG] base (base + 2 ^ 27) base
  else .null

/-- cp.st (15 R302). -/
def execCpSt (x y : BitVec 6) (s : State) : Host.Outcome State Fault Refusal :=
  terminate false false [.g y, .g x] s fun s =>
    let q := s.quire (quireOf s.cur)
    let give (r : Reg) : Act := .done (s.setPendingT [.g x] (.ready [.g x r] Flags.none))
    match (s.me.word y).toNat with
    | 0 => give (.data (BitVec.ofNat 64 (s.commands s.cur % 32 + (16 - q.cmds.length) * 2 ^ 8 + (32 - q.locks.length) * 2 ^ 16)))
    | 1 => give s.quireCap
    | _ => .trap s .ill (s.me.word y)

/-! ## The engine (15 R279 to R287) -/

/-- The space and interval of a side as it was checked. -/
def State.sideSpan (s : State) (cid : Nat) (x : Int × Int) : Nat × Int × Int :=
  match s.place cid x.1.toNat with
  | .pad k _ off => (k + 1, off, off + (x.2 - x.1))
  | _ => (0, x.1, x.2)

/-- The locks that a command registers when it is accepted. -/
def State.locksOf (s : State) (k : CopyCmd) : List Lock :=
  copyLocks k ((k.span true k.dst.cursor).toList.map (s.sideSpan k.cid))
    (if k.kind = 2 then [] else (k.span false k.src.cursor).toList.map (s.sideSpan k.cid))

/-- The strand's command that waits for a slot. -/
def Strand.command (t : Strand) : Option CopyCmd :=
  match t.wait with
  | .copySlot c => some c
  | _ => none

/-- COPY_ACCEPT (15 R279, R288, R299): operand sid. In the order of arrival, a waiting command takes a slot and registers its
locks, and its instruction is complete. -/
def execCopyAccept (s : State) : Host.Outcome State Fault Refusal :=
  let sid := s.argN 0
  let qid := quireOf sid
  match (s.strand sid).command with
  | none => .next s
  | some k =>
    let q := s.quire qid
    let first := ((coresOf qid).flatMap strandsOf).all fun u =>
      match (s.strand u).command with
      | some c => decide (k.seq ≤ c.seq)
      | none => true
    let slot := ((List.range 16).find? fun n => !q.cmds.any (·.slot == n)).getD 0
    let k := { k with slot := slot }
    let locks := s.locksOf k
    if !first || decide (16 ≤ q.cmds.length) || decide (32 < q.locks.length + locks.length) then .next s
    else
      let s' := s.onQuire qid fun q => { q with cmds := q.cmds ++ [k], locks := q.locks ++ locks }
      .next { (Act.done { s' with cur := sid }).settleT with cur := s.cur }

/-- The indices of element `n`, dimension 0 first (15 R283). -/
def indices : List Nat → Nat → List Nat
  | [], _ => []
  | k :: ks, n => n % k :: indices ks (n / k)

/-- The sum of i_d × stride_d. -/
def offsetOf : List Nat → List Int → Int
  | i :: is, t :: ts => (i : Int) * t + offsetOf is ts
  | _, _ => 0

/-- The source address of an element (15 R283, R300). -/
def CopyCmd.srcAt (c : CopyCmd) (ix : List Nat) : Nat :=
  let i0 := 2 ^ c.esz * ix.headD 0
  if c.kind = 2 then (c.rows.getD (ix.getD 1 0) .null).cursor + i0
  else ((c.src.cursor : Int) + i0 + offsetOf (ix.drop 1) c.sstride).toNat

/-- The destination address of an element (15 R283). -/
def CopyCmd.dstAt (c : CopyCmd) (ix : List Nat) : Nat :=
  ((c.dst.cursor : Int) + (2 ^ c.esz * ix.headD 0 : Nat) + offsetOf (ix.drop 1) c.dstride).toNat

/-- An edge element (15 R283). -/
def CopyCmd.edge (c : CopyCmd) (ix : List Nat) : Bool := (ix.zip c.valids).any fun x => decide (x.2 ≤ x.1)

/-- Where the engine finds a byte for a core, or the reason why it cannot (15 R287). The spec gives a copy no reason for a lost
target; it counts as memory that is not populated (DESIGN CHOICE, assumption 24). -/
def State.engineLoc (s : State) (cid a : Nat) (write : Bool) : Except Nat Nat :=
  match s.place cid a with
  | .hole => .error 3
  | .pad k win off => if win = 0 ∧ off < s.padSize k then .ok (padLoc k off) else .error 3
  | .mapped va =>
    match s.entryAt cid va with
    | none => .error 1
    | some e =>
      match s.under e va with
      | .ok loc _ =>
        if e.st then .error 4 else if write && !e.w then .error 2
        else if !s.reachable (dieOfCore cid) loc then .error 3 else .ok loc
      | _ => .error 3

/-- What a step of the engine on a command comes to. -/
inductive Moved where
  | moved (s : State) (c : CopyCmd)
  | failed (code va : Nat)
  | held

/-- The next element to read. -/
def CopyCmd.reads (c : CopyCmd) : Nat := c.at_ + c.buf.length

/-- The elements of a run of dimension 0, from index `i` to before `limit`, that lie in the sector of the address of the first. -/
def CopyCmd.run (c : CopyCmd) (limit i a : Nat) : Nat := max 1 (min (limit - i) ((16 - a % 16) / 2 ^ c.esz))

/-- The sector of an address lies in a range that commands accepted before have locked: for a read, a destination; for a write, either
side (15 R280). -/
def State.engineWaits (s : State) (before : List CopyCmd) (cid a : Nat) (write : Bool) : Bool :=
  let x := s.sideSpan cid ((a / 16 * 16 : Nat), (a / 16 * 16 + 16 : Nat))
  (s.quire (quireOfCore cid)).locks.any fun l =>
    (write || l.dst) && before.any (·.slot == l.slot) && overlapSpan x (l.space, l.lo, l.hi)

/-- The next run of a command's source that lies in one sector is read, once and together (15 R283); an edge element reads nothing.
The first read of a command follows the last of those before it (R280). -/
def State.readRun (s : State) (before : List CopyCmd) (c : CopyCmd) : Moved :=
  let ix := indices c.counts c.reads
  if c.total ≤ c.reads || before.any (fun b => decide (b.reads < b.total)) then .held
  else if c.edge ix then .moved s { c with buf := c.buf ++ [none] }
  else
    let e := 2 ^ c.esz
    let a := c.srcAt ix
    match s.engineLoc c.cid a false with
    | .error k => .failed k a
    | .ok loc =>
      let n := c.run (c.valids.headD 0) (ix.headD 0) a
      let got := (List.range n).map fun j => some ((List.range e).map fun i => s.byteAt (loc + e * j + i))
      if s.engineWaits before c.cid a false || (s.padWriter none (s.real loc)).isSome then .held
      else .moved s { c with buf := c.buf ++ got }

/-- The image of a sector and of its written bits that elements of `e` bytes make from byte `off` on; an edge element is zero. -/
def fillImage (e off : Nat) : List (Option (List Byte)) → BitVec 128 × BitVec 128
  | [] => (0, 0)
  | x :: l =>
    let r := fillImage e (off + e) l
    (r.1 ||| (BitVec.ofNat 128 (natOfBytes (x.getD [])) <<< (8 * off)), r.2 ||| (bitsFor e <<< (8 * off)))

/-- The next destination sector of a command is written as one (15 R283), once the elements that lie in it have been read, or, if
those that follow cannot be, with those that have; one that is skipped is passed. -/
def State.writeRead (s : State) (before : List CopyCmd) (stuck : Bool) (c : CopyCmd) : Moved :=
  let ix := indices c.counts c.at_
  let i := ix.headD 0
  let a := c.dstAt ix
  let past (n : Nat) : CopyCmd := { c with at_ := c.at_ + n, buf := c.buf.drop n }
  if c.buf = [] then .held
  else if c.skip && c.edge ix then .moved s (past 1)
  else
    match s.engineLoc c.cid a true with
    | .error k => .failed k a
    | .ok loc =>
      let n := c.run (if c.skip then c.valids.headD 0 else c.counts.headD 0) i a
      let sec := s.real loc / 16 * 16
      if (decide (c.buf.length < n) && !stuck) || s.engineWaits before c.cid a true || (s.sectorsHeld none [sec]).isSome then .held
      else
        let x := fillImage (2 ^ c.esz) (loc % 16) (c.buf.take n)
        .moved ((s.writeSector sec x.1 x.2 false).squashHome sec [lineOf sec] none) (past (min n c.buf.length))

/-- The next destination sector of a command, where what follows cannot be read if its read fails. -/
def State.writeRun (s : State) (before : List CopyCmd) (c : CopyCmd) : Moved :=
  s.writeRead before (match s.readRun before c with
    | .failed _ _ => true
    | _ => false) c

/-- A command of a slot with those accepted before it. -/
def Quire.command (q : Quire) (slot : Nat) : Option (List CopyCmd × CopyCmd) :=
  match q.cmds.findIdx? (·.slot == slot) with
  | none => none
  | some k => q.cmds[k]?.map fun c => (q.cmds.take k, c)

/-- A command's progress recorded. -/
def State.putCommand (s : State) (qid : Nat) (c : CopyCmd) : State :=
  s.onQuire qid fun q => { q with cmds := q.cmds.map fun x => if x.slot = c.slot then c else x }

/-- A command that leaves the engine, with its locks (15 R291). -/
def State.dropCommand (s : State) (qid slot : Nat) : State :=
  s.onQuire qid fun q =>
    { q with cmds := q.cmds.filter (·.slot != slot), locks := q.locks.filter (·.slot != slot) }

/-- Up to `n` steps of the engine on a command. -/
def moveSome (step : State → CopyCmd → Moved) (s : State) (c : CopyCmd) : Nat → State × CopyCmd
  | 0 => (s, c)
  | n + 1 =>
    match step s c with
    | .moved s c => moveSome step s c n
    | _ => (s, c)

/-- The completion action of a command sent to its target (15 R285). -/
def State.sendCompletion (s : State) (c : CopyCmd) : State :=
  let near := s.commandScope c
  match c.action with
  | 1 =>
    match s.barrierAt c.cid c.target with
    | some (cid, off) => s.sendAction c.cid c.sid near (.bytes c.gang cid off c.bytes)
    | none => s
  | 2 | 3 =>
    match s.place c.cid c.target.cursor with
    | .pad cid _ off =>
      let ref := mkRef cid off
      if c.action = 2 then s.sendAction c.cid c.sid near (.cdec c.sid c.gang ref (c.arg.extractLsb' 0 32).toInt)
      else s.sendAction c.cid c.sid near (.push (some c.sid) c.gang ref c.arg (cid == c.cid))
    | _ => s
  | _ => s

/-- COPY_COMPLETE (15 R279 to R286): operands quire, slot, n, m. The engine reads up to n runs of the command and then writes up to m
destination sectors; when all are written and it is the oldest, it completes (DESIGN CHOICE, assumption 23). -/
def execCopyComplete (s : State) : Host.Outcome State Fault Refusal :=
  let qid := s.argN 0
  match (s.quire qid).command (s.argN 1) with
  | none => .next s
  | some (before, c) =>
    let x := moveSome (State.readRun · before ·) s c (s.argN 2)
    let r := moveSome (State.writeRun · before ·) x.1 x.2 (s.argN 3)
    let s := r.1.putCommand qid r.2
    if r.2.total ≤ r.2.at_ ∧ before = [] then .next ((s.dropCommand qid c.slot).sendCompletion r.2)
    else .next s

/-- ENGFAULT on the issuing strand, if it still holds the firing or has been pre-empted with it (07 R127, 15 R287). -/
def State.engFault (s : State) (sid gang : Nat) (live : Bool) (val : Word) : State :=
  let t := s.strand sid
  if live && t.firing.isSome && t.arch.gangNo == gang && !s.gangAway gang (coreOf sid) then
    s.setStrand sid { t with engfault := t.engfault ++ [val] }
  else if live then
    s.onBindery fun b =>
      { b with launches := b.launches.map fun l =>
          if l.gang = gang then
            { l with saved := l.saved.map fun k =>
                { k with strands := k.strands.map fun x =>
                    (x.1, if x.1 = sid then { x.2 with engfault := x.2.engfault ++ [val] } else x.2) } }
          else l }
  else s

/-- The value of an ENGFAULT (15 R287). -/
def engValue (code va : Nat) : Word := BitVec.ofNat 64 (code * 2 ^ 60 + va % 2 ^ 56)

/-- The value of GANGLOST for the loss of a die (07 R146): DI, and COORD of the die within the gang. The spec states no die index
for a gang without a core on the die (DESIGN CHOICE, assumption 5). -/
def State.dieLost (s : State) (gang die : Nat) : Word :=
  let ms := s.members gang
  let chip := ((ms.head?.map fun c => (s.core c).coord).getD 0) &&& 0xFC00
  let idx := match ms.find? fun c => dieOfCore c == die with
    | some c => (s.core c).coord &&& 0x380
    | none => s.free 6 &&& 0x380
  0x4000000000000000 ||| chip ||| idx

/-- A gang with an access to a line of a fenced die is lost (16 R327). -/
def State.targetLost (s : State) (gang loc : Nat) : State :=
  match homeDie (s.real loc) with
  | some d =>
    if (s.die d).fenced && (match s.launch gang with
      | some l => !l.lost
      | none => false) then s.gangLoss gang (s.dieLost gang d) []
    else s
  | none => s

/-- Why the next element of a command fails, with its address: its read, or the write of what has been read; or, if `bad`, an
uncorrectable error in the source data of the next element to read, where what has been read before it is written first (15 R287). -/
def State.copyStop (s : State) (c : CopyCmd) (bad : Bool) : Option (State × Nat × Nat) :=
  let ix := indices c.counts c.reads
  let failed : Moved → Option (State × Nat × Nat)
    | .failed k a => some (s, k, a)
    | _ => none
  if c.total ≤ c.at_ then none
  else match failed (if c.buf ≠ [] then s.writeRun [] c else s.readRun [] c) with
    | some x => some x
    | none =>
      let r := moveSome (State.writeRead · [] true ·) s c c.buf.length
      if bad ∧ c.reads < c.total ∧ !c.edge ix ∧ r.2.buf = [] then some (r.1, 5, c.srcAt ix) else none

/-- The location of a side of a command's next element, whether or not it can be reached. -/
def State.copyLoc (s : State) (cid a : Nat) : Nat :=
  match s.place cid a with
  | .pad k _ off => padLoc k off
  | .hole => 0
  | .mapped va =>
    match (s.entryAt cid va).map fun e => s.under e va with
    | some (.ok loc _) => loc
    | _ => 0

/-- COPY_FAULT (15 R287): operands quire, slot, and 1 if the source data of the next element to read has an uncorrectable error. The
oldest command stops at its first failing element. One that cannot reach a fenced die loses its gang (16 R327). -/
def execCopyFault (s : State) : Host.Outcome State Fault Refusal :=
  let qid := s.argN 0
  match (s.quire qid).command (s.argN 1) with
  | some ([], c) =>
    match s.copyStop c (s.argN 2 == 1) with
    | none => .next s
    | some (s, k, va) =>
      let loc := s.copyLoc c.cid va
      let s := s.dropCommand qid c.slot
      let s := match c.action, s.barrierAt c.cid c.target with
        | 1, some (cid, off) => if (s.quire qid).names cid off then s.breakBarrier (padLoc cid off) else s
        | _, _ => s
      let v := engValue k va
      .next (((s.engFault c.sid c.gang c.live v).eventOf c.sid c.gang c.group 3 Cause.engfault.code v).targetLost c.gang loc)
  | _ => .next s

end Sys2Proof.Machine
end

