-- ==== Sys2Proof/Machine/Clock.lean ====
section
/-! DEFINITION. The interval clock, how reference time passes, and stamped commit (19): versions and their release, the horizon,
reads of stamped lines, and major 0x29. -/

namespace Sys2Proof.Machine

open Sys2Proof

/-! ## The clock (19 R357) -/

/-- The width of a die's pair. -/
def Die.width (d : Die) : Nat := d.latest - d.earliest

/-- The greatest width under discipline (01 R28, 19 R357). -/
def State.widthBound (s : State) : Nat := if s.bindery.peers = [] then 6 else 60

/-- The clock of a die after `e` nanoseconds that cross `ms` milliseconds (19 R357): both ends advance, latest only after
what discipline still holds, and the width grows by at most 2 ns for each millisecond; under discipline it does not grow past the
bound. -/
def Die.pass (bound e ms grow : Nat) (d : Die) : Die :=
  let next := d.latest + (e - d.hold)
  let more := min grow (2 * ms)
  { d with earliest := d.earliest + e, latest := next + (if d.lost then more else min more (d.earliest + e + bound - next)),
           hold := d.hold - e }

/-- Reference time passes (DESIGN CHOICE, assumption 2). -/
def State.pass (s : State) (e : Nat) : State :=
  let ms := (s.now + e) / 1000000 - s.now / 1000000
  { s with now := s.now + e, dies := s.dies.map fun d => (d.1, d.2.pass s.widthBound e ms (Config.drift s.ticks d.1)) }

/-- CLOCK_DISCIPLINE (19 R357): operands die, by how much earliest rises, for how long latest is held. The reference time stays
within the pair; a pair within its bound is kept there again. -/
def execClockDiscipline (s : State) : Host.Outcome State Fault Refusal :=
  .next (s.onDie (s.argN 0) fun d =>
    let d := { d with earliest := max d.earliest (min (d.earliest + s.argN 1) s.now), hold := min (d.hold + s.argN 2) (d.latest - s.now) }
    { d with lost := d.lost && decide (s.widthBound < d.width) })

/-- The clock of the strand that issues. -/
def State.myDie (s : State) : Die := s.die (dieOf s.cur)

/-- clk.rd (19 R365). -/
def execClkRd (x y : BitVec 6) (s : State) : Host.Outcome State Fault Refusal :=
  issue false [.g x, .g y] s fun s =>
    let d := s.myDie
    if x = y ∧ x ≠ 0 then .trap s .ill 0
    else .done (s.onArch s.cur fun a =>
      (a.writeG x (.data (BitVec.ofNat 64 d.earliest))).writeG y (.data (BitVec.ofNat 64 d.latest)))

/-- clk.wt (19 R368). -/
def execClkWt (x : BitVec 6) (s : State) : Host.Outcome State Fault Refusal :=
  terminate false false [.g x] s fun s =>
    if (s.me.word x).toNat < s.myDie.earliest then .done s else .hold (s.waiting (.clock (s.me.word x)))

/-- CLOCK_WAIT_EXPIRY (19 R367, R368): operand sid. A wait on the clock is over. -/
def execClockWaitExpiry (s : State) : Host.Outcome State Fault Refusal :=
  let sid := s.argN 0
  match (s.strand sid).wait with
  | .clock t =>
    if t.toNat < (s.die (dieOf sid)).earliest then .next (s.onStrand sid fun t => { t with wait := .none }) else .next s
  | _ => .next s

/-! ## Versions (19 R361) -/

/-- The versions on their way. -/
def State.versionsSent (s : State) : List Version :=
  s.msgs.filterMap fun m => match m.kind with
    | .version v => some v
    | _ => none

/-- The home slice of a location, among those of its die (01 R12). -/
def sliceOf (loc : Nat) : Nat := loc / 128 % 32

/-- The versions that a home slice holds: at most 32 (19 R366). -/
def State.sliceHeld (s : State) (loc : Nat) : Nat :=
  ((s.die (stampHome loc)).versions.filter fun v => sliceOf v.loc == sliceOf loc).length

/-- STAMP_VERSION (19 R361, R366): operand, the message. A version arrives at its home slice when that has room; one for a fenced die
is lost. -/
def execStampVersion (s : State) : Host.Outcome State Fault Refusal :=
  match s.msg (s.argN 0) with
  | some { kind := .version v, .. } =>
    let d := stampHome v.loc
    if (s.die d).fenced || (s.die v.die).fenced then .next (s.dropMsg (s.argN 0))
    else if 32 ≤ s.sliceHeld v.loc then .next s
    else .next ((s.dropMsg (s.argN 0)).onDie d fun x => { x with versions := x.versions ++ [v] })
  | _ => .next s

/-- A version whose stamp the clock of its storing die has passed is released. -/
def Version.release (package die earliest : Nat) (v : Version) : Version :=
  if v.package = package ∧ v.die = die ∧ v.stamp < earliest then { v with released := true } else v

/-- The releases that a die of a package sends when its earliest has risen, taken by every version of it (19 R361). -/
def State.releaseVersions (s : State) (package die earliest : Nat) : State :=
  let f := Version.release package die earliest
  { s with
    dies := s.dies.map fun d => (d.1, { d.2 with versions := d.2.versions.map f }),
    msgs := s.msgs.map fun m => match m.kind with
      | .version v => { m with kind := .version (f v) }
      | _ => m }

/-- STAMP_RELEASE (19 R361): operand, the storing die. -/
def execStampRelease (s : State) : Host.Outcome State Fault Refusal :=
  .next (s.releaseVersions s.bindery.package (s.argN 0) (s.die (s.argN 0)).earliest)

/-- A key before another (19 R361). -/
def Version.before (v w : Version) : Bool :=
  decide (v.stamp < w.stamp) || (v.stamp == w.stamp && (decide (v.package < w.package) ||
    (v.package == w.package && decide (v.die < w.die))))

/-- The versions of a line with the smallest key, in the order of the storing die's commits. -/
def smallestKey (l : List Version) : List Version :=
  let g := l.filter fun v => l.all fun w => !w.before v
  g.foldr (fun v l => (l.takeWhile fun w => decide (w.seq < v.seq)) ++ v :: (l.dropWhile fun w => decide (w.seq < v.seq))) []

/-- A line with the versions of one key applied: the shadow first, then their bytes and the stamp (19 R361). -/
def State.applyVersions (s : State) (line : Nat) (g : List Version) : State :=
  let loc := 128 * line
  let s := s.store (loc + 0x8000) (readBytes s.mem loc 128)
  let s := forAll g (fun s v => s.store v.loc (bytesOfNat 8 v.data.toNat)) s
  s.store (loc + 112) (bytesOfNat 8 ((g.head?.map Version.stamp).getD 0))

/-- VERSION_APPLY (19 R361): operand, the line. It takes one place in the order of its home die
(DESIGN CHOICE, assumption 27) (DEDUCED, assumption 72). -/
def execVersionApply (s : State) : Host.Outcome State Fault Refusal :=
  let line := s.argN 0
  let d := stampHome (128 * line)
  let g := smallestKey ((s.die d).versions.filter fun v => lineOf v.loc == line)
  let lines := [line, line + 256]
  if g = [] ∨ g.any (fun v => !v.released || decide ((s.die d).horizon ≤ v.stamp)) then .next s
  else if s.placeBlocked d lines none then .next s
  else
    let s := (s.applyVersions line g).onDie d fun x => { x with versions := x.versions.filter fun v => !g.contains v }
    .next (s.squashReaders d lines none)

/-! ## The horizon (19 R362) -/

/-- H of a die: the lower of its latest and the smallest stamp of its versions that no home holds yet. -/
def State.lowStamp (s : State) (d : Nat) : Nat :=
  (s.versionsSent.filter fun v => v.package == s.bindery.package && v.die == d).foldl (fun m v => min m v.stamp) (s.die d).latest

/-- The minimum over the dies that are not fenced. -/
def State.packageMin (s : State) : Option Nat :=
  (s.dies.filter fun d => !d.2.fenced).foldl (fun m d => match m with
    | none => some (s.lowStamp d.1)
    | some x => some (min x (s.lowStamp d.1))) none

/-- A minimum sent to every die. -/
def State.multicastHorizon (s : State) (g : Nat) : State :=
  { s with dies := s.dies.map fun d => (d.1, { d.2 with horizonNext := some g }) }

/-- HORIZON_COLLECT (19 R362): F0 collects; in a domain of one package it sends the minimum to the dies. -/
def execHorizonCollect (s : State) : Host.Outcome State Fault Refusal :=
  match s.packageMin with
  | none => .next s
  | some m =>
    let s' := { s with collected := some m }
    .next (if s.bindery.peers = [] then s'.multicastHorizon m else s')

/-- HORIZON_EXCHANGE (19 R362): operand, the minimum of the other packages of the domain. -/
def execHorizonExchange (s : State) : Host.Outcome State Fault Refusal :=
  match s.collected with
  | some m => if s.bindery.peers = [] then .next s else .next (s.multicastHorizon (min m (s.argN 0)))
  | none => .next s

/-- HORIZON_UPDATE (19 R362): operand die. The minimum reaches the die, whose horizon never falls. -/
def execHorizonUpdate (s : State) : Host.Outcome State Fault Refusal :=
  .next (s.onDie (s.argN 0) fun d =>
    match d.horizonNext with
    | some m => { d with horizon := max d.horizon m, horizonNext := none }
    | none => d)

/-! ## Reads of stamped lines (19 R363) -/

/-- Eight bytes of a line as an observer reads them. -/
def State.wordAt (s : State) (loc : Nat) : Word :=
  BitVec.ofNat 64 (natOfBytes ((List.range 8).map fun j => s.byteAt (loc + j)))

/-- The value of a served read: the stamp, or the word of ld.asof at its stamp; none is STALE (19 R367, R369). -/
def State.stampValue (s : State) (q : StampReq) : Option Word :=
  match q.asof with
  | none => some (s.wordAt (q.line + 112))
  | some t =>
    if (s.wordAt (q.line + 112)).toNat ≤ t.toNat then some (s.wordAt (q.line + q.off))
    else if (s.wordAt (q.line + 0x8000 + 112)).toNat ≤ t.toNat then some (s.wordAt (q.line + 0x8000 + q.off))
    else none

/-- An outstanding result with its source changed. -/
def State.onSource (s : State) (sid k : Nat) (f : Source → Source) : State :=
  s.onStrand sid fun t => { t with out := t.out.map fun o => if o.id = k then { o with src := f o.src } else o }

/-- ld.asof that ends in STALE: its result is over, its chunk is squashed and the trap is taken at the ld.asof (19 R367). -/
def State.stale (s : State) (sid k chunk : Nat) (t : Word) : State :=
  let s := s.answer sid k [] Flags.none
  match (s.strand sid).chunks.findIdx? fun c => c.id == chunk with
  | some n => (s.squash sid n false false).raise sid .stale t
  | none => s

/-- A read for ld.asof or stp.rd at its home (19 R363): it arrives, or it is served; the second component says that it has been. One
whose chunk has been squashed brings its value to no register and raises nothing. -/
def State.serveStamp (s : State) (sid : Nat) (o : Out) (q : StampReq) : State × Bool :=
  match q.arrived with
  | none => (s.onSource sid o.id fun _ => .stamped { q with arrived := some (s.arriveL q.line) }, false)
  | some l =>
    if !s.mayServe q.line l then (s, false)
    else match s.stampValue q with
      | some v => (s.answer sid o.id [.g q.r (.data v)] Flags.none, true)
      | none => (if o.dead then s.answer sid o.id [] Flags.none else s.stale sid o.id o.chunk (q.asof.getD 0), true)

/-- A group of a load on a stamped page at its home (19 R363): it arrives, or it is read. -/
def State.serveNeed (s : State) (sid k j : Nat) (l : LoadReq) (n : Need) : State × Bool :=
  let loc := n.locs.headD 0
  match n.arrived with
  | none =>
    (s.onSource sid k fun _ => .load { l with need := l.need.set j { n with arrived := some (s.arriveL loc) } }, false)
  | some x => if s.mayServe loc x then (s.readNeed sid k j, true) else (s, false)

/-- STAMPED_READ (19 R363): operands sid, result, group of a load. A read of a line that the own die homes first arrives at the home,
and then it is served; one of a line farther away is an access of the remote-access unit. -/
def execStampedRead (s : State) : Host.Outcome State Fault Refusal :=
  let sid := s.argN 0
  let k := s.argN 1
  match (s.strand sid).outOf k with
  | none => .next s
  | some o =>
    match o.src with
    | .stamped q =>
      if !locOnDie (dieOf sid) q.line then .next s
      else if !s.reachable (dieOf sid) q.line then .next (s.readLost sid k q.line)
      else .next (s.serveStamp sid o q).1
    | .load l =>
      match l.need[s.argN 2]? with
      | some n =>
        if n.port ≠ .stamped then .next s
        else if !s.reachable (dieOf sid) (n.locs.headD 0) then .next (s.readLost sid k (n.locs.headD 0))
        else .next (s.serveNeed sid k (s.argN 2) l n).1
      | none => .next s
    | _ => .next s

/-! ## Major 0x29 -/

/-- The location of the operand of st.stamp, ld.asof or stp.rd, or what stops the instruction: `store` for st.stamp, `word` if
the stamp sector is no operand (19 R366, R367, R369). -/
def State.stampTarget (s : State) (c : Reg) (store word : Bool) : Except Stop Nat :=
  let a := c.cursor
  match checkCap s.me.smode c a 8 [if store then permST else permLD, permSTAMP] 8 with
  | some cause => .error (.at cause a)
  | none =>
    match s.place (coreOf s.cur) a with
    | .hole => .error (.at .pgflt a)
    | .pad cid win off => if windowBytes win (s.padSize cid) < off + 8 then .error (.at .pgflt a) else .error (.at .align a)
    | .mapped va =>
      match s.plbCheck s.cur va [if store then .w else .r] with
      | .denied => .error (.at .plb a)
      | .miss => .error (.wait (.plb va (s.strand s.cur).wait.got))
      | .granted =>
        match (if store then (s.quire (quireOf s.cur)).rangeHit 0 a true ((List.range 8).map fun j => (j, va + j)) else none) with
        | some b => .error (.at .range b)
        | none =>
          match s.transLoad s.cur va with
          | .failed _ => .error (.at .pgflt a)
          | .miss => .error (.wait (.xlate va (s.strand s.cur).wait.got))
          | .ok loc e => if !e.st || decide (32768 ≤ a % 65536) || (word && decide (104 < a % 128)) then .error (.at .align a) else .ok loc

/-- An access of major 0x29 that has passed its checks uses its PLB and page-buffer entries (08 R154, R157). -/
def State.stampUse (s : State) (a : Nat) : State := s.touchAccess s.cur false { lane := 0, va := a, n := 8 }

/-- A read of ld.asof or stp.rd as the chunk's load of one line (01 R16, 19 R367, R369): a line that the die homes enters the read
signature, and one farther away is an access of the remote-access unit. The error says why it waits. -/
def State.stampRead (s : State) (a loc : Nat) (r : BitVec 6) (asof : Option Word) : Except Wait State :=
  let line := loc / 128 * 128
  let near := locOnDie (dieOf s.cur) line
  let reads := onDieLines (dieOf s.cur) [line]
  if s.behindRmw s.cur [line] then .error .instr
  else if !s.lineRoom s.cur reads [] then .error .lineLimit
  else if !near && s.rauFull (coreOf s.cur) then .error .full
  else
    let out := s.serial
    let q : StampReq := { line := line, off := loc % 128, asof := asof, r := r, arrived := none }
    let s := ((s.stampUse a).enterLines s.cur reads []).setPending [.g r] (.stamped q)
    .ok (if near then s else s.addRemote s.cur (.load out [line]))

/-- st.stamp (19 R366): the version is sent; the strand parks while its home slice is full. -/
def execStStamp (x y zr : BitVec 6) (s : State) : Host.Outcome State Fault Refusal :=
  terminate false false [.g x, .g y, .g zr] s fun s =>
    let a := (s.me.readG y).cursor
    match s.stampTarget (s.me.readG y) true true with
    | .error e => e.act s
    | .ok loc =>
      let d := s.myDie
      let t := (s.me.word zr).toNat
      let wmax := s.me.twmax.toNat % 65536
      if wmax = 0 ∨ wmax < d.width then .trap s .clkwide (BitVec.ofNat 64 d.width)
      else if t < d.latest then .trap s .stamplow (BitVec.ofNat 64 d.latest)
      else if 2 ^ 32 ≤ t - d.latest then .trap s .ill (s.me.word zr)
      else
        let v : Version := { loc := s.real loc, data := s.me.word x, stamp := t, package := s.bindery.package, die := dieOf s.cur,
                             sid := s.cur, seq := ((s.strand s.cur).opened.map Chunk.born).getD s.ticks, released := false }
        let s' := (s.stampUse a).send (coreOf s.cur) (.version v)
        if s.sliceHeld v.loc < 32 then .done s' else .gone ((Act.done s').settleT.waiting (.sent s.serial))

/-- The completion of ld.asof: the read belongs to the chunk that follows, and a squash of it runs the ld.asof again (19 R367). -/
def State.asofDone (s : State) : State :=
  (s.onArch s.cur fun a => (a.advance).count 8 1).onStrand s.cur fun t =>
    { (t.onOpen fun c => { c with lead := false, redo := true }) with wait := .none }

/-- ld.asof (19 R367). -/
def execLdAsof (x y zr : BitVec 6) (s : State) : Host.Outcome State Fault Refusal :=
  terminate false false [.g y, .g zr, .g x] s fun s =>
    match s.stampTarget (s.me.readG y) false true with
    | .error e => e.act s
    | .ok loc =>
      let t := s.me.word zr
      if s.myDie.earliest ≤ t.toNat then .hold (s.waiting (.clock t))
      else match s.stampRead (s.me.readG y).cursor loc x (some t) with
        | .error w => .hold (s.waiting w)
        | .ok s => .gone s.asofDone

/-- stp.rd (19 R369). -/
def execStpRd (x y : BitVec 6) (s : State) : Host.Outcome State Fault Refusal :=
  issue false [.g y, .g x] s fun s =>
    match s.stampTarget (s.me.readG y) false false with
    | .error e => e.act s
    | .ok loc =>
      match s.stampRead (s.me.readG y).cursor loc x none with
      | .error w => .hold (s.waiting w)
      | .ok s => .done s

end Sys2Proof.Machine
end

