-- ==== Sys2Proof/Machine/Remote.lean ====
section
/-! DEFINITION. Remote accesses (16 R317 to R322), majors 0x27 and 0x28 (R328 to R332), page migration (R325, R326) and the loss
of a die or a port (R327). -/

namespace Sys2Proof.Machine

open Sys2Proof

/-! ## The sides of a get or put (16 R317, R319, R321) -/

/-- The location of a byte of a side for a core, and whether its page is stamped, or the reason why the access fails. -/
def State.sideLoc (s : State) (cid scl a : Nat) (write : Bool) : Except Nat (Nat × Bool) :=
  match s.place cid a with
  | .hole => .error 3
  | .pad k win off =>
    let size := s.padSize k
    if (win ≠ 0 ∧ win ≠ 6) ∨ size ≤ off then .error 3
    else .ok (padLoc k (if win = 6 then (scl + off) % size else off), false)
  | .mapped va =>
    match s.entryAt cid va with
    | none => .error 1
    | some e =>
      match s.under e va with
      | .ok loc _ =>
        if e.st && (write || decide (32768 ≤ va % 65536)) then .error 4
        else if write && !e.w then .error 2 else .ok (loc, e.st)
      | _ => .error 3

/-- The parts of a side of `n` bytes from an address on, each within one unit of 128 or 16 bytes (16 R319), or the reason and the
address of the first byte that cannot be reached. -/
def State.sideParts (s : State) (cid scl a n unit : Nat) (write : Bool) : Nat → Nat → Except (Nat × Nat) (List Part)
  | _, 0 => .ok []
  | off, fuel + 1 =>
    if n ≤ off then .ok [] else
    match s.sideLoc cid scl (a + off) write with
    | .error c => .error (c, a + off)
    | .ok (loc, st) =>
      let room := if padOrigin ≤ loc then s.padSize (padCore loc) - padRaw loc else n
      let len := max 1 (min (n - off) (min (unit - loc % unit) room))
      match s.sideParts cid scl a n unit write (off + len) fuel with
      | .error e => .error e
      | .ok l => .ok ({ write := write, off := off, len := len, loc := loc, stamped := st, arrived := none } :: l)

/-- A remote access by its number. -/
def State.remote (s : State) (rid : Nat) : Option Remote := s.remotes.find? (·.id == rid)

/-- A remote access changed. -/
def State.onRemote (s : State) (rid : Nat) (f : Remote → Remote) : State :=
  { s with remotes := s.remotes.map fun r => if r.id = rid then f r else r }

/-- A remote access that has failed for a reason at an address (16 R321). -/
def State.failRemote (s : State) (rid : Nat) (e : Nat × Nat) : State :=
  s.onRemote rid fun r => { r with failed := some (e.1, BitVec.ofNat 64 e.2) }

/-- A remote access that has been performed. -/
def State.remoteDone (s : State) (rid : Nat) : State := s.onRemote rid fun r => { r with performed := true }

/-- A get or put that enters the remote-access unit: both sides are translated before any byte moves (16 R317), the destination
first (DEDUCED, assumption 25). -/
def State.addMove (s : State) (dst src : Word) (n : Nat) : State :=
  let unit := if n ≤ 128 then 128 else 16
  let side (a : Word) (write : Bool) : Except (Nat × Nat) (List Part) :=
    s.sideParts (coreOf s.cur) (s.sclbase s.cur) a.toNat n unit write 0 (n / unit + 4)
  match side dst true, side src false with
  | .error e, _ => (s.addRemote s.cur (.move src dst n [] [])).failRemote s.serial e
  | .ok _, .error e => (s.addRemote s.cur (.move src dst n [] [])).failRemote s.serial e
  | .ok d, .ok c => s.addRemote s.cur (.move src dst n [] (c ++ d))

/-! ## get, put, get.w and put.w (16 R328) -/

/-- A side in a scratchpad window other than 0 or 6. -/
def State.badWindow (s : State) (a : Nat) : Bool :=
  match s.place (coreOf s.cur) a with
  | .pad _ win _ => win != 0 && win != 6
  | _ => false

/-- The space of a side and its bytes in it, each with its position. -/
def State.sideBytes (s : State) (a n : Nat) : Nat × List (Nat × Nat) :=
  match s.place (coreOf s.cur) a with
  | .hole => (0, [])
  | .pad cid win off => (cid + 1, padBytes win off n (s.padSize cid) (s.sclbase s.cur))
  | .mapped va => (0, (List.range n).map fun j => (j, va + j))

/-- A side that touches a choice-point or trail area, or in U mode a deque (14 R263, 20 R375). -/
def State.sideProtected (s : State) (a n : Nat) : Bool :=
  let x := s.sideBytes a n
  x.1 != 0 && x.2.any fun b => s.sideRaw s.me.smode (x.1 - 1) b.2

/-- The PLB check of a side, after the fills it needs. -/
def State.sidePlb (s : State) (a n : Nat) (right : Right) : State × Bool :=
  match s.place (coreOf s.cur) a with
  | .mapped va => s.plbRange s.cur [.e, right] (va + n) va (n / 2 ^ 20 + 2)
  | _ => (s, true)

/-- The first byte of a side that a range lock forbids. -/
def State.sideRange (s : State) (a n : Nat) (store : Bool) : Option Nat :=
  let x := s.sideBytes a n
  (s.quire (quireOf s.cur)).rangeHit x.1 a store x.2

/-- The bytes of two sides meet in one space. In window 6 they may go round its end. -/
def State.sidesMeet (s : State) (a b n : Nat) : Bool :=
  let near (size x y : Nat) : Bool := decide ((x + size - y % size) % size < n)
  match s.place (coreOf s.cur) a, s.place (coreOf s.cur) b with
  | .mapped x, .mapped y => decide (x < y + n) && decide (y < x + n)
  | .pad k w x, .pad k' w' y =>
    let size := max 1 (s.padSize k)
    let raw (w x : Nat) : Nat := if w = 6 then (s.sclbase s.cur + x) % size else x
    k == k' && (if w = 6 ∨ w' = 6 then near size (raw w x) (raw w' y) || near size (raw w' y) (raw w x)
      else decide (x < y + n) && decide (y < x + n))
  | _, _ => false

/-- The checks of 16 R328 after the length, in their order. -/
def State.moveStop (s : State) (d c : Reg) (n : Nat) (wide : Bool) : State × Option Stop :=
  let da := d.cursor
  let ca := c.cursor
  match (checkCap s.me.smode d da n [permST, permENG] 0).map (Stop.at · da) with
  | some e => (s, some e)
  | none =>
    match (checkCap s.me.smode c ca n [permLD, permENG] 0).map (Stop.at · ca) with
    | some e => (s, some e)
    | none =>
      if wide && da % 128 != 0 then (s, some (.at .align da))
      else if wide && ca % 128 != 0 then (s, some (.at .align ca))
      else if s.badWindow da then (s, some (.at .align da))
      else if s.badWindow ca then (s, some (.at .align ca))
      else if s.sideProtected da n then (s, some (.at .capbnd da))
      else if s.sideProtected ca n then (s, some (.at .capbnd ca))
      else if d.perm permTRY && s.me.cpdepth != 0 then (s, some (.at .capperm da))
      else match s.sidePlb da n .w with
        | (s, false) => (s, some (.at .plb da))
        | (s, true) =>
          match s.sidePlb ca n .r with
          | (s, false) => (s, some (.at .plb ca))
          | (s, true) =>
            match (s.sideRange da n true).or (s.sideRange ca n false) with
            | some a => (s, some (.at .range a))
            | none => (s, if s.sidesMeet da ca n then some (.at .range da) else none)

/-- A get, put, get.w or put.w (16 R328). -/
def getPut (wide : Bool) (reads : List RegName) (x y : BitVec 6) (len : Arch → Nat) (s : State) :
    Host.Outcome State Fault Refusal :=
  terminate false false reads s fun s =>
    let n := len s.me
    if n < 1 ∨ 4096 < n then .trap s .ill (BitVec.ofNat 64 n)
    else match s.moveStop (s.me.readG x) (s.me.readG y) n wide with
      | (s, some e) => e.act s
      | (s, none) =>
        if s.rauFull (coreOf s.cur) then .hold (s.waiting .full)
        else .done (s.addMove (s.me.word x) (s.me.word y) n)

/-- get (16 R328). -/
def execGet (x y zr : BitVec 6) (s : State) : Host.Outcome State Fault Refusal :=
  getPut false [.g x, .g y, .g zr] x y (fun a => (a.word zr).toNat) s

/-- put (16 R328). -/
def execPut (x y zr : BitVec 6) (s : State) : Host.Outcome State Fault Refusal :=
  getPut false [.g x, .g y, .g zr] x y (fun a => (a.word zr).toNat) s

/-- get.w (16 R328). -/
def execGetW (x y : BitVec 6) (s : State) : Host.Outcome State Fault Refusal := getPut true [.g x, .g y] x y (fun _ => 128) s

/-- put.w (16 R328). -/
def execPutW (x y : BitVec 6) (s : State) : Host.Outcome State Fault Refusal := getPut true [.g x, .g y] x y (fun _ => 128) s

/-! ## gwait and mig (16 R329, R330) -/

/-- An access of a strand that gwait waits for is not complete. -/
def State.remoteOut (s : State) (sid : Nat) : Bool :=
  s.remotes.any fun r => r.sid == sid && match r.kind with
    | .move _ _ _ _ _ | .rmw _ _ _ _ _ _ _ _ | .mig _ _ _ => true
    | _ => false

/-- gwait (16 R329). -/
def execGwait (s : State) : Host.Outcome State Fault Refusal :=
  terminate false false [] s fun s => if s.remoteOut s.cur then .hold (s.waiting .instr) else .done s

/-- mig (16 R330): a mapped status word passes the PLB with E and W (08 R153) (DEDUCED, assumption 59). -/
def execMig (x y zr : BitVec 6) (s : State) : Host.Outcome State Fault Refusal :=
  terminate true false [.g x, .g y, .g zr] s fun s =>
    let va := (s.me.word x).toNat % 2 ^ 56 / 2 ^ 16 * 2 ^ 16
    let fr := (s.me.word y).toNat % 2 ^ 52 / 2 ^ 16 * 2 ^ 16
    let c := s.me.readG zr
    match checkCap s.me.smode c c.cursor 8 [permST] 8 with
    | some cause => .trap s cause c.low
    | none =>
      match s.sidePlb c.cursor 8 .w with
      | (s, false) => .trap s .plb c.low
      | (s, true) =>
        if s.rauFull (coreOf s.cur) then .hold (s.waiting .full) else .done (s.addRemote s.cur (.mig va fr c.cursor))

/-! ## Remote atomics (16 R332) -/

/-- A remote atomic: the checks of 09 R170, then an entry of the remote-access unit. -/
def ramo (op : Nat) (wide : Bool) (d a b : BitVec 6) (s : State) : Host.Outcome State Fault Refusal :=
  terminate false false [.g d, .g a, .g b] s fun s =>
    let x := s.me
    let c := x.readG a
    let n := atomBytes op wide
    match checkCap x.smode c c.cursor n [permLD, permST] n with
    | some cause => .trap s cause c.low
    | none =>
      if c.perm permTRY && x.cpdepth != 0 then .trap s .capperm c.low
      else match s.atomTarget [.r, .w, .e] c.cursor n false with
        | .error e => e.act s
        | .ok loc =>
          if s.rauFull (coreOf s.cur) then .hold (s.waiting .full)
          else
            let s' := (s.touchAccess s.cur false { lane := 0, va := c.cursor, n := n }).setPendingT [.g d] .reply
            .done (s'.addRemote s.cur (.rmw c.cursor s.serial loc op wide (x.word b) (x.word d) false))

/-- ramo.add (16 R332). -/
def execRamoAdd (d a b : BitVec 6) (w : Bool) (s : State) : Host.Outcome State Fault Refusal := ramo 0 w d a b s

/-- ramo.and (16 R332). -/
def execRamoAnd (d a b : BitVec 6) (w : Bool) (s : State) : Host.Outcome State Fault Refusal := ramo 1 w d a b s

/-- ramo.or (16 R332). -/
def execRamoOr (d a b : BitVec 6) (w : Bool) (s : State) : Host.Outcome State Fault Refusal := ramo 2 w d a b s

/-- ramo.xor (16 R332). -/
def execRamoXor (d a b : BitVec 6) (w : Bool) (s : State) : Host.Outcome State Fault Refusal := ramo 3 w d a b s

/-- ramo.min (16 R332). -/
def execRamoMin (d a b : BitVec 6) (w : Bool) (s : State) : Host.Outcome State Fault Refusal := ramo 4 w d a b s

/-- ramo.max (16 R332). -/
def execRamoMax (d a b : BitVec 6) (w : Bool) (s : State) : Host.Outcome State Fault Refusal := ramo 5 w d a b s

/-- ramo.minz (16 R332). -/
def execRamoMinz (d a b : BitVec 6) (w : Bool) (s : State) : Host.Outcome State Fault Refusal := ramo 6 w d a b s

/-- ramo.maxz (16 R332). -/
def execRamoMaxz (d a b : BitVec 6) (w : Bool) (s : State) : Host.Outcome State Fault Refusal := ramo 7 w d a b s

/-- ramo.swap (16 R332). -/
def execRamoSwap (d a b : BitVec 6) (w : Bool) (s : State) : Host.Outcome State Fault Refusal := ramo 8 w d a b s

/-- ramo.cas (16 R332). -/
def execRamoCas (d a b : BitVec 6) (w : Bool) (s : State) : Host.Outcome State Fault Refusal := ramo 9 w d a b s

/-! ## Performing an access at its home (16 R318 to R321, R327) -/

/-- The lines that an access has still to reach. -/
def State.remoteLines (s : State) (r : Remote) : List Nat :=
  if r.performed || r.failed.isSome then []
  else (match r.kind with
    | .load _ locs => locs
    | .store loc _ _ _ => [loc]
    | .move _ _ _ _ parts => parts.map Part.loc
    | .rmw _ _ loc op wide _ _ _ => s.runLocs loc (atomBytes op wide)
    | .mig _ _ _ => []).map fun loc => lineOf (s.real loc)

/-- An access has an entry of its core's remote-access unit (16 R317): a store or part of a load that finds none free waits for one. -/
def State.entered (s : State) (r : Remote) : Bool := ((s.remotes.filter (·.cid == r.cid)).take 32).any (·.id == r.id)

/-- An earlier access of the same core to one of some lines has not been acknowledged (16 R318). -/
def State.heldBack (s : State) (r : Remote) (lines : List Nat) : Bool :=
  s.remotes.any fun q => q.cid == r.cid && decide (q.id < r.id) && (s.remoteLines q).any lines.contains

/-- A remote access whose read has been served is performed. -/
def State.served (s : State × Bool) (rid : Nat) : State := if s.2 then s.1.remoteDone rid else s.1

/-- A load is performed: its group is read, on a stamped page under 19 R363. -/
def State.performLoad (s : State) (r : Remote) (out : Nat) (locs : List Nat) : State :=
  match locs.find? fun b => !s.reachable (dieOf r.sid) b with
  | some b => ((s.readLost r.sid out b).remoteDone r.id).targetLost r.gang b
  | none =>
    if locs.any fun b => (s.padWriter none b).isSome then s
    else match (s.strand r.sid).outOf out with
      | none => s.remoteDone r.id
      | some o =>
        match o.src with
        | .load l =>
          match l.need.zipIdx.find? fun n => n.1.port == .remote && n.1.locs == locs with
          | some (n, j) => State.served (if n.stamped then s.serveNeed r.sid out j l n else (s.readNeed r.sid out j, true)) r.id
          | none => s.remoteDone r.id
        | .stamped q => State.served (s.serveStamp r.sid o q) r.id
        | _ => s.remoteDone r.id

/-- A store is performed: its bits are written with its tag, and the readers of the home die are squashed. -/
def State.performStore (s : State) (r : Remote) (loc : Nat) (data bits : BitVec 128) (tag : Bool) : State :=
  if !s.reachable (dieOf r.sid) loc then ((s.lostAccess r.sid loc).remoteDone r.id).targetLost r.gang loc
  else if (s.sectorsHeld none [loc]).isSome then s
  else ((s.remoteDone r.id).writeSector (s.real loc) data bits tag).squashHome (s.real loc) [lineOf (s.real loc)] none

/-- An atomic is performed (09 R168, R171). -/
def State.performRmw (s : State) (r : Remote) (va out loc op : Nat) (wide : Bool) (x e : Word) (amo : Bool) : State :=
  if !s.reachable (dieOf r.sid) loc then
    if amo then ((s.readLost r.sid out loc).remoteDone r.id).targetLost r.gang loc
    else ((s.answerG r.sid out 0 Flags.none).failRemote r.id (6, va)).targetLost r.gang loc
  else if (s.sectorsHeld none (s.runLocs loc (atomBytes op wide))).isSome then s
  else
    let a := s.atomic r.sid loc op wide x e
    (a.1.answerG r.sid out a.2.1 a.2.2).remoteDone r.id

/-- The access of a move whose parts and bytes have changed; with no part left it has been performed. -/
def Remote.moved (r : Remote) (src dst : Word) (n : Nat) (data : List (Nat × Byte)) (parts : List Part) : Remote :=
  { r with kind := .move src dst n data parts, performed := parts == [] }

/-- The bytes that a move has read for a part, if they are all there. -/
def partBytes (data : List (Nat × Byte)) (p : Part) : Option (List Byte) :=
  (List.range p.len).mapM fun j => (data.find? fun x => x.1 == p.off + j).map (·.2)

/-- Part `k` of a move is performed (16 R319): a read brings its bytes, that of a stamped line under 19 R363; a write waits for all
of its bytes, clears the tags and squashes the readers. `bad` says that the bytes read have an uncorrectable error (R321). -/
def State.performPart (s : State) (r : Remote) (src dst : Word) (n : Nat) (data : List (Nat × Byte)) (parts : List Part)
    (k : Nat) (bad : Bool) : State :=
  match parts[k]? with
  | none => s
  | some p =>
    let rest := parts.eraseIdx k
    if !s.reachable (dieOf r.sid) p.loc then
      (s.failRemote r.id (6, (if p.write then dst else src).toNat + p.off)).targetLost r.gang p.loc
    else if p.write then
      match partBytes data p with
      | none => s
      | some bs =>
        if (s.sectorsHeld none ((List.range p.len).map (p.loc + ·))).isSome then s
        else (s.onRemote r.id fun r => r.moved src dst n data rest).placeStore p.loc bs none
    else if bad then s.failRemote r.id (5, src.toNat + p.off)
    else
      let got := (List.range p.len).map fun j => (p.off + j, s.byteAt (p.loc + j))
      let read : State := s.onRemote r.id fun r => r.moved src dst n (data ++ got) rest
      if p.stamped then
        match p.arrived with
        | none =>
          s.onRemote r.id fun r => r.moved src dst n data (parts.set k { p with arrived := some (s.arriveL p.loc) })
        | some l => if s.mayServe p.loc l then read else s
      else if (List.range p.len).any fun j => (s.padWriter none (p.loc + j)).isSome then s
      else read

/-- An address of the far tier (01 R13). -/
def isFar (a : Nat) : Bool := decide (2 ^ 43 ≤ a) && decide (a < 2 ^ 44)

/-- The Rebinder of a migration (16 R325). -/
def rebinderOf (old frame : Nat) : Nat :=
  if isFar frame then 8 + frame / 2 ^ 42 % 2 else if isFar old then 8 + old / 2 ^ 42 % 2 else 8

/-- Some line of a page cannot be reached (16 R327); its blocks of 4 KB have different homes (01 R12). -/
def State.pageLost (s : State) (r : Remote) (frame : Nat) : Bool :=
  (List.range 16).any fun k => !s.reachable (dieOf r.sid) (frame + 4096 * k)

/-- A migration request reaches its Rebinder; one for a page that cannot be reached fails. -/
def State.askRebinder (s : State) (r : Remote) (va frame status : Nat) : State :=
  let old := ((s.lookup r.cid va).map (·.frame)).getD 0
  let reb := rebinderOf old frame
  if (s.die reb).fenced || s.pageLost r old || s.pageLost r frame then s.failRemote r.id (6, va)
  else if s.migrations.any (·.rid == r.id) then s
  else
    { s with migrations := s.migrations ++ [{ rid := r.id, reb := reb, va := va, frame := frame, old := old, status := status,
                                              step := 0, open_ := [] }] }

/-- An access of a registered peer that this domain's memory serves (16 R322, 18 R356): operand 3 is 0 for a write of the bytes given,
within one line, 1 for an atomic, 2 for a version that arrives, 3 for the releases of a die; then the package, the physical
address, and what the kind needs: operation, width and operands; die, stamp and word; die and its earliest
(DESIGN CHOICE, assumption 6). -/
def State.peerAccess (s : State) : State :=
  let package := s.argN 4
  let pa := s.argN 5
  let here : Option Nat := match s.phys pa with
    | .here loc => some (s.real loc)
    | .peer loc => some (s.real loc)
    | .nothing => none
  if package = s.bindery.package ∨ !s.bindery.peers.any (·.1 == package) then s
  else match s.argN 3, here with
    | 0, some loc =>
      let n := s.arg.bytes.length
      if 128 < pa % 128 + n ∨ (s.sectorsHeld none ((List.range n).map (loc + ·))).isSome then s
      else s.placeStore loc s.arg.bytes none
    | 1, some loc =>
      let op := s.argN 6
      let wide := s.argN 7 == 1
      if 11 < op ∨ pa % atomBytes op wide ≠ 0 ∨ (s.sectorsHeld none (s.runLocs loc (atomBytes op wide))).isSome then s
      else (s.atomic s.cur loc op wide (BitVec.ofNat 64 (s.argN 8)) (BitVec.ofNat 64 (s.argN 9))).1
    | 2, some loc =>
      let v : Version := { loc := loc, data := BitVec.ofNat 64 (s.argN 8), stamp := s.argN 7, package := package, die := s.argN 6,
                           sid := 0, seq := s.serial, released := false }
      if loc % 8 ≠ 0 ∨ 104 < loc % 128 ∨ v.stamp < (s.die (stampHome loc)).horizon ∨ 32 ≤ s.sliceHeld loc then s
      else s.bump.onDie (stampHome loc) fun d => { d with versions := d.versions ++ [v] }
    | 3, _ => s.releaseVersions package (s.argN 6) (s.argN 7)
    | _, _ => s

/-- REMOTE_PERFORM (16 R318): operands, the access, which of its parts, and 1 if what a part reads has an uncorrectable error or 2 if the
access is that of a peer. -/
def execRemotePerform (s : State) : Host.Outcome State Fault Refusal :=
  if s.argN 2 = 2 then .next s.peerAccess
  else match s.remote (s.argN 0) with
  | none => .next s
  | some r =>
    if r.performed || r.failed.isSome || !s.entered r then .next s
    else match r.kind with
      | .load out locs => .next (if s.heldBack r (locs.map fun b => lineOf (s.real b)) then s else s.performLoad r out locs)
      | .store loc data bits tag =>
        .next (if s.heldBack r [lineOf (s.real loc)] then s else s.performStore r loc data bits tag)
      | .move src dst n data parts =>
        .next (if s.heldBack r ((parts[s.argN 1]?.map fun p => lineOf (s.real p.loc)).toList) then s
          else s.performPart r src dst n data parts (s.argN 1) (s.argN 2 == 1))
      | .rmw va out loc op wide x e amo =>
        .next (if s.heldBack r (s.remoteLines r) then s else s.performRmw r va out loc op wide x e amo)
      | .mig va frame status => .next (s.askRebinder r va frame status)

/-- A remote access leaves its unit. -/
def State.dropRemote (s : State) (rid : Nat) : State := { s with remotes := s.remotes.filter (·.id != rid) }

/-- REMOTE_COMPLETE (16 R317, R321): operand, the access. It frees its entry; a failed one raises ENGFAULT and is reported. -/
def execRemoteComplete (s : State) : Host.Outcome State Fault Refusal :=
  match s.remote (s.argN 0) with
  | none => .next s
  | some r =>
    match r.failed with
    | some (code, va) =>
      let v := engValue code va.toNat
      .next (((s.dropRemote r.id).engFault r.sid r.gang r.live v).eventOf r.sid r.gang r.group 3 Cause.engfault.code v)
    | none => if r.performed then .next (s.dropRemote r.id) else .next s

/-- REMOTE_TIMEOUT (16 R322): operand, an access to another package that has had no acknowledgement for 1 ms. -/
def execRemoteTimeout (s : State) : Host.Outcome State Fault Refusal :=
  match s.remote (s.argN 0) with
  | none => .next s
  | some r =>
    if r.performed || r.failed.isSome then .next s
    else match r.kind with
      | .load out locs =>
        match locs.find? fun b => isForeign (s.real b) with
        | some b => .next ((s.readLost r.sid out b).remoteDone r.id)
        | none => .next s
      | .store loc _ _ _ => if isForeign (s.real loc) then .next ((s.lostAccess r.sid loc).remoteDone r.id) else .next s
      | .move src dst _ _ parts =>
        match parts.find? fun p => isForeign (s.real p.loc) with
        | some p => .next (s.failRemote r.id (6, (if p.write then dst else src).toNat + p.off))
        | none => .next s
      | .rmw va out loc _ _ _ _ amo =>
        if !isForeign (s.real loc) then .next s
        else if amo then .next ((s.readLost r.sid out loc).remoteDone r.id)
        else .next ((s.answerG r.sid out 0 Flags.none).failRemote r.id (6, va))
      | .mig _ _ _ => .next s

/-! ## Page migration (16 R325, R326, R331) -/

/-- The lowest slot of a bucket that holds a valid entry of a page. -/
def State.bucketSlot (s : State) (bucket page : Nat) : Nat → Nat → Option Nat
  | _, 0 => none
  | j, fuel + 1 =>
    let e := s.quad (bucket + 16 * j)
    if e.getLsbD 64 ∧ (e.extractLsb' 16 40).toNat * 2 ^ 16 = page then some (bucket + 16 * j)
    else s.bucketSlot bucket page (j + 1) fuel

/-- The bucket of a key of a table, and the one after it (08 R156). -/
def tableBuckets (csr : Word) (key : Nat) : List Nat :=
  let n := csr.toNat % 64
  if n < 4 ∨ 30 < n then [] else
  let base := csr.toNat / 4096 % 2 ^ 40 * 4096
  let b := mapHash key n
  [base + 128 * b, base + 128 * ((b + 1) % 2 ^ n)]

/-- The location of the entry of a page in a table. -/
def State.tableSlot (s : State) (csr : Word) (key page : Nat) : Option Nat :=
  (tableBuckets csr key).findSome? fun b => s.bucketSlot b page 0 8

/-- The check of a migration request (16 R331): the old frame, or the status. -/
def State.migrationCheck (s : State) (cid : Nat) (m : Migration) : Except Nat Nat :=
  match s.lookup cid m.va with
  | none => if (s.tableFind (s.core cid).mapt32 (m.va / 2 ^ 25) (m.va / 2 ^ 25 * 2 ^ 25)).isSome then .error 0x82 else .error 0x81
  | some e =>
    if e.big then .error 0x82
    else if e.st then .error 0x83
    else if s.localPhys m.frame ≠ .here m.frame ∨ s.localPhys (m.frame + 65535) ≠ .here (m.frame + 65535) then .error 0x84
    else if s.migrations.any fun x => x.step != 0 && x.va == m.va then .error 0x85
    else .ok e.frame

/-- A location of a page whose storage moves from one frame to another. -/
def movedLoc (old new loc : Nat) : Nat := if old ≤ loc ∧ loc < old + 65536 then new + (loc - old) else loc

/-- The line of such a location. -/
def movedLine (old new l : Nat) : Nat := lineOf (movedLoc old new (128 * l))

/-- A load that still reads, served against the new frame. -/
def LoadReq.move (f : Nat → Nat) (l : LoadReq) : LoadReq :=
  { l with
    elems := l.elems.map fun e => { e with bytes := e.bytes.map f }
    need := l.need.map fun n => { n with locs := n.locs.map f }
    got := l.got.map fun x => (f x.1, x.2)
    own := l.own.map fun x => (f x.1, x.2) }

/-- A held store, served against the new frame. -/
def Piece.move (f : Nat → Nat) (p : Piece) : Piece :=
  match p.xl with
  | .ok loc => { p with xl := .ok (f loc) }
  | _ => p

/-- A strand whose accesses are served against the new frame (16 R325 step 5). -/
def Strand.move (f line : Nat → Nat) (t : Strand) : Strand :=
  { t with
    out := t.out.map fun o => match o.src with
      | .load l => { o with src := .load (l.move f) }
      | _ => o
    chunks := t.chunks.map fun c => { c with held := c.held.map (Piece.move f), reads := c.reads.map line } }

/-- A remote access, served against the new frame. -/
def RKind.redirect (f : Nat → Nat) : RKind → RKind
  | .load out locs => .load out (locs.map f)
  | .store loc data bits tag => .store (f loc) data bits tag
  | .move src dst n data parts => .move src dst n data (parts.map fun p => { p with loc := f p.loc })
  | .rmw va out loc op wide x e amo => .rmw va out (f loc) op wide x e amo
  | .mig va frame status => .mig va frame status

/-- A message, served against the new frame. -/
def MsgKind.redirect (f : Nat → Nat) : MsgKind → MsgKind
  | .amo sid out loc op wide x e => .amo sid out (f loc) op wide x e
  | k => k

/-- Every access that has been translated to a page is served against its new frame (16 R326). -/
def State.redirect (s : State) (old new : Nat) : State :=
  let f := movedLoc old new
  { s with
    strands := s.strands.map fun t => (t.1, t.2.move f (movedLine old new))
    remotes := s.remotes.map fun r => { r with kind := r.kind.redirect f }
    msgs := s.msgs.map fun m => { m with kind := m.kind.redirect f }
    cores := s.cores.map fun c => (c.1, { c.2 with mq := c.2.mq.map fun e => { e with locs := e.locs.map f } }) }

/-- The lines of a page copied with their tags: each sector is written at its home, and its readers there are squashed (17 R334). -/
def State.copyPage (s : State) (old new : Nat) : State :=
  s.placeSectors none ((List.range 4096).map fun k => (new + 16 * k, s.sectorAt (old + 16 * k)))

/-- The frame of a page written in every copy of the table. -/
def State.writeFrame (s : State) (va frame : Nat) : State :=
  let s := s.onBindery fun b =>
    { b with pages := b.pages.map fun e => if !e.big && e.page == va then { e with frame := frame } else e }
  forAll s.bindery.t64 (fun s t =>
    match s.tableSlot t (va / 2 ^ 16) va with
    | none => s
    | some loc =>
      let e := s.quad loc
      s.store loc (bytesOfNat 16
        ((e.extractLsb' 116 12 ++ BitVec.ofNat 36 (frame / 2 ^ 16) ++ e.extractLsb' 0 80 : BitVec 128)).toNat)) s

/-- A migration of a number, changed. -/
def State.onMigration (s : State) (rid : Nat) (f : Migration → Migration) : State :=
  { s with migrations := s.migrations.map fun m => if m.rid = rid then f m else m }

/-- The end of a migration: its status word is written, and the access has been performed (16 R331). -/
def State.endMigration (s : State) (r : Remote) (m : Migration) (status : Nat) : State :=
  let gone (s : State) : State := { s with migrations := s.migrations.filter (·.rid != m.rid) }
  match s.sideLoc r.cid (s.sclbase r.sid) m.status true with
  | .error c => (gone s).failRemote r.id (c, m.status)
  | .ok (loc, _) =>
    if !s.reachable (dieOf r.sid) loc then (gone s).failRemote r.id (6, m.status)
    else if (s.sectorsHeld none [loc]).isSome then s
    else ((gone s).remoteDone r.id).placeStore loc (bytesOfNat 8 status) none

/-- MIGRATION (16 R325, R326): operands, the access, and 1 if an uncorrectable error is read in step 3. The Rebinder checks the
request and freezes the page; then recalls its lines, copies them, writes the mapping and acts as map.inv; then, when the
chunks that were open are gone, writes the status. What waits while the page is frozen is served by one turn that moves it
(DESIGN CHOICE, assumption 26). -/
def execMigration (s : State) : Host.Outcome State Fault Refusal :=
  let rid := s.argN 0
  match s.migrations.find? (·.rid == rid), s.remote rid with
  | some m, some r =>
    if (s.die m.reb).fenced then
      .next ({ s with migrations := s.migrations.filter (·.rid != rid) }.failRemote rid (6, m.va))
    else if m.step = 0 then
      let first := (s.migrations.find? fun x => x.reb == m.reb && x.step == 0).map (·.rid)
      let running := (s.migrations.filter fun x => x.reb == m.reb && x.step != 0).length
      if first ≠ some rid ∨ 8 ≤ running then .next s
      else match s.migrationCheck r.cid m with
        | .error c => .next (s.endMigration r m c)
        | .ok old => .next (s.onMigration rid fun m => { m with step := 1, old := old })
    else if m.step = 1 then
      if s.pageLost r m.old || s.pageLost r m.frame then
        .next ({ s with migrations := s.migrations.filter (·.rid != rid) }.failRemote rid (6, m.va))
      else if s.argN 1 = 1 then .next (s.endMigration r m 0x86)
      else if (s.sectorsHeld none ((List.range 512).map fun k => m.frame + 128 * k)).isSome then .next s
      else
        let s := ((s.copyPage m.old m.frame).writeFrame m.va m.frame).invalidatePage m.va false
        .next ((s.redirect m.old m.frame).onMigration rid fun m => { m with step := 2, open_ := s.openChunks none })
    else if m.open_.any s.stillOpen then .next s
    else .next (s.endMigration r m 1)
  | _, _ => .next s

/-! ## The loss of a die or a port (16 R327) -/

/-- Six words of a log record that the spec does not state (21 R401, DESIGN CHOICE, assumption 5), as bytes. -/
def State.freeBytes (s : State) (k n : Nat) : List Byte := (List.range n).flatMap fun j => bytesOfNat 8 (s.free (k + j)).toNat

/-- A record of Colophon's log (21 R401): the clock pair, then its source, code and data. The ring holds 1 MB. -/
def State.logged (s : State) : State :=
  let d := s.die 8
  let rec_ := bytesOfNat 8 d.earliest ++ bytesOfNat 8 d.latest ++ s.freeBytes 20 6
  let l := s.colophon.log ++ [rec_]
  { s with colophon := { s.colophon with log := l.drop (l.length - 16384), logged := s.colophon.logged + 1 } }

/-- The package without power (21 R404): what Colophon logged and counted, and what has been sent, stay
(DESIGN CHOICE, assumption 58). -/
def State.powerOff (s : State) : State :=
  { State.reset with
    colophon := s.colophon, bindery := { Bindery.reset with sent := s.bindery.sent, admins := s.bindery.admins },
    serial := s.serial, cur := s.cur, arg := s.arg, turns := s.turns, ticks := s.ticks, now := s.now }

/-- The versions that a fenced die has stored are discarded (19 R361). -/
def State.discardVersions (s : State) (die : Nat) : State :=
  let keep (v : Version) : Bool := v.package != s.bindery.package || v.die != die
  { s with
    dies := s.dies.map fun d => (d.1, { d.2 with versions := d.2.versions.filter keep })
    msgs := s.msgs.filter fun m => match m.kind with
      | .version v => keep v
      | _ => true }

/-- The engine stands at an element of a command that cannot be reached. -/
def State.copyLost (s : State) (c : CopyCmd) : Bool :=
  let lost (n : Nat) (at_ : List Nat → Nat) : Bool :=
    decide (n < c.total) && !s.reachable (dieOfCore c.cid) (s.copyLoc c.cid (at_ (indices c.counts n)))
  lost c.reads c.srcAt || lost c.at_ c.dstAt

/-- A gang is touched by the loss of a die: it has a core on it, or an access or a copy that cannot reach its target. -/
def State.touched (s : State) (die gang : Nat) : Bool :=
  (match s.launch gang with
    | some l => l.cores.any fun c => dieOfCore c == die
    | none => false) ||
    (s.remotes.any fun r => r.gang == gang && !r.performed && (s.remoteLines r).any fun l => !s.reachable (dieOf r.sid) (128 * l)) ||
    s.quires.any fun q => q.2.cmds.any fun c => c.gang == gang && s.copyLost c

/-- DIE_FENCE (16 R327, 01 R24): operand, the die. -/
def execDieFence (s : State) : Host.Outcome State Fault Refusal :=
  let d := s.argN 0
  if 10 ≤ d ∨ (s.die d).fenced then .next s
  else if d = 8 then .next s.logged.powerOff
  else
    let s := (s.logged.onDie d fun x => { x with fenced := true, items := [], versions := [] }).discardVersions d
    let s := if d < 8 then s.onBindery fun b => { b with noLaunch := true } else s
    let s := forAll ((s.strands.map (·.1)).filter fun sid => dieOf sid == d) State.killFiring s
    let gangs := ((s.bindery.launches.filter fun l => !l.lost && s.touched d l.gang).map (·.gang))
    .next (forAll gangs (fun s g => s.gangLoss g (s.dieLost g d) []) s)

/-- PORT_LOSS (16 R327): operand, the port, those of F0 first (DEDUCED, assumption 57). -/
def execPortLoss (s : State) : Host.Outcome State Fault Refusal :=
  let p := s.argN 0
  if 8 ≤ p then .next s else .next { s.logged with ports := mapSet (8 + p) 1 s.ports }

end Sys2Proof.Machine
end

