-- ==== Sys2Proof/Machine/Try.lean ====
section
/-! DEFINITION. Try-each, major 0x2A (20 R376 to R387): choice points, the undo of the trail, and theft. -/

namespace Sys2Proof.Machine

open Sys2Proof

/-! ## Alternatives and search areas (20 R377, R378) -/

/-- The target of alternative `i` of a table (20 R377): its entry is read as a load, and the target must allow X
(DEDUCED, assumption 60). -/
def State.alternative (s : State) (c : Reg) (i : Nat) : Except Stop Word :=
  let x : Access := { lane := 0, va := (c.low + BitVec.ofNat 64 (4 * i)).toNat, n := 4 }
  match s.checkAccess s.cur c x (loadDemand true) with
  | some e => .error e
  | none =>
    let l := (s.elemsOf s.cur x).1
    match (l.flatMap Elem.locs).findSome? (s.padWriter (some s.cur)) with
    | some w => .error (.wait (.chunk w))
    | none =>
      let t := c.low + 4 * (BitVec.ofNat 32 (joinElems s.byteAt l).1).signExtend 64
      match checkCap s.me.smode c t.toNat 4 [permX] 0 with
      | some cause => .error (.trap cause t)
      | none => .ok t

/-- CheckArea of 20 R378: the raw offset at which the area begins in the own scratchpad, or the cause. -/
def State.checkArea (s : State) (c : Reg) : Except Cause Nat :=
  let len := c.length
  if c.tag = false then .error .captag
  else if c.otype ≠ 0 then .error .capseal
  else if [permLD, permST, permTRY].any (fun k => !c.perm k) then .error .capperm
  else if c.base % 8 ≠ 0 ∨ c.top % 8 ≠ 0 ∨ len = 0 then .error .capbnd
  else match s.place (coreOf s.cur) c.base.toNat with
    | .pad cid 0 off =>
      if cid ≠ s.owner (coreOf s.cur) ∨ s.padSize cid < off + len then .error .capbnd
      else if (List.range (len / 8)).any fun k => s.protectedRaw cid (off + 8 * k) then .error .capbnd
      else .ok off
    | _ => .error .capbnd

/-! ## Choice points (20 R376) -/

/-- A choice point. -/
structure ChoicePoint where
  table : Reg
  next : Nat
  count : Nat
  mark : Nat
  area : Reg
  regs : List Reg
  deriving DecidableEq, Repr

/-- The choice point at a location; the tags field decides every saved tag. -/
def State.choicePoint (s : State) (loc : Nat) : ChoicePoint :=
  { table := s.cpCap loc 0 0, next := readNat s.mem (loc + 0x10) 4, count := readNat s.mem (loc + 0x14) 4,
    mark := readNat s.mem (loc + 0x18) 4, area := s.cpCap loc 0x20 30,
    regs := (List.range 29).map fun k => s.cpCap loc (0x30 + 16 * k) (k + 1) }

/-- The tags field of a choice point. -/
def ChoicePoint.tags (p : ChoicePoint) : Nat :=
  (if p.table.tag then 1 else 0) + (if p.area.tag then 2 ^ 30 else 0) +
    (p.regs.zipIdx.map fun x => if x.1.tag then 2 ^ (x.2 + 1) else 0).sum

/-- The sectors of a choice point. -/
def ChoicePoint.sectors (p : ChoicePoint) : List Reg :=
  p.table :: { bits := BitVec.ofNat 128 (p.next + p.count * 2 ^ 32 + p.mark * 2 ^ 64 + p.tags * 2 ^ 96), tag := false } ::
    p.area :: p.regs

/-- The sectors of a choice point with their locations. -/
def ChoicePoint.at (p : ChoicePoint) (loc : Nat) : List (Nat × Reg) := p.sectors.zipIdx.map fun x => (loc + 16 * x.2, x.1)

/-- g1 to g29 of a strand. -/
def Arch.saved (a : Arch) : List Reg := (List.range 29).map fun k => a.readG (BitVec.ofNat 6 (k + 1))

/-- g1 to g29 restored. -/
def Arch.restored (a : Arch) (l : List Reg) : Arch := l.zipIdx.foldl (fun a x => a.writeG (BitVec.ofNat 6 (x.2 + 1)) x.1) a

/-- The start of an alternative: PCC is the table capability with its cursor at the target. -/
def Arch.starts (a : Arch) (table : Reg) (t : Word) : Arch := { a with pcc := table.withCursor t }

/-- try (20 R382). -/
def execTryEach (x y zr : BitVec 6) (s : State) : Host.Outcome State Fault Refusal :=
  terminate false false [.g x, .g y, .g zr] s fun s =>
    let a := s.me.readG x
    let n := (s.me.word y).toNat
    let c := s.me.readG zr
    let d := s.me.cpdepth.toNat
    if (s.strand s.cur).busy then .hold (s.waiting .park)
    else if n = 0 ∨ 65535 < n then .trap s .ill (s.me.word y)
    else match checkCap s.me.smode a a.cursor (4 * n) [permLD, permX] 4 with
      | some cause => .trap s cause a.low
      | none =>
        match s.checkArea c with
        | .error cause => .trap s cause c.low
        | .ok _ =>
          let newest := (s.choicePoint (s.cpLoc s.cur (d - 1))).area
          if 0 < d ∧ (c.base, c.top) ≠ (newest.base, newest.top) then .trap s .capperm c.low
          else match s.alternative a 0 with
            | .error e => e.act s
            | .ok t =>
              if n = 1 then .jump (s.onArch s.cur fun r => r.starts a t)
              else if d = s.me.cpSlots then .trap s .trailfull (BitVec.ofNat 64 (2 ^ 63 + d))
              else
                let p : ChoicePoint := { table := a, next := 1, count := n, mark := s.me.trTop, area := c, regs := s.me.saved }
                let l := p.at (s.cpLoc s.cur d)
                match s.sectorsHeld (some s.cur) (l.map (·.1)) with
                | some w => .hold (s.waiting w)
                | none =>
                  .jump ((s.placeSectors (some s.cur) l).onArch s.cur fun r =>
                    { r.starts a t with cpdepth := BitVec.ofNat 64 (d + 1) })

/-! ## The trail (20 R380) -/

/-- A trail entry: the raw offset of the word, what it held, and the tag of its sector. -/
structure TrailEntry where
  raw : Nat
  old : Word
  tag : Bool
  deriving DecidableEq, Repr

/-- Trail entry `i` of a strand whose registers are `a`. -/
def State.trailEntry (s : State) (cid : Nat) (a : Arch) (i : Nat) : TrailEntry :=
  let loc := padLoc cid (a.trBase + 16 * i)
  let v := readNat s.mem loc 8
  { raw := v / 8 % 2 ^ 16 * 8, old := BitVec.ofNat 64 (readNat s.mem (loc + 8) 8), tag := v % 2 == 1 }

/-- The entries of a trail from the newest down to a mark. -/
def State.trailDown (s : State) (cid : Nat) (a : Arch) (mark : Nat) : List TrailEntry :=
  ((List.range (a.trTop - mark)).map fun k => s.trailEntry cid a (mark + k)).reverse

/-- A word of a scratchpad written with the tag of its sector. -/
def State.putWord (s : State) (loc : Nat) (v : Word) (tag : Bool) : State :=
  let sh := loc % 16 * 8
  s.writeSector (loc / 16 * 16) (v.setWidth 128 <<< sh) (bitsFor 8 <<< sh) tag

/-- Locations written as one place: the readers of the die are squashed, but for a strand (17 R337). -/
def State.tookPlace (s : State) (self : Option Nat) (l : List Nat) : State :=
  s.squashReaders (dieOf s.cur) (l.map lineOf).eraseDups self

/-- fail (20 R383). -/
def execFail (s : State) : Host.Outcome State Fault Refusal :=
  terminate false true [] s fun s =>
    let a := s.me
    let d := a.cpdepth.toNat
    if d = 0 then .trap s .tryempty 0
    else
      let cid := s.owner (coreOf s.cur)
      let loc := s.cpLoc s.cur (d - 1)
      let p := s.choicePoint loc
      match s.alternative p.table p.next with
      | .error e => e.act s
      | .ok t =>
        let es := s.trailDown cid a p.mark
        let places := (loc + 0x10) :: es.map fun e => padLoc cid e.raw
        match s.sectorsHeld (some s.cur) places with
        | some w => .hold (s.waiting w)
        | none =>
          let last := decide (p.next + 1 = p.count)
          let d' := if last then d - 1 else d
          let s := forAll es (fun s e => s.putWord (padLoc cid e.raw) e.old e.tag) s
          let s := if last then s else s.store (loc + 0x10) (bytesOfNat 4 (p.next + 1))
          let top := if d' = 0 then 0 else min a.trTop p.mark
          .jump ((s.tookPlace (some s.cur) places).onArch s.cur fun r =>
            { ((r.restored p.regs).setTop top).starts p.table t with cpdepth := BitVec.ofNat 64 d' })

/-- The depth after cut or cutto: at depth 0 the trail is empty (20 R384). -/
def Arch.cutTo (a : Arch) (d : Nat) : Arch :=
  let a := { a with cpdepth := BitVec.ofNat 64 d }
  if d = 0 then a.setTop 0 else a

/-- cut (20 R384). -/
def execCut (s : State) : Host.Outcome State Fault Refusal :=
  terminate false false [] s fun s => .done (s.onArch s.cur fun a => a.cutTo (a.cpdepth.toNat - 1))

/-- cutto (20 R384). -/
def execCutto (x : BitVec 6) (s : State) : Host.Outcome State Fault Refusal :=
  terminate false false [.g x] s fun s =>
    .done (s.onArch s.cur fun a => a.cutTo (min a.cpdepth.toNat (a.word x).toNat))

/-- cpmark (20 R384). -/
def execCpmark (x : BitVec 6) (s : State) : Host.Outcome State Fault Refusal :=
  issue false [.g x] s fun s => .done (s.setPending [.g x] (.ready [.g x (.data s.me.cpdepth)] Flags.none))

/-! ## Theft (20 R385) -/

/-- The registers of a strand as of its last commit. -/
def Strand.committed (t : Strand) : Arch :=
  match t.chunks.head? with
  | some c => c.ckpt
  | none => t.arch

/-- An uncommitted chunk of the victim that has written a sector of a list is squashed (17 R339). -/
def State.undoVictim (s : State) (v : Nat) (secs : List Nat) : State :=
  match (s.strand v).chunks.findIdx? fun c => c.undo.any fun u => secs.contains u.loc with
  | some k => s.squash v k true false
  | none => s

/-- The sector of byte `k` of an area is copied whole: it lies in the area, and begins a sector of the copy too. -/
def copiedWhole (from_ to_ len k : Nat) : Bool :=
  from_ % 16 == to_ % 16 && decide (from_ ≤ (from_ + k) / 16 * 16) && decide ((from_ + k) / 16 * 16 + 16 ≤ from_ + len)

/-- The area of the victim copied to the thief's, with the entries of the victim's trail applied to the copy (20 R385). A tag becomes 1
only where a whole sector is copied (04 R71). -/
def State.copyArea (s : State) (cid from_ to_ len : Nat) (es : List TrailEntry) : State :=
  let words := (List.range (len / 8)).map fun k =>
    let loc := padLoc cid (from_ + 8 * k)
    (8 * k, BitVec.ofNat 64 (readNat s.mem loc 8), tagAt s.tags (loc / 16) && copiedWhole from_ to_ len (8 * k))
  let undone := (es.filter fun e => decide (from_ ≤ e.raw) && decide (e.raw < from_ + len)).map fun e =>
    (e.raw - from_, e.old, e.tag && copiedWhole from_ to_ len (e.raw - from_))
  forAll (words ++ undone) (fun s w => s.putWord (padLoc cid (to_ + w.1)) w.2.1 w.2.2) s

/-- tsteal once the victim has something to take: `off` is where the own area begins. -/
def State.stealChoice (s : State) (v off : Nat) (c : Reg) : Act :=
  let cid := s.owner (coreOf s.cur)
  let av := (s.strand v).committed
  let loc := padLoc cid av.cpBase
  let p := s.choicePoint loc
  let u := p.count - p.next
  if u < 2 then .done s
  else if c.length ≠ p.area.length then .trap s .capbnd c.low
  else
    let j := p.count - (u + 1) / 2
    match s.alternative p.table j with
    | .error e => e.act s
    | .ok t =>
      let len := c.length
      let src := p.area.rawBase
      let sectors (lo n : Nat) : List Nat := (List.range ((lo + n + 15) / 16 - lo / 16)).map fun k => padLoc cid ((lo / 16 + k) * 16)
      let read := loc :: sectors src len ++ sectors (av.trBase + 16 * p.mark) (16 * (av.trTop - p.mark))
      let own := s.cpLoc s.cur 0
      let q : ChoicePoint := { table := p.table, next := j + 1, count := p.count, mark := 0, area := c, regs := p.regs }
      let writes := (q.at own).map (·.1) ++ [loc + 0x10] ++ (List.range (len / 8)).map fun k => padLoc cid (off + 8 * k)
      match (s.undoVictim v read).sectorsHeld (some s.cur) (writes ++ read) with
      | some w => .hold (s.waiting w)
      | none =>
        let s := s.undoVictim v read
        let s := s.copyArea cid src off len (s.trailDown cid av p.mark)
        let s := s.placeSectors (some s.cur) (q.at own)
        let s := (s.store (loc + 0x14) (bytesOfNat 4 j)).tookPlace (some s.cur) writes
        .jump (s.onArch s.cur fun r =>
          { ((r.restored p.regs).setTop 0).starts p.table t with cpdepth := if j + 1 < p.count then 1 else 0 })

/-- tsteal (20 R385). -/
def execTsteal (x y : BitVec 6) (s : State) : Host.Outcome State Fault Refusal :=
  terminate false true [] s fun s =>
    let c := s.me.readG y
    if s.me.cpdepth ≠ 0 then .trap s .ill s.me.cpdepth
    else match s.checkArea c with
      | .error cause => .trap s cause c.low
      | .ok off =>
        if s.me.cpSlots = 0 then .trap s .trailfull (BitVec.ofNat 64 (2 ^ 63))
        else if (s.pinned (dieOf s.cur)).any (· != s.cur) then .hold (s.waiting .instr)
        else
          let v := 4 * s.owner (coreOf s.cur) + (s.me.word x).toNat % 4
          if v = s.cur ∨ (s.strand v).firing.isNone ∨ (s.strand v).committed.cpdepth = 0 then .done s
          else s.stealChoice v off c

end Sys2Proof.Machine
end

