-- ==== Sys2Proof/Machine/Bindery.lean ====
section
/-! DEFINITION. The Bindery's replies and authority (21 R390 to R392), the MAP operations and its tables (08 R154, R155, R165),
LOAD (02 R38, R39, 21 R394), QUERY (R393), and Colophon's management, power and cooling (R401 to R404). -/

namespace Sys2Proof.Machine

open Sys2Proof

/-! ## Replies and authority -/

/-- Something leaves the package. -/
def State.out (s : State) (x : Sent) : State := s.onBindery fun b => { b with sent := b.sent ++ [x] }

/-- A record about the package or a gang as a whole, for some addresses, with the clock pair of a die (21 R393). -/
def State.notice (s : State) (dests : List Nat) (code gang die : Nat) (detail : BitVec 128) : State :=
  s.out (.event dests code gang 0 0 0 0 0 (s.die die).earliest (s.die die).latest detail)

/-- The 32-byte header of a message (21 R391). -/
def headerBytes (type length id status offset : Nat) : List Byte :=
  bytesOfNat 2 1 ++ bytesOfNat 2 type ++ bytesOfNat 4 length ++ bytesOfNat 8 id ++ bytesOfNat 2 status ++ bytesOfNat 2 0 ++
    bytesOfNat 4 offset ++ bytesOfNat 8 0

/-- The payload of a reply or an EVENTS record (21 R391, R393); what the bodies of the other messages hold the spec does not state. -/
def Sent.payload : Sent → Option (List Byte)
  | .reply _ id status offset body => some (headerBytes 0x81 body.length id status offset ++ body)
  | .event _ code gang group cause strand tpc tval earliest latest detail =>
    some (headerBytes 0x82 64 0 0 0 ++ bytesOfNat 2 code ++ bytesOfNat 2 gang ++ bytesOfNat 1 group ++ bytesOfNat 1 cause ++
      bytesOfNat 2 0 ++ bytesOfNat 8 strand.toNat ++ bytesOfNat 8 tpc.toNat ++ bytesOfNat 8 tval.toNat ++ bytesOfNat 8 earliest ++
      bytesOfNat 8 latest ++ bytesOfNat 16 detail.toNat)
  | .peer _ _ _ _ | .board _ => none

/-! ## Requests (21 R389, R391)

A request is an event with the operands sender and delivery (0 unordered, 1 ordered, 2 a message that uses tag matching); its bytes
are the payload of the message. -/

/-- A field of the header of the message at hand. -/
def State.header (s : State) (off n : Nat) : Nat := fieldAt s.arg.bytes off n

/-- The id that the sender of the message chose. -/
def State.reqId (s : State) : Nat := s.header 8 8

/-- The body of the message. -/
def State.body (s : State) : List Byte := (s.arg.bytes.drop 32).take (s.header 4 4)

/-- The message is dropped unanswered: no request is accepted yet, it uses tag matching, its version is not 1, its type is unassigned,
or its length exceeds its payload or 2^30 (21 R389, R391). -/
def State.dropped (s : State) : Bool :=
  !s.bindery.accepting || s.argN 1 == 2 || s.header 0 2 != 1 ||
    !([1, 2, 3, 4, 5, 0x10, 0x11, 0x12, 0x13, 0x81, 0x82].contains (s.header 2 2)) ||
    decide (s.arg.bytes.length < 32 + s.header 4 4) || decide (2 ^ 30 < s.header 4 4)

/-- A MAP of the sender that came before, on ordered delivery as this one, is not replied to yet (21 R389). -/
def State.behindMap (s : State) : Bool :=
  s.argN 1 == 1 && s.bindery.mapWaits.any fun w =>
    w.sender == s.argN 0 && w.ordered && !(s.header 2 2 == 2 && w.id == s.reqId)

/-- A request of a type that the Bindery serves now. -/
def State.serves (s : State) (type : Nat) : Bool := !s.dropped && s.header 2 2 == type && !s.behindMap

/-- A reply with a status, an offset and a body (21 R390, R391). -/
def State.reply (s : State) (sender id status off : Nat) (body : List Byte) : State :=
  s.out (.reply sender id status off body)

/-- A sender is on the list of a domain (21 R392). -/
def State.hasAuthority (s : State) (sender d : Nat) : Bool :=
  match s.domain d with
  | some x => x.senders.contains sender
  | none => false

/-- A sender is an administrator (21 R392). -/
def State.isAdmin (s : State) (sender : Nat) : Bool := s.bindery.admins.contains sender

/-- The number of a registered peer whose Bindery has an address. -/
def State.peerOf (s : State) (address : Nat) : Option Nat :=
  (s.bindery.peers.find? fun p => p.2 == address).map Prod.fst

/-! ## Memory that the Bindery uses (DESIGN CHOICE, assumption 7) -/

/-- Two ranges of addresses meet. -/
def meet (x y : Nat × Nat) : Bool := decide (x.1 < y.2) && decide (y.1 < x.2)

/-- The bytes of a mapping table that a CSR names (08 R155). -/
def tableRange (csr : Word) : Nat × Nat :=
  let base := csr.toNat / 4096 % 2 ^ 40 * 4096
  (base, base + 128 * 2 ^ (csr.toNat % 64))

/-- The bytes of a page. -/
def pageSize (big : Bool) : Nat := if big then 2 ^ 25 else 2 ^ 16

/-- The frame of a page. -/
def PageEntry.frames (e : PageEntry) : Nat × Nat := (e.frame, e.frame + pageSize e.big)

/-- The page of an entry. -/
def PageEntry.addrs (e : PageEntry) : Nat × Nat := (e.page, e.page + pageSize e.big)

/-- The bytes between the first and the last slot of a die queue. -/
def DieQueue.range (q : DieQueue) : Nat × Nat := (q.array, q.array + 2 ^ q.log * 256)

/-- The ranges of physical memory that the Bindery uses, without the die queues. -/
def State.used (s : State) : List (Nat × Nat) :=
  let b := s.bindery
  (b.drt, b.drt + 4096) :: b.t64.map tableRange ++ b.t32.map tableRange ++ b.domains.map (fun d => (d.2.array, d.2.array + 65536)) ++
    b.pages.map PageEntry.frames ++ b.launches.flatMap fun l => l.saved.map fun x => (x.image, x.image + x.core.msplit.toNat * 65536)

/-- A range of the HBM that the Bindery may choose for a frame or a table. -/
def State.unused (s : State) (r : Nat × Nat) : Bool :=
  decide (r.2 ≤ 2 ^ 40) && !s.used.any (meet r) && !(s.dies.any fun d => d.2.queues.any fun q => meet r q.range)

/-- Memory with every byte of a range zero and every tag in it clear. -/
def State.blank (s : State) (r : Nat × Nat) : State :=
  { s with
    mem := s.mem.filter fun c => !(decide (r.1 ≤ c.1) && decide (c.1 < r.2))
    tags := s.tags.filter fun t => !(decide (r.1 / 16 ≤ t) && decide (t < r.2 / 16)) }

/-! ## The domain-rights table (08 R154) -/

/-- The bits of a list of rights, from bit 72 on: E, X, W, R. -/
def Region.rights (r : Region) : Nat :=
  (if r.e then 1 else 0) + (if r.x then 2 else 0) + (if r.w then 4 else 0) + (if r.r then 8 else 0)

/-- A region as an entry of its array. -/
def Region.entry (r : Region) : Nat := r.base + r.size * 2 ^ 64 + r.rights * 2 ^ 72

/-- The addresses of a region. -/
def Region.range (r : Region) : Nat × Nat := (r.base, r.base + 2 ^ r.size)

/-- The header and the array of a domain, written. -/
def State.writeDomain (s : State) (d : Nat) (x : Domain) : State :=
  let head := bytesOfNat 8 x.array ++ bytesOfNat 2 x.regions.length ++ bytesOfNat 2 x.caps ++ bytesOfNat 2 x.otypes ++
    bytesOfNat 2 0
  let s := s.onBindery fun b => { b with domains := mapSet d x b.domains }
  (s.placeStore (s.bindery.drt + 16 * d) head none).placeStore x.array (x.regions.flatMap fun r => bytesOfNat 16 r.entry) none

/-- A region put in its place by its base, in place of one with the same base. -/
def putRegion (r : Region) : List Region → List Region
  | [] => [r]
  | x :: l => if x.base < r.base then x :: putRegion r l else if x.base = r.base then r :: l else r :: x :: l

/-! ## The mapping tables (08 R155, R156) -/

/-- An entry of a mapping table. -/
def PageEntry.entry (e : PageEntry) : Nat :=
  e.page + 2 ^ 64 + (if e.w then 2 ^ 65 else 0) + (if e.st then 2 ^ 67 else 0) + e.frame / 2 ^ 16 * 2 ^ 80

/-- The slot for an entry of a page: its own, or the first without a valid entry. -/
def State.entrySlot (s : State) (csr : Word) (key page : Nat) : Option Nat :=
  (s.tableSlot csr key page).or
    ((tableBuckets csr key).findSome? fun b =>
      ((List.range 8).map (b + 16 * ·)).find? fun loc => !(s.quad loc).getLsbD 64)

/-- The entry of a page in every copy of its table: written, or removed; none if a bucket pair is full. -/
def State.writeEntry (s : State) (e : PageEntry) (valid : Bool) : Option State :=
  let key := e.page / pageSize e.big
  let s := s.onBindery fun b =>
    let rest := b.pages.filter fun x => !(x.big == e.big && x.page == e.page)
    { b with pages := if valid then rest ++ [e] else rest }
  (if e.big then s.bindery.t32 else s.bindery.t64).foldl (fun s csr =>
    s.bind fun s =>
      match (if valid then s.entrySlot csr key e.page else s.tableSlot csr key e.page) with
      | some loc => some (s.placeStore loc (bytesOfNat 16 (if valid then e.entry else 0)) none)
      | none => if valid then none else some s) (some s)

/-- A page has an entry. -/
def State.mapped (s : State) (page : Nat) (big : Bool) : Bool :=
  s.bindery.pages.any fun e => e.big == big && e.page == page

/-- The location of an address that the tables map to memory of the package. -/
def State.mappedLoc (s : State) (a : Nat) : Option Nat :=
  let hit (big : Bool) : Option PageEntry :=
    s.bindery.pages.find? fun e => e.big == big && e.page == a / pageSize big * pageSize big
  match (hit true).or (hit false) with
  | none => none
  | some e =>
    match s.localPhys (e.frame + a % pageSize e.big) with
    | .here loc => some loc
    | _ => none

/-- A page marked stamped (19 R359): each current line is copied to its shadow, with stamp 0 in both. -/
def State.makeShadows (s : State) (frame : Nat) : State :=
  forAll (List.range 256) (fun s k =>
    let loc := frame + 128 * k
    let s := s.placeStore (loc + 112) (bytesOfNat 8 0) none
    s.placeStore (loc + 0x8000) (readBytes s.mem loc 128) none) s

/-! ## MAP (21 R392, R393)

Each operation is an event of the whole message, which carries out the next operation of its body. One that fails is the last. The
reply leaves when nothing that was open at an invalidation of the MAP is left (08 R165, R167): until then the event of the last
operation may occur again. -/

/-- An operation of a MAP. -/
structure MapOp where
  sender : Nat
  id : Nat
  ordered : Bool
  off : Nat
  op : Nat
  last : Bool
  dom : Nat
  a : Nat
  b : Nat
  c : Nat
  deriving DecidableEq, Repr

/-- The next operation of the MAP at hand (DESIGN CHOICE, assumption 34). -/
def State.mapOp (s : State) : MapOp :=
  let off := 32 * (s.bindery.mapWaits.filter fun w => w.sender == s.argN 0 && w.id == s.reqId).length
  let f := fieldAt s.body
  { sender := s.argN 0, id := s.reqId, ordered := s.argN 1 == 1, off := off, op := f off 1, last := decide (s.body.length ≤ off + 32),
    dom := f (off + 1) 1, a := f (off + 8) 8, b := f (off + 16) 8, c := f (off + 24) 8 }

/-- The reply to a MAP whose last operation has been applied, or has failed, once its invalidations are complete. -/
def State.mapReply (s : State) (o : MapOp) : State :=
  let mine (w : MapWait) : Bool := w.sender == o.sender && w.id == o.id
  match (s.bindery.mapWaits.filter mine).find? (·.last) with
  | none => s
  | some w =>
    if (s.bindery.mapWaits.filter mine).any fun x => x.open_.any s.stillOpen then s
    else
      (s.onBindery fun b => { b with mapWaits := b.mapWaits.filter fun x => !mine x }).reply o.sender o.id w.status
        (if w.status = 1 then w.off else 0) []

/-- An operation that is over: applied with what was open at its invalidation, or failed with a status. -/
def State.mapEnd (s : State) (o : MapOp) (status : Nat) (open_ : List OpenRef) : State :=
  (s.onBindery fun b =>
    { b with mapWaits := b.mapWaits ++
        [{ sender := o.sender, id := o.id, ordered := o.ordered, off := o.off, last := o.last || status != 0, status := status,
           open_ := open_ }] }).mapReply o

/-- The event of operation `op` of a MAP: nothing if the message is not served now or its next operation is another; the reply, if
the MAP has ended; else `f` gives the state and what to wait for, or the status of its failure. A number that is no operation,
and an operation cut short, is out of range. -/
def mapping (op : Nat) (s : State) (f : MapOp → Except Nat (State × List OpenRef)) : Host.Outcome State Fault Refusal :=
  let o := s.mapOp
  if !s.serves 2 then .next s
  else if s.bindery.mapWaits.any fun w => w.sender == o.sender && w.id == o.id && w.last then .next (s.mapReply o)
  else if s.body = [] then .next (s.reply o.sender o.id 0 0 [])
  else if o.op = 0 ∨ 7 < o.op ∨ s.body.length < o.off + 32 then .next (s.mapEnd o 1 [])
  else if o.op ≠ op then .next s
  else match f o with
    | .error status => .next (s.mapEnd o status [])
    | .ok (s, l) => .next (s.mapEnd o 0 l)

/-- A page that lies wholly within a region of a domain. -/
def State.inDomain (s : State) (d : Nat) (r : Nat × Nat) : Bool :=
  match s.domain d with
  | some x => x.regions.any fun y => decide (y.range.1 ≤ r.1) && decide (r.2 ≤ y.range.2)
  | none => false

/-- A page lies within a region of a domain other than `d`. -/
def State.ofOther (s : State) (d : Nat) (e : PageEntry) : Bool :=
  s.bindery.domains.any fun x => x.1 != d && x.2.regions.any fun y => meet y.range e.addrs

/-- The frame of an operation 1 is mapped at a page other than its own. -/
def State.frameTaken (s : State) (o : MapOp) : Bool :=
  let big := o.c % 2 == 1
  s.bindery.pages.any fun e => meet (o.b, o.b + pageSize big) e.frames && !(e.big == big && e.page == o.a)

/-- Why an operation on a page is refused: authority, alignment, a frame that is mapped at another page (08 R152), and the tests of a
sender that is no administrator. In operation 1 a bit of c above those named is out of range, and so is a frame mapped elsewhere;
operation 2 reads only bit 0 of c (DESIGN CHOICE, assumption 85). -/
def State.pageStop (s : State) (o : MapOp) (frame : Bool) : Option Nat :=
  let size := pageSize (o.c % 2 == 1)
  if !s.isAdmin o.sender && !s.hasAuthority o.sender o.dom then some 3
  else if o.a % size ≠ 0 ∨ 2 ^ 56 ≤ o.a then some 1
  else if frame && (o.b % size != 0 || decide (2 ^ 52 ≤ o.b) || decide (8 ≤ o.c)) then some 1
  else if s.isAdmin o.sender then (if frame && s.frameTaken o then some 1 else none)
  else if !s.inDomain o.dom (o.a, o.a + size) then some 3
  else if frame && s.bindery.pages.any fun e => meet (o.b, o.b + size) e.frames && s.ofOther o.dom e then some 3
  else if frame && s.frameTaken o then some 1
  else none

/-- MAP_PAGE (21 R393 operation 1). -/
def execMapPage (s : State) : Host.Outcome State Fault Refusal :=
  mapping 1 s fun o =>
    match s.pageStop o true with
    | some status => .error status
    | none =>
      let big := o.c % 2 == 1
      let e : PageEntry := { page := o.a, big := big, frame := o.b, w := o.c / 2 % 2 == 1, st := o.c / 4 % 2 == 1 }
      match s.writeEntry e true with
      | none => .error 2
      | some s' =>
        let s' := if e.st && !big && s.localPhys o.b == .here o.b then s'.makeShadows o.b else s'
        if s.mapped o.a big then .ok (s'.invalidatePage o.a big, s'.openChunks none) else .ok (s', [])

/-- UNMAP_PAGE (21 R393 operation 2). -/
def execUnmapPage (s : State) : Host.Outcome State Fault Refusal :=
  mapping 2 s fun o =>
    match s.pageStop o false with
    | some status => .error status
    | none =>
      let big := o.c % 2 == 1
      match s.writeEntry { page := o.a, big := big, frame := 0, w := false, st := false } false with
      | none => .error 2
      | some s' => if s.mapped o.a big then .ok (s'.invalidatePage o.a big, s'.openChunks none) else .ok (s', [])

/-- The invalidation of a region of a domain, as plb.inv (08 R165, R167). -/
def State.invalidateRegion (s : State) (d : Nat) (r : Region) : State :=
  let keep (l : List PlbEntry) : List PlbEntry := l.filter fun p => !(p.domain == d && meet (p.base, p.base + 2 ^ p.size) r.range)
  s.invalidate (fun c => { c with plb := keep c.plb }) fun g => { g with plb := keep g.plb }

/-- A region overlaps one of a domain other than `d` (21 R392) (DEDUCED, assumption 73). -/
def State.regionOfOther (s : State) (d : Nat) (r : Region) : Bool :=
  s.bindery.domains.any fun x => x.1 != d && x.2.regions.any fun y => meet y.range r.range

/-- SET_REGION (21 R393 operation 3). -/
def execSetRegion (s : State) : Host.Outcome State Fault Refusal :=
  mapping 3 s fun o =>
    let size := o.b % 64
    let right (k : Nat) : Bool := o.b / 2 ^ k % 2 == 1
    let r : Region := { base := o.a, size := size, r := right 8, w := right 9, x := right 10, e := right 11 }
    if !s.isAdmin o.sender && !s.hasAuthority o.sender o.dom then .error 3
    else if size < 20 ∨ 56 < size ∨ o.a % 2 ^ size ≠ 0 ∨ 2 ^ 56 ≤ o.a then .error 1
    else match s.domain o.dom with
      | none => .error 1
      | some d =>
        let old := d.regions.find? fun x => x.base == o.a
        if !s.isAdmin o.sender && s.regionOfOther o.dom r then .error 3
        else if d.regions.any fun x => x.base != o.a && meet x.range r.range then .error 1
        else if old = none ∧ 4096 ≤ d.regions.length then .error 2
        else
          let s := s.writeDomain o.dom { d with regions := putRegion r d.regions }
          match old with
          | some x => .ok (s.invalidateRegion o.dom x, s.openChunks none)
          | none => .ok (s, [])

/-- REMOVE_REGION (21 R393 operation 4). -/
def execRemoveRegion (s : State) : Host.Outcome State Fault Refusal :=
  mapping 4 s fun o =>
    if !s.isAdmin o.sender && !s.hasAuthority o.sender o.dom then .error 3
    else match s.domain o.dom with
      | none => .error 1
      | some d =>
        match d.regions.find? fun x => x.base == o.a with
        | none => .error 1
        | some r =>
          if !s.isAdmin o.sender && s.regionOfOther o.dom r then .error 3
          else
            let s := s.writeDomain o.dom { d with regions := d.regions.filter fun x => x.base != o.a }
            .ok (s.invalidateRegion o.dom r, s.openChunks none)

/-- SET_DOMAIN (21 R393 operation 5): operand 2 is the place of a new domain's region array. The SYS bit and object type 0
are never set (08 R154). -/
def execSetDomain (s : State) : Host.Outcome State Fault Refusal :=
  let array := s.argN 2
  let fits := array % 16 == 0 && s.unused (array, array + 65536)
  if (s.domain s.mapOp.dom).isNone && !fits && s.isAdmin (s.argN 0) then .next s
  else mapping 5 s fun o =>
    if !s.isAdmin o.sender then .error 3
    else if o.dom = 0 then .error 1
    else
      let d := (s.domain o.dom).getD { caps := 0, otypes := 0, array := array, regions := [], senders := [] }
      let caps := (BitVec.ofNat 12 o.a &&& ~~~(permMask [permSYS])).toNat
      .ok (s.writeDomain o.dom { d with caps := caps, otypes := o.a / 2 ^ 32 % 2 ^ 16 / 2 * 2 }, [])

/-- SET_SENDER (21 R393 operation 6): at most 16 senders (R392) (DESIGN CHOICE, assumption 31). -/
def execSetSender (s : State) : Host.Outcome State Fault Refusal :=
  mapping 6 s fun o =>
    if !s.isAdmin o.sender then .error 3
    else match s.domain o.dom with
      | none => .error 1
      | some d =>
        let put (l : List Nat) : State :=
          s.onBindery fun b => { b with domains := mapSet o.dom { d with senders := l } b.domains }
        if o.b % 2 = 0 then .ok (put (d.senders.filter (· != o.a)), [])
        else if d.senders.contains o.a then .ok (s, [])
        else if 16 ≤ d.senders.length then .error 2
        else .ok (put (d.senders ++ [o.a]), [])

/-- REGISTER_PEER (21 R390, R393 operation 7). -/
def execRegisterPeer (s : State) : Host.Outcome State Fault Refusal :=
  mapping 7 s fun o =>
    if !s.isAdmin o.sender then .error 3
    else
      let n := o.a % 64
      .ok (s.onBindery fun b => { b with peers := b.peers.filter (fun p => p.1 != n) ++ [(n, o.b)] }, [])

/-! ## LOAD (02 R38, R39, 21 R393, R394) -/

/-- A number rounded up to a multiple of 16. -/
def up16 (n : Nat) : Nat := (n + 15) / 16 * 16

/-- A Lemeb object in the body of a LOAD (21 R394): where it and its parts begin, and their lengths. -/
structure Lemeb where
  textva : Nat
  datava : Nat
  text : List Byte
  data : List Byte
  scratch : List Byte
  capAt : Nat
  ncap : Nat
  codAt : Nat
  ncod : Nat
  total : Nat
  deriving DecidableEq, Repr

/-- The parts of an object that begins at byte 16 of a body. -/
def lemebOf (body : List Byte) : Lemeb :=
  let f (off n : Nat) : Nat := fieldAt body (16 + off) n
  let text := 80
  let data := text + up16 (f 24 4)
  let scratch := data + up16 (f 28 4)
  let caps := scratch + up16 (f 32 4)
  let cods := caps + 32 * f 36 4
  let part (off n : Nat) : List Byte := (body.drop off).take n
  { textva := f 8 8, datava := f 16 8, text := part text (f 24 4), data := part data (f 28 4),
    scratch := part scratch (f 32 4), capAt := caps, ncap := f 36 4, codAt := cods, ncod := f 40 4,
    total := cods + 16 * f 40 4 + 64 * f 44 4 + up16 (16 * f 48 4) + up16 (f 52 4) }

/-- The pages of a section. -/
def sectionPages (va len : Nat) : List Nat := (List.range ((len + 65535) / 65536)).map fun k => va + 65536 * k

/-- A section of a loaded object meets a page. -/
def Obj.covers (o : Obj) (page : Nat) : Bool :=
  (sectionPages o.textva o.textlen ++ sectionPages o.datava o.datalen).contains page

/-- A page of the mapped ranges (01 R14). -/
def mappedPage (page : Nat) : Bool := decide (page < 0x7E0000000000) || (decide (0x800000000000 ≤ page) && decide (page < 2 ^ 56))

/-- One past the last raw byte that the bytes up to `n` of a window reach (06 R106), with SCLBASE as a firing starts with it. -/
def rawTop (win n : Nat) : Nat :=
  match win with
  | 0 | 6 => n
  | 1 | 5 => (n + 3) / 4
  | 2 => 3 * ((n + 15) / 16)
  | 3 | 4 => 2 * ((n + 3) / 4)
  | _ => 0

/-- An entry of the capability table, resolved (02 R38): its section, its image offset, and the capability. The error is the
byte offset of the field that the LOAD is rejected for. One with SEAL or UNSEAL is placed as its permissions say; the domain's
object-type mask limits the sealing authorities that the Bindery grants otherwise, and a LOAD asks for none
(DESIGN CHOICE, assumption 86). -/
def State.loadCap (o : Lemeb) (mask : Nat) (body : List Byte) (at_ : Nat) : Except Nat (Nat × Nat × Reg) :=
  let f (off n : Nat) : Nat := fieldAt body (at_ + off) n
  let section_ := f 0 1
  let perms := BitVec.ofNat 12 (f 4 2)
  let image := f 8 8
  let label := f 16 8
  let len := f 24 8
  let base := if f 1 1 = 1 then o.datava + label else 0x7F0000000000 + f 2 1 * 0x400000 + label
  let room := if section_ = 1 then o.data.length else o.scratch.length
  if section_ ≠ 1 ∧ section_ ≠ 2 then .error at_
  else if f 1 1 ≠ 1 ∧ f 1 1 ≠ 2 then .error (at_ + 1)
  else if 7 < f 2 1 then .error (at_ + 2)
  else if perms &&& ~~~(BitVec.ofNat 12 mask) ≠ 0 ∨ perms.getLsbD permSYS then .error (at_ + 4)
  else if image % 16 ≠ 0 ∨ room < image + 16 then .error (at_ + 8)
  else if f 1 1 = 2 ∧ 0x60000 - 4096 < rawTop (f 2 1) (label + len) then .error (at_ + 16)
  else if !exactBounds base (base + len) then .error (at_ + 24)
  else .ok (section_, image, mkCap perms 0 (expFor len) base (base + len) (BitVec.ofNat 64 base))

/-- The code capability of an object (02 R37, R39). -/
def codeCap (textva textlen cursor : Nat) : Reg := capOver [permLD, permX] textva (textva + textlen) cursor

/-- An entry of the codelet table: the offset of its record and its entry capability (02 R39). -/
def loadRecord (o : Lemeb) (body : List Byte) (at_ : Nat) : Except Nat (Nat × Nat × Reg) :=
  let rec_ := fieldAt body at_ 8
  let entry := fieldAt body (at_ + 8) 8
  if rec_ % 64 ≠ 0 ∨ o.scratch.length < rec_ + 64 then .error at_
  else if o.text.length ≤ entry then .error (at_ + 8)
  else .ok (2, rec_, codeCap o.textva o.text.length (o.textva + entry))

/-- A table read entry by entry. -/
def readTable (read : Nat → Except Nat (Nat × Nat × Reg)) (size : Nat) : Nat → Nat → Except Nat (List (Nat × Nat × Reg))
  | _, 0 => .ok []
  | at_, n + 1 =>
    match read at_, readTable read size (at_ + size) n with
    | .error e, _ => .error e
    | .ok _, .error e => .error e
    | .ok x, .ok l => .ok (x :: l)

/-- Bytes with a run of them replaced. -/
def spliceBytes (l : List Byte) (off : Nat) (bs : List Byte) : List Byte := l.take off ++ bs ++ l.drop (off + bs.length)

/-- Why a LOAD is rejected, as a status and an offset, in the order domain, authority, header, sections; a code section whose bounds
are not exactly representable has no code capability (DEDUCED, assumption 63). -/
def State.loadStop (s : State) (sender : Nat) (body : List Byte) (o : Lemeb) : Option (Nat × Nat) :=
  let f (off n : Nat) : Nat := fieldAt body off n
  let pages := sectionPages o.textva o.text.length ++ sectionPages o.datava o.data.length
  if f 0 1 = 0 then some (1, 0)
  else if !s.hasAuthority sender (f 0 1) then some (3, 0)
  else if f 16 4 ≠ 0x4C4D4F42 then some (1, 16)
  else if f 20 2 ≠ 1 then some (1, 20)
  else if o.textva % 65536 ≠ 0 then some (1, 24)
  else if o.datava % 65536 ≠ 0 then some (1, 32)
  else if body.length < o.total then some (1, 40)
  else if 0x60000 - 4096 < o.scratch.length then some (1, 48)
  else if pages.any (fun p => !mappedPage p || s.bindery.objects.any (·.covers p)) || pages.eraseDups.length != pages.length then
    some (2, 0)
  else if o.text ≠ [] ∧ !exactBounds o.textva (o.textva + o.text.length) then some (1, 40)
  else none

/-- The pages of an object, each with its bytes and whether it may be stored to; one not yet mapped takes the next frame. The
inner none says that a table or a frame is no memory of the package, the outer one that a frame cannot be chosen
(DESIGN CHOICE, assumption 64). -/
def State.placePages (s : State) (w : Bool) : List Nat → List Byte → List Nat → Option (Option (State × List Nat))
  | [], _, frames => some (some (s, frames))
  | p :: pages, bs, frames =>
    let now := bs.take 65536
    let go (s : State) (frames : List Nat) : Option (Option (State × List Nat)) :=
      match s.mappedLoc p with
      | some loc => (s.placeStore loc now none).placePages w pages (bs.drop 65536) frames
      | none => some none
    if s.mapped p false || s.mapped (p / 2 ^ 25 * 2 ^ 25) true then go s frames
    else match frames with
      | [] => none
      | x :: frames =>
        if x % 65536 ≠ 0 ∨ !s.unused (x, x + 65536) then none
        else match s.writeEntry { page := p, big := false, frame := x, w := w, st := false } true with
          | none => some none
          | some s => go s frames

/-- The capabilities that a LOAD places in .data. -/
def State.placeCaps (s : State) (datava : Nat) (l : List (Nat × Nat × Reg)) : State :=
  forAll (l.filter fun x => x.1 == 1) (fun s x =>
    match s.mappedLoc (datava + x.2.1) with
    | some loc => s.writeSector loc x.2.2.bits (BitVec.allOnes 128) true
    | none => s) s

/-- A loaded object. -/
def Lemeb.object (o : Lemeb) (handle dom : Nat) (caps recs : List (Nat × Nat × Reg)) : Obj :=
  let placed := caps.filter (fun x => x.1 == 2) ++ recs
  { handle := handle, domain := dom, textva := o.textva, textlen := o.text.length, datava := o.datava,
    datalen := o.data.length,
    scratch := placed.foldl (fun l x => spliceBytes l x.2.1 (bytesOfNat 16 x.2.2.bits.toNat)) o.scratch
    scratchTags := placed.map (·.2.1), records := recs.map (·.2.1) }

/-- Every instruction cache emptied (05 R89). -/
def State.dropCode (s : State) : State := { s with cores := s.cores.map fun c => (c.1, { c.2 with icache := [] }) }

/-- LOAD (21 R390, R393): the operands from 2 on are the frames chosen for the pages of the object that are not mapped. -/
def execLoad (s : State) : Host.Outcome State Fault Refusal :=
  let sender := s.argN 0
  let id := s.reqId
  let body := s.body
  let o := lemebOf body
  let dom := fieldAt body 0 1
  if !s.serves 1 then .next s
  else match s.loadStop sender body o with
    | some (status, off) => .next (s.reply sender id status off [])
    | none =>
      let mask := ((s.domain dom).map Domain.caps).getD 0
      match readTable (State.loadCap o mask body) 32 o.capAt o.ncap, readTable (loadRecord o body) 16 o.codAt o.ncod with
      | .error off, _ => .next (s.reply sender id 1 off [])
      | .ok _, .error off => .next (s.reply sender id 1 off [])
      | .ok caps, .ok recs =>
        match s.placePages false (sectionPages o.textva o.text.length) o.text (s.arg.n.drop 2) with
        | none => .next s
        | some none => .next (s.reply sender id 2 0 [])
        | some (some (s1, frames)) =>
          match s1.placePages true (sectionPages o.datava o.data.length) o.data frames with
          | none => .next s
          | some none => .next (s.reply sender id 2 0 [])
          | some (some (s2, _)) =>
            let h := s.bindery.nextHandle
            .next (((s2.placeCaps o.datava caps).dropCode.onBindery fun b =>
              { b with objects := b.objects ++ [o.object h dom caps recs], nextHandle := h + 1 }).reply sender id 0 0
                (bytesOfNat 8 h))

/-! ## QUERY (21 R392, R393) -/

/-- The state code of a launch (21 R393 selector 1): a reservation that has not started counts as queued. -/
def GangState.code : GangState → Nat
  | .running => 1
  | .preempted => 2
  | _ => 0

/-- The entry of a gang. -/
def Launch.info (l : Launch) : List Byte :=
  bytesOfNat 16 (l.gang + l.domain * 2 ^ 16 + l.state.code * 2 ^ 24 + l.count * 2 ^ 32 + max 1 l.chips.length * 2 ^ 48)

/-- A request of a type, served for its sender and id. -/
def serving (type : Nat) (s : State) (f : Nat → Nat → State) : Host.Outcome State Fault Refusal :=
  if s.serves type then .next (f (s.argN 0) s.reqId) else .next s

/-- A QUERY with a selector, served for its sender, id and argument (21 R393). A selector that is none of the six is out of range; the
event of another selector does nothing. -/
def querying (sel : Nat) (s : State) (f : Nat → Nat → Nat → State) : Host.Outcome State Fault Refusal :=
  serving 4 s fun sender id =>
    let k := fieldAt s.body 0 1
    if k = 0 ∨ 6 < k then s.reply sender id 1 0 [] else if k = sel then f sender id (fieldAt s.body 8 8) else s

/-- QUERY_GANGS (21 R393 selector 1). -/
def execQueryGangs (s : State) : Host.Outcome State Fault Refusal :=
  querying 1 s fun sender id _ =>
    s.reply sender id 0 0 ((s.bindery.launches.filter fun l => s.hasAuthority sender l.domain).flatMap Launch.info)

/-- QUERY_GANG (21 R393 selector 6): the argument is the gang. -/
def execQueryGang (s : State) : Host.Outcome State Fault Refusal :=
  querying 6 s fun sender id gang =>
    match s.launch gang with
    | none => s.reply sender id 5 0 []
    | some l => if s.hasAuthority sender l.domain then s.reply sender id 0 0 l.info else s.reply sender id 3 0 []

/-- The features of stepping A2 with Bindery series 3 (21 R400): identifier, enabled, and data. -/
def State.features (s : State) (pair : Bool) : List (Nat × Bool × List Byte) :=
  let ports := (List.range 8).map fun k => mapGet 0 k s.ports
  let peers := s.bindery.peers.length
  [(1, ports.any (· != 0), ports.flatMap (bytesOfNat 8)), (2, pair, []),
   (3, peers != 0, bytesOfNat 4 s.bindery.package ++ bytesOfNat 4 peers),
   (4, true, bytesOfNat 8 (if peers = 0 then 59 else 1600))]

/-- A feature list that begins at an address (21 R400). -/
def featureBytes (va : Nat) : List (Nat × Bool × List Byte) → List Byte
  | [] => []
  | (k, on, data) :: l =>
    let next := if l = [] then 0 else va + 16 + up16 data.length
    let pad := if l = [] then [] else List.replicate (up16 data.length - data.length) 0
    bytesOfNat 16 (k + 2 ^ 16 + (if on then 2 ^ 24 else 0) + data.length * 2 ^ 32 + next * 2 ^ 64) ++ data ++ pad ++
      featureBytes (va + 16 + up16 data.length) l

/-- QUERY_FEATURES (21 R393 selector 2). The list is that of the launch that the argument names, and otherwise one that no launch
has. -/
def execQueryFeatures (s : State) : Host.Outcome State Fault Refusal :=
  querying 2 s fun sender id gang =>
    match s.launch gang with
    | some l => s.reply sender id 0 0 (featureBytes l.featva (s.features l.pair))
    | none => s.reply sender id 0 0 (featureBytes 0 (s.features false))

/-- A QUERY of sensors, the log or the identity record is accepted (21 R392). -/
def State.mayQuery (s : State) (sender : Nat) : Bool :=
  s.isAdmin sender || s.bindery.domains.any fun d => d.2.senders.contains sender

/-- QUERY_SENSORS (21 R393 selector 3). Ten dies, sixteen stacks, the coolant, four rails (DEDUCED, assumption 65). -/
def execQuerySensors (s : State) : Host.Outcome State Fault Refusal :=
  querying 3 s fun sender id _ =>
    if s.mayQuery sender then
      s.reply sender id 0 0 ((List.range 37).flatMap fun k => bytesOfNat 8 (Config.sensor s.ticks k).toNat)
    else s.reply sender id 3 0 []

/-- QUERY_LOG (21 R393 selector 4): the argument is the first record. -/
def execQueryLog (s : State) : Host.Outcome State Fault Refusal :=
  querying 4 s fun sender id first =>
    if s.mayQuery sender then s.reply sender id 0 0 ((s.colophon.log.drop first).take 64).flatten
    else s.reply sender id 3 0 []

/-- QUERY_IDENTITY (21 R402), with the nonce of the body. Each reply uses a leaf of the key. -/
def execQueryIdentity (s : State) : Host.Outcome State Fault Refusal :=
  querying 5 s fun sender id _ =>
    if !s.mayQuery sender then s.reply sender id 3 0 []
    else if 2 ^ 20 ≤ s.colophon.leaf then s.reply sender id 2 0 []
    else
      let said := Config.identity ++ (s.body.drop 16).take 32
      { s with colophon := { s.colophon with leaf := s.colophon.leaf + 1 } }.reply sender id 0 0
        (said ++ Config.lmsSign said s.colophon.leaf)

/-- MESSAGE_DROPPED (21 R389, R391): a message that `State.dropped` names has no effect and no answer; the event of every request
tests it too. -/
def execMessageDropped (s : State) : Host.Outcome State Fault Refusal := .next s

/-! ## Page faults -/

/-- The id of what the Bindery waits for on its own account: no message carries it. -/
def ownWait : Nat := 2 ^ 64

/-- The Bindery installs an entry for the page of a fault (08 R159): operands 2 and 3 are the frame, and its size in bit 0 and W in bit
1. The frame is that of the page, or one not in use; the change of an entry is invalidated (R165). None if it cannot be
installed. -/
def State.installPage (s : State) (sid : Nat) : Option State :=
  let big := s.argN 3 % 2 == 1
  let size := pageSize big
  let page := (s.arch sid).sset.val.toNat / size * size
  let frame := s.argN 2
  let e : PageEntry := { page := page, big := big, frame := frame, w := s.argN 3 / 2 % 2 == 1, st := false }
  let old := s.bindery.pages.find? fun x => x.big == big && x.page == page
  let fits := match old with
    | some x => x.frame == frame && !x.st
    | none => s.unused (frame, frame + size)
  if frame % size ≠ 0 ∨ !mappedPage page ∨ !fits then none
  else (s.writeEntry e true).map fun s =>
    if old.isNone then s
    else
      let s := s.invalidatePage page big
      s.onBindery fun b => { b with mapWaits := b.mapWaits ++
        [{ sender := sid, id := ownWait, ordered := false, off := 0, last := true, status := 0, open_ := s.openChunks none }] }

/-- PGFLT_ANSWER (08 R159): operands sid, and 1 to resume, 2 to install an entry first, else to refuse. The stub of a strand with a
precise PGFLT returns once what the Bindery has installed holds, or the Bindery reports the refusal and ends the group. -/
def execPgfltAnswer (s : State) : Host.Outcome State Fault Refusal :=
  let sid := s.argN 0
  let a := s.arch sid
  let mine (w : MapWait) : Bool := w.sender == sid && w.id == ownWait
  if !((s.strand sid).firing.isSome && a.smode && a.sset.cause == 0x0B) then .next s
  else if s.argN 1 = 2 then .next ((s.installPage sid).getD s)
  else if s.argN 1 = 1 then
    if s.bindery.mapWaits.any fun w => mine w && w.open_.any s.stillOpen then .next s
    else if s.bindery.mapWaits.any mine then
      .next ((s.onBindery fun b => { b with mapWaits := b.mapWaits.filter fun w => !mine w }).stubReturn sid)
    else .next (s.stubReturn sid)
  else .next ((s.event sid 2 0x0B a.sset.pcc.low a.sset.val).sendQuit (coreOf sid) a.gangNo a.group)

/-! ## Colophon, bring-up, power and cooling (21 R401 to R404) -/

/-- The tables of the bring-up can lie where they have been chosen: in the HBM, apart from each other. -/
def tablesApart : List (Nat × Nat) → Bool
  | [] => true
  | r :: l => decide (r.2 ≤ 2 ^ 40) && !l.any (meet r) && tablesApart l

/-- The clock of a die as its clock master starts it (01 R28). -/
def State.startDie (s : State) (k : Nat) : State :=
  s.setDie k { Die.reset with earliest := s.now, latest := s.now + min (s.free (30 + k)).toNat 6 }

/-- The populated bytes behind a CXL port: at most 1 TB of the device that enumeration accepts, without its tag region, the top 1/128 of
the capacity rounded up to 1 GB (16 R323). -/
def portBytes (port : Nat) : Nat :=
  match Config.device port with
  | none => 0
  | some n => min (n - (n + 2 ^ 37 - 1) / 2 ^ 37 * 2 ^ 30) (2 ^ 40)

/-- POWER_GOOD (21 R403): operands the number of the step whose check fails, or 0; the base of the domain-rights table; eight words
of MAPT64 and eight of MAPT32 for the empty tables of the N-dies (DEDUCED, assumption 68). -/
def execPowerGood (s : State) : Host.Outcome State Fault Refusal :=
  let failed := s.argN 0
  let drt := s.argN 1
  let word (k : Nat) : Word := BitVec.ofNat 64 (s.argN (2 + k) % 2 ^ 52 / 4096 * 4096 + s.argN (2 + k) % 64)
  let t64 := (List.range 8).map word
  let t32 := (List.range 8).map fun k => word (8 + k)
  let ranges := (drt, drt + 4096) :: (t64 ++ t32).map tableRange
  if s.power then .next s
  else if failed ≠ 0 then
    .next ((if 2 ≤ failed then { s with power := true }.logged else { s with power := true }).out (.board failed))
  else if drt % 4096 ≠ 0 ∨ !tablesApart ranges ∨ !(t64 ++ t32).all (fun t => decide (4 ≤ t.toNat % 64) && decide (t.toNat % 64 ≤ 30)) then
    .next s
  else
    let s := forAll (List.range 10) State.startDie s
    let s := forAll ranges State.blank s
    .next ({ s with power := true, ports := (List.range 8).map fun k => (k, portBytes k) }.onBindery fun b =>
      { b with accepting := true, drt := drt, t64 := t64, t32 := t32 })

/-- THERMAL_ALARM (21 R404): operands sensor and reading, numbered as in selector 3 of R393. A junction at 95 °C or more, or a
flow below its minimum. -/
def execThermalAlarm (s : State) : Host.Outcome State Fault Refusal :=
  let k := s.argN 0
  let x := s.argN 1
  if !s.power ∨ !((decide (k < 10) && decide (95000 ≤ x)) || (k == 28 && decide (x < 2500))) then .next s
  else
    .next ((s.logged.notice s.bindery.admins 6 0 8 (BitVec.ofNat 128 (k + x % 2 ^ 64 * 2 ^ 64))).onBindery fun b =>
      { b with noLaunch := true })

/-- CONDITION_CLEARS (21 R404): launches are accepted again, unless an N-die is lost (16 R327). -/
def execConditionClears (s : State) : Host.Outcome State Fault Refusal :=
  .next (s.onBindery fun b => { b with noLaunch := s.dies.any fun d => decide (d.1 < 8) && d.2.fenced })

/-- POWER_REMOVAL (21 R404): the record of the cause survives. -/
def execPowerRemoval (s : State) : Host.Outcome State Fault Refusal := if s.power then .next s.logged.powerOff else .next s

/-- LOSS_OF_DISCIPLINE (19 R357): operand, the die. Colophon logs it, and the pair of the die is no longer held within its bound. -/
def execLossOfDiscipline (s : State) : Host.Outcome State Fault Refusal :=
  if s.power then .next (s.logged.onDie (s.argN 0) fun d => { d with lost := true }) else .next s

/-- FIRMWARE_UPDATE (21 R402): operands the image (0 Colophon, 1 Bindery) and its version; the bytes are the image. -/
def execFirmwareUpdate (s : State) : Host.Outcome State Fault Refusal :=
  let c := s.colophon
  let v := s.argN 1
  let low := if s.argN 0 = 0 then c.minColophon else c.minBindery
  if s.power && Config.lmsVerify s.arg.bytes && decide (low ≤ v) then
    .next { s with colophon := if s.argN 0 = 0 then { c with minColophon := v } else { c with minBindery := v } }
  else .next s

/-- ADMIN_LIST_WRITE (21 R392): operands, up to 8 addresses. -/
def execAdminListWrite (s : State) : Host.Outcome State Fault Refusal :=
  if 8 < s.arg.n.length then .next s else .next (s.onBindery fun b => { b with admins := s.arg.n })

end Sys2Proof.Machine
end

