-- ==== Sys2Proof/Machine/Launch.lean ====
section
/-! DEFINITION. Launches (02 R40 to R43, 21 R395 to R397), the end of a gang (R398), pre-emption and resume (07 R143 to R145, 14
R265), and multi-chip launches (21 R399). -/

namespace Sys2Proof.Machine

open Sys2Proof

/-! ## The body of a LAUNCH (21 R393, R395) -/

/-- A field that may be absent. -/
def given (n : Nat) : Option Nat := if n = 2 ^ 64 - 1 then none else some n

/-- Where the context entries begin. -/
def ctxStart (chips : Nat) : Nat := if 1 < chips then 64 + 16 * chips else 64

/-- The launch that a body describes. -/
def launchOf (sender id : Nat) (body : List Byte) : Launch :=
  let f := fieldAt body
  let start := ctxStart (f 12 1)
  { gang := 0, state := .queued, sender := sender, id := id, domain := f 10 1, prio := f 5 1, place := f 2 1, count := f 0 2,
    pair := f 3 1 == 1, msplit := f 4 1, chunklim := f 6 2, stack := f 8 2, argw := f 11 1 == 1, handle := f 16 8,
    entry := f 24 8, args := given (f 32 8), timeout := f 40 8, dqlog := f 13 1, ctxmap := given (f 48 8),
    ctxs := (List.range (f 14 1)).map fun i => (f (start + 264 * i) 1, (body.drop (start + 264 * i + 8)).take 256)
    chips := if 1 < f 12 1 then
        (List.range (f 12 1)).map fun i => (f (64 + 16 * i) 1 % 64, f (66 + 16 * i) 2, f (72 + 16 * i) 8)
      else []
    deadline := f 56 8, cores := [], held := [], start := 0, stamp := none, coordinator := false, readies := [],
    lost := false, killed := false, saved := [], featva := 0 }

/-- The cores of a unit of place (21 R397), a pair counting once. -/
def unitLimit (place : Nat) (pair : Bool) : Nat :=
  let n := [1, 4, 128].getD place 1024
  if pair then n / 2 else n

/-- A context record with its domain and gang filled in (21 R393). -/
def fillRecord (dom gang : Nat) (r : List Byte) : List Byte :=
  r.take 2 ++ bytesOfNat 1 dom ++ (r.drop 3).take 3 ++ bytesOfNat 2 gang ++ r.drop 8

/-- The first field out of range, by its offset in the body (21 R397 step 2). -/
def State.launchBad (s : State) (body : List Byte) : Option Nat :=
  let f := fieldAt body
  let l := launchOf 0 0 body
  let limit := unitLimit l.place l.pair
  let chips := f 12 1
  let start := ctxStart chips
  let known (p : Nat) : Bool := p == s.bindery.package || s.bindery.peers.any (·.1 == p)
  let fixed : List (Nat × Bool) :=
    [(0, decide (l.count < 1) || (decide (limit < l.count) && !(l.pair && l.place == 0))),
     (2, decide (3 < l.place) || (l.pair && l.place == 0)), (3, decide (1 < f 3 1)), (4, decide (6 < l.msplit)),
     (5, decide (3 < l.prio)), (6, decide (l.chunklim < 16) || decide (256 < l.chunklim)),
     (8, decide (l.stack < 256) || decide (16384 < l.stack) || l.stack % 256 != 0), (11, decide (1 < f 11 1)),
     (12, decide (chips < 1) || decide (64 < chips)), (13, decide (l.dqlog < 8) || decide (20 < l.dqlog)),
     (14, decide (body.length < start + 264 * f 14 1)),
     (40, decide (l.timeout < 1000) || decide (3600000000 < l.timeout)),
     (48, match l.ctxmap with
       | some m => m % 8 != 0 || l.args.isNone
       | none => false),
     (56, chips == 1 && l.deadline != 0)]
  let chipBad : List (Nat × Bool) := l.chips.zipIdx.map fun c =>
    (64 + 16 * c.2, !known c.1.1 || (c.2 == 0 && c.1.1 != s.bindery.package) || decide (c.1.2.1 < 1) || decide (limit < c.1.2.1))
  match (fixed ++ chipBad).find? (·.2) with
  | some x => some x.1
  | none => l.ctxs.zipIdx.findSome? fun c =>
    let at_ := start + 264 * c.2
    let r := fillRecord l.domain 1 c.1.2
    if 8 ≤ c.1.1 then some at_
    else (ctxRecordBad ((homeDie (fieldAt r 16 8)).getD 0) r).map (at_ + 8 + ·)

/-- The loaded object of a handle. -/
def State.object (s : State) (h : Nat) : Option Obj := s.bindery.objects.find? fun o => o.handle == h

/-- Steps 3 and 4 of 21 R397, and what a launch asks of its object: a status and an offset. -/
def State.objectStop (s : State) (l : Launch) : Option (Nat × Nat) :=
  match s.object l.handle with
  | none => some (5, 0)
  | some o =>
    let room := o.datalen - l.args.getD 0
    if l.msplit * 65536 < o.scratch.length + 4 * l.stack + 4096 then some (1, 4)
    else if !o.records.contains l.entry then some (1, 24)
    else match l.args with
      | none => none
      | some a =>
        if o.datalen < a ∨ !exactBounds (o.datava + a) (o.datava + o.datalen) then some (1, 32)
        else match l.ctxmap with
          | some m => if room < m + 8 * l.ctxs.length then some (1, 48) else none
          | none => none

/-! ## Cores and contexts (21 R396, R397) -/

/-- A core that is free, or whose gang is about to leave it. -/
def State.coreFree (s : State) (gone : List Nat) (cid : Nat) : Bool :=
  !(s.die (dieOfCore cid)).fenced &&
    match (s.core cid).gang with
    | none => true
    | some g => gone.contains g

/-- The free cores of a unit, in ascending order; of a pair, its even core. -/
def State.freeIn (s : State) (gone : List Nat) (pair : Bool) (lo n : Nat) : List Nat :=
  ((List.range n).map (lo + ·)).filter fun c =>
    if pair then c % 2 == 0 && s.coreFree gone c && s.coreFree gone (c + 1) else s.coreFree gone c

/-- The cores for a launch: the lowest-numbered unit of its place that has enough. -/
def State.fitCores (s : State) (gone : List Nat) (l : Launch) : Option (List Nat) :=
  let n := [1, 4, 128].getD l.place 1024
  (List.range (1024 / n)).findSome? fun u =>
    let c := s.freeIn gone l.pair (u * n) n
    if l.count ≤ c.length then some (c.take l.count) else none

/-- The dies of a list of cores. -/
def diesOf (cores : List Nat) : List Nat := (cores.map dieOfCore).eraseDups

/-- The lowest free contexts of dies, in order; none if they are short. -/
def pickCtxs (held : List (Nat × Nat)) : List Nat → Option (List (Nat × Nat))
  | [] => some []
  | d :: l =>
    match (List.range 64).find? fun n => !held.contains (d, n) with
    | none => none
    | some n => (pickCtxs ((d, n) :: held) l).map ((d, n) :: ·)

/-- Step 5 of 21 R397: the cores and contexts of a launch, the two contexts of each die queue last; none if the cores are short. A
context entry whose die index or release word no die of the gang has is out of range. -/
def State.fits (s : State) (l : Launch) : Except (Nat × Nat) (Option (List Nat × List (Nat × Nat))) :=
  match s.fitCores [] l with
  | none => .ok none
  | some cores =>
    let dies := diesOf cores
    let start := ctxStart (max 1 l.chips.length)
    let bad := l.ctxs.zipIdx.findSome? fun c =>
      match dies[c.1.1]? with
      | none => some (start + 264 * c.2)
      | some d => (ctxRecordBad d (fillRecord l.domain 1 c.1.2)).map (start + 264 * c.2 + 8 + ·)
    match bad with
    | some off => .error (1, off)
    | none =>
      let want := l.ctxs.map (fun c => dies.getD c.1 0) ++ dies.flatMap fun d => [d, d]
      match pickCtxs (s.bindery.launches.flatMap (·.held)) want with
      | none => .error (2, 0)
      | some ctxs => .ok (some (cores, ctxs))

/-- The lowest gang number that no launch holds. -/
def State.nextGang (s : State) : Nat :=
  ((List.range 65535).find? fun k => !s.bindery.launches.any fun l => l.gang == k + 1).getD 65534 + 1

/-- The gangs to pre-empt for a launch (21 R397): those of lower priority, lowest first, as few as make it fit
(DESIGN CHOICE, assumption 67). -/
def State.victims (s : State) (l : Launch) : List Nat :=
  let leaving := (s.bindery.launches.filter fun x => x.state == .preempted).map (·.gang)
  let lower := [0, 1, 2].flatMap fun p =>
    (s.bindery.launches.filter fun x => x.state == .running && x.prio == p && decide (p < l.prio)).map (·.gang)
  ((List.range (lower.length + 1)).findSome? fun k =>
    if (s.fitCores (leaving ++ lower.take k) l).isSome then some (lower.take k) else none).getD []

/-- A launch changed. -/
def State.onLaunch (s : State) (gang : Nat) (f : Launch → Launch) : State :=
  s.onBindery fun b => { b with launches := b.launches.map fun l => if l.gang = gang then f l else l }

/-- A launch put in place of the one with its number, or last. -/
def State.putLaunch (s : State) (l : Launch) : State :=
  s.onBindery fun b =>
    { b with launches :=
        if b.launches.any (·.gang == l.gang) then b.launches.map fun x => if x.gang = l.gang then l else x
        else b.launches ++ [l] }

/-! ## The start of a launch (02 R41 to R43, 21 R396, R397) -/

/-- COORD of a core (01 R19), counted over the cores of its gang. -/
def coordOf (chip : Nat) (cores : List Nat) (cid : Nat) : Nat :=
  let quires := ((cores.filter fun c => dieOfCore c == dieOfCore cid).map quireOfCore).eraseDups
  let mates := cores.filter fun c => quireOfCore c == quireOfCore cid
  chip * 2 ^ 10 + (diesOf cores).idxOf (dieOfCore cid) * 2 ^ 7 + quires.idxOf (quireOfCore cid) * 4 + mates.idxOf cid

/-- Every core of a launch, both of each pair. -/
def Launch.allCores (l : Launch) : List Nat := if l.pair then l.cores.flatMap fun c => [c, c + 1] else l.cores

/-- The chip index of this package in a launch (01 R19). -/
def State.chipIndex (s : State) (l : Launch) : Nat := (l.chips.map Prod.fst).idxOf s.bindery.package % max 1 l.chips.length

/-- What the Bindery chooses for a launch (DESIGN CHOICE, assumption 7): the page of the feature list and its frame, and the array of each
die's queue. -/
structure Choice where
  va : Nat
  frame : Nat
  arrays : List Nat
  deriving DecidableEq, Repr

/-- The choice in the operands of an event, from one on. -/
def State.choice (s : State) (k : Nat) : Choice := { va := s.argN k, frame := s.argN (k + 1), arrays := s.arg.n.drop (k + 2) }

/-- The region of feature lists that holds a page (21 R400). -/
def featureRegion (va : Nat) : Region :=
  { base := va / 2 ^ 20 * 2 ^ 20, size := 20, r := true, w := false, x := false, e := false }

/-- The die queues of a launch (10 R193), its contexts for them given. -/
def dieQueues (l : Launch) (arrays : List Nat) : List (Nat × DieQueue) :=
  let own := l.held.drop l.ctxs.length
  (diesOf l.cores).zipIdx.map fun d =>
    (d.1, { gang := l.gang, log := l.dqlog, array := arrays.getD d.2 0, tail := (own.getD (2 * d.2) (0, 0)).2,
            head := (own.getD (2 * d.2 + 1) (0, 0)).2 })

/-- A choice that the Bindery can make: the page not mapped and outside every object, its region apart from the domain's other
regions, the frame and the arrays in unused HBM, each array in blocks that its die homes. -/
def State.choiceGood (s : State) (l : Launch) (c : Choice) : Bool :=
  let r := featureRegion c.va
  let pages := (List.range 16).map fun k => r.base + 65536 * k
  c.va % 65536 == 0 && mappedPage c.va && !s.mapped c.va false && !s.mapped (c.va / 2 ^ 25 * 2 ^ 25) true &&
    !(s.bindery.objects.any fun o => pages.any o.covers) &&
    (match s.domain l.domain with
     | some d => d.regions.all fun x => x == r || !meet x.range r.range
     | none => false) &&
    c.frame % 65536 == 0 && s.unused (c.frame, c.frame + 65536) &&
    (dieQueues l c.arrays).all fun q =>
      q.2.array % 32768 == 4096 * q.1 && decide (q.2.range.2 ≤ 2 ^ 40) && !s.used.any (meet q.2.range) &&
        !meet q.2.range (c.frame, c.frame + 65536) && !((s.die q.1).queues.any fun x => meet x.range q.2.range)

/-- The feature list of a launch on its page (21 R400). -/
def State.placeFeatures (s : State) (l : Launch) (c : Choice) : Option State :=
  let r := featureRegion c.va
  let s := s.blank (c.frame, c.frame + 65536)
  let s := s.placeStore c.frame (featureBytes c.va (s.features l.pair)) none
  (s.writeEntry { page := c.va, big := false, frame := c.frame, w := false, st := false } true).map fun s =>
    match s.domain l.domain with
    | some d => if d.regions.contains r then s else s.writeDomain l.domain { d with regions := putRegion r d.regions }
    | none => s

/-- The scratch image with the gang number in its records (02 R39). -/
def Obj.image (o : Obj) (gang : Nat) : List Byte := o.records.foldl (fun l r => spliceBytes l (r + 32) (bytesOfNat 2 gang)) o.scratch

/-- The scratchpad of a member (02 R37, R41): the image, and zero everywhere else. -/
def State.placeImage (s : State) (o : Obj) (gang cid : Nat) : State :=
  let s := (s.blank (padLoc cid 0, padLoc (cid + 1) 0)).store (padLoc cid 0) (o.image gang)
  { s with tags := o.scratchTags.foldl (fun t off => setTag t ((padLoc cid off) / 16) true) s.tags }

/-- The argument-block capability (02 R42). -/
def gpCap (l : Launch) (o : Obj) : Reg :=
  match l.args with
  | none => .null
  | some a =>
    capOver ([permLD, permLDC] ++ if l.argw then [permST, permSTC] else []) (o.datava + a) (o.datava + o.datalen) (o.datava + a)

/-- A core as a launch sets it (02 R43, 13 R238, 21 R397). -/
def State.setUpCore (s : State) (l : Launch) (o : Obj) (cid : Nat) : State :=
  let coord := coordOf (s.chipIndex l) l.cores (if l.pair then cid / 2 * 2 else cid)
  s.onCore cid fun c =>
    { Core.reset with
      msplit := BitVec.ofNat 64 l.msplit, chunklim := BitVec.ofNat 64 l.chunklim, paired := l.pair, coord := BitVec.ofNat 64 coord,
      drtbase := BitVec.ofNat 64 s.bindery.drt, mapt64 := s.bindery.t64.getD (dieOfCore cid) 0,
      mapt32 := s.bindery.t32.getD (dieOfCore cid) 0, plb := c.plb, pages := c.pages, icache := c.icache,
      l1 := if c.msplit = BitVec.ofNat 64 l.msplit then c.l1 else [], gang := some l.gang,
      gangCode := codeCap o.textva o.textlen o.textva, stubCode := c.stubCode, gp := gpCap l o,
      feat := capOver [permLD, permGLOBAL] l.featva (l.featva + 65536) l.featva, stack := l.stack }

/-- A capability of the S bank (07 R123). -/
def saveCap (base len : Nat) : Reg :=
  let b := base / 256 * 256
  capOver [permLD, permST, permLDC, permSTC, permSYS] b (b + len) b

/-- The S bank of a strand at a launch (07 R123). -/
def sbankOf (sid : Nat) : Vector Reg 4 :=
  #v[.null, saveCap (Config.matrixArea (coreOf sid)) 65856, { bits := Config.messageArea (coreOf sid), tag := true },
     saveCap (Config.saveArea sid) 9728]

/-- A strand as a launch sets it (02 R43). -/
def State.setUpStrand (s : State) (l : Launch) (sid : Nat) : State :=
  let seed : Word := 0x5EED000000000000 + 4 * (s.core (coreOf sid)).coord + BitVec.ofNat 64 (sid % 4) + 1
  s.onStrand sid fun t =>
    { Strand.reset with
      domain := BitVec.ofNat 64 l.domain, featcap := BitVec.ofNat 64 l.featva, nextChunk := t.nextChunk,
      arch := { Arch.reset with sbank := sbankOf sid, srseed := seed, twmax := 60, svec := t.arch.svec, sscratch := t.arch.sscratch,
                                dbg := t.arch.dbg } }

/-- A context of a die configured (10 R184, R195). -/
def State.setCtx (s : State) (at_ : Nat × Nat) (c : Ctx) : State :=
  s.onDie at_.1 fun d => (d.onCtx at_.2 fun _ => c).freshPhases at_.2

/-- The contexts of a launch configured, and their words written (21 R396). -/
def State.setUpCtxs (s : State) (l : Launch) (o : Obj) : State :=
  let s := forAll (l.held.zip l.ctxs) (fun s x => s.setCtx x.1 (ctxOfRecord (fillRecord l.domain l.gang x.2.2))) s
  match l.args, l.ctxmap with
  | some a, some m =>
    forAll (l.held.zip l.ctxs).zipIdx (fun s x =>
      match s.mappedLoc (o.datava + a + m + 8 * x.2) with
      | some loc => s.placeStore loc (bytesOfNat 8 (x.1.1.2 + x.1.2.1 * 2 ^ 16)) none
      | none => s) s
  | _, _ => s

/-- A die queue of a launch: its contexts, and its slots with their sequence numbers (10 R193). -/
def State.setUpQueue (s : State) (l : Launch) (q : Nat × DieQueue) : State :=
  let ctx : Ctx := { Ctx.off with mode := 1, lw := 5, domain := l.domain, gang := l.gang }
  let s := (s.setCtx (q.1, q.2.tail) ctx).setCtx (q.1, q.2.head) ctx
  let s := s.onDie q.1 fun d => { d with queues := d.queues ++ [q.2] }
  forAll (List.range (2 ^ q.2.log)) (fun s k => s.store (q.2.slot k + 16) (bytesOfNat 8 k)) s

/-- Everything that a launch sets before its entry records are pushed (21 R397); none if the choice cannot be made. -/
def State.setUp (s : State) (l : Launch) (o : Obj) (c : Choice) : Option State :=
  if !s.choiceGood l c then none
  else (s.placeFeatures l c).map fun s =>
    let s := s.putLaunch l
    let s := forAll l.allCores (fun s cid => s.setUpCore l o cid) s
    let s := forAll (l.allCores.flatMap strandsOf) (fun s sid => s.setUpStrand l sid) s
    let s := forAll l.cores (fun s cid => s.placeImage o l.gang cid) s
    forAll (dieQueues l c.arrays) (fun s q => s.setUpQueue l q) (s.setUpCtxs l o)

/-- The entry record is pushed on a member core, its own copy, and strand 0 of the core starts it (14 R274); none while the record
cannot be written. -/
def State.startEntry (s : State) (entry cid : Nat) : Option State :=
  let ref := mkRef cid entry
  let arg := BitVec.ofNat 64 (readNat s.mem (padLoc cid entry + 16) 8)
  let v := (s.core cid).dqstate
  (s.putSlot cid (dqBot v + dqCount v) (ref, arg)).startFiring (4 * cid) ref arg

/-- The start of a gang (14 R274): the entry firings of every member start at once. -/
def State.startGang (s : State) (gang : Nat) : Option State :=
  (s.launch gang).bind fun l =>
    l.cores.foldl (fun s cid => s.bind fun s => s.startEntry l.entry cid)
      (some (s.onLaunch gang fun l => { l with state := .running, start := s.now }))

/-- A launch that fits starts, or stands reserved. -/
def State.enlist (s : State) (l : Launch) (fit : List Nat × List (Nat × Nat)) (c : Choice) : Option State :=
  match s.object l.handle with
  | none => none
  | some o => s.setUp { l with cores := fit.1, held := fit.2, featva := c.va } o c

/-- The launch that stands first in the queue (21 R397). -/
def State.queueHead (s : State) : Option Launch :=
  [3, 2, 1, 0].findSome? fun p => s.bindery.launches.find? fun l => l.state == .queued && l.prio == p

/-- A launch holds back one of a priority (21 R397). -/
def State.heldLaunch (s : State) (prio : Nat) : Bool :=
  s.bindery.launches.any fun l => l.state == .queued && decide (prio ≤ l.prio)

/-- A launch on one chip, after its fields are checked. -/
def State.launchHere (s : State) (l : Launch) (c : Choice) : State :=
  let reply (s : State) (status off : Nat) (body : List Byte) : State := s.reply l.sender l.id status off body
  match s.objectStop l with
  | some (status, off) => reply s status off []
  | none =>
    let l := { l with gang := s.nextGang }
    let number := bytesOfNat 8 l.gang
    if s.heldLaunch l.prio then reply (s.putLaunch l) 0 0 number
    else match s.fits l with
      | .error (status, off) => reply s status off []
      | .ok none => reply (forAll (s.victims l) State.preemptGang (s.putLaunch l)) 0 0 number
      | .ok (some fit) =>
        match (s.enlist l fit c).bind fun u => u.startGang l.gang with
        | none => s
        | some s => reply s 0 0 number

/-! ## Reservations of a multi-chip launch (21 R399) -/

/-- A launch leaves the Bindery: its contexts are reset, its die queues and directory entries go, and its cores are free. -/
def State.dropLaunch (s : State) (l : Launch) : State :=
  let s := forAll l.held (fun s x => s.setCtx x .off) s
  let s := forAll (l.allCores.filter fun c => (s.core c).gang == some l.gang) (fun s cid =>
    (s.onCore cid fun c =>
      { c with gang := none, sfrq := [], dqstate := 0, quit := [], claim := none, mq := [], paired := false,
               msplit := c.msplitNext.getD c.msplit, l1 := if c.msplitNext.isSome then [] else c.l1, msplitNext := none,
               claiming := false, claimDq := none })) s
  { s with
    quires := s.quires.map fun q => (q.1, { q.2 with dir := q.2.dir.filter (·.gang != l.gang) })
    dies := s.dies.map fun d => (d.1, { d.2 with queues := d.2.queues.filter (·.gang != l.gang) })
    bindery := { s.bindery with launches := s.bindery.launches.filter (·.gang != l.gang) } }

/-- A message to every other chip of a launch. -/
def State.toChips (s : State) (l : Launch) (type value : Nat) : State :=
  forAll ((l.chips.map Prod.fst).filter (· != s.bindery.package)) (fun s p => s.out (.peer p type l.gang value)) s

/-- ABORT: every chip releases its reservation, and the reply is status 4. -/
def State.abort (s : State) (l : Launch) : State :=
  ((s.toChips l 0x13 0).dropLaunch l).reply l.sender l.id 4 0 []

/-- The part of a launch for this package: the cores and the object of its chip entry. -/
def State.ownPart (s : State) (l : Launch) : Launch :=
  match l.chips.find? fun c => c.1 == s.bindery.package with
  | some c => { l with count := c.2.1, handle := c.2.2 }
  | none => l

/-- A reservation on this chip: the status of a failure, or the state; the outer none says that the choice cannot be made. -/
def State.reserve (s : State) (l : Launch) (c : Choice) : Option (Except Nat State) :=
  match s.objectStop l with
  | some (status, _) => some (.error status)
  | none =>
    match s.fits l with
    | .error (status, _) => some (.error status)
    | .ok none => some (.error 2)
    | .ok (some fit) => (s.enlist { l with state := .reserved } fit c).map .ok

/-- PREPARE goes to every chip, this one included. -/
def State.prepareAll (s : State) (l : Launch) (body : List Byte) (c : Choice) : Option State :=
  let l := { s.ownPart l with gang := s.nextGang, coordinator := true }
  match s.reserve l c with
  | none => none
  | some (.error _) => some (s.reply l.sender l.id 4 0 [])
  | some (.ok s) => some (s.toChips l 0x10 (natOfBytes body))

/-- LAUNCH (21 R390, R397, R399): the operands from 2 on are the choice. -/
def execLaunch (s : State) : Host.Outcome State Fault Refusal :=
  let sender := s.argN 0
  let id := s.reqId
  let l := launchOf sender id s.body
  if !s.serves 3 then .next s
  else if s.bindery.noLaunch then .next (s.reply sender id 2 0 [])
  else if !s.hasAuthority sender l.domain then .next (s.reply sender id 3 0 [])
  else match s.launchBad s.body with
    | some off => .next (s.reply sender id 1 off [])
    | none =>
      if l.chips = [] then .next (s.launchHere l (s.choice 2))
      else .next ((s.prepareAll l s.body (s.choice 2)).getD s)

/-- A record of the Bindery about a launch, with the clock of a die. -/
def State.launchEvent (s : State) (l : Launch) (code die : Nat) : State := s.notice (s.sendersOf l.domain) code l.gang die 0

/-- LAUNCH_DEQUEUE (21 R397): operands, the choice. The launch at the head of the queue starts if it fits; one whose contexts no die
of its gang can hold ends. -/
def execLaunchDequeue (s : State) : Host.Outcome State Fault Refusal :=
  match s.queueHead with
  | none => .next s
  | some l =>
    match s.fits l with
    | .ok (some fit) => .next (((s.enlist l fit (s.choice 0)).bind fun u => u.startGang l.gang).getD s)
    | .error (1, _) => .next ((s.dropLaunch l).launchEvent l 4 8)
    | _ => .next s

/-! ## The end of a gang (21 R398) -/

/-- A record of the Bindery about a gang as a whole, with the clock of its first die. -/
def State.gangEvent (s : State) (l : Launch) (code : Nat) : State := s.launchEvent l code (dieOfCore (l.cores.headD 0))

/-- The gang for which a message pushes a record or writes memory, or whose cores answer it. -/
def MsgKind.gangOf : MsgKind → Option Nat
  | .cdec _ g _ _ | .push _ g _ _ _ | .carm _ g _ _ | .steal _ _ _ g | .quit _ g _ | .bytes g _ _ _ | .spill _ g _ _ _ => some g
  | _ => none

/-- An atomic in flight that a core has sent. -/
def Msg.atomOf (m : Msg) (cores : List Nat) : Bool :=
  match m.kind with
  | .amo _ _ _ _ _ _ _ => cores.contains m.src
  | _ => false

/-- A slot of a die queue holds no record (10 R193). -/
def State.slotEmpty (s : State) (q : DieQueue) (k : Nat) : Bool := readNat s.mem (q.slot k + 16) 8 % 2 ^ q.log == k

/-- The three conditions of 21 R398. -/
def State.gangOver (s : State) (l : Launch) : Bool :=
  let cores := l.allCores.filter fun c => (s.core c).gang == some l.gang
  l.saved == [] &&
    (cores.all fun c => dqCount (s.core c).dqstate == 0 && (s.core c).mq == [] &&
      (strandsOf c).all fun sid => (s.strand sid).firing.isNone && (s.strand sid).out == []) &&
    (s.dies.all fun d => (d.2.items.all fun i => !l.held.contains (d.1, i.ctx)) &&
      d.2.queues.all fun q => q.gang != l.gang || (List.range (2 ^ q.log)).all (s.slotEmpty q)) &&
    (l.held.all fun x => s.quiet x.1 x.2) && !(s.msgs.any fun m => m.kind.gangOf == some l.gang || m.atomOf cores) &&
    !(s.quires.any fun q => q.2.cmds.any (·.gang == l.gang)) && !(s.remotes.any (·.gang == l.gang))

/-- A gang that has cores, or has left them. -/
def Launch.started (l : Launch) : Bool := l.state == .running || l.state == .preempted

/-- GANG_END (21 R398, R396): operand gang. -/
def execGangEnd (s : State) : Host.Outcome State Fault Refusal :=
  match s.launch (s.argN 0) with
  | some l => if l.started && s.gangOver l then .next ((s.dropLaunch l).gangEvent l 4) else .next s
  | none => .next s

/-- GANG_TIMEOUT (21 R398): operand gang. -/
def execGangTimeout (s : State) : Host.Outcome State Fault Refusal :=
  match s.launch (s.argN 0) with
  | some l =>
    if l.started && !l.killed && decide (1000 * l.timeout ≤ s.now - l.start) then .next ((s.killGang l.gang).gangEvent l 5)
    else .next s
  | none => .next s

/-- The end of a launch by KILL: one that has not started is released. -/
def State.killLaunch (s : State) (l : Launch) : State := if l.started then s.killGang l.gang else s.dropLaunch l

/-- The launch of this package that a chip's coordinator names by its own number. -/
def State.partOf (s : State) (peer gang : Nat) : Option Launch :=
  s.bindery.launches.find? fun l => l.sender == peer && l.id == gang && l.chips != [] && !l.coordinator

/-- KILL (21 R390, R392, R393, R399). From the Bindery of a registered peer it names a gang by the number that the coordinator gave
it. -/
def execKill (s : State) : Host.Outcome State Fault Refusal :=
  serving 5 s fun sender id =>
    let gang := fieldAt s.body 0 2
    match (s.peerOf sender).bind fun p => s.partOf p gang with
    | some l => (s.killLaunch l).reply sender id 0 0 []
    | none =>
      match s.launch gang with
      | none => s.reply sender id 5 0 []
      | some l =>
        if !s.hasAuthority sender l.domain then s.reply sender id 3 0 []
        else if l.coordinator && l.state == .reserved then (s.abort l).reply sender id 0 0 []
        else (s.killLaunch l).reply sender id 0 0 []

/-! ## Pre-emption and resume (07 R143 to R145, 14 R265) -/

/-- A strand whose stub has done steps 2 to 4 of 07 R143, or which holds no firing; nothing that it has issued can still write a
scratchpad (R144). Where the core has no stub code placed, the waiting strand is taken to have done them
(DESIGN CHOICE, assumption 20). -/
def State.strandAway (s : State) (sid : Nat) : Bool :=
  let t := s.strand sid
  let stub := t.arch.smode && t.arch.sset.cause == BitVec.ofNat 64 Cause.preempt.code &&
    match t.wait with
    | .answer | .idle _ => true
    | _ => false
  t.out == [] && (t.firing.isNone || stub) && !s.remoteOut sid

/-- What a gang owes its cores in a quire (07 R143 steps 3 and 4, R144): a transfer in a matrix queue, a head token on its way, a copy
command that a pre-emption waits for, or bytes on their way to a stage barrier. -/
def State.owes (s : State) (gang qid : Nat) (cores : List Nat) : Bool :=
  (cores.any fun c => ((s.core c).mq.any fun x => decide (6 ≤ x.fn)) || ((s.core c).claiming && (s.core c).claimDq.isNone)) ||
  ((s.quire qid).cmds.any fun c => c.gang == gang && s.owed c) ||
  s.msgs.any fun m => match m.kind with
    | .bytes g c _ _ => g == gang && cores.contains c
    | _ => false

/-- Runs of memory with their tags copied, as the save and restore transfers do (07 R143, R145). Both begin at a sector. -/
def State.moveImage (s : State) (src dst size : Nat) : State :=
  let cells := s.mem.filter fun x => decide (src ≤ x.1) && decide (x.1 < src + size)
  let tags := s.tags.filter fun t => decide (src / 16 ≤ t) && decide (t < (src + size) / 16)
  let s := s.blank (dst, dst + size)
  { s with mem := cells.foldl (fun m x => writeByte m (x.1 - src + dst) x.2) s.mem,
           tags := tags.foldl (fun t k => setTag t (k - src / 16 + dst / 16) true) s.tags }

/-- What the stub of a strand has written in its save area (07 R143 step 2). -/
def State.stubSave (s : State) (sid : Nat) : State :=
  let base := Config.saveArea sid / 256 * 256
  s.placeSectors none ((List.range 608).filterMap fun k => (s.mappedLoc (base + 16 * k)).map fun loc => (loc, s.ctxSector sid k))

/-- What the stub that holds a core's claim has written in the matrix save area (07 R143 step 3): the suspend record and the images of
the four accumulators. -/
def State.stubMatrix (s : State) (cid : Nat) : State :=
  let c := s.core cid
  let base := Config.matrixArea cid / 256 * 256
  let put (off n : Nat) (f : Nat → Reg) : List (Nat × Reg) :=
    (List.range n).filterMap fun k => (s.mappedLoc (base + off + 16 * k)).map fun loc => (loc, f k)
  let image (a : Nat) : List (Nat × Reg) :=
    put (0x100 + 16400 * a) 1025 fun k => { bits := imageSector c a (BitVec.ofNat 64 (64 + 64 * 2 ^ 7)) k, tag := false }
  s.placeSectors none (put 0 16 (recordSector c.mq) ++ (List.range 4).flatMap image)

/-- What the stubs of a core have written in the areas of its S banks, where no code of theirs has done it. -/
def State.stubAreas (s : State) (cid : Nat) : State :=
  if (s.core cid).stubCode.tag then s
  else
    let s := forAll ((strandsOf cid).filter fun sid => (s.strand sid).firing.isSome) State.stubSave s
    if (s.core cid).claim.isSome then s.stubMatrix cid else s

/-- What a core leaves with the Bindery, the place of its image given. -/
def State.saveCore (s : State) (gang cid image : Nat) : Saved :=
  { cid := cid, core := s.core cid, strands := (strandsOf cid).map fun sid => (sid, s.strand sid), image := image,
    dir := (s.quire (quireOfCore cid)).dir.filter fun d => d.cid == cid && d.gang == gang, quits := [], held := [] }

/-- A strand of a core that its gang has left. -/
def Strand.emptied (t : Strand) : Strand :=
  { t with firing := none, asleep := true, wait := .none, trap := none, chunks := [], preempt := false, ganglost := none,
           engfault := [], halted := false, arch := { t.arch with smode := false, hf := false, frame := none } }

/-- The places of the images of a gang's cores in a quire, as the Bindery chooses them (DESIGN CHOICE, assumption 7), each with its
core; none if one does not begin a page or is in use. -/
def State.images (s : State) (cores : List Nat) (l : List Nat) : Option (List (Nat × Nat)) :=
  let x := cores.zip l
  let ranges := x.map fun c => (c.2, c.2 + s.padSize c.1)
  if x.length = cores.length ∧ ranges.all (fun r => r.1 % 4096 == 0 && s.unused r) ∧ tablesApart ranges then some x else none

/-- SAVE_TRANSFER (07 R143 step 5, 14 R265): operands the quire, and the places of the images. -/
def execSaveTransfer (s : State) : Host.Outcome State Fault Refusal :=
  let qid := s.argN 0
  match ((coresOf qid).filterMap fun c => (s.core c).gang).find? s.leaving with
  | none => .next s
  | some g =>
    let cores := (coresOf qid).filter fun c => (s.core c).gang == some g
    match s.images cores (s.arg.n.drop 1) with
    | none => .next s
    | some places =>
      if !(cores.all fun c => (strandsOf c).all s.strandAway) || s.owes g qid cores then .next s
      else
        let l := places.map fun x => s.saveCore g x.1 x.2
        let s := forAll cores State.stubAreas s
        let s := forAll places (fun s x => s.moveImage (padLoc x.1 0) x.2 (s.padSize x.1)) s
        let s := forAll cores (fun s cid => s.onCore cid fun c =>
          { c with gang := none, dqstate := 0, mq := [], claim := none, claiming := false, claimDq := none, sfrq := [], quit := [],
                   paired := false }) s
        let s := forAll (cores.flatMap strandsOf) (fun s sid => s.onStrand sid Strand.emptied) s
        let s := s.onQuire qid fun q => { q with dir := q.dir.filter (·.gang != g) }
        .next (s.onLaunch g fun x => { x with saved := x.saved ++ l })

/-- A core restored (07 R145 steps 1 to 4): its scratchpad with tags, the directory, DQSTATE, the accumulators with their queue, and
its strands. The caches stay as they are. -/
def State.restoreCore (s : State) (x : Saved) : State :=
  let now := s.core x.cid
  let s := s.moveImage x.image (padLoc x.cid 0) (x.core.msplit.toNat * 65536)
  let s := s.setCore x.cid
    { x.core with plb := now.plb, pages := now.pages, icache := now.icache, fills := [],
                  l1 := if now.msplit = x.core.msplit then now.l1 else [] }
  let s := s.onQuire (quireOfCore x.cid) fun q => { q with dir := q.dir ++ x.dir }
  forAll x.strands (fun s t => s.setStrand t.1 t.2) s

/-- What came for a core while its gang was away (14 R265): the groups quit are marked, and the messages held are applied in order of
arrival. -/
def State.catchUp (s : State) (gang : Nat) (x : Saved) : State :=
  forAll x.held State.applyHeld (forAll x.quits (fun s k => s.markQuit x.cid gang k) s)

/-- The stub of a strand goes on at the resume (07 R145 step 4): one whose core has code placed runs it, and it returns otherwise. -/
def State.stubResume (s : State) (sid : Nat) : State :=
  if (s.core (coreOf sid)).stubCode.tag then s.wakeIdle sid else s.stubReturn sid

/-- GANG_RESUME (07 R144, R145, 14 R265): operand gang. It returns to the cores that it left, when they are free and all its copy
commands have completed; a queued launch of higher priority goes first (21 R397). What was held for it is applied, and then its
stubs go on. -/
def execGangResume (s : State) : Host.Outcome State Fault Refusal :=
  match s.launch (s.argN 0) with
  | none => .next s
  | some l =>
    let all := l.allCores.all fun c => l.saved.any fun x => x.cid == c
    let room := l.allCores.all fun c => (s.core c).gang.isNone && !(s.die (dieOfCore c)).fenced
    if l.state ≠ .preempted ∨ l.saved = [] ∨ !all ∨ !room ∨ s.heldLaunch (l.prio + 1) ∨
        (s.quires.any fun q => q.2.cmds.any (·.gang == l.gang)) then .next s
    else
      let s := forAll l.saved State.restoreCore s
      let s := s.onLaunch l.gang fun l => { l with state := .running, saved := [] }
      let s := forAll l.saved (fun s x => s.catchUp l.gang x) s
      let stubs := (l.saved.flatMap Saved.strands).filter fun t => t.2.firing.isSome
      .next (forAll (stubs.map Prod.fst) State.stubResume s)

/-! ## Multi-chip launches (21 R391, R399)

Messages between Binderies name a gang by the number that the coordinator has given it, and a chip by its package number. -/

/-- A message from a registered peer (21 R391). -/
def fromPeer (s : State) (f : Nat → Nat → State) : Host.Outcome State Fault Refusal :=
  if s.bindery.accepting && s.bindery.peers.any (·.1 == s.argN 0) then .next (f (s.argN 0) (s.argN 1)) else .next s

/-- PREPARE (21 R399): operands peer, gang, and the choice; the bytes are the body of the LAUNCH. The chip reserves, and replies READY
or the status (DESIGN CHOICE, assumption 66). -/
def execPrepare (s : State) : Host.Outcome State Fault Refusal :=
  fromPeer s fun peer gang =>
    let l := { s.ownPart (launchOf peer gang s.arg.bytes) with gang := s.nextGang }
    let ready (s : State) (status : Nat) : State := s.out (.peer peer 0x11 gang status)
    if s.bindery.noLaunch then ready s 2
    else if (s.domain l.domain).isNone then ready s 3
    else match s.reserve l (s.choice 2) with
      | none => s
      | some (.error status) => ready s status
      | some (.ok s) => ready s 0

/-- The launch that this package coordinates under a number and has not started. -/
def State.coordinated (s : State) (gang : Nat) : Option Launch :=
  (s.launch gang).filter fun l => l.coordinator && l.state == .reserved

/-- READY (21 R399): operands peer, gang, status, and the start stamp that the coordinator picks if this is the last. -/
def execReady (s : State) : Host.Outcome State Fault Refusal :=
  fromPeer s fun peer gang =>
    match s.coordinated gang with
    | none => s
    | some l =>
      let stamp := s.argN 3
      let others := (l.chips.map Prod.fst).filter (· != s.bindery.package)
      let readies := insertNat peer l.readies
      if s.argN 2 ≠ 0 ∨ l.deadline < (s.die 8).earliest then s.abort l
      else if !others.all readies.contains then s.onLaunch gang fun l => { l with readies := readies }
      else if stamp < (s.die 8).latest + 100000 then s
      else
        ((s.onLaunch gang fun l => { l with readies := readies, stamp := some stamp, state := .ready }).toChips l 0x12 stamp).reply
          l.sender l.id 0 0 (bytesOfNat 8 gang)

/-- LAUNCH_DEADLINE (21 R399): operand gang. -/
def execLaunchDeadline (s : State) : Host.Outcome State Fault Refusal :=
  match s.coordinated (s.argN 0) with
  | some l => if l.deadline < (s.die 8).earliest then .next (s.abort l) else .next s
  | none => .next s

/-- GO (21 R399): operands peer, gang, stamp. A chip whose earliest already exceeds the stamp reports LATE. -/
def execGo (s : State) : Host.Outcome State Fault Refusal :=
  fromPeer s fun peer gang =>
    match s.partOf peer gang with
    | none => s
    | some l =>
      if l.state ≠ .reserved then s
      else if (diesOf l.cores).any fun d => decide (s.argN 2 < (s.die d).earliest) then
        (s.out (.peer peer 0x82 gang 8)).gangEvent l 8
      else s.onLaunch l.gang fun l => { l with stamp := some (s.argN 2), state := .ready }

/-- CHIP_START (21 R399, 14 R274): operand gang, by this package's number. -/
def execChipStart (s : State) : Host.Outcome State Fault Refusal :=
  match s.launch (s.argN 0) with
  | some l =>
    match l.stamp with
    | some t =>
      if l.state = .ready ∧ (diesOf l.cores).all fun d => decide (t < (s.die d).earliest) then .next ((s.startGang l.gang).getD s)
      else .next s
    | none => .next s
  | none => .next s

/-- ABORT (21 R399): operands peer, gang. -/
def execAbort (s : State) : Host.Outcome State Fault Refusal :=
  fromPeer s fun peer gang =>
    match s.partOf peer gang with
    | some l => if l.started then s else s.dropLaunch l
    | none => s

/-- The value of GANGLOST for the loss of a chip (07 R146). -/
def chipLost (chip : Nat) : Word := BitVec.ofNat 64 (2 ^ 63 + chip % 64 * 2 ^ 10)

/-- The members of a launch that have started take GANGLOST with CH. -/
def State.loseChip (s : State) (l : Launch) (chip : Nat) : State :=
  if l.started && !l.lost then s.gangLoss l.gang (chipLost chip) [] else s

/-- LATE (21 R399): operands peer, gang, and 1 for the KILL of the coordinator reaching this chip. The report makes the coordinator
send KILL to every chip, and its members take GANGLOST with the late chip's index. -/
def execLate (s : State) : Host.Outcome State Fault Refusal :=
  fromPeer s fun peer gang =>
    match (s.launch gang).filter fun l => l.coordinator && l.stamp.isSome with
    | none => s
    | some l =>
      if s.argN 2 = 1 then s.killLaunch l
      else (s.loseChip l ((l.chips.map Prod.fst).idxOf peer)).toChips l 0x05 0

/-- CHIP_LOSS (07 R146, 21 R399): operands gang, by this package's number, and the index of the chip that is lost. -/
def execChipLoss (s : State) : Host.Outcome State Fault Refusal :=
  match s.launch (s.argN 0) with
  | some l => .next (s.loseChip l (s.argN 1))
  | none => .next s

end Sys2Proof.Machine
end

