-- ==== Sys2Proof/Machine/Vector.lean ====
section
/-! DEFINITION. The vector class, majors 0x1E to 0x22 (12), and the press's vector pipe, which takes the entries of the
cores' dispatch queues (12 R216, R217). A result is computed when its instruction issues, since its registers cannot change
before (05 R84), and lands after the pipe has taken it. -/

namespace Sys2Proof.Machine

open Sys2Proof

/-! ## The dispatch queues (12 R217) -/

/-- A vector instruction enters the dispatch queue of its core, and in paired mode that of the odd core too (12 R217, R219). -/
def State.enterPipe (s : State) (out : Nat) : State :=
  let c := coreOf s.cur
  let enter (sid : Nat) (k : Core) : Core := { k with vq := k.vq ++ [(sid, out)] }
  if (s.core c).paired then (s.onCore c (enter s.cur)).onCore (c + 1) (enter (s.cur + 4)) else s.onCore c (enter s.cur)

/-- A vector instruction: while its dispatch queue holds 4 entries the strand is not ready; otherwise it enters the queue
and leaves its result outstanding (12 R217, R218) (DEDUCED, assumption 69). -/
def vectorOp (reads dsts : List RegName) (f : Arch → RegWrite × Flags) (s : State) :
    Host.Outcome State Fault Refusal :=
  if s.pipeFull (coreOf s.cur) then .next s
  else issue false reads s fun s =>
    let r := f s.me
    .done ((s.setPending dsts (.queued [r.1] r.2)).enterPipe s.serial)

/-- VECTOR_DISPATCH (12 R217): operand, the quire. The pipe takes the oldest entry of one core's queue, round-robin after the
core it served last; its result then lands in time (R218). -/
def execVectorDispatch (s : State) : Host.Outcome State Fault Refusal :=
  let qid := s.argN 0
  let last := (s.quire qid).lastVec
  match [1, 2, 3, 4].find? fun k => (s.core (4 * qid + (last + k) % 4)).vq != [] with
  | none => .next s
  | some k =>
    let n := (last + k) % 4
    match (s.core (4 * qid + n)).vq with
    | [] => .next s
    | (sid, out) :: rest =>
      let s := (s.onCore (4 * qid + n) fun c => { c with vq := rest }).onQuire qid fun q => { q with lastVec := n }
      .next (s.onStrand sid fun t =>
        { t with out := t.out.map fun o =>
            if o.id = out then
              match o.src with
              | .queued ws fl => { o with src := .ready ws fl }
              | _ => o
            else o })

/-! ## Lanes (12 R220 to R222) -/

/-- `n` lanes of `w` bits with the values that `f` gives, as one number, and the sum of their flags. -/
def lanesNat (w : Nat) (f : Nat → Nat × Flags) : Nat → Nat × Flags
  | 0 => (0, Flags.none)
  | n + 1 =>
    let r := lanesNat w f n
    let v := f n
    (r.1 + 2 ^ (w * n) * (v.1 % 2 ^ w), r.2.add v.2)

/-- A vector register of `2048 / w` lanes: active lanes receive their result, inactive ones keep their value, or are zero with
z (03 R49, 12 R221). -/
def maskedLanes (w : Nat) (x : Arch) (d : BitVec 5) (vm : BitVec 3) (z m : Bool) (f : Nat → Nat × Flags) :
    BitVec 2048 × Flags :=
  let old := (x.readV d).toNat
  let r := lanesNat w (fun i =>
    if laneActive x vm m i then f i else (if z then 0 else old / 2 ^ (w * i), Flags.none)) (2048 / w)
  (BitVec.ofNat 2048 r.1, r.2)

/-- The result lane that a 32-bit function gives. -/
def lane32Of (r : BitVec 32 × Flags) : Nat × Flags := (r.1.toNat, r.2)

/-- A 64-lane form over lanes of va and vb, given FRM (12 R221). -/
def lanes2 (d a b : BitVec 5) (vm : BitVec 3) (z m : Bool) (f : Nat → BitVec 32 → BitVec 32 → BitVec 32 × Flags)
    (s : State) : Host.Outcome State Fault Refusal :=
  vectorOp (maskReads vm m ++ [.v a, .v b, .v d]) [.v d] (fun x =>
    let r := maskedLanes 32 x d vm z m fun i =>
      lane32Of (f (x.frm.toNat % 8) (lane32 (x.readV a) i) (lane32 (x.readV b) i))
    (.v d r.1, r.2)) s

/-- A 64-lane form over lanes of va, given FRM. -/
def lanes1 (d a : BitVec 5) (vm : BitVec 3) (z m : Bool) (f : Nat → BitVec 32 → BitVec 32 × Flags) (s : State) :
    Host.Outcome State Fault Refusal :=
  vectorOp (maskReads vm m ++ [.v a, .v d]) [.v d] (fun x =>
    let r := maskedLanes 32 x d vm z m fun i => lane32Of (f (x.frm.toNat % 8) (lane32 (x.readV a) i))
    (.v d r.1, r.2)) s

/-- A fused form: vd is the addend too (12 R224). -/
def lanesFma (np nc : Bool) (d a b : BitVec 5) (vm : BitVec 3) (z m : Bool) (s : State) :
    Host.Outcome State Fault Refusal :=
  vectorOp (maskReads vm m ++ [.v d, .v a, .v b]) [.v d] (fun x =>
    let r := maskedLanes 32 x d vm z m fun i =>
      lane32Of (fFma (x.frm.toNat % 8) np nc (lane32 (x.readV a) i) (lane32 (x.readV b) i) (lane32 (x.readV d) i))
    (.v d r.1, r.2)) s

/-- A compare: a mask of 64 bits with zeros above (12 R222). -/
def lanesCmp (d a b : BitVec 5) (vm : BitVec 3) (z m : Bool) (f : BitVec 32 → BitVec 32 → Bool × Flags) (s : State) :
    Host.Outcome State Fault Refusal :=
  vectorOp (maskReads vm m ++ [.v a, .v b, .v d]) [.v d] (fun x =>
    let r := lanesNat 1 (fun i =>
      if laneActive x vm m i then
        let c := f (lane32 (x.readV a) i) (lane32 (x.readV b) i)
        (if c.1 then 1 else 0, c.2)
      else (if (x.readV d).getLsbD i && !z then 1 else 0, Flags.none)) 64
    (.v d (BitVec.ofNat 2048 r.1), r.2)) s

/-- The tree of 11 R209 over 2^n values: neighbours are joined, level by level. -/
def reduceTree (f : BitVec 32 → BitVec 32 → BitVec 32 × Flags) (x : Nat → BitVec 32) : Nat → Nat → BitVec 32 × Flags
  | 0, i => (x i, Flags.none)
  | n + 1, i =>
    let l := reduceTree f x n (2 * i)
    let r := reduceTree f x n (2 * i + 1)
    let s := f l.1 r.1
    (s.1, (l.2.add r.2).add s.2)

/-- A reduction: lane 0 receives the result and the other lanes 0; an inactive lane enters as `unit` (12 R229). -/
def reduce (d a : BitVec 5) (vm : BitVec 3) (m : Bool) (unit : BitVec 32)
    (f : BitVec 32 → BitVec 32 → BitVec 32 × Flags) (s : State) : Host.Outcome State Fault Refusal :=
  vectorOp (maskReads vm m ++ [.v a, .v d]) [.v d] (fun x =>
    let r := reduceTree f (fun i => if laneActive x vm m i then lane32 (x.readV a) i else unit) 6 0
    (.v d (r.1.setWidth 2048), r.2)) s

/-- A result without flags. -/
def quiet (x : BitVec 32) : BitVec 32 × Flags := (x, Flags.none)

/-- A lane function that keeps infinities and makes the canonical NaN of a NaN, NV for a signalling one (12 R227). -/
def finiteOr (f : Bool → Nat → Int → BitVec 32 × Flags) (x : BitVec 32) : BitVec 32 × Flags :=
  match f32 x with
  | .nan => (nan32, nvIf (isSNaN32 x))
  | .inf _ => (x, Flags.none)
  | .fin neg m e => f neg m e

/-! ## FP32 arithmetic and sign operations (12 R224, R225) -/

/-- vadd (12 R224). -/
def execVadd (d a b : BitVec 5) (vm : BitVec 3) (z m : Bool) (s : State) : Host.Outcome State Fault Refusal :=
  lanes2 d a b vm z m fAdd s

/-- vsub (12 R224). -/
def execVsub (d a b : BitVec 5) (vm : BitVec 3) (z m : Bool) (s : State) : Host.Outcome State Fault Refusal :=
  lanes2 d a b vm z m fSub s

/-- vmul (12 R224). -/
def execVmul (d a b : BitVec 5) (vm : BitVec 3) (z m : Bool) (s : State) : Host.Outcome State Fault Refusal :=
  lanes2 d a b vm z m fMul s

/-- vfma (12 R224). -/
def execVfma (d a b : BitVec 5) (vm : BitVec 3) (z m : Bool) (s : State) : Host.Outcome State Fault Refusal :=
  lanesFma false false d a b vm z m s

/-- vfms (12 R224). -/
def execVfms (d a b : BitVec 5) (vm : BitVec 3) (z m : Bool) (s : State) : Host.Outcome State Fault Refusal :=
  lanesFma false true d a b vm z m s

/-- vfnma (12 R224). -/
def execVfnma (d a b : BitVec 5) (vm : BitVec 3) (z m : Bool) (s : State) : Host.Outcome State Fault Refusal :=
  lanesFma true false d a b vm z m s

/-- vmin (12 R224). -/
def execVmin (d a b : BitVec 5) (vm : BitVec 3) (z m : Bool) (s : State) : Host.Outcome State Fault Refusal :=
  lanes2 d a b vm z m (fun _ => fMinMax false) s

/-- vmax (12 R224). -/
def execVmax (d a b : BitVec 5) (vm : BitVec 3) (z m : Bool) (s : State) : Host.Outcome State Fault Refusal :=
  lanes2 d a b vm z m (fun _ => fMinMax true) s

/-- A change of the sign bit; a NaN becomes the canonical one (12 R225). -/
def signOp (f : BitVec 32 → BitVec 32) (x : BitVec 32) : BitVec 32 × Flags :=
  if isNaN32 x then (nan32, nvIf (isSNaN32 x)) else (f x, Flags.none)

/-- vabs (12 R225). -/
def execVabs (d a : BitVec 5) (vm : BitVec 3) (z m : Bool) (s : State) : Host.Outcome State Fault Refusal :=
  lanes1 d a vm z m (fun _ => signOp (· &&& 0x7FFFFFFF)) s

/-- vneg (12 R225). -/
def execVneg (d a : BitVec 5) (vm : BitVec 3) (z m : Bool) (s : State) : Host.Outcome State Fault Refusal :=
  lanes1 d a vm z m (fun _ => signOp negBit) s

/-! ## Floating-point compares (12 R226) -/

/-- A compare of two FP32 words: what it gives when neither is a NaN and when one is, and whether any NaN raises NV. -/
def fCompare (f : Int → Int → Bool) (un anyNaN : Bool) (a b : BitVec 32) : Bool × Flags :=
  let zero (x : BitVec 32) : BitVec 32 := if x = 0x80000000 then 0 else x
  if isNaN32 a || isNaN32 b then (un, nvIf (anyNaN || isSNaN32 a || isSNaN32 b))
  else (f (order32 (zero a)) (order32 (zero b)), Flags.none)

/-- vcmp.eq (12 R226). -/
def execVcmpEq (d a b : BitVec 5) (vm : BitVec 3) (z m : Bool) (s : State) : Host.Outcome State Fault Refusal :=
  lanesCmp d a b vm z m (fCompare (fun x y => x == y) false false) s

/-- vcmp.lt (12 R226). -/
def execVcmpLt (d a b : BitVec 5) (vm : BitVec 3) (z m : Bool) (s : State) : Host.Outcome State Fault Refusal :=
  lanesCmp d a b vm z m (fCompare (fun x y => decide (x < y)) false true) s

/-- vcmp.le (12 R226). -/
def execVcmpLe (d a b : BitVec 5) (vm : BitVec 3) (z m : Bool) (s : State) : Host.Outcome State Fault Refusal :=
  lanesCmp d a b vm z m (fCompare (fun x y => decide (x ≤ y)) false true) s

/-- vcmp.un (12 R226). -/
def execVcmpUn (d a b : BitVec 5) (vm : BitVec 3) (z m : Bool) (s : State) : Host.Outcome State Fault Refusal :=
  lanesCmp d a b vm z m (fCompare (fun _ _ => false) true false) s

/-! ## Seeds, exponents, scaling and rounding to integer (12 R227) -/

/-- An integer as an FP32 value under a mode. -/
def intToF32 (frm : Nat) (x : Int) : BitVec 32 × Flags := roundF32 frm (.fin (decide (x < 0)) x.natAbs 0)

/-- vgexp of one lane. -/
def expLane (x : BitVec 32) : BitVec 32 × Flags :=
  match f32 x with
  | .nan => (nan32, nvIf (isSNaN32 x))
  | .inf _ => (0x7F800000, Flags.none)
  | .fin _ m e => if m = 0 then (0xFF800000, Flags.dz1) else intToF32 0 ((Nat.log2 m : Int) + e)

/-- vscl of one lane. Beyond 2^1000 and below 2^-1000 the factor no longer matters to the rounding of a product. -/
def scaleLane (frm : Nat) (x n : BitVec 32) : BitVec 32 × Flags :=
  finiteOr (fun neg m e => roundF32 frm (.fin neg m (e + max (-1000) (min 1000 n.toInt)))) x

/-- A magnitude rounded to an integer under a mode, and whether that is inexact (11 R198). -/
def roundInt (frm : Nat) (neg : Bool) (m : Nat) (e : Int) : Nat × Bool :=
  if 0 ≤ e then (m * 2 ^ e.toNat, false)
  else
    let d := 2 ^ (-e).toNat
    (m / d + (if roundsUp (roundMode frm) neg (m / d % 2 == 1) (m % d) d then 1 else 0), m % d != 0)

/-- vrnd of one lane. -/
def rndLane (frm : Nat) (x : BitVec 32) : BitVec 32 × Flags :=
  finiteOr (fun neg m e =>
    let r := roundInt frm neg m e
    ((roundF32 0 (.fin neg r.1 0)).1, if r.2 then Flags.nx1 else Flags.none)) x

/-- vrcp.e (12 R227). -/
def execVrcpE (d a : BitVec 5) (vm : BitVec 3) (z m : Bool) (s : State) : Host.Outcome State Fault Refusal :=
  lanes1 d a vm z m (fun _ => seedRcp) s

/-- vrsq.e (12 R227). -/
def execVrsqE (d a : BitVec 5) (vm : BitVec 3) (z m : Bool) (s : State) : Host.Outcome State Fault Refusal :=
  lanes1 d a vm z m (fun _ => seedRsq) s

/-- vgexp (12 R227). -/
def execVgexp (d a : BitVec 5) (vm : BitVec 3) (z m : Bool) (s : State) : Host.Outcome State Fault Refusal :=
  lanes1 d a vm z m (fun _ => expLane) s

/-- vscl (12 R227). -/
def execVscl (d a b : BitVec 5) (vm : BitVec 3) (z m : Bool) (s : State) : Host.Outcome State Fault Refusal :=
  lanes2 d a b vm z m scaleLane s

/-- vrnd (12 R227). -/
def execVrnd (d a : BitVec 5) (vm : BitVec 3) (z m : Bool) (s : State) : Host.Outcome State Fault Refusal :=
  lanes1 d a vm z m rndLane s

/-! ## Lane select and reductions (12 R228, R229) -/

/-- vsel (12 R228). -/
def execVsel (d a b : BitVec 5) (vm : BitVec 3) (s : State) : Host.Outcome State Fault Refusal :=
  vectorOp (maskReads vm true ++ [.v a, .v b, .v d]) [.v d] (fun x =>
    let r := lanesNat 32 (fun i =>
      ((lane32 (x.readV (if laneActive x vm true i then a else b)) i).toNat, Flags.none)) 64
    (.v d (BitVec.ofNat 2048 r.1), Flags.none)) s

/-- vredsum (12 R229). -/
def execVredsum (d a : BitVec 5) (vm : BitVec 3) (m : Bool) (s : State) : Host.Outcome State Fault Refusal :=
  reduce d a vm m 0 (fAdd 0) s

/-- vredmax (12 R229). -/
def execVredmax (d a : BitVec 5) (vm : BitVec 3) (m : Bool) (s : State) : Host.Outcome State Fault Refusal :=
  reduce d a vm m 0xFF800000 (fMinMax true) s

/-- vredmin (12 R229). -/
def execVredmin (d a : BitVec 5) (vm : BitVec 3) (m : Bool) (s : State) : Host.Outcome State Fault Refusal :=
  reduce d a vm m 0x7F800000 (fMinMax false) s

/-- vredadd.i (12 R229). -/
def execVredaddI (d a : BitVec 5) (vm : BitVec 3) (m : Bool) (s : State) : Host.Outcome State Fault Refusal :=
  reduce d a vm m 0 (fun x y => quiet (x + y)) s

/-! ## Integer operations (12 R230) -/

/-- The amount of a lane shift: bits [4:0]. -/
def laneShift (b : BitVec 32) : Nat := b.toNat % 32

/-- vadd.i (12 R230). -/
def execVaddI (d a b : BitVec 5) (vm : BitVec 3) (z m : Bool) (s : State) : Host.Outcome State Fault Refusal :=
  lanes2 d a b vm z m (fun _ x y => quiet (x + y)) s

/-- vsub.i (12 R230). -/
def execVsubI (d a b : BitVec 5) (vm : BitVec 3) (z m : Bool) (s : State) : Host.Outcome State Fault Refusal :=
  lanes2 d a b vm z m (fun _ x y => quiet (x - y)) s

/-- vmul.i (12 R230). -/
def execVmulI (d a b : BitVec 5) (vm : BitVec 3) (z m : Bool) (s : State) : Host.Outcome State Fault Refusal :=
  lanes2 d a b vm z m (fun _ x y => quiet (x * y)) s

/-- vand (12 R230). -/
def execVand (d a b : BitVec 5) (vm : BitVec 3) (z m : Bool) (s : State) : Host.Outcome State Fault Refusal :=
  lanes2 d a b vm z m (fun _ x y => quiet (x &&& y)) s

/-- vor (12 R230). -/
def execVor (d a b : BitVec 5) (vm : BitVec 3) (z m : Bool) (s : State) : Host.Outcome State Fault Refusal :=
  lanes2 d a b vm z m (fun _ x y => quiet (x ||| y)) s

/-- vxor (12 R230). -/
def execVxor (d a b : BitVec 5) (vm : BitVec 3) (z m : Bool) (s : State) : Host.Outcome State Fault Refusal :=
  lanes2 d a b vm z m (fun _ x y => quiet (x ^^^ y)) s

/-- vshl (12 R230). -/
def execVshl (d a b : BitVec 5) (vm : BitVec 3) (z m : Bool) (s : State) : Host.Outcome State Fault Refusal :=
  lanes2 d a b vm z m (fun _ x y => quiet (x <<< laneShift y)) s

/-- vshr (12 R230). -/
def execVshr (d a b : BitVec 5) (vm : BitVec 3) (z m : Bool) (s : State) : Host.Outcome State Fault Refusal :=
  lanes2 d a b vm z m (fun _ x y => quiet (x >>> laneShift y)) s

/-- vsha (12 R230). -/
def execVsha (d a b : BitVec 5) (vm : BitVec 3) (z m : Bool) (s : State) : Host.Outcome State Fault Refusal :=
  lanes2 d a b vm z m (fun _ x y => quiet (x.sshiftRight (laneShift y))) s

/-- vmin.i (12 R230). -/
def execVminI (d a b : BitVec 5) (vm : BitVec 3) (z m : Bool) (s : State) : Host.Outcome State Fault Refusal :=
  lanes2 d a b vm z m (fun _ x y => quiet (if x.sle y then x else y)) s

/-- vmax.i (12 R230). -/
def execVmaxI (d a b : BitVec 5) (vm : BitVec 3) (z m : Bool) (s : State) : Host.Outcome State Fault Refusal :=
  lanes2 d a b vm z m (fun _ x y => quiet (if x.sle y then y else x)) s

/-- vcmp.ieq (12 R230). -/
def execVcmpIeq (d a b : BitVec 5) (vm : BitVec 3) (z m : Bool) (s : State) : Host.Outcome State Fault Refusal :=
  lanesCmp d a b vm z m (fun x y => (x == y, Flags.none)) s

/-- vcmp.ilt (12 R230). -/
def execVcmpIlt (d a b : BitVec 5) (vm : BitVec 3) (z m : Bool) (s : State) : Host.Outcome State Fault Refusal :=
  lanesCmp d a b vm z m (fun x y => (x.slt y, Flags.none)) s

/-- vcmp.ilo (12 R230). -/
def execVcmpIlo (d a b : BitVec 5) (vm : BitVec 3) (z m : Bool) (s : State) : Host.Outcome State Fault Refusal :=
  lanesCmp d a b vm z m (fun x y => (x.ult y, Flags.none)) s

/-- vperm (12 R230). -/
def execVperm (d a b : BitVec 5) (vm : BitVec 3) (z m : Bool) (s : State) : Host.Outcome State Fault Refusal :=
  vectorOp (maskReads vm m ++ [.v a, .v b, .v d]) [.v d] (fun x =>
    let r := maskedLanes 32 x d vm z m fun i =>
      lane32Of (quiet (lane32 (x.readV a) ((lane32 (x.readV b) i).toNat % 64)))
    (.v d r.1, r.2)) s

/-! ## Vector-scalar operations (12 R231) -/

/-- A form over lanes of va and a g-register, given FRM, all of va, the word of gb, and the lane. -/
def lanesG (reads : List RegName) (d : BitVec 5) (b : BitVec 6) (vm : BitVec 3) (z m : Bool)
    (f : Arch → Word → Nat → BitVec 32 × Flags) (s : State) : Host.Outcome State Fault Refusal :=
  vectorOp (maskReads vm m ++ reads) [.v d] (fun x =>
    let r := maskedLanes 32 x d vm z m fun i => lane32Of (f x (x.word b) i)
    (.v d r.1, r.2)) s

/-- vbc (12 R231). -/
def execVbc (d : BitVec 5) (b : BitVec 6) (vm : BitVec 3) (z m : Bool) (s : State) : Host.Outcome State Fault Refusal :=
  lanesG [.g b, .v d] d b vm z m (fun _ n _ => quiet (n.setWidth 32)) s

/-- vidx (12 R231). -/
def execVidx (d : BitVec 5) (b : BitVec 6) (vm : BitVec 3) (z m : Bool) (s : State) : Host.Outcome State Fault Refusal :=
  lanesG [.g b, .v d] d b vm z m (fun _ n i => quiet (BitVec.ofNat 32 i + n.setWidth 32)) s

/-- vadd.s (12 R231). -/
def execVaddS (d a : BitVec 5) (b : BitVec 6) (vm : BitVec 3) (z m : Bool) (s : State) : Host.Outcome State Fault Refusal :=
  lanesG [.v a, .g b, .v d] d b vm z m (fun x n i =>
    fAdd (x.frm.toNat % 8) (lane32 (x.readV a) i) (n.setWidth 32)) s

/-- vmul.s (12 R231). -/
def execVmulS (d a : BitVec 5) (b : BitVec 6) (vm : BitVec 3) (z m : Bool) (s : State) : Host.Outcome State Fault Refusal :=
  lanesG [.v a, .g b, .v d] d b vm z m (fun x n i =>
    fMul (x.frm.toNat % 8) (lane32 (x.readV a) i) (n.setWidth 32)) s

/-- vfma.s (12 R231). -/
def execVfmaS (d a : BitVec 5) (b : BitVec 6) (vm : BitVec 3) (z m : Bool) (s : State) : Host.Outcome State Fault Refusal :=
  lanesG [.v d, .v a, .g b] d b vm z m (fun x n i =>
    fFma (x.frm.toNat % 8) false false (lane32 (x.readV a) i) (n.setWidth 32) (lane32 (x.readV d) i)) s

/-- vslup (12 R231). -/
def execVslup (d a : BitVec 5) (b : BitVec 6) (vm : BitVec 3) (z m : Bool) (s : State) : Host.Outcome State Fault Refusal :=
  lanesG [.v a, .g b, .v d] d b vm z m (fun x n i =>
    quiet (if n.toNat ≤ i then lane32 (x.readV a) (i - n.toNat) else 0)) s

/-- vsldn (12 R231). -/
def execVsldn (d a : BitVec 5) (b : BitVec 6) (vm : BitVec 3) (z m : Bool) (s : State) : Host.Outcome State Fault Refusal :=
  lanesG [.v a, .g b, .v d] d b vm z m (fun x n i =>
    quiet (if i + n.toNat ≤ 63 then lane32 (x.readV a) (i + n.toNat) else 0)) s

/-! ## Element moves and mask counts (12 R232) -/

/-- A vector instruction with a g-register result in data form. -/
def toG (v : BitVec 5) (g : BitVec 6) (f : BitVec 2048 → Word) (s : State) : Host.Outcome State Fault Refusal :=
  vectorOp [.v v, .g g] [.g g] (fun x => (.g g (.data (f (x.readV v))), Flags.none)) s

/-- How many of the low `n` bits are one. -/
def onesBelow (x : BitVec 2048) : Nat → Nat
  | 0 => 0
  | n + 1 => onesBelow x n + (if x.getLsbD n then 1 else 0)

/-- vext (12 R232). -/
def execVext (v : BitVec 5) (g idx : BitVec 6) (s : State) : Host.Outcome State Fault Refusal :=
  toG v g (fun x => (lane32 x idx.toNat).setWidth 64) s

/-- vins (12 R232). -/
def execVins (v : BitVec 5) (g idx : BitVec 6) (s : State) : Host.Outcome State Fault Refusal :=
  vectorOp [.v v, .g g] [.v v] (fun x =>
    (.v v (setLane (x.readV v) 32 idx.toNat ((x.word g).toNat % 2 ^ 32)), Flags.none)) s

/-- mpopc (12 R232). -/
def execMpopc (v : BitVec 5) (g : BitVec 6) (s : State) : Host.Outcome State Fault Refusal :=
  toG v g (fun x => BitVec.ofNat 64 (onesBelow x 64)) s

/-- mfirst (12 R232). -/
def execMfirst (v : BitVec 5) (g : BitVec 6) (s : State) : Host.Outcome State Fault Refusal :=
  toG v g (fun x => BitVec.ofNat 64 (((List.range 64).find? fun i => x.getLsbD i).getD 64)) s

/-! ## Conversions (12 R233, R234) -/

/-- vcvt.f2i of one lane. -/
def toIntLane (frm : Nat) (x : BitVec 32) : BitVec 32 × Flags :=
  match f32 x with
  | .nan => (0, Flags.nv1)
  | .inf neg => (if neg then 0x80000000 else 0x7FFFFFFF, Flags.nv1)
  | .fin neg m e =>
    let r := roundInt frm neg m e
    if r.1 ≤ (if neg then 2 ^ 31 else 2 ^ 31 - 1) then
      (BitVec.ofInt 32 (signedOf neg r.1), if r.2 then Flags.nx1 else Flags.none)
    else (if neg then 0x80000000 else 0x7FFFFFFF, Flags.nv1)

/-- A narrowing of the lanes of va, then of vb, into 128 lanes of 16 bits (12 R234). -/
def narrowLanes (d a b : BitVec 5) (vm : BitVec 3) (z m : Bool) (f : Nat → BitVec 32 → BitVec 16 × Flags) (s : State) :
    Host.Outcome State Fault Refusal :=
  vectorOp (maskReads vm m ++ [.v a, .v b, .v d]) [.v d] (fun x =>
    let r := maskedLanes 16 x d vm z m fun j =>
      let y := f (x.frm.toNat % 8) (lane32 (x.readV (if j < 64 then a else b)) (j % 64))
      (y.1.toNat, y.2)
    (.v d r.1, r.2)) s

/-- A widening of the 16-bit lanes 0 to 63 of va (12 R234). -/
def widenLanes (d a : BitVec 5) (vm : BitVec 3) (z m : Bool) (f : BitVec 16 → BitVec 32) (s : State) :
    Host.Outcome State Fault Refusal :=
  vectorOp (maskReads vm m ++ [.v a, .v d]) [.v d] (fun x =>
    let r := maskedLanes 32 x d vm z m fun i => lane32Of (quiet (f (lane16 (x.readV a) i)))
    (.v d r.1, r.2)) s

/-- vcvt.i2f (12 R233). -/
def execVcvtI2f (d a : BitVec 5) (vm : BitVec 3) (z m : Bool) (s : State) : Host.Outcome State Fault Refusal :=
  lanes1 d a vm z m (fun frm x => intToF32 frm x.toInt) s

/-- vcvt.f2i (12 R233). -/
def execVcvtF2i (d a : BitVec 5) (vm : BitVec 3) (z m : Bool) (s : State) : Host.Outcome State Fault Refusal :=
  lanes1 d a vm z m toIntLane s

/-- vcvt.f2bf (12 R234). -/
def execVcvtF2bf (d a b : BitVec 5) (vm : BitVec 3) (z m : Bool) (s : State) : Host.Outcome State Fault Refusal :=
  narrowLanes d a b vm z m toBf16 s

/-- vcvt.bf2f (12 R234). -/
def execVcvtBf2f (d a : BitVec 5) (vm : BitVec 3) (z m : Bool) (s : State) : Host.Outcome State Fault Refusal :=
  widenLanes d a vm z m fromBf16 s

/-- vcvt.f2h (12 R234). -/
def execVcvtF2h (d a b : BitVec 5) (vm : BitVec 3) (z m : Bool) (s : State) : Host.Outcome State Fault Refusal :=
  narrowLanes d a b vm z m toFp16 s

/-- vcvt.h2f (12 R234). -/
def execVcvtH2f (d a : BitVec 5) (vm : BitVec 3) (z m : Bool) (s : State) : Host.Outcome State Fault Refusal :=
  widenLanes d a vm z m fromFp16 s

end Sys2Proof.Machine
end

