-- ==== Sys2Proof/Machine/Dispatch.lean ====
section
/-! DEFINITION. The dispatch: one arm for each constructor of Instr, one meaning for each arm. -/

namespace Sys2Proof.Machine

open Sys2Proof

/-- The effect of an instruction of the strand `s.cur`, or of an event with the operands `s.arg`. -/
def exec (i : Instr) (s : State) : Host.Outcome State Fault Refusal :=
  match i with
  | .add d a b => Sys2Proof.Machine.execAdd d a b s
  | .sub d a b => Sys2Proof.Machine.execSub d a b s
  | .mul d a b => Sys2Proof.Machine.execMul d a b s
  | .mulh d a b => Sys2Proof.Machine.execMulh d a b s
  | .mulhz d a b => Sys2Proof.Machine.execMulhz d a b s
  | .div d a b => Sys2Proof.Machine.execDiv d a b s
  | .divz d a b => Sys2Proof.Machine.execDivz d a b s
  | .rem d a b => Sys2Proof.Machine.execRem d a b s
  | .remz d a b => Sys2Proof.Machine.execRemz d a b s
  | .and d a b => Sys2Proof.Machine.execAnd d a b s
  | .or d a b => Sys2Proof.Machine.execOr d a b s
  | .xor d a b => Sys2Proof.Machine.execXor d a b s
  | .andn d a b => Sys2Proof.Machine.execAndn d a b s
  | .shl d a b => Sys2Proof.Machine.execShl d a b s
  | .shr d a b => Sys2Proof.Machine.execShr d a b s
  | .sha d a b => Sys2Proof.Machine.execSha d a b s
  | .rol d a b => Sys2Proof.Machine.execRol d a b s
  | .min d a b => Sys2Proof.Machine.execMin d a b s
  | .max d a b => Sys2Proof.Machine.execMax d a b s
  | .minz d a b => Sys2Proof.Machine.execMinz d a b s
  | .maxz d a b => Sys2Proof.Machine.execMaxz d a b s
  | .clz d a => Sys2Proof.Machine.execClz d a s
  | .ctz d a => Sys2Proof.Machine.execCtz d a s
  | .popc d a => Sys2Proof.Machine.execPopc d a s
  | .mov d a => Sys2Proof.Machine.execMov d a s
  | .sel d a b => Sys2Proof.Machine.execSel d a b s
  | .addI d a imm => Sys2Proof.Machine.execAddI d a imm s
  | .andI d a imm => Sys2Proof.Machine.execAndI d a imm s
  | .orI d a imm => Sys2Proof.Machine.execOrI d a imm s
  | .xorI d a imm => Sys2Proof.Machine.execXorI d a imm s
  | .shlI d a n => Sys2Proof.Machine.execShlI d a n s
  | .shrI d a n => Sys2Proof.Machine.execShrI d a n s
  | .shaI d a n => Sys2Proof.Machine.execShaI d a n s
  | .rolI d a n => Sys2Proof.Machine.execRolI d a n s
  | .li d imm => Sys2Proof.Machine.execLi d imm s
  | .lis d imm => Sys2Proof.Machine.execLis d imm s
  | .setEq d a b => Sys2Proof.Machine.execSetEq d a b s
  | .setNe d a b => Sys2Proof.Machine.execSetNe d a b s
  | .setLt d a b => Sys2Proof.Machine.execSetLt d a b s
  | .setGe d a b => Sys2Proof.Machine.execSetGe d a b s
  | .setLo d a b => Sys2Proof.Machine.execSetLo d a b s
  | .setHs d a b => Sys2Proof.Machine.execSetHs d a b s
  | .cincr d a b => Sys2Proof.Machine.execCincr d a b s
  | .cset d a b => Sys2Proof.Machine.execCset d a b s
  | .cbnd d a b => Sys2Proof.Machine.execCbnd d a b s
  | .cbndr d a b => Sys2Proof.Machine.execCbndr d a b s
  | .cperm d a b => Sys2Proof.Machine.execCperm d a b s
  | .cseal d a b => Sys2Proof.Machine.execCseal d a b s
  | .cunseal d a b => Sys2Proof.Machine.execCunseal d a b s
  | .cbase d a => Sys2Proof.Machine.execCbase d a s
  | .clen d a => Sys2Proof.Machine.execClen d a s
  | .cperms d a => Sys2Proof.Machine.execCperms d a s
  | .ctag d a => Sys2Proof.Machine.execCtag d a s
  | .cclr d a => Sys2Proof.Machine.execCclr d a s
  | .ceq d a b => Sys2Proof.Machine.execCeq d a b s
  | .csub d a b => Sys2Proof.Machine.execCsub d a b s
  | .cincrI d a imm => Sys2Proof.Machine.execCincrI d a imm s
  | .bEq a b off => Sys2Proof.Machine.execBEq a b off s
  | .bNe a b off => Sys2Proof.Machine.execBNe a b off s
  | .bLt a b off => Sys2Proof.Machine.execBLt a b off s
  | .bGe a b off => Sys2Proof.Machine.execBGe a b off s
  | .bLo a b off => Sys2Proof.Machine.execBLo a b off s
  | .bHs a b off => Sys2Proof.Machine.execBHs a b off s
  | .jmp off => Sys2Proof.Machine.execJmp off s
  | .call off => Sys2Proof.Machine.execCall off s
  | .jr a => Sys2Proof.Machine.execJr a s
  | .callr a => Sys2Proof.Machine.execCallr a s
  | .rptConst len d a b cnt => Sys2Proof.Machine.execRptConst len d a b cnt s
  | .rptReg len d a b g => Sys2Proof.Machine.execRptReg len d a b g s
  | .ldB g a off => Sys2Proof.Machine.execLdB g a off s
  | .ldBz g a off => Sys2Proof.Machine.execLdBz g a off s
  | .ldH g a off => Sys2Proof.Machine.execLdH g a off s
  | .ldHz g a off => Sys2Proof.Machine.execLdHz g a off s
  | .ldW g a off => Sys2Proof.Machine.execLdW g a off s
  | .ldWz g a off => Sys2Proof.Machine.execLdWz g a off s
  | .ldD g a off => Sys2Proof.Machine.execLdD g a off s
  | .ldQ g a off => Sys2Proof.Machine.execLdQ g a off s
  | .stB g a off => Sys2Proof.Machine.execStB g a off s
  | .stH g a off => Sys2Proof.Machine.execStH g a off s
  | .stW g a off => Sys2Proof.Machine.execStW g a off s
  | .stD g a off => Sys2Proof.Machine.execStD g a off s
  | .stQ g a off => Sys2Proof.Machine.execStQ g a off s
  | .stc g a off => Sys2Proof.Machine.execStc g a off s
  | .vld v a vm z m => Sys2Proof.Machine.execVld v a vm z m s
  | .vst v a vm m => Sys2Proof.Machine.execVst v a vm m s
  | .vldS v a b vm z m => Sys2Proof.Machine.execVldS v a b vm z m s
  | .vstS v a b vm m => Sys2Proof.Machine.execVstS v a b vm m s
  | .vldX v a b vm z m => Sys2Proof.Machine.execVldX v a b vm z m s
  | .vstX v a b vm m => Sys2Proof.Machine.execVstX v a b vm m s
  | .vldB v a vm z m => Sys2Proof.Machine.execVldB v a vm z m s
  | .vldH v a vm z m => Sys2Proof.Machine.execVldH v a vm z m s
  | .vstH v a vm m => Sys2Proof.Machine.execVstH v a vm m s
  | .vldHs v a b vm z m => Sys2Proof.Machine.execVldHs v a b vm z m s
  | .vstHs v a b vm m => Sys2Proof.Machine.execVstHs v a b vm m s
  | .vldHx v a b vm z m => Sys2Proof.Machine.execVldHx v a b vm z m s
  | .vstHx v a b vm m => Sys2Proof.Machine.execVstHx v a b vm m s
  | .pref a off => Sys2Proof.Machine.execPref a off s
  | .cln a off => Sys2Proof.Machine.execCln a off s
  | .inv a off => Sys2Proof.Machine.execInv a off s
  | .fence eng scope => Sys2Proof.Machine.execFence eng scope s
  | .trap x => Sys2Proof.Machine.execTrap x s
  | .idle x => Sys2Proof.Machine.execIdle x s
  | .ctxSave x => Sys2Proof.Machine.execCtxSave x s
  | .ctxLoad x => Sys2Proof.Machine.execCtxLoad x s
  | .gquit x => Sys2Proof.Machine.execGquit x s
  | .gkill x => Sys2Proof.Machine.execGkill x s
  | .gpre x => Sys2Proof.Machine.execGpre x s
  | .csrr d csr => Sys2Proof.Machine.execCsrr d csr s
  | .csrw a csr => Sys2Proof.Machine.execCsrw a csr s
  | .csrx d a csr => Sys2Proof.Machine.execCsrx d a csr s
  | .sfqRd x y zr => Sys2Proof.Machine.execSfqRd x y zr s
  | .plbInv x y => Sys2Proof.Machine.execPlbInv x y s
  | .mapInv x y => Sys2Proof.Machine.execMapInv x y s
  | .amoAdd d a b w => Sys2Proof.Machine.execAmoAdd d a b w s
  | .amoAnd d a b w => Sys2Proof.Machine.execAmoAnd d a b w s
  | .amoOr d a b w => Sys2Proof.Machine.execAmoOr d a b w s
  | .amoXor d a b w => Sys2Proof.Machine.execAmoXor d a b w s
  | .amoMin d a b w => Sys2Proof.Machine.execAmoMin d a b w s
  | .amoMax d a b w => Sys2Proof.Machine.execAmoMax d a b w s
  | .amoMinz d a b w => Sys2Proof.Machine.execAmoMinz d a b w s
  | .amoMaxz d a b w => Sys2Proof.Machine.execAmoMaxz d a b w s
  | .amoSwap d a b w => Sys2Proof.Machine.execAmoSwap d a b w s
  | .amoCas d a b w => Sys2Proof.Machine.execAmoCas d a b w s
  | .amoFaddW d a b => Sys2Proof.Machine.execAmoFaddW d a b s
  | .amoTopkD d a b => Sys2Proof.Machine.execAmoTopkD d a b s
  | .bnCnt d a => Sys2Proof.Machine.execBnCnt d a s
  | .bnAnti d a => Sys2Proof.Machine.execBnAnti d a s
  | .bnSpread a b => Sys2Proof.Machine.execBnSpread a b s
  | .bnArr a b => Sys2Proof.Machine.execBnArr a b s
  | .bnWait a b => Sys2Proof.Machine.execBnWait a b s
  | .bnCfg a b => Sys2Proof.Machine.execBnCfg a b s
  | .bnClr a b => Sys2Proof.Machine.execBnClr a b s
  | .bnRd d a => Sys2Proof.Machine.execBnRd d a s
  | .vadd d a b vm z m => Sys2Proof.Machine.execVadd d a b vm z m s
  | .vsub d a b vm z m => Sys2Proof.Machine.execVsub d a b vm z m s
  | .vmul d a b vm z m => Sys2Proof.Machine.execVmul d a b vm z m s
  | .vfma d a b vm z m => Sys2Proof.Machine.execVfma d a b vm z m s
  | .vfms d a b vm z m => Sys2Proof.Machine.execVfms d a b vm z m s
  | .vfnma d a b vm z m => Sys2Proof.Machine.execVfnma d a b vm z m s
  | .vmin d a b vm z m => Sys2Proof.Machine.execVmin d a b vm z m s
  | .vmax d a b vm z m => Sys2Proof.Machine.execVmax d a b vm z m s
  | .vabs d a vm z m => Sys2Proof.Machine.execVabs d a vm z m s
  | .vneg d a vm z m => Sys2Proof.Machine.execVneg d a vm z m s
  | .vcmpEq d a b vm z m => Sys2Proof.Machine.execVcmpEq d a b vm z m s
  | .vcmpLt d a b vm z m => Sys2Proof.Machine.execVcmpLt d a b vm z m s
  | .vcmpLe d a b vm z m => Sys2Proof.Machine.execVcmpLe d a b vm z m s
  | .vcmpUn d a b vm z m => Sys2Proof.Machine.execVcmpUn d a b vm z m s
  | .vrcpE d a vm z m => Sys2Proof.Machine.execVrcpE d a vm z m s
  | .vrsqE d a vm z m => Sys2Proof.Machine.execVrsqE d a vm z m s
  | .vgexp d a vm z m => Sys2Proof.Machine.execVgexp d a vm z m s
  | .vscl d a b vm z m => Sys2Proof.Machine.execVscl d a b vm z m s
  | .vrnd d a vm z m => Sys2Proof.Machine.execVrnd d a vm z m s
  | .vsel d a b vm => Sys2Proof.Machine.execVsel d a b vm s
  | .vredsum d a vm m => Sys2Proof.Machine.execVredsum d a vm m s
  | .vredmax d a vm m => Sys2Proof.Machine.execVredmax d a vm m s
  | .vredmin d a vm m => Sys2Proof.Machine.execVredmin d a vm m s
  | .vaddI d a b vm z m => Sys2Proof.Machine.execVaddI d a b vm z m s
  | .vsubI d a b vm z m => Sys2Proof.Machine.execVsubI d a b vm z m s
  | .vmulI d a b vm z m => Sys2Proof.Machine.execVmulI d a b vm z m s
  | .vand d a b vm z m => Sys2Proof.Machine.execVand d a b vm z m s
  | .vor d a b vm z m => Sys2Proof.Machine.execVor d a b vm z m s
  | .vxor d a b vm z m => Sys2Proof.Machine.execVxor d a b vm z m s
  | .vshl d a b vm z m => Sys2Proof.Machine.execVshl d a b vm z m s
  | .vshr d a b vm z m => Sys2Proof.Machine.execVshr d a b vm z m s
  | .vsha d a b vm z m => Sys2Proof.Machine.execVsha d a b vm z m s
  | .vminI d a b vm z m => Sys2Proof.Machine.execVminI d a b vm z m s
  | .vmaxI d a b vm z m => Sys2Proof.Machine.execVmaxI d a b vm z m s
  | .vcmpIeq d a b vm z m => Sys2Proof.Machine.execVcmpIeq d a b vm z m s
  | .vcmpIlt d a b vm z m => Sys2Proof.Machine.execVcmpIlt d a b vm z m s
  | .vcmpIlo d a b vm z m => Sys2Proof.Machine.execVcmpIlo d a b vm z m s
  | .vredaddI d a vm m => Sys2Proof.Machine.execVredaddI d a vm m s
  | .vperm d a b vm z m => Sys2Proof.Machine.execVperm d a b vm z m s
  | .vbc d b vm z m => Sys2Proof.Machine.execVbc d b vm z m s
  | .vaddS d a b vm z m => Sys2Proof.Machine.execVaddS d a b vm z m s
  | .vmulS d a b vm z m => Sys2Proof.Machine.execVmulS d a b vm z m s
  | .vfmaS d a b vm z m => Sys2Proof.Machine.execVfmaS d a b vm z m s
  | .vslup d a b vm z m => Sys2Proof.Machine.execVslup d a b vm z m s
  | .vsldn d a b vm z m => Sys2Proof.Machine.execVsldn d a b vm z m s
  | .vidx d b vm z m => Sys2Proof.Machine.execVidx d b vm z m s
  | .vext v g idx => Sys2Proof.Machine.execVext v g idx s
  | .vins v g idx => Sys2Proof.Machine.execVins v g idx s
  | .mpopc v g => Sys2Proof.Machine.execMpopc v g s
  | .mfirst v g => Sys2Proof.Machine.execMfirst v g s
  | .vcvtI2f d a vm z m => Sys2Proof.Machine.execVcvtI2f d a vm z m s
  | .vcvtF2i d a vm z m => Sys2Proof.Machine.execVcvtF2i d a vm z m s
  | .vcvtF2bf d a b vm z m => Sys2Proof.Machine.execVcvtF2bf d a b vm z m s
  | .vcvtBf2f d a vm z m => Sys2Proof.Machine.execVcvtBf2f d a vm z m s
  | .vcvtF2h d a b vm z m => Sys2Proof.Machine.execVcvtF2h d a b vm z m s
  | .vcvtH2f d a vm z m => Sys2Proof.Machine.execVcvtH2f d a vm z m s
  | .mmaT8 acc a b ge => Sys2Proof.Machine.execMmaT8 acc a b ge s
  | .mmaT6 acc a b ge => Sys2Proof.Machine.execMmaT6 acc a b ge s
  | .mmaI8 acc a b ge => Sys2Proof.Machine.execMmaI8 acc a b ge s
  | .mmaBf acc a b ge => Sys2Proof.Machine.execMmaBf acc a b ge s
  | .mmaH acc a b ge => Sys2Proof.Machine.execMmaH acc a b ge s
  | .mzero acc => Sys2Proof.Machine.execMzero acc s
  | .mld acc a ge => Sys2Proof.Machine.execMld acc a ge s
  | .mst acc a ge => Sys2Proof.Machine.execMst acc a ge s
  | .mwaitSus b => Sys2Proof.Machine.execMwaitSus b s
  | .mwaitRes b => Sys2Proof.Machine.execMwaitRes b s
  | .cdec x y => Sys2Proof.Machine.execCdec x y s
  | .cpush x y => Sys2Proof.Machine.execCpush x y s
  | .carm x y => Sys2Proof.Machine.execCarm x y s
  | .csteal x y => Sys2Proof.Machine.execCsteal x y s
  | .cpT x y zr => Sys2Proof.Machine.execCpT x y zr s
  | .cpB x y zr => Sys2Proof.Machine.execCpB x y zr s
  | .cpG x y zr => Sys2Proof.Machine.execCpG x y zr s
  | .cpWait x => Sys2Proof.Machine.execCpWait x s
  | .cpSt x y => Sys2Proof.Machine.execCpSt x y s
  | .sbInit x y => Sys2Proof.Machine.execSbInit x y s
  | .sbArr x => Sys2Proof.Machine.execSbArr x s
  | .sbExp x y => Sys2Proof.Machine.execSbExp x y s
  | .sbTest x y zr => Sys2Proof.Machine.execSbTest x y zr s
  | .sbWait x y => Sys2Proof.Machine.execSbWait x y s
  | .sbBrk x y => Sys2Proof.Machine.execSbBrk x y s
  | .get x y zr => Sys2Proof.Machine.execGet x y zr s
  | .put x y zr => Sys2Proof.Machine.execPut x y zr s
  | .getW x y => Sys2Proof.Machine.execGetW x y s
  | .putW x y => Sys2Proof.Machine.execPutW x y s
  | .mig x y zr => Sys2Proof.Machine.execMig x y zr s
  | .ramoAdd d a b w => Sys2Proof.Machine.execRamoAdd d a b w s
  | .ramoAnd d a b w => Sys2Proof.Machine.execRamoAnd d a b w s
  | .ramoOr d a b w => Sys2Proof.Machine.execRamoOr d a b w s
  | .ramoXor d a b w => Sys2Proof.Machine.execRamoXor d a b w s
  | .ramoMin d a b w => Sys2Proof.Machine.execRamoMin d a b w s
  | .ramoMax d a b w => Sys2Proof.Machine.execRamoMax d a b w s
  | .ramoMinz d a b w => Sys2Proof.Machine.execRamoMinz d a b w s
  | .ramoMaxz d a b w => Sys2Proof.Machine.execRamoMaxz d a b w s
  | .ramoSwap d a b w => Sys2Proof.Machine.execRamoSwap d a b w s
  | .ramoCas d a b w => Sys2Proof.Machine.execRamoCas d a b w s
  | .clkRd x y => Sys2Proof.Machine.execClkRd x y s
  | .stStamp x y zr => Sys2Proof.Machine.execStStamp x y zr s
  | .ldAsof x y zr => Sys2Proof.Machine.execLdAsof x y zr s
  | .clkWt x => Sys2Proof.Machine.execClkWt x s
  | .stpRd x y => Sys2Proof.Machine.execStpRd x y s
  | .tryEach x y zr => Sys2Proof.Machine.execTryEach x y zr s
  | .cutto x => Sys2Proof.Machine.execCutto x s
  | .cpmark x => Sys2Proof.Machine.execCpmark x s
  | .tsteal x y => Sys2Proof.Machine.execTsteal x y s
  | .nop => Sys2Proof.Machine.execNop s
  | .cdone => Sys2Proof.Machine.execCdone s
  | .drainst => Sys2Proof.Machine.execDrainst s
  | .cend => Sys2Proof.Machine.execCend s
  | .sret => Sys2Proof.Machine.execSret s
  | .ebrk => Sys2Proof.Machine.execEbrk s
  | .sfqPop => Sys2Proof.Machine.execSfqPop s
  | .mwait => Sys2Proof.Machine.execMwait s
  | .gwait => Sys2Proof.Machine.execGwait s
  | .fail => Sys2Proof.Machine.execFail s
  | .cut => Sys2Proof.Machine.execCut s
  | .chunkCommit => Sys2Proof.Machine.execChunkCommit s
  | .chunkLimit => Sys2Proof.Machine.execChunkLimit s
  | .lineLimit => Sys2Proof.Machine.execLineLimit s
  | .pairMismatch => Sys2Proof.Machine.execPairMismatch s
  | .resultReturn => Sys2Proof.Machine.execResultReturn s
  | .icacheFill => Sys2Proof.Machine.execIcacheFill s
  | .trapEntry => Sys2Proof.Machine.execTrapEntry s
  | .machineCheck => Sys2Proof.Machine.execMachineCheck s
  | .translationLookup => Sys2Proof.Machine.execTranslationLookup s
  | .plbFill => Sys2Proof.Machine.execPlbFill s
  | .pgfltAnswer => Sys2Proof.Machine.execPgfltAnswer s
  | .l1Fill => Sys2Proof.Machine.execL1Fill s
  | .siblingAccess => Sys2Proof.Machine.execSiblingAccess s
  | .amoExecute => Sys2Proof.Machine.execAmoExecute s
  | .vectorDispatch => Sys2Proof.Machine.execVectorDispatch s
  | .matrixBlock => Sys2Proof.Machine.execMatrixBlock s
  | .accTransfer => Sys2Proof.Machine.execAccTransfer s
  | .balancer => Sys2Proof.Machine.execBalancer s
  | .counterCell => Sys2Proof.Machine.execCounterCell s
  | .barrierTree => Sys2Proof.Machine.execBarrierTree s
  | .releaseMulticast => Sys2Proof.Machine.execReleaseMulticast s
  | .dieQueueSpill => Sys2Proof.Machine.execDieQueueSpill s
  | .dieQueueClaim => Sys2Proof.Machine.execDieQueueClaim s
  | .cdecApply => Sys2Proof.Machine.execCdecApply s
  | .dequePush => Sys2Proof.Machine.execDequePush s
  | .carmApply => Sys2Proof.Machine.execCarmApply s
  | .findWork => Sys2Proof.Machine.execFindWork s
  | .cstealTake => Sys2Proof.Machine.execCstealTake s
  | .copyAccept => Sys2Proof.Machine.execCopyAccept s
  | .copyComplete => Sys2Proof.Machine.execCopyComplete s
  | .barrierBytes => Sys2Proof.Machine.execBarrierBytes s
  | .copyFault => Sys2Proof.Machine.execCopyFault s
  | .saveTransfer => Sys2Proof.Machine.execSaveTransfer s
  | .gangResume => Sys2Proof.Machine.execGangResume s
  | .quitMark => Sys2Proof.Machine.execQuitMark s
  | .remotePerform => Sys2Proof.Machine.execRemotePerform s
  | .remoteComplete => Sys2Proof.Machine.execRemoteComplete s
  | .remoteTimeout => Sys2Proof.Machine.execRemoteTimeout s
  | .migration => Sys2Proof.Machine.execMigration s
  | .dieFence => Sys2Proof.Machine.execDieFence s
  | .portLoss => Sys2Proof.Machine.execPortLoss s
  | .stampVersion => Sys2Proof.Machine.execStampVersion s
  | .stampRelease => Sys2Proof.Machine.execStampRelease s
  | .versionApply => Sys2Proof.Machine.execVersionApply s
  | .horizonCollect => Sys2Proof.Machine.execHorizonCollect s
  | .horizonUpdate => Sys2Proof.Machine.execHorizonUpdate s
  | .horizonExchange => Sys2Proof.Machine.execHorizonExchange s
  | .stampedRead => Sys2Proof.Machine.execStampedRead s
  | .clockDiscipline => Sys2Proof.Machine.execClockDiscipline s
  | .clockWaitExpiry => Sys2Proof.Machine.execClockWaitExpiry s
  | .idleTimeout => Sys2Proof.Machine.execIdleTimeout s
  | .ebrkRelease => Sys2Proof.Machine.execEbrkRelease s
  | .gangTimeout => Sys2Proof.Machine.execGangTimeout s
  | .gangEnd => Sys2Proof.Machine.execGangEnd s
  | .load => Sys2Proof.Machine.execLoad s
  | .mapPage => Sys2Proof.Machine.execMapPage s
  | .unmapPage => Sys2Proof.Machine.execUnmapPage s
  | .setRegion => Sys2Proof.Machine.execSetRegion s
  | .removeRegion => Sys2Proof.Machine.execRemoveRegion s
  | .setDomain => Sys2Proof.Machine.execSetDomain s
  | .setSender => Sys2Proof.Machine.execSetSender s
  | .registerPeer => Sys2Proof.Machine.execRegisterPeer s
  | .launch => Sys2Proof.Machine.execLaunch s
  | .launchDequeue => Sys2Proof.Machine.execLaunchDequeue s
  | .queryGangs => Sys2Proof.Machine.execQueryGangs s
  | .queryFeatures => Sys2Proof.Machine.execQueryFeatures s
  | .querySensors => Sys2Proof.Machine.execQuerySensors s
  | .queryLog => Sys2Proof.Machine.execQueryLog s
  | .queryIdentity => Sys2Proof.Machine.execQueryIdentity s
  | .queryGang => Sys2Proof.Machine.execQueryGang s
  | .kill => Sys2Proof.Machine.execKill s
  | .prepare => Sys2Proof.Machine.execPrepare s
  | .ready => Sys2Proof.Machine.execReady s
  | .go => Sys2Proof.Machine.execGo s
  | .abort => Sys2Proof.Machine.execAbort s
  | .late => Sys2Proof.Machine.execLate s
  | .launchDeadline => Sys2Proof.Machine.execLaunchDeadline s
  | .chipStart => Sys2Proof.Machine.execChipStart s
  | .powerGood => Sys2Proof.Machine.execPowerGood s
  | .thermalAlarm => Sys2Proof.Machine.execThermalAlarm s
  | .powerRemoval => Sys2Proof.Machine.execPowerRemoval s
  | .firmwareUpdate => Sys2Proof.Machine.execFirmwareUpdate s
  | .adminListWrite => Sys2Proof.Machine.execAdminListWrite s
  | .cpstkWrite => Sys2Proof.Machine.execCpstkWrite s
  | .trailWrite => Sys2Proof.Machine.execTrailWrite s
  | .tpcWrite => Sys2Proof.Machine.execTpcWrite s
  | .fflagsAccess => Sys2Proof.Machine.execFflagsAccess s
  | .csrWrite => Sys2Proof.Machine.execCsrWrite s
  | .unassignedWord => Sys2Proof.Machine.execUnassignedWord s
  | .chipLoss => Sys2Proof.Machine.execChipLoss s
  | .lossOfDiscipline => Sys2Proof.Machine.execLossOfDiscipline s
  | .conditionClears => Sys2Proof.Machine.execConditionClears s
  | .messageDropped => Sys2Proof.Machine.execMessageDropped s

end Sys2Proof.Machine
end

