-- ==== Sys2Proof/Machine/Step.lean ====
section
/-! DEFINITION. One step of the machine: a turn of the schedule (DESIGN CHOICE, assumption 1), in which a strand takes an issue slot or an
event of the part happens. -/

namespace Sys2Proof.Machine

open Sys2Proof

/-- A strand issues its next instruction if it is the one that the core's round-robin takes (01 R7, 05 R83, R88). One whose word is
not there sends for it and takes no slot (05 R89). -/
def State.issueStrand (s : State) (sid : Nat) : Host.Outcome State Fault Refusal :=
  if s.strandReady sid then
    match s.nextWord sid with
    | .stop (.wait w) => .next ((Stop.wait w).act { s with cur := sid }).settle
    | x =>
      if s.nextIssuer (coreOf sid) = some sid then
        match x with
        | .run p _ i => exec i { s.fetched sid with cur := sid, park := p }
        | .bad w => exec .unassignedWord { s.fetched sid with cur := sid, arg := { n := [w.toNat], bytes := [] } }
        | .stop e => .next (e.act { s.fetched sid with cur := sid }).settle
      else .next s
  else .next (s.unready sid)

/-- A turn: an issue slot, or an event. -/
def State.turn (s : State) : Turn → Host.Outcome State Fault Refusal
  | .issue sid => s.issueStrand sid
  | .event e a => if isEvent e then exec e { s with arg := a } else .next s

/-- One step: the next turn of the schedule in the state, or, when that is used up, of the schedule that nothing constrains,
with the time that passes. -/
def step (s : State) : Host.Outcome State Fault Refusal :=
  match s.turns with
  | t :: rest => { s with turns := rest, ticks := s.ticks + 1 }.turn t
  | [] => { s.pass (Config.elapsed s.ticks) with ticks := s.ticks + 1 }.turn (Config.turn s.ticks)

/-- The state in which strand 0 issues the word `w` next (DESIGN CHOICE, assumption 1): strand 0 holds a firing whose PCC is a capability
with X, its domain may fetch there, the word lies in the instruction cache line of the PC, and the schedule gives strand 0
the next turn. -/
def State.withFetchWord (s : State) (_nbits w : Nat) : State :=
  let s := s.onStrand 0 fun t =>
    { t with firing := some (t.firing.getD 0), asleep := false, wait := .none, trap := none, mchk := none, ganglost := none,
             preempt := false, engfault := [], halted := false,
             arch := { t.arch with pcc := capOver [permX] 0 0x100000 0, frame := none } }
  let s := s.onCore 0 fun c =>
    { c with quit := [], lastIssue := 3,
             plb := { base := 0, size := 20, domain := (s.strand 0).domain.toNat, r := false, w := false, x := true,
                      e := false } :: c.plb,
             icache := { line := 0, data := BitVec.ofNat 1024 (w % 2 ^ 32) } :: c.icache }
  { s with turns := [.issue 0] }

end Sys2Proof.Machine
end

