-- ==== Sys2Proof/Safety.lean ====
section
/-! DEFINITION. The words in which statements about runs are said: a safe run, which no fault and no refusal ends; when an
instruction may issue; what it leaves unchanged; and the canonical form of memory and tags. -/

namespace Sys2Proof.Machine

open Sys2Proof

/-! ## Safe runs -/

/-- One step answers a next state. -/
def Moves (s : State) : Prop := ∃ t, step s = .next t

/-- The run of `n` steps from a state answers a next state at every step. -/
def SafeFor : Nat → State → Prop
  | 0, _ => True
  | n + 1, s => ∃ t, step s = .next t ∧ SafeFor n t

/-- Memory and tags are in their canonical form. -/
def State.Sound (s : State) : Prop := Memory.wf s.mem = true ∧ Tags.wf s.tags = true

/-! ## When an instruction may issue (03 R51, 05 R83, R84) -/

/-- The strand that issues passes the shared steps of issue: the mode that a privileged instruction asks for; with the park marker, or
in an instruction that waits by itself, no register result is outstanding; none of the registers `reads` is; and the die's commit
token is free if the chunk needs it (17 R337). -/
structure MayIssue (priv waits : Bool) (reads : List RegName) (s : State) : Prop where
  mode : priv = true → s.me.smode = true
  marker : (s.park || waits) = true → (s.strand s.cur).busy = false
  settled : ∀ r ∈ reads, (s.strand s.cur).isOut r = false
  token : s.joinChunk.pinDue ≠ none

/-- The strand that issues passes those steps, and `u` is the state in which its instruction acts: its strand has joined or begun a
chunk, which holds the die's commit token if it must. -/
structure Issues (priv : Bool) (reads : List RegName) (s u : State) : Prop where
  mode : priv = true → s.me.smode = true
  marker : s.park = true → (s.strand s.cur).busy = false
  settled : ∀ r ∈ reads, (s.strand s.cur).isOut r = false
  joined : s.joinChunk.pinDue = some u

/-- A chunk terminator passes those steps; its group is not quit (07 R140); the chunks of its strand commit with no store fault, which
leaves `u` (02 R46 EndChunk); and no cause is pending that the strand takes at that boundary (07 R127, R131). -/
structure MayEnd (priv waits : Bool) (reads : List RegName) (s u : State) : Prop where
  mode : priv = true → s.me.smode = true
  marker : (s.park || waits) = true → (s.strand s.cur).busy = false
  settled : ∀ r ∈ reads, (s.strand s.cur).isOut r = false
  stays : s.quitMarked s.cur = false
  ended : s.endChunk = .ready u
  calm : u.causeDue u.cur = false

/-! ## What an instruction leaves unchanged -/

/-- The strand that issues has registers `a` and outstanding results `out`, waits for nothing, and its chunks have gone on; every
other strand and everything else of its own is as before. -/
structure Own (s t : State) (a : Arch) (out : List Out) : Prop where
  arch : t.arch s.cur = a
  out : (t.strand s.cur).out = out
  wait : (t.strand s.cur).wait = .none
  own : { t.strand s.cur with arch := s.me, out := (s.strand s.cur).out, wait := (s.strand s.cur).wait,
                              chunks := (s.strand s.cur).chunks, nextChunk := (s.strand s.cur).nextChunk } = s.strand s.cur
  others : ∀ k, k ≠ s.cur → t.strand k = s.strand k

/-- `t` differs from `s` only in the strand that issues, in its registers, its outstanding results and its chunks. Memory, tags,
the other strands, the cores, the quires, the dies, and everything else are as before; numbers for results may have been used up. -/
structure Ran (s t : State) (a : Arch) (out : List Out) : Prop extends Own s t a out where
  rest : { t with strands := s.strands, serial := s.serial } = s

/-- `t` differs from `s` only in that the strand that issues waits. -/
structure Waits (s t : State) (w : Wait) : Prop where
  wait : (t.strand s.cur).wait = w
  arch : ∀ n, (t.arch s.cur).readG n = s.me.readG n
  pc : (t.arch s.cur).pcc = s.me.pcc
  others : ∀ k, k ≠ s.cur → t.strand k = s.strand k
  rest : { t with strands := s.strands } = s

/-- The registers of a strand after a completed terminator, which counts itself (11 R215 event 8). -/
def Arch.ended (a : Arch) : Arch := a.advance.count 8 1

end Sys2Proof.Machine
end

