-- ==== Sys2Proof/Certificates/Slice0/Obligations.lean ====
section
/-! DEFINITION. The statements for the provers, each an `Obligations.<Name> : Prop`. The tables in `Sys2Proof.Claims` say in the
spec's arithmetic what the instructions of a family are to do. -/

open Sys2Proof Sys2Proof.Machine

namespace Sys2Proof.Claims

/-- A result that the strand which issues leaves outstanding (05 R83): of its chunk, by the registers of its mode; g0 is none of
them. -/
def left (s : State) (chunk : Nat) (dsts : List RegName) (src : Source) : Out :=
  { id := s.serial, chunk := chunk, smode := s.me.smode, dead := false, dsts := dsts.filter (· ≠ .g 0), src := src }

/-! ## Scalar integers (04) -/

/-- A truth value in data form. -/
def truth (b : Bool) : BitVec 64 := if b then 1 else 0

/-- The results of 04 R72 to R76 that are settled at once, in data form: destination and value. -/
def intValue (x : Arch) : Instr → Option (BitVec 6 × BitVec 64)
  | .add d a b => some (d, BitVec.ofNat 64 ((x.word a).toNat + (x.word b).toNat))
  | .sub d a b => some (d, BitVec.ofInt 64 ((x.word a).toInt - (x.word b).toInt))
  | .and d a b => some (d, x.word a &&& x.word b)
  | .or d a b => some (d, x.word a ||| x.word b)
  | .xor d a b => some (d, x.word a ^^^ x.word b)
  | .andn d a b => some (d, x.word a &&& ~~~(x.word b))
  | .shl d a b => some (d, BitVec.ofNat 64 ((x.word a).toNat * 2 ^ ((x.word b).toNat % 64)))
  | .shr d a b => some (d, BitVec.ofNat 64 ((x.word a).toNat / 2 ^ ((x.word b).toNat % 64)))
  | .sha d a b => some (d, BitVec.ofInt 64 ((x.word a).toInt / 2 ^ ((x.word b).toNat % 64)))
  | .rol d a b => some (d, (x.word a).rotateLeft ((x.word b).toNat % 64))
  | .min d a b => some (d, BitVec.ofInt 64 (min (x.word a).toInt (x.word b).toInt))
  | .max d a b => some (d, BitVec.ofInt 64 (max (x.word a).toInt (x.word b).toInt))
  | .minz d a b => some (d, BitVec.ofNat 64 (min (x.word a).toNat (x.word b).toNat))
  | .maxz d a b => some (d, BitVec.ofNat 64 (max (x.word a).toNat (x.word b).toNat))
  | .addI d a k => some (d, BitVec.ofInt 64 ((x.word a).toInt + k.toInt))
  | .andI d a k => some (d, x.word a &&& BitVec.ofInt 64 k.toInt)
  | .orI d a k => some (d, x.word a ||| BitVec.ofInt 64 k.toInt)
  | .xorI d a k => some (d, x.word a ^^^ BitVec.ofInt 64 k.toInt)
  | .shlI d a n => some (d, BitVec.ofNat 64 ((x.word a).toNat * 2 ^ n.toNat))
  | .shrI d a n => some (d, BitVec.ofNat 64 ((x.word a).toNat / 2 ^ n.toNat))
  | .shaI d a n => some (d, BitVec.ofInt 64 ((x.word a).toInt / 2 ^ n.toNat))
  | .rolI d a n => some (d, (x.word a).rotateLeft n.toNat)
  | .li d k => some (d, BitVec.ofInt 64 k.toInt)
  | .lis d k => some (d, BitVec.ofNat 64 ((x.word d).toNat * 2 ^ 19 + k.toNat))
  | .setEq d a b => some (d, truth (decide ((x.word a).toNat = (x.word b).toNat)))
  | .setNe d a b => some (d, truth (decide ((x.word a).toNat ≠ (x.word b).toNat)))
  | .setLt d a b => some (d, truth (decide ((x.word a).toInt < (x.word b).toInt)))
  | .setGe d a b => some (d, truth (decide ((x.word b).toInt ≤ (x.word a).toInt)))
  | .setLo d a b => some (d, truth (decide ((x.word a).toNat < (x.word b).toNat)))
  | .setHs d a b => some (d, truth (decide ((x.word b).toNat ≤ (x.word a).toNat)))
  | _ => none

/-- The products and quotients of 04 R72: destination, value, and whether the divider makes it. -/
def productValue (x : Arch) : Instr → Option (BitVec 6 × BitVec 64 × Bool)
  | .mul d a b => some (d, BitVec.ofNat 64 ((x.word a).toNat * (x.word b).toNat), false)
  | .mulh d a b => some (d, BitVec.ofInt 64 ((x.word a).toInt * (x.word b).toInt / 2 ^ 64), false)
  | .mulhz d a b => some (d, BitVec.ofNat 64 ((x.word a).toNat * (x.word b).toNat / 2 ^ 64), false)
  | .div d a b =>
    some (d, if x.word b = 0 then BitVec.allOnes 64 else BitVec.ofInt 64 ((x.word a).toInt.tdiv (x.word b).toInt), true)
  | .divz d a b =>
    some (d, if x.word b = 0 then BitVec.allOnes 64 else BitVec.ofNat 64 ((x.word a).toNat / (x.word b).toNat), true)
  | .rem d a b =>
    some (d, if x.word b = 0 then x.word a else BitVec.ofInt 64 ((x.word a).toInt.tmod (x.word b).toInt), true)
  | .remz d a b =>
    some (d, if x.word b = 0 then x.word a else BitVec.ofNat 64 ((x.word a).toNat % (x.word b).toNat), true)
  | _ => none

/-- The g-registers that an instruction of 04 reads, its destination among them (R64); sel reads it as data, in field order. -/
def scalarReads : Instr → List RegName
  | .add d a b | .sub d a b | .and d a b | .or d a b | .xor d a b | .andn d a b | .shl d a b | .shr d a b | .sha d a b
  | .rol d a b | .min d a b | .max d a b | .minz d a b | .maxz d a b | .setEq d a b | .setNe d a b | .setLt d a b
  | .setGe d a b | .setLo d a b | .setHs d a b | .mul d a b | .mulh d a b | .mulhz d a b | .div d a b | .divz d a b
  | .rem d a b | .remz d a b | .cincr d a b | .cset d a b | .cbnd d a b | .cbndr d a b | .cperm d a b
  | .cseal d a b | .cunseal d a b | .ceq d a b | .csub d a b => [.g a, .g b, .g d]
  | .addI d a _ | .andI d a _ | .orI d a _ | .xorI d a _ | .shlI d a _ | .shrI d a _ | .shaI d a _ | .rolI d a _
  | .clz d a | .ctz d a | .popc d a | .mov d a | .cbase d a | .clen d a | .cperms d a | .ctag d a | .cclr d a
  | .cincrI d a _ => [.g a, .g d]
  | .li d _ | .lis d _ => [.g d]
  | .sel d a b => [.g d, .g a, .g b]
  | _ => []

/-! ## Capabilities (04) -/

/-- The image that cincr, cset, cperm and cincr.i derive (04 R77, R81): destination, source, and its 128 bits. -/
def derivedBits (x : Arch) : Instr → Option (BitVec 6 × BitVec 6 × BitVec 128)
  | .cincr d a b =>
    some (d, a, (x.readG a).bits.extractLsb' 64 64 ++ BitVec.ofNat 64 ((x.word a).toNat + (x.word b).toNat))
  | .cset d a b => some (d, a, (x.readG a).bits.extractLsb' 64 64 ++ x.word b)
  | .cincrI d a k => some (d, a, (x.readG a).bits.extractLsb' 64 64 ++ BitVec.ofInt 64 ((x.word a).toInt + k.toInt))
  | .cperm d a b =>
    some (d, a, ((x.readG a).bits.extractLsb' 116 12 &&& (x.word b).extractLsb' 0 12) ++ (x.readG a).bits.extractLsb' 0 116)
  | _ => none

/-- What the inspection members of 04 R80 give in data form. -/
def inspected (x : Arch) : Instr → Option (BitVec 6 × BitVec 64)
  | .cbase d a => some (d, BitVec.ofInt 64 (x.readG a).base)
  | .clen d a => some (d, BitVec.ofInt 64 ((x.readG a).top - (x.readG a).base))
  | .cperms d a =>
    some (d, BitVec.ofNat 64 (((x.readG a).bits.extractLsb' 116 12).toNat + 4096 * ((x.readG a).bits.extractLsb' 112 4).toNat))
  | .ctag d a => some (d, truth (x.readG a).tag)
  | .ceq d a b => some (d, truth (decide ((x.readG a).bits = (x.readG b).bits ∧ (x.readG a).tag = (x.readG b).tag)))
  | .csub d a b => some (d, BitVec.ofInt 64 ((x.word a).toInt - (x.word b).toInt))
  | _ => none

/-- An exponent is the smallest that holds a length (04 R69). -/
def Smallest (e len : Nat) : Prop := len ≤ (2 ^ 21 - 1) * 2 ^ e ∧ ∀ k, k < e → (2 ^ 21 - 1) * 2 ^ k < len

/-- The multiple of 2^e at or below a number. -/
def roundDown (b e : Nat) : Nat := b / 2 ^ e * 2 ^ e

/-- The multiple of 2^e at or above a number. -/
def roundUp (t e : Nat) : Nat := (t + 2 ^ e - 1) / 2 ^ e * 2 ^ e

/-- A capability that grants nothing that another does not: no wider bounds, no further permission, the same object type. -/
structure Within (r c : Reg) : Prop where
  base : c.base ≤ r.base
  top : r.top ≤ c.top
  perms : ∀ k, k < 12 → r.perm k = true → c.perm k = true
  otype : r.otype = c.otype

/-- The instructions that derive a capability from a source: destination and source. -/
def derives : Instr → Option (BitVec 6 × BitVec 6)
  | .cincr d a _ | .cset d a _ | .cincrI d a _ | .cperm d a _ | .cbnd d a _ | .cbndr d a _ | .mov d a | .cclr d a => some (d, a)
  | _ => none

/-! ## Control (05) -/

/-- The conditional branches (05 R91): the sources, whether the condition holds, and the offset. -/
def branchOf (x : Arch) : Instr → Option (BitVec 6 × BitVec 6 × Bool × BitVec 10)
  | .bEq a b off => some (a, b, decide ((x.word a).toNat = (x.word b).toNat), off)
  | .bNe a b off => some (a, b, decide ((x.word a).toNat ≠ (x.word b).toNat), off)
  | .bLt a b off => some (a, b, decide ((x.word a).toInt < (x.word b).toInt), off)
  | .bGe a b off => some (a, b, decide ((x.word b).toInt ≤ (x.word a).toInt), off)
  | .bLo a b off => some (a, b, decide ((x.word a).toNat < (x.word b).toNat), off)
  | .bHs a b off => some (a, b, decide ((x.word b).toNat ≤ (x.word a).toNat), off)
  | _ => none

/-- The registers after a transfer within the PCC. -/
def goto (x : Arch) (t : BitVec 64) : Arch := { x with pcc := x.pcc.withCursor t }

/-- The registers with another PCC. -/
def within (x : Arch) (c : Reg) : Arch := { x with pcc := c }

/-- The return capability of call and callr (05 R92): the PCC at the next word, with tag 1. -/
def returnCap (x : Arch) : Reg := { bits := x.pcc.bits.extractLsb' 64 64 ++ (x.pcc.low + 4), tag := true }

/-- What `Ran` says, and the fetch of `n` words from `a` on has used their lines (05 R89, 08 R154): nothing of the cores changes but
which entries were used last. -/
structure RanFetching (s t : State) (a n : Nat) (x : Arch) (out : List Out) : Prop extends Own s t x out where
  used : t.cores = (s.touchWords s.cur a n).cores
  rest : { t with strands := s.strands, cores := s.cores, serial := s.serial } = s

/-! ## Loads and stores (06) -/

/-- The address of a scalar access (06 R115, R116): the base's data bits plus the scaled offset, modulo 2^64. -/
def scalarAddr (x : Arch) (a : BitVec 6) (n : Nat) (off : BitVec 10) : Nat :=
  (BitVec.ofInt 64 ((x.word a).toInt + n * off.toInt)).toNat

/-- How a scalar load widens what it reads (06 R115). -/
inductive Widening where
  | signed | unsigned | sector
  deriving DecidableEq, Repr

/-- A scalar load: destination, base, size, address, widening. -/
structure ScalarLoad where
  g : BitVec 6
  a : BitVec 6
  n : Nat
  addr : Nat
  kind : Widening

/-- The scalar loads (06 R115). -/
def scalarLoadOf (x : Arch) : Instr → Option ScalarLoad
  | .ldB g a off => some ⟨g, a, 1, scalarAddr x a 1 off, .signed⟩
  | .ldBz g a off => some ⟨g, a, 1, scalarAddr x a 1 off, .unsigned⟩
  | .ldH g a off => some ⟨g, a, 2, scalarAddr x a 2 off, .signed⟩
  | .ldHz g a off => some ⟨g, a, 2, scalarAddr x a 2 off, .unsigned⟩
  | .ldW g a off => some ⟨g, a, 4, scalarAddr x a 4 off, .signed⟩
  | .ldWz g a off => some ⟨g, a, 4, scalarAddr x a 4 off, .unsigned⟩
  | .ldD g a off => some ⟨g, a, 8, scalarAddr x a 8 off, .unsigned⟩
  | .ldQ g a off => some ⟨g, a, 16, scalarAddr x a 16 off, .sector⟩
  | _ => none

/-- A scalar store: value register, base, size, address, what it demands, value and tag. -/
structure ScalarStore where
  g : BitVec 6
  a : BitVec 6
  n : Nat
  addr : Nat
  demand : Demand
  value : BitVec 128
  tag : Bool

/-- What stc demands (06 R116): ST and STC, and for a tagged register without GLOBAL the own scratchpad. -/
def stcDemand (v : Reg) : Demand :=
  { perms := [permST, permSTC], align := true, wide := false, store := true, rights := [.w],
    localOnly := v.tag && !v.perm permGLOBAL }

/-- The scalar stores (06 R116). -/
def scalarStoreOf (x : Arch) : Instr → Option ScalarStore
  | .stB g a off => some ⟨g, a, 1, scalarAddr x a 1 off, storeDemand false, (x.readG g).bits, false⟩
  | .stH g a off => some ⟨g, a, 2, scalarAddr x a 2 off, storeDemand false, (x.readG g).bits, false⟩
  | .stW g a off => some ⟨g, a, 4, scalarAddr x a 4 off, storeDemand true, (x.readG g).bits, false⟩
  | .stD g a off => some ⟨g, a, 8, scalarAddr x a 8 off, storeDemand true, (x.readG g).bits, false⟩
  | .stQ g a off => some ⟨g, a, 16, scalarAddr x a 16 off, storeDemand true, (x.readG g).bits, false⟩
  | .stc g a off => some ⟨g, a, 16, scalarAddr x a 16 off, stcDemand (x.readG g), (x.readG g).bits, (x.readG g).tag⟩
  | _ => none

/-- The address of lane `i` of a vector access of `w`-byte lanes (06 R117): unit stride, strided, indexed. -/
def unitAddr (x : Arch) (a : BitVec 6) (w i : Nat) : Nat := (BitVec.ofInt 64 ((x.word a).toInt + w * i)).toNat
@[inherit_doc unitAddr]
def stridedAddr (x : Arch) (a b : BitVec 6) (i : Nat) : Nat := (BitVec.ofInt 64 ((x.word a).toInt + (x.word b).toInt * i)).toNat
@[inherit_doc unitAddr]
def indexedAddr (x : Arch) (a : BitVec 6) (b : BitVec 5) (w i : Nat) : Nat :=
  (BitVec.ofInt 64 ((x.word a).toInt + w * ((x.readV b).extractLsb' (8 * w * i) (8 * w)).toInt)).toNat

/-- The accesses of the active lanes (03 R48), in ascending order. -/
def laneAccesses (x : Arch) (w : Nat) (vm : BitVec 3) (m : Bool) (addr : Nat → Nat) : List Access :=
  ((List.range (256 / w)).filter fun i => !m || (x.readV (vm.setWidth 5)).getLsbD i).map fun i =>
    { lane := i, va := addr i, n := w }

/-- A load: the registers it reads, its base, its accesses, whether windows 1 to 5 are open to it, its form and destination. -/
structure LoadShape where
  reads : List RegName
  base : Reg
  accs : List Access
  wide : Bool
  form : LoadForm
  dst : RegName

/-- A scalar load as a shape. -/
def scalarShape (x : Arch) (g a : BitVec 6) (n : Nat) (off : BitVec 10) (form : LoadForm) : LoadShape :=
  ⟨[.g a, .g g], x.readG a, [{ lane := 0, va := scalarAddr x a n off, n := n }], decide (4 ≤ n), form, .g g⟩

/-- A vector load as a shape; `extra` is the stride or index register. -/
def vectorShape (x : Arch) (v : BitVec 5) (a : BitVec 6) (extra : List RegName) (w : Nat) (vm : BitVec 3) (z m : Bool)
    (addr : Nat → Nat) : LoadShape :=
  ⟨(if m then [.v (vm.setWidth 5)] else []) ++ [.g a] ++ extra ++ [.v v], x.readG a, laneAccesses x w vm m addr, w == 4,
    .vec v w (clearInactive x v w vm z m), .v v⟩

/-- The loads of 06. -/
def loadOf (x : Arch) : Instr → Option LoadShape
  | .ldB g a off => some (scalarShape x g a 1 off (.scalar g 1 true))
  | .ldBz g a off => some (scalarShape x g a 1 off (.scalar g 1 false))
  | .ldH g a off => some (scalarShape x g a 2 off (.scalar g 2 true))
  | .ldHz g a off => some (scalarShape x g a 2 off (.scalar g 2 false))
  | .ldW g a off => some (scalarShape x g a 4 off (.scalar g 4 true))
  | .ldWz g a off => some (scalarShape x g a 4 off (.scalar g 4 false))
  | .ldD g a off => some (scalarShape x g a 8 off (.scalar g 8 false))
  | .ldQ g a off => some (scalarShape x g a 16 off (.quad g ((x.readG a).perm permLDC)))
  | .vld v a vm z m => some (vectorShape x v a [] 4 vm z m (unitAddr x a 4))
  | .vldS v a b vm z m => some (vectorShape x v a [.g b] 4 vm z m (stridedAddr x a b))
  | .vldX v a b vm z m => some (vectorShape x v a [.v b] 4 vm z m (indexedAddr x a b 4))
  | .vldB v a vm z m => some (vectorShape x v a [] 4 vm z m fun i => unitAddr x a 4 (i % 4))
  | .vldH v a vm z m => some (vectorShape x v a [] 2 vm z m (unitAddr x a 2))
  | .vldHs v a b vm z m => some (vectorShape x v a [.g b] 2 vm z m (stridedAddr x a b))
  | .vldHx v a b vm z m => some (vectorShape x v a [.v b] 2 vm z m (indexedAddr x a b 2))
  | _ => none

/-- A store: the registers it reads, its base, its accesses with their values, what it demands, and its tag. -/
structure StoreShape where
  reads : List RegName
  base : Reg
  accs : List (Access × BitVec 128)
  demand : Demand
  tag : Bool

/-- A vector store as a shape. -/
def vectorStoreShape (x : Arch) (v : BitVec 5) (a : BitVec 6) (extra : List RegName) (w : Nat) (vm : BitVec 3) (m : Bool)
    (addr : Nat → Nat) : StoreShape :=
  ⟨(if m then [.v (vm.setWidth 5)] else []) ++ [.v v, .g a] ++ extra, x.readG a,
    (laneAccesses x w vm m addr).map fun y => (y, ((x.readV v).extractLsb' (8 * w * y.lane) (8 * w)).setWidth 128),
    storeDemand (w == 4), false⟩

/-- The stores of 06. -/
def storeOf (x : Arch) : Instr → Option StoreShape
  | .vst v a vm m => some (vectorStoreShape x v a [] 4 vm m (unitAddr x a 4))
  | .vstS v a b vm m => some (vectorStoreShape x v a [.g b] 4 vm m (stridedAddr x a b))
  | .vstX v a b vm m => some (vectorStoreShape x v a [.v b] 4 vm m (indexedAddr x a b 4))
  | .vstH v a vm m => some (vectorStoreShape x v a [] 2 vm m (unitAddr x a 2))
  | .vstHs v a b vm m => some (vectorStoreShape x v a [.g b] 2 vm m (stridedAddr x a b))
  | .vstHx v a b vm m => some (vectorStoreShape x v a [.v b] 2 vm m (indexedAddr x a b 2))
  | i => (scalarStoreOf x i).map fun y =>
    ⟨[.g y.g, .g y.a], x.readG y.a, [({ lane := 0, va := y.addr, n := y.n }, y.value &&& bitsFor y.n)], y.demand, y.tag⟩

/-! ## Traps and CSRs (03, 07) -/

/-- The CSRs (03 R60, 07 R125): what strand `sid` reads of each number. -/
def csrValue (s : State) (sid : Nat) : Nat → Option (BitVec 64)
  | 0x000 => some (BitVec.ofNat 64 sid)
  | 0x001 => some (s.core (coreOf sid)).coord
  | 0x002 => some (s.arch sid).stage
  | 0x003 => some (s.arch sid).gang
  | 0x004 => some (s.strand sid).domain
  | 0x010 => some (s.arch sid).frm
  | 0x011 => some (s.arch sid).fflags
  | 0x012 => some (s.arch sid).srseed
  | 0x013 => some (s.arch sid).sclbase
  | 0x020 => some (s.core (coreOf sid)).msplit
  | 0x021 => some (s.core (coreOf sid)).chunklim
  | 0x030 => some (s.arch sid).tvec
  | 0x031 => some (s.arch sid).uset.pcc.low
  | 0x032 => some (s.arch sid).uset.cause
  | 0x033 => some (s.arch sid).uset.val
  | 0x034 => some (s.arch sid).uset.state
  | 0x035 => some (s.arch sid).uset.repctx
  | 0x040 => some (s.sfrqn sid)
  | 0x050 => some (s.arch sid).cpstk
  | 0x051 => some (s.arch sid).trail
  | 0x052 => some (s.arch sid).cpdepth
  | 0x060 => some (s.arch sid).twmax
  | 0x070 => some (s.arch sid).evcnt[0]
  | 0x071 => some (s.arch sid).evcnt[1]
  | 0x072 => some (s.arch sid).evcnt[2]
  | 0x073 => some (s.arch sid).evcnt[3]
  | 0x074 => some (s.arch sid).evcnt[4]
  | 0x075 => some (s.arch sid).evcnt[5]
  | 0x076 => some (s.arch sid).evcnt[6]
  | 0x077 => some (s.arch sid).evcnt[7]
  | 0x080 => some (s.strand sid).featcap
  | 0x090 => some (s.accst sid)
  | 0x0A0 => some (s.pairWord sid)
  | 0x130 => some (s.arch sid).svec
  | 0x131 => some (s.arch sid).sset.pcc.low
  | 0x132 => some (s.arch sid).sset.cause
  | 0x133 => some (s.arch sid).sset.val
  | 0x134 => some (s.arch sid).sset.state
  | 0x135 => some (s.arch sid).sset.repctx
  | 0x136 => some (s.arch sid).sscratch
  | 0x137 => some (s.arch sid).dbg
  | 0x140 => some (s.core (coreOf sid)).drtbase
  | 0x141 => some (s.core (coreOf sid)).mapt64
  | 0x142 => some (s.core (coreOf sid)).mapt32
  | 0x150 => some (s.core (coreOf sid)).dqstate
  | _ => none

/-- Bits [n-1:0] of a word. -/
def lowBits (n : Nat) (v : BitVec 64) : BitVec 64 := BitVec.ofNat 64 (v.toNat % 2 ^ n)

/-- The registers after a write of a CSR of the strand (03 R60): the fields that its layout defines take their bits. -/
def csrWritten (x : Arch) (v : BitVec 64) : Nat → Option Arch
  | 0x010 => some { x with frm := lowBits 3 v }
  | 0x011 => some { x with fflags := lowBits 7 v }
  | 0x012 => some { x with srseed := v }
  | 0x013 => some { x with sclbase := lowBits 19 v }
  | 0x030 => some { x with tvec := v }
  | 0x031 => some { x with uset := { x.uset with pcc := x.uset.pcc.setCursor v } }
  | 0x032 => some { x with uset := { x.uset with cause := lowBits 8 v } }
  | 0x033 => some { x with uset := { x.uset with val := v } }
  | 0x034 => some { x with uset := { x.uset with state := v &&& 0xC } }
  | 0x035 => some { x with uset := { x.uset with repctx := if v.getLsbD 63 then v else 0 } }
  | 0x050 => some { x with cpstk := lowBits 17 v }
  | 0x051 => some { x with trail := v &&& 0x7FFF7FFF7FFF }
  | 0x060 => some { x with twmax := lowBits 16 v }
  | 0x130 => some { x with svec := v }
  | 0x131 => some { x with sset := { x.sset with pcc := x.sset.pcc.setCursor v } }
  | 0x132 => some { x with sset := { x.sset with cause := lowBits 8 v } }
  | 0x133 => some { x with sset := { x.sset with val := v } }
  | 0x134 => some { x with sset := { x.sset with state := lowBits 4 v } }
  | 0x135 => some { x with sset := { x.sset with repctx := if v.getLsbD 63 then v else 0 } }
  | 0x136 => some { x with sscratch := v }
  | 0x137 => some { x with dbg := lowBits 1 v }
  | _ => none

/-- The core after a write of one of its CSRs; a new split is kept for the core's next gang while a gang holds it (07 R151). -/
def coreWritten (c : Core) (v : BitVec 64) : Nat → Option Core
  | 0x020 => some (if c.gang.isSome then { c with msplitNext := some (lowBits 3 v) } else { c with msplit := lowBits 3 v, l1 := [] })
  | 0x021 => some { c with chunklim := lowBits 9 v }
  | 0x140 => some { c with drtbase := v &&& 0xFFFFFFFFFF000 }
  | 0x141 => some { c with mapt64 := v &&& 0xFFFFFFFFFF03F }
  | 0x142 => some { c with mapt32 := v &&& 0xFFFFFFFFFF03F }
  | 0x150 => some { c with dqstate := v &&& 0xFF01FF }
  | _ => none

/-- CSRs whose access waits until no result of the strand is outstanding (07 R126). -/
def settledCsr (csr : Nat) : Prop := csr = 0x011 ∨ (0x070 ≤ csr ∧ csr ≤ 0x077)

/-- A write of an area register that 20 R374 does not forbid. -/
def areaAllowed (s : State) (csr : Nat) (v : BitVec 64) : Prop :=
  (csr = 0x050 → s.cpstkBad s.cur v = false) ∧ (csr = 0x051 → s.trailBad s.cur v = false)

/-! ## Traps (07) -/

/-- A repeat context that records a live frame under a saved PCC (05 R97). -/
structure Records (w : BitVec 64) (pcc : Reg) (f : Frame) : Prop where
  valid : w.getLsbD 63 = true
  len : (w.extractLsb' 59 4).toNat + 1 = f.len
  index : (w.extractLsb' 55 4).toNat = f.index
  dstep : (w.extractLsb' 53 2).toNat = f.dstep
  astep : (w.extractLsb' 51 2).toNat = f.astep
  bstep : (w.extractLsb' 49 2).toNat = f.bstep
  left : (w.extractLsb' 34 15).toNat = f.left
  k : (w.extractLsb' 20 14).toNat = f.k
  offset : ((w.extractLsb' 0 20).toNat : Int) = ((f.base.toNat : Int) - pcc.base) / 4 % 2 ^ 20

/-- A frame that rpt can start and step: its numbers are within their ranges (05 R93, R96). -/
structure FrameInRange (f : Frame) : Prop where
  len : 1 ≤ f.len ∧ f.len ≤ 16
  index : f.index < f.len
  steps : f.dstep < 4 ∧ f.astep < 4 ∧ f.bstep < 4
  left : f.left ≤ 16384
  k : f.k < 16384

/-- The state of the interrupted code that a trap set records (07 R129): AS, IM, HF, PM. -/
def stateWord (async imprecise hf s : Bool) : BitVec 64 :=
  BitVec.ofNat 64 (8 * async.toNat + 4 * imprecise.toNat + 2 * hf.toNat + s.toNat)

/-! ## Save areas (07 R138) -/

/-- The CSRs of a strand hold nothing outside the fields of their layouts (03 R60). -/
structure InLayout (x : Arch) : Prop where
  frm : lowBits 3 x.frm = x.frm
  fflags : lowBits 7 x.fflags = x.fflags
  sclbase : lowBits 19 x.sclbase = x.sclbase
  cause : lowBits 8 x.uset.cause = x.uset.cause
  state : x.uset.state &&& 0xC = x.uset.state
  repctx : (if x.uset.repctx.getLsbD 63 then x.uset.repctx else 0) = x.uset.repctx
  cpstk : lowBits 17 x.cpstk = x.cpstk
  gang : lowBits 24 x.gang = x.gang
  stage : lowBits 8 x.stage = x.stage
  trail : x.trail &&& 0x7FFF7FFF7FFF = x.trail
  cpdepth : lowBits 7 x.cpdepth = x.cpdepth
  twmax : lowBits 16 x.twmax = x.twmax
  evcnt : ∀ k, (h : k < 8) → lowBits 40 x.evcnt[k] = x.evcnt[k]
  scause : lowBits 8 x.sset.cause = x.sset.cause
  sstate : lowBits 4 x.sset.state = x.sset.state
  srepctx : (if x.sset.repctx.getLsbD 63 then x.sset.repctx else 0) = x.sset.repctx

/-! ## What a fence waits for (06 R120, R121) -/

/-- A remote access that is a store, or an amo to another die. -/
def storing : RKind → Bool
  | .store _ _ _ _ => true
  | .rmw _ _ _ _ _ _ _ amo => amo
  | _ => false

/-- The strand whose amo on its die or whose stamped store a message carries. -/
def storeMsgOf : MsgKind → Option Nat
  | .amo sid _ _ _ _ _ _ => some sid
  | .version v => some v.sid
  | _ => none

/-! ## Atomics (09 R168 to R174, 16 R332) -/

/-- An atomic: its operation of 09 R171, its width, its registers, and whether it is a ramo. -/
structure AtomicForm where
  op : Nat
  wide : Bool
  d : BitVec 6
  a : BitVec 6
  b : BitVec 6
  remote : Bool

/-- The atomics of majors 0x1C and 0x28. -/
def atomicOf : Instr → Option AtomicForm
  | .amoAdd d a b w => some ⟨0, w, d, a, b, false⟩
  | .amoAnd d a b w => some ⟨1, w, d, a, b, false⟩
  | .amoOr d a b w => some ⟨2, w, d, a, b, false⟩
  | .amoXor d a b w => some ⟨3, w, d, a, b, false⟩
  | .amoMin d a b w => some ⟨4, w, d, a, b, false⟩
  | .amoMax d a b w => some ⟨5, w, d, a, b, false⟩
  | .amoMinz d a b w => some ⟨6, w, d, a, b, false⟩
  | .amoMaxz d a b w => some ⟨7, w, d, a, b, false⟩
  | .amoSwap d a b w => some ⟨8, w, d, a, b, false⟩
  | .amoCas d a b w => some ⟨9, w, d, a, b, false⟩
  | .amoFaddW d a b => some ⟨10, false, d, a, b, false⟩
  | .amoTopkD d a b => some ⟨11, true, d, a, b, false⟩
  | .ramoAdd d a b w => some ⟨0, w, d, a, b, true⟩
  | .ramoAnd d a b w => some ⟨1, w, d, a, b, true⟩
  | .ramoOr d a b w => some ⟨2, w, d, a, b, true⟩
  | .ramoXor d a b w => some ⟨3, w, d, a, b, true⟩
  | .ramoMin d a b w => some ⟨4, w, d, a, b, true⟩
  | .ramoMax d a b w => some ⟨5, w, d, a, b, true⟩
  | .ramoMinz d a b w => some ⟨6, w, d, a, b, true⟩
  | .ramoMaxz d a b w => some ⟨7, w, d, a, b, true⟩
  | .ramoSwap d a b w => some ⟨8, w, d, a, b, true⟩
  | .ramoCas d a b w => some ⟨9, w, d, a, b, true⟩
  | _ => none

/-- The bytes of an atomic (09 R170). -/
def AtomicForm.size (f : AtomicForm) : Nat := if f.op = 11 then 128 else if f.wide then 8 else 4

/-- The new value of an integer atomic (09 R171). -/
def atomicValue {w : Nat} (op : Nat) (old x e : BitVec w) : BitVec w :=
  match op with
  | 0 => BitVec.ofNat w (old.toNat + x.toNat)
  | 1 => old &&& x
  | 2 => old ||| x
  | 3 => old ^^^ x
  | 4 => BitVec.ofInt w (min old.toInt x.toInt)
  | 5 => BitVec.ofInt w (max old.toInt x.toInt)
  | 6 => BitVec.ofNat w (min old.toNat x.toNat)
  | 7 => BitVec.ofNat w (max old.toNat x.toNat)
  | 8 => x
  | _ => if old = e then x else old

/-- What an atomic on `size` bytes at a location makes of the state: the new bytes, the result word, the flags (09 R171, R172). -/
def atomicEffect (s : State) (loc op : Nat) (wide : Bool) (x e : BitVec 64) : List Byte × BitVec 64 × Flags :=
  if wide then
    let old : BitVec 64 := BitVec.ofNat 64 (readNat s.mem loc 8)
    (bytesOfNat 8 (atomicValue op old x e).toNat, old, Flags.none)
  else
    let old : BitVec 32 := BitVec.ofNat 32 (readNat s.mem loc 4)
    if op = 10 then (bytesOfNat 4 (fAdd 0 old (x.setWidth 32)).1.toNat, old.setWidth 64, (fAdd 0 old (x.setWidth 32)).2)
    else (bytesOfNat 4 (atomicValue op old (x.setWidth 32) (e.setWidth 32)).toNat,
      if op = 6 ∨ op = 7 then old.setWidth 64 else BitVec.ofInt 64 old.toInt, Flags.none)

/-- An atomic may be performed on `n` bytes at a location: a whole local word that can be reached, with no uncommitted chunk that has
written it and no pinned chunk that has read it (09 R169, 17 R337). -/
structure AtomicFree (s : State) (sid loc n : Nat) : Prop where
  here : isForeign loc = false
  reach : s.reachable (dieOf sid) loc = true
  aligned : loc % n = 0
  fits : padOrigin ≤ loc → padRaw loc + n ≤ s.padSize (padCore loc)
  unwritten : ∀ k < n, s.padWriter none (loc + k) = none
  earlier : ∀ c ∈ (s.strand sid).chunks, ∀ u ∈ c.undo, ∀ k < n, u.loc / 16 ≠ (loc + k) / 16
  unpinned : ∀ d, s.pinned d = none

/-- An entry of a top-k record in order: no later one ranks before an earlier one, and none has a NaN for its score (09 R173). -/
def Ranked (l : List (BitVec 64)) : Prop :=
  l.Pairwise (fun p q => ranksBefore q p = false) ∧ ∀ p ∈ l, isNaN32 (p.extractLsb' 32 32) = false

/-! ## Gets and puts (16 R328) -/

/-- The members of major 0x27 that move bytes: whether their sides are whole lines, the destination, the source and the length. -/
def moveOf (x : Arch) : Instr → Option (Bool × BitVec 6 × BitVec 6 × Nat)
  | .get d c n => some (false, d, c, (x.word n).toNat)
  | .put d c n => some (false, d, c, (x.word n).toNat)
  | .getW d c => some (true, d, c, 128)
  | .putW d c => some (true, d, c, 128)
  | _ => none

/-- The registers that one of them reads. -/
def moveReads : Instr → List RegName
  | .get d c n => [.g d, .g c, .g n]
  | .put d c n => [.g d, .g c, .g n]
  | .getW d c => [.g d, .g c]
  | .putW d c => [.g d, .g c]
  | _ => []

/-- The parts of a get or put of the strand that issues, those of the source first, or the reason and address of the side that cannot
be reached, the destination before the source (16 R317, R319): in units of 128 bytes if the access is no longer than that, else of
16. -/
def movedSides (s : State) (dst src n : Nat) : Except (Nat × Nat) (List Part) :=
  let unit := if n ≤ 128 then 128 else 16
  match s.sideParts (coreOf s.cur) (s.sclbase s.cur) dst n unit true 0 (n / unit + 4) with
  | .error e => .error e
  | .ok d =>
    match s.sideParts (coreOf s.cur) (s.sclbase s.cur) src n unit false 0 (n / unit + 4) with
    | .error e => .error e
    | .ok c => .ok (c ++ d)

/-! ## Stitch (10) -/

/-- The unprivileged members of major 0x1D that put an item on the network: the context's register, the mode they belong to, the
item's kind, the register that carries a payload and the one that receives the value (10 R186, R188, R191, R194). -/
structure StitchForm where
  a : BitVec 6
  mode : Nat
  kind : Token
  payload : Option (BitVec 6)
  dst : Option (BitVec 6)

/-- Those members. -/
def stitchOf : Instr → Option StitchForm
  | .bnCnt d a => some ⟨a, 1, .token, none, some d⟩
  | .bnAnti d a => some ⟨a, 1, .anti, none, some d⟩
  | .bnSpread a b => some ⟨a, 3, .spread, some b, none⟩
  | .bnArr a b => some ⟨a, 2, .arrive, some b, none⟩
  | _ => none

/-- The registers that one of them reads. -/
def StitchForm.reads (f : StitchForm) : List RegName := .g f.a :: (f.payload.toList.map .g ++ f.dst.toList.map .g)

/-- The item that a strand puts on the network of its die (10 R182, R195). -/
def enteringItem (u : State) (c : Ctx) (ctx n : Nat) (f : StitchForm) (out : Nat) : Item :=
  { id := n, ctx := ctx, kind := f.kind, pos := u.cur / 16 % 32 % 2 ^ c.lw, layer := if c.stopped then 17 else 0, arrived := n,
    sid := u.cur, out := out, payload := (f.payload.map u.me.word).getD 0, ref := 0 }

/-! ## Vectors (12) -/

/-- A vector instruction's destination and what it receives, by the kind of its result. -/
inductive VecResult where
  /-- Lanes of `w` bits of a v-register: the active ones receive `value`, the others keep their value or are zero with z (12 R221). -/
  | lanes (w : Nat) (d : BitVec 5) (z : Bool) (active : Nat → Bool) (value : Nat → BitVec w) (flags : Nat → Flags)
  /-- A mask of 64 bits with zeros above (12 R222). -/
  | mask (d : BitVec 5) (z : Bool) (active : Nat → Bool) (value : Nat → Bool) (flags : Nat → Flags)
  /-- Lane 0, with zeros above: the tree of 11 R209 over the lanes, an inactive one entering as `unit` (12 R229). -/
  | tree (d : BitVec 5) (active : Nat → Bool) (value : Nat → BitVec 32) (unit : BitVec 32)
      (join : BitVec 32 → BitVec 32 → BitVec 32 × Flags)
  /-- A g-register in data form (12 R232). -/
  | word (g : BitVec 6) (value : BitVec 64)

/-- Lane `i` of width 32 of a v-register (12 R220). -/
def vlane (x : Arch) (a : BitVec 5) (i : Nat) : BitVec 32 := (x.readV a).extractLsb' (32 * i) 32

/-- A lane is active without a mask, or if its bit of the mask register is 1 (03 R49, 12 R221). -/
def lit (x : Arch) (vm : BitVec 3) (m : Bool) (i : Nat) : Bool := !m || (x.readV (vm.setWidth 5)).getLsbD i

/-- No flags. -/
def noFlags : Nat → Flags := fun _ => Flags.none

/-- The amount of a lane shift. -/
def sh5 (b : BitVec 32) : Nat := b.toNat % 32

/-- The vector instructions that move bits and compute with integers, in the spec's arithmetic (12 R225, R228 to R232). -/
def integerVector (x : Arch) : Instr → Option (List RegName × VecResult)
  | .vaddI d a b vm z m => some (.v a :: .v b :: .v d :: maskReads vm m, .lanes 32 d z (lit x vm m)
      (fun i => BitVec.ofNat 32 ((vlane x a i).toNat + (vlane x b i).toNat)) noFlags)
  | .vsubI d a b vm z m => some (.v a :: .v b :: .v d :: maskReads vm m, .lanes 32 d z (lit x vm m)
      (fun i => BitVec.ofInt 32 ((vlane x a i).toInt - (vlane x b i).toInt)) noFlags)
  | .vmulI d a b vm z m => some (.v a :: .v b :: .v d :: maskReads vm m, .lanes 32 d z (lit x vm m)
      (fun i => BitVec.ofNat 32 ((vlane x a i).toNat * (vlane x b i).toNat)) noFlags)
  | .vand d a b vm z m => some (.v a :: .v b :: .v d :: maskReads vm m, .lanes 32 d z (lit x vm m)
      (fun i => vlane x a i &&& vlane x b i) noFlags)
  | .vor d a b vm z m => some (.v a :: .v b :: .v d :: maskReads vm m, .lanes 32 d z (lit x vm m)
      (fun i => vlane x a i ||| vlane x b i) noFlags)
  | .vxor d a b vm z m => some (.v a :: .v b :: .v d :: maskReads vm m, .lanes 32 d z (lit x vm m)
      (fun i => vlane x a i ^^^ vlane x b i) noFlags)
  | .vshl d a b vm z m => some (.v a :: .v b :: .v d :: maskReads vm m, .lanes 32 d z (lit x vm m)
      (fun i => BitVec.ofNat 32 ((vlane x a i).toNat * 2 ^ sh5 (vlane x b i))) noFlags)
  | .vshr d a b vm z m => some (.v a :: .v b :: .v d :: maskReads vm m, .lanes 32 d z (lit x vm m)
      (fun i => BitVec.ofNat 32 ((vlane x a i).toNat / 2 ^ sh5 (vlane x b i))) noFlags)
  | .vsha d a b vm z m => some (.v a :: .v b :: .v d :: maskReads vm m, .lanes 32 d z (lit x vm m)
      (fun i => BitVec.ofInt 32 ((vlane x a i).toInt / 2 ^ sh5 (vlane x b i))) noFlags)
  | .vminI d a b vm z m => some (.v a :: .v b :: .v d :: maskReads vm m, .lanes 32 d z (lit x vm m)
      (fun i => BitVec.ofInt 32 (min (vlane x a i).toInt (vlane x b i).toInt)) noFlags)
  | .vmaxI d a b vm z m => some (.v a :: .v b :: .v d :: maskReads vm m, .lanes 32 d z (lit x vm m)
      (fun i => BitVec.ofInt 32 (max (vlane x a i).toInt (vlane x b i).toInt)) noFlags)
  | .vperm d a b vm z m => some (.v a :: .v b :: .v d :: maskReads vm m, .lanes 32 d z (lit x vm m)
      (fun i => vlane x a ((vlane x b i).toNat % 64)) noFlags)
  | .vcmpIeq d a b vm z m => some (.v a :: .v b :: .v d :: maskReads vm m, .mask d z (lit x vm m)
      (fun i => decide (vlane x a i = vlane x b i)) noFlags)
  | .vcmpIlt d a b vm z m => some (.v a :: .v b :: .v d :: maskReads vm m, .mask d z (lit x vm m)
      (fun i => decide ((vlane x a i).toInt < (vlane x b i).toInt)) noFlags)
  | .vcmpIlo d a b vm z m => some (.v a :: .v b :: .v d :: maskReads vm m, .mask d z (lit x vm m)
      (fun i => decide ((vlane x a i).toNat < (vlane x b i).toNat)) noFlags)
  | .vredaddI d a vm m => some (.v a :: .v d :: maskReads vm m, .tree d (lit x vm m) (vlane x a) 0
      fun p q => (BitVec.ofNat 32 (p.toNat + q.toNat), Flags.none))
  | .vsel d a b vm => some (.v a :: .v b :: .v d :: maskReads vm true, .lanes 32 d false (fun _ => true)
      (fun i => if (x.readV (vm.setWidth 5)).getLsbD i then vlane x a i else vlane x b i) noFlags)
  | .vbc d b vm z m => some (.g b :: .v d :: maskReads vm m, .lanes 32 d z (lit x vm m)
      (fun _ => BitVec.ofNat 32 (x.word b).toNat) noFlags)
  | .vidx d b vm z m => some (.g b :: .v d :: maskReads vm m, .lanes 32 d z (lit x vm m)
      (fun i => BitVec.ofNat 32 (i + (x.word b).toNat)) noFlags)
  | .vslup d a b vm z m => some (.v a :: .g b :: .v d :: maskReads vm m, .lanes 32 d z (lit x vm m)
      (fun i => if (x.word b).toNat ≤ i then vlane x a (i - (x.word b).toNat) else 0) noFlags)
  | .vsldn d a b vm z m => some (.v a :: .g b :: .v d :: maskReads vm m, .lanes 32 d z (lit x vm m)
      (fun i => if i + (x.word b).toNat ≤ 63 then vlane x a (i + (x.word b).toNat) else 0) noFlags)
  | .vins v g idx => some ([.v v, .g g], .lanes 32 v false (fun i => decide (i = idx.toNat))
      (fun _ => BitVec.ofNat 32 (x.word g).toNat) noFlags)
  | .vext v g idx => some ([.v v, .g g], .word g (BitVec.ofNat 64 (vlane x v idx.toNat).toNat))
  | .mpopc v g => some ([.v v, .g g], .word g (BitVec.ofNat 64 ((List.range 64).countP (x.readV v).getLsbD)))
  | .mfirst v g => some ([.v v, .g g],
      .word g (BitVec.ofNat 64 (((List.range 64).find? (x.readV v).getLsbD).getD 64)))
  | _ => none

/-- The FP32 operations, each rounded once in the mode FRM (11 R197 to R200, 12 R224 to R227, R229, R231, R233, R234). -/
def floatVector (x : Arch) : Instr → Option (List RegName × VecResult)
  | .vadd d a b vm z m => lanes2 d a b vm z m (fAdd (mode x))
  | .vsub d a b vm z m => lanes2 d a b vm z m (fSub (mode x))
  | .vmul d a b vm z m => lanes2 d a b vm z m (fMul (mode x))
  | .vmin d a b vm z m => lanes2 d a b vm z m (fMinMax false)
  | .vmax d a b vm z m => lanes2 d a b vm z m (fMinMax true)
  | .vscl d a b vm z m => lanes2 d a b vm z m (scaleLane (mode x))
  | .vfma d a b vm z m => fused d a b vm z m false false
  | .vfms d a b vm z m => fused d a b vm z m false true
  | .vfnma d a b vm z m => fused d a b vm z m true false
  | .vabs d a vm z m => lanes1 d a vm z m (signOp fun w => w &&& 0x7FFFFFFF)
  | .vneg d a vm z m => lanes1 d a vm z m (signOp fun w => w ^^^ 0x80000000)
  | .vrcpE d a vm z m => lanes1 d a vm z m seedRcp
  | .vrsqE d a vm z m => lanes1 d a vm z m seedRsq
  | .vgexp d a vm z m => lanes1 d a vm z m expLane
  | .vrnd d a vm z m => lanes1 d a vm z m (rndLane (mode x))
  | .vcvtI2f d a vm z m => lanes1 d a vm z m fun w => intToF32 (mode x) w.toInt
  | .vcvtF2i d a vm z m => lanes1 d a vm z m (toIntLane (mode x))
  | .vcvtBf2f d a vm z m => widened d a vm z m fromBf16
  | .vcvtH2f d a vm z m => widened d a vm z m fromFp16
  | .vcvtF2bf d a b vm z m => narrowed d a b vm z m (toBf16 (mode x))
  | .vcvtF2h d a b vm z m => narrowed d a b vm z m (toFp16 (mode x))
  | .vcmpEq d a b vm z m => compare d a b vm z m (fun p q => p == q) false false
  | .vcmpLt d a b vm z m => compare d a b vm z m (fun p q => decide (p < q)) false true
  | .vcmpLe d a b vm z m => compare d a b vm z m (fun p q => decide (p ≤ q)) false true
  | .vcmpUn d a b vm z m => compare d a b vm z m (fun _ _ => false) true false
  | .vredsum d a vm m => some (.v a :: .v d :: maskReads vm m, .tree d (lit x vm m) (vlane x a) 0 (fAdd 0))
  | .vredmax d a vm m => some (.v a :: .v d :: maskReads vm m, .tree d (lit x vm m) (vlane x a) 0xFF800000 (fMinMax true))
  | .vredmin d a vm m => some (.v a :: .v d :: maskReads vm m, .tree d (lit x vm m) (vlane x a) 0x7F800000 (fMinMax false))
  | .vaddS d a b vm z m => scalar d a b vm z m (fAdd (mode x))
  | .vmulS d a b vm z m => scalar d a b vm z m (fMul (mode x))
  | .vfmaS d a b vm z m => some (.v d :: .v a :: .g b :: maskReads vm m, .lanes 32 d z (lit x vm m)
      (fun i => (fFma (mode x) false false (vlane x a i) (BitVec.ofNat 32 (x.word b).toNat) (vlane x d i)).1)
      (fun i => (fFma (mode x) false false (vlane x a i) (BitVec.ofNat 32 (x.word b).toNat) (vlane x d i)).2))
  | _ => none
where
  /-- FRM. -/
  mode (x : Arch) : Nat := x.frm.toNat % 8
  /-- A form over the lanes of two registers. -/
  lanes2 (d a b vm z m) (f : BitVec 32 → BitVec 32 → BitVec 32 × Flags) : Option (List RegName × VecResult) :=
    some (.v a :: .v b :: .v d :: maskReads vm m, .lanes 32 d z (lit x vm m) (fun i => (f (vlane x a i) (vlane x b i)).1)
      fun i => (f (vlane x a i) (vlane x b i)).2)
  /-- A form over the lanes of one register. -/
  lanes1 (d a vm z m) (f : BitVec 32 → BitVec 32 × Flags) : Option (List RegName × VecResult) :=
    some (.v a :: .v d :: maskReads vm m, .lanes 32 d z (lit x vm m) (fun i => (f (vlane x a i)).1) fun i => (f (vlane x a i)).2)
  /-- A fused form, with vd as the addend. -/
  fused (d a b vm z m) (np nc : Bool) : Option (List RegName × VecResult) :=
    some (.v d :: .v a :: .v b :: maskReads vm m, .lanes 32 d z (lit x vm m)
      (fun i => (fFma (mode x) np nc (vlane x a i) (vlane x b i) (vlane x d i)).1)
      fun i => (fFma (mode x) np nc (vlane x a i) (vlane x b i) (vlane x d i)).2)
  /-- A widening of the 16-bit lanes 0 to 63. -/
  widened (d a vm z m) (f : BitVec 16 → BitVec 32) : Option (List RegName × VecResult) :=
    some (.v a :: .v d :: maskReads vm m, .lanes 32 d z (lit x vm m) (fun i => f ((x.readV a).extractLsb' (16 * i) 16)) noFlags)
  /-- A narrowing of the lanes of va, then of vb. -/
  narrowed (d a b vm z m) (f : BitVec 32 → BitVec 16 × Flags) : Option (List RegName × VecResult) :=
    some (.v a :: .v b :: .v d :: maskReads vm m, .lanes 16 d z (lit x vm m)
      (fun j => (f (vlane x (if j < 64 then a else b) (j % 64))).1) fun j => (f (vlane x (if j < 64 then a else b) (j % 64))).2)
  /-- A compare: what it gives when a lane is a NaN, and whether any NaN raises NV. -/
  compare (d a b vm z m) (f : Int → Int → Bool) (un anyNaN : Bool) : Option (List RegName × VecResult) :=
    some (.v a :: .v b :: .v d :: maskReads vm m, .mask d z (lit x vm m)
      (fun i => (fCompare f un anyNaN (vlane x a i) (vlane x b i)).1) fun i => (fCompare f un anyNaN (vlane x a i) (vlane x b i)).2)
  /-- A form over the lanes of a register and the low word of a g-register. -/
  scalar (d a) (b : BitVec 6) (vm z m) (f : BitVec 32 → BitVec 32 → BitVec 32 × Flags) : Option (List RegName × VecResult) :=
    some (.v a :: .g b :: .v d :: maskReads vm m, .lanes 32 d z (lit x vm m)
      (fun i => (f (vlane x a i) (BitVec.ofNat 32 (x.word b).toNat)).1)
      fun i => (f (vlane x a i) (BitVec.ofNat 32 (x.word b).toNat)).2)

/-- The flags of the active lanes, each lane counted (11 R215). -/
def laneFlags (n : Nat) (active : Nat → Bool) (flags : Nat → Flags) : Flags :=
  ((List.range n).filter active).foldl (fun f i => f.add (flags i)) Flags.none

/-- The tree of 11 R209 over 2^n lanes: neighbours are joined, level by level. -/
def treeOf (join : BitVec 32 → BitVec 32 → BitVec 32 × Flags) (x : Nat → BitVec 32) : Nat → Nat → BitVec 32 × Flags
  | 0, i => (x i, Flags.none)
  | n + 1, i =>
    let l := treeOf join x n (2 * i)
    let r := treeOf join x n (2 * i + 1)
    ((join l.1 r.1).1, (l.2.add r.2).add (join l.1 r.1).2)

/-- The register that receives a result. -/
def VecResult.dst : VecResult → RegName
  | .lanes _ d _ _ _ _ => .v d
  | .mask d _ _ _ _ => .v d
  | .tree d _ _ _ _ => .v d
  | .word g _ => .g g

/-- A register write and its flags are what a result says. -/
def VecResult.Gives (x : Arch) : VecResult → RegWrite → Flags → Prop
  | .lanes w d z active value flags, r, fl => ∃ y, r = .v d y ∧ fl = laneFlags (2048 / w) active flags ∧
      ∀ i, i < 2048 / w → y.extractLsb' (w * i) w =
        if active i then value i else if z then 0 else (x.readV d).extractLsb' (w * i) w
  | .mask d z active value flags, r, fl => ∃ y, r = .v d y ∧ fl = laneFlags 64 active flags ∧ y.toNat < 2 ^ 64 ∧
      ∀ i, i < 64 → y.getLsbD i = if active i then value i else if z then false else (x.readV d).getLsbD i
  | .tree d active value unit join, r, fl =>
      r = .v d (BitVec.ofNat 2048 (treeOf join (fun i => if active i then value i else unit) 6 0).1.toNat) ∧
      fl = (treeOf join (fun i => if active i then value i else unit) 6 0).2
  | .word g value, r, fl => r = .g g (.data value) ∧ fl = Flags.none

/-! ## The matrix class (13) -/

/-- The members of 0x23 that take an entry of their core's queue: what they read, and the entry (13 R253 to R255); its sectors come with
the checks. -/
def queuedEntry (u : State) : Instr → Option (List RegName × MEntry)
  | .mmaT8 acc a b e => some ([.g a, .g b, .g e], make u 0 acc (u.me.word e) (u.me.readG a) (u.me.readG b))
  | .mmaT6 acc a b e => some ([.g a, .g b, .g e], make u 1 acc (u.me.word e) (u.me.readG a) (u.me.readG b))
  | .mmaI8 acc a b e => some ([.g a, .g b, .g e], make u 2 acc (u.me.word e) (u.me.readG a) (u.me.readG b))
  | .mmaBf acc a b e => some ([.g a, .g b, .g e], make u 3 acc (u.me.word e) (u.me.readG a) (u.me.readG b))
  | .mmaH acc a b e => some ([.g a, .g b, .g e], make u 4 acc (u.me.word e) (u.me.readG a) (u.me.readG b))
  | .mzero acc => some ([], make u 5 acc 0 .null .null)
  | .mld acc a e => some ([.g a, .g e], make u 6 acc (u.me.word e) (u.me.readG a) .null)
  | .mst acc a e => some ([.g a, .g e], make u 7 acc (u.me.word e) (u.me.readG a) .null)
  | _ => none
where
  /-- An entry that has not begun. -/
  make (u : State) (fn : Nat) (acc : BitVec 2) (ge : BitVec 64) (a b : Reg) : MEntry :=
    { id := u.serial, fn := fn, acc := acc.toNat, ge := ge, a := a, b := b, next := 0, locs := [], scales := [], started := false,
      waiting := false, sid := u.cur, gang := u.me.gangNo }

/-- What CheckClaim leaves where it does not trap: S mode neither checks nor takes the claim; a free claim is taken (13 R239). -/
def Claimed (u v : State) : Prop :=
  (u.me.smode = true ∧ v = u) ∨
  (u.me.smode = false ∧ (u.core (coreOf u.cur)).claim = some u.cur ∧ v = u) ∨
  (u.me.smode = false ∧ (u.core (coreOf u.cur)).claim = none ∧
    v = u.onCore (coreOf u.cur) fun c => { c with claim := some u.cur })

/-- What a member of 0x23 that traps leaves of `x`: the claim that it took, now or before it waited for the array, is free again
(03 R57). -/
def unclaimed (u x : State) : State :=
  if (u.me.smode = false ∧ (u.core (coreOf u.cur)).claim = none) ∨ (u.strand u.cur).wait = .array true then
    x.onCore (coreOf u.cur) fun c => { c with claim := none }
  else x

/-- An mma operand of `r` rows passes its checks: LD over its footprint, which begins on a multiple of 16 and lies in window 0 of a
scratchpad of the quire (13 R244, R253). -/
def OperandFits (u : State) (fn r : Nat) (e : BitVec 64) (c : Reg) : Prop :=
  checkCap u.me.smode c c.cursor (spanOf fn r e) [permLD] 0 = none ∧ c.cursor % 16 = 0 ∧
  ∃ cid off, u.place (coreOf u.cur) c.cursor = .pad cid 0 off ∧ quireOfCore cid = quireOf u.cur ∧
    off + spanOf fn r e ≤ u.padSize cid

/-- The bytes of a row of 256 kb elements in a format (13 R241). -/
def rowStride (fn kb : Nat) : Nat := (match fn with | 0 | 2 => 256 | 1 => 192 | _ => 512) * kb

/-- The next block of an entry applied to one element: the rows of A and B are read from memory, and their E8 scales too unless the
start-up has read them (13 R237, R241, R253). -/
def blockElement (s : State) (cid : Nat) (x : MEntry) (i j : Nat) (old : BitVec 32) : BitVec 32 × Flags :=
  let kb := x.ge.toNat / 2 ^ 14 % 32
  let k := if x.next + 1 < kb then 256 else x.ge.toNat / 2 ^ 19 % 512
  let rs := rowStride x.fn kb
  let row (c : Reg) (r : Nat) := rowTerms x.fn s.mem (s.operandLoc cid c + r * rs + x.next * rowStride x.fn 1) k
  let scale (c : Reg) (r : Nat) := x.scaleAt s.mem (s.operandLoc cid c + 64 * rs + r * kb + x.next)
  match x.fn with
  | 0 => blockT (-12) old (row x.a i) (row x.b j) (scale x.a i) (scale x.b j)
  | 1 => blockT (-8) old (row x.a i) (row x.b j) (scale x.a i) (scale x.b j)
  | 2 => blockI old (row x.a i) (row x.b j)
  | _ => blockW old (row x.a i) (row x.b j)

/-- The sum of the first `k` products of two rows of signed bytes. -/
def byteDot (m : List Host.Cell) (a b : Nat) : Nat → Int
  | 0 => 0
  | k + 1 => byteDot m a b k + (BitVec.ofNat 8 (readNat m (a + k) 1)).toInt * (BitVec.ofNat 8 (readNat m (b + k) 1)).toInt

/-- An entry whose first block or transfer has begun. -/
def running (x : MEntry) : MEntry := { x with started := true, waiting := false }

/-- Core `cid` is the only one of its quire with an entry, which no lock keeps back. -/
def OnlyEntry (s : State) (cid : Nat) (x : MEntry) : Prop :=
  (s.core cid).mq = [x] ∧ (∀ k ∈ coresOf (quireOfCore cid), k ≠ cid → (s.core k).mq = []) ∧
  ((x.started = true ∧ x.waiting = false) ∨ (x.started = false ∧ s.entryLocked cid x = false))

/-! ## Codelets (14) -/

/-- The message of cdec, cpush and carm to the owner of a record: the registers it reads, and the message (14 R277). -/
def recordMessage (u : State) (ref : BitVec 64) : Instr → Option (BitVec 6 × BitVec 6 × MsgKind)
  | .cdec x y => some (x, y, .cdec u.cur u.me.gangNo ref (BitVec.ofNat 32 (u.me.word y).toNat).toInt)
  | .cpush x y => some (x, y, .push (some u.cur) u.me.gangNo ref (u.me.word y) (decide (ref.toNat / 2 ^ 16 % 1024 = coreOf u.cur)))
  | .carm x y => some (x, y, .carm u.cur u.me.gangNo ref (u.me.word y))
  | _ => none

/-- A number held in the 32 bits of a counter, saturated (14 R261). -/
def counter32 (n : Int) : Int := if n < -2147483648 then -2147483648 else if 2147483647 < n then 2147483647 else n

/-- A record that nothing keeps from being written: no other strand's uncommitted chunk has written it, and no pinned chunk has
read it. -/
def RecordFree (s : State) (sid : Nat) (ref : BitVec 64) : Prop :=
  (∀ k < 64, s.padWriter (some sid) (refLoc ref + k) = none) ∧ ∀ d, s.pinned d = none

/-- The gang and the core that a message which an event applies is addressed to. -/
def addressee : Instr → MsgKind → Option (Nat × Nat)
  | .cdecApply, .cdec _ gang ref _ => some (gang, refCore ref)
  | .carmApply, .carm _ gang ref _ => some (gang, refCore ref)
  | .dequePush, .push _ gang ref _ _ => some (gang, refCore ref)
  | .cstealTake, .steal _ _ v gang => some (gang, v)
  | _, _ => none

/-- A strand may look for work: free and awake, with nothing outstanding, of a core that runs a gang that stays, on a die in service. -/
structure SeeksWork (s : State) (sid : Nat) : Prop where
  free : (s.strand sid).firing = none
  awake : (s.strand sid).asleep = false
  settled : (s.strand sid).out = []
  own : s.owner (coreOf sid) = coreOf sid
  gang : ∃ g, (s.core (coreOf sid)).gang = some g ∧ s.leaving g = false
  up : (s.die (dieOf sid)).fenced = false

/-- An entry that a strand of a core may start: its record is of no quit group, and has no ACC flag while the claim is held. -/
def Startable (s : State) (cid : Nat) (e : BitVec 64 × BitVec 64) : Prop := s.recQuit cid e.1 = false ∧ s.recPass cid e.1 = false

/-! ## Copies (15) -/

/-- What the checks of 15 R299 that follow the shape come to, for the command `k` of a strand whose chunk has ended in `u`: the first
that fails traps; a command with a side outside the die waits for the strand's stores; one that passes waits for its slot. -/
structure CopyGoes (u : State) (k : CopyCmd) (o : Host.Outcome State Fault Refusal) : Prop where
  dst : ∀ v cause val, u.dstCheck k = (v, .error (.trap cause val)) → o = .next (v.raise u.cur cause val)
  src : ∀ v w d cause val, u.dstCheck k = (v, .ok d) → v.srcCheck k = (w, .error (.trap cause val)) →
    o = .next (w.raise u.cur cause val)
  tried : ∀ v w d r, u.dstCheck k = (v, .ok d) → v.srcCheck k = (w, .ok r) → k.dst.perm permTRY = true → u.me.cpdepth ≠ 0 →
    o = .next (w.raise u.cur .capperm k.dst.low)
  range : ∀ v w d r, u.dstCheck k = (v, .ok d) → v.srcCheck k = (w, .ok r) → (k.dst.perm permTRY = false ∨ u.me.cpdepth = 0) →
    (∃ x ∈ d, (∃ y ∈ r.1, overlapSpan x y = true) ∨
      ∃ b ∈ (w.quire (quireOf u.cur)).dir, overlapSpan x (b.cid + 1, (b.off : Int), (b.off : Int) + 16) = true) →
    o = .next (w.raise u.cur .range (BitVec.ofInt 64 (((k.span true k.dst.cursor).map (·.1)).getD 0)))
  target : ∀ v w d r cause val, u.dstCheck k = (v, .ok d) → v.srcCheck k = (w, .ok r) →
    (k.dst.perm permTRY = false ∨ u.me.cpdepth = 0) → (∀ x ∈ d, (∀ y ∈ r.1, overlapSpan x y = false) ∧
      ∀ b ∈ (w.quire (quireOf u.cur)).dir, overlapSpan x (b.cid + 1, (b.off : Int), (b.off : Int) + 16) = false) →
    w.targetCheck k = some (.trap cause val) → o = .next (w.raise u.cur cause val)
  waits : ∀ v w d r, u.dstCheck k = (v, .ok d) → v.srcCheck k = (w, .ok r) →
    (k.dst.perm permTRY = false ∨ u.me.cpdepth = 0) → (∀ x ∈ d, (∀ y ∈ r.1, overlapSpan x y = false) ∧
      ∀ b ∈ (w.quire (quireOf u.cur)).dir, overlapSpan x (b.cid + 1, (b.off : Int), (b.off : Int) + 16) = false) →
    w.targetCheck k = none →
    ((d ++ r.1).any w.sideOff = true → w.storesOut u.cur 2 = true → o = .next (w.waiting .instr)) ∧
    ((d ++ r.1).any w.sideOff = false ∨ w.storesOut u.cur 2 = false → ∃ t, o = .next t ∧
      (t.strand u.cur).wait = .copySlot { k with
        seq := u.serial, cid := coreOf u.cur, sid := u.cur, gang := u.me.gangNo, group := u.me.group, rows := r.2 } ∧
      (∀ n, (t.arch u.cur).readG n = u.me.readG n) ∧ (t.arch u.cur).pcc = u.me.pcc ∧
      (∀ j, j ≠ u.cur → t.strand j = u.strand j) ∧
      { t with strands := u.strands, serial := u.serial, cores := u.cores } = u)

/-- The address arithmetic of 15 R283 before it is cut to an address: the sum of the strides of a side at some indices. -/
def strideSum : List Nat → List Int → Int
  | i :: is, t :: ts => (i : Int) * t + strideSum is ts
  | _, _ => 0

/-! ## Stage barriers (15) -/

/-- The members of major 0x26: the barrier's register, the permission asked of it, whether it need not be registered, and the registers
read. -/
def barrierMember : Instr → Option (BitVec 6 × Nat × Bool × List RegName)
  | .sbInit x y => some (x, permST, true, [.g x, .g y])
  | .sbArr x => some (x, permST, false, [.g x])
  | .sbExp x y => some (x, permST, false, [.g x, .g y])
  | .sbTest x y z => some (y, permLD, false, [.g y, .g z, .g x])
  | .sbWait x y => some (x, permLD, false, [.g x, .g y])
  | .sbBrk x y => some (x, permST, false, [.g x, .g y])
  | _ => none

/-- The checks of 15 R304 pass for the barrier that a register names, which lies at an offset of a core of the quire, and nothing keeps
it from being written. -/
structure AtBarrier (u : State) (bar : BitVec 6) (perm : Nat) (init : Bool) (cid off : Nat) : Prop where
  allowed : checkCap u.me.smode (u.me.readG bar) (u.me.readG bar).cursor 16 [perm] 0 = none
  here : u.place (coreOf u.cur) (u.me.readG bar).cursor = .pad cid 0 off
  aligned : (u.me.readG bar).cursor % 16 = 0
  quire : quireOfCore cid = quireOf u.cur
  inside : off + 16 ≤ u.padSize cid
  open_ : u.me.smode = true ∨ u.protectedRaw cid off = false
  named : init = false → (u.quire (quireOf u.cur)).names cid off = true
  free : u.sectorsHeld (some u.cur) [padLoc cid off] = none

/-- The strand that issues is not parked at a stage barrier. -/
def Unparked (s : State) : Prop := (s.strand s.cur).wait ≠ .passed ∧ ∀ l p a, (s.strand s.cur).wait ≠ .stage l p a

/-- The bytes that an arrival expects: none for sb.arr. -/
def arrivalBytes (x : Arch) : Instr → Option (BitVec 6 × Nat)
  | .sbArr b => some (b, 0)
  | .sbExp b y => if (x.word y).toNat < 2 ^ 31 then some (b, (x.word y).toNat) else none
  | _ => none

/-! ## Stamped commit (19) -/

/-- The clock of a die holds the reference time: earliest ≤ now ≤ latest, also when discipline lets go of latest (19 R357). -/
def HoldsTime (now : Nat) (d : Die) : Prop := d.earliest ≤ now ∧ now + d.hold ≤ d.latest

/-- The version that a stamped store sends. -/
def versionOf (loc : Nat) (data : BitVec 64) (stamp package die sid seq : Nat) : Version :=
  { loc := loc, data := data, stamp := stamp, package := package, die := die, sid := sid, seq := seq, released := false }

/-- The read of `line` for stp.rd or ld.asof may join the chunk of a strand: it follows no ramo to that line, passes no line limit, and
has an entry of the remote-access unit if the line is not homed on the die (01 R16, 16 R317, 17 R340). -/
structure StampJoins (u : State) (line : Nat) : Prop where
  ordered : u.behindRmw u.cur [line] = false
  room : u.lineRoom u.cur (onDieLines (dieOf u.cur) [line]) [] = true
  entry : locOnDie (dieOf u.cur) line = false → u.rauFull (coreOf u.cur) = false

/-- `t` is `u` with that read under way: a line that the die homes is in the read signature of the open chunk, and one farther away is
an access of the remote-access unit. -/
structure StampSent (u t : State) (line : Nat) : Prop where
  near : locOnDie (dieOf u.cur) line = true → (∃ c, (t.strand u.cur).opened = some c ∧ lineOf line ∈ c.reads) ∧ t.remotes = u.remotes
  far : locOnDie (dieOf u.cur) line = false →
    t.remotes = u.remotes ++
      [{ id := u.serial + 1, cid := coreOf u.cur, sid := u.cur, gang := u.me.gangNo, group := u.me.group, live := true
         kind := .load u.serial [line], performed := false, failed := none }]
  rest : t.mem = u.mem ∧ t.tags = u.tags ∧ t.msgs = u.msgs

/-! ## Try-each (20) -/

/-- No open chunk has read a line of some locations. -/
def NoReaders (s : State) (l : List Nat) : Prop := ∀ k, ∀ x ∈ (s.strand k).chunks, ∀ a ∈ l, lineOf a ∉ x.reads

/-- The checks of try that precede its table's entry (20 R382): the count, the table capability, the search area, and its area against
that of the newest choice point. -/
structure TryChecks (u : State) (x y z : BitVec 6) : Prop where
  settled : (u.strand u.cur).busy = false
  count : 1 ≤ (u.me.word y).toNat ∧ (u.me.word y).toNat ≤ 65535
  table : checkCap u.me.smode (u.me.readG x) (u.me.readG x).cursor (4 * (u.me.word y).toNat) [permLD, permX] 4 = none
  area : ∃ off, u.checkArea (u.me.readG z) = .ok off
  same : 0 < u.me.cpdepth.toNat → (u.me.readG z).base = (u.choicePoint (u.cpLoc u.cur (u.me.cpdepth.toNat - 1))).area.base ∧
    (u.me.readG z).top = (u.choicePoint (u.cpLoc u.cur (u.me.cpdepth.toNat - 1))).area.top

/-- The choice point that try pushes (20 R382). -/
def pushed (u : State) (x y z : BitVec 6) : ChoicePoint :=
  { table := u.me.readG x, next := 1, count := (u.me.word y).toNat, mark := u.me.trTop, area := u.me.readG z,
    regs := (List.range 29).map fun k => u.me.readG (BitVec.ofNat 6 (k + 1)) }

/-- The registers of a strand that starts an alternative from a choice point (20 R383, R385): g1 to g29 and the PCC are those of the
point, and everything else but the depth and the trail is as before. -/
structure Starts (a b : Arch) (p : ChoicePoint) (t : BitVec 64) : Prop where
  saved : ∀ k < 29, b.readG (BitVec.ofNat 6 (k + 1)) = p.regs.getD k .null
  others : ∀ n : BitVec 6, 30 ≤ n.toNat → b.readG n = a.readG n
  pc : b.pcc = p.table.withCursor t
  rest : { b with g := a.g, pcc := a.pcc, cpdepth := a.cpdepth, trail := a.trail, evcnt := a.evcnt } = a

/-- Where undoing the trail to a mark writes in a scratchpad, and what, newest entry first (20 R380). -/
def undone (s : State) (cid : Nat) (l : List TrailEntry) : State := forAll l (fun s e => s.putWord (padLoc cid e.raw) e.old e.tag) s

/-- The sectors of a run of raw bytes. -/
def sectorsOf (cid lo n : Nat) : List Nat := (List.range ((lo + n + 15) / 16 - lo / 16)).map fun k => padLoc cid ((lo / 16 + k) * 16)

/-- What tsteal reads of a victim whose registers are `av` and whose oldest choice point is `p` (20 R385): the point, its area, and the
trail from its mark. -/
def theftReads (cid : Nat) (av : Arch) (p : ChoicePoint) (len : Nat) : List Nat :=
  padLoc cid av.cpBase :: sectorsOf cid p.area.rawBase len ++ sectorsOf cid (av.trBase + 16 * p.mark) (16 * (av.trTop - p.mark))

/-- The choice point of the thief that takes the alternatives of `p` from `j` on, in its own area (20 R385). -/
def stolen (p : ChoicePoint) (j : Nat) (area : Reg) : ChoicePoint :=
  { table := p.table, next := j + 1, count := p.count, mark := 0, area := area, regs := p.regs }

/-- What tsteal writes: its own choice point at `own`, the count of the victim's, and the words of its area from `off` on. -/
def theftWrites (cid : Nat) (av : Arch) (own : Nat) (q : ChoicePoint) (off len : Nat) : List Nat :=
  (q.at own).map (·.1) ++ [padLoc cid av.cpBase + 16] ++ (List.range (len / 8)).map fun k => padLoc cid (off + 8 * k)

/-! ## The Bindery (21) -/

/-- The message at hand is a MAP that the Bindery serves, no operation of it has ended it, and its next operation is number `op`
(21 R389, R391, R393). -/
structure NotYet (s : State) (op : Nat) : Prop where
  serves : s.serves 2 = true
  goes : ∀ w ∈ s.bindery.mapWaits, w.sender = s.mapOp.sender → w.id = s.mapOp.id → w.last = false
  whole : s.mapOp.off + 32 ≤ s.body.length
  number : s.mapOp.op = op

/-- What a MAP still waits for when its operation `o` has been applied in `u` (08 R165): what was open at an invalidation. -/
def Owed (u : State) (o : MapOp) (l : List OpenRef) : Prop :=
  (∃ c ∈ l, u.stillOpen c = true) ∨
    ∃ w ∈ u.bindery.mapWaits, w.sender = o.sender ∧ w.id = o.id ∧ ∃ c ∈ w.open_, u.stillOpen c = true

/-- `t` is `u` once the operation `o` of a MAP is over there with a status, `l` being what was open at its invalidation (21 R391, R393):
the last operation, or one that fails, is answered as soon as nothing is owed, with its offset if the status is 1; else the Bindery
keeps it in mind. -/
structure Answered (u t : State) (o : MapOp) (status : Nat) (l : List OpenRef) : Prop where
  replied : (o.last = true ∨ status ≠ 0) → ¬ Owed u o l →
    t = (u.onBindery fun b => { b with mapWaits := b.mapWaits.filter fun w => !(w.sender == o.sender && w.id == o.id) }).reply
      o.sender o.id status (if status = 1 then o.off else 0) []
  kept : (o.last = false ∧ status = 0) ∨ Owed u o l →
    t = u.onBindery fun b =>
      { b with mapWaits := b.mapWaits ++
          [{ sender := o.sender, id := o.id, ordered := o.ordered, off := o.off, last := o.last || status != 0, status := status
             open_ := l }] }

/-- The event of operation `op` of a MAP (21 R393). -/
def MapEvent (i : Instr) (op : Nat) : Prop :=
  (i, op) ∈ [(.mapPage, 1), (.unmapPage, 2), (.setRegion, 3), (.removeRegion, 4), (.setDomain, 5), (.setSender, 6), (.registerPeer, 7)]

/-- A sender may change the mapping of a domain (21 R392). -/
def MayMap (s : State) (sender dom : Nat) : Prop := s.isAdmin sender = true ∨ s.hasAuthority sender dom = true

/-- A region as operation 3 gives it (21 R393). -/
def regionOf (o : MapOp) : Region :=
  { base := o.a, size := o.b % 64, r := o.b.testBit 8, w := o.b.testBit 9, x := o.b.testBit 10, e := o.b.testBit 11 }

/-- The page entry that operation 1 gives (21 R393). -/
def pageOf (o : MapOp) : PageEntry :=
  { page := o.a, big := o.c.testBit 0, frame := o.b, w := o.c.testBit 1, st := o.c.testBit 2 }

/-- The message at hand is a request of a type that the Bindery serves, with its sender and id (21 R389, R391). -/
def Serves (s : State) (type sender id : Nat) : Prop := s.serves type = true ∧ s.argN 0 = sender ∧ s.reqId = id

/-- The message at hand is a QUERY with a selector and an argument (21 R393). -/
def Asks (s : State) (sel sender id x : Nat) : Prop :=
  Serves s 4 sender id ∧ fieldAt s.body 0 1 = sel ∧ fieldAt s.body 8 8 = x

/-- The event of selector `sel` of a QUERY (21 R393). -/
def QueryEvent (i : Instr) (sel : Nat) : Prop :=
  (i, sel) ∈ [(.queryGangs, 1), (.queryFeatures, 2), (.querySensors, 3), (.queryLog, 4), (.queryIdentity, 5), (.queryGang, 6)]

/-- `t` is `s` with one more reply sent. -/
def Replied (s t : State) (sender id status off : Nat) (body : List Byte) : Prop :=
  t = { s with bindery := { s.bindery with sent := s.bindery.sent ++ [.reply sender id status off body] } }

/-! ## Launches (21 R395 to R399) -/

/-- The fields of a LAUNCH lie in their ranges (21 R395, R397 step 2, 02 R40), counting the cores of a pair once. -/
structure InRange (f : Nat → Nat → Nat) : Prop where
  cores : 1 ≤ f 0 2 ∧ f 0 2 ≤ unitLimit (f 2 1) (f 3 1 == 1)
  place : f 2 1 ≤ 3 ∧ ¬ (f 3 1 = 1 ∧ f 2 1 = 0)
  pair : f 3 1 ≤ 1
  msplit : f 4 1 ≤ 6
  prio : f 5 1 ≤ 3
  chunklim : 16 ≤ f 6 2 ∧ f 6 2 ≤ 256
  stack : 256 ≤ f 8 2 ∧ f 8 2 ≤ 16384 ∧ f 8 2 % 256 = 0
  argw : f 11 1 ≤ 1
  chips : 1 ≤ f 12 1 ∧ f 12 1 ≤ 64
  dqlog : 8 ≤ f 13 1 ∧ f 13 1 ≤ 20
  timeout : 1000 ≤ f 40 8 ∧ f 40 8 ≤ 3600000000
  ctxmap : f 48 8 ≠ 2 ^ 64 - 1 → f 48 8 % 8 = 0 ∧ f 32 8 ≠ 2 ^ 64 - 1
  deadline : f 12 1 = 1 → f 56 8 = 0

/-- A reply of a Bindery event as a value. -/
def replyState (s : State) (sender id status off : Nat) (body : List Byte) : State :=
  { s with bindery := { s.bindery with sent := s.bindery.sent ++ [.reply sender id status off body] } }

/-- A LAUNCH on one chip that the Bindery has checked up to its object (21 R397 steps 1 and 2), and `l` is the launch it asks for, with
the gang number it would get. -/
structure Launches (s : State) (sender id : Nat) (l : Launch) : Prop where
  serves : Serves s 3 sender id
  open_ : s.bindery.noLaunch = false
  authority : s.hasAuthority sender (fieldAt s.body 10 1) = true
  fields : s.launchBad s.body = none
  single : fieldAt s.body 12 1 ≤ 1
  launch : l = { launchOf sender id s.body with gang := s.nextGang }

/-- A message from a registered peer reaches the Bindery (21 R391). -/
structure FromPeer (s : State) (peer gang : Nat) : Prop where
  accepting : s.bindery.accepting = true
  sender : s.argN 0 = peer
  about : s.argN 1 = gang
  known : ∃ a, (peer, a) ∈ s.bindery.peers

/-! ## The shared steps of issue (03 R51, 05 R84) -/

/-- The registers that an instruction of 04, 05 R91 or 06 reads, in the order of 05 R84: the mask, the sources, the destination. -/
def namedReads (x : Arch) (i : Instr) : List RegName :=
  match branchOf x i, loadOf x i, storeOf x i with
  | some (a, b, _, _), _, _ => [.g a, .g b]
  | _, some l, _ => l.reads
  | _, _, some y => y.reads
  | _, _, _ => scalarReads i

/-- The privileged instructions (03 R53) that are not writes of a CSR. -/
def privilegedOnly : Instr → Bool
  | .gpre _ | .gkill _ | .plbInv _ _ | .mapInv _ _ | .bnClr _ _ | .bnCfg _ _ | .bnRd _ _ | .mig _ _ _ => true
  | _ => false

/-- The value of PEND: the number of a g-register, or of a v-register with bit 6 set (05 R84). -/
def pendingNumber : RegName → BitVec 64
  | .g n => BitVec.ofNat 64 n.toNat
  | .v n => BitVec.ofNat 64 (64 + n.toNat)

end Sys2Proof.Claims

open Sys2Proof.Claims

/-! # Scalar integers and capabilities (04) -/

/-- 04 R73 to R76 and the fixed members of R72: the result in data form, and nothing else changes.

04 R72: clz, ctz and popc count, said by what a count is.

04 R72: mov and sel carry all 128 bits and the tag.

04 R62 to R64, R72, 01 R7: a product or quotient leaves its destination outstanding with the value that will be written; while the
core's divider is busy a divide does not issue. -/
def Obligations.IntegerInstructionsCompute : Prop :=
  (
    ∀ (s : State) (i : Instr) (d : BitVec 6) (v : BitVec 64), intValue s.me i = some (d, v) →
      MayIssue false false (scalarReads i) s →
      ∃ t, exec i s = .next t ∧ Ran s t (s.me.writeG d (.data v)).advance (s.strand s.cur).out) ∧
  (
    ∀ (s : State) (d a : BitVec 6), MayIssue false false [.g a, .g d] s →
      (∃ t n, exec (.clz d a) s = .next t ∧ Ran s t (s.me.writeG d (.data (BitVec.ofNat 64 n))).advance (s.strand s.cur).out ∧
        n ≤ 64 ∧ (s.me.word a).toNat < 2 ^ (64 - n) ∧ (n < 64 → (s.me.word a).getLsbD (63 - n) = true)) ∧
      (∃ t n, exec (.ctz d a) s = .next t ∧ Ran s t (s.me.writeG d (.data (BitVec.ofNat 64 n))).advance (s.strand s.cur).out ∧
        n ≤ 64 ∧ (∀ k, k < n → (s.me.word a).getLsbD k = false) ∧ (n < 64 → (s.me.word a).getLsbD n = true)) ∧
      (∃ t, exec (.popc d a) s = .next t ∧
        Ran s t (s.me.writeG d (.data (BitVec.ofNat 64 ((List.range 64).countP (s.me.word a).getLsbD)))).advance
          (s.strand s.cur).out)) ∧
  (
    ∀ (s : State) (d a b : BitVec 6),
      (MayIssue false false [.g a, .g d] s →
        ∃ t, exec (.mov d a) s = .next t ∧ Ran s t (s.me.writeG d (s.me.readG a)).advance (s.strand s.cur).out) ∧
      (MayIssue false false [.g a, .g b, .g d] s →
        ∃ t, exec (.sel d a b) s = .next t ∧
          Ran s t (s.me.writeG d (if s.me.word d = 0 then s.me.readG b else s.me.readG a)).advance (s.strand s.cur).out)) ∧
  (
    ∀ (s : State) (i : Instr) (d : BitVec 6) (v : BitVec 64) (divider : Bool), productValue s.me i = some (d, v, divider) →
      (divider = false ∨ s.dividing (coreOf s.cur) = false → MayIssue false false (scalarReads i) s →
        ∃ t chunk, exec i s = .next t ∧
          Ran s t s.me.advance ((s.strand s.cur).out ++
            [left s chunk [.g d] (if divider then .divide [.g d (.data v)] else .ready [.g d (.data v)] Flags.none)])) ∧
      (divider = true → s.dividing (coreOf s.cur) = true → exec i s = .next s))

/-- 04 R77, R81: the derived image; a sealed capability traps CAPSEAL; a cursor that is not representable costs the tag. -/
def Obligations.CursorsMoveOrLoseTheTag : Prop :=
  ∀ (s u : State) (i : Instr) (d a : BitVec 6) (bits : BitVec 128), derivedBits s.me i = some (d, a, bits) →
    Issues false (scalarReads i) s u →
    ((s.me.readG a).tag = true ∧ (s.me.readG a).otype ≠ 0 →
      exec i s = .next (u.raise s.cur .capseal (s.me.word a))) ∧
    ((s.me.readG a).tag = false ∨ (s.me.readG a).otype = 0 →
      ∃ t, exec i s = .next t ∧
        Ran s t (s.me.writeG d ⟨bits, (s.me.readG a).tag &&
          decide ((s.me.readG a).base ≤ (bits.extractLsb' 0 64).toNat ∧
            ((bits.extractLsb' 0 64).toNat : Int) < (s.me.readG a).base + 2 ^ ((s.me.readG a).exp + 21))⟩).advance
          (s.strand s.cur).out)

/-- 04 R69: the bounds are recovered from any representable cursor.

04 R78: cbnd gives exactly the bounds asked for, with the permissions and the cursor of its source.

04 R78: cbndr rounds outward to the grain of the exponent, which one increment always makes large enough, and stays within its
source. -/
def Obligations.BoundsAreTheLabelsAlone : Prop :=
  (
    ∀ (c : Reg) (a : BitVec 64), c.base ≤ a.toNat → (a.toNat : Int) < c.base + 2 ^ (c.exp + 21) →
      (c.withCursor a).base = c.base ∧ (c.withCursor a).top = c.top) ∧
  (
    ∀ (s : State) (d a b : BitVec 6) (e : Nat) (c : Reg), c = s.me.readG a → MayIssue false false [.g a, .g b, .g d] s →
      c.tag = true → c.otype = 0 → c.base ≤ c.cursor → (c.cursor : Int) + (s.me.word b).toNat ≤ c.top → c.top ≤ 2 ^ 56 →
      Smallest e (s.me.word b).toNat → c.cursor % 2 ^ e = 0 → (c.cursor + (s.me.word b).toNat) % 2 ^ e = 0 →
      ∃ t r, exec (.cbnd d a b) s = .next t ∧ Ran s t (s.me.writeG d r).advance (s.strand s.cur).out ∧
        r.tag = true ∧ r.low = c.low ∧ r.otype = 0 ∧ (∀ k, k < 12 → r.perm k = c.perm k) ∧
        r.base = c.cursor ∧ r.top = c.cursor + (s.me.word b).toNat) ∧
  (
    ∀ (s : State) (d a b : BitVec 6) (e0 e len : Nat) (c : Reg), c = s.me.readG a → len = (s.me.word b).toNat →
      MayIssue false false [.g a, .g b, .g d] s → c.tag = true → c.otype = 0 → c.top ≤ 2 ^ 56 → Smallest e0 len →
      e = (if (2 ^ 21 - 1) * 2 ^ e0 < roundUp (c.cursor + len) e0 - roundDown c.cursor e0 then e0 + 1 else e0) →
      c.base ≤ (roundDown c.cursor e : Nat) → ((roundUp (c.cursor + len) e : Nat) : Int) ≤ c.top →
      ∃ t r, exec (.cbndr d a b) s = .next t ∧ Ran s t (s.me.writeG d r).advance (s.strand s.cur).out ∧
        r.tag = true ∧ r.low = c.low ∧ r.otype = 0 ∧ (∀ k, k < 12 → r.perm k = c.perm k) ∧
        r.base = (roundDown c.cursor e : Nat) ∧ r.top = ((roundUp (c.cursor + len) e : Nat) : Int))

/-- 04 R79: what cseal and cunseal give when their checks pass.

04 R78, R79: the first checks of the instructions that narrow, seal and unseal, each with its cause and value. -/
def Obligations.SealingAndItsChecks : Prop :=
  (
    ∀ (s : State) (d a b : BitVec 6) (c x : Reg), c = s.me.readG a → x = s.me.readG b →
      MayIssue false false [.g a, .g b, .g d] s → c.tag = true → x.tag = true → x.otype = 0 →
      x.base ≤ x.cursor → (x.cursor : Int) < x.top →
      (c.otype = 0 → x.perm permSEAL = true → 1 ≤ x.cursor → x.cursor ≤ 15 →
        ∃ t r, exec (.cseal d a b) s = .next t ∧ Ran s t (s.me.writeG d r).advance (s.strand s.cur).out ∧
          r.tag = true ∧ r.otype = x.cursor ∧ r.bits.extractLsb' 0 112 = c.bits.extractLsb' 0 112 ∧
          r.bits.extractLsb' 116 12 = c.bits.extractLsb' 116 12) ∧
      (c.otype ≠ 0 → x.perm permUNSEAL = true → x.cursor = c.otype →
        ∃ t r, exec (.cunseal d a b) s = .next t ∧ Ran s t (s.me.writeG d r).advance (s.strand s.cur).out ∧
          r.tag = true ∧ r.otype = 0 ∧ r.bits.extractLsb' 0 112 = c.bits.extractLsb' 0 112 ∧
          (∀ k, 1 ≤ k → k < 12 → r.perm k = c.perm k) ∧
          r.perm permGLOBAL = (c.perm permGLOBAL && x.perm permGLOBAL))) ∧
  (
    ∀ (s u : State) (d a b : BitVec 6) (i : Instr), i = .cbnd d a b ∨ i = .cbndr d a b ∨ i = .cseal d a b ∨ i = .cunseal d a b →
      Issues false [.g a, .g b, .g d] s u →
      ((s.me.readG a).tag = false → exec i s = .next (u.raise s.cur .captag (s.me.word a))) ∧
      ((s.me.readG a).tag = true → i = .cbnd d a b ∨ i = .cbndr d a b → (s.me.readG a).otype ≠ 0 →
        exec i s = .next (u.raise s.cur .capseal (s.me.word a))) ∧
      ((s.me.readG a).tag = true → i = .cbnd d a b ∨ i = .cbndr d a b → (s.me.readG a).otype = 0 →
        ((s.me.readG a).cursor : Int) < (s.me.readG a).base ∨
          (s.me.readG a).top < (s.me.readG a).cursor + (s.me.word b).toNat →
        exec i s = .next (u.raise s.cur .capbnd (s.me.word a))) ∧
      ((s.me.readG a).tag = true → i = .cseal d a b ∨ i = .cunseal d a b → (s.me.readG b).tag = false →
        exec i s = .next (u.raise s.cur .captag (s.me.word b))) ∧
      ((s.me.readG a).tag = true → i = .cseal d a b ∨ i = .cunseal d a b → (s.me.readG b).tag = true →
        (s.me.readG b).otype ≠ 0 → exec i s = .next (u.raise s.cur .capseal (s.me.word b))))

/-- 04 R80: the inspection members, which never trap on tag, seal or bounds. -/
def Obligations.InspectionReportsTheFields : Prop :=
  ∀ (s : State) (i : Instr), MayIssue false false (scalarReads i) s →
    (∀ d v, inspected s.me i = some (d, v) →
      ∃ t, exec i s = .next t ∧ Ran s t (s.me.writeG d (.data v)).advance (s.strand s.cur).out) ∧
    (∀ d a, i = .cclr d a →
      ∃ t, exec i s = .next t ∧
        Ran s t (s.me.writeG d ⟨(s.me.readG a).bits, false⟩).advance (s.strand s.cur).out)

/-- 04 Notes on R77 to R80: no instruction of the family gives a strand more than it held. It completes with a result that, if it is
tagged, lies within its source, or it traps. -/
def Obligations.DerivedCapabilitiesNeverGrow : Prop :=
  ∀ (s u : State) (i : Instr) (d a : BitVec 6), derives i = some (d, a) → (s.me.readG a).top ≤ 2 ^ 56 →
    Issues false (scalarReads i) s u →
    (∃ t r, exec i s = .next t ∧ Ran s t (s.me.writeG d r).advance (s.strand s.cur).out ∧
      (r.tag = true → (s.me.readG a).tag = true ∧ Within r (s.me.readG a))) ∨
    (∃ cause val, exec i s = .next (u.raise s.cur cause val))

/-! # Control (05) -/

/-- 05 R91: a branch taken goes to its target if the PCC covers it, and traps if not; one not taken checks nothing.

05 R93: jr and callr replace the PCC whole; ga is read before lk is written. -/
def Obligations.BranchesAndRegisterJumps : Prop :=
  (
    ∀ (s u : State) (i : Instr) (a b : BitVec 6) (holds : Bool) (off : BitVec 10), branchOf s.me i = some (a, b, holds, off) →
      Issues false [.g a, .g b] s u →
      (holds = false → ∃ t, exec i s = .next t ∧ Ran s t s.me.advance (s.strand s.cur).out) ∧
      (holds = true → ∀ target, target = BitVec.ofInt 64 (s.me.pcc.low.toInt + 4 * off.toInt) →
        (checkCap s.me.smode s.me.pcc target.toNat 4 [permX] 0 = none →
          ∃ t, exec i s = .next t ∧ Ran s t (goto s.me target) (s.strand s.cur).out) ∧
        (∀ cause, checkCap s.me.smode s.me.pcc target.toNat 4 [permX] 0 = some cause →
          exec i s = .next (u.raise s.cur cause target)))) ∧
  (
    ∀ (s u : State) (a : BitVec 6),
      (Issues false [.g a] s u →
        (checkCap s.me.smode (s.me.readG a) (s.me.readG a).cursor 4 [permX] 4 = none →
          ∃ t, exec (.jr a) s = .next t ∧ Ran s t (within s.me (s.me.readG a)) (s.strand s.cur).out) ∧
        (∀ cause, checkCap s.me.smode (s.me.readG a) (s.me.readG a).cursor 4 [permX] 4 = some cause →
          exec (.jr a) s = .next (u.raise s.cur cause (s.me.word a)))) ∧
      (Issues false [.g a, .g 1] s u →
        (checkCap s.me.smode (s.me.readG a) (s.me.readG a).cursor 4 [permX] 4 = none →
          ∃ t, exec (.callr a) s = .next t ∧
            Ran s t (within (s.me.writeG 1 (returnCap s.me)) (s.me.readG a)) (s.strand s.cur).out) ∧
        (∀ cause, checkCap s.me.smode (s.me.readG a) (s.me.readG a).cursor 4 [permX] 4 = some cause →
          exec (.callr a) s = .next (u.raise s.cur cause (s.me.word a)))))

/-- 05 R92: jmp and call go to a target that the PCC covers, and trap on one that it does not; call leaves the return capability in
lk, and traps PEND while lk is outstanding, if it has no marker. -/
def Obligations.JumpsAndCallsStayInTheCode : Prop :=
  ∀ (s u : State) (off : BitVec 25) (target : BitVec 64), target = BitVec.ofInt 64 (s.me.pcc.low.toInt + 4 * off.toInt) →
    (Issues false [] s u →
      (checkCap s.me.smode s.me.pcc target.toNat 4 [permX] 0 = none →
        ∃ t, exec (.jmp off) s = .next t ∧ Ran s t (goto s.me target) (s.strand s.cur).out) ∧
      (∀ cause, checkCap s.me.smode s.me.pcc target.toNat 4 [permX] 0 = some cause →
        exec (.jmp off) s = .next (u.raise s.cur cause target))) ∧
    (Issues false [.g 1] s u →
      (checkCap s.me.smode s.me.pcc target.toNat 4 [permX] 0 = none →
        ∃ t, exec (.call off) s = .next t ∧ Ran s t (goto (s.me.writeG 1 (returnCap s.me)) target) (s.strand s.cur).out) ∧
      (∀ cause, checkCap s.me.smode s.me.pcc target.toNat 4 [permX] 0 = some cause →
        exec (.call off) s = .next (u.raise s.cur cause target))) ∧
    (s.park = false → (s.strand s.cur).isOut (.g 1) = true → exec (.call off) s = .next (s.raise s.cur .pend 1))

/-- 05 R96: rpt checks its frame, then starts it or, with a count of zero, passes it by. The fetch of its words is a use of their
lines (05 R89).

05 R96, R100: nop only moves on: to the next word; inside a live frame to the next index, from the last index to the next
iteration, and from the last iteration out of the frame. Its chunk counts it. -/
def Obligations.RepeatAndNopMoveOn : Prop :=
  (
    ∀ (s u : State) (i : Instr) (len : BitVec 4) (d a b : BitVec 2) (count : Nat) (words : List (BitVec 32)),
      ((∃ cnt : BitVec 14, i = .rptConst len d a b cnt ∧ count = cnt.toNat + 1 ∧ Issues false [] s u) ∨
        (∃ g : BitVec 6, i = .rptReg len d a b g ∧ count = (s.me.word g).toNat ∧ Issues false [.g g] s u)) →
      checkCap s.me.smode s.me.pcc (s.me.pcc.low + 4).toNat (4 * (len.toNat + 1)) [permX] 0 = none →
      frameWords s.me.smode (u.fetchWord s.cur s.me.pcc) (s.me.pcc.low + 4).toNat (len.toNat + 1) = .ok words →
      (count = 0 → ∃ t, exec i s = .next t ∧
        RanFetching s t (s.me.pcc.low + 4).toNat (len.toNat + 1) (goto s.me (s.me.pcc.low + 4 + BitVec.ofNat 64 (4 * (len.toNat + 1))))
          (s.strand s.cur).out) ∧
      (0 < count → count ≤ 16384 → ∃ t, exec i s = .next t ∧
        RanFetching s t (s.me.pcc.low + 4).toNat (len.toNat + 1) { s.me with
          pcc := s.me.pcc.withCursor (s.me.pcc.low + 4), fbuf := (s.me.pcc.low + 4, words),
          frame := some { len := len.toNat + 1, index := 0, dstep := d.toNat, astep := a.toNat, bstep := b.toNat, left := count,
                          k := 0, base := s.me.pcc.low + 4, words := words } } (s.strand s.cur).out) ∧
      (16384 < count → exec i s =
        .next ((u.touchWords s.cur (s.me.pcc.low + 4).toNat (len.toNat + 1)).raise s.cur .ill (BitVec.ofNat 64 count)))) ∧
  (
    ∀ (s u : State), Issues false [] s u →
      ∃ t, exec .nop s = .next t ∧ Ran s t s.me.advance (s.strand s.cur).out ∧
        (∀ c, (u.strand s.cur).opened = some c → (t.strand s.cur).opened = some { c with count := c.count + 1 }) ∧
        (s.me.frame = none → t.me.pcc = s.me.pcc.withCursor (s.me.pcc.low + 4) ∧ t.me.frame = none) ∧
        (∀ f, s.me.frame = some f →
          (f.index + 1 < f.len → t.me.pcc = s.me.pcc.withCursor (s.me.pcc.low + 4) ∧
            t.me.frame = some { f with index := f.index + 1 }) ∧
          (f.len ≤ f.index + 1 → 1 < f.left → t.me.pcc = s.me.pcc.withCursor f.base ∧
            t.me.frame = some { f with index := 0, left := f.left - 1, k := f.k + 1 }) ∧
          (f.len ≤ f.index + 1 → f.left ≤ 1 → t.me.pcc = s.me.pcc.withCursor (f.base + BitVec.ofNat 64 (4 * f.len)) ∧
            t.me.frame = none)))

/-! # Memory (06) -/

/-- 06 R115, R117: a load whose checks pass leaves its destination outstanding with the request it makes, moves on, and changes no
memory and no other strand.

06 R115, R71: what a scalar load of the own scratchpad reads: its bytes, extended to 64 bits, or a sector whose tag it keeps if
its base holds LDC. Where the rules leave a point open it holds of the choice the model makes (assumptions 28, 41, 42, 78 and 83). -/
def Obligations.LoadsReadMemory : Prop :=
  (
    ∀ (s u : State) (i : Instr) (reads : List RegName) (base : Reg) (accs : List Access) (wide : Bool) (form : LoadForm)
      (dst : RegName) (elems : List (Access × Elem × Bool)),
      loadOf s.me i = some ⟨reads, base, accs, wide, form, dst⟩ → Issues false reads s u →
      (∀ v a vm z m, i = .vldB v a vm z m → base.cursor % 16 = 0 ∨ accs = []) →
      u.checkAll s.cur base accs (loadDemand wide) = none →
      elems = (accs.flatMap fun x => (u.elemsOf s.cur x).1.map fun y => (x, y, (u.elemsOf s.cur x).2)) →
      (∀ p ∈ (u.strand s.cur).held, p.encoding = false) →
      u.behindRmw s.cur (elems.flatMap fun x => x.2.1.locs) = false →
      u.lineRoom s.cur (onDieLines (dieOf s.cur) (elems.flatMap fun x => x.2.1.locs)) [] = true →
      u.rauFull (coreOf s.cur) = false → (∀ e ∈ elems, ∀ b ∈ e.2.1.locs, u.reachable (dieOf s.cur) b = true) →
      ∃ t chunk, exec i s = .next t ∧
        Own s t s.me.advance ((s.strand s.cur).out ++
          [left s chunk [dst] (.load (u.request s.cur form elems))]) ∧
        t.mem = s.mem ∧ t.tags = s.tags) ∧
  (
    ∀ (s u : State) (i : Instr) (g a : BitVec 6) (n : Nat) (addr : Nat) (loc off : Nat) (kind : Widening),
      scalarLoadOf s.me i = some ⟨g, a, n, addr, kind⟩ → Issues false [.g a, .g g] s u →
      u.checkAccess s.cur (s.me.readG a) { lane := 0, va := addr, n := n } (loadDemand (decide (4 ≤ n))) = none →
      u.place (coreOf s.cur) addr = .pad (u.owner (coreOf s.cur)) 0 off → loc = padLoc (u.owner (coreOf s.cur)) off →
      padCore loc = u.owner (coreOf s.cur) → off % n = 0 → (u.strand s.cur).held = [] →
      u.behindRmw s.cur ((List.range n).map (loc + ·)) = false →
      u.lineRoom s.cur (onDieLines (dieOf s.cur) ((List.range n).map (loc + ·))) [] = true →
      (∀ j, j < n → u.reachable (dieOf s.cur) (loc + j) = true) →
      ∃ t chunk l, exec i s = .next t ∧
        Ran s t s.me.advance ((s.strand s.cur).out ++
          [left s chunk [.g g] (.load l)]) ∧
        l.need = [] ∧
        l.result = ([.g g (match kind with
          | .signed => .data (BitVec.ofInt 64 (BitVec.ofNat (8 * n) (readNat s.mem loc n)).toInt)
          | .unsigned => .data (BitVec.ofNat 64 (readNat s.mem loc n))
          | .sector => { bits := BitVec.ofNat 128 (readNat s.mem loc 16),
                         tag := tagAt s.tags (loc / 16) && (s.me.readG a).perm permLDC })], Flags.none))

/-- 03 R56, 05 R83, 07 R123: a result that is computed or read lands: the registers that its instruction named in its mode are
written, its flags are raised, and it is no longer outstanding. One that a squash has made void is discarded (05 R85). -/
def Obligations.ResultsLand : Prop :=
  ∀ (s : State) (o : Out) (ws : List RegWrite) (fl : Flags), (s.strand (s.argN 0)).outOf (s.argN 1) = some o →
    (o.src = .ready ws fl ∨ (o.src = .divide ws ∧ fl = Flags.none) ∨
      ∃ l, o.src = .load l ∧ l.need = [] ∧ l.result = (ws, fl) ∧ ∀ c ∈ (s.strand (s.argN 0)).chunks, c.held = []) →
    ∃ t, exec .resultReturn s = .next t ∧
      (o.dead = false → t.arch (s.argN 0) = ((s.arch (s.argN 0)).putAll o.smode ws).raise fl) ∧
      (o.dead = true → t.arch (s.argN 0) = s.arch (s.argN 0)) ∧
      (t.strand (s.argN 0)).out = (s.strand (s.argN 0)).out.filter (fun x => x.id != o.id) ∧
      (∀ k, k ≠ s.argN 0 → t.strand k = s.strand k) ∧ { t with strands := s.strands } = s

/-- 06 R103, R116: a store to the own scratchpad writes its bytes in place, clears the tag of the sector (an stc of a tagged register
sets it), and changes no other byte and no other tag. The address is the base register's data bits plus the scaled offset.

06 R103, 08 R157: a store to mapped memory, scalar or vector, waits in its chunk, each sector that it touches as one: no byte and
no tag of memory changes. Where the rules leave a point open it holds of the choice the model makes (assumptions 28, 39, 42, 83
and 84). -/
def Obligations.StoresWriteMemory : Prop :=
  (
    ∀ (s u : State) (i : Instr) (g a : BitVec 6) (n : Nat) (addr : Nat) (loc off : Nat) (k : Demand) (value : BitVec 128) (tag : Bool),
      scalarStoreOf s.me i = some ⟨g, a, n, addr, k, value, tag⟩ → Issues false [.g g, .g a] s u →
      u.checkAccess s.cur (s.me.readG a) { lane := 0, va := addr, n := n } k = none →
      ((s.me.readG a).perm permTRY = false ∨ s.me.cpdepth = 0) →
      u.place (coreOf s.cur) addr = .pad (u.owner (coreOf s.cur)) 0 off → loc = padLoc (u.owner (coreOf s.cur)) off →
      padCore (loc / 16 * 16) = u.owner (coreOf s.cur) → off % n = 0 → off + n ≤ u.padSize (u.owner (coreOf s.cur)) →
      u.behindRmw s.cur [loc / 16 * 16] = false → u.lineRoom s.cur [] [2 * lineOf (loc / 16 * 16) + 1] = true →
      ∃ t, exec i s = .next t ∧ Own s t s.me.advance (s.strand s.cur).out ∧
        (∀ j, j < n → readByte t.mem (loc + j) = byteOf value j) ∧
        (∀ x, x < loc ∨ loc + n ≤ x → readByte t.mem x = readByte s.mem x) ∧
        tagAt t.tags (loc / 16) = tag ∧ (∀ x, x ≠ loc / 16 → tagAt t.tags x = tagAt s.tags x) ∧
        t.cores = s.cores ∧ t.quires = s.quires ∧ t.dies = s.dies ∧ t.remotes = s.remotes ∧ t.msgs = s.msgs) ∧
  (
    ∀ (s u : State) (i : Instr) (reads : List RegName) (base : Reg) (accs : List (Access × BitVec 128)) (k : Demand) (tag : Bool)
      (pieces : List Piece),
      storeOf s.me i = some ⟨reads, base, accs, k, tag⟩ → Issues false reads s u →
      u.checkAll s.cur base (accs.map (·.1)) k = none → (base.perm permTRY = false ∨ s.me.cpdepth = 0) →
      (∀ x ∈ accs, ∃ va, u.place (coreOf s.cur) x.1.va = .mapped va) →
      pieces = (u.piecesOf s.cur accs tag).1 → (∀ p ∈ pieces, u.ownPiece s.cur p = none) →
      u.behindRmw s.cur (pieces.filterMap fun p => match p.xl with
        | .ok loc => some loc
        | _ => none) = false →
      u.lineRoom s.cur [] (pieces.map Piece.line) = true →
      ∃ t, exec i s = .next t ∧ t.mem = s.mem ∧ t.tags = s.tags ∧ (t.strand s.cur).held = (u.strand s.cur).held ++ pieces ∧
        (∀ n, t.me.readG n = s.me.readG n) ∧ t.me.v = s.me.v ∧ t.me.pcc = s.me.advance.pcc ∧
        (∀ j, j ≠ s.cur → t.strand j = s.strand j))

/-! # CSRs (07) -/

/-- 07 R151, 03 R53, R60: csrr writes the register's value to gd; it waits for outstanding results before it reads FFLAGS or an event
counter; it traps PRIV on an S-mode register in U mode and ILL on a number without a CSR.

07 R126, R151: csrw and csrx end their chunk, which leaves `u`, and write a register of the strand, of which the bits that its
layout defines are kept; csrx leaves gd outstanding with the old value. A write of an event counter keeps its 40 bits: the
instruction counts in the other counters alone.

07 R124, R126, 20 R374: the writes that come about within csrw and csrx: a register takes the fields of its layout, a saved PC
takes its cursor as cset gives it, and an area register takes its value or, where the area rules forbid it, traps ILL with it.
Where the rules leave a point open it holds of the choice the model makes (assumptions 54, 61 and 81). -/
def Obligations.CsrReadsAndWritesOfTheStrand : Prop :=
  (
    (∀ (s u : State) (d : BitVec 6) (csr : BitVec 12) (v : BitVec 64),
      Issues (decide (0x100 ≤ csr.toNat)) [.g d] s u → csrValue u s.cur csr.toNat = some v →
      (settledCsr csr.toNat → (u.strand s.cur).out = []) →
      ∃ t, exec (.csrr d csr) s = .next t ∧ Ran s t (s.me.writeG d (.data v)).advance (s.strand s.cur).out) ∧
    (∀ (s u : State) (d : BitVec 6) (csr : BitVec 12), Issues (decide (0x100 ≤ csr.toNat)) [.g d] s u →
      settledCsr csr.toNat → (u.strand s.cur).out ≠ [] → exec (.csrr d csr) s = .next (u.waiting .flags)) ∧
    (∀ (s : State) (d : BitVec 6) (csr : BitVec 12), 0x100 ≤ csr.toNat → s.me.smode = false →
      exec (.csrr d csr) s = .next (s.raise s.cur .priv (s.free 0))) ∧
    (∀ (s u : State) (d : BitVec 6) (csr : BitVec 12), Issues (decide (0x100 ≤ csr.toNat)) [.g d] s u →
      csrValue u s.cur csr.toNat = none → exec (.csrr d csr) s = .next (u.raise s.cur .ill (u.free 0)))) ∧
  (
    (∀ (s u : State) (d a : BitVec 6) (csr : BitVec 12) (x : Arch) (old : BitVec 64),
      csrWritten u.me (u.me.word a) csr.toNat = some x → csrValue u s.cur csr.toNat = some old →
      (settledCsr csr.toNat → (u.strand s.cur).out = []) → areaAllowed u csr.toNat (u.me.word a) →
      (MayEnd (decide (0x100 ≤ csr.toNat)) false [.g a] s u →
        ∃ t, exec (.csrw a csr) s = .next t ∧ Ran u t x.ended (u.strand s.cur).out) ∧
      (MayEnd (decide (0x100 ≤ csr.toNat)) false [.g a, .g d] s u →
        ∃ t chunk, exec (.csrx d a csr) s = .next t ∧ Ran u t x.ended ((u.strand s.cur).out ++
          [left u chunk [.g d] (.ready [.g d (.data old)] Flags.none)]))) ∧
    (∀ (s u : State) (d a : BitVec 6) (csr : BitVec 12) (k : Nat) (x : Arch), (hk : k < 8) → csr.toNat = 0x070 + k →
      (u.strand s.cur).out = [] →
      x = { u.me.ended with evcnt := u.me.ended.evcnt.set k (lowBits 40 (u.me.word a)) } →
      (MayEnd false false [.g a] s u → ∃ t, exec (.csrw a csr) s = .next t ∧ Ran u t x []) ∧
      (MayEnd false false [.g a, .g d] s u →
        ∃ t chunk, exec (.csrx d a csr) s = .next t ∧
          Ran u t x [left u chunk [.g d] (.ready [.g d (.data u.me.evcnt[k])] Flags.none)]))) ∧
  (
    (∀ (s : State) (x : Arch), csrWritten (s.arch (s.argN 0)) (s.argWord 2) (s.argN 1) = some x →
      exec .csrWrite s = .next (s.setStrand (s.argN 0) { s.strand (s.argN 0) with arch := x })) ∧
    (∀ s : State, ∃ t, exec .tpcWrite s = .next t ∧
      (s.argN 1 = 0 → (t.arch (s.argN 0)).uset.pcc = (s.arch (s.argN 0)).uset.pcc.setCursor (s.argWord 2) ∧
        (t.arch (s.argN 0)).sset = (s.arch (s.argN 0)).sset) ∧
      (s.argN 1 ≠ 0 → (t.arch (s.argN 0)).sset.pcc = (s.arch (s.argN 0)).sset.pcc.setCursor (s.argWord 2) ∧
        (t.arch (s.argN 0)).uset = (s.arch (s.argN 0)).uset) ∧ { t with strands := s.strands } = s) ∧
    (∀ s : State, (s.cpstkBad (s.argN 0) (s.argWord 1) = false → ∃ t, exec .cpstkWrite s = .next t ∧
        t.arch (s.argN 0) = { s.arch (s.argN 0) with cpstk := lowBits 17 (s.argWord 1) } ∧ { t with strands := s.strands } = s) ∧
      (s.cpstkBad (s.argN 0) (s.argWord 1) = true → exec .cpstkWrite s = .next (s.raise (s.argN 0) .ill (s.argWord 1)))) ∧
    (∀ s : State, (s.trailBad (s.argN 0) (s.argWord 1) = false → ∃ t, exec .trailWrite s = .next t ∧
        t.arch (s.argN 0) = { s.arch (s.argN 0) with trail := s.argWord 1 &&& 0x7FFF7FFF7FFF } ∧ { t with strands := s.strands } = s) ∧
      (s.trailBad (s.argN 0) (s.argWord 1) = true → exec .trailWrite s = .next (s.raise (s.argN 0) .ill (s.argWord 1)))))

/-- 07 R126, R151: csrw of a CSR of the core changes that core and no other, and only that register; it is privileged.

03 R53, R60, 20 R374: a write of a CSR that no instruction writes, or of a number without one, traps ILL; of an S-mode register in
U mode PRIV; and an area register ILL with the value, if the area rules forbid it. Where the rules leave a point open it holds of
the choice the model makes (assumption 54). -/
def Obligations.CsrWritesOfTheCoreAreChecked : Prop :=
  (
    ∀ (s u : State) (a : BitVec 6) (csr : BitVec 12) (c : Core), MayEnd true false [.g a] s u →
      coreWritten (u.core (coreOf s.cur)) (u.me.word a) csr.toNat = some c →
      ∃ t, exec (.csrw a csr) s = .next t ∧ Own u t u.me.ended (u.strand s.cur).out ∧ t.core (coreOf s.cur) = c ∧
        (∀ k, k ≠ coreOf s.cur → t.core k = u.core k) ∧ { t with strands := u.strands, cores := u.cores } = u) ∧
  (
    (∀ (s u : State) (a : BitVec 6) (csr : BitVec 12), Issues (decide (0x100 ≤ csr.toNat)) [.g a] s u →
      (csr.toNat ∈ [0x000, 0x001, 0x002, 0x003, 0x004, 0x040, 0x052, 0x080, 0x090, 0x0A0] ∨ csrValue s s.cur csr.toNat = none) →
      exec (.csrw a csr) s = .next (u.raise s.cur .ill (u.free 0))) ∧
    (∀ (s : State) (a : BitVec 6) (csr : BitVec 12), (0x100 ≤ csr.toNat ∨ csr.toNat = 0x020 ∨ csr.toNat = 0x021) →
      s.me.smode = false → exec (.csrw a csr) s = .next (s.raise s.cur .priv (s.free 0))) ∧
    (∀ (s u : State) (a : BitVec 6) (csr : BitVec 12), MayEnd false false [.g a] s u →
      ((csr.toNat = 0x050 ∧ u.cpstkBad s.cur (u.me.word a) = true) ∨ (csr.toNat = 0x051 ∧ u.trailBad s.cur (u.me.word a) = true)) →
      exec (.csrw a csr) s = .next (u.raise s.cur .ill (u.me.word a))))

/-! # Traps (07) -/

/-- 07 R127 to R130, 05 R97: a cause that waits is entered when no result of its strand is outstanding and its chunks have committed,
which leaves `u`. At level U, with a handler, the U set takes the PC, cause, value, state and repeat context, HF becomes 1, and
the PC is TVEC under the gang code; at level S, or without a handler, the S set takes them, the mode becomes S, HF 0, and the PC
is SVEC under the stub code. No register changes otherwise, and a new chunk begins. Where the rules leave a point open it holds of
the choice the model makes (assumptions 20 and 62). -/
def Obligations.TrapEntrySavesAndJumps : Prop :=
  (∀ (s : State) (r : TrapReq), (s.strand (s.argN 0)).trap = some r → (s.strand (s.argN 0)).busy = true →
    exec .trapEntry s = .next s) ∧
  (∀ (s u : State) (r : TrapReq), (s.strand (s.argN 0)).trap = some r → (s.strand (s.argN 0)).busy = false →
    s.commitAll (s.argN 0) ((s.strand (s.argN 0)).chunks.length + 1) = .ready u →
    exec .trapEntry s = .next (u.enterTrap (s.argN 0) r.cause r.val)) ∧
  (∀ (u : State) (sid : Nat) (cause : Cause) (val : BitVec 64) (x : Arch), u.arch sid = x →
    x.smode = false → x.hf = false → cause.service = false → x.tvec ≠ 0 →
    (u.enterTrap sid cause val).arch sid =
      { x with
        uset := { pcc := x.pcc, cause := BitVec.ofNat 64 cause.code, val := val,
                  state := stateWord cause.async cause.imprecise false false, repctx := frameWord x.pcc x.frame },
        hf := true, pcc := (u.core (coreOf sid)).gangCode.jumpTo x.tvec, frame := none } ∧
      ((u.enterTrap sid cause val).strand sid).trap = none ∧
      ∃ c, ((u.enterTrap sid cause val).strand sid).chunks = [c] ∧ c.count = 0) ∧
  (∀ (u : State) (sid : Nat) (cause : Cause) (val : BitVec 64) (x : Arch), u.arch sid = x → cause ≠ .mchk →
    (x.smode = true → cause.async = false → 8 ≤ dieOf sid) →
    (cause.service = true ∨ x.smode = true ∨ x.hf = true ∨ x.tvec = 0) →
    (u.enterTrap sid cause val).arch sid =
      { x with
        sset := { pcc := x.pcc, cause := BitVec.ofNat 64 cause.code, val := val,
                  state := stateWord cause.async cause.imprecise x.hf x.smode, repctx := frameWord x.pcc x.frame },
        smode := true, hf := false, pcc := (u.core (coreOf sid)).stubCode.jumpTo x.svec, frame := none }) ∧
  (∀ (pcc : Reg) (f : Frame), frameWord pcc none = 0 ∧ (FrameInRange f → Records (frameWord pcc (some f)) pcc f))

/-- 07 R134, 03 R51, R52: trap ends its chunk, which leaves `u`, and raises SWTRAP with gx as its value and the following instruction
as its PC; a word that is no instruction raises ILL.

07 R135, 05 R98: sret ends its chunk, which leaves `u`. From a U handler it returns to the U set's PCC with HF 0, in U mode; from
the stub to the S set's PCC with the mode and HF that STSTATE holds; a repeat context whose V is 1 is checked and becomes the live
frame. Outside a handler it traps ILL with the PC, and on a context that fails its checks it traps ILL.

07 R136, R137: idle waits for at most g[x][31:0] cycles, at least one, and is complete when its time is over; ebrk stops the
strand and reports it if DEBUG is 1, and otherwise only moves on; a release lets it go on. Where the rules leave a point open it
holds of the choice the model makes (assumptions 5, 33 and 77). -/
def Obligations.TrapsAreRaisedAndReturned : Prop :=
  (
    (∀ (s u : State) (x : BitVec 6) (c : Chunk), MayEnd false false [.g x] s u → (u.strand s.cur).out = [] →
      (u.strand s.cur).places = [] → (u.strand s.cur).chunks = [c] → c.held = [] → c.undo = [] → c.lineOps = [] →
        u.pinned (dieOf s.cur) = none → u.me.smode = false → u.me.hf = false → u.me.tvec ≠ 0 →
      ∃ t, exec (.trap x) s = .next t ∧
        t.me.uset = { pcc := u.me.advance.pcc, cause := 0x17, val := u.me.word x, state := 0,
                      repctx := frameWord u.me.advance.pcc u.me.advance.frame } ∧
        t.me.hf = true ∧ t.me.smode = false ∧ t.me.pcc = (u.core (coreOf s.cur)).gangCode.jumpTo u.me.tvec ∧ t.me.frame = none ∧
        (∀ n, t.me.readG n = u.me.readG n) ∧ t.me.v = u.me.v ∧ t.me.sset = u.me.sset ∧ t.me.fflags = u.me.fflags ∧
        (∀ j, j ≠ s.cur → t.strand j = u.strand j) ∧ t.mem = u.mem ∧ t.tags = u.tags) ∧
    (∀ s : State, exec .unassignedWord s = .next (s.raise s.cur .ill (s.free 0)))) ∧
  (
    (∀ (s u : State), MayEnd false false [] s u → u.me.smode = false → u.me.hf = false →
      exec .sret s = .next (u.raise s.cur .ill u.me.pcc.low)) ∧
    (∀ (s u : State) (set : TrapSet) (smode hf : Bool), MayEnd false false [] s u →
      ((u.me.smode = false ∧ u.me.hf = true ∧ set = u.me.uset ∧ smode = false ∧ hf = false) ∨
        (u.me.smode = true ∧ set = u.me.sset ∧ smode = set.state.getLsbD 0 ∧ hf = set.state.getLsbD 1)) →
      (set.repctx.getLsbD 63 = false → ∃ t, exec .sret s = .next t ∧
        Ran u t (({ u.me with pcc := set.pcc, smode := smode, hf := hf, frame := none } : Arch).count 8 1) (u.strand s.cur).out) ∧
      (∀ f : Frame, Records set.repctx set.pcc f → f.index < f.len → f.k + f.left ≤ 16384 →
        f.base = BitVec.ofInt 64 ((set.pcc.cursor : Int) - 4 * f.index) → 4 * f.index ≤ set.pcc.cursor →
        u.me.fbuf = (f.base, f.words) → f.words.length = f.len →
        ∃ t, exec .sret s = .next t ∧
          Ran u t (({ u.me with pcc := set.pcc, smode := smode, hf := hf, frame := some f } : Arch).count 8 1) (u.strand s.cur).out) ∧
      (frameOf set.pcc set.repctx = .error () → exec .sret s = .next (u.raise s.cur .ill (u.free 1))))) ∧
  (
    (∀ (s u : State) (x : BitVec 6), Issues false [.g x] s u →
      ∃ t, exec (.idle x) s = .next t ∧
        (t.strand s.cur).wait = .idle (max 1 ((s.me.word x).toNat % 2 ^ 32)) ∧ (∀ n, t.me.readG n = s.me.readG n) ∧
        t.me.pcc = s.me.pcc ∧ (∀ j, j ≠ s.cur → t.strand j = s.strand j) ∧ { t with strands := s.strands } = s) ∧
    (∀ (s : State) (n : Nat), (s.strand (s.argN 0)).wait = .idle n →
      ∃ t, exec .idleTimeout s = .next t ∧ t.arch (s.argN 0) = (s.arch (s.argN 0)).advance ∧
        (t.strand (s.argN 0)).wait = .none ∧ (∀ j, j ≠ s.argN 0 → t.strand j = s.strand j) ∧ { t with strands := s.strands } = s) ∧
    (∀ (s u : State), Issues false [] s u → s.me.dbg.getLsbD 0 = false →
      ∃ t, exec .ebrk s = .next t ∧ Ran s t s.me.advance (s.strand s.cur).out) ∧
    (∀ (s u : State), Issues false [] s u → s.me.dbg.getLsbD 0 = true →
      ∃ t, exec .ebrk s = .next t ∧ t.me = s.me.advance ∧ (t.strand s.cur).halted = true ∧
        t.bindery.sent = s.bindery.sent ++
          [.event (s.gangSenders (s.me.gang.toNat / 256 % 65536)) 7 (s.me.gang.toNat / 256 % 65536) (s.me.gang.toNat % 256) 0
          (BitVec.ofNat 64 s.cur) s.me.pcc.low 0 (s.die (dieOf s.cur)).earliest (s.die (dieOf s.cur)).latest 0] ∧
        t.mem = s.mem ∧ t.tags = s.tags ∧ ∀ j, j ≠ s.cur → t.strand j = s.strand j) ∧
    (∀ (s : State), ∃ t, exec .ebrkRelease s = .next t ∧ (t.strand (s.argN 0)).halted = false ∧
      t.arch (s.argN 0) = s.arch (s.argN 0) ∧ (∀ j, j ≠ s.argN 0 → t.strand j = s.strand j) ∧ { t with strands := s.strands } = s))

/-- 07 R138, R139: with no result outstanding, its checks passed (`v`, and the sectors `l` of the area) and the commit token taken
(`w`), ctx.save writes the strand's sectors to the area as a place of its own, and ctx.load in U mode reads its registers from
there. What ctx.save writes, ctx.load reads back: every g-register but g0, every v-register and every CSR of the area; in S mode
also the S set, GANG, STAGE and HF. Where the rules leave a point open it holds of the choice the model makes (assumptions 45 and
82). -/
def Obligations.CtxLoadRestoresWhatCtxSaveWrote : Prop :=
  (∀ (s u v w : State) (x : BitVec 6) (l : List Nat), Issues false [.g x] s u → (u.strand s.cur).busy = false →
    u.ctxArea (s.me.readG x) true = (v, .ok l) → v.sectorsHeld (some v.cur) l = none → v.takeToken = some w →
    exec (.ctxSave x) s = .next (Act.done
      (w.placeSectors (some w.cur) (l.zipIdx.map fun y => (y.1, w.ctxSector w.cur y.2)))).settle) ∧
  (∀ (s u v w : State) (x : BitVec 6) (l : List Nat) (img : Nat → Reg), Issues false [] s u → (u.strand s.cur).busy = false →
    u.ctxArea (s.me.readG x) false = (v, .ok l) → l.findSome? (v.padWriter (some v.cur)) = none → v.takeToken = some w →
    w.serveArea w.cur (s.me.readG x).cursor 9728 l = none → w.me.smode = false → (img = fun k => (l[k]?.map w.sectorAt).getD .null) →
    exec (.ctxLoad x) s = .next (Act.done (w.onArch w.cur fun a => a.ctxRestore img)).settle) ∧
  (∀ (s : State) (sid : Nat) (x y z : Arch), s.arch sid = x → InLayout x → y.smode = x.smode →
      z = y.ctxRestore (s.ctxSector sid) →
      (∀ n, (h : n < 64) → 0 < n → z.g[n] = x.g[n]) ∧ z.readG 0 = .null ∧ z.v = x.v ∧ z.frm = x.frm ∧ z.fflags = x.fflags ∧
      z.srseed = x.srseed ∧ z.sclbase = x.sclbase ∧ z.tvec = x.tvec ∧ z.uset = x.uset ∧ z.cpstk = x.cpstk ∧ z.trail = x.trail ∧
      z.cpdepth = x.cpdepth ∧ z.twmax = x.twmax ∧ z.evcnt = x.evcnt ∧ z.pcc = y.pcc ∧ z.smode = y.smode ∧
      (x.smode = true → z.sset = x.sset ∧ z.gang = x.gang ∧ z.stage = x.stage ∧ z.hf = x.hf) ∧
      (x.smode = false → z.sset = y.sset ∧ z.gang = y.gang ∧ z.stage = y.stage ∧ z.hf = y.hf))

/-- 07 R140, R141: gquit sends the quit of the group g[x][7:0] to every member core of the caller's gang, waits until each has marked
it, and is then complete; gkill ends the gang g[x][23:8] at once; gpre sends PREEMPT to every strand of that gang that holds a
firing. A quit that reaches a core of the gang marks the group there.

08 R162, R166, R167: sfq.rd leaves the oldest record of the strand's view, or zeros, outstanding in its three registers; sfq.pop
removes it from the view, and clears OVF with the last. plb.inv and map.inv remove, in every core, the PLB entries that they
select, or the page's page-buffer entries and L1 lines, then wait for the chunks that were open, and complete when these are gone.
Where the rules leave a point open it holds of the choice the model makes (assumptions 5, 12, 50 and 79). -/
def Obligations.GangsAndStoreFaultQueues : Prop :=
  (
    (∀ (s u : State) (x : BitVec 6), Issues false [.g x] s u → (∀ ids, (u.strand s.cur).wait ≠ .quit ids) →
      exec (.gquit x) s = .next ((u.sendQuit (coreOf s.cur) (s.me.gang.toNat / 256 % 65536) ((s.me.word x).toNat % 256)).waiting
        (.quit ((List.range (u.members (s.me.gang.toNat / 256 % 65536)).length).map (u.serial + ·))))) ∧
    (∀ (s u : State) (x : BitVec 6) (ids : List Nat), Issues false [.g x] s u → (u.strand s.cur).wait = .quit ids →
      ((∃ m ∈ ids, u.msg m ≠ none) → exec (.gquit x) s = .next u) ∧
      ((∀ m ∈ ids, u.msg m = none) → ∃ t, exec (.gquit x) s = .next t ∧ Ran s t s.me.advance (s.strand s.cur).out)) ∧
    (∀ (s u : State) (x : BitVec 6), Issues true [.g x] s u →
      exec (.gkill x) s = .next (Act.done (u.killGang ((s.me.word x).toNat / 256 % 65536))).settle) ∧
    (∀ (s u : State) (x : BitVec 6), Issues true [.g x] s u →
      ∃ t, exec (.gpre x) s = .next t ∧
        (∀ cid ∈ u.members ((s.me.word x).toNat / 256 % 65536), ∀ sid ∈ strandsOf cid, (u.strand sid).firing.isSome = true →
          (t.strand sid).preempt = true) ∧
        (∀ sid, (∀ cid ∈ u.members ((s.me.word x).toNat / 256 % 65536), sid ∉ strandsOf cid) → sid ≠ s.cur →
          t.strand sid = u.strand sid) ∧ t.mem = u.mem ∧ t.tags = u.tags ∧ t.cores = u.cores) ∧
    (∀ (s : State) (cid gang group : Nat) (m : Msg), s.msg (s.argN 0) = some m → m.kind = .quit cid gang group →
      s.gangAway gang cid = false → (s.core cid).gang = some gang → (s.quire (quireOfCore cid)).dir = [] → (s.deque cid) = [] →
      ∃ t, exec .quitMark s = .next t ∧ (t.core cid).quit = insertNat group (s.core cid).quit ∧ t.msg (s.argN 0) = none)) ∧
  (
    (∀ (s u : State) (x y z : BitVec 6), Issues false [.g x, .g y, .g z] s u → (x = y → x = 0) → (x = z → x = 0) → (y = z → y = 0) →
      ∃ t chunk, exec (.sfqRd x y z) s = .next t ∧ Ran s t s.me.advance ((s.strand s.cur).out ++
        [left s chunk [.g x, .g y, .g z] (.ready (match s.sfView s.cur with
             | [] => [.g x (.data 0), .g y (.data 0), .g z (.data 0)]
             | r :: _ => [.g x (.data r.addr), .g y { bits := r.data, tag := false }, .g z (.data r.info)]) Flags.none)])) ∧
    (∀ (s u : State), Issues false [] s u →
      ∃ t, exec .sfqPop s = .next t ∧
        Ran s t ({ s.me with popped := s.me.popped + min 1 (s.sfView s.cur).length,
                             ovfClear := s.me.ovfClear || decide ((s.sfView s.cur).length ≤ 1) } : Arch).advance (s.strand s.cur).out ∧
        t.sfView s.cur = (s.sfView s.cur).drop 1) ∧
    (∀ (s u : State) (x y : BitVec 6), Issues true [.g x, .g y] s u →
        ((∀ l, (u.strand s.cur).wait ≠ .inval l) →
          (∃ t, exec (.plbInv x y) s = .next t ∧ (t.strand s.cur).wait = .inval (u.openChunks (some s.cur)) ∧
            (∀ cid, ∀ p ∈ (t.core cid).plb, plbGone (s.me.word x) (s.me.word y) p = false ∧ p ∈ (s.core cid).plb) ∧
            t.mem = s.mem ∧ t.tags = s.tags) ∧
          (∃ t, exec (.mapInv x y) s = .next t ∧ (t.strand s.cur).wait = .inval (u.openChunks (some s.cur)) ∧
            t = (u.invalidatePage (s.me.word x).toNat ((s.me.word y).getLsbD 0)).waiting (.inval (u.openChunks (some s.cur))) ∧
            t.mem = s.mem ∧ t.tags = s.tags)) ∧
        (∀ l i, i = .plbInv x y ∨ i = .mapInv x y → (u.strand s.cur).wait = .inval l →
          ((∀ c ∈ l, u.stillOpen c = false) → ∃ t, exec i s = .next t ∧ Ran s t s.me.advance (s.strand s.cur).out) ∧
          ((∃ c ∈ l, u.stillOpen c = true) → exec i s = .next u))))

/-- 06 R120, R121, 16 R329: cend ends its chunk, which leaves `u`, and does nothing else. drainst, fence and gwait end it too, and
complete once nothing that they wait for is out: the stores and the amo of the strand's committed chunks; what lies in the scope;
its gets, puts, remote atomics and migrations. Until then they wait.

06 R119: pref, cln and inv act on the line of their address, whose checks are those of a load of one byte: pref starts a fill of
the line into the L1, and has no effect where its checks trap; cln writes the line's dirty sectors back and inv also drops the
line, at once, or at the commit of a chunk that has written it. Memory is as before. Where the rules leave a point open it holds
of the choice the model makes (assumptions 32, 44 and 76). -/
def Obligations.ChunkEndsFencesAndLines : Prop :=
  (
    ∀ (s u : State) (eng : Bool) (scope : BitVec 3), MayEnd false false [] s u →
      (∃ t, exec .cend s = .next t ∧ Ran u t u.me.ended (u.strand s.cur).out) ∧
      ((∀ r ∈ u.remotes, r.sid = s.cur → r.performed = false → r.failed = none → storing r.kind = false) →
        (∀ m ∈ u.msgs, storeMsgOf m.kind ≠ some s.cur) →
        ∃ t, exec .drainst s = .next t ∧ Ran u t u.me.ended (u.strand s.cur).out) ∧
      ((∃ r ∈ u.remotes, r.sid = s.cur ∧ r.performed = false ∧ r.failed = none ∧ storing r.kind = true) ∨
          (∃ m ∈ u.msgs, storeMsgOf m.kind = some s.cur) →
        exec .drainst s = .next (u.waiting .instr)) ∧
      (u.storesOut s.cur scope.toNat = false → (eng = true → u.enginesOut s.cur scope.toNat = false) →
        ∃ t, exec (.fence eng scope) s = .next t ∧ Ran u t u.me.ended (u.strand s.cur).out) ∧
      (u.storesOut s.cur scope.toNat = true ∨ (eng = true ∧ u.enginesOut s.cur scope.toNat = true) →
        exec (.fence eng scope) s = .next (u.waiting .instr)) ∧
      ((∀ r ∈ u.remotes, r.sid = s.cur → match r.kind with
          | .move _ _ _ _ _ | .rmw _ _ _ _ _ _ _ _ | .mig _ _ _ => False
          | _ => True) →
        ∃ t, exec .gwait s = .next t ∧ Ran u t u.me.ended (u.strand s.cur).out)) ∧
  (
    ∀ (s u : State) (a : BitVec 6) (off : BitVec 10) (va : Nat), Issues false [.g a] s u → va = scalarAddr s.me a 128 off →
      (u.lineCheck (s.me.readG a) va = none →
        (∃ t, exec (.pref a off) s = .next t ∧ Own s t s.me.advance (s.strand s.cur).out ∧ t.mem = s.mem ∧ t.tags = s.tags ∧
          t = (Act.done ((u.lineUse va).l1Fill s.cur 0xFF va)).settle) ∧
        (∀ (x : Nat) (drop : Bool), u.place (coreOf s.cur) va = .mapped x → (∀ p ∈ (u.strand s.cur).held, p.addr.toNat / 128 ≠ x / 128) →
          ∃ t, exec (if drop then .inv a off else .cln a off) s = .next t ∧ Own s t s.me.advance (s.strand s.cur).out ∧
            (t.core (coreOf s.cur)).l1 = (if drop then (s.core (coreOf s.cur)).l1.filter (·.line ≠ x / 128)
              else (s.core (coreOf s.cur)).l1.map fun y => if y.line = x / 128 then { y with dirty := 0 } else y) ∧
            t.mem = s.mem ∧ t.tags = s.tags) ∧
        (∀ (x : Nat) (drop : Bool), u.place (coreOf s.cur) va = .mapped x → (∃ p ∈ (u.strand s.cur).held, p.addr.toNat / 128 = x / 128) →
          ∃ t, exec (if drop then .inv a off else .cln a off) s = .next t ∧ Own s t s.me.advance (s.strand s.cur).out ∧
            (∀ c, (u.strand s.cur).opened = some c →
              (t.strand s.cur).opened = some { c with lineOps := c.lineOps ++ [(x / 128, drop)], count := c.count + 1 }) ∧
            t.cores = (u.lineUse va).cores ∧ { t with strands := s.strands, cores := s.cores } = s)) ∧
      (∀ cause v, u.lineCheck (s.me.readG a) va = some (.trap cause v) →
        (∃ t, exec (.pref a off) s = .next t ∧ Ran s t s.me.advance (s.strand s.cur).out) ∧
        exec (.cln a off) s = .next (u.raise s.cur cause v) ∧ exec (.inv a off) s = .next (u.raise s.cur cause v)))

/-! # What the Spine and the caches bring about (01, 05, 06, 08, 17) -/

/-- 05 R89, 08 R154, R156 to R159, 06 R104, R113: the fill that a strand waits for arrives: an instruction line with the bytes of its
location, a PLB entry, a page-buffer entry, an L1 sector, a group of bytes at a sibling's port; the strand's wait ends with it. A
lookup that finds nothing is noted for the instruction alone, and a held store takes its translation or its failure. The Bindery
installs an entry for a page fault and resumes its instruction, or reports it.

01 R16, 17 R336, R337, 08 R160, 07 R147, R149: a full chunk ends, and so does one whose next access would pass a line limit; the
Spine commits the strand's oldest chunk once it is accepted, raising STFLT for a store it discards; a mismatch of a paired core
squashes the chunk in which it is found and counts, the third being a machine check; a machine check of a strand with a firing is
pending, on strand 0 if it is one of the core's scratchpad or accumulators. Where the rules leave a point open it holds of the
choice the model makes (assumptions 21, 36, 37, 47 and 74). -/
def Obligations.FillsArriveAndChunksEnd : Prop :=
  (
    (∀ (s : State) (a loc : Nat) (e e' : PageEntry), (s.strand (s.argN 0)).wait = .fetch a →
      s.entryAt (coreOf (s.argN 0)) a = some e → s.under e (a / 128 * 128) = .ok loc e' →
      (e'.st = true → a % 65536 < 32768) → s.reachable (dieOf (s.argN 0)) loc = true →
      ∃ t, exec .icacheFill s = .next t ∧ (t.strand (s.argN 0)).wait = .none ∧
        (∃ x ∈ (t.core (coreOf (s.argN 0))).icache, x.line = a / 128 ∧ x.data = s.lineData loc) ∧ t.mem = s.mem) ∧
    (∀ (s : State) (a : Nat) (got : Looked), (s.strand (s.argN 0)).wait = .plb a got →
      (∀ p, s.plbLookup (coreOf (s.argN 0)) (s.strand (s.argN 0)).domain.toNat a = some p →
        ∃ t, exec .plbFill s = .next t ∧ (t.strand (s.argN 0)).wait = .looked { got with plb := p :: got.plb } ∧
          p ∈ (t.core (coreOf (s.argN 0))).plb ∧ t.mem = s.mem) ∧
      (s.plbLookup (coreOf (s.argN 0)) (s.strand (s.argN 0)).domain.toNat a = none →
        ∃ t, exec .plbFill s = .next t ∧ (t.strand (s.argN 0)).wait = .looked { got with plbNone := a :: got.plbNone } ∧
          { t with strands := s.strands } = s)) ∧
    (∀ (s : State) (a : Nat) (got : Looked), (s.strand (s.argN 0)).wait = .xlate a got →
      (∀ e, s.lookup (coreOf (s.argN 0)) a = some e →
        ∃ t, exec .translationLookup s = .next t ∧ (t.strand (s.argN 0)).wait = .looked { got with pages := e :: got.pages } ∧
          e ∈ (t.core (coreOf (s.argN 0))).pages ∧ t.mem = s.mem) ∧
      (s.lookup (coreOf (s.argN 0)) a = none →
        ∃ t, exec .translationLookup s = .next t ∧ (t.strand (s.argN 0)).wait = .looked { got with pageNone := a :: got.pageNone } ∧
          { t with strands := s.strands } = s)) ∧
    (∀ (s : State) (c : Chunk) (p : Piece) (ps : List Piece), (s.strand (s.argN 0)).wait = .none →
      (s.strand (s.argN 0)).chunks = [c] → c.held = p :: ps → p.xl = .pending →
      ∃ t, exec .translationLookup s = .next t ∧
        (t.strand (s.argN 0)).held = { p with xl := s.storeXl p.addr.toNat (s.entryAt (coreOf (s.argN 0)) p.addr.toNat) } :: ps ∧
        t.mem = s.mem) ∧
    (∀ (s : State) (x : L1Line), (s.core (s.argN 0)).fills[s.argN 1]? = some x →
      ∃ t, exec .l1Fill s = .next t ∧
        t.core (s.argN 0) = { s.core (s.argN 0) with
          fills := (s.core (s.argN 0)).fills.eraseIdx (s.argN 1)
          l1 := l1Install (l1Sets (s.core (s.argN 0)).msplit.toNat) x (s.core (s.argN 0)).l1 } ∧
        (∀ k, k ≠ s.argN 0 → t.core k = s.core k) ∧ { t with cores := s.cores } = s) ∧
    (∀ (s : State) (o : Out) (l : LoadReq) (n : Need), (s.strand (s.argN 0)).outOf (s.argN 1) = some o → o.src = .load l →
      l.need[s.argN 2]? = some n → n.port = .sibling →
      ((∀ b ∈ n.locs, s.padWriter (some (s.argN 0)) b = none) →
        exec .siblingAccess s = .next (s.readNeed (s.argN 0) (s.argN 1) (s.argN 2))) ∧
      ((∃ b ∈ n.locs, s.padWriter (some (s.argN 0)) b ≠ none) → exec .siblingAccess s = .next s)) ∧
    (∀ (s : State) (x : Arch), s.arch (s.argN 0) = x → (s.strand (s.argN 0)).firing ≠ none → x.smode = true → x.sset.cause = 0x0B →
      (s.argN 1 = 1 → (∀ w ∈ s.bindery.mapWaits, w.sender = s.argN 0 → w.id ≠ ownWait) →
        exec .pgfltAnswer s = .next (s.stubReturn (s.argN 0))) ∧
      (s.argN 1 = 1 → (∃ w ∈ s.bindery.mapWaits, w.sender = s.argN 0 ∧ w.id = ownWait ∧ ∃ c ∈ w.open_, s.stillOpen c = true) →
        exec .pgfltAnswer s = .next s) ∧
      (s.argN 1 = 2 → ∀ v, s.installPage (s.argN 0) = some v → exec .pgfltAnswer s = .next v) ∧
      (s.argN 1 ≠ 1 → s.argN 1 ≠ 2 → exec .pgfltAnswer s = .next ((s.event (s.argN 0) 2 0x0B x.sset.pcc.low x.sset.val).sendQuit
        (coreOf (s.argN 0)) x.gangNo x.group)))) ∧
  (
    (∀ (s : State) (c : Chunk), (s.strand (s.argN 0)).opened = some c →
      ((s.core (coreOf (s.argN 0))).chunklim.toNat ≤ c.count →
        exec .chunkLimit s = .next (s.setStrand (s.argN 0) ((s.strand (s.argN 0)).nextOpen s.ticks))) ∧
      (c.count < (s.core (coreOf (s.argN 0))).chunklim.toNat →
        ∃ t, exec .chunkLimit s = .next t ∧ (∀ k, t.strand k = s.strand k) ∧ { t with strands := s.strands } = s)) ∧
    (∀ s : State, (s.strand (s.argN 0)).wait = .lineLimit → ∃ t, exec .lineLimit s = .next t ∧
      (t.strand (s.argN 0)).chunks.length = (s.strand (s.argN 0)).chunks.length + 1 ∧ (t.strand (s.argN 0)).wait = .none ∧
      (∀ c, (t.strand (s.argN 0)).opened = some c → c.count = 0 ∧ c.reads = [] ∧ c.wlines = [] ∧ c.ckpt = s.arch (s.argN 0)) ∧
      t.arch (s.argN 0) = s.arch (s.argN 0) ∧ { t with strands := s.strands } = s) ∧
    (∀ (s u : State) (c d : Chunk) (l : List Chunk), (s.strand (s.argN 0)).chunks = c :: d :: l → s.canCommit (s.argN 0) c = true →
      (s.commitOldest (s.argN 0) = (u, none) → exec .chunkCommit s = .next u) ∧
      (∀ a, s.commitOldest (s.argN 0) = (u, some a) → (u.core (coreOf (s.argN 0))).quit.contains (s.arch (s.argN 0)).group = false →
        exec .chunkCommit s = .next ((u.dropLater (s.argN 0)).raise (s.argN 0) .stflt a))) ∧
    (∀ (s : State) (c : Chunk), (s.core (coreOf (s.argN 0))).paired = true → (s.strand (s.argN 0)).firing ≠ none →
      s.argN 1 < (s.strand (s.argN 0)).chunks.length →
      (s.strand (s.argN 0)).chunks[(s.strand (s.argN 0)).chunks.length - 1 - s.argN 1]? = some c →
      (c.mism < 2 → exec .pairMismatch s = .next ((s.onCore (coreOf (s.argN 0)) fun k => { k with recov := min (k.recov + 1) 0xFFFFFFFF
        }).squash
        (s.argN 0) ((s.strand (s.argN 0)).chunks.length - 1 - s.argN 1) false true)) ∧
      (2 ≤ c.mism → exec .pairMismatch s =
        .next (s.machineCheck (coreOf (s.argN 0)) (strandsOf (coreOf (s.argN 0))) 9))) ∧
    (∀ (s : State) (sid : Nat) (v : BitVec 64), 1 ≤ s.argN 1 → s.argN 1 ≤ 7 →
      sid = (if s.argN 1 = 3 ∨ s.argN 1 = 7 then s.argN 0 / 4 * 4 else s.argN 0) →
      v = BitVec.ofNat 64 (s.argN 2 / 16 * 256 + s.argN 1) →
      ((s.strand sid).firing ≠ none → ∃ t, exec .machineCheck s = .next t ∧ (t.strand sid).mchk = some v ∧
        t.arch sid = s.arch sid ∧ (∀ k, k ≠ sid → t.strand k = s.strand k) ∧ { t with strands := s.strands } = s) ∧
      ((s.strand sid).firing = none → exec .machineCheck s = .next (s.machineCheck (coreOf sid) [] v))) ∧
    (∀ s : State, (s.strand (s.argN 0)).wait = .flags → (s.strand (s.argN 0)).out = [] → ∃ t, exec .fflagsAccess s = .next t ∧
      (t.strand (s.argN 0)).wait = .none ∧ t.arch (s.argN 0) = s.arch (s.argN 0) ∧ { t with strands := s.strands } = s))

/-! # Atomics and remote accesses (09, 16) -/

/-- 09 R169, R170, 16 R332: an atomic ends its chunk, which leaves `u`, and traps where the checks of its capability say. With a
target that passes them, an amo on the own die is sent to its executor and the next chunk of the strand waits for its place; an
amo on another die, and every ramo, takes an entry of the remote-access unit or waits for one. Its register is left outstanding.

09 R168, R169, R171, R172: an atomic of the table is performed at one place: the old value is read, the new one is written with
the tag of its sector cleared, the chunks that read the line are squashed, and the old value, in the form of its width, and the
flags are the result. An amo on the die comes as a message, any other as a remote access that no earlier one holds back. Where the
rules leave a point open it holds of the choice the model makes (assumptions 48, 49 and 57). -/
def Obligations.AtomicsAreSentAndPerformed : Prop :=
  (
    ∀ (s u : State) (i : Instr) (f : AtomicForm), atomicOf i = some f → MayEnd false false [.g f.a, .g f.b, .g f.d] s u →
      (∀ cause, checkCap u.me.smode (u.me.readG f.a) (u.me.readG f.a).cursor f.size [permLD, permST] f.size = some cause →
        exec i s = .next (u.raise s.cur cause (u.me.word f.a))) ∧
      (checkCap u.me.smode (u.me.readG f.a) (u.me.readG f.a).cursor f.size [permLD, permST] f.size = none →
        ((u.me.readG f.a).perm permTRY = true ∧ u.me.cpdepth ≠ 0 → exec i s = .next (u.raise s.cur .capperm (u.me.word f.a))) ∧
        (((u.me.readG f.a).perm permTRY = true → u.me.cpdepth = 0) → ∀ loc,
          u.atomTarget ([.r, .w] ++ if f.remote then [.e] else []) (u.me.readG f.a).cursor f.size (f.op == 11) = .ok loc →
          (f.remote = false → locOnDie (dieOf s.cur) loc = true →
            ∃ t chunk, exec i s = .next t ∧ t.arch s.cur = u.me.ended ∧
              (t.strand s.cur).out = (u.strand s.cur).out ++
                [left u chunk [.g f.d] .reply] ∧
              (t.strand s.cur).places = (u.strand s.cur).places ++ [u.serial + 1] ∧
              t.msgs = u.msgs ++ [
                { id := u.serial + 1, src := coreOf s.cur, eng := none,
                  kind := .amo s.cur u.serial loc f.op f.wide (u.me.word f.b) (u.me.word f.d) }] ∧
              (∀ k, k ≠ s.cur → t.strand k = u.strand k) ∧ t.remotes = u.remotes ∧ t.mem = u.mem ∧ t.tags = u.tags) ∧
          (f.remote = true ∨ locOnDie (dieOf s.cur) loc = false →
            ((u.remotes.filter (·.cid == coreOf s.cur)).length < 32 →
              ∃ t chunk, exec i s = .next t ∧ Own u t u.me.ended ((u.strand s.cur).out ++
                  [left u chunk [.g f.d] .reply]) ∧
                t.remotes = u.remotes ++ [
                  { id := u.serial + 1, cid := coreOf s.cur, sid := s.cur, gang := u.me.gangNo, group := u.me.group, live := true,
                    kind := .rmw (u.me.readG f.a).cursor u.serial loc f.op f.wide (u.me.word f.b) (u.me.word f.d) (!f.remote),
                    performed := false, failed := none }] ∧
                t.msgs = u.msgs ∧ t.mem = u.mem ∧ t.tags = u.tags) ∧
            (32 ≤ (u.remotes.filter (·.cid == coreOf s.cur)).length →
              ∃ t, exec i s = .next t ∧ (t.strand s.cur).wait = .full ∧ t.remotes = u.remotes ∧ t.mem = u.mem ∧ t.tags = u.tags))))) ∧
  (
    ∀ (s p : State) (sid out loc op : Nat) (wide : Bool) (x e : BitVec 64) (d : BitVec 6) (o : Out) (n : Nat) (bs : List Byte)
      (v : BitVec 64) (fl : Flags), op ≤ 10 → (wide = true → op ≤ 9) → n = (if wide then 8 else 4) → AtomicFree s sid loc n →
      atomicEffect s loc op wide x e = (bs, v, fl) → p = s.placeStore loc bs none →
      (p.strand sid).outOf out = some o → o.dsts = [.g d] →
      (∀ m, s.msg (s.argN 0) = some m → m.kind = .amo sid out loc op wide x e →
        exec .amoExecute s = .next (((p.dropMsg (s.argN 0)).onStrand sid fun t =>
          { t with places := t.places.filter (· != s.argN 0) }).answer sid out [.g d (.data v)] fl)) ∧
      (∀ r va amo, s.remote (s.argN 0) = some r → r.kind = .rmw va out loc op wide x e amo → r.sid = sid → r.performed = false →
        r.failed = none → s.argN 2 ≠ 2 → s.entered r = true → s.heldBack r [loc / 128] = false →
        ∃ t, exec .remotePerform s = .next t ∧ t = ((p.answer sid out [.g d (.data v)] fl).onRemote r.id fun q =>
          { q with performed := true })))

/-- 09 R173, R174: a post to a top-k record with its entries in order leaves them in order, one more unless the record is full, with
the posted entry at the place of the result; a post to a full record drops its last entry or the posted one and sets OVF. -/
def Obligations.TopKKeepsTheBest : Prop :=
  ∀ (r t : TopK) (x y w : BitVec 64) (k n : Nat), r.entries.length = 15 → k = r.header.toNat % 16 →
    n = r.header.toNat / 256 % 256 → 1 ≤ k → n ≤ k → Ranked (r.entries.take n) → isNaN32 (x.extractLsb' 32 32) = false →
    y = (if x.extractLsb' 32 32 = 0x80000000 then x &&& 0xFFFFFFFF else x) → topPost r x = (t, w) →
    t.entries.length = 15 ∧ t.header.toNat % 16 = k ∧
    (w.toNat % 256 = 0xFE → t.entries = r.entries ∧ t.header.getLsbD 16 = true ∧ t.header.toNat / 256 % 256 = n ∧ n = k) ∧
    (w.toNat % 256 ≠ 0xFE → t.header.toNat / 256 % 256 = min (n + 1) k ∧ w.toNat / 256 = min (n + 1) k ∧
      t.entries[w.toNat % 256]? = some y ∧ Ranked (t.entries.take (min (n + 1) k)) ∧
      (n = k → t.header.getLsbD 16 = true) ∧
      (n < k → (t.entries.take (n + 1)).Perm (y :: r.entries.take n)))

/-- 16 R328, R330: get, put, get.w and put.w end their chunk, trap ILL with a length outside 1 to 4096, and trap where a check of
their sides says so, that of the destination's capability first; otherwise they take an entry of the remote-access unit, or wait
for one, and are complete: no register is outstanding, and no byte has moved. mig in S mode takes an entry too, once the PLB
grants E and W to its status word.

16 R317 to R319, R321, R322: an access that has an entry, and that no earlier one of its core to the same line holds back, is
performed at its home: a store writes its bits there with its tag, and squashes the readers of its line; a part of a move brings
its bytes or writes them, and an uncorrectable error in what it reads fails it with reason 5. One that has been performed frees
its entry; one that has failed raises ENGFAULT in its strand with the reason and the address, and is reported. An access to
another package that has had no answer for 1 ms fails with reason 6. Where the rules leave a point open it holds of the choice the
model makes (assumptions 14, 25 and 29). -/
def Obligations.MovesAreEnteredAndCarriedOut : Prop :=
  (
    (∀ (s u : State) (i : Instr) (wide : Bool) (d c : BitVec 6) (n : Nat), MayEnd false false (moveReads i) s u →
      moveOf u.me i = some (wide, d, c, n) →
      (n < 1 ∨ 4096 < n → exec i s = .next (u.raise s.cur .ill (BitVec.ofNat 64 n))) ∧
      (1 ≤ n → n ≤ 4096 →
        (∀ cause, checkCap u.me.smode (u.me.readG d) (u.me.readG d).cursor n [permST, permENG] 0 = some cause →
          exec i s = .next (u.raise s.cur cause (u.me.word d))) ∧
        (∀ cause, checkCap u.me.smode (u.me.readG d) (u.me.readG d).cursor n [permST, permENG] 0 = none →
          checkCap u.me.smode (u.me.readG c) (u.me.readG c).cursor n [permLD, permENG] 0 = some cause →
          exec i s = .next (u.raise s.cur cause (u.me.word c))) ∧
        (∀ v, u.moveStop (u.me.readG d) (u.me.readG c) n wide = (v, none) →
          ((u.remotes.filter (·.cid == coreOf s.cur)).length < 32 →
            ∃ t parts, exec i s = .next t ∧ Own u t u.me.ended (u.strand s.cur).out ∧ t.mem = u.mem ∧ t.tags = u.tags ∧
              t.remotes = (match movedSides v (u.me.readG d).cursor (u.me.readG c).cursor n with
                | .ok l => u.remotes ++ [parts l]
                | .error e => (u.remotes ++ [parts []]).map fun q =>
                  if q.id = u.serial then { q with failed := some (e.1, BitVec.ofNat 64 e.2) } else q) ∧
              parts = fun l =>
                { id := u.serial, cid := coreOf s.cur, sid := s.cur, gang := u.me.gangNo, group := u.me.group, live := true,
                  kind := .move (u.me.word c) (u.me.word d) n [] l, performed := false, failed := none }) ∧
          (32 ≤ (u.remotes.filter (·.cid == coreOf s.cur)).length →
            ∃ t, exec i s = .next t ∧ (t.strand s.cur).wait = .full ∧ t.remotes = u.remotes ∧ t.mem = u.mem ∧ t.tags = u.tags)))) ∧
    (∀ (s u : State) (x y z : BitVec 6), MayEnd true false [.g x, .g y, .g z] s u →
      (∀ cause, checkCap u.me.smode (u.me.readG z) (u.me.readG z).cursor 8 [permST] 8 = some cause →
        exec (.mig x y z) s = .next (u.raise s.cur cause (u.me.word z))) ∧
      (checkCap u.me.smode (u.me.readG z) (u.me.readG z).cursor 8 [permST] 8 = none →
        (∀ v, u.sidePlb (u.me.readG z).cursor 8 .w = (v, false) → exec (.mig x y z) s = .next (v.raise s.cur .plb (u.me.word z))) ∧
        (∀ v, u.sidePlb (u.me.readG z).cursor 8 .w = (v, true) → (u.remotes.filter (·.cid == coreOf s.cur)).length < 32 →
        ∃ t, exec (.mig x y z) s = .next t ∧ Own u t u.me.ended (u.strand s.cur).out ∧ t.mem = u.mem ∧ t.tags = u.tags ∧
          t.remotes = u.remotes ++ [
            { id := u.serial, cid := coreOf s.cur, sid := s.cur, gang := u.me.gangNo, group := u.me.group, live := true,
              kind := .mig ((u.me.word x).toNat % 2 ^ 56 / 2 ^ 16 * 2 ^ 16) ((u.me.word y).toNat % 2 ^ 52 / 2 ^ 16 * 2 ^ 16)
                (u.me.readG z).cursor, performed := false, failed := none }])))) ∧
  (
    (∀ (s : State) (r : Remote) (loc : Nat) (data bits : BitVec 128) (tag : Bool), s.remote (s.argN 0) = some r → r.performed = false →
      r.failed = none → s.argN 2 ≠ 2 → s.entered r = true → r.kind = .store loc data bits tag → s.reachable (dieOf r.sid) loc = true →
      (s.heldBack r [s.real loc / 128] = true → exec .remotePerform s = .next s) ∧
      (s.heldBack r [s.real loc / 128] = false → s.sectorsHeld none [loc] = none →
        exec .remotePerform s = .next (((s.onRemote r.id fun q => { q with performed := true }).writeSector (s.real loc) data bits
          tag).squashHome
          (s.real loc) [s.real loc / 128] none))) ∧
    (∀ (s : State) (r : Remote) (src dst : Word) (n : Nat) (data : List (Nat × Byte)) (parts : List Part) (p : Part),
      s.remote (s.argN 0) = some r → r.performed = false → r.failed = none → s.argN 2 ≠ 2 → s.entered r = true →
      r.kind = .move src dst n data parts → parts[s.argN 1]? = some p → s.heldBack r [s.real p.loc / 128] = false →
      s.reachable (dieOf r.sid) p.loc = true →
      (p.write = false → s.argN 2 ≠ 1 → p.stamped = false → (∀ j < p.len, s.padWriter none (p.loc + j) = none) →
        exec .remotePerform s = .next (s.onRemote r.id fun q => q.moved src dst n
          (data ++ (List.range p.len).map fun j => (p.off + j, s.byteAt (p.loc + j))) (parts.eraseIdx (s.argN 1)))) ∧
      (p.write = false → s.argN 2 = 1 → exec .remotePerform s = .next (s.failRemote r.id (5, src.toNat + p.off))) ∧
      (p.write = true → ∀ bs, partBytes data p = some bs →
        s.sectorsHeld none ((List.range p.len).map (p.loc + ·)) = none →
        exec .remotePerform s = .next ((s.onRemote r.id fun q => q.moved src dst n data (parts.eraseIdx (s.argN 1))).placeStore
          p.loc bs none))) ∧
    (∀ (s : State) (r : Remote), s.remote (s.argN 0) = some r →
      (r.failed = none → r.performed = true → exec .remoteComplete s = .next { s with remotes := s.remotes.filter (·.id != r.id) }) ∧
      (r.failed = none → r.performed = false → exec .remoteComplete s = .next s) ∧
      (∀ code va, r.failed = some (code, va) → r.live = true → (s.strand r.sid).firing ≠ none →
        (s.arch r.sid).gangNo = r.gang → s.gangAway r.gang (coreOf r.sid) = false →
        ∃ t, exec .remoteComplete s = .next t ∧ t.remotes = s.remotes.filter (·.id != r.id) ∧
          (t.strand r.sid).engfault = (s.strand r.sid).engfault ++ [BitVec.ofNat 64 (code * 2 ^ 60 + va.toNat % 2 ^ 56)] ∧
          t.arch r.sid = s.arch r.sid ∧ (∃ m, t.bindery.sent = s.bindery.sent ++ [m]) ∧ t.mem = s.mem ∧ t.tags = s.tags)) ∧
    (∀ (s : State) (r : Remote) (loc : Nat), s.remote (s.argN 0) = some r → r.performed = false → r.failed = none →
      isForeign (s.real loc) = true →
      (∀ src dst n data parts p, r.kind = .move src dst n data parts → parts.find? (fun p => isForeign (s.real p.loc)) = some p →
        exec .remoteTimeout s = .next (s.failRemote r.id (6, (if p.write then dst else src).toNat + p.off))) ∧
      (∀ data bits tag, r.kind = .store loc data bits tag →
        exec .remoteTimeout s = .next ((s.lostAccess r.sid loc).onRemote r.id fun q => { q with performed := true })) ∧
      (∀ out, r.kind = .load out [loc] →
        exec .remoteTimeout s = .next ((s.readLost r.sid out loc).onRemote r.id fun q => { q with performed := true })) ∧
      (∀ va out op wide x e, r.kind = .rmw va out loc op wide x e false →
        exec .remoteTimeout s = .next ((s.answerG r.sid out 0 Flags.none).failRemote r.id (6, va)))))

/-- 16 R325, R326, R331: the oldest migration of a Rebinder that runs fewer than eight begins, or ends with the status of the check
that it fails; one that has begun copies the page with its tags, writes the mapping, invalidates the page and redirects what has
been translated to it; when the chunks and accesses that were then open are gone it ends with status 1. One whose page has lines
that are lost fails with reason 6 (R327).

16 R327, 21 R404: the loss of F0 turns the package off; that of another die is logged and fences it, its stamped versions and
Stitch items are gone, and after that of a compute die no launch is accepted; a lost port is logged and marked. Where the rules
leave a point open it holds of the choice the model makes (assumptions 5, 26, 57, 59 and 80). -/
def Obligations.MigrationsAndLosses : Prop :=
  (
    ∀ (s : State) (m : Migration) (r : Remote), s.migrations.find? (·.rid == s.argN 0) = some m → s.remote (s.argN 0) = some r →
      (s.die m.reb).fenced = false →
      (m.step = 0 → (s.migrations.find? fun x => x.reb == m.reb && x.step == 0).map (·.rid) = some (s.argN 0) →
        (s.migrations.filter fun x => x.reb == m.reb && x.step != 0).length < 8 →
        (∀ e, s.lookup r.cid m.va = some e → e.big = false → e.st = false → s.localPhys m.frame = .here m.frame →
          s.localPhys (m.frame + 65535) = .here (m.frame + 65535) → (∀ x ∈ s.migrations, x.step ≠ 0 → x.va ≠ m.va) →
          exec .migration s = .next { s with
            migrations := s.migrations.map fun x => if x.rid = s.argN 0 then { x with step := 1, old := e.frame } else x }) ∧
        (∀ e, s.lookup r.cid m.va = some e → e.big = false → e.st = true → exec .migration s = .next (s.endMigration r m 0x83)) ∧
        (s.lookup r.cid m.va = none → s.tableFind (s.core r.cid).mapt32 (m.va / 2 ^ 25) (m.va / 2 ^ 25 * 2 ^ 25) = none →
          exec .migration s = .next (s.endMigration r m 0x81))) ∧
      (m.step = 1 → s.pageLost r m.old = true ∨ s.pageLost r m.frame = true → exec .migration s =
        .next ({ s with migrations := s.migrations.filter (·.rid != s.argN 0) }.failRemote (s.argN 0) (6, m.va))) ∧
      (m.step = 1 → s.pageLost r m.old = false → s.pageLost r m.frame = false → s.argN 1 ≠ 1 →
        s.sectorsHeld none ((List.range 512).map fun k => m.frame + 128 * k) = none →
        ∃ v t, v = ((s.copyPage m.old m.frame).writeFrame m.va m.frame).invalidatePage m.va false ∧ exec .migration s = .next t ∧
          t.mem = v.mem ∧ t.tags = v.tags ∧ t.migrations = (v.migrations.map fun x => if x.rid = s.argN 0 then
            { x with step := 2, open_ := v.openChunks none } else x)) ∧
      (m.step = 1 → s.pageLost r m.old = false → s.pageLost r m.frame = false → s.argN 1 = 1 →
        exec .migration s = .next (s.endMigration r m 0x86)) ∧
      (2 ≤ m.step → ((∃ c ∈ m.open_, s.stillOpen c = true) → exec .migration s = .next s) ∧
        ((∀ c ∈ m.open_, s.stillOpen c = false) → exec .migration s = .next (s.endMigration r m 1)))) ∧
  (
    (∀ s : State, s.argN 0 = 8 → (s.die 8).fenced = false →
      ∃ t, exec .dieFence s = .next t ∧ t.power = false ∧ t.strands = [] ∧ t.mem = [] ∧ t.tags = [] ∧
        t.colophon.logged = s.colophon.logged + 1) ∧
    (∀ s : State, s.argN 0 < 10 → s.argN 0 ≠ 8 → (s.die (s.argN 0)).fenced = false →
      ∃ t, exec .dieFence s = .next t ∧ (t.die (s.argN 0)).fenced = true ∧ (t.die (s.argN 0)).versions = [] ∧
        (s.argN 0 < 8 → t.bindery.noLaunch = true) ∧ t.colophon.logged = s.colophon.logged + 1) ∧
    (∀ s : State, 10 ≤ s.argN 0 ∨ (s.die (s.argN 0)).fenced = true → exec .dieFence s = .next s) ∧
    (∀ s : State, s.argN 0 < 8 → exec .portLoss s = .next { s.logged with ports := mapSet (8 + s.argN 0) 1 s.ports }) ∧
    (∀ s : State, 8 ≤ s.argN 0 → exec .portLoss s = .next s))

/-! # Stitch (10) -/

/-- 10 R182, R185, R186, R188, R189, R191, R194, R195: a context that is off, of another domain or of another mode refuses an
instruction with BNDOM; bn.arr and bn.wait of a broken one trap SBBROKEN. Otherwise bn.cnt, bn.anti, bn.spread and bn.arr put one
item on the network at the position of their quire, and bn.cnt and bn.anti leave their register outstanding; bn.wait completes
when the core's copy of the phase is past its phase, and parks until then. bn.clr and bn.cfg change a context once it has no item
in the network and no release on its way, a break ends every bn.wait parked on it in SBBROKEN, and bn.rd reads one.

10 R181, R182, R186, R188: a balancer sends a token to its top exit if the toggle of its context is 0 and to its bottom exit if it
is 1, an antitoken the other way, and inverts the toggle, and behind the layers of the context it lets the item pass; a cell gives
a token base + j + w c and counts it, or takes one back; a barrier's tree counts an arrival and its payload, and with the last one
writes the release word and advances the phase, which the cores of the die then see, and the strands parked on it. No other
context is touched. Where the rules leave a point open it holds of the choice the model makes (assumptions 12, 13 and 52). -/
def Obligations.StitchInstructionsAndNetwork : Prop :=
  (
    (∀ (s u : State) (i : Instr) (f : StitchForm) (ctx : Nat) (c : Ctx), stitchOf i = some f → MayEnd false false f.reads s u →
      ctx = (u.me.word f.a).toNat % 64 → c = (u.die (dieOf s.cur)).ctx ctx →
      (c.mode = 0 ∨ c.domain ≠ (u.strand s.cur).domain.toNat → exec i s = .next (u.raise s.cur .bndom (BitVec.ofNat 64 ctx))) ∧
      (c.mode ≠ 0 → c.domain = (u.strand s.cur).domain.toNat →
        (c.mode ≠ f.mode → exec i s = .next (u.raise s.cur .bndom (BitVec.ofNat 64 (256 + ctx)))) ∧
        (c.mode = f.mode → (f.mode = 2 ∧ c.broken = true → exec i s = .next (u.raise s.cur .sbbroken (BitVec.ofNat 64 ctx))) ∧
          ((f.mode = 2 → c.broken = false) →
            ∃ t n out chunk, exec i s = .next t ∧ (t.die (dieOf s.cur)).items = (u.die (dieOf s.cur)).items ++
              [enteringItem u c ctx n f out] ∧
              (∀ k, (t.die (dieOf s.cur)).ctx k = (u.die (dieOf s.cur)).ctx k) ∧ t.mem = u.mem ∧ t.tags = u.tags ∧
              (f.dst = none → Own u t u.me.ended (u.strand s.cur).out) ∧
              (∀ d, f.dst = some d → out = u.serial ∧ Own u t u.me.ended ((u.strand s.cur).out ++
                [left u chunk [.g d] .reply])))))) ∧
    (∀ (s u : State) (a b : BitVec 6) (ctx p copy : Nat) (c : Ctx), MayEnd false false [.g a, .g b] s u →
      (∀ k q, (s.strand s.cur).wait ≠ .phase k q) → (s.strand s.cur).wait ≠ .passed →
      ctx = (u.me.word a).toNat % 64 → c = (u.die (dieOf s.cur)).ctx ctx → c.mode = 2 → c.domain = (u.strand s.cur).domain.toNat →
      p = (u.me.word b).toNat % 2 ^ 16 → copy = mapGet 0 (64 * (coreOf s.cur % 128) + ctx) (u.die (dieOf s.cur)).phases → copy < 2 ^ 16 →
      (c.broken = true → exec (.bnWait a b) s = .next (u.raise s.cur .sbbroken (BitVec.ofNat 64 ctx))) ∧
      (c.broken = false → 1 ≤ (copy + 2 ^ 16 - p) % 2 ^ 16 → (copy + 2 ^ 16 - p) % 2 ^ 16 < 2 ^ 15 →
        ∃ t, exec (.bnWait a b) s = .next t ∧ Ran u t u.me.ended (u.strand s.cur).out) ∧
      (c.broken = false → (copy + 2 ^ 16 - p) % 2 ^ 16 = 0 ∨ 2 ^ 15 ≤ (copy + 2 ^ 16 - p) % 2 ^ 16 →
        exec (.bnWait a b) s = .next (u.waiting (.phase ctx p)))) ∧
    (∀ (s u : State) (a b : BitVec 6), MayEnd false false [.g a, .g b] s u → (s.strand s.cur).wait = .passed →
      ∃ t, exec (.bnWait a b) s = .next t ∧ Ran u t u.me.ended (u.strand s.cur).out) ∧
    (∀ (s u : State) (a b : BitVec 6) (ctx : Nat) (c : Ctx), MayEnd true false [.g a, .g b] s u → ctx = (u.me.word a).toNat % 64 →
      c = (u.die (dieOf s.cur)).ctx ctx →
      (u.quiet (dieOf s.cur) ctx = true →
        ((u.me.word b).getLsbD 0 = false →
          ∃ t x, exec (.bnClr a b) s = .next t ∧ Own u t u.me.ended (u.strand s.cur).out ∧ t.mem = u.mem ∧ t.tags = u.tags ∧
            (t.die (dieOf s.cur)).ctx ctx = x ∧ x.stopped = false ∧ x.toggles = [] ∧ x.cells = [] ∧ x.phase = 0 ∧ x.arrived = 0 ∧
            x.sums = [0, 0, 0, 0] ∧ x.broken = false ∧ x.mode = c.mode ∧ x.lw = c.lw ∧ x.target = c.target ∧
            mapGet 0 (64 * (coreOf s.cur % 128) + ctx) (t.die (dieOf s.cur)).phases = 0) ∧
        ((u.me.word b).getLsbD 0 = true → (∀ p, (u.strand s.cur).wait ≠ .phase ctx p) →
          ∃ t x, exec (.bnClr a b) s = .next t ∧ t.arch s.cur = u.me.ended ∧ (t.strand s.cur).out = (u.strand s.cur).out ∧
            t.mem = u.mem ∧ t.tags = u.tags ∧ (t.die (dieOf s.cur)).ctx ctx = x ∧
            (c.mode ≠ 2 → x = { c with stopped := false }) ∧
            (c.mode = 2 → x = { c with broken := true, breaking := false, stopped := false } ∧
              ∀ k ∈ u.strands.map Prod.fst, k ≠ s.cur → dieOf k = dieOf s.cur → ∀ p, (u.strand k).wait = .phase ctx p →
                (t.strand k).wait = .none ∧ (t.strand k).trap = some { cause := .sbbroken, val := BitVec.ofNat 64 ctx })) ∧
        (∀ (l : List Nat) (bs : List Byte), checkCap true (u.me.readG b) (u.me.readG b).cursor 256 [permLD] 0 = none →
          u.me.smode = true → (u.me.readG b).cursor % 64 = 0 → u.areaLocs u.cur false (u.me.readG b).cursor 16 = .ok l →
          u.shadowArea u.cur (u.me.readG b).cursor 256 = false → u.serveArea u.cur (u.me.readG b).cursor 256 l = none →
          bs = (l.flatMap fun loc => (List.range 16).map fun j => byteOf (u.sectorAt loc).bits j) →
          (∀ off, ctxRecordBad (dieOf s.cur) bs = some off → c.stopped = false →
            exec (.bnCfg a b) s = .next (u.raise s.cur .ill (BitVec.ofNat 64 off))) ∧
          (ctxRecordBad (dieOf s.cur) bs = none →
            ∃ t x, exec (.bnCfg a b) s = .next t ∧ Own u t u.me.ended (u.strand s.cur).out ∧ t.mem = u.mem ∧ t.tags = u.tags ∧
              (t.die (dieOf s.cur)).ctx ctx = x ∧ x.mode = fieldAt bs 0 1 ∧ x.lw = fieldAt bs 1 1 ∧ x.domain = fieldAt bs 2 1 ∧
              x.target = fieldAt bs 4 2 ∧ x.gang = fieldAt bs 6 2 ∧ x.base.toNat = fieldAt bs 8 8 % 2 ^ 64 ∧ x.toggles = [] ∧
              x.cells = [] ∧ x.phase = 0 ∧ x.arrived = 0 ∧ x.broken = false))) ∧
      ((∃ i ∈ (u.die (dieOf s.cur)).items, i.ctx = ctx ∧ i.layer ≠ 17) ∨
          (∃ m ∈ u.msgs, ∃ phase l, m.kind = .release (dieOf s.cur) ctx phase l) →
        ∃ t, exec (.bnClr a b) s = .next t ∧ (t.strand s.cur).wait = .instr ∧
          ((t.die (dieOf s.cur)).ctx ctx) = { c with stopped := true })) ∧
    (∀ (s u : State) (d a : BitVec 6) (ctx k : Nat) (c : Ctx), MayEnd true false [.g a, .g d] s u →
      ctx = (u.me.word a).toNat % 64 → c = (u.die (dieOf s.cur)).ctx ctx → k = (u.me.word a).toNat / 256 % 256 →
      ∃ t chunk v, exec (.bnRd d a) s = .next t ∧ Ran u t u.me.ended ((u.strand s.cur).out ++
          [left u chunk [.g d] (.ready [.g d (.data v)] .none)]) ∧
        (k = 1 → v = c.base) ∧ (k = 2 → v = c.release) ∧ (k = 3 → v = BitVec.ofNat 64 (c.phase + c.arrived * 2 ^ 16)) ∧
        (8 ≤ k → k ≤ 39 → v = BitVec.ofInt 64 (mapGet 0 (k - 8) c.cells).toInt) ∧ (55 ≤ k → v = 0))) ∧
  (
    (∀ (s : State) (i : Item) (layer key : Nat) (b : Nat × Nat), layer = s.argN 1 → layer < 15 → s.argN 2 < 16 →
      b = balancerAt layer (s.argN 2) →
      key = 16 * layer + s.argN 2 →
      nextItem (mapGet 63 key (s.die (s.argN 0)).served)
        ((s.die (s.argN 0)).items.filter fun i => i.layer == layer && (i.pos == b.1 || i.pos == b.2)) = some i →
      ∃ t c, exec .balancer s = .next t ∧ c = (s.die (s.argN 0)).ctx i.ctx ∧
        (∃ p, (t.die (s.argN 0)).items = (s.die (s.argN 0)).items.filter (·.id != i.id) ++ [
            { i with pos := p, layer := layer + 1, arrived := s.serial }] ∧
          (layer < c.lw * (c.lw + 1) / 2 → p = (if (i.kind = .anti) = (mapGet false key c.toggles = true) then b.1 else b.2)) ∧
          (c.lw * (c.lw + 1) / 2 ≤ layer → p = i.pos)) ∧
        ((t.die (s.argN 0)).ctx i.ctx) = (if layer < c.lw * (c.lw + 1) / 2
          then { c with toggles := mapSet key (!mapGet false key c.toggles) c.toggles } else c) ∧
        mapGet 63 key (t.die (s.argN 0)).served = i.ctx ∧
        (∀ k, k ≠ i.ctx → (t.die (s.argN 0)).ctx k = (s.die (s.argN 0)).ctx k) ∧ t.mem = s.mem ∧ t.strands = s.strands) ∧
    (∀ (s : State) (i : Item) (j : Nat) (n : BitVec 32) (c : Ctx), j = s.argN 1 → c = (s.die (s.argN 0)).ctx i.ctx →
      nextItem (mapGet 63 (240 + j) (s.die (s.argN 0)).served)
        ((s.die (s.argN 0)).items.filter fun i => i.layer == 15 && i.pos == j) = some i → n = mapGet 0 j c.cells →
      ∃ t, exec .counterCell s = .next t ∧ t.mem = s.mem ∧
        (i.kind = .token →
          ((t.die (s.argN 0)).ctx i.ctx) = { c with cells := mapSet j (n + 1) c.cells } ∧
          ∀ o d, (s.strand i.sid).outOf i.out = some o → o.dsts = [.g d] → t.strands = (s.answer i.sid i.out
            [.g d (.data (BitVec.ofInt 64 (c.base.toInt + j + 2 ^ c.lw * n.toInt)))] .none).strands) ∧
        (i.kind = .anti →
          ((t.die (s.argN 0)).ctx i.ctx) = { c with cells := mapSet j (n - 1) c.cells } ∧
          ∀ o d, (s.strand i.sid).outOf i.out = some o → o.dsts = [.g d] → t.strands = (s.answer i.sid i.out
            [.g d (.data (BitVec.ofInt 64 (c.base.toInt + j + 2 ^ c.lw * (n - 1).toInt)))] .none).strands) ∧
        (i.kind = .spread → t.msgs = s.msgs ++ [
          { id := s.serial + 1, src := coreOf i.sid, eng := none,
            kind := .push none c.gang (BitVec.ofNat 64 (s.argN 0 * 2 ^ 23 + c.ends.getD j 0)) i.payload false }])) ∧
    (∀ (s : State) (i : Item) (c : Ctx) (sums : List Nat) (f0 f1 f2 f3 : Nat), c = (s.die (s.argN 0)).ctx (s.argN 1) →
      nextItem 63 ((s.die (s.argN 0)).items.filter fun i => i.layer == 16 && i.ctx == s.argN 1) = some i →
      c.sums = [f0, f1, f2, f3] →
      sums = [min 0xFFFF (f0 + i.payload.toNat % 2 ^ 16), min 0xFFFF (f1 + i.payload.toNat / 2 ^ 16 % 2 ^ 16),
        min 0xFFFF (f2 + i.payload.toNat / 2 ^ 32 % 2 ^ 16), min 0xFFFF (f3 + i.payload.toNat / 2 ^ 48)] →
      (c.arrived + 1 < c.target → c.breaking = false → ∃ t, exec .barrierTree s = .next t ∧ t.mem = s.mem ∧
        ((t.die (s.argN 0)).ctx (s.argN 1)) = { c with arrived := c.arrived + 1, sums := sums }) ∧
      (c.target ≤ c.arrived + 1 → (∀ d, s.pinned d = none) →
        ∃ t v, exec .barrierTree s = .next t ∧ v = s.placeStore c.release.toNat (bytesOfNat 16 (releaseWord sums c.phase)) none ∧
          t.mem = v.mem ∧ t.tags = v.tags ∧ (∃ m, t.msgs = v.msgs ++ [m] ∧ m.kind =
            .release (s.argN 0) (s.argN 1) ((c.phase + 1) % 2 ^ 16) (List.range 128)) ∧
          ((t.die (s.argN 0)).ctx (s.argN 1)).phase = (c.phase + 1) % 2 ^ 16 ∧ ((t.die (s.argN 0)).ctx (s.argN 1)).arrived = 0 ∧
          ((t.die (s.argN 0)).ctx (s.argN 1)).sums = [0, 0, 0, 0])) ∧
    (∀ (s : State) (m : Msg) (die ctx phase : Nat) (left : List Nat), s.msg (s.argN 0) = some m → m.kind = .release die ctx phase left →
      s.arg.n.length ≤ 1 → ((s.die die).ctx ctx).breaking = false →
      (∀ x ∈ s.msgs, ∀ p l, x.kind = .release die ctx p l → s.argN 0 ≤ x.id) →
      ∃ t, exec .releaseMulticast s = .next t ∧ (∀ c ∈ left, mapGet 0 (64 * (c % 128) + ctx) (t.die die).phases = phase) ∧
        (∀ k ∈ s.strands.map Prod.fst, dieOf k = die → coreOf k % 128 ∈ left → ∀ p, (s.strand k).wait = .phase ctx p →
          phaseOver phase p = true → (t.strand k).wait = .passed) ∧
        t.mem = s.mem ∧ t.tags = s.tags ∧ t.msgs = s.msgs.filter (·.id != s.argN 0)))

/-! # Vectors (12) -/

/-- 12 R217, R220 to R222, R225, R228 to R232: a vector instruction that moves bits or computes with integers waits while its core's
dispatch queue, or that of the odd core of its pair, holds four entries (R219); otherwise it enters the queue and leaves its
register outstanding, with the lanes, the mask bits or the word of the spec's table, no flag raised, every inactive lane kept or
zeroed, and memory as before. -/
def Obligations.VectorIntegersActLaneByLane : Prop :=
  ∀ (s u : State) (i : Instr) (reads : List RegName) (f : VecResult), integerVector s.me i = some (reads, f) →
    (4 ≤ (s.core (coreOf s.cur)).vq.length → exec i s = .next s) ∧
    ((s.core (coreOf s.cur)).paired = true → 4 ≤ (s.core (coreOf s.cur + 1)).vq.length → exec i s = .next s) ∧
    ((s.core (coreOf s.cur)).vq.length < 4 →
      ((s.core (coreOf s.cur)).paired = true → (s.core (coreOf s.cur + 1)).vq.length < 4) → Issues false reads s u →
      ∃ t chunk w fl, exec i s = .next t ∧ f.Gives s.me w fl ∧
      Own s t s.me.advance ((s.strand s.cur).out ++
        [left s chunk [f.dst] (.queued [w] fl)]) ∧
      (t.core (coreOf s.cur)).vq = (s.core (coreOf s.cur)).vq ++ [(s.cur, s.serial)] ∧
      ((s.core (coreOf s.cur)).paired = true →
        (t.core (coreOf s.cur + 1)).vq = (s.core (coreOf s.cur + 1)).vq ++ [(s.cur + 4, s.serial)]) ∧
      t.mem = s.mem ∧ t.tags = s.tags)

/-- 12 R216, R217, R220 to R227, R229, R231, R233, R234, 11 R209: the same of the FP32 instructions: each active lane is rounded once
in the mode FRM, with the flags of the active lanes; and the pipe takes the oldest entry of one core's queue, round-robin after
the core it served last, whose result then lands in time. Where the rules leave a point open it holds of the choice the model
makes (assumption 69). -/
def Obligations.VectorFloatsActLaneByLane : Prop :=
  (∀ (s u : State) (i : Instr) (reads : List RegName) (f : VecResult), floatVector s.me i = some (reads, f) →
    (4 ≤ (s.core (coreOf s.cur)).vq.length → exec i s = .next s) ∧
    ((s.core (coreOf s.cur)).paired = true → 4 ≤ (s.core (coreOf s.cur + 1)).vq.length → exec i s = .next s) ∧
    ((s.core (coreOf s.cur)).vq.length < 4 →
      ((s.core (coreOf s.cur)).paired = true → (s.core (coreOf s.cur + 1)).vq.length < 4) → Issues false reads s u →
      ∃ t chunk w fl, exec i s = .next t ∧ f.Gives s.me w fl ∧
      Own s t s.me.advance ((s.strand s.cur).out ++
        [left s chunk [f.dst] (.queued [w] fl)]) ∧
      (t.core (coreOf s.cur)).vq = (s.core (coreOf s.cur)).vq ++ [(s.cur, s.serial)] ∧
      ((s.core (coreOf s.cur)).paired = true →
        (t.core (coreOf s.cur + 1)).vq = (s.core (coreOf s.cur + 1)).vq ++ [(s.cur + 4, s.serial)]) ∧
      t.mem = s.mem ∧ t.tags = s.tags)) ∧
  (∀ (s : State) (q k n sid out : Nat) (rest : List (Nat × Nat)), q = s.argN 0 → 1 ≤ k → k ≤ 4 →
    (∀ j, 1 ≤ j → j < k → (s.core (4 * q + ((s.quire q).lastVec + j) % 4)).vq = []) → n = ((s.quire q).lastVec + k) % 4 →
    (s.core (4 * q + n)).vq = (sid, out) :: rest →
    ∃ t, exec .vectorDispatch s = .next t ∧ (t.core (4 * q + n)).vq = rest ∧ (t.quire q).lastVec = n ∧
      (t.strand sid).out = ((s.strand sid).out.map fun o => if o.id = out then
        { o with src := (match o.src with | .queued ws fl => .ready ws fl | x => x) } else o) ∧
      t.arch sid = s.arch sid ∧ (∀ j, j ≠ sid → t.strand j = s.strand j) ∧ t.mem = s.mem)

/-! # Matrices (13) -/

/-- 13 R239, R242, R244, R247, R253 to R255, 03 R57: while both entries of its core are occupied a strand at a member of 0x23 is not
ready; otherwise it ends its chunk, which leaves `u`, traps ACCBUSY while another firing holds the claim, takes a free claim,
traps where a check says so and gives back what it took, and enters its entry at the end of the queue. The extents of an mma must
be in range, and its operands in the quire. Where the rules leave a point open it holds of the choice the model makes (assumptions
9, 10, 11 and 14). -/
def Obligations.MatrixCommandsEnterTheQueue : Prop :=
  (∀ (s u : State) (i : Instr) (reads : List RegName) (x : MEntry), queuedEntry u i = some (reads, x) →
    (2 ≤ (s.core (coreOf s.cur)).mq.length → exec i s = .next s) ∧
    ((s.core (coreOf s.cur)).mq.length < 2 → MayEnd false false reads s u →
      (∀ h, u.me.smode = false → (u.core (coreOf s.cur)).claim = some h → h ≠ s.cur →
        exec i s = .next (u.raise s.cur .accbusy (u.arch h).gang)) ∧
      (∀ v, Claimed u v →
        (x.fn ≤ 4 →
          (∀ cause w, v.mmaCheck x.fn x.ge x.a x.b = some (.trap cause w) → exec i s = .next ((unclaimed u v).raise s.cur cause w)) ∧
          (v.mmaCheck x.fn x.ge x.a x.b = none → ∃ t, exec i s = .next t ∧ Own u t u.me.ended (u.strand s.cur).out ∧
            (t.core (coreOf s.cur)).mq = (u.core (coreOf s.cur)).mq ++ [x] ∧
            (t.core (coreOf s.cur)).claim = (v.core (coreOf s.cur)).claim ∧ t.mem = u.mem ∧ t.tags = u.tags)) ∧
        (x.fn = 5 → ∃ t, exec i s = .next t ∧ Own u t u.me.ended (u.strand s.cur).out ∧
          (t.core (coreOf s.cur)).mq = (u.core (coreOf s.cur)).mq ++ [x] ∧
          (t.core (coreOf s.cur)).claim = (v.core (coreOf s.cur)).claim ∧ t.mem = u.mem ∧ t.tags = u.tags) ∧
        (6 ≤ x.fn → ∀ w,
          (∀ cause y, v.imageCheck (x.fn == 7) x.ge x.a = (w, .error (.trap cause y)) →
            exec i s = .next ((unclaimed u w).raise s.cur cause y)) ∧
          (∀ l, v.imageCheck (x.fn == 7) x.ge x.a = (w, .ok l) →
            exec i s = .next (Act.done (w.enterMatrix { x with locs := l })).settleT))))) ∧
  (∀ (u : State) (fn : Nat) (e : BitVec 64) (a b : Reg), u.mmaCheck fn e a b = none ↔
    (e.toNat < 2 ^ 28 ∧ 1 ≤ e.toNat % 128 ∧ e.toNat % 128 ≤ 64 ∧ 1 ≤ e.toNat / 2 ^ 7 % 128 ∧ e.toNat / 2 ^ 7 % 128 ≤ 64 ∧
      1 ≤ e.toNat / 2 ^ 14 % 32 ∧ e.toNat / 2 ^ 14 % 32 ≤ 16 ∧ 1 ≤ e.toNat / 2 ^ 19 % 512 ∧ e.toNat / 2 ^ 19 % 512 ≤ 256 ∧
      OperandFits u fn (e.toNat % 128) e a ∧ OperandFits u fn (e.toNat / 2 ^ 7 % 128) e b))

/-- 13 R237, R241, R243, R245, R248, R253, R254, 11 R211: where one core of the quire has an entry, the array runs its next block or
its mzero. An mzero clears the elements and flags of its accumulator. A block waits while an uncommitted chunk has written a byte
that it fetches; it gives each element (i, j) of the extent what the block's rows make of it, adds the flags to the accumulator's,
and leaves every other element; the first block reads the scales of all, the last completes the entry. For mma.i8 the new element
is the old value plus the sum of the products of signed bytes, modulo 2^32.

13 R239, R247, R250, R255 to R258: a strand at mwait, mwait.sus or mwait.res is not ready while both entries of its core are
occupied. mwait waits until its core's queue is empty, and keeps the claim it took; mwait.sus writes the entries that are not
transfers to its record and empties the queue; mwait.res enters the entries of its record again. The transfer path moves an image
sector by sector, each behind the accesses of the strand that came before it to that line: mld gives the elements in the sector's
words their bits, row by row, and the flags the word after the last; mst writes the sector from them and clears its tag. -/
def Obligations.MatrixBlocksAndTransfersRun : Prop :=
  (
    ∀ (s : State) (cid : Nat) (x : MEntry), s.argN 0 = quireOfCore cid → OnlyEntry s cid x →
      (x.fn = 5 → x.acc < 4 → ∃ t, exec .matrixBlock s = .next t ∧ (t.core cid).mq = [] ∧
        (∀ i j, i < 64 → j < 64 → (t.core cid).elem x.acc i j = 0) ∧ (t.core cid).accFlags[x.acc]? = some 0 ∧
        (∀ a i j, a < 4 → i < 64 → j < 64 → a ≠ x.acc → (t.core cid).elem a i j = (s.core cid).elem a i j) ∧ t.mem = s.mem) ∧
      (x.fn ≤ 4 → (∃ b ∈ s.blockBytesOf cid x, s.padWriter none b ≠ none) →
        exec .matrixBlock s = .next (s.onCore cid fun c => { c with mq := [running x] })) ∧
      (x.fn ≤ 4 → x.acc < 4 → x.ge.toNat % 128 ≤ 64 → x.ge.toNat / 2 ^ 7 % 128 ≤ 64 →
        (∀ b ∈ s.blockBytesOf cid x, s.padWriter none b = none) →
        ∃ t, exec .matrixBlock s = .next t ∧
          (∀ i j, i < x.ge.toNat % 128 → j < x.ge.toNat / 2 ^ 7 % 128 →
            (t.core cid).elem x.acc i j = (blockElement s cid x i j ((s.core cid).elem x.acc i j)).1) ∧
          (∀ a i j, a < 4 → i < 64 → j < 64 → (a ≠ x.acc ∨ x.ge.toNat % 128 ≤ i ∨ x.ge.toNat / 2 ^ 7 % 128 ≤ j) →
            (t.core cid).elem a i j = (s.core cid).elem a i j) ∧
          (∀ a (h : a < 4), a ≠ x.acc → (t.core cid).accFlags[a] = (s.core cid).accFlags[a]) ∧
          (∀ (_ : x.acc < 4), ∀ k, (t.core cid).accFlags[x.acc].getLsbD k =
            ((s.core cid).accFlags[x.acc].getLsbD k || (List.range (x.ge.toNat % 128)).any fun i =>
              (List.range (x.ge.toNat / 2 ^ 7 % 128)).any fun j =>
                (blockElement s cid x i j ((s.core cid).elem x.acc i j)).2.accBits.getLsbD k)) ∧
          (t.core cid).mq = (if x.ge.toNat / 2 ^ 14 % 32 ≤ x.next + 1 then [] else
            [{ running x with next := x.next + 1, scales := x.scales ++ (s.startScales cid x).map fun b => (b, readByte s.mem b) }]) ∧
          t.mem = s.mem ∧ t.tags = s.tags ∧ t.strands = s.strands ∧
          (x.fn = 2 → ∀ i j k kb, kb = x.ge.toNat / 2 ^ 14 % 32 → k = (if x.next + 1 < kb then 256 else x.ge.toNat / 2 ^ 19 % 512) →
            i < x.ge.toNat % 128 → j < x.ge.toNat / 2 ^ 7 % 128 →
            (t.core cid).elem x.acc i j = BitVec.ofInt 32 (((s.core cid).elem x.acc i j).toInt +
              byteDot s.mem (s.operandLoc cid x.a + (i * kb + x.next) * 256) (s.operandLoc cid x.b + (j * kb + x.next) * 256) k)))) ∧
  (
    (∀ (s : State) (i : Instr) (b : BitVec 6), i = .mwait ∨ i = .mwaitSus b ∨ i = .mwaitRes b →
      2 ≤ (s.core (coreOf s.cur)).mq.length → exec i s = .next s) ∧
    (∀ (s u v : State), (s.core (coreOf s.cur)).mq.length < 2 → MayEnd false false [] s u → Claimed u v →
      ((v.core (coreOf s.cur)).mq = [] → exec .mwait s = .next (Act.done v).settleT) ∧
      ((v.core (coreOf s.cur)).mq ≠ [] → exec .mwait s = .next (v.waiting (.array
        (decide ((u.me.smode = false ∧ (u.core (coreOf u.cur)).claim = none) ∨ (u.strand u.cur).wait = .array true)))))) ∧
    (∀ (s u v w : State) (b : BitVec 6) (l : List Nat), (s.core (coreOf s.cur)).mq.length < 2 → MayEnd false false [.g b] s u →
      Claimed u v →
      (v.recordArea (u.me.readG b) 256 256 [permST, permSTC] true false = (w, .ok l) → (∀ x ∈ (w.core (coreOf w.cur)).mq, x.fn < 6) →
        w.sectorsHeld (some w.cur) l = none → exec (.mwaitSus b) s = .next (Act.done ((w.placeSectors (some w.cur)
          (l.zipIdx.map fun y => (y.1, recordSector (w.core (coreOf w.cur)).mq y.2))).onCore (coreOf w.cur) fun c =>
            { c with mq := [] })).settleT) ∧
      (v.recordArea (u.me.readG b) 256 256 [permLD, permLDC] false false = (w, .ok l) → (w.core (coreOf w.cur)).mq = [] →
        (∀ a ∈ l, w.padWriter (some w.cur) a = none) → ∀ (img : Nat → Reg) y z x1 x2,
        (img = fun k => (l[k]?.map w.sectorAt).getD .null) → w.readEntry (u.me.readG b) img 0 = (y, .ok x1) →
        y.readEntry (u.me.readG b) img 1 = (z, .ok x2) →
        exec (.mwaitRes b) s = .next (Act.done (forAll (x1.toList ++ x2.toList) State.enterMatrix z)).settleT)) ∧
    (∀ (l : List MEntry) (e : Nat) (x : MEntry), l.length ≤ 2 → l[e]? = some x → x.fn ≤ 5 → x.acc < 4 → x.next < 16 →
      (recordSector l 0).low.toNat = l.length + 256 ∧ (recordSector l (4 * e + 1)).low.getLsbD 16 = true ∧
      (recordSector l (4 * e + 1)).low.toNat % 32 = x.fn ∧ (recordSector l (4 * e + 1)).low.toNat / 32 % 4 = x.acc ∧
      (x.fn ≤ 4 → (recordSector l (4 * e + 1)).low.toNat / 128 % 16 = x.next) ∧
      (recordSector l (4 * e + 1)).bits.extractLsb' 64 64 = x.ge ∧ recordSector l (4 * e + 2) = x.a ∧ recordSector l (4 * e + 3) = x.b) ∧
    (∀ (s : State) (cid k m n loc : Nat) (x : MEntry), s.argN 0 = quireOfCore cid → OnlyEntry s cid x → 6 ≤ x.fn → x.acc < 4 →
      m = x.ge.toNat % 128 → n = x.ge.toNat / 2 ^ 7 % 128 → m ≤ 64 → n ≤ 64 → k = x.next → x.locs[k]? = some loc →
      ∀ (v w : State), v = (s.onCore cid fun c => { c with mq := [running x] }).onQuire (quireOfCore cid) (fun q =>
        { q with lastXfer := cid % 4 }) →
      (s.transferHeld x loc = true → exec .accTransfer s = .next v) ∧
      (x.fn = 6 → s.transferHeld x loc = false → s.reachable (dieOfCore cid) loc = true → s.padWriter none loc = none →
        ∃ t, exec .accTransfer s = .next t ∧
        (∀ j < 4, 4 * k + j < m * n →
          (t.core cid).elem x.acc ((4 * k + j) / n) ((4 * k + j) % n) = (s.sectorAt loc).bits.extractLsb' (32 * j) 32) ∧
        (∀ a i j, a < 4 → i < 64 → j < 64 → (a ≠ x.acc ∨ m ≤ i ∨ n ≤ j ∨ i * n + j < 4 * k ∨ 4 * k + 4 ≤ i * n + j) →
          (t.core cid).elem a i j = (s.core cid).elem a i j) ∧
        (∀ j < 4, 4 * k + j = m * n →
          (t.core cid).accFlags[x.acc]? = some (((s.sectorAt loc).bits.extractLsb' (32 * j) 32).setWidth 5)) ∧
        (t.core cid).mq = (if (4 * m * n + 16 + 15) / 16 ≤ k + 1 then [] else
          [{ running x with next := k + 1 }]) ∧ t.mem = s.mem ∧ t.strands = s.strands) ∧
      (x.fn = 7 → s.transferHeld x loc = false → s.reachable (dieOfCore cid) loc = true → s.sectorsHeld none [loc] = none →
        w = v.writeSector (s.real loc) (imageSector (s.core cid) x.acc x.ge k) (bitsFor (min 16 (4 * m * n + 16 - 16 * k))) false →
        exec .accTransfer s = .next ((w.squashHome (s.real loc) [s.real loc / 128] none).onCore cid fun c =>
          { c with mq := (if (4 * m * n + 16 + 15) / 16 ≤ k + 1 then c.mq.eraseIdx 0 else c.mq.set 0 { running x with next := k + 1 })
            }) ∧
        (∀ j < 4, (imageSector (s.core cid) x.acc x.ge k).extractLsb' (32 * j) 32 =
          if 4 * k + j < m * n then (s.core cid).elem x.acc ((4 * k + j) / n) ((4 * k + j) % n)
          else if 4 * k + j = m * n then ((s.core cid).accFlags.toList.getD x.acc 0).setWidth 32 else 0))))

/-! # Codelets (14) -/

/-- 05 R101, 14 R260, R270 to R272, R276 to R278: cdone ends its chunk, waits for what is outstanding, and ends the firing. cdec,
cpush and carm end theirs, trap where a check of the record capability says so, and send their message to the record's owner: one
on the die takes a place before the strand's next chunk; one on another die waits for the strand's stores. csteal gives 0 at once
where no other core of the gang has the COORD, and otherwise asks it. Where the rules leave a point open it holds of the choice
the model makes (assumptions 22 and 55). -/
def Obligations.CodeletMembersSendMessages : Prop :=
  (∀ (s u : State), MayEnd false false [] s u →
    ((u.strand s.cur).busy = true → exec .cdone s = .next (u.waiting .instr)) ∧
    ((u.strand s.cur).busy = false → (u.strand s.cur).mchk = none → ∃ t, exec .cdone s = .next t ∧ (t.strand s.cur).firing = none ∧
      (t.strand s.cur).chunks = [] ∧
      (t.strand s.cur).wait = .none ∧ (t.arch s.cur).cpdepth = 0 ∧ (t.arch s.cur).smode = false ∧ (t.arch s.cur).hf = false ∧
      (t.arch s.cur).g = u.me.g ∧ (t.arch s.cur).sbank = u.me.sbank ∧ (t.arch s.cur).v = u.me.v ∧ (t.arch s.cur).pcc = u.me.pcc ∧
      (t.core (coreOf s.cur)).claim =
        (if (u.core (coreOf s.cur)).claim = some s.cur then none else (u.core (coreOf s.cur)).claim) ∧
      (∀ k, k ≠ s.cur → t.strand k = u.strand k) ∧ t.mem = u.mem ∧ t.tags = u.tags ∧ t.msgs = u.msgs)) ∧
  (∀ (s u : State) (i : Instr) (ref0 : BitVec 64) (x y : BitVec 6) (m0 : MsgKind), recordMessage u ref0 i = some (x, y, m0) →
    MayEnd false false [.g x, .g y] s u →
    (∀ cause v, u.recordOf (u.me.readG x) = .error (.trap cause v) → exec i s = .next (u.raise s.cur cause v)) ∧
    (∀ ref m, u.recordOf (u.me.readG x) = .ok ref → recordMessage u ref i = some (x, y, m) →
      (dieOfCore (refCore ref) = dieOf s.cur → ∃ t, exec i s = .next t ∧ t.arch s.cur = u.me.ended ∧
        (t.strand s.cur).places = (u.strand s.cur).places ++ [u.serial] ∧ (t.strand s.cur).out = (u.strand s.cur).out ∧
        t.msgs = u.msgs ++ [{ id := u.serial, src := coreOf s.cur, eng := none, kind := m }] ∧
        (∀ k, k ≠ s.cur → t.strand k = u.strand k) ∧ t.mem = u.mem ∧ t.tags = u.tags ∧ t.cores = u.cores) ∧
      (dieOfCore (refCore ref) ≠ dieOf s.cur → u.storesOut s.cur 2 = true → exec i s = .next (u.waiting .instr)) ∧
      (dieOfCore (refCore ref) ≠ dieOf s.cur → u.storesOut s.cur 2 = false → ∃ t, exec i s = .next t ∧
        Own u t u.me.ended (u.strand s.cur).out ∧
        t.msgs = u.msgs ++ [{ id := u.serial, src := coreOf s.cur, eng := none, kind := m }] ∧
        t.mem = u.mem ∧ t.tags = u.tags ∧ t.cores = u.cores))) ∧
  (∀ (u : State) (c : Reg) (ref : BitVec 64), u.recordOf c = .ok ref ↔
    (checkCap u.me.smode c c.cursor 64 [permST] 64 = none ∧ ∃ cid off, u.place (coreOf u.cur) c.cursor = .pad cid 0 off ∧
      (u.me.smode = false → u.isMember u.me.gangNo cid = true) ∧ ¬ (u.padSize cid ≤ off + 4096 ∧ off < u.padSize cid) ∧
      ref = BitVec.ofNat 64 (cid * 65536 + off / 64))) ∧
  (∀ (s u : State) (x y : BitVec 6), MayEnd false false [.g y, .g x] s u →
    ((∀ v, u.coordCore u.me.gangNo (u.me.word y) = some v → v = coreOf s.cur) →
      ∃ t chunk, exec (.csteal x y) s = .next t ∧ Own u t u.me.ended ((u.strand s.cur).out ++
        [left u chunk [.g x] (.ready [.g x (.data 0)] Flags.none)]) ∧
        t.msgs = u.msgs ∧ t.mem = u.mem ∧ t.tags = u.tags ∧ t.cores = u.cores) ∧
    (∀ v, u.coordCore u.me.gangNo (u.me.word y) = some v → v ≠ coreOf s.cur →
      ∃ t chunk n, exec (.csteal x y) s = .next t ∧ Own u t u.me.ended ((u.strand s.cur).out ++
        [left u chunk [.g x] .reply]) ∧
        t.msgs = u.msgs ++ [{ id := n, src := coreOf s.cur, eng := none, kind := .steal s.cur u.serial v u.me.gangNo }] ∧
        t.mem = u.mem ∧ t.tags = u.tags ∧ t.cores = u.cores))

/-- 14 R261, R263 to R265, R277: what is addressed to a core that a pre-empted gang has left is kept for it in order. A decrement
lowers the counter by its amount, saturated; if the counter was above zero and no longer is, rearm is added and the record is
pushed with its argument. carm writes counter and rearm. A push on a deque that is not full puts its entry on the top, or on the
bottom, and where no chunk has read the slot's line it changes no byte but those of the slot; on a full deque it spills; of a quit
group or a lost gang it is discarded.

14 R264, R266, R268, R278, 10 R193: a strand that looks for work starts the top entry of its deque if it may; with an empty deque
and no loaded sibling of its gang it sleeps. A start gives the strand the registers of a firing, with the argument in g3 and the
entry in the PCC, and counts in the record; an entry of another gang counts too, is discarded, and reported for the core's gang. A
theft takes entries from the bottom, and csteal puts them on the thief's top and gives their number. A die queue's slot is
written, or moved to a deque, at its turn; the entry of a quit group or a lost gang is gone and the core looks again. Where the
rules leave a point open it holds of the choice the model makes (assumptions 7 and 53). -/
def Obligations.RecordsFireAndStrandsFindWork : Prop :=
  (
    (∀ (s : State) (i : Instr) (m : Msg) (gang cid : Nat), s.msg (s.argN 0) = some m → addressee i m.kind = some (gang, cid) →
      s.gangAway gang cid = true → exec i s = .next (s.keepMsg gang cid m)) ∧
    (∀ (s : State) (m : Msg) (sid gang : Nat) (ref : BitVec 64) (d : Int), s.msg (s.argN 0) = some m → m.kind = .cdec sid gang ref d →
      s.gangAway gang (refCore ref) = false → RecordFree s sid ref → s.pushHeld (refCore ref) (m.src == refCore ref) = false →
      exec .cdecApply s = .next (((s.undoWriters sid [refLoc ref + 16, refLoc ref + 24]).decrement m.src ref d).placed sid (s.argN 0))) ∧
    (∀ (s : State) (src : Nat) (ref : BitVec 64) (old rearm d : Int), old = (BitVec.ofNat 32 (readNat s.mem (refLoc ref + 24) 4)).toInt →
      rearm = (BitVec.ofNat 32 (readNat s.mem (refLoc ref + 28) 4)).toInt →
      (0 < old → old - d ≤ 0 → ∀ p, p = s.placeStore (refLoc ref + 24)
          (bytesOfNat 4 (BitVec.ofInt 32 (counter32 (old - d + rearm))).toNat) none →
        s.decrement src ref d =
          p.push (refCore ref) ref (BitVec.ofNat 64 (readNat p.mem (refLoc ref + 16) 8)) (src == refCore ref)) ∧
      (old ≤ 0 ∨ 0 < old - d → s.decrement src ref d =
        s.placeStore (refLoc ref + 24) (bytesOfNat 4 (BitVec.ofInt 32 (counter32 (old - d))).toNat) none)) ∧
    (∀ (s : State) (m : Msg) (sid gang : Nat) (ref v : BitVec 64), s.msg (s.argN 0) = some m → m.kind = .carm sid gang ref v →
      s.gangAway gang (refCore ref) = false → RecordFree s sid ref →
      exec .carmApply s = .next (((s.undoWriters sid [refLoc ref + 24]).placeStore (refLoc ref + 24)
        (bytesOfNat 8 v.toNat) none).placed sid (s.argN 0))) ∧
    (∀ (s : State) (m : Msg) (sid : Option Nat) (gang : Nat) (ref arg : BitVec 64) (top : Bool), s.msg (s.argN 0) = some m →
      m.kind = .push sid gang ref arg top → s.gangAway gang (refCore ref) = false → s.pushHeld (refCore ref) top = false →
      ∃ t, exec .dequePush s = .next t ∧ t.mem = (s.push (refCore ref) ref arg top).mem ∧
        t.cores = (s.push (refCore ref) ref arg top).cores ∧ t.msg (s.argN 0) = none ∧
        (∀ k, sid = some k → (t.strand k).places = ((s.push (refCore ref) ref arg top).strand k).places.filter (· != s.argN 0))) ∧
    (∀ (s t : State) (cid : Nat) (ref arg : BitVec 64) (top : Bool), t = s.push cid ref arg top →
      (s.recQuit cid ref = true ∨ s.gangLost cid = true → t = s) ∧
      (s.recQuit cid ref = false → s.gangLost cid = false →
        (256 ≤ dqCount (s.core cid).dqstate → t = s.spill cid ref arg) ∧
        (dqCount (s.core cid).dqstate < 256 →
          (∀ k, ∀ c ∈ (s.strand k).chunks, lineOf (s.dqLoc cid (if top then dqBot (s.core cid).dqstate + dqCount (s.core cid).dqstate
            else dqBot (s.core cid).dqstate + 255)) ∉ c.reads) →
          t.deque cid = (if top then s.deque cid ++ [(ref, arg)] else (ref, arg) :: s.deque cid) ∧
          (∀ a, (∀ j < 16, a ≠ s.dqLoc cid (if top then dqBot (s.core cid).dqstate + dqCount (s.core cid).dqstate
            else dqBot (s.core cid).dqstate + 255) + j) → readByte t.mem a = readByte s.mem a))))) ∧
  (
    (∀ (s : State) (sid cid : Nat) (e : BitVec 64 × BitVec 64) (l : List (BitVec 64 × BitVec 64)), sid = s.argN 0 → cid = coreOf sid →
      SeeksWork s sid → s.deque cid = l ++ [e] → Startable s cid e →
      ∀ p, p = (s.onCore cid fun c => { c with dqstate := BitVec.ofNat 64 (dqBot c.dqstate * 2 ^ 16 + l.length) }) →
      (∀ t, p.startFiring sid e.1 e.2 = some t → exec .findWork s = .next t) ∧
      (p.startFiring sid e.1 e.2 = none → exec .findWork s = .next s)) ∧
    (∀ (s : State) (sid cid : Nat), sid = s.argN 0 → cid = coreOf sid → SeeksWork s sid → dqCount (s.core cid).dqstate = 0 →
      (∀ k, k < 4 → (s.core (cid / 4 * 4 + k)).gang = (s.core cid).gang → dqCount (s.core (cid / 4 * 4 + k)).dqstate = 0) →
      ∃ t, exec .findWork s = .next t ∧ (t.strand sid).asleep = true ∧ (t.strand sid).firing = none ∧ t.arch sid = s.arch sid ∧
        t.mem = s.mem ∧ ∀ k, k ≠ sid → t.strand k = s.strand k) ∧
    (∀ (s t : State) (sid cid gang : Nat) (ref arg : BitVec 64), cid = coreOf sid → (s.core cid).gang = some gang →
      (∀ j < 64, s.padWriter none (refLoc ref + j) = none) → (∀ d, s.pinned d = none) →
      s.startFiring sid ref arg = some t →
      t.mem = (s.placeStore (refLoc ref + 40) (bytesOfNat 8 (s.recField ref 40 8 + 1)) none).mem ∧
      (s.recField ref 32 2 ≠ gang → t = (s.placeStore (refLoc ref + 40) (bytesOfNat 8 (s.recField ref 40 8 + 1)) none).eventOf sid gang
        (s.recField ref 34 1) 9 0 ref) ∧
      (s.recField ref 32 2 = gang → (t.strand sid).firing = some ref ∧ (t.strand sid).asleep = false ∧ (t.strand sid).chunks = [] ∧
        (t.arch sid).pcc.bits = BitVec.ofNat 128 (s.recField ref 0 16) ∧
        (t.arch sid).readG 0 = .null ∧ (t.arch sid).readG 1 = .null ∧ (t.arch sid).readG 2 = s.stackCap sid ∧
        (t.arch sid).readG 3 = .data arg ∧ (t.arch sid).readG 5 = (s.core cid).gp ∧ (t.arch sid).readG 6 = (s.core cid).feat ∧
        (∀ n : BitVec 6, 7 ≤ n.toNat → (t.arch sid).readG n = .null) ∧ (∀ n, (t.arch sid).readV n = 0) ∧ (t.arch sid).smode = false ∧
        (t.arch sid).fflags = 0 ∧ (t.arch sid).frm = 0 ∧ (t.arch sid).sclbase = 0 ∧ (t.arch sid).cpdepth = 0 ∧
        (t.arch sid).stage.toNat = s.recField ref 35 1 ∧ (t.arch sid).gangNo = gang ∧ (t.arch sid).group = s.recField ref 34 1 ∧
        (s.recField ref 36 1 % 2 = 1 → (t.core cid).claim = some sid))) ∧
    (∀ (s : State) (v k : Nat), k ≤ dqCount (s.core v).dqstate → dqCount (s.core v).dqstate ≤ 256 →
      (s.stealFrom v k).2 = (s.deque v).take k ∧ (s.stealFrom v k).1.deque v = (s.deque v).drop k ∧ (s.stealFrom v k).1.mem = s.mem) ∧
    (∀ (s p : State) (m : Msg) (sid out v gang k : Nat) (l : List (BitVec 64 × BitVec 64)), s.msg (s.argN 0) = some m →
      m.kind = .steal sid out v gang → s.gangAway gang v = false → (s.core v).gang = some gang →
      k = min ((dqCount (s.core v).dqstate + 1) / 2) (256 - dqCount (s.core (coreOf sid)).dqstate) → s.stealFrom v k = (p, l) →
      (∀ e ∈ l, p.recQuit (coreOf sid) e.1 = false) →
      exec .cstealTake s = .next (((forAll l (fun p e => p.push (coreOf sid) e.1 e.2 true) p).answerG sid out
        (BitVec.ofNat 64 l.length) Flags.none).dropMsg (s.argN 0))) ∧
    (∀ (s : State) (m : Msg) (die gang n : Nat) (ref arg : BitVec 64) (q : DieQueue), s.msg (s.argN 0) = some m →
      m.kind = .spill die gang n ref arg → (s.die die).queues.find? (fun q => q.gang == gang) = some q →
      (readNat s.mem (q.slot n + 16) 8 = n → exec .dieQueueSpill s = .next ((s.placeStore (q.slot n)
        (bytesOfNat 8 ref.toNat ++ bytesOfNat 8 arg.toNat ++ bytesOfNat 8 (n + 1)) none).dropMsg (s.argN 0))) ∧
      (readNat s.mem (q.slot n + 16) 8 ≠ n → exec .dieQueueSpill s = .next s)) ∧
    (∀ (s : State) (cid h : Nat) (q : DieQueue), cid = s.argN 0 → (s.core cid).claimDq = some h → s.dieQueue cid = some q →
      ∀ p ref, p = (s.onCore cid fun c => { c with claiming := false, claimDq := none }) →
        ref = BitVec.ofNat 64 (readNat s.mem (q.slot h) 8) →
      (readNat s.mem (q.slot h + 16) 8 = h + 1 →
        (s.recQuit cid ref = false → s.gangLost cid = false → s.pushHeld cid false = false →
          exec .dieQueueClaim s = .next ((p.placeStore (q.slot h + 16) (bytesOfNat 8 (h + 2 ^ q.log)) none).push cid ref
            (BitVec.ofNat 64 (readNat s.mem (q.slot h + 8) 8)) false)) ∧
        (s.recQuit cid ref = true ∨ s.gangLost cid = true →
          exec .dieQueueClaim s = .next ((p.placeStore (q.slot h + 16) (bytesOfNat 8 (h + 2 ^ q.log)) none).claimAgain cid))) ∧
      (readNat s.mem (q.slot h + 16) 8 < h + 1 → exec .dieQueueClaim s = .next s) ∧
      (h + 1 < readNat s.mem (q.slot h + 16) 8 → exec .dieQueueClaim s = .next (p.claimAgain cid))))

/-! # Copies (15) -/

/-- 15 R299, R300: cp.t, cp.b and cp.g end their chunk, read and check the shape (cp.b the length), and then check the destination,
the source, the overlaps and the target, in this order; the first check that fails traps. A command that passes leaves its strand
waiting for a slot; its instruction is complete when COPY_ACCEPT gives it one (CopiesAreAcceptedMovedAndCompleted). The checks
change nothing but the order of entries in the PLB. Where the rules leave a point open it holds of the choice the model makes
(assumptions 14, 17 and 18). -/
def Obligations.CopiesAreCheckedAndWaitForASlot : Prop :=
  (∀ (s u : State) (x y z : BitVec 6) (g : Bool), MayEnd false false [.g x, .g y, .g z] s u →
    (∀ v cause val, u.readShape g (u.me.readG z) = (v, .error (.trap cause val)) →
      exec (if g then .cpG x y z else .cpT x y z) s = .next (v.raise s.cur cause val)) ∧
    (∀ v k, u.readShape g (u.me.readG z) = (v, .ok k) → CopyGoes v { k with dst := u.me.readG x, src := u.me.readG y }
      (exec (if g then .cpG x y z else .cpT x y z) s) ∧ { v with cores := u.cores } = u)) ∧
  (∀ (s u : State) (x y z : BitVec 6), MayEnd false false [.g x, .g y, .g z] s u →
    ((u.me.word z).toNat = 0 ∨ 2 ^ 24 < (u.me.word z).toNat → exec (.cpB x y z) s = .next (u.raise s.cur .ill (u.me.word z))) ∧
    (1 ≤ (u.me.word z).toNat → (u.me.word z).toNat ≤ 2 ^ 24 →
      CopyGoes u { blockShape (u.me.word z).toNat with dst := u.me.readG x, src := u.me.readG y } (exec (.cpB x y z) s)))

/-- 15 R282, R284: a shape that passes has its fields in range; the footprint of a side holds every element of it, from the lowest
address to the end of the highest.

15 R280, R283: the first read of a command follows the last of those before it. A read takes the elements of a run that lie in one
source sector together, and no other. A write takes the elements read that lie in one destination sector: each brings its bytes to
its own place, an edge element zeros or, under skip, nothing; every other byte of memory keeps its value, if no open chunk has
read the sector's line, and the sector's tag is cleared. Where the rules leave a point open it holds of the choice the model makes
(assumption 24). -/
def Obligations.ShapesPassAndElementsArrive : Prop :=
  (
    (∀ (g : Bool) (bs : List Byte) (c : CopyCmd), parseShape g bs = .ok c →
      c.esz ≤ 4 ∧ 1 ≤ c.dims ∧ c.dims ≤ 5 ∧ c.action ≤ 3 ∧ (g = true → c.dims = 2 ∧ c.counts.getD 1 0 ≤ 1024) ∧
      c.counts.length = c.dims ∧ c.valids.length = c.dims ∧
      (∀ d < c.dims, 1 ≤ c.counts.getD d 0 ∧ c.counts.getD d 0 ≤ 65535 ∧ c.valids.getD d 0 ≤ c.counts.getD d 0) ∧
      prod c.counts ≤ 2 ^ 21 ∧ 2 ^ c.esz * prod (if c.skip then c.valids else c.counts) ≤ 2 ^ 24) ∧
    (∀ (c : CopyCmd) (dst : Bool) (cursor : Nat) (lo hi : Int) (i0 : Nat) (is : List Nat),
      c.span dst cursor = some (lo, hi) → (i0 :: is).length = (c.extents dst).length →
      (∀ d < (i0 :: is).length, (i0 :: is).getD d 0 < (c.extents dst).getD d 0) →
      lo ≤ (cursor : Int) + (2 ^ c.esz * i0 : Nat) + strideSum is (if dst then c.dstride else c.sstride) ∧
      (cursor : Int) + (2 ^ c.esz * i0 : Nat) + strideSum is (if dst then c.dstride else c.sstride) + (2 ^ c.esz : Nat) ≤ hi)) ∧
  (
    (∀ (s : State) (before : List CopyCmd) (c : CopyCmd), (c.total ≤ c.reads ∨ ∃ b ∈ before, b.reads < b.total) →
      s.readRun before c = .held) ∧
    (∀ (s t : State) (before : List CopyCmd) (c x : CopyCmd) (ix : List Nat), ix = indices c.counts c.reads →
      s.readRun before c = .moved t x →
      (c.edge ix = true → t = s ∧ x = { c with buf := c.buf ++ [none] }) ∧
      (c.edge ix = false → ∃ loc n, s.engineLoc c.cid (c.srcAt ix) false = .ok loc ∧ t = s ∧ 1 ≤ n ∧
        (n = 1 ∨ ix.headD 0 + n ≤ c.valids.headD 0 ∧ c.srcAt ix % 16 + 2 ^ c.esz * n ≤ 16) ∧
        x = { c with buf := x.buf } ∧ x.buf = c.buf ++ (List.range n).map fun j =>
          some ((List.range (2 ^ c.esz)).map fun b => s.byteAt (loc + 2 ^ c.esz * j + b)))) ∧
    (∀ (s t : State) (before : List CopyCmd) (c x : CopyCmd) (ix : List Nat), ix = indices c.counts c.at_ →
      s.writeRun before c = .moved t x →
      ((c.skip && c.edge ix) = true → t = s ∧ x = { c with at_ := c.at_ + 1, buf := c.buf.drop 1 }) ∧
      (∀ loc d, (c.skip && c.edge ix) = false → s.engineLoc c.cid (c.dstAt ix) true = .ok loc → d = s.real loc → c.esz ≤ 4 →
        loc % 16 = c.dstAt ix % 16 → loc % 16 + 2 ^ c.esz ≤ 16 → (∀ y ∈ c.buf, ∀ l, y = some l → l.length = 2 ^ c.esz) →
        (∀ k, ∀ y ∈ (s.strand k).chunks, d / 128 ∉ y.reads) →
        ∃ n, 1 ≤ n ∧ n ≤ c.buf.length ∧ x = { c with at_ := c.at_ + n, buf := c.buf.drop n } ∧
          (n = 1 ∨ ix.headD 0 + n ≤ (if c.skip then c.valids.headD 0 else c.counts.headD 0) ∧ loc % 16 + 2 ^ c.esz * n ≤ 16) ∧
          (∀ j < n, ∀ b < 2 ^ c.esz, readByte t.mem (d + 2 ^ c.esz * j + b) = ((c.buf.getD j none).getD []).getD b 0) ∧
          (∀ a, (∀ j < n, ∀ b < 2 ^ c.esz, a ≠ d + 2 ^ c.esz * j + b) → readByte t.mem a = readByte s.mem a) ∧
          (∀ k, k ≠ d / 16 → tagAt t.tags k = tagAt s.tags k) ∧ tagAt t.tags (d / 16) = false)))

/-- 15 R279, R285, R287, R288, R291, R299, R301, R302: a waiting command that came first takes the lowest free slot with its locks,
and its instruction is complete. The engine reads a command's runs and writes its destination sectors; the oldest completes when
all are written: its slot and locks are free and its action is sent. One that meets a failing element leaves the engine too and
reports ENGFAULT. cp.wait waits for the firing's commands, its S-mode form for those of the gang that bind it to its quire; cp.st
reports them. Where the rules leave a point open it holds of the choice the model makes (assumption 23). -/
def Obligations.CopiesAreAcceptedMovedAndCompleted : Prop :=
  (∀ (s : State) (sid n : Nat) (k : CopyCmd) (q : Quire), sid = s.argN 0 → q = s.quire (quireOf sid) →
    (s.strand sid).command = some k →
    (∀ j ∈ (coresOf (quireOf sid)).flatMap strandsOf, ∀ c, (s.strand j).command = some c → k.seq ≤ c.seq) →
    q.cmds.length < 16 → n < 16 → (∀ c ∈ q.cmds, c.slot ≠ n) → (∀ j < n, ∃ c ∈ q.cmds, c.slot = j) →
    q.locks.length + (s.locksOf { k with slot := n }).length ≤ 32 →
    ∃ t, exec .copyAccept s = .next t ∧ (t.quire (quireOf sid)).cmds = q.cmds ++ [{ k with slot := n }] ∧
      (t.quire (quireOf sid)).locks = q.locks ++ s.locksOf { k with slot := n } ∧ (t.strand sid).wait = .none ∧
      t.arch sid = (s.arch sid).ended ∧ (∀ j, j ≠ sid → t.strand j = s.strand j) ∧
      { t with strands := s.strands, quires := s.quires } = s) ∧
  (∀ (s t : State) (before : List CopyCmd) (c x : CopyCmd), (s.quire (s.argN 0)).command (s.argN 1) = some (before, c) →
    (s.argN 2 = 1 → s.argN 3 = 0 → s.readRun before c = .moved t x → exec .copyComplete s = .next (t.putCommand (s.argN 0) x)) ∧
    (s.argN 2 = 0 → s.argN 3 = 1 → s.writeRun before c = .moved t x → exec .copyComplete s = .next
      (if x.total ≤ x.at_ ∧ before = [] then ((t.putCommand (s.argN 0) x).dropCommand (s.argN 0) c.slot).sendCompletion x
       else t.putCommand (s.argN 0) x)) ∧
    (∀ ix code va, ix = indices c.counts c.at_ → before = [] → c.at_ < c.total → c.action ≠ 1 →
      ((c.buf = [] ∧ s.readRun [] c = .failed code va) ∨ (c.buf ≠ [] ∧ s.writeRun [] c = .failed code va) ∨
        (c.buf = [] ∧ (∀ k a, s.readRun [] c ≠ .failed k a) ∧ s.argN 2 = 1 ∧ c.edge ix = false ∧ code = 5 ∧ va = c.srcAt ix)) →
      (∀ d, homeDie (s.real (s.copyLoc c.cid va)) = some d → (s.die d).fenced = false) → ∃ t, exec .copyFault s = .next t ∧
      (∀ x ∈ (t.quire (s.argN 0)).cmds, x.slot ≠ c.slot) ∧ (∀ x ∈ (t.quire (s.argN 0)).locks, x.slot ≠ c.slot) ∧
      (c.live = true → (s.strand c.sid).firing.isSome = true → (s.arch c.sid).gangNo = c.gang →
        s.gangAway c.gang (coreOf c.sid) = false →
        (t.strand c.sid).engfault = (s.strand c.sid).engfault ++ [BitVec.ofNat 64 (code * 2 ^ 60 + va % 2 ^ 56)]) ∧
      t.mem = s.mem ∧ t.tags = s.tags)) ∧
  (∀ (s : State) (qid slot : Nat), (∀ c ∈ ((s.dropCommand qid slot).quire qid).cmds, c.slot ≠ slot ∧ c ∈ (s.quire qid).cmds) ∧
    (∀ l ∈ ((s.dropCommand qid slot).quire qid).locks, l.slot ≠ slot ∧ l ∈ (s.quire qid).locks)) ∧
  (∀ (s : State) (c : CopyCmd) (cid off : Nat), s.barrierAt c.cid c.target = some (cid, off) → c.action = 1 →
    s.sendCompletion c = s.sendAction c.cid c.sid (s.commandScope c) (.bytes c.gang cid off c.bytes)) ∧
  (∀ (s : State) (c : CopyCmd) (cid off : Nat), s.place c.cid c.target.cursor = .pad cid 0 off →
    (c.action = 2 → s.sendCompletion c =
      s.sendAction c.cid c.sid (s.commandScope c) (.cdec c.sid c.gang (mkRef cid off) (c.arg.extractLsb' 0 32).toInt)) ∧
    (c.action = 3 → s.sendCompletion c =
      s.sendAction c.cid c.sid (s.commandScope c) (.push (some c.sid) c.gang (mkRef cid off) c.arg (cid == c.cid)))) ∧
  (∀ (s u : State) (x : BitVec 6), MayEnd false false [.g x] s u → u.me.smode = true → (u.me.word x).getLsbD 8 = true →
    ((∃ c ∈ (u.quire (quireOf s.cur)).cmds, c.gang = u.me.gangNo ∧ u.owed c = true) → exec (.cpWait x) s = .next (u.waiting .instr)) ∧
    ((∀ c ∈ (u.quire (quireOf s.cur)).cmds, c.gang = u.me.gangNo → u.owed c = false) →
      ∃ t, exec (.cpWait x) s = .next t ∧ Ran u t u.me.ended (u.strand s.cur).out)) ∧
  (∀ (s u : State) (x : BitVec 6), MayEnd false false [.g x] s u → (u.me.smode = false ∨ (u.me.word x).getLsbD 8 = false) →
    (u.commands s.cur ≤ (u.me.word x).toNat % 32 → ∃ t, exec (.cpWait x) s = .next t ∧ Ran u t u.me.ended (u.strand s.cur).out) ∧
    ((u.me.word x).toNat % 32 < u.commands s.cur → exec (.cpWait x) s = .next (u.waiting .instr))) ∧
  (∀ (s u : State) (x y : BitVec 6), MayEnd false false [.g y, .g x] s u →
    (2 ≤ (u.me.word y).toNat → exec (.cpSt x y) s = .next (u.raise s.cur .ill (u.me.word y))) ∧
    (∀ r, ((u.me.word y).toNat = 0 ∧ r = .data (BitVec.ofNat 64 (u.commands s.cur % 32 +
        (16 - (u.quire (quireOf s.cur)).cmds.length) * 2 ^ 8 + (32 - (u.quire (quireOf s.cur)).locks.length) * 2 ^ 16))) ∨
      ((u.me.word y).toNat = 1 ∧ r = u.quireCap) →
      ∃ t chunk, exec (.cpSt x y) s = .next t ∧ Ran u t u.me.ended ((u.strand s.cur).out ++
        [left u chunk [.g x] (.ready [.g x r] Flags.none)])))

/-! # Stage barriers (15) -/

/-- 15 R304 to R306, R308, R297, R293: a member of 0x26 traps where its barrier capability, the place or the directory says so, and in
a protected area in U mode. sb.init registers a barrier and writes it; an arrival takes one from remaining, adds its bytes to
pending, and advances; one on a broken barrier, or that breaks it, traps SBBROKEN; sb.brk breaks a barrier, and with option 1
releases it.

15 R294, R285: Advance breaks a barrier whose pending count leaves 32 bits; with no arrival and no byte outstanding it opens the
next phase; else it writes the counts. It changes no byte but those of the counters and the byte of BROKEN, if no open chunk has
read the barrier's line. A strand of the quire that is parked on the barrier traps SBBROKEN when it is broken, and goes on when
its phase has been completed. BARRIER_BYTES takes the bytes of a copy from pending, on a registered barrier that is not broken.
Where the rules leave a point open it holds of the choice the model makes (assumptions 15, 16 and 19). -/
def Obligations.StageBarriersActAndAdvance : Prop :=
  (
    (∀ (s u : State) (i : Instr) (bar : BitVec 6) (perm : Nat) (init : Bool) (reads : List RegName),
      barrierMember i = some (bar, perm, init, reads) → MayEnd false false reads s u → Unparked s →
      (∀ cause, checkCap u.me.smode (u.me.readG bar) (u.me.readG bar).cursor 16 [perm] 0 = some cause →
        exec i s = .next (u.raise s.cur cause (u.me.readG bar).low)) ∧
      (checkCap u.me.smode (u.me.readG bar) (u.me.readG bar).cursor 16 [perm] 0 = none →
        ((u.me.readG bar).cursor % 16 ≠ 0 ∨ ∀ cid off, u.place (coreOf s.cur) (u.me.readG bar).cursor = .pad cid 0 off →
          quireOfCore cid ≠ quireOf s.cur ∨ u.padSize cid < off + 16) →
        exec i s = .next (u.raise s.cur .align (u.me.readG bar).low)) ∧
      (∀ cid off, u.me.smode = false → u.protectedRaw cid off = true →
        checkCap u.me.smode (u.me.readG bar) (u.me.readG bar).cursor 16 [perm] 0 = none → (u.me.readG bar).cursor % 16 = 0 →
        u.place (coreOf s.cur) (u.me.readG bar).cursor = .pad cid 0 off → quireOfCore cid = quireOf s.cur → off + 16 ≤ u.padSize cid →
        exec i s = .next (u.raise s.cur .capbnd (u.me.readG bar).low)) ∧
      (∀ cid off, init = false → (u.me.smode = true ∨ u.protectedRaw cid off = false) →
        checkCap u.me.smode (u.me.readG bar) (u.me.readG bar).cursor 16 [perm] 0 = none →
        (u.me.readG bar).cursor % 16 = 0 → u.place (coreOf s.cur) (u.me.readG bar).cursor = .pad cid 0 off →
        quireOfCore cid = quireOf s.cur → off + 16 ≤ u.padSize cid → (u.quire (quireOf s.cur)).names cid off = false →
        exec i s = .next (u.raise s.cur .sbbroken (u.me.readG bar).low))) ∧
    (∀ (s u : State) (x y : BitVec 6) (cid off v : Nat), MayEnd false false [.g x, .g y] s u → v = (u.me.word y).toNat →
      AtBarrier u x permST true cid off →
      (v % 2 ^ 16 = 0 ∨ v / 2 ^ 24 % 256 < v / 2 ^ 16 % 256 → exec (.sbInit x y) s = .next (u.raise s.cur .ill (u.me.word y))) ∧
      (1 ≤ v % 2 ^ 16 → v / 2 ^ 16 % 256 ≤ v / 2 ^ 24 % 256 →
        ((u.quire (quireOf s.cur)).names cid off = true ∨ 16 ≤ (u.quire (quireOf s.cur)).dir.length →
          exec (.sbInit x y) s = .next (u.raise s.cur .range (u.me.readG x).low)) ∧
        ((u.quire (quireOf s.cur)).names cid off = false → (u.quire (quireOf s.cur)).dir.length < 16 →
          ∃ t, exec (.sbInit x y) s = .next t ∧ t.arch s.cur = u.me.ended ∧ (t.strand s.cur).wait = .none ∧
            (t.quire (quireOf s.cur)).dir =
              (u.quire (quireOf s.cur)).dir ++ [{ cid := cid, off := off, gang := u.me.gangNo }] ∧
            t.mem = (u.placeStore (padLoc cid off) (bytesOfNat 16 ((v % 2 ^ 16) * 2 ^ 16 + (v % 2 ^ 16) * 2 ^ 32 + 2 ^ 81 +
              (v / 2 ^ 16 % 256) * 2 ^ 96 + (v / 2 ^ 24 % 256) * 2 ^ 104)) (some s.cur)).mem))) ∧
    (∀ (s u : State) (i : Instr) (bar : BitVec 6) (reads : List RegName) (n cid off loc : Nat), loc = padLoc cid off →
      barrierMember i = some (bar, permST, false, reads) → MayEnd false false reads s u → arrivalBytes u.me i = some (bar, n) →
      AtBarrier u bar permST false cid off →
      (u.sbBroken loc = true → exec i s = .next (u.raise s.cur .sbbroken (u.me.readG bar).low)) ∧
      (u.sbBroken loc = false → u.sbRemaining loc = 0 →
        exec i s = .next ((u.breakBarrier loc).raise s.cur .sbbroken (u.me.readG bar).low)) ∧
      (u.sbBroken loc = false → u.sbRemaining loc ≠ 0 → ∀ v held, u.sbAdvance loc (u.sbRemaining loc - 1) (u.sbPending loc + n) =
          (v, held) → v.cur = s.cur →
        exec i s = .next (if held then (Act.done v).settleT else v.raise s.cur .sbbroken (u.me.readG bar).low))) ∧
    (∀ (s u : State) (x y : BitVec 6) (cid off : Nat), MayEnd false false [.g x, .g y] s u → AtBarrier u x permST false cid off →
      (2 ^ 31 ≤ (u.me.word y).toNat → exec (.sbExp x y) s = .next (u.raise s.cur .ill (u.me.word y))) ∧
      ((u.me.word y).getLsbD 0 = false → exec (.sbBrk x y) s = .next (Act.done (u.breakBarrier (padLoc cid off))).settleT) ∧
      ((u.me.word y).getLsbD 0 = true → (∀ k, ∀ z ∈ (u.strand k).chunks, lineOf (padLoc cid off) ∉ z.reads) →
        ∃ t, exec (.sbBrk x y) s = .next t ∧
        (t.quire (quireOf s.cur)).names cid off = false ∧
        (∀ d ∈ (u.quire (quireOf s.cur)).dir, (d.cid ≠ cid ∨ d.off ≠ off) → d ∈ (t.quire (quireOf s.cur)).dir) ∧
        t.mem = (u.store (padLoc cid off + 10) [(readByte u.mem (padLoc cid off + 10) ||| 1) &&& 0xFD]).mem))) ∧
  (
    (∀ (s t : State) (cid off loc rem : Nat) (pend : Int) (held : Bool), cid < 1280 → off % 16 = 0 → loc = padLoc cid off →
      rem < 2 ^ 16 → (∀ k, ∀ x ∈ (s.strand k).chunks, loc / 128 ∉ x.reads) → s.sbAdvance loc rem pend = (t, held) →
      (held = true ↔ -(2 ^ 31) ≤ pend ∧ pend < 2 ^ 31) ∧ t.sbExpected loc = s.sbExpected loc ∧
      (held = false → t.sbBroken loc = true) ∧
      (held = true → t.sbBroken loc = s.sbBroken loc) ∧
      (held = true → rem = 0 → pend = 0 → t.sbPhase loc = (s.sbPhase loc + 1) % 2 ^ 16 ∧ t.sbRemaining loc = s.sbExpected loc ∧
        t.sbPending loc = 0) ∧
      (held = true → (rem ≠ 0 ∨ pend ≠ 0) → t.sbPhase loc = s.sbPhase loc ∧ t.sbRemaining loc = rem ∧ t.sbPending loc = pend) ∧
      (∀ sid ∈ (coresOf (quireOfCore (padCore loc))).flatMap strandsOf, ∀ p a, (s.strand sid).wait = .stage loc p a →
        (held = false → (t.strand sid).trap = some { cause := .sbbroken, val := a } ∧ (t.strand sid).wait = .none) ∧
        (held = true → rem = 0 → pend = 0 → phasePassed ((s.sbPhase loc + 1) % 2 ^ 16) p = true → (t.strand sid).wait = .passed)) ∧
      (∀ a, (a < loc ∨ loc + 11 ≤ a) → readByte t.mem a = readByte s.mem a)) ∧
    (∀ (s : State) (m : Msg) (gang cid off n : Nat), s.msg (s.argN 0) = some m → m.kind = .bytes gang cid off n →
      s.gangAway gang cid = false → s.sectorsHeld none [padLoc cid off] = none →
      ((s.quire (quireOfCore cid)).names cid off = true → s.sbBroken (padLoc cid off) = false → exec .barrierBytes s =
        .next ((s.sbAdvance (padLoc cid off) (s.sbRemaining (padLoc cid off)) (s.sbPending (padLoc cid off) - n)).1.dropMsg
          (s.argN 0))) ∧
      ((s.quire (quireOfCore cid)).names cid off = false ∨ s.sbBroken (padLoc cid off) = true →
        exec .barrierBytes s = .next (s.dropMsg (s.argN 0)))))

/-- 15 R295: a wait or test on phase p succeeds when (phase − p) mod 2^16 lies in [1, 2^15). sb.test writes that as bit 0 of its
result; sb.wait on a barrier that is not broken is complete then, and parks otherwise until that phase has been completed or the
barrier is broken (R307). -/
def Obligations.WaitsAndTestsPassOnLaterPhases : Prop :=
  (∀ phase p : Nat, phase < 2 ^ 16 → p < 2 ^ 16 → (phasePassed phase p = true ↔
    1 ≤ ((phase : Int) - p) % 2 ^ 16 ∧ ((phase : Int) - p) % 2 ^ 16 < 2 ^ 15)) ∧
  (∀ (s u : State) (x y z : BitVec 6) (cid off loc : Nat), loc = padLoc cid off → MayEnd false false [.g y, .g z, .g x] s u →
    AtBarrier u y permLD false cid off →
    ∃ t chunk, exec (.sbTest x y z) s = .next t ∧ Ran u t u.me.ended ((u.strand s.cur).out ++
      [left u chunk [.g x] (.ready [.g x (.data (BitVec.ofNat 64 ((if phasePassed (u.sbPhase loc) (u.me.word z).toNat then 1 else 0) +
           (if u.sbBroken loc then 2 else 0) + u.sbPhase loc * 2 ^ 16 + u.sbRemaining loc * 2 ^ 32)))] Flags.none)])) ∧
  (∀ (s : State) (x y : BitVec 6) (l p : Nat) (a : BitVec 64), (s.strand s.cur).wait = .stage l p a → exec (.sbWait x y) s = .next s) ∧
  (∀ (s u : State) (x y : BitVec 6), (s.strand s.cur).wait = .passed → MayEnd false false [.g x, .g y] s u →
    ∃ t, exec (.sbWait x y) s = .next t ∧ Ran u t u.me.ended (u.strand s.cur).out) ∧
  (∀ (s u : State) (x y : BitVec 6) (cid off loc : Nat), loc = padLoc cid off → MayEnd false false [.g x, .g y] s u → Unparked s →
    AtBarrier u x permLD false cid off →
    (u.sbBroken loc = true → exec (.sbWait x y) s = .next (u.raise s.cur .sbbroken (u.me.readG x).low)) ∧
    (u.sbBroken loc = false →
      (phasePassed (u.sbPhase loc) (u.me.word y).toNat = true →
        ∃ t, exec (.sbWait x y) s = .next t ∧ Ran u t u.me.ended (u.strand s.cur).out) ∧
      (phasePassed (u.sbPhase loc) (u.me.word y).toNat = false → exec (.sbWait x y) s =
        .next (u.waiting (.stage loc ((u.me.word y).toNat % 2 ^ 16) (u.me.readG x).low)))))

/-! # Stamped commit (19) -/

/-- 19 R365, R368, R369: clk.rd gives the clock of the die in two settled registers, and traps ILL if they are one; clk.wt is complete
when earliest exceeds its time and waits until then; stp.rd leaves the current stamp of a line outstanding as a load of its chunk,
or traps as its operand says.

19 R366, R367: st.stamp and ld.asof trap as their operand says; the operand is a doubleword of the current half of a stamped page,
outside the stamp sector. st.stamp traps CLKWIDE (always with wmax 0), STAMPLOW or ILL as the clock says, and otherwise sends its
version and goes on, parking only while the home slice is full. ld.asof waits until earliest exceeds its stamp, and then leaves
its read outstanding in the chunk that follows. Where the rules leave a point open it holds of the choice the model makes
(assumption 27). -/
def Obligations.ClockReadsAndStampedStores : Prop :=
  (
    (∀ (s u : State) (x y : BitVec 6), Issues false [.g x, .g y] s u →
      (x = y → x ≠ 0 → exec (.clkRd x y) s = .next (u.raise s.cur .ill 0)) ∧
      ((x ≠ y ∨ x = 0) → ∃ t, exec (.clkRd x y) s = .next t ∧ Ran s t
        ((s.me.writeG x (.data (BitVec.ofNat 64 (s.die (dieOf s.cur)).earliest))).writeG y
          (.data (BitVec.ofNat 64 (s.die (dieOf s.cur)).latest))).advance (s.strand s.cur).out)) ∧
    (∀ (s u : State) (x : BitVec 6), MayEnd false false [.g x] s u →
      ((u.me.word x).toNat < (u.die (dieOf s.cur)).earliest →
        ∃ t, exec (.clkWt x) s = .next t ∧ Ran u t u.me.ended (u.strand s.cur).out) ∧
      ((u.die (dieOf s.cur)).earliest ≤ (u.me.word x).toNat → exec (.clkWt x) s = .next (u.waiting (.clock (u.me.word x))))) ∧
    (∀ (s : State) (t : BitVec 64), (s.strand (s.argN 0)).wait = .clock t →
      (t.toNat < (s.die (dieOf (s.argN 0))).earliest →
        exec .clockWaitExpiry s = .next (s.setStrand (s.argN 0) { s.strand (s.argN 0) with wait := .none })) ∧
      ((s.die (dieOf (s.argN 0))).earliest ≤ t.toNat → exec .clockWaitExpiry s = .next s)) ∧
    (∀ (s u : State) (x y : BitVec 6), Issues false [.g y, .g x] s u →
      (∀ cause v, u.stampTarget (u.me.readG y) false false = .error (.trap cause v) →
        exec (.stpRd x y) s = .next (u.raise s.cur cause v)) ∧
      (∀ loc, u.stampTarget (u.me.readG y) false false = .ok loc → StampJoins u (loc / 128 * 128) → ∃ t chunk,
        exec (.stpRd x y) s = .next t ∧ Own s t s.me.advance ((s.strand s.cur).out ++ [
          left s chunk [.g x] (.stamped { line := loc / 128 * 128, off := loc % 128, asof := none, r := x, arrived := none })]) ∧
        StampSent s t (loc / 128 * 128)))) ∧
  (
    (∀ (u : State) (c : Reg) (store word : Bool) (loc : Nat), u.stampTarget c store word = .ok loc →
      checkCap u.me.smode c c.cursor 8 [if store then permST else permLD, permSTAMP] 8 = none ∧ c.cursor % 65536 < 32768 ∧
      (word = true → c.cursor % 128 ≤ 104) ∧
      ∃ va e, u.place (coreOf u.cur) c.cursor = .mapped va ∧ u.transLoad u.cur va = .ok loc e ∧ e.st = true) ∧
    (∀ (s u : State) (x y z : BitVec 6) (d : Die) (t width : Nat), MayEnd false false [.g x, .g y, .g z] s u →
      d = u.die (dieOf s.cur) → t = (u.me.word z).toNat → width = d.latest - d.earliest →
      (∀ cause v, u.stampTarget (u.me.readG y) true true = .error (.trap cause v) →
        exec (.stStamp x y z) s = .next (u.raise s.cur cause v)) ∧
      (∀ loc, u.stampTarget (u.me.readG y) true true = .ok loc →
        (u.me.twmax.toNat % 65536 = 0 ∨ u.me.twmax.toNat % 65536 < width →
          exec (.stStamp x y z) s = .next (u.raise s.cur .clkwide (BitVec.ofNat 64 width))) ∧
        (1 ≤ u.me.twmax.toNat % 65536 → width ≤ u.me.twmax.toNat % 65536 → t < d.latest →
          exec (.stStamp x y z) s = .next (u.raise s.cur .stamplow (BitVec.ofNat 64 d.latest))) ∧
        (1 ≤ u.me.twmax.toNat % 65536 → width ≤ u.me.twmax.toNat % 65536 → d.latest + 2 ^ 32 ≤ t →
          exec (.stStamp x y z) s = .next (u.raise s.cur .ill (u.me.word z))) ∧
        (1 ≤ u.me.twmax.toNat % 65536 → width ≤ u.me.twmax.toNat % 65536 → d.latest ≤ t → t < d.latest + 2 ^ 32 →
          ∃ v, exec (.stStamp x y z) s = .next v ∧
          v.arch s.cur = (if u.sliceHeld (u.real loc) < 32 then u.me.ended else u.me.ended.count 9 (u.free 9).toNat) ∧
          (v.strand s.cur).wait = (if u.sliceHeld (u.real loc) < 32 then .none else .sent u.serial) ∧
          (v.strand s.cur).out = (u.strand s.cur).out ∧ (∀ k, k ≠ s.cur → v.strand k = u.strand k) ∧
          v.msgs = u.msgs ++ [
            { id := u.serial, src := coreOf s.cur, eng := none,
              kind := .version (versionOf (u.real loc) (u.me.word x) t u.bindery.package (dieOf s.cur) s.cur
                (((u.strand s.cur).opened.map Chunk.born).getD u.ticks)) }] ∧
          v.mem = u.mem ∧ v.tags = u.tags ∧ v.dies = u.dies))) ∧
    (∀ (s u : State) (x y z : BitVec 6), MayEnd false false [.g y, .g z, .g x] s u →
      (∀ cause v, u.stampTarget (u.me.readG y) false true = .error (.trap cause v) →
        exec (.ldAsof x y z) s = .next (u.raise s.cur cause v)) ∧
      (∀ loc, u.stampTarget (u.me.readG y) false true = .ok loc →
        ((u.die (dieOf s.cur)).earliest ≤ (u.me.word z).toNat →
          exec (.ldAsof x y z) s = .next (u.waiting (.clock (u.me.word z)))) ∧
        ((u.me.word z).toNat < (u.die (dieOf s.cur)).earliest → StampJoins u (loc / 128 * 128) → ∃ t chunk,
          exec (.ldAsof x y z) s = .next t ∧ Own u t u.me.ended ((u.strand s.cur).out ++ [
            left u chunk [.g x] (.stamped { line := loc / 128 * 128, off := loc % 128, asof := some (u.me.word z), r := x, arrived :=
              none })]) ∧
          StampSent u t (loc / 128 * 128) ∧ ∃ c, (t.strand s.cur).opened = some c ∧ c.redo = true))))

/-- 19 R361, R362: a version is held where its home slice has room; the clock of its storing die releases it; the home applies those
of the smallest key of a line, released and below the horizon, together: the shadow takes the line as it was, and the line their
bytes and the stamp. F0 collects the lowest stamps; the horizon of a die never falls.

19 R363, R367, R369: a read of a stamped line that its die homes takes L when it arrives; it is served when the horizon exceeds L
and every version of the line with a stamp at most L is applied. It answers the stamp, or for ld.asof the word of the version at
its stamp, current or shadow; with neither, the chunk is squashed and STALE is taken, unless it has been squashed already. Where
the rules leave a point open it holds of the choice the model makes (assumptions 27 and 72). -/
def Obligations.VersionsReachLinesThatAreRead : Prop :=
  (
    (∀ (s : State) (m : Msg) (v : Version) (d : Nat), s.msg (s.argN 0) = some m → m.kind = .version v → d = stampHome v.loc →
      (s.die d).fenced = false → (s.die v.die).fenced = false →
      (32 ≤ s.sliceHeld v.loc → exec .stampVersion s = .next s) ∧
      (s.sliceHeld v.loc < 32 → ∃ t, exec .stampVersion s = .next t ∧ (t.die d).versions = (s.die d).versions ++ [v] ∧
        t.msg (s.argN 0) = none ∧ t.mem = s.mem ∧ t.strands = s.strands)) ∧
    (∀ (s : State), ∃ t, exec .stampRelease s = .next t ∧ t.mem = s.mem ∧ t.strands = s.strands ∧
      ∀ d, (t.die d).versions = (s.die d).versions.map (fun v =>
        { v with released := v.released || decide (v.package = s.bindery.package ∧ v.die = s.argN 0 ∧
          v.stamp < (s.die (s.argN 0)).earliest) })) ∧
    (∀ (s : State) (line d : Nat) (g : List Version), line = s.argN 0 → d = stampHome (128 * line) →
      g = smallestKey ((s.die d).versions.filter fun v => lineOf v.loc == line) → g ≠ [] →
      ((∃ v ∈ g, v.released = false ∨ (s.die d).horizon ≤ v.stamp) → exec .versionApply s = .next s) ∧
      ((∀ v ∈ g, v.released = true ∧ v.stamp < (s.die d).horizon) → s.placeBlocked d [line, line + 256] none = false →
        exec .versionApply s = .next (((s.applyVersions line g).onDie d fun x =>
          { x with versions := x.versions.filter fun v => !g.contains v }).squashReaders d [line, line + 256] none))) ∧
    (∀ (s : State) (line : Nat) (v : Version), v.loc / 8 * 8 = v.loc → lineOf v.loc = line → v.loc % 128 ≤ 104 → v.stamp < 2 ^ 64 →
      (∀ j < 128, readByte (s.applyVersions line [v]).mem (128 * line + 0x8000 + j) = readByte s.mem (128 * line + j)) ∧
      readNat (s.applyVersions line [v]).mem v.loc 8 = v.data.toNat ∧
      readNat (s.applyVersions line [v]).mem (128 * line + 112) 8 = v.stamp ∧
      (∀ a, (a < v.loc ∨ v.loc + 8 ≤ a) → (a < 128 * line + 112 ∨ 128 * line + 120 ≤ a) →
        (a < 128 * line + 0x8000 ∨ 128 * line + 0x8080 ≤ a) →
        readByte (s.applyVersions line [v]).mem a = readByte s.mem a)) ∧
    (∀ (s : State) (m : Nat), s.packageMin = some m → ∃ t, exec .horizonCollect s = .next t ∧ t.collected = some m ∧
      (s.bindery.peers = [] → ∀ d ∈ t.dies, d.2.horizonNext = some m) ∧ (s.bindery.peers ≠ [] → t.dies = s.dies)) ∧
    (∀ (s : State) (m : Nat), s.collected = some m → s.bindery.peers ≠ [] → ∃ t, exec .horizonExchange s = .next t ∧
      ∀ d ∈ t.dies, d.2.horizonNext = some (min m (s.argN 0))) ∧
    (∀ (s : State), ∃ t, exec .horizonUpdate s = .next t ∧
      (t.die (s.argN 0)).horizon = max (s.die (s.argN 0)).horizon ((s.die (s.argN 0)).horizonNext.getD 0) ∧
      (∀ k, (s.die k).horizon ≤ (t.die k).horizon) ∧ (t.die (s.argN 0)).horizonNext = none)) ∧
  (
    (∀ (s : State) (o : Out) (q : StampReq) (d : Nat), (s.strand (s.argN 0)).outOf (s.argN 1) = some o → o.src = .stamped q →
      d = dieOf (s.argN 0) → homeDie q.line = some d → s.reachable d q.line = true →
      (q.arrived = none → exec .stampedRead s = .next (s.onSource (s.argN 0) (s.argN 1) fun _ =>
        .stamped { q with arrived := some (s.die d).latest })) ∧
      (∀ l, q.arrived = some l →
        ((s.die d).horizon ≤ l ∨ (∃ v ∈ (s.die d).versions, lineOf v.loc = lineOf q.line ∧ v.stamp ≤ l) →
          exec .stampedRead s = .next s) ∧
        (l < (s.die d).horizon → (∀ v ∈ (s.die d).versions, lineOf v.loc = lineOf q.line → l < v.stamp) →
          (q.asof = none → exec .stampedRead s = .next (s.answer (s.argN 0) (s.argN 1)
            [.g q.r (.data (s.wordAt (q.line + 112)))] Flags.none)) ∧
          (∀ t, q.asof = some t →
            ((s.wordAt (q.line + 112)).toNat ≤ t.toNat → exec .stampedRead s = .next (s.answer (s.argN 0) (s.argN 1)
              [.g q.r (.data (s.wordAt (q.line + q.off)))] Flags.none)) ∧
            (t.toNat < (s.wordAt (q.line + 112)).toNat → (s.wordAt (q.line + 0x8000 + 112)).toNat ≤ t.toNat →
              exec .stampedRead s = .next (s.answer (s.argN 0) (s.argN 1)
                [.g q.r (.data (s.wordAt (q.line + 0x8000 + q.off)))] Flags.none)) ∧
            (t.toNat < (s.wordAt (q.line + 112)).toNat → t.toNat < (s.wordAt (q.line + 0x8000 + 112)).toNat →
              exec .stampedRead s = .next (if o.dead then s.answer (s.argN 0) (s.argN 1) [] Flags.none
                else s.stale (s.argN 0) (s.argN 1) o.chunk t)))))) ∧
    (∀ (s : State) (o : Out) (l : LoadReq) (n : Need) (d : Nat), (s.strand (s.argN 0)).outOf (s.argN 1) = some o → o.src = .load l →
      l.need[s.argN 2]? = some n → n.port = .stamped → s.reachable (dieOf (s.argN 0)) (n.locs.headD 0) = true →
      d = stampHome (s.real (n.locs.headD 0)) →
      (n.arrived = none → exec .stampedRead s = .next (s.onSource (s.argN 0) (s.argN 1) fun _ =>
        .load { l with need := l.need.set (s.argN 2) { n with arrived := some (s.die d).latest } })) ∧
      (∀ x, n.arrived = some x → x < (s.die d).horizon →
        (∀ v ∈ (s.die d).versions, lineOf v.loc = lineOf (s.real (n.locs.headD 0)) → x < v.stamp) →
        exec .stampedRead s = .next (s.readNeed (s.argN 0) (s.argN 1) (s.argN 2)))))

/-- 19 R357, 01 R28: neither end of a die's clock ever falls as reference time passes or as discipline corrects it, the width grows by
at most 2 ns for each millisecond, and does not pass its bound under discipline, and the reference time stays within the pair.
Where the rules leave a point open it holds of the choice the model makes (assumption 2). -/
def Obligations.ClocksHoldTheReferenceTime : Prop :=
  (∀ (d : Die) (now bound e ms grow : Nat), HoldsTime now d → HoldsTime (now + e) (d.pass bound e ms grow) ∧
    d.earliest ≤ (d.pass bound e ms grow).earliest ∧ d.latest ≤ (d.pass bound e ms grow).latest ∧
    (d.pass bound e ms grow).latest - (d.pass bound e ms grow).earliest ≤ d.latest - d.earliest + 2 * ms ∧
    (d.lost = false → d.latest - d.earliest ≤ bound →
      (d.pass bound e ms grow).latest - (d.pass bound e ms grow).earliest ≤ bound)) ∧
  (∀ (s : State), (∀ k, HoldsTime s.now (s.die k)) → ∃ t, exec .clockDiscipline s = .next t ∧ t.now = s.now ∧
    (∀ k, HoldsTime t.now (t.die k) ∧ (s.die k).earliest ≤ (t.die k).earliest ∧ (t.die k).latest = (s.die k).latest) ∧
    (t.die (s.argN 0)).earliest =
      max (s.die (s.argN 0)).earliest (min ((s.die (s.argN 0)).earliest + s.argN 1) s.now) ∧
    ((t.die (s.argN 0)).latest - (t.die (s.argN 0)).earliest ≤ s.widthBound → (t.die (s.argN 0)).lost = false) ∧
    t.mem = s.mem ∧ t.strands = s.strands)

/-! # Try-each (20) -/

/-- 20 R382: try waits until nothing is outstanding, traps where a check says so, and starts alternative 0. With one alternative it
pushes nothing; with more it pushes a choice point of the table, the count, the trail's top, the area and g1 to g29, or traps
TRAILFULL when no slot is left.

20 R383, R384, R378: fail traps TRYEMPTY without a choice point; else it undoes the trail to the point's mark, restores g1 to g29,
starts the next alternative, and pops the point with its last. cut and cutto drop choice points and undo nothing; cpmark gives the
depth. A search area passes only with a tag, no seal, LD, ST and TRY, and bounds that are multiples of 8 in the own scratchpad.
Where the rules leave a point open it holds of the choice the model makes (assumption 60). -/
def Obligations.SearchPushesFailsAndCuts : Prop :=
  (
    ∀ (s u : State) (x y z : BitVec 6) (n d : Nat), MayEnd false false [.g x, .g y, .g z] s u → n = (u.me.word y).toNat →
      d = u.me.cpdepth.toNat →
      ((u.strand s.cur).busy = true → exec (.tryEach x y z) s = .next (u.waiting .park)) ∧
      ((u.strand s.cur).busy = false → (n = 0 ∨ 65535 < n) →
        exec (.tryEach x y z) s = .next (u.raise s.cur .ill (u.me.word y))) ∧
      (∀ cause, (u.strand s.cur).busy = false → 1 ≤ n → n ≤ 65535 →
        checkCap u.me.smode (u.me.readG x) (u.me.readG x).cursor (4 * n) [permLD, permX] 4 = some cause →
        exec (.tryEach x y z) s = .next (u.raise s.cur cause (u.me.readG x).low)) ∧
      (∀ cause, (u.strand s.cur).busy = false → 1 ≤ n → n ≤ 65535 →
        checkCap u.me.smode (u.me.readG x) (u.me.readG x).cursor (4 * n) [permLD, permX] 4 = none →
        u.checkArea (u.me.readG z) = .error cause → exec (.tryEach x y z) s = .next (u.raise s.cur cause (u.me.readG z).low)) ∧
      (TryChecks u x y z →
        (∀ cause v, u.alternative (u.me.readG x) 0 = .error (.trap cause v) →
          exec (.tryEach x y z) s = .next (u.raise s.cur cause v)) ∧
        (∀ t, u.alternative (u.me.readG x) 0 = .ok t →
          (n = 1 → ∃ v, exec (.tryEach x y z) s = .next v ∧
            Ran u v ({ u.me with pcc := (u.me.readG x).withCursor t }.count 8 1) (u.strand s.cur).out) ∧
          (2 ≤ n → d = u.me.cpSlots →
            exec (.tryEach x y z) s = .next (u.raise s.cur .trailfull (BitVec.ofNat 64 (2 ^ 63 + d)))) ∧
          (2 ≤ n → d ≠ u.me.cpSlots →
            u.sectorsHeld (some s.cur) (((pushed u x y z).at (u.cpLoc s.cur d)).map (·.1)) = none →
            ∃ v, exec (.tryEach x y z) s = .next v ∧ v.arch s.cur =
              { u.me with pcc := (u.me.readG x).withCursor t, cpdepth := BitVec.ofNat 64 (d + 1) }.count 8 1 ∧
            (v.strand s.cur).wait = .none ∧ (v.strand s.cur).out = (u.strand s.cur).out ∧
            v.mem = (u.placeSectors (some s.cur) ((pushed u x y z).at (u.cpLoc s.cur d))).mem ∧
            (NoReaders u (((pushed u x y z).at (u.cpLoc s.cur d)).map (·.1)) →
              v.choicePoint (u.cpLoc s.cur d) = pushed u x y z))))) ∧
  (
    (∀ (s u : State), MayEnd false true [] s u →
      (u.me.cpdepth.toNat = 0 → exec .fail s = .next (u.raise s.cur .tryempty 0)) ∧
      (∀ d cid loc p, u.me.cpdepth.toNat = d + 1 → cid = u.owner (coreOf s.cur) → loc = u.cpLoc s.cur d → p = u.choicePoint loc →
        (∀ cause v, u.alternative p.table p.next = .error (.trap cause v) → exec .fail s = .next (u.raise s.cur cause v)) ∧
        (∀ t, u.alternative p.table p.next = .ok t →
          u.sectorsHeld (some s.cur) ((loc + 16) :: (u.trailDown cid u.me p.mark).map fun e => padLoc cid e.raw) = none →
          ∃ v, exec .fail s = .next v ∧ Starts u.me (v.arch s.cur) p t ∧ (v.strand s.cur).wait = .none ∧
            (v.arch s.cur).cpdepth = BitVec.ofNat 64 (if p.next + 1 = p.count then d else d + 1) ∧
            (v.arch s.cur).trTop = (if p.next + 1 = p.count ∧ d = 0 then 0 else min u.me.trTop p.mark) ∧
            (NoReaders u ((loc + 16) :: (u.trailDown cid u.me p.mark).map fun e => padLoc cid e.raw) →
              v.mem = (if p.next + 1 = p.count then (undone u cid (u.trailDown cid u.me p.mark)).mem
                else ((undone u cid (u.trailDown cid u.me p.mark)).store (loc + 16) (bytesOfNat 4 (p.next + 1))).mem))))) ∧
    (∀ (s u : State), MayEnd false false [] s u → ∃ t, exec .cut s = .next t ∧
      Ran u t (if u.me.cpdepth.toNat ≤ 1 then { u.me with cpdepth := 0 }.setTop 0
        else { u.me with cpdepth := BitVec.ofNat 64 (u.me.cpdepth.toNat - 1) }).ended (u.strand s.cur).out) ∧
    (∀ (s u : State) (x : BitVec 6), MayEnd false false [.g x] s u → ∃ t, exec (.cutto x) s = .next t ∧
      Ran u t (if min u.me.cpdepth.toNat (u.me.word x).toNat = 0 then { u.me with cpdepth := 0 }.setTop 0
        else { u.me with cpdepth := BitVec.ofNat 64 (min u.me.cpdepth.toNat (u.me.word x).toNat) }).ended (u.strand s.cur).out) ∧
    (∀ (s u : State) (x : BitVec 6), Issues false [.g x] s u → ∃ t chunk, exec (.cpmark x) s = .next t ∧
      Ran s t s.me.advance ((s.strand s.cur).out ++ [left s chunk [.g x] (.ready [.g x (.data s.me.cpdepth)] Flags.none)])) ∧
    (∀ (u : State) (c : Reg) (off : Nat), u.checkArea c = .ok off → c.tag = true ∧ c.otype = 0 ∧ c.perm permLD = true ∧
      c.perm permST = true ∧ c.perm permTRY = true ∧ c.base % 8 = 0 ∧ c.top % 8 = 0 ∧ 0 < c.length ∧
      u.place (coreOf u.cur) c.base.toNat = .pad (u.owner (coreOf u.cur)) 0 off ∧
      off + c.length ≤ u.padSize (u.owner (coreOf u.cur)) ∧
      ∀ k < c.length / 8, u.protectedRaw (u.owner (coreOf u.cur)) (off + 8 * k) = false))

/-- 20 R380: an undo runs from the newest entry down, so a word that several entries name ends with what the oldest of them holds, and
its sector with that entry's tag; no other byte changes. -/
def Obligations.UndoEndsWithTheOldestEntry : Prop :=
  ∀ (s : State) (cid : Nat) (newer older : List TrailEntry) (e : TrailEntry), e.raw % 8 = 0 → (∀ x ∈ older, x.raw % 8 = 0) →
    (∀ x ∈ older, x.raw ≠ e.raw) →
    readNat (undone s cid (newer ++ e :: older)).mem (padLoc cid e.raw) 8 = e.old.toNat ∧
    ((∀ x ∈ older, x.raw / 16 ≠ e.raw / 16) →
      tagAt (undone s cid (newer ++ e :: older)).tags (padLoc cid e.raw / 16) = e.tag) ∧
    (∀ a, (∀ x ∈ newer ++ e :: older, x.raw % 8 = 0 ∧ (a < padLoc cid x.raw ∨ padLoc cid x.raw + 8 ≤ a)) →
      readByte (undone s cid (newer ++ e :: older)).mem a = readByte s.mem a)

/-- 20 R385, R386: tsteal traps with a choice point of its own, with a bad area, or without a slot; with nothing to take it goes on
and changes nothing. Else the thief takes the last half of the untried alternatives of the victim's oldest point, starts the first
of them with the registers of the point, and the victim keeps the rest. Where the rules leave a point open it holds of the choice
the model makes (assumption 60). -/
def Obligations.TheftTakesTheLastHalf : Prop :=
  (∀ (s u : State) (x y : BitVec 6), MayEnd false true [] s u →
    (u.me.cpdepth ≠ 0 → exec (.tsteal x y) s = .next (u.raise s.cur .ill u.me.cpdepth)) ∧
    (u.me.cpdepth = 0 → ∀ cause, u.checkArea (u.me.readG y) = .error cause →
      exec (.tsteal x y) s = .next (u.raise s.cur cause (u.me.readG y).low)) ∧
    (u.me.cpdepth = 0 → ∀ off, u.checkArea (u.me.readG y) = .ok off →
      (u.me.cpSlots = 0 → exec (.tsteal x y) s = .next (u.raise s.cur .trailfull (BitVec.ofNat 64 (2 ^ 63)))) ∧
      (u.me.cpSlots ≠ 0 → (∃ k, u.pinned (dieOf s.cur) = some k ∧ k ≠ s.cur) →
        exec (.tsteal x y) s = .next (u.waiting .instr)) ∧
      (u.me.cpSlots ≠ 0 → (∀ k, u.pinned (dieOf s.cur) = some k → k = s.cur) → ∀ v p loc av,
        v = 4 * u.owner (coreOf s.cur) + (u.me.word x).toNat % 4 → av = (u.strand v).committed →
        loc = padLoc (u.owner (coreOf s.cur)) av.cpBase → p = u.choicePoint loc →
        (v = s.cur ∨ (u.strand v).firing = none ∨ av.cpdepth = 0 ∨ p.count - p.next < 2 →
          ∃ t, exec (.tsteal x y) s = .next t ∧ Ran u t u.me.ended (u.strand s.cur).out) ∧
        (v ≠ s.cur → (u.strand v).firing ≠ none → av.cpdepth ≠ 0 → 2 ≤ p.count - p.next →
          ((u.me.readG y).length ≠ p.area.length →
            exec (.tsteal x y) s = .next (u.raise s.cur .capbnd (u.me.readG y).low)) ∧
          (∀ j, j = p.count - (p.count - p.next + 1) / 2 → (u.me.readG y).length = p.area.length →
            (p.next < j ∧ j < p.count) ∧
            (∀ cause w, u.alternative p.table j = .error (.trap cause w) →
              exec (.tsteal x y) s = .next (u.raise s.cur cause w)) ∧
            (∀ t cid len U own q writes, u.alternative p.table j = .ok t → cid = u.owner (coreOf s.cur) →
              len = (u.me.readG y).length → U = u.undoVictim v (theftReads cid av p len) → own = u.cpLoc s.cur 0 →
              q = stolen p j (u.me.readG y) → writes = theftWrites cid av own q off len →
              U.sectorsHeld (some s.cur) (writes ++ theftReads cid av p len) = none → ∃ w, exec (.tsteal x y) s = .next w ∧
                Starts u.me (w.arch s.cur) p t ∧ (w.arch s.cur).trTop = 0 ∧
                (w.arch s.cur).cpdepth = (if j + 1 < p.count then 1 else 0) ∧ (w.strand s.cur).wait = .none ∧
                (w.strand s.cur).out = (u.strand s.cur).out ∧
                w.mem = ((((U.copyArea cid p.area.rawBase off len (U.trailDown cid av p.mark)).placeSectors (some s.cur)
                  (q.at own)).store (loc + 0x14) (bytesOfNat 4 j)).tookPlace (some s.cur) writes).mem))))))

/-! # The Bindery (21) -/

/-- 21 R392, R393, 08 R165: a MAP operation on a page or a region is applied by an administrator, or by a sender of the domain within
that domain; else it fails with the status that the rules give. A change of what was there before invalidates it at every core,
and the reply follows once what was open has gone. A frame is mapped at one page, and bits 63 to 3 of c are 0 in operation 1 (08
R152, assumptions 32 and 85). A bucket pair or a region array that is full gives status 2 (assumption 31). Where the rules leave a
point open it holds of the choice the model makes (assumptions 32, 34, 73 and 85). -/
def Obligations.MapOperationsWriteTheTables : Prop :=
  (∀ (s : State) (o : MapOp) (frame : Bool) (size : Nat), o = s.mapOp → size = (if o.c % 2 = 1 then 2 ^ 25 else 2 ^ 16) →
    (s.pageStop o frame = none ↔
      MayMap s o.sender o.dom ∧ o.a % size = 0 ∧ o.a < 2 ^ 56 ∧
      (frame = true → o.b % size = 0 ∧ o.b < 2 ^ 52 ∧ o.c < 8 ∧
        ∀ e ∈ s.bindery.pages, meet (o.b, o.b + size) e.frames = true → e.big = o.c.testBit 0 ∧ e.page = o.a) ∧
      (s.isAdmin o.sender = true ∨
        (∃ d, s.domain o.dom = some d ∧ ∃ y ∈ d.regions, y.base ≤ o.a ∧ o.a + size ≤ y.base + 2 ^ y.size) ∧
        (frame = true → ∀ e ∈ s.bindery.pages, meet (o.b, o.b + size) e.frames = true →
          ∀ x ∈ s.bindery.domains, x.1 ≠ o.dom → ∀ y ∈ x.2.regions, meet y.range e.addrs = false))) ∧
    (¬ MayMap s o.sender o.dom → s.pageStop o frame = some 3)) ∧
  (∀ (s : State) (o : MapOp), o = s.mapOp → NotYet s 1 →
    (∀ status, s.pageStop o true = some status → ∃ t, exec .mapPage s = .next t ∧ Answered s t o status []) ∧
    (s.pageStop o true = none → s.writeEntry (pageOf o) true = none → ∃ t, exec .mapPage s = .next t ∧ Answered s t o 2 []) ∧
    (∀ u v, s.pageStop o true = none → s.writeEntry (pageOf o) true = some u →
      v = (if (pageOf o).st = true ∧ (pageOf o).big = false ∧ s.localPhys o.b = .here o.b then u.makeShadows o.b else u) →
      u.bindery.pages = (s.bindery.pages.filter fun x => !(x.big == (pageOf o).big && x.page == o.a)) ++ [pageOf o] ∧
      (s.mapped o.a (pageOf o).big = true →
        ∃ t, exec .mapPage s = .next t ∧ Answered (v.invalidatePage o.a (pageOf o).big) t o 0 (v.openChunks none)) ∧
      (s.mapped o.a (pageOf o).big = false → ∃ t, exec .mapPage s = .next t ∧ Answered v t o 0 []))) ∧
  (∀ (s : State) (o : MapOp) (big : Bool), o = s.mapOp → big = o.c.testBit 0 → NotYet s 2 →
    (∀ status, s.pageStop o false = some status → ∃ t, exec .unmapPage s = .next t ∧ Answered s t o status []) ∧
    (s.pageStop o false = none →
      ∃ u t, s.writeEntry { page := o.a, big := big, frame := 0, w := false, st := false } false = some u ∧
        u.mapped o.a big = false ∧ exec .unmapPage s = .next t ∧
        (s.mapped o.a big = true → Answered (u.invalidatePage o.a big) t o 0 (u.openChunks none)) ∧
        (s.mapped o.a big = false → Answered u t o 0 []))) ∧
  (∀ (s : State) (o : MapOp) (r : Region), o = s.mapOp → r = regionOf o → NotYet s 3 →
    (¬ MayMap s o.sender o.dom → ∃ t, exec .setRegion s = .next t ∧ Answered s t o 3 []) ∧
    (MayMap s o.sender o.dom → (r.size < 20 ∨ 56 < r.size ∨ o.a % 2 ^ r.size ≠ 0 ∨ 2 ^ 56 ≤ o.a ∨ s.domain o.dom = none) →
      ∃ t, exec .setRegion s = .next t ∧ Answered s t o 1 []) ∧
    (∀ d, MayMap s o.sender o.dom → 20 ≤ r.size → r.size ≤ 56 → o.a % 2 ^ r.size = 0 → o.a < 2 ^ 56 → s.domain o.dom = some d →
      (s.isAdmin o.sender = false → s.regionOfOther o.dom r = true → ∃ t, exec .setRegion s = .next t ∧ Answered s t o 3 []) ∧
      ((s.isAdmin o.sender = true ∨ s.regionOfOther o.dom r = false) →
        ((∃ x ∈ d.regions, x.base ≠ o.a ∧ meet x.range r.range = true) →
          ∃ t, exec .setRegion s = .next t ∧ Answered s t o 1 []) ∧
        ((∀ x ∈ d.regions, x.base ≠ o.a → meet x.range r.range = false) →
          (d.regions.find? (fun x => x.base == o.a) = none → 4096 ≤ d.regions.length →
            ∃ t, exec .setRegion s = .next t ∧ Answered s t o 2 []) ∧
          (d.regions.find? (fun x => x.base == o.a) = none → d.regions.length < 4096 →
            ∃ t, exec .setRegion s = .next t ∧ Answered (s.writeDomain o.dom { d with regions := putRegion r d.regions }) t o 0 []) ∧
          (∀ x u, d.regions.find? (fun x => x.base == o.a) = some x →
            u = s.writeDomain o.dom { d with regions := putRegion r d.regions } →
            ∃ t, exec .setRegion s = .next t ∧ Answered (u.invalidateRegion o.dom x) t o 0 (u.openChunks none)))))) ∧
  (∀ (s : State) (o : MapOp), o = s.mapOp → NotYet s 4 →
    (¬ MayMap s o.sender o.dom → ∃ t, exec .removeRegion s = .next t ∧ Answered s t o 3 []) ∧
    (MayMap s o.sender o.dom → (∀ d, s.domain o.dom = some d → ∀ x ∈ d.regions, x.base ≠ o.a) →
      ∃ t, exec .removeRegion s = .next t ∧ Answered s t o 1 []) ∧
    (∀ d r u, MayMap s o.sender o.dom → s.domain o.dom = some d → d.regions.find? (fun x => x.base == o.a) = some r →
      u = s.writeDomain o.dom { d with regions := d.regions.filter fun x => x.base != o.a } →
      (s.isAdmin o.sender = false → s.regionOfOther o.dom r = true → ∃ t, exec .removeRegion s = .next t ∧ Answered s t o 3 []) ∧
      ((s.isAdmin o.sender = true ∨ s.regionOfOther o.dom r = false) →
        ∃ t, exec .removeRegion s = .next t ∧ Answered (u.invalidateRegion o.dom r) t o 0 (u.openChunks none)))) ∧
  (∀ (s : State) (o : MapOp) (i : Instr) (op : Nat), o = s.mapOp → MapEvent i op → s.serves 2 = true →
    (∀ w ∈ s.bindery.mapWaits, w.sender = o.sender → w.id = o.id → w.last = false) →
    (i = .setDomain → (s.domain o.dom).isSome = true ∨ s.isAdmin o.sender = false) →
    (s.body = [] → exec i s = .next (s.reply o.sender o.id 0 0 [])) ∧
    (s.body ≠ [] → (o.op = 0 ∨ 7 < o.op ∨ s.body.length < o.off + 32) → ∃ t, exec i s = .next t ∧ Answered s t o 1 []) ∧
    (o.off + 32 ≤ s.body.length → 1 ≤ o.op → o.op ≤ 7 → o.op ≠ op → exec i s = .next s)) ∧
  (∀ (s : State) (i : Instr) (op : Nat), MapEvent i op → s.serves 2 = false → exec i s = .next s)

/-- 21 R392, R393: only an administrator creates a domain or changes its masks, adds or removes a sender, and registers a peer. A mask
never holds SYS or object type 0; a list of senders holds at most 16 (a seventeenth is answered with status 2, assumption 31). The
administrators are those of the last list of at most 8 that the board wrote. Where the rules leave a point open it holds of the
choice the model makes (assumptions 34 and 85). -/
def Obligations.AdministratorsSetDomainsAndPeers : Prop :=
  (∀ (s : State) (o : MapOp) (i : Instr) (op : Nat), o = s.mapOp → NotYet s op → s.isAdmin o.sender = false → MapEvent i op →
    5 ≤ op → ∃ t, exec i s = .next t ∧ Answered s t o 3 []) ∧
  (∀ (s : State) (o : MapOp), o = s.mapOp → NotYet s 5 → s.isAdmin o.sender = true →
    ((s.domain o.dom).isSome = true ∨
      s.argN 2 % 16 = 0 ∧ s.unused (s.argN 2, s.argN 2 + 65536) = true) →
    o.dom ≤ 255 ∧
    (o.dom = 0 → ∃ t, exec .setDomain s = .next t ∧ Answered s t o 1 []) ∧
    (o.dom ≠ 0 → ∃ t d, exec .setDomain s = .next t ∧ Answered (s.writeDomain o.dom d) t o 0 [] ∧
      (∀ k < 16, d.caps.testBit k = (decide (k < 12) && k != permSYS && o.a.testBit k)) ∧
      (∀ k < 17, d.otypes.testBit k = (decide (1 ≤ k) && decide (k < 16) && o.a.testBit (32 + k))) ∧
      (∀ x, s.domain o.dom = some x → d.array = x.array ∧ d.regions = x.regions ∧ d.senders = x.senders) ∧
      (s.domain o.dom = none → d.array = s.argN 2 ∧ d.regions = [] ∧ d.senders = []))) ∧
  (∀ (s : State) (o : MapOp), o = s.mapOp → NotYet s 6 → s.isAdmin o.sender = true →
    (s.domain o.dom = none → ∃ t, exec .setSender s = .next t ∧ Answered s t o 1 []) ∧
    (∀ d, s.domain o.dom = some d →
      (o.b.testBit 0 = true → o.a ∉ d.senders → 16 ≤ d.senders.length → ∃ t, exec .setSender s = .next t ∧ Answered s t o 2 []) ∧
      ((o.b.testBit 0 = false ∨ o.a ∈ d.senders ∨ d.senders.length < 16) →
        ∃ u t, exec .setSender s = .next t ∧ Answered u t o 0 [] ∧ u.mem = s.mem ∧
          ∃ e, u.domain o.dom = some e ∧ (∀ x, x ∈ e.senders ↔ if x = o.a then o.b.testBit 0 = true else x ∈ d.senders) ∧
            { e with senders := d.senders } = d))) ∧
  (∀ (s : State) (o : MapOp), o = s.mapOp → NotYet s 7 → s.isAdmin o.sender = true →
    ∃ t u, exec .registerPeer s = .next t ∧ Answered u t o 0 [] ∧
      u = { s with bindery := { s.bindery with peers := u.bindery.peers } } ∧
      ∀ p, p ∈ u.bindery.peers ↔ if p.1 = o.a % 64 then p.2 = o.b else p ∈ s.bindery.peers) ∧
  (∀ (s : State), exec .adminListWrite s =
    .next (if s.arg.n.length ≤ 8 then { s with bindery := { s.bindery with admins := s.arg.n } } else s))

/-- 02 R38, R39, 21 R393, R394: a LOAD is answered with the status and the offset of what is wrong with it, or its object is placed
and answered with its handle and with every instruction cache empty (05 R89). A capability that it places has a tag, bounds that
are exactly those of its label, which leave the raw bytes of the deque area alone through any window (14 R263), and no permission
that the domain's mask lacks. A code section whose bounds are not exactly representable is refused (assumption 63). Where the
rules leave a point open it holds of the choice the model makes (assumptions 63, 64 and 86). -/
def Obligations.LoadPlacesTheObject : Prop :=
  (∀ (s : State), s.serves 1 = false → exec .load s = .next s) ∧
  (∀ (s : State) (sender id : Nat) (o : Lemeb) (dom : Nat), Serves s 1 sender id → o = lemebOf s.body →
    dom = fieldAt s.body 0 1 →
    (∀ status off, s.loadStop sender s.body o = some (status, off) →
      ∃ t, exec .load s = .next t ∧ Replied s t sender id status off []) ∧
    (dom = 0 → s.loadStop sender s.body o = some (1, 0)) ∧
    (dom ≠ 0 → s.hasAuthority sender dom = false → s.loadStop sender s.body o = some (3, 0)) ∧
    (s.loadStop sender s.body o = none →
      (dom ≠ 0 ∧ s.hasAuthority sender dom = true ∧ fieldAt s.body 16 4 = 0x4C4D4F42 ∧ fieldAt s.body 20 2 = 1 ∧
        o.textva % 65536 = 0 ∧ o.datava % 65536 = 0 ∧ o.total ≤ s.body.length ∧ o.scratch.length + 4096 ≤ 0x60000 ∧
        (o.text ≠ [] → exactBounds o.textva (o.textva + o.text.length) = true) ∧
        ∀ p ∈ sectionPages o.textva o.text.length ++ sectionPages o.datava o.data.length,
          (p < 0x7E0000000000 ∨ 0x800000000000 ≤ p ∧ p < 2 ^ 56) ∧ ∀ x ∈ s.bindery.objects, x.covers p = false) ∧
      (∀ off, (readTable (State.loadCap o (((s.domain dom).map Domain.caps).getD 0) s.body) 32 o.capAt o.ncap = .error off ∨
          ((∃ caps, readTable (State.loadCap o (((s.domain dom).map Domain.caps).getD 0) s.body) 32 o.capAt o.ncap = .ok caps) ∧
            readTable (loadRecord o s.body) 16 o.codAt o.ncod = .error off)) →
        ∃ t, exec .load s = .next t ∧ Replied s t sender id 1 off []) ∧
      (∀ caps recs u v f g, readTable (State.loadCap o (((s.domain dom).map Domain.caps).getD 0) s.body) 32 o.capAt o.ncap = .ok caps →
        readTable (loadRecord o s.body) 16 o.codAt o.ncod = .ok recs →
        s.placePages false (sectionPages o.textva o.text.length) o.text (s.arg.n.drop 2) = some (some (u, f)) →
        u.placePages true (sectionPages o.datava o.data.length) o.data f = some (some (v, g)) →
        ∃ t, exec .load s = .next t ∧ t.mem = (v.placeCaps o.datava caps).mem ∧ t.tags = (v.placeCaps o.datava caps).tags ∧
          (∀ cid, (t.core cid).icache = [] ∧ { t.core cid with icache := (v.core cid).icache } = v.core cid) ∧
          t.bindery.objects = v.bindery.objects ++ [o.object s.bindery.nextHandle dom caps recs] ∧
          t.bindery.nextHandle = s.bindery.nextHandle + 1 ∧
          t.bindery.sent = v.bindery.sent ++ [.reply sender id 0 0 (bytesOfNat 8 s.bindery.nextHandle)]))) ∧
  (∀ (o : Lemeb) (mask : Nat) (body : List Byte) (at_ sec image base len : Nat) (c : Reg),
    State.loadCap o mask body at_ = .ok (sec, image, c) → len = fieldAt body (at_ + 24) 8 →
    base = (if fieldAt body (at_ + 1) 1 = 1 then o.datava else 0x7F0000000000 + fieldAt body (at_ + 2) 1 * 0x400000) +
      fieldAt body (at_ + 16) 8 →
    (sec = 1 ∧ image + 16 ≤ o.data.length ∨ sec = 2 ∧ image + 16 ≤ o.scratch.length) ∧ image % 16 = 0 ∧ c.tag = true ∧ c.otype = 0 ∧
      c.cursor = base ∧ c.base = base ∧ c.top = (base + len : Nat) ∧ c.perm permSYS = false ∧
      (fieldAt body (at_ + 1) 1 = 2 → rawTop (fieldAt body (at_ + 2) 1) (fieldAt body (at_ + 16) 8 + len) ≤ 0x60000 - 4096) ∧
      ∀ k < 12, c.perm k = (fieldAt body (at_ + 4) 2).testBit k ∧ (c.perm k = true → mask.testBit k = true)) ∧
  (∀ (o : Lemeb) (body : List Byte) (at_ sec rec_ : Nat) (c : Reg), loadRecord o body at_ = .ok (sec, rec_, c) →
    sec = 2 ∧ rec_ = fieldAt body at_ 8 ∧ rec_ % 64 = 0 ∧ rec_ + 64 ≤ o.scratch.length ∧
      fieldAt body (at_ + 8) 8 < o.text.length ∧ c = codeCap o.textva o.text.length (o.textva + fieldAt body (at_ + 8) 8))

/-- 21 R389 to R393, R400, R402: each QUERY is answered with what it asks for, or with status 3 for a sender without authority; a gang
that no launch holds with status 5; a selector that is none of the six with status 1; and when the last leaf of the identity key
has been used, with status 2. A message that the transport does not support is dropped: tag matching, another version, a type that
is not assigned, or a length beyond its payload or 2^30. Where the rules leave a point open it holds of the choice the model makes
(assumption 65). -/
def Obligations.QueriesReport : Prop :=
  (∀ (s : State), s.dropped = true ↔ s.bindery.accepting = false ∨ s.argN 1 = 2 ∨ fieldAt s.arg.bytes 0 2 ≠ 1 ∨
    fieldAt s.arg.bytes 2 2 ∉ [1, 2, 3, 4, 5, 0x10, 0x11, 0x12, 0x13, 0x81, 0x82] ∨
    s.arg.bytes.length < 32 + fieldAt s.arg.bytes 4 4 ∨ 2 ^ 30 < fieldAt s.arg.bytes 4 4) ∧
  (∀ (s : State) (type : Nat), s.dropped = true → s.serves type = false) ∧
  (∀ (s : State), exec .messageDropped s = .next s) ∧
  (∀ (s : State) (i : Instr) (sel : Nat), QueryEvent i sel →
    (s.serves 4 = false → exec i s = .next s) ∧
    (∀ sender id k x, Asks s k sender id x →
      ((k = 0 ∨ 6 < k) → ∃ t, exec i s = .next t ∧ Replied s t sender id 1 0 []) ∧
      (1 ≤ k → k ≤ 6 → k ≠ sel → exec i s = .next s))) ∧
  (∀ (s : State) (sender id x : Nat), Asks s 1 sender id x → ∃ t, exec .queryGangs s = .next t ∧
    Replied s t sender id 0 0 ((s.bindery.launches.filter fun l => s.hasAuthority sender l.domain).flatMap Launch.info)) ∧
  (∀ (s : State) (sender id x : Nat), Asks s 6 sender id x →
    (s.launch x = none → ∃ t, exec .queryGang s = .next t ∧ Replied s t sender id 5 0 []) ∧
    (∀ l, s.launch x = some l → ∃ t, exec .queryGang s = .next t ∧
      Replied s t sender id (if s.hasAuthority sender l.domain then 0 else 3) 0 (if s.hasAuthority sender l.domain then l.info else
        []))) ∧
  (∀ (l : Launch), l.info.length = 16 ∧ (l.gang < 2 ^ 16 → l.domain < 2 ^ 8 → l.count < 2 ^ 16 → l.chips.length < 2 ^ 8 →
    fieldAt l.info 0 2 = l.gang ∧ fieldAt l.info 2 1 = l.domain ∧
    fieldAt l.info 3 1 = (if l.state = .running then 1 else if l.state = .preempted then 2 else 0) ∧
    fieldAt l.info 4 2 = l.count ∧ fieldAt l.info 6 1 = max 1 l.chips.length)) ∧
  (∀ (s : State) (sender id x : Nat), Asks s 2 sender id x →
    (∀ l, s.launch x = some l → ∃ t, exec .queryFeatures s = .next t ∧
      Replied s t sender id 0 0 (featureBytes l.featva (s.features l.pair))) ∧
    (s.launch x = none → ∃ t, exec .queryFeatures s = .next t ∧
      Replied s t sender id 0 0 (featureBytes 0 (s.features false)))) ∧
  (∀ (s : State) (pair : Bool), (s.features pair).map (·.1) = [1, 2, 3, 4] ∧
    (s.features pair).map (·.2.1) = [(List.range 8).any fun k => mapGet 0 k s.ports != 0, pair, s.bindery.peers != [], true]) ∧
  (∀ (s : State) (sender id x k : Nat) (i : Instr), Asks s k sender id x → QueryEvent i k → 3 ≤ k → k ≤ 5 →
    s.mayQuery sender = false → ∃ t, exec i s = .next t ∧ Replied s t sender id 3 0 []) ∧
  (∀ (s : State) (sender id x : Nat), s.mayQuery sender = true →
    (Asks s 3 sender id x →
      ∃ t body, exec .querySensors s = .next t ∧ Replied s t sender id 0 0 body ∧ body.length = 37 * 8) ∧
    (Asks s 4 sender id x →
      ∃ t, exec .queryLog s = .next t ∧ Replied s t sender id 0 0 ((s.colophon.log.drop x).take 64).flatten) ∧
    (Asks s 5 sender id x → 2 ^ 20 ≤ s.colophon.leaf → ∃ t, exec .queryIdentity s = .next t ∧ Replied s t sender id 2 0 []) ∧
    (Asks s 5 sender id x → s.colophon.leaf < 2 ^ 20 → ∃ t said, exec .queryIdentity s = .next t ∧
      said = Config.identity ++ (s.body.drop 16).take 32 ∧
      Replied { s with colophon := { s.colophon with leaf := s.colophon.leaf + 1 } } t sender id 0 0
        (said ++ Config.lmsSign said s.colophon.leaf)))

/-- 21 R402 to R404, 16 R323, 19 R357: bring-up ends with the Bindery accepting requests over empty tables, or stops at the step that
failed and reports it on the board. An alarm is logged and sent, and holds launches back until the condition clears; a loss of
discipline is logged and leaves the pair of that die unbounded; a loss of power leaves the log; a firmware image is accepted only
if its signature verifies and its version is not below the counter, which it then raises. The code and the data of a log record
are open (assumption 5). Where the rules leave a point open it holds of the choice the model makes (assumptions 58 and 68). -/
def Obligations.PowerCoolingAndFirmware : Prop :=
  (∀ (s : State), s.power = true → exec .powerGood s = .next s) ∧
  (∀ (s : State), s.power = false → s.argN 0 ≠ 0 → ∃ t, exec .powerGood s = .next t ∧ t.power = true ∧
    t.bindery = { s.bindery with sent := s.bindery.sent ++ [.board (s.argN 0)] } ∧
    t.colophon.logged = s.colophon.logged + (if 2 ≤ s.argN 0 then 1 else 0) ∧ t.mem = s.mem ∧ t.strands = s.strands) ∧
  (∀ (s : State) (word : Nat → Word) (t64 t32 : List Word) (ranges : List (Nat × Nat)),
    word = (fun k => BitVec.ofNat 64 (s.argN (2 + k) % 2 ^ 52 / 4096 * 4096 + s.argN (2 + k) % 64)) → t64 = (List.range 8).map word →
    t32 = (List.range 8).map (fun k => word (8 + k)) → ranges = (s.argN 1, s.argN 1 + 4096) :: (t64 ++ t32).map tableRange →
    s.power = false → s.argN 0 = 0 → s.argN 1 % 4096 = 0 → tablesApart ranges = true →
    (∀ x ∈ t64 ++ t32, 4 ≤ x.toNat % 64 ∧ x.toNat % 64 ≤ 30) →
    ∃ t, exec .powerGood s = .next t ∧ t.power = true ∧
      t.bindery = { s.bindery with accepting := true, drt := s.argN 1, t64 := t64, t32 := t32 } ∧
      (∀ r ∈ ranges, ∀ a, r.1 ≤ a → a < r.2 → readByte t.mem a = 0) ∧
      (∀ a, (∀ r ∈ ranges, a < r.1 ∨ r.2 ≤ a) → readByte t.mem a = readByte s.mem a) ∧ t.strands = s.strands ∧ t.cores = s.cores ∧
      (∀ k < 10, (t.die k).earliest = s.now ∧ s.now ≤ (t.die k).latest ∧ (t.die k).latest ≤ s.now + 6) ∧
      ∀ k < 8, mapGet 0 k t.ports = portBytes k) ∧
  (∀ (k : Nat), portBytes k ≤ 2 ^ 40 ∧ (Config.device k = none → portBytes k = 0) ∧
    ∀ n, Config.device k = some n → portBytes k ≤ n - n / 128) ∧
  (∀ (s : State), (s.power = false ∨ ¬ (s.argN 0 < 10 ∧ 95000 ≤ s.argN 1 ∨ s.argN 0 = 28 ∧ s.argN 1 < 2500)) →
    exec .thermalAlarm s = .next s) ∧
  (∀ (s : State), s.power = true → (s.argN 0 < 10 ∧ 95000 ≤ s.argN 1 ∨ s.argN 0 = 28 ∧ s.argN 1 < 2500) →
    ∃ t, exec .thermalAlarm s = .next t ∧ t.colophon.logged = s.colophon.logged + 1 ∧
      { t with colophon := s.colophon } = { s with bindery := { s.bindery with
        noLaunch := true
        sent := s.bindery.sent ++ [.event s.bindery.admins 6 0 0 0 0 0 0 (s.die 8).earliest (s.die 8).latest
          (BitVec.ofNat 128 (s.argN 0 + s.argN 1 % 2 ^ 64 * 2 ^ 64))] } }) ∧
  (∀ (s : State), exec .conditionClears s =
    .next { s with bindery := { s.bindery with noLaunch := s.dies.any fun d => decide (d.1 < 8) && d.2.fenced } }) ∧
  (∀ (s : State) (i : Instr), (i = .powerRemoval ∨ i = .lossOfDiscipline) → s.power = false → exec i s = .next s) ∧
  (∀ (s : State), s.power = true → ∃ t, exec .powerRemoval s = .next t ∧ t.power = false ∧ t.mem = [] ∧ t.tags = [] ∧
    t.strands = [] ∧ t.cores = [] ∧ t.dies = [] ∧ t.bindery.launches = [] ∧ t.bindery.accepting = false ∧
    t.colophon.logged = s.colophon.logged + 1 ∧ t.colophon.leaf = s.colophon.leaf ∧ t.colophon.minColophon = s.colophon.minColophon ∧
    t.colophon.minBindery = s.colophon.minBindery ∧
    (s.colophon.log.length < 16384 → ∃ r, t.colophon.log = s.colophon.log ++ [r])) ∧
  (∀ (s : State), s.power = true → ∃ t, exec .lossOfDiscipline s = .next t ∧
    { t with colophon := s.colophon, dies := s.dies } = s ∧ t.die (s.argN 0) = { s.die (s.argN 0) with lost := true } ∧
    (∀ k, k ≠ s.argN 0 → t.die k = s.die k) ∧
    t.colophon.logged = s.colophon.logged + 1 ∧ t.colophon.log.length ≤ max 16384 s.colophon.log.length) ∧
  (∀ (s : State) (c : Colophon), c = s.colophon →
    (s.power = false ∨ Config.lmsVerify s.arg.bytes = false ∨ s.argN 1 < (if s.argN 0 = 0 then c.minColophon else c.minBindery) →
      exec .firmwareUpdate s = .next s) ∧
    (s.power = true → Config.lmsVerify s.arg.bytes = true → (if s.argN 0 = 0 then c.minColophon else c.minBindery) ≤ s.argN 1 →
      ∀ d, d = (if s.argN 0 = 0 then { c with minColophon := s.argN 1 } else { c with minBindery := s.argN 1 }) →
        exec .firmwareUpdate s = .next { s with colophon := d }))

/-! # Launches (21 R395 to R399, 07 R143 to R146) -/

/-- 21 R397, R396, 02 R41: a LAUNCH is checked in order, the first failure decides the status and the offset, and nothing is reserved.
One that passes starts on the lowest unit that has enough free cores, or is queued behind a launch of its priority or a higher
one, or is queued while gangs of lower priority are pre-empted. Its gang number is the lowest that no launch holds. The launch at
the head of the queue starts when it fits; one whose contexts no die can hold ends. A gang starts with the entry firing of strand
0 of every member, all at once (14 R274); a record that names another gang is reported instead (14 R268). What the Bindery chooses
for a launch is an operand (assumption 7). Where the rules leave a point open it holds of the choice the model makes (assumption
67). -/
def Obligations.LaunchesAreCheckedAndStart : Prop :=
  (∀ (s : State), s.serves 3 = false → exec .launch s = .next s) ∧
  (∀ (s : State) (sender id : Nat), Serves s 3 sender id →
    (s.bindery.noLaunch = true → exec .launch s = .next (replyState s sender id 2 0 [])) ∧
    (s.bindery.noLaunch = false → s.hasAuthority sender (fieldAt s.body 10 1) = false →
      exec .launch s = .next (replyState s sender id 3 0 [])) ∧
    (∀ off, s.bindery.noLaunch = false → s.hasAuthority sender (fieldAt s.body 10 1) = true →
      s.launchBad s.body = some off → exec .launch s = .next (replyState s sender id 1 off []))) ∧
  (∀ (s : State) (body : List Byte), (s.launchBad body = none → InRange (fieldAt body)) ∧
    (fieldAt body 0 2 = 0 → s.launchBad body = some 0)) ∧
  (∀ (s : State) (sender id : Nat) (l : Launch), Launches s sender id l →
    (∀ status off, s.objectStop l = some (status, off) → exec .launch s = .next (replyState s sender id status off [])) ∧
    (s.object l.handle = none → s.objectStop l = some (5, 0)) ∧
    (s.objectStop l = none →
      (s.heldLaunch l.prio = true →
        exec .launch s = .next (replyState (s.putLaunch l) sender id 0 0 (bytesOfNat 8 l.gang))) ∧
      (s.heldLaunch l.prio = false →
        (∀ status off, s.fits l = .error (status, off) → exec .launch s = .next (replyState s sender id status off [])) ∧
        (s.fits l = .ok none → exec .launch s =
          .next (replyState (forAll (s.victims l) State.preemptGang (s.putLaunch l)) sender id 0 0 (bytesOfNat 8 l.gang))) ∧
        (∀ fit u v, s.fits l = .ok (some fit) → s.enlist l fit (s.choice 2) = some u → u.startGang l.gang = some v →
          exec .launch s = .next (replyState v sender id 0 0 (bytesOfNat 8 l.gang)))))) ∧
  (∀ (s t : State) (l : Launch) (gang : Nat), s.launch gang = some l → s.startGang gang = some t →
    (∀ cid ∈ l.cores, (t.strand (4 * cid)).firing = some (mkRef cid l.entry) ∨ t.bindery.sent ≠ s.bindery.sent) ∧
    (∀ k, (∀ cid ∈ l.cores, k ≠ 4 * cid) → (t.strand k).firing = (s.strand k).firing) ∧
    t.bindery.launches = s.bindery.launches.map fun x => if x.gang = gang then { x with state := .running, start := s.now } else x) ∧
  (∀ (s : State) (k : Nat), 1 ≤ k → k ≤ 65535 → (∀ l ∈ s.bindery.launches, l.gang ≠ k) →
    1 ≤ s.nextGang ∧ s.nextGang ≤ k ∧ (∀ l ∈ s.bindery.launches, l.gang ≠ s.nextGang) ∧
    ∀ j, 1 ≤ j → j < s.nextGang → ∃ l ∈ s.bindery.launches, l.gang = j) ∧
  (∀ (s : State) (l : Launch) (cores : List Nat) (ctxs : List (Nat × Nat)), s.fits l = .ok (some (cores, ctxs)) →
    s.fitCores [] l = some cores ∧ ctxs.length = l.ctxs.length + 2 * (diesOf cores).length ∧
    (∀ x ∈ ctxs, x.2 < 64 ∧ ∀ y ∈ s.bindery.launches, x ∉ y.held)) ∧
  (∀ (s : State) (l : Launch) (cores : List Nat) (n : Nat), s.fitCores [] l = some cores → n = [1, 4, 128].getD l.place 1024 →
    cores.length = l.count ∧ cores.Pairwise (· < ·) ∧
    ∃ k, k < 1024 / n ∧ (∀ c ∈ cores, k * n ≤ c ∧ c < k * n + n ∧ (s.core c).gang = none ∧ (s.die (dieOfCore c)).fenced = false ∧
        (l.pair = true → c % 2 = 0 ∧ (s.core (c + 1)).gang = none)) ∧
      ∀ j < k, (s.freeIn [] l.pair (j * n) n).length < l.count) ∧
  (∀ (s : State) (l : Launch) (o : Obj) (cid : Nat) (c : Core), c = (s.setUpCore l o cid).core cid →
    c.gang = some l.gang ∧ c.msplit = BitVec.ofNat 64 l.msplit ∧ c.chunklim = BitVec.ofNat 64 l.chunklim ∧ c.paired = l.pair ∧
    c.dqstate = 0 ∧ c.acc = Core.reset.acc ∧ c.gangCode = codeCap o.textva o.textlen o.textva ∧ c.gp = gpCap l o ∧ c.stack = l.stack ∧
    c.drtbase = BitVec.ofNat 64 s.bindery.drt ∧ c.mapt64 = s.bindery.t64.getD (dieOfCore cid) 0 ∧
    c.mapt32 = s.bindery.t32.getD (dieOfCore cid) 0) ∧
  (∀ (s : State) (l : Launch) (sid : Nat) (t : Strand), t = (s.setUpStrand l sid).strand sid →
    t.firing = none ∧ t.asleep = true ∧ t.domain = BitVec.ofNat 64 l.domain ∧ t.featcap = BitVec.ofNat 64 l.featva ∧
    t.arch.twmax = 60 ∧
    t.arch.srseed = 0x5EED000000000000 + 4 * (s.core (coreOf sid)).coord + BitVec.ofNat 64 (sid % 4) + 1) ∧
  (∀ (s : State), s.queueHead = none → exec .launchDequeue s = .next s) ∧
  (∀ (s : State) (l : Launch), s.queueHead = some l →
    (l.state = .queued ∧ l ∈ s.bindery.launches ∧ ∀ x ∈ s.bindery.launches, x.state = .queued → x.prio ≤ 3 → x.prio ≤ l.prio) ∧
    (∀ fit u v, s.fits l = .ok (some fit) → s.enlist l fit (s.choice 0) = some u → u.startGang l.gang = some v →
      exec .launchDequeue s = .next v) ∧
    (s.fits l = .ok none → exec .launchDequeue s = .next s) ∧
    (∀ off, s.fits l = .error (1, off) → exec .launchDequeue s =
      .next ((s.dropLaunch l).out (.event (s.sendersOf l.domain) 4 l.gang 0 0 0 0 0 (s.die 8).earliest (s.die 8).latest 0))))

/-- 21 R398, R396, R390, R392: a gang that has started ends when every firing has ended, no record of it is held, and nothing that it
issued can still push a record or write memory: its contexts are reset and its cores are free. One whose timeout has passed is
killed and reported; the timeout runs from its start. KILL kills a gang of a domain of its sender, or releases a launch that has
not started. -/
def Obligations.GangsEndTimeOutAndAreKilled : Prop :=
  (∀ (s : State) (i : Instr), s.launch (s.argN 0) = none → (i = .gangEnd ∨ i = .gangTimeout) → exec i s = .next s) ∧
  (∀ (s : State) (l : Launch), s.launch (s.argN 0) = some l →
    (l.started = true → s.gangOver l = true → exec .gangEnd s = .next ((s.dropLaunch l).gangEvent l 4)) ∧
    ((l.started = false ∨ s.gangOver l = false) → exec .gangEnd s = .next s) ∧
    (l.started = true → l.killed = false → 1000 * l.timeout ≤ s.now - l.start →
      exec .gangTimeout s = .next ((s.killGang l.gang).gangEvent l 5)) ∧
    ((l.started = false ∨ l.killed = true ∨ s.now - l.start < 1000 * l.timeout) → exec .gangTimeout s = .next s)) ∧
  (∀ (s : State) (l : Launch), s.gangOver l = true →
    (∀ cid ∈ l.allCores, (s.core cid).gang = some l.gang → dqCount (s.core cid).dqstate = 0 ∧ (s.core cid).mq = [] ∧
      ∀ sid ∈ strandsOf cid, (s.strand sid).firing = none ∧ (s.strand sid).out = []) ∧
    l.saved = [] ∧ (∀ x ∈ l.held, s.quiet x.1 x.2 = true) ∧
    (∀ d ∈ s.dies, ∀ q ∈ d.2.queues, q.gang = l.gang → ∀ k < 2 ^ q.log, s.slotEmpty q k = true) ∧
    (∀ d ∈ s.dies, ∀ i ∈ d.2.items, (d.1, i.ctx) ∉ l.held) ∧ (∀ m ∈ s.msgs, m.kind.gangOf ≠ some l.gang) ∧
    (∀ q ∈ s.quires, ∀ c ∈ q.2.cmds, c.gang ≠ l.gang) ∧ (∀ r ∈ s.remotes, r.gang ≠ l.gang)) ∧
  (∀ (s : State) (l : Launch) (t : State), t = s.dropLaunch l →
    t.bindery.launches = s.bindery.launches.filter (·.gang != l.gang) ∧ t.mem = s.mem ∧ t.strands = s.strands ∧
    (∀ cid ∈ l.allCores, (s.core cid).gang = some l.gang → (t.core cid).gang = none) ∧
    (∀ cid, cid ∉ l.allCores → t.core cid = s.core cid) ∧
    (∀ d ∈ t.dies, ∀ q ∈ d.2.queues, q.gang ≠ l.gang) ∧ (∀ q ∈ t.quires, ∀ x ∈ q.2.dir, x.gang ≠ l.gang)) ∧
  (∀ (s : State), s.serves 5 = false → exec .kill s = .next s) ∧
  (∀ (s : State) (sender id gang : Nat), Serves s 5 sender id → gang = fieldAt s.body 0 2 →
    (∀ l, ((s.peerOf sender).bind fun p => s.partOf p gang) = some l →
      exec .kill s = .next (replyState (s.killLaunch l) sender id 0 0 [])) ∧
    (((s.peerOf sender).bind fun p => s.partOf p gang) = none →
      (s.launch gang = none → exec .kill s = .next (replyState s sender id 5 0 [])) ∧
      (∀ l, s.launch gang = some l →
        (s.hasAuthority sender l.domain = false → exec .kill s = .next (replyState s sender id 3 0 [])) ∧
        (s.hasAuthority sender l.domain = true →
          (l.coordinator = true → l.state = .reserved → exec .kill s = .next (replyState (s.abort l) sender id 0 0 [])) ∧
          (l.coordinator = false ∨ l.state ≠ .reserved →
            exec .kill s = .next (replyState (s.killLaunch l) sender id 0 0 [])))))) ∧
  (∀ (s : State) (l : Launch), (l.started = true ↔ l.state = .running ∨ l.state = .preempted) ∧
    s.killLaunch l = (if l.started = true then s.killGang l.gang else s.dropLaunch l))

/-- 07 R143 to R145, 14 R265: a quire of a gang that is leaving is saved once its strands have gone, no claim of a head token is on
its way, no transfer stands in its matrix queues, and its copies owe nothing: its cores are free, its scratchpads stand with their
tags in the images that the Bindery has chosen (assumption 7), and its directory entries, accumulators, queues and strands wait
with the Bindery. The gang resumes on the same cores, when they are free, its copies have completed and no queued launch has a
higher priority; what came for it meanwhile is applied, in order of arrival, before its stubs go on. A core without stub code is
taken to have done the steps of its stubs (assumption 20). -/
def Obligations.GangsAreSavedAndResume : Prop :=
  (∀ (s : State), (∀ c ∈ coresOf (s.argN 0), ∀ g, (s.core c).gang = some g → s.leaving g = false) →
    exec .saveTransfer s = .next s) ∧
  (∀ (s : State) (g : Nat) (cores : List Nat), ((coresOf (s.argN 0)).filterMap fun c => (s.core c).gang).find? s.leaving = some g →
    cores = (coresOf (s.argN 0)).filter (fun c => (s.core c).gang == some g) →
    (s.images cores (s.arg.n.drop 1) = none → exec .saveTransfer s = .next s) ∧
    (∀ places, s.images cores (s.arg.n.drop 1) = some places →
      (((∃ c ∈ cores, ∃ k ∈ strandsOf c, s.strandAway k = false) ∨ s.owes g (s.argN 0) cores = true) →
        exec .saveTransfer s = .next s) ∧
      ((∀ c ∈ cores, ∀ k ∈ strandsOf c, s.strandAway k = true) → s.owes g (s.argN 0) cores = false →
        ∃ t, exec .saveTransfer s = .next t ∧
        (∀ c ∈ cores, (t.core c).gang = none ∧ (t.core c).mq = [] ∧ dqCount (t.core c).dqstate = 0 ∧ (t.core c).acc = (s.core c).acc ∧
          ∀ k ∈ strandsOf c, (t.strand k).firing = none ∧ (t.strand k).asleep = true) ∧
        (∀ x ∈ (t.quire (s.argN 0)).dir, x.gang ≠ g) ∧
        t.bindery.launches = s.bindery.launches.map (fun l =>
          if l.gang = g then { l with saved := l.saved ++ places.map fun x => s.saveCore g x.1 x.2 } else l) ∧
        (s.Sound → (∀ c ∈ cores, (s.core c).stubCode.tag = true) →
          (∀ x ∈ places, ∀ a < s.padSize x.1, readByte t.mem (x.2 + a) = readByte s.mem (padLoc x.1 0 + a) ∧
            (a % 16 = 0 → (tagAt t.tags ((x.2 + a) / 16) = tagAt s.tags (padLoc x.1 a / 16)))) ∧
          ∀ a, (∀ x ∈ places, a < x.2 ∨ x.2 + s.padSize x.1 ≤ a) → readByte t.mem a = readByte s.mem a)))) ∧
  (∀ (s : State) (g qid : Nat) (cores : List Nat), s.owes g qid cores = false →
    (∀ c ∈ cores, (∀ e ∈ (s.core c).mq, e.fn < 6) ∧ ((s.core c).claiming = false ∨ (s.core c).claimDq ≠ none)) ∧
    (∀ c ∈ (s.quire qid).cmds, c.gang = g → s.owed c = false)) ∧
  (∀ (s : State) (g cid image : Nat) (x : Saved), x = s.saveCore g cid image → x.cid = cid ∧ x.core = s.core cid ∧ x.image = image ∧
    x.strands = (strandsOf cid).map (fun k => (k, s.strand k)) ∧ x.held = [] ∧
    ∀ e, e ∈ x.dir ↔ e ∈ (s.quire (quireOfCore cid)).dir ∧ e.cid = cid ∧ e.gang = g) ∧
  (∀ (s : State), s.launch (s.argN 0) = none → exec .gangResume s = .next s) ∧
  (∀ (s : State) (l : Launch), s.launch (s.argN 0) = some l →
    ((l.state ≠ .preempted ∨ l.saved = [] ∨ (∃ c ∈ l.allCores, ∀ x ∈ l.saved, x.cid ≠ c) ∨
      (∃ c ∈ l.allCores, (s.core c).gang ≠ none ∨ (s.die (dieOfCore c)).fenced = true) ∨ s.heldLaunch (l.prio + 1) = true ∨
      (∃ q ∈ s.quires, ∃ c ∈ q.2.cmds, c.gang = l.gang)) → exec .gangResume s = .next s) ∧
    (l.state = .preempted → l.saved ≠ [] → (∀ c ∈ l.allCores, ∃ x ∈ l.saved, x.cid = c) →
      (∀ c ∈ l.allCores, (s.core c).gang = none ∧ (s.die (dieOfCore c)).fenced = false) → s.heldLaunch (l.prio + 1) = false →
      (∀ q ∈ s.quires, ∀ c ∈ q.2.cmds, c.gang ≠ l.gang) →
      ∀ u v stubs, u = (forAll l.saved State.restoreCore s).onLaunch l.gang (fun x => { x with state := .running, saved := [] }) →
        v = forAll l.saved (fun s x => s.catchUp l.gang x) u →
        stubs = ((l.saved.flatMap Saved.strands).filter fun t => t.2.firing.isSome).map (·.1) →
        exec .gangResume s = .next (forAll stubs State.stubResume v))) ∧
  (∀ (s : State) (x : Saved) (t : State), t = s.restoreCore x →
    (t.core x.cid).gang = x.core.gang ∧ (t.core x.cid).acc = x.core.acc ∧ (t.core x.cid).mq = x.core.mq ∧
    (t.core x.cid).dqstate = x.core.dqstate ∧ (t.core x.cid).plb = (s.core x.cid).plb ∧
    (∀ c, c ≠ x.cid → t.core c = s.core c) ∧
    (s.Sound → x.core.msplit.toNat ≤ 8 → x.image % 16 = 0 →
      (∀ a < x.core.msplit.toNat * 65536, readByte t.mem (padLoc x.cid a) = readByte s.mem (x.image + a) ∧
        (a % 16 = 0 → tagAt t.tags (padLoc x.cid a / 16) = tagAt s.tags ((x.image + a) / 16))) ∧
      ∀ a, (a < padLoc x.cid 0 ∨ padLoc (x.cid + 1) 0 ≤ a) → readByte t.mem a = readByte s.mem a) ∧
    ∀ k, (∀ y ∈ x.strands, y.1 ≠ k) → t.strand k = s.strand k)

/-- 21 R399, R391, 07 R146: a LAUNCH over several chips reserves the coordinator's part and sends PREPARE; each chip answers READY
with a status; the last READY makes the coordinator send GO with a stamp at least 100 µs above its own latest, and a READY with a
status, one after the deadline, and a KILL before GO abort everywhere. A chip starts when its earliest exceeds the stamp; one that
GO reaches too late reports LATE, at which every chip is killed and members that have started take GANGLOST. Messages that are not
from a registered peer have no effect. Where the rules leave a point open it holds of the choice the model makes (assumption 66). -/
def Obligations.MultiChipLaunchesGoTogether : Prop :=
  (∀ (s : State) (i : Instr), (s.bindery.accepting = false ∨ ∀ a, (s.argN 0, a) ∉ s.bindery.peers) →
    (i = .prepare ∨ i = .ready ∨ i = .go ∨ i = .abort ∨ i = .late) → exec i s = .next s) ∧
  (∀ (s : State) (sender id : Nat) (l own : Launch), Serves s 3 sender id → s.bindery.noLaunch = false →
    l = launchOf sender id s.body → s.hasAuthority sender l.domain = true → s.launchBad s.body = none → l.chips ≠ [] →
    own = { s.ownPart l with gang := s.nextGang, coordinator := true } →
    (∀ status, s.reserve own (s.choice 2) = some (.error status) → exec .launch s = .next (replyState s sender id 4 0 [])) ∧
    (∀ u, s.reserve own (s.choice 2) = some (.ok u) → ∃ t, exec .launch s = .next t ∧ { t with bindery := u.bindery } = u ∧
      t.bindery.sent = u.bindery.sent ++ ((own.chips.map Prod.fst).filter (· != u.bindery.package)).map
        (fun p => .peer p 0x10 own.gang (natOfBytes s.body)))) ∧
  (∀ (s : State) (peer gang : Nat) (l : Launch), FromPeer s peer gang →
    l = { s.ownPart (launchOf peer gang s.arg.bytes) with gang := s.nextGang } →
    (s.bindery.noLaunch = true → exec .prepare s = .next (s.out (.peer peer 0x11 gang 2))) ∧
    (s.bindery.noLaunch = false →
      (s.domain l.domain = none → exec .prepare s = .next (s.out (.peer peer 0x11 gang 3))) ∧
      (s.domain l.domain ≠ none →
        (∀ status, s.reserve l (s.choice 2) = some (.error status) → exec .prepare s = .next (s.out (.peer peer 0x11 gang status))) ∧
        (∀ u, s.reserve l (s.choice 2) = some (.ok u) → exec .prepare s = .next (u.out (.peer peer 0x11 gang 0)))))) ∧
  (∀ (s : State) (l : Launch) (c : Choice), (∀ x, s.objectStop l = some x → s.reserve l c = some (.error x.1)) ∧
    (∀ x, s.objectStop l = none → s.fits l = .error x → s.reserve l c = some (.error x.1)) ∧
    (s.objectStop l = none → s.fits l = .ok none → s.reserve l c = some (.error 2)) ∧
    (∀ fit u, s.objectStop l = none → s.fits l = .ok (some fit) → s.enlist { l with state := .reserved } fit c = some u →
      s.reserve l c = some (.ok u))) ∧
  (∀ (s : State) (peer gang : Nat), FromPeer s peer gang →
    (s.coordinated gang = none → exec .ready s = .next s) ∧
    (∀ l, s.coordinated gang = some l →
      (s.argN 2 ≠ 0 ∨ l.deadline < (s.die 8).earliest → exec .ready s = .next (s.abort l)) ∧
      (s.argN 2 = 0 → (s.die 8).earliest ≤ l.deadline →
        ((∃ c ∈ l.chips, c.1 ≠ s.bindery.package ∧ c.1 ≠ peer ∧ c.1 ∉ l.readies) → ∃ r, exec .ready s =
          .next (s.onLaunch gang fun x => { x with readies := r }) ∧ ∀ p, p ∈ r ↔ p = peer ∨ p ∈ l.readies) ∧
        ((∀ c ∈ l.chips, c.1 ≠ s.bindery.package → c.1 = peer ∨ c.1 ∈ l.readies) →
          (s.argN 3 < (s.die 8).latest + 100000 → exec .ready s = .next s) ∧
          ((s.die 8).latest + 100000 ≤ s.argN 3 → ∃ r, exec .ready s =
            .next (replyState ((s.onLaunch gang fun x => { x with readies := r, stamp := some (s.argN 3), state := .ready }).toChips l
              0x12
              (s.argN 3)) l.sender l.id 0 0 (bytesOfNat 8 gang))))))) ∧
  (∀ (s : State) (l : Launch) (t : State), t = s.abort l → t.bindery.launches = s.bindery.launches.filter (·.gang != l.gang) ∧
    t.bindery.sent = s.bindery.sent ++ ((l.chips.map Prod.fst).filter (· != s.bindery.package)).map (fun p => .peer p 0x13 l.gang 0) ++
      [.reply l.sender l.id 4 0 []]) ∧
  (∀ (s : State), (s.coordinated (s.argN 0) = none → exec .launchDeadline s = .next s) ∧
    (∀ l, s.coordinated (s.argN 0) = some l → exec .launchDeadline s =
      .next (if l.deadline < (s.die 8).earliest then s.abort l else s))) ∧
  (∀ (s : State) (peer gang : Nat), FromPeer s peer gang →
    (s.partOf peer gang = none → ∀ i, (i = .go ∨ i = .abort) → exec i s = .next s) ∧
    (∀ l, s.partOf peer gang = some l →
      (l.state ≠ .reserved → exec .go s = .next s) ∧
      (l.state = .reserved → (∃ d ∈ diesOf l.cores, s.argN 2 < (s.die d).earliest) →
        exec .go s = .next ((s.out (.peer peer 0x82 gang 8)).gangEvent l 8)) ∧
      (l.state = .reserved → (∀ d ∈ diesOf l.cores, (s.die d).earliest ≤ s.argN 2) →
        exec .go s = .next (s.onLaunch l.gang fun x => { x with stamp := some (s.argN 2), state := .ready })) ∧
      exec .abort s = .next (if l.started = true then s else s.dropLaunch l))) ∧
  (∀ (s : State), (∀ l stamp, s.launch (s.argN 0) = some l → l.stamp = some stamp → l.state = .ready →
      (∀ d ∈ diesOf l.cores, stamp < (s.die d).earliest) → exec .chipStart s = .next ((s.startGang l.gang).getD s)) ∧
    ((∀ l, s.launch (s.argN 0) = some l → l.stamp = none ∨ l.state ≠ .ready ∨
      ∃ stamp d, l.stamp = some stamp ∧ d ∈ diesOf l.cores ∧ (s.die d).earliest ≤ stamp) → exec .chipStart s = .next s)) ∧
  (∀ (s : State) (peer gang : Nat), FromPeer s peer gang →
    (((s.launch gang).filter fun l => l.coordinator && l.stamp.isSome) = none → exec .late s = .next s) ∧
    (∀ l, s.launch gang = some l → l.coordinator = true → l.stamp ≠ none →
      (s.argN 2 = 1 → exec .late s = .next (s.killLaunch l)) ∧
      (s.argN 2 ≠ 1 → exec .late s = .next ((s.loseChip l ((l.chips.map Prod.fst).idxOf peer)).toChips l 0x05 0)))) ∧
  (∀ (s : State), (s.launch (s.argN 0) = none → exec .chipLoss s = .next s) ∧
    (∀ l, s.launch (s.argN 0) = some l → exec .chipLoss s = .next (s.loseChip l (s.argN 1)))) ∧
  (∀ (s : State) (l : Launch) (chip : Nat), chip < 64 →
    (l.started = true → l.lost = false → s.loseChip l chip = s.gangLoss l.gang (BitVec.ofNat 64 (2 ^ 63 + chip * 2 ^ 10)) []) ∧
    (l.started = false ∨ l.lost = true → s.loseChip l chip = s))

/-! # Encoding, the step and the reset state (02 R46, 03 R47 to R58, 05 R83 to R98) -/

/-- 03 R47 to R50, R54: the word of every well-formed instruction decodes to that instruction, with every operand at every value, and
carries the park marker it was given; as bytes it is read whatever follows it. -/
def Obligations.EncodedInstructionsDecode : Prop :=
  ∀ (i : Instr) (p : Bool) (w : BitVec 32), i.wellFormed = true → encode p i = some w →
    decode w = .ok i ∧ parkBit w = p ∧ ∀ rest, decodeBytes (bytesOfWord w ++ rest) = .ok (i, rest)

/-- 03 R51: no two words decode to one instruction with one marker: a word that decodes is the encoding of a well-formed instruction. -/
def Obligations.DecodedWordsEncode : Prop :=
  ∀ (w : BitVec 32) (i : Instr), decode w = .ok i → i.wellFormed = true ∧ encode (parkBit w) i = some w

/-- 03 R52: major 0x00 and majors 0x2B to 0x3F trap ILL, so a word of zeros and a word of ones do, and execution stops at the first
word of zeroed memory: the step that fetches such a word takes ILL at it, whatever its marker. -/
def Obligations.UnassignedMajorsTrap : Prop :=
  (∀ w : BitVec 32, (majorOf w = 0 ∨ 0x2B ≤ (majorOf w).toNat) → decode w = .error .major) ∧
  decode 0x00000000 = .error .major ∧ decode 0xFFFFFFFF = .error .major ∧
  (∀ (s r : State) (sid : Nat) (rest : List Turn) (w : BitVec 32), s.turns = .issue sid :: rest →
    r = { s with turns := rest, ticks := s.ticks + 1 } → r.strandReady sid = true → (r.arch sid).frame = none →
    r.nextIssuer (coreOf sid) = some sid → r.fetchWord sid (r.arch sid).pcc (r.arch sid).pcc.cursor = .word w → (majorOf w = 0 ∨
      0x2B ≤ (majorOf w).toNat) →
    ∃ u : State, step s = .next (u.raise sid .ill (u.free 0)) ∧ u.mem = r.mem ∧ u.strands = r.strands)

/-- 03 R58 and the worked encodings of 03: words of the spec, and words written out from the fields of 03 R48 and R54, decode to the
instructions that they stand for, or are rejected by the check that 03 R51 names. -/
def Obligations.WordsOfTheSpecDecode : Prop :=
  decode 0x184803FD = .ok (.bNe 8 0 0x3FD) ∧ decode 0x38412549 = .ok (.amoCas 8 9 10 true) ∧
  decode 0xC6904940 = .ok (.mmaT8 1 8 9 10) ∧ parkBit 0xC6904940 = true ∧ decode 0x2C00100A = .ok (.fence true 2) ∧
  decode 0x3A412007 = .ok (.bnRd 8 9) ∧ decode 0x3A412087 = .error .reserved ∧ decode 0x3841250B = .error .function ∧
  decode 0x19800000 = .error .function ∧ decode 0x22000080 = .error .reserved ∧ decode 0x28000060 = .error .reserved ∧
  decode 0x02188280 = .ok (.add 3 4 5) ∧ decode 0x0C188005 = .ok (.shlI 3 4 5) ∧ decode 0x0C188845 = .error .reserved ∧
  decode 0x1418828D = .ok (.csub 3 4 5) ∧ decode 0x1A000001 = .ok (.jmp 1) ∧ decode 0x20680003 = .ok (.rptConst 3 1 0 0 3)

/-- 01 R7, 03 R47, R51, 05 R88, R89, R95, R96: a turn of the schedule in which a strand takes the issue slot of its core runs exactly
the instruction that its next word decodes to, fetched by its PC within the cached line or taken stepped from its frame. A core's
slot goes round-robin to its ready strands: the next one after the strand that issued last whose word is there and whose unit, the
divider (04 R62), the vector queue (12 R217) or the matrix queue (13 R247), can accept it. A strand whose word is not there sends
for it; one that may not issue only ends if its group is quit; a turn that brings an event runs the event with its operands, if it
is one. Which turns there are is not the spec's (assumption 1). -/
def Obligations.StepRunsTheDecodedInstruction : Prop :=
  (∀ (s r : State) (sid : Nat) (rest : List Turn), s.turns = .issue sid :: rest →
    r = { s with turns := rest, ticks := s.ticks + 1 } →
    (r.strandReady sid = false → step s = .next (if r.quitDue sid then r.quitEnd sid else r)) ∧
    (r.strandReady sid = true →
      (r.nextIssuer (coreOf sid) = some sid →
        (∀ p w i, r.nextWord sid = .run p w i → step s = exec i { r.fetched sid with cur := sid, park := p }) ∧
        (∀ w, r.nextWord sid = .bad w →
          step s = exec .unassignedWord { r.fetched sid with cur := sid, arg := { n := [w.toNat], bytes := [] } }) ∧
        (∀ c v, r.nextWord sid = .stop (.trap c v) → step s = .next ((Stop.trap c v).act { r.fetched sid with cur := sid }).settle)) ∧
      (∀ w, r.nextWord sid = .stop (.wait w) → step s = .next ((Stop.wait w).act { r with cur := sid }).settle) ∧
      ((∀ w, r.nextWord sid ≠ .stop (.wait w)) → r.nextIssuer (coreOf sid) ≠ some sid → step s = .next r))) ∧
  (∀ (r : State) (sid : Nat), (r.arch sid).frame = none →
    (∀ w i, r.fetchWord sid (r.arch sid).pcc (r.arch sid).pcc.cursor = .word w → decode w = .ok i →
      r.nextWord sid = .run (parkBit w) w i) ∧
    (∀ w e, r.fetchWord sid (r.arch sid).pcc (r.arch sid).pcc.cursor = .word w → decode w = .error e → r.nextWord sid = .bad w) ∧
    (∀ e, r.fetchWord sid (r.arch sid).pcc (r.arch sid).pcc.cursor = .stop e → r.nextWord sid = .stop e)) ∧
  (∀ (r : State) (sid : Nat) (f : Frame) (w : BitVec 32) (i : Instr), (r.arch sid).frame = some f → decode w = .ok i →
    (f.words[f.index]? = some w ∨ f.words = [] ∧ r.fetchWord sid (r.arch sid).pcc (r.arch sid).pcc.cursor = .word w ∧
      permittedWord (r.arch sid).smode w = true) →
    r.nextWord sid = .run (parkBit w) w (stepInstr (f.k * f.dstep) (f.k * f.astep) (f.k * f.bstep) i)) ∧
  (∀ (r : State) (cid d k : Nat), 1 ≤ d → d ≤ 4 → k = 4 * cid + ((r.core cid).lastIssue + d) % 4 →
    (r.nextIssuer cid = some k ↔
      r.issueReady k = true ∧ ∀ e, 1 ≤ e → e < d → r.issueReady (4 * cid + ((r.core cid).lastIssue + e) % 4) = false)) ∧
  (∀ (r : State) (sid : Nat), (r.issueReady sid = true ↔ r.strandReady sid = true ∧
    ((∃ p w i, r.nextWord sid = .run p w i ∧ r.unitFree sid w i = true) ∨ (∃ w, r.nextWord sid = .bad w) ∨
      ∃ c v, r.nextWord sid = .stop (.trap c v)))) ∧
  (∀ (r : State) (sid : Nat) (w : BitVec 32) (i : Instr), decode w = .ok i →
    (r.unitFree sid w i = true ↔ (usesDivider i = true → r.dividing (coreOf sid) = false) ∧
      (0x1E ≤ (majorOf w).toNat → (majorOf w).toNat ≤ 0x22 → r.pipeFull (coreOf sid) = false) ∧
      ((majorOf w).toNat = 0x23 → (r.core (coreOf sid)).mq.length < 2))) ∧
  (∀ (r : State) (sid a va : Nat) (pcc : Reg) (l : ILine), checkCap (r.arch sid).smode pcc a 4 [permX] 4 = none →
    r.place (coreOf sid) a = .mapped va → r.plbCheck sid va [.x] = .granted →
    (r.core (coreOf sid)).icache.find? (·.line == va / 128) = some l →
    r.fetchWord sid pcc a = .word (wordOfBytes (l.data.extractLsb' (8 * (va % 128)) 8) (l.data.extractLsb' (8 * (va % 128) + 8) 8)
      (l.data.extractLsb' (8 * (va % 128) + 16) 8) (l.data.extractLsb' (8 * (va % 128) + 24) 8))) ∧
  (∀ (s : State) (sid : Nat), { s.fetched sid with cores := s.cores } = s ∧
    ((s.fetched sid).core (coreOf sid)).lastIssue = sid % 4 ∧ ∀ cid, cid ≠ coreOf sid → (s.fetched sid).core cid = s.core cid) ∧
  (∀ (s r : State) (e : Instr) (a : Args) (rest : List Turn), s.turns = .event e a :: rest →
    r = { s with turns := rest, ticks := s.ticks + 1 } →
    (isEvent e = true → step s = exec e { r with arg := a }) ∧ (isEvent e = false → step s = .next r)) ∧
  (∀ (s : State), s.turns = [] →
    step s = { s.pass (Config.elapsed s.ticks) with ticks := s.ticks + 1 }.turn (Config.turn s.ticks))

/-- The state right after reset: no power, nothing held, memory and tags empty and in their canonical form, no strand that may issue,
and no request accepted. The spec gives none of these values; they are the model's choice (assumptions 3 and 4). -/
def Obligations.ResetHoldsNothing : Prop :=
  State.reset.Sound ∧ State.reset.power = false ∧ State.reset.bindery.accepting = false ∧
  (∀ a, readByte State.reset.mem a = 0) ∧ (∀ k, tagAt State.reset.tags k = false) ∧
  (∀ sid, (State.reset.strand sid).firing = none ∧ State.reset.strandReady sid = false ∧
    ∀ n : BitVec 6, (State.reset.arch sid).readG n = .null) ∧
  (∀ i, (i = .load ∨ i = .mapPage ∨ i = .launch ∨ i = .kill ∨ i = .queryGangs) → exec i State.reset = .next State.reset)

/-- Every step keeps memory and tags in their canonical form: addresses strictly rising, and no entry equal to what an unlisted
address reads as (assumption 4). -/
def Obligations.StepsKeepMemorySound : Prop :=
  ∀ (s t : State), s.Sound → step s = .next t → t.Sound

/-- 03 R51, R53, 05 R83, R84: before its own part an instruction of the scalar, branch, load and store families parks while a result
is outstanding, if it carries the marker, and else traps PEND with the first outstanding register that it reads, in the order
mask, sources, destination; a divide has waited for its core's divider before (04 R62). A privileged instruction in U mode traps
PRIV before it could park; no rule gives its value, which is free (assumption 5). Where the rules leave a point open it holds of
the choice the model makes (assumption 43). -/
def Obligations.OutstandingSourcesTrapOrPark : Prop :=
  (∀ (s : State) (i : Instr), namedReads s.me i ≠ [] → (usesDivider i = true → s.dividing (coreOf s.cur) = false) →
    (s.park = true → (s.strand s.cur).busy = true → ∃ t, exec i s = .next t ∧ Waits s t .park) ∧
    (s.park = false → ∀ (r : RegName) (before after : List RegName), namedReads s.me i = before ++ r :: after →
      (∀ q ∈ before, (s.strand s.cur).isOut q = false) → (s.strand s.cur).isOut r = true →
      exec i s = .next (s.raise s.cur .pend (pendingNumber r)))) ∧
  (∀ (s : State) (i : Instr), privilegedOnly i = true → s.me.smode = false →
    exec i s = .next (s.raise s.cur .priv (s.free 0)))

/-! # Completion of the line operations, the fences and the ends of gangs (06 R119 to R121, 16 R329, 21 R390, R398) -/

/-- 06 R119, R120, R121, 16 R329, 21 R390, R398: where these complete, from conditions on the state and the operands alone. pref, cln
and inv complete where the checks of their line pass; cend where its chunks commit; drainst, fence and gwait there too, once
nothing that they wait for is out. KILL completes for a sender of the gang's domain: the gang is killed, or its launch is
released; a timeout that has passed kills the gang and is reported; a gang that is over leaves its cores free. -/
def Obligations.LinesFencesAndGangEndsComplete : Prop :=
  (∀ (s u : State) (a : BitVec 6) (off : BitVec 10), Issues false [.g a] s u →
    u.lineCheck (s.me.readG a) (scalarAddr s.me a 128 off) = none →
    (∃ t, exec (.pref a off) s = .next t ∧ Own s t s.me.advance (s.strand s.cur).out ∧ t.mem = s.mem ∧ t.tags = s.tags) ∧
    (∃ t, exec (.cln a off) s = .next t ∧ Own s t s.me.advance (s.strand s.cur).out ∧ t.mem = s.mem ∧ t.tags = s.tags ∧
      ∀ x, u.place (coreOf s.cur) (scalarAddr s.me a 128 off) = .mapped x →
        (∀ p ∈ (u.strand s.cur).held, p.addr.toNat / 128 ≠ x / 128) →
        ∀ y ∈ (t.core (coreOf s.cur)).l1, y.line = x / 128 → y.dirty = 0) ∧
    (∃ t, exec (.inv a off) s = .next t ∧ Own s t s.me.advance (s.strand s.cur).out ∧ t.mem = s.mem ∧ t.tags = s.tags ∧
      ∀ x, u.place (coreOf s.cur) (scalarAddr s.me a 128 off) = .mapped x →
        (∀ p ∈ (u.strand s.cur).held, p.addr.toNat / 128 ≠ x / 128) →
        ∀ y ∈ (t.core (coreOf s.cur)).l1, y.line ≠ x / 128)) ∧
  (∀ (s u : State), MayEnd false false [] s u →
    (∃ t, exec .cend s = .next t ∧ Ran u t u.me.ended (u.strand s.cur).out) ∧
    (u.storesOut s.cur 3 = false → ∃ t, exec .drainst s = .next t ∧ Ran u t u.me.ended (u.strand s.cur).out) ∧
    (u.remoteOut s.cur = false → ∃ t, exec .gwait s = .next t ∧ Ran u t u.me.ended (u.strand s.cur).out) ∧
    (∀ (eng : Bool) (scope : BitVec 3), u.storesOut s.cur scope.toNat = false →
      (eng = true → u.enginesOut s.cur scope.toNat = false) →
      ∃ t, exec (.fence eng scope) s = .next t ∧ Ran u t u.me.ended (u.strand s.cur).out)) ∧
  (∀ (s : State) (sender id gang : Nat) (l : Launch), Serves s 5 sender id → gang = fieldAt s.body 0 2 → s.peerOf sender = none →
    s.launch gang = some l → s.hasAuthority sender l.domain = true →
    ∃ t, exec .kill s = .next t ∧ .reply sender id 0 0 [] ∈ t.bindery.sent ∧
      (∀ x ∈ t.bindery.launches, x.gang = gang → x.killed = true) ∧
      (l.started = true → ∀ cid ∈ s.members gang, ∀ sid ∈ strandsOf cid, (t.strand sid).firing = none)) ∧
  (∀ (s : State) (l : Launch), s.launch (s.argN 0) = some l → l.started = true → l.killed = false →
    1000 * l.timeout ≤ s.now - l.start →
    ∃ t, exec .gangTimeout s = .next t ∧ (∀ x ∈ t.bindery.launches, x.gang = l.gang → x.killed = true) ∧
      (∀ cid ∈ s.members l.gang, ∀ sid ∈ strandsOf cid, (t.strand sid).firing = none) ∧
      ∃ e d, .event (s.sendersOf l.domain) 5 l.gang 0 0 0 0 0 e d 0 ∈ t.bindery.sent) ∧
  (∀ (s : State) (l : Launch), s.launch (s.argN 0) = some l → l.started = true → s.gangOver l = true →
    ∃ t, exec .gangEnd s = .next t ∧ (∀ x ∈ t.bindery.launches, x.gang ≠ l.gang) ∧
      (∀ cid ∈ l.allCores, (s.core cid).gang = some l.gang → (t.core cid).gang = none) ∧
      (∃ e d, .event (s.sendersOf l.domain) 4 l.gang 0 0 0 0 0 e d 0 ∈ t.bindery.sent) ∧ t.mem = s.mem ∧ t.tags = s.tags)
end

