-- ==== Sys2Proof/Laws/State.lean ====
section
/-! SUPPORT. What each update of the state leaves of each field, true by computation, and what reading a map, a strand, a core, a
quire or a die after a write gives. -/

namespace Sys2Proof.Machine

open Sys2Proof

/-! ## Maps -/

/-- The number written reads as what was written. -/
@[simp] theorem mapGet_mapSet_self {α : Type} (d x : α) (k : Nat) (m : Map α) : mapGet d k (mapSet k x m) = x := by
  induction m with
  | nil => simp [mapSet, mapGet]
  | cons e m ih =>
    obtain ⟨j, y⟩ := e
    unfold mapSet
    split
    · simp [mapGet]
    · split
      · simp [mapGet]
      · rename_i h1 h2
        simp [mapGet, Ne.symm h2, ih]

/-- Another number reads as before. -/
theorem mapGet_mapSet_ne {α : Type} (d x : α) {j k : Nat} (h : j ≠ k) (m : Map α) :
    mapGet d j (mapSet k x m) = mapGet d j m := by
  induction m with
  | nil => simp [mapSet, mapGet, Ne.symm h]
  | cons e m ih =>
    obtain ⟨i, y⟩ := e
    unfold mapSet
    split
    · simp [mapGet, Ne.symm h]
    · split
      · rename_i h1 h2
        subst h2
        simp [mapGet, Ne.symm h]
      · simp [mapGet, ih]

/-! ## Fields -/

@[simp] theorem State.setStrand_cores (s : State) (k : Nat) (x : Strand) : (s.setStrand k x).cores = s.cores := rfl
@[simp] theorem State.setStrand_quires (s : State) (k : Nat) (x : Strand) : (s.setStrand k x).quires = s.quires := rfl
@[simp] theorem State.setStrand_dies (s : State) (k : Nat) (x : Strand) : (s.setStrand k x).dies = s.dies := rfl
@[simp] theorem State.setStrand_mem (s : State) (k : Nat) (x : Strand) : (s.setStrand k x).mem = s.mem := rfl
@[simp] theorem State.setStrand_tags (s : State) (k : Nat) (x : Strand) : (s.setStrand k x).tags = s.tags := rfl
@[simp] theorem State.setStrand_remotes (s : State) (k : Nat) (x : Strand) : (s.setStrand k x).remotes = s.remotes := rfl
@[simp] theorem State.setStrand_msgs (s : State) (k : Nat) (x : Strand) : (s.setStrand k x).msgs = s.msgs := rfl
@[simp] theorem State.setStrand_migrations (s : State) (k : Nat) (x : Strand) : (s.setStrand k x).migrations = s.migrations := rfl
@[simp] theorem State.setStrand_ports (s : State) (k : Nat) (x : Strand) : (s.setStrand k x).ports = s.ports := rfl
@[simp] theorem State.setStrand_bindery (s : State) (k : Nat) (x : Strand) : (s.setStrand k x).bindery = s.bindery := rfl
@[simp] theorem State.setStrand_colophon (s : State) (k : Nat) (x : Strand) : (s.setStrand k x).colophon = s.colophon := rfl
@[simp] theorem State.setStrand_power (s : State) (k : Nat) (x : Strand) : (s.setStrand k x).power = s.power := rfl
@[simp] theorem State.setStrand_collected (s : State) (k : Nat) (x : Strand) : (s.setStrand k x).collected = s.collected := rfl
@[simp] theorem State.setStrand_serial (s : State) (k : Nat) (x : Strand) : (s.setStrand k x).serial = s.serial := rfl
@[simp] theorem State.setStrand_cur (s : State) (k : Nat) (x : Strand) : (s.setStrand k x).cur = s.cur := rfl
@[simp] theorem State.setStrand_park (s : State) (k : Nat) (x : Strand) : (s.setStrand k x).park = s.park := rfl
@[simp] theorem State.setStrand_arg (s : State) (k : Nat) (x : Strand) : (s.setStrand k x).arg = s.arg := rfl
@[simp] theorem State.setStrand_turns (s : State) (k : Nat) (x : Strand) : (s.setStrand k x).turns = s.turns := rfl
@[simp] theorem State.setStrand_ticks (s : State) (k : Nat) (x : Strand) : (s.setStrand k x).ticks = s.ticks := rfl
@[simp] theorem State.setStrand_now (s : State) (k : Nat) (x : Strand) : (s.setStrand k x).now = s.now := rfl

@[simp] theorem State.setCore_strands (s : State) (k : Nat) (x : Core) : (s.setCore k x).strands = s.strands := rfl
@[simp] theorem State.setCore_quires (s : State) (k : Nat) (x : Core) : (s.setCore k x).quires = s.quires := rfl
@[simp] theorem State.setCore_dies (s : State) (k : Nat) (x : Core) : (s.setCore k x).dies = s.dies := rfl
@[simp] theorem State.setCore_mem (s : State) (k : Nat) (x : Core) : (s.setCore k x).mem = s.mem := rfl
@[simp] theorem State.setCore_tags (s : State) (k : Nat) (x : Core) : (s.setCore k x).tags = s.tags := rfl
@[simp] theorem State.setCore_remotes (s : State) (k : Nat) (x : Core) : (s.setCore k x).remotes = s.remotes := rfl
@[simp] theorem State.setCore_msgs (s : State) (k : Nat) (x : Core) : (s.setCore k x).msgs = s.msgs := rfl
@[simp] theorem State.setCore_migrations (s : State) (k : Nat) (x : Core) : (s.setCore k x).migrations = s.migrations := rfl
@[simp] theorem State.setCore_ports (s : State) (k : Nat) (x : Core) : (s.setCore k x).ports = s.ports := rfl
@[simp] theorem State.setCore_bindery (s : State) (k : Nat) (x : Core) : (s.setCore k x).bindery = s.bindery := rfl
@[simp] theorem State.setCore_colophon (s : State) (k : Nat) (x : Core) : (s.setCore k x).colophon = s.colophon := rfl
@[simp] theorem State.setCore_power (s : State) (k : Nat) (x : Core) : (s.setCore k x).power = s.power := rfl
@[simp] theorem State.setCore_collected (s : State) (k : Nat) (x : Core) : (s.setCore k x).collected = s.collected := rfl
@[simp] theorem State.setCore_serial (s : State) (k : Nat) (x : Core) : (s.setCore k x).serial = s.serial := rfl
@[simp] theorem State.setCore_cur (s : State) (k : Nat) (x : Core) : (s.setCore k x).cur = s.cur := rfl
@[simp] theorem State.setCore_park (s : State) (k : Nat) (x : Core) : (s.setCore k x).park = s.park := rfl
@[simp] theorem State.setCore_arg (s : State) (k : Nat) (x : Core) : (s.setCore k x).arg = s.arg := rfl
@[simp] theorem State.setCore_turns (s : State) (k : Nat) (x : Core) : (s.setCore k x).turns = s.turns := rfl
@[simp] theorem State.setCore_ticks (s : State) (k : Nat) (x : Core) : (s.setCore k x).ticks = s.ticks := rfl
@[simp] theorem State.setCore_now (s : State) (k : Nat) (x : Core) : (s.setCore k x).now = s.now := rfl

@[simp] theorem State.setQuire_strands (s : State) (k : Nat) (x : Quire) : (s.setQuire k x).strands = s.strands := rfl
@[simp] theorem State.setQuire_cores (s : State) (k : Nat) (x : Quire) : (s.setQuire k x).cores = s.cores := rfl
@[simp] theorem State.setQuire_dies (s : State) (k : Nat) (x : Quire) : (s.setQuire k x).dies = s.dies := rfl
@[simp] theorem State.setQuire_mem (s : State) (k : Nat) (x : Quire) : (s.setQuire k x).mem = s.mem := rfl
@[simp] theorem State.setQuire_tags (s : State) (k : Nat) (x : Quire) : (s.setQuire k x).tags = s.tags := rfl
@[simp] theorem State.setQuire_remotes (s : State) (k : Nat) (x : Quire) : (s.setQuire k x).remotes = s.remotes := rfl
@[simp] theorem State.setQuire_msgs (s : State) (k : Nat) (x : Quire) : (s.setQuire k x).msgs = s.msgs := rfl
@[simp] theorem State.setQuire_migrations (s : State) (k : Nat) (x : Quire) : (s.setQuire k x).migrations = s.migrations := rfl
@[simp] theorem State.setQuire_ports (s : State) (k : Nat) (x : Quire) : (s.setQuire k x).ports = s.ports := rfl
@[simp] theorem State.setQuire_bindery (s : State) (k : Nat) (x : Quire) : (s.setQuire k x).bindery = s.bindery := rfl
@[simp] theorem State.setQuire_colophon (s : State) (k : Nat) (x : Quire) : (s.setQuire k x).colophon = s.colophon := rfl
@[simp] theorem State.setQuire_power (s : State) (k : Nat) (x : Quire) : (s.setQuire k x).power = s.power := rfl
@[simp] theorem State.setQuire_collected (s : State) (k : Nat) (x : Quire) : (s.setQuire k x).collected = s.collected := rfl
@[simp] theorem State.setQuire_serial (s : State) (k : Nat) (x : Quire) : (s.setQuire k x).serial = s.serial := rfl
@[simp] theorem State.setQuire_cur (s : State) (k : Nat) (x : Quire) : (s.setQuire k x).cur = s.cur := rfl
@[simp] theorem State.setQuire_park (s : State) (k : Nat) (x : Quire) : (s.setQuire k x).park = s.park := rfl
@[simp] theorem State.setQuire_arg (s : State) (k : Nat) (x : Quire) : (s.setQuire k x).arg = s.arg := rfl
@[simp] theorem State.setQuire_turns (s : State) (k : Nat) (x : Quire) : (s.setQuire k x).turns = s.turns := rfl
@[simp] theorem State.setQuire_ticks (s : State) (k : Nat) (x : Quire) : (s.setQuire k x).ticks = s.ticks := rfl
@[simp] theorem State.setQuire_now (s : State) (k : Nat) (x : Quire) : (s.setQuire k x).now = s.now := rfl

@[simp] theorem State.setDie_strands (s : State) (k : Nat) (x : Die) : (s.setDie k x).strands = s.strands := rfl
@[simp] theorem State.setDie_cores (s : State) (k : Nat) (x : Die) : (s.setDie k x).cores = s.cores := rfl
@[simp] theorem State.setDie_quires (s : State) (k : Nat) (x : Die) : (s.setDie k x).quires = s.quires := rfl
@[simp] theorem State.setDie_mem (s : State) (k : Nat) (x : Die) : (s.setDie k x).mem = s.mem := rfl
@[simp] theorem State.setDie_tags (s : State) (k : Nat) (x : Die) : (s.setDie k x).tags = s.tags := rfl
@[simp] theorem State.setDie_remotes (s : State) (k : Nat) (x : Die) : (s.setDie k x).remotes = s.remotes := rfl
@[simp] theorem State.setDie_msgs (s : State) (k : Nat) (x : Die) : (s.setDie k x).msgs = s.msgs := rfl
@[simp] theorem State.setDie_migrations (s : State) (k : Nat) (x : Die) : (s.setDie k x).migrations = s.migrations := rfl
@[simp] theorem State.setDie_ports (s : State) (k : Nat) (x : Die) : (s.setDie k x).ports = s.ports := rfl
@[simp] theorem State.setDie_bindery (s : State) (k : Nat) (x : Die) : (s.setDie k x).bindery = s.bindery := rfl
@[simp] theorem State.setDie_colophon (s : State) (k : Nat) (x : Die) : (s.setDie k x).colophon = s.colophon := rfl
@[simp] theorem State.setDie_power (s : State) (k : Nat) (x : Die) : (s.setDie k x).power = s.power := rfl
@[simp] theorem State.setDie_collected (s : State) (k : Nat) (x : Die) : (s.setDie k x).collected = s.collected := rfl
@[simp] theorem State.setDie_serial (s : State) (k : Nat) (x : Die) : (s.setDie k x).serial = s.serial := rfl
@[simp] theorem State.setDie_cur (s : State) (k : Nat) (x : Die) : (s.setDie k x).cur = s.cur := rfl
@[simp] theorem State.setDie_park (s : State) (k : Nat) (x : Die) : (s.setDie k x).park = s.park := rfl
@[simp] theorem State.setDie_arg (s : State) (k : Nat) (x : Die) : (s.setDie k x).arg = s.arg := rfl
@[simp] theorem State.setDie_turns (s : State) (k : Nat) (x : Die) : (s.setDie k x).turns = s.turns := rfl
@[simp] theorem State.setDie_ticks (s : State) (k : Nat) (x : Die) : (s.setDie k x).ticks = s.ticks := rfl
@[simp] theorem State.setDie_now (s : State) (k : Nat) (x : Die) : (s.setDie k x).now = s.now := rfl

@[simp] theorem State.onStrand_cores (s : State) (k : Nat) (f : Strand → Strand) : (s.onStrand k f).cores = s.cores := rfl
@[simp] theorem State.onStrand_quires (s : State) (k : Nat) (f : Strand → Strand) : (s.onStrand k f).quires = s.quires := rfl
@[simp] theorem State.onStrand_dies (s : State) (k : Nat) (f : Strand → Strand) : (s.onStrand k f).dies = s.dies := rfl
@[simp] theorem State.onStrand_mem (s : State) (k : Nat) (f : Strand → Strand) : (s.onStrand k f).mem = s.mem := rfl
@[simp] theorem State.onStrand_tags (s : State) (k : Nat) (f : Strand → Strand) : (s.onStrand k f).tags = s.tags := rfl
@[simp] theorem State.onStrand_remotes (s : State) (k : Nat) (f : Strand → Strand) : (s.onStrand k f).remotes = s.remotes := rfl
@[simp] theorem State.onStrand_msgs (s : State) (k : Nat) (f : Strand → Strand) : (s.onStrand k f).msgs = s.msgs := rfl
@[simp] theorem State.onStrand_migrations (s : State) (k : Nat) (f : Strand → Strand) : (s.onStrand k f).migrations = s.migrations := rfl
@[simp] theorem State.onStrand_ports (s : State) (k : Nat) (f : Strand → Strand) : (s.onStrand k f).ports = s.ports := rfl
@[simp] theorem State.onStrand_bindery (s : State) (k : Nat) (f : Strand → Strand) : (s.onStrand k f).bindery = s.bindery := rfl
@[simp] theorem State.onStrand_colophon (s : State) (k : Nat) (f : Strand → Strand) : (s.onStrand k f).colophon = s.colophon := rfl
@[simp] theorem State.onStrand_power (s : State) (k : Nat) (f : Strand → Strand) : (s.onStrand k f).power = s.power := rfl
@[simp] theorem State.onStrand_collected (s : State) (k : Nat) (f : Strand → Strand) : (s.onStrand k f).collected = s.collected := rfl
@[simp] theorem State.onStrand_serial (s : State) (k : Nat) (f : Strand → Strand) : (s.onStrand k f).serial = s.serial := rfl
@[simp] theorem State.onStrand_cur (s : State) (k : Nat) (f : Strand → Strand) : (s.onStrand k f).cur = s.cur := rfl
@[simp] theorem State.onStrand_park (s : State) (k : Nat) (f : Strand → Strand) : (s.onStrand k f).park = s.park := rfl
@[simp] theorem State.onStrand_arg (s : State) (k : Nat) (f : Strand → Strand) : (s.onStrand k f).arg = s.arg := rfl
@[simp] theorem State.onStrand_turns (s : State) (k : Nat) (f : Strand → Strand) : (s.onStrand k f).turns = s.turns := rfl
@[simp] theorem State.onStrand_ticks (s : State) (k : Nat) (f : Strand → Strand) : (s.onStrand k f).ticks = s.ticks := rfl
@[simp] theorem State.onStrand_now (s : State) (k : Nat) (f : Strand → Strand) : (s.onStrand k f).now = s.now := rfl

@[simp] theorem State.onCore_strands (s : State) (k : Nat) (f : Core → Core) : (s.onCore k f).strands = s.strands := rfl
@[simp] theorem State.onCore_quires (s : State) (k : Nat) (f : Core → Core) : (s.onCore k f).quires = s.quires := rfl
@[simp] theorem State.onCore_dies (s : State) (k : Nat) (f : Core → Core) : (s.onCore k f).dies = s.dies := rfl
@[simp] theorem State.onCore_mem (s : State) (k : Nat) (f : Core → Core) : (s.onCore k f).mem = s.mem := rfl
@[simp] theorem State.onCore_tags (s : State) (k : Nat) (f : Core → Core) : (s.onCore k f).tags = s.tags := rfl
@[simp] theorem State.onCore_remotes (s : State) (k : Nat) (f : Core → Core) : (s.onCore k f).remotes = s.remotes := rfl
@[simp] theorem State.onCore_msgs (s : State) (k : Nat) (f : Core → Core) : (s.onCore k f).msgs = s.msgs := rfl
@[simp] theorem State.onCore_migrations (s : State) (k : Nat) (f : Core → Core) : (s.onCore k f).migrations = s.migrations := rfl
@[simp] theorem State.onCore_ports (s : State) (k : Nat) (f : Core → Core) : (s.onCore k f).ports = s.ports := rfl
@[simp] theorem State.onCore_bindery (s : State) (k : Nat) (f : Core → Core) : (s.onCore k f).bindery = s.bindery := rfl
@[simp] theorem State.onCore_colophon (s : State) (k : Nat) (f : Core → Core) : (s.onCore k f).colophon = s.colophon := rfl
@[simp] theorem State.onCore_power (s : State) (k : Nat) (f : Core → Core) : (s.onCore k f).power = s.power := rfl
@[simp] theorem State.onCore_collected (s : State) (k : Nat) (f : Core → Core) : (s.onCore k f).collected = s.collected := rfl
@[simp] theorem State.onCore_serial (s : State) (k : Nat) (f : Core → Core) : (s.onCore k f).serial = s.serial := rfl
@[simp] theorem State.onCore_cur (s : State) (k : Nat) (f : Core → Core) : (s.onCore k f).cur = s.cur := rfl
@[simp] theorem State.onCore_park (s : State) (k : Nat) (f : Core → Core) : (s.onCore k f).park = s.park := rfl
@[simp] theorem State.onCore_arg (s : State) (k : Nat) (f : Core → Core) : (s.onCore k f).arg = s.arg := rfl
@[simp] theorem State.onCore_turns (s : State) (k : Nat) (f : Core → Core) : (s.onCore k f).turns = s.turns := rfl
@[simp] theorem State.onCore_ticks (s : State) (k : Nat) (f : Core → Core) : (s.onCore k f).ticks = s.ticks := rfl
@[simp] theorem State.onCore_now (s : State) (k : Nat) (f : Core → Core) : (s.onCore k f).now = s.now := rfl

@[simp] theorem State.onQuire_strands (s : State) (k : Nat) (f : Quire → Quire) : (s.onQuire k f).strands = s.strands := rfl
@[simp] theorem State.onQuire_cores (s : State) (k : Nat) (f : Quire → Quire) : (s.onQuire k f).cores = s.cores := rfl
@[simp] theorem State.onQuire_dies (s : State) (k : Nat) (f : Quire → Quire) : (s.onQuire k f).dies = s.dies := rfl
@[simp] theorem State.onQuire_mem (s : State) (k : Nat) (f : Quire → Quire) : (s.onQuire k f).mem = s.mem := rfl
@[simp] theorem State.onQuire_tags (s : State) (k : Nat) (f : Quire → Quire) : (s.onQuire k f).tags = s.tags := rfl
@[simp] theorem State.onQuire_remotes (s : State) (k : Nat) (f : Quire → Quire) : (s.onQuire k f).remotes = s.remotes := rfl
@[simp] theorem State.onQuire_msgs (s : State) (k : Nat) (f : Quire → Quire) : (s.onQuire k f).msgs = s.msgs := rfl
@[simp] theorem State.onQuire_migrations (s : State) (k : Nat) (f : Quire → Quire) : (s.onQuire k f).migrations = s.migrations := rfl
@[simp] theorem State.onQuire_ports (s : State) (k : Nat) (f : Quire → Quire) : (s.onQuire k f).ports = s.ports := rfl
@[simp] theorem State.onQuire_bindery (s : State) (k : Nat) (f : Quire → Quire) : (s.onQuire k f).bindery = s.bindery := rfl
@[simp] theorem State.onQuire_colophon (s : State) (k : Nat) (f : Quire → Quire) : (s.onQuire k f).colophon = s.colophon := rfl
@[simp] theorem State.onQuire_power (s : State) (k : Nat) (f : Quire → Quire) : (s.onQuire k f).power = s.power := rfl
@[simp] theorem State.onQuire_collected (s : State) (k : Nat) (f : Quire → Quire) : (s.onQuire k f).collected = s.collected := rfl
@[simp] theorem State.onQuire_serial (s : State) (k : Nat) (f : Quire → Quire) : (s.onQuire k f).serial = s.serial := rfl
@[simp] theorem State.onQuire_cur (s : State) (k : Nat) (f : Quire → Quire) : (s.onQuire k f).cur = s.cur := rfl
@[simp] theorem State.onQuire_park (s : State) (k : Nat) (f : Quire → Quire) : (s.onQuire k f).park = s.park := rfl
@[simp] theorem State.onQuire_arg (s : State) (k : Nat) (f : Quire → Quire) : (s.onQuire k f).arg = s.arg := rfl
@[simp] theorem State.onQuire_turns (s : State) (k : Nat) (f : Quire → Quire) : (s.onQuire k f).turns = s.turns := rfl
@[simp] theorem State.onQuire_ticks (s : State) (k : Nat) (f : Quire → Quire) : (s.onQuire k f).ticks = s.ticks := rfl
@[simp] theorem State.onQuire_now (s : State) (k : Nat) (f : Quire → Quire) : (s.onQuire k f).now = s.now := rfl

@[simp] theorem State.onDie_strands (s : State) (k : Nat) (f : Die → Die) : (s.onDie k f).strands = s.strands := rfl
@[simp] theorem State.onDie_cores (s : State) (k : Nat) (f : Die → Die) : (s.onDie k f).cores = s.cores := rfl
@[simp] theorem State.onDie_quires (s : State) (k : Nat) (f : Die → Die) : (s.onDie k f).quires = s.quires := rfl
@[simp] theorem State.onDie_mem (s : State) (k : Nat) (f : Die → Die) : (s.onDie k f).mem = s.mem := rfl
@[simp] theorem State.onDie_tags (s : State) (k : Nat) (f : Die → Die) : (s.onDie k f).tags = s.tags := rfl
@[simp] theorem State.onDie_remotes (s : State) (k : Nat) (f : Die → Die) : (s.onDie k f).remotes = s.remotes := rfl
@[simp] theorem State.onDie_msgs (s : State) (k : Nat) (f : Die → Die) : (s.onDie k f).msgs = s.msgs := rfl
@[simp] theorem State.onDie_migrations (s : State) (k : Nat) (f : Die → Die) : (s.onDie k f).migrations = s.migrations := rfl
@[simp] theorem State.onDie_ports (s : State) (k : Nat) (f : Die → Die) : (s.onDie k f).ports = s.ports := rfl
@[simp] theorem State.onDie_bindery (s : State) (k : Nat) (f : Die → Die) : (s.onDie k f).bindery = s.bindery := rfl
@[simp] theorem State.onDie_colophon (s : State) (k : Nat) (f : Die → Die) : (s.onDie k f).colophon = s.colophon := rfl
@[simp] theorem State.onDie_power (s : State) (k : Nat) (f : Die → Die) : (s.onDie k f).power = s.power := rfl
@[simp] theorem State.onDie_collected (s : State) (k : Nat) (f : Die → Die) : (s.onDie k f).collected = s.collected := rfl
@[simp] theorem State.onDie_serial (s : State) (k : Nat) (f : Die → Die) : (s.onDie k f).serial = s.serial := rfl
@[simp] theorem State.onDie_cur (s : State) (k : Nat) (f : Die → Die) : (s.onDie k f).cur = s.cur := rfl
@[simp] theorem State.onDie_park (s : State) (k : Nat) (f : Die → Die) : (s.onDie k f).park = s.park := rfl
@[simp] theorem State.onDie_arg (s : State) (k : Nat) (f : Die → Die) : (s.onDie k f).arg = s.arg := rfl
@[simp] theorem State.onDie_turns (s : State) (k : Nat) (f : Die → Die) : (s.onDie k f).turns = s.turns := rfl
@[simp] theorem State.onDie_ticks (s : State) (k : Nat) (f : Die → Die) : (s.onDie k f).ticks = s.ticks := rfl
@[simp] theorem State.onDie_now (s : State) (k : Nat) (f : Die → Die) : (s.onDie k f).now = s.now := rfl

@[simp] theorem State.onArch_cores (s : State) (k : Nat) (f : Arch → Arch) : (s.onArch k f).cores = s.cores := rfl
@[simp] theorem State.onArch_quires (s : State) (k : Nat) (f : Arch → Arch) : (s.onArch k f).quires = s.quires := rfl
@[simp] theorem State.onArch_dies (s : State) (k : Nat) (f : Arch → Arch) : (s.onArch k f).dies = s.dies := rfl
@[simp] theorem State.onArch_mem (s : State) (k : Nat) (f : Arch → Arch) : (s.onArch k f).mem = s.mem := rfl
@[simp] theorem State.onArch_tags (s : State) (k : Nat) (f : Arch → Arch) : (s.onArch k f).tags = s.tags := rfl
@[simp] theorem State.onArch_remotes (s : State) (k : Nat) (f : Arch → Arch) : (s.onArch k f).remotes = s.remotes := rfl
@[simp] theorem State.onArch_msgs (s : State) (k : Nat) (f : Arch → Arch) : (s.onArch k f).msgs = s.msgs := rfl
@[simp] theorem State.onArch_migrations (s : State) (k : Nat) (f : Arch → Arch) : (s.onArch k f).migrations = s.migrations := rfl
@[simp] theorem State.onArch_ports (s : State) (k : Nat) (f : Arch → Arch) : (s.onArch k f).ports = s.ports := rfl
@[simp] theorem State.onArch_bindery (s : State) (k : Nat) (f : Arch → Arch) : (s.onArch k f).bindery = s.bindery := rfl
@[simp] theorem State.onArch_colophon (s : State) (k : Nat) (f : Arch → Arch) : (s.onArch k f).colophon = s.colophon := rfl
@[simp] theorem State.onArch_power (s : State) (k : Nat) (f : Arch → Arch) : (s.onArch k f).power = s.power := rfl
@[simp] theorem State.onArch_collected (s : State) (k : Nat) (f : Arch → Arch) : (s.onArch k f).collected = s.collected := rfl
@[simp] theorem State.onArch_serial (s : State) (k : Nat) (f : Arch → Arch) : (s.onArch k f).serial = s.serial := rfl
@[simp] theorem State.onArch_cur (s : State) (k : Nat) (f : Arch → Arch) : (s.onArch k f).cur = s.cur := rfl
@[simp] theorem State.onArch_park (s : State) (k : Nat) (f : Arch → Arch) : (s.onArch k f).park = s.park := rfl
@[simp] theorem State.onArch_arg (s : State) (k : Nat) (f : Arch → Arch) : (s.onArch k f).arg = s.arg := rfl
@[simp] theorem State.onArch_turns (s : State) (k : Nat) (f : Arch → Arch) : (s.onArch k f).turns = s.turns := rfl
@[simp] theorem State.onArch_ticks (s : State) (k : Nat) (f : Arch → Arch) : (s.onArch k f).ticks = s.ticks := rfl
@[simp] theorem State.onArch_now (s : State) (k : Nat) (f : Arch → Arch) : (s.onArch k f).now = s.now := rfl

@[simp] theorem State.onBindery_strands (s : State) (f : Bindery → Bindery) : (s.onBindery f).strands = s.strands := rfl
@[simp] theorem State.onBindery_cores (s : State) (f : Bindery → Bindery) : (s.onBindery f).cores = s.cores := rfl
@[simp] theorem State.onBindery_quires (s : State) (f : Bindery → Bindery) : (s.onBindery f).quires = s.quires := rfl
@[simp] theorem State.onBindery_dies (s : State) (f : Bindery → Bindery) : (s.onBindery f).dies = s.dies := rfl
@[simp] theorem State.onBindery_mem (s : State) (f : Bindery → Bindery) : (s.onBindery f).mem = s.mem := rfl
@[simp] theorem State.onBindery_tags (s : State) (f : Bindery → Bindery) : (s.onBindery f).tags = s.tags := rfl
@[simp] theorem State.onBindery_remotes (s : State) (f : Bindery → Bindery) : (s.onBindery f).remotes = s.remotes := rfl
@[simp] theorem State.onBindery_msgs (s : State) (f : Bindery → Bindery) : (s.onBindery f).msgs = s.msgs := rfl
@[simp] theorem State.onBindery_migrations (s : State) (f : Bindery → Bindery) : (s.onBindery f).migrations = s.migrations := rfl
@[simp] theorem State.onBindery_ports (s : State) (f : Bindery → Bindery) : (s.onBindery f).ports = s.ports := rfl
@[simp] theorem State.onBindery_colophon (s : State) (f : Bindery → Bindery) : (s.onBindery f).colophon = s.colophon := rfl
@[simp] theorem State.onBindery_power (s : State) (f : Bindery → Bindery) : (s.onBindery f).power = s.power := rfl
@[simp] theorem State.onBindery_collected (s : State) (f : Bindery → Bindery) : (s.onBindery f).collected = s.collected := rfl
@[simp] theorem State.onBindery_serial (s : State) (f : Bindery → Bindery) : (s.onBindery f).serial = s.serial := rfl
@[simp] theorem State.onBindery_cur (s : State) (f : Bindery → Bindery) : (s.onBindery f).cur = s.cur := rfl
@[simp] theorem State.onBindery_park (s : State) (f : Bindery → Bindery) : (s.onBindery f).park = s.park := rfl
@[simp] theorem State.onBindery_arg (s : State) (f : Bindery → Bindery) : (s.onBindery f).arg = s.arg := rfl
@[simp] theorem State.onBindery_turns (s : State) (f : Bindery → Bindery) : (s.onBindery f).turns = s.turns := rfl
@[simp] theorem State.onBindery_ticks (s : State) (f : Bindery → Bindery) : (s.onBindery f).ticks = s.ticks := rfl
@[simp] theorem State.onBindery_now (s : State) (f : Bindery → Bindery) : (s.onBindery f).now = s.now := rfl

@[simp] theorem State.writeSector_strands (s : State) (a : Nat) (d b : BitVec 128) (t : Bool) : (s.writeSector a d b t).strands = s.strands := rfl
@[simp] theorem State.writeSector_cores (s : State) (a : Nat) (d b : BitVec 128) (t : Bool) : (s.writeSector a d b t).cores = s.cores := rfl
@[simp] theorem State.writeSector_quires (s : State) (a : Nat) (d b : BitVec 128) (t : Bool) : (s.writeSector a d b t).quires = s.quires := rfl
@[simp] theorem State.writeSector_dies (s : State) (a : Nat) (d b : BitVec 128) (t : Bool) : (s.writeSector a d b t).dies = s.dies := rfl
@[simp] theorem State.writeSector_remotes (s : State) (a : Nat) (d b : BitVec 128) (t : Bool) : (s.writeSector a d b t).remotes = s.remotes := rfl
@[simp] theorem State.writeSector_msgs (s : State) (a : Nat) (d b : BitVec 128) (t : Bool) : (s.writeSector a d b t).msgs = s.msgs := rfl
@[simp] theorem State.writeSector_migrations (s : State) (a : Nat) (d b : BitVec 128) (t : Bool) : (s.writeSector a d b t).migrations = s.migrations := rfl
@[simp] theorem State.writeSector_ports (s : State) (a : Nat) (d b : BitVec 128) (t : Bool) : (s.writeSector a d b t).ports = s.ports := rfl
@[simp] theorem State.writeSector_bindery (s : State) (a : Nat) (d b : BitVec 128) (t : Bool) : (s.writeSector a d b t).bindery = s.bindery := rfl
@[simp] theorem State.writeSector_colophon (s : State) (a : Nat) (d b : BitVec 128) (t : Bool) : (s.writeSector a d b t).colophon = s.colophon := rfl
@[simp] theorem State.writeSector_power (s : State) (a : Nat) (d b : BitVec 128) (t : Bool) : (s.writeSector a d b t).power = s.power := rfl
@[simp] theorem State.writeSector_collected (s : State) (a : Nat) (d b : BitVec 128) (t : Bool) : (s.writeSector a d b t).collected = s.collected := rfl
@[simp] theorem State.writeSector_serial (s : State) (a : Nat) (d b : BitVec 128) (t : Bool) : (s.writeSector a d b t).serial = s.serial := rfl
@[simp] theorem State.writeSector_cur (s : State) (a : Nat) (d b : BitVec 128) (t : Bool) : (s.writeSector a d b t).cur = s.cur := rfl
@[simp] theorem State.writeSector_park (s : State) (a : Nat) (d b : BitVec 128) (t : Bool) : (s.writeSector a d b t).park = s.park := rfl
@[simp] theorem State.writeSector_arg (s : State) (a : Nat) (d b : BitVec 128) (t : Bool) : (s.writeSector a d b t).arg = s.arg := rfl
@[simp] theorem State.writeSector_turns (s : State) (a : Nat) (d b : BitVec 128) (t : Bool) : (s.writeSector a d b t).turns = s.turns := rfl
@[simp] theorem State.writeSector_ticks (s : State) (a : Nat) (d b : BitVec 128) (t : Bool) : (s.writeSector a d b t).ticks = s.ticks := rfl
@[simp] theorem State.writeSector_now (s : State) (a : Nat) (d b : BitVec 128) (t : Bool) : (s.writeSector a d b t).now = s.now := rfl

@[simp] theorem State.store_strands (s : State) (a : Nat) (l : List Byte) : (s.store a l).strands = s.strands := rfl
@[simp] theorem State.store_cores (s : State) (a : Nat) (l : List Byte) : (s.store a l).cores = s.cores := rfl
@[simp] theorem State.store_quires (s : State) (a : Nat) (l : List Byte) : (s.store a l).quires = s.quires := rfl
@[simp] theorem State.store_dies (s : State) (a : Nat) (l : List Byte) : (s.store a l).dies = s.dies := rfl
@[simp] theorem State.store_remotes (s : State) (a : Nat) (l : List Byte) : (s.store a l).remotes = s.remotes := rfl
@[simp] theorem State.store_msgs (s : State) (a : Nat) (l : List Byte) : (s.store a l).msgs = s.msgs := rfl
@[simp] theorem State.store_migrations (s : State) (a : Nat) (l : List Byte) : (s.store a l).migrations = s.migrations := rfl
@[simp] theorem State.store_ports (s : State) (a : Nat) (l : List Byte) : (s.store a l).ports = s.ports := rfl
@[simp] theorem State.store_bindery (s : State) (a : Nat) (l : List Byte) : (s.store a l).bindery = s.bindery := rfl
@[simp] theorem State.store_colophon (s : State) (a : Nat) (l : List Byte) : (s.store a l).colophon = s.colophon := rfl
@[simp] theorem State.store_power (s : State) (a : Nat) (l : List Byte) : (s.store a l).power = s.power := rfl
@[simp] theorem State.store_collected (s : State) (a : Nat) (l : List Byte) : (s.store a l).collected = s.collected := rfl
@[simp] theorem State.store_serial (s : State) (a : Nat) (l : List Byte) : (s.store a l).serial = s.serial := rfl
@[simp] theorem State.store_cur (s : State) (a : Nat) (l : List Byte) : (s.store a l).cur = s.cur := rfl
@[simp] theorem State.store_park (s : State) (a : Nat) (l : List Byte) : (s.store a l).park = s.park := rfl
@[simp] theorem State.store_arg (s : State) (a : Nat) (l : List Byte) : (s.store a l).arg = s.arg := rfl
@[simp] theorem State.store_turns (s : State) (a : Nat) (l : List Byte) : (s.store a l).turns = s.turns := rfl
@[simp] theorem State.store_ticks (s : State) (a : Nat) (l : List Byte) : (s.store a l).ticks = s.ticks := rfl
@[simp] theorem State.store_now (s : State) (a : Nat) (l : List Byte) : (s.store a l).now = s.now := rfl

@[simp] theorem State.bump_strands (s : State) : (s.bump).strands = s.strands := rfl
@[simp] theorem State.bump_cores (s : State) : (s.bump).cores = s.cores := rfl
@[simp] theorem State.bump_quires (s : State) : (s.bump).quires = s.quires := rfl
@[simp] theorem State.bump_dies (s : State) : (s.bump).dies = s.dies := rfl
@[simp] theorem State.bump_mem (s : State) : (s.bump).mem = s.mem := rfl
@[simp] theorem State.bump_tags (s : State) : (s.bump).tags = s.tags := rfl
@[simp] theorem State.bump_remotes (s : State) : (s.bump).remotes = s.remotes := rfl
@[simp] theorem State.bump_msgs (s : State) : (s.bump).msgs = s.msgs := rfl
@[simp] theorem State.bump_migrations (s : State) : (s.bump).migrations = s.migrations := rfl
@[simp] theorem State.bump_ports (s : State) : (s.bump).ports = s.ports := rfl
@[simp] theorem State.bump_bindery (s : State) : (s.bump).bindery = s.bindery := rfl
@[simp] theorem State.bump_colophon (s : State) : (s.bump).colophon = s.colophon := rfl
@[simp] theorem State.bump_power (s : State) : (s.bump).power = s.power := rfl
@[simp] theorem State.bump_collected (s : State) : (s.bump).collected = s.collected := rfl
@[simp] theorem State.bump_cur (s : State) : (s.bump).cur = s.cur := rfl
@[simp] theorem State.bump_park (s : State) : (s.bump).park = s.park := rfl
@[simp] theorem State.bump_arg (s : State) : (s.bump).arg = s.arg := rfl
@[simp] theorem State.bump_turns (s : State) : (s.bump).turns = s.turns := rfl
@[simp] theorem State.bump_ticks (s : State) : (s.bump).ticks = s.ticks := rfl
@[simp] theorem State.bump_now (s : State) : (s.bump).now = s.now := rfl

/-- A strand reads as it was last written. -/
@[simp] theorem State.strand_setStrand_self (s : State) (k : Nat) (x : Strand) : (s.setStrand k x).strand k = x := by
  simp [State.strand, State.setStrand]
/-- Another strand reads as before. -/
theorem State.strand_setStrand_ne (s : State) {j k : Nat} (h : j ≠ k) (x : Strand) : (s.setStrand k x).strand j = s.strand j := by
  simp [State.strand, State.setStrand, mapGet_mapSet_ne _ _ h]
/-- A changed strand reads as changed. -/
@[simp] theorem State.strand_onStrand_self (s : State) (k : Nat) (f : Strand → Strand) : (s.onStrand k f).strand k = f (s.strand k) := by
  simp [State.onStrand]
/-- A change leaves every other strand. -/
theorem State.strand_onStrand_ne (s : State) {j k : Nat} (h : j ≠ k) (f : Strand → Strand) : (s.onStrand k f).strand j = s.strand j := by
  simp [State.onStrand, State.strand_setStrand_ne s h]

/-- A core reads as it was last written. -/
@[simp] theorem State.core_setCore_self (s : State) (k : Nat) (x : Core) : (s.setCore k x).core k = x := by
  simp [State.core, State.setCore]
/-- Another core reads as before. -/
theorem State.core_setCore_ne (s : State) {j k : Nat} (h : j ≠ k) (x : Core) : (s.setCore k x).core j = s.core j := by
  simp [State.core, State.setCore, mapGet_mapSet_ne _ _ h]
/-- A changed core reads as changed. -/
@[simp] theorem State.core_onCore_self (s : State) (k : Nat) (f : Core → Core) : (s.onCore k f).core k = f (s.core k) := by
  simp [State.onCore]
/-- A change leaves every other core. -/
theorem State.core_onCore_ne (s : State) {j k : Nat} (h : j ≠ k) (f : Core → Core) : (s.onCore k f).core j = s.core j := by
  simp [State.onCore, State.core_setCore_ne s h]

/-- A quire reads as it was last written. -/
@[simp] theorem State.quire_setQuire_self (s : State) (k : Nat) (x : Quire) : (s.setQuire k x).quire k = x := by
  simp [State.quire, State.setQuire]
/-- Another quire reads as before. -/
theorem State.quire_setQuire_ne (s : State) {j k : Nat} (h : j ≠ k) (x : Quire) : (s.setQuire k x).quire j = s.quire j := by
  simp [State.quire, State.setQuire, mapGet_mapSet_ne _ _ h]
/-- A changed quire reads as changed. -/
@[simp] theorem State.quire_onQuire_self (s : State) (k : Nat) (f : Quire → Quire) : (s.onQuire k f).quire k = f (s.quire k) := by
  simp [State.onQuire]
/-- A change leaves every other quire. -/
theorem State.quire_onQuire_ne (s : State) {j k : Nat} (h : j ≠ k) (f : Quire → Quire) : (s.onQuire k f).quire j = s.quire j := by
  simp [State.onQuire, State.quire_setQuire_ne s h]

/-- A die reads as it was last written. -/
@[simp] theorem State.die_setDie_self (s : State) (k : Nat) (x : Die) : (s.setDie k x).die k = x := by
  simp [State.die, State.setDie]
/-- Another die reads as before. -/
theorem State.die_setDie_ne (s : State) {j k : Nat} (h : j ≠ k) (x : Die) : (s.setDie k x).die j = s.die j := by
  simp [State.die, State.setDie, mapGet_mapSet_ne _ _ h]
/-- A changed die reads as changed. -/
@[simp] theorem State.die_onDie_self (s : State) (k : Nat) (f : Die → Die) : (s.onDie k f).die k = f (s.die k) := by
  simp [State.onDie]
/-- A change leaves every other die. -/
theorem State.die_onDie_ne (s : State) {j k : Nat} (h : j ≠ k) (f : Die → Die) : (s.onDie k f).die j = s.die j := by
  simp [State.onDie, State.die_setDie_ne s h]

/-- The registers of the strand changed. -/
@[simp] theorem State.arch_onArch_self (s : State) (k : Nat) (f : Arch → Arch) : (s.onArch k f).arch k = f (s.arch k) := by
  simp [State.arch, State.onArch]
/-- The registers of every other strand. -/
theorem State.arch_onArch_ne (s : State) {j k : Nat} (h : j ≠ k) (f : Arch → Arch) : (s.onArch k f).arch j = s.arch j := by
  simp [State.arch, State.onArch, State.strand_onStrand_ne s h]
/-- The strand whose registers are changed. -/
@[simp] theorem State.strand_onArch_self (s : State) (k : Nat) (f : Arch → Arch) :
    (s.onArch k f).strand k = { s.strand k with arch := f (s.strand k).arch } := by
  simp [State.onArch]

@[simp] theorem State.core_setStrand (s : State) (k : Nat) (x : Strand) (j : Nat) : (s.setStrand k x).core j = s.core j := rfl
@[simp] theorem State.quire_setStrand (s : State) (k : Nat) (x : Strand) (j : Nat) : (s.setStrand k x).quire j = s.quire j := rfl
@[simp] theorem State.die_setStrand (s : State) (k : Nat) (x : Strand) (j : Nat) : (s.setStrand k x).die j = s.die j := rfl

@[simp] theorem State.strand_setCore (s : State) (k : Nat) (x : Core) (j : Nat) : (s.setCore k x).strand j = s.strand j := rfl
@[simp] theorem State.quire_setCore (s : State) (k : Nat) (x : Core) (j : Nat) : (s.setCore k x).quire j = s.quire j := rfl
@[simp] theorem State.die_setCore (s : State) (k : Nat) (x : Core) (j : Nat) : (s.setCore k x).die j = s.die j := rfl
@[simp] theorem State.arch_setCore (s : State) (k : Nat) (x : Core) (j : Nat) : (s.setCore k x).arch j = s.arch j := rfl

@[simp] theorem State.strand_setQuire (s : State) (k : Nat) (x : Quire) (j : Nat) : (s.setQuire k x).strand j = s.strand j := rfl
@[simp] theorem State.core_setQuire (s : State) (k : Nat) (x : Quire) (j : Nat) : (s.setQuire k x).core j = s.core j := rfl
@[simp] theorem State.die_setQuire (s : State) (k : Nat) (x : Quire) (j : Nat) : (s.setQuire k x).die j = s.die j := rfl
@[simp] theorem State.arch_setQuire (s : State) (k : Nat) (x : Quire) (j : Nat) : (s.setQuire k x).arch j = s.arch j := rfl

@[simp] theorem State.strand_setDie (s : State) (k : Nat) (x : Die) (j : Nat) : (s.setDie k x).strand j = s.strand j := rfl
@[simp] theorem State.core_setDie (s : State) (k : Nat) (x : Die) (j : Nat) : (s.setDie k x).core j = s.core j := rfl
@[simp] theorem State.quire_setDie (s : State) (k : Nat) (x : Die) (j : Nat) : (s.setDie k x).quire j = s.quire j := rfl
@[simp] theorem State.arch_setDie (s : State) (k : Nat) (x : Die) (j : Nat) : (s.setDie k x).arch j = s.arch j := rfl

@[simp] theorem State.core_onStrand (s : State) (k : Nat) (f : Strand → Strand) (j : Nat) : (s.onStrand k f).core j = s.core j := rfl
@[simp] theorem State.quire_onStrand (s : State) (k : Nat) (f : Strand → Strand) (j : Nat) : (s.onStrand k f).quire j = s.quire j := rfl
@[simp] theorem State.die_onStrand (s : State) (k : Nat) (f : Strand → Strand) (j : Nat) : (s.onStrand k f).die j = s.die j := rfl

@[simp] theorem State.strand_onCore (s : State) (k : Nat) (f : Core → Core) (j : Nat) : (s.onCore k f).strand j = s.strand j := rfl
@[simp] theorem State.quire_onCore (s : State) (k : Nat) (f : Core → Core) (j : Nat) : (s.onCore k f).quire j = s.quire j := rfl
@[simp] theorem State.die_onCore (s : State) (k : Nat) (f : Core → Core) (j : Nat) : (s.onCore k f).die j = s.die j := rfl
@[simp] theorem State.arch_onCore (s : State) (k : Nat) (f : Core → Core) (j : Nat) : (s.onCore k f).arch j = s.arch j := rfl

@[simp] theorem State.strand_onQuire (s : State) (k : Nat) (f : Quire → Quire) (j : Nat) : (s.onQuire k f).strand j = s.strand j := rfl
@[simp] theorem State.core_onQuire (s : State) (k : Nat) (f : Quire → Quire) (j : Nat) : (s.onQuire k f).core j = s.core j := rfl
@[simp] theorem State.die_onQuire (s : State) (k : Nat) (f : Quire → Quire) (j : Nat) : (s.onQuire k f).die j = s.die j := rfl
@[simp] theorem State.arch_onQuire (s : State) (k : Nat) (f : Quire → Quire) (j : Nat) : (s.onQuire k f).arch j = s.arch j := rfl

@[simp] theorem State.strand_onDie (s : State) (k : Nat) (f : Die → Die) (j : Nat) : (s.onDie k f).strand j = s.strand j := rfl
@[simp] theorem State.core_onDie (s : State) (k : Nat) (f : Die → Die) (j : Nat) : (s.onDie k f).core j = s.core j := rfl
@[simp] theorem State.quire_onDie (s : State) (k : Nat) (f : Die → Die) (j : Nat) : (s.onDie k f).quire j = s.quire j := rfl
@[simp] theorem State.arch_onDie (s : State) (k : Nat) (f : Die → Die) (j : Nat) : (s.onDie k f).arch j = s.arch j := rfl

@[simp] theorem State.core_onArch (s : State) (k : Nat) (f : Arch → Arch) (j : Nat) : (s.onArch k f).core j = s.core j := rfl
@[simp] theorem State.quire_onArch (s : State) (k : Nat) (f : Arch → Arch) (j : Nat) : (s.onArch k f).quire j = s.quire j := rfl
@[simp] theorem State.die_onArch (s : State) (k : Nat) (f : Arch → Arch) (j : Nat) : (s.onArch k f).die j = s.die j := rfl

@[simp] theorem State.strand_onBindery (s : State) (f : Bindery → Bindery) (j : Nat) : (s.onBindery f).strand j = s.strand j := rfl
@[simp] theorem State.core_onBindery (s : State) (f : Bindery → Bindery) (j : Nat) : (s.onBindery f).core j = s.core j := rfl
@[simp] theorem State.quire_onBindery (s : State) (f : Bindery → Bindery) (j : Nat) : (s.onBindery f).quire j = s.quire j := rfl
@[simp] theorem State.die_onBindery (s : State) (f : Bindery → Bindery) (j : Nat) : (s.onBindery f).die j = s.die j := rfl
@[simp] theorem State.arch_onBindery (s : State) (f : Bindery → Bindery) (j : Nat) : (s.onBindery f).arch j = s.arch j := rfl

@[simp] theorem State.strand_writeSector (s : State) (a : Nat) (d b : BitVec 128) (t : Bool) (j : Nat) : (s.writeSector a d b t).strand j = s.strand j := rfl
@[simp] theorem State.core_writeSector (s : State) (a : Nat) (d b : BitVec 128) (t : Bool) (j : Nat) : (s.writeSector a d b t).core j = s.core j := rfl
@[simp] theorem State.quire_writeSector (s : State) (a : Nat) (d b : BitVec 128) (t : Bool) (j : Nat) : (s.writeSector a d b t).quire j = s.quire j := rfl
@[simp] theorem State.die_writeSector (s : State) (a : Nat) (d b : BitVec 128) (t : Bool) (j : Nat) : (s.writeSector a d b t).die j = s.die j := rfl
@[simp] theorem State.arch_writeSector (s : State) (a : Nat) (d b : BitVec 128) (t : Bool) (j : Nat) : (s.writeSector a d b t).arch j = s.arch j := rfl

@[simp] theorem State.strand_store (s : State) (a : Nat) (l : List Byte) (j : Nat) : (s.store a l).strand j = s.strand j := rfl
@[simp] theorem State.core_store (s : State) (a : Nat) (l : List Byte) (j : Nat) : (s.store a l).core j = s.core j := rfl
@[simp] theorem State.quire_store (s : State) (a : Nat) (l : List Byte) (j : Nat) : (s.store a l).quire j = s.quire j := rfl
@[simp] theorem State.die_store (s : State) (a : Nat) (l : List Byte) (j : Nat) : (s.store a l).die j = s.die j := rfl
@[simp] theorem State.arch_store (s : State) (a : Nat) (l : List Byte) (j : Nat) : (s.store a l).arch j = s.arch j := rfl

@[simp] theorem State.strand_bump (s : State) (j : Nat) : (s.bump).strand j = s.strand j := rfl
@[simp] theorem State.core_bump (s : State) (j : Nat) : (s.bump).core j = s.core j := rfl
@[simp] theorem State.quire_bump (s : State) (j : Nat) : (s.bump).quire j = s.quire j := rfl
@[simp] theorem State.die_bump (s : State) (j : Nat) : (s.bump).die j = s.die j := rfl
@[simp] theorem State.arch_bump (s : State) (j : Nat) : (s.bump).arch j = s.arch j := rfl

/-! ## Registers -/

/-- g0 reads as null (03 R59). -/
@[simp] theorem Arch.readG_zero (a : Arch) : a.readG 0#6 = .null := by simp [Arch.readG]

/-- A write of g0 is ignored (03 R59). -/
@[simp] theorem Arch.writeG_zero (a : Arch) (x : Reg) : a.writeG 0#6 x = a := by simp [Arch.writeG]

/-- A register other than g0 reads as it was last written, in either mode. -/
theorem Arch.readG_writeG_self (a : Arch) {n : BitVec 6} (h : n ≠ 0) (x : Reg) : (a.writeG n x).readG n = x := by
  unfold Arch.writeG
  rw [if_neg h]
  split
  · rename_i hs
    unfold Arch.readG
    rw [if_neg h, dif_pos hs]
    simp
  · rename_i hs
    unfold Arch.readG
    rw [if_neg h, dif_neg hs]
    simp

/-- Another register reads as before. -/
theorem Arch.readG_writeG_ne (a : Arch) {m n : BitVec 6} (h : m ≠ n) (x : Reg) : (a.writeG n x).readG m = a.readG m := by
  have hv : m.toNat ≠ n.toNat := fun e => h (BitVec.eq_of_toNat_eq e)
  unfold Arch.writeG
  split
  · rfl
  · split
    · rename_i hs
      by_cases hm : m = 0
      · subst hm
        simp
      · unfold Arch.readG
        rw [if_neg hm, if_neg hm]
        by_cases h60 : 60 ≤ m.toNat
        · rw [dif_pos ⟨hs.1, h60⟩, dif_pos ⟨hs.1, h60⟩]
          have hb : n.toNat - 60 < 4 := by have := n.isLt; omega
          exact Vector.getElem_set_ne hb _ (by omega)
        · rw [dif_neg (fun e => h60 e.2), dif_neg (fun e => h60 e.2)]
    · rename_i hs
      by_cases hm : m = 0
      · subst hm
        simp
      · unfold Arch.readG
        rw [if_neg hm, if_neg hm]
        by_cases h60 : a.smode = true ∧ 60 ≤ m.toNat
        · rw [dif_pos h60, dif_pos h60]
        · rw [dif_neg h60, dif_neg h60]
          have hb : n.toNat < 64 := n.isLt
          exact Vector.getElem_set_ne hb _ (Ne.symm hv)

/-- A v-register reads as it was last written. -/
@[simp] theorem Arch.readV_writeV_self (a : Arch) (n : BitVec 5) (x : BitVec 2048) : (a.writeV n x).readV n = x := by
  simp [Arch.readV, Arch.writeV]

/-- Another v-register reads as before. -/
theorem Arch.readV_writeV_ne (a : Arch) {m n : BitVec 5} (h : m ≠ n) (x : BitVec 2048) : (a.writeV n x).readV m = a.readV m := by
  have hv : m.toNat ≠ n.toNat := fun e => h (BitVec.eq_of_toNat_eq e)
  simp [Arch.readV, Arch.writeV, Vector.getElem_set_ne _ _ (Ne.symm hv)]

@[simp] theorem Arch.writeG_v (a : Arch) (n : BitVec 6) (x : Reg) : (a.writeG n x).v = a.v := by
  unfold Arch.writeG; repeat' split
  all_goals rfl
@[simp] theorem Arch.writeG_pcc (a : Arch) (n : BitVec 6) (x : Reg) : (a.writeG n x).pcc = a.pcc := by
  unfold Arch.writeG; repeat' split
  all_goals rfl
@[simp] theorem Arch.writeG_frame (a : Arch) (n : BitVec 6) (x : Reg) : (a.writeG n x).frame = a.frame := by
  unfold Arch.writeG; repeat' split
  all_goals rfl
@[simp] theorem Arch.writeG_fbuf (a : Arch) (n : BitVec 6) (x : Reg) : (a.writeG n x).fbuf = a.fbuf := by
  unfold Arch.writeG; repeat' split
  all_goals rfl
@[simp] theorem Arch.writeG_smode (a : Arch) (n : BitVec 6) (x : Reg) : (a.writeG n x).smode = a.smode := by
  unfold Arch.writeG; repeat' split
  all_goals rfl
@[simp] theorem Arch.writeG_hf (a : Arch) (n : BitVec 6) (x : Reg) : (a.writeG n x).hf = a.hf := by
  unfold Arch.writeG; repeat' split
  all_goals rfl
@[simp] theorem Arch.writeG_uset (a : Arch) (n : BitVec 6) (x : Reg) : (a.writeG n x).uset = a.uset := by
  unfold Arch.writeG; repeat' split
  all_goals rfl
@[simp] theorem Arch.writeG_sset (a : Arch) (n : BitVec 6) (x : Reg) : (a.writeG n x).sset = a.sset := by
  unfold Arch.writeG; repeat' split
  all_goals rfl
@[simp] theorem Arch.writeG_frm (a : Arch) (n : BitVec 6) (x : Reg) : (a.writeG n x).frm = a.frm := by
  unfold Arch.writeG; repeat' split
  all_goals rfl
@[simp] theorem Arch.writeG_fflags (a : Arch) (n : BitVec 6) (x : Reg) : (a.writeG n x).fflags = a.fflags := by
  unfold Arch.writeG; repeat' split
  all_goals rfl
@[simp] theorem Arch.writeG_srseed (a : Arch) (n : BitVec 6) (x : Reg) : (a.writeG n x).srseed = a.srseed := by
  unfold Arch.writeG; repeat' split
  all_goals rfl
@[simp] theorem Arch.writeG_sclbase (a : Arch) (n : BitVec 6) (x : Reg) : (a.writeG n x).sclbase = a.sclbase := by
  unfold Arch.writeG; repeat' split
  all_goals rfl
@[simp] theorem Arch.writeG_tvec (a : Arch) (n : BitVec 6) (x : Reg) : (a.writeG n x).tvec = a.tvec := by
  unfold Arch.writeG; repeat' split
  all_goals rfl
@[simp] theorem Arch.writeG_cpstk (a : Arch) (n : BitVec 6) (x : Reg) : (a.writeG n x).cpstk = a.cpstk := by
  unfold Arch.writeG; repeat' split
  all_goals rfl
@[simp] theorem Arch.writeG_trail (a : Arch) (n : BitVec 6) (x : Reg) : (a.writeG n x).trail = a.trail := by
  unfold Arch.writeG; repeat' split
  all_goals rfl
@[simp] theorem Arch.writeG_cpdepth (a : Arch) (n : BitVec 6) (x : Reg) : (a.writeG n x).cpdepth = a.cpdepth := by
  unfold Arch.writeG; repeat' split
  all_goals rfl
@[simp] theorem Arch.writeG_twmax (a : Arch) (n : BitVec 6) (x : Reg) : (a.writeG n x).twmax = a.twmax := by
  unfold Arch.writeG; repeat' split
  all_goals rfl
@[simp] theorem Arch.writeG_evcnt (a : Arch) (n : BitVec 6) (x : Reg) : (a.writeG n x).evcnt = a.evcnt := by
  unfold Arch.writeG; repeat' split
  all_goals rfl
@[simp] theorem Arch.writeG_svec (a : Arch) (n : BitVec 6) (x : Reg) : (a.writeG n x).svec = a.svec := by
  unfold Arch.writeG; repeat' split
  all_goals rfl
@[simp] theorem Arch.writeG_sscratch (a : Arch) (n : BitVec 6) (x : Reg) : (a.writeG n x).sscratch = a.sscratch := by
  unfold Arch.writeG; repeat' split
  all_goals rfl
@[simp] theorem Arch.writeG_dbg (a : Arch) (n : BitVec 6) (x : Reg) : (a.writeG n x).dbg = a.dbg := by
  unfold Arch.writeG; repeat' split
  all_goals rfl
@[simp] theorem Arch.writeG_stage (a : Arch) (n : BitVec 6) (x : Reg) : (a.writeG n x).stage = a.stage := by
  unfold Arch.writeG; repeat' split
  all_goals rfl
@[simp] theorem Arch.writeG_gang (a : Arch) (n : BitVec 6) (x : Reg) : (a.writeG n x).gang = a.gang := by
  unfold Arch.writeG; repeat' split
  all_goals rfl
@[simp] theorem Arch.writeG_popped (a : Arch) (n : BitVec 6) (x : Reg) : (a.writeG n x).popped = a.popped := by
  unfold Arch.writeG; repeat' split
  all_goals rfl
@[simp] theorem Arch.writeG_ovfClear (a : Arch) (n : BitVec 6) (x : Reg) : (a.writeG n x).ovfClear = a.ovfClear := by
  unfold Arch.writeG; repeat' split
  all_goals rfl

@[simp] theorem Arch.writeV_g (a : Arch) (n : BitVec 5) (x : BitVec 2048) : (a.writeV n x).g = a.g := rfl
@[simp] theorem Arch.writeV_sbank (a : Arch) (n : BitVec 5) (x : BitVec 2048) : (a.writeV n x).sbank = a.sbank := rfl
@[simp] theorem Arch.writeV_pcc (a : Arch) (n : BitVec 5) (x : BitVec 2048) : (a.writeV n x).pcc = a.pcc := rfl
@[simp] theorem Arch.writeV_frame (a : Arch) (n : BitVec 5) (x : BitVec 2048) : (a.writeV n x).frame = a.frame := rfl
@[simp] theorem Arch.writeV_fbuf (a : Arch) (n : BitVec 5) (x : BitVec 2048) : (a.writeV n x).fbuf = a.fbuf := rfl
@[simp] theorem Arch.writeV_smode (a : Arch) (n : BitVec 5) (x : BitVec 2048) : (a.writeV n x).smode = a.smode := rfl
@[simp] theorem Arch.writeV_hf (a : Arch) (n : BitVec 5) (x : BitVec 2048) : (a.writeV n x).hf = a.hf := rfl
@[simp] theorem Arch.writeV_uset (a : Arch) (n : BitVec 5) (x : BitVec 2048) : (a.writeV n x).uset = a.uset := rfl
@[simp] theorem Arch.writeV_sset (a : Arch) (n : BitVec 5) (x : BitVec 2048) : (a.writeV n x).sset = a.sset := rfl
@[simp] theorem Arch.writeV_frm (a : Arch) (n : BitVec 5) (x : BitVec 2048) : (a.writeV n x).frm = a.frm := rfl
@[simp] theorem Arch.writeV_fflags (a : Arch) (n : BitVec 5) (x : BitVec 2048) : (a.writeV n x).fflags = a.fflags := rfl
@[simp] theorem Arch.writeV_srseed (a : Arch) (n : BitVec 5) (x : BitVec 2048) : (a.writeV n x).srseed = a.srseed := rfl
@[simp] theorem Arch.writeV_sclbase (a : Arch) (n : BitVec 5) (x : BitVec 2048) : (a.writeV n x).sclbase = a.sclbase := rfl
@[simp] theorem Arch.writeV_tvec (a : Arch) (n : BitVec 5) (x : BitVec 2048) : (a.writeV n x).tvec = a.tvec := rfl
@[simp] theorem Arch.writeV_cpstk (a : Arch) (n : BitVec 5) (x : BitVec 2048) : (a.writeV n x).cpstk = a.cpstk := rfl
@[simp] theorem Arch.writeV_trail (a : Arch) (n : BitVec 5) (x : BitVec 2048) : (a.writeV n x).trail = a.trail := rfl
@[simp] theorem Arch.writeV_cpdepth (a : Arch) (n : BitVec 5) (x : BitVec 2048) : (a.writeV n x).cpdepth = a.cpdepth := rfl
@[simp] theorem Arch.writeV_twmax (a : Arch) (n : BitVec 5) (x : BitVec 2048) : (a.writeV n x).twmax = a.twmax := rfl
@[simp] theorem Arch.writeV_evcnt (a : Arch) (n : BitVec 5) (x : BitVec 2048) : (a.writeV n x).evcnt = a.evcnt := rfl
@[simp] theorem Arch.writeV_svec (a : Arch) (n : BitVec 5) (x : BitVec 2048) : (a.writeV n x).svec = a.svec := rfl
@[simp] theorem Arch.writeV_sscratch (a : Arch) (n : BitVec 5) (x : BitVec 2048) : (a.writeV n x).sscratch = a.sscratch := rfl
@[simp] theorem Arch.writeV_dbg (a : Arch) (n : BitVec 5) (x : BitVec 2048) : (a.writeV n x).dbg = a.dbg := rfl
@[simp] theorem Arch.writeV_stage (a : Arch) (n : BitVec 5) (x : BitVec 2048) : (a.writeV n x).stage = a.stage := rfl
@[simp] theorem Arch.writeV_gang (a : Arch) (n : BitVec 5) (x : BitVec 2048) : (a.writeV n x).gang = a.gang := rfl
@[simp] theorem Arch.writeV_popped (a : Arch) (n : BitVec 5) (x : BitVec 2048) : (a.writeV n x).popped = a.popped := rfl
@[simp] theorem Arch.writeV_ovfClear (a : Arch) (n : BitVec 5) (x : BitVec 2048) : (a.writeV n x).ovfClear = a.ovfClear := rfl

@[simp] theorem Arch.advance_g (a : Arch) : a.advance.g = a.g := by
  unfold Arch.advance; repeat' split
  all_goals rfl
@[simp] theorem Arch.advance_sbank (a : Arch) : a.advance.sbank = a.sbank := by
  unfold Arch.advance; repeat' split
  all_goals rfl
@[simp] theorem Arch.advance_v (a : Arch) : a.advance.v = a.v := by
  unfold Arch.advance; repeat' split
  all_goals rfl
@[simp] theorem Arch.advance_fbuf (a : Arch) : a.advance.fbuf = a.fbuf := by
  unfold Arch.advance; repeat' split
  all_goals rfl
@[simp] theorem Arch.advance_smode (a : Arch) : a.advance.smode = a.smode := by
  unfold Arch.advance; repeat' split
  all_goals rfl
@[simp] theorem Arch.advance_hf (a : Arch) : a.advance.hf = a.hf := by
  unfold Arch.advance; repeat' split
  all_goals rfl
@[simp] theorem Arch.advance_uset (a : Arch) : a.advance.uset = a.uset := by
  unfold Arch.advance; repeat' split
  all_goals rfl
@[simp] theorem Arch.advance_sset (a : Arch) : a.advance.sset = a.sset := by
  unfold Arch.advance; repeat' split
  all_goals rfl
@[simp] theorem Arch.advance_frm (a : Arch) : a.advance.frm = a.frm := by
  unfold Arch.advance; repeat' split
  all_goals rfl
@[simp] theorem Arch.advance_fflags (a : Arch) : a.advance.fflags = a.fflags := by
  unfold Arch.advance; repeat' split
  all_goals rfl
@[simp] theorem Arch.advance_srseed (a : Arch) : a.advance.srseed = a.srseed := by
  unfold Arch.advance; repeat' split
  all_goals rfl
@[simp] theorem Arch.advance_sclbase (a : Arch) : a.advance.sclbase = a.sclbase := by
  unfold Arch.advance; repeat' split
  all_goals rfl
@[simp] theorem Arch.advance_tvec (a : Arch) : a.advance.tvec = a.tvec := by
  unfold Arch.advance; repeat' split
  all_goals rfl
@[simp] theorem Arch.advance_cpstk (a : Arch) : a.advance.cpstk = a.cpstk := by
  unfold Arch.advance; repeat' split
  all_goals rfl
@[simp] theorem Arch.advance_trail (a : Arch) : a.advance.trail = a.trail := by
  unfold Arch.advance; repeat' split
  all_goals rfl
@[simp] theorem Arch.advance_cpdepth (a : Arch) : a.advance.cpdepth = a.cpdepth := by
  unfold Arch.advance; repeat' split
  all_goals rfl
@[simp] theorem Arch.advance_twmax (a : Arch) : a.advance.twmax = a.twmax := by
  unfold Arch.advance; repeat' split
  all_goals rfl
@[simp] theorem Arch.advance_evcnt (a : Arch) : a.advance.evcnt = a.evcnt := by
  unfold Arch.advance; repeat' split
  all_goals rfl
@[simp] theorem Arch.advance_svec (a : Arch) : a.advance.svec = a.svec := by
  unfold Arch.advance; repeat' split
  all_goals rfl
@[simp] theorem Arch.advance_sscratch (a : Arch) : a.advance.sscratch = a.sscratch := by
  unfold Arch.advance; repeat' split
  all_goals rfl
@[simp] theorem Arch.advance_dbg (a : Arch) : a.advance.dbg = a.dbg := by
  unfold Arch.advance; repeat' split
  all_goals rfl
@[simp] theorem Arch.advance_stage (a : Arch) : a.advance.stage = a.stage := by
  unfold Arch.advance; repeat' split
  all_goals rfl
@[simp] theorem Arch.advance_gang (a : Arch) : a.advance.gang = a.gang := by
  unfold Arch.advance; repeat' split
  all_goals rfl
@[simp] theorem Arch.advance_popped (a : Arch) : a.advance.popped = a.popped := by
  unfold Arch.advance; repeat' split
  all_goals rfl
@[simp] theorem Arch.advance_ovfClear (a : Arch) : a.advance.ovfClear = a.ovfClear := by
  unfold Arch.advance; repeat' split
  all_goals rfl

end Sys2Proof.Machine
end

