-- ==== Sys2Proof/Laws/Memory.lean ====
section
/-! SUPPORT. Memory and tags: a read after a write, and that every operation keeps the canonical form. -/

namespace Sys2Proof.Machine

open Sys2Proof

/-! ## Bytes -/

theorem mapGet_filter {α : Type} (d : α) (a k : Nat) (m : List (Nat × α)) :
    mapGet d k (m.filter fun c => c.1 != a) = if k = a then d else mapGet d k m := by
  induction m with
  | nil => simp [mapGet]
  | cons c m ih =>
    obtain ⟨j, x⟩ := c
    by_cases hj : j = a
    · subst hj
      simp only [List.filter_cons, bne_self_eq_false, Bool.false_eq_true, if_false, ih, mapGet]
      by_cases hk : k = j
      · simp [hk]
      · simp [hk, Ne.symm hk]
    · have : (j != a) = true := by simpa using hj
      simp only [List.filter_cons, this, if_true, mapGet, ih]
      by_cases hk : j = k
      · subst hk; simp [hj]
      · simp [hk]

/-- A byte read after a byte is written. -/
theorem readByte_writeByte (m : List Host.Cell) (a x : Nat) (b : Byte) :
    readByte (writeByte m a b) x = if x = a then b else readByte m x := by
  unfold readByte writeByte
  split
  · rename_i h
    rw [mapGet_filter, h]
  · by_cases h : x = a
    · subst h; simp
    · rw [if_neg h]; exact mapGet_mapSet_ne _ _ h _

theorem cellsRise_mono {lo hi : Nat} {m : List Host.Cell} (h : lo ≤ hi) (hm : cellsRise hi m = true) : cellsRise lo m = true := by
  cases m with
  | nil => rfl
  | cons c m =>
    obtain ⟨a, b⟩ := c
    simp only [cellsRise, Bool.and_eq_true, decide_eq_true_eq] at hm ⊢
    exact ⟨⟨by omega, hm.1.2⟩, hm.2⟩

theorem cellsRise_filter {lo : Nat} {m : List Host.Cell} (f : Host.Cell → Bool) (hm : cellsRise lo m = true) :
    cellsRise lo (m.filter f) = true := by
  induction m generalizing lo with
  | nil => rfl
  | cons c m ih =>
    obtain ⟨a, b⟩ := c
    simp only [cellsRise, Bool.and_eq_true, decide_eq_true_eq] at hm
    have h := ih hm.2
    simp only [List.filter_cons]
    split
    · simp only [cellsRise, Bool.and_eq_true, decide_eq_true_eq]
      exact ⟨hm.1, h⟩
    · exact cellsRise_mono (by omega) h

theorem cellsRise_mapSet {lo a : Nat} {b : Byte} {m : List Host.Cell} (ha : lo ≤ a) (hb : b ≠ blankByte)
    (hm : cellsRise lo m = true) : cellsRise lo (mapSet a b m) = true := by
  induction m generalizing lo with
  | nil => simp [mapSet, cellsRise, ha, hb]
  | cons c m ih =>
    obtain ⟨j, y⟩ := c
    simp only [cellsRise, Bool.and_eq_true, decide_eq_true_eq] at hm
    simp only [mapSet]
    split
    · simp only [cellsRise, Bool.and_eq_true, decide_eq_true_eq]
      exact ⟨⟨ha, by simpa using hb⟩, ⟨by omega, hm.1.2⟩, hm.2⟩
    · split
      · rename_i h1 h2
        subst h2
        simp only [cellsRise, Bool.and_eq_true, decide_eq_true_eq]
        exact ⟨⟨ha, by simpa using hb⟩, hm.2⟩
      · simp only [cellsRise, Bool.and_eq_true, decide_eq_true_eq]
        exact ⟨hm.1, ih (by omega) hm.2⟩

/-- Writing a byte keeps the canonical form. -/
theorem writeByte_wf {m : List Host.Cell} (a : Nat) (b : Byte) (h : Memory.wf m = true) : Memory.wf (writeByte m a b) = true := by
  unfold writeByte
  split
  · exact cellsRise_filter _ h
  · rename_i hb
    exact cellsRise_mapSet (Nat.zero_le a) hb h

theorem writeNat_wf {m : List Host.Cell} (a n v : Nat) (h : Memory.wf m = true) : Memory.wf (writeNat m a n v) = true := by
  induction n generalizing m a v with
  | zero => exact h
  | succ n ih => exact ih _ _ (writeByte_wf _ _ h)

theorem writeBytes_wf {m : List Host.Cell} (a : Nat) (bs : List Byte) (h : Memory.wf m = true) :
    Memory.wf (writeBytes m a bs) = true := by
  induction bs generalizing m a with
  | nil => exact h
  | cons b bs ih => exact ih _ (writeByte_wf _ _ h)

theorem mergeBytes_wf {m : List Host.Cell} (loc : Nat) (data bits : BitVec 128) (n : Nat) (h : Memory.wf m = true) :
    Memory.wf (mergeBytes m loc data bits n) = true := by
  induction n with
  | zero => exact h
  | succ n ih =>
    simp only [mergeBytes]
    split
    · exact ih
    · exact writeByte_wf _ _ ih

/-- A byte read after a run of bytes is written. -/
theorem readByte_writeBytes (m : List Host.Cell) (a x : Nat) (bs : List Byte) :
    readByte (writeBytes m a bs) x = if a ≤ x ∧ x < a + bs.length then bs.getD (x - a) 0 else readByte m x := by
  induction bs generalizing m a with
  | nil => simp [writeBytes] <;> omega
  | cons b bs ih =>
    simp only [writeBytes, ih, readByte_writeByte, List.length_cons]
    by_cases h : x = a
    · subst h
      have h1 : ¬ (x + 1 ≤ x ∧ x < x + 1 + bs.length) := by omega
      have h2 : x ≤ x ∧ x < x + (bs.length + 1) := by omega
      rw [if_neg h1, if_pos h2]
      simp
    · by_cases h1 : a + 1 ≤ x ∧ x < a + 1 + bs.length
      · have h2 : a ≤ x ∧ x < a + (bs.length + 1) := by omega
        rw [if_pos h1, if_pos h2]
        have : x - a = (x - (a + 1)) + 1 := by omega
        simp [this]
      · have h2 : ¬ (a ≤ x ∧ x < a + (bs.length + 1)) := by omega
        rw [if_neg h1, if_neg h2, if_neg h]

/-- A byte read after the chosen bits of a sector are written. -/
theorem readByte_mergeBytes (m : List Host.Cell) (loc x : Nat) (data bits : BitVec 128) (n : Nat) :
    readByte (mergeBytes m loc data bits n) x =
      if loc ≤ x ∧ x < loc + n then
        (readByte m x &&& ~~~(byteOf bits (x - loc))) ||| (byteOf data (x - loc) &&& byteOf bits (x - loc))
      else readByte m x := by
  induction n with
  | zero => simp [mergeBytes] <;> omega
  | succ n ih =>
    simp only [mergeBytes]
    by_cases hx : x = loc + n
    · subst hx
      have h1 : ¬ (loc ≤ loc + n ∧ loc + n < loc + n) := by omega
      have h2 : loc ≤ loc + n ∧ loc + n < loc + (n + 1) := by omega
      rw [if_pos h2, Nat.add_sub_cancel_left]
      split
      · rename_i h
        rw [ih, if_neg h1, h]
        show _ = (_ &&& BitVec.allOnes 8) ||| (_ &&& 0#8)
        rw [BitVec.and_zero, BitVec.or_zero, BitVec.and_allOnes]
      · rw [readByte_writeByte, if_pos rfl]
    · have h3 : (loc ≤ x ∧ x < loc + (n + 1)) ↔ (loc ≤ x ∧ x < loc + n) := by omega
      simp only [h3]
      split
      · exact ih
      · rw [readByte_writeByte, if_neg hx]
        exact ih

/-! ## Tags -/

theorem mem_insertNat (k x : Nat) (l : List Nat) : x ∈ insertNat k l ↔ x = k ∨ x ∈ l := by
  induction l with
  | nil => simp [insertNat]
  | cons j l ih =>
    simp only [insertNat]
    split
    · simp
    · split
      · rename_i h1 h2
        subst h2
        simp
      · simp only [List.mem_cons, ih]
        constructor
        · rintro (h | h | h) <;> simp [h]
        · rintro (h | h | h) <;> simp [h]

/-- A tag read after a tag is written. -/
theorem tagAt_setTag (ts : List Nat) (k x : Nat) (t : Bool) : tagAt (setTag ts k t) x = if x = k then t else tagAt ts x := by
  unfold tagAt setTag
  cases t
  · by_cases h : x = k
    · subst h; simp
    · simp [h]
  · by_cases h : x = k
    · subst h; simp [mem_insertNat]
    · simp [h, mem_insertNat]

theorem natsRise_mono {lo hi : Nat} {l : List Nat} (h : lo ≤ hi) (hl : natsRise hi l = true) : natsRise lo l = true := by
  cases l with
  | nil => rfl
  | cons a l =>
    simp only [natsRise, Bool.and_eq_true, decide_eq_true_eq] at hl ⊢
    exact ⟨by omega, hl.2⟩

theorem natsRise_filter {lo : Nat} {l : List Nat} (f : Nat → Bool) (hl : natsRise lo l = true) :
    natsRise lo (l.filter f) = true := by
  induction l generalizing lo with
  | nil => rfl
  | cons a l ih =>
    simp only [natsRise, Bool.and_eq_true, decide_eq_true_eq] at hl
    have h := ih hl.2
    simp only [List.filter_cons]
    split
    · simp only [natsRise, Bool.and_eq_true, decide_eq_true_eq]
      exact ⟨hl.1, h⟩
    · exact natsRise_mono (by omega) h

theorem natsRise_insertNat {lo k : Nat} {l : List Nat} (hk : lo ≤ k) (hl : natsRise lo l = true) :
    natsRise lo (insertNat k l) = true := by
  induction l generalizing lo with
  | nil => simp [insertNat, natsRise, hk]
  | cons j l ih =>
    simp only [natsRise, Bool.and_eq_true, decide_eq_true_eq] at hl
    simp only [insertNat]
    split
    · simp only [natsRise, Bool.and_eq_true, decide_eq_true_eq]
      exact ⟨hk, by omega, hl.2⟩
    · split
      · simp only [natsRise, Bool.and_eq_true, decide_eq_true_eq]
        exact hl
      · simp only [natsRise, Bool.and_eq_true, decide_eq_true_eq]
        exact ⟨hl.1, ih (by omega) hl.2⟩

/-- Writing a tag keeps the canonical form. -/
theorem setTag_wf {ts : List Nat} (k : Nat) (t : Bool) (h : Tags.wf ts = true) : Tags.wf (setTag ts k t) = true := by
  unfold setTag
  split
  · exact natsRise_insertNat (Nat.zero_le k) h
  · exact natsRise_filter _ h

theorem mergeTags_wf {ts : List Nat} (loc : Nat) (bits : BitVec 128) (t : Bool) (n : Nat) (h : Tags.wf ts = true) :
    Tags.wf (mergeTags ts loc bits t n) = true := by
  induction n with
  | zero => exact h
  | succ n ih =>
    simp only [mergeTags]
    split
    · exact ih
    · exact setTag_wf _ _ ih

theorem clearTags_wf {ts : List Nat} (loc n : Nat) (h : Tags.wf ts = true) : Tags.wf (clearTags ts loc n) = true := by
  induction n with
  | zero => exact h
  | succ n ih => exact setTag_wf _ _ ih

/-- The tag of a sector after a run of bytes is written over some sectors. -/
theorem tagAt_clearTags (ts : List Nat) (loc n x : Nat) :
    tagAt (clearTags ts loc n) x = (tagAt ts x && !(decide (0 < n) && decide (loc / 16 ≤ x) && decide (x ≤ (loc + n - 1) / 16))) := by
  induction n with
  | zero => simp [clearTags]
  | succ n ih =>
    simp only [clearTags, tagAt_setTag, ih]
    by_cases hx : x = (loc + n) / 16
    · subst hx
      have h1 : loc / 16 ≤ (loc + n) / 16 := Nat.div_le_div_right (by omega)
      have h2 : loc + (n + 1) - 1 = loc + n := by omega
      simp [h1, h2]
    · rw [if_neg hx]
      congr 2
      have h2 : loc + (n + 1) - 1 = loc + n := by omega
      rw [h2]
      by_cases hn : n = 0
      · subst hn
        simp
        omega
      · by_cases h3 : loc / 16 ≤ x
        · have h4 : 0 < n := by omega
          simp only [h3, h4, decide_true, Bool.true_and, Nat.zero_lt_succ, decide_eq_decide]
          omega
        · simp [h3]

/-- The tag of a sector after the chosen bits of 16 bytes from a sector's start are written. -/
theorem tagAt_mergeTags (ts : List Nat) (loc x : Nat) (bits : BitVec 128) (t : Bool) (n : Nat) (hl : loc % 16 = 0) (hn : n ≤ 16) :
    tagAt (mergeTags ts loc bits t n) x =
      if x = loc / 16 ∧ ∃ k, k < n ∧ byteOf bits k ≠ 0 then t else tagAt ts x := by
  induction n with
  | zero => simp [mergeTags]
  | succ n ih =>
    have h16 : (loc + n) / 16 = loc / 16 := by omega
    have ih := ih (by omega)
    simp only [mergeTags]
    split
    · rename_i h0
      rw [ih]
      by_cases hx : x = loc / 16
      · simp only [hx, true_and]
        congr 1
        apply propext
        constructor
        · rintro ⟨k, hk, hb⟩; exact ⟨k, by omega, hb⟩
        · rintro ⟨k, hk, hb⟩
          refine ⟨k, ?_, hb⟩
          rcases Nat.lt_succ_iff_lt_or_eq.mp hk with h | h
          · exact h
          · subst h; exact absurd h0 hb
      · simp [hx]
    · rename_i h0
      rw [tagAt_setTag, h16, ih]
      by_cases hx : x = loc / 16
      · rw [if_pos hx, if_pos ⟨hx, n, by omega, h0⟩]
      · rw [if_neg hx, if_neg (by simp [hx]), if_neg (by simp [hx])]

/-! ## The state -/

@[simp] theorem State.writeSector_mem (s : State) (loc : Nat) (data bits : BitVec 128) (t : Bool) :
    (s.writeSector loc data bits t).mem = mergeBytes s.mem loc data bits 16 := rfl
@[simp] theorem State.writeSector_tags (s : State) (loc : Nat) (data bits : BitVec 128) (t : Bool) :
    (s.writeSector loc data bits t).tags = mergeTags s.tags loc bits t 16 := rfl
@[simp] theorem State.store_mem (s : State) (loc : Nat) (bs : List Byte) : (s.store loc bs).mem = writeBytes s.mem loc bs := rfl
@[simp] theorem State.store_tags (s : State) (loc : Nat) (bs : List Byte) :
    (s.store loc bs).tags = clearTags s.tags loc bs.length := rfl

end Sys2Proof.Machine
end

