-- ==== Sys2Proof/Laws/Bytes.lean ====
section
/-! SUPPORT. Bytes of sectors and of numbers: what a byte of a shifted or masked value is, and what a number reads as after its bytes
are written. -/

namespace Sys2Proof.Machine

open Sys2Proof

/-! ## Bytes of a sector -/

/-- A bit of the mask of the first bytes. -/
theorem bitsFor_bit (n i : Nat) (hi : i < 128) : (bitsFor n).getLsbD i = decide (i < 8 * n) := by
  unfold bitsFor
  rw [BitVec.getLsbD_ofNat, Nat.testBit_two_pow_sub_one]
  simp [hi]

/-- A byte of a shifted mask. -/
theorem byteOf_bitsFor (n m k : Nat) (hn : n + m ≤ 16) (hk : k < 16) : byteOf (bitsFor n <<< (8 * m)) k = if m ≤ k ∧ k < m + n then BitVec.allOnes 8 else 0 := by
  unfold byteOf
  apply BitVec.eq_of_getLsbD_eq
  intro i hi
  rw [BitVec.getLsbD_extractLsb', BitVec.getLsbD_shiftLeft]
  by_cases h : m ≤ k
  · have h1 : ¬ (8 * k + i < 8 * m) := by omega
    have h2 : 8 * k + i < 128 := by omega
    rw [bitsFor_bit _ _ (by omega)]
    simp only [h1, h2, hi, decide_true, decide_false, Bool.not_false, Bool.and_true, Bool.true_and, h, true_and]
    by_cases h3 : k < m + n
    · have : 8 * k + i - 8 * m < 8 * n := by omega
      rw [if_pos h3, BitVec.getLsbD_allOnes]; simp [this, hi]
    · have : ¬ (8 * k + i - 8 * m < 8 * n) := by omega
      simp [h3, this]
  · have h1 : 8 * k + i < 8 * m := by omega
    simp [h, h1]

/-- A byte of a shifted value. -/
theorem byteOf_shift (v : BitVec 128) (m k : Nat) (hk : m + k < 16) : byteOf (v <<< (8 * m)) (m + k) = byteOf v k := by
  unfold byteOf
  apply BitVec.eq_of_getLsbD_eq
  intro i hi
  rw [BitVec.getLsbD_extractLsb', BitVec.getLsbD_shiftLeft, BitVec.getLsbD_extractLsb']
  have h1 : ¬ (8 * (m + k) + i < 8 * m) := by omega
  have h2 : 8 * (m + k) + i < 128 := by omega
  have h3 : 8 * (m + k) + i - 8 * m = 8 * k + i := by omega
  simp [h1, h2, h3]

/-- A byte of a masked value. -/
theorem byteOf_mask (v : BitVec 128) (n k : Nat) (hn : n ≤ 16) (hk : k < n) : byteOf (v &&& bitsFor n) k = byteOf v k := by
  unfold byteOf
  apply BitVec.eq_of_getLsbD_eq
  intro i hi
  simp only [BitVec.getLsbD_extractLsb', BitVec.getLsbD_and]
  rw [bitsFor_bit _ _ (by omega)]
  have : 8 * k + i < 8 * n := by omega
  simp [this]

/-- A byte of a combined value. -/
theorem byteOf_or (x y : BitVec 128) (k : Nat) : byteOf (x ||| y) k = byteOf x k ||| byteOf y k := by
  unfold byteOf
  ext i hi
  simp

/-- A byte of nothing. -/
theorem byteOf_zero (k : Nat) : byteOf 0 k = 0 := by
  unfold byteOf
  ext i hi
  simp

/-- A byte of a shifted value that has only `n` bytes. -/
theorem byteOf_shifted (v n m k : Nat) (hv : v < 256 ^ n) (hk : k < 16) :
    byteOf (BitVec.ofNat 128 v <<< (8 * m)) k =
      if m ≤ k ∧ k < m + n then BitVec.ofNat 8 (v / 256 ^ (k - m)) else 0 := by
  by_cases h : m ≤ k
  · obtain ⟨j, rfl⟩ : ∃ j, k = m + j := ⟨k - m, by omega⟩
    rw [byteOf_shift _ _ _ hk, Nat.add_sub_cancel_left]
    unfold byteOf
    have hp : (256 : Nat) ^ j = 2 ^ (8 * j) := by rw [Nat.pow_mul]
    have hj : j < 16 := by omega
    by_cases h2 : j < n
    · rw [if_pos ⟨by omega, by omega⟩]
      apply BitVec.eq_of_getLsbD_eq
      intro i hi
      rw [BitVec.getLsbD_extractLsb', BitVec.getLsbD_ofNat, BitVec.getLsbD_ofNat, hp, Nat.testBit_div_two_pow]
      have : 8 * j + i < 128 := by omega
      simp only [hi, this, decide_true, Bool.true_and]
      rw [Nat.add_comm]
    · rw [if_neg (by omega)]
      apply BitVec.eq_of_getLsbD_eq
      intro i hi
      rw [BitVec.getLsbD_extractLsb', BitVec.getLsbD_ofNat]
      have hn : v < 2 ^ (8 * j + i) := by
        refine Nat.lt_of_lt_of_le hv ?_
        rw [show (256 : Nat) = 2 ^ 8 by rfl, ← Nat.pow_mul]
        exact Nat.pow_le_pow_right (by omega) (by omega)
      simp [Nat.testBit_lt_two_pow hn]
  · rw [if_neg (by omega)]
    unfold byteOf
    apply BitVec.eq_of_getLsbD_eq
    intro i hi
    rw [BitVec.getLsbD_extractLsb', BitVec.getLsbD_shiftLeft]
    have : 8 * k + i < 8 * m := by omega
    simp [this]

/-! ## Numbers and their bytes -/

/-- A run of bytes makes a number below the power of its length. -/
theorem natOfBytes_lt (l : List Byte) : natOfBytes l < 256 ^ l.length := by
  induction l with
  | nil => simp [natOfBytes]
  | cons b l ih =>
    simp only [natOfBytes, List.length_cons, Nat.pow_succ]
    have := b.isLt
    omega

/-- A field of `n` bytes is below the power of `n`. -/
theorem fieldAt_lt (bs : List Byte) (off n : Nat) : fieldAt bs off n < 256 ^ n := by
  unfold fieldAt
  refine Nat.lt_of_lt_of_le (natOfBytes_lt _) (Nat.pow_le_pow_right (by omega) ?_)
  rw [List.length_take]
  exact Nat.min_le_left _ _

/-- A byte of the number that a run of bytes makes. -/
theorem natOfBytes_get (l : List Byte) (j : Nat) : BitVec.ofNat 8 (natOfBytes l / 256 ^ j) = l.getD j 0 := by
  induction l generalizing j with
  | nil => simp [natOfBytes]
  | cons b l ih =>
    have hb : b.toNat < 256 := b.isLt
    cases j with
    | zero =>
      simp only [natOfBytes, Nat.pow_zero, Nat.div_one, List.getD_cons_zero]
      apply BitVec.eq_of_toNat_eq
      rw [BitVec.toNat_ofNat]
      omega
    | succ j =>
      have : (b.toNat + 256 * natOfBytes l) / 256 = natOfBytes l := by omega
      rw [List.getD_cons_succ, ← ih j, natOfBytes, Nat.pow_succ, Nat.mul_comm (256 ^ j), ← Nat.div_div_eq_div_mul, this]

/-- A number reads the same where its bytes do. -/
theorem readNat_congr (m m' : List Host.Cell) (a n : Nat)
    (h : ∀ j < n, readByte m' (a + j) = readByte m (a + j)) : readNat m' a n = readNat m a n := by
  induction n generalizing a with
  | zero => rfl
  | succ n ih =>
    simp only [readNat]
    rw [show readByte m' a = readByte m a from h 0 (by omega), ih (a + 1) (fun j hj => by have := h (j + 1) (by omega); rw [show a + (j + 1) = a + 1 + j by omega] at this; exact this)]

/-- A number read where its bytes stand. -/
theorem readNat_of (m : List Host.Cell) (a n v : Nat) (hv : v < 256 ^ n) (h : ∀ j < n, readByte m (a + j) = BitVec.ofNat 8 (v / 256 ^ j)) : readNat m a n = v := by
  induction n generalizing a v with
  | zero => simp at hv; simp [readNat, hv]
  | succ n ih =>
    simp only [readNat]
    have h0 := h 0 (by omega)
    simp only [Nat.add_zero, Nat.pow_zero, Nat.div_one] at h0
    rw [h0, ih (a + 1) (v / 256) (by rw [Nat.pow_succ] at hv; omega) (fun j hj => by
      have := h (j + 1) (by omega)
      rw [show a + 1 + j = a + (j + 1) by omega, this, Nat.div_div_eq_div_mul, Nat.pow_succ, Nat.mul_comm])]
    simp; omega

/-- The bytes of a number are as many as asked for. -/
@[simp] theorem bytesOfNat_length (n v : Nat) : (bytesOfNat n v).length = n := by
  induction n generalizing v with
  | zero => rfl
  | succ n ih => simp [bytesOfNat, ih]
/-- A byte of a number. -/
theorem bytesOfNat_get (n v j : Nat) (h : j < n) : (bytesOfNat n v).getD j 0 = BitVec.ofNat 8 (v / 256 ^ j) := by
  induction n generalizing v j with
  | zero => omega
  | succ n ih =>
    cases j with
    | zero => simp [bytesOfNat]
    | succ j =>
      simp only [bytesOfNat, List.getD_cons_succ]
      rw [ih (v / 256) j (by omega), Nat.div_div_eq_div_mul, Nat.pow_succ, Nat.mul_comm]

/-- A number read where it has been written. -/
theorem readNat_writeBytes (m : List Host.Cell) (a n v : Nat) (hv : v < 256 ^ n) : readNat (writeBytes m a (bytesOfNat n v)) a n = v := by
  refine readNat_of _ _ _ _ hv fun j hj => ?_
  rw [readByte_writeBytes, if_pos (by rw [bytesOfNat_length]; omega), Nat.add_sub_cancel_left, bytesOfNat_get _ _ _ hj]

/-- A number read apart from what is written. -/
theorem readNat_writeBytes_ne (m : List Host.Cell) (a b n : Nat) (bs : List Byte) (h : b + n ≤ a ∨ a + bs.length ≤ b) :
    readNat (writeBytes m a bs) b n = readNat m b n := by
  refine readNat_congr _ _ _ _ fun j hj => ?_
  rw [readByte_writeBytes, if_neg (by omega)]

/-- A number read at a place of a longer run of bytes. -/
theorem readNat_part (m : List Host.Cell) (a off n v : Nat) (bs : List Byte) (hv : v < 256 ^ n) (h : off + n ≤ bs.length)
    (hb : ∀ j < n, bs.getD (off + j) 0 = BitVec.ofNat 8 (v / 256 ^ j)) : readNat (writeBytes m a bs) (a + off) n = v := by
  refine readNat_of _ _ _ _ hv fun j hj => ?_
  rw [readByte_writeBytes, if_pos (by omega), show a + off + j - a = off + j by omega, hb j hj]

end Sys2Proof.Machine
end

