-- ==== Sys2Proof/Laws/Issue.lean ====
section
/-! SUPPORT. What the shared steps of issue do: joining a chunk, passing the checks, completing, and ending a chunk. -/

namespace Sys2Proof.Machine

open Sys2Proof

/-! ## Joining a chunk -/

/-- A state in which the strand that issues has other chunks. -/
def State.joined (s : State) (cs : List Chunk) (n : Nat) : State :=
  s.setStrand s.cur { s.strand s.cur with chunks := cs, nextChunk := n }

@[simp] theorem State.joined_cores (s : State) (cs : List Chunk) (n : Nat) : (s.joined cs n).cores = s.cores := rfl
@[simp] theorem State.joined_quires (s : State) (cs : List Chunk) (n : Nat) : (s.joined cs n).quires = s.quires := rfl
@[simp] theorem State.joined_dies (s : State) (cs : List Chunk) (n : Nat) : (s.joined cs n).dies = s.dies := rfl
@[simp] theorem State.joined_mem (s : State) (cs : List Chunk) (n : Nat) : (s.joined cs n).mem = s.mem := rfl
@[simp] theorem State.joined_tags (s : State) (cs : List Chunk) (n : Nat) : (s.joined cs n).tags = s.tags := rfl
@[simp] theorem State.joined_remotes (s : State) (cs : List Chunk) (n : Nat) : (s.joined cs n).remotes = s.remotes := rfl
@[simp] theorem State.joined_msgs (s : State) (cs : List Chunk) (n : Nat) : (s.joined cs n).msgs = s.msgs := rfl
@[simp] theorem State.joined_migrations (s : State) (cs : List Chunk) (n : Nat) : (s.joined cs n).migrations = s.migrations := rfl
@[simp] theorem State.joined_ports (s : State) (cs : List Chunk) (n : Nat) : (s.joined cs n).ports = s.ports := rfl
@[simp] theorem State.joined_bindery (s : State) (cs : List Chunk) (n : Nat) : (s.joined cs n).bindery = s.bindery := rfl
@[simp] theorem State.joined_colophon (s : State) (cs : List Chunk) (n : Nat) : (s.joined cs n).colophon = s.colophon := rfl
@[simp] theorem State.joined_power (s : State) (cs : List Chunk) (n : Nat) : (s.joined cs n).power = s.power := rfl
@[simp] theorem State.joined_collected (s : State) (cs : List Chunk) (n : Nat) : (s.joined cs n).collected = s.collected := rfl
@[simp] theorem State.joined_serial (s : State) (cs : List Chunk) (n : Nat) : (s.joined cs n).serial = s.serial := rfl
@[simp] theorem State.joined_cur (s : State) (cs : List Chunk) (n : Nat) : (s.joined cs n).cur = s.cur := rfl
@[simp] theorem State.joined_park (s : State) (cs : List Chunk) (n : Nat) : (s.joined cs n).park = s.park := rfl
@[simp] theorem State.joined_arg (s : State) (cs : List Chunk) (n : Nat) : (s.joined cs n).arg = s.arg := rfl
@[simp] theorem State.joined_turns (s : State) (cs : List Chunk) (n : Nat) : (s.joined cs n).turns = s.turns := rfl
@[simp] theorem State.joined_ticks (s : State) (cs : List Chunk) (n : Nat) : (s.joined cs n).ticks = s.ticks := rfl
@[simp] theorem State.joined_now (s : State) (cs : List Chunk) (n : Nat) : (s.joined cs n).now = s.now := rfl
@[simp] theorem State.joined_strand (s : State) (cs : List Chunk) (n : Nat) :
    (s.joined cs n).strand s.cur = { s.strand s.cur with chunks := cs, nextChunk := n } := by simp [State.joined]
@[simp] theorem State.joined_me (s : State) (cs : List Chunk) (n : Nat) : (s.joined cs n).me = s.me := by
  simp [State.joined, State.me, State.arch]
theorem State.joined_others (s : State) (cs : List Chunk) (n : Nat) {k : Nat} (h : k ≠ s.cur) :
    (s.joined cs n).strand k = s.strand k := State.strand_setStrand_ne s h _

/-- A strand that joins or begins a chunk changes nothing but its chunks. -/
theorem State.joinChunk_eq (s : State) :
    ∃ cs n, s.joinChunk = s.joined cs n := by
  unfold State.joinChunk State.onStrand
  dsimp only
  split
  · exact ⟨_, _, rfl⟩
  · split
    · exact ⟨_, _, rfl⟩
    · exact ⟨(s.strand s.cur).chunks, (s.strand s.cur).nextChunk, rfl⟩

/-- A write of a strand twice is the second write. -/
theorem mapSet_mapSet {α : Type} (k : Nat) (x y : α) (m : Map α) : mapSet k x (mapSet k y m) = mapSet k x m := by
  induction m with
  | nil => simp [mapSet]
  | cons e m ih =>
    obtain ⟨j, z⟩ := e
    by_cases h1 : k < j
    · simp [mapSet, h1]
    · by_cases h2 : k = j
      · subst h2
        simp [mapSet]
      · simp [mapSet, h1, h2, ih]

@[simp] theorem State.setStrand_setStrand (s : State) (k : Nat) (x y : Strand) :
    (s.setStrand k x).setStrand k y = s.setStrand k y := by
  simp [State.setStrand, mapSet_mapSet]

/-- An instruction that passes the shared steps has joined its chunk, and nothing else has changed. -/
theorem State.pinDue_eq {s u : State} (h : s.joinChunk.pinDue = some u) :
    ∃ cs n, u = s.joined cs n := by
  obtain ⟨cs, n, hj⟩ := s.joinChunk_eq
  rw [hj] at h
  unfold State.pinDue at h
  simp only [State.joined_cur, State.joined_strand] at h
  split at h
  · exact ⟨cs, n, (Option.some.inj h).symm⟩
  · split at h
    · exact ⟨cs, n, (Option.some.inj h).symm⟩
    · split at h
      · cases h
      · refine ⟨onLast (fun c => { c with pinned := true }) cs, n, ?_⟩
        rw [← Option.some.inj h]
        unfold State.joined
        rw [State.setStrand_setStrand]
        rfl

/-- What `issue` answers when the shared steps pass. -/
theorem issue_of_mayIssue {priv : Bool} {reads : List RegName} {s : State} (h : MayIssue priv false reads s)
    (body : State → Act) :
    ∃ cs n, s.joinChunk.pinDue = some (s.joined cs n) ∧ issue priv reads s body = .next (body (s.joined cs n)).settle := by
  obtain ⟨u, hu⟩ := Option.ne_none_iff_exists'.mp h.token
  obtain ⟨cs, n, rfl⟩ := State.pinDue_eq hu
  refine ⟨cs, n, hu, ?_⟩
  have hm : (priv && !(s.strand s.cur).arch.smode) = false := by
    cases hp : priv with
    | false => rfl
    | true =>
      have := h.mode hp
      simp [State.me, State.arch] at this
      simp [this]
  have hb : (s.park && (s.strand s.cur).busy) = false := by
    cases hp : s.park with
    | false => rfl
    | true => simp [h.marker (by simp [hp])]
  have hr : reads.find? (s.strand s.cur).isOut = none :=
    List.find?_eq_none.mpr fun r hr => by simp [h.settled r hr]
  unfold issue
  simp [hm, hb, hr, hu]

/-- What `issue` answers for a strand that passes the shared steps. -/
theorem issue_of_issues {priv : Bool} {reads : List RegName} {s u : State} (h : Issues priv reads s u)
    (body : State → Act) : issue priv reads s body = .next (body u).settle := by
  have hm : (priv && !(s.strand s.cur).arch.smode) = false := by
    cases hp : priv with
    | false => rfl
    | true =>
      have := h.mode hp
      simp [State.me, State.arch] at this
      simp [this]
  have hb : (s.park && (s.strand s.cur).busy) = false := by
    cases hp : s.park with
    | false => rfl
    | true => simp [h.marker hp]
  have hr : reads.find? (s.strand s.cur).isOut = none :=
    List.find?_eq_none.mpr fun r hr => by simp [h.settled r hr]
  unfold issue
  simp [hm, hb, hr, h.joined]

/-- Passing the shared steps, without naming the state in which the instruction acts. -/
theorem Issues.mayIssue {priv : Bool} {reads : List RegName} {s u : State} (h : Issues priv reads s u) :
    MayIssue priv false reads s where
  mode := h.mode
  marker := fun hp => h.marker (by simpa using hp)
  settled := h.settled
  token := by simp [h.joined]

/-- The state in which an instruction acts differs only in the chunks of its strand. -/
theorem Issues.eq {priv : Bool} {reads : List RegName} {s u : State} (h : Issues priv reads s u) :
    ∃ cs n, u = s.joined cs n := State.pinDue_eq h.joined

/-- What `terminate` answers when the shared steps pass and the chunks commit. -/
theorem terminate_of_mayEnd {priv waits : Bool} {reads : List RegName} {s u : State} (h : MayEnd priv waits reads s u)
    (body : State → Act) : terminate priv waits reads s body = .next (body u).settleT := by
  have hm : (priv && !(s.strand s.cur).arch.smode) = false := by
    cases hp : priv with
    | false => rfl
    | true =>
      have := h.mode hp
      simp [State.me, State.arch] at this
      simp [this]
  have hb : ((s.park || waits) && (s.strand s.cur).busy) = false := by
    cases hp : s.park || waits with
    | false => rfl
    | true => simp [h.marker hp]
  have hr : reads.find? (s.strand s.cur).isOut = none :=
    List.find?_eq_none.mpr fun r hr => by simp [h.settled r hr]
  unfold terminate State.boundary
  simp [hm, hb, hr, h.stays, h.ended, h.calm]

/-! ## Completion -/

/-- Chunks whose last is changed, and the strand with them. -/
theorem State.counted_eq (s : State) :
    s.counted = s.setStrand s.cur { (s.strand s.cur).onOpen (fun c => { c with count := c.count + 1 }) with wait := .none } := rfl

/-- A completed instruction that has changed only the registers and the outstanding results of its strand. -/
theorem ran_settle {s : State} {cs : List Chunk} {n : Nat} {t : Strand} {k : Nat}
    (ht : t = { s.strand s.cur with arch := t.arch, out := t.out, chunks := cs, nextChunk := n }) :
    Ran s (Act.settle (.done ({ s with serial := k }.setStrand s.cur t))) t.arch.advance t.out := by
  refine ⟨⟨?_, ?_, ?_, ?_, ?_⟩, ?_⟩
  · simp [Act.settle, State.counted_eq, State.onArch, State.onStrand, Strand.onOpen, State.arch]
  · simp [Act.settle, State.counted_eq, State.onArch, State.onStrand, Strand.onOpen]
  · simp [Act.settle, State.counted_eq, State.onArch, State.onStrand, Strand.onOpen]
  · rw [ht]
    simp [Act.settle, State.counted_eq, State.onArch, State.onStrand, Strand.onOpen, State.me, State.arch]
  · intro j hj
    simp only [Act.settle, State.counted_eq, State.onArch, State.onStrand, State.setStrand_cur]
    rw [State.strand_setStrand_ne _ hj, State.strand_setStrand_ne _ hj, State.strand_setStrand_ne _ hj]
    rfl
  · simp [Act.settle, State.counted_eq, State.onArch, State.onStrand, State.setStrand]

/-- A completed instruction that has set the PC itself. -/
theorem ran_jump {s : State} {cs : List Chunk} {n : Nat} {t : Strand} {k : Nat}
    (ht : t = { s.strand s.cur with arch := t.arch, out := t.out, chunks := cs, nextChunk := n }) :
    Ran s (Act.settle (.jump ({ s with serial := k }.setStrand s.cur t))) t.arch t.out := by
  refine ⟨⟨?_, ?_, ?_, ?_, ?_⟩, ?_⟩
  · simp [Act.settle, State.counted_eq, Strand.onOpen, State.arch]
  · simp [Act.settle, State.counted_eq, Strand.onOpen]
  · simp [Act.settle, State.counted_eq, Strand.onOpen]
  · rw [ht]
    simp [Act.settle, State.counted_eq, Strand.onOpen, State.me, State.arch]
  · intro j hj
    simp only [Act.settle, State.counted_eq, State.setStrand_cur]
    rw [State.strand_setStrand_ne _ hj, State.strand_setStrand_ne _ hj]
    rfl
  · simp [Act.settle, State.counted_eq, State.setStrand]

/-- A completed terminator that has changed only the registers and the outstanding results of its strand. -/
theorem ran_settleT {s : State} {t : Strand} {k : Nat}
    (ht : t = { s.strand s.cur with arch := t.arch, out := t.out }) :
    Ran s (Act.settleT (.done ({ s with serial := k }.setStrand s.cur t))) t.arch.ended t.out := by
  refine ⟨⟨?_, ?_, ?_, ?_, ?_⟩, ?_⟩
  · simp [Act.settleT, State.begun, State.onArch, State.onStrand, Strand.onOpen, State.arch, Arch.ended]
  · simp [Act.settleT, State.begun, State.onArch, State.onStrand, Strand.onOpen]
  · simp [Act.settleT, State.begun, State.onArch, State.onStrand, Strand.onOpen]
  · rw [ht]
    simp [Act.settleT, State.begun, State.onArch, State.onStrand, Strand.onOpen, State.me, State.arch]
  · intro j hj
    simp only [Act.settleT, State.begun, State.onArch, State.onStrand, State.setStrand_cur]
    rw [State.strand_setStrand_ne _ hj, State.strand_setStrand_ne _ hj, State.strand_setStrand_ne _ hj]
    rfl
  · simp [Act.settleT, State.begun, State.onArch, State.onStrand, State.setStrand]

/-- An instruction that changes only registers runs, and does nothing else. -/
theorem fixed_ran {priv : Bool} {reads : List RegName} {s : State} (h : MayIssue priv false reads s) {body : State → Act}
    (f : Arch → Arch) (hb : ∀ u : State, u.cur = s.cur → u.me = s.me → body u = .done (u.onArch u.cur f)) :
    ∃ t, issue priv reads s body = .next t ∧ Ran s t (f s.me).advance (s.strand s.cur).out := by
  obtain ⟨cs, n, -, he⟩ := issue_of_mayIssue h body
  refine ⟨_, he, ?_⟩
  rw [hb (s.joined cs n) rfl (by simp)]
  have := ran_settle (s := s) (cs := cs) (n := n) (k := s.serial)
    (t := { s.strand s.cur with chunks := cs, nextChunk := n, arch := f s.me }) rfl
  simpa [State.joined, State.onArch, State.onStrand, State.me, State.arch] using this

end Sys2Proof.Machine
end

