-- ==== Sys2Proof/Laws/Results.lean ====
section
/-! SUPPORT. What the shared shapes of register instructions do: a fixed result, a pending result, a capability operation that
may trap, a transfer of control. -/

namespace Sys2Proof.Machine

open Sys2Proof

/-- A state that differs from one with joined chunks is one that differs from the state before. -/
theorem Ran.of_joined {s t : State} {cs : List Chunk} {n : Nat} {a : Arch} {out : List Out}
    (h : Ran (s.joined cs n) t a out) : Ran s t a out := by
  obtain ⟨⟨h1, h2, h3, h4, h5⟩, h6⟩ := h
  simp only [State.joined_cur] at h1 h2 h3 h4 h5
  refine ⟨⟨h1, h2, h3, ?_, fun k hk => ?_⟩, ?_⟩
  · simp only [State.joined_me, State.joined_strand] at h4
    have := congrArg (fun x : Strand => { x with chunks := (s.strand s.cur).chunks, nextChunk := (s.strand s.cur).nextChunk }) h4
    exact this
  · rw [h5 k hk, State.joined_others s cs n hk]
  · have := congrArg (fun x : State => { x with strands := s.strands }) h6
    exact this

/-- The next state of an instruction that acts in `u` and changes nothing but the registers and outstanding results of its
strand. -/
theorem Issues.ran_done {priv : Bool} {reads : List RegName} {s u : State} (h : Issues priv reads s u) {body : State → Act}
    {x : Strand} {k : Nat} (hb : body u = .done (({ u with serial := k } : State).setStrand u.cur x))
    (hx : x = { u.strand u.cur with arch := x.arch, out := x.out }) :
    ∃ t, issue priv reads s body = .next t ∧ Ran s t x.arch.advance x.out := by
  refine ⟨_, issue_of_issues h body, ?_⟩
  obtain ⟨cs, n, rfl⟩ := h.eq
  rw [hb]
  refine Ran.of_joined (cs := cs) (n := n) ?_
  refine ran_settle (cs := x.chunks) (n := x.nextChunk) ?_
  rw [hx]

/-- The same for an instruction that sets the PC. -/
theorem Issues.ran_jump {priv : Bool} {reads : List RegName} {s u : State} (h : Issues priv reads s u) {body : State → Act}
    {x : Strand} {k : Nat} (hb : body u = .jump (({ u with serial := k } : State).setStrand u.cur x))
    (hx : x = { u.strand u.cur with arch := x.arch, out := x.out }) :
    ∃ t, issue priv reads s body = .next t ∧ Ran s t x.arch x.out := by
  refine ⟨_, issue_of_issues h body, ?_⟩
  obtain ⟨cs, n, rfl⟩ := h.eq
  rw [hb]
  refine Ran.of_joined (cs := cs) (n := n) ?_
  refine Machine.ran_jump (cs := x.chunks) (n := x.nextChunk) ?_
  rw [hx]

/-- An instruction that changes nothing but the PC. -/
theorem Issues.ran_same {priv : Bool} {reads : List RegName} {s u : State} (h : Issues priv reads s u) {body : State → Act}
    (hb : body u = .done u) : ∃ t, issue priv reads s body = .next t ∧ Ran s t s.me.advance (s.strand s.cur).out := by
  refine ⟨_, issue_of_issues h body, ?_⟩
  rw [hb]
  obtain ⟨cs, n, rfl⟩ := h.eq
  exact ran_settle (s := s) (cs := cs) (n := n) (k := s.serial)
    (t := { s.strand s.cur with chunks := cs, nextChunk := n }) rfl

/-- The registers of the strand that issues, in the state in which its instruction acts. -/
theorem Issues.me {priv : Bool} {reads : List RegName} {s u : State} (h : Issues priv reads s u) : u.me = s.me := by
  obtain ⟨cs, n, rfl⟩ := h.eq
  simp

/-- The strand that issues, in that state. -/
theorem Issues.cur {priv : Bool} {reads : List RegName} {s u : State} (h : Issues priv reads s u) : u.cur = s.cur := by
  obtain ⟨cs, n, rfl⟩ := h.eq
  rfl

/-- The outstanding results of that strand. -/
theorem Issues.out {priv : Bool} {reads : List RegName} {s u : State} (h : Issues priv reads s u) :
    (u.strand s.cur).out = (s.strand s.cur).out := by
  obtain ⟨cs, n, rfl⟩ := h.eq
  simp

/-- Passing the shared steps names a state in which the instruction acts. -/
theorem MayIssue.issues {priv : Bool} {reads : List RegName} {s : State} (h : MayIssue priv false reads s) :
    ∃ u, Issues priv reads s u := by
  obtain ⟨u, hu⟩ := Option.ne_none_iff_exists'.mp h.token
  exact ⟨u, h.mode, fun hp => h.marker (by simp [hp]), h.settled, hu⟩

/-- A fixed result is written and nothing else changes. -/
theorem fixedReg_ran {reads : List RegName} {s : State} (h : MayIssue false false reads s) (d : BitVec 6) (f : Arch → Reg) :
    ∃ t, fixedReg reads d f s = .next t ∧ Ran s t (s.me.writeG d (f s.me)).advance (s.strand s.cur).out :=
  fixed_ran h (fun x => x.writeG d (f x)) fun _ _ _ => rfl

/-- A result of the strand that issues, added to those outstanding. -/
theorem State.setPending_eq (s : State) (dsts : List RegName) (src : Source) :
    s.setPending dsts src = ({ s with serial := s.serial + 1 } : State).setStrand s.cur
      { s.strand s.cur with out := (s.strand s.cur).out ++
          [{ id := s.serial, chunk := (s.strand s.cur).openId, smode := s.me.smode, dead := false, dsts := dsts.filter (· ≠ .g 0),
             src := src }] } := rfl

/-- An instruction that leaves a result outstanding and changes nothing else. -/
theorem Issues.ran_pending {priv : Bool} {reads : List RegName} {s u : State} (h : Issues priv reads s u) {body : State → Act}
    {dsts : List RegName} {src : Source} (hb : body u = .done (u.setPending dsts src)) :
    ∃ t chunk, issue priv reads s body = .next t ∧
      Ran s t s.me.advance ((s.strand s.cur).out ++
        [{ id := s.serial, chunk := chunk, smode := s.me.smode, dead := false, dsts := dsts.filter (· ≠ .g 0), src := src }]) := by
  rw [State.setPending_eq] at hb
  obtain ⟨t, ht, hr⟩ := h.ran_done hb rfl
  have hs : u.serial = s.serial := by obtain ⟨cs, n, rfl⟩ := h.eq; rfl
  refine ⟨t, (u.strand u.cur).openId, ht, ?_⟩
  have ha : (u.strand s.cur).arch = s.me := by rw [← h.cur]; exact h.me
  have hm : u.me = s.me := by rw [State.me, State.arch, h.cur]; exact ha
  simpa [ha, hm, hs, h.cur, h.out] using hr

/-- A capability operation that succeeds. -/
theorem capOp_ran {reads : List RegName} {s : State} (h : MayIssue false false reads s) {d : BitVec 6}
    {f : Arch → Except (Cause × Word) Reg} {r : Reg} (hf : f s.me = .ok r) :
    ∃ t, capOp reads d f s = .next t ∧ Ran s t (s.me.writeG d r).advance (s.strand s.cur).out := by
  refine fixed_ran h (fun x => x.writeG d r) fun u _ hm => ?_
  have : f (u.arch u.cur) = .ok r := by rw [← hf, ← hm]; rfl
  simp [this]

/-- A capability operation that traps. -/
theorem capOp_trap {reads : List RegName} {s u : State} (h : Issues false reads s u) {d : BitVec 6}
    {f : Arch → Except (Cause × Word) Reg} {e : Cause × Word} (hf : f s.me = .error e) :
    capOp reads d f s = .next (u.raise s.cur e.1 e.2) := by
  have : f (u.arch s.cur) = .error e := by rw [← hf, ← h.me, ← h.cur]; rfl
  simp [capOp, issue_of_issues h, this, Act.settle, h.cur]

/-- A transfer whose target the PCC covers. -/
theorem transfer_ran {reads : List RegName} {s u : State} (h : Issues false reads s u) {body : State → Act} {t : Word}
    {f : Arch → Arch} (hb : body u = transfer u t f) (hc : checkCap s.me.smode s.me.pcc t.toNat 4 [permX] 0 = none) :
    ∃ v, issue false reads s body = .next v ∧
      Ran s v { f s.me with pcc := s.me.pcc.withCursor t } (s.strand s.cur).out := by
  have ha : u.arch u.cur = s.me := h.me
  have hb' : body u = .jump (({ u with serial := u.serial } : State).setStrand u.cur
      { u.strand u.cur with arch := { f s.me with pcc := s.me.pcc.withCursor t } }) := by
    rw [hb]
    unfold transfer
    simp only [ha, hc]
    simp only [State.onArch, State.onStrand]
    have : (u.strand u.cur).arch = s.me := ha
    rw [this]
  obtain ⟨v, hv, hr⟩ := h.ran_jump hb' rfl
  refine ⟨v, hv, ?_⟩
  simpa [h.cur, h.out] using hr

/-- A transfer whose target the PCC does not cover. -/
theorem transfer_trap {reads : List RegName} {s u : State} (h : Issues false reads s u) {body : State → Act} {t : Word}
    {f : Arch → Arch} (hb : body u = transfer u t f) {cause : Cause}
    (hc : checkCap s.me.smode s.me.pcc t.toNat 4 [permX] 0 = some cause) :
    issue false reads s body = .next (u.raise s.cur cause t) := by
  have ha : u.arch s.cur = s.me := by rw [← h.cur]; exact h.me
  rw [issue_of_issues h, hb]
  unfold transfer
  simp only [h.cur, ha, hc, Act.settle]

end Sys2Proof.Machine
end

