-- ==== Sys2Proof/Laws/Integer.lean ====
section
/-! SUPPORT. The scalar integer class in exact arithmetic: what each operation of 04 R72 to R76 gives, and what the shared shapes of
products and quotients do. -/

namespace Sys2Proof.Machine

open Sys2Proof

theorem minS_eq (a b : BitVec 64) : minS a b = BitVec.ofInt 64 (min a.toInt b.toInt) := by
  simp only [minS, BitVec.slt]
  by_cases h : a.toInt < b.toInt
  · simp [h, Int.min_eq_left (Int.le_of_lt h)]
  · simp [h, Int.min_eq_right (Int.not_lt.mp h)]

theorem maxS_eq (a b : BitVec 64) : maxS a b = BitVec.ofInt 64 (max a.toInt b.toInt) := by
  simp only [maxS, BitVec.slt]
  by_cases h : a.toInt < b.toInt
  · simp [h, Int.max_eq_right (Int.le_of_lt h)]
  · simp [h, Int.max_eq_left (Int.not_lt.mp h)]

theorem minZ_eq (a b : BitVec 64) : minZ a b = BitVec.ofNat 64 (min a.toNat b.toNat) := by
  simp only [minZ, BitVec.ult]
  by_cases h : a.toNat < b.toNat
  · simp [h, Nat.min_eq_left (Nat.le_of_lt h)]
  · simp [h, Nat.min_eq_right (Nat.not_lt.mp h)]

theorem maxZ_eq (a b : BitVec 64) : maxZ a b = BitVec.ofNat 64 (max a.toNat b.toNat) := by
  simp only [maxZ, BitVec.ult]
  by_cases h : a.toNat < b.toNat
  · simp [h, Nat.max_eq_right (Nat.le_of_lt h)]
  · simp [h, Nat.max_eq_left (Nat.not_lt.mp h)]

theorem shl_eq (a : BitVec 64) (n : Nat) : a <<< n = BitVec.ofNat 64 (a.toNat * 2 ^ n) := by
  apply BitVec.eq_of_toNat_eq; simp [Nat.shiftLeft_eq]

theorem shr_eq (a : BitVec 64) (n : Nat) : a >>> n = BitVec.ofNat 64 (a.toNat / 2 ^ n) := by
  apply BitVec.eq_of_toNat_eq
  rw [BitVec.toNat_ushiftRight, BitVec.toNat_ofNat, Nat.shiftRight_eq_div_pow, Nat.mod_eq_of_lt]
  exact Nat.lt_of_le_of_lt (Nat.div_le_self _ _) a.isLt

theorem sha_eq (a : BitVec 64) (n : Nat) : a.sshiftRight n = BitVec.ofInt 64 (a.toInt / 2 ^ n) := by
  simp [BitVec.sshiftRight, Int.shiftRight_eq_div_pow]

theorem sub_eq_ofInt (a b : BitVec 64) : a - b = BitVec.ofInt 64 (a.toInt - b.toInt) := by
  apply BitVec.eq_of_toInt_eq; simp [BitVec.toInt_sub]

theorem add_eq_ofNat (a b : BitVec 64) : a + b = BitVec.ofNat 64 (a.toNat + b.toNat) := by
  apply BitVec.eq_of_toNat_eq; simp [BitVec.toNat_add]

theorem rotl_eq (a : BitVec 64) (n : Nat) (h : n < 64) : rotl a n = a.rotateLeft n := by
  simp [rotl, BitVec.rotateLeft, BitVec.rotateLeftAux, Nat.mod_eq_of_lt h]

theorem signExtend_eq {w : Nat} (k : BitVec w) : k.signExtend 64 = BitVec.ofInt 64 k.toInt := by
  simp [BitVec.signExtend]

theorem add_signExtend_eq {w : Nat} (a : BitVec 64) (k : BitVec w) : a + k.signExtend 64 = BitVec.ofInt 64 (a.toInt + k.toInt) := by
  rw [signExtend_eq]; simp [BitVec.ofInt_add]

theorem lis_eq (a : BitVec 64) (k : BitVec 19) : (a <<< 19) ||| k.setWidth 64 = BitVec.ofNat 64 (a.toNat * 2 ^ 19 + k.toNat) := by
  rw [BitVec.ofNat_add, ← shl_eq, BitVec.ofNat_toNat]
  rw [BitVec.add_eq_or_of_and_eq_zero]
  ext i hi
  by_cases h3 : i < 19
  · simp [h3]
  · simp only [BitVec.getElem_and, BitVec.getElem_setWidth, BitVec.getLsbD_of_ge _ _ (Nat.not_lt.mp h3), Bool.and_false]; simp

theorem Cond.holds_eq (a b : BitVec 64) : bit (Cond.holds .eq a b) = bit (decide (a.toNat = b.toNat)) := by
  simp [bit, Cond.holds, BitVec.toNat_inj]

theorem Cond.holds_ne (a b : BitVec 64) : bit (Cond.holds .ne a b) = bit (decide (a.toNat ≠ b.toNat)) := by
  simp [bit, Cond.holds, BitVec.toNat_inj]

theorem Cond.holds_lt (a b : BitVec 64) : bit (Cond.holds .lt a b) = bit (decide (a.toInt < b.toInt)) := by
  simp [bit, Cond.holds, BitVec.slt]

theorem Cond.holds_ge (a b : BitVec 64) : bit (Cond.holds .ge a b) = bit (decide (b.toInt ≤ a.toInt)) := by
  simp [bit, Cond.holds, BitVec.slt]

theorem Cond.holds_lo (a b : BitVec 64) : bit (Cond.holds .lo a b) = bit (decide (a.toNat < b.toNat)) := by
  simp [bit, Cond.holds, BitVec.ult]

theorem Cond.holds_hs (a b : BitVec 64) : bit (Cond.holds .hs a b) = bit (decide (b.toNat ≤ a.toNat)) := by
  simp [bit, Cond.holds, BitVec.ult]

theorem shiftOf_lt (b : BitVec 64) : shiftOf b < 64 := Nat.mod_lt _ (by decide)

theorem firstOne_spec {w : Nat} (a : BitVec w) (k f : Nat) :
    k ≤ firstOne a k f ∧ firstOne a k f ≤ k + f ∧ (∀ j, k ≤ j → j < firstOne a k f → a.getLsbD j = false) ∧
      (firstOne a k f < k + f → a.getLsbD (firstOne a k f) = true) := by
  induction f generalizing k with
  | zero => simp [firstOne]; intro j h1 h2; omega
  | succ f ih =>
    unfold firstOne
    split
    · rename_i h; refine ⟨Nat.le_refl _, by omega, fun j h1 h2 => by omega, fun _ => h⟩
    · rename_i h
      obtain ⟨h1, h2, h3, h4⟩ := ih (k+1)
      refine ⟨by omega, by omega, fun j hj1 hj2 => ?_, fun hh => h4 (by omega)⟩
      rcases Nat.eq_or_lt_of_le hj1 with rfl | hlt
      · simpa using h
      · exact h3 j hlt hj2

theorem onesIn_eq {w : Nat} (a : BitVec w) (n : Nat) : onesIn a n = (List.range n).countP a.getLsbD := by
  induction n with
  | zero => rfl
  | succ n ih => simp [onesIn, List.range_succ, List.countP_append, ih, List.countP_cons]

theorem leadingZeros_spec (a : BitVec 64) : leadingZeros a ≤ 64 ∧ a.toNat < 2 ^ (64 - leadingZeros a) ∧
    (leadingZeros a < 64 → a.getLsbD (63 - leadingZeros a) = true) := by
  unfold leadingZeros
  split
  · rename_i h; subst h; simp
  · rename_i h
    have hn : a.toNat ≠ 0 := by simpa [← BitVec.toNat_inj] using h
    have h1 := Nat.log2_self_le hn
    have h2 := Nat.lt_log2_self (n := a.toNat)
    have h3 : a.toNat.log2 < 64 := by
      rcases Nat.lt_or_ge a.toNat.log2 64 with h | h
      · exact h
      · have := Nat.pow_le_pow_right (n := 2) (by decide) h
        have := a.isLt
        omega
    refine ⟨by omega, ?_, fun _ => ?_⟩
    · have : 64 - (63 - a.toNat.log2) = a.toNat.log2 + 1 := by omega
      rw [this]; exact h2
    · have : 63 - (63 - a.toNat.log2) = a.toNat.log2 := by omega
      rw [this, BitVec.getLsbD, Nat.testBit_eq_decide_div_mod_eq]
      have : a.toNat / 2 ^ a.toNat.log2 = 1 := by
        apply Nat.div_eq_of_lt_le
        · simpa using h1
        · rw [Nat.pow_succ] at h2; omega
      simp [this]

theorem mulHigh_eq (a b : BitVec 64) : mulHigh a b = BitVec.ofInt 64 (a.toInt * b.toInt / 2 ^ 64) := by
  unfold mulHigh
  have hx : a.signExtend 128 * b.signExtend 128 = BitVec.ofInt 128 (a.toInt * b.toInt) := by
    simp [BitVec.signExtend, BitVec.ofInt_mul]
  rw [hx]
  generalize a.toInt * b.toInt = z
  apply BitVec.eq_of_toNat_eq
  simp [BitVec.toNat_ofInt, Nat.shiftRight_eq_div_pow]
  omega

theorem mulHighZ_eq (a b : BitVec 64) : mulHighZ a b = BitVec.ofNat 64 (a.toNat * b.toNat / 2 ^ 64) := by
  unfold mulHighZ
  apply BitVec.eq_of_toNat_eq
  have h1 := a.isLt
  have h2 := b.isLt
  have h3 : a.toNat * b.toNat < 2 ^ 128 := by
    calc a.toNat * b.toNat < 2^64 * 2^64 := Nat.mul_lt_mul'' h1 h2
      _ = 2^128 := by decide
  rw [BitVec.extractLsb'_toNat, BitVec.toNat_mul, BitVec.toNat_setWidth, BitVec.toNat_setWidth,
    Nat.mod_eq_of_lt (Nat.lt_trans h1 (by decide)), Nat.mod_eq_of_lt (Nat.lt_trans h2 (by decide)), Nat.mod_eq_of_lt h3,
    Nat.shiftRight_eq_div_pow, BitVec.toNat_ofNat]

theorem divS_eq (a b : BitVec 64) : divS a b = if b = 0 then BitVec.allOnes 64 else BitVec.ofInt 64 (a.toInt.tdiv b.toInt) := by
  unfold divS
  split
  · decide
  · apply BitVec.eq_of_toInt_eq; simp [BitVec.toInt_sdiv]

theorem remS_eq (a b : BitVec 64) : remS a b = if b = 0 then a else BitVec.ofInt 64 (a.toInt.tmod b.toInt) := by
  unfold remS
  split
  · rfl
  · rw [← BitVec.toInt_srem, BitVec.ofInt_toInt]

theorem divZ_eq (a b : BitVec 64) : divZ a b = if b = 0 then BitVec.allOnes 64 else BitVec.ofNat 64 (a.toNat / b.toNat) := by
  unfold divZ
  split
  · decide
  · rw [← BitVec.toNat_udiv, BitVec.ofNat_toNat]; simp

theorem remZ_eq (a b : BitVec 64) : remZ a b = if b = 0 then a else BitVec.ofNat 64 (a.toNat % b.toNat) := by
  unfold remZ
  split
  · rfl
  · rw [← BitVec.toNat_umod, BitVec.ofNat_toNat]; simp

theorem mul_eq_ofNat (a b : BitVec 64) : a * b = BitVec.ofNat 64 (a.toNat * b.toNat) := by
  apply BitVec.eq_of_toNat_eq; simp

theorem State.dividing_joined (s : State) (cs n c) : (s.joined cs n).dividing c = s.dividing c := by
  unfold State.dividing
  congr 1; funext sid
  by_cases h : sid = s.cur
  · subst h; simp
  · rw [State.joined_others s cs n h]

theorem filter_dst (d : BitVec 6) : List.filter (fun x => decide (x ≠ RegName.g 0)) [RegName.g d] = if d = 0 then [] else [.g d] := by
  by_cases h : d = 0#6 <;> simp [h]

theorem multiply_ran {s : State} {d a b : BitVec 6} {f : Word → Word → Word} {v} (h : MayIssue false false [.g a, .g b, .g d] s) (hv : f (s.me.word a) (s.me.word b) = v) :
   ∃ t chunk, multiply d a b f s = .next t ∧
        Ran s t s.me.advance ((s.strand s.cur).out ++
          [{ id := s.serial, chunk := chunk, smode := s.me.smode, dead := false, dsts := if d = 0 then [] else [.g d],
             src := .ready [.g d (.data v)] Flags.none }]) := by
  obtain ⟨u, hu⟩ := h.issues
  have hm : u.arch u.cur = s.me := hu.me
  obtain ⟨t, c, ht, hr⟩ := hu.ran_pending (body := fun s =>
    let x := s.arch s.cur
    .done (s.setPending [.g d] (.ready [.g d (.data (f (x.word a) (x.word b)))] Flags.none))) (dsts := [.g d]) (src := .ready [.g d (.data v)] Flags.none) (by simp only [hm, hv])
  rw [filter_dst] at hr
  exact ⟨t, c, ht, hr⟩

theorem divide_ran {s : State} {d a b : BitVec 6} {f : Word → Word → Word} {v} (h : MayIssue false false [.g a, .g b, .g d] s) (hv : f (s.me.word a) (s.me.word b) = v) (hd : s.dividing (coreOf s.cur) = false) :
   ∃ t chunk, divide d a b f s = .next t ∧
        Ran s t s.me.advance ((s.strand s.cur).out ++
          [{ id := s.serial, chunk := chunk, smode := s.me.smode, dead := false, dsts := if d = 0 then [] else [.g d],
             src := .divide [.g d (.data v)] }]) := by
  obtain ⟨u, hu⟩ := h.issues
  have hm : u.arch u.cur = s.me := hu.me
  obtain ⟨t, c, ht, hr⟩ := hu.ran_pending (body := fun s =>
    let x := s.arch s.cur
    .done (s.setPending [.g d] (.divide [.g d (.data (f (x.word a) (x.word b)))]))) (dsts := [.g d]) (src := .divide [.g d (.data v)])
    (by simp only [hm, hv])
  rw [filter_dst] at hr
  refine ⟨t, c, ?_, hr⟩
  unfold divide
  rw [if_neg (by simp [hd])]
  exact ht

@[simp] theorem Arch.readG_count (a : Arch) (e n) (r : BitVec 6) : (a.count e n).readG r = a.readG r := rfl

theorem Issues.waits_waiting {s u : State} {reads} (hu : Issues false reads s u) (w : Wait) : Waits s (u.waiting w) w ∧ ((u.waiting w).strand s.cur).out = (s.strand s.cur).out := by
  obtain ⟨cs, n, rfl⟩ := hu.eq
  refine ⟨⟨?_, ?_, ?_, ?_, ?_⟩, ?_⟩
  · simp [State.waiting, State.onStrand]
  · intro r; simp [State.waiting, State.onStrand, State.arch, State.me]; split <;> simp
  · simp [State.waiting, State.onStrand, State.arch, State.me]; split <;> rfl
  · intro k hk; simp only [State.waiting, State.onStrand, State.joined_cur]; rw [State.strand_setStrand_ne _ hk, State.joined_others _ _ _ hk]
  · simp [State.waiting, State.onStrand, State.setStrand]
  · simp [State.waiting, State.onStrand]

/-- While the divider of the core is busy a divide does not issue (04 R62, 01 R7). -/
theorem divide_busy {s : State} {d a b : BitVec 6} {f : Word → Word → Word} (hd : s.dividing (coreOf s.cur) = true) :
    divide d a b f s = .next s := by
  unfold divide
  rw [if_pos hd]

/-- The target of a branch or jump (05 R91, R92). -/
theorem target_eq {w : Nat} (p : BitVec 64) (off : BitVec w) :
    p + 4 * off.signExtend 64 = BitVec.ofInt 64 (p.toInt + 4 * off.toInt) := by
  rw [BitVec.ofInt_add, BitVec.ofInt_mul, BitVec.ofInt_toInt, signExtend_eq]
  rfl

end Sys2Proof.Machine
end

