-- ==== Sys2Proof/Laws/Capability.lean ====
section
/-! SUPPORT. Capabilities: the fields of a derived image, and the arithmetic of their bounds (04 R68, R69, R78). -/

namespace Sys2Proof.Machine

open Sys2Proof

/-! ## The fields of a derived image -/

/-- A field above the low part of an image. -/
theorem extract_append_high {w v : Nat} (x : BitVec w) (y : BitVec v) (k n : Nat) (h : v ≤ k) :
    (x ++ y).extractLsb' k n = x.extractLsb' (k - v) n := by
  apply BitVec.eq_of_getLsbD_eq
  intro i hi
  simp only [BitVec.getLsbD_extractLsb', BitVec.getLsbD_append]
  have h1 : ¬ k + i < v := by omega
  have h2 : k + i - v = k - v + i := by omega
  simp [h1, h2]

/-- A field of the low part of an image. -/
theorem extract_append_low {w v : Nat} (x : BitVec w) (y : BitVec v) (k n : Nat) (h : k + n ≤ v) :
    (x ++ y).extractLsb' k n = y.extractLsb' k n := by
  apply BitVec.eq_of_getLsbD_eq
  intro i hi
  simp only [BitVec.getLsbD_extractLsb', BitVec.getLsbD_append]
  have h1 : k + i < v := by omega
  simp [h1]

/-- A field of a field. -/
theorem extract_extract {w : Nat} (x : BitVec w) (k n j m : Nat) (h : j + m ≤ n) :
    (x.extractLsb' k n).extractLsb' j m = x.extractLsb' (k + j) m := by
  apply BitVec.eq_of_getLsbD_eq
  intro i hi
  simp only [BitVec.getLsbD_extractLsb']
  have h1 : j + i < n := by omega
  simp [h1, Nat.add_assoc]

/-- The whole of a bit string as a field. -/
theorem extract_all {w : Nat} (x : BitVec w) : x.extractLsb' 0 w = x := by
  apply BitVec.eq_of_getLsbD_eq
  intro i hi
  simp [hi]

theorem Reg.low_eq (c : Reg) : c.low = c.bits.extractLsb' 0 64 := by
  apply BitVec.eq_of_getLsbD_eq
  intro i hi
  simp [Reg.low, hi]

/-- A permission is a bit of the permission field. -/
theorem Reg.perm_eq (c : Reg) {k : Nat} (hk : k < 12) : c.perm k = (c.bits.extractLsb' 116 12).getLsbD k := by
  simp [Reg.perm, hk]

@[simp] theorem Reg.withCursor_low (c : Reg) (a : Word) : (c.withCursor a).low = a := by
  rw [Reg.low_eq]
  simp only [Reg.withCursor]
  rw [extract_append_low _ _ _ _ (by decide), extract_all]
@[simp] theorem Reg.withCursor_cursor (c : Reg) (a : Word) : (c.withCursor a).cursor = a.toNat := by simp [Reg.cursor]
@[simp] theorem Reg.withCursor_tag (c : Reg) (a : Word) : (c.withCursor a).tag = c.tag := rfl
/-- Every field above the cursor stays. -/
theorem Reg.withCursor_field (c : Reg) (a : Word) (k n : Nat) (h : 64 ≤ k) (h2 : k + n ≤ 128) :
    (c.withCursor a).bits.extractLsb' k n = c.bits.extractLsb' k n := by
  simp only [Reg.withCursor]
  rw [extract_append_high _ _ _ _ h, extract_extract _ _ _ _ _ (by omega)]
  congr 1
  omega
@[simp] theorem Reg.withCursor_exp (c : Reg) (a : Word) : (c.withCursor a).exp = c.exp := by
  simp only [Reg.exp, Reg.withCursor_field c a 106 6 (by decide) (by decide)]
@[simp] theorem Reg.withCursor_bm (c : Reg) (a : Word) : (c.withCursor a).bm = c.bm := by
  simp only [Reg.bm, Reg.withCursor_field c a 85 21 (by decide) (by decide)]
@[simp] theorem Reg.withCursor_tm (c : Reg) (a : Word) : (c.withCursor a).tm = c.tm := by
  simp only [Reg.tm, Reg.withCursor_field c a 64 21 (by decide) (by decide)]
@[simp] theorem Reg.withCursor_otype (c : Reg) (a : Word) : (c.withCursor a).otype = c.otype := by
  simp only [Reg.otype, Reg.withCursor_field c a 112 4 (by decide) (by decide)]
theorem Reg.withCursor_perm (c : Reg) (a : Word) {k : Nat} (hk : k < 12) : (c.withCursor a).perm k = c.perm k := by
  simp only [Reg.perm_eq _ hk, Reg.withCursor_field c a 116 12 (by decide) (by decide)]
@[simp] theorem Reg.withCursor_length (c : Reg) (a : Word) : (c.withCursor a).length = c.length := by simp [Reg.length]

/-- Every field below the permissions stays. -/
theorem Reg.withPerms_field (c : Reg) (p : BitVec 12) (k n : Nat) (h : k + n ≤ 116) :
    (c.withPerms p).bits.extractLsb' k n = c.bits.extractLsb' k n := by
  simp only [Reg.withPerms]
  rw [extract_append_low _ _ _ _ h, extract_extract _ _ _ _ _ h]
  congr 1
  omega
@[simp] theorem Reg.withPerms_tag (c : Reg) (p : BitVec 12) : (c.withPerms p).tag = c.tag := rfl
@[simp] theorem Reg.withPerms_low (c : Reg) (p : BitVec 12) : (c.withPerms p).low = c.low := by
  simp only [Reg.low_eq, Reg.withPerms_field c p 0 64 (by decide)]
@[simp] theorem Reg.withPerms_cursor (c : Reg) (p : BitVec 12) : (c.withPerms p).cursor = c.cursor := by simp [Reg.cursor]
@[simp] theorem Reg.withPerms_exp (c : Reg) (p : BitVec 12) : (c.withPerms p).exp = c.exp := by
  simp only [Reg.exp, Reg.withPerms_field c p 106 6 (by decide)]
@[simp] theorem Reg.withPerms_bm (c : Reg) (p : BitVec 12) : (c.withPerms p).bm = c.bm := by
  simp only [Reg.bm, Reg.withPerms_field c p 85 21 (by decide)]
@[simp] theorem Reg.withPerms_tm (c : Reg) (p : BitVec 12) : (c.withPerms p).tm = c.tm := by
  simp only [Reg.tm, Reg.withPerms_field c p 64 21 (by decide)]
@[simp] theorem Reg.withPerms_otype (c : Reg) (p : BitVec 12) : (c.withPerms p).otype = c.otype := by
  simp only [Reg.otype, Reg.withPerms_field c p 112 4 (by decide)]
theorem Reg.withPerms_perm (c : Reg) (p : BitVec 12) {k : Nat} (hk : k < 12) : (c.withPerms p).perm k = p.getLsbD k := by
  rw [Reg.perm_eq _ hk]
  simp only [Reg.withPerms]
  rw [extract_append_high _ _ _ _ (by decide), extract_all]
@[simp] theorem Reg.withPerms_base (c : Reg) (p : BitVec 12) : (c.withPerms p).base = c.base := by
  simp only [Reg.base, Reg.withPerms_cursor, Reg.withPerms_bm, Reg.withPerms_exp]
@[simp] theorem Reg.withPerms_top (c : Reg) (p : BitVec 12) : (c.withPerms p).top = c.top := by
  simp only [Reg.top, Reg.length, Reg.withPerms_base, Reg.withPerms_bm, Reg.withPerms_tm, Reg.withPerms_exp]

/-- The fields of an image whose object type is replaced. -/
theorem Reg.withOtype_low_field (c : Reg) (t : BitVec 4) : (c.withOtype t).bits.extractLsb' 0 112 = c.bits.extractLsb' 0 112 := by
  simp only [Reg.withOtype]
  rw [extract_append_low _ _ _ _ (by decide), extract_all]
theorem Reg.withOtype_perms (c : Reg) (t : BitVec 4) : (c.withOtype t).bits.extractLsb' 116 12 = c.bits.extractLsb' 116 12 := by
  simp only [Reg.withOtype]
  rw [extract_append_high _ _ _ _ (by decide), extract_append_high _ _ _ _ (by decide), extract_extract _ _ _ _ _ (by decide)]
@[simp] theorem Reg.withOtype_otype (c : Reg) (t : BitVec 4) : (c.withOtype t).otype = t.toNat := by
  simp only [Reg.otype, Reg.withOtype]
  rw [extract_append_high _ _ _ _ (by decide), extract_append_low _ _ _ _ (by decide), extract_all]
@[simp] theorem Reg.withOtype_tag (c : Reg) (t : BitVec 4) : (c.withOtype t).tag = c.tag := rfl

/-- The fields of an image whose bounds are replaced. -/
theorem Reg.withBounds_high (c : Reg) (e nb nt : Nat) :
    (c.withBounds e nb nt).bits.extractLsb' 112 16 = c.bits.extractLsb' 112 16 := by
  simp only [Reg.withBounds]
  rw [extract_append_high _ _ _ _ (by decide), extract_append_high _ _ _ _ (by decide),
    extract_append_high _ _ _ _ (by decide), extract_append_high _ _ _ _ (by decide), extract_extract _ _ _ _ _ (by decide)]
@[simp] theorem Reg.withBounds_tag (c : Reg) (e nb nt : Nat) : (c.withBounds e nb nt).tag = c.tag := rfl
@[simp] theorem Reg.withBounds_low (c : Reg) (e nb nt : Nat) : (c.withBounds e nb nt).low = c.low := by
  rw [Reg.low_eq]
  simp only [Reg.withBounds]
  rw [extract_append_low _ _ _ _ (by decide), extract_all]
@[simp] theorem Reg.withBounds_cursor (c : Reg) (e nb nt : Nat) : (c.withBounds e nb nt).cursor = c.cursor := by simp [Reg.cursor]
@[simp] theorem Reg.withBounds_exp (c : Reg) (e nb nt : Nat) : (c.withBounds e nb nt).exp = e % 64 := by
  simp only [Reg.exp, Reg.withBounds]
  rw [extract_append_high _ _ _ _ (by decide), extract_append_high _ _ _ _ (by decide),
    extract_append_high _ _ _ _ (by decide), extract_append_low _ _ _ _ (by decide), extract_all]
  simp
@[simp] theorem Reg.withBounds_bm (c : Reg) (e nb nt : Nat) : (c.withBounds e nb nt).bm = nb / 2 ^ e % 2 ^ 21 := by
  simp only [Reg.bm, Reg.withBounds]
  rw [extract_append_high _ _ _ _ (by decide), extract_append_high _ _ _ _ (by decide),
    extract_append_low _ _ _ _ (by decide), extract_all]
  simp
@[simp] theorem Reg.withBounds_tm (c : Reg) (e nb nt : Nat) : (c.withBounds e nb nt).tm = nt / 2 ^ e % 2 ^ 21 := by
  simp only [Reg.tm, Reg.withBounds]
  rw [extract_append_high _ _ _ _ (by decide), extract_append_low _ _ _ _ (by decide), extract_all]
  simp
@[simp] theorem Reg.withBounds_otype (c : Reg) (e nb nt : Nat) : (c.withBounds e nb nt).otype = c.otype := by
  have h := congrArg (fun x => (x.extractLsb' 0 4).toNat) (Reg.withBounds_high c e nb nt)
  simpa only [Reg.otype, extract_extract _ 112 16 0 4 (by decide)] using h
theorem Reg.withBounds_perm (c : Reg) (e nb nt : Nat) {k : Nat} (hk : k < 12) : (c.withBounds e nb nt).perm k = c.perm k := by
  rw [Reg.perm_eq _ hk, Reg.perm_eq _ hk]
  have h := congrArg (fun x => (x.extractLsb' 4 12).getLsbD k) (Reg.withBounds_high c e nb nt)
  simpa only [extract_extract _ 112 16 4 12 (by decide)] using h

/-! ## Bounds -/

theorem Reg.bm_lt (c : Reg) : c.bm < 2 ^ 21 := BitVec.isLt _

/-- The base is the base mantissa at its place, in the block of 2^(E+21) bytes that makes the cursor representable. -/
theorem Reg.base_spec (c : Reg) :
    (∃ q : Int, c.base = q * 2 ^ (c.exp + 21) + (c.bm * 2 ^ c.exp : Nat)) ∧ c.base ≤ c.cursor ∧
      (c.cursor : Int) < c.base + 2 ^ (c.exp + 21) := by
  have hbm := c.bm_lt
  refine ⟨⟨_, rfl⟩, ?_⟩
  unfold Reg.base
  generalize c.bm = m at *
  generalize c.cursor = a
  generalize c.exp = e
  have hw : 0 < 2 ^ e := Nat.two_pow_pos e
  have hp : (2 : Int) ^ (e + 21) = ((2 ^ e : Nat) : Int) * 2097152 := by
    rw [Int.pow_add]; push_cast; rfl
  have hd : a / 2 ^ (e + 21) = a / 2 ^ e / 2 ^ 21 := by rw [Nat.pow_add, Nat.div_div_eq_div_mul]
  simp only [hd, hp]
  generalize 2 ^ e = w at *
  have h1 := Nat.div_add_mod a w
  have h2 := Nat.mod_lt a hw
  generalize a / w = q at *
  generalize a % w = r at *
  have h3 := Nat.div_add_mod q (2 ^ 21)
  have h4 := Nat.mod_lt q (y := 2 ^ 21) (by decide)
  generalize q / 2 ^ 21 = u at *
  generalize q % 2 ^ 21 = v at *
  subst h3
  subst h1
  have hm1 := Nat.mul_le_mul_left w (show m ≤ 2 ^ 21 - 1 by omega)
  have e1 : w * (2 ^ 21 * u + v) = 2097152 * (w * u) + w * v := by
    rw [Nat.mul_add, ← Nat.mul_assoc, Nat.mul_comm w, Nat.mul_assoc, show (2 : Nat) ^ 21 = 2097152 from rfl]
  rw [e1]
  have e2 : m * w = w * m := Nat.mul_comm _ _
  have e3 : ((w * u : Nat) : Int) = (w : Int) * u := by push_cast; rfl
  split
  · rename_i h
    have h5 := Nat.mul_le_mul_left w (show v + 1 ≤ m from h)
    rw [Nat.mul_add] at h5
    have e4 : ((u : Int) - 1) * ((w : Int) * 2097152) = 2097152 * ((w * u : Nat) : Int) - 2097152 * w := by
      rw [e3, Int.sub_mul, Int.one_mul, Int.mul_comm (w : Int) 2097152, ← Int.mul_assoc, Int.mul_comm (u : Int) 2097152,
        Int.mul_assoc, Int.mul_comm (u : Int)]
    rw [e4, e2]
    omega
  · rename_i h
    have h5 := Nat.mul_le_mul_left w (show m ≤ v by omega)
    have h6 := Nat.mul_le_mul_left w (show v ≤ 2 ^ 21 - 1 by omega)
    have e4 : (u : Int) * ((w : Int) * 2097152) = 2097152 * ((w * u : Nat) : Int) := by
      rw [e3, Int.mul_comm (w : Int) 2097152, ← Int.mul_assoc, Int.mul_comm (u : Int) 2097152, Int.mul_assoc,
        Int.mul_comm (u : Int)]
    rw [e4, e2]
    omega

/-- Only one such number makes a cursor representable. -/
theorem Reg.base_unique (c : Reg) (x q : Int) (hx : x = q * 2 ^ (c.exp + 21) + (c.bm * 2 ^ c.exp : Nat))
    (h1 : x ≤ c.cursor) (h2 : (c.cursor : Int) < x + 2 ^ (c.exp + 21)) : c.base = x := by
  obtain ⟨⟨p, hp⟩, h3, h4⟩ := c.base_spec
  have hw : (0 : Int) < 2 ^ (c.exp + 21) := Int.pow_pos (by decide)
  generalize (2 : Int) ^ (c.exp + 21) = w at *
  rcases Int.lt_trichotomy p q with h | h | h
  · have := Int.mul_le_mul_of_nonneg_right (show p + 1 ≤ q by omega) (Int.le_of_lt hw)
    rw [Int.add_mul] at this
    omega
  · subst h
    omega
  · have := Int.mul_le_mul_of_nonneg_right (show q + 1 ≤ p by omega) (Int.le_of_lt hw)
    rw [Int.add_mul] at this
    omega

/-- 04 R69: a representable cursor gives the same base. -/
theorem Reg.withCursor_base {c : Reg} {a : Word} (h1 : c.base ≤ a.toNat) (h2 : (a.toNat : Int) < c.base + 2 ^ (c.exp + 21)) :
    (c.withCursor a).base = c.base := by
  obtain ⟨⟨p, hp⟩, -, -⟩ := c.base_spec
  exact Reg.base_unique _ _ p (by simpa using hp) (by simpa using h1) (by simpa using h2)

theorem Reg.withCursor_top {c : Reg} {a : Word} (h1 : c.base ≤ a.toNat) (h2 : (a.toNat : Int) < c.base + 2 ^ (c.exp + 21)) :
    (c.withCursor a).top = c.top := by
  simp [Reg.top, Reg.withCursor_base h1 h2]

theorem block_mul (w u v : Nat) : (((2 ^ 21 * u + v) * w : Nat) : Int) = u * ((w : Int) * 2097152) + (v * w : Nat) := by
  have h1 : (2 ^ 21 * u + v) * w = 2097152 * (u * w) + v * w := by
    rw [Nat.add_mul, Nat.mul_assoc, show (2 : Nat) ^ 21 = 2097152 from rfl]
  have h2 : (u : Int) * ((w : Int) * 2097152) = 2097152 * ((u * w : Nat) : Int) := by
    rw [Int.natCast_mul, Int.mul_comm 2097152, Int.mul_assoc]
  rw [h1, h2]
  omega

/-- The base of an image whose bounds are replaced by ones whose base lies in the cursor's grain. -/
theorem Reg.withBounds_base (c : Reg) {e nb nt : Nat} (he : e < 64) (hn : nb / 2 ^ e = c.cursor / 2 ^ e) :
    (c.withBounds e nb nt).base = (c.cursor / 2 ^ e * 2 ^ e : Nat) := by
  have hw : 0 < 2 ^ e := Nat.two_pow_pos e
  have hp : (2 : Int) ^ (e + 21) = ((2 ^ e : Nat) : Int) * 2097152 := by
    rw [Int.pow_add]; push_cast; rfl
  refine Reg.base_unique _ _ ((c.cursor / 2 ^ (e + 21) : Nat) : Int) ?_ ?_ ?_
  · simp only [Reg.withBounds_exp, Reg.withBounds_bm, Nat.mod_eq_of_lt he, hn, hp]
    have h3 := Nat.div_add_mod (c.cursor / 2 ^ e) (2 ^ 21)
    have hd : c.cursor / 2 ^ (e + 21) = c.cursor / 2 ^ e / 2 ^ 21 := by rw [Nat.pow_add, Nat.div_div_eq_div_mul]
    rw [hd]
    generalize 2 ^ e = w at *
    generalize c.cursor / w / 2 ^ 21 = u at *
    generalize c.cursor / w % 2 ^ 21 = v at *
    rw [← h3]
    exact block_mul w u v
  · simp only [Reg.withBounds_cursor]
    have := Nat.div_mul_le_self c.cursor (2 ^ e)
    omega
  · simp only [Reg.withBounds_cursor, Reg.withBounds_exp, Nat.mod_eq_of_lt he, hp]
    have h1 := Nat.div_add_mod c.cursor (2 ^ e)
    have h2 := Nat.mod_lt c.cursor hw
    rw [Nat.mul_comm] at h1
    omega

/-- The length of an image whose bounds are replaced. -/
theorem Reg.withBounds_length (c : Reg) {e nb nt : Nat} (he : e < 64) (hle : nb / 2 ^ e ≤ nt / 2 ^ e)
    (hlen : nt / 2 ^ e - nb / 2 ^ e < 2 ^ 21) :
    (c.withBounds e nb nt).length = (nt / 2 ^ e - nb / 2 ^ e) * 2 ^ e := by
  simp only [Reg.length, Reg.withBounds_exp, Reg.withBounds_bm, Reg.withBounds_tm, Nat.mod_eq_of_lt he]
  congr 1
  omega

/-- 04 R78: an image whose bounds are replaced by ones at its exponent's grain has exactly those. -/
theorem Reg.withBounds_exact (c : Reg) {e nb nt : Nat} (he : e < 64) (hb : nb = c.cursor / 2 ^ e * 2 ^ e)
    (ht : nt / 2 ^ e * 2 ^ e = nt) (hle : nb ≤ nt) (hf : nt - nb ≤ (2 ^ 21 - 1) * 2 ^ e) :
    (c.withBounds e nb nt).base = nb ∧ (c.withBounds e nb nt).top = nt := by
  have hw : 0 < 2 ^ e := Nat.two_pow_pos e
  have hn : nb / 2 ^ e = c.cursor / 2 ^ e := by rw [hb]; exact Nat.mul_div_cancel _ hw
  have hq : nb / 2 ^ e ≤ nt / 2 ^ e := Nat.div_le_div_right hle
  have hd : (nt / 2 ^ e - nb / 2 ^ e) * 2 ^ e = nt - nb := by rw [Nat.sub_mul, ht, hn, ← hb]
  have hbase := Reg.withBounds_base c (nt := nt) he hn
  have hl := Reg.withBounds_length c he hq (by
    rw [← hd] at hf
    have := Nat.le_of_mul_le_mul_right hf hw
    omega)
  rw [← hb] at hbase
  refine ⟨hbase, ?_⟩
  rw [Reg.top, hbase, hl, hd]
  omega

/-- The smallest exponent of a length is found. -/
theorem smallestExp_eq (len e : Nat) (h1 : len ≤ (2 ^ 21 - 1) * 2 ^ e) (h2 : ∀ k, k < e → (2 ^ 21 - 1) * 2 ^ k < len) :
    ∀ fuel k, k ≤ e → e ≤ k + fuel → smallestExp len k fuel = e := by
  intro fuel
  induction fuel with
  | zero => intro k hk hf; simp only [smallestExp]; omega
  | succ fuel ih =>
    intro k hk hf
    unfold smallestExp
    by_cases h : k = e
    · subst h; rw [if_pos h1]
    · have := h2 k (by omega)
      rw [if_neg (by omega)]
      exact ih (k + 1) (by omega) (by omega)

theorem expFor_eq {len e : Nat} (h1 : len ≤ (2 ^ 21 - 1) * 2 ^ e) (h2 : ∀ k, k < e → (2 ^ 21 - 1) * 2 ^ k < len)
    (he : e ≤ 36) : expFor len = e := smallestExp_eq len e h1 h2 36 0 (Nat.zero_le e) (by omega)

/-- A length that fits in the address space has an exponent of at most 36. -/
theorem expFor_spec {len : Nat} (h : len ≤ 2 ^ 56) :
    len ≤ (2 ^ 21 - 1) * 2 ^ expFor len ∧ (∀ k, k < expFor len → (2 ^ 21 - 1) * 2 ^ k < len) ∧ expFor len ≤ 36 := by
  have key : ∀ n, len ≤ (2 ^ 21 - 1) * 2 ^ n →
      ∃ e, e ≤ n ∧ len ≤ (2 ^ 21 - 1) * 2 ^ e ∧ ∀ k, k < e → (2 ^ 21 - 1) * 2 ^ k < len := by
    intro n
    induction n with
    | zero => intro h; exact ⟨0, Nat.le_refl _, h, fun k hk => absurd hk (Nat.not_lt_zero k)⟩
    | succ n ih =>
      intro hn
      by_cases hl : len ≤ (2 ^ 21 - 1) * 2 ^ n
      · obtain ⟨e, he, hr⟩ := ih hl
        exact ⟨e, by omega, hr⟩
      · refine ⟨n + 1, Nat.le_refl _, hn, fun k hk => ?_⟩
        have := Nat.mul_le_mul_left (2 ^ 21 - 1) (Nat.pow_le_pow_right (n := 2) (by decide) (show k ≤ n by omega))
        omega
  obtain ⟨e, he, h1, h2⟩ := key 36 (by omega)
  rw [expFor_eq h1 h2 he]
  exact ⟨h1, h2, he⟩

end Sys2Proof.Machine
end

