-- ==== Sys2Proof/Laws/Chunk.lean ====
section
/-! SUPPORT. What commits and chunk ends leave of the strand whose chunks they are. -/

namespace Sys2Proof.Machine

open Sys2Proof

/-- A relation that each step keeps holds after all of them. -/
theorem forAll_rel {α : Type} (R : State → State → Prop) (refl : ∀ s, R s s) (trans : ∀ {a b c}, R a b → R b c → R a c)
    (f : State → α → State) (h : ∀ s x, R s (f s x)) (l : List α) (s : State) : R s (forAll l f s) := by
  unfold forAll
  induction l generalizing s with
  | nil => exact refl s
  | cons a l ih => exact trans (h s a) (ih (f s a))

/-- Two states that agree in the strand that issues, and in which that is. -/
structure SameStrand (sid : Nat) (s t : State) : Prop where
  cur : t.cur = s.cur
  strand : t.strand sid = s.strand sid

theorem SameStrand.refl (sid : Nat) (s : State) : SameStrand sid s s := ⟨rfl, rfl⟩
theorem SameStrand.trans {sid : Nat} {a b c : State} (h : SameStrand sid a b) (g : SameStrand sid b c) : SameStrand sid a c :=
  ⟨g.cur.trans h.cur, g.strand.trans h.strand⟩

theorem undo_same (sid : Nat) (l : List Undo) (s : State) :
    SameStrand sid s (forAll l (fun s u => s.writeSector u.loc u.data (BitVec.allOnes 128) u.tag) s) := by
  unfold forAll
  induction l generalizing s with
  | nil => exact SameStrand.refl _ _
  | cons u l ih =>
    rw [List.foldl_cons]
    exact SameStrand.trans (b := s.writeSector u.loc u.data (BitVec.allOnes 128) u.tag) ⟨rfl, rfl⟩ (ih _)

/-- A squash of another strand's chunks. -/
theorem squash_same {sid j : Nat} (h : sid ≠ j) (s : State) (k : Nat) (c m : Bool) : SameStrand sid s (s.squash j k c m) := by
  unfold State.squash
  dsimp only
  split
  · exact SameStrand.refl _ _
  · rename_i c hc
    have h1 := undo_same sid (((s.strand j).chunks.drop k).reverse.flatMap (·.undo)) s
    refine ⟨?_, ?_⟩
    · exact h1.cur
    · rw [State.strand_setStrand_ne _ h]
      exact h1.strand

/-- The readers that a place squashes are those of other strands. -/
theorem squashReaders_same (s : State) (sid d : Nat) (l : List Nat) : SameStrand sid s (s.squashReaders d l (some sid)) := by
  unfold State.squashReaders
  refine forAll_rel (SameStrand sid) (SameStrand.refl sid) SameStrand.trans _ (fun s j => ?_) _ s
  split
  · rename_i hj
    split
    · exact squash_same (fun e => hj.2 (by rw [e])) _ _ _ _
    · exact SameStrand.refl _ _
  · exact SameStrand.refl _ _

/-- Two states that agree in a strand's registers, results and chunks, and in which strand issues. -/
structure SameRun (sid : Nat) (s t : State) : Prop where
  cur : t.cur = s.cur
  arch : t.arch sid = s.arch sid
  out : (t.strand sid).out = (s.strand sid).out
  chunks : (t.strand sid).chunks = (s.strand sid).chunks
  wait : (t.strand sid).wait = (s.strand sid).wait

theorem SameRun.refl (sid : Nat) (s : State) : SameRun sid s s := ⟨rfl, rfl, rfl, rfl, rfl⟩
theorem SameRun.trans {sid : Nat} {a b c : State} (h : SameRun sid a b) (g : SameRun sid b c) : SameRun sid a c :=
  ⟨g.cur.trans h.cur, g.arch.trans h.arch, g.out.trans h.out, g.chunks.trans h.chunks, g.wait.trans h.wait⟩
theorem SameStrand.run {sid : Nat} {s t : State} (h : SameStrand sid s t) : SameRun sid s t :=
  ⟨h.cur, by rw [State.arch, h.strand]; rfl, by rw [h.strand], by rw [h.strand], by rw [h.strand]⟩

/-- A held store at its commit. -/
theorem commitPiece_run (sid : Nat) (x : State × Option Word) (p : Piece) : SameRun sid x.1 (State.commitPiece sid x p).1 := by
  unfold State.commitPiece
  split
  · exact SameRun.refl _ _
  · exact SameRun.refl _ _
  · unfold State.discard
    dsimp only
    split
    · exact ⟨rfl, rfl, rfl, rfl, rfl⟩
    · exact ⟨rfl, by simp [State.arch, State.onStrand], by simp [State.onStrand], by simp [State.onStrand], by simp [State.onStrand]⟩
  · split
    · exact ⟨rfl, rfl, rfl, rfl, rfl⟩
    · split
      · unfold State.memoryCheck
        split
        · exact ⟨rfl, by simp [State.arch, State.onStrand], by simp [State.onStrand], by simp [State.onStrand], by simp [State.onStrand]⟩
        · exact SameRun.refl _ _
      · dsimp only
        split <;> exact ⟨rfl, rfl, rfl, rfl, rfl⟩

theorem commitPieces_run (sid : Nat) (l : List Piece) (x : State × Option Word) :
    SameRun sid x.1 (l.foldl (State.commitPiece sid) x).1 := by
  induction l generalizing x with
  | nil => exact SameRun.refl _ _
  | cons p l ih => exact (commitPiece_run sid x p).trans (ih _)

/-- The registers of a strand but for the event counters and the view of its fault records, which commits change. -/
def Arch.settledPart (a : Arch) : Arch := { a with evcnt := Vector.replicate 8 0, popped := 0, ovfClear := false }

/-- What a commit leaves of the strand whose chunk it is. -/
structure Committed (sid : Nat) (s t : State) : Prop where
  cur : t.cur = s.cur
  arch : (t.arch sid).settledPart = (s.arch sid).settledPart
  out : (t.strand sid).out = (s.strand sid).out
  wait : (t.strand sid).wait = (s.strand sid).wait

theorem Committed.refl (sid : Nat) (s : State) : Committed sid s s := ⟨rfl, rfl, rfl, rfl⟩
theorem Committed.trans {sid : Nat} {a b c : State} (h : Committed sid a b) (g : Committed sid b c) : Committed sid a c :=
  ⟨g.cur.trans h.cur, g.arch.trans h.arch, g.out.trans h.out, g.wait.trans h.wait⟩
theorem SameRun.committed {sid : Nat} {s t : State} (h : SameRun sid s t) : Committed sid s t :=
  ⟨h.cur, by rw [h.arch], h.out, h.wait⟩

theorem onCore_run (sid cid : Nat) (s : State) (f : Core → Core) : SameRun sid s (s.onCore cid f) := ⟨rfl, rfl, rfl, rfl, rfl⟩

theorem commit_stores (s : State) (sid : Nat) (c : Chunk) (clears : Bool) (f : Core → Core) :
    SameRun sid s ((if c.lineOps = [] then
        (c.held.foldl (State.commitPiece sid) (if clears then s.onStrand sid fun t => { t with ovf := false } else s, none)).1
      else ((c.held.foldl (State.commitPiece sid)
        (if clears then s.onStrand sid fun t => { t with ovf := false } else s, none)).1.onCore (coreOf sid) f)).squashReaders
          (dieOf sid) (c.writes (dieOf sid)) (some sid)) := by
  have h0 : SameRun sid s (if clears then s.onStrand sid fun t => { t with ovf := false } else s) := by
    split
    · exact ⟨rfl, by simp [State.arch, State.onStrand], by simp [State.onStrand], by simp [State.onStrand], by simp [State.onStrand]⟩
    · exact SameRun.refl _ _
  have h1 := h0.trans (commitPieces_run sid c.held (_, none))
  refine SameRun.trans ?_ (squashReaders_same _ sid (dieOf sid) (c.writes (dieOf sid))).run
  split
  · exact h1
  · exact h1.trans (onCore_run _ _ _ _)

theorem commit_end {s v : State} {sid : Nat} (h : SameRun sid s v) (g : Core → Core) (a : Arch) (cs : List Chunk)
    (ha : a.settledPart = (v.strand sid).arch.settledPart) :
    Committed sid s ((v.onCore (coreOf sid) g).setStrand sid { v.strand sid with arch := a, chunks := cs }) := by
  refine h.committed.trans ⟨rfl, ?_, ?_, ?_⟩
  · simp only [State.arch, State.strand_setStrand_self]
    exact ha
  · simp
  · simp

theorem tally_settled (a : Arch) (p : Bool) (n m : Nat) (b : Bool) :
    Arch.settledPart { (if p = true then ((a.count 8 n).count 10 1).count 12 1 else (a.count 8 n).count 10 1) with
      popped := m, ovfClear := b } = a.settledPart := by
  cases p <;> rfl

theorem commitOldest_committed (s : State) (sid : Nat) : Committed sid s (s.commitOldest sid).1 := by
  unfold State.commitOldest
  dsimp only
  cases hc : (s.strand sid).chunks with
  | nil => exact Committed.refl _ _
  | cons c rest =>
    cases rest with
    | nil =>
      show Committed sid s (State.setStrand _ _ _)
      exact commit_end (commit_stores s sid c _ _) _ _ _ (tally_settled _ _ _ _ _)
    | cons d rest =>
      show Committed sid s (State.setStrand _ _ _)
      exact commit_end (commit_stores s sid c _ _) _ _ _ (tally_settled _ _ _ _ _)

theorem commitAll_committed (sid : Nat) (n : Nat) (s u : State) (h : s.commitAll sid n = .ready u) : Committed sid s u := by
  induction n generalizing s with
  | zero => cases h; exact Committed.refl _ _
  | succ n ih =>
    unfold State.commitAll at h
    split at h
    · cases h; exact Committed.refl _ _
    · split at h
      · split at h
        · rename_i s' hs
          have := commitOldest_committed s sid
          rw [hs] at this
          exact this.trans (ih _ h)
        · cases h
      · cases h

/-- The end of a strand's chunks keeps its registers, but for the event counters and its view of its fault records, its
outstanding results, and which strand issues. -/
theorem endChunk_committed {s u : State} (h : s.endChunk = .ready u) : Committed s.cur s u := by
  unfold State.endChunk at h
  dsimp only at h
  split at h
  · cases h; exact Committed.refl _ _
  · split at h
    · rename_i v hv
      cases h
      have hc := commitAll_committed _ _ _ _ hv
      rw [← hc.cur] at hc ⊢
      refine hc.trans ⟨rfl, ?_, ?_, ?_⟩ <;> simp [State.arch, State.onStrand, Strand.onOpen, Strand.restart]
    · cases h
    · cases h

theorem MayEnd.cur {priv waits : Bool} {reads : List RegName} {s u : State} (h : MayEnd priv waits reads s u) : u.cur = s.cur :=
  (endChunk_committed h.ended).cur

end Sys2Proof.Machine
end

