-- ==== Sys2Proof/Laws/Encoding.lean ====
section
/-! SUPPORT. What the encoder writes, the fields of each format read back (03 R47, R48), and the decoder's table goes to the part of
the word's major opcode (03 R54). -/

namespace Sys2Proof

/-- The fields, the major opcode and the park marker of a word of format A3 are those it was written with. -/
theorem readFA3_word (p : Bool) (m : BitVec 6) (f : FA3) :
    readFA3 (wordFA3 p m f) = f ∧ majorOf (wordFA3 p m f) = m ∧ parkBit (wordFA3 p m f) = p := by
  cases f
  simp only [readFA3, wordFA3, majorOf, parkBit, FA3.mk.injEq]
  refine ⟨⟨?_, ?_, ?_, ?_⟩, ?_, ?_⟩
  all_goals first
    | (apply BitVec.eq_of_getLsbD_eq
       intro i hi
       simp only [BitVec.getLsbD_extractLsb', BitVec.getLsbD_append, hi, decide_true, Bool.true_and]
       repeat rw [if_neg (by omega)]
       try rw [if_pos (by omega)]
       congr 1; try omega)
    | (simp only [BitVec.getLsbD_append]; simp)

/-- The fields, the major opcode and the park marker of a word of format AI are those it was written with. -/
theorem readFAI_word (p : Bool) (m : BitVec 6) (f : FAI) :
    readFAI (wordFAI p m f) = f ∧ majorOf (wordFAI p m f) = m ∧ parkBit (wordFAI p m f) = p := by
  cases f
  simp only [readFAI, wordFAI, majorOf, parkBit, FAI.mk.injEq]
  refine ⟨⟨?_, ?_, ?_⟩, ?_, ?_⟩
  all_goals first
    | (apply BitVec.eq_of_getLsbD_eq
       intro i hi
       simp only [BitVec.getLsbD_extractLsb', BitVec.getLsbD_append, hi, decide_true, Bool.true_and]
       repeat rw [if_neg (by omega)]
       try rw [if_pos (by omega)]
       congr 1; try omega)
    | (simp only [BitVec.getLsbD_append]; simp)

/-- The fields, the major opcode and the park marker of a word of format AL are those it was written with. -/
theorem readFAL_word (p : Bool) (m : BitVec 6) (f : FAL) :
    readFAL (wordFAL p m f) = f ∧ majorOf (wordFAL p m f) = m ∧ parkBit (wordFAL p m f) = p := by
  cases f
  simp only [readFAL, wordFAL, majorOf, parkBit, FAL.mk.injEq]
  refine ⟨⟨?_, ?_⟩, ?_, ?_⟩
  all_goals first
    | (apply BitVec.eq_of_getLsbD_eq
       intro i hi
       simp only [BitVec.getLsbD_extractLsb', BitVec.getLsbD_append, hi, decide_true, Bool.true_and]
       repeat rw [if_neg (by omega)]
       try rw [if_pos (by omega)]
       congr 1; try omega)
    | (simp only [BitVec.getLsbD_append]; simp)

/-- The fields, the major opcode and the park marker of a word of format BR are those it was written with. -/
theorem readFBR_word (p : Bool) (m : BitVec 6) (f : FBR) :
    readFBR (wordFBR p m f) = f ∧ majorOf (wordFBR p m f) = m ∧ parkBit (wordFBR p m f) = p := by
  cases f
  simp only [readFBR, wordFBR, majorOf, parkBit, FBR.mk.injEq]
  refine ⟨⟨?_, ?_, ?_, ?_⟩, ?_, ?_⟩
  all_goals first
    | (apply BitVec.eq_of_getLsbD_eq
       intro i hi
       simp only [BitVec.getLsbD_extractLsb', BitVec.getLsbD_append, hi, decide_true, Bool.true_and]
       repeat rw [if_neg (by omega)]
       try rw [if_pos (by omega)]
       congr 1; try omega)
    | (simp only [BitVec.getLsbD_append]; simp)

/-- The fields, the major opcode and the park marker of a word of format JL are those it was written with. -/
theorem readFJL_word (p : Bool) (m : BitVec 6) (f : FJL) :
    readFJL (wordFJL p m f) = f ∧ majorOf (wordFJL p m f) = m ∧ parkBit (wordFJL p m f) = p := by
  cases f
  simp only [readFJL, wordFJL, majorOf, parkBit, FJL.mk.injEq]
  refine ⟨?_, ?_, ?_⟩
  all_goals first
    | (apply BitVec.eq_of_getLsbD_eq
       intro i hi
       simp only [BitVec.getLsbD_extractLsb', BitVec.getLsbD_append, hi, decide_true, Bool.true_and]
       repeat rw [if_neg (by omega)]
       try rw [if_pos (by omega)]
       congr 1; try omega)
    | (simp only [BitVec.getLsbD_append]; simp)

/-- The fields, the major opcode and the park marker of a word of format MM are those it was written with. -/
theorem readFMM_word (p : Bool) (m : BitVec 6) (f : FMM) :
    readFMM (wordFMM p m f) = f ∧ majorOf (wordFMM p m f) = m ∧ parkBit (wordFMM p m f) = p := by
  cases f
  simp only [readFMM, wordFMM, majorOf, parkBit, FMM.mk.injEq]
  refine ⟨⟨?_, ?_, ?_, ?_⟩, ?_, ?_⟩
  all_goals first
    | (apply BitVec.eq_of_getLsbD_eq
       intro i hi
       simp only [BitVec.getLsbD_extractLsb', BitVec.getLsbD_append, hi, decide_true, Bool.true_and]
       repeat rw [if_neg (by omega)]
       try rw [if_pos (by omega)]
       congr 1; try omega)
    | (simp only [BitVec.getLsbD_append]; simp)

/-- The fields, the major opcode and the park marker of a word of format V3 are those it was written with. -/
theorem readFV3_word (p : Bool) (m : BitVec 6) (f : FV3) :
    readFV3 (wordFV3 p m f) = f ∧ majorOf (wordFV3 p m f) = m ∧ parkBit (wordFV3 p m f) = p := by
  cases f
  simp only [readFV3, wordFV3, majorOf, parkBit, FV3.mk.injEq]
  refine ⟨⟨?_, ?_, ?_, ?_, ?_, ?_, ?_⟩, ?_, ?_⟩
  all_goals first
    | (apply BitVec.eq_of_getLsbD_eq
       intro i hi
       simp only [BitVec.getLsbD_extractLsb', BitVec.getLsbD_append, hi, decide_true, Bool.true_and]
       repeat rw [if_neg (by omega)]
       try rw [if_pos (by omega)]
       congr 1; try omega)
    | (simp only [BitVec.getLsbD_append]; simp)

/-- The fields, the major opcode and the park marker of a word of format VG are those it was written with. -/
theorem readFVG_word (p : Bool) (m : BitVec 6) (f : FVG) :
    readFVG (wordFVG p m f) = f ∧ majorOf (wordFVG p m f) = m ∧ parkBit (wordFVG p m f) = p := by
  cases f
  simp only [readFVG, wordFVG, majorOf, parkBit, FVG.mk.injEq]
  refine ⟨⟨?_, ?_, ?_, ?_, ?_, ?_, ?_⟩, ?_, ?_⟩
  all_goals first
    | (apply BitVec.eq_of_getLsbD_eq
       intro i hi
       simp only [BitVec.getLsbD_extractLsb', BitVec.getLsbD_append, hi, decide_true, Bool.true_and]
       repeat rw [if_neg (by omega)]
       try rw [if_pos (by omega)]
       congr 1; try omega)
    | (simp only [BitVec.getLsbD_append]; simp)

/-- The fields, the major opcode and the park marker of a word of format VM are those it was written with. -/
theorem readFVM_word (p : Bool) (m : BitVec 6) (f : FVM) :
    readFVM (wordFVM p m f) = f ∧ majorOf (wordFVM p m f) = m ∧ parkBit (wordFVM p m f) = p := by
  cases f
  simp only [readFVM, wordFVM, majorOf, parkBit, FVM.mk.injEq]
  refine ⟨⟨?_, ?_, ?_, ?_, ?_, ?_, ?_⟩, ?_, ?_⟩
  all_goals first
    | (apply BitVec.eq_of_getLsbD_eq
       intro i hi
       simp only [BitVec.getLsbD_extractLsb', BitVec.getLsbD_append, hi, decide_true, Bool.true_and]
       repeat rw [if_neg (by omega)]
       try rw [if_pos (by omega)]
       congr 1; try omega)
    | (simp only [BitVec.getLsbD_append]; simp)

/-- The fields, the major opcode and the park marker of a word of format VX are those it was written with. -/
theorem readFVX_word (p : Bool) (m : BitVec 6) (f : FVX) :
    readFVX (wordFVX p m f) = f ∧ majorOf (wordFVX p m f) = m ∧ parkBit (wordFVX p m f) = p := by
  cases f
  simp only [readFVX, wordFVX, majorOf, parkBit, FVX.mk.injEq]
  refine ⟨⟨?_, ?_, ?_, ?_, ?_⟩, ?_, ?_⟩
  all_goals first
    | (apply BitVec.eq_of_getLsbD_eq
       intro i hi
       simp only [BitVec.getLsbD_extractLsb', BitVec.getLsbD_append, hi, decide_true, Bool.true_and]
       repeat rw [if_neg (by omega)]
       try rw [if_pos (by omega)]
       congr 1; try omega)
    | (simp only [BitVec.getLsbD_append]; simp)

/-- The fields, the major opcode and the park marker of a word of format XE are those it was written with. -/
theorem readFXE_word (p : Bool) (m : BitVec 6) (f : FXE) :
    readFXE (wordFXE p m f) = f ∧ majorOf (wordFXE p m f) = m ∧ parkBit (wordFXE p m f) = p := by
  cases f
  simp only [readFXE, wordFXE, majorOf, parkBit, FXE.mk.injEq]
  refine ⟨⟨?_, ?_, ?_, ?_⟩, ?_, ?_⟩
  all_goals first
    | (apply BitVec.eq_of_getLsbD_eq
       intro i hi
       simp only [BitVec.getLsbD_extractLsb', BitVec.getLsbD_append, hi, decide_true, Bool.true_and]
       repeat rw [if_neg (by omega)]
       try rw [if_pos (by omega)]
       congr 1; try omega)
    | (simp only [BitVec.getLsbD_append]; simp)

/-- The fields, the major opcode and the park marker of a word of format MX are those it was written with. -/
theorem readFMX_word (p : Bool) (m : BitVec 6) (f : FMX) :
    readFMX (wordFMX p m f) = f ∧ majorOf (wordFMX p m f) = m ∧ parkBit (wordFMX p m f) = p := by
  cases f
  simp only [readFMX, wordFMX, majorOf, parkBit, FMX.mk.injEq]
  refine ⟨⟨?_, ?_, ?_, ?_, ?_⟩, ?_, ?_⟩
  all_goals first
    | (apply BitVec.eq_of_getLsbD_eq
       intro i hi
       simp only [BitVec.getLsbD_extractLsb', BitVec.getLsbD_append, hi, decide_true, Bool.true_and]
       repeat rw [if_neg (by omega)]
       try rw [if_pos (by omega)]
       congr 1; try omega)
    | (simp only [BitVec.getLsbD_append]; simp)

/-- The fields, the major opcode and the park marker of a word of format RP are those it was written with. -/
theorem readFRP_word (p : Bool) (m : BitVec 6) (f : FRP) :
    readFRP (wordFRP p m f) = f ∧ majorOf (wordFRP p m f) = m ∧ parkBit (wordFRP p m f) = p := by
  cases f
  simp only [readFRP, wordFRP, majorOf, parkBit, FRP.mk.injEq]
  refine ⟨⟨?_, ?_, ?_, ?_, ?_, ?_⟩, ?_, ?_⟩
  all_goals first
    | (apply BitVec.eq_of_getLsbD_eq
       intro i hi
       simp only [BitVec.getLsbD_extractLsb', BitVec.getLsbD_append, hi, decide_true, Bool.true_and]
       repeat rw [if_neg (by omega)]
       try rw [if_pos (by omega)]
       congr 1; try omega)
    | (simp only [BitVec.getLsbD_append]; simp)

theorem decode_integer (p : Bool) (f : FA3) : decode (wordFA3 p 1 f) = decodeInteger f := by
  unfold decode; rw [(readFA3_word p 1 f).2.1]; exact congrArg decodeInteger (readFA3_word p 1 f).1

theorem decode_addI (p : Bool) (f : FAI) : decode (wordFAI p 2 f) = decodeAddI f := by
  unfold decode; rw [(readFAI_word p 2 f).2.1]; exact congrArg decodeAddI (readFAI_word p 2 f).1

theorem decode_andI (p : Bool) (f : FAI) : decode (wordFAI p 3 f) = decodeAndI f := by
  unfold decode; rw [(readFAI_word p 3 f).2.1]; exact congrArg decodeAndI (readFAI_word p 3 f).1

theorem decode_orI (p : Bool) (f : FAI) : decode (wordFAI p 4 f) = decodeOrI f := by
  unfold decode; rw [(readFAI_word p 4 f).2.1]; exact congrArg decodeOrI (readFAI_word p 4 f).1

theorem decode_xorI (p : Bool) (f : FAI) : decode (wordFAI p 5 f) = decodeXorI f := by
  unfold decode; rw [(readFAI_word p 5 f).2.1]; exact congrArg decodeXorI (readFAI_word p 5 f).1

theorem decode_shiftI (p : Bool) (f : FAI) : decode (wordFAI p 6 f) = decodeShiftI f := by
  unfold decode; rw [(readFAI_word p 6 f).2.1]; exact congrArg decodeShiftI (readFAI_word p 6 f).1

theorem decode_li (p : Bool) (f : FAL) : decode (wordFAL p 7 f) = decodeLi f := by
  unfold decode; rw [(readFAL_word p 7 f).2.1]; exact congrArg decodeLi (readFAL_word p 7 f).1

theorem decode_lis (p : Bool) (f : FAL) : decode (wordFAL p 8 f) = decodeLis f := by
  unfold decode; rw [(readFAL_word p 8 f).2.1]; exact congrArg decodeLis (readFAL_word p 8 f).1

theorem decode_set (p : Bool) (f : FA3) : decode (wordFA3 p 9 f) = decodeSet f := by
  unfold decode; rw [(readFA3_word p 9 f).2.1]; exact congrArg decodeSet (readFA3_word p 9 f).1

theorem decode_cap (p : Bool) (f : FA3) : decode (wordFA3 p 10 f) = decodeCap f := by
  unfold decode; rw [(readFA3_word p 10 f).2.1]; exact congrArg decodeCap (readFA3_word p 10 f).1

theorem decode_cincrI (p : Bool) (f : FAI) : decode (wordFAI p 11 f) = decodeCincrI f := by
  unfold decode; rw [(readFAI_word p 11 f).2.1]; exact congrArg decodeCincrI (readFAI_word p 11 f).1

theorem decode_branch (p : Bool) (f : FBR) : decode (wordFBR p 12 f) = decodeBranch f := by
  unfold decode; rw [(readFBR_word p 12 f).2.1]; exact congrArg decodeBranch (readFBR_word p 12 f).1

theorem decode_jmp (p : Bool) (f : FJL) : decode (wordFJL p 13 f) = decodeJmp f := by
  unfold decode; rw [(readFJL_word p 13 f).2.1]; exact congrArg decodeJmp (readFJL_word p 13 f).1

theorem decode_call (p : Bool) (f : FJL) : decode (wordFJL p 14 f) = decodeCall f := by
  unfold decode; rw [(readFJL_word p 14 f).2.1]; exact congrArg decodeCall (readFJL_word p 14 f).1

theorem decode_jump (p : Bool) (f : FA3) : decode (wordFA3 p 15 f) = decodeJump f := by
  unfold decode; rw [(readFA3_word p 15 f).2.1]; exact congrArg decodeJump (readFA3_word p 15 f).1

theorem decode_rpt (p : Bool) (f : FRP) : decode (wordFRP p 16 f) = decodeRpt f := by
  unfold decode; rw [(readFRP_word p 16 f).2.1]; exact congrArg decodeRpt (readFRP_word p 16 f).1

theorem decode_nopCdone (p : Bool) (f : FA3) : decode (wordFA3 p 17 f) = decodeNopCdone f := by
  unfold decode; rw [(readFA3_word p 17 f).2.1]; exact congrArg decodeNopCdone (readFA3_word p 17 f).1

theorem decode_load (p : Bool) (f : FMM) : decode (wordFMM p 18 f) = decodeLoad f := by
  unfold decode; rw [(readFMM_word p 18 f).2.1]; exact congrArg decodeLoad (readFMM_word p 18 f).1

theorem decode_store (p : Bool) (f : FMM) : decode (wordFMM p 19 f) = decodeStore f := by
  unfold decode; rw [(readFMM_word p 19 f).2.1]; exact congrArg decodeStore (readFMM_word p 19 f).1

theorem decode_vecMem (p : Bool) (f : FVM) : decode (wordFVM p 20 f) = decodeVecMem f := by
  unfold decode; rw [(readFVM_word p 20 f).2.1]; exact congrArg decodeVecMem (readFVM_word p 20 f).1

theorem decode_vecMemH (p : Bool) (f : FVM) : decode (wordFVM p 21 f) = decodeVecMemH f := by
  unfold decode; rw [(readFVM_word p 21 f).2.1]; exact congrArg decodeVecMemH (readFVM_word p 21 f).1

theorem decode_line (p : Bool) (f : FMM) : decode (wordFMM p 22 f) = decodeLine f := by
  unfold decode; rw [(readFMM_word p 22 f).2.1]; exact congrArg decodeLine (readFMM_word p 22 f).1

theorem decode_system (p : Bool) (f : FXE) : decode (wordFXE p 23 f) = decodeSystem f := by
  unfold decode; rw [(readFXE_word p 23 f).2.1]; exact congrArg decodeSystem (readFXE_word p 23 f).1

theorem decode_csrr (p : Bool) (f : FAI) : decode (wordFAI p 24 f) = decodeCsrr f := by
  unfold decode; rw [(readFAI_word p 24 f).2.1]; exact congrArg decodeCsrr (readFAI_word p 24 f).1

theorem decode_csrw (p : Bool) (f : FAI) : decode (wordFAI p 25 f) = decodeCsrw f := by
  unfold decode; rw [(readFAI_word p 25 f).2.1]; exact congrArg decodeCsrw (readFAI_word p 25 f).1

theorem decode_csrx (p : Bool) (f : FAI) : decode (wordFAI p 26 f) = decodeCsrx f := by
  unfold decode; rw [(readFAI_word p 26 f).2.1]; exact congrArg decodeCsrx (readFAI_word p 26 f).1

theorem decode_sfq (p : Bool) (f : FXE) : decode (wordFXE p 27 f) = decodeSfq f := by
  unfold decode; rw [(readFXE_word p 27 f).2.1]; exact congrArg decodeSfq (readFXE_word p 27 f).1

theorem decode_amo (p : Bool) (f : FA3) : decode (wordFA3 p 28 f) = decodeAmo f := by
  unfold decode; rw [(readFA3_word p 28 f).2.1]; exact congrArg decodeAmo (readFA3_word p 28 f).1

theorem decode_stitch (p : Bool) (f : FA3) : decode (wordFA3 p 29 f) = decodeStitch f := by
  unfold decode; rw [(readFA3_word p 29 f).2.1]; exact congrArg decodeStitch (readFA3_word p 29 f).1

theorem decode_fp (p : Bool) (f : FV3) : decode (wordFV3 p 30 f) = decodeFp f := by
  unfold decode; rw [(readFV3_word p 30 f).2.1]; exact congrArg decodeFp (readFV3_word p 30 f).1

theorem decode_vint (p : Bool) (f : FV3) : decode (wordFV3 p 31 f) = decodeVint f := by
  unfold decode; rw [(readFV3_word p 31 f).2.1]; exact congrArg decodeVint (readFV3_word p 31 f).1

theorem decode_vecScalar (p : Bool) (f : FVG) : decode (wordFVG p 32 f) = decodeVecScalar f := by
  unfold decode; rw [(readFVG_word p 32 f).2.1]; exact congrArg decodeVecScalar (readFVG_word p 32 f).1

theorem decode_element (p : Bool) (f : FVX) : decode (wordFVX p 33 f) = decodeElement f := by
  unfold decode; rw [(readFVX_word p 33 f).2.1]; exact congrArg decodeElement (readFVX_word p 33 f).1

theorem decode_convert (p : Bool) (f : FV3) : decode (wordFV3 p 34 f) = decodeConvert f := by
  unfold decode; rw [(readFV3_word p 34 f).2.1]; exact congrArg decodeConvert (readFV3_word p 34 f).1

theorem decode_matrix (p : Bool) (f : FMX) : decode (wordFMX p 35 f) = decodeMatrix f := by
  unfold decode; rw [(readFMX_word p 35 f).2.1]; exact congrArg decodeMatrix (readFMX_word p 35 f).1

theorem decode_codelet (p : Bool) (f : FXE) : decode (wordFXE p 36 f) = decodeCodelet f := by
  unfold decode; rw [(readFXE_word p 36 f).2.1]; exact congrArg decodeCodelet (readFXE_word p 36 f).1

theorem decode_copy (p : Bool) (f : FXE) : decode (wordFXE p 37 f) = decodeCopy f := by
  unfold decode; rw [(readFXE_word p 37 f).2.1]; exact congrArg decodeCopy (readFXE_word p 37 f).1

theorem decode_barrier (p : Bool) (f : FXE) : decode (wordFXE p 38 f) = decodeBarrier f := by
  unfold decode; rw [(readFXE_word p 38 f).2.1]; exact congrArg decodeBarrier (readFXE_word p 38 f).1

theorem decode_remote (p : Bool) (f : FXE) : decode (wordFXE p 39 f) = decodeRemote f := by
  unfold decode; rw [(readFXE_word p 39 f).2.1]; exact congrArg decodeRemote (readFXE_word p 39 f).1

theorem decode_ramo (p : Bool) (f : FA3) : decode (wordFA3 p 40 f) = decodeRamo f := by
  unfold decode; rw [(readFA3_word p 40 f).2.1]; exact congrArg decodeRamo (readFA3_word p 40 f).1

theorem decode_clock (p : Bool) (f : FXE) : decode (wordFXE p 41 f) = decodeClock f := by
  unfold decode; rw [(readFXE_word p 41 f).2.1]; exact congrArg decodeClock (readFXE_word p 41 f).1

theorem decode_try (p : Bool) (f : FXE) : decode (wordFXE p 42 f) = decodeTry f := by
  unfold decode; rw [(readFXE_word p 42 f).2.1]; exact congrArg decodeTry (readFXE_word p 42 f).1

/-- The parts of the immediate of a shift. -/
theorem shift_field (k : BitVec 2) (n : BitVec 6) :
    ((k ++ (0 : BitVec 5) ++ n : BitVec 13)).extractLsb' 11 2 = k ∧ ((k ++ (0 : BitVec 5) ++ n : BitVec 13)).extractLsb' 6 5 = 0 ∧
      ((k ++ (0 : BitVec 5) ++ n : BitVec 13)).extractLsb' 0 6 = n := by
  refine ⟨?_, ?_, ?_⟩
  all_goals first
    | (apply BitVec.eq_of_getLsbD_eq
       intro i hi
       simp only [BitVec.getLsbD_extractLsb', BitVec.getLsbD_append, hi, decide_true, Bool.true_and]
       repeat rw [if_neg (by omega)]
       try rw [if_pos (by omega)]
       first
         | (congr 1; omega)
         | simp)
    | (simp only [BitVec.getLsbD_append]; simp)

/-- The parts of the function code of an atomic. -/
theorem atomic_field (w : Bool) (k : BitVec 6) :
    ((BitVec.ofBool w ++ k : BitVec 7)).extractLsb' 0 6 = k ∧ ((BitVec.ofBool w ++ k : BitVec 7)).getLsbD 6 = w := by
  refine ⟨?_, ?_⟩
  all_goals first
    | (apply BitVec.eq_of_getLsbD_eq
       intro i hi
       simp only [BitVec.getLsbD_extractLsb', BitVec.getLsbD_append, hi, decide_true, Bool.true_and]
       repeat rw [if_neg (by omega)]
       try rw [if_pos (by omega)]
       first
         | (congr 1; omega)
         | simp)
    | (simp only [BitVec.getLsbD_append]; simp)

/-- The CSR number in an immediate. -/
theorem csr_field (csr : BitVec 12) :
    (((0 : BitVec 1) ++ csr : BitVec 13)).extractLsb' 0 12 = csr ∧ (((0 : BitVec 1) ++ csr : BitVec 13)).getLsbD 12 = false := by
  refine ⟨?_, ?_⟩
  all_goals first
    | (apply BitVec.eq_of_getLsbD_eq
       intro i hi
       simp only [BitVec.getLsbD_extractLsb', BitVec.getLsbD_append, hi, decide_true, Bool.true_and]
       repeat rw [if_neg (by omega)]
       try rw [if_pos (by omega)]
       first
         | (congr 1; omega)
         | simp)
    | (simp only [BitVec.getLsbD_append]; simp)

/-- The index vector register in a scalar field. -/
theorem index_field (b : BitVec 5) :
    (((0 : BitVec 1) ++ b : BitVec 6)).extractLsb' 0 5 = b ∧ (((0 : BitVec 1) ++ b : BitVec 6)).getLsbD 5 = false := by
  refine ⟨?_, ?_⟩
  all_goals first
    | (apply BitVec.eq_of_getLsbD_eq
       intro i hi
       simp only [BitVec.getLsbD_extractLsb', BitVec.getLsbD_append, hi, decide_true, Bool.true_and]
       repeat rw [if_neg (by omega)]
       try rw [if_pos (by omega)]
       first
         | (congr 1; omega)
         | simp)
    | (simp only [BitVec.getLsbD_append]; simp)

/-- The register of a repeat count. -/
theorem count_field (g : BitVec 6) :
    ((g ++ (0 : BitVec 8) : BitVec 14)).extractLsb' 0 8 = 0 ∧ ((g ++ (0 : BitVec 8) : BitVec 14)).extractLsb' 8 6 = g := by
  refine ⟨?_, ?_⟩
  all_goals first
    | (apply BitVec.eq_of_getLsbD_eq
       intro i hi
       simp only [BitVec.getLsbD_extractLsb', BitVec.getLsbD_append, hi, decide_true, Bool.true_and]
       repeat rw [if_neg (by omega)]
       try rw [if_pos (by omega)]
       first
         | (congr 1; omega)
         | simp)
    | (simp only [BitVec.getLsbD_append]; simp)

/-- The parts of the offset of a fence. -/
theorem fence_field (eng : Bool) (scope : BitVec 3) :
    (((0 : BitVec 6) ++ BitVec.ofBool eng ++ scope : BitVec 10)).extractLsb' 0 3 = scope ∧
      (((0 : BitVec 6) ++ BitVec.ofBool eng ++ scope : BitVec 10)).extractLsb' 4 6 = 0 ∧
      (((0 : BitVec 6) ++ BitVec.ofBool eng ++ scope : BitVec 10)).getLsbD 3 = eng ∧
      (((0 : BitVec 6) ++ BitVec.ofBool eng ++ scope : BitVec 10)).getLsbD 2 = scope.getLsbD 2 := by
  refine ⟨?_, ?_, ?_, ?_⟩
  all_goals first
    | (apply BitVec.eq_of_getLsbD_eq
       intro i hi
       simp only [BitVec.getLsbD_extractLsb', BitVec.getLsbD_append, hi, decide_true, Bool.true_and]
       repeat rw [if_neg (by omega)]
       try rw [if_pos (by omega)]
       first
         | (congr 1; omega)
         | simp)
    | (simp only [BitVec.getLsbD_append]; simp)


end Sys2Proof
end

