-- ==== Sys2Proof/Laws/Ending.lean ====
section
/-! SUPPORT. What completing leaves when an instruction has changed more than its registers: its own strand, and everything else. -/

namespace Sys2Proof.Machine

open Sys2Proof

/-- A state that differs in its own strand from one with joined chunks differs so from the state before. -/
theorem Own.of_joined {s t : State} {cs : List Chunk} {n : Nat} {a : Arch} {out : List Out}
    (h : Own (s.joined cs n) t a out) : Own s t a out := by
  obtain ⟨h1, h2, h3, h4, h5⟩ := h
  simp only [State.joined_cur] at h1 h2 h3 h4 h5
  refine ⟨h1, h2, h3, ?_, fun k hk => ?_⟩
  · simp only [State.joined_me, State.joined_strand] at h4
    have := congrArg (fun x : Strand => { x with chunks := (s.strand s.cur).chunks, nextChunk := (s.strand s.cur).nextChunk }) h4
    exact this
  · rw [h5 k hk, State.joined_others s cs n hk]

/-- A completed instruction in whose state the own strand is `x` and the others are as before. -/
theorem own_done {s v : State} {x : Strand} (hcur : v.cur = s.cur) (hst : v.strands = mapSet s.cur x s.strands)
    (hx : x = { s.strand s.cur with arch := x.arch, out := x.out, chunks := x.chunks, nextChunk := x.nextChunk }) :
    Own s (Act.done v).settle x.arch.advance x.out := by
  have hs : v.strand s.cur = x := by simp [State.strand, hst]
  have ho : ∀ k, k ≠ s.cur → v.strand k = s.strand k := by
    intro k hk
    simp [State.strand, hst, mapGet_mapSet_ne _ _ hk]
  refine ⟨?_, ?_, ?_, ?_, ?_⟩
  · simp [Act.settle, State.counted_eq, State.onArch, State.onStrand, Strand.onOpen, State.arch, hcur, hs]
  · simp [Act.settle, State.counted_eq, State.onArch, State.onStrand, Strand.onOpen, hcur, hs]
  · simp [Act.settle, State.counted_eq, State.onArch, State.onStrand, Strand.onOpen, hcur, hs]
  · rw [hx] at hs
    simp [Act.settle, State.counted_eq, State.onArch, State.onStrand, Strand.onOpen, hcur, hs, State.me, State.arch]
  · intro j hj
    simp only [Act.settle, State.counted_eq, State.onArch, State.onStrand, State.setStrand_cur, hcur]
    rw [State.strand_setStrand_ne _ hj, State.strand_setStrand_ne _ hj]
    exact ho j hj

/-- An instruction that leaves its strand alone and changes the rest of the package. -/
theorem Issues.own {priv : Bool} {reads : List RegName} {s u v : State} (h : Issues priv reads s u) (hcur : v.cur = u.cur)
    (hst : v.strands = u.strands) : Own s (Act.done v).settle s.me.advance (s.strand s.cur).out := by
  obtain ⟨cs, n, rfl⟩ := h.eq
  refine Own.of_joined (cs := cs) (n := n) ?_
  have hs : ∀ k, v.strand k = (s.joined cs n).strand k := by simp [State.strand, hst]
  have hc : v.cur = s.cur := hcur
  refine ⟨?_, ?_, ?_, ?_, fun j hj => ?_⟩
  · simp [Act.settle, State.counted_eq, State.onArch, State.onStrand, Strand.onOpen, State.arch, hc, hs, State.me]
  · simp [Act.settle, State.counted_eq, State.onArch, State.onStrand, Strand.onOpen, hc, hs]
  · simp [Act.settle, State.counted_eq, State.onArch, State.onStrand, Strand.onOpen, hc, hs]
  · simp [Act.settle, State.counted_eq, State.onArch, State.onStrand, Strand.onOpen, hc, hs, State.me, State.arch]
  · simp only [State.joined_cur] at hj
    simp only [Act.settle, State.counted_eq, State.onArch, State.onStrand, State.setStrand_cur, hc]
    rw [State.strand_setStrand_ne _ hj, State.strand_setStrand_ne _ hj]
    exact hs j

/-- What a completed terminator leaves of its strand and of everything else. -/
theorem settleT_done {v : State} :
    (Act.done v).settleT.arch v.cur = (v.arch v.cur).ended ∧ ((Act.done v).settleT.strand v.cur).wait = .none ∧
      { (Act.done v).settleT.strand v.cur with
        arch := v.arch v.cur, wait := (v.strand v.cur).wait, chunks := (v.strand v.cur).chunks } = v.strand v.cur ∧
      (∀ k, k ≠ v.cur → (Act.done v).settleT.strand k = v.strand k) ∧ { (Act.done v).settleT with strands := v.strands } = v := by
  refine ⟨?_, ?_, ?_, fun k hk => ?_, ?_⟩
  · simp [Act.settleT, State.begun, State.onArch, State.onStrand, Strand.onOpen, State.arch, Arch.ended]
  · simp [Act.settleT, State.begun, State.onArch, State.onStrand, Strand.onOpen]
  · simp [Act.settleT, State.begun, State.onArch, State.onStrand, Strand.onOpen, State.arch]
  · simp only [Act.settleT, State.begun, State.onArch, State.onStrand, State.setStrand_cur]
    rw [State.strand_setStrand_ne _ hk, State.strand_setStrand_ne _ hk]
  · simp [Act.settleT, State.begun, State.onArch, State.onStrand, State.setStrand]

/-- A completed terminator in whose state the own strand is `x` and the others are as before. -/
theorem own_end {s v : State} {x : Strand} (hcur : v.cur = s.cur) (hst : v.strands = mapSet s.cur x s.strands)
    (hx : x = { s.strand s.cur with arch := x.arch, out := x.out }) : Own s (Act.done v).settleT x.arch.ended x.out := by
  have hs : v.strand s.cur = x := by simp [State.strand, hst]
  obtain ⟨h1, h2, h3, h4, -⟩ := settleT_done (v := v)
  rw [hcur] at h1 h2 h3 h4
  have ha : v.arch s.cur = x.arch := by simp [State.arch, hs]
  rw [ha] at h1 h3
  rw [hs] at h3
  refine ⟨h1, ?_, h2, ?_, fun k hk => ?_⟩
  · have := congrArg (·.out) h3
    exact this
  · have := congrArg (fun y : Strand =>
      { y with arch := s.me, out := (s.strand s.cur).out, wait := (s.strand s.cur).wait, chunks := (s.strand s.cur).chunks,
               nextChunk := (s.strand s.cur).nextChunk }) h3
    refine this.trans ?_
    rw [hx]
    simp [State.me, State.arch]
  · rw [h4 k hk]
    simp [State.strand, hst, mapGet_mapSet_ne _ _ hk]

/-- A completed terminator that has left its strand alone. -/
theorem end_own {u v : State} (hcur : v.cur = u.cur) (hst : v.strands = u.strands) :
    Own u (Act.done v).settleT u.me.ended (u.strand u.cur).out := by
  have hs : ∀ k, v.strand k = u.strand k := by simp [State.strand, hst]
  have ha : v.arch u.cur = u.me := by simp [State.arch, hs, State.me]
  obtain ⟨h1, h2, h3, h4, -⟩ := settleT_done (v := v)
  rw [hcur] at h1 h2 h3 h4
  rw [ha] at h1 h3
  rw [hs] at h3
  refine ⟨h1, ?_, h2, ?_, fun k hk => (h4 k hk).trans (hs k)⟩
  · have := congrArg (·.out) h3
    exact this
  · have := congrArg (fun y : Strand =>
      { y with arch := u.me, out := (u.strand u.cur).out, wait := (u.strand u.cur).wait, chunks := (u.strand u.cur).chunks,
               nextChunk := (u.strand u.cur).nextChunk }) h3
    refine this.trans ?_
    simp [State.me, State.arch]

/-- A terminator that has nothing to do but end its chunk. -/
theorem MayEnd.ran {priv waits : Bool} {reads : List RegName} {s u : State} (h : MayEnd priv waits reads s u) {body : State → Act}
    (hb : body u = .done u) : ∃ t, terminate priv waits reads s body = .next t ∧ Ran u t u.me.ended (u.strand s.cur).out := by
  refine ⟨_, terminate_of_mayEnd h body, ?_⟩
  rw [hb, ← h.cur]
  have e : ({ u with serial := u.serial } : State).setStrand u.cur (u.strand u.cur) = u.setStrand u.cur (u.strand u.cur) := rfl
  have x := ran_settleT (s := u) (t := u.strand u.cur) (k := u.serial) rfl
  have : (Act.done (u.setStrand u.cur (u.strand u.cur))).settleT = (Act.done u).settleT := by
    simp [Act.settleT, State.begun, State.onArch, State.onStrand]
  rw [e, this] at x
  exact x

/-! ## The entries an access touches -/

/-- An access reorders entries of its core's PLB and page buffer, and does nothing else. -/
theorem touch_eq (s : State) (sid : Nat) (store : Bool) (x : Access) : ∃ c, s.touchAccess sid store x = { s with cores := c } ∧
    ((∀ va, s.place (coreOf sid) x.va ≠ .mapped va) → c = s.cores) := by
  unfold State.touchAccess
  split
  · rename_i a h
    exact ⟨_, rfl, fun hx => absurd h (hx a)⟩
  · exact ⟨_, rfl, fun _ => rfl⟩

/-- The start of a fill changes the core alone. -/
theorem fill_eq (s : State) (sid : Nat) (bits : BitVec 8) (a : Nat) : ∃ c, s.l1Fill sid bits a = { s with cores := c } := by
  unfold State.l1Fill
  split
  · exact ⟨_, rfl⟩
  · exact ⟨s.cores, rfl⟩

/-- A load touches its line in the L1, or starts a fill, and does nothing else. -/
theorem l1_eq (s : State) (sid : Nat) (x : Access) : ∃ c, s.l1Load sid x = { s with cores := c } ∧
    ((∀ va, s.place (coreOf sid) x.va ≠ .mapped va) → c = s.cores) := by
  unfold State.l1Load
  split
  · rename_i a h
    obtain ⟨c, hc⟩ := fill_eq (s.onCore (coreOf sid) fun c =>
      match l1Find c.l1 a with
      | some y => { c with l1 := touch y c.l1 }
      | none => c) sid (1 <<< (a / 16 % 8)) x.va
    exact ⟨c, hc.trans rfl, fun hx => absurd h (hx a)⟩
  · exact ⟨_, rfl, fun _ => rfl⟩

/-- A strand that waits: nothing else changes but its event counters. -/
theorem waiting_eq (s : State) (w : Wait) : (∀ k, k ≠ s.cur → (s.waiting w).strand k = s.strand k) ∧
    ((s.waiting w).strand s.cur).wait = w ∧ { s.waiting w with strands := s.strands } = s :=
  ⟨fun _ hk => State.strand_setStrand_ne _ hk _, by simp [State.waiting, State.onStrand], rfl⟩

end Sys2Proof.Machine
end

