-- ==== Sys2Proof/Laws/Operands.lean ====
section
/-! SUPPORT. What the checks of an operand leave: only a core's PLB may have been filled; and what a place of sectors leaves of the
strand that issues. -/

namespace Sys2Proof.Machine

open Sys2Proof

/-- Two states that differ at most in the cores. -/
def CoresOnly (s t : State) : Prop := ∃ c, t = { s with cores := c }

theorem CoresOnly.refl (s : State) : CoresOnly s s := ⟨s.cores, rfl⟩
theorem CoresOnly.trans {s t u : State} (h : CoresOnly s t) (g : CoresOnly t u) : CoresOnly s u := by
  obtain ⟨a, rfl⟩ := h
  obtain ⟨b, rfl⟩ := g
  exact ⟨b, rfl⟩
theorem CoresOnly.cur {s t : State} (h : CoresOnly s t) : t.cur = s.cur := by
  obtain ⟨a, rfl⟩ := h
  rfl
theorem CoresOnly.strands {s t : State} (h : CoresOnly s t) : t.strands = s.strands := by
  obtain ⟨a, rfl⟩ := h
  rfl
theorem CoresOnly.me {s t : State} (h : CoresOnly s t) : t.me = s.me := by
  obtain ⟨a, rfl⟩ := h
  rfl

/-- The PLB check of a range may fill the PLB and changes nothing else. -/
theorem plbRange_cores (sid : Nat) (rights : List Right) (hi fuel : Nat) :
    ∀ (s : State) (a : Nat), CoresOnly s (s.plbRange sid rights hi a fuel).1 := by
  induction fuel with
  | zero => intro s a; exact CoresOnly.refl s
  | succ n ih =>
    intro s a
    unfold State.plbRange
    split
    · exact CoresOnly.refl s
    · dsimp only
      split
      · split
        · exact CoresOnly.trans ⟨_, rfl⟩ (ih (s.usePlb sid a) _)
        · exact ⟨_, rfl⟩
      · split
        · exact CoresOnly.refl s
        · split
          · exact CoresOnly.trans ⟨_, rfl⟩ (ih (s.onCore (coreOf sid) fun c => { c with plb := install 64 _ c.plb }) _)
          · exact ⟨_, rfl⟩

theorem areaRights_cores (s : State) (sid : Nat) (r : List Right) (a len : Nat) : CoresOnly s (s.areaRights sid r a len).1 := by
  unfold State.areaRights
  split
  · exact CoresOnly.refl s
  · split <;> exact CoresOnly.refl s
  · rename_i va _
    have h := plbRange_cores sid r (va + len) (len / 2 ^ 20 + 2) s va
    split
    · rename_i e
      rw [e] at h
      exact h
    · rename_i e
      rw [e] at h
      exact h

theorem areaCheck_cores (s : State) (sid : Nat) (store : Bool) (r : List Right) (a len : Nat) :
    CoresOnly s (s.areaCheck sid store r a len).1 := by
  have h := areaRights_cores s sid r a len
  unfold State.areaCheck
  split
  · rename_i e
    rw [e] at h
    exact h
  · rename_i e
    rw [e] at h
    exact h

theorem recordArea_cores (s : State) (c : Reg) (len al : Nat) (perms : List Nat) (store range : Bool) :
    CoresOnly s (s.recordArea c len al perms store range).1 := by
  have h1 := areaRights_cores s s.cur [if store then .w else .r] c.cursor len
  have h2 := areaCheck_cores s s.cur store [if store then .w else .r] c.cursor len
  unfold State.recordArea
  dsimp only
  split
  · exact CoresOnly.refl s
  · have key : ∀ b : Bool, CoresOnly s (if b = true then (s, Except.error (Stop.at .align c.cursor)) else
        match (if range = true then s.areaCheck s.cur store [if store = true then Right.w else Right.r] c.cursor len
          else s.areaRights s.cur [if store = true then Right.w else Right.r] c.cursor len) with
        | (s, some x) => (s, .error x)
        | (s, none) =>
          match s.areaLocs s.cur store c.cursor ((len + 15) / 16) with
          | .error x => (s, .error (Stop.at .pgflt x))
          | .ok l => (s, match if store = true then none else s.serveArea s.cur c.cursor len l with
            | some w => .error (Stop.wait w)
            | none => .ok l)).1 := by
      intro b
      cases b with
      | true => exact CoresOnly.refl s
      | false =>
        simp only [Bool.false_eq_true, if_false]
        have h : CoresOnly s (if range = true then s.areaCheck s.cur store [if store = true then Right.w else Right.r] c.cursor len
          else s.areaRights s.cur [if store = true then Right.w else Right.r] c.cursor len).1 := by
          cases range
          · exact h1
          · exact h2
        split
        · rename_i e
          rw [e] at h
          exact h
        · rename_i e
          rw [e] at h
          split <;> exact h
    exact key _

theorem putSector_same (sid : Nat) (s : State) (loc : Nat) (x : Reg) : SameStrand sid s (s.putSector loc x) := by
  unfold State.putSector
  split
  · exact ⟨rfl, rfl⟩
  · exact forAll_rel (SameStrand sid) (SameStrand.refl sid) SameStrand.trans
      (fun (s : State) (b : Nat × Nat) => s.store b.1 [byteOf x.bits b.2]) (fun s x => ⟨rfl, rfl⟩) _ s

/-- A place of sectors leaves which strand issues, and that strand, as they were. -/
theorem placeSectors_same (s : State) (sid : Nat) (l : List (Nat × Reg)) : SameStrand sid s (s.placeSectors (some sid) l) := by
  unfold State.placeSectors
  dsimp only
  refine SameStrand.trans (b := forAll l (fun s x => s.putSector x.1 x.2) s) ?_ ?_
  · exact forAll_rel (SameStrand sid) (SameStrand.refl sid) SameStrand.trans
      (fun (s : State) (x : Nat × Reg) => s.putSector x.1 x.2) (fun s x => putSector_same sid s x.1 x.2) _ s
  · exact forAll_rel (SameStrand sid) (SameStrand.refl sid) SameStrand.trans _ (fun s d => squashReaders_same s sid d _) _ _

end Sys2Proof.Machine
end

