-- ==== Sys2Proof/Laws/PerInstr.lean ====
section
/-! SUPPORT. The family F of statements about each instruction as syntax: the word that the encoder gives a well-formed instruction is
read back by the decoder, with its park marker. One lemma for each constructor of `Instr`. -/

namespace Sys2Proof.Laws.F

open Sys2Proof

/-- The word of a well-formed instruction is decoded to it, with the park marker it was given. -/
def Statement (i : Instr) : Prop :=
  ∀ (p : Bool) (w : BitVec 32), i.wellFormed = true → encode p i = some w → decode w = .ok i ∧ parkBit w = p

theorem add (d : BitVec 6) (a : BitVec 6) (b : BitVec 6) : Statement (.add d a b) := by
  intro p w hw h; injection h with h; subst h
  exact ⟨(decode_integer p _).trans rfl, (readFA3_word p 1 _).2.2⟩

theorem sub (d : BitVec 6) (a : BitVec 6) (b : BitVec 6) : Statement (.sub d a b) := by
  intro p w hw h; injection h with h; subst h
  exact ⟨(decode_integer p _).trans rfl, (readFA3_word p 1 _).2.2⟩

theorem mul (d : BitVec 6) (a : BitVec 6) (b : BitVec 6) : Statement (.mul d a b) := by
  intro p w hw h; injection h with h; subst h
  exact ⟨(decode_integer p _).trans rfl, (readFA3_word p 1 _).2.2⟩

theorem mulh (d : BitVec 6) (a : BitVec 6) (b : BitVec 6) : Statement (.mulh d a b) := by
  intro p w hw h; injection h with h; subst h
  exact ⟨(decode_integer p _).trans rfl, (readFA3_word p 1 _).2.2⟩

theorem mulhz (d : BitVec 6) (a : BitVec 6) (b : BitVec 6) : Statement (.mulhz d a b) := by
  intro p w hw h; injection h with h; subst h
  exact ⟨(decode_integer p _).trans rfl, (readFA3_word p 1 _).2.2⟩

theorem div (d : BitVec 6) (a : BitVec 6) (b : BitVec 6) : Statement (.div d a b) := by
  intro p w hw h; injection h with h; subst h
  exact ⟨(decode_integer p _).trans rfl, (readFA3_word p 1 _).2.2⟩

theorem divz (d : BitVec 6) (a : BitVec 6) (b : BitVec 6) : Statement (.divz d a b) := by
  intro p w hw h; injection h with h; subst h
  exact ⟨(decode_integer p _).trans rfl, (readFA3_word p 1 _).2.2⟩

theorem rem (d : BitVec 6) (a : BitVec 6) (b : BitVec 6) : Statement (.rem d a b) := by
  intro p w hw h; injection h with h; subst h
  exact ⟨(decode_integer p _).trans rfl, (readFA3_word p 1 _).2.2⟩

theorem remz (d : BitVec 6) (a : BitVec 6) (b : BitVec 6) : Statement (.remz d a b) := by
  intro p w hw h; injection h with h; subst h
  exact ⟨(decode_integer p _).trans rfl, (readFA3_word p 1 _).2.2⟩

theorem and (d : BitVec 6) (a : BitVec 6) (b : BitVec 6) : Statement (.and d a b) := by
  intro p w hw h; injection h with h; subst h
  exact ⟨(decode_integer p _).trans rfl, (readFA3_word p 1 _).2.2⟩

theorem or (d : BitVec 6) (a : BitVec 6) (b : BitVec 6) : Statement (.or d a b) := by
  intro p w hw h; injection h with h; subst h
  exact ⟨(decode_integer p _).trans rfl, (readFA3_word p 1 _).2.2⟩

theorem xor (d : BitVec 6) (a : BitVec 6) (b : BitVec 6) : Statement (.xor d a b) := by
  intro p w hw h; injection h with h; subst h
  exact ⟨(decode_integer p _).trans rfl, (readFA3_word p 1 _).2.2⟩

theorem andn (d : BitVec 6) (a : BitVec 6) (b : BitVec 6) : Statement (.andn d a b) := by
  intro p w hw h; injection h with h; subst h
  exact ⟨(decode_integer p _).trans rfl, (readFA3_word p 1 _).2.2⟩

theorem shl (d : BitVec 6) (a : BitVec 6) (b : BitVec 6) : Statement (.shl d a b) := by
  intro p w hw h; injection h with h; subst h
  exact ⟨(decode_integer p _).trans rfl, (readFA3_word p 1 _).2.2⟩

theorem shr (d : BitVec 6) (a : BitVec 6) (b : BitVec 6) : Statement (.shr d a b) := by
  intro p w hw h; injection h with h; subst h
  exact ⟨(decode_integer p _).trans rfl, (readFA3_word p 1 _).2.2⟩

theorem sha (d : BitVec 6) (a : BitVec 6) (b : BitVec 6) : Statement (.sha d a b) := by
  intro p w hw h; injection h with h; subst h
  exact ⟨(decode_integer p _).trans rfl, (readFA3_word p 1 _).2.2⟩

theorem rol (d : BitVec 6) (a : BitVec 6) (b : BitVec 6) : Statement (.rol d a b) := by
  intro p w hw h; injection h with h; subst h
  exact ⟨(decode_integer p _).trans rfl, (readFA3_word p 1 _).2.2⟩

theorem min (d : BitVec 6) (a : BitVec 6) (b : BitVec 6) : Statement (.min d a b) := by
  intro p w hw h; injection h with h; subst h
  exact ⟨(decode_integer p _).trans rfl, (readFA3_word p 1 _).2.2⟩

theorem max (d : BitVec 6) (a : BitVec 6) (b : BitVec 6) : Statement (.max d a b) := by
  intro p w hw h; injection h with h; subst h
  exact ⟨(decode_integer p _).trans rfl, (readFA3_word p 1 _).2.2⟩

theorem minz (d : BitVec 6) (a : BitVec 6) (b : BitVec 6) : Statement (.minz d a b) := by
  intro p w hw h; injection h with h; subst h
  exact ⟨(decode_integer p _).trans rfl, (readFA3_word p 1 _).2.2⟩

theorem maxz (d : BitVec 6) (a : BitVec 6) (b : BitVec 6) : Statement (.maxz d a b) := by
  intro p w hw h; injection h with h; subst h
  exact ⟨(decode_integer p _).trans rfl, (readFA3_word p 1 _).2.2⟩

theorem clz (d : BitVec 6) (a : BitVec 6) : Statement (.clz d a) := by
  intro p w hw h; injection h with h; subst h
  exact ⟨(decode_integer p _).trans rfl, (readFA3_word p 1 _).2.2⟩

theorem ctz (d : BitVec 6) (a : BitVec 6) : Statement (.ctz d a) := by
  intro p w hw h; injection h with h; subst h
  exact ⟨(decode_integer p _).trans rfl, (readFA3_word p 1 _).2.2⟩

theorem popc (d : BitVec 6) (a : BitVec 6) : Statement (.popc d a) := by
  intro p w hw h; injection h with h; subst h
  exact ⟨(decode_integer p _).trans rfl, (readFA3_word p 1 _).2.2⟩

theorem mov (d : BitVec 6) (a : BitVec 6) : Statement (.mov d a) := by
  intro p w hw h; injection h with h; subst h
  exact ⟨(decode_integer p _).trans rfl, (readFA3_word p 1 _).2.2⟩

theorem sel (d : BitVec 6) (a : BitVec 6) (b : BitVec 6) : Statement (.sel d a b) := by
  intro p w hw h; injection h with h; subst h
  exact ⟨(decode_integer p _).trans rfl, (readFA3_word p 1 _).2.2⟩

theorem addI (d : BitVec 6) (a : BitVec 6) (imm : BitVec 13) : Statement (.addI d a imm) := by
  intro p w hw h; injection h with h; subst h
  exact ⟨(decode_addI p _).trans rfl, (readFAI_word p 2 _).2.2⟩

theorem andI (d : BitVec 6) (a : BitVec 6) (imm : BitVec 13) : Statement (.andI d a imm) := by
  intro p w hw h; injection h with h; subst h
  exact ⟨(decode_andI p _).trans rfl, (readFAI_word p 3 _).2.2⟩

theorem orI (d : BitVec 6) (a : BitVec 6) (imm : BitVec 13) : Statement (.orI d a imm) := by
  intro p w hw h; injection h with h; subst h
  exact ⟨(decode_orI p _).trans rfl, (readFAI_word p 4 _).2.2⟩

theorem xorI (d : BitVec 6) (a : BitVec 6) (imm : BitVec 13) : Statement (.xorI d a imm) := by
  intro p w hw h; injection h with h; subst h
  exact ⟨(decode_xorI p _).trans rfl, (readFAI_word p 5 _).2.2⟩

theorem shlI (d : BitVec 6) (a : BitVec 6) (n : BitVec 6) : Statement (.shlI d a n) := by
  intro p w hw h; injection h with h; subst h
  exact ⟨(decode_shiftI p _).trans (by
    simp only [decodeShiftI, (shift_field _ n).1, (shift_field _ n).2.1, (shift_field _ n).2.2]; rfl), (readFAI_word p 6 _).2.2⟩

theorem shrI (d : BitVec 6) (a : BitVec 6) (n : BitVec 6) : Statement (.shrI d a n) := by
  intro p w hw h; injection h with h; subst h
  exact ⟨(decode_shiftI p _).trans (by
    simp only [decodeShiftI, (shift_field _ n).1, (shift_field _ n).2.1, (shift_field _ n).2.2]; rfl), (readFAI_word p 6 _).2.2⟩

theorem shaI (d : BitVec 6) (a : BitVec 6) (n : BitVec 6) : Statement (.shaI d a n) := by
  intro p w hw h; injection h with h; subst h
  exact ⟨(decode_shiftI p _).trans (by
    simp only [decodeShiftI, (shift_field _ n).1, (shift_field _ n).2.1, (shift_field _ n).2.2]; rfl), (readFAI_word p 6 _).2.2⟩

theorem rolI (d : BitVec 6) (a : BitVec 6) (n : BitVec 6) : Statement (.rolI d a n) := by
  intro p w hw h; injection h with h; subst h
  exact ⟨(decode_shiftI p _).trans (by
    simp only [decodeShiftI, (shift_field _ n).1, (shift_field _ n).2.1, (shift_field _ n).2.2]; rfl), (readFAI_word p 6 _).2.2⟩

theorem li (d : BitVec 6) (imm : BitVec 19) : Statement (.li d imm) := by
  intro p w hw h; injection h with h; subst h
  exact ⟨(decode_li p _).trans rfl, (readFAL_word p 7 _).2.2⟩

theorem lis (d : BitVec 6) (imm : BitVec 19) : Statement (.lis d imm) := by
  intro p w hw h; injection h with h; subst h
  exact ⟨(decode_lis p _).trans rfl, (readFAL_word p 8 _).2.2⟩

theorem setEq (d : BitVec 6) (a : BitVec 6) (b : BitVec 6) : Statement (.setEq d a b) := by
  intro p w hw h; injection h with h; subst h
  exact ⟨(decode_set p _).trans rfl, (readFA3_word p 9 _).2.2⟩

theorem setNe (d : BitVec 6) (a : BitVec 6) (b : BitVec 6) : Statement (.setNe d a b) := by
  intro p w hw h; injection h with h; subst h
  exact ⟨(decode_set p _).trans rfl, (readFA3_word p 9 _).2.2⟩

theorem setLt (d : BitVec 6) (a : BitVec 6) (b : BitVec 6) : Statement (.setLt d a b) := by
  intro p w hw h; injection h with h; subst h
  exact ⟨(decode_set p _).trans rfl, (readFA3_word p 9 _).2.2⟩

theorem setGe (d : BitVec 6) (a : BitVec 6) (b : BitVec 6) : Statement (.setGe d a b) := by
  intro p w hw h; injection h with h; subst h
  exact ⟨(decode_set p _).trans rfl, (readFA3_word p 9 _).2.2⟩

theorem setLo (d : BitVec 6) (a : BitVec 6) (b : BitVec 6) : Statement (.setLo d a b) := by
  intro p w hw h; injection h with h; subst h
  exact ⟨(decode_set p _).trans rfl, (readFA3_word p 9 _).2.2⟩

theorem setHs (d : BitVec 6) (a : BitVec 6) (b : BitVec 6) : Statement (.setHs d a b) := by
  intro p w hw h; injection h with h; subst h
  exact ⟨(decode_set p _).trans rfl, (readFA3_word p 9 _).2.2⟩

theorem cincr (d : BitVec 6) (a : BitVec 6) (b : BitVec 6) : Statement (.cincr d a b) := by
  intro p w hw h; injection h with h; subst h
  exact ⟨(decode_cap p _).trans rfl, (readFA3_word p 10 _).2.2⟩

theorem cset (d : BitVec 6) (a : BitVec 6) (b : BitVec 6) : Statement (.cset d a b) := by
  intro p w hw h; injection h with h; subst h
  exact ⟨(decode_cap p _).trans rfl, (readFA3_word p 10 _).2.2⟩

theorem cbnd (d : BitVec 6) (a : BitVec 6) (b : BitVec 6) : Statement (.cbnd d a b) := by
  intro p w hw h; injection h with h; subst h
  exact ⟨(decode_cap p _).trans rfl, (readFA3_word p 10 _).2.2⟩

theorem cbndr (d : BitVec 6) (a : BitVec 6) (b : BitVec 6) : Statement (.cbndr d a b) := by
  intro p w hw h; injection h with h; subst h
  exact ⟨(decode_cap p _).trans rfl, (readFA3_word p 10 _).2.2⟩

theorem cperm (d : BitVec 6) (a : BitVec 6) (b : BitVec 6) : Statement (.cperm d a b) := by
  intro p w hw h; injection h with h; subst h
  exact ⟨(decode_cap p _).trans rfl, (readFA3_word p 10 _).2.2⟩

theorem cseal (d : BitVec 6) (a : BitVec 6) (b : BitVec 6) : Statement (.cseal d a b) := by
  intro p w hw h; injection h with h; subst h
  exact ⟨(decode_cap p _).trans rfl, (readFA3_word p 10 _).2.2⟩

theorem cunseal (d : BitVec 6) (a : BitVec 6) (b : BitVec 6) : Statement (.cunseal d a b) := by
  intro p w hw h; injection h with h; subst h
  exact ⟨(decode_cap p _).trans rfl, (readFA3_word p 10 _).2.2⟩

theorem cbase (d : BitVec 6) (a : BitVec 6) : Statement (.cbase d a) := by
  intro p w hw h; injection h with h; subst h
  exact ⟨(decode_cap p _).trans rfl, (readFA3_word p 10 _).2.2⟩

theorem clen (d : BitVec 6) (a : BitVec 6) : Statement (.clen d a) := by
  intro p w hw h; injection h with h; subst h
  exact ⟨(decode_cap p _).trans rfl, (readFA3_word p 10 _).2.2⟩

theorem cperms (d : BitVec 6) (a : BitVec 6) : Statement (.cperms d a) := by
  intro p w hw h; injection h with h; subst h
  exact ⟨(decode_cap p _).trans rfl, (readFA3_word p 10 _).2.2⟩

theorem ctag (d : BitVec 6) (a : BitVec 6) : Statement (.ctag d a) := by
  intro p w hw h; injection h with h; subst h
  exact ⟨(decode_cap p _).trans rfl, (readFA3_word p 10 _).2.2⟩

theorem cclr (d : BitVec 6) (a : BitVec 6) : Statement (.cclr d a) := by
  intro p w hw h; injection h with h; subst h
  exact ⟨(decode_cap p _).trans rfl, (readFA3_word p 10 _).2.2⟩

theorem ceq (d : BitVec 6) (a : BitVec 6) (b : BitVec 6) : Statement (.ceq d a b) := by
  intro p w hw h; injection h with h; subst h
  exact ⟨(decode_cap p _).trans rfl, (readFA3_word p 10 _).2.2⟩

theorem csub (d : BitVec 6) (a : BitVec 6) (b : BitVec 6) : Statement (.csub d a b) := by
  intro p w hw h; injection h with h; subst h
  exact ⟨(decode_cap p _).trans rfl, (readFA3_word p 10 _).2.2⟩

theorem cincrI (d : BitVec 6) (a : BitVec 6) (imm : BitVec 13) : Statement (.cincrI d a imm) := by
  intro p w hw h; injection h with h; subst h
  exact ⟨(decode_cincrI p _).trans rfl, (readFAI_word p 11 _).2.2⟩

theorem bEq (a : BitVec 6) (b : BitVec 6) (off : BitVec 10) : Statement (.bEq a b off) := by
  intro p w hw h; injection h with h; subst h
  exact ⟨(decode_branch p _).trans rfl, (readFBR_word p 12 _).2.2⟩

theorem bNe (a : BitVec 6) (b : BitVec 6) (off : BitVec 10) : Statement (.bNe a b off) := by
  intro p w hw h; injection h with h; subst h
  exact ⟨(decode_branch p _).trans rfl, (readFBR_word p 12 _).2.2⟩

theorem bLt (a : BitVec 6) (b : BitVec 6) (off : BitVec 10) : Statement (.bLt a b off) := by
  intro p w hw h; injection h with h; subst h
  exact ⟨(decode_branch p _).trans rfl, (readFBR_word p 12 _).2.2⟩

theorem bGe (a : BitVec 6) (b : BitVec 6) (off : BitVec 10) : Statement (.bGe a b off) := by
  intro p w hw h; injection h with h; subst h
  exact ⟨(decode_branch p _).trans rfl, (readFBR_word p 12 _).2.2⟩

theorem bLo (a : BitVec 6) (b : BitVec 6) (off : BitVec 10) : Statement (.bLo a b off) := by
  intro p w hw h; injection h with h; subst h
  exact ⟨(decode_branch p _).trans rfl, (readFBR_word p 12 _).2.2⟩

theorem bHs (a : BitVec 6) (b : BitVec 6) (off : BitVec 10) : Statement (.bHs a b off) := by
  intro p w hw h; injection h with h; subst h
  exact ⟨(decode_branch p _).trans rfl, (readFBR_word p 12 _).2.2⟩

theorem jmp (off : BitVec 25) : Statement (.jmp off) := by
  intro p w hw h; injection h with h; subst h
  exact ⟨(decode_jmp p _).trans rfl, (readFJL_word p 13 _).2.2⟩

theorem call (off : BitVec 25) : Statement (.call off) := by
  intro p w hw h; injection h with h; subst h
  exact ⟨(decode_call p _).trans rfl, (readFJL_word p 14 _).2.2⟩

theorem jr (a : BitVec 6) : Statement (.jr a) := by
  intro p w hw h; injection h with h; subst h
  exact ⟨(decode_jump p _).trans rfl, (readFA3_word p 15 _).2.2⟩

theorem callr (a : BitVec 6) : Statement (.callr a) := by
  intro p w hw h; injection h with h; subst h
  exact ⟨(decode_jump p _).trans rfl, (readFA3_word p 15 _).2.2⟩

theorem rptConst (len : BitVec 4) (d : BitVec 2) (a : BitVec 2) (b : BitVec 2) (cnt : BitVec 14) : Statement (.rptConst len d a b cnt) := by
  intro p w hw h; injection h with h; subst h
  exact ⟨(decode_rpt p _).trans rfl, (readFRP_word p 16 _).2.2⟩

theorem rptReg (len : BitVec 4) (d : BitVec 2) (a : BitVec 2) (b : BitVec 2) (g : BitVec 6) : Statement (.rptReg len d a b g) := by
  intro p w hw h; injection h with h; subst h
  exact ⟨(decode_rpt p _).trans (by
    simp only [decodeRpt, (count_field g).1, (count_field g).2]; rfl), (readFRP_word p 16 _).2.2⟩

theorem ldB (g : BitVec 6) (a : BitVec 6) (off : BitVec 10) : Statement (.ldB g a off) := by
  intro p w hw h; injection h with h; subst h
  exact ⟨(decode_load p _).trans rfl, (readFMM_word p 18 _).2.2⟩

theorem ldBz (g : BitVec 6) (a : BitVec 6) (off : BitVec 10) : Statement (.ldBz g a off) := by
  intro p w hw h; injection h with h; subst h
  exact ⟨(decode_load p _).trans rfl, (readFMM_word p 18 _).2.2⟩

theorem ldH (g : BitVec 6) (a : BitVec 6) (off : BitVec 10) : Statement (.ldH g a off) := by
  intro p w hw h; injection h with h; subst h
  exact ⟨(decode_load p _).trans rfl, (readFMM_word p 18 _).2.2⟩

theorem ldHz (g : BitVec 6) (a : BitVec 6) (off : BitVec 10) : Statement (.ldHz g a off) := by
  intro p w hw h; injection h with h; subst h
  exact ⟨(decode_load p _).trans rfl, (readFMM_word p 18 _).2.2⟩

theorem ldW (g : BitVec 6) (a : BitVec 6) (off : BitVec 10) : Statement (.ldW g a off) := by
  intro p w hw h; injection h with h; subst h
  exact ⟨(decode_load p _).trans rfl, (readFMM_word p 18 _).2.2⟩

theorem ldWz (g : BitVec 6) (a : BitVec 6) (off : BitVec 10) : Statement (.ldWz g a off) := by
  intro p w hw h; injection h with h; subst h
  exact ⟨(decode_load p _).trans rfl, (readFMM_word p 18 _).2.2⟩

theorem ldD (g : BitVec 6) (a : BitVec 6) (off : BitVec 10) : Statement (.ldD g a off) := by
  intro p w hw h; injection h with h; subst h
  exact ⟨(decode_load p _).trans rfl, (readFMM_word p 18 _).2.2⟩

theorem ldQ (g : BitVec 6) (a : BitVec 6) (off : BitVec 10) : Statement (.ldQ g a off) := by
  intro p w hw h; injection h with h; subst h
  exact ⟨(decode_load p _).trans rfl, (readFMM_word p 18 _).2.2⟩

theorem stB (g : BitVec 6) (a : BitVec 6) (off : BitVec 10) : Statement (.stB g a off) := by
  intro p w hw h; injection h with h; subst h
  exact ⟨(decode_store p _).trans rfl, (readFMM_word p 19 _).2.2⟩

theorem stH (g : BitVec 6) (a : BitVec 6) (off : BitVec 10) : Statement (.stH g a off) := by
  intro p w hw h; injection h with h; subst h
  exact ⟨(decode_store p _).trans rfl, (readFMM_word p 19 _).2.2⟩

theorem stW (g : BitVec 6) (a : BitVec 6) (off : BitVec 10) : Statement (.stW g a off) := by
  intro p w hw h; injection h with h; subst h
  exact ⟨(decode_store p _).trans rfl, (readFMM_word p 19 _).2.2⟩

theorem stD (g : BitVec 6) (a : BitVec 6) (off : BitVec 10) : Statement (.stD g a off) := by
  intro p w hw h; injection h with h; subst h
  exact ⟨(decode_store p _).trans rfl, (readFMM_word p 19 _).2.2⟩

theorem stQ (g : BitVec 6) (a : BitVec 6) (off : BitVec 10) : Statement (.stQ g a off) := by
  intro p w hw h; injection h with h; subst h
  exact ⟨(decode_store p _).trans rfl, (readFMM_word p 19 _).2.2⟩

theorem stc (g : BitVec 6) (a : BitVec 6) (off : BitVec 10) : Statement (.stc g a off) := by
  intro p w hw h; injection h with h; subst h
  exact ⟨(decode_store p _).trans rfl, (readFMM_word p 19 _).2.2⟩

theorem vld (v : BitVec 5) (a : BitVec 6) (vm : BitVec 3) (z : Bool) (m : Bool) : Statement (.vld v a vm z m) := by
  intro p w hw h; injection h with h; subst h
  exact ⟨(decode_vecMem p _).trans (if_pos hw), (readFVM_word p 20 _).2.2⟩

theorem vst (v : BitVec 5) (a : BitVec 6) (vm : BitVec 3) (m : Bool) : Statement (.vst v a vm m) := by
  intro p w hw h; injection h with h; subst h
  exact ⟨(decode_vecMem p _).trans (if_pos hw), (readFVM_word p 20 _).2.2⟩

theorem vldS (v : BitVec 5) (a : BitVec 6) (b : BitVec 6) (vm : BitVec 3) (z : Bool) (m : Bool) : Statement (.vldS v a b vm z m) := by
  intro p w hw h; injection h with h; subst h
  exact ⟨(decode_vecMem p _).trans (if_pos hw), (readFVM_word p 20 _).2.2⟩

theorem vstS (v : BitVec 5) (a : BitVec 6) (b : BitVec 6) (vm : BitVec 3) (m : Bool) : Statement (.vstS v a b vm m) := by
  intro p w hw h; injection h with h; subst h
  exact ⟨(decode_vecMem p _).trans (if_pos hw), (readFVM_word p 20 _).2.2⟩

theorem vldX (v : BitVec 5) (a : BitVec 6) (b : BitVec 5) (vm : BitVec 3) (z : Bool) (m : Bool) : Statement (.vldX v a b vm z m) := by
  intro p w hw h; injection h with h; subst h
  exact ⟨(decode_vecMem p _).trans (by
    simp only [decodeVecMem, (index_field b).1, (index_field b).2]; exact if_pos hw), (readFVM_word p 20 _).2.2⟩

theorem vstX (v : BitVec 5) (a : BitVec 6) (b : BitVec 5) (vm : BitVec 3) (m : Bool) : Statement (.vstX v a b vm m) := by
  intro p w hw h; injection h with h; subst h
  exact ⟨(decode_vecMem p _).trans (by
    simp only [decodeVecMem, (index_field b).1, (index_field b).2]; exact if_pos hw), (readFVM_word p 20 _).2.2⟩

theorem vldB (v : BitVec 5) (a : BitVec 6) (vm : BitVec 3) (z : Bool) (m : Bool) : Statement (.vldB v a vm z m) := by
  intro p w hw h; injection h with h; subst h
  exact ⟨(decode_vecMem p _).trans (if_pos hw), (readFVM_word p 20 _).2.2⟩

theorem vldH (v : BitVec 5) (a : BitVec 6) (vm : BitVec 3) (z : Bool) (m : Bool) : Statement (.vldH v a vm z m) := by
  intro p w hw h; injection h with h; subst h
  exact ⟨(decode_vecMemH p _).trans (if_pos hw), (readFVM_word p 21 _).2.2⟩

theorem vstH (v : BitVec 5) (a : BitVec 6) (vm : BitVec 3) (m : Bool) : Statement (.vstH v a vm m) := by
  intro p w hw h; injection h with h; subst h
  exact ⟨(decode_vecMemH p _).trans (if_pos hw), (readFVM_word p 21 _).2.2⟩

theorem vldHs (v : BitVec 5) (a : BitVec 6) (b : BitVec 6) (vm : BitVec 3) (z : Bool) (m : Bool) : Statement (.vldHs v a b vm z m) := by
  intro p w hw h; injection h with h; subst h
  exact ⟨(decode_vecMemH p _).trans (if_pos hw), (readFVM_word p 21 _).2.2⟩

theorem vstHs (v : BitVec 5) (a : BitVec 6) (b : BitVec 6) (vm : BitVec 3) (m : Bool) : Statement (.vstHs v a b vm m) := by
  intro p w hw h; injection h with h; subst h
  exact ⟨(decode_vecMemH p _).trans (if_pos hw), (readFVM_word p 21 _).2.2⟩

theorem vldHx (v : BitVec 5) (a : BitVec 6) (b : BitVec 5) (vm : BitVec 3) (z : Bool) (m : Bool) : Statement (.vldHx v a b vm z m) := by
  intro p w hw h; injection h with h; subst h
  exact ⟨(decode_vecMemH p _).trans (by
    simp only [decodeVecMemH, (index_field b).1, (index_field b).2]; exact if_pos hw), (readFVM_word p 21 _).2.2⟩

theorem vstHx (v : BitVec 5) (a : BitVec 6) (b : BitVec 5) (vm : BitVec 3) (m : Bool) : Statement (.vstHx v a b vm m) := by
  intro p w hw h; injection h with h; subst h
  exact ⟨(decode_vecMemH p _).trans (by
    simp only [decodeVecMemH, (index_field b).1, (index_field b).2]; exact if_pos hw), (readFVM_word p 21 _).2.2⟩

theorem pref (a : BitVec 6) (off : BitVec 10) : Statement (.pref a off) := by
  intro p w hw h; injection h with h; subst h
  exact ⟨(decode_line p _).trans rfl, (readFMM_word p 22 _).2.2⟩

theorem cln (a : BitVec 6) (off : BitVec 10) : Statement (.cln a off) := by
  intro p w hw h; injection h with h; subst h
  exact ⟨(decode_line p _).trans rfl, (readFMM_word p 22 _).2.2⟩

theorem inv (a : BitVec 6) (off : BitVec 10) : Statement (.inv a off) := by
  intro p w hw h; injection h with h; subst h
  exact ⟨(decode_line p _).trans rfl, (readFMM_word p 22 _).2.2⟩

theorem fence (eng : Bool) (scope : BitVec 3) : Statement (.fence eng scope) := by
  intro p w hw h; injection h with h; subst h
  exact ⟨(decode_line p _).trans (by
    simp only [decodeLine, (fence_field eng scope).1, (fence_field eng scope).2.1, (fence_field eng scope).2.2.1,
      (fence_field eng scope).2.2.2]; exact (if_neg (by rw [show scope.getLsbD 2 = false by simpa [Instr.wellFormed] using hw]; decide)).trans rfl), (readFMM_word p 22 _).2.2⟩

theorem trap (x : BitVec 6) : Statement (.trap x) := by
  intro p w hw h; injection h with h; subst h
  exact ⟨(decode_system p _).trans rfl, (readFXE_word p 23 _).2.2⟩

theorem idle (x : BitVec 6) : Statement (.idle x) := by
  intro p w hw h; injection h with h; subst h
  exact ⟨(decode_system p _).trans rfl, (readFXE_word p 23 _).2.2⟩

theorem ctxSave (x : BitVec 6) : Statement (.ctxSave x) := by
  intro p w hw h; injection h with h; subst h
  exact ⟨(decode_system p _).trans rfl, (readFXE_word p 23 _).2.2⟩

theorem ctxLoad (x : BitVec 6) : Statement (.ctxLoad x) := by
  intro p w hw h; injection h with h; subst h
  exact ⟨(decode_system p _).trans rfl, (readFXE_word p 23 _).2.2⟩

theorem gquit (x : BitVec 6) : Statement (.gquit x) := by
  intro p w hw h; injection h with h; subst h
  exact ⟨(decode_system p _).trans rfl, (readFXE_word p 23 _).2.2⟩

theorem gkill (x : BitVec 6) : Statement (.gkill x) := by
  intro p w hw h; injection h with h; subst h
  exact ⟨(decode_system p _).trans rfl, (readFXE_word p 23 _).2.2⟩

theorem gpre (x : BitVec 6) : Statement (.gpre x) := by
  intro p w hw h; injection h with h; subst h
  exact ⟨(decode_system p _).trans rfl, (readFXE_word p 23 _).2.2⟩

theorem csrr (d : BitVec 6) (csr : BitVec 12) : Statement (.csrr d csr) := by
  intro p w hw h; injection h with h; subst h
  exact ⟨(decode_csrr p _).trans (by
    simp only [decodeCsrr, (csr_field csr).1, (csr_field csr).2]; rfl), (readFAI_word p 24 _).2.2⟩

theorem csrw (a : BitVec 6) (csr : BitVec 12) : Statement (.csrw a csr) := by
  intro p w hw h; injection h with h; subst h
  exact ⟨(decode_csrw p _).trans (by
    simp only [decodeCsrw, (csr_field csr).1, (csr_field csr).2]; rfl), (readFAI_word p 25 _).2.2⟩

theorem csrx (d : BitVec 6) (a : BitVec 6) (csr : BitVec 12) : Statement (.csrx d a csr) := by
  intro p w hw h; injection h with h; subst h
  exact ⟨(decode_csrx p _).trans (by
    simp only [decodeCsrx, (csr_field csr).1, (csr_field csr).2]; rfl), (readFAI_word p 26 _).2.2⟩

theorem sfqRd (x : BitVec 6) (y : BitVec 6) (zr : BitVec 6) : Statement (.sfqRd x y zr) := by
  intro p w hw h; injection h with h; subst h
  exact ⟨(decode_sfq p _).trans rfl, (readFXE_word p 27 _).2.2⟩

theorem plbInv (x : BitVec 6) (y : BitVec 6) : Statement (.plbInv x y) := by
  intro p w hw h; injection h with h; subst h
  exact ⟨(decode_sfq p _).trans rfl, (readFXE_word p 27 _).2.2⟩

theorem mapInv (x : BitVec 6) (y : BitVec 6) : Statement (.mapInv x y) := by
  intro p w hw h; injection h with h; subst h
  exact ⟨(decode_sfq p _).trans rfl, (readFXE_word p 27 _).2.2⟩

theorem amoAdd (d : BitVec 6) (a : BitVec 6) (b : BitVec 6) (w : Bool) : Statement (.amoAdd d a b w) := by
  intro p w hw h; injection h with h; subst h
  exact ⟨(decode_amo p _).trans (by
    simp only [decodeAmo, (atomic_field w _).1, (atomic_field w _).2]; rfl), (readFA3_word p 28 _).2.2⟩

theorem amoAnd (d : BitVec 6) (a : BitVec 6) (b : BitVec 6) (w : Bool) : Statement (.amoAnd d a b w) := by
  intro p w hw h; injection h with h; subst h
  exact ⟨(decode_amo p _).trans (by
    simp only [decodeAmo, (atomic_field w _).1, (atomic_field w _).2]; rfl), (readFA3_word p 28 _).2.2⟩

theorem amoOr (d : BitVec 6) (a : BitVec 6) (b : BitVec 6) (w : Bool) : Statement (.amoOr d a b w) := by
  intro p w hw h; injection h with h; subst h
  exact ⟨(decode_amo p _).trans (by
    simp only [decodeAmo, (atomic_field w _).1, (atomic_field w _).2]; rfl), (readFA3_word p 28 _).2.2⟩

theorem amoXor (d : BitVec 6) (a : BitVec 6) (b : BitVec 6) (w : Bool) : Statement (.amoXor d a b w) := by
  intro p w hw h; injection h with h; subst h
  exact ⟨(decode_amo p _).trans (by
    simp only [decodeAmo, (atomic_field w _).1, (atomic_field w _).2]; rfl), (readFA3_word p 28 _).2.2⟩

theorem amoMin (d : BitVec 6) (a : BitVec 6) (b : BitVec 6) (w : Bool) : Statement (.amoMin d a b w) := by
  intro p w hw h; injection h with h; subst h
  exact ⟨(decode_amo p _).trans (by
    simp only [decodeAmo, (atomic_field w _).1, (atomic_field w _).2]; rfl), (readFA3_word p 28 _).2.2⟩

theorem amoMax (d : BitVec 6) (a : BitVec 6) (b : BitVec 6) (w : Bool) : Statement (.amoMax d a b w) := by
  intro p w hw h; injection h with h; subst h
  exact ⟨(decode_amo p _).trans (by
    simp only [decodeAmo, (atomic_field w _).1, (atomic_field w _).2]; rfl), (readFA3_word p 28 _).2.2⟩

theorem amoMinz (d : BitVec 6) (a : BitVec 6) (b : BitVec 6) (w : Bool) : Statement (.amoMinz d a b w) := by
  intro p w hw h; injection h with h; subst h
  exact ⟨(decode_amo p _).trans (by
    simp only [decodeAmo, (atomic_field w _).1, (atomic_field w _).2]; rfl), (readFA3_word p 28 _).2.2⟩

theorem amoMaxz (d : BitVec 6) (a : BitVec 6) (b : BitVec 6) (w : Bool) : Statement (.amoMaxz d a b w) := by
  intro p w hw h; injection h with h; subst h
  exact ⟨(decode_amo p _).trans (by
    simp only [decodeAmo, (atomic_field w _).1, (atomic_field w _).2]; rfl), (readFA3_word p 28 _).2.2⟩

theorem amoSwap (d : BitVec 6) (a : BitVec 6) (b : BitVec 6) (w : Bool) : Statement (.amoSwap d a b w) := by
  intro p w hw h; injection h with h; subst h
  exact ⟨(decode_amo p _).trans (by
    simp only [decodeAmo, (atomic_field w _).1, (atomic_field w _).2]; rfl), (readFA3_word p 28 _).2.2⟩

theorem amoCas (d : BitVec 6) (a : BitVec 6) (b : BitVec 6) (w : Bool) : Statement (.amoCas d a b w) := by
  intro p w hw h; injection h with h; subst h
  exact ⟨(decode_amo p _).trans (by
    simp only [decodeAmo, (atomic_field w _).1, (atomic_field w _).2]; rfl), (readFA3_word p 28 _).2.2⟩

theorem amoFaddW (d : BitVec 6) (a : BitVec 6) (b : BitVec 6) : Statement (.amoFaddW d a b) := by
  intro p w hw h; injection h with h; subst h
  exact ⟨(decode_amo p _).trans (by simp [decodeAmo]), (readFA3_word p 28 _).2.2⟩

theorem amoTopkD (d : BitVec 6) (a : BitVec 6) (b : BitVec 6) : Statement (.amoTopkD d a b) := by
  intro p w hw h; injection h with h; subst h
  exact ⟨(decode_amo p _).trans (by simp [decodeAmo]), (readFA3_word p 28 _).2.2⟩

theorem bnCnt (d : BitVec 6) (a : BitVec 6) : Statement (.bnCnt d a) := by
  intro p w hw h; injection h with h; subst h
  exact ⟨(decode_stitch p _).trans rfl, (readFA3_word p 29 _).2.2⟩

theorem bnAnti (d : BitVec 6) (a : BitVec 6) : Statement (.bnAnti d a) := by
  intro p w hw h; injection h with h; subst h
  exact ⟨(decode_stitch p _).trans rfl, (readFA3_word p 29 _).2.2⟩

theorem bnSpread (a : BitVec 6) (b : BitVec 6) : Statement (.bnSpread a b) := by
  intro p w hw h; injection h with h; subst h
  exact ⟨(decode_stitch p _).trans rfl, (readFA3_word p 29 _).2.2⟩

theorem bnArr (a : BitVec 6) (b : BitVec 6) : Statement (.bnArr a b) := by
  intro p w hw h; injection h with h; subst h
  exact ⟨(decode_stitch p _).trans rfl, (readFA3_word p 29 _).2.2⟩

theorem bnWait (a : BitVec 6) (b : BitVec 6) : Statement (.bnWait a b) := by
  intro p w hw h; injection h with h; subst h
  exact ⟨(decode_stitch p _).trans rfl, (readFA3_word p 29 _).2.2⟩

theorem bnCfg (a : BitVec 6) (b : BitVec 6) : Statement (.bnCfg a b) := by
  intro p w hw h; injection h with h; subst h
  exact ⟨(decode_stitch p _).trans rfl, (readFA3_word p 29 _).2.2⟩

theorem bnClr (a : BitVec 6) (b : BitVec 6) : Statement (.bnClr a b) := by
  intro p w hw h; injection h with h; subst h
  exact ⟨(decode_stitch p _).trans rfl, (readFA3_word p 29 _).2.2⟩

theorem bnRd (d : BitVec 6) (a : BitVec 6) : Statement (.bnRd d a) := by
  intro p w hw h; injection h with h; subst h
  exact ⟨(decode_stitch p _).trans rfl, (readFA3_word p 29 _).2.2⟩

theorem vadd (d : BitVec 5) (a : BitVec 5) (b : BitVec 5) (vm : BitVec 3) (z : Bool) (m : Bool) : Statement (.vadd d a b vm z m) := by
  intro p w hw h; injection h with h; subst h
  exact ⟨(decode_fp p _).trans (if_pos hw), (readFV3_word p 30 _).2.2⟩

theorem vsub (d : BitVec 5) (a : BitVec 5) (b : BitVec 5) (vm : BitVec 3) (z : Bool) (m : Bool) : Statement (.vsub d a b vm z m) := by
  intro p w hw h; injection h with h; subst h
  exact ⟨(decode_fp p _).trans (if_pos hw), (readFV3_word p 30 _).2.2⟩

theorem vmul (d : BitVec 5) (a : BitVec 5) (b : BitVec 5) (vm : BitVec 3) (z : Bool) (m : Bool) : Statement (.vmul d a b vm z m) := by
  intro p w hw h; injection h with h; subst h
  exact ⟨(decode_fp p _).trans (if_pos hw), (readFV3_word p 30 _).2.2⟩

theorem vfma (d : BitVec 5) (a : BitVec 5) (b : BitVec 5) (vm : BitVec 3) (z : Bool) (m : Bool) : Statement (.vfma d a b vm z m) := by
  intro p w hw h; injection h with h; subst h
  exact ⟨(decode_fp p _).trans (if_pos hw), (readFV3_word p 30 _).2.2⟩

theorem vfms (d : BitVec 5) (a : BitVec 5) (b : BitVec 5) (vm : BitVec 3) (z : Bool) (m : Bool) : Statement (.vfms d a b vm z m) := by
  intro p w hw h; injection h with h; subst h
  exact ⟨(decode_fp p _).trans (if_pos hw), (readFV3_word p 30 _).2.2⟩

theorem vfnma (d : BitVec 5) (a : BitVec 5) (b : BitVec 5) (vm : BitVec 3) (z : Bool) (m : Bool) : Statement (.vfnma d a b vm z m) := by
  intro p w hw h; injection h with h; subst h
  exact ⟨(decode_fp p _).trans (if_pos hw), (readFV3_word p 30 _).2.2⟩

theorem vmin (d : BitVec 5) (a : BitVec 5) (b : BitVec 5) (vm : BitVec 3) (z : Bool) (m : Bool) : Statement (.vmin d a b vm z m) := by
  intro p w hw h; injection h with h; subst h
  exact ⟨(decode_fp p _).trans (if_pos hw), (readFV3_word p 30 _).2.2⟩

theorem vmax (d : BitVec 5) (a : BitVec 5) (b : BitVec 5) (vm : BitVec 3) (z : Bool) (m : Bool) : Statement (.vmax d a b vm z m) := by
  intro p w hw h; injection h with h; subst h
  exact ⟨(decode_fp p _).trans (if_pos hw), (readFV3_word p 30 _).2.2⟩

theorem vabs (d : BitVec 5) (a : BitVec 5) (vm : BitVec 3) (z : Bool) (m : Bool) : Statement (.vabs d a vm z m) := by
  intro p w hw h; injection h with h; subst h
  exact ⟨(decode_fp p _).trans (if_pos hw), (readFV3_word p 30 _).2.2⟩

theorem vneg (d : BitVec 5) (a : BitVec 5) (vm : BitVec 3) (z : Bool) (m : Bool) : Statement (.vneg d a vm z m) := by
  intro p w hw h; injection h with h; subst h
  exact ⟨(decode_fp p _).trans (if_pos hw), (readFV3_word p 30 _).2.2⟩

theorem vcmpEq (d : BitVec 5) (a : BitVec 5) (b : BitVec 5) (vm : BitVec 3) (z : Bool) (m : Bool) : Statement (.vcmpEq d a b vm z m) := by
  intro p w hw h; injection h with h; subst h
  exact ⟨(decode_fp p _).trans (if_pos hw), (readFV3_word p 30 _).2.2⟩

theorem vcmpLt (d : BitVec 5) (a : BitVec 5) (b : BitVec 5) (vm : BitVec 3) (z : Bool) (m : Bool) : Statement (.vcmpLt d a b vm z m) := by
  intro p w hw h; injection h with h; subst h
  exact ⟨(decode_fp p _).trans (if_pos hw), (readFV3_word p 30 _).2.2⟩

theorem vcmpLe (d : BitVec 5) (a : BitVec 5) (b : BitVec 5) (vm : BitVec 3) (z : Bool) (m : Bool) : Statement (.vcmpLe d a b vm z m) := by
  intro p w hw h; injection h with h; subst h
  exact ⟨(decode_fp p _).trans (if_pos hw), (readFV3_word p 30 _).2.2⟩

theorem vcmpUn (d : BitVec 5) (a : BitVec 5) (b : BitVec 5) (vm : BitVec 3) (z : Bool) (m : Bool) : Statement (.vcmpUn d a b vm z m) := by
  intro p w hw h; injection h with h; subst h
  exact ⟨(decode_fp p _).trans (if_pos hw), (readFV3_word p 30 _).2.2⟩

theorem vrcpE (d : BitVec 5) (a : BitVec 5) (vm : BitVec 3) (z : Bool) (m : Bool) : Statement (.vrcpE d a vm z m) := by
  intro p w hw h; injection h with h; subst h
  exact ⟨(decode_fp p _).trans (if_pos hw), (readFV3_word p 30 _).2.2⟩

theorem vrsqE (d : BitVec 5) (a : BitVec 5) (vm : BitVec 3) (z : Bool) (m : Bool) : Statement (.vrsqE d a vm z m) := by
  intro p w hw h; injection h with h; subst h
  exact ⟨(decode_fp p _).trans (if_pos hw), (readFV3_word p 30 _).2.2⟩

theorem vgexp (d : BitVec 5) (a : BitVec 5) (vm : BitVec 3) (z : Bool) (m : Bool) : Statement (.vgexp d a vm z m) := by
  intro p w hw h; injection h with h; subst h
  exact ⟨(decode_fp p _).trans (if_pos hw), (readFV3_word p 30 _).2.2⟩

theorem vscl (d : BitVec 5) (a : BitVec 5) (b : BitVec 5) (vm : BitVec 3) (z : Bool) (m : Bool) : Statement (.vscl d a b vm z m) := by
  intro p w hw h; injection h with h; subst h
  exact ⟨(decode_fp p _).trans (if_pos hw), (readFV3_word p 30 _).2.2⟩

theorem vrnd (d : BitVec 5) (a : BitVec 5) (vm : BitVec 3) (z : Bool) (m : Bool) : Statement (.vrnd d a vm z m) := by
  intro p w hw h; injection h with h; subst h
  exact ⟨(decode_fp p _).trans (if_pos hw), (readFV3_word p 30 _).2.2⟩

theorem vsel (d : BitVec 5) (a : BitVec 5) (b : BitVec 5) (vm : BitVec 3) : Statement (.vsel d a b vm) := by
  intro p w hw h; injection h with h; subst h
  exact ⟨(decode_fp p _).trans rfl, (readFV3_word p 30 _).2.2⟩

theorem vredsum (d : BitVec 5) (a : BitVec 5) (vm : BitVec 3) (m : Bool) : Statement (.vredsum d a vm m) := by
  intro p w hw h; injection h with h; subst h
  exact ⟨(decode_fp p _).trans (if_pos hw), (readFV3_word p 30 _).2.2⟩

theorem vredmax (d : BitVec 5) (a : BitVec 5) (vm : BitVec 3) (m : Bool) : Statement (.vredmax d a vm m) := by
  intro p w hw h; injection h with h; subst h
  exact ⟨(decode_fp p _).trans (if_pos hw), (readFV3_word p 30 _).2.2⟩

theorem vredmin (d : BitVec 5) (a : BitVec 5) (vm : BitVec 3) (m : Bool) : Statement (.vredmin d a vm m) := by
  intro p w hw h; injection h with h; subst h
  exact ⟨(decode_fp p _).trans (if_pos hw), (readFV3_word p 30 _).2.2⟩

theorem vaddI (d : BitVec 5) (a : BitVec 5) (b : BitVec 5) (vm : BitVec 3) (z : Bool) (m : Bool) : Statement (.vaddI d a b vm z m) := by
  intro p w hw h; injection h with h; subst h
  exact ⟨(decode_vint p _).trans (if_pos hw), (readFV3_word p 31 _).2.2⟩

theorem vsubI (d : BitVec 5) (a : BitVec 5) (b : BitVec 5) (vm : BitVec 3) (z : Bool) (m : Bool) : Statement (.vsubI d a b vm z m) := by
  intro p w hw h; injection h with h; subst h
  exact ⟨(decode_vint p _).trans (if_pos hw), (readFV3_word p 31 _).2.2⟩

theorem vmulI (d : BitVec 5) (a : BitVec 5) (b : BitVec 5) (vm : BitVec 3) (z : Bool) (m : Bool) : Statement (.vmulI d a b vm z m) := by
  intro p w hw h; injection h with h; subst h
  exact ⟨(decode_vint p _).trans (if_pos hw), (readFV3_word p 31 _).2.2⟩

theorem vand (d : BitVec 5) (a : BitVec 5) (b : BitVec 5) (vm : BitVec 3) (z : Bool) (m : Bool) : Statement (.vand d a b vm z m) := by
  intro p w hw h; injection h with h; subst h
  exact ⟨(decode_vint p _).trans (if_pos hw), (readFV3_word p 31 _).2.2⟩

theorem vor (d : BitVec 5) (a : BitVec 5) (b : BitVec 5) (vm : BitVec 3) (z : Bool) (m : Bool) : Statement (.vor d a b vm z m) := by
  intro p w hw h; injection h with h; subst h
  exact ⟨(decode_vint p _).trans (if_pos hw), (readFV3_word p 31 _).2.2⟩

theorem vxor (d : BitVec 5) (a : BitVec 5) (b : BitVec 5) (vm : BitVec 3) (z : Bool) (m : Bool) : Statement (.vxor d a b vm z m) := by
  intro p w hw h; injection h with h; subst h
  exact ⟨(decode_vint p _).trans (if_pos hw), (readFV3_word p 31 _).2.2⟩

theorem vshl (d : BitVec 5) (a : BitVec 5) (b : BitVec 5) (vm : BitVec 3) (z : Bool) (m : Bool) : Statement (.vshl d a b vm z m) := by
  intro p w hw h; injection h with h; subst h
  exact ⟨(decode_vint p _).trans (if_pos hw), (readFV3_word p 31 _).2.2⟩

theorem vshr (d : BitVec 5) (a : BitVec 5) (b : BitVec 5) (vm : BitVec 3) (z : Bool) (m : Bool) : Statement (.vshr d a b vm z m) := by
  intro p w hw h; injection h with h; subst h
  exact ⟨(decode_vint p _).trans (if_pos hw), (readFV3_word p 31 _).2.2⟩

theorem vsha (d : BitVec 5) (a : BitVec 5) (b : BitVec 5) (vm : BitVec 3) (z : Bool) (m : Bool) : Statement (.vsha d a b vm z m) := by
  intro p w hw h; injection h with h; subst h
  exact ⟨(decode_vint p _).trans (if_pos hw), (readFV3_word p 31 _).2.2⟩

theorem vminI (d : BitVec 5) (a : BitVec 5) (b : BitVec 5) (vm : BitVec 3) (z : Bool) (m : Bool) : Statement (.vminI d a b vm z m) := by
  intro p w hw h; injection h with h; subst h
  exact ⟨(decode_vint p _).trans (if_pos hw), (readFV3_word p 31 _).2.2⟩

theorem vmaxI (d : BitVec 5) (a : BitVec 5) (b : BitVec 5) (vm : BitVec 3) (z : Bool) (m : Bool) : Statement (.vmaxI d a b vm z m) := by
  intro p w hw h; injection h with h; subst h
  exact ⟨(decode_vint p _).trans (if_pos hw), (readFV3_word p 31 _).2.2⟩

theorem vcmpIeq (d : BitVec 5) (a : BitVec 5) (b : BitVec 5) (vm : BitVec 3) (z : Bool) (m : Bool) : Statement (.vcmpIeq d a b vm z m) := by
  intro p w hw h; injection h with h; subst h
  exact ⟨(decode_vint p _).trans (if_pos hw), (readFV3_word p 31 _).2.2⟩

theorem vcmpIlt (d : BitVec 5) (a : BitVec 5) (b : BitVec 5) (vm : BitVec 3) (z : Bool) (m : Bool) : Statement (.vcmpIlt d a b vm z m) := by
  intro p w hw h; injection h with h; subst h
  exact ⟨(decode_vint p _).trans (if_pos hw), (readFV3_word p 31 _).2.2⟩

theorem vcmpIlo (d : BitVec 5) (a : BitVec 5) (b : BitVec 5) (vm : BitVec 3) (z : Bool) (m : Bool) : Statement (.vcmpIlo d a b vm z m) := by
  intro p w hw h; injection h with h; subst h
  exact ⟨(decode_vint p _).trans (if_pos hw), (readFV3_word p 31 _).2.2⟩

theorem vredaddI (d : BitVec 5) (a : BitVec 5) (vm : BitVec 3) (m : Bool) : Statement (.vredaddI d a vm m) := by
  intro p w hw h; injection h with h; subst h
  exact ⟨(decode_vint p _).trans (if_pos hw), (readFV3_word p 31 _).2.2⟩

theorem vperm (d : BitVec 5) (a : BitVec 5) (b : BitVec 5) (vm : BitVec 3) (z : Bool) (m : Bool) : Statement (.vperm d a b vm z m) := by
  intro p w hw h; injection h with h; subst h
  exact ⟨(decode_vint p _).trans (if_pos hw), (readFV3_word p 31 _).2.2⟩

theorem vbc (d : BitVec 5) (b : BitVec 6) (vm : BitVec 3) (z : Bool) (m : Bool) : Statement (.vbc d b vm z m) := by
  intro p w hw h; injection h with h; subst h
  exact ⟨(decode_vecScalar p _).trans (if_pos hw), (readFVG_word p 32 _).2.2⟩

theorem vaddS (d : BitVec 5) (a : BitVec 5) (b : BitVec 6) (vm : BitVec 3) (z : Bool) (m : Bool) : Statement (.vaddS d a b vm z m) := by
  intro p w hw h; injection h with h; subst h
  exact ⟨(decode_vecScalar p _).trans (if_pos hw), (readFVG_word p 32 _).2.2⟩

theorem vmulS (d : BitVec 5) (a : BitVec 5) (b : BitVec 6) (vm : BitVec 3) (z : Bool) (m : Bool) : Statement (.vmulS d a b vm z m) := by
  intro p w hw h; injection h with h; subst h
  exact ⟨(decode_vecScalar p _).trans (if_pos hw), (readFVG_word p 32 _).2.2⟩

theorem vfmaS (d : BitVec 5) (a : BitVec 5) (b : BitVec 6) (vm : BitVec 3) (z : Bool) (m : Bool) : Statement (.vfmaS d a b vm z m) := by
  intro p w hw h; injection h with h; subst h
  exact ⟨(decode_vecScalar p _).trans (if_pos hw), (readFVG_word p 32 _).2.2⟩

theorem vslup (d : BitVec 5) (a : BitVec 5) (b : BitVec 6) (vm : BitVec 3) (z : Bool) (m : Bool) : Statement (.vslup d a b vm z m) := by
  intro p w hw h; injection h with h; subst h
  exact ⟨(decode_vecScalar p _).trans (if_pos hw), (readFVG_word p 32 _).2.2⟩

theorem vsldn (d : BitVec 5) (a : BitVec 5) (b : BitVec 6) (vm : BitVec 3) (z : Bool) (m : Bool) : Statement (.vsldn d a b vm z m) := by
  intro p w hw h; injection h with h; subst h
  exact ⟨(decode_vecScalar p _).trans (if_pos hw), (readFVG_word p 32 _).2.2⟩

theorem vidx (d : BitVec 5) (b : BitVec 6) (vm : BitVec 3) (z : Bool) (m : Bool) : Statement (.vidx d b vm z m) := by
  intro p w hw h; injection h with h; subst h
  exact ⟨(decode_vecScalar p _).trans (if_pos hw), (readFVG_word p 32 _).2.2⟩

theorem vext (v : BitVec 5) (g : BitVec 6) (idx : BitVec 6) : Statement (.vext v g idx) := by
  intro p w hw h; injection h with h; subst h
  exact ⟨(decode_element p _).trans rfl, (readFVX_word p 33 _).2.2⟩

theorem vins (v : BitVec 5) (g : BitVec 6) (idx : BitVec 6) : Statement (.vins v g idx) := by
  intro p w hw h; injection h with h; subst h
  exact ⟨(decode_element p _).trans rfl, (readFVX_word p 33 _).2.2⟩

theorem mpopc (v : BitVec 5) (g : BitVec 6) : Statement (.mpopc v g) := by
  intro p w hw h; injection h with h; subst h
  exact ⟨(decode_element p _).trans rfl, (readFVX_word p 33 _).2.2⟩

theorem mfirst (v : BitVec 5) (g : BitVec 6) : Statement (.mfirst v g) := by
  intro p w hw h; injection h with h; subst h
  exact ⟨(decode_element p _).trans rfl, (readFVX_word p 33 _).2.2⟩

theorem vcvtI2f (d : BitVec 5) (a : BitVec 5) (vm : BitVec 3) (z : Bool) (m : Bool) : Statement (.vcvtI2f d a vm z m) := by
  intro p w hw h; injection h with h; subst h
  exact ⟨(decode_convert p _).trans (if_pos hw), (readFV3_word p 34 _).2.2⟩

theorem vcvtF2i (d : BitVec 5) (a : BitVec 5) (vm : BitVec 3) (z : Bool) (m : Bool) : Statement (.vcvtF2i d a vm z m) := by
  intro p w hw h; injection h with h; subst h
  exact ⟨(decode_convert p _).trans (if_pos hw), (readFV3_word p 34 _).2.2⟩

theorem vcvtF2bf (d : BitVec 5) (a : BitVec 5) (b : BitVec 5) (vm : BitVec 3) (z : Bool) (m : Bool) : Statement (.vcvtF2bf d a b vm z m) := by
  intro p w hw h; injection h with h; subst h
  exact ⟨(decode_convert p _).trans (if_pos hw), (readFV3_word p 34 _).2.2⟩

theorem vcvtBf2f (d : BitVec 5) (a : BitVec 5) (vm : BitVec 3) (z : Bool) (m : Bool) : Statement (.vcvtBf2f d a vm z m) := by
  intro p w hw h; injection h with h; subst h
  exact ⟨(decode_convert p _).trans (if_pos hw), (readFV3_word p 34 _).2.2⟩

theorem vcvtF2h (d : BitVec 5) (a : BitVec 5) (b : BitVec 5) (vm : BitVec 3) (z : Bool) (m : Bool) : Statement (.vcvtF2h d a b vm z m) := by
  intro p w hw h; injection h with h; subst h
  exact ⟨(decode_convert p _).trans (if_pos hw), (readFV3_word p 34 _).2.2⟩

theorem vcvtH2f (d : BitVec 5) (a : BitVec 5) (vm : BitVec 3) (z : Bool) (m : Bool) : Statement (.vcvtH2f d a vm z m) := by
  intro p w hw h; injection h with h; subst h
  exact ⟨(decode_convert p _).trans (if_pos hw), (readFV3_word p 34 _).2.2⟩

theorem mmaT8 (acc : BitVec 2) (a : BitVec 6) (b : BitVec 6) (ge : BitVec 6) : Statement (.mmaT8 acc a b ge) := by
  intro p w hw h; injection h with h; subst h
  exact ⟨(decode_matrix p _).trans rfl, (readFMX_word p 35 _).2.2⟩

theorem mmaT6 (acc : BitVec 2) (a : BitVec 6) (b : BitVec 6) (ge : BitVec 6) : Statement (.mmaT6 acc a b ge) := by
  intro p w hw h; injection h with h; subst h
  exact ⟨(decode_matrix p _).trans rfl, (readFMX_word p 35 _).2.2⟩

theorem mmaI8 (acc : BitVec 2) (a : BitVec 6) (b : BitVec 6) (ge : BitVec 6) : Statement (.mmaI8 acc a b ge) := by
  intro p w hw h; injection h with h; subst h
  exact ⟨(decode_matrix p _).trans rfl, (readFMX_word p 35 _).2.2⟩

theorem mmaBf (acc : BitVec 2) (a : BitVec 6) (b : BitVec 6) (ge : BitVec 6) : Statement (.mmaBf acc a b ge) := by
  intro p w hw h; injection h with h; subst h
  exact ⟨(decode_matrix p _).trans rfl, (readFMX_word p 35 _).2.2⟩

theorem mmaH (acc : BitVec 2) (a : BitVec 6) (b : BitVec 6) (ge : BitVec 6) : Statement (.mmaH acc a b ge) := by
  intro p w hw h; injection h with h; subst h
  exact ⟨(decode_matrix p _).trans rfl, (readFMX_word p 35 _).2.2⟩

theorem mzero (acc : BitVec 2) : Statement (.mzero acc) := by
  intro p w hw h; injection h with h; subst h
  exact ⟨(decode_matrix p _).trans rfl, (readFMX_word p 35 _).2.2⟩

theorem mld (acc : BitVec 2) (a : BitVec 6) (ge : BitVec 6) : Statement (.mld acc a ge) := by
  intro p w hw h; injection h with h; subst h
  exact ⟨(decode_matrix p _).trans rfl, (readFMX_word p 35 _).2.2⟩

theorem mst (acc : BitVec 2) (a : BitVec 6) (ge : BitVec 6) : Statement (.mst acc a ge) := by
  intro p w hw h; injection h with h; subst h
  exact ⟨(decode_matrix p _).trans rfl, (readFMX_word p 35 _).2.2⟩

theorem mwaitSus (b : BitVec 6) : Statement (.mwaitSus b) := by
  intro p w hw h; injection h with h; subst h
  exact ⟨(decode_matrix p _).trans rfl, (readFMX_word p 35 _).2.2⟩

theorem mwaitRes (b : BitVec 6) : Statement (.mwaitRes b) := by
  intro p w hw h; injection h with h; subst h
  exact ⟨(decode_matrix p _).trans rfl, (readFMX_word p 35 _).2.2⟩

theorem cdec (x : BitVec 6) (y : BitVec 6) : Statement (.cdec x y) := by
  intro p w hw h; injection h with h; subst h
  exact ⟨(decode_codelet p _).trans rfl, (readFXE_word p 36 _).2.2⟩

theorem cpush (x : BitVec 6) (y : BitVec 6) : Statement (.cpush x y) := by
  intro p w hw h; injection h with h; subst h
  exact ⟨(decode_codelet p _).trans rfl, (readFXE_word p 36 _).2.2⟩

theorem carm (x : BitVec 6) (y : BitVec 6) : Statement (.carm x y) := by
  intro p w hw h; injection h with h; subst h
  exact ⟨(decode_codelet p _).trans rfl, (readFXE_word p 36 _).2.2⟩

theorem csteal (x : BitVec 6) (y : BitVec 6) : Statement (.csteal x y) := by
  intro p w hw h; injection h with h; subst h
  exact ⟨(decode_codelet p _).trans rfl, (readFXE_word p 36 _).2.2⟩

theorem cpT (x : BitVec 6) (y : BitVec 6) (zr : BitVec 6) : Statement (.cpT x y zr) := by
  intro p w hw h; injection h with h; subst h
  exact ⟨(decode_copy p _).trans rfl, (readFXE_word p 37 _).2.2⟩

theorem cpB (x : BitVec 6) (y : BitVec 6) (zr : BitVec 6) : Statement (.cpB x y zr) := by
  intro p w hw h; injection h with h; subst h
  exact ⟨(decode_copy p _).trans rfl, (readFXE_word p 37 _).2.2⟩

theorem cpG (x : BitVec 6) (y : BitVec 6) (zr : BitVec 6) : Statement (.cpG x y zr) := by
  intro p w hw h; injection h with h; subst h
  exact ⟨(decode_copy p _).trans rfl, (readFXE_word p 37 _).2.2⟩

theorem cpWait (x : BitVec 6) : Statement (.cpWait x) := by
  intro p w hw h; injection h with h; subst h
  exact ⟨(decode_copy p _).trans rfl, (readFXE_word p 37 _).2.2⟩

theorem cpSt (x : BitVec 6) (y : BitVec 6) : Statement (.cpSt x y) := by
  intro p w hw h; injection h with h; subst h
  exact ⟨(decode_copy p _).trans rfl, (readFXE_word p 37 _).2.2⟩

theorem sbInit (x : BitVec 6) (y : BitVec 6) : Statement (.sbInit x y) := by
  intro p w hw h; injection h with h; subst h
  exact ⟨(decode_barrier p _).trans rfl, (readFXE_word p 38 _).2.2⟩

theorem sbArr (x : BitVec 6) : Statement (.sbArr x) := by
  intro p w hw h; injection h with h; subst h
  exact ⟨(decode_barrier p _).trans rfl, (readFXE_word p 38 _).2.2⟩

theorem sbExp (x : BitVec 6) (y : BitVec 6) : Statement (.sbExp x y) := by
  intro p w hw h; injection h with h; subst h
  exact ⟨(decode_barrier p _).trans rfl, (readFXE_word p 38 _).2.2⟩

theorem sbTest (x : BitVec 6) (y : BitVec 6) (zr : BitVec 6) : Statement (.sbTest x y zr) := by
  intro p w hw h; injection h with h; subst h
  exact ⟨(decode_barrier p _).trans rfl, (readFXE_word p 38 _).2.2⟩

theorem sbWait (x : BitVec 6) (y : BitVec 6) : Statement (.sbWait x y) := by
  intro p w hw h; injection h with h; subst h
  exact ⟨(decode_barrier p _).trans rfl, (readFXE_word p 38 _).2.2⟩

theorem sbBrk (x : BitVec 6) (y : BitVec 6) : Statement (.sbBrk x y) := by
  intro p w hw h; injection h with h; subst h
  exact ⟨(decode_barrier p _).trans rfl, (readFXE_word p 38 _).2.2⟩

theorem get (x : BitVec 6) (y : BitVec 6) (zr : BitVec 6) : Statement (.get x y zr) := by
  intro p w hw h; injection h with h; subst h
  exact ⟨(decode_remote p _).trans rfl, (readFXE_word p 39 _).2.2⟩

theorem put (x : BitVec 6) (y : BitVec 6) (zr : BitVec 6) : Statement (.put x y zr) := by
  intro p w hw h; injection h with h; subst h
  exact ⟨(decode_remote p _).trans rfl, (readFXE_word p 39 _).2.2⟩

theorem getW (x : BitVec 6) (y : BitVec 6) : Statement (.getW x y) := by
  intro p w hw h; injection h with h; subst h
  exact ⟨(decode_remote p _).trans rfl, (readFXE_word p 39 _).2.2⟩

theorem putW (x : BitVec 6) (y : BitVec 6) : Statement (.putW x y) := by
  intro p w hw h; injection h with h; subst h
  exact ⟨(decode_remote p _).trans rfl, (readFXE_word p 39 _).2.2⟩

theorem mig (x : BitVec 6) (y : BitVec 6) (zr : BitVec 6) : Statement (.mig x y zr) := by
  intro p w hw h; injection h with h; subst h
  exact ⟨(decode_remote p _).trans rfl, (readFXE_word p 39 _).2.2⟩

theorem ramoAdd (d : BitVec 6) (a : BitVec 6) (b : BitVec 6) (w : Bool) : Statement (.ramoAdd d a b w) := by
  intro p w hw h; injection h with h; subst h
  exact ⟨(decode_ramo p _).trans (by
    simp only [decodeRamo, (atomic_field w _).1, (atomic_field w _).2]; rfl), (readFA3_word p 40 _).2.2⟩

theorem ramoAnd (d : BitVec 6) (a : BitVec 6) (b : BitVec 6) (w : Bool) : Statement (.ramoAnd d a b w) := by
  intro p w hw h; injection h with h; subst h
  exact ⟨(decode_ramo p _).trans (by
    simp only [decodeRamo, (atomic_field w _).1, (atomic_field w _).2]; rfl), (readFA3_word p 40 _).2.2⟩

theorem ramoOr (d : BitVec 6) (a : BitVec 6) (b : BitVec 6) (w : Bool) : Statement (.ramoOr d a b w) := by
  intro p w hw h; injection h with h; subst h
  exact ⟨(decode_ramo p _).trans (by
    simp only [decodeRamo, (atomic_field w _).1, (atomic_field w _).2]; rfl), (readFA3_word p 40 _).2.2⟩

theorem ramoXor (d : BitVec 6) (a : BitVec 6) (b : BitVec 6) (w : Bool) : Statement (.ramoXor d a b w) := by
  intro p w hw h; injection h with h; subst h
  exact ⟨(decode_ramo p _).trans (by
    simp only [decodeRamo, (atomic_field w _).1, (atomic_field w _).2]; rfl), (readFA3_word p 40 _).2.2⟩

theorem ramoMin (d : BitVec 6) (a : BitVec 6) (b : BitVec 6) (w : Bool) : Statement (.ramoMin d a b w) := by
  intro p w hw h; injection h with h; subst h
  exact ⟨(decode_ramo p _).trans (by
    simp only [decodeRamo, (atomic_field w _).1, (atomic_field w _).2]; rfl), (readFA3_word p 40 _).2.2⟩

theorem ramoMax (d : BitVec 6) (a : BitVec 6) (b : BitVec 6) (w : Bool) : Statement (.ramoMax d a b w) := by
  intro p w hw h; injection h with h; subst h
  exact ⟨(decode_ramo p _).trans (by
    simp only [decodeRamo, (atomic_field w _).1, (atomic_field w _).2]; rfl), (readFA3_word p 40 _).2.2⟩

theorem ramoMinz (d : BitVec 6) (a : BitVec 6) (b : BitVec 6) (w : Bool) : Statement (.ramoMinz d a b w) := by
  intro p w hw h; injection h with h; subst h
  exact ⟨(decode_ramo p _).trans (by
    simp only [decodeRamo, (atomic_field w _).1, (atomic_field w _).2]; rfl), (readFA3_word p 40 _).2.2⟩

theorem ramoMaxz (d : BitVec 6) (a : BitVec 6) (b : BitVec 6) (w : Bool) : Statement (.ramoMaxz d a b w) := by
  intro p w hw h; injection h with h; subst h
  exact ⟨(decode_ramo p _).trans (by
    simp only [decodeRamo, (atomic_field w _).1, (atomic_field w _).2]; rfl), (readFA3_word p 40 _).2.2⟩

theorem ramoSwap (d : BitVec 6) (a : BitVec 6) (b : BitVec 6) (w : Bool) : Statement (.ramoSwap d a b w) := by
  intro p w hw h; injection h with h; subst h
  exact ⟨(decode_ramo p _).trans (by
    simp only [decodeRamo, (atomic_field w _).1, (atomic_field w _).2]; rfl), (readFA3_word p 40 _).2.2⟩

theorem ramoCas (d : BitVec 6) (a : BitVec 6) (b : BitVec 6) (w : Bool) : Statement (.ramoCas d a b w) := by
  intro p w hw h; injection h with h; subst h
  exact ⟨(decode_ramo p _).trans (by
    simp only [decodeRamo, (atomic_field w _).1, (atomic_field w _).2]; rfl), (readFA3_word p 40 _).2.2⟩

theorem clkRd (x : BitVec 6) (y : BitVec 6) : Statement (.clkRd x y) := by
  intro p w hw h; injection h with h; subst h
  exact ⟨(decode_clock p _).trans rfl, (readFXE_word p 41 _).2.2⟩

theorem stStamp (x : BitVec 6) (y : BitVec 6) (zr : BitVec 6) : Statement (.stStamp x y zr) := by
  intro p w hw h; injection h with h; subst h
  exact ⟨(decode_clock p _).trans rfl, (readFXE_word p 41 _).2.2⟩

theorem ldAsof (x : BitVec 6) (y : BitVec 6) (zr : BitVec 6) : Statement (.ldAsof x y zr) := by
  intro p w hw h; injection h with h; subst h
  exact ⟨(decode_clock p _).trans rfl, (readFXE_word p 41 _).2.2⟩

theorem clkWt (x : BitVec 6) : Statement (.clkWt x) := by
  intro p w hw h; injection h with h; subst h
  exact ⟨(decode_clock p _).trans rfl, (readFXE_word p 41 _).2.2⟩

theorem stpRd (x : BitVec 6) (y : BitVec 6) : Statement (.stpRd x y) := by
  intro p w hw h; injection h with h; subst h
  exact ⟨(decode_clock p _).trans rfl, (readFXE_word p 41 _).2.2⟩

theorem tryEach (x : BitVec 6) (y : BitVec 6) (zr : BitVec 6) : Statement (.tryEach x y zr) := by
  intro p w hw h; injection h with h; subst h
  exact ⟨(decode_try p _).trans rfl, (readFXE_word p 42 _).2.2⟩

theorem cutto (x : BitVec 6) : Statement (.cutto x) := by
  intro p w hw h; injection h with h; subst h
  exact ⟨(decode_try p _).trans rfl, (readFXE_word p 42 _).2.2⟩

theorem cpmark (x : BitVec 6) : Statement (.cpmark x) := by
  intro p w hw h; injection h with h; subst h
  exact ⟨(decode_try p _).trans rfl, (readFXE_word p 42 _).2.2⟩

theorem tsteal (x : BitVec 6) (y : BitVec 6) : Statement (.tsteal x y) := by
  intro p w hw h; injection h with h; subst h
  exact ⟨(decode_try p _).trans rfl, (readFXE_word p 42 _).2.2⟩

theorem nop : Statement .nop := by
  intro p w hw h; injection h with h; subst h
  exact ⟨(decode_nopCdone p _).trans rfl, (readFA3_word p 17 _).2.2⟩

theorem cdone : Statement .cdone := by
  intro p w hw h; injection h with h; subst h
  exact ⟨(decode_nopCdone p _).trans rfl, (readFA3_word p 17 _).2.2⟩

theorem drainst : Statement .drainst := by
  intro p w hw h; injection h with h; subst h
  exact ⟨(decode_line p _).trans rfl, (readFMM_word p 22 _).2.2⟩

theorem cend : Statement .cend := by
  intro p w hw h; injection h with h; subst h
  exact ⟨(decode_line p _).trans rfl, (readFMM_word p 22 _).2.2⟩

theorem sret : Statement .sret := by
  intro p w hw h; injection h with h; subst h
  exact ⟨(decode_system p _).trans rfl, (readFXE_word p 23 _).2.2⟩

theorem ebrk : Statement .ebrk := by
  intro p w hw h; injection h with h; subst h
  exact ⟨(decode_system p _).trans rfl, (readFXE_word p 23 _).2.2⟩

theorem sfqPop : Statement .sfqPop := by
  intro p w hw h; injection h with h; subst h
  exact ⟨(decode_sfq p _).trans rfl, (readFXE_word p 27 _).2.2⟩

theorem mwait : Statement .mwait := by
  intro p w hw h; injection h with h; subst h
  exact ⟨(decode_matrix p _).trans rfl, (readFMX_word p 35 _).2.2⟩

theorem gwait : Statement .gwait := by
  intro p w hw h; injection h with h; subst h
  exact ⟨(decode_remote p _).trans rfl, (readFXE_word p 39 _).2.2⟩

theorem fail : Statement .fail := by
  intro p w hw h; injection h with h; subst h
  exact ⟨(decode_try p _).trans rfl, (readFXE_word p 42 _).2.2⟩

theorem cut : Statement .cut := by
  intro p w hw h; injection h with h; subst h
  exact ⟨(decode_try p _).trans rfl, (readFXE_word p 42 _).2.2⟩

theorem chunkCommit : Statement .chunkCommit := by
  intro p w _ h; cases h

theorem chunkLimit : Statement .chunkLimit := by
  intro p w _ h; cases h

theorem lineLimit : Statement .lineLimit := by
  intro p w _ h; cases h

theorem pairMismatch : Statement .pairMismatch := by
  intro p w _ h; cases h

theorem resultReturn : Statement .resultReturn := by
  intro p w _ h; cases h

theorem icacheFill : Statement .icacheFill := by
  intro p w _ h; cases h

theorem trapEntry : Statement .trapEntry := by
  intro p w _ h; cases h

theorem machineCheck : Statement .machineCheck := by
  intro p w _ h; cases h

theorem translationLookup : Statement .translationLookup := by
  intro p w _ h; cases h

theorem plbFill : Statement .plbFill := by
  intro p w _ h; cases h

theorem pgfltAnswer : Statement .pgfltAnswer := by
  intro p w _ h; cases h

theorem l1Fill : Statement .l1Fill := by
  intro p w _ h; cases h

theorem siblingAccess : Statement .siblingAccess := by
  intro p w _ h; cases h

theorem amoExecute : Statement .amoExecute := by
  intro p w _ h; cases h

theorem vectorDispatch : Statement .vectorDispatch := by
  intro p w _ h; cases h

theorem matrixBlock : Statement .matrixBlock := by
  intro p w _ h; cases h

theorem accTransfer : Statement .accTransfer := by
  intro p w _ h; cases h

theorem balancer : Statement .balancer := by
  intro p w _ h; cases h

theorem counterCell : Statement .counterCell := by
  intro p w _ h; cases h

theorem barrierTree : Statement .barrierTree := by
  intro p w _ h; cases h

theorem releaseMulticast : Statement .releaseMulticast := by
  intro p w _ h; cases h

theorem dieQueueSpill : Statement .dieQueueSpill := by
  intro p w _ h; cases h

theorem dieQueueClaim : Statement .dieQueueClaim := by
  intro p w _ h; cases h

theorem cdecApply : Statement .cdecApply := by
  intro p w _ h; cases h

theorem dequePush : Statement .dequePush := by
  intro p w _ h; cases h

theorem carmApply : Statement .carmApply := by
  intro p w _ h; cases h

theorem findWork : Statement .findWork := by
  intro p w _ h; cases h

theorem cstealTake : Statement .cstealTake := by
  intro p w _ h; cases h

theorem copyAccept : Statement .copyAccept := by
  intro p w _ h; cases h

theorem copyComplete : Statement .copyComplete := by
  intro p w _ h; cases h

theorem barrierBytes : Statement .barrierBytes := by
  intro p w _ h; cases h

theorem copyFault : Statement .copyFault := by
  intro p w _ h; cases h

theorem saveTransfer : Statement .saveTransfer := by
  intro p w _ h; cases h

theorem gangResume : Statement .gangResume := by
  intro p w _ h; cases h

theorem quitMark : Statement .quitMark := by
  intro p w _ h; cases h

theorem remotePerform : Statement .remotePerform := by
  intro p w _ h; cases h

theorem remoteComplete : Statement .remoteComplete := by
  intro p w _ h; cases h

theorem remoteTimeout : Statement .remoteTimeout := by
  intro p w _ h; cases h

theorem migration : Statement .migration := by
  intro p w _ h; cases h

theorem dieFence : Statement .dieFence := by
  intro p w _ h; cases h

theorem portLoss : Statement .portLoss := by
  intro p w _ h; cases h

theorem stampVersion : Statement .stampVersion := by
  intro p w _ h; cases h

theorem stampRelease : Statement .stampRelease := by
  intro p w _ h; cases h

theorem versionApply : Statement .versionApply := by
  intro p w _ h; cases h

theorem horizonCollect : Statement .horizonCollect := by
  intro p w _ h; cases h

theorem horizonUpdate : Statement .horizonUpdate := by
  intro p w _ h; cases h

theorem horizonExchange : Statement .horizonExchange := by
  intro p w _ h; cases h

theorem stampedRead : Statement .stampedRead := by
  intro p w _ h; cases h

theorem clockDiscipline : Statement .clockDiscipline := by
  intro p w _ h; cases h

theorem clockWaitExpiry : Statement .clockWaitExpiry := by
  intro p w _ h; cases h

theorem idleTimeout : Statement .idleTimeout := by
  intro p w _ h; cases h

theorem ebrkRelease : Statement .ebrkRelease := by
  intro p w _ h; cases h

theorem gangTimeout : Statement .gangTimeout := by
  intro p w _ h; cases h

theorem gangEnd : Statement .gangEnd := by
  intro p w _ h; cases h

theorem load : Statement .load := by
  intro p w _ h; cases h

theorem mapPage : Statement .mapPage := by
  intro p w _ h; cases h

theorem unmapPage : Statement .unmapPage := by
  intro p w _ h; cases h

theorem setRegion : Statement .setRegion := by
  intro p w _ h; cases h

theorem removeRegion : Statement .removeRegion := by
  intro p w _ h; cases h

theorem setDomain : Statement .setDomain := by
  intro p w _ h; cases h

theorem setSender : Statement .setSender := by
  intro p w _ h; cases h

theorem registerPeer : Statement .registerPeer := by
  intro p w _ h; cases h

theorem launch : Statement .launch := by
  intro p w _ h; cases h

theorem launchDequeue : Statement .launchDequeue := by
  intro p w _ h; cases h

theorem queryGangs : Statement .queryGangs := by
  intro p w _ h; cases h

theorem queryFeatures : Statement .queryFeatures := by
  intro p w _ h; cases h

theorem querySensors : Statement .querySensors := by
  intro p w _ h; cases h

theorem queryLog : Statement .queryLog := by
  intro p w _ h; cases h

theorem queryIdentity : Statement .queryIdentity := by
  intro p w _ h; cases h

theorem queryGang : Statement .queryGang := by
  intro p w _ h; cases h

theorem kill : Statement .kill := by
  intro p w _ h; cases h

theorem prepare : Statement .prepare := by
  intro p w _ h; cases h

theorem ready : Statement .ready := by
  intro p w _ h; cases h

theorem go : Statement .go := by
  intro p w _ h; cases h

theorem abort : Statement .abort := by
  intro p w _ h; cases h

theorem late : Statement .late := by
  intro p w _ h; cases h

theorem launchDeadline : Statement .launchDeadline := by
  intro p w _ h; cases h

theorem chipStart : Statement .chipStart := by
  intro p w _ h; cases h

theorem powerGood : Statement .powerGood := by
  intro p w _ h; cases h

theorem thermalAlarm : Statement .thermalAlarm := by
  intro p w _ h; cases h

theorem powerRemoval : Statement .powerRemoval := by
  intro p w _ h; cases h

theorem firmwareUpdate : Statement .firmwareUpdate := by
  intro p w _ h; cases h

theorem adminListWrite : Statement .adminListWrite := by
  intro p w _ h; cases h

theorem cpstkWrite : Statement .cpstkWrite := by
  intro p w _ h; cases h

theorem trailWrite : Statement .trailWrite := by
  intro p w _ h; cases h

theorem tpcWrite : Statement .tpcWrite := by
  intro p w _ h; cases h

theorem fflagsAccess : Statement .fflagsAccess := by
  intro p w _ h; cases h

theorem csrWrite : Statement .csrWrite := by
  intro p w _ h; cases h

theorem unassignedWord : Statement .unassignedWord := by
  intro p w _ h; cases h

theorem chipLoss : Statement .chipLoss := by
  intro p w _ h; cases h

theorem lossOfDiscipline : Statement .lossOfDiscipline := by
  intro p w _ h; cases h

theorem conditionClears : Statement .conditionClears := by
  intro p w _ h; cases h

theorem messageDropped : Statement .messageDropped := by
  intro p w _ h; cases h

end Sys2Proof.Laws.F
end

