-- ==== Sys2Proof/Laws/Place.lean ====
section
/-! SUPPORT. What a write that takes a place of its own can change: memory, tags, and strands whose chunks it squashes; and when it
squashes none. -/

namespace Sys2Proof.Machine

open Sys2Proof

/-- `t` differs from `s` only in memory, tags, strands and their cores. -/
def PlaceOnly (s t : State) : Prop := ∃ a b c d, t = { s with strands := a, cores := b, mem := c, tags := d }

theorem PlaceOnly.refl (s : State) : PlaceOnly s s := ⟨s.strands, s.cores, s.mem, s.tags, rfl⟩
theorem PlaceOnly.trans {a b c : State} (h : PlaceOnly a b) (g : PlaceOnly b c) : PlaceOnly a c := by
  obtain ⟨x1, x2, x3, x4, rfl⟩ := h
  obtain ⟨y1, y2, y3, y4, rfl⟩ := g
  exact ⟨y1, y2, y3, y4, rfl⟩
theorem PlaceOnly.cur {s t : State} (h : PlaceOnly s t) : t.cur = s.cur := by obtain ⟨_, _, _, _, rfl⟩ := h; rfl
theorem PlaceOnly.quires {s t : State} (h : PlaceOnly s t) : t.quires = s.quires := by obtain ⟨_, _, _, _, rfl⟩ := h; rfl
theorem PlaceOnly.msgs {s t : State} (h : PlaceOnly s t) : t.msgs = s.msgs := by obtain ⟨_, _, _, _, rfl⟩ := h; rfl
theorem PlaceOnly.dies {s t : State} (h : PlaceOnly s t) : t.dies = s.dies := by obtain ⟨_, _, _, _, rfl⟩ := h; rfl
theorem PlaceOnly.serial {s t : State} (h : PlaceOnly s t) : t.serial = s.serial := by obtain ⟨_, _, _, _, rfl⟩ := h; rfl

theorem undo_only (l : List Undo) (s : State) :
    PlaceOnly s (forAll l (fun s u => s.writeSector u.loc u.data (BitVec.allOnes 128) u.tag) s) :=
  forAll_rel PlaceOnly PlaceOnly.refl PlaceOnly.trans
    (fun (s : State) (u : Undo) => s.writeSector u.loc u.data (BitVec.allOnes 128) u.tag)
    (fun s _ => ⟨s.strands, s.cores, _, _, rfl⟩) l s

/-- A squash changes only what a place may. -/
theorem squash_only (s : State) (sid k : Nat) (c m : Bool) : PlaceOnly s (s.squash sid k c m) := by
  unfold State.squash
  dsimp only
  split
  · exact PlaceOnly.refl _
  · exact (undo_only _ s).trans ⟨_, _, _, _, rfl⟩

theorem squashReaders_only (s : State) (d : Nat) (l : List Nat) (self : Option Nat) : PlaceOnly s (s.squashReaders d l self) := by
  unfold State.squashReaders
  refine forAll_rel PlaceOnly PlaceOnly.refl PlaceOnly.trans _ (fun s j => ?_) _ s
  split
  · split
    · exact squash_only _ _ _ _ _
    · exact PlaceOnly.refl _
  · exact PlaceOnly.refl _

theorem squashHome_only (s : State) (loc : Nat) (l : List Nat) (self : Option Nat) : PlaceOnly s (s.squashHome loc l self) := by
  unfold State.squashHome
  split
  · exact squashReaders_only _ _ _ _
  · exact PlaceOnly.refl _

/-- A write that takes a place of its own. -/
theorem placeStore_only (s : State) (loc : Nat) (bs : List Byte) (self : Option Nat) : PlaceOnly s (s.placeStore loc bs self) :=
  PlaceOnly.trans (b := s.store (s.real loc) bs) ⟨s.strands, s.cores, _, _, rfl⟩ (squashHome_only _ _ _ _)

/-- It leaves the strand that makes it as it was. -/
theorem placeStore_same (s : State) (sid loc : Nat) (bs : List Byte) : SameStrand sid s (s.placeStore loc bs (some sid)) := by
  refine SameStrand.trans (b := s.store (s.real loc) bs) ⟨rfl, rfl⟩ ?_
  show SameStrand sid _ (State.squashHome _ _ _ _)
  unfold State.squashHome
  split
  · exact squashReaders_same _ _ _ _
  · exact SameStrand.refl _ _

/-! ## Places that squash nothing -/

/-- An operation that leaves the state alone, done for every element of a list, leaves it alone. -/
theorem forAll_id {α : Type} (f : State → α → State) (l : List α) (s : State) (h : ∀ x ∈ l, f s x = s) : forAll l f s = s := by
  unfold forAll
  induction l with
  | nil => rfl
  | cons a l ih =>
    rw [List.foldl_cons, h a (by simp)]
    exact ih fun x hx => h x (by simp [hx])

theorem readerIndex_none (lines : List Nat) (k : Nat) (cs : List Chunk) (h : ∀ c ∈ cs, ∀ x ∈ lines, x ∉ c.reads) :
    readerIndex lines k cs = none := by
  induction cs generalizing k with
  | nil => rfl
  | cons c cs ih =>
    unfold readerIndex
    have : lines.any c.reads.contains = false := by
      rw [List.any_eq_false]
      intro x hx
      simpa using h c (by simp) x hx
    rw [this]
    simp only [Bool.and_false, Bool.false_eq_true, if_false]
    exact ih _ fun c' hc => h c' (by simp [hc])

/-- A place whose lines no open chunk has read squashes none. -/
theorem squashReaders_none (s : State) (d : Nat) (lines : List Nat) (self : Option Nat)
    (h : ∀ k, ∀ c ∈ (s.strand k).chunks, ∀ x ∈ lines, x ∉ c.reads) : s.squashReaders d lines self = s := by
  unfold State.squashReaders
  refine forAll_id _ _ _ fun k _ => ?_
  rw [readerIndex_none _ _ _ (h k)]
  split <;> rfl

/-- A location that names no package is its own storage. -/
theorem real_of_local (s : State) {loc : Nat} (h : isForeign loc = false) : s.real loc = loc := by simp [State.real, h]

/-- Such a write is a plain store. -/
theorem placeStore_none (s : State) (loc : Nat) (bs : List Byte) (self : Option Nat) (hd : isForeign loc = false)
    (h : ∀ k, ∀ c ∈ (s.strand k).chunks, ∀ x ∈ linesOf loc bs.length, x ∉ c.reads) : s.placeStore loc bs self = s.store loc bs := by
  unfold State.placeStore State.squashHome
  rw [real_of_local s hd]
  split
  · exact squashReaders_none _ _ _ _ h
  · rfl

end Sys2Proof.Machine
end

