-- ==== Sys2Proof/Tests/Slice0.lean ====
section
/-! SUPPORT. Tests: ill-formed terms, words written out from the spec's encodings, single steps on small states, and for each
statement a state and operands that meet its hypotheses. -/

namespace Sys2Proof.Tests

open Sys2Proof Sys2Proof.Machine Sys2Proof.Claims

set_option Elab.async false

/-! ## Small states -/

/-- A capability (04 R66): permissions, object type, exponent, mantissas of base and top, cursor. -/
def capOf (perms : BitVec 12) (ty : BitVec 4) (e : BitVec 6) (lo hi : BitVec 21) (cur : Word) : Reg :=
  { bits := perms ++ ty ++ e ++ lo ++ hi ++ cur, tag := true }

/-- The state at reset, but for the registers of strand 0. -/
def withArch (a : Arch) : State := State.reset.setStrand 0 { Strand.reset with arch := a }

/-- The registers at reset, but for some g-registers. -/
def regs (l : List (BitVec 6 × Reg)) : Arch := l.foldl (fun a x => a.writeG x.1 x.2) Arch.reset

theorem strand_withArch (a : Arch) : (withArch a).strand 0 = { Strand.reset with arch := a } :=
  State.strand_setStrand_self State.reset 0 _

/-- The state that the end of its chunk leaves. -/
def endOf (s : State) : State :=
  match s.endChunk with
  | .ready u => u
  | _ => s

/-- The strand that issues has no chunk, no result outstanding, no park marker and no cause to take, and its core has no quit group. -/
structure Quiet (s : State) : Prop where
  park : s.park = false
  out : (s.strand s.cur).out = []
  chunks : (s.strand s.cur).chunks = []
  quit : (s.core (coreOf s.cur)).quit = []
  cause : (s.strand s.cur).nextCause = none

/-- Such a strand passes the shared steps of issue. -/
theorem Quiet.issues {s : State} (h : Quiet s) (reads : List RegName) : Issues false reads s s.joinChunk where
  mode := by simp
  marker := by simp [h.park]
  settled := by simp [Strand.isOut, h.out]
  joined := by
    simp [State.joinChunk, Strand.opened, h.chunks, State.pinDue, State.onStrand, Strand.restart, Strand.fresh]

theorem Quiet.issuesS {s : State} (h : Quiet s) (reads : List RegName) (hs : s.me.smode = true) : Issues true reads s s.joinChunk :=
  { h.issues reads with mode := fun _ => hs }

theorem Quiet.mayIssue {s : State} (h : Quiet s) (reads : List RegName) : MayIssue false false reads s := (h.issues reads).mayIssue

/-- Its chunks have no part in which cause it takes next. -/
theorem nextCause_restart (t : Strand) (k : Nat) (f : Chunk → Chunk) : ((t.restart k).onOpen f).nextCause = t.nextCause := by
  unfold Strand.onOpen Strand.restart
  rfl

/-- It may end its chunk. -/
theorem Quiet.ready {s : State} (h : Quiet s) : s.endChunk = .ready (endOf s) := by
  simp [endOf, State.endChunk, Strand.leads, Strand.opened, h.chunks, State.commitAll]

theorem Quiet.mayEnd {s : State} (h : Quiet s) (waits : Bool) (reads : List RegName) : MayEnd false waits reads s (endOf s) where
  mode := by simp
  marker := by simp [Strand.busy, h.out]
  settled := by simp [Strand.isOut, h.out]
  stays := by simp [State.quitMarked, h.quit]
  ended := h.ready
  calm := by
    have hc : ((endOf s).strand (endOf s).cur).nextCause = (s.strand s.cur).nextCause := by
      simp [endOf, State.endChunk, Strand.leads, Strand.opened, h.chunks, State.commitAll, nextCause_restart]
    simp [State.causeDue, hc, h.cause]

theorem Quiet.mayEndS {s : State} (h : Quiet s) (waits : Bool) (reads : List RegName) (hs : s.me.smode = true) :
    MayEnd true waits reads s (endOf s) :=
  { h.mayEnd waits reads with mode := fun _ => hs }

/-- The core of strand 0, replaced by one with no quit group. -/
theorem quit_setCore {s : State} {x : Core} (h : s.cur = 0) (hx : x.quit = []) :
    ((s.setCore 0 x).core (coreOf (s.setCore 0 x).cur)).quit = [] := by
  have hc : coreOf (s.setCore 0 x).cur = 0 := by simp [State.setCore, h, coreOf]
  rw [hc, State.core_setCore_self, hx]

theorem quiet_withArch (a : Arch) : Quiet (withArch a) := ⟨rfl, rfl, rfl, rfl, rfl⟩


/-! ## Ill-formed terms -/

/-- 03 R49, R55: a mask register or `z` in an unmasked form, and a scope that fence does not have. -/
theorem test_ill_formed :
    ([.vld 2 2 1 false false, .vld 2 2 0 true false, .vst 2 2 1 false, .vldS 2 2 2 1 false false, .vldS 2 2 2 0 true false,
      .vstS 2 2 2 1 false, .vldX 2 2 2 1 false false, .vldX 2 2 2 0 true false, .vstX 2 2 2 1 false,
      .vldB 2 2 1 false false, .vldB 2 2 0 true false, .vldH 2 2 1 false false, .vldH 2 2 0 true false, .vstH 2 2 1 false,
      .vldHs 2 2 2 1 false false, .vldHs 2 2 2 0 true false, .vstHs 2 2 2 1 false, .vldHx 2 2 2 1 false false,
      .vldHx 2 2 2 0 true false, .vstHx 2 2 2 1 false, .vadd 2 2 2 1 false false, .vadd 2 2 2 0 true false,
      .vsub 2 2 2 1 false false, .vsub 2 2 2 0 true false, .vmul 2 2 2 1 false false, .vmul 2 2 2 0 true false,
      .vfma 2 2 2 1 false false, .vfma 2 2 2 0 true false, .vfms 2 2 2 1 false false, .vfms 2 2 2 0 true false,
      .vfnma 2 2 2 1 false false, .vfnma 2 2 2 0 true false, .vmin 2 2 2 1 false false, .vmin 2 2 2 0 true false,
      .vmax 2 2 2 1 false false, .vmax 2 2 2 0 true false, .vabs 2 2 1 false false, .vabs 2 2 0 true false,
      .vneg 2 2 1 false false, .vneg 2 2 0 true false, .vcmpEq 2 2 2 1 false false, .vcmpEq 2 2 2 0 true false,
      .vcmpLt 2 2 2 1 false false, .vcmpLt 2 2 2 0 true false, .vcmpLe 2 2 2 1 false false, .vcmpLe 2 2 2 0 true false,
      .vcmpUn 2 2 2 1 false false, .vcmpUn 2 2 2 0 true false, .vrcpE 2 2 1 false false, .vrcpE 2 2 0 true false,
      .vrsqE 2 2 1 false false, .vrsqE 2 2 0 true false, .vgexp 2 2 1 false false, .vgexp 2 2 0 true false,
      .vscl 2 2 2 1 false false, .vscl 2 2 2 0 true false, .vrnd 2 2 1 false false, .vrnd 2 2 0 true false,
      .vredsum 2 2 1 false, .vredmax 2 2 1 false, .vredmin 2 2 1 false, .vaddI 2 2 2 1 false false,
      .vaddI 2 2 2 0 true false, .vsubI 2 2 2 1 false false, .vsubI 2 2 2 0 true false, .vmulI 2 2 2 1 false false,
      .vmulI 2 2 2 0 true false, .vand 2 2 2 1 false false, .vand 2 2 2 0 true false, .vor 2 2 2 1 false false,
      .vor 2 2 2 0 true false, .vxor 2 2 2 1 false false, .vxor 2 2 2 0 true false, .vshl 2 2 2 1 false false,
      .vshl 2 2 2 0 true false, .vshr 2 2 2 1 false false, .vshr 2 2 2 0 true false, .vsha 2 2 2 1 false false,
      .vsha 2 2 2 0 true false, .vminI 2 2 2 1 false false, .vminI 2 2 2 0 true false, .vmaxI 2 2 2 1 false false,
      .vmaxI 2 2 2 0 true false, .vcmpIeq 2 2 2 1 false false, .vcmpIeq 2 2 2 0 true false, .vcmpIlt 2 2 2 1 false false,
      .vcmpIlt 2 2 2 0 true false, .vcmpIlo 2 2 2 1 false false, .vcmpIlo 2 2 2 0 true false, .vredaddI 2 2 1 false,
      .vperm 2 2 2 1 false false, .vperm 2 2 2 0 true false, .vbc 2 2 1 false false, .vbc 2 2 0 true false,
      .vaddS 2 2 2 1 false false, .vaddS 2 2 2 0 true false, .vmulS 2 2 2 1 false false, .vmulS 2 2 2 0 true false,
      .vfmaS 2 2 2 1 false false, .vfmaS 2 2 2 0 true false, .vslup 2 2 2 1 false false, .vslup 2 2 2 0 true false,
      .vsldn 2 2 2 1 false false, .vsldn 2 2 2 0 true false, .vidx 2 2 1 false false, .vidx 2 2 0 true false,
      .vcvtI2f 2 2 1 false false, .vcvtI2f 2 2 0 true false, .vcvtF2i 2 2 1 false false, .vcvtF2i 2 2 0 true false,
      .vcvtF2bf 2 2 2 1 false false, .vcvtF2bf 2 2 2 0 true false, .vcvtBf2f 2 2 1 false false, .vcvtBf2f 2 2 0 true false,
      .vcvtF2h 2 2 2 1 false false, .vcvtF2h 2 2 2 0 true false, .vcvtH2f 2 2 1 false false, .vcvtH2f 2 2 0 true false,
      .fence true 4] : List Instr).all (fun i => !i.wellFormed) = true := by
  decide +kernel

/-! ## Words written out from the fields of 03 R48, R54 and R55, one for each encoded instruction -/

theorem test_decode_integer :
    decodeTableWord 32 0b0_000001_100001_010100_001011_0000000 = some (.add 33 20 11) ∧
    decodeTableWord 32 0b0_000001_100001_010100_001011_0000001 = some (.sub 33 20 11) ∧
    decodeTableWord 32 0b0_000001_100001_010100_001011_0000010 = some (.mul 33 20 11) ∧
    decodeTableWord 32 0b0_000001_100001_010100_001011_0000011 = some (.mulh 33 20 11) ∧
    decodeTableWord 32 0b0_000001_100001_010100_001011_0000100 = some (.mulhz 33 20 11) ∧
    decodeTableWord 32 0b0_000001_100001_010100_001011_0000101 = some (.div 33 20 11) ∧
    decodeTableWord 32 0b0_000001_100001_010100_001011_0000110 = some (.divz 33 20 11) ∧
    decodeTableWord 32 0b0_000001_100001_010100_001011_0000111 = some (.rem 33 20 11) ∧
    decodeTableWord 32 0b0_000001_100001_010100_001011_0001000 = some (.remz 33 20 11) ∧
    decodeTableWord 32 0b0_000001_100001_010100_001011_0001001 = some (.and 33 20 11) ∧
    decodeTableWord 32 0b0_000001_100001_010100_001011_0001010 = some (.or 33 20 11) ∧
    decodeTableWord 32 0b0_000001_100001_010100_001011_0001011 = some (.xor 33 20 11) ∧
    decodeTableWord 32 0b0_000001_100001_010100_001011_0001100 = some (.andn 33 20 11) ∧
    decodeTableWord 32 0b0_000001_100001_010100_001011_0001101 = some (.shl 33 20 11) ∧
    decodeTableWord 32 0b0_000001_100001_010100_001011_0001110 = some (.shr 33 20 11) ∧
    decodeTableWord 32 0b0_000001_100001_010100_001011_0001111 = some (.sha 33 20 11) ∧
    decodeTableWord 32 0b0_000001_100001_010100_001011_0010000 = some (.rol 33 20 11) ∧
    decodeTableWord 32 0b0_000001_100001_010100_001011_0010001 = some (.min 33 20 11) ∧
    decodeTableWord 32 0b0_000001_100001_010100_001011_0010010 = some (.max 33 20 11) ∧
    decodeTableWord 32 0b0_000001_100001_010100_001011_0010011 = some (.minz 33 20 11) ∧
    decodeTableWord 32 0b0_000001_100001_010100_001011_0010100 = some (.maxz 33 20 11) ∧
    decodeTableWord 32 0b0_000001_100001_010100_000000_0010101 = some (.clz 33 20) ∧
    decodeTableWord 32 0b0_000001_100001_010100_000000_0010110 = some (.ctz 33 20) ∧
    decodeTableWord 32 0b0_000001_100001_010100_000000_0010111 = some (.popc 33 20) ∧
    decodeTableWord 32 0b0_000001_100001_010100_000000_0011000 = some (.mov 33 20) ∧
    decodeTableWord 32 0b0_000001_100001_010100_001011_0011001 = some (.sel 33 20 11) := by
  decide +kernel

theorem test_decode_immediates :
    decodeTableWord 32 0b0_000010_100001_010100_1010101010101 = some (.addI 33 20 5461) ∧
    decodeTableWord 32 0b0_000011_100001_010100_1010101010101 = some (.andI 33 20 5461) ∧
    decodeTableWord 32 0b0_000100_100001_010100_1010101010101 = some (.orI 33 20 5461) ∧
    decodeTableWord 32 0b0_000101_100001_010100_1010101010101 = some (.xorI 33 20 5461) ∧
    decodeTableWord 32 0b0_000110_100001_010100_0000000101011 = some (.shlI 33 20 0x2B) ∧
    decodeTableWord 32 0b0_000110_100001_010100_0100000101011 = some (.shrI 33 20 0x2B) ∧
    decodeTableWord 32 0b0_000110_100001_010100_1000000101011 = some (.shaI 33 20 0x2B) ∧
    decodeTableWord 32 0b0_000110_100001_010100_1100000101011 = some (.rolI 33 20 0x2B) ∧
    decodeTableWord 32 0b0_000111_100001_0000001010101010101 = some (.li 33 5461) ∧
    decodeTableWord 32 0b0_001000_100001_0000001010101010101 = some (.lis 33 5461) := by
  decide +kernel

theorem test_decode_comparisons :
    decodeTableWord 32 0b0_001001_100001_010100_001011_0000000 = some (.setEq 33 20 11) ∧
    decodeTableWord 32 0b0_001001_100001_010100_001011_0000001 = some (.setNe 33 20 11) ∧
    decodeTableWord 32 0b0_001001_100001_010100_001011_0000010 = some (.setLt 33 20 11) ∧
    decodeTableWord 32 0b0_001001_100001_010100_001011_0000011 = some (.setGe 33 20 11) ∧
    decodeTableWord 32 0b0_001001_100001_010100_001011_0000100 = some (.setLo 33 20 11) ∧
    decodeTableWord 32 0b0_001001_100001_010100_001011_0000101 = some (.setHs 33 20 11) := by
  decide +kernel

theorem test_decode_capabilities :
    decodeTableWord 32 0b0_001010_100001_010100_001011_0000000 = some (.cincr 33 20 11) ∧
    decodeTableWord 32 0b0_001010_100001_010100_001011_0000001 = some (.cset 33 20 11) ∧
    decodeTableWord 32 0b0_001010_100001_010100_001011_0000010 = some (.cbnd 33 20 11) ∧
    decodeTableWord 32 0b0_001010_100001_010100_001011_0000011 = some (.cbndr 33 20 11) ∧
    decodeTableWord 32 0b0_001010_100001_010100_001011_0000100 = some (.cperm 33 20 11) ∧
    decodeTableWord 32 0b0_001010_100001_010100_001011_0000101 = some (.cseal 33 20 11) ∧
    decodeTableWord 32 0b0_001010_100001_010100_001011_0000110 = some (.cunseal 33 20 11) ∧
    decodeTableWord 32 0b0_001010_100001_010100_000000_0000111 = some (.cbase 33 20) ∧
    decodeTableWord 32 0b0_001010_100001_010100_000000_0001000 = some (.clen 33 20) ∧
    decodeTableWord 32 0b0_001010_100001_010100_000000_0001001 = some (.cperms 33 20) ∧
    decodeTableWord 32 0b0_001010_100001_010100_000000_0001010 = some (.ctag 33 20) ∧
    decodeTableWord 32 0b0_001010_100001_010100_000000_0001011 = some (.cclr 33 20) ∧
    decodeTableWord 32 0b0_001010_100001_010100_001011_0001100 = some (.ceq 33 20 11) ∧
    decodeTableWord 32 0b0_001010_100001_010100_001011_0001101 = some (.csub 33 20 11) ∧
    decodeTableWord 32 0b0_001011_100001_010100_1010101010101 = some (.cincrI 33 20 5461) := by
  decide +kernel

theorem test_decode_control :
    decodeTableWord 32 0b0_001100_000_010100_001011_1010101011 = some (.bEq 20 11 683) ∧
    decodeTableWord 32 0b0_001100_001_010100_001011_1010101011 = some (.bNe 20 11 683) ∧
    decodeTableWord 32 0b0_001100_010_010100_001011_1010101011 = some (.bLt 20 11 683) ∧
    decodeTableWord 32 0b0_001100_011_010100_001011_1010101011 = some (.bGe 20 11 683) ∧
    decodeTableWord 32 0b0_001100_100_010100_001011_1010101011 = some (.bLo 20 11 683) ∧
    decodeTableWord 32 0b0_001100_101_010100_001011_1010101011 = some (.bHs 20 11 683) ∧
    decodeTableWord 32 0b0_001101_0000000000000001010101011 = some (.jmp 683) ∧
    decodeTableWord 32 0b0_001110_0000000000000001010101011 = some (.call 683) ∧
    decodeTableWord 32 0b0_001111_000000_010100_000000_0000000 = some (.jr 20) ∧
    decodeTableWord 32 0b0_001111_000000_010100_000000_0000001 = some (.callr 20) ∧
    decodeTableWord 32 0b0_010000_1010_01_10_11_0_10101010101011 = some (.rptConst 10 1 2 3 0x2AAB) ∧
    decodeTableWord 32 0b0_010000_1010_01_10_11_1_01010000000000 = some (.rptReg 10 1 2 3 20) ∧
    decodeTableWord 32 0b0_010001_000000_000000_000000_0000000 = some (.nop) ∧
    decodeTableWord 32 0b0_010001_000000_000000_000000_0000001 = some (.cdone) := by
  decide +kernel

theorem test_decode_scalar_memory :
    decodeTableWord 32 0b0_010010_100001_010100_000_1010101011 = some (.ldB 33 20 683) ∧
    decodeTableWord 32 0b0_010010_100001_010100_001_1010101011 = some (.ldBz 33 20 683) ∧
    decodeTableWord 32 0b0_010010_100001_010100_010_1010101011 = some (.ldH 33 20 683) ∧
    decodeTableWord 32 0b0_010010_100001_010100_011_1010101011 = some (.ldHz 33 20 683) ∧
    decodeTableWord 32 0b0_010010_100001_010100_100_1010101011 = some (.ldW 33 20 683) ∧
    decodeTableWord 32 0b0_010010_100001_010100_101_1010101011 = some (.ldWz 33 20 683) ∧
    decodeTableWord 32 0b0_010010_100001_010100_110_1010101011 = some (.ldD 33 20 683) ∧
    decodeTableWord 32 0b0_010010_100001_010100_111_1010101011 = some (.ldQ 33 20 683) ∧
    decodeTableWord 32 0b0_010011_100001_010100_000_1010101011 = some (.stB 33 20 683) ∧
    decodeTableWord 32 0b0_010011_100001_010100_001_1010101011 = some (.stH 33 20 683) ∧
    decodeTableWord 32 0b0_010011_100001_010100_010_1010101011 = some (.stW 33 20 683) ∧
    decodeTableWord 32 0b0_010011_100001_010100_011_1010101011 = some (.stD 33 20 683) ∧
    decodeTableWord 32 0b0_010011_100001_010100_100_1010101011 = some (.stQ 33 20 683) ∧
    decodeTableWord 32 0b0_010011_100001_010100_101_1010101011 = some (.stc 33 20 683) := by
  decide +kernel

theorem test_decode_vector_memory :
    decodeTableWord 32 0b0_010100_10001_010100_000000_101_1_1_000 = some (.vld 17 20 5 true true) ∧
    decodeTableWord 32 0b0_010100_10001_010100_000000_101_0_1_001 = some (.vst 17 20 5 true) ∧
    decodeTableWord 32 0b0_010100_10001_010100_001011_101_1_1_010 = some (.vldS 17 20 11 5 true true) ∧
    decodeTableWord 32 0b0_010100_10001_010100_001011_101_0_1_011 = some (.vstS 17 20 11 5 true) ∧
    decodeTableWord 32 0b0_010100_10001_010100_011011_101_1_1_100 = some (.vldX 17 20 27 5 true true) ∧
    decodeTableWord 32 0b0_010100_10001_010100_011011_101_0_1_101 = some (.vstX 17 20 27 5 true) ∧
    decodeTableWord 32 0b0_010100_10001_010100_000000_101_1_1_110 = some (.vldB 17 20 5 true true) ∧
    decodeTableWord 32 0b0_010101_10001_010100_000000_101_1_1_000 = some (.vldH 17 20 5 true true) ∧
    decodeTableWord 32 0b0_010101_10001_010100_000000_101_0_1_001 = some (.vstH 17 20 5 true) ∧
    decodeTableWord 32 0b0_010101_10001_010100_001011_101_1_1_010 = some (.vldHs 17 20 11 5 true true) ∧
    decodeTableWord 32 0b0_010101_10001_010100_001011_101_0_1_011 = some (.vstHs 17 20 11 5 true) ∧
    decodeTableWord 32 0b0_010101_10001_010100_011011_101_1_1_100 = some (.vldHx 17 20 27 5 true true) ∧
    decodeTableWord 32 0b0_010101_10001_010100_011011_101_0_1_101 = some (.vstHx 17 20 27 5 true) := by
  decide +kernel

theorem test_decode_lines_and_system :
    decodeTableWord 32 0b0_010110_000000_010100_000_1010101011 = some (.pref 20 683) ∧
    decodeTableWord 32 0b0_010110_000000_010100_001_1010101011 = some (.cln 20 683) ∧
    decodeTableWord 32 0b0_010110_000000_010100_010_1010101011 = some (.inv 20 683) ∧
    decodeTableWord 32 0b0_010110_000000_000000_100_0000001011 = some (.fence true 3) ∧
    decodeTableWord 32 0b0_010110_000000_000000_011_0000000000 = some (.drainst) ∧
    decodeTableWord 32 0b0_010110_000000_000000_101_0000000000 = some (.cend) ∧
    decodeTableWord 32 0b0_010111_100001_000000_000000_0000000 = some (.trap 33) ∧
    decodeTableWord 32 0b0_010111_100001_000000_000000_0000010 = some (.idle 33) ∧
    decodeTableWord 32 0b0_010111_100001_000000_000000_0000011 = some (.ctxSave 33) ∧
    decodeTableWord 32 0b0_010111_100001_000000_000000_0000100 = some (.ctxLoad 33) ∧
    decodeTableWord 32 0b0_010111_100001_000000_000000_0000101 = some (.gquit 33) ∧
    decodeTableWord 32 0b0_010111_100001_000000_000000_0000110 = some (.gkill 33) ∧
    decodeTableWord 32 0b0_010111_100001_000000_000000_0000111 = some (.gpre 33) ∧
    decodeTableWord 32 0b0_010111_000000_000000_000000_0000001 = some (.sret) ∧
    decodeTableWord 32 0b0_010111_000000_000000_000000_0001000 = some (.ebrk) := by
  decide +kernel

theorem test_decode_registers_and_translation :
    decodeTableWord 32 0b0_011000_100001_000000_0000100000001 = some (.csrr 33 0x101) ∧
    decodeTableWord 32 0b0_011001_000000_010100_0000100000001 = some (.csrw 20 0x101) ∧
    decodeTableWord 32 0b0_011010_100001_010100_0000100000001 = some (.csrx 33 20 0x101) ∧
    decodeTableWord 32 0b0_011011_100001_010100_001011_0000000 = some (.sfqRd 33 20 11) ∧
    decodeTableWord 32 0b0_011011_100001_010100_000000_0000010 = some (.plbInv 33 20) ∧
    decodeTableWord 32 0b0_011011_100001_010100_000000_0000011 = some (.mapInv 33 20) ∧
    decodeTableWord 32 0b0_011011_000000_000000_000000_0000001 = some (.sfqPop) := by
  decide +kernel

theorem test_decode_atomics :
    decodeTableWord 32 0b0_011100_100001_010100_001011_1000000 = some (.amoAdd 33 20 11 true) ∧
    decodeTableWord 32 0b0_011100_100001_010100_001011_1000001 = some (.amoAnd 33 20 11 true) ∧
    decodeTableWord 32 0b0_011100_100001_010100_001011_1000010 = some (.amoOr 33 20 11 true) ∧
    decodeTableWord 32 0b0_011100_100001_010100_001011_1000011 = some (.amoXor 33 20 11 true) ∧
    decodeTableWord 32 0b0_011100_100001_010100_001011_1000100 = some (.amoMin 33 20 11 true) ∧
    decodeTableWord 32 0b0_011100_100001_010100_001011_1000101 = some (.amoMax 33 20 11 true) ∧
    decodeTableWord 32 0b0_011100_100001_010100_001011_1000110 = some (.amoMinz 33 20 11 true) ∧
    decodeTableWord 32 0b0_011100_100001_010100_001011_1000111 = some (.amoMaxz 33 20 11 true) ∧
    decodeTableWord 32 0b0_011100_100001_010100_001011_1001000 = some (.amoSwap 33 20 11 true) ∧
    decodeTableWord 32 0b0_011100_100001_010100_001011_1001001 = some (.amoCas 33 20 11 true) ∧
    decodeTableWord 32 0b0_011100_100001_010100_001011_0001010 = some (.amoFaddW 33 20 11) ∧
    decodeTableWord 32 0b0_011100_100001_010100_001011_1001011 = some (.amoTopkD 33 20 11) := by
  decide +kernel

theorem test_decode_stitch :
    decodeTableWord 32 0b0_011101_100001_010100_000000_0000000 = some (.bnCnt 33 20) ∧
    decodeTableWord 32 0b0_011101_100001_010100_000000_0000001 = some (.bnAnti 33 20) ∧
    decodeTableWord 32 0b0_011101_000000_010100_001011_0000010 = some (.bnSpread 20 11) ∧
    decodeTableWord 32 0b0_011101_000000_010100_001011_0000011 = some (.bnArr 20 11) ∧
    decodeTableWord 32 0b0_011101_000000_010100_001011_0000100 = some (.bnWait 20 11) ∧
    decodeTableWord 32 0b0_011101_000000_010100_001011_0000101 = some (.bnCfg 20 11) ∧
    decodeTableWord 32 0b0_011101_000000_010100_001011_0000110 = some (.bnClr 20 11) ∧
    decodeTableWord 32 0b0_011101_100001_010100_000000_0000111 = some (.bnRd 33 20) := by
  decide +kernel

theorem test_decode_vector_floats :
    decodeTableWord 32 0b0_011110_10001_01010_00111_101_1_1_00000 = some (.vadd 17 10 7 5 true true) ∧
    decodeTableWord 32 0b0_011110_10001_01010_00111_101_1_1_00001 = some (.vsub 17 10 7 5 true true) ∧
    decodeTableWord 32 0b0_011110_10001_01010_00111_101_1_1_00010 = some (.vmul 17 10 7 5 true true) ∧
    decodeTableWord 32 0b0_011110_10001_01010_00111_101_1_1_00011 = some (.vfma 17 10 7 5 true true) ∧
    decodeTableWord 32 0b0_011110_10001_01010_00111_101_1_1_00100 = some (.vfms 17 10 7 5 true true) ∧
    decodeTableWord 32 0b0_011110_10001_01010_00111_101_1_1_00101 = some (.vfnma 17 10 7 5 true true) ∧
    decodeTableWord 32 0b0_011110_10001_01010_00111_101_1_1_00110 = some (.vmin 17 10 7 5 true true) ∧
    decodeTableWord 32 0b0_011110_10001_01010_00111_101_1_1_00111 = some (.vmax 17 10 7 5 true true) ∧
    decodeTableWord 32 0b0_011110_10001_01010_00000_101_1_1_01000 = some (.vabs 17 10 5 true true) ∧
    decodeTableWord 32 0b0_011110_10001_01010_00000_101_1_1_01001 = some (.vneg 17 10 5 true true) ∧
    decodeTableWord 32 0b0_011110_10001_01010_00111_101_1_1_01010 = some (.vcmpEq 17 10 7 5 true true) ∧
    decodeTableWord 32 0b0_011110_10001_01010_00111_101_1_1_01011 = some (.vcmpLt 17 10 7 5 true true) ∧
    decodeTableWord 32 0b0_011110_10001_01010_00111_101_1_1_01100 = some (.vcmpLe 17 10 7 5 true true) ∧
    decodeTableWord 32 0b0_011110_10001_01010_00111_101_1_1_01101 = some (.vcmpUn 17 10 7 5 true true) ∧
    decodeTableWord 32 0b0_011110_10001_01010_00000_101_1_1_01110 = some (.vrcpE 17 10 5 true true) ∧
    decodeTableWord 32 0b0_011110_10001_01010_00000_101_1_1_01111 = some (.vrsqE 17 10 5 true true) ∧
    decodeTableWord 32 0b0_011110_10001_01010_00000_101_1_1_10000 = some (.vgexp 17 10 5 true true) ∧
    decodeTableWord 32 0b0_011110_10001_01010_00111_101_1_1_10001 = some (.vscl 17 10 7 5 true true) ∧
    decodeTableWord 32 0b0_011110_10001_01010_00000_101_1_1_10010 = some (.vrnd 17 10 5 true true) ∧
    decodeTableWord 32 0b0_011110_10001_01010_00111_101_0_1_10011 = some (.vsel 17 10 7 5) ∧
    decodeTableWord 32 0b0_011110_10001_01010_00000_101_0_1_10100 = some (.vredsum 17 10 5 true) ∧
    decodeTableWord 32 0b0_011110_10001_01010_00000_101_0_1_10101 = some (.vredmax 17 10 5 true) ∧
    decodeTableWord 32 0b0_011110_10001_01010_00000_101_0_1_10110 = some (.vredmin 17 10 5 true) := by
  decide +kernel

theorem test_decode_vector_integers :
    decodeTableWord 32 0b0_011111_10001_01010_00111_101_1_1_00000 = some (.vaddI 17 10 7 5 true true) ∧
    decodeTableWord 32 0b0_011111_10001_01010_00111_101_1_1_00001 = some (.vsubI 17 10 7 5 true true) ∧
    decodeTableWord 32 0b0_011111_10001_01010_00111_101_1_1_00010 = some (.vmulI 17 10 7 5 true true) ∧
    decodeTableWord 32 0b0_011111_10001_01010_00111_101_1_1_00011 = some (.vand 17 10 7 5 true true) ∧
    decodeTableWord 32 0b0_011111_10001_01010_00111_101_1_1_00100 = some (.vor 17 10 7 5 true true) ∧
    decodeTableWord 32 0b0_011111_10001_01010_00111_101_1_1_00101 = some (.vxor 17 10 7 5 true true) ∧
    decodeTableWord 32 0b0_011111_10001_01010_00111_101_1_1_00110 = some (.vshl 17 10 7 5 true true) ∧
    decodeTableWord 32 0b0_011111_10001_01010_00111_101_1_1_00111 = some (.vshr 17 10 7 5 true true) ∧
    decodeTableWord 32 0b0_011111_10001_01010_00111_101_1_1_01000 = some (.vsha 17 10 7 5 true true) ∧
    decodeTableWord 32 0b0_011111_10001_01010_00111_101_1_1_01001 = some (.vminI 17 10 7 5 true true) ∧
    decodeTableWord 32 0b0_011111_10001_01010_00111_101_1_1_01010 = some (.vmaxI 17 10 7 5 true true) ∧
    decodeTableWord 32 0b0_011111_10001_01010_00111_101_1_1_01011 = some (.vcmpIeq 17 10 7 5 true true) ∧
    decodeTableWord 32 0b0_011111_10001_01010_00111_101_1_1_01100 = some (.vcmpIlt 17 10 7 5 true true) ∧
    decodeTableWord 32 0b0_011111_10001_01010_00111_101_1_1_01101 = some (.vcmpIlo 17 10 7 5 true true) ∧
    decodeTableWord 32 0b0_011111_10001_01010_00000_101_0_1_01110 = some (.vredaddI 17 10 5 true) ∧
    decodeTableWord 32 0b0_011111_10001_01010_00111_101_1_1_01111 = some (.vperm 17 10 7 5 true true) ∧
    decodeTableWord 32 0b0_100000_10001_00000_001011_101_1_1_0000 = some (.vbc 17 11 5 true true) ∧
    decodeTableWord 32 0b0_100000_10001_01010_001011_101_1_1_0001 = some (.vaddS 17 10 11 5 true true) ∧
    decodeTableWord 32 0b0_100000_10001_01010_001011_101_1_1_0010 = some (.vmulS 17 10 11 5 true true) ∧
    decodeTableWord 32 0b0_100000_10001_01010_001011_101_1_1_0011 = some (.vfmaS 17 10 11 5 true true) ∧
    decodeTableWord 32 0b0_100000_10001_01010_001011_101_1_1_0100 = some (.vslup 17 10 11 5 true true) ∧
    decodeTableWord 32 0b0_100000_10001_01010_001011_101_1_1_0101 = some (.vsldn 17 10 11 5 true true) ∧
    decodeTableWord 32 0b0_100000_10001_00000_001011_101_1_1_0110 = some (.vidx 17 11 5 true true) := by
  decide +kernel

theorem test_decode_lanes_and_conversions :
    decodeTableWord 32 0b0_100001_10001_100001_101001_0000_0000 = some (.vext 17 33 41) ∧
    decodeTableWord 32 0b0_100001_10001_100001_101001_0000_0001 = some (.vins 17 33 41) ∧
    decodeTableWord 32 0b0_100001_10001_100001_000000_0000_0010 = some (.mpopc 17 33) ∧
    decodeTableWord 32 0b0_100001_10001_100001_000000_0000_0011 = some (.mfirst 17 33) ∧
    decodeTableWord 32 0b0_100010_10001_01010_00000_101_1_1_00000 = some (.vcvtI2f 17 10 5 true true) ∧
    decodeTableWord 32 0b0_100010_10001_01010_00000_101_1_1_00001 = some (.vcvtF2i 17 10 5 true true) ∧
    decodeTableWord 32 0b0_100010_10001_01010_00111_101_1_1_00010 = some (.vcvtF2bf 17 10 7 5 true true) ∧
    decodeTableWord 32 0b0_100010_10001_01010_00000_101_1_1_00011 = some (.vcvtBf2f 17 10 5 true true) ∧
    decodeTableWord 32 0b0_100010_10001_01010_00111_101_1_1_00100 = some (.vcvtF2h 17 10 7 5 true true) ∧
    decodeTableWord 32 0b0_100010_10001_01010_00000_101_1_1_00101 = some (.vcvtH2f 17 10 5 true true) := by
  decide +kernel

theorem test_decode_matrix :
    decodeTableWord 32 0b0_100011_10_010100_001011_100101_00000 = some (.mmaT8 2 20 11 37) ∧
    decodeTableWord 32 0b0_100011_10_010100_001011_100101_00001 = some (.mmaT6 2 20 11 37) ∧
    decodeTableWord 32 0b0_100011_10_010100_001011_100101_00010 = some (.mmaI8 2 20 11 37) ∧
    decodeTableWord 32 0b0_100011_10_010100_001011_100101_00011 = some (.mmaBf 2 20 11 37) ∧
    decodeTableWord 32 0b0_100011_10_010100_001011_100101_00100 = some (.mmaH 2 20 11 37) ∧
    decodeTableWord 32 0b0_100011_10_000000_000000_000000_00101 = some (.mzero 2) ∧
    decodeTableWord 32 0b0_100011_10_010100_000000_100101_00110 = some (.mld 2 20 37) ∧
    decodeTableWord 32 0b0_100011_10_010100_000000_100101_00111 = some (.mst 2 20 37) ∧
    decodeTableWord 32 0b0_100011_01_000000_001011_000000_01000 = some (.mwaitSus 11) ∧
    decodeTableWord 32 0b0_100011_10_000000_001011_000000_01000 = some (.mwaitRes 11) ∧
    decodeTableWord 32 0b0_100011_00_000000_000000_000000_01000 = some (.mwait) := by
  decide +kernel

theorem test_decode_records_and_copies :
    decodeTableWord 32 0b0_100100_100001_010100_000000_0000000 = some (.cdec 33 20) ∧
    decodeTableWord 32 0b0_100100_100001_010100_000000_0000001 = some (.cpush 33 20) ∧
    decodeTableWord 32 0b0_100100_100001_010100_000000_0000010 = some (.carm 33 20) ∧
    decodeTableWord 32 0b0_100100_100001_010100_000000_0000011 = some (.csteal 33 20) ∧
    decodeTableWord 32 0b0_100101_100001_010100_001011_0000000 = some (.cpT 33 20 11) ∧
    decodeTableWord 32 0b0_100101_100001_010100_001011_0000001 = some (.cpB 33 20 11) ∧
    decodeTableWord 32 0b0_100101_100001_010100_001011_0000010 = some (.cpG 33 20 11) ∧
    decodeTableWord 32 0b0_100101_100001_000000_000000_0000011 = some (.cpWait 33) ∧
    decodeTableWord 32 0b0_100101_100001_010100_000000_0000100 = some (.cpSt 33 20) := by
  decide +kernel

theorem test_decode_stages_and_moves :
    decodeTableWord 32 0b0_100110_100001_010100_000000_0000000 = some (.sbInit 33 20) ∧
    decodeTableWord 32 0b0_100110_100001_000000_000000_0000001 = some (.sbArr 33) ∧
    decodeTableWord 32 0b0_100110_100001_010100_000000_0000010 = some (.sbExp 33 20) ∧
    decodeTableWord 32 0b0_100110_100001_010100_001011_0000011 = some (.sbTest 33 20 11) ∧
    decodeTableWord 32 0b0_100110_100001_010100_000000_0000100 = some (.sbWait 33 20) ∧
    decodeTableWord 32 0b0_100110_100001_010100_000000_0000101 = some (.sbBrk 33 20) ∧
    decodeTableWord 32 0b0_100111_100001_010100_001011_0000000 = some (.get 33 20 11) ∧
    decodeTableWord 32 0b0_100111_100001_010100_001011_0000001 = some (.put 33 20 11) ∧
    decodeTableWord 32 0b0_100111_100001_010100_000000_0000010 = some (.getW 33 20) ∧
    decodeTableWord 32 0b0_100111_100001_010100_000000_0000011 = some (.putW 33 20) ∧
    decodeTableWord 32 0b0_100111_100001_010100_001011_0000101 = some (.mig 33 20 11) ∧
    decodeTableWord 32 0b0_100111_000000_000000_000000_0000100 = some (.gwait) := by
  decide +kernel

theorem test_decode_remote_atomics :
    decodeTableWord 32 0b0_101000_100001_010100_001011_1000000 = some (.ramoAdd 33 20 11 true) ∧
    decodeTableWord 32 0b0_101000_100001_010100_001011_1000001 = some (.ramoAnd 33 20 11 true) ∧
    decodeTableWord 32 0b0_101000_100001_010100_001011_1000010 = some (.ramoOr 33 20 11 true) ∧
    decodeTableWord 32 0b0_101000_100001_010100_001011_1000011 = some (.ramoXor 33 20 11 true) ∧
    decodeTableWord 32 0b0_101000_100001_010100_001011_1000100 = some (.ramoMin 33 20 11 true) ∧
    decodeTableWord 32 0b0_101000_100001_010100_001011_1000101 = some (.ramoMax 33 20 11 true) ∧
    decodeTableWord 32 0b0_101000_100001_010100_001011_1000110 = some (.ramoMinz 33 20 11 true) ∧
    decodeTableWord 32 0b0_101000_100001_010100_001011_1000111 = some (.ramoMaxz 33 20 11 true) ∧
    decodeTableWord 32 0b0_101000_100001_010100_001011_1001000 = some (.ramoSwap 33 20 11 true) ∧
    decodeTableWord 32 0b0_101000_100001_010100_001011_1001001 = some (.ramoCas 33 20 11 true) := by
  decide +kernel

theorem test_decode_clock_and_search :
    decodeTableWord 32 0b0_101001_100001_010100_000000_0000000 = some (.clkRd 33 20) ∧
    decodeTableWord 32 0b0_101001_100001_010100_001011_0000001 = some (.stStamp 33 20 11) ∧
    decodeTableWord 32 0b0_101001_100001_010100_001011_0000010 = some (.ldAsof 33 20 11) ∧
    decodeTableWord 32 0b0_101001_100001_000000_000000_0000011 = some (.clkWt 33) ∧
    decodeTableWord 32 0b0_101001_100001_010100_000000_0000100 = some (.stpRd 33 20) ∧
    decodeTableWord 32 0b0_101010_100001_010100_001011_0000000 = some (.tryEach 33 20 11) ∧
    decodeTableWord 32 0b0_101010_100001_000000_000000_0000011 = some (.cutto 33) ∧
    decodeTableWord 32 0b0_101010_100001_000000_000000_0000100 = some (.cpmark 33) ∧
    decodeTableWord 32 0b0_101010_100001_010100_000000_0000101 = some (.tsteal 33 20) ∧
    decodeTableWord 32 0b0_101010_000000_000000_000000_0000001 = some (.fail) ∧
    decodeTableWord 32 0b0_101010_000000_000000_000000_0000010 = some (.cut) := by
  decide +kernel
/-! ## What the statements assume is met: 04 and 05 -/

/-- A result that a multiply has left outstanding in a register. -/
def busyWith (r : RegName) : Strand :=
  { Strand.reset with out := [{ id := 0, chunk := 0, smode := false, dead := false, dsts := [r], src := .ready [] Flags.none }] }

/-- g4 and g5 of a strand. -/
def with45 (c x : Reg) : Arch := regs [(4, c), (5, x)]

/-- A capability with every permission over 0 to 0x1000, at 0x10. -/
def anyCap : Reg := capOf 0xFFF 0 0 0 0x1000 0x10

theorem test_met_IntegerInstructionsCompute :
    MayIssue false false (scalarReads (.add 3 4 5)) (withArch .reset) ∧ MayIssue false false [.g 4, .g 3] (withArch .reset) ∧
    MayIssue false false [.g 4, .g 5, .g 3] (withArch .reset) ∧
    (intValue Arch.reset (.add 3 4 5) = some (3, 0) ∧ productValue Arch.reset (.mul 3 4 5) = some (3, 0, false) ∧
      productValue Arch.reset (.div 3 4 5) = some (3, BitVec.allOnes 64, true) ∧ (withArch .reset).dividing 0 = false ∧
      (State.reset.setStrand 1 { busyWith (.g 6) with
        out := [{ id := 0, chunk := 0, smode := false, dead := false, dsts := [.g 6], src := .divide [] }] }).dividing 0 = true) :=
  ⟨(quiet_withArch _).mayIssue _, (quiet_withArch _).mayIssue _, (quiet_withArch _).mayIssue _, by decide⟩

theorem test_met_CursorsMoveOrLoseTheTag (c x : Reg) :
    (∃ bits, derivedBits (with45 c x) (.cincr 3 4 5) = some (3, 4, bits)) ∧
    Issues false (scalarReads (.cincr 3 4 5)) (withArch (with45 c x)) (withArch (with45 c x)).joinChunk ∧
    (capOf 0xFFF 1 0 0 0x1000 0x10).otype ≠ 0 ∧ anyCap.otype = 0 ∧ Reg.null.tag = false :=
  ⟨⟨_, rfl⟩, (quiet_withArch _).issues _, by decide, by decide, by decide⟩

theorem test_met_BoundsAreTheLabelsAlone :
    (anyCap.base ≤ (0 : Word).toNat ∧ ((0x1FFFFF : Word).toNat : Int) < anyCap.base + 2 ^ (anyCap.exp + 21)) ∧
    ((with45 anyCap (.data 0xFF0)).readG 4 = anyCap ∧ MayIssue false false [.g 4, .g 5, .g 3] (withArch (with45 anyCap (.data 0xFF0))) ∧
      anyCap.base ≤ anyCap.cursor ∧ (anyCap.cursor : Int) + ((with45 anyCap (.data 0xFF0)).word 5).toNat ≤ anyCap.top ∧
      Smallest 0 0xFF0) ∧
    (Smallest 1 ((2 ^ 21 - 1) * 2) ∧
      (2 ^ 21 - 1) * 2 ^ 1 < roundUp (1 + (2 ^ 21 - 1) * 2) 1 - roundDown 1 1 ∧
      (capOf 0xFFF 0 2 0 0x100000 1).base ≤ (roundDown 1 2 : Nat) ∧
      ((roundUp (1 + (2 ^ 21 - 1) * 2) 2 : Nat) : Int) ≤ (capOf 0xFFF 0 2 0 0x100000 1).top) :=
  ⟨⟨by decide, by decide⟩, ⟨by decide, (quiet_withArch _).mayIssue _, by decide, by decide, by decide, by intro k h; omega⟩,
    ⟨by decide, by
      intro k h
      have hk : k = 0 := by omega
      subst hk
      decide⟩, by decide, by decide, by decide⟩

theorem test_met_SealingAndItsChecks :
    (∀ n : Fin 16, 1 ≤ n.val → (capOf 0x040 0 0 0 0x1000 (BitVec.ofNat 64 n.val)).cursor = n.val) ∧
    (capOf 0x040 0 0 0 0x1000 1).perm permSEAL = true ∧ (capOf 0x020 0 0 0 0x1000 3).perm permUNSEAL = true ∧
    (capOf 0xFFF 3 0 0 0x1000 0).otype = 3 ∧ (capOf 0x020 0 0 0 0x1000 3).cursor = 3 ∧
    (∀ c x, (with45 c x).readG 4 = c ∧ (with45 c x).readG 5 = x ∧
      Issues false [.g 4, .g 5, .g 3] (withArch (with45 c x)) (withArch (with45 c x)).joinChunk) ∧
    anyCap.top < anyCap.cursor + (0xFF1 : Word).toNat :=
  ⟨by decide, by decide, by decide, by decide, by decide, fun c x => ⟨by rfl, by rfl, (quiet_withArch _).issues _⟩, by decide⟩

theorem test_met_InspectionReportsTheFields :
    MayIssue false false (scalarReads (.cbase 3 4)) (withArch .reset) ∧ inspected .reset (.cbase 3 4) = some (3, 0) :=
  ⟨(quiet_withArch _).mayIssue _, by decide⟩

theorem test_met_DerivedCapabilitiesNeverGrow :
    derives (.cbnd 3 4 5) = some (3, 4) ∧ anyCap.top ≤ 2 ^ 56 ∧
    Issues false (scalarReads (.cbnd 3 4 5)) (withArch (with45 anyCap .null)) (withArch (with45 anyCap .null)).joinChunk :=
  ⟨by decide, by decide, (quiet_withArch _).issues _⟩

/-- A strand whose code lies at 0 to 0x1000, with its PC at the last word. -/
def atEnd : Arch := { with45 (capOf 0x200 0 0 0 0x1000 0xFFC) .null with pcc := capOf 0x200 0 0 0 0x1000 0xFFC }

theorem test_met_BranchesAndRegisterJumps :
    branchOf atEnd (.bEq 6 7 0) = some (6, 7, true, 0) ∧ branchOf atEnd (.bNe 6 7 0) = some (6, 7, false, 0) ∧
    Issues false [.g 6, .g 7] (withArch atEnd) (withArch atEnd).joinChunk ∧
    checkCap atEnd.smode atEnd.pcc 0xFFC 4 [permX] 0 = none ∧ checkCap atEnd.smode atEnd.pcc 0x1000 4 [permX] 0 = some .capbnd ∧
    checkCap atEnd.smode (atEnd.readG 4) (atEnd.readG 4).cursor 4 [permX] 4 = none ∧
    checkCap atEnd.smode (atEnd.readG 5) (atEnd.readG 5).cursor 4 [permX] 4 = some .captag :=
  ⟨by decide, by decide, (quiet_withArch _).issues _, by decide, by decide, by decide, by decide⟩

theorem test_met_JumpsAndCallsStayInTheCode :
    Issues false [.g 1] (withArch atEnd) (withArch atEnd).joinChunk ∧ (State.reset.setStrand 0 (busyWith (.g 1))).park = false ∧
    (busyWith (.g 1)).isOut (.g 1) = true :=
  ⟨(quiet_withArch _).issues _, by decide, by decide⟩

/-- Strand 0 runs code at the beginning of its core's scratchpad: the words given, which end at the bound of the PCC. -/
def padCode (a : Arch) (ws : List (BitVec 32)) : State :=
  (withArch { a with pcc := capOf 0x200 0 0 0 (BitVec.ofNat 21 (4 * ws.length)) 0x7F0000000000 }).store (padLoc 0 0)
    (ws.flatMap fun w => bytesOfNat 4 w.toNat)

/-- A computation that gives a value, said by a test that the kernel evaluates. -/
def gives {ε α : Type} [DecidableEq α] (e : Except ε α) (x : α) : Bool :=
  match e with
  | .ok y => decide (y = x)
  | .error _ => false

theorem ok_of_gives {ε α : Type} [DecidableEq α] {e : Except ε α} {x : α} (h : gives e x = true) : e = .ok x := by
  cases e with
  | ok y => simp [gives] at h; rw [h]
  | error _ => cases h

/-- The word of nop. -/
def nopWord : BitVec 32 := 0x22000000

/-- rpt over one nop. -/
def rptCode : State := padCode Arch.reset [0, nopWord]

theorem quiet_rptCode : Quiet rptCode := ⟨rfl, rfl, rfl, rfl, rfl⟩

theorem test_met_RepeatAndNopMoveOn :
    Issues false [] rptCode rptCode.joinChunk ∧ Issues false [.g 4] rptCode rptCode.joinChunk ∧
    checkCap rptCode.me.smode rptCode.me.pcc (rptCode.me.pcc.low + 4).toNat (4 * ((0 : BitVec 4).toNat + 1)) [permX] 0 = none ∧
    frameWords rptCode.me.smode (rptCode.joinChunk.fetchWord rptCode.cur rptCode.me.pcc) (rptCode.me.pcc.low + 4).toNat 1 = .ok [nopWord] ∧
    (∀ n : Fin 3, (with45 (.data (BitVec.ofNat 64 (16384 * n.val))) .null).word 4 = BitVec.ofNat 64 (16384 * n.val)) :=
  ⟨quiet_rptCode.issues _, quiet_rptCode.issues _, by decide +kernel, ok_of_gives (by decide +kernel), by decide⟩
/-! ## 06 and CSRs -/

/-- The state at reset, but for strand 0 and the operands of the event. -/
def st (t : Strand) (n : List Nat) : State := { State.reset.setStrand 0 t with arg := { n := n, bytes := [] } }

/-- A capability with every permission but SYS over the first 4 KB of the own scratchpad. -/
def padCap : Reg := capOf 0xFFD 0 0 0 0x1000 0x7F0000000000

/-- A strand that has the scratchpad in g4. -/
def onPad : State := withArch (with45 padCap .null)

/-- A page mapped to frame 0x20000 with entries in the core's PLB and page buffer, in g4 from 0x10000. -/
def onPage : State :=
  (withArch (with45 (capOf 0xFFD 0 0 0x10000 0x20000 0x10000) .null)).setCore 0
    { Core.reset with
      plb := [{ base := 0, size := 20, domain := 0, r := true, w := true, x := true, e := true }]
      pages := [{ page := 0x10000, big := false, frame := 0x20000, w := true, st := false }] }

theorem quiet_onPad : Quiet onPad := ⟨rfl, rfl, rfl, rfl, rfl⟩
theorem quiet_onPage : Quiet onPage := ⟨rfl, rfl, rfl, rfl, rfl⟩

/-- A load of the scratchpad and one of a page; the scratchpad's load again, by what it reads. -/
theorem test_met_LoadsReadMemory :
    Issues false [.g 4, .g 3] onPad onPad.joinChunk ∧ Issues false [.g 4, .g 3] onPage onPage.joinChunk ∧
    (∀ s, s = onPad ∨ s = onPage → ∀ l, loadOf s.me (.ldD 3 4 0) = some l →
      l.reads = [.g 4, .g 3] ∧ s.joinChunk.checkAll 0 l.base l.accs (loadDemand l.wide) = none ∧
      (s.joinChunk.strand 0).held = [] ∧ s.joinChunk.rauFull 0 = false ∧
      ∀ x ∈ l.accs, (s.joinChunk.elemsOf 0 x).1.length = 1 ∧
        s.joinChunk.behindRmw 0 ((s.joinChunk.elemsOf 0 x).1.flatMap Elem.locs) = false ∧
        s.joinChunk.lineRoom 0 (onDieLines 0 ((s.joinChunk.elemsOf 0 x).1.flatMap Elem.locs)) [] = true ∧
        ∀ b ∈ (s.joinChunk.elemsOf 0 x).1.flatMap Elem.locs, s.joinChunk.reachable 0 b = true) ∧
    ((scalarLoadOf onPad.me (.ldQ 3 4 0)).isSome = true ∧ onPad.joinChunk.place 0 0x7F0000000000 = .pad (onPad.joinChunk.owner 0) 0 0 ∧
      padCore (padLoc (onPad.joinChunk.owner 0) 0) = onPad.joinChunk.owner 0) := by
  refine ⟨quiet_onPad.issues _, quiet_onPage.issues _, ?_, by decide +kernel⟩
  rintro s (rfl | rfl) l h <;> cases h <;> decide +kernel

/-- A result computed, one of the divider, and a load whose bytes are all there. -/
theorem test_met_ResultsLand :
    (∀ src dead, ((st { Strand.reset with
        out := [{ id := 0, chunk := 0, smode := false, dead := dead, dsts := [.g 3], src := src }] } []).strand 0).outOf 0 =
      some { id := 0, chunk := 0, smode := false, dead := dead, dsts := [.g 3], src := src }) ∧
    ({ form := .scalar 3 1 true, elems := [], need := [], got := [], own := [], tag := false, ownTag := none } : LoadReq).result =
      ([.g 3 (.data 0)], Flags.none) :=
  ⟨fun _ _ => rfl, by decide +kernel⟩

/-- A store to the scratchpad, at its first and at its last doubleword, and one to a page. -/
theorem test_met_StoresWriteMemory :
    Issues false [.g 3, .g 4] onPad onPad.joinChunk ∧ Issues false [.g 3, .g 4] onPage onPage.joinChunk ∧
    (∀ off : BitVec 10, off = 0 ∨ off = 511 → ∀ y, scalarStoreOf onPad.me (.stD 3 4 off) = some y →
      onPad.joinChunk.checkAccess 0 (onPad.me.readG 4) { lane := 0, va := y.addr, n := y.n } y.demand = none ∧
      onPad.joinChunk.place 0 y.addr = .pad (onPad.joinChunk.owner 0) 0 (8 * off.toNat) ∧
      8 * off.toNat + 8 ≤ onPad.joinChunk.padSize (onPad.joinChunk.owner 0) ∧
      padCore (padLoc 0 (8 * off.toNat) / 16 * 16) = onPad.joinChunk.owner 0 ∧
      onPad.joinChunk.behindRmw 0 [padLoc 0 (8 * off.toNat) / 16 * 16] = false ∧
      onPad.joinChunk.lineRoom 0 [] [2 * lineOf (padLoc 0 (8 * off.toNat) / 16 * 16) + 1] = true) ∧
    onPad.me.cpdepth = 0 ∧
    (∀ y, storeOf onPage.me (.stD 3 4 0) = some y →
      onPage.joinChunk.checkAll 0 y.base (y.accs.map (·.1)) y.demand = none ∧
      (∀ x ∈ y.accs, onPage.joinChunk.place 0 x.1.va = .mapped 0x10000) ∧
      (∀ p ∈ (onPage.joinChunk.piecesOf 0 y.accs y.tag).1, onPage.joinChunk.ownPiece 0 p = none ∧ p.xl = .ok 0x20000) ∧
      onPage.joinChunk.behindRmw 0 [0x20000] = false ∧
      onPage.joinChunk.lineRoom 0 [] ((onPage.joinChunk.piecesOf 0 y.accs y.tag).1.map Piece.line) = true) := by
  refine ⟨quiet_onPad.issues _, quiet_onPage.issues _, ?_, by decide +kernel, ?_⟩
  · rintro off (rfl | rfl) y h <;> cases h <;> decide +kernel
  · rintro y h
    cases h
    decide +kernel

/-- S-mode registers. -/
def inS : Arch := { Arch.reset with smode := true }

theorem quiet_reset : Quiet State.reset := ⟨rfl, rfl, rfl, rfl, rfl⟩

theorem test_met_CsrReadsAndWritesOfTheStrand :
    Issues false [.g 3] State.reset State.reset.joinChunk ∧
    Issues false [.g 3] (st (busyWith (.g 6)) []) (st (busyWith (.g 6)) []).joinChunk ∧
    Issues true [.g 3] (withArch inS) (withArch inS).joinChunk ∧ MayEnd false false [.g 4, .g 3] State.reset (endOf State.reset) ∧
    areaAllowed (endOf State.reset) 0x050 0 ∧ areaAllowed (endOf State.reset) 0x051 0 ∧
    (csrValue State.reset.joinChunk 0 0x011 = some 0 ∧ (State.reset.joinChunk.strand 0).out = [] ∧
      ((st (busyWith (.g 6)) []).joinChunk.strand 0).out ≠ [] ∧ csrValue (withArch inS).joinChunk 0 0x137 = some 0 ∧
      State.reset.me.smode = false ∧ csrValue State.reset.joinChunk 0 0x005 = none ∧ ((endOf State.reset).strand 0).out = [] ∧
      (csrWritten (endOf State.reset).me ((endOf State.reset).me.word 4) 0x010).isSome = true ∧
      (endOf State.reset).cpstkBad 0 0x1FFFF = true ∧ (endOf State.reset).trailBad 0 0x7FFF00000000 = true) := by
  refine ⟨quiet_reset.issues _, ⟨by simp, (by intro h; cases h), ?_, rfl⟩, (quiet_withArch _).issuesS _ rfl, quiet_reset.mayEnd _ _,
    ⟨fun _ => by decide +kernel, fun _ => by decide +kernel⟩, ⟨fun _ => by decide +kernel, fun _ => by decide +kernel⟩,
    by decide +kernel⟩
  simp only [List.mem_singleton]
  rintro r rfl
  decide +kernel

theorem test_met_CsrWritesOfTheCoreAreChecked :
    MayEnd true false [.g 4] (withArch inS) (endOf (withArch inS)) ∧ Issues true [.g 4] (withArch inS) (withArch inS).joinChunk ∧
    Issues false [.g 4] State.reset State.reset.joinChunk ∧
    ((coreWritten ((endOf (withArch inS)).core 0) 0 0x020).isSome = true ∧ (coreWritten Core.reset 0 0x150).isSome = true ∧
      csrValue (withArch inS) 0 0xFFF = none ∧ State.reset.me.smode = false) :=
  ⟨(quiet_withArch _).mayEndS _ _ rfl, (quiet_withArch _).issuesS _ rfl, quiet_reset.issues _, by decide +kernel⟩
/-! ## 07 and the chunks -/

/-- A chunk at reset. -/
def chunk0 : Chunk := Strand.reset.fresh 0

/-- A U-mode strand with a handler. -/
def handled : Arch := { Arch.reset with tvec := 0x40 }

/-- A cause that waits with a result out, without one, and entry at both levels; frames at the ends of their ranges. -/
theorem test_met_TrapEntrySavesAndJumps :
    ((st { busyWith (.g 3) with trap := some ⟨.ill, 0⟩ } []).strand 0).busy = true ∧
    ((st { Strand.reset with trap := some ⟨.ill, 0⟩ } []).strand 0).busy = false ∧
    (∃ u, (st { Strand.reset with trap := some ⟨.ill, 0⟩ } []).commitAll 0 1 = .ready u) ∧
    handled.smode = false ∧ handled.hf = false ∧ Cause.ill.service = false ∧ handled.tvec ≠ 0 ∧ Cause.priv.service = true ∧
    Arch.reset.tvec = 0 ∧ inS.smode = true ∧ Cause.preempt.async = true ∧
    FrameInRange { len := 1, index := 0, dstep := 0, astep := 0, bstep := 0, left := 0, k := 0, base := 0, words := [] } ∧
    FrameInRange { len := 16, index := 15, dstep := 3, astep := 3, bstep := 3, left := 16384, k := 16383, base := 0, words := [] } := by
  refine ⟨by decide +kernel, by decide +kernel, ⟨_, rfl⟩, rfl, rfl, rfl, by decide +kernel, rfl, rfl, rfl, rfl, ?_, ?_⟩ <;>
    constructor <;> decide

/-- The U set of a handler that has interrupted a frame of one nop in the scratchpad. -/
def inHandler : Arch :=
  { handled with
    hf := true, fbuf := (0x7F0000000000, [nopWord])
    uset := { TrapSet.reset with
      pcc := capOf 0x200 0 0 0 0x1000 0x7F0000000000
      repctx := frameWord (capOf 0x200 0 0 0 0x1000 0x7F0000000000) (some
        { len := 1, index := 0, dstep := 0, astep := 0, bstep := 0, left := 2, k := 0, base := 0x7F0000000000, words := [nopWord] }) } }

theorem test_met_TrapsAreRaisedAndReturned :
    MayEnd false false [.g 3] (withArch handled) (endOf (withArch handled)) ∧
    MayEnd false false [] (withArch inHandler) (endOf (withArch inHandler)) ∧
    Records inHandler.uset.repctx inHandler.uset.pcc
      { len := 1, index := 0, dstep := 0, astep := 0, bstep := 0, left := 2, k := 0, base := 0x7F0000000000, words := [nopWord] } ∧
    Issues false [.g 3] State.reset State.reset.joinChunk ∧
    (∃ c, ((endOf (withArch handled)).strand 0).chunks = [c] ∧ c.held = [] ∧ c.undo = [] ∧ c.lineOps = []) ∧
    (((endOf (withArch handled)).strand 0).out = [] ∧ ((endOf (withArch handled)).strand 0).places = [] ∧
      (endOf (withArch handled)).pinned 0 = none ∧ (endOf (withArch inHandler)).me.hf = true ∧
      TrapSet.reset.repctx.getLsbD 63 = false ∧ gives (frameOf .null 0x8780000000000000) none = false ∧
      (withArch inS).me.smode = true ∧ ((st { Strand.reset with wait := .idle 4 } []).strand 0).wait = .idle 4 ∧
      State.reset.me.dbg.getLsbD 0 = false ∧ (withArch { Arch.reset with dbg := 1 }).me.dbg.getLsbD 0 = true) := by
  refine ⟨(quiet_withArch _).mayEnd _ _, (quiet_withArch _).mayEnd _ _, ?_, quiet_reset.issues _, ⟨_, rfl, rfl, rfl, rfl⟩,
    by decide +kernel⟩
  constructor <;> decide +kernel

/-- The area of a save, in a page. -/
def saves : State := onPage

theorem test_met_CtxLoadRestoresWhatCtxSaveWrote :
    Issues false [.g 4] saves saves.joinChunk ∧ Issues false [] saves saves.joinChunk ∧ (saves.joinChunk.strand 0).busy = false ∧
    (match saves.joinChunk.ctxArea (saves.me.readG 4) true with
      | (v, .ok l) => l.length == 608 && v.takeToken.isSome && (v.sectorsHeld (some 0) (l.take 4)).isNone
      | (_, .error _) => false) = true ∧
    (match saves.joinChunk.ctxArea (saves.me.readG 4) false with
      | (v, .ok l) => ((l.take 4).findSome? (v.padWriter (some 0))).isNone && (match v.takeToken with
          | some w => (w.serveArea 0 (saves.me.readG 4).cursor 9728 (l.take 4)).isNone && !w.me.smode
          | none => false)
      | (_, .error _) => false) = true ∧
    InLayout Arch.reset ∧ InLayout inS := by
  refine ⟨quiet_onPage.issues _, quiet_onPage.issues _, by decide +kernel, by decide +kernel, by decide +kernel, ?_, ?_⟩ <;>
    constructor <;> decide

/-- A core of gang 1 with a message. -/
def ofGang (k : MsgKind) : State :=
  { (State.reset.setCore 0 { Core.reset with gang := some 1 }) with msgs := [{ id := 0, src := 0, eng := none, kind := k }] }

theorem test_met_GangsAndStoreFaultQueues :
    Issues false [.g 3] State.reset State.reset.joinChunk ∧ Issues true [.g 3, .g 4] (withArch inS) (withArch inS).joinChunk ∧
    Issues false [.g 3] (st { Strand.reset with wait := .quit [0] } []) (st { Strand.reset with wait := .quit [0] } []).joinChunk ∧
    ((State.reset.joinChunk.strand 0).wait = .none ∧ (st { Strand.reset with wait := .quit [0] } []).joinChunk.msg 0 = none ∧
      (ofGang (.quit 0 1 0)).msg 0 ≠ none ∧ (ofGang (.quit 0 1 0)).gangAway 1 0 = false ∧
      ((ofGang (.quit 0 1 0)).core 0).gang = some 1 ∧ ((ofGang (.quit 0 1 0)).quire 0).dir = [] ∧
      (ofGang (.quit 0 1 0)).deque 0 = [] ∧ (ofGang (.quit 0 1 0)).stillOpen (.msg 0) = true ∧
      (ofGang (.quit 0 1 0)).stillOpen (.chunk 0 0) = false) :=
  ⟨quiet_reset.issues _, (quiet_withArch _).issuesS _ rfl, Quiet.issues ⟨rfl, rfl, rfl, rfl, rfl⟩ _, by decide +kernel⟩

/-- A store of the strand to another die that has not been performed. -/
def storing : State :=
  { State.reset with
    remotes := [
      { id := 0, cid := 0, sid := 0, gang := 0, group := 0, live := true, kind := .store 0x1000 0 0 false, performed := false, failed := none }] }

theorem quiet_storing : Quiet storing := ⟨rfl, rfl, rfl, rfl, rfl⟩

theorem test_met_ChunkEndsFencesAndLines :
    MayEnd false false [] State.reset (endOf State.reset) ∧ MayEnd false false [] storing (endOf storing) ∧
    Issues false [.g 4] onPage onPage.joinChunk ∧
    ((endOf State.reset).remotes = [] ∧ (endOf State.reset).msgs = [] ∧ (endOf State.reset).storesOut 0 3 = false ∧
      (endOf State.reset).enginesOut 0 3 = false ∧ (endOf storing).storesOut 0 3 = true ∧ (endOf storing).remotes = storing.remotes ∧
      onPage.joinChunk.lineCheck (onPage.me.readG 4) 0x10000 = none ∧ onPage.joinChunk.place 0 0x10000 = .mapped 0x10000 ∧
      (onPage.joinChunk.strand 0).held = [] ∧ onPage.joinChunk.lineCheck .null 0 = some (.trap .captag 0)) :=
  ⟨quiet_reset.mayEnd _ _, quiet_storing.mayEnd _ _, quiet_onPage.issues _, by decide +kernel⟩

/-- An instruction that has looked up nothing. -/
def noLooks : Looked := { plb := [], plbNone := [], pages := [], pageNone := [] }

/-- Strand 0 waits, beside the tables of `onPage`. -/
def waits (w : Wait) : State := onPage.setStrand 0 { Strand.reset with wait := w }

/-- A held store of the first doubleword of the page, without a translation. -/
def heldStore : Piece := { addr := 0x10000, xl := .pending, data := 0, bits := 0xFF, tag := false }

/-- A load of one byte of a sibling's scratchpad. -/
def sibling : LoadReq :=
  { form := .scalar 3 1 true, elems := [], need := [{ port := .sibling, locs := [padLoc 1 0], stamped := false, arrived := none }], got := [], own := [],
    tag := false, ownTag := none }

theorem test_met_FillsArriveAndChunksEnd :
    (∀ e, (waits (.fetch 0x10000)).entryAt 0 0x10000 = some e →
      (waits (.fetch 0x10000)).under e 0x10000 = .ok 0x20000 e ∧ e.st = false ∧ (waits (.fetch 0x10000)).reachable 0 0x20000 = true) ∧
    ((waits (.fetch 0x10000)).entryAt 0 0x10000).isSome = true ∧
    ((waits (.plb 0 noLooks)).plbLookup 0 0 0 = none ∧ (waits (.xlate 0 noLooks)).lookup 0 0 = none ∧
      ((st { Strand.reset with chunks := [{ chunk0 with held := [heldStore] }] } []).strand 0).wait = .none ∧
      (State.reset.setCore 0 { Core.reset with fills := [{ line := 0, frame := 0, w := true, valid := 1, dirty := 0 }] }).core 0 =
        { Core.reset with fills := [{ line := 0, frame := 0, w := true, valid := 1, dirty := 0 }] } ∧
      sibling.need[0]? = some { port := .sibling, locs := [padLoc 1 0], stamped := false, arrived := none } ∧
      State.reset.padWriter (some 0) (padLoc 1 0) = none ∧
      Core.reset.chunklim.toNat ≤ ({ chunk0 with count := 64 } : Chunk).count ∧ chunk0.count < Core.reset.chunklim.toNat ∧
      (st { Strand.reset with chunks := [chunk0, { chunk0 with id := 2 }] } []).canCommit 0 chunk0 = true ∧
      ((st { Strand.reset with chunks := [chunk0, { chunk0 with id := 2 }] } []).commitOldest 0).2 = none ∧
      ({ chunk0 with mism := 1 } : Chunk).mism < 2 ∧ 2 ≤ ({ chunk0 with mism := 2 } : Chunk).mism ∧
      1 ≤ (st Strand.reset [0, 1, 0]).argN 1 ∧ (st Strand.reset [0, 7, 0]).argN 1 ≤ 7) := by
  refine ⟨?_, by decide +kernel, by decide +kernel⟩
  intro e h
  cases h
  decide +kernel

/-- A strand whose stub waits for the answer to a page fault at 0x10000, and the operands of the answer. -/
def faulting (n : List Nat) : State :=
  st { Strand.reset with
    firing := some 0, wait := .answer
    arch := { inS with sset := { TrapSet.reset with cause := 0x0B, val := 0x10000 } } } n

/-- The answer resumes at once, after an entry of the frame at 0x20000 has been installed, or refuses. -/
theorem test_met_PageFaultsAreAnswered :
    (((faulting [0, 1]).strand 0).firing ≠ none ∧ ((faulting [0, 1]).arch 0).smode = true ∧
      ((faulting [0, 1]).arch 0).sset.cause = 0x0B ∧ (faulting [0, 1]).bindery.mapWaits = [] ∧
      ((faulting [0, 2, 0x20000, 2]).installPage 0).isSome = true ∧ (faulting [0, 0]).argN 1 = 0) := by
  decide +kernel
/-! ## 09, 16 and 10 -/

/-- A computation gives some value that passes a test. -/
def givesSome {ε α : Type} (e : Except ε α) (f : α → Bool) : Bool :=
  match e with
  | .ok y => f y
  | .error _ => false

theorem ok_of_givesSome {ε α : Type} {e : Except ε α} {f : α → Bool} (h : givesSome e f = true) : ∃ x, e = .ok x ∧ f x = true := by
  cases e with
  | ok y => exact ⟨y, rfl, h⟩
  | error _ => cases h

/-- The state in which an atomic on the page acts, at its first byte and on the next die's first byte. -/
def atomics (cur : Word) : State :=
  endOf (onPage.setStrand 0 { Strand.reset with arch := with45 (capOf 0xFF9 0 0 0x10000 0x20000 cur) .null })

theorem test_met_AtomicsAreSentAndPerformed :
    atomicOf (.amoAdd 3 4 5 true) = some ⟨0, true, 3, 4, 5, false⟩ ∧ atomicOf (.ramoAdd 3 4 5 true) = some ⟨0, true, 3, 4, 5, true⟩ ∧
    MayEnd false false [.g 4, .g 5, .g 3] onPage (endOf onPage) ∧
    checkCap false (endOf onPage).me.pcc 0 8 [permLD, permST] 8 = some .captag ∧
    (∀ cur : Word, cur = 0x10000 ∨ cur = 0x11000 →
      checkCap false ((atomics cur).me.readG 4) ((atomics cur).me.readG 4).cursor 8 [permLD, permST] 8 = none ∧
      ((atomics cur).me.readG 4).perm permTRY = false ∧
      givesSome ((atomics cur).atomTarget [.r, .w] cur.toNat 8 false) (fun l => locOnDie 0 l == (cur == 0x10000)) = true ∧
      givesSome ((atomics cur).atomTarget [.r, .w, .e] cur.toNat 8 false) (fun _ => true) = true ∧
      ((atomics cur).remotes.filter (·.cid == 0)).length < 32) ∧
    ((endOf onPage).me.readG 4).perm permTRY = true ∧
    AtomicFree State.reset 0 0x20000 8 ∧ AtomicFree State.reset 0 (padLoc 0 (6 * 65536 - 8)) 8 := by
  refine ⟨rfl, rfl, quiet_onPage.mayEnd _ _, by decide +kernel, ?_, by decide +kernel, ?_, ?_⟩
  · rintro cur (rfl | rfl) <;> decide +kernel
  all_goals
    constructor
    · decide +kernel
    · decide +kernel
    · decide +kernel
    · decide +kernel
    · decide +kernel
    · intro c hc
      cases hc
    · intro d
      rfl

/-- A top-k record of two entries in order, with room for one and without. -/
theorem test_met_TopKKeepsTheBest :
    Ranked ([0x4000000000000001, 0x3F80000000000002] : List (BitVec 64)) ∧
    ((0x203 : Word).toNat % 16 = 3 ∧ (0x203 : Word).toNat / 256 % 256 = 2 ∧ (0x202 : Word).toNat % 16 = 2 ∧
      isNaN32 ((0x4080000000000003 : BitVec 64).extractLsb' 32 32) = false) := by
  refine ⟨⟨.cons ?_ (.cons (by simp) .nil), ?_⟩, by decide +kernel⟩
  · simp only [List.mem_singleton]
    rintro q rfl
    decide +kernel
  · simp only [List.mem_cons, List.not_mem_nil, or_false]
    rintro p (rfl | rfl) <;> decide +kernel

/-- A strand with 64 bytes of the page in g4 and the scratchpad in g5, a length in g6. -/
def moves (n : Word) (s : Bool) : State :=
  let a := regs [(4, capOf 0xFF9 0 0 0x10000 0x20000 0x10000), (5, capOf 0xFF9 0 0 0 0x1000 0x7F0000000000), (6, .data n)]
  onPage.setStrand 0 { Strand.reset with arch := { a with smode := s } }

/-- A remote access of strand 0, and the state that holds it. -/
def accessOf (k : RKind) (performed : Bool) (failed : Option (Nat × Word)) : Remote :=
  { id := 0, cid := 0, sid := 0, gang := 0, group := 0, live := true, kind := k, performed := performed, failed := failed }
@[inherit_doc accessOf]
def access (k : RKind) (performed : Bool) (failed : Option (Nat × Word)) : State :=
  { State.reset with remotes := [accessOf k performed failed] }

/-- A part of a move at the start of a page of die 0. -/
def somePart (w : Bool) : Part := { write := w, off := 0, len := 8, loc := 0x20000, stamped := false, arrived := none }

theorem quiet_moves (n : Word) (s : Bool) : Quiet (moves n s) where
  park := rfl
  out := rfl
  chunks := rfl
  quit := quiet_onPage.quit
  cause := by cases s <;> rfl

theorem test_met_MovesAreEnteredAndCarriedOut :
    (∀ n s, MayEnd false false [.g 4, .g 5, .g 6] (moves n s) (endOf (moves n s))) ∧
    MayEnd true false [.g 6, .g 6, .g 4] (moves 0 true) (endOf (moves 0 true)) ∧
    (∀ n : Fin 2, ((endOf (moves (BitVec.ofNat 64 (4097 * n.val)) false)).me.word 6).toNat = 4097 * n.val) ∧
    (∀ n : Word, n = 1 ∨ n = 256 → ((endOf (moves n false)).moveStop ((endOf (moves n false)).me.readG 4)
        ((endOf (moves n false)).me.readG 5) n.toNat false).2 = none ∧
      ((endOf (moves n false)).remotes.filter (·.cid == 0)).length < 32) ∧
    (∀ k p f, (access k p f).remote 0 = some (accessOf k p f)) ∧
    (checkCap false ((endOf (moves 8 false)).me.readG 6) 8 8 [permST, permENG] 0 = some .captag ∧
      checkCap true ((endOf (moves 0 true)).me.readG 4) 0x10000 8 [permST] 8 = none ∧
      ((endOf (moves 0 true)).sidePlb 0x10000 8 .w).2 = true ∧
      State.reset.reachable 0 0x20000 = true ∧ homeDie 0x20000 = some 0 ∧ State.reset.sectorsHeld none [0x20000, 0x2000F] = none ∧
      (partBytes ((List.range 8).map fun j => (j, 0)) (somePart true)).isSome = true ∧ State.reset.padWriter none 0x20000 = none ∧
      (access (.store 0x20000 0 0 false) false none).entered (accessOf (.store 0x20000 0 0 false) false none) = true ∧
      (access (.store 0x20000 0 0 false) false none).heldBack (accessOf (.store 0x20000 0 0 false) false none) [0x400] = false ∧
      State.reset.gangAway 0 0 = false ∧ isForeign (State.reset.real (2 ^ 51 + 2 ^ 45)) = true) := by
  refine ⟨fun n s => (quiet_moves n s).mayEnd _ _, (quiet_moves _ _).mayEndS _ _ rfl, by decide +kernel, ?_, fun _ _ _ => rfl,
    by decide +kernel⟩
  rintro n (rfl | rfl) <;> decide +kernel

/-- A migration of page 0x10000 to frame 0x30000, at one of its steps, and its request. -/
def migrating (step : Nat) (op : List OpenRef) : State :=
  { access (.mig 0x10000 0x30000 0) false none with
    migrations := [{ rid := 0, reb := 0, va := 0x10000, frame := 0x30000, old := 0x20000, status := 0, step := step, open_ := op }] }

theorem test_met_MigrationsAndLosses :
    (∀ step, (migrating step []).migrations.find? (·.rid == 0) = (migrating step []).migrations[0]?) ∧
    (((migrating 0 []).remote 0).isSome = true ∧ ((migrating 0 []).die 0).fenced = false ∧
      ((migrating 0 []).migrations.find? fun x => x.reb == 0 && x.step == 0).map (·.rid) = some 0 ∧
      (migrating 0 []).lookup 0 0x10000 = none ∧ (migrating 0 []).tableFind 0 0 0 = none ∧
      (migrating 0 []).localPhys (0x30000 + 65535) = .here (0x30000 + 65535) ∧
      (∀ r, (migrating 1 []).remote 0 = some r → (migrating 1 []).pageLost r 0x20000 = false ∧
        (migrating 1 []).sectorsHeld none [0x30000] = none) ∧
      (migrating 2 []).stillOpen (.chunk 0 1) = false ∧ (st { Strand.reset with chunks := [chunk0] } []).stillOpen (.chunk 0 1) = true ∧
      (st Strand.reset [8]).argN 0 = 8 ∧ ((st Strand.reset [8]).die 8).fenced = false ∧ ((st Strand.reset [9]).die 9).fenced = false) := by
  refine ⟨fun _ => rfl, ?_⟩
  and_intros
  case refine_2.refine_2.refine_2.refine_2.refine_2.refine_2.refine_1 =>
    rintro r h
    cases h
    decide +kernel
  all_goals decide +kernel

/-- A die whose context 0 is a counter of width 2, or a barrier of one arrival, with an item. -/
def stitched (mode : Nat) (items : List Item) (a : Arch) : State :=
  (withArch a).setDie 0 { Die.reset with items := items, ctxs := [(0, { Ctx.off with mode := mode, lw := 1, domain := 0, target := 1 })] }

/-- An item of context 0. -/
def someItem (k : Token) (layer : Nat) : Item :=
  { id := 0, ctx := 0, kind := k, pos := 0, layer := layer, arrived := 0, sid := 0, out := 0, payload := 0, ref := 0 }

theorem quiet_stitched (m : Nat) (l : List Item) (a : Arch) : Quiet (stitched m l a) := ⟨rfl, rfl, rfl, rfl, rfl⟩

theorem test_met_StitchInstructionsAndNetwork :
    (∀ m l a, MayEnd false false [.g 4, .g 3] (stitched m l a) (endOf (stitched m l a))) ∧
    (∀ m l, MayEnd true false [.g 4, .g 3] (stitched m l inS) (endOf (stitched m l inS))) ∧
    (∀ m : Fin 4, (((endOf (stitched m.val [] Arch.reset)).die 0).ctx 0).mode = m.val) ∧
    stitchOf (.bnCnt 3 4) = some ⟨4, 1, .token, none, some 3⟩ ∧
    (((endOf State.reset).die 0).ctx 0 = Ctx.off ∧
      ((endOf (stitched 2 [] Arch.reset)).strand 0).domain.toNat = 0 ∧ (endOf (stitched 2 [] Arch.reset)).quiet 0 0 = true ∧
      ((endOf (stitched 2 [someItem .arrive 16] Arch.reset)).die 0).items = [someItem .arrive 16] ∧
      ((stitched 1 [someItem .token 0] Arch.reset).die 0).items = [someItem .token 0] ∧
      nextItem (mapGet 63 0 ((stitched 1 [someItem .token 0] Arch.reset).die 0).served) [someItem .token 0] = some (someItem .token 0) ∧
      nextItem (mapGet 63 240 ((stitched 1 [someItem .anti 15] Arch.reset).die 0).served) [someItem .anti 15] =
        some (someItem .anti 15) ∧
      nextItem 63 [someItem .arrive 16] = some (someItem .arrive 16) ∧ balancerAt 0 0 = (0, 1) ∧
      ((st { Strand.reset with wait := .passed } []).strand 0).wait = .passed ∧
      ((st { Strand.reset with wait := .phase 0 0 } []).strand 0).wait = .phase 0 0 ∧ phaseOver 1 0 = true ∧
      (ofGang (.release 0 0 1 [0])).msg 0 ≠ none) := by
  refine ⟨fun m l a => (quiet_stitched m l a).mayEnd _ _, fun m l => (quiet_stitched m l _).mayEndS _ _ rfl, by decide +kernel, rfl,
    by decide +kernel⟩

/-- The record of a counter of width 2 for domain 1, read from the scratchpad in S mode. -/
theorem test_met_StitchConfiguration :
    let s := stitched 0 [] { with45 .null (capOf 0xFF9 0 0 0 0x1000 0x7F0000000000) with smode := true }
    checkCap true (s.me.readG 5) (s.me.readG 5).cursor 256 [permLD] 0 = none ∧ (s.me.readG 5).cursor % 64 = 0 ∧
    givesSome ((endOf s).areaLocs 0 false (s.me.readG 5).cursor 16) (fun l => l.length == 16 &&
      ((endOf s).serveArea 0 (s.me.readG 5).cursor 256 l).isNone) = true ∧ (endOf s).shadowArea 0 (s.me.readG 5).cursor 256 = false ∧
    ctxRecordBad 0 ([1, 1, 1] ++ List.replicate 253 0) = none ∧ ctxRecordBad 0 (4 :: List.replicate 255 0) = some 0 := by
  decide +kernel
/-! ## 12, 13 and 14 -/

/-- Where no strand has a chunk, no byte is written by one. -/
theorem unwritten {s : State} (h : ∀ k, (s.strand k).chunks = []) (self : Option Nat) (loc : Nat) : s.padWriter self loc = none := by
  unfold State.padWriter
  split
  · rfl
  · exact List.find?_eq_none.mpr fun k _ => by simp [h]

theorem chunks_withArch (a : Arch) (k : Nat) : ((withArch a).strand k).chunks = [] := by
  by_cases h : k = 0
  · subst h
    rfl
  · rw [withArch, State.strand_setStrand_ne _ h]
    rfl

/-- Core 0 with `n` entries in its dispatch queue. -/
def dispatching (n : Nat) : State := State.reset.setCore 0 { Core.reset with vq := List.replicate n (0, 0) }

theorem quiet_dispatching (n : Nat) : Quiet (dispatching n) := ⟨rfl, rfl, rfl, quit_setCore rfl rfl, rfl⟩

theorem test_met_VectorIntegersActLaneByLane :
    (integerVector .reset (.vaddI 1 2 3 0 false false)).isSome = true ∧
    (∀ n, Issues false [.v 2, .v 3, .v 1] (dispatching n) (dispatching n).joinChunk) ∧
    (((dispatching 3).core 0).vq.length = 3 ∧ ((dispatching 4).core 0).vq.length = 4 ∧ ((dispatching 3).core 0).paired = false ∧
      ((State.reset.setCore 0 { Core.reset with paired := true }).core 0).paired = true ∧
      ((State.reset.setCore 1 { Core.reset with vq := List.replicate 4 (0, 0) }).core 1).vq.length = 4) :=
  ⟨rfl, fun n => (quiet_dispatching n).issues _, by decide +kernel⟩

theorem test_met_VectorFloatsActLaneByLane :
    (floatVector .reset (.vfma 1 2 3 0 false false)).isSome = true ∧
    (∀ n, Issues false [.v 2, .v 3, .v 1] (dispatching n) (dispatching n).joinChunk) ∧
    (((dispatching 1).core 0).vq = (0, 0) :: [] ∧ ((dispatching 1).quire 0).lastVec = 3 ∧ (0 : Nat) = (3 + 1) % 4) :=
  ⟨rfl, fun n => (quiet_dispatching n).issues _, by decide +kernel⟩

/-- Core 0 with entries in its matrix queue and a claim; strand 0 has the scratchpad in g4 and the extents 1 x 1, one block of one
element, in g6. -/
def pressing (l : List MEntry) (claim : Option Nat) : State :=
  (withArch (regs [(4, capOf 0xFF9 0 0 0 0x1000 0x7F0000000000), (6, .data (1 + 2 ^ 7 + 2 ^ 14 + 2 ^ 19))])).setCore 0
    { Core.reset with mq := l, claim := claim }

/-- An entry of the queue. -/
def someEntry (fn : Nat) (locs : List Nat) : MEntry :=
  { id := 0, fn := fn, acc := 3, ge := 1 + 2 ^ 7 + 2 ^ 14 + 2 ^ 19, a := capOf 0xFF9 0 0 0 0x1000 0x7F0000000000,
    b := capOf 0xFF9 0 0 0 0x1000 0x7F0000000000, next := 0, locs := locs, scales := [], started := true, waiting := false, sid := 0, gang := 0 }

theorem quiet_pressing (l : List MEntry) (c : Option Nat) : Quiet (pressing l c) :=
  ⟨rfl, rfl, rfl, quit_setCore rfl rfl, rfl⟩

theorem test_met_MatrixCommandsEnterTheQueue :
    (queuedEntry (endOf (pressing [] none)) (.mmaI8 3 4 4 6)).isSome = true ∧
    (∀ l c, MayEnd false false [.g 4, .g 4, .g 6] (pressing l c) (endOf (pressing l c))) ∧
    Claimed (endOf (pressing [] (some 0))) (endOf (pressing [] (some 0))) ∧
    (((pressing [someEntry 5 [], someEntry 5 []] none).core 0).mq.length = 2 ∧ ((pressing [someEntry 5 []] none).core 0).mq.length = 1 ∧
      ((endOf (pressing [] (some 1))).core 0).claim = some 1 ∧ (endOf (pressing [] none)).me.smode = false ∧
      ((endOf (pressing [] none)).core 0).claim = none ∧
      (endOf (pressing [] (some 0))).mmaCheck 2 ((endOf (pressing [] (some 0))).me.word 6) ((endOf (pressing [] (some 0))).me.readG 4)
        ((endOf (pressing [] (some 0))).me.readG 4) = none ∧
      (endOf (pressing [] (some 0))).mmaCheck 2 0 .null .null = some (.trap .ill 0) ∧
      givesSome ((endOf (pressing [] (some 0))).imageCheck true ((endOf (pressing [] (some 0))).me.word 6)
        ((endOf (pressing [] (some 0))).me.readG 4)).2 (fun l => l.length == 2) = true) := by
  refine ⟨rfl, fun l c => (quiet_pressing l c).mayEnd _ _, ?_, by decide +kernel⟩
  unfold Claimed
  decide +kernel

theorem test_met_MatrixBlocksAndTransfersRun :
    (∀ fn l, OnlyEntry (pressing [someEntry fn l] (some 0)) 0 (someEntry fn l)) ∧ (∀ b, (pressing [] none).padWriter none b = none) ∧
    ((endOf (pressing [] (some 0))).me.smode = false ∧ ((endOf (pressing [] (some 0))).core 0).mq = [] ∧
      ((endOf (pressing [someEntry 5 []] (some 0))).core 0).mq ≠ [] ∧
      givesSome ((endOf (pressing [someEntry 5 []] (some 0))).recordArea ((pressing [] none).me.readG 4) 256 256 [permST, permSTC]
        true false).2 (fun l => l.length == 16 && ((endOf (pressing [someEntry 5 []] (some 0))).sectorsHeld (some 0) l).isNone) = true ∧
      givesSome ((endOf (pressing [] (some 0))).recordArea ((pressing [] none).me.readG 4) 256 256 [permLD, permLDC] false false).2
        (fun l => l.length == 16) = true ∧
      givesSome ((endOf (pressing [] (some 0))).readEntry ((pressing [] none).me.readG 4) (fun _ => .null) 0).2 (fun _ => true) = true ∧
      ([someEntry 5 [], someEntry 2 []] : List MEntry)[1]? = some (someEntry 2 []) ∧
      (someEntry 6 [padLoc 0 0]).locs[0]? = some (padLoc 0 0) ∧ State.reset.reachable 0 (padLoc 0 0) = true ∧
      (pressing [someEntry 6 [padLoc 0 0]] (some 0)).transferHeld (someEntry 6 [padLoc 0 0]) (padLoc 0 0) = false ∧
      State.reset.sectorsHeld none [padLoc 0 0] = none) := by
  refine ⟨fun fn l => ⟨rfl, ?_, .inl ⟨rfl, rfl⟩⟩, unwritten (chunks_withArch _) none, by decide +kernel⟩
  intro k hk h0
  have h : k ∈ ([0, 1, 2, 3] : List Nat) := hk
  simp only [List.mem_cons, List.not_mem_nil, or_false] at h
  rcases h with rfl | rfl | rfl | rfl
  · exact absurd rfl h0
  all_goals rfl

/-- Core 0 of gang 1, with `n` entries in its deque, all of record 0 of its scratchpad, whose gang is 1. -/
def working (n : Nat) (k : MsgKind) : State :=
  { (State.reset.setCore 0 { Core.reset with gang := some 1, dqstate := BitVec.ofNat 64 n }).store (padLoc 0 32) [1] with
    msgs := [{ id := 0, src := 0, eng := none, kind := k }] }

theorem test_met_CodeletMembersSendMessages :
    MayEnd false false [] State.reset (endOf State.reset) ∧
    (∀ m, recordMessage (endOf onPad) 0 (.cdec 4 5) = some (4, 5, m) ↔ .cdec 0 0 0 0 = m) ∧
    MayEnd false false [.g 4, .g 5] onPad (endOf onPad) ∧
    (((endOf State.reset).strand 0).busy = false ∧ ((endOf State.reset).strand 0).mchk = none ∧
      givesSome ((endOf onPad).recordOf Reg.null) (fun _ => true) = false ∧
      givesSome ((endOf ((onPad.setCore 0 { Core.reset with gang := some 0 }))).recordOf padCap) (fun r => dieOfCore (refCore r) == 0) = true ∧
      (endOf storing).storesOut 0 2 = true ∧ (endOf State.reset).storesOut 0 2 = false ∧
      (endOf State.reset).coordCore 0 0 = none ∧
      ((State.reset.setCore 1 { Core.reset with gang := some 0 }).coordCore 0 0) = some 1) := by
  refine ⟨quiet_reset.mayEnd _ _, fun m => ⟨fun h => ?_, fun h => ?_⟩, quiet_onPad.mayEnd _ _, by decide +kernel⟩
  · cases h
    rfl
  · subst h
    rfl

/-- A die queue of gang 1 with its slots as the first fill leaves them. -/
def queued (k : MsgKind) (head : Option Nat) : State :=
  { ((working 0 k).setCore 0 { Core.reset with gang := some 1, claimDq := head }).setDie 0
      { Die.reset with queues := [{ gang := 1, log := 10, array := 0x40000, tail := 0, head := 0 }] } with cur := 0 }

theorem test_met_RecordsFireAndStrandsFindWork :
    (∀ k, (working 1 k).msg 0 = some { id := 0, src := 0, eng := none, kind := k }) ∧
    (∀ k gang, (working 1 k).gangAway gang 0 = false) ∧ (∀ k, RecordFree (working 1 k) 0 0) ∧
    (SeeksWork (working 1 (.quit 0 0 0)) 0 ∧ SeeksWork (working 0 (.quit 0 0 0)) 0 ∧ Startable (working 1 (.quit 0 0 0)) 0 (0, 0)) ∧
    (addressee .carmApply (.carm 0 1 0 0) = some (1, 0) ∧ (working 1 (.quit 0 0 0)).pushHeld 0 true = false ∧
      (0 : Int) < (BitVec.ofNat 32 (readNat ((working 0 (.quit 0 0 0)).store (padLoc 0 24) [1]).mem (padLoc 0 24) 4)).toInt ∧
      dqCount ((working 255 (.quit 0 0 0)).core 0).dqstate = 255 ∧ dqCount ((working 256 (.quit 0 0 0)).core 0).dqstate = 256 ∧
      (working 1 (.quit 0 0 0)).recQuit 0 0 = false ∧ (working 1 (.quit 0 0 0)).gangLost 0 = false ∧
      (working 1 (.quit 0 0 0)).deque 0 = [] ++ [(0, 0)] ∧
      (((working 1 (.quit 0 0 0)).onCore 0 fun c => { c with dqstate := 0 }).startFiring 0 0 0).isSome = true ∧
      (∀ k, k < 4 → dqCount ((working 0 (.quit 0 0 0)).core k).dqstate = 0) ∧ (working 1 (.quit 0 0 0)).recField 0 32 2 = 1 ∧
      (((working 1 (.steal 4 0 0 1)).stealFrom 0 1).2.all fun e => !(working 1 (.steal 4 0 0 1)).recQuit 1 e.1) = true ∧
      readNat (queued (.quit 0 0 0) none).mem (DieQueue.slot { gang := 1, log := 10, array := 0x40000, tail := 0, head := 0 } 0 + 16) 8 = 0 ∧
      ((queued (.quit 0 0 0) (some 0)).core 0).claimDq = some 0 ∧ ((queued (.quit 0 0 0) (some 0)).dieQueue 0).isSome = true) := by
  refine ⟨fun _ => rfl, fun _ gang => rfl, fun k => ⟨fun _ _ => unwritten (fun _ => rfl) _ _, fun d => rfl⟩,
    ⟨⟨rfl, rfl, rfl, by decide +kernel, ⟨1, rfl, rfl⟩, rfl⟩, ⟨rfl, rfl, rfl, by decide +kernel, ⟨1, rfl, rfl⟩, rfl⟩, ?_⟩, by decide +kernel⟩
  unfold Startable
  decide +kernel
/-! ## 15, 19 and 20 -/

/-- A capability of the scratchpad at an offset. -/
def padAt (perms : BitVec 12) (off : Word) : Reg := capOf perms 0 0 0 0x1000 (0x7F0000000000 + off)

/-- g4 and g5 name places of the scratchpad, g6 a shape of 16 bytes in one row at 0x200, or a number. -/
def copying (x : Reg) : State :=
  (withArch (regs [(4, padAt 0xFF9 0), (5, padAt 0xFF9 0x100), (6, x)])).store (padLoc 0 0x200)
    [0, 1, 0, 0, 16, 0, 0, 0, 0, 0, 0, 0, 0, 0, 16, 0]

theorem quiet_copying (x : Reg) : Quiet (copying x) := ⟨rfl, rfl, rfl, rfl, rfl⟩

/-- The command of a copy of 16 bytes. -/
def copy16 : CopyCmd := { blockShape 16 with dst := padAt 0xFF9 0, src := padAt 0xFF9 0x100 }

theorem test_met_CopiesAreCheckedAndWaitForASlot :
    (∀ x, MayEnd false false [.g 4, .g 5, .g 6] (copying x) (endOf (copying x))) ∧
    givesSome ((endOf (copying (padAt 0xFF9 0x200))).readShape false (padAt 0xFF9 0x200)).2 (fun k => k.counts == [16]) = true ∧
    givesSome ((endOf (copying (padAt 0xFF9 0))).readShape false (padAt 0xFF9 0)).2 (fun _ => true) = false ∧
    givesSome ((endOf (copying (.data 16))).dstCheck copy16).2 (fun d => d.length == 1) = true ∧
    givesSome ((endOf (copying (.data 16))).srcCheck copy16).2 (fun d => d.1.length == 1) = true ∧
    (endOf (copying (.data 16))).targetCheck copy16 = none ∧ (endOf (copying (.data 16))).storesOut 0 2 = false ∧
    ((endOf (copying (.data 0))).me.word 6).toNat = 0 ∧ ((endOf (copying (.data 0x1000000))).me.word 6).toNat = 2 ^ 24 := by
  refine ⟨fun x => (quiet_copying x).mayEnd _ _, ?_⟩
  decide +kernel

/-- The same when the first elements have been read. -/
def readCopy (n : Nat) : CopyCmd := { copy16 with buf := List.replicate n (some [7]) }

/-- A shape at the ends of its ranges, the footprint of a row, and the elements that its first sector takes. -/
theorem test_met_ShapesPassAndElementsArrive :
    givesSome (parseShape false ([4, 1, 1, 3, 0xFF, 0xFF] ++ List.replicate 58 0)) (fun c => c.counts == [65535]) = true ∧
    copy16.span true 0x7F0000000000 = some (0x7F0000000000, 0x7F0000000010) ∧ (copy16.extents true).length = 1 ∧
    (match (copying (.data 16)).readRun [] copy16 with
      | .moved _ x => x.buf.length == 16
      | _ => false) = true ∧
    (match (copying (.data 16)).writeRun [] (readCopy 16) with
      | .moved _ x => x.at_ == 16
      | _ => false) = true ∧
    givesSome ((copying (.data 16)).engineLoc 0 (copy16.dstAt [0]) true) (fun l => l == padLoc 0 0) = true ∧
    givesSome ((copying (.data 16)).engineLoc 0 (copy16.srcAt [15]) false) (fun l => l == padLoc 0 0x100 + 15) = true ∧
    copy16.edge [15] = false ∧ isForeign (padLoc 0 0) = false := by
  decide +kernel

/-- A strand that waits with a command, and a quire that holds one. -/
def slotted (n : List Nat) : State :=
  { ((copying (.data 16)).setStrand 0 { Strand.reset with wait := .copySlot copy16 }).setQuire 0
      { Quire.reset with cmds := [{ copy16 with slot := 1 }] } with arg := { n := n, bytes := [] } }

theorem test_met_CopiesAreAcceptedMovedAndCompleted :
    ((slotted []).strand 0).command = some copy16 ∧
    (∀ j ∈ (coresOf 0).flatMap strandsOf, ∀ c, ((slotted []).strand j).command = some c → copy16.seq ≤ c.seq) ∧
    ((slotted []).quire 0).cmds.length < 16 ∧ (∀ c ∈ ((slotted []).quire 0).cmds, c.slot ≠ 0) ∧
    ((slotted []).quire 0).locks.length + ((slotted []).locksOf copy16).length ≤ 32 ∧
    (((slotted []).quire 0).command 1) = some ([], { copy16 with slot := 1 }) ∧ copy16.at_ < copy16.total ∧
    (match (slotted [0, 1, 1, 0]).readRun [] { copy16 with slot := 1 } with
      | .moved _ _ => true
      | _ => false) = true ∧
    (match (slotted [0, 1, 0, 1]).writeRun [] { readCopy 16 with slot := 1 } with
      | .moved _ _ => true
      | _ => false) = true ∧
    (match (slotted [0, 1]).writeRun [] { readCopy 1 with dst := padAt 0xFF9 0x70000 } with
      | .failed code _ => code == 3
      | _ => false) = true ∧
    (match (slotted [0, 1]).readRun [] { copy16 with src := padAt 0xFF9 0x70000 } with
      | .failed code _ => code == 3
      | _ => false) = true ∧ (slotted [0, 1, 1]).argN 2 = 1 ∧ (indices [16] 0) = [0] ∧ copy16.edge [0] = false ∧
    (slotted []).barrierAt 0 (padAt 0xFF9 0x20) = some (0, 0x20) ∧ (slotted []).place 0 (padAt 0xFF9 0x40).cursor = .pad 0 0 0x40 ∧
    (endOf (copying (.data 16))).commands 0 = 0 ∧ (endOf (copying (.data 2))).me.word 6 = 2 ∧
    (endOf (copying (.data 1))).me.word 6 = 1 ∧ (endOf (copying (.data 0))).me.word 6 = 0 := by
  refine ⟨by decide +kernel, ?_, by decide +kernel⟩
  have h : ∀ j ∈ (coresOf 0).flatMap strandsOf, ((slotted []).strand j).command = none ∨ ((slotted []).strand j).command = some copy16 := by
    decide +kernel
  intro j hj c hc
  rcases h j hj with h | h <;> rw [h] at hc <;> cases hc
  exact Nat.le_refl _

/-- A barrier registered at offset 0x40 of the scratchpad, with its 16 bytes. -/
def barrier (v : Word) (bs : List Byte) : State :=
  ((withArch (regs [(4, padAt 0xFF9 0x40), (5, .data v)])).store (padLoc 0 0x40) bs).setQuire 0
    { Quire.reset with dir := [{ cid := 0, off := 0x40, gang := 0 }] }

theorem quiet_barrier (v : Word) (bs : List Byte) : Quiet (barrier v bs) := ⟨rfl, rfl, rfl, rfl, rfl⟩

theorem at_barrier : AtBarrier (endOf (barrier 1 [])) 4 permST false 0 0x40 ∧ AtBarrier (endOf (barrier 1 [])) 4 permLD false 0 0x40 ∧
    AtBarrier (endOf (barrier 1 [])) 4 permST true 0 0x40 := by
  refine ⟨?_, ?_, ?_⟩ <;> constructor <;> first | decide +kernel | (intro _; decide +kernel) | (intro h; cases h)

/-- A strand that waits for phase 0 of the barrier, and one whose phase is over. -/
def parkedAt (w : Wait) : State := (barrier 1 []).setStrand 0 { (barrier 1 []).strand 0 with wait := w }

theorem test_met_StageBarriersActAndAdvance :
    (∀ v bs, MayEnd false false [.g 4, .g 5] (barrier v bs) (endOf (barrier v bs)) ∧ Unparked (barrier v bs)) ∧
    (barrierMember (.sbInit 4 5) = some (4, permST, true, [.g 4, .g 5]) ∧ barrierMember (.sbExp 4 5) = some (4, permST, false, [.g 4, .g 5])) ∧
    (AtBarrier (endOf (barrier 1 [])) 4 permST false 0 0x40 ∧ AtBarrier (endOf (barrier 1 [])) 4 permST true 0 0x40) ∧
    (checkCap false .null 0 16 [permST] 0 = some .captag ∧ (padAt 0xFF9 0x48).cursor % 16 ≠ 0 ∧
      (endOf (barrier 1 [])).protectedRaw 0 ((endOf (barrier 1 [])).padSize 0 - 4096) = true ∧
      ((endOf (copying .null)).quire 0).names 0 0x40 = false ∧ ((endOf (copying .null)).quire 0).dir.length < 16 ∧
      ((endOf (barrier 0x01000001 [])).me.word 5).toNat / 2 ^ 24 % 256 = 1 ∧
      arrivalBytes (endOf (barrier 0x7FFFFFFF [])).me (.sbExp 4 5) = some (4, 0x7FFFFFFF) ∧
      (endOf (barrier 1 [])).sbBroken (padLoc 0 0x40) = false ∧ (endOf (barrier 1 [])).sbRemaining (padLoc 0 0x40) = 0 ∧
      (endOf (barrier 1 [0, 0, 2])).sbRemaining (padLoc 0 0x40) = 2 ∧
      (endOf (barrier 1 (List.replicate 10 0 ++ [1]))).sbBroken (padLoc 0 0x40) = true ∧
      ((endOf (barrier 1 [])).me.word 5).getLsbD 0 = true ∧ ((endOf (barrier 2 [])).me.word 5).getLsbD 0 = false ∧
      2 ^ 31 ≤ ((endOf (barrier 0x80000000 [])).me.word 5).toNat ∧ (endOf (barrier 1 [])).cur = 0 ∧
      (ofGang (.bytes 1 0 0x40 8)).gangAway 1 0 = false ∧ (ofGang (.bytes 1 0 0x40 8)).sectorsHeld none [padLoc 0 0x40] = none) := by
  refine ⟨fun v bs => ⟨(quiet_barrier v bs).mayEnd _ _, (fun h => by cases h), fun _ _ _ h => by cases h⟩, ⟨rfl, rfl⟩,
    ⟨at_barrier.1, at_barrier.2.2⟩, by decide +kernel⟩

/-- The phase of a new barrier is 0: a test or wait on 0 waits, one on 0xFFFF passes, one on 0x8000 waits. -/
theorem test_met_WaitsAndTestsPassOnLaterPhases :
    (MayEnd false false [.g 4, .g 5] (barrier 1 []) (endOf (barrier 1 [])) ∧
      MayEnd false false [.g 4, .g 5, .g 3] (barrier 1 []) (endOf (barrier 1 [])) ∧
      MayEnd false false [.g 4, .g 5] (parkedAt .passed) (endOf (parkedAt .passed))) ∧
    AtBarrier (endOf (barrier 1 [])) 4 permLD false 0 0x40 ∧
    ((endOf (barrier 1 [])).sbPhase (padLoc 0 0x40) = 0 ∧
      phasePassed 0 0 = false ∧ phasePassed 0 0xFFFF = true ∧ phasePassed 0 0x8001 = true ∧ phasePassed 0 0x8000 = false ∧
      (endOf (barrier 1 [])).sbBroken (padLoc 0 0x40) = false ∧ ((parkedAt (.stage 0 1 2)).strand 0).wait = .stage 0 1 2 ∧
      (endOf (barrier 1 (List.replicate 10 0 ++ [1]))).sbBroken (padLoc 0 0x40) = true) :=
  ⟨⟨(quiet_barrier _ _).mayEnd _ _, (quiet_barrier _ _).mayEnd _ _, Quiet.mayEnd ⟨rfl, rfl, rfl, rfl, rfl⟩ _ _⟩, at_barrier.2.1,
    by decide +kernel⟩

/-- A die whose clock is [100, 140], a stamped page at 0x10000 in g4, a stamp in g5. -/
def stamping (stamp width : Word) : State :=
  ((withArch { (regs [(4, capOf 0xFF9 0 0 0x10000 0x20000 0x10000), (5, .data stamp)]) with twmax := width }).setCore 0
    { Core.reset with
      plb := [{ base := 0, size := 20, domain := 0, r := true, w := true, x := true, e := true }]
      pages := [{ page := 0x10000, big := false, frame := 0x20000, w := true, st := true }] }).setDie 0
    { Die.reset with earliest := 100, latest := 140 }

theorem quiet_stamping (t w : Word) : Quiet (stamping t w) := ⟨rfl, rfl, rfl, quit_setCore rfl rfl, rfl⟩

theorem stamp_joins : StampJoins (stamping 0 0).joinChunk 0x20000 ∧ StampJoins (endOf (stamping 0 0)) 0x20000 := by
  refine ⟨?_, ?_⟩ <;> constructor <;> decide +kernel

theorem test_met_ClockReadsAndStampedStores :
    (Issues false [.g 3, .g 5] (stamping 0 0) (stamping 0 0).joinChunk ∧
      (∀ t w, MayEnd false false [.g 3, .g 4, .g 5] (stamping t w) (endOf (stamping t w)))) ∧
    (StampJoins (stamping 0 0).joinChunk 0x20000 ∧ StampJoins (endOf (stamping 0 0)) 0x20000) ∧
    (((endOf (stamping 99 0)).me.word 5).toNat < ((endOf (stamping 99 0)).die 0).earliest ∧
      ((endOf (stamping 100 0)).die 0).earliest ≤ ((endOf (stamping 100 0)).me.word 5).toNat ∧
      ((st { Strand.reset with wait := .clock 5 } []).strand 0).wait = .clock 5 ∧
      givesSome ((stamping 0 0).joinChunk.stampTarget ((stamping 0 0).me.readG 4) false false) (fun l => l == 0x20000) = true ∧
      givesSome ((endOf (stamping 140 40)).stampTarget ((endOf (stamping 140 40)).me.readG 4) true true) (fun l => l == 0x20000) = true ∧
      givesSome ((endOf (stamping 140 40)).stampTarget .null true true) (fun _ => true) = false ∧
      (endOf (stamping 140 0)).me.twmax.toNat % 65536 = 0 ∧
      (endOf (stamping 140 39)).me.twmax.toNat % 65536 < 140 - 100 ∧ 140 - 100 ≤ (endOf (stamping 140 40)).me.twmax.toNat % 65536 ∧
      ((endOf (stamping 139 40)).me.word 5).toNat = 139 ∧ ((endOf (stamping 0x10000008B 40)).me.word 5).toNat = 140 + 2 ^ 32 - 1 ∧
      (endOf (stamping 140 40)).sliceHeld 0x20000 < 32) :=
  ⟨⟨(quiet_stamping _ _).issues _, fun t w => (quiet_stamping t w).mayEnd _ _⟩, stamp_joins, by decide +kernel⟩

/-- A die with the clock [100, 140] that holds a version at its home, and a message. -/
def versions (l : List Version) (k : MsgKind) (n : List Nat) : State :=
  { (ofGang k).setDie 0 { Die.reset with earliest := 100, latest := 140, horizon := 90, versions := l } with
    arg := { n := n, bytes := [] }, collected := some 90 }

/-- A strand with a read of a stamped line, before and after it has taken L. -/
def reading (asof : Option Word) (arrived : Option Nat) : State :=
  st { Strand.reset with
    out := [{ id := 0, chunk := 0, smode := false, dead := false, dsts := [.g 3]
              src := .stamped { line := 0x20000, off := 0, asof := asof, r := 3, arrived := arrived } }] } []

/-- A version of the word at 0x20000, released. -/
def someVersion : Version := { versionOf 0x20000 7 80 0 0 0 0 with released := true }

theorem test_met_VersionsReachLinesThatAreRead :
    (∀ k, (versions [] k []).msg 0 = some { id := 0, src := 0, eng := none, kind := k }) ∧
    (stampHome 0x20000 = 0 ∧ (versions [] (.quit 0 0 0) []).sliceHeld 0x20000 < 32 ∧
      ((versions [] (.quit 0 0 0) []).die 0).fenced = false ∧ smallestKey [someVersion] = [someVersion] ∧
      (∀ v ∈ [someVersion], v.released = true ∧ v.stamp < ((versions [] (.quit 0 0 0) []).die 0).horizon) ∧
      (versions [] (.quit 0 0 0) []).placeBlocked 0 [0x400, 0x500] none = false ∧ (versions [] (.quit 0 0 0) []).packageMin ≠ none ∧
      (versions [] (.quit 0 0 0) []).collected = some 90 ∧ (versions [] (.quit 0 0 0) []).bindery.peers = [] ∧
      ((reading none none).strand 0).outOf 0 ≠ none ∧ (reading none none).reachable 0 0x20000 = true ∧ homeDie 0x20000 = some 0 ∧
      ((reading (some 5) (some 3)).wordAt (0x20000 + 112)).toNat ≤ (5 : Word).toNat) :=
  ⟨fun k => rfl, by decide +kernel⟩

theorem test_met_ClocksHoldTheReferenceTime : HoldsTime 120 { Die.reset with earliest := 100, latest := 140, hold := 20 } ∧
    ∀ k, HoldsTime State.reset.now (State.reset.die k) :=
  ⟨⟨by decide, by decide⟩, fun _ => ⟨Nat.le_refl _, Nat.le_refl _⟩⟩

theorem test_met_ClocksStayWithinTheirBound : Die.reset.lost = false ∧ Die.reset.latest - Die.reset.earliest ≤ State.reset.widthBound ∧
    ((State.reset.die 0).latest - (State.reset.die 0).earliest ≤ State.reset.widthBound) := by
  decide

/-- A table of alternatives in the scratchpad (all of them its first word) in g4, a count in g5, a search area in g6, room for choice
points at 0x4000. -/
def trying (n : Nat) (slots depth : Nat) : Arch :=
  { (regs [(4, padAt 0xA00 0), (5, .data (BitVec.ofNat 64 n)), (6, capOf 0xC04 0 0 0x800 0x840 0x7F0000000800)]) with
    cpstk := BitVec.ofNat 64 (slots * 1024 + 32), cpdepth := BitVec.ofNat 64 depth }

/-- A choice point with two of three alternatives left. -/
def somePoint : ChoicePoint :=
  { table := padAt 0xA00 0, next := 1, count := 3, mark := 0, area := capOf 0xC04 0 0 0x800 0x840 0x7F0000000800, regs := List.replicate 29 .null }

/-- A strand with that choice point. -/
def backtracking : State := (withArch (trying 3 2 1)).placeSectors none (somePoint.at (padLoc 0 0x4000))

theorem try_checks (n : Fin 3) (slots : Fin 2) (h : 1 ≤ n.val) : TryChecks (endOf (withArch (trying n.val slots.val 0))) 4 5 6 := by
  have key : ∀ n : Fin 3, ∀ slots : Fin 2, 1 ≤ n.val → let u := endOf (withArch (trying n.val slots.val 0))
      (u.strand u.cur).busy = false ∧ (1 ≤ (u.me.word 5).toNat ∧ (u.me.word 5).toNat ≤ 65535) ∧
      checkCap u.me.smode (u.me.readG 4) (u.me.readG 4).cursor (4 * (u.me.word 5).toNat) [permLD, permX] 4 = none ∧
      gives (u.checkArea (u.me.readG 6)) 0x800 = true ∧ ¬ 0 < u.me.cpdepth.toNat := by
    decide +kernel
  obtain ⟨a, b, c, d, e⟩ := key n slots h
  exact ⟨a, b, c, ⟨0x800, ok_of_gives d⟩, fun h0 => absurd h0 e⟩

theorem test_met_SearchPushesFailsAndCuts :
    (∀ n s d, MayEnd false false [.g 4, .g 5, .g 6] (withArch (trying n s d)) (endOf (withArch (trying n s d)))) ∧
    TryChecks (endOf (withArch (trying 1 0 0))) 4 5 6 ∧ TryChecks (endOf (withArch (trying 2 1 0))) 4 5 6 ∧
    ((endOf (withArch (trying 1 0 0))).strand 0).busy = false ∧
    gives ((endOf (withArch (trying 2 1 0))).alternative ((endOf (withArch (trying 2 1 0))).me.readG 4) 0) 0x7F0000000000 = true ∧
    (endOf (withArch (trying 2 0 0))).me.cpSlots = 0 ∧ (endOf (withArch (trying 2 1 0))).me.cpSlots = 1 ∧
    MayEnd false true [] backtracking (endOf backtracking) ∧ (endOf backtracking).me.cpdepth.toNat = 0 + 1 ∧
    (endOf backtracking).choicePoint ((endOf backtracking).cpLoc 0 0) = somePoint ∧
    gives ((endOf backtracking).alternative (padAt 0xA00 0) 1) 0x7F0000000000 = true ∧
    (endOf backtracking).sectorsHeld (some 0) [padLoc 0 0x4010] = none ∧
    Issues false [.g 3] State.reset State.reset.joinChunk := by
  refine ⟨fun n s d => (quiet_withArch _).mayEnd _ _, try_checks 1 0 (by decide), try_checks 2 1 (by decide),
    by decide +kernel, by decide +kernel, by decide +kernel, by decide +kernel, Quiet.mayEnd ⟨rfl, rfl, rfl, rfl, rfl⟩ _ _, by decide +kernel,
    by decide +kernel, by decide +kernel, by decide +kernel, quiet_reset.issues _⟩

/-- The newer of two entries of one word. -/
theorem test_met_UndoEndsWithTheOldestEntry :
    ({ raw := 0x800, old := 1, tag := false } : TrailEntry).raw % 8 = 0 ∧
    ∀ x ∈ ([{ raw := 0x810, old := 2, tag := true }] : List TrailEntry), x.raw % 8 = 0 ∧ x.raw ≠ 0x800 ∧ x.raw / 16 ≠ 0x800 / 16 := by
  decide

/-- Strand 1 holds the choice point, with its own area; strand 0 has an area of the same length in g6 and names strand 1 in g5. -/
def stealing : State :=
  ((withArch { (regs [(5, .data 1), (6, capOf 0xC04 0 0 0xA00 0xA40 0x7F0000000A00)]) with cpstk := 1024 + 64 }).setStrand 1
    { Strand.reset with firing := some 0, arch := trying 3 2 1 }).placeSectors none (somePoint.at (padLoc 0 0x4000))

theorem test_met_TheftTakesTheLastHalf :
    MayEnd false true [] stealing (endOf stealing) ∧ (endOf stealing).me.cpdepth = 0 ∧
    (endOf backtracking).me.cpdepth ≠ 0 ∧ gives ((endOf stealing).checkArea ((endOf stealing).me.readG 6)) 0xA00 = true ∧
    gives ((endOf stealing).checkArea .null) 0 = false ∧ (endOf stealing).me.cpSlots ≠ 0 ∧ (endOf stealing).pinned 0 = none ∧
    ((endOf stealing).strand 1).firing ≠ none ∧ ((endOf stealing).strand 1).committed.cpdepth ≠ 0 ∧
    (endOf stealing).choicePoint (padLoc 0 ((endOf stealing).strand 1).committed.cpBase) = somePoint ∧
    2 ≤ somePoint.count - somePoint.next ∧ ((endOf stealing).me.readG 6).length = somePoint.area.length ∧
    gives ((endOf stealing).alternative somePoint.table 2) 0x7F0000000000 = true ∧
    (endOf stealing).sectorsHeld (some 0) (theftWrites 0 (trying 3 2 1) ((endOf stealing).cpLoc 0 0)
      (stolen somePoint 2 ((endOf stealing).me.readG 6)) 0xA00 64 ++ theftReads 0 (trying 3 2 1) somePoint 64) = none := by
  refine ⟨Quiet.mayEnd ⟨by decide +kernel, by decide +kernel, by decide +kernel, by decide +kernel, by decide +kernel⟩ _ _, ?_⟩
  decide +kernel

/-! ### The Bindery -/

/-- A domain with regions and the senders 2. -/
def domainOf (l : List Region) : Domain := { caps := 0x6FD, otypes := 0xFFFE, array := 0x20000, regions := l, senders := [2] }

/-- A region of 1 MB. -/
def mega (base : Nat) : Region := { base := base, size := 20, r := true, w := true, x := false, e := false }

/-- A Bindery that accepts requests: administrator 1, a domain 1 with the region of the first megabyte, a domain 2 with that of the
second, and one table of 16 buckets. -/
def bnd : Bindery :=
  { Bindery.reset with accepting := true, admins := [1], domains := [(1, domainOf [mega 0]), (2, domainOf [mega 0x100000])]
                       drt := 0x1000, t64 := [0x3004], t32 := [0x4004], peers := [(5, 50)] }

/-- A package with a Bindery and the operands of an event. -/
def asked (b : Bindery) (n : List Nat) (bs : List Byte) : State :=
  { State.reset with power := true, bindery := b, arg := { n := n, bytes := bs } }

/-- A request of a type with id 7 by a sender on unordered delivery, with further operands and a body. -/
def request (b : Bindery) (type sender : Nat) (n : List Nat) (body : List Byte) : State :=
  asked b (sender :: 0 :: n) (headerBytes type body.length 7 0 0 ++ body)

theorem serves_of {s : State} {type sender id : Nat} (h : (s.serves type && s.argN 0 == sender && s.reqId == id) = true) :
    Serves s type sender id := by
  simp only [Bool.and_eq_true, beq_iff_eq] at h
  exact ⟨h.1.1, h.1.2, h.2⟩

/-- A Bindery with the page at 0x10000 mapped, and one with 4,096 regions in domain 1, of which only the number counts. -/
def bndPage : Bindery := { bnd with pages := [{ page := 0x10000, big := false, frame := 0x50000, w := true, st := false }] }
def bndFull : Bindery := { bnd with domains := [(1, domainOf (List.replicate 4096 (mega 0)))] }

/-- A MAP of one operation by a sender on a domain. -/
def mapping (b : Bindery) (op sender dom x y z : Nat) : State :=
  request b 2 sender [0x80000] (bytesOfNat 1 op ++ bytesOfNat 7 dom ++ bytesOfNat 8 x ++ bytesOfNat 8 y ++ bytesOfNat 8 z)

/-- The same with every slot of the table taken. -/
def crowded (op sender dom x y z : Nat) : State :=
  { mapping bnd op sender dom x y z with mem := (List.range 128).map fun k => (⟨0x3008 + 16 * k, 1⟩ : Host.Cell) }

theorem notYet_of {s : State} {op : Nat}
    (h : (s.serves 2 && s.bindery.mapWaits.isEmpty && decide (s.mapOp.off + 32 ≤ s.body.length) && s.mapOp.op == op) = true) : NotYet s op := by
  simp only [Bool.and_eq_true, decide_eq_true_eq, beq_iff_eq, List.isEmpty_iff] at h
  obtain ⟨⟨⟨a, b⟩, c⟩, d⟩ := h
  exact ⟨a, fun w hw => absurd hw (by rw [b]; simp), c, d⟩

/-- The seven operations as they come, and a message that is none. -/
theorem test_met_MapOperationsAreServed :
    (∀ k : Fin 7, NotYet (mapping bnd (k.val + 1) 2 1 0x10000 0x50000 2) (k.val + 1)) ∧ NotYet (mapping bnd 1 3 1 0x10000 0x50000 2) 1 ∧
    NotYet (crowded 1 2 1 0x10000 0x50000 2) 1 ∧ NotYet (mapping bndPage 2 2 1 0x10000 0 0) 2 ∧ NotYet (mapping bnd 5 1 3 0 0 0) 5 ∧
    MapEvent .setRegion 3 ∧
    ((mapping bnd 8 2 1 0 0 0).serves 2 = true ∧ 7 < (mapping bnd 8 2 1 0 0 0).mapOp.op ∧ (mapping bnd 8 2 1 0 0 0).body ≠ [] ∧
      (request bnd 2 2 [] []).body = [] ∧ State.reset.serves 2 = false) := by
  refine ⟨fun k => notYet_of ?_, notYet_of (by decide +kernel), notYet_of (by decide +kernel), notYet_of (by decide +kernel),
    notYet_of (by decide +kernel), by simp [MapEvent], by decide +kernel⟩
  revert k
  decide +kernel

theorem test_met_MapOperationsWriteTheTables_pages :
    ¬ MayMap (mapping bnd 1 3 1 0x10000 0x50000 2) 3 1 ∧
    (let s := mapping bnd 1 2 1 0x10000 0x50000 2;
      s.pageStop s.mapOp true = none ∧ (s.writeEntry (pageOf s.mapOp) true).isSome = true ∧ s.mapped 0x10000 false = false) ∧
    (let s := crowded 1 2 1 0x10000 0x50000 2;
      s.pageStop s.mapOp true = none ∧ s.writeEntry (pageOf s.mapOp) true = none) ∧
    (let s := mapping bndPage 1 2 1 0x10000 0x60000 6;
      s.pageStop s.mapOp true = none ∧ (s.writeEntry (pageOf s.mapOp) true).isSome = true ∧ s.mapped 0x10000 false = true) ∧
    (let s := mapping bndPage 1 2 1 0x20000 0x50000 2;
      s.pageStop s.mapOp true = some 1) ∧
    (let s := mapping bnd 2 2 1 0x10001 0 0;
      s.pageStop s.mapOp false = some 1) ∧
    (let s := mapping bndPage 2 2 1 0x10000 0 0;
      s.pageStop s.mapOp false = none) ∧
    (let s := mapping bnd 1 1 1 0x2000000 0x4000000 1;
      s.pageStop s.mapOp true = none) := by
  refine ⟨?_, by decide +kernel⟩
  rintro (h | h) <;> exact absurd h (by decide +kernel)

theorem test_met_MapOperationsWriteTheTables_regions :
    (¬ MayMap (mapping bnd 3 3 1 0 0x314 0) 3 1 ∧ MayMap (mapping bnd 3 2 1 0 0x313 0) 2 1) ∧
    (∀ d, (mapping bnd 4 2 1 0x200000 0 0).domain 1 = some d → ∀ x ∈ d.regions, x.base ≠ 0x200000) ∧
    4096 ≤ (domainOf (List.replicate 4096 (mega 0))).regions.length ∧
    ((regionOf (mapping bnd 3 2 1 0 0x313 0).mapOp).size < 20 ∧
      (regionOf (mapping bnd 3 2 1 0 0x314 0).mapOp).size = 20 ∧ (mapping bnd 3 2 1 0 0x314 0).domain 1 = some (domainOf [mega 0]) ∧
      (mapping bnd 3 2 1 0x100000 0x314 0).regionOfOther 1 (regionOf (mapping bnd 3 2 1 0x100000 0x314 0).mapOp) = true ∧
      (mapping bnd 3 2 1 0x200000 0x314 0).regionOfOther 1 (regionOf (mapping bnd 3 2 1 0x200000 0x314 0).mapOp) = false ∧
      meet (mega 0).range (regionOf (mapping bnd 3 1 2 0 0x315 0).mapOp).range = true ∧
      meet (mega 0).range (regionOf (mapping bnd 3 2 1 0x200000 0x314 0).mapOp).range = false ∧
      (domainOf [mega 0]).regions.find? (fun x => x.base == 0x200000) = none ∧
      (domainOf [mega 0]).regions.find? (fun x => x.base == 0) = some (mega 0) ∧
      (mapping bndFull 3 2 1 0x200000 0x314 0).hasAuthority 2 1 = true ∧ (mapping bnd 3 1 1 0 0 0).isAdmin 1 = true) := by
  refine ⟨⟨?_, .inr (by decide +kernel)⟩, ?_, Nat.le_of_eq List.length_replicate.symm, by decide +kernel⟩
  · rintro (h | h) <;> exact absurd h (by decide +kernel)
  · intro d hd x hx
    rw [show (mapping bnd 4 2 1 0x200000 0 0).domain 1 = some (domainOf [mega 0]) by decide +kernel] at hd
    cases hd
    simp [domainOf] at hx
    subst hx
    decide

theorem test_met_AdministratorsSetDomainsAndPeers :
    (mapping bnd 5 2 1 0 0 0).isAdmin 2 = false ∧ (mapping bnd 5 1 3 0 0 0).isAdmin 1 = true ∧
    (mapping bnd 5 1 0 0 0 0).mapOp.dom = 0 ∧ ((mapping bnd 5 1 1 0 0 0).domain 1).isSome = true ∧
    (mapping bnd 5 1 3 0 0 0).domain 3 = none ∧ (mapping bnd 5 1 3 0 0 0).argN 2 % 16 = 0 ∧
    (mapping bnd 5 1 3 0 0 0).unused ((mapping bnd 5 1 3 0 0 0).argN 2, (mapping bnd 5 1 3 0 0 0).argN 2 + 65536) = true ∧
    (mapping bnd 6 1 1 4 1 0).mapOp.b.testBit 0 = true ∧ (mapping bnd 6 1 1 4 0 0).mapOp.b.testBit 0 = false ∧ 4 ∉ (domainOf []).senders ∧
    16 ≤ ({ domainOf [] with senders := List.range 16 } : Domain).senders.length ∧ (mapping bnd 7 1 0 64 0 0).mapOp.a % 64 = 0 ∧
    State.reset.bindery.accepting = false := by
  decide +kernel

/-- Whether a table was read. -/
def readOk {α : Type} (e : Except Nat α) : Bool :=
  match e with
  | .ok _ => true
  | .error _ => false

theorem ok_of_readOk {α : Type} {e : Except Nat α} (h : readOk e = true) : ∃ x, e = .ok x := by
  cases e with
  | ok x => exact ⟨x, rfl⟩
  | error _ => cases h

theorem error_of_readOk {α : Type} {e : Except Nat α} (h : readOk e = false) : ∃ x, e = .error x := by
  cases e with
  | ok _ => cases h
  | error x => exact ⟨x, rfl⟩

/-- The body of a LOAD for domain 1: a Lemeb object at 0x10000 and 0x30000 with sixteen bytes of text, sixteen of data and a record, one
capability in .data over the object's data with the permissions given, and one codelet at an offset of .scratch. -/
def objectBody (perms rec_ : Nat) : List Byte :=
  bytesOfNat 16 1 ++
    (bytesOfNat 4 0x4C4D4F42 ++ bytesOfNat 4 1 ++ bytesOfNat 8 0x10000 ++ bytesOfNat 8 0x30000 ++ bytesOfNat 4 16 ++ bytesOfNat 4 16 ++
      bytesOfNat 4 64 ++ bytesOfNat 4 1 ++ bytesOfNat 4 1 ++ bytesOfNat 20 0) ++
    bytesOfNat 16 0x22 ++ bytesOfNat 16 0x77 ++ bytesOfNat 64 0 ++
    (bytesOfNat 4 0x0101 ++ bytesOfNat 4 perms ++ bytesOfNat 8 0 ++ bytesOfNat 8 0 ++ bytesOfNat 8 16) ++
    (bytesOfNat 8 rec_ ++ bytesOfNat 8 4)

/-- A LOAD of it by a sender, with two frames chosen. -/
def loading (sender perms rec_ : Nat) : State := request bnd 1 sender [0x100000, 0x110000] (objectBody perms rec_)

/-- The object. -/
def lemeb (perms rec_ : Nat) : Lemeb := lemebOf (objectBody perms rec_)

/-- What the placing of an object answers. -/
def placed (x : Option (Option (State × List Nat))) : Option (State × List Nat) := x.bind id

theorem placed_eq {x : Option (Option (State × List Nat))} {y : State × List Nat} (h : placed x = some y) : x = some (some y) := by
  cases x with
  | none => cases h
  | some z => cases h; rfl

theorem test_met_LoadPlacesTheObject :
    Serves (loading 2 0x401 0) 1 2 7 ∧
    (State.reset.serves 1 = false ∧ fieldAt (objectBody 0x401 0) 0 1 = 1 ∧ (loading 2 0x401 0).body = objectBody 0x401 0 ∧
      (loading 2 0x401 0).hasAuthority 2 1 = true ∧ (loading 3 0x401 0).hasAuthority 3 1 = false ∧
      (request bnd 1 2 [] []).loadStop 2 [] (lemebOf []) = some (1, 0) ∧
      (loading 2 0x401 0).loadStop 2 (objectBody 0x401 0) (lemeb 0x401 0) = none ∧
      readOk (readTable (State.loadCap (lemeb 0x100 0) 0x6FD (objectBody 0x100 0)) 32 (lemeb 0x401 0).capAt (lemeb 0x401 0).ncap) = false ∧
      readOk (readTable (State.loadCap (lemeb 0x401 0) 0x6FD (objectBody 0x401 0)) 32 (lemeb 0x401 0).capAt (lemeb 0x401 0).ncap) = true ∧
      readOk (readTable (loadRecord (lemeb 0x401 1) (objectBody 0x401 1)) 16 (lemeb 0x401 1).codAt (lemeb 0x401 1).ncod) = false ∧
      readOk (readTable (loadRecord (lemeb 0x401 0) (objectBody 0x401 0)) 16 (lemeb 0x401 0).codAt (lemeb 0x401 0).ncod) = true ∧
      ((placed ((loading 2 0x401 0).placePages false (sectionPages (lemeb 0x401 0).textva (lemeb 0x401 0).text.length) (lemeb 0x401 0).text
        ((loading 2 0x401 0).arg.n.drop 2))).bind fun x =>
          placed (x.1.placePages true (sectionPages (lemeb 0x401 0).datava (lemeb 0x401 0).data.length) (lemeb 0x401 0).data x.2)).isSome = true) :=
  ⟨serves_of (by decide +kernel), by decide +kernel⟩

/-- A launch that holds a gang number, a state and cores. -/
def held (gang : Nat) (st : GangState) (cores : List Nat) : Launch :=
  { launchOf 0 0 [] with gang := gang, state := st, cores := cores, domain := 1, count := cores.length, timeout := 1000 }

/-- A package with one launch. -/
def running (l : Launch) (n : List Nat) : State := asked { bnd with launches := [l] } n []

/-- A QUERY of a selector by a sender with an argument, and a KILL of a gang, in a package with one launch. -/
def asking (l : Launch) (sel sender x : Nat) : State :=
  request { bnd with launches := [l] } 4 sender [] (bytesOfNat 8 sel ++ bytesOfNat 8 x)
def killing (l : Launch) (sender gang : Nat) : State := request { bnd with launches := [l] } 5 sender [] (bytesOfNat 8 gang)

theorem asks_of {s : State} {sel sender id x : Nat}
    (h : (s.serves 4 && s.argN 0 == sender && s.reqId == id && fieldAt s.body 0 1 == sel && fieldAt s.body 8 8 == x) = true) :
    Asks s sel sender id x := by
  simp only [Bool.and_eq_true, beq_iff_eq] at h
  obtain ⟨⟨⟨⟨a, b⟩, c⟩, d⟩, e⟩ := h
  exact ⟨⟨a, b, c⟩, d, e⟩

theorem test_met_QueriesReport :
    (∀ k : Fin 8, Asks (asking (held 1 .running [0]) k.val 2 1) k.val 2 7 1) ∧ Asks (asking (held 1 .running [0]) 6 2 4) 6 2 7 4 ∧
    Asks (asking (held 1 .running [0]) 3 3 0) 3 3 7 0 ∧ QueryEvent .queryLog 4 ∧
    (State.reset.dropped = true ∧ State.reset.serves 4 = false ∧ (asking (held 1 .running [0]) 1 2 1).dropped = false ∧
      (asking (held 1 .running [0]) 6 2 1).launch 1 = some (held 1 .running [0]) ∧
      (asking (held 1 .running [0]) 6 2 4).launch 4 = none ∧ (held 1 .running [0]).gang < 2 ^ 16 ∧
      (asking (held 1 .running [0]) 3 2 0).mayQuery 2 = true ∧ (asking (held 1 .running [0]) 3 3 0).mayQuery 3 = false ∧
      (asking (held 1 .running [0]) 5 2 0).colophon.leaf < 2 ^ 20 ∧
      2 ^ 20 ≤ ({ asking (held 1 .running [0]) 5 2 0 with colophon := { Colophon.reset with leaf := 2 ^ 20 } } : State).colophon.leaf) := by
  refine ⟨fun k => asks_of ?_, asks_of (by decide +kernel), asks_of (by decide +kernel), by simp [QueryEvent], by decide +kernel⟩
  revert k
  decide +kernel

/-- The operands of a bring-up: its result, the table of rights at 0x1000, and sixteen tables of 2 KB from 0x100000. -/
def bringUp (failed : Nat) : State :=
  { State.reset with arg := { n := [failed, 0x1000] ++ (List.range 16).map fun k => 0x100004 + 0x1000 * k, bytes := [] } }

theorem test_met_PowerCoolingAndFirmware :
    (asked bnd [] []).power = true ∧ (bringUp 3).power = false ∧ (bringUp 3).argN 0 ≠ 0 ∧ (bringUp 0).argN 0 = 0 ∧
    (bringUp 0).argN 1 % 4096 = 0 ∧
    tablesApart (((bringUp 0).argN 1, (bringUp 0).argN 1 + 4096) ::
      (((List.range 8).map fun k => BitVec.ofNat 64 ((bringUp 0).argN (2 + k) % 2 ^ 52 / 4096 * 4096 + (bringUp 0).argN (2 + k) % 64)) ++
        ((List.range 8).map fun k =>
          BitVec.ofNat 64 ((bringUp 0).argN (2 + (8 + k)) % 2 ^ 52 / 4096 * 4096 + (bringUp 0).argN (2 + (8 + k)) % 64))).map tableRange) = true ∧
    (∀ k < 16, 4 ≤ (BitVec.ofNat 64 ((bringUp 0).argN (2 + k) % 2 ^ 52 / 4096 * 4096 + (bringUp 0).argN (2 + k) % 64)).toNat % 64) ∧
    ((asked bnd [0, 95000] []).argN 0 < 10 ∧ 95000 ≤ (asked bnd [0, 95000] []).argN 1) ∧
    ((asked bnd [28, 2499] []).argN 0 = 28 ∧ (asked bnd [28, 2499] []).argN 1 < 2500) ∧
    ¬ ((asked bnd [10, 95000] []).argN 0 < 10) ∧ (asked bnd [] []).colophon.log.length < 16384 ∧
    (asked bnd [0, 1] []).colophon.minColophon ≤ (asked bnd [0, 1] []).argN 1 ∧
    (asked bnd [0, 0] []).argN 1 < ({ Colophon.reset with minColophon := 1 } : Colophon).minColophon := by
  decide +kernel

/-! ### Launches -/

/-- The body of a LAUNCH on one chip for domain 1: a number of cores in a place, a priority, MSPLIT 6, CHUNKLIM 64, 256 bytes of stack,
256 slots per die, a handle, the record at 0, no arguments, 1 ms. -/
def launchBody (count place prio handle : Nat) : List Byte :=
  bytesOfNat 2 count ++ bytesOfNat 1 place ++ bytesOfNat 1 0 ++ bytesOfNat 1 6 ++ bytesOfNat 1 prio ++ bytesOfNat 2 64 ++ bytesOfNat 2 256 ++
    bytesOfNat 1 1 ++ bytesOfNat 1 0 ++ bytesOfNat 1 1 ++ bytesOfNat 1 8 ++ bytesOfNat 2 0 ++ bytesOfNat 8 handle ++ bytesOfNat 8 0 ++
    bytesOfNat 8 (2 ^ 64 - 1) ++ bytesOfNat 8 1000 ++ bytesOfNat 8 (2 ^ 64 - 1) ++ bytesOfNat 8 0

/-- The body of a LAUNCH of one core on each of two chips, 0 and 5. -/
def pairBody : List Byte :=
  (launchBody 1 0 0 1).take 12 ++ bytesOfNat 1 2 ++ (launchBody 1 0 0 1).drop 13 ++
    (bytesOfNat 2 0 ++ bytesOfNat 6 1 ++ bytesOfNat 8 1) ++ (bytesOfNat 2 5 ++ bytesOfNat 6 1 ++ bytesOfNat 8 1)

/-- An object loaded for domain 1, with one record at 0. -/
def loaded : Obj :=
  { handle := 1, domain := 1, textva := 0x10000, textlen := 16, datava := 0x30000, datalen := 16, scratch := bytesOfNat 64 0,
    scratchTags := [], records := [0] }

/-- A Bindery with that object and launches. -/
def bndL (l : List Launch) : Bindery := { bnd with objects := [loaded], launches := l }

/-- A LAUNCH by a sender, the Bindery's choice in its operands: a page, its frame, and the slots of die 0. -/
def launching (l : List Launch) (sender : Nat) (body : List Byte) : State :=
  request (bndL l) 3 sender [0x40000000, 0x200000, 0x300000] body

/-- A package whose N-dies are all fenced, so that no core is free. -/
def fencedOff (l : List Launch) (sender : Nat) (body : List Byte) : State :=
  { launching l sender body with dies := (List.range 8).map fun d => (d, { Die.reset with fenced := true }) }

/-- The launch that a body asks for. -/
def wanted (s : State) : Launch := { launchOf 2 7 s.body with gang := s.nextGang }

theorem launches_of {s : State}
    (h : (s.serves 3 && s.argN 0 == 2 && s.reqId == 7 && !s.bindery.noLaunch && s.hasAuthority 2 (fieldAt s.body 10 1) &&
      (s.launchBad s.body).isNone && decide (fieldAt s.body 12 1 ≤ 1)) = true) : Launches s 2 7 (wanted s) := by
  simp only [Bool.and_eq_true, decide_eq_true_eq, beq_iff_eq, Bool.not_eq_true', Option.isNone_iff_eq_none] at h
  obtain ⟨⟨⟨⟨⟨⟨a, b⟩, c⟩, d⟩, e⟩, f⟩, g⟩ := h
  exact ⟨⟨a, b, c⟩, d, e, f, g, rfl⟩

/-- Whether an outcome of the choice of cores is what it should be. -/
def fitsLike (e : Except (Nat × Nat) (Option (List Nat × List (Nat × Nat)))) (f : Option (List Nat × List (Nat × Nat)) → Bool) : Bool :=
  match e with
  | .ok x => f x
  | .error _ => false

theorem test_met_LaunchesAreCheckedAndStart :
    Serves (launching [] 2 (launchBody 1 0 0 1)) 3 2 7 ∧
    Launches (launching [] 2 (launchBody 1 0 0 1)) 2 7 (wanted (launching [] 2 (launchBody 1 0 0 1))) ∧
    (State.reset.serves 3 = false ∧
      (launching [] 3 (launchBody 1 0 0 1)).hasAuthority 3 1 = false ∧ (launching [] 2 (launchBody 1 0 0 1)).hasAuthority 2 1 = true ∧
      (launching [] 2 (launchBody 1 0 0 1)).bindery.noLaunch = false ∧
      (launching [] 2 (launchBody 1 0 4 1)).launchBad (launchBody 1 0 4 1) = some 5 ∧
      (launching [] 2 (launchBody 1 0 0 1)).launchBad (launchBody 1 0 0 1) = none ∧ fieldAt (launchBody 0 0 0 1) 0 2 = 0 ∧
      (launching [] 2 (launchBody 1 0 0 4)).object (wanted (launching [] 2 (launchBody 1 0 0 4))).handle = none ∧
      (launching [] 2 (launchBody 1 0 0 1)).objectStop (wanted (launching [] 2 (launchBody 1 0 0 1))) = none ∧
      (launching [held 1 .queued []] 2 (launchBody 1 0 0 1)).heldLaunch 0 = true ∧
      (launching [] 2 (launchBody 1 0 0 1)).heldLaunch 0 = false ∧
      fitsLike ((launching [] 2 (launchBody 1 0 0 1)).fits (wanted (launching [] 2 (launchBody 1 0 0 1))))
        (fun x => decide (x = some ([0], [(0, 0), (0, 1)]))) = true ∧
      (launching [] 2 (launchBody 1 0 0 1)).nextGang = 1 ∧ (∀ l ∈ (launching [] 2 []).bindery.launches, l.gang ≠ 65535)) :=
  ⟨serves_of (by decide +kernel), launches_of (by decide +kernel), by decide +kernel⟩

/-- A start of the launch that the Bindery's choice allows, and a queued one when it fits. -/
theorem test_met_LaunchesAreCheckedAndStart_fits :
    ((launching [] 2 (launchBody 1 0 0 1)).enlist (wanted (launching [] 2 (launchBody 1 0 0 1))) ([0], [(0, 0), (0, 1)])
      ((launching [] 2 (launchBody 1 0 0 1)).choice 2)).isSome = true ∧
    (asked (bndL [wanted (launching [] 2 (launchBody 1 0 0 1))]) [0x40000000, 0x200000, 0x300000] []).queueHead =
      some (wanted (launching [] 2 (launchBody 1 0 0 1))) ∧
    ((asked (bndL [wanted (launching [] 2 (launchBody 1 0 0 1))]) [0x40000000, 0x200000, 0x300000] []).enlist
      (wanted (launching [] 2 (launchBody 1 0 0 1))) ([0], [(0, 2), (0, 3)])
      ((asked (bndL [wanted (launching [] 2 (launchBody 1 0 0 1))]) [0x40000000, 0x200000, 0x300000] []).choice 0)).isSome = true ∧
    State.reset.queueHead = none := by
  refine ⟨?_, ?_, ?_, rfl⟩
  all_goals decide +kernel

/-- The start of a gang with one member, whose entry record names it. -/
theorem test_met_GangsStart :
    ({ working 0 (.quit 0 0 0) with bindery := bndL [held 1 .ready [0]] }.startGang 1).isSome = true := by
  decide +kernel

/-- With no core free nothing fits; a launch whose dies have no context left, and a queued one whose die
index no die of it has. -/
theorem test_met_LaunchesAreCheckedAndStart_full :
    Launches (fencedOff [] 2 (launchBody 1 0 1 1)) 2 7 (wanted (fencedOff [] 2 (launchBody 1 0 1 1))) ∧
    (fencedOff [] 2 (launchBody 1 0 1 1)).objectStop (wanted (fencedOff [] 2 (launchBody 1 0 1 1))) = none ∧
    (fencedOff [] 2 (launchBody 1 0 1 1)).heldLaunch 1 = false ∧
    fitsLike ((fencedOff [] 2 (launchBody 1 0 1 1)).fits (wanted (fencedOff [] 2 (launchBody 1 0 1 1))))
      (fun x => x.isNone) = true ∧
    (match (launching [{ held 1 .running [] with held := (List.range 64).map fun k => (0, k) }] 2 (launchBody 1 0 0 1)).fits
        (wanted (launching [] 2 (launchBody 1 0 0 1))) with
      | .error x => x == (2, 0)
      | .ok _ => false) = true ∧
    (match (launching [] 2 []).fits { wanted (launching [] 2 (launchBody 1 0 0 1)) with ctxs := [(1, [])] } with
      | .error x => x.1 == 1
      | .ok _ => false) = true := by
  refine ⟨launches_of (by decide +kernel), ?_, ?_, ?_, ?_, ?_⟩
  all_goals decide +kernel

theorem test_met_GangsEndTimeOutAndAreKilled :
    Serves (killing (held 1 .running [0]) 2 1) 5 2 7 ∧
    ((running (held 1 .running [0]) [4]).launch 4 = none ∧ (running (held 1 .running [0]) [1]).launch 1 = some (held 1 .running [0]) ∧
      (held 1 .running [0]).started = true ∧ (held 1 .queued [0]).started = false ∧
      (running (held 1 .running [0]) [1]).gangOver (held 1 .running [0]) = true ∧
      { running (held 1 .running [0]) [1] with msgs := [{ id := 0, src := 0, eng := none, kind := .quit 0 1 0 }] }.gangOver
        (held 1 .running [0]) = false ∧
      (held 1 .running [0]).killed = false ∧
      1000 * (held 1 .running [0]).timeout ≤ { running (held 1 .running [0]) [1] with now := 1000000 }.now - (held 1 .running [0]).start ∧
      (running (held 1 .running [0]) [1]).now - (held 1 .running [0]).start < 1000 * (held 1 .running [0]).timeout ∧
      ((running (held 1 .running [0]) [1]).setCore 0 { Core.reset with gang := some 1 }).gangOver (held 1 .running [0]) = true ∧
      State.reset.serves 5 = false ∧ fieldAt (killing (held 1 .running [0]) 2 1).body 0 2 = 1 ∧
      ((killing { held 1 .running [0] with sender := 5, id := 9, chips := [(5, 1, 1), (0, 1, 1)] } 50 9).peerOf 50).isSome = true ∧
      ((killing { held 1 .running [0] with sender := 5, id := 9, chips := [(5, 1, 1), (0, 1, 1)] } 50 9).partOf 5 9).isSome = true ∧
      (killing (held 1 .running [0]) 2 1).peerOf 2 = none ∧ (killing (held 1 .running [0]) 2 1).hasAuthority 2 1 = true ∧
      (killing (held 1 .running [0]) 3 1).hasAuthority 3 1 = false ∧
      ({ held 1 .reserved [0] with coordinator := true } : Launch).coordinator = true) :=
  ⟨serves_of (by decide +kernel), by decide +kernel⟩

/-- A gang that leaves core 0, with a place for the image of its scratchpad. -/
def leavingCore (t : Strand) : State :=
  (((running (held 1 .preempted [0]) [0, 0x200000]).setCore 0 { Core.reset with gang := some 1 }).setStrand 0 t)

/-- The gang when core 0 is saved. -/
def savedGang : Launch := { held 1 .preempted [0] with saved := [(leavingCore Strand.reset).saveCore 1 0 0x200000] }

theorem test_met_GangsAreSavedAndResume :
    ((∀ c ∈ coresOf 0, (State.reset.core c).gang = none) ∧ coresOf ((leavingCore Strand.reset).argN 0) = [0, 1, 2, 3] ∧
      ((coresOf 0).filterMap fun c => ((leavingCore Strand.reset).core c).gang).find? (leavingCore Strand.reset).leaving = some 1 ∧
      (coresOf 0).filter (fun c => ((leavingCore Strand.reset).core c).gang == some 1) = [0] ∧
      (leavingCore Strand.reset).images [0] [0x200000] = some [(0, 0x200000)] ∧ (leavingCore Strand.reset).images [0] [] = none ∧
      (∀ k ∈ strandsOf 0, (leavingCore Strand.reset).strandAway k = true) ∧ (leavingCore Strand.reset).owes 1 0 [0] = false ∧
      (leavingCore { Strand.reset with firing := some 0 }).strandAway 0 = false) ∧
    ((running savedGang [1]).launch 1 = some savedGang ∧ (running savedGang [4]).launch 4 = none ∧ savedGang.saved ≠ [] ∧
      savedGang.allCores = [0] ∧ (∀ x ∈ savedGang.saved, x.cid = 0 ∧ x.image % 16 = 0 ∧ x.core.msplit.toNat ≤ 8) ∧
      ((running savedGang [1]).core 0).gang = none ∧
      ((running savedGang [1]).die (dieOfCore 0)).fenced = false ∧ (running savedGang [1]).heldLaunch 1 = false ∧
      (running savedGang [1]).quires = [] ∧ (held 1 .running [0]).state ≠ .preempted ∧
      (running (held 1 .preempted [0]) []).gangAway 1 0 = true) :=
  ⟨by decide +kernel, by decide +kernel⟩

/-- A stub that is not placed is taken to have run; one that is placed, with its code in the bank. -/
theorem test_met_StubCode : (Core.reset.stubCode.tag = false) ∧ (capOf 0xFF9 0 0 0 0x1000 0).tag = true := by decide

/-- A launch of this package, coordinated or as part of one that package 5 coordinates, with the message of package 5 in the operands. -/
def chipped (own : Bool) (st : GangState) (stamp : Option Nat) (n : List Nat) : State :=
  running { held 1 st [0] with
    sender := if own then 2 else 5, id := if own then 7 else 9, chips := [(0, 1, 1), (5, 1, 1)], coordinator := own, stamp := stamp,
    deadline := 1000 } n

theorem test_met_MultiChipLaunchesGoTogether :
    (∀ own st stamp a b, FromPeer (chipped own st stamp (5 :: 1 :: [a, b])) 5 1) ∧ Serves (launching [] 2 pairBody) 3 2 7 ∧
    (State.reset.bindery.accepting = false ∧ (launching [] 2 pairBody).body = pairBody ∧
      (launching [] 2 pairBody).hasAuthority 2 (launchOf 2 7 pairBody).domain = true ∧
      (launching [] 2 pairBody).launchBad pairBody = none ∧ (launchOf 2 7 pairBody).chips = [(0, 1, 1), (5, 1, 1)] ∧
      (launching [] 2 pairBody).domain (launchOf 5 1 pairBody).domain ≠ none ∧ (launching [] 2 pairBody).domain 9 = none ∧
      (match (launching [] 2 pairBody).reserve { (launching [] 2 pairBody).ownPart (launchOf 2 7 pairBody) with gang := 1, coordinator := true }
          ((launching [] 2 pairBody).choice 2) with
        | some (.ok _) => true
        | _ => false) = true ∧
      (launching [] 2 pairBody).objectStop { launchOf 2 7 pairBody with handle := 4 } = some (5, 0)) ∧
    ((chipped true .running none [5, 1, 0, 0]).coordinated 1 = none ∧ ((chipped true .reserved none [5, 1, 0, 100000]).coordinated 1).isSome = true ∧
      ((chipped true .reserved none [5, 1, 0, 100000]).die 8).latest + 100000 ≤ (chipped true .reserved none [5, 1, 0, 100000]).argN 3 ∧
      (chipped true .reserved none [5, 1, 0, 5]).argN 3 < ((chipped true .reserved none [5, 1, 0, 5]).die 8).latest + 100000 ∧
      (chipped true .reserved none [5, 1, 1, 0]).argN 2 ≠ 0 ∧
      1000 < (((chipped true .reserved none []).setDie 8 { Die.reset with earliest := 1001 }).die 8).earliest ∧
      (∀ c ∈ [((0 : Nat), 1, 1), (5, 1, 1)], c.1 ≠ 0 → c.1 = 5) ∧ (chipped false .reserved none [5, 9]).partOf 5 1 = none ∧
      ((chipped false .reserved none [5, 9]).partOf 5 9).isSome = true ∧
      (((chipped false .reserved none [5, 9, 7]).setDie 0 { Die.reset with earliest := 8 }).die 0).earliest = 8 ∧
      diesOf [0] = [0] ∧ ((chipped false .ready (some 7) [1]).setDie 0 { Die.reset with earliest := 8 }).launch 1 ≠ none ∧
      ((chipped true .running (some 7) [5, 1]).launch 1).isSome = true ∧ (chipped true .running (some 7) [5, 1]).argN 2 ≠ 1 ∧
      (chipped true .running (some 7) [5, 1, 1]).argN 2 = 1 ∧ (held 1 .running [0]).started = true ∧ (held 1 .running [0]).lost = false) := by
  refine ⟨fun own st stamp a b => ⟨rfl, rfl, rfl, 50, by simp [chipped, running, asked, bnd]⟩, serves_of ?_, ?_, ?_⟩
  all_goals decide +kernel

/-! ### Completion of line operations, fences and the ends of gangs -/

theorem test_met_LinesFencesAndGangEndsComplete :
    (∀ n, Issues false [.g n] onPad onPad.joinChunk) ∧ MayEnd false false [] State.reset (endOf State.reset) ∧
    Serves (killing (held 1 .running [0]) 2 1) 5 2 7 ∧
    (onPad.joinChunk.lineCheck (onPad.me.readG 4) (scalarAddr onPad.me 4 128 0) = none ∧
      onPage.joinChunk.lineCheck (onPage.me.readG 4) (scalarAddr onPage.me 4 128 0) = none ∧
      (endOf State.reset).storesOut 0 3 = false ∧ (endOf State.reset).remoteOut 0 = false ∧ (endOf State.reset).enginesOut 0 3 = false ∧
      (killing (held 1 .running [0]) 2 1).peerOf 2 = none ∧
      (killing (held 1 .running [0]) 2 1).launch 1 = some (held 1 .running [0]) ∧
      (killing (held 1 .running [0]) 2 1).hasAuthority 2 (held 1 .running [0]).domain = true ∧
      (running (held 1 .running [0]) [1]).launch ((running (held 1 .running [0]) [1]).argN 0) = some (held 1 .running [0])) :=
  ⟨fun _ => quiet_onPad.issues _, quiet_reset.mayEnd _ _, serves_of (by decide +kernel), by decide +kernel⟩

/-! ### Encoding, the step and reset -/

theorem test_met_EncodedInstructionsDecode :
    (Instr.vadd 1 2 3 7 true true).wellFormed = true ∧ (encode true (.vadd 1 2 3 7 true true)).isSome = true := by
  decide +kernel

theorem test_met_DecodedWordsEncode : decode 0x38412549 = .ok (.amoCas 8 9 10 true) := by rfl

/-- A word at the beginning of its core's scratchpad that strand 0, which holds a firing, is to issue next. -/
def atWord (w : BitVec 32) : State :=
  (padCode Arch.reset [w]).setStrand 0 { (padCode Arch.reset [w]).strand 0 with firing := some 0 }

/-- A turn for strand 0. -/
def turnOf (s : State) : State := { s with turns := [.issue 0] }

theorem fetches (w : BitVec 32) (s : State) (h : (match s.fetchWord 0 (s.arch 0).pcc (s.arch 0).pcc.cursor with
    | .word x => x == w
    | .stop _ => false) = true) : s.fetchWord 0 (s.arch 0).pcc (s.arch 0).pcc.cursor = .word w := by
  split at h
  · simp at h
    simp_all
  · cases h

/-- Strand 0 with that word in its core's scratchpad, the turn taken from the schedule. -/
def onWord (w : BitVec 32) : State := { turnOf (atWord w) with turns := [], ticks := 1 }

theorem test_met_UnassignedMajorsTrap :
    (majorOf 0 = 0 ∧ 0x2B ≤ (majorOf 0xFFFFFFFF).toNat ∧ (onWord 0xFFFFFFFF).strandReady 0 = true ∧
      ((onWord 0xFFFFFFFF).arch 0).frame = none ∧ (onWord 0xFFFFFFFF).nextIssuer 0 = some 0) ∧
    (turnOf (atWord 0xFFFFFFFF)).turns = .issue 0 :: [] ∧
    (onWord 0xFFFFFFFF).fetchWord 0 ((onWord 0xFFFFFFFF).arch 0).pcc ((onWord 0xFFFFFFFF).arch 0).pcc.cursor = .word 0xFFFFFFFF :=
  ⟨by decide +kernel, rfl, fetches _ _ (by decide +kernel)⟩

/-- The state whose next instruction is a word, after the turn is taken from the schedule. -/
def cached (w : Nat) : State := { State.reset.withFetchWord 32 w with turns := [], ticks := 1 }

theorem test_met_StepRunsTheDecodedInstruction :
    (State.reset.withFetchWord 32 0x22000000).turns = .issue 0 :: [] ∧
    ((cached 0x22000000).strandReady 0 = true ∧ (cached 0x22000000).nextIssuer 0 = some 0 ∧ (cached 0x22000000).issueReady 0 = true ∧
      State.reset.strandReady 0 = false ∧ ((cached 0x22000000).arch 0).frame = none ∧ ((cached 0x22000000).core 0).lastIssue = 3 ∧
      (cached 0x22000000).unitFree 0 0x22000000 .nop = true ∧
      (match (cached 0x22000000).nextWord 0 with
        | .run p w i => !p && w == 0x22000000 && decide (i = .nop)
        | _ => false) = true ∧
      (match (cached 0).nextWord 0 with
        | .bad w => w == 0
        | _ => false) = true ∧
      (match (State.reset.fetchWord 0 (State.reset.arch 0).pcc (State.reset.arch 0).pcc.cursor) with
        | .stop _ => true
        | .word _ => false) = true ∧
      checkCap ((cached 0).arch 0).smode ((cached 0).arch 0).pcc 0 4 [permX] 4 = none ∧ (cached 0).place (coreOf 0) 0 = .mapped 0 ∧
      (cached 0).plbCheck 0 0 [.x] = .granted ∧ ((cached 0).core (coreOf 0)).icache.find? (·.line == 0 / 128) ≠ none ∧
      isEvent .chunkCommit = true ∧ isEvent .nop = false ∧ State.reset.turns = []) ∧
    (decode 0x22000000 = .ok .nop ∧ decode 0 = .error .major) ∧
    (cached 0x22000000).fetchWord 0 ((cached 0x22000000).arch 0).pcc ((cached 0x22000000).arch 0).pcc.cursor = .word 0x22000000 :=
  ⟨rfl, by decide +kernel, ⟨by rfl, by rfl⟩, fetches _ _ (by decide +kernel)⟩

theorem test_met_StepsKeepMemorySound :
    (turnOf State.reset).Sound ∧ step (turnOf State.reset) = .next { State.reset with turns := [], ticks := 1 } :=
  ⟨⟨by decide, by decide⟩, by rfl⟩

theorem test_met_OutstandingSourcesTrapOrPark :
    namedReads Arch.reset (.add 3 4 5) ≠ [] ∧ (∃ l, namedReads Arch.reset (.add 3 4 5) = [.g 4] ++ .g 5 :: l) ∧
    ((busyWith (.g 4)).busy = true ∧ (busyWith (.g 5)).isOut (.g 5) = true ∧ (busyWith (.g 5)).isOut (.g 4) = false ∧
      usesDivider (.div 3 4 5) = true ∧ State.reset.dividing 0 = false ∧ privilegedOnly (.gkill 3) = true ∧ State.reset.me.smode = false) := by
  refine ⟨?_, ⟨_, rfl⟩, by decide +kernel⟩
  show ([.g 4, .g 5, .g 3] : List RegName) ≠ []
  simp

/-! ## Single steps, with the values worked out by hand from the rules -/

/-- The state after the first step in which strand 0 issues a word, its registers being given. -/
def after (a : Arch) (w : Nat) : State :=
  match step ((withArch a).withFetchWord 32 w) with
  | .next t => t
  | _ => State.reset

/-- 04 R59: add wraps. -/
theorem test_add_wraps : ((after (regs [(20, .data 0xFFFFFFFFFFFFFFFF), (11, .data 2)]) 0b0_000001_100001_010100_001011_0000000).arch 0).word 33 = 1 := by
  decide +kernel

/-- 04 R59: a write of g0 has no effect. -/
theorem test_g0_stays_zero : ((after (regs [(20, .data 5)]) 0b0_000010_000000_010100_0000000000001).arch 0).word 0 = 0 := by decide +kernel

/-- 03 R48: the immediate of add.i is signed. -/
theorem test_addI_sign : ((after (regs [(20, .data 5)]) 0b0_000010_100001_010100_1111111111111).arch 0).word 33 = 4 := by decide +kernel

/-- 04: lis shifts its destination left by 19 and puts the unsigned immediate below. -/
theorem test_lis : ((after (regs [(33, .data 3)]) 0b0_001000_100001_1000000000000000001).arch 0).word 33 = 0x1C0001 := by decide +kernel

/-- 04: set.lt is signed, set.lo is not. -/
theorem test_set_signs :
    ((after (regs [(20, .data 0xFFFFFFFFFFFFFFFF), (11, .data 1)]) 0b0_001001_100001_010100_001011_0000010).arch 0).word 33 = 1 ∧
    ((after (regs [(20, .data 0xFFFFFFFFFFFFFFFF), (11, .data 1)]) 0b0_001001_100001_010100_001011_0000100).arch 0).word 33 = 0 := by
  decide +kernel

/-- 03 R47, R48: a jump counts words from its own address. -/
theorem test_jmp_target : ((after .reset 0b0_001101_0000000000000000000000011).arch 0).pcc.cursor = 12 := by decide +kernel

/-- 05 R94: call leaves the address of the next word in the link register. -/
theorem test_call_link : ((after .reset 0b0_001110_0000000000000000000000011).arch 0).pcc.cursor = 12 ∧
    (((after .reset 0b0_001110_0000000000000000000000011).arch 0).readG 1).cursor = 4 := by
  decide +kernel

/-- 03 R52, 07: a word of zeros raises ILL, which a strand without a handler takes in S mode. -/
theorem test_zero_word_ill :
    ((after .reset 0).arch 0).sset.cause = 1 ∧ ((after .reset 0).arch 0).smode = true ∧ ((after .reset 0).arch 0).sset.pcc.cursor = 0 := by
  decide +kernel

end Sys2Proof.Tests
end

/-! SUPPORT. A turn of the schedule (01 R7): what `step` does with each kind of turn, which instruction is next (05 R88, R95, R96),
which strand takes the issue slot, and what taking it changes. -/

namespace Sys2Proof.Machine

open Sys2Proof

/-! ## The turn that a step takes -/

theorem step_of_issue {s : State} {sid : Nat} {rest : List Turn} (h : s.turns = .issue sid :: rest) :
    step s = { s with turns := rest, ticks := s.ticks + 1 }.issueStrand sid := by
  simp only [step, h, State.turn]

theorem step_of_event {s : State} {e : Instr} {a : Args} {rest : List Turn} (h : s.turns = .event e a :: rest) :
    step s = if isEvent e then exec e { s with turns := rest, ticks := s.ticks + 1, arg := a }
      else .next { s with turns := rest, ticks := s.ticks + 1 } := by
  simp only [step, h, State.turn]

theorem step_of_no_turns {s : State} (h : s.turns = []) :
    step s = { s.pass (Config.elapsed s.ticks) with ticks := s.ticks + 1 }.turn (Config.turn s.ticks) := by
  simp only [step, h]

/-! ## An issue slot offered to a strand -/

section
variable {r : State} {sid : Nat}

theorem State.issueStrand_of_not_ready (h : r.strandReady sid = false) :
    r.issueStrand sid = .next (if r.quitDue sid then r.quitEnd sid else r) := by
  simp [State.issueStrand, State.unready, h]

theorem State.issueStrand_of_run (h : r.strandReady sid = true) (hn : r.nextIssuer (coreOf sid) = some sid) {p : Bool}
    {w : BitVec 32} {i : Instr} (hw : r.nextWord sid = .run p w i) :
    r.issueStrand sid = exec i { r.fetched sid with cur := sid, park := p } := by
  simp [State.issueStrand, h, hn, hw]

theorem State.issueStrand_of_bad (h : r.strandReady sid = true) (hn : r.nextIssuer (coreOf sid) = some sid) {w : BitVec 32}
    (hw : r.nextWord sid = .bad w) :
    r.issueStrand sid = exec .unassignedWord { r.fetched sid with cur := sid, arg := { n := [w.toNat], bytes := [] } } := by
  simp [State.issueStrand, h, hn, hw]

theorem State.issueStrand_of_trap (h : r.strandReady sid = true) (hn : r.nextIssuer (coreOf sid) = some sid) {c : Cause} {v : Word}
    (hw : r.nextWord sid = .stop (.trap c v)) :
    r.issueStrand sid = .next ((Stop.trap c v).act { r.fetched sid with cur := sid }).settle := by
  simp [State.issueStrand, h, hn, hw]

/-- A strand whose word is not there sends for it, whichever strand the slot goes to (05 R89). -/
theorem State.issueStrand_of_wait (h : r.strandReady sid = true) {w : Wait} (hw : r.nextWord sid = .stop (.wait w)) :
    r.issueStrand sid = .next ((Stop.wait w).act { r with cur := sid }).settle := by
  simp [State.issueStrand, h, hw]

/-- A strand that the round-robin passes over leaves the state. -/
theorem State.issueStrand_of_passed (h : r.strandReady sid = true) (hw : ∀ w, r.nextWord sid ≠ .stop (.wait w))
    (hn : r.nextIssuer (coreOf sid) ≠ some sid) : r.issueStrand sid = .next r := by
  cases hx : r.nextWord sid with
  | run p w i => simp [State.issueStrand, h, hn, hx]
  | bad w => simp [State.issueStrand, h, hn, hx]
  | stop e =>
    cases e with
    | trap c v => simp [State.issueStrand, h, hn, hx]
    | wait w => exact absurd hx (hw w)

/-! ## The next word (05 R88, R95, R96) -/

theorem State.nextWord_of_fetched (hf : (r.arch sid).frame = none) {w : BitVec 32} {i : Instr}
    (hw : r.fetchWord sid (r.arch sid).pcc (r.arch sid).pcc.cursor = .word w) (hd : decode w = .ok i) :
    r.nextWord sid = .run (parkBit w) w i := by
  simp [State.nextWord, hf, hw, hd]

theorem State.nextWord_of_rejected (hf : (r.arch sid).frame = none) {w : BitVec 32} {e : Reject}
    (hw : r.fetchWord sid (r.arch sid).pcc (r.arch sid).pcc.cursor = .word w) (hd : decode w = .error e) :
    r.nextWord sid = .bad w := by
  simp [State.nextWord, hf, hw, hd]

theorem State.nextWord_of_stopped (hf : (r.arch sid).frame = none) {e : Stop}
    (hw : r.fetchWord sid (r.arch sid).pcc (r.arch sid).pcc.cursor = .stop e) : r.nextWord sid = .stop e := by
  simp [State.nextWord, hf, hw]

/-- A word of a frame runs stepped (05 R95). -/
theorem Frame.next_of_decode (f : Frame) {w : BitVec 32} {i : Instr} (hd : decode w = .ok i) :
    f.next w = .run (parkBit w) w (stepInstr (f.k * f.dstep) (f.k * f.astep) (f.k * f.bstep) i) := by
  simp [Frame.next, hd]

theorem State.nextWord_of_frame {f : Frame} (hf : (r.arch sid).frame = some f) {w : BitVec 32} (hw : f.words[f.index]? = some w) :
    r.nextWord sid = f.next w := by
  simp [State.nextWord, hf, hw]

/-- A frame that was resumed without its words fetches each at its place (assumption 77). -/
theorem State.nextWord_of_resumed {f : Frame} (hf : (r.arch sid).frame = some f) (hl : f.words = []) {w : BitVec 32}
    (hw : r.fetchWord sid (r.arch sid).pcc (r.arch sid).pcc.cursor = .word w) (hp : permittedWord (r.arch sid).smode w = true) :
    r.nextWord sid = f.next w := by
  simp [State.nextWord, hf, hl, hw, hp]

/-! ## Whose slot it is (01 R7) -/

/-- The slot goes to the strand `d` places after the one that issued last if that is ready and none between them is. -/
theorem State.nextIssuer_eq_some_iff {cid d : Nat} (h1 : 1 ≤ d) (h4 : d ≤ 4) :
    r.nextIssuer cid = some (4 * cid + ((r.core cid).lastIssue + d) % 4) ↔
      r.issueReady (4 * cid + ((r.core cid).lastIssue + d) % 4) = true ∧
        ∀ e, 1 ≤ e → e < d → r.issueReady (4 * cid + ((r.core cid).lastIssue + e) % 4) = false := by
  have hplaces : [1, 2, 3, 4] = List.range' 1 4 := rfl
  rw [State.nextIssuer, hplaces, List.find?_map, Option.map_eq_some_iff]
  constructor
  · rintro ⟨e, he, hk⟩
    obtain ⟨hready, hmem, hbefore⟩ := List.find?_range'_eq_some.mp he
    have hed : e = d := by
      have := List.mem_range'_1.mp hmem
      omega
    subst hed
    exact ⟨hready, fun j hj hlt => by simpa using hbefore j hj hlt⟩
  · rintro ⟨hready, hbefore⟩
    refine ⟨d, List.find?_range'_eq_some.mpr ⟨hready, List.mem_range'_1.mpr ⟨h1, by omega⟩, fun j hj hlt => ?_⟩, rfl⟩
    simpa using hbefore j hj hlt

/-- A strand is ready for the slot when its word is there, and so is the unit that an instruction needs; a rejected word and a fetch
that traps need none. -/
theorem State.issueReady_iff : r.issueReady sid = true ↔ r.strandReady sid = true ∧
    ((∃ p w i, r.nextWord sid = .run p w i ∧ r.unitFree sid w i = true) ∨ (∃ w, r.nextWord sid = .bad w) ∨
      ∃ c v, r.nextWord sid = .stop (.trap c v)) := by
  rw [State.issueReady, Bool.and_eq_true]
  refine and_congr_right fun _ => ?_
  cases hw : r.nextWord sid with
  | run p w i =>
    constructor
    · exact fun hfree => .inl ⟨p, w, i, rfl, hfree⟩
    · rintro (⟨p', w', i', hrun, hfree⟩ | ⟨w', hbad⟩ | ⟨c, v, hstop⟩)
      · cases hrun
        exact hfree
      · cases hbad
      · cases hstop
  | bad w => exact iff_of_true rfl (.inr (.inl ⟨w, rfl⟩))
  | stop e =>
    cases e with
    | trap c v => exact iff_of_true rfl (.inr (.inr ⟨c, v, rfl⟩))
    | wait w => simp

end

/-! ## The unit that an instruction needs -/

/-- Whether the decoder answers an instruction that uses the divider. -/
def divides : Except Reject Instr → Bool
  | .ok i => usesDivider i
  | .error _ => false

@[simp] theorem divides_ok (i : Instr) : divides (.ok i) = usesDivider i := rfl
@[simp] theorem divides_error (e : Reject) : divides (.error e) = false := rfl
@[simp] theorem divides_whenZero (c : Bool) (i : Instr) : divides (whenZero c i) = (c && usesDivider i) := by
  cases c <;> rfl

theorem divides_decodeFp (f : FV3) : divides (decodeFp f) = false := by
  unfold decodeFp
  split <;> simp [usesDivider]

theorem divides_decodeVint (f : FV3) : divides (decodeVint f) = false := by
  unfold decodeVint
  split <;> simp [usesDivider]

theorem divides_decodeVecScalar (f : FVG) : divides (decodeVecScalar f) = false := by
  unfold decodeVecScalar
  split <;> simp [usesDivider]

theorem divides_decodeElement (f : FVX) : divides (decodeElement f) = false := by
  unfold decodeElement
  split <;> simp [usesDivider]

theorem divides_decodeConvert (f : FV3) : divides (decodeConvert f) = false := by
  unfold decodeConvert
  split <;> simp [usesDivider]

theorem divides_decodeMatrix (f : FMX) : divides (decodeMatrix f) = false := by
  unfold decodeMatrix
  repeat' split
  all_goals simp [usesDivider]

/-- No instruction that enters the vector queue or the matrix queue uses the divider (03 R54). -/
theorem usesDivider_of_queueMajor {w : BitVec 32} {i : Instr} (hd : decode w = .ok i) (hlo : 0x1E ≤ (majorOf w).toNat)
    (hhi : (majorOf w).toNat ≤ 0x23) : usesDivider i = false := by
  rw [← divides_ok, ← hd, decode]
  obtain hm | hm | hm | hm | hm | hm : (majorOf w).toNat = 0x1E ∨ (majorOf w).toNat = 0x1F ∨ (majorOf w).toNat = 0x20 ∨
      (majorOf w).toNat = 0x21 ∨ (majorOf w).toNat = 0x22 ∨ (majorOf w).toNat = 0x23 := by omega
  all_goals rw [hm]
  · exact divides_decodeFp _
  · exact divides_decodeVint _
  · exact divides_decodeVecScalar _
  · exact divides_decodeElement _
  · exact divides_decodeConvert _
  · exact divides_decodeMatrix _

/-- Each unit accepts on its own condition: no instruction needs two of them. -/
theorem State.unitFree_iff (r : State) (sid : Nat) {w : BitVec 32} {i : Instr} (hd : decode w = .ok i) :
    r.unitFree sid w i = true ↔ (usesDivider i = true → r.dividing (coreOf sid) = false) ∧
      (0x1E ≤ (majorOf w).toNat → (majorOf w).toNat ≤ 0x22 → r.pipeFull (coreOf sid) = false) ∧
      ((majorOf w).toNat = 0x23 → (r.core (coreOf sid)).mq.length < 2) := by
  have hmajor : (w.extractLsb' 25 6).toNat = (majorOf w).toNat := rfl
  have hone := usesDivider_of_queueMajor hd
  simp only [State.unitFree, hmajor]
  generalize (majorOf w).toNat = m at hone ⊢
  split
  case isTrue hdiv =>
    have hm : ¬ (0x1E ≤ m ∧ m ≤ 0x23) := fun ⟨hlo, hhi⟩ => by simp [hone hlo hhi] at hdiv
    have hvec : 0x1E ≤ m → m ≤ 0x22 → r.pipeFull (coreOf sid) = false := by omega
    have hmat : m = 0x23 → (r.core (coreOf sid)).mq.length < 2 := by omega
    simp only [hdiv, Bool.not_eq_true', forall_const]
    exact (and_iff_left ⟨hvec, hmat⟩).symm
  case isFalse hdiv =>
    split
    case isTrue hvec =>
      have hmat : m ≠ 0x23 := by omega
      simp [hdiv, hvec, hmat]
    case isFalse hvec =>
      have hnot : 0x1E ≤ m → ¬ m ≤ 0x22 := fun hlo hhi => hvec ⟨hlo, hhi⟩
      split
      case isTrue hmat => simp [hdiv, hmat]
      case isFalse hmat => simp +contextual [hdiv, hmat, hnot]

/-! ## The word at an address of a cached line (05 R88) -/

/-- The word of a cached line is its four bytes, the first at the lowest address (03 R47). -/
theorem ILine.word_eq_wordOfBytes (l : ILine) (a : Nat) :
    l.word a = wordOfBytes (l.data.extractLsb' (8 * (a % 128)) 8) (l.data.extractLsb' (8 * (a % 128) + 8) 8)
      (l.data.extractLsb' (8 * (a % 128) + 16) 8) (l.data.extractLsb' (8 * (a % 128) + 24) 8) := by
  rw [ILine.word]
  generalize 8 * (a % 128) = n
  rw [wordOfBytes, BitVec.extractLsb'_append_extractLsb'_eq_extractLsb' (show n + 24 = n + 16 + 8 from rfl),
    BitVec.extractLsb'_append_extractLsb'_eq_extractLsb' (show n + 16 = n + 8 + 8 from rfl),
    BitVec.extractLsb'_append_extractLsb'_eq_extractLsb' rfl]

theorem State.fetchWord_of_cached {r : State} {sid a va : Nat} {pcc : Reg} {l : ILine}
    (hcap : checkCap (r.arch sid).smode pcc a 4 [permX] 4 = none) (hplace : r.place (coreOf sid) a = .mapped va)
    (hplb : r.plbCheck sid va [.x] = .granted) (hline : (r.core (coreOf sid)).icache.find? (·.line == va / 128) = some l) :
    r.fetchWord sid pcc a = .word (l.word va) := by
  simp only [State.fetchWord, hcap, hplace, hplb, hline]

/-! ## What taking the slot changes -/

@[simp] theorem State.setCore_setCore (s : State) (k : Nat) (x y : Core) : (s.setCore k x).setCore k y = s.setCore k y := by
  simp [State.setCore, mapSet_mapSet]

/-- The use of a PLB entry orders the PLB of the strand's core, and nothing else. -/
theorem State.usePlb_eq (s : State) (sid a : Nat) :
    ∃ c : Core, s.usePlb sid a = s.setCore (coreOf sid) c ∧ c.lastIssue = (s.core (coreOf sid)).lastIssue := by
  refine ⟨_, rfl, ?_⟩
  dsimp only
  split <;> rfl

/-- The use of a line orders the PLB and the instruction cache of the strand's core, and nothing else. -/
theorem State.touchLine_eq (s : State) (sid a : Nat) :
    ∃ c : Core, s.touchLine sid a = s.setCore (coreOf sid) c ∧ c.lastIssue = (s.core (coreOf sid)).lastIssue := by
  obtain ⟨c, hc, hlast⟩ := s.usePlb_eq sid a
  rw [State.touchLine, hc, State.onCore, State.setCore_setCore, State.core_setCore_self]
  refine ⟨_, rfl, ?_⟩
  split <;> exact hlast

/-- Taking the slot changes the strand's core alone, which keeps who issued last (01 R7). -/
theorem State.fetched_eq (s : State) (sid : Nat) :
    ∃ c : Core, s.fetched sid = s.setCore (coreOf sid) c ∧ c.lastIssue = sid % 4 := by
  have htouched := fun a => (s.setCore (coreOf sid) { s.core (coreOf sid) with lastIssue := sid % 4 }).touchLine_eq sid a
  simp only [State.setCore_setCore, State.core_setCore_self] at htouched
  simp only [State.fetched, State.onCore]
  split
  · exact htouched _
  · split
    · exact htouched _
    · exact ⟨_, rfl, rfl⟩

/-! ## The statement -/

/-- Settles O56: each clause is the lemma above about its part of the turn. -/
theorem stepRunsTheDecodedInstruction : Obligations.StepRunsTheDecodedInstruction := by
  unfold Obligations.StepRunsTheDecodedInstruction
  refine ⟨?turn, ?fetch, ?frame, ?slot, fun r sid => State.issueReady_iff, fun r sid w i => r.unitFree_iff sid, ?cached, ?taken,
    ?event, fun s => step_of_no_turns⟩
  case turn =>
    rintro s r sid rest hturn rfl
    rw [step_of_issue hturn]
    exact ⟨State.issueStrand_of_not_ready, fun hready =>
      ⟨fun hnext => ⟨fun p w i => State.issueStrand_of_run hready hnext, fun w => State.issueStrand_of_bad hready hnext,
        fun c v => State.issueStrand_of_trap hready hnext⟩,
      fun w => State.issueStrand_of_wait hready, State.issueStrand_of_passed hready⟩⟩
  case fetch =>
    exact fun r sid hframe => ⟨fun w i => State.nextWord_of_fetched hframe, fun w e => State.nextWord_of_rejected hframe,
      fun e => State.nextWord_of_stopped hframe⟩
  case frame =>
    rintro r sid f w i hframe hdecode (hword | ⟨hempty, hfetch, hpermitted⟩)
    · rw [State.nextWord_of_frame hframe hword, f.next_of_decode hdecode]
    · rw [State.nextWord_of_resumed hframe hempty hfetch hpermitted, f.next_of_decode hdecode]
  case slot =>
    rintro r cid d k h1 h4 rfl
    exact State.nextIssuer_eq_some_iff h1 h4
  case cached =>
    intro r sid a va pcc l hcap hplace hplb hline
    rw [State.fetchWord_of_cached hcap hplace hplb hline, l.word_eq_wordOfBytes]
  case taken =>
    intro s sid
    obtain ⟨c, hc, hlast⟩ := s.fetched_eq sid
    rw [hc]
    exact ⟨rfl, by rw [State.core_setCore_self, hlast], fun cid hne => s.core_setCore_ne hne c⟩
  case event =>
    rintro s r e a rest hturn rfl
    rw [step_of_event hturn]
    exact ⟨fun he => if_pos he, fun he => by rw [he]; rfl⟩

end Sys2Proof.Machine

/-! SUPPORT. LOAD (02 R38, R39, 21 R393, R394): the image of a capability with exact bounds, what each check of the object and of its
tables says, and what placing the object changes. -/

namespace Sys2Proof.Machine

open Sys2Proof Sys2Proof.Claims

/-! ## The image of a capability (04 R66, R68) -/

section
variable (p : BitVec 12) (ot e base top : Nat) (a : Word)

@[simp] theorem mkCap_tag : (mkCap p ot e base top a).tag = true := rfl

@[simp] theorem mkCap_low : (mkCap p ot e base top a).low = a := by
  rw [Reg.low_eq, mkCap, extract_append_low _ _ _ _ (Nat.le_refl 64), extract_all]

@[simp] theorem mkCap_cursor : (mkCap p ot e base top a).cursor = a.toNat := by
  rw [Reg.cursor, mkCap_low]

@[simp] theorem mkCap_otype : (mkCap p ot e base top a).otype = ot % 16 := by
  rw [Reg.otype, mkCap, extract_append_high _ _ _ _ (by decide), extract_append_high _ _ _ _ (by decide),
    extract_append_high _ _ _ _ (by decide), extract_append_high _ _ _ _ (by decide), extract_append_low _ _ _ _ (by decide),
    extract_all, BitVec.toNat_ofNat]

theorem mkCap_perm {k : Nat} (hk : k < 12) : (mkCap p ot e base top a).perm k = p.getLsbD k := by
  rw [Reg.perm_eq _ hk, mkCap, extract_append_high _ _ _ _ (by decide), extract_append_high _ _ _ _ (by decide),
    extract_append_high _ _ _ _ (by decide), extract_append_high _ _ _ _ (by decide), extract_append_high _ _ _ _ (by decide),
    extract_all]

/-- The bounds that an image is made with are those that `withBounds` would give it. -/
theorem mkCap_withBounds : (mkCap p ot e base top a).withBounds e base top = mkCap p ot e base top a := by
  rw [Reg.withBounds, mkCap_low, mkCap]
  congr 4
  rw [extract_append_high _ _ _ _ (by decide), extract_append_high _ _ _ _ (by decide), extract_append_high _ _ _ _ (by decide),
    extract_append_high _ _ _ _ (by decide), extract_all]

end

theorem exactBounds_iff {base top : Nat} : exactBounds base top = true ↔
    base ≤ top ∧ top ≤ 2 ^ 56 ∧ top - base ≤ (2 ^ 21 - 1) * 2 ^ expFor (top - base) ∧ base % 2 ^ expFor (top - base) = 0 ∧
      top % 2 ^ expFor (top - base) = 0 := by
  simp only [exactBounds, Bool.and_eq_true, decide_eq_true_eq, beq_iff_eq, and_assoc]

/-- 04 R69: a capability made with its cursor at the base of exactly representable bounds has those bounds. -/
theorem mkCap_bounds_of_exact {base top : Nat} (h : exactBounds base top = true) (p : BitVec 12) (ot : Nat) {c : Reg}
    (hc : c = mkCap p ot (expFor (top - base)) base top (BitVec.ofNat 64 base)) : c.cursor = base ∧ c.base = base ∧ c.top = top := by
  obtain ⟨hle, htop, hfits, hbase0, htop0⟩ := exactBounds_iff.mp h
  have hexp : expFor (top - base) ≤ 36 := (expFor_spec (by omega)).2.2
  have hcursor : c.cursor = base := by
    rw [hc, mkCap_cursor, BitVec.toNat_ofNat]
    exact Nat.mod_eq_of_lt (by omega)
  have hgrain : base = c.cursor / 2 ^ expFor (top - base) * 2 ^ expFor (top - base) := by
    rw [hcursor, Nat.div_mul_cancel (Nat.dvd_of_mod_eq_zero hbase0)]
  have hexact := c.withBounds_exact (by omega) hgrain (Nat.div_mul_cancel (Nat.dvd_of_mod_eq_zero htop0)) hle hfits
  rw [hc, mkCap_withBounds, ← hc] at hexact
  exact ⟨hcursor, hexact⟩

/-! ## The checks -/

/-- A chain of checks gives its last value only if each check passes. -/
theorem ite_eq_iff_of_ne {α : Type} {c : Prop} [Decidable c] {x y z : α} (h : x ≠ z) : (if c then x else y) = z ↔ ¬ c ∧ y = z := by
  by_cases hc : c
  · rw [if_pos hc]
    exact ⟨fun heq => absurd heq h, fun hand => absurd hc hand.1⟩
  · rw [if_neg hc]
    exact (and_iff_right hc).symm

theorem ite_error_eq_ok_iff {ε α : Type} {c : Prop} [Decidable c] {e : ε} {x : Except ε α} {y : α} :
    (if c then .error e else x) = .ok y ↔ ¬ c ∧ x = .ok y := ite_eq_iff_of_ne nofun

theorem mappedPage_iff {p : Nat} : mappedPage p = true ↔ p < 0x7E0000000000 ∨ 0x800000000000 ≤ p ∧ p < 2 ^ 56 := by
  simp only [mappedPage, Bool.or_eq_true, Bool.and_eq_true, decide_eq_true_eq]

section
variable {s : State} {sender : Nat} {body : List Byte} {o : Lemeb}

theorem State.loadStop_of_no_domain (h : fieldAt body 0 1 = 0) : s.loadStop sender body o = some (1, 0) := if_pos h

theorem State.loadStop_of_no_authority (h : fieldAt body 0 1 ≠ 0) (ha : s.hasAuthority sender (fieldAt body 0 1) = false) :
    s.loadStop sender body o = some (3, 0) := by
  rw [State.loadStop, if_neg h, ha]
  rfl

/-- 21 R394: an object that nothing is wrong with before its tables are read. -/
theorem State.loadStop_none (h : s.loadStop sender body o = none) :
    fieldAt body 0 1 ≠ 0 ∧ s.hasAuthority sender (fieldAt body 0 1) = true ∧ fieldAt body 16 4 = 0x4C4D4F42 ∧
      fieldAt body 20 2 = 1 ∧ o.textva % 65536 = 0 ∧ o.datava % 65536 = 0 ∧ o.total ≤ body.length ∧
      o.scratch.length + 4096 ≤ 0x60000 ∧ (o.text ≠ [] → exactBounds o.textva (o.textva + o.text.length) = true) ∧
      ∀ p ∈ sectionPages o.textva o.text.length ++ sectionPages o.datava o.data.length,
        (p < 0x7E0000000000 ∨ 0x800000000000 ≤ p ∧ p < 2 ^ 56) ∧ ∀ x ∈ s.bindery.objects, x.covers p = false := by
  simp only [State.loadStop, ite_eq_iff_of_ne (Option.some_ne_none _), Bool.not_eq_true', Bool.not_eq_false, ne_eq,
    Decidable.not_not, and_true, Nat.not_lt] at h
  obtain ⟨hdom, hauth, hmagic, hversion, htext, hdata, htotal, hscratch, hpages, hexact⟩ := h
  refine ⟨hdom, hauth, hmagic, hversion, htext, hdata, htotal, by omega, fun hne => ?_, fun p hp => ?_⟩
  · exact Bool.of_not_eq_false fun hfalse => hexact ⟨hne, hfalse⟩
  · rw [Bool.not_eq_true, Bool.or_eq_false_iff, List.any_eq_false] at hpages
    rw [← mappedPage_iff]
    simpa only [Bool.or_eq_true, not_or, Bool.not_eq_true', Bool.not_eq_false, Bool.not_eq_true, List.any_eq_false] using
      hpages.1 p hp

end

/-! ## The tables (02 R38, R39) -/

/-- 02 R38, 14 R263: what the checks of an entry of the capability table leave. -/
theorem loadCap_ok {o : Lemeb} {mask : Nat} {body : List Byte} {at_ sec image base len : Nat} {c : Reg}
    (h : State.loadCap o mask body at_ = .ok (sec, image, c)) (hlen : len = fieldAt body (at_ + 24) 8)
    (hbase : base = (if fieldAt body (at_ + 1) 1 = 1 then o.datava else
      0x7F0000000000 + fieldAt body (at_ + 2) 1 * 0x400000) + fieldAt body (at_ + 16) 8) :
    (sec = 1 ∧ image + 16 ≤ o.data.length ∨ sec = 2 ∧ image + 16 ≤ o.scratch.length) ∧ image % 16 = 0 ∧
      (fieldAt body (at_ + 1) 1 = 2 → rawTop (fieldAt body (at_ + 2) 1) (fieldAt body (at_ + 16) 8 + len) ≤ 0x60000 - 4096) ∧
      BitVec.ofNat 12 (fieldAt body (at_ + 4) 2) &&& ~~~(BitVec.ofNat 12 mask) = 0 ∧
      (BitVec.ofNat 12 (fieldAt body (at_ + 4) 2)).getLsbD permSYS = false ∧ exactBounds base (base + len) = true ∧
      c = mkCap (BitVec.ofNat 12 (fieldAt body (at_ + 4) 2)) 0 (expFor (base + len - base)) base (base + len)
        (BitVec.ofNat 64 base) := by
  have hplace : base = if fieldAt body (at_ + 1) 1 = 1 then o.datava + fieldAt body (at_ + 16) 8 else
      0x7F0000000000 + fieldAt body (at_ + 2) 1 * 0x400000 + fieldAt body (at_ + 16) 8 := by
    rw [hbase]; split <;> rfl
  simp only [State.loadCap, ite_error_eq_ok_iff, ← hplace, ← hlen, Nat.add_zero] at h
  obtain ⟨hsec, -, -, hperms, hroom, hraw, hexact, hok⟩ := h
  cases hok
  rw [not_or, Decidable.not_not, Nat.not_lt] at hroom
  rw [not_or, Decidable.not_not, Bool.not_eq_true] at hperms
  rw [Bool.not_eq_true', Bool.not_eq_false] at hexact
  obtain ⟨halign, hroom⟩ := hroom
  refine ⟨?_, halign, fun hscratch => Nat.le_of_not_lt fun hover => hraw ⟨hscratch, hover⟩, hperms.1, hperms.2, hexact,
    by rw [Nat.add_sub_cancel_left]⟩
  by_cases hone : fieldAt body at_ 1 = 1
  · rw [if_pos hone] at hroom
    exact .inl ⟨hone, hroom⟩
  · rw [if_neg hone] at hroom
    exact .inr ⟨by omega, hroom⟩

/-- Permissions within a mask are bits of it. -/
theorem testBit_of_and_not_eq_zero {n m k : Nat} (h : BitVec.ofNat 12 n &&& ~~~(BitVec.ofNat 12 m) = 0) (hk : k < 12)
    (hn : n.testBit k = true) : m.testBit k = true := by
  have hbit : (BitVec.ofNat 12 n &&& ~~~(BitVec.ofNat 12 m)).getLsbD k = false := by
    rw [h]
    exact BitVec.getLsbD_zero
  simp only [BitVec.getLsbD_and, BitVec.getLsbD_not, BitVec.getLsbD_ofNat, hk, hn, decide_true, Bool.true_and, Bool.not_eq_false'] at hbit
  exact hbit

/-- 02 R39: what the checks of an entry of the codelet table leave. -/
theorem loadRecord_ok {o : Lemeb} {body : List Byte} {at_ sec rec_ : Nat} {c : Reg}
    (h : loadRecord o body at_ = .ok (sec, rec_, c)) :
    sec = 2 ∧ rec_ = fieldAt body at_ 8 ∧ rec_ % 64 = 0 ∧ rec_ + 64 ≤ o.scratch.length ∧
      fieldAt body (at_ + 8) 8 < o.text.length ∧ c = codeCap o.textva o.text.length (o.textva + fieldAt body (at_ + 8) 8) := by
  simp only [loadRecord, ite_error_eq_ok_iff, not_or, ne_eq, Decidable.not_not, Nat.not_lt, Nat.not_le] at h
  obtain ⟨⟨halign, hroom⟩, hentry, hok⟩ := h
  cases hok
  exact ⟨rfl, rfl, halign, hroom, hentry, rfl⟩

/-! ## What placing the object changes -/

/-- A map with one function applied to every value, where it leaves the default. -/
theorem mapGet_map {α : Type} {d : α} {f : α → α} (hd : f d = d) (k : Nat) (m : Map α) :
    mapGet d k (m.map fun c => (c.1, f c.2)) = f (mapGet d k m) := by
  induction m with
  | nil => exact hd.symm
  | cons c m ih =>
    obtain ⟨j, x⟩ := c
    rw [List.map_cons, mapGet, mapGet]
    split
    · rfl
    · exact ih

/-- 05 R89: every core keeps all but its cached lines. -/
theorem State.core_dropCode (s : State) (cid : Nat) : s.dropCode.core cid = { s.core cid with icache := [] } :=
  mapGet_map (f := fun c : Core => { c with icache := [] }) rfl cid s.cores

/-- `t` differs from `s` only in memory and tags. -/
def MemoryOnly (s t : State) : Prop := ∃ mem tags, t = { s with mem := mem, tags := tags }

theorem MemoryOnly.refl (s : State) : MemoryOnly s s := ⟨s.mem, s.tags, rfl⟩

theorem MemoryOnly.trans {a b c : State} (h : MemoryOnly a b) (g : MemoryOnly b c) : MemoryOnly a c := by
  obtain ⟨_, _, rfl⟩ := h
  obtain ⟨mem, tags, rfl⟩ := g
  exact ⟨mem, tags, rfl⟩

theorem MemoryOnly.core {s t : State} (h : MemoryOnly s t) (cid : Nat) : t.core cid = s.core cid := by
  obtain ⟨_, _, rfl⟩ := h
  rfl

theorem MemoryOnly.bindery {s t : State} (h : MemoryOnly s t) : t.bindery = s.bindery := by
  obtain ⟨_, _, rfl⟩ := h
  rfl

theorem State.placeCaps_memoryOnly (s : State) (datava : Nat) (caps : List (Nat × Nat × Reg)) :
    MemoryOnly s (s.placeCaps datava caps) := by
  refine forAll_rel MemoryOnly MemoryOnly.refl MemoryOnly.trans _ (fun s x => ?_) _ s
  split
  · exact ⟨_, _, rfl⟩
  · exact .refl s

/-! ## The event -/

theorem execLoad_of_not_served {s : State} (h : s.serves 1 = false) : execLoad s = .next s := by
  rw [execLoad, if_pos (by rw [h]; rfl)]

theorem execLoad_of_stop {s : State} {sender id status off : Nat} (h : Serves s 1 sender id)
    (hstop : s.loadStop sender s.body (lemebOf s.body) = some (status, off)) :
    execLoad s = .next (s.reply sender id status off []) := by
  obtain ⟨hserves, rfl, rfl⟩ := h
  simp only [execLoad, hserves, hstop, Bool.not_true, Bool.false_eq_true, if_false]

/-- The capability table of the LOAD at hand, read under the mask of its domain. -/
def State.loadCaps (s : State) : Except Nat (List (Nat × Nat × Reg)) :=
  readTable (State.loadCap (lemebOf s.body) (((s.domain (fieldAt s.body 0 1)).map Domain.caps).getD 0) s.body) 32
    (lemebOf s.body).capAt (lemebOf s.body).ncap

/-- The codelet table of the LOAD at hand. -/
def State.loadRecords (s : State) : Except Nat (List (Nat × Nat × Reg)) :=
  readTable (loadRecord (lemebOf s.body) s.body) 16 (lemebOf s.body).codAt (lemebOf s.body).ncod

/-- The object of a LOAD placed: its capabilities in memory, the code it may have replaced dropped, and its handle given out. -/
def State.placeObject (v : State) (o : Lemeb) (handle dom : Nat) (caps recs : List (Nat × Nat × Reg)) : State :=
  (v.placeCaps o.datava caps).dropCode.onBindery fun b =>
    { b with objects := b.objects ++ [o.object handle dom caps recs], nextHandle := handle + 1 }

section
variable {s : State} {sender id : Nat} (h : Serves s 1 sender id)
  (hstop : s.loadStop sender s.body (lemebOf s.body) = none)
include h hstop

theorem execLoad_of_capError {off : Nat} (hcaps : s.loadCaps = .error off) :
    execLoad s = .next (s.reply sender id 1 off []) := by
  obtain ⟨hserves, rfl, rfl⟩ := h
  rw [State.loadCaps] at hcaps
  simp only [execLoad, hserves, hstop, hcaps, Bool.not_true, Bool.false_eq_true, if_false]

theorem execLoad_of_recordError {caps : List (Nat × Nat × Reg)} {off : Nat} (hcaps : s.loadCaps = .ok caps)
    (hrecs : s.loadRecords = .error off) : execLoad s = .next (s.reply sender id 1 off []) := by
  obtain ⟨hserves, rfl, rfl⟩ := h
  rw [State.loadCaps] at hcaps
  rw [State.loadRecords] at hrecs
  simp only [execLoad, hserves, hstop, hcaps, hrecs, Bool.not_true, Bool.false_eq_true, if_false]

theorem execLoad_of_placed {caps recs : List (Nat × Nat × Reg)} {u v : State} {f g : List Nat} {o : Lemeb}
    (ho : o = lemebOf s.body) (hcaps : s.loadCaps = .ok caps) (hrecs : s.loadRecords = .ok recs)
    (htext : s.placePages false (sectionPages o.textva o.text.length) o.text (s.arg.n.drop 2) = some (some (u, f)))
    (hdata : u.placePages true (sectionPages o.datava o.data.length) o.data f = some (some (v, g))) :
    execLoad s = .next ((v.placeObject o s.bindery.nextHandle (fieldAt s.body 0 1) caps recs).reply sender id 0 0
      (bytesOfNat 8 s.bindery.nextHandle)) := by
  obtain ⟨hserves, rfl, rfl⟩ := h
  subst ho
  rw [State.loadCaps] at hcaps
  rw [State.loadRecords] at hrecs
  rw [execLoad]
  -- As an opaque name: the kernel, when it compares the branches, would compute with the pages.
  obtain ⟨place, hplace⟩ : ∃ place, State.placePages = place := ⟨_, rfl⟩
  rw [hplace] at htext hdata ⊢
  simp only [hserves, hstop, hcaps, hrecs, htext, hdata, Bool.not_true, Bool.false_eq_true, if_false]
  rfl

end

section
variable (v : State) (o : Lemeb) (handle dom : Nat) (caps recs : List (Nat × Nat × Reg))

theorem State.placeObject_bindery : (v.placeObject o handle dom caps recs).bindery =
    { v.bindery with objects := v.bindery.objects ++ [o.object handle dom caps recs], nextHandle := handle + 1 } := by
  rw [← (v.placeCaps_memoryOnly o.datava caps).bindery]
  rfl

theorem State.placeObject_core (cid : Nat) : (v.placeObject o handle dom caps recs).core cid = { v.core cid with icache := [] } := by
  rw [← (v.placeCaps_memoryOnly o.datava caps).core]
  exact (v.placeCaps o.datava caps).core_dropCode cid

end

/-! ## The statement -/

/-- Settles O45: the event by its equations for each outcome, the tables by what their checks leave. -/
theorem loadPlacesTheObject : Obligations.LoadPlacesTheObject := by
  unfold Obligations.LoadPlacesTheObject
  refine ⟨fun s => execLoad_of_not_served, ?event, ?capability, ?record⟩
  case event =>
    rintro s sender id o dom hserves rfl rfl
    refine ⟨fun status off hstop => ⟨_, execLoad_of_stop hserves hstop, rfl⟩, State.loadStop_of_no_domain,
      State.loadStop_of_no_authority, fun hstop => ⟨State.loadStop_none hstop, ?_, ?_⟩⟩
    · rintro off (hcaps | ⟨⟨caps, hcaps⟩, hrecs⟩)
      · exact ⟨_, execLoad_of_capError hserves hstop hcaps, rfl⟩
      · exact ⟨_, execLoad_of_recordError hserves hstop hcaps hrecs, rfl⟩
    · intro caps recs u v f g hcaps hrecs htext hdata
      have hbindery := v.placeObject_bindery (lemebOf s.body) s.bindery.nextHandle (fieldAt s.body 0 1) caps recs
      have hcore := v.placeObject_core (lemebOf s.body) s.bindery.nextHandle (fieldAt s.body 0 1) caps recs
      refine ⟨_, execLoad_of_placed hserves hstop rfl hcaps hrecs htext hdata, rfl, rfl, fun cid => ?_, ?_, ?_, ?_⟩
      · rw [State.reply, State.out, State.core_onBindery, hcore]
        exact ⟨rfl, rfl⟩
      all_goals rw [State.reply, State.out, State.onBindery, hbindery]
  case capability =>
    intro o mask body at_ sec image base len c hread hlen hbase
    obtain ⟨hsec, halign, hraw, hmask, hsys, hexact, hc⟩ := loadCap_ok hread hlen hbase
    obtain ⟨hcursor, hcbase, hctop⟩ := mkCap_bounds_of_exact hexact _ _ hc
    have hperm (k : Nat) (hk : k < 12) : c.perm k = (fieldAt body (at_ + 4) 2).testBit k := by
      rw [hc, mkCap_perm _ _ _ _ _ _ hk, BitVec.getLsbD_ofNat, decide_eq_true hk, Bool.true_and]
    refine ⟨hsec, halign, by rw [hc, mkCap_tag], by rw [hc, mkCap_otype], hcursor, hcbase, hctop, ?_, hraw, fun k hk =>
      ⟨hperm k hk, fun hck => testBit_of_and_not_eq_zero hmask hk (hperm k hk ▸ hck)⟩⟩
    rwa [hc, mkCap_perm _ _ _ _ _ _ (by decide)]
  case record => exact fun _ _ _ _ _ _ => loadRecord_ok

end Sys2Proof.Machine

/-! SUPPORT. The encoder and the decoder are inverse to each other (03 R47 to R51, R54): the word of a well-formed instruction is read
back, and a word that decodes is the word of the instruction that it decodes to. -/

namespace Sys2Proof.Laws.F

/-- The lemmas of the family F, in the order of the constructors of `Instr`, speak of every instruction. -/
theorem statement (i : Instr) : Statement i :=
  Instr.rec (motive := Statement)
    add sub mul mulh mulhz div divz rem remz and or xor andn shl shr sha rol min max minz maxz clz ctz popc mov sel addI andI orI
    xorI shlI shrI shaI rolI li lis setEq setNe setLt setGe setLo setHs cincr cset cbnd cbndr cperm cseal cunseal cbase clen
    cperms ctag cclr ceq csub cincrI bEq bNe bLt bGe bLo bHs jmp call jr callr rptConst rptReg ldB ldBz ldH ldHz ldW ldWz ldD ldQ
    stB stH stW stD stQ stc vld vst vldS vstS vldX vstX vldB vldH vstH vldHs vstHs vldHx vstHx pref cln inv fence trap idle
    ctxSave ctxLoad gquit gkill gpre csrr csrw csrx sfqRd plbInv mapInv amoAdd amoAnd amoOr amoXor amoMin amoMax amoMinz amoMaxz
    amoSwap amoCas amoFaddW amoTopkD bnCnt bnAnti bnSpread bnArr bnWait bnCfg bnClr bnRd vadd vsub vmul vfma vfms vfnma vmin vmax
    vabs vneg vcmpEq vcmpLt vcmpLe vcmpUn vrcpE vrsqE vgexp vscl vrnd vsel vredsum vredmax vredmin vaddI vsubI vmulI vand vor
    vxor vshl vshr vsha vminI vmaxI vcmpIeq vcmpIlt vcmpIlo vredaddI vperm vbc vaddS vmulS vfmaS vslup vsldn vidx vext vins mpopc
    mfirst vcvtI2f vcvtF2i vcvtF2bf vcvtBf2f vcvtF2h vcvtH2f mmaT8 mmaT6 mmaI8 mmaBf mmaH mzero mld mst mwaitSus mwaitRes cdec
    cpush carm csteal cpT cpB cpG cpWait cpSt sbInit sbArr sbExp sbTest sbWait sbBrk get put getW putW mig ramoAdd ramoAnd ramoOr
    ramoXor ramoMin ramoMax ramoMinz ramoMaxz ramoSwap ramoCas clkRd stStamp ldAsof clkWt stpRd tryEach cutto cpmark tsteal nop
    cdone drainst cend sret ebrk sfqPop mwait gwait fail cut chunkCommit chunkLimit lineLimit pairMismatch resultReturn
    icacheFill trapEntry machineCheck translationLookup plbFill pgfltAnswer l1Fill siblingAccess amoExecute vectorDispatch
    matrixBlock accTransfer balancer counterCell barrierTree releaseMulticast dieQueueSpill dieQueueClaim cdecApply dequePush
    carmApply findWork cstealTake copyAccept copyComplete barrierBytes copyFault saveTransfer gangResume quitMark remotePerform
    remoteComplete remoteTimeout migration dieFence portLoss stampVersion stampRelease versionApply horizonCollect horizonUpdate
    horizonExchange stampedRead clockDiscipline clockWaitExpiry idleTimeout ebrkRelease gangTimeout gangEnd load mapPage
    unmapPage setRegion removeRegion setDomain setSender registerPeer launch launchDequeue queryGangs queryFeatures querySensors
    queryLog queryIdentity queryGang kill prepare ready go abort late launchDeadline chipStart powerGood thermalAlarm
    powerRemoval firmwareUpdate adminListWrite cpstkWrite trailWrite tpcWrite fflagsAccess csrWrite unassignedWord chipLoss
    lossOfDiscipline conditionClears messageDropped
    i

end Sys2Proof.Laws.F

namespace Sys2Proof

/-! ## Fields put together again -/

theorem ofBool_getElem {n i : Nat} (w : BitVec n) (h : i < n) : BitVec.ofBool w[i] = w.extractLsb' i 1 := by
  refine BitVec.eq_of_getLsbD_eq fun j hj => ?_
  obtain rfl : j = 0 := by omega
  simp [h]

/-- Two adjacent fields are one field. The library's lemma, with the width of the whole left open to `simp`. -/
theorem append_adjacent {n a b i j : Nat} (w : BitVec n) (h : i = j + b) :
    (HAppend.hAppend (γ := no_index (BitVec (a + b))) (w.extractLsb' i a) (w.extractLsb' j b)) = w.extractLsb' j (a + b) :=
  BitVec.extractLsb'_append_extractLsb'_eq_extractLsb' h

theorem toNat_eq_iff {n k : Nat} {x : BitVec n} : x.toNat = k ↔ x = BitVec.ofNat n k ∧ k < 2 ^ n := by
  constructor
  · rintro rfl
    exact ⟨by simp, x.isLt⟩
  · rintro ⟨rfl, h⟩
    simpa using Nat.mod_eq_of_lt h

theorem wordOfBytes_extractLsb' (w : BitVec 32) :
    wordOfBytes (w.extractLsb' 0 8) (w.extractLsb' 8 8) (w.extractLsb' 16 8) (w.extractLsb' 24 8) = w := by
  simp [wordOfBytes, append_adjacent]

/-! ## The word of an instruction is read back -/

theorem decodeBytes_of_decode {w : BitVec 32} {i : Instr} (h : decode w = .ok i) (rest : List Byte) :
    decodeBytes (bytesOfWord w ++ rest) = .ok (i, rest) := by
  simp [bytesOfWord, decodeBytes, wordOfBytes_extractLsb', h]

/-- Settles O52: the family F says it of each constructor, and the bytes of a word are that word. -/
theorem encodedInstructionsDecode : Obligations.EncodedInstructionsDecode := by
  unfold Obligations.EncodedInstructionsDecode
  intro i p w hi hw
  obtain ⟨hd, hp⟩ := Laws.F.statement i p w hi hw
  exact ⟨hd, hp, decodeBytes_of_decode hd⟩

/-! ## The word of the fields that a word holds (03 R48) -/

theorem wordFA3_readFA3 (w : BitVec 32) : wordFA3 (parkBit w) (majorOf w) (readFA3 w) = w := by
  simp [wordFA3, readFA3, parkBit, majorOf, ofBool_getElem, append_adjacent]

theorem wordFAI_readFAI (w : BitVec 32) : wordFAI (parkBit w) (majorOf w) (readFAI w) = w := by
  simp [wordFAI, readFAI, parkBit, majorOf, ofBool_getElem, append_adjacent]

theorem wordFAL_readFAL (w : BitVec 32) : wordFAL (parkBit w) (majorOf w) (readFAL w) = w := by
  simp [wordFAL, readFAL, parkBit, majorOf, ofBool_getElem, append_adjacent]

theorem wordFBR_readFBR (w : BitVec 32) : wordFBR (parkBit w) (majorOf w) (readFBR w) = w := by
  simp [wordFBR, readFBR, parkBit, majorOf, ofBool_getElem, append_adjacent]

theorem wordFJL_readFJL (w : BitVec 32) : wordFJL (parkBit w) (majorOf w) (readFJL w) = w := by
  simp [wordFJL, readFJL, parkBit, majorOf, ofBool_getElem, append_adjacent]

theorem wordFRP_readFRP (w : BitVec 32) : wordFRP (parkBit w) (majorOf w) (readFRP w) = w := by
  simp [wordFRP, readFRP, parkBit, majorOf, ofBool_getElem, append_adjacent]

theorem wordFMM_readFMM (w : BitVec 32) : wordFMM (parkBit w) (majorOf w) (readFMM w) = w := by
  simp [wordFMM, readFMM, parkBit, majorOf, ofBool_getElem, append_adjacent]

theorem wordFVM_readFVM (w : BitVec 32) : wordFVM (parkBit w) (majorOf w) (readFVM w) = w := by
  simp [wordFVM, readFVM, parkBit, majorOf, ofBool_getElem, append_adjacent]

theorem wordFXE_readFXE (w : BitVec 32) : wordFXE (parkBit w) (majorOf w) (readFXE w) = w := by
  simp [wordFXE, readFXE, parkBit, majorOf, ofBool_getElem, append_adjacent]

theorem wordFV3_readFV3 (w : BitVec 32) : wordFV3 (parkBit w) (majorOf w) (readFV3 w) = w := by
  simp [wordFV3, readFV3, parkBit, majorOf, ofBool_getElem, append_adjacent]

theorem wordFVG_readFVG (w : BitVec 32) : wordFVG (parkBit w) (majorOf w) (readFVG w) = w := by
  simp [wordFVG, readFVG, parkBit, majorOf, ofBool_getElem, append_adjacent]

theorem wordFVX_readFVX (w : BitVec 32) : wordFVX (parkBit w) (majorOf w) (readFVX w) = w := by
  simp [wordFVX, readFVX, parkBit, majorOf, ofBool_getElem, append_adjacent]

theorem wordFMX_readFMX (w : BitVec 32) : wordFMX (parkBit w) (majorOf w) (readFMX w) = w := by
  simp [wordFMX, readFMX, parkBit, majorOf, ofBool_getElem, append_adjacent]

/-! ## Fields inside fields, where what 03 R48, R49 and R54 reserve is zero -/

theorem append_shiftImm {x : BitVec 13} {k : BitVec 2} (hk : x.extractLsb' 11 2 = k) (hz : x.extractLsb' 6 5 = 0) :
    (k ++ (0 : BitVec 5) ++ x.extractLsb' 0 6 : BitVec 13) = x := by
  rw [← hk, ← hz]
  simp [append_adjacent]

theorem append_countImm {x : BitVec 14} (hz : x.extractLsb' 0 8 = 0) : (x.extractLsb' 8 6 ++ (0 : BitVec 8) : BitVec 14) = x := by
  rw [← hz]
  simp [append_adjacent]

theorem append_fenceOff {x : BitVec 10} (hz : x.extractLsb' 4 6 = 0) :
    ((0 : BitVec 6) ++ BitVec.ofBool (x.getLsbD 3) ++ x.extractLsb' 0 3 : BitVec 10) = x := by
  rw [← hz]
  simp [ofBool_getElem, append_adjacent]

theorem append_atomicFn {x : BitVec 7} {k : BitVec 6} (hk : x.extractLsb' 0 6 = k) :
    (BitVec.ofBool (x.getLsbD 6) ++ k : BitVec 7) = x := by
  rw [← hk]
  simp [ofBool_getElem, append_adjacent]

theorem append_csrImm {x : BitVec 13} (h : x.getLsbD 12 = false) : ((0 : BitVec 1) ++ x.extractLsb' 0 12 : BitVec 13) = x := by
  rw [show (0 : BitVec 1) = BitVec.ofBool (x.getLsbD 12) by rw [h]; rfl]
  simp [ofBool_getElem, append_adjacent]

theorem append_indexField {x : BitVec 6} (h : x.getLsbD 5 = false) : ((0 : BitVec 1) ++ x.extractLsb' 0 5 : BitVec 6) = x := by
  rw [show (0 : BitVec 1) = BitVec.ofBool (x.getLsbD 5) by rw [h]; rfl]
  simp [ofBool_getElem, append_adjacent]

@[simp] theorem maskFieldsOk_eq_maskOk (vm : BitVec 3) (z m : Bool) : Instr.maskFieldsOk vm z m = maskOk vm z m := rfl

/-! ## What a part of the decoder answers -/

/-- Whatever `d` answers is a well-formed instruction whose word, with the marker `p`, is `w`. -/
def Writes (p : Bool) (w : BitVec 32) (d : Except Reject Instr) : Prop :=
  ∀ i, d = .ok i → i.wellFormed = true ∧ encode p i = some w

@[simp] theorem writes_error {p : Bool} {w : BitVec 32} {e : Reject} : Writes p w (.error e) := by simp [Writes]

@[simp] theorem writes_ok {p : Bool} {w : BitVec 32} {i : Instr} :
    Writes p w (.ok i) ↔ i.wellFormed = true ∧ encode p i = some w := by simp [Writes]

@[simp] theorem writes_whenZero {p c : Bool} {w : BitVec 32} {i : Instr} :
    Writes p w (whenZero c i) ↔ (c = true → i.wellFormed = true ∧ encode p i = some w) := by
  cases c <;> simp [whenZero]

/-- A word whose fields `f` its major opcode reads is written by the part of the decoder that writes those fields. -/
theorem writes_of_major {w : BitVec 32} {F : Type} {word : Bool → BitVec 6 → F → BitVec 32} {f : F} {k : Nat}
    {d : Except Reject Instr} (hw : word (parkBit w) (majorOf w) f = w) (hk : (majorOf w).toNat = k)
    (h : Writes (parkBit w) (word (parkBit w) (BitVec.ofNat 6 k) f) d) : Writes (parkBit w) w d := by
  rwa [← (toNat_eq_iff.mp hk).1, hw] at h

-- The lemmas of the majors all rewrite with the equations of `encode`: one after another, they keep the number of threads small.
set_option Elab.async false

/-! ## The part of each major opcode (03 R54)

Each function code, kind, mode or condition is a case: it is the code that the encoder writes for the instruction of that case, and
the fields that the check of the case leaves are those that the encoder writes. -/

theorem writes_decodeInteger (p : Bool) (f : FA3) : Writes p (wordFA3 p 1 f) (decodeInteger f) := by
  cases f
  simp only [decodeInteger]
  split <;> simp_all [encode, Instr.wellFormed, toNat_eq_iff]

theorem writes_decodeAddI (p : Bool) (f : FAI) : Writes p (wordFAI p 2 f) (decodeAddI f) := by
  simp [decodeAddI, encode, Instr.wellFormed]

theorem writes_decodeAndI (p : Bool) (f : FAI) : Writes p (wordFAI p 3 f) (decodeAndI f) := by
  simp [decodeAndI, encode, Instr.wellFormed]

theorem writes_decodeOrI (p : Bool) (f : FAI) : Writes p (wordFAI p 4 f) (decodeOrI f) := by
  simp [decodeOrI, encode, Instr.wellFormed]

theorem writes_decodeXorI (p : Bool) (f : FAI) : Writes p (wordFAI p 5 f) (decodeXorI f) := by
  simp [decodeXorI, encode, Instr.wellFormed]

/-- The last of the four shifts has no case of its own. -/
theorem eq_three {k : BitVec 2} (h0 : k.toNat ≠ 0) (h1 : k.toNat ≠ 1) (h2 : k.toNat ≠ 2) : k = 3 :=
  BitVec.eq_of_toNat_eq (by have := k.isLt; simp; omega)

theorem writes_decodeShiftI (p : Bool) (f : FAI) : Writes p (wordFAI p 6 f) (decodeShiftI f) := by
  obtain ⟨gd, ga, imm13⟩ := f
  have himm := @append_shiftImm imm13
  simp only [decodeShiftI]
  generalize imm13.extractLsb' 11 2 = k at *
  split
  case h_4 h0 h1 h2 =>
    obtain rfl := eq_three h0 h1 h2
    simp_all [encode, Instr.wellFormed]
  all_goals simp_all [encode, Instr.wellFormed, toNat_eq_iff]

theorem writes_decodeLi (p : Bool) (f : FAL) : Writes p (wordFAL p 7 f) (decodeLi f) := by
  simp [decodeLi, encode, Instr.wellFormed]

theorem writes_decodeLis (p : Bool) (f : FAL) : Writes p (wordFAL p 8 f) (decodeLis f) := by
  simp [decodeLis, encode, Instr.wellFormed]

theorem writes_decodeSet (p : Bool) (f : FA3) : Writes p (wordFA3 p 9 f) (decodeSet f) := by
  cases f
  simp only [decodeSet]
  split <;> simp_all [encode, Instr.wellFormed, toNat_eq_iff]

theorem writes_decodeCap (p : Bool) (f : FA3) : Writes p (wordFA3 p 10 f) (decodeCap f) := by
  cases f
  simp only [decodeCap]
  split <;> simp_all [encode, Instr.wellFormed, toNat_eq_iff]

theorem writes_decodeCincrI (p : Bool) (f : FAI) : Writes p (wordFAI p 11 f) (decodeCincrI f) := by
  simp [decodeCincrI, encode, Instr.wellFormed]

theorem writes_decodeBranch (p : Bool) (f : FBR) : Writes p (wordFBR p 12 f) (decodeBranch f) := by
  cases f
  simp only [decodeBranch]
  split <;> simp_all [encode, Instr.wellFormed, toNat_eq_iff]

theorem writes_decodeJmp (p : Bool) (f : FJL) : Writes p (wordFJL p 13 f) (decodeJmp f) := by
  simp [decodeJmp, encode, Instr.wellFormed]

theorem writes_decodeCall (p : Bool) (f : FJL) : Writes p (wordFJL p 14 f) (decodeCall f) := by
  simp [decodeCall, encode, Instr.wellFormed]

theorem writes_decodeJump (p : Bool) (f : FA3) : Writes p (wordFA3 p 15 f) (decodeJump f) := by
  cases f
  simp only [decodeJump]
  split <;> simp_all [encode, Instr.wellFormed, toNat_eq_iff]

theorem writes_decodeRpt (p : Bool) (f : FRP) : Writes p (wordFRP p 16 f) (decodeRpt f) := by
  obtain ⟨len1, dstep, astep, bstep, form, count1⟩ := f
  have hcount := @append_countImm count1
  simp only [decodeRpt]
  split <;> simp_all [encode, Instr.wellFormed]

theorem writes_decodeNopCdone (p : Bool) (f : FA3) : Writes p (wordFA3 p 17 f) (decodeNopCdone f) := by
  cases f
  simp only [decodeNopCdone]
  split <;> simp_all [encode, Instr.wellFormed, toNat_eq_iff]

theorem writes_decodeLoad (p : Bool) (f : FMM) : Writes p (wordFMM p 18 f) (decodeLoad f) := by
  cases f
  simp only [decodeLoad]
  split <;> simp_all [encode, Instr.wellFormed, toNat_eq_iff]

theorem writes_decodeStore (p : Bool) (f : FMM) : Writes p (wordFMM p 19 f) (decodeStore f) := by
  cases f
  simp only [decodeStore]
  split <;> simp_all [encode, Instr.wellFormed, toNat_eq_iff]

theorem writes_decodeVecMem (p : Bool) (f : FVM) : Writes p (wordFVM p 20 f) (decodeVecMem f) := by
  obtain ⟨v, ga, gb, vm, z, m, mode⟩ := f
  have hgb := @append_indexField gb
  simp only [decodeVecMem]
  split <;> simp_all [encode, Instr.wellFormed, toNat_eq_iff]

theorem writes_decodeVecMemH (p : Bool) (f : FVM) : Writes p (wordFVM p 21 f) (decodeVecMemH f) := by
  obtain ⟨v, ga, gb, vm, z, m, mode⟩ := f
  have hgb := @append_indexField gb
  simp only [decodeVecMemH]
  split <;> simp_all [encode, Instr.wellFormed, toNat_eq_iff]

theorem writes_decodeLine (p : Bool) (f : FMM) : Writes p (wordFMM p 22 f) (decodeLine f) := by
  obtain ⟨g, ga, kind, off10⟩ := f
  have hoff := @append_fenceOff off10
  simp only [decodeLine]
  split
  case h_5 => split <;> simp_all [encode, Instr.wellFormed, toNat_eq_iff]
  all_goals simp_all [encode, Instr.wellFormed, toNat_eq_iff]

theorem writes_decodeSystem (p : Bool) (f : FXE) : Writes p (wordFXE p 23 f) (decodeSystem f) := by
  cases f
  simp only [decodeSystem]
  split <;> simp_all [encode, Instr.wellFormed, toNat_eq_iff]

theorem writes_decodeCsrr (p : Bool) (f : FAI) : Writes p (wordFAI p 24 f) (decodeCsrr f) := by
  obtain ⟨gd, ga, imm13⟩ := f
  have himm := @append_csrImm imm13
  simp_all [decodeCsrr, encode, Instr.wellFormed]

theorem writes_decodeCsrw (p : Bool) (f : FAI) : Writes p (wordFAI p 25 f) (decodeCsrw f) := by
  obtain ⟨gd, ga, imm13⟩ := f
  have himm := @append_csrImm imm13
  simp_all [decodeCsrw, encode, Instr.wellFormed]

theorem writes_decodeCsrx (p : Bool) (f : FAI) : Writes p (wordFAI p 26 f) (decodeCsrx f) := by
  obtain ⟨gd, ga, imm13⟩ := f
  have himm := @append_csrImm imm13
  simp_all [decodeCsrx, encode, Instr.wellFormed]

theorem writes_decodeSfq (p : Bool) (f : FXE) : Writes p (wordFXE p 27 f) (decodeSfq f) := by
  cases f
  simp only [decodeSfq]
  split <;> simp_all [encode, Instr.wellFormed, toNat_eq_iff]

theorem writes_decodeAmo (p : Bool) (f : FA3) : Writes p (wordFA3 p 28 f) (decodeAmo f) := by
  obtain ⟨gd, ga, gb, fn⟩ := f
  have hfn := @append_atomicFn fn
  simp only [decodeAmo]
  generalize fn.extractLsb' 0 6 = k at *
  split
  case h_11 | h_12 => split <;> simp_all [encode, Instr.wellFormed, toNat_eq_iff]
  all_goals simp_all [encode, Instr.wellFormed, toNat_eq_iff]

theorem writes_decodeStitch (p : Bool) (f : FA3) : Writes p (wordFA3 p 29 f) (decodeStitch f) := by
  cases f
  simp only [decodeStitch]
  split <;> simp_all [encode, Instr.wellFormed, toNat_eq_iff]

theorem writes_decodeFp (p : Bool) (f : FV3) : Writes p (wordFV3 p 30 f) (decodeFp f) := by
  cases f
  simp only [decodeFp]
  split <;> simp_all [encode, Instr.wellFormed, toNat_eq_iff]

theorem writes_decodeVint (p : Bool) (f : FV3) : Writes p (wordFV3 p 31 f) (decodeVint f) := by
  cases f
  simp only [decodeVint]
  split <;> simp_all [encode, Instr.wellFormed, toNat_eq_iff]

theorem writes_decodeVecScalar (p : Bool) (f : FVG) : Writes p (wordFVG p 32 f) (decodeVecScalar f) := by
  cases f
  simp only [decodeVecScalar]
  split <;> simp_all [encode, Instr.wellFormed, toNat_eq_iff]

theorem writes_decodeElement (p : Bool) (f : FVX) : Writes p (wordFVX p 33 f) (decodeElement f) := by
  cases f
  simp only [decodeElement]
  split <;> simp_all [encode, Instr.wellFormed, toNat_eq_iff]

theorem writes_decodeConvert (p : Bool) (f : FV3) : Writes p (wordFV3 p 34 f) (decodeConvert f) := by
  cases f
  simp only [decodeConvert]
  split <;> simp_all [encode, Instr.wellFormed, toNat_eq_iff]

theorem writes_decodeMatrix (p : Bool) (f : FMX) : Writes p (wordFMX p 35 f) (decodeMatrix f) := by
  obtain ⟨acc, ga, gb, ge, fn⟩ := f
  simp only [decodeMatrix]
  split
  case h_9 => split <;> simp_all [encode, Instr.wellFormed, toNat_eq_iff]
  all_goals simp_all [encode, Instr.wellFormed, toNat_eq_iff]

theorem writes_decodeCodelet (p : Bool) (f : FXE) : Writes p (wordFXE p 36 f) (decodeCodelet f) := by
  cases f
  simp only [decodeCodelet]
  split <;> simp_all [encode, Instr.wellFormed, toNat_eq_iff]

theorem writes_decodeCopy (p : Bool) (f : FXE) : Writes p (wordFXE p 37 f) (decodeCopy f) := by
  cases f
  simp only [decodeCopy]
  split <;> simp_all [encode, Instr.wellFormed, toNat_eq_iff]

theorem writes_decodeBarrier (p : Bool) (f : FXE) : Writes p (wordFXE p 38 f) (decodeBarrier f) := by
  cases f
  simp only [decodeBarrier]
  split <;> simp_all [encode, Instr.wellFormed, toNat_eq_iff]

theorem writes_decodeRemote (p : Bool) (f : FXE) : Writes p (wordFXE p 39 f) (decodeRemote f) := by
  cases f
  simp only [decodeRemote]
  split <;> simp_all [encode, Instr.wellFormed, toNat_eq_iff]

theorem writes_decodeRamo (p : Bool) (f : FA3) : Writes p (wordFA3 p 40 f) (decodeRamo f) := by
  obtain ⟨gd, ga, gb, fn⟩ := f
  have hfn := @append_atomicFn fn
  simp only [decodeRamo]
  generalize fn.extractLsb' 0 6 = k at *
  split <;> simp_all [encode, Instr.wellFormed, toNat_eq_iff]

theorem writes_decodeClock (p : Bool) (f : FXE) : Writes p (wordFXE p 41 f) (decodeClock f) := by
  cases f
  simp only [decodeClock]
  split <;> simp_all [encode, Instr.wellFormed, toNat_eq_iff]

theorem writes_decodeTry (p : Bool) (f : FXE) : Writes p (wordFXE p 42 f) (decodeTry f) := by
  cases f
  simp only [decodeTry]
  split <;> simp_all [encode, Instr.wellFormed, toNat_eq_iff]

/-! ## A word that decodes is the word of its instruction -/

theorem decode_writes (w : BitVec 32) : Writes (parkBit w) w (decode w) := by
  unfold decode
  split
  · next hk => exact writes_of_major (wordFA3_readFA3 w) hk (writes_decodeInteger _ _)
  · next hk => exact writes_of_major (wordFAI_readFAI w) hk (writes_decodeAddI _ _)
  · next hk => exact writes_of_major (wordFAI_readFAI w) hk (writes_decodeAndI _ _)
  · next hk => exact writes_of_major (wordFAI_readFAI w) hk (writes_decodeOrI _ _)
  · next hk => exact writes_of_major (wordFAI_readFAI w) hk (writes_decodeXorI _ _)
  · next hk => exact writes_of_major (wordFAI_readFAI w) hk (writes_decodeShiftI _ _)
  · next hk => exact writes_of_major (wordFAL_readFAL w) hk (writes_decodeLi _ _)
  · next hk => exact writes_of_major (wordFAL_readFAL w) hk (writes_decodeLis _ _)
  · next hk => exact writes_of_major (wordFA3_readFA3 w) hk (writes_decodeSet _ _)
  · next hk => exact writes_of_major (wordFA3_readFA3 w) hk (writes_decodeCap _ _)
  · next hk => exact writes_of_major (wordFAI_readFAI w) hk (writes_decodeCincrI _ _)
  · next hk => exact writes_of_major (wordFBR_readFBR w) hk (writes_decodeBranch _ _)
  · next hk => exact writes_of_major (wordFJL_readFJL w) hk (writes_decodeJmp _ _)
  · next hk => exact writes_of_major (wordFJL_readFJL w) hk (writes_decodeCall _ _)
  · next hk => exact writes_of_major (wordFA3_readFA3 w) hk (writes_decodeJump _ _)
  · next hk => exact writes_of_major (wordFRP_readFRP w) hk (writes_decodeRpt _ _)
  · next hk => exact writes_of_major (wordFA3_readFA3 w) hk (writes_decodeNopCdone _ _)
  · next hk => exact writes_of_major (wordFMM_readFMM w) hk (writes_decodeLoad _ _)
  · next hk => exact writes_of_major (wordFMM_readFMM w) hk (writes_decodeStore _ _)
  · next hk => exact writes_of_major (wordFVM_readFVM w) hk (writes_decodeVecMem _ _)
  · next hk => exact writes_of_major (wordFVM_readFVM w) hk (writes_decodeVecMemH _ _)
  · next hk => exact writes_of_major (wordFMM_readFMM w) hk (writes_decodeLine _ _)
  · next hk => exact writes_of_major (wordFXE_readFXE w) hk (writes_decodeSystem _ _)
  · next hk => exact writes_of_major (wordFAI_readFAI w) hk (writes_decodeCsrr _ _)
  · next hk => exact writes_of_major (wordFAI_readFAI w) hk (writes_decodeCsrw _ _)
  · next hk => exact writes_of_major (wordFAI_readFAI w) hk (writes_decodeCsrx _ _)
  · next hk => exact writes_of_major (wordFXE_readFXE w) hk (writes_decodeSfq _ _)
  · next hk => exact writes_of_major (wordFA3_readFA3 w) hk (writes_decodeAmo _ _)
  · next hk => exact writes_of_major (wordFA3_readFA3 w) hk (writes_decodeStitch _ _)
  · next hk => exact writes_of_major (wordFV3_readFV3 w) hk (writes_decodeFp _ _)
  · next hk => exact writes_of_major (wordFV3_readFV3 w) hk (writes_decodeVint _ _)
  · next hk => exact writes_of_major (wordFVG_readFVG w) hk (writes_decodeVecScalar _ _)
  · next hk => exact writes_of_major (wordFVX_readFVX w) hk (writes_decodeElement _ _)
  · next hk => exact writes_of_major (wordFV3_readFV3 w) hk (writes_decodeConvert _ _)
  · next hk => exact writes_of_major (wordFMX_readFMX w) hk (writes_decodeMatrix _ _)
  · next hk => exact writes_of_major (wordFXE_readFXE w) hk (writes_decodeCodelet _ _)
  · next hk => exact writes_of_major (wordFXE_readFXE w) hk (writes_decodeCopy _ _)
  · next hk => exact writes_of_major (wordFXE_readFXE w) hk (writes_decodeBarrier _ _)
  · next hk => exact writes_of_major (wordFXE_readFXE w) hk (writes_decodeRemote _ _)
  · next hk => exact writes_of_major (wordFA3_readFA3 w) hk (writes_decodeRamo _ _)
  · next hk => exact writes_of_major (wordFXE_readFXE w) hk (writes_decodeClock _ _)
  · next hk => exact writes_of_major (wordFXE_readFXE w) hk (writes_decodeTry _ _)
  · exact writes_error

/-- Settles O53: the part of the decoder that the major opcode of the word selects writes that word. -/
theorem decodedWordsEncode : Obligations.DecodedWordsEncode := by
  unfold Obligations.DecodedWordsEncode
  exact fun w i h => decode_writes w i h

end Sys2Proof

/-! SUPPORT. Words of unassigned majors (03 R52), and the words of the spec (03 R58). -/

namespace Sys2Proof

theorem decode_of_unassigned {w : BitVec 32} (h : majorOf w = 0 ∨ 0x2B ≤ (majorOf w).toNat) : decode w = .error .major := by
  have hm : (majorOf w).toNat = 0 ∨ 0x2B ≤ (majorOf w).toNat := h.imp_left fun h0 => by simp [h0]
  unfold decode
  split
  case h_43 => rfl
  all_goals omega

/-- Settles O55: the decoder computes each word. -/
theorem wordsOfTheSpecDecode : Obligations.WordsOfTheSpecDecode := by
  unfold Obligations.WordsOfTheSpecDecode
  exact ⟨rfl, rfl, rfl, rfl, rfl, rfl, rfl, rfl, rfl, rfl, rfl, rfl, rfl, rfl, rfl, rfl, rfl⟩

end Sys2Proof

namespace Sys2Proof.Machine

/-- Taking the slot leaves memory and the strands (01 R7). -/
theorem State.fetched_mem_strands (s : State) (sid : Nat) : (s.fetched sid).mem = s.mem ∧ (s.fetched sid).strands = s.strands := by
  obtain ⟨c, hc, -⟩ := s.fetched_eq sid
  rw [hc]
  exact ⟨rfl, rfl⟩

/-- Settles O54: the decoder answers such a word with check 1 of 03 R51, and the turn that fetches it raises ILL. -/
theorem unassignedMajorsTrap : Obligations.UnassignedMajorsTrap := by
  unfold Obligations.UnassignedMajorsTrap
  refine ⟨fun w => decode_of_unassigned, decode_of_unassigned (by decide), decode_of_unassigned (by decide), ?_⟩
  rintro s r sid rest w hs rfl hready hframe hnext hfetch hw
  have hbad := State.nextWord_of_rejected hframe hfetch (decode_of_unassigned hw)
  rw [step_of_issue hs, State.issueStrand_of_bad hready hnext hbad]
  exact ⟨_, rfl, State.fetched_mem_strands _ sid⟩

end Sys2Proof.Machine

/-! SUPPORT. A result that returns (03 R56, 05 R83, R85): what it leaves of the strand that waits for it. -/

namespace Sys2Proof.Machine

@[simp] theorem Flags.add_none (f : Flags) : f.add Flags.none = f := rfl

theorem Flags.foldl_add_none {l : List Flags} (h : ∀ f ∈ l, f = Flags.none) : l.foldl Flags.add Flags.none = Flags.none := by
  rw [List.eq_replicate_of_mem h]
  generalize l.length = n
  induction n with
  | zero => rfl
  | succ n ih => rwa [List.replicate_succ, List.foldl_cons, Flags.add_none]

/-- A result that no held store waits for encodes none (06 R113). -/
theorem Strand.encodeStores_of_held_nil {t : Strand} (h : ∀ c ∈ t.chunks, c.held = []) (k : Nat) (byte : Nat → Byte) :
    t.encodeStores k byte = (t, Flags.none) := by
  have hheld : ∀ c ∈ t.chunks, encodeHeld k byte c.held = ([], Flags.none) := fun c hc => by rw [h c hc]; rfl
  have hchunks : t.chunks.map (fun c => { c with held := (encodeHeld k byte c.held).1 }) = t.chunks :=
    (List.map_congr_left fun c hc => by rw [hheld c hc, ← h c hc, id]).trans (List.map_id _)
  have hflags : (t.chunks.map fun c => (encodeHeld k byte c.held).2).foldl Flags.add Flags.none = Flags.none :=
    Flags.foldl_add_none fun f hf => by
      obtain ⟨c, hc, rfl⟩ := List.mem_map.mp hf
      rw [hheld c hc]
  rw [Strand.encodeStores, hchunks, hflags]

theorem Strand.settleOut_arch_of_live {o : Out} (h : o.dead = false) (t : Strand) (ws : List RegWrite) (fl : Flags) :
    (t.settleOut o ws fl).arch = (t.arch.putAll o.smode ws).raise fl := by simp [Strand.settleOut, Strand.land, h]

theorem Strand.settleOut_arch_of_dead {o : Out} (h : o.dead = true) (t : Strand) (ws : List RegWrite) (fl : Flags) :
    (t.settleOut o ws fl).arch = t.arch := by simp [Strand.settleOut, h]

theorem Strand.settleOut_out (o : Out) (t : Strand) (ws : List RegWrite) (fl : Flags) :
    (t.settleOut o ws fl).out = t.out.filter fun x => x.id != o.id := rfl

/-- What has been computed, or read whole behind no held store: the registers it writes and the flags it raises. -/
def Lands (t : Strand) (src : Source) (ws : List RegWrite) (fl : Flags) : Prop :=
  src = .ready ws fl ∨ (src = .divide ws ∧ fl = Flags.none) ∨
    ∃ l, src = .load l ∧ l.need = [] ∧ l.result = (ws, fl) ∧ ∀ c ∈ t.chunks, c.held = []

theorem execResultReturn_of_lands {s : State} {o : Out} {ws : List RegWrite} {fl : Flags}
    (ho : (s.strand (s.argN 0)).outOf (s.argN 1) = some o) (h : Lands (s.strand (s.argN 0)) o.src ws fl) :
    execResultReturn s = .next (s.setStrand (s.argN 0) ((s.strand (s.argN 0)).settleOut o ws fl)) := by
  unfold execResultReturn
  obtain hsrc | ⟨hsrc, rfl⟩ | ⟨l, hsrc, hneed, hres, hheld⟩ := h
  · simp [ho, hsrc]
  · simp [ho, hsrc]
  · simp [ho, hsrc, hneed, hres, Strand.encodeStores_of_held_nil hheld]

/-- Settles O11: whatever lands, the event replaces the strand by one in which the result has settled. -/
theorem resultsLand : Obligations.ResultsLand := by
  unfold Obligations.ResultsLand
  intro s o ws fl ho h
  refine ⟨_, execResultReturn_of_lands ho h, fun hlive => ?_, fun hdead => ?_, ?_, fun k hk => State.strand_setStrand_ne s hk _, rfl⟩
  · rw [State.arch, State.strand_setStrand_self, Strand.settleOut_arch_of_live hlive]
    rfl
  · rw [State.arch, State.strand_setStrand_self, Strand.settleOut_arch_of_dead hdead]
    rfl
  · rw [State.strand_setStrand_self, Strand.settleOut_out]

end Sys2Proof.Machine

/-! SUPPORT. The shared steps of issue when they do not pass (03 R51, R53, 05 R83, R84): the instructions of 04, 05 R91 and 06 name
the registers that they read, and a privileged instruction is refused in U mode. -/

namespace Sys2Proof.Machine

/-! ## The shared steps -/

theorem RegName.tval_eq_pendingNumber (r : RegName) : r.tval = Claims.pendingNumber r := by
  cases r with
  | g n => simp [RegName.tval, Claims.pendingNumber]
  | v n => revert n; decide

section
variable {reads : List RegName} {s : State} {body : State → Act}

/-- The marker comes before the operands (05 R84). -/
theorem issue_of_marked (hpark : s.park = true) (hbusy : (s.strand s.cur).busy = true) :
    issue false reads s body = .next (s.waiting .park) := by
  simp [issue, hpark, hbusy]

/-- The first register of the list that is outstanding is the one reported (05 R84). -/
theorem issue_of_out (hpark : s.park = false) {r : RegName} {before after : List RegName} (hreads : reads = before ++ r :: after)
    (hbefore : ∀ q ∈ before, (s.strand s.cur).isOut q = false) (hr : (s.strand s.cur).isOut r = true) :
    issue false reads s body = .next (s.raise s.cur .pend r.tval) := by
  have hfind : reads.find? (s.strand s.cur).isOut = some r :=
    List.find?_eq_some_iff_append.mpr ⟨hr, before, after, hreads, fun q hq => by simp [hbefore q hq]⟩
  simp [issue, hpark, hfind]

/-- The mode comes before the marker (03 R51). -/
theorem issue_of_user (hmode : s.me.smode = false) : issue true reads s body = .next (s.raise s.cur .priv (s.free 0)) :=
  if_pos (by simp only [State.me, State.arch] at hmode; simp [hmode])

theorem terminate_of_user {waits : Bool} (hmode : s.me.smode = false) :
    terminate true waits reads s body = .next (s.raise s.cur .priv (s.free 0)) :=
  if_pos (by simp only [State.me, State.arch] at hmode; simp [hmode])

end

/-- A strand that parks keeps its registers (05 R84). -/
theorem waits_waiting_park (s : State) : Waits s (s.waiting .park) .park := by
  obtain ⟨hothers, hwait, hrest⟩ := waiting_eq s .park
  refine ⟨hwait, fun n => ?_, ?_, hothers, hrest⟩
  · simp [State.waiting, State.onStrand, State.arch, State.me, Wait.parks]
  · simp [State.waiting, State.onStrand, State.arch, State.me, Wait.parks, Arch.count]

/-! ## The registers that an instruction names (05 R84) -/

/-- An instruction issues with a list of the registers that it reads. -/
def IssuesWith (reads : List RegName) (i : Instr) (s : State) : Prop := ∃ body, exec i s = issue false reads s body

theorem issuesWith_of_branch {s : State} {i : Instr} {a b : BitVec 6} {c : Bool} {off : BitVec 10}
    (h : Claims.branchOf s.me i = some (a, b, c, off)) : IssuesWith [.g a, .g b] i s := by
  unfold Claims.branchOf at h
  split at h <;> cases h <;> exact ⟨_, rfl⟩

theorem issuesWith_of_load {s : State} {i : Instr} {l : Claims.LoadShape} (h : Claims.loadOf s.me i = some l) :
    IssuesWith l.reads i s := by
  unfold Claims.loadOf at h
  split at h <;> cases h <;> exact ⟨_, rfl⟩

theorem issuesWith_of_scalarStore {s : State} {i : Instr} {y : Claims.ScalarStore} (h : Claims.scalarStoreOf s.me i = some y) :
    IssuesWith [.g y.g, .g y.a] i s := by
  unfold Claims.scalarStoreOf at h
  split at h <;> cases h <;> exact ⟨_, rfl⟩

theorem issuesWith_of_store {s : State} {i : Instr} {y : Claims.StoreShape} (h : Claims.storeOf s.me i = some y) :
    IssuesWith y.reads i s := by
  unfold Claims.storeOf at h
  split at h
  case h_7 =>
    obtain ⟨x, hx, rfl⟩ := Option.map_eq_some_iff.mp h
    exact issuesWith_of_scalarStore hx
  all_goals cases h; exact ⟨_, rfl⟩

/-- A divide names its registers once its core's divider is free (04 R62). -/
theorem divide_of_free {s : State} (hd : s.dividing (coreOf s.cur) = false) (d a b : BitVec 6) (f : Word → Word → Word) :
    ∃ body, divide d a b f s = issue false [.g a, .g b, .g d] s body := ⟨_, if_neg (by simp [hd])⟩

theorem issuesWith_of_scalarReads {s : State} {i : Instr} {l : List RegName} (hl : Claims.scalarReads i = l) (h : l ≠ [])
    (hd : usesDivider i = true → s.dividing (coreOf s.cur) = false) : IssuesWith l i s := by
  unfold Claims.scalarReads at hl
  split at hl <;> subst hl
  case h_24 | h_25 | h_26 | h_27 => exact divide_of_free (hd rfl) _ _ _ _
  case h_58 => exact absurd rfl h
  all_goals exact ⟨_, rfl⟩

theorem issuesWith_of_namedReads {s : State} {i : Instr} {l : List RegName} (hl : Claims.namedReads s.me i = l) (h : l ≠ [])
    (hd : usesDivider i = true → s.dividing (coreOf s.cur) = false) : IssuesWith l i s := by
  unfold Claims.namedReads at hl
  split at hl
  · next hbranch => exact hl ▸ issuesWith_of_branch hbranch
  · next hload _ => exact hl ▸ issuesWith_of_load hload
  · next hstore _ _ => exact hl ▸ issuesWith_of_store hstore
  · exact issuesWith_of_scalarReads hl h hd

/-- A privileged instruction is refused before anything else, whether it ends its chunk or not (03 R51, R53). -/
theorem exec_of_privilegedOnly {s : State} {i : Instr} (h : Claims.privilegedOnly i = true) (hmode : s.me.smode = false) :
    exec i s = .next (s.raise s.cur .priv (s.free 0)) := by
  unfold Claims.privilegedOnly at h
  split at h
  case h_1 | h_2 | h_3 | h_4 => exact issue_of_user hmode
  case h_5 | h_6 | h_7 | h_8 => exact terminate_of_user hmode
  case h_9 => cases h

/-- Settles O59: such an instruction issues with the registers that it names, and the shared steps of issue say the rest. -/
theorem outstandingSourcesTrapOrPark : Obligations.OutstandingSourcesTrapOrPark := by
  unfold Obligations.OutstandingSourcesTrapOrPark
  refine ⟨fun s i hreads hd => ?_, fun s i => exec_of_privilegedOnly⟩
  obtain ⟨body, hbody⟩ := issuesWith_of_namedReads rfl hreads hd
  rw [hbody]
  refine ⟨fun hpark hbusy => ⟨_, issue_of_marked hpark hbusy, waits_waiting_park s⟩, fun hpark r before after heq hbefore hr => ?_⟩
  rw [issue_of_out hpark heq hbefore hr, RegName.tval_eq_pendingNumber]

end Sys2Proof.Machine

/-! SUPPORT. The scalar integer class and the capability operations (04): an instruction that computes a register from registers, and
what it computes for each member. -/

namespace Sys2Proof.Machine

open Sys2Proof Claims

/-! ## Instructions that compute one register -/

/-- The instruction reads the registers that 04 names for it, and computes a result for `d`, or the cause and value of a trap, from
the registers of its strand alone. -/
def Computes (i : Instr) (s : State) (d : BitVec 6) (e : Except (Cause × Word) Reg) : Prop :=
  ∃ f, exec i s = capOp (scalarReads i) d f s ∧ f s.me = e

theorem Computes.ran {i : Instr} {s : State} {d : BitVec 6} {r : Reg} (h : Computes i s d (.ok r))
    (hissue : MayIssue false false (scalarReads i) s) :
    ∃ t, exec i s = .next t ∧ Ran s t (s.me.writeG d r).advance (s.strand s.cur).out := by
  obtain ⟨f, hexec, hf⟩ := h
  rw [hexec]
  exact capOp_ran hissue hf

theorem Computes.trap {i : Instr} {s u : State} {d : BitVec 6} {cause : Cause} {val : Word}
    (h : Computes i s d (.error (cause, val))) (hissue : Issues false (scalarReads i) s u) :
    exec i s = .next (u.raise s.cur cause val) := by
  obtain ⟨f, hexec, hf⟩ := h
  rw [hexec]
  exact capOp_trap hissue hf

/-- A fixed result (03 R56) is a computation that never traps. -/
theorem computes_of_fixedReg {i : Instr} {s : State} {d : BitVec 6} {f : Arch → Reg} {r : Reg}
    (hexec : exec i s = fixedReg (scalarReads i) d f s) (hf : f s.me = r) : Computes i s d (.ok r) :=
  ⟨fun x => .ok (f x), hexec, congrArg Except.ok hf⟩

/-- The order in which registers are tested does not matter to an instruction that passes. -/
theorem MayIssue.of_subset {priv waits : Bool} {l l' : List RegName} {s : State} (h : MayIssue priv waits l s) (hl : l' ⊆ l) :
    MayIssue priv waits l' s :=
  ⟨h.mode, h.marker, fun r hr => h.settled r (hl hr), h.token⟩

/-! ## Integers -/

/-- Each member whose result is settled at once gives the value of 04 R72 to R76. -/
theorem computes_of_intValue {s : State} {i : Instr} {d : BitVec 6} {v : BitVec 64} (h : intValue s.me i = some (d, v)) :
    Computes i s d (.ok (.data v)) := by
  unfold intValue at h
  split at h <;> cases h
  case h_1 => exact computes_of_fixedReg rfl (congrArg Reg.data (add_eq_ofNat _ _))
  case h_2 => exact computes_of_fixedReg rfl (congrArg Reg.data (sub_eq_ofInt _ _))
  case h_3 | h_4 | h_5 | h_6 => exact computes_of_fixedReg rfl rfl
  case h_7 => exact computes_of_fixedReg rfl (congrArg Reg.data (shl_eq _ _))
  case h_8 => exact computes_of_fixedReg rfl (congrArg Reg.data (shr_eq _ _))
  case h_9 => exact computes_of_fixedReg rfl (congrArg Reg.data (sha_eq _ _))
  case h_10 => exact computes_of_fixedReg rfl (congrArg Reg.data (rotl_eq _ _ (shiftOf_lt _)))
  case h_11 => exact computes_of_fixedReg rfl (congrArg Reg.data (minS_eq _ _))
  case h_12 => exact computes_of_fixedReg rfl (congrArg Reg.data (maxS_eq _ _))
  case h_13 => exact computes_of_fixedReg rfl (congrArg Reg.data (minZ_eq _ _))
  case h_14 => exact computes_of_fixedReg rfl (congrArg Reg.data (maxZ_eq _ _))
  case h_15 => exact computes_of_fixedReg rfl (congrArg Reg.data (add_signExtend_eq _ _))
  case h_16 | h_17 | h_18 => exact computes_of_fixedReg rfl (by rw [signExtend_eq])
  case h_19 => exact computes_of_fixedReg rfl (congrArg Reg.data (shl_eq _ _))
  case h_20 => exact computes_of_fixedReg rfl (congrArg Reg.data (shr_eq _ _))
  case h_21 => exact computes_of_fixedReg rfl (congrArg Reg.data (sha_eq _ _))
  case h_22 n => exact computes_of_fixedReg rfl (congrArg Reg.data (rotl_eq _ _ n.isLt))
  case h_23 => exact computes_of_fixedReg rfl (congrArg Reg.data (signExtend_eq _))
  case h_24 => exact computes_of_fixedReg rfl (congrArg Reg.data (lis_eq _ _))
  case h_25 => exact computes_of_fixedReg rfl (congrArg Reg.data (Cond.holds_eq _ _))
  case h_26 => exact computes_of_fixedReg rfl (congrArg Reg.data (Cond.holds_ne _ _))
  case h_27 => exact computes_of_fixedReg rfl (congrArg Reg.data (Cond.holds_lt _ _))
  case h_28 => exact computes_of_fixedReg rfl (congrArg Reg.data (Cond.holds_ge _ _))
  case h_29 => exact computes_of_fixedReg rfl (congrArg Reg.data (Cond.holds_lo _ _))
  case h_30 => exact computes_of_fixedReg rfl (congrArg Reg.data (Cond.holds_hs _ _))

section
variable (s : State) (d a b : BitVec 6)

theorem computes_clz : Computes (.clz d a) s d (.ok (.data (BitVec.ofNat 64 (leadingZeros (s.me.word a))))) :=
  computes_of_fixedReg rfl rfl

theorem computes_ctz : Computes (.ctz d a) s d (.ok (.data (BitVec.ofNat 64 (firstOne (s.me.word a) 0 64)))) :=
  computes_of_fixedReg rfl rfl

theorem computes_popc :
    Computes (.popc d a) s d (.ok (.data (BitVec.ofNat 64 ((List.range 64).countP (s.me.word a).getLsbD)))) :=
  computes_of_fixedReg rfl (congrArg (fun n => Reg.data (BitVec.ofNat 64 n)) (onesIn_eq _ _))

theorem computes_mov : Computes (.mov d a) s d (.ok (s.me.readG a)) := computes_of_fixedReg rfl rfl

theorem computes_sel : Computes (.sel d a b) s d (.ok (if s.me.word d = 0 then s.me.readG b else s.me.readG a)) :=
  computes_of_fixedReg rfl (by simp only [ne_eq, ite_not])

end

/-- Each product goes to the multiplier and each quotient to the divider, with the value of 04 R72. -/
theorem exec_of_productValue {s : State} {i : Instr} {d : BitVec 6} {v : BitVec 64} {divider : Bool}
    (h : productValue s.me i = some (d, v, divider)) :
    ∃ a b f, scalarReads i = [.g a, .g b, .g d] ∧ f (s.me.word a) (s.me.word b) = v ∧
      (divider = false ∧ exec i s = multiply d a b f s ∨ divider = true ∧ exec i s = divide d a b f s) := by
  unfold productValue at h
  split at h <;> cases h
  case h_1 a b => exact ⟨a, b, _, rfl, mul_eq_ofNat _ _, .inl ⟨rfl, rfl⟩⟩
  case h_2 a b => exact ⟨a, b, _, rfl, mulHigh_eq _ _, .inl ⟨rfl, rfl⟩⟩
  case h_3 a b => exact ⟨a, b, _, rfl, mulHighZ_eq _ _, .inl ⟨rfl, rfl⟩⟩
  case h_4 a b => exact ⟨a, b, _, rfl, divS_eq _ _, .inr ⟨rfl, rfl⟩⟩
  case h_5 a b => exact ⟨a, b, _, rfl, divZ_eq _ _, .inr ⟨rfl, rfl⟩⟩
  case h_6 a b => exact ⟨a, b, _, rfl, remS_eq _ _, .inr ⟨rfl, rfl⟩⟩
  case h_7 a b => exact ⟨a, b, _, rfl, remZ_eq _ _, .inr ⟨rfl, rfl⟩⟩

/-- Settles O1: each member computes its value, and products and quotients are left outstanding. -/
theorem integerInstructionsCompute : Obligations.IntegerInstructionsCompute := by
  unfold Obligations.IntegerInstructionsCompute
  refine ⟨fun s i d v hvalue => (computes_of_intValue hvalue).ran, ?counts, ?moves, ?products⟩
  case counts =>
    intro s d a hissue
    obtain ⟨hclz, hbelow, htop⟩ := leadingZeros_spec (s.me.word a)
    obtain ⟨-, hctz, hzeros, hone⟩ := firstOne_spec (s.me.word a) 0 64
    obtain ⟨t, ht, hrant⟩ := (computes_clz s d a).ran hissue
    obtain ⟨u, hu, hranu⟩ := (computes_ctz s d a).ran hissue
    exact ⟨⟨t, _, ht, hrant, hclz, hbelow, htop⟩,
      ⟨u, _, hu, hranu, hctz, fun k => hzeros k (Nat.zero_le k), hone⟩, (computes_popc s d a).ran hissue⟩
  case moves =>
    exact fun s d a b => ⟨(computes_mov s d a).ran, fun hissue =>
      (computes_sel s d a b).ran (hissue.of_subset (by simp [scalarReads]))⟩
  case products =>
    intro s i d v divider hvalue
    obtain ⟨a, b, f, hreads, hf, ⟨rfl, hexec⟩ | ⟨rfl, hexec⟩⟩ := exec_of_productValue hvalue
    all_goals
      rw [hreads, hexec]
      simp only [left, filter_dst]
    · exact ⟨fun _ hissue => multiply_ran hissue hf, fun h => absurd h Bool.false_ne_true⟩
    · exact ⟨fun hfree hissue => divide_ran hissue hf (hfree.resolve_left Bool.true_eq_false.mp), fun _ => divide_busy⟩

end Sys2Proof.Machine

/-! SUPPORT. The cursor operations and the inspection members (04 R77, R80, R81). -/

namespace Sys2Proof.Machine

open Sys2Proof Claims

section
variable (s : State) (d a b : BitVec 6)

theorem computes_cincr :
    Computes (.cincr d a b) s d (deriveCap (s.me.readG a) ((s.me.readG a).withCursor ((s.me.readG a).low + s.me.word b))) :=
  ⟨_, .refl (execCincr d a b s), rfl⟩

theorem computes_cincrI (k : BitVec 13) :
    Computes (.cincrI d a k) s d
      (deriveCap (s.me.readG a) ((s.me.readG a).withCursor ((s.me.readG a).low + k.signExtend 64))) :=
  ⟨_, .refl (execCincrI d a k s), rfl⟩

theorem computes_cset :
    Computes (.cset d a b) s d (deriveCap (s.me.readG a) ((s.me.readG a).withCursor (s.me.word b))) :=
  ⟨_, .refl (execCset d a b s), rfl⟩

theorem computes_cperm :
    Computes (.cperm d a b) s d
      (deriveCap (s.me.readG a) ((s.me.readG a).withPerms ((s.me.readG a).perms &&& (s.me.word b).setWidth 12))) :=
  ⟨_, .refl (execCperm d a b s), rfl⟩

theorem computes_cclr : Computes (.cclr d a) s d (.ok ⟨(s.me.readG a).bits, false⟩) := computes_of_fixedReg rfl rfl

end

/-- A sealed capability is not derived from (04 R77). -/
theorem deriveCap_of_sealed {c : Reg} (r : Reg) (htag : c.tag = true) (hsealed : c.otype ≠ 0) :
    deriveCap c r = .error (.capseal, c.low) :=
  if_pos ⟨htag, hsealed⟩

/-- Otherwise the image is derived, and its tag is that of the source if its cursor is representable for it (04 R77). -/
theorem deriveCap_of_unsealed {c r : Reg} (hopen : c.tag = false ∨ c.otype = 0) (htag : r.tag = c.tag) :
    deriveCap c r = .ok ⟨r.bits, c.tag && c.representable r.cursor⟩ := by
  have hnot : ¬ (c.tag = true ∧ c.otype ≠ 0) := by
    rintro ⟨h1, h2⟩
    rcases hopen with h | h
    · simp [h] at h1
    · exact h2 h
  unfold deriveCap
  rw [if_neg hnot]
  split
  case isTrue hlost => rw [(Bool.not_eq_true' _).mp hlost.2, Bool.and_false]
  case isFalse hkept =>
    have hand : (c.tag && c.representable r.cursor) = r.tag := by
      rw [htag, Bool.and_eq_left_iff_imp]
      exact fun hc => by simpa [hc] using hkept
    rw [hand]

theorem Reg.representable_eq (c : Reg) (n : Nat) :
    c.representable n = decide (c.base ≤ n ∧ (n : Int) < c.base + 2 ^ (c.exp + 21)) :=
  (Bool.decide_and _ _).symm

/-- The cursor operations derive the image of 04 R77 and R81. -/
theorem computes_of_derivedBits {s : State} {i : Instr} {d a : BitVec 6} {bits : BitVec 128}
    (h : derivedBits s.me i = some (d, a, bits)) :
    Computes i s d (deriveCap (s.me.readG a) ⟨bits, (s.me.readG a).tag⟩) := by
  unfold derivedBits at h
  split at h <;> cases h
  case h_1 b =>
    rw [← add_eq_ofNat]
    exact computes_cincr s d a b
  case h_2 b => exact computes_cset s d a b
  case h_3 k =>
    rw [← add_signExtend_eq]
    exact computes_cincrI s d a k
  case h_4 b =>
    rw [← BitVec.setWidth_eq_extractLsb' (by decide)]
    exact computes_cperm s d a b

/-- Settles O2: the image is derived, and a sealed or an unsealed source decides what becomes of it. -/
theorem cursorsMoveOrLoseTheTag : Obligations.CursorsMoveOrLoseTheTag := by
  unfold Obligations.CursorsMoveOrLoseTheTag
  intro s u i d a bits hbits hissue
  have hderives := computes_of_derivedBits hbits
  refine ⟨fun ⟨htag, hsealed⟩ => ?_, fun hopen => ?_⟩
  · rw [deriveCap_of_sealed _ htag hsealed] at hderives
    exact hderives.trap hissue
  · rw [deriveCap_of_unsealed (r := ⟨bits, _⟩) hopen rfl, Reg.representable_eq, Reg.cursor, Reg.low_eq] at hderives
    exact hderives.ran hissue.mayIssue

/-- A capability's bounds are its length apart, whatever they decode to (04 R68). -/
theorem Reg.length_eq_top_sub_base (c : Reg) : (c.length : Int) = c.top - c.base := by
  exact (Int.sub_eq_iff_eq_add'.mpr rfl).symm

/-- Two fields side by side as a number. -/
theorem ofNat_perms_otype (p : BitVec 12) (t : BitVec 4) :
    (t ++ p : BitVec 16).setWidth 64 = BitVec.ofNat 64 (p.toNat + 4096 * t.toNat) := by
  apply BitVec.eq_of_toNat_eq
  rw [BitVec.toNat_setWidth, BitVec.toNat_append, BitVec.toNat_ofNat, ← Nat.shiftLeft_add_eq_or_of_lt p.isLt,
    Nat.shiftLeft_eq, Nat.mul_comm, Nat.add_comm]

theorem Reg.beq_eq_decide (c x : Reg) : (c == x) = decide (c.bits = x.bits ∧ c.tag = x.tag) := by
  rw [Bool.eq_iff_iff, beq_iff_eq, decide_eq_true_iff, Reg.mk.injEq]

/-- The inspection members compute the fields of 04 R80. -/
theorem computes_of_inspected {s : State} {i : Instr} {d : BitVec 6} {v : BitVec 64} (h : inspected s.me i = some (d, v)) :
    Computes i s d (.ok (.data v)) := by
  unfold inspected at h
  split at h <;> cases h
  case h_1 => exact computes_of_fixedReg rfl rfl
  case h_2 a => exact computes_of_fixedReg rfl (by rw [← Reg.length_eq_top_sub_base, BitVec.ofInt_natCast])
  case h_3 => exact computes_of_fixedReg rfl (congrArg Reg.data (ofNat_perms_otype _ _))
  case h_4 => exact computes_of_fixedReg rfl rfl
  case h_5 => exact computes_of_fixedReg rfl (by rw [Reg.beq_eq_decide]; rfl)
  case h_6 => exact computes_of_fixedReg rfl (congrArg Reg.data (sub_eq_ofInt _ _))

/-- Settles O5: an inspection member computes a fixed result, which no check can stop. -/
theorem inspectionReportsTheFields : Obligations.InspectionReportsTheFields := by
  unfold Obligations.InspectionReportsTheFields
  rintro s i hissue
  refine ⟨fun d v hvalue => (computes_of_inspected hvalue).ran hissue, ?_⟩
  rintro d a rfl
  exact (computes_cclr s d a).ran hissue

end Sys2Proof.Machine

/-! SUPPORT. Bounds that are narrowed (04 R69, R78): the arithmetic of rounding, what cbnd and cbndr answer for each outcome of their
checks, and why no derived capability grants more than its source. -/

namespace Sys2Proof.Machine

open Sys2Proof Claims

/-! ## Rounding to a grain -/

theorem roundDown_le (b e : Nat) : roundDown b e ≤ b := Nat.div_mul_le_self b _

theorem lt_roundDown_add (b e : Nat) : b < roundDown b e + 2 ^ e := Nat.lt_div_mul_add (Nat.two_pow_pos e)

theorem le_roundUp (t e : Nat) : t ≤ roundUp t e := by
  have := lt_roundDown_add (t + 2 ^ e - 1) e
  have := Nat.two_pow_pos e
  unfold roundUp
  unfold roundDown at *
  omega

theorem roundUp_lt_add (t e : Nat) : roundUp t e < t + 2 ^ e := by
  have := roundDown_le (t + 2 ^ e - 1) e
  have := Nat.two_pow_pos e
  unfold roundUp
  unfold roundDown at *
  omega

theorem roundUp_div_mul (t e : Nat) : roundUp t e / 2 ^ e * 2 ^ e = roundUp t e := by
  rw [roundUp, Nat.mul_div_cancel _ (Nat.two_pow_pos e)]

theorem roundDown_of_aligned {b e : Nat} (h : b % 2 ^ e = 0) : roundDown b e = b := Nat.div_mul_cancel (Nat.dvd_of_mod_eq_zero h)

theorem roundUp_of_aligned {t e : Nat} (h : t % 2 ^ e = 0) : roundUp t e = t := by
  obtain ⟨k, rfl⟩ := Nat.dvd_of_mod_eq_zero h
  have := Nat.two_pow_pos e
  rw [roundUp, Nat.add_sub_assoc this, Nat.mul_add_div this, Nat.div_eq_of_lt (by omega), Nat.add_zero, Nat.mul_comm]

/-- The exponent that cbndr ends with, from the exponent of the length (04 R78). -/
def roundedExp (b t e0 : Nat) : Nat := if (2 ^ 21 - 1) * 2 ^ e0 < roundUp t e0 - roundDown b e0 then e0 + 1 else e0

theorem roundedExp_le (b t e0 : Nat) : roundedExp b t e0 ≤ e0 + 1 := by
  unfold roundedExp
  split <;> omega

/-- One increment always suffices: at e0 + 1, rounding adds less than 2^(e0+2) to at most (2^21 - 1) 2^e0 (04 R78). -/
theorem rounded_fits {b len e0 : Nat} (h : len ≤ (2 ^ 21 - 1) * 2 ^ e0) :
    roundUp (b + len) (roundedExp b (b + len) e0) - roundDown b (roundedExp b (b + len) e0) ≤
      (2 ^ 21 - 1) * 2 ^ roundedExp b (b + len) e0 := by
  unfold roundedExp
  split
  case isFalse hfits => exact Nat.not_lt.mp hfits
  case isTrue =>
    have hup := roundUp_lt_add (b + len) (e0 + 1)
    have hdown := lt_roundDown_add b (e0 + 1)
    rw [Nat.pow_succ] at *
    omega

/-- A length within the address space has only one smallest exponent, the one that the model finds. -/
theorem expFor_eq_of_smallest {e len : Nat} (h : Smallest e len) (hlen : len ≤ 2 ^ 56) : expFor len = e ∧ e ≤ 36 := by
  obtain ⟨hfits, hleast⟩ := h
  obtain ⟨hfits', -, hle⟩ := expFor_spec hlen
  have he : e ≤ expFor len := Nat.not_lt.mp fun hlt => absurd hfits' (Nat.not_le.mpr (hleast _ hlt))
  exact ⟨expFor_eq hfits hleast (Nat.le_trans he hle), Nat.le_trans he hle⟩

/-! ## What cbnd and cbndr answer -/

theorem boundCap_of_untagged (rounded : Bool) {c : Reg} (x : Word) (htag : c.tag = false) :
    boundCap rounded c x = .error (.captag, c.low) := if_pos htag

theorem boundCap_of_sealed (rounded : Bool) {c : Reg} (x : Word) (htag : c.tag = true) (hsealed : c.otype ≠ 0) :
    boundCap rounded c x = .error (.capseal, c.low) := by
  simp [boundCap, htag, hsealed]

theorem boundCap_of_outside (rounded : Bool) {c : Reg} {x : Word} (htag : c.tag = true) (hopen : c.otype = 0)
    (hout : (c.cursor : Int) < c.base ∨ c.top < c.cursor + x.toNat) : boundCap rounded c x = .error (.capbnd, c.low) := by
  simp [boundCap, htag, hopen, hout]

section
variable {c : Reg} {x : Word} (htag : c.tag = true) (hopen : c.otype = 0) (hbase : c.base ≤ c.cursor)
  (htop : (c.cursor : Int) + x.toNat ≤ c.top)
include htag hopen hbase htop

/-- cbnd of a range within its source asks for bounds at the grain of the length's exponent (04 R78). -/
theorem boundCap_false_of_inside : boundCap false c x =
    if c.cursor % 2 ^ expFor x.toNat ≠ 0 ∨ (c.cursor + x.toNat) % 2 ^ expFor x.toNat ≠ 0 then .error (.capbnd, x)
    else .ok (c.withBounds (expFor x.toNat) c.cursor (c.cursor + x.toNat)) := by
  have hin : ¬ ((c.cursor : Int) < c.base ∨ c.top < ((c.cursor + x.toNat : Nat) : Int)) := by omega
  simp only [boundCap, htag, hopen, hin, Nat.add_sub_cancel_left, Bool.not_false, if_true, if_false, ne_eq, not_true,
    Bool.true_eq_false]

/-- cbndr of a range within its source rounds outward, and checks the rounded range (04 R78). -/
theorem boundCap_true_of_inside {e : Nat} (he : e = roundedExp c.cursor (c.cursor + x.toNat) (expFor x.toNat)) :
    boundCap true c x =
    if (roundDown c.cursor e : Int) < c.base ∨ c.top < (roundUp (c.cursor + x.toNat) e : Int) then .error (.capbnd, c.low)
    else .ok (c.withBounds e (roundDown c.cursor e) (roundUp (c.cursor + x.toNat) e)) := by
  have hin : ¬ ((c.cursor : Int) < c.base ∨ c.top < ((c.cursor + x.toNat : Nat) : Int)) := by omega
  subst he
  simp only [boundCap, htag, hopen, hin, Nat.add_sub_cancel_left, Bool.not_true, if_false, ne_eq, not_true,
    Bool.true_eq_false, Bool.false_eq_true]
  rfl

end

/-- The bounds of an image that is given rounded bounds which its exponent holds are exactly those. -/
theorem Reg.withBounds_rounded (c : Reg) {len e : Nat} (he : e < 64)
    (hfits : roundUp (c.cursor + len) e - roundDown c.cursor e ≤ (2 ^ 21 - 1) * 2 ^ e) :
    (c.withBounds e (roundDown c.cursor e) (roundUp (c.cursor + len) e)).base = roundDown c.cursor e ∧
    (c.withBounds e (roundDown c.cursor e) (roundUp (c.cursor + len) e)).top = roundUp (c.cursor + len) e := by
  refine Reg.withBounds_exact c he rfl (roundUp_div_mul _ _) ?_ hfits
  exact Nat.le_trans (roundDown_le _ _) (Nat.le_trans (Nat.le_add_right _ _) (le_roundUp _ _))

/-- The bounds that a narrowing gives: those of the asked range, rounded outward to the grain of an exponent that holds them, and
within the source (04 R78). For cbnd the range lies at that grain, and is not changed. -/
structure Narrows (c : Reg) (len e : Nat) : Prop where
  small : e < 64
  fits : roundUp (c.cursor + len) e - roundDown c.cursor e ≤ (2 ^ 21 - 1) * 2 ^ e
  base : c.base ≤ roundDown c.cursor e
  top : (roundUp (c.cursor + len) e : Int) ≤ c.top

/-- A narrowing that succeeds has a source that may be narrowed, and gives such bounds. -/
theorem narrows_of_boundCap {rounded : Bool} {c r : Reg} {x : Word} (h : boundCap rounded c x = .ok r) (hspace : c.top ≤ 2 ^ 56) :
    c.tag = true ∧ ∃ e, Narrows c x.toNat e ∧ r = c.withBounds e (roundDown c.cursor e) (roundUp (c.cursor + x.toNat) e) := by
  by_cases htag : c.tag = false
  · rw [boundCap_of_untagged _ _ htag] at h
    cases h
  replace htag : c.tag = true := by simpa using htag
  by_cases hopen : c.otype = 0
  case neg =>
    rw [boundCap_of_sealed _ _ htag hopen] at h
    cases h
  by_cases hout : (c.cursor : Int) < c.base ∨ c.top < c.cursor + x.toNat
  · rw [boundCap_of_outside _ htag hopen hout] at h
    cases h
  have hbase : c.base ≤ c.cursor := by omega
  have htop : (c.cursor : Int) + x.toNat ≤ c.top := by omega
  obtain ⟨hfits, -, hexp⟩ := expFor_spec (len := x.toNat) (by omega)
  refine ⟨htag, ?_⟩
  cases rounded with
  | false =>
    rw [boundCap_false_of_inside htag hopen hbase htop] at h
    split at h
    case isTrue => cases h
    case isFalse haligned =>
      obtain ⟨hb, ht⟩ := not_or.mp haligned
      have hdown := roundDown_of_aligned (Decidable.not_not.mp hb)
      have hup := roundUp_of_aligned (Decidable.not_not.mp ht)
      refine ⟨expFor x.toNat, ⟨by omega, ?_, ?_, ?_⟩, ?_⟩
      · rwa [hup, hdown, Nat.add_sub_cancel_left]
      · rwa [hdown]
      · rwa [hup, Int.natCast_add]
      · rw [hup, hdown]
        exact (Except.ok.inj h).symm
  | true =>
    rw [boundCap_true_of_inside htag hopen hbase htop rfl] at h
    split at h
    case isTrue => cases h
    case isFalse hinside =>
      have := roundedExp_le c.cursor (c.cursor + x.toNat) (expFor x.toNat)
      exact ⟨_, ⟨by omega, rounded_fits hfits, by omega, by omega⟩, (Except.ok.inj h).symm⟩

/-! ## Nothing grows -/

/-- A derivation from `c` that succeeds with a tag had a tagged source, and grants no more than it. -/
def NeverGrows (c : Reg) (e : Except (Cause × Word) Reg) : Prop :=
  ∀ r, e = .ok r → r.tag = true → c.tag = true ∧ Within r c

theorem within_refl (c : Reg) : Within c c := ⟨Int.le_refl _, Int.le_refl _, fun _ _ h => h, rfl⟩

theorem within_withCursor {c : Reg} {v : Word} (h : c.representable v.toNat = true) : Within (c.withCursor v) c := by
  rw [Reg.representable_eq, decide_eq_true_iff] at h
  obtain ⟨hlow, hhigh⟩ := h
  exact ⟨Int.le_of_eq (Reg.withCursor_base hlow hhigh).symm, Int.le_of_eq (Reg.withCursor_top hlow hhigh),
    fun k hk hp => Reg.withCursor_perm c v hk ▸ hp, Reg.withCursor_otype c v⟩

theorem within_withPerms_and (c : Reg) (m : BitVec 12) : Within (c.withPerms (c.perms &&& m)) c := by
  refine ⟨Int.le_of_eq (Reg.withPerms_base c _).symm, Int.le_of_eq (Reg.withPerms_top c _), fun k hk hp => ?_, Reg.withPerms_otype c _⟩
  rw [Reg.withPerms_perm c _ hk, BitVec.getLsbD_and, Bool.and_eq_true] at hp
  rw [Reg.perm_eq c hk]
  exact hp.1

theorem Narrows.within {c : Reg} {len e : Nat} (h : Narrows c len e) :
    Within (c.withBounds e (roundDown c.cursor e) (roundUp (c.cursor + len) e)) c := by
  obtain ⟨hbase, htop⟩ := c.withBounds_rounded h.small h.fits
  exact ⟨hbase ▸ h.base, htop ▸ h.top, fun k hk hp => Reg.withBounds_perm c e _ _ hk ▸ hp, Reg.withBounds_otype c e _ _⟩

/-- A cursor operation keeps the tag only of an image that, with a representable cursor, lies within its source. -/
theorem neverGrows_deriveCap {c r : Reg} (htag : r.tag = c.tag) (hwithin : c.representable r.cursor = true → Within r c) :
    NeverGrows c (deriveCap c r) := by
  intro r' hr' htag'
  by_cases hsealed : c.tag = true ∧ c.otype ≠ 0
  · rw [deriveCap_of_sealed r hsealed.1 hsealed.2] at hr'
    cases hr'
  · have hopen : c.tag = false ∨ c.otype = 0 := by
      rcases Bool.eq_false_or_eq_true c.tag with h | h
      · exact .inr (Decidable.not_not.mp fun ho => hsealed ⟨h, ho⟩)
      · exact .inl h
    rw [deriveCap_of_unsealed hopen htag] at hr'
    obtain rfl := Except.ok.inj hr'
    obtain ⟨hc, hrep⟩ := Bool.and_eq_true_iff.mp htag'
    have hsame : (⟨r.bits, c.tag && c.representable r.cursor⟩ : Reg) = r := by rw [hrep, Bool.and_true, ← htag]
    exact ⟨hc, hsame ▸ hwithin hrep⟩

theorem neverGrows_boundCap {rounded : Bool} {c : Reg} {x : Word} (hspace : c.top ≤ 2 ^ 56) :
    NeverGrows c (boundCap rounded c x) := by
  intro r hr _
  obtain ⟨htag, e, hnarrows, rfl⟩ := narrows_of_boundCap hr hspace
  exact ⟨htag, hnarrows.within⟩

section
variable (s : State) (d a b : BitVec 6)

theorem computes_cbnd : Computes (.cbnd d a b) s d (boundCap false (s.me.readG a) (s.me.word b)) := ⟨_, .refl (execCbnd d a b s), rfl⟩

theorem computes_cbndr : Computes (.cbndr d a b) s d (boundCap true (s.me.readG a) (s.me.word b)) := ⟨_, .refl (execCbndr d a b s), rfl⟩

end

/-- Each instruction that derives a capability computes it from its source, within which it lies. -/
theorem computes_of_derives {i : Instr} {d a : BitVec 6} (h : derives i = some (d, a)) (s : State)
    (hspace : (s.me.readG a).top ≤ 2 ^ 56) : ∃ e, Computes i s d e ∧ NeverGrows (s.me.readG a) e := by
  have hcursor (v : Word) : NeverGrows (s.me.readG a) (deriveCap (s.me.readG a) ((s.me.readG a).withCursor v)) :=
    neverGrows_deriveCap rfl fun hrep => within_withCursor (by simpa using hrep)
  unfold derives at h
  split at h <;> cases h
  case h_1 b => exact ⟨_, computes_cincr s d a b, hcursor _⟩
  case h_2 b => exact ⟨_, computes_cset s d a b, hcursor _⟩
  case h_3 k => exact ⟨_, computes_cincrI s d a k, hcursor _⟩
  case h_4 b => exact ⟨_, computes_cperm s d a b, neverGrows_deriveCap rfl fun _ => within_withPerms_and _ _⟩
  case h_5 b => exact ⟨_, computes_cbnd s d a b, neverGrows_boundCap hspace⟩
  case h_6 b => exact ⟨_, computes_cbndr s d a b, neverGrows_boundCap hspace⟩
  case h_7 =>
    refine ⟨_, computes_mov s d a, ?_⟩
    rintro r ⟨⟩ htag
    exact ⟨htag, within_refl _⟩
  case h_8 =>
    refine ⟨_, computes_cclr s d a, ?_⟩
    rintro r ⟨⟩ ⟨⟩

/-- Settles O6: such an instruction computes a capability that lies within its source, or traps. -/
theorem derivedCapabilitiesNeverGrow : Obligations.DerivedCapabilitiesNeverGrow := by
  unfold Obligations.DerivedCapabilitiesNeverGrow
  intro s u i d a hderives hspace hissue
  obtain ⟨e, hcomputes, hgrows⟩ := computes_of_derives hderives s hspace
  cases e with
  | ok r =>
    obtain ⟨t, hexec, hran⟩ := hcomputes.ran hissue.mayIssue
    exact .inl ⟨t, r, hexec, hran, hgrows r rfl⟩
  | error e => exact .inr ⟨e.1, e.2, hcomputes.trap hissue⟩

/-- What 04 R78 says of a narrowed capability: the tag, cursor, object type and permissions of its source, and its bounds. -/
theorem withBounds_spec {c r : Reg} {len e : Nat} (htag : c.tag = true) (hopen : c.otype = 0) (he : e < 64)
    (hfits : roundUp (c.cursor + len) e - roundDown c.cursor e ≤ (2 ^ 21 - 1) * 2 ^ e)
    (hr : r = c.withBounds e (roundDown c.cursor e) (roundUp (c.cursor + len) e)) :
    r.tag = true ∧ r.low = c.low ∧ r.otype = 0 ∧ (∀ k, k < 12 → r.perm k = c.perm k) ∧
      r.base = roundDown c.cursor e ∧ r.top = roundUp (c.cursor + len) e := by
  subst hr
  exact ⟨htag, Reg.withBounds_low c e _ _, (Reg.withBounds_otype c e _ _).trans hopen,
    fun k => Reg.withBounds_perm c e _ _, c.withBounds_rounded he hfits⟩

/-- Settles O3: a representable cursor gives the same base, and a narrowing that passes its checks gives the bounds of 04 R78. -/
theorem boundsAreTheLabelsAlone : Obligations.BoundsAreTheLabelsAlone := by
  unfold Obligations.BoundsAreTheLabelsAlone
  refine ⟨fun c a hlow hhigh => ⟨Reg.withCursor_base hlow hhigh, Reg.withCursor_top hlow hhigh⟩, ?exact, ?rounded⟩
  case exact =>
    rintro s d a b e c rfl hissue htag hopen hbase htop hspace hsmall hb ht
    obtain ⟨hexp, hle⟩ := expFor_eq_of_smallest hsmall (by omega)
    have hcbnd := computes_cbnd s d a b
    rw [boundCap_false_of_inside htag hopen hbase htop, hexp, if_neg (by simp [hb, ht])] at hcbnd
    obtain ⟨t, hexec, hran⟩ := hcbnd.ran hissue
    have hspec := withBounds_spec htag hopen (len := (s.me.word b).toNat) (e := e) (by omega)
      (by rw [roundDown_of_aligned hb, roundUp_of_aligned ht, Nat.add_sub_cancel_left]; exact hsmall.1) rfl
    rw [roundDown_of_aligned hb, roundUp_of_aligned ht, Int.natCast_add] at hspec
    exact ⟨t, _, hexec, hran, hspec⟩
  case rounded =>
    rintro s d a b e0 e len c rfl rfl hissue htag hopen hspace hsmall he hlow hhigh
    have hdown := roundDown_le (s.me.readG a).cursor e
    have hup := le_roundUp ((s.me.readG a).cursor + (s.me.word b).toNat) e
    obtain ⟨hexp, hle⟩ := expFor_eq_of_smallest hsmall (by omega)
    have hcbndr := computes_cbndr s d a b
    rw [boundCap_true_of_inside htag hopen (by omega) (by omega) (hexp.symm ▸ he), if_neg (by omega)] at hcbndr
    obtain ⟨t, hexec, hran⟩ := hcbndr.ran hissue
    have hsmall' : e ≤ e0 + 1 := Nat.le_trans (Nat.le_of_eq he) (roundedExp_le _ _ e0)
    have hfits := rounded_fits (b := (s.me.readG a).cursor) hsmall.1
    rw [← show e = roundedExp _ _ e0 from he] at hfits
    exact ⟨t, _, hexec, hran, withBounds_spec htag hopen (by omega) hfits rfl⟩

end Sys2Proof.Machine

/-! SUPPORT. Sealing (04 R79): what cseal and cunseal answer, and the first checks that they share. -/

namespace Sys2Proof.Machine

open Sys2Proof Claims

section
variable (s : State) (d a b : BitVec 6)

theorem computes_cseal : Computes (.cseal d a b) s d (sealCap (s.me.readG a) (s.me.readG b)) := ⟨_, .refl (execCseal d a b s), rfl⟩

theorem computes_cunseal : Computes (.cunseal d a b) s d (unsealCap (s.me.readG a) (s.me.readG b)) :=
  ⟨_, .refl (execCunseal d a b s), rfl⟩

end

/-! ## The shared checks -/

section
variable {c x : Reg}

theorem sealChecks_of_untagged (h : c.tag = false) : sealChecks c x = some (.captag, c.low) := if_pos h

theorem sealChecks_of_untagged_authority (hc : c.tag = true) (h : x.tag = false) : sealChecks c x = some (.captag, x.low) := by
  simp [sealChecks, hc, h]

theorem sealChecks_of_sealed_authority (hc : c.tag = true) (hx : x.tag = true) (h : x.otype ≠ 0) :
    sealChecks c x = some (.capseal, x.low) := by
  simp [sealChecks, hc, hx, h]

theorem sealChecks_of_pass (hc : c.tag = true) (hx : x.tag = true) (h : x.otype = 0) : sealChecks c x = none := by
  simp [sealChecks, hc, hx, h]

theorem sealCap_of_check {e : Cause × Word} (h : sealChecks c x = some e) : sealCap c x = .error e := by
  simp only [sealCap, h]

theorem unsealCap_of_check {e : Cause × Word} (h : sealChecks c x = some e) : unsealCap c x = .error e := by
  simp only [unsealCap, h]

theorem Reg.cursorIn_of_within (hlow : x.base ≤ x.cursor) (hhigh : (x.cursor : Int) < x.top) : x.cursorIn = true := by
  simp [Reg.cursorIn, hlow, hhigh]

/-! ## What the two give -/

variable (hchecks : sealChecks c x = none) (hin : x.cursorIn = true)
include hchecks hin

/-- cseal gives the capability the object type that the authority's cursor names (04 R79). -/
theorem sealCap_of_pass (hopen : c.otype = 0) (hperm : x.perm permSEAL = true) (hlow : 1 ≤ x.cursor) (hhigh : x.cursor ≤ 15) :
    sealCap c x = .ok (c.withOtype (BitVec.ofNat 4 x.cursor)) := by
  have hrange : ¬ (x.cursor < 1 ∨ 15 < x.cursor) := by omega
  simp only [sealCap, hchecks, hopen, hperm, hin, or_false, hrange, Bool.not_true, Bool.false_eq_true, ne_eq, not_true, if_false]

/-- cunseal clears the object type, and GLOBAL where the authority does not hold it (04 R79). -/
theorem unsealCap_of_pass (hsealed : c.otype ≠ 0) (hperm : x.perm permUNSEAL = true) (htype : x.cursor = c.otype) :
    unsealCap c x = .ok ((c.withOtype 0).withPerms (if x.perm permGLOBAL then c.perms else c.perms &&& 0xFFE)) := by
  simp only [unsealCap, hchecks, hsealed, hperm, hin, htype, Bool.not_true, Bool.false_eq_true, ne_eq, not_true, if_false]

end

/-- The image that cunseal gives: no object type, and every permission of its source but GLOBAL, which the authority must hold too
(04 R79). -/
theorem unsealed_spec {c r : Reg} {global : Bool}
    (hr : r = (c.withOtype 0).withPerms (if global then c.perms else c.perms &&& 0xFFE)) :
    r.otype = 0 ∧ r.bits.extractLsb' 0 112 = c.bits.extractLsb' 0 112 ∧ (∀ k, 1 ≤ k → k < 12 → r.perm k = c.perm k) ∧
      r.perm permGLOBAL = (c.perm permGLOBAL && global) := by
  have hperm (k : Nat) (hk : k < 12) : r.perm k = (c.perm k && (global || decide (1 ≤ k))) := by
    have hmask : ∀ k < 12, (0xFFE : BitVec 12).getLsbD k = decide (1 ≤ k) := by decide
    rw [hr, Reg.withPerms_perm _ _ hk, Reg.perm_eq c hk]
    cases global with
    | true => exact (Bool.and_true _).symm
    | false => exact (BitVec.getLsbD_and ..).trans (congrArg _ (hmask k hk))
  refine ⟨?_, ?_, fun k h1 h12 => ?_, ?_⟩
  · rw [hr, Reg.withPerms_otype, Reg.withOtype_otype]
    rfl
  · rw [hr, Reg.withPerms_field _ _ _ _ (by decide), Reg.withOtype_low_field]
  · rw [hperm k h12, decide_eq_true h1, Bool.or_true, Bool.and_true]
  · rw [hperm permGLOBAL (by decide)]
    exact congrArg _ (Bool.or_false _)

/-! ## Checks that fail -/

section
variable {s : State} {d a b : BitVec 6} {i : Instr}

theorem computes_of_narrowing (h : i = .cbnd d a b ∨ i = .cbndr d a b) :
    ∃ rounded, Computes i s d (boundCap rounded (s.me.readG a) (s.me.word b)) := by
  obtain rfl | rfl := h
  · exact ⟨false, computes_cbnd s d a b⟩
  · exact ⟨true, computes_cbndr s d a b⟩

theorem computes_of_sealing {e : Cause × Word} (h : i = .cseal d a b ∨ i = .cunseal d a b)
    (hcheck : sealChecks (s.me.readG a) (s.me.readG b) = some e) : Computes i s d (.error e) := by
  obtain rfl | rfl := h
  · exact sealCap_of_check hcheck ▸ computes_cseal s d a b
  · exact unsealCap_of_check hcheck ▸ computes_cunseal s d a b

end

/-- Settles O4: with the checks passed each gives the image above, and each failing check in its turn decides the cause. -/
theorem sealingAndItsChecks : Obligations.SealingAndItsChecks := by
  unfold Obligations.SealingAndItsChecks
  refine ⟨?gives, ?checks⟩
  case gives =>
    rintro s d a b c x rfl rfl hissue hc hx hauth hlow hhigh
    have hchecks := sealChecks_of_pass hc hx hauth
    have hin := Reg.cursorIn_of_within hlow hhigh
    refine ⟨fun hopen hperm h1 h15 => ?_, fun hsealed hperm htype => ?_⟩
    · have hseal := computes_cseal s d a b
      rw [sealCap_of_pass hchecks hin hopen hperm h1 h15] at hseal
      obtain ⟨t, hexec, hran⟩ := hseal.ran hissue
      refine ⟨t, _, hexec, hran, hc, ?_, Reg.withOtype_low_field _ _, Reg.withOtype_perms _ _⟩
      rw [Reg.withOtype_otype, BitVec.toNat_ofNat, Nat.mod_eq_of_lt (by omega)]
    · have hunseal := computes_cunseal s d a b
      rw [unsealCap_of_pass hchecks hin hsealed hperm htype] at hunseal
      obtain ⟨t, hexec, hran⟩ := hunseal.ran hissue
      exact ⟨t, _, hexec, hran, hc, unsealed_spec rfl⟩
  case checks =>
    intro s u d a b i hi hissue
    have hreads : scalarReads i = [.g a, .g b, .g d] := by obtain rfl | rfl | rfl | rfl := hi <;> rfl
    rw [← hreads] at hissue
    refine ⟨fun hc => ?_, fun hc hnarrow hsealed => ?_, fun hc hnarrow hopen hout => ?_, fun hc hseal hx => ?_,
      fun hc hseal hx hauth => ?_⟩
    · obtain hnarrow | hseal := or_assoc.mpr hi
      · obtain ⟨rounded, hcomputes⟩ := computes_of_narrowing (s := s) hnarrow
        rw [boundCap_of_untagged _ _ hc] at hcomputes
        exact hcomputes.trap hissue
      · exact (computes_of_sealing hseal (sealChecks_of_untagged hc)).trap hissue
    · obtain ⟨rounded, hcomputes⟩ := computes_of_narrowing (s := s) hnarrow
      rw [boundCap_of_sealed _ _ hc hsealed] at hcomputes
      exact hcomputes.trap hissue
    · obtain ⟨rounded, hcomputes⟩ := computes_of_narrowing (s := s) hnarrow
      rw [boundCap_of_outside _ hc hopen hout] at hcomputes
      exact hcomputes.trap hissue
    · exact (computes_of_sealing hseal (sealChecks_of_untagged_authority hc hx)).trap hissue
    · exact (computes_of_sealing hseal (sealChecks_of_sealed_authority hc hx hauth)).trap hissue

end Sys2Proof.Machine

/-! SUPPORT. Transfers of control (05 R91 to R93): a branch is a transfer under a condition, a jump through a capability replaces the
PCC. -/

namespace Sys2Proof.Machine

open Sys2Proof Claims

/-- A strand that has joined its chunk and set registers, the PC among them, is done. -/
theorem ran_jump_joined (s : State) (cs : List Chunk) (n : Nat) (f : Arch → Arch) :
    Ran s (Act.jump ((s.joined cs n).onArch s.cur f)).settle (f s.me) (s.strand s.cur).out := by
  rw [State.onArch, State.onStrand, State.joined_strand, State.joined, State.setStrand_setStrand]
  exact ran_jump (k := s.serial) rfl

section
variable {reads : List RegName} {s u : State} {body : State → Act}

/-- An instruction that does nothing but replace registers, the PC among them. -/
theorem Issues.ran_jump_arch (h : Issues false reads s u) {f : Arch → Arch} (hb : body u = .jump (u.onArch u.cur f)) :
    ∃ t, issue false reads s body = .next t ∧ Ran s t (f s.me) (s.strand s.cur).out := by
  refine ⟨_, issue_of_issues h body, ?_⟩
  obtain ⟨cs, n, rfl⟩ := h.eq
  rw [hb]
  exact ran_jump_joined s cs n f

/-- A jump through a capability that it may be fetched under (05 R93). -/
theorem jumpThrough_ran (h : Issues false reads s u) {a : BitVec 6} {f : Arch → Arch}
    (hc : checkCap s.me.smode (s.me.readG a) (s.me.readG a).cursor 4 [permX] 4 = none) :
    ∃ t, issue false reads s (jumpThrough a f) = .next t ∧ Ran s t (within (f s.me) (s.me.readG a)) (s.strand s.cur).out := by
  refine h.ran_jump_arch (f := fun x => within (f x) (s.me.readG a)) ?_
  rw [← h.me, State.me] at hc ⊢
  unfold jumpThrough
  simp only [hc]
  rfl

theorem jumpThrough_trap (h : Issues false reads s u) {a : BitVec 6} {f : Arch → Arch} {cause : Cause}
    (hc : checkCap s.me.smode (s.me.readG a) (s.me.readG a).cursor 4 [permX] 4 = some cause) :
    issue false reads s (jumpThrough a f) = .next (u.raise s.cur cause (s.me.word a)) := by
  rw [issue_of_issues h, ← h.cur]
  rw [← h.me, State.me] at hc ⊢
  unfold jumpThrough
  simp only [hc]
  rfl

end

theorem bit_injective {a b : Bool} (h : bit a = bit b) : a = b := by
  revert a b
  decide

/-- Each conditional branch tests its condition on its two sources (05 R91). -/
theorem exec_of_branchOf {s : State} {i : Instr} {a b : BitVec 6} {holds : Bool} {off : BitVec 10}
    (h : branchOf s.me i = some (a, b, holds, off)) :
    ∃ c, exec i s = branch c a b off s ∧ c.holds (s.me.word a) (s.me.word b) = holds := by
  unfold branchOf at h
  split at h <;> cases h
  case h_1 => exact ⟨.eq, rfl, bit_injective (Cond.holds_eq _ _)⟩
  case h_2 => exact ⟨.ne, rfl, bit_injective (Cond.holds_ne _ _)⟩
  case h_3 => exact ⟨.lt, rfl, bit_injective (Cond.holds_lt _ _)⟩
  case h_4 => exact ⟨.ge, rfl, bit_injective (Cond.holds_ge _ _)⟩
  case h_5 => exact ⟨.lo, rfl, bit_injective (Cond.holds_lo _ _)⟩
  case h_6 => exact ⟨.hs, rfl, bit_injective (Cond.holds_hs _ _)⟩

/-- What a branch does in the state in which it acts: a transfer, or nothing (05 R91). -/
theorem branch_eq_issue (c : Cond) (a b : BitVec 6) (off : BitVec 10) (s : State) :
    ∃ body, branch c a b off s = issue false [.g a, .g b] s body ∧
      ∀ u : State, body u = if c.holds (u.me.word a) (u.me.word b) then transfer u (u.me.pcc.low + 4 * off.signExtend 64) id
        else .done u :=
  ⟨_, rfl, fun _ => rfl⟩

/-- Settles O7: a branch is a transfer exactly when its condition holds; jr and callr jump through a capability. -/
theorem branchesAndRegisterJumps : Obligations.BranchesAndRegisterJumps := by
  unfold Obligations.BranchesAndRegisterJumps
  refine ⟨?branches, fun s u a => ⟨fun h => ⟨jumpThrough_ran h, fun cause => jumpThrough_trap h⟩,
    fun h => ⟨jumpThrough_ran h, fun cause => jumpThrough_trap h⟩⟩⟩
  case branches =>
    intro s u i a b holds off hbranch hissue
    obtain ⟨c, hexec, hcond⟩ := exec_of_branchOf hbranch
    obtain ⟨body, hbody, hu⟩ := branch_eq_issue c a b off s
    specialize hu u
    rw [hissue.me, hcond] at hu
    rw [hexec, hbody]
    refine ⟨?_, ?_⟩
    · rintro rfl
      exact hissue.ran_same hu
    · rintro rfl target rfl
      rw [if_pos rfl, target_eq] at hu
      exact ⟨transfer_ran hissue hu, fun cause => transfer_trap hissue hu⟩

/-- What jmp and call do in the state in which they act: a transfer to a target relative to the PC (05 R92). -/
def jumpBy (off : BitVec 25) (f : Arch → Arch) (s : State) : Act := transfer s (s.pc s.cur + 4 * off.signExtend 64) f

theorem exec_jmp (off : BitVec 25) (s : State) : exec (.jmp off) s = issue false [] s (jumpBy off id) := rfl
theorem exec_call (off : BitVec 25) (s : State) :
    exec (.call off) s = issue false [.g 1] s (jumpBy off fun x => x.writeG 1 x.link) := rfl

theorem jumpBy_eq_transfer {s u : State} (hme : u.me = s.me) (off : BitVec 25) (f : Arch → Arch) :
    jumpBy off f u = transfer u (BitVec.ofInt 64 (s.me.pcc.low.toInt + 4 * off.toInt)) f := by
  rw [← target_eq, ← hme]
  rfl

/-- Settles O8: both are transfers; call writes lk first, which leaves the PCC, and lk is its destination. -/
theorem jumpsAndCallsStayInTheCode : Obligations.JumpsAndCallsStayInTheCode := by
  unfold Obligations.JumpsAndCallsStayInTheCode
  rintro s u off target rfl
  rw [exec_jmp, exec_call]
  refine ⟨fun h => ?jmp, fun h => ?call, fun hpark hout => ?pending⟩
  case jmp =>
    have hbody := jumpBy_eq_transfer h.me off id
    exact ⟨transfer_ran h hbody, fun cause => transfer_trap h hbody⟩
  case call =>
    have hbody := jumpBy_eq_transfer h.me off fun x => x.writeG 1 x.link
    refine ⟨?_, fun cause => transfer_trap h hbody⟩
    rw [goto, Arch.writeG_pcc]
    exact transfer_ran h hbody
  case pending => exact issue_of_out hpark (before := []) (after := []) rfl (by simp) hout

end Sys2Proof.Machine

/-! SUPPORT. Repeat frames and nop (05 R96, R100): the fetch of a frame's words orders what the core has used, and where an instruction
that only moves on moves to. -/

namespace Sys2Proof.Machine

open Sys2Proof Claims

/-! ## The fetch of words -/

/-- What the use of a line does depends on the cores and on the strand's domain, which the chunks have no part in (05 R89, 08 R154). -/
theorem State.touchLine_joined (s : State) (cs : List Chunk) (n sid a : Nat) :
    (s.joined cs n).touchLine sid a = (s.touchLine sid a).joined cs n := by
  have hdomain : ((s.joined cs n).strand sid).domain = (s.strand sid).domain := by
    by_cases h : sid = s.cur
    · rw [h, State.joined_strand]
    · rw [State.joined_others s cs n h]
  unfold State.touchLine State.usePlb
  rw [hdomain]
  rfl

theorem State.touchWords_joined (s : State) (cs : List Chunk) (n sid a k : Nat) :
    (s.joined cs n).touchWords sid a k = (s.touchWords sid a k).joined cs n := by
  unfold State.touchWords forAll
  induction List.range k generalizing s with
  | nil => rfl
  | cons j l ih => rw [List.foldl_cons, List.foldl_cons, State.touchLine_joined, ih]

/-- The fetch of words changes the cores alone. -/
theorem State.touchWords_coresOnly (s : State) (sid a k : Nat) : CoresOnly s (s.touchWords sid a k) :=
  forAll_rel CoresOnly CoresOnly.refl CoresOnly.trans _
    (fun s j => by obtain ⟨c, hc, -⟩ := s.touchLine_eq sid (a + 4 * j); exact ⟨_, hc⟩) _ s

/-- What ran after nothing but the cores had changed. -/
theorem Ran.of_coresOnly {s v t : State} {x : Arch} {out : List Out} (hv : CoresOnly s v) (h : Ran v t x out) :
    Own s t x out ∧ t.cores = v.cores ∧ { t with strands := s.strands, cores := s.cores, serial := s.serial } = s := by
  obtain ⟨c, rfl⟩ := hv
  obtain ⟨⟨harch, hout, hwait, hown, hothers⟩, hrest⟩ := h
  have hcores := congrArg State.cores hrest
  have hsame := congrArg (fun v : State => { v with cores := s.cores }) hrest
  exact ⟨⟨harch, hout, hwait, hown, hothers⟩, hcores, hsame⟩

/-- An instruction that fetches words of code and then sets the PC. -/
theorem Issues.ran_fetching {reads : List RegName} {s u : State} (h : Issues false reads s u) {body : State → Act} {a n : Nat}
    {f : Arch → Arch} (hb : body u = .jump ((u.touchWords u.cur a n).onArch u.cur f)) :
    ∃ t, issue false reads s body = .next t ∧ RanFetching s t a n (f s.me) (s.strand s.cur).out := by
  refine ⟨_, issue_of_issues h body, ?_⟩
  obtain ⟨cs, k, rfl⟩ := h.eq
  obtain ⟨c, hc⟩ := s.touchWords_coresOnly s.cur a n
  have hran := ran_jump_joined ({ s with cores := c } : State) cs k f
  obtain ⟨hown, hused, hrest⟩ := hran.of_coresOnly ⟨c, rfl⟩
  rw [hb, State.joined_cur, State.touchWords_joined, hc]
  exact ⟨hown, by rw [hused, hc], hrest⟩

/-! ## rpt (05 R96) -/

section
variable {u : State} {len : BitVec 4} {d a b : BitVec 2} {words : List (BitVec 32)}
  (hcap : checkCap u.me.smode u.me.pcc (u.me.pcc.low + 4).toNat (4 * (len.toNat + 1)) [permX] 0 = none)
  (hwords : frameWords u.me.smode (u.fetchWord u.cur u.me.pcc) (u.me.pcc.low + 4).toNat (len.toNat + 1) = .ok words)
include hcap hwords

/-- A count of zero passes the frame by. -/
theorem startFrame_of_zero : startFrame len d a b (.ok 0) u =
    .jump ((u.touchWords u.cur (u.me.pcc.low + 4).toNat (len.toNat + 1)).onArch u.cur fun x =>
      goto x (u.me.pcc.low + 4 + BitVec.ofNat 64 (4 * (len.toNat + 1)))) := by
  rw [State.me] at hcap hwords ⊢
  unfold startFrame
  simp only [hcap, hwords, (u.touchWords_coresOnly _ _ _).cur]
  rfl

/-- Any other starts it at its first word. -/
theorem startFrame_of_pos {k : Nat} (hk : 0 < k) : startFrame len d a b (.ok k) u =
    .jump ((u.touchWords u.cur (u.me.pcc.low + 4).toNat (len.toNat + 1)).onArch u.cur fun x =>
      { x with
        pcc := x.pcc.withCursor (u.me.pcc.low + 4), fbuf := (u.me.pcc.low + 4, words)
        frame := some { len := len.toNat + 1, index := 0, dstep := d.toNat, astep := a.toNat, bstep := b.toNat, left := k,
                        k := 0, base := u.me.pcc.low + 4, words := words } }) := by
  rw [State.me] at hcap hwords ⊢
  obtain ⟨n, rfl⟩ := Nat.exists_eq_add_of_lt hk
  unfold startFrame
  simp only [hcap, hwords, (u.touchWords_coresOnly _ _ _).cur]

/-- A count that is too large is found after the words have been fetched. -/
theorem startFrame_of_error {v : Word} : startFrame len d a b (.error v) u =
    .trap (u.touchWords u.cur (u.me.pcc.low + 4).toNat (len.toNat + 1)) .ill v := by
  rw [State.me] at hcap hwords ⊢
  unfold startFrame
  simp only [hcap, hwords]

end

theorem frameCount_of_le {n : Nat} (h : n ≤ 16384) : frameCount (BitVec.ofNat 64 n) = .ok n := by
  have hn : (BitVec.ofNat 64 n).toNat = n := by rw [BitVec.toNat_ofNat]; omega
  rw [frameCount, hn, if_neg (by omega)]

theorem frameCount_of_lt {n : Nat} (h : 16384 < n) (hlt : n < 2 ^ 64) :
    frameCount (BitVec.ofNat 64 n) = .error (BitVec.ofNat 64 n) := by
  have hn : (BitVec.ofNat 64 n).toNat = n := by rw [BitVec.toNat_ofNat, Nat.mod_eq_of_lt hlt]
  rw [frameCount, hn, if_pos h]

/-- Both forms of rpt start a frame with their count, which 64 bits hold. -/
theorem exec_rpt {s u : State} {i : Instr} {len : BitVec 4} {d a b : BitVec 2} {count : Nat}
    (h : (∃ cnt : BitVec 14, i = .rptConst len d a b cnt ∧ count = cnt.toNat + 1 ∧ Issues false [] s u) ∨
      ∃ g : BitVec 6, i = .rptReg len d a b g ∧ count = (s.me.word g).toNat ∧ Issues false [.g g] s u) :
    count < 2 ^ 64 ∧ ∃ reads body, Issues false reads s u ∧ exec i s = issue false reads s body ∧
      body u = startFrame len d a b (frameCount (BitVec.ofNat 64 count)) u := by
  obtain ⟨cnt, rfl, rfl, hissue⟩ | ⟨g, rfl, rfl, hissue⟩ := h
  · have hcnt : cnt.toNat + 1 ≤ 16384 := cnt.isLt
    exact ⟨by omega, [], _, hissue, rfl, by rw [frameCount_of_le hcnt]⟩
  · refine ⟨(s.me.word g).isLt, [.g g], _, hissue, rfl, ?_⟩
    rw [BitVec.ofNat_toNat, BitVec.setWidth_eq, ← hissue.me]
    rfl

/-! ## Where an instruction moves on to (05 R96, R100) -/

theorem getLast?_onLast (f : Chunk → Chunk) (l : List Chunk) : (onLast f l).getLast? = l.getLast?.map f := by
  induction l with
  | nil => rfl
  | cons c cs ih =>
    cases cs with
    | nil => rfl
    | cons d cs =>
      have hskip : onLast f (c :: d :: cs) = c :: onLast f (d :: cs) := rfl
      rw [hskip, List.getLast?_cons, ih, List.getLast?_cons_cons, List.getLast?_cons]
      rfl

theorem Strand.opened_onOpen (t : Strand) (f : Chunk → Chunk) : (t.onOpen f).opened = t.opened.map f :=
  getLast?_onLast f t.chunks

section
variable {a : Arch} {f : Frame}

theorem Arch.advance_of_no_frame (h : a.frame = none) : a.advance = { a with pcc := a.pcc.withCursor (a.pcc.low + 4) } := by
  simp only [Arch.advance, h]

theorem Arch.advance_of_next_index (h : a.frame = some f) (hindex : f.index + 1 < f.len) :
    a.advance = { a with pcc := a.pcc.withCursor (a.pcc.low + 4), frame := some { f with index := f.index + 1 } } := by
  simp only [Arch.advance, h, if_pos hindex]

theorem Arch.advance_of_next_iteration (h : a.frame = some f) (hindex : f.len ≤ f.index + 1) (hleft : 1 < f.left) :
    a.advance = { a with pcc := a.pcc.withCursor f.base, frame := some { f with index := 0, left := f.left - 1, k := f.k + 1 } } := by
  simp only [Arch.advance, h, if_neg (Nat.not_lt.mpr hindex), if_pos hleft]

theorem Arch.advance_of_frame_end (h : a.frame = some f) (hindex : f.len ≤ f.index + 1) (hleft : f.left ≤ 1) :
    a.advance = { a with pcc := a.pcc.withCursor (f.base + BitVec.ofNat 64 (4 * f.len)), frame := none } := by
  simp only [Arch.advance, h, if_neg (Nat.not_lt.mpr hindex), if_neg (Nat.not_lt.mpr hleft)]

end

/-- An instruction that completes counts in the chunk that it is in (01 R16). -/
theorem opened_settle_done {v : State} {c : Chunk} (h : (v.strand v.cur).opened = some c) :
    ((Act.done v).settle.strand v.cur).opened = some { c with count := c.count + 1 } := by
  simp only [Act.settle, State.counted, State.onArch, State.onStrand, State.setStrand_cur, State.strand_setStrand_self]
  have hopen := ({ v.strand v.cur with arch := (v.strand v.cur).arch.advance }).opened_onOpen fun c => { c with count := c.count + 1 }
  exact hopen.trans (congrArg _ h)

theorem Ran.me {s t : State} {x : Arch} {out : List Out} (h : Ran s t x out) : t.me = x := by
  have hcur := congrArg State.cur h.rest
  rw [State.me, hcur, h.arch]

/-- Settles O9: rpt fetches and checks its words, and its count decides the rest; nop moves on, wherever it stands. -/
theorem repeatAndNopMoveOn : Obligations.RepeatAndNopMoveOn := by
  unfold Obligations.RepeatAndNopMoveOn
  refine ⟨?rpt, ?nop⟩
  case rpt =>
    intro s u i len d a b count words hform hcap hwords
    obtain ⟨hlt, reads, body, hissue, hexec, hbody⟩ := exec_rpt hform
    rw [← hissue.me] at hcap
    rw [← hissue.me, ← hissue.cur] at hwords
    rw [hexec]
    refine ⟨?_, fun hpos hle => ?_, fun hgt => ?_⟩
    · rintro rfl
      rw [frameCount_of_le (Nat.zero_le _), startFrame_of_zero hcap hwords, hissue.me] at hbody
      exact hissue.ran_fetching hbody
    · rw [frameCount_of_le hle, startFrame_of_pos hcap hwords hpos, hissue.me] at hbody
      exact hissue.ran_fetching hbody
    · rw [frameCount_of_lt hgt hlt, startFrame_of_error hcap hwords, hissue.me] at hbody
      rw [issue_of_issues hissue, hbody, Act.settle, (u.touchWords_coresOnly _ _ _).cur, hissue.cur]
  case nop =>
    intro s u hissue
    obtain ⟨t, ht, hran⟩ := hissue.ran_same (body := .done) rfl
    have hdone : t = (Act.done u).settle := by
      rw [issue_of_issues hissue] at ht
      cases ht
      rfl
    refine ⟨t, ht, hran, fun c hc => ?_, fun hnone => ?_, fun f hf => ⟨fun hi => ?_, fun hi hl => ?_, fun hi hl => ?_⟩⟩
    · rw [← hissue.cur] at hc ⊢
      rw [hdone, opened_settle_done hc]
    · rw [hran.me, Arch.advance_of_no_frame hnone]
      exact ⟨rfl, hnone⟩
    · rw [hran.me, Arch.advance_of_next_index hf hi]
      exact ⟨rfl, rfl⟩
    · rw [hran.me, Arch.advance_of_next_iteration hf hi hl]
      exact ⟨rfl, rfl⟩
    · rw [hran.me, Arch.advance_of_frame_end hf hi hl]
      exact ⟨rfl, rfl⟩

end Sys2Proof.Machine

/-! SUPPORT. The instructions of codelets (05 R101, 14 R270 to R272, R276 to R278): the end of a firing, the checks of a record
capability, and the messages to a record's owner and to the victim of a steal. -/

namespace Sys2Proof.Machine

open Sys2Proof Claims

/-! ## The end of a firing (05 R101, 14 R270) -/

/-- A strand that its firing has left: nothing of the firing is pending, and its registers stay but for the mode. -/
def Strand.freed (t : Strand) : Strand :=
  { t with firing := none, asleep := false, wait := .none, trap := none, halted := false, chunks := [],
           mchk := none, ganglost := none, preempt := false, engfault := [],
           arch := { t.arch with cpdepth := 0, trail := t.arch.trail &&& 0xFFFF8000FFFFFFFF, frame := none,
                                 smode := false, hf := false } }

/-- A core whose claim, if the strand held it, is free (13 R239). -/
def Core.released (sid : Nat) (c : Core) : Core := if c.claim = some sid then { c with claim := none } else c

theorem Core.released_claim (sid : Nat) (c : Core) : (c.released sid).claim = if c.claim = some sid then none else c.claim := by
  unfold Core.released
  split <;> rfl

/-- A strand is freed with its core's claim; what its commands and remote accesses are marked with does not matter here. -/
theorem State.freeStrand_eq (s : State) (sid : Nat) :
    ∃ q r, s.freeStrand sid =
      { (s.onCore (coreOf sid) (Core.released sid)).onStrand sid Strand.freed with quires := q, remotes := r } := by
  unfold State.freeStrand
  dsimp only
  split <;> split <;> exact ⟨_, _, rfl⟩

/-- The registers of a strand that executes cdone: it counts itself, and a handler discards its repeat context (05 R101). -/
def Arch.done (a : Arch) : Arch :=
  { a.count 8 1 with uset := if a.hf then { a.uset with repctx := 0 } else a.uset }

/-- With no machine check pending the firing only ends (07 R127). -/
theorem State.done_eq {u : State} (h : (u.strand u.cur).mchk = none) :
    ∃ q r, u.done = { ((u.onArch u.cur Arch.done).onCore (coreOf u.cur) (Core.released u.cur)).onStrand u.cur Strand.freed with
      quires := q, remotes := r } := by
  have hmchk : ((u.onArch u.cur Arch.done).strand u.cur).mchk = none := by simp [h]
  have hdone : u.done = (u.onArch u.cur Arch.done).freeStrand u.cur := by
    show State.endFiring (u.onArch u.cur Arch.done) u.cur = _
    simp only [State.endFiring, hmchk]
  rw [hdone]
  exact State.freeStrand_eq _ _

/-- cdone waits while a register is outstanding (05 R101). -/
theorem cdone_waits {s u : State} (h : MayEnd false false [] s u) (hbusy : (u.strand s.cur).busy = true) :
    exec .cdone s = .next (u.waiting .instr) := by
  rw [← h.cur] at hbusy
  refine (terminate_of_mayEnd h _).trans ?_
  simp only [hbusy, if_true, Act.settleT]

theorem cdone_ends {s u : State} (h : MayEnd false false [] s u) (hidle : (u.strand s.cur).busy = false) :
    exec .cdone s = .next u.done := by
  rw [← h.cur] at hidle
  refine (terminate_of_mayEnd h _).trans ?_
  simp only [hidle, Bool.false_eq_true, if_false, Act.settleT]

/-! ## Messages to the owner of a record (14 R271, R272, R276) -/

/-- A record capability passes its checks in the order of 14 R276. -/
theorem State.recordOf_eq_ok_iff (u : State) (c : Reg) (ref : Word) :
    u.recordOf c = .ok ref ↔ checkCap u.me.smode c c.cursor 64 [permST] 64 = none ∧
      ∃ cid off, u.place (coreOf u.cur) c.cursor = .pad cid 0 off ∧
        (u.me.smode = false → u.isMember u.me.gangNo cid = true) ∧ ¬ (u.padSize cid ≤ off + 4096 ∧ off < u.padSize cid) ∧
        ref = BitVec.ofNat 64 (cid * 65536 + off / 64) := by
  rw [State.me]
  constructor
  · intro h
    unfold State.recordOf at h
    dsimp only at h
    split at h
    · cases h
    · next hcheck =>
      split at h
      · next cid off hplace =>
        split at h
        · cases h
        · next hmember =>
          split at h
          · cases h
          · next harea =>
            cases h
            exact ⟨hcheck, cid, off, hplace, by simpa using hmember, harea, rfl⟩
      · cases h
  · rintro ⟨hcheck, cid, off, hplace, hmember, harea, rfl⟩
    have hpass : (!(u.arch u.cur).smode && !u.isMember (u.arch u.cur).gangNo cid) = false := by simpa using hmember
    unfold State.recordOf
    simp only [hcheck, hplace, hpass, Bool.false_eq_true, if_false, if_neg harea]
    rfl

/-- A strand whose next chunk commits after one more place (14 R271). -/
def Strand.addPlace (id : Nat) (t : Strand) : Strand := { t with places := t.places ++ [id] }

/-- What a terminator leaves that completes with one more place. -/
theorem settleT_addPlace (u : State) (id : Nat) :
    let t := (Act.done (u.onStrand u.cur (Strand.addPlace id))).settleT
    t.arch u.cur = u.me.ended ∧ (t.strand u.cur).places = (u.strand u.cur).places ++ [id] ∧
      (t.strand u.cur).out = (u.strand u.cur).out ∧ (∀ k, k ≠ u.cur → t.strand k = u.strand k) := by
  obtain ⟨harch, -, hown, hothers, -⟩ := settleT_done (v := u.onStrand u.cur (Strand.addPlace id))
  have hme : (u.onStrand u.cur (Strand.addPlace id)).arch u.cur = u.me := by
    rw [State.arch, State.strand_onStrand_self]
    rfl
  rw [State.onStrand_cur, hme] at harch
  rw [State.onStrand_cur, State.strand_onStrand_self] at hown
  have hplaces := congrArg Strand.places hown
  have hout := congrArg Strand.out hown
  exact ⟨harch, hplaces, hout, fun k hk => (hothers k hk).trans (State.strand_onStrand_ne u hk _)⟩

section
variable {s u : State} {x y : BitVec 6} {kind : State → Word → MsgKind} (h : MayEnd false false [.g x, .g y] s u)
include h

theorem recordMsg_trap {cause : Cause} {v : Word} (hrec : u.recordOf (u.me.readG x) = .error (.trap cause v)) :
    recordMsg x y kind s = .next (u.raise s.cur cause v) := by
  rw [← h.cur]
  rw [State.me] at hrec
  refine (terminate_of_mayEnd h _).trans ?_
  simp only [hrec, Stop.act, Act.settleT]

/-- What is sent to a record on the die takes a place before the strand's next chunk (14 R271). -/
theorem recordMsg_near {ref : Word} (hrec : u.recordOf (u.me.readG x) = .ok ref)
    (hnear : dieOfCore (refCore ref) = dieOf s.cur) :
    recordMsg x y kind s = .next (Act.done ((u.send (coreOf u.cur) (kind u ref)).onStrand u.cur (Strand.addPlace u.serial))).settleT := by
  rw [← h.cur] at hnear
  rw [State.me] at hrec
  refine (terminate_of_mayEnd h _).trans ?_
  simp only [hrec, hnear, beq_self_eq_true, Bool.not_true, Bool.false_and, Bool.false_eq_true, if_false, if_true]
  rfl

/-- What is sent to another die waits for the strand's stores (14 R272). -/
theorem recordMsg_far_waits {ref : Word} (hrec : u.recordOf (u.me.readG x) = .ok ref)
    (hfar : dieOfCore (refCore ref) ≠ dieOf s.cur) (hstores : u.storesOut s.cur 2 = true) :
    recordMsg x y kind s = .next (u.waiting .instr) := by
  rw [← h.cur] at hfar hstores
  rw [State.me] at hrec
  refine (terminate_of_mayEnd h _).trans ?_
  simp only [hrec, beq_false_of_ne hfar, hstores, Bool.not_false, Bool.and_self, if_true, Act.settleT]

theorem recordMsg_far {ref : Word} (hrec : u.recordOf (u.me.readG x) = .ok ref)
    (hfar : dieOfCore (refCore ref) ≠ dieOf s.cur) (hstores : u.storesOut s.cur 2 = false) :
    recordMsg x y kind s = .next (Act.done (u.send (coreOf u.cur) (kind u ref))).settleT := by
  rw [← h.cur] at hfar hstores
  rw [State.me] at hrec
  refine (terminate_of_mayEnd h _).trans ?_
  simp only [hrec, beq_false_of_ne hfar, hstores, Bool.and_false, Bool.false_eq_true, if_false]

end

/-- The core that a reference names (14 R260). -/
theorem refCore_eq (ref : Word) : refCore ref = ref.toNat / 2 ^ 16 % 1024 := by
  rw [refCore, BitVec.extractLsb'_toNat, Nat.shiftRight_eq_div_pow]

/-- cdec, cpush and carm send the messages of 14 R277. -/
theorem exec_of_recordMessage {u : State} {ref0 : Word} {i : Instr} {x y : BitVec 6} {m0 : MsgKind}
    (h : recordMessage u ref0 i = some (x, y, m0)) :
    ∃ kind, (∀ s, exec i s = recordMsg x y kind s) ∧ ∀ ref, recordMessage u ref i = some (x, y, kind u ref) := by
  unfold recordMessage at h
  split at h <;> cases h
  case h_1 => exact ⟨_, fun _ => rfl, fun _ => rfl⟩
  case h_2 => exact ⟨_, fun _ => rfl, fun ref => by rw [refCore_eq]; rfl⟩
  case h_3 => exact ⟨_, fun _ => rfl, fun _ => rfl⟩

/-! ## csteal (14 R278) -/

/-- A strand with one more result outstanding. -/
def Strand.addOut (o : Out) (t : Strand) : Strand := { t with out := t.out ++ [o] }

/-- A terminator that leaves a result outstanding, in a state whose strands differ in nothing else. -/
theorem own_end_pending {u v : State} {chunk : Nat} {dsts : List RegName} {src : Source} (hcur : v.cur = u.cur)
    (hst : v.strands = (u.onStrand u.cur (Strand.addOut (left u chunk dsts src))).strands) :
    Own u (Act.done v).settleT u.me.ended ((u.strand u.cur).out ++ [left u chunk dsts src]) :=
  own_end (x := (u.strand u.cur).addOut (left u chunk dsts src)) hcur hst rfl

section
variable {s u : State} {x y : BitVec 6} (h : MayEnd false false [.g y, .g x] s u)
include h

/-- Nothing is sent where no other core has the COORD. -/
theorem csteal_none (hnone : ∀ v, u.coordCore u.me.gangNo (u.me.word y) = some v → v = coreOf s.cur) :
    exec (.csteal x y) s = .next (Act.done (u.setPendingT [.g x] (.ready [.g x (.data 0)] .none))).settleT := by
  have hvictim : (u.coordCore u.me.gangNo (u.me.word y)).filter (· != coreOf u.cur) = none := by
    rw [h.cur, Option.filter_eq_none_iff]
    exact fun v hv => by simp [hnone v hv]
  refine (terminate_of_mayEnd h _).trans ?_
  simp only [hvictim]

theorem csteal_some {v : Nat} (hv : u.coordCore u.me.gangNo (u.me.word y) = some v) (hne : v ≠ coreOf s.cur) :
    exec (.csteal x y) s = .next (Act.done ((u.setPendingT [.g x] .reply).send (coreOf u.cur)
      (.steal u.cur u.serial v u.me.gangNo))).settleT := by
  have hvictim : (u.coordCore u.me.gangNo (u.me.word y)).filter (· != coreOf u.cur) = some v := by
    rw [h.cur, hv]
    simp [hne]
  refine (terminate_of_mayEnd h _).trans ?_
  simp only [hvictim]

end

/-! ## The statement -/

/-- A firing that ends leaves the registers, the memory and the other strands (14 R270). -/
theorem cdone_spec {s u : State} (h : MayEnd false false [] s u) (hidle : (u.strand s.cur).busy = false)
    (hmchk : (u.strand s.cur).mchk = none) :
    ∃ t, exec .cdone s = .next t ∧ t.strand s.cur = ({ u.strand s.cur with arch := u.me.done } : Strand).freed ∧
      (t.core (coreOf s.cur)).claim =
        (if (u.core (coreOf s.cur)).claim = some s.cur then none else (u.core (coreOf s.cur)).claim) ∧
      (∀ k, k ≠ s.cur → t.strand k = u.strand k) ∧ t.mem = u.mem ∧ t.tags = u.tags ∧ t.msgs = u.msgs := by
  refine ⟨_, cdone_ends h hidle, ?_⟩
  rw [← h.cur] at hmchk ⊢
  obtain ⟨q, r, hdone⟩ := State.done_eq hmchk
  rw [hdone]
  refine ⟨?_, ?_, fun k hk => ?_, rfl, rfl, rfl⟩
  · exact (State.strand_onStrand_self _ _ _).trans (congrArg Strand.freed (State.strand_onArch_self _ _ _))
  · exact (congrArg Core.claim (State.core_onCore_self _ _ _)).trans (Core.released_claim _ _)
  · have harch : (u.onArch u.cur Arch.done).strand k = u.strand k := State.strand_onStrand_ne u hk _
    exact (State.strand_onStrand_ne _ hk _).trans harch

/-- Settles O30: each member ends its chunk, and then does what its lemmas above say. -/
theorem codeletMembersSendMessages : Obligations.CodeletMembersSendMessages := by
  unfold Obligations.CodeletMembersSendMessages
  refine ⟨?done, ?record, State.recordOf_eq_ok_iff, ?steal⟩
  case done =>
    intro s u h
    refine ⟨cdone_waits h, fun hidle hmchk => ?_⟩
    obtain ⟨t, ht, hstrand, hclaim, hothers, hmem, htags, hmsgs⟩ := cdone_spec h hidle hmchk
    have harch : t.arch s.cur = _ := congrArg Strand.arch hstrand
    refine ⟨t, ht, congrArg Strand.firing hstrand, congrArg Strand.chunks hstrand, congrArg Strand.wait hstrand,
      ?_, ?_, ?_, ?_, ?_, ?_, ?_, hclaim, hothers, hmem, htags, hmsgs⟩
    all_goals
      rw [harch]
      rfl
  case record =>
    intro s u i ref0 x y m0 hmsg h
    obtain ⟨kind, hexec, hkind⟩ := exec_of_recordMessage hmsg
    refine ⟨fun cause v hrec => (hexec s).trans (recordMsg_trap h hrec), fun ref m hrec hm => ?_⟩
    obtain rfl : kind u ref = m := by
      rw [hkind ref] at hm
      cases hm
      rfl
    refine ⟨fun hnear => ?_, fun hfar hout => (hexec s).trans (recordMsg_far_waits h hrec hfar hout), fun hfar hout => ?_⟩
    · refine ⟨_, (hexec s).trans (recordMsg_near h hrec hnear), ?_⟩
      rw [← h.cur]
      obtain ⟨harch, hplaces, hout, hothers⟩ := settleT_addPlace (u.send (coreOf u.cur) (kind u ref)) u.serial
      exact ⟨harch, hplaces, hout, rfl, hothers, rfl, rfl, rfl⟩
    · refine ⟨_, (hexec s).trans (recordMsg_far h hrec hfar hout), ?_⟩
      rw [← h.cur]
      exact ⟨end_own rfl rfl, rfl, rfl, rfl, rfl⟩
  case steal =>
    intro s u x y h
    refine ⟨fun hnone => ?_, fun v hv hne => ?_⟩
    · refine ⟨_, (u.strand u.cur).openId - 1, csteal_none h hnone, ?_⟩
      rw [← h.cur]
      exact ⟨own_end_pending rfl rfl, rfl, rfl, rfl, rfl⟩
    · refine ⟨_, (u.strand u.cur).openId - 1, u.serial + 1, csteal_some h hv hne, ?_⟩
      rw [← h.cur]
      exact ⟨own_end_pending rfl rfl, rfl, rfl, rfl, rfl⟩

end Sys2Proof.Machine

/-! SUPPORT. Fills and lookups (05 R89, 06 R104, R113, 08 R154 to R159): what arrives, and where it is put. -/

namespace Sys2Proof.Machine

open Sys2Proof Claims

/-! ## Entries installed -/

theorem mem_install_self {α : Type} {n : Nat} (hn : 0 < n) (x : α) (l : List α) : x ∈ install n x l := by
  obtain ⟨m, rfl⟩ := Nat.exists_eq_add_of_lt hn
  rw [install, Nat.zero_add, List.take_succ_cons]
  exact List.mem_cons_self

/-- An entry that is installed is in the page buffer (08 R157). -/
theorem State.mem_fillPage (s : State) (cid : Nat) (e : PageEntry) : e ∈ ((s.fillPage cid e).core cid).pages := by
  rw [State.fillPage, State.core_onCore_self]
  exact mem_install_self (by decide) _ _

/-! ## What a strand waits for -/

section
variable {s : State} {a : Nat}

/-- The instruction line that a fetch waits for arrives (05 R89). -/
theorem icacheFill_spec {loc : Nat} {e e' : PageEntry} (hwait : (s.strand (s.argN 0)).wait = .fetch a)
    (hentry : s.entryAt (coreOf (s.argN 0)) a = some e) (hunder : s.under e (a / 128 * 128) = .ok loc e')
    (hhalf : e'.st = true → a % 65536 < 32768) (hreach : s.reachable (dieOf (s.argN 0)) loc = true) :
    ∃ t, exec .icacheFill s = .next t ∧ (t.strand (s.argN 0)).wait = .none ∧
      (∃ x ∈ (t.core (coreOf (s.argN 0))).icache, x.line = a / 128 ∧ x.data = s.lineData loc) ∧ t.mem = s.mem := by
  have hserved : (e'.st && decide (32768 ≤ a % 65536)) = false := by
    cases hst : e'.st with
    | false => rfl
    | true => simpa using hhalf hst
  refine ⟨((s.fillPage (coreOf (s.argN 0)) e').onCore (coreOf (s.argN 0)) fun c =>
      { c with icache := cacheLine { line := a / 128, data := s.lineData loc } c.icache }).onStrand (s.argN 0)
        fun t => { t with wait := .none }, ?_, ?_, ?_, rfl⟩
  · show execIcacheFill s = _
    simp only [execIcacheFill, hwait, hentry, hunder, hserved, hreach, Bool.not_true, Bool.false_eq_true, if_false]
  · rw [State.strand_onStrand_self]
  · rw [State.core_onStrand, State.core_onCore_self]
    exact ⟨_, List.mem_cons_self, rfl, rfl⟩

/-- The PLB entry that an instruction waits for arrives (08 R154). -/
theorem plbFill_spec {got : Looked} {p : PlbEntry} (hwait : (s.strand (s.argN 0)).wait = .plb a got)
    (hp : s.plbLookup (coreOf (s.argN 0)) (s.strand (s.argN 0)).domain.toNat a = some p) :
    ∃ t, exec .plbFill s = .next t ∧ (t.strand (s.argN 0)).wait = .looked { got with plb := p :: got.plb } ∧
      p ∈ (t.core (coreOf (s.argN 0))).plb ∧ t.mem = s.mem := by
  refine ⟨(s.onCore (coreOf (s.argN 0)) fun c => { c with plb := install 64 p (c.plb.filter (· ≠ p)) }).onStrand (s.argN 0)
    fun t => { t with wait := .looked { got with plb := p :: got.plb } }, ?_, ?_, ?_, rfl⟩
  · show execPlbFill s = _
    simp only [execPlbFill, hwait, hp]
  · rw [State.strand_onStrand_self]
  · rw [State.core_onStrand, State.core_onCore_self]
    exact mem_install_self (by decide) _ _

/-- An event that changes nothing but what a strand waits for. -/
theorem onStrand_wait_spec (s : State) (sid : Nat) (w : Wait) :
    ((s.onStrand sid fun t => { t with wait := w }).strand sid).wait = w ∧
      { (s.onStrand sid fun t => { t with wait := w }) with strands := s.strands } = s :=
  ⟨by rw [State.strand_onStrand_self], rfl⟩

/-- A region that the table does not cover is noted for the instruction alone (08 R154). -/
theorem plbFill_of_none {got : Looked} (hwait : (s.strand (s.argN 0)).wait = .plb a got)
    (hp : s.plbLookup (coreOf (s.argN 0)) (s.strand (s.argN 0)).domain.toNat a = none) :
    exec .plbFill s =
      .next (s.onStrand (s.argN 0) fun t => { t with wait := .looked { got with plbNone := a :: got.plbNone } }) := by
  show execPlbFill s = _
  simp only [execPlbFill, hwait, hp]

/-- The page-buffer entry that a load waits for arrives (08 R156, R157). -/
theorem translationLookup_spec {got : Looked} {e : PageEntry} (hwait : (s.strand (s.argN 0)).wait = .xlate a got)
    (he : s.lookup (coreOf (s.argN 0)) a = some e) :
    ∃ t, exec .translationLookup s = .next t ∧ (t.strand (s.argN 0)).wait = .looked { got with pages := e :: got.pages } ∧
      e ∈ (t.core (coreOf (s.argN 0))).pages ∧ t.mem = s.mem := by
  refine ⟨(s.fillPage (coreOf (s.argN 0)) e).onStrand (s.argN 0)
    fun t => { t with wait := .looked { got with pages := e :: got.pages } }, ?_, ?_, ?_, rfl⟩
  · show execTranslationLookup s = _
    simp only [execTranslationLookup, hwait, he]
  · rw [State.strand_onStrand_self]
  · rw [State.core_onStrand]
    exact s.mem_fillPage _ e

/-- A failed lookup is not kept in the page buffer (08 R159). -/
theorem translationLookup_of_none {got : Looked} (hwait : (s.strand (s.argN 0)).wait = .xlate a got)
    (he : s.lookup (coreOf (s.argN 0)) a = none) :
    exec .translationLookup s =
      .next (s.onStrand (s.argN 0) fun t => { t with wait := .looked { got with pageNone := a :: got.pageNone } }) := by
  show execTranslationLookup s = _
  simp only [execTranslationLookup, hwait, he]

end

/-- The chunks of a strand when the oldest held store that has no translation takes one (08 R157). -/
def translateFirst (x : Xl) (l : List Chunk) : List Chunk :=
  mapFirst (fun c => c.held.any Piece.pending) (fun c => { c with held := mapFirst Piece.pending (fun q => { q with xl := x }) c.held }) l

/-- A strand that does not wait for a lookup has its oldest untranslated store looked up (08 R157). -/
theorem exec_translationLookup_of_held {s : State} {p : Piece} (hwait : (s.strand (s.argN 0)).wait = .none)
    (hfirst : (s.strand (s.argN 0)).held.find? Piece.pending = some p) :
    ∃ s' : State, s'.strands = s.strands ∧ s'.mem = s.mem ∧
      exec .translationLookup s = .next (s'.onStrand (s.argN 0) fun t =>
        { t with chunks := translateFirst (s.storeXl p.addr.toNat (s.entryAt (coreOf (s.argN 0)) p.addr.toNat)) t.chunks }) := by
  show ∃ s' : State, _ ∧ _ ∧ execTranslationLookup s = _
  simp only [execTranslationLookup, hwait, hfirst]
  cases s.entryAt (coreOf (s.argN 0)) p.addr.toNat with
  | none => exact ⟨s, rfl, rfl, rfl⟩
  | some e => exact ⟨s.fillPage (coreOf (s.argN 0)) e, rfl, rfl, rfl⟩

/-- The oldest held store takes its translation, or its failure, in the background (08 R157, R160). -/
theorem translationLookup_of_held {s : State} {c : Chunk} {p : Piece} {ps : List Piece}
    (hwait : (s.strand (s.argN 0)).wait = .none) (hchunks : (s.strand (s.argN 0)).chunks = [c]) (hheld : c.held = p :: ps)
    (hp : p.xl = .pending) :
    ∃ t, exec .translationLookup s = .next t ∧
      (t.strand (s.argN 0)).held = { p with xl := s.storeXl p.addr.toNat (s.entryAt (coreOf (s.argN 0)) p.addr.toNat) } :: ps ∧
      t.mem = s.mem := by
  have hpending : p.pending = true := by rw [Piece.pending, hp]; rfl
  have hfirst : (s.strand (s.argN 0)).held.find? Piece.pending = some p := by
    simp [Strand.held, hchunks, hheld, hpending]
  obtain ⟨s', hstrands, hmem, hexec⟩ := exec_translationLookup_of_held hwait hfirst
  refine ⟨_, hexec, ?_, hmem⟩
  have hstrand : s'.strand (s.argN 0) = s.strand (s.argN 0) := by rw [State.strand, hstrands]; rfl
  rw [State.strand_onStrand_self, hstrand, hchunks]
  simp [Strand.held, translateFirst, mapFirst, hheld, hpending]

/-- A sector filled into the L1 (06 R104). -/
theorem l1Fill_spec {s : State} {x : L1Line} (hx : (s.core (s.argN 0)).fills[s.argN 1]? = some x) :
    ∃ t, exec .l1Fill s = .next t ∧
      t.core (s.argN 0) = { s.core (s.argN 0) with
        fills := (s.core (s.argN 0)).fills.eraseIdx (s.argN 1)
        l1 := l1Install (l1Sets (s.core (s.argN 0)).msplit.toNat) x (s.core (s.argN 0)).l1 } ∧
      (∀ k, k ≠ s.argN 0 → t.core k = s.core k) ∧ { t with cores := s.cores } = s := by
  refine ⟨_, rfl, ?_, fun k hk => State.core_onCore_ne s hk _, rfl⟩
  rw [State.core_onCore_self, hx]

/-- A read at a sibling's port goes on when no uncommitted chunk there has written what it reads (06 R113). -/
theorem siblingAccess_eq {s : State} {o : Out} {l : LoadReq} {n : Need} (ho : (s.strand (s.argN 0)).outOf (s.argN 1) = some o)
    (hsrc : o.src = .load l) (hn : l.need[s.argN 2]? = some n) (hport : n.port = .sibling) :
    exec .siblingAccess s = .next (if ∀ b ∈ n.locs, s.padWriter (some (s.argN 0)) b = none
      then s.readNeed (s.argN 0) (s.argN 1) (s.argN 2) else s) := by
  show execSiblingAccess s = _
  simp only [execSiblingAccess, ho, Option.map_some, hsrc, hn, hport, true_and, List.all_eq_true, Option.isNone_iff_eq_none]
  exact (apply_ite _ _ _ _).symm

/-! ## Page faults (08 R159) -/

section
variable {s : State} (hfiring : (s.strand (s.argN 0)).firing ≠ none) (hmode : (s.arch (s.argN 0)).smode = true)
  (hcause : (s.arch (s.argN 0)).sset.cause = 0x0B)
include hfiring hmode hcause

/-- The stub of the strand has a page fault to be answered. -/
theorem pgflt_pending : (!((s.strand (s.argN 0)).firing.isSome && (s.arch (s.argN 0)).smode &&
    (s.arch (s.argN 0)).sset.cause == 0x0B)) = false := by
  simp [Option.isSome_iff_ne_none.mpr hfiring, hmode, hcause]

theorem pgfltAnswer_resumes (h1 : s.argN 1 = 1) (hnone : ∀ w ∈ s.bindery.mapWaits, w.sender = s.argN 0 → w.id ≠ ownWait) :
    exec .pgfltAnswer s = .next (s.stubReturn (s.argN 0)) := by
  have hmine : (s.bindery.mapWaits.any fun w => w.sender == s.argN 0 && w.id == ownWait) = false := by
    simpa using hnone
  have hopen : (s.bindery.mapWaits.any fun w => (w.sender == s.argN 0 && w.id == ownWait) && w.open_.any s.stillOpen) = false := by
    rw [List.any_eq_false] at hmine ⊢
    exact fun w hw => by simp [hmine w hw]
  show execPgfltAnswer s = _
  simp only [execPgfltAnswer, pgflt_pending hfiring hmode hcause, h1, hmine, hopen, Bool.false_eq_true, if_false, if_true]
  rfl

theorem pgfltAnswer_waits (h1 : s.argN 1 = 1)
    (hopen : ∃ w ∈ s.bindery.mapWaits, w.sender = s.argN 0 ∧ w.id = ownWait ∧ ∃ c ∈ w.open_, s.stillOpen c = true) :
    exec .pgfltAnswer s = .next s := by
  have hany : (s.bindery.mapWaits.any fun w => (w.sender == s.argN 0 && w.id == ownWait) && w.open_.any s.stillOpen) = true := by
    simpa [and_assoc] using hopen
  show execPgfltAnswer s = _
  simp only [execPgfltAnswer, pgflt_pending hfiring hmode hcause, h1, hany, Bool.false_eq_true, if_false, if_true]
  rfl

theorem pgfltAnswer_installs (h1 : s.argN 1 = 2) {v : State} (hv : s.installPage (s.argN 0) = some v) :
    exec .pgfltAnswer s = .next v := by
  show execPgfltAnswer s = _
  simp only [execPgfltAnswer, pgflt_pending hfiring hmode hcause, h1, hv, Bool.false_eq_true, if_false, if_true]
  rfl

theorem pgfltAnswer_refuses (h1 : s.argN 1 ≠ 1) (h2 : s.argN 1 ≠ 2) :
    exec .pgfltAnswer s = .next ((s.event (s.argN 0) 2 0x0B (s.arch (s.argN 0)).sset.pcc.low (s.arch (s.argN 0)).sset.val).sendQuit
      (coreOf (s.argN 0)) (s.arch (s.argN 0)).gangNo (s.arch (s.argN 0)).group) := by
  show execPgfltAnswer s = _
  simp only [execPgfltAnswer, pgflt_pending hfiring hmode hcause, if_neg h1, if_neg h2, Bool.false_eq_true, if_false]

end

end Sys2Proof.Machine

/-! SUPPORT. The ends of chunks (01 R16, 07 R147, R149, 08 R160, 17 R336, R337): chunk and line limits, the commit of the oldest
chunk, mismatches of a pair, and machine checks. -/

namespace Sys2Proof.Machine

open Sys2Proof Claims

section
variable {s : State}

/-- A full chunk ends (01 R16). -/
theorem chunkLimit_of_full {c : Chunk} (hopen : (s.strand (s.argN 0)).opened = some c)
    (hfull : (s.core (coreOf (s.argN 0))).chunklim.toNat ≤ c.count) :
    exec .chunkLimit s = .next (s.setStrand (s.argN 0) ((s.strand (s.argN 0)).nextOpen s.ticks)) := by
  show execChunkLimit s = _
  simp only [execChunkLimit, State.onStrand, hopen, if_pos hfull]

/-- A strand replaced by itself reads as before. -/
theorem State.strand_setStrand_strand (s : State) (sid k : Nat) : (s.setStrand sid (s.strand sid)).strand k = s.strand k := by
  by_cases h : k = sid
  · rw [h, State.strand_setStrand_self]
  · exact State.strand_setStrand_ne s h _

theorem chunkLimit_of_room {c : Chunk} (hopen : (s.strand (s.argN 0)).opened = some c)
    (hroom : c.count < (s.core (coreOf (s.argN 0))).chunklim.toNat) :
    exec .chunkLimit s = .next (s.setStrand (s.argN 0) (s.strand (s.argN 0))) := by
  show execChunkLimit s = _
  simp only [execChunkLimit, State.onStrand, hopen, if_neg (Nat.not_le.mpr hroom)]

/-- The chunk that a strand opens has done nothing yet, and begins with the registers as they stand (01 R16). -/
theorem Strand.opened_nextOpen (t : Strand) (born : Nat) : (t.nextOpen born).opened = some (t.fresh born) :=
  List.getLast?_concat

/-- A strand that stands at a line limit begins a new chunk (01 R16). -/
theorem exec_lineLimit (hwait : (s.strand (s.argN 0)).wait = .lineLimit) :
    exec .lineLimit s = .next (s.onStrand (s.argN 0) fun t => { t.nextOpen s.ticks with wait := .none }) :=
  if_pos hwait

theorem lineLimit_spec (hwait : (s.strand (s.argN 0)).wait = .lineLimit) :
    ∃ t, exec .lineLimit s = .next t ∧
      (t.strand (s.argN 0)).chunks.length = (s.strand (s.argN 0)).chunks.length + 1 ∧ (t.strand (s.argN 0)).wait = .none ∧
      (∀ c, (t.strand (s.argN 0)).opened = some c → c.count = 0 ∧ c.reads = [] ∧ c.wlines = [] ∧ c.ckpt = s.arch (s.argN 0)) ∧
      t.arch (s.argN 0) = s.arch (s.argN 0) ∧ { t with strands := s.strands } = s := by
  refine ⟨_, exec_lineLimit hwait, ?_, ?_, fun c hc => ?_, ?_, rfl⟩
  · rw [State.strand_onStrand_self]
    exact List.length_append
  · rw [State.strand_onStrand_self]
  · rw [State.strand_onStrand_self] at hc
    obtain rfl := Option.some.inj ((Strand.opened_nextOpen (s.strand (s.argN 0)) s.ticks).symm.trans hc)
    exact ⟨rfl, rfl, rfl, rfl⟩
  · rw [State.arch, State.strand_onStrand_self]
    rfl

/-- The oldest chunk, which has ended and is accepted, commits (17 R336); a store that it discards is STFLT (08 R160). -/
theorem chunkCommit_of_clean {u : State} {c d : Chunk} {l : List Chunk} (hchunks : (s.strand (s.argN 0)).chunks = c :: d :: l)
    (haccept : s.canCommit (s.argN 0) c = true) (hcommit : s.commitOldest (s.argN 0) = (u, none)) :
    exec .chunkCommit s = .next u := by
  show execChunkCommit s = _
  simp only [execChunkCommit, hchunks, haccept, hcommit, if_true]

theorem chunkCommit_of_fault {u : State} {c d : Chunk} {l : List Chunk} {a : Word}
    (hchunks : (s.strand (s.argN 0)).chunks = c :: d :: l) (haccept : s.canCommit (s.argN 0) c = true)
    (hcommit : s.commitOldest (s.argN 0) = (u, some a))
    (hgroup : (u.core (coreOf (s.argN 0))).quit.contains (s.arch (s.argN 0)).group = false) :
    exec .chunkCommit s = .next ((u.dropLater (s.argN 0)).raise (s.argN 0) .stflt a) := by
  rw [State.arch] at hgroup
  show execChunkCommit s = _
  simp only [execChunkCommit, hchunks, haccept, hcommit, hgroup, Bool.false_eq_true, if_false, if_true]

/-- A mismatch of a pair squashes its chunk twice; the third is a machine check (07 R149). -/
theorem pairMismatch_eq {c : Chunk} (hpaired : (s.core (coreOf (s.argN 0))).paired = true)
    (hfiring : (s.strand (s.argN 0)).firing ≠ none)
    (hc : (s.strand (s.argN 0)).chunks[(s.strand (s.argN 0)).chunks.length - 1 - s.argN 1]? = some c) :
    exec .pairMismatch s = .next (if 2 ≤ c.mism then s.machineCheck (coreOf (s.argN 0)) (strandsOf (coreOf (s.argN 0))) 9
      else (s.onCore (coreOf (s.argN 0)) fun k => { k with recov := min (k.recov + 1) 0xFFFFFFFF }).squash (s.argN 0)
        ((s.strand (s.argN 0)).chunks.length - 1 - s.argN 1) false true) := by
  have hruns : ((s.core (coreOf (s.argN 0))).paired && (s.strand (s.argN 0)).firing.isSome) = true := by
    rw [hpaired, Option.isSome_iff_ne_none.mpr hfiring]
    rfl
  show execPairMismatch s = _
  simp only [execPairMismatch, hruns, hc, if_true]
  exact (apply_ite _ _ _ _).symm

/-- A machine check is pending in the strand that holds the state, or is reported by its core (07 R127, R147). -/
theorem machineCheck_eq {sid : Nat} (h1 : 1 ≤ s.argN 1) (h7 : s.argN 1 ≤ 7)
    (hsid : sid = if s.argN 1 = 3 ∨ s.argN 1 = 7 then s.argN 0 / 4 * 4 else s.argN 0) :
    exec .machineCheck s = .next (if (s.strand sid).firing.isSome
      then s.onStrand sid fun t => { t with mchk := some (BitVec.ofNat 64 (s.argN 2 / 16 * 256 + s.argN 1)) }
      else s.machineCheck (coreOf sid) [] (BitVec.ofNat 64 (s.argN 2 / 16 * 256 + s.argN 1))) := by
  subst hsid
  have hunit : ¬ (s.argN 1 = 0 ∨ 7 < s.argN 1) := by omega
  show execMachineCheck s = _
  simp only [execMachineCheck, if_neg hunit]
  exact (apply_ite _ _ _ _).symm

/-- What a pending machine check changes. -/
theorem onStrand_mchk_spec (s : State) (sid : Nat) (v : Word) :
    let t := s.onStrand sid fun t => { t with mchk := some v }
    (t.strand sid).mchk = some v ∧ t.arch sid = s.arch sid ∧ (∀ k, k ≠ sid → t.strand k = s.strand k) ∧
      { t with strands := s.strands } = s := by
  refine ⟨by rw [State.strand_onStrand_self], ?_, fun k hk => State.strand_onStrand_ne s hk _, rfl⟩
  rw [State.arch, State.strand_onStrand_self]
  rfl

/-- The wait of an access to FFLAGS ends (07 R126). -/
theorem fflagsAccess_spec (hwait : (s.strand (s.argN 0)).wait = .flags) (hout : (s.strand (s.argN 0)).out = []) :
    ∃ t, exec .fflagsAccess s = .next t ∧ (t.strand (s.argN 0)).wait = .none ∧ t.arch (s.argN 0) = s.arch (s.argN 0) ∧
      { t with strands := s.strands } = s := by
  refine ⟨_, if_pos ⟨hwait, hout⟩, ?_, ?_, rfl⟩
  · rw [State.strand_onStrand_self]
  · rw [State.arch, State.strand_onStrand_self]
    rfl

end

/-- Settles O20: each clause is the lemma about its event. -/
theorem fillsArriveAndChunksEnd : Obligations.FillsArriveAndChunksEnd := by
  unfold Obligations.FillsArriveAndChunksEnd
  refine ⟨⟨?fetch, ?plb, ?pages, ?held, fun s x => l1Fill_spec, ?sibling, ?fault⟩,
    ?limit, fun s => lineLimit_spec, ?commit, ?mismatch, ?check, fun s => fflagsAccess_spec⟩
  case fetch => exact fun s a loc e e' => icacheFill_spec
  case plb =>
    exact fun s a got hwait => ⟨fun p => plbFill_spec hwait, fun hnone =>
      ⟨_, plbFill_of_none hwait hnone, onStrand_wait_spec s _ _⟩⟩
  case pages =>
    exact fun s a got hwait => ⟨fun e => translationLookup_spec hwait, fun hnone =>
      ⟨_, translationLookup_of_none hwait hnone, onStrand_wait_spec s _ _⟩⟩
  case held => exact fun s c p ps => translationLookup_of_held
  case sibling =>
    intro s o l n ho hsrc hn hport
    rw [siblingAccess_eq ho hsrc hn hport]
    refine ⟨fun hfree => by rw [if_pos hfree], ?_⟩
    rintro ⟨b, hb, hwritten⟩
    rw [if_neg fun hfree => hwritten (hfree b hb)]
  case fault =>
    rintro s x rfl hfiring hmode hcause
    exact ⟨pgfltAnswer_resumes hfiring hmode hcause, pgfltAnswer_waits hfiring hmode hcause,
      fun h2 v => pgfltAnswer_installs hfiring hmode hcause h2, pgfltAnswer_refuses hfiring hmode hcause⟩
  case limit =>
    exact fun s c hopen => ⟨chunkLimit_of_full hopen, fun hroom =>
      ⟨_, chunkLimit_of_room hopen hroom, s.strand_setStrand_strand _, rfl⟩⟩
  case commit =>
    exact fun s u c d l hchunks haccept => ⟨chunkCommit_of_clean hchunks haccept, fun a => chunkCommit_of_fault hchunks haccept⟩
  case mismatch =>
    intro s c hpaired hfiring _ hc
    rw [pairMismatch_eq hpaired hfiring hc]
    exact ⟨fun hfew => by rw [if_neg (Nat.not_le.mpr hfew)], fun hmany => by rw [if_pos hmany]⟩
  case check =>
    rintro s sid v h1 h7 hsid rfl
    rw [machineCheck_eq h1 h7 hsid]
    refine ⟨fun hfiring => ?_, fun hfree => ?_⟩
    · rw [if_pos (Option.isSome_iff_ne_none.mpr hfiring)]
      exact ⟨_, rfl, onStrand_mchk_spec s sid _⟩
    · rw [hfree]
      rfl

end Sys2Proof.Machine

/-! SUPPORT. Top-k records (09 R173, R174): the fields of the header that a post leaves or writes, the order in which entries rank, and
where a post that ranks keeps the entries of a record in that order. -/

namespace Sys2Proof.Machine

open Sys2Proof Claims

/-! ## The header (09 R173) -/

section
variable (h : Word)

theorem toNat_mod_16 : h.toNat % 16 = (h.extractLsb' 0 4).toNat := by simp [BitVec.extractLsb'_toNat]

theorem toNat_div_256_mod_256 : h.toNat / 256 % 256 = (h.extractLsb' 8 8).toNat := by
  simp [BitVec.extractLsb'_toNat, Nat.shiftRight_eq_div_pow]

/-- The bits of a field mask. -/
theorem getLsbD_countMask : ∀ i < 64, (0xFF00 : Word).getLsbD i = (decide (8 ≤ i) && decide (i < 16)) := by decide
@[inherit_doc getLsbD_countMask]
theorem getLsbD_postsMask : ∀ i < 64, (0xFFFF00000000 : Word).getLsbD i = (decide (32 ≤ i) && decide (i < 48)) := by decide
@[inherit_doc getLsbD_countMask]
theorem getLsbD_ovfMask : ∀ i < 64, (0x10000 : Word).getLsbD i = decide (i = 16) := by decide

/-- The posts count is above the other fields. -/
theorem getLsbD_topPosts {i : Nat} (hi : i < 32) : (topPosts h).getLsbD i = h.getLsbD i := by
  have hmask : (0xFFFF00000000 : Word).getLsbD i = false := by
    rw [getLsbD_postsMask i (by omega), decide_eq_false (by omega), Bool.false_and]
  rw [topPosts, BitVec.getLsbD_or, BitVec.getLsbD_and, BitVec.getLsbD_not, hmask, BitVec.getLsbD_ofNat, Nat.testBit_mul_two_pow,
    decide_eq_false (show ¬ 32 ≤ i by omega), decide_eq_true (show i < 64 by omega)]
  simp

theorem getLsbD_setOvf {i : Nat} (hi : i < 64) : (h ||| 0x10000).getLsbD i = (h.getLsbD i || decide (i = 16)) := by
  rw [BitVec.getLsbD_or, getLsbD_ovfMask i hi]

theorem getLsbD_topCount {n i : Nat} (hi : i < 64) (hn : n < 256) :
    (topCount h n).getLsbD i = if 8 ≤ i ∧ i < 16 then n.testBit (i - 8) else h.getLsbD i := by
  rw [topCount, BitVec.getLsbD_or, BitVec.getLsbD_and, BitVec.getLsbD_not, getLsbD_countMask i hi, BitVec.getLsbD_ofNat,
    show 256 = 2 ^ 8 from rfl, Nat.testBit_mul_two_pow, decide_eq_true hi]
  by_cases hlo : 8 ≤ i
  · by_cases hhi : i < 16
    · simp [hlo, hhi]
    · have hout : n.testBit (i - 8) = false :=
        Nat.testBit_lt_two_pow (Nat.lt_of_lt_of_le hn (Nat.pow_le_pow_right (n := 2) (i := 8) (by omega) (by omega)))
      simp [hlo, hhi, hout]
  · simp [hlo]

/-- Two headers that agree on a field's bits have the same field. -/
theorem extractLsb'_congr {h g : Word} {off len : Nat} (hbits : ∀ i < len, h.getLsbD (off + i) = g.getLsbD (off + i)) :
    h.extractLsb' off len = g.extractLsb' off len := by
  refine BitVec.eq_of_getLsbD_eq fun i hi => ?_
  simp [hi, hbits i hi]

theorem topCount_count {n : Nat} (hn : n < 256) : (topCount h n).toNat / 256 % 256 = n := by
  rw [toNat_div_256_mod_256]
  have hfield : (topCount h n).extractLsb' 8 8 = BitVec.ofNat 8 n := by
    refine BitVec.eq_of_getLsbD_eq fun i hi => ?_
    rw [BitVec.getLsbD_extractLsb', getLsbD_topCount h (by omega) hn, if_pos (by omega), BitVec.getLsbD_ofNat, Nat.add_sub_cancel_left]
  rw [hfield, BitVec.toNat_ofNat, Nat.mod_eq_of_lt (by omega)]

theorem topCount_capacity {n : Nat} (hn : n < 256) : (topCount h n).toNat % 16 = h.toNat % 16 := by
  rw [toNat_mod_16, toNat_mod_16]
  exact congrArg _ (extractLsb'_congr fun i hi => by rw [getLsbD_topCount h (by omega) hn, if_neg (by omega)])

theorem topCount_ovf {n : Nat} (hn : n < 256) : (topCount h n).getLsbD 16 = h.getLsbD 16 := by
  rw [getLsbD_topCount h (by omega) hn, if_neg (by omega)]

theorem topPosts_capacity : (topPosts h).toNat % 16 = h.toNat % 16 := by
  rw [toNat_mod_16, toNat_mod_16]
  exact congrArg _ (extractLsb'_congr fun i hi => getLsbD_topPosts h (by omega))

theorem topPosts_count : (topPosts h).toNat / 256 % 256 = h.toNat / 256 % 256 := by
  rw [toNat_div_256_mod_256, toNat_div_256_mod_256]
  exact congrArg _ (extractLsb'_congr fun i hi => getLsbD_topPosts h (by omega))

theorem setOvf_capacity : (h ||| 0x10000).toNat % 16 = h.toNat % 16 := by
  rw [toNat_mod_16, toNat_mod_16]
  refine congrArg _ (extractLsb'_congr fun i hi => ?_)
  rw [getLsbD_setOvf h (by omega), decide_eq_false (by omega), Bool.or_false]

theorem setOvf_count : (h ||| 0x10000).toNat / 256 % 256 = h.toNat / 256 % 256 := by
  rw [toNat_div_256_mod_256, toNat_div_256_mod_256]
  refine congrArg _ (extractLsb'_congr fun i hi => ?_)
  rw [getLsbD_setOvf h (by omega), decide_eq_false (by omega), Bool.or_false]

theorem setOvf_ovf : (h ||| 0x10000).getLsbD 16 = true := by
  rw [getLsbD_setOvf h (by omega), decide_eq_true rfl, Bool.or_true]

end

/-! ## The order of entries (09 R173) -/

theorem ranksBefore_iff {p q : Word} : ranksBefore p q = true ↔ isNaN32 (p.extractLsb' 32 32) = false ∧
    (scoreKey (q.extractLsb' 32 32) < scoreKey (p.extractLsb' 32 32) ∨
      scoreKey (p.extractLsb' 32 32) = scoreKey (q.extractLsb' 32 32) ∧
        (p.extractLsb' 0 32).toNat < (q.extractLsb' 0 32).toNat) := by
  simp [ranksBefore, BitVec.ult]

/-- Of two entries at most one ranks before the other. -/
theorem ranksBefore_asymm {p q : Word} (h : ranksBefore p q = true) : ranksBefore q p = false := by
  obtain ⟨-, hpq⟩ := ranksBefore_iff.mp h
  refine Bool.eq_false_iff.mpr fun hqp => ?_
  obtain ⟨-, hqp⟩ := ranksBefore_iff.mp hqp
  omega

/-- An entry that no `q` ranks before ranks before all that `q` does. -/
theorem ranksBefore_of_not {p q x : Word} (hp : isNaN32 (p.extractLsb' 32 32) = false) (hqp : ranksBefore q p = false)
    (hqx : ranksBefore q x = true) : ranksBefore p x = true := by
  obtain ⟨hq, hqx⟩ := ranksBefore_iff.mp hqx
  have hnot := mt ranksBefore_iff.mpr (Bool.eq_false_iff.mp hqp)
  refine ranksBefore_iff.mpr ⟨hp, ?_⟩
  simp only [hq, true_and, not_or] at hnot
  omega

/-! ## Where an entry is put -/

/-- If what satisfies `f` comes first in a list, it is the part of the list of its own length. -/
theorem take_drop_filter_of_pairwise {α : Type} {f : α → Bool} {l : List α} (h : l.Pairwise fun a b => f b = true → f a = true) :
    (∀ a ∈ l.take (l.filter f).length, f a = true) ∧ ∀ a ∈ l.drop (l.filter f).length, f a = false := by
  induction l with
  | nil => simp
  | cons b l ih =>
    obtain ⟨hb, hl⟩ := List.pairwise_cons.mp h
    by_cases hf : f b = true
    · obtain ⟨htake, hdrop⟩ := ih hl
      simp only [List.filter_cons_of_pos hf, List.length_cons, List.take_succ_cons, List.drop_succ_cons, List.mem_cons]
      exact ⟨fun a ha => ha.elim (· ▸ hf) (htake a), hdrop⟩
    · have hnone : l.filter f = [] := List.filter_eq_nil_iff.mpr fun a ha hfa => hf (hb a ha hfa)
      simp only [List.filter_cons_of_neg hf, hnone, List.length_nil, List.take_zero, List.drop_zero, List.mem_cons]
      refine ⟨by simp, fun a ha => Bool.eq_false_iff.mpr fun hfa => ?_⟩
      obtain rfl | ha := ha
      · exact hf hfa
      · exact hf (hb a ha hfa)

/-- How many entries rank before a new one. -/
def placeIn (l : List Word) (y : Word) : Nat := (l.filter fun e => ranksBefore e y).length

theorem placeIn_le (l : List Word) (y : Word) : placeIn l y ≤ l.length := List.length_filter_le _ _

/-- In a ranked list the entries that rank before a new one come first. -/
theorem ranked_split {l : List Word} (h : Ranked l) (y : Word) :
    (∀ e ∈ l.take (placeIn l y), ranksBefore e y = true) ∧ ∀ e ∈ l.drop (placeIn l y), ranksBefore e y = false := by
  obtain ⟨hpair, hnan⟩ := h
  exact take_drop_filter_of_pairwise (hpair.imp_of_mem fun hp _ hqp => ranksBefore_of_not (hnan _ hp) hqp)

theorem ranked_sublist {l l' : List Word} (h : Ranked l) (hs : l'.Sublist l) : Ranked l' :=
  ⟨h.1.sublist hs, fun p hp => h.2 p (hs.subset hp)⟩

/-- A new entry put at its place among the first `keep` of a ranked list. -/
theorem ranked_insert {l : List Word} (h : Ranked l) {y : Word} (hy : isNaN32 (y.extractLsb' 32 32) = false) (keep : Nat) :
    Ranked (l.take (placeIn l y) ++ [y] ++ (l.take keep).drop (placeIn l y)) := by
  obtain ⟨hbefore, hafter⟩ := ranked_split h y
  have hsub : ((l.take keep).drop (placeIn l y)).Sublist (l.drop (placeIn l y)) := (List.take_sublist _ _).drop _
  have hall : (l.take (placeIn l y) ++ (l.take keep).drop (placeIn l y)).Sublist l := by
    simpa using (List.Sublist.refl (l.take (placeIn l y))).append hsub
  obtain ⟨hpair, hnan⟩ := ranked_sublist h hall
  obtain ⟨htake, hdrop, hcross⟩ := List.pairwise_append.mp hpair
  refine ⟨?_, fun p hp => ?_⟩
  · rw [List.append_assoc, List.singleton_append, List.pairwise_append]
    refine ⟨htake, List.pairwise_cons.mpr ⟨fun q hq => hafter q (hsub.subset hq), hdrop⟩, fun p hp q hq => ?_⟩
    obtain rfl | hq := List.mem_cons.mp hq
    · exact ranksBefore_asymm (hbefore p hp)
    · exact hcross p hp q hq
  · simp only [List.mem_append, List.mem_singleton] at hp hnan
    obtain (hp | rfl) | hp := hp
    · exact hnan p (Or.inl hp)
    · exact hy
    · exact hnan p (Or.inr hp)

/-! ## The post (09 R174) -/

/-- An entry as it is kept: a score of -0 becomes +0. -/
def keptEntry (x : Word) : Word := if x.extractLsb' 32 32 = 0x80000000 then x &&& 0xFFFFFFFF else x

theorem keptEntry_score_not_nan {x : Word} (h : isNaN32 (x.extractLsb' 32 32) = false) :
    isNaN32 ((keptEntry x).extractLsb' 32 32) = false := by
  unfold keptEntry
  split
  · have hzero : (x &&& 0xFFFFFFFF).extractLsb' 32 32 = 0 := by
      rw [BitVec.extractLsb'_and, show (0xFFFFFFFF : Word).extractLsb' 32 32 = 0#32 by decide, BitVec.and_zero]
      rfl
    rw [hzero]
    decide
  · exact h

/-- What a record holds after an entry has been put at its place. -/
def putEntry (l : List Word) (n k : Nat) (y : Word) : List Word :=
  l.take (placeIn (l.take n) y) ++ [y] ++ (l.take (min n (k - 1))).drop (placeIn (l.take n) y) ++ l.drop (min (n + 1) k)

section
variable {r : TopK} {x : Word} {k n : Nat} (hk : k = r.header.toNat % 16) (hn : n = r.header.toNat / 256 % 256)
  (hpos : 1 ≤ k) (hle : n ≤ k) (hnan : isNaN32 (x.extractLsb' 32 32) = false)
include hk hn hpos hle hnan

/-- A post to a well-formed record is dropped if no room is left at its place, and put there otherwise. -/
theorem topPost_eq : topPost r x =
    if k ≤ placeIn (r.entries.take n) (keptEntry x) then
      ({ r with header := topPosts r.header ||| 0x10000 }, BitVec.ofNat 64 (n * 256 + 0xFE))
    else
      ({ header := topCount (if n = k then topPosts r.header ||| 0x10000 else topPosts r.header) (min (n + 1) k)
         entries := putEntry r.entries n k (keptEntry x) },
        BitVec.ofNat 64 (min (n + 1) k * 256 + placeIn (r.entries.take n) (keptEntry x))) := by
  rw [toNat_mod_16] at hk
  rw [toNat_div_256_mod_256] at hn
  have hwell : ¬ (k = 0 ∨ k < n) := by omega
  simp only [topPost, ← hk, ← hn, if_neg hwell, hnan, Bool.false_eq_true, if_false]
  rfl

end

/-- The result word of a post (09 R174). -/
theorem toNat_resultWord {c p : Nat} (hc : c < 256) (hp : p < 256) :
    (BitVec.ofNat 64 (c * 256 + p)).toNat % 256 = p ∧ (BitVec.ofNat 64 (c * 256 + p)).toNat / 256 = c := by
  rw [BitVec.toNat_ofNat]
  omega

section
variable {l : List Word} {n k : Nat} {y : Word} (hl : l.length = 15) (hk : k < 16) (hle : n ≤ k)
  (hp : placeIn (l.take n) y < k)
include hl hk hle hp

omit hle in
theorem putEntry_getElem? : (putEntry l n k y)[placeIn (l.take n) y]? = some y := by
  have htake : (l.take (placeIn (l.take n) y)).length = placeIn (l.take n) y := by
    rw [List.length_take]
    omega
  rw [putEntry, List.append_assoc, List.append_assoc, List.getElem?_append_right (by omega), htake, Nat.sub_self]
  rfl

/-- The entries that count after the post: the new one at its place among as many old ones as there is room for. -/
theorem putEntry_take : (putEntry l n k y).take (min (n + 1) k) =
    (l.take n).take (placeIn (l.take n) y) ++ [y] ++ ((l.take n).take (k - 1)).drop (placeIn (l.take n) y) := by
  have hplace := placeIn_le (l.take n) y
  rw [List.length_take] at hplace
  rw [List.take_take, List.take_take, Nat.min_eq_left (show placeIn (l.take n) y ≤ n by omega), Nat.min_comm (k - 1) n, putEntry]
  refine List.take_left' ?_
  simp only [List.length_append, List.length_take, List.length_drop, List.length_singleton]
  omega

theorem putEntry_length : (putEntry l n k y).length = 15 := by
  have hplace := placeIn_le (l.take n) y
  rw [List.length_take] at hplace
  simp only [putEntry, List.length_append, List.length_take, List.length_drop, List.length_singleton]
  omega

theorem putEntry_perm (hroom : n < k) : ((putEntry l n k y).take (n + 1)).Perm (y :: l.take n) := by
  have hcount := putEntry_take hl hk hle hp
  rw [Nat.min_eq_left hroom, List.take_take (i := k - 1), Nat.min_eq_right (show n ≤ k - 1 by omega)] at hcount
  rw [hcount, List.append_assoc, List.singleton_append]
  refine List.perm_middle.trans (List.Perm.of_eq ?_)
  rw [List.take_append_drop]

end

/-- Settles O22: a post is dropped, which leaves the entries, or put at its place, which keeps them ranked. -/
theorem topKKeepsTheBest : Obligations.TopKKeepsTheBest := by
  unfold Obligations.TopKKeepsTheBest
  rintro r t x y w k n hlen hk hn hpos hle hranked hnan rfl hpost
  have hk16 : k < 16 := by omega
  rw [topPost_eq hk hn hpos hle hnan] at hpost
  have hplace := placeIn_le (r.entries.take n) (keptEntry x)
  rw [List.length_take] at hplace
  split at hpost
  case isTrue hfull =>
    cases hpost
    obtain ⟨hres, -⟩ := toNat_resultWord (c := n) (p := 0xFE) (by omega) (by omega)
    refine ⟨hlen, ?_, fun _ => ⟨rfl, setOvf_ovf _, ?_, by omega⟩, fun hne => absurd hres hne⟩
    · rw [setOvf_capacity, topPosts_capacity, hk]
    · rw [setOvf_count, topPosts_count, hn]
  case isFalse hroom =>
    cases hpost
    have hp : placeIn (r.entries.take n) (keptEntry x) < k := by omega
    have hc : min (n + 1) k < 256 := by omega
    obtain ⟨hres, hcount⟩ := toNat_resultWord (p := placeIn (r.entries.take n) (keptEntry x)) hc (by omega)
    rw [hres]
    refine ⟨putEntry_length hlen hk16 hle hp, ?_, by omega, fun _ => ⟨topCount_count _ hc, hcount,
      putEntry_getElem? hlen hk16 hp, ?_, ?_, putEntry_perm hlen hk16 hle hp⟩⟩
    · rw [topCount_capacity _ hc, apply_ite (fun h : Word => h.toNat % 16), setOvf_capacity, ite_self, topPosts_capacity, hk]
    · rw [putEntry_take hlen hk16 hle hp]
      exact ranked_insert hranked (keptEntry_score_not_nan hnan) _
    · intro hn
      rw [topCount_ovf _ hc, if_pos hn, setOvf_ovf]

end Sys2Proof.Machine

/-! SUPPORT. Atomics (09 R168 to R172, 16 R332): what one does when it issues, for each outcome of its checks, and what performing one
does to the state where no uncommitted chunk stands in its way. -/

namespace Sys2Proof.Machine

open Sys2Proof Claims

/-! ## Issue (09 R169, R170, 16 R332) -/

/-- What the shared steps of a terminator ask of more registers they ask of fewer. -/
theorem MayEnd.of_subset {priv waits : Bool} {reads reads' : List RegName} {s u : State} (h : MayEnd priv waits reads s u)
    (hsub : reads' ⊆ reads) : MayEnd priv waits reads' s u :=
  { h with settled := fun r hr => h.settled r (hsub hr) }

/-- An atomic whose target has passed its checks: it goes to the executor on its die, or takes an entry of the remote-access unit. -/
def atomicSent (f : AtomicForm) (u : State) (loc : Nat) : Act :=
  let va := (u.me.readG f.a).cursor
  let v := u.touchAccess u.cur false { lane := 0, va := va, n := f.size }
  if f.remote then
    if u.rauFull (coreOf u.cur) then .hold (u.waiting .full)
    else .done ((v.setPendingT [.g f.d] .reply).addRemote u.cur
      (.rmw va u.serial loc f.op f.wide (u.me.word f.b) (u.me.word f.d) false))
  else v.sendAtomic va loc f.op f.wide (u.me.word f.b) (u.me.word f.d) f.d

/-- An atomic's own part, after its chunk has ended. -/
def atomicAct (f : AtomicForm) (u : State) : Act :=
  let c := u.me.readG f.a
  match checkCap u.me.smode c c.cursor f.size [permLD, permST] f.size with
  | some cause => .trap u cause (u.me.word f.a)
  | none =>
    if c.perm permTRY && u.me.cpdepth != 0 then .trap u .capperm (u.me.word f.a)
    else match u.atomTarget ([.r, .w] ++ if f.remote then [.e] else []) c.cursor f.size (f.op == 11) with
      | .error e => e.act u
      | .ok loc => atomicSent f u loc

section
variable {f : AtomicForm} {s u : State} (h : MayEnd false false [.g f.a, .g f.b, .g f.d] s u)
include h

theorem amo_eq (hlocal : f.remote = false) : amo f.op f.wide f.d f.a f.b s = .next (atomicAct f u).settleT := by
  refine (terminate_of_mayEnd (h.of_subset ?_) _).trans ?_
  · split <;> simp
  · simp only [atomicAct, atomicSent, hlocal, Bool.false_eq_true, if_false, List.append_nil]
    rfl

theorem ramo_eq (hremote : f.remote = true) (hop : f.op ≠ 11) :
    ramo f.op f.wide f.d f.a f.b s = .next (atomicAct f u).settleT := by
  refine (terminate_of_mayEnd (h.of_subset ?_) _).trans ?_
  · simp
  · simp only [atomicAct, atomicSent, hremote, if_true, beq_false_of_ne hop]
    rfl

end

/-- The instructions of the table are amo and ramo of its rows; no ramo is topk. -/
theorem exec_of_atomicOf {i : Instr} {f : AtomicForm} (hf : atomicOf i = some f) :
    (f.remote = false ∧ ∀ s, exec i s = amo f.op f.wide f.d f.a f.b s) ∨
      (f.remote = true ∧ f.op ≠ 11 ∧ ∀ s, exec i s = ramo f.op f.wide f.d f.a f.b s) := by
  unfold atomicOf at hf
  split at hf <;> cases hf
  case h_1 | h_2 | h_3 | h_4 | h_5 | h_6 | h_7 | h_8 | h_9 | h_10 | h_11 | h_12 => exact Or.inl ⟨rfl, fun _ => rfl⟩
  all_goals exact Or.inr ⟨rfl, by simp, fun _ => rfl⟩

theorem exec_atomic {i : Instr} {f : AtomicForm} {s u : State} (hf : atomicOf i = some f)
    (h : MayEnd false false [.g f.a, .g f.b, .g f.d] s u) : exec i s = .next (atomicAct f u).settleT := by
  obtain ⟨hlocal, hexec⟩ | ⟨hremote, hop, hexec⟩ := exec_of_atomicOf hf
  · rw [hexec, amo_eq h hlocal]
  · rw [hexec, ramo_eq h hremote hop]

section
variable {f : AtomicForm} {u : State} {loc : Nat}

theorem atomicAct_of_fault {cause : Cause}
    (hcheck : checkCap u.me.smode (u.me.readG f.a) (u.me.readG f.a).cursor f.size [permLD, permST] f.size = some cause) :
    atomicAct f u = .trap u cause (u.me.word f.a) := by
  simp only [atomicAct, hcheck]

/-- A capability with TRY may not be used while a choice point is open (09 R170). -/
theorem atomicAct_of_try
    (hcheck : checkCap u.me.smode (u.me.readG f.a) (u.me.readG f.a).cursor f.size [permLD, permST] f.size = none)
    (htry : (u.me.readG f.a).perm permTRY = true) (hdepth : u.me.cpdepth ≠ 0) :
    atomicAct f u = .trap u .capperm (u.me.word f.a) := by
  have hstop : ((u.me.readG f.a).perm permTRY && u.me.cpdepth != 0) = true := by
    rw [htry, Bool.true_and]
    exact bne_iff_ne.mpr hdepth
  simp only [atomicAct, hcheck, hstop, if_true]

theorem atomicAct_of_target
    (hcheck : checkCap u.me.smode (u.me.readG f.a) (u.me.readG f.a).cursor f.size [permLD, permST] f.size = none)
    (htry : (u.me.readG f.a).perm permTRY = true → u.me.cpdepth = 0)
    (hloc : u.atomTarget ([.r, .w] ++ if f.remote then [.e] else []) (u.me.readG f.a).cursor f.size (f.op == 11) = .ok loc) :
    atomicAct f u = atomicSent f u loc := by
  have hpass : ((u.me.readG f.a).perm permTRY && u.me.cpdepth != 0) = false := by
    cases hperm : (u.me.readG f.a).perm permTRY
    · rfl
    · simp [htry hperm]
  simp only [atomicAct, hcheck, hpass, hloc, Bool.false_eq_true, if_false]

theorem atomicSent_near (hlocal : f.remote = false) (hdie : locOnDie (dieOf u.cur) loc = true) :
    ∃ c, atomicSent f u loc = .done (((({ u with cores := c } : State).setPendingT [.g f.d] .reply).send (coreOf u.cur)
      (.amo u.cur u.serial loc f.op f.wide (u.me.word f.b) (u.me.word f.d))).onStrand u.cur (Strand.addPlace (u.serial + 1))) := by
  obtain ⟨c, hc, -⟩ := touch_eq u u.cur false { lane := 0, va := (u.me.readG f.a).cursor, n := f.size }
  refine ⟨c, ?_⟩
  simp only [atomicSent, hlocal, Bool.false_eq_true, if_false, hc, State.sendAtomic]
  exact if_pos hdie

section
variable (hfar : f.remote = true ∨ locOnDie (dieOf u.cur) loc = false)
include hfar

theorem atomicSent_far (hroom : (u.remotes.filter (·.cid == coreOf u.cur)).length < 32) :
    ∃ c, atomicSent f u loc = .done ((({ u with cores := c } : State).setPendingT [.g f.d] .reply).addRemote u.cur
      (.rmw (u.me.readG f.a).cursor u.serial loc f.op f.wide (u.me.word f.b) (u.me.word f.d) (!f.remote))) := by
  obtain ⟨c, hc, -⟩ := touch_eq u u.cur false { lane := 0, va := (u.me.readG f.a).cursor, n := f.size }
  have hfree (v : State) (hv : v.remotes = u.remotes) : ¬ v.rauFull (coreOf u.cur) = true := by
    simp only [State.rauFull, hv, decide_eq_true_eq]
    omega
  refine ⟨c, ?_⟩
  cases hremote : f.remote with
  | true =>
    simp only [atomicSent, hremote, if_true, hc]
    exact if_neg (hfree u rfl)
  | false =>
    obtain hremote' | hdie := hfar
    · rw [hremote] at hremote'
      cases hremote'
    · simp only [atomicSent, hremote, Bool.false_eq_true, if_false, hc, State.sendAtomic, hdie]
      exact if_neg (hfree _ rfl)

theorem atomicSent_full (hfull : 32 ≤ (u.remotes.filter (·.cid == coreOf u.cur)).length) :
    ∃ c, atomicSent f u loc = .hold (({ u with cores := c } : State).waiting .full) := by
  obtain ⟨c, hc, -⟩ := touch_eq u u.cur false { lane := 0, va := (u.me.readG f.a).cursor, n := f.size }
  cases hremote : f.remote with
  | true =>
    refine ⟨u.cores, ?_⟩
    simp only [atomicSent, hremote, if_true]
    exact if_pos (decide_eq_true hfull)
  | false =>
    obtain hremote' | hdie := hfar
    · rw [hremote] at hremote'
      cases hremote'
    · refine ⟨c, ?_⟩
      simp only [atomicSent, hremote, Bool.false_eq_true, if_false, hc, State.sendAtomic, hdie]
      exact if_pos (decide_eq_true hfull)

end

end

/-! ## Performing one (09 R168, R169, R171, R172) -/

/-! ### The new value -/

section
variable {w : Nat} (x y : BitVec w)

theorem ofInt_min_eq_ite : BitVec.ofInt w (min y.toInt x.toInt) = if x.slt y then x else y := by
  by_cases h : x.toInt < y.toInt
  · simp [BitVec.slt_eq_decide, h, Int.min_eq_right (Int.le_of_lt h)]
  · simp [BitVec.slt_eq_decide, h, Int.min_eq_left (Int.not_lt.mp h)]

theorem ofInt_max_eq_ite : BitVec.ofInt w (max y.toInt x.toInt) = if y.slt x then x else y := by
  by_cases h : y.toInt < x.toInt
  · simp [BitVec.slt_eq_decide, h, Int.max_eq_right (Int.le_of_lt h)]
  · simp [BitVec.slt_eq_decide, h, Int.max_eq_left (Int.not_lt.mp h)]

theorem ofNat_min_eq_ite : BitVec.ofNat w (min y.toNat x.toNat) = if x.ult y then x else y := by
  by_cases h : x.toNat < y.toNat
  · simp [BitVec.ult_eq_decide, h, Nat.min_eq_right (Nat.le_of_lt h)]
  · simp [BitVec.ult_eq_decide, h, Nat.min_eq_left (Nat.not_lt.mp h)]

theorem ofNat_max_eq_ite : BitVec.ofNat w (max y.toNat x.toNat) = if y.ult x then x else y := by
  by_cases h : y.toNat < x.toNat
  · simp [BitVec.ult_eq_decide, h, Nat.max_eq_right (Nat.le_of_lt h)]
  · simp [BitVec.ult_eq_decide, h, Nat.max_eq_left (Nat.not_lt.mp h)]

end

theorem atomInt_eq_atomicValue {w : Nat} (op : Nat) (old x e : BitVec w) : atomInt op old x e = atomicValue op old x e := by
  unfold atomicValue
  rw [ofInt_min_eq_ite, ofInt_max_eq_ite, ofNat_min_eq_ite, ofNat_max_eq_ite, ← BitVec.add_def]
  rfl

theorem natOfBytes_readByte (m : List Host.Cell) (a n : Nat) :
    natOfBytes ((List.range n).map fun k => readByte m (a + k)) = readNat m a n := by
  induction n generalizing a with
  | zero => rfl
  | succ n ih =>
    rw [List.range_succ_eq_map, List.map_cons, List.map_map, natOfBytes, readNat, ← ih]
    simp [Function.comp_def, Nat.add_assoc, Nat.add_comm 1]

section
variable {s : State} {sid loc n op : Nat} {wide : Bool} {x e : Word}

/-- The operation, on the bytes of its location. -/
theorem atomOp_eq (hop : op ≤ 10) (hwide : wide = true → op ≤ 9) (hn : n = if wide then 8 else 4) :
    atomOp op wide x e ((List.range n).map fun k => readByte s.mem (loc + k)) = atomicEffect s loc op wide x e := by
  have h11 : op ≠ 11 := by omega
  subst hn
  unfold atomOp atomicEffect
  rw [if_neg h11, natOfBytes_readByte]
  cases wide with
  | true => simp [atomInt_eq_atomicValue]
  | false =>
    by_cases h10 : op = 10
    · simp [h10, atomRes]
    · simp only [Bool.false_eq_true, if_false, atomInt_eq_atomicValue, atomRes, h10, or_false, BitVec.signExtend]

theorem atomicEffect_length (hn : n = if wide then 8 else 4) : (atomicEffect s loc op wide x e).1.length = n := by
  subst hn
  unfold atomicEffect
  split
  · simp
  · split <;> simp

end

/-! ### The bytes -/

theorem writeBytes_append (m : List Host.Cell) (a : Nat) (bs cs : List Byte) :
    writeBytes m a (bs ++ cs) = writeBytes (writeBytes m a bs) (a + bs.length) cs := by
  induction bs generalizing m a with
  | nil => rfl
  | cons b bs ih =>
    rw [List.cons_append, writeBytes, ih, writeBytes, List.length_cons, Nat.add_assoc, Nat.add_comm 1]

theorem State.store_concat (s : State) (loc : Nat) (bs : List Byte) (b : Byte) :
    s.store loc (bs ++ [b]) = (s.store loc bs).store (loc + bs.length) [b] := by
  simp only [State.store, writeBytes_append, List.length_append, List.length_singleton, clearTags, Nat.add_zero]

/-- Bytes stored one by one. -/
theorem forAll_store (s : State) (loc : Nat) (bs : List Byte) :
    forAll (((List.range bs.length).map (loc + ·)).zip bs) (fun s y => s.store y.1 [y.2]) s = s.store loc bs := by
  induction hlen : bs.length generalizing bs with
  | zero =>
    obtain rfl := List.eq_nil_of_length_eq_zero hlen
    rfl
  | succ n ih =>
    obtain rfl | ⟨bs, b, rfl⟩ := List.eq_nil_or_concat bs
    · cases hlen
    obtain rfl : bs.length = n := by simpa using hlen
    specialize ih bs rfl
    rw [List.concat_eq_append, List.range_succ, List.map_append, List.zip_append (by simp), forAll, List.foldl_append]
    rw [forAll] at ih
    rw [ih, State.store_concat]
    rfl

/-! ### A free location -/

theorem padWriter_of_none {s : State} {loc : Nat} (h : s.padWriter none loc = none) (self : Option Nat) :
    s.padWriter self loc = none := by
  unfold State.padWriter at h ⊢
  split
  · rfl
  · next hpad =>
    rw [if_neg hpad, List.find?_eq_none] at h
    refine List.find?_eq_none.mpr fun sid hsid hwrites => h sid hsid ?_
    simp only [Bool.and_eq_true] at hwrites
    simpa using hwrites.2

theorem placeBlocked_of_unpinned {s : State} {d : Nat} (h : s.pinned d = none) (lines : List Nat) (self : Option Nat) :
    s.placeBlocked d lines self = false := by
  simp [State.placeBlocked, h]

/-- Nothing is undone where no chunk of the strand has written one of the sectors. -/
theorem undoWriters_of_unwritten {s : State} {sid : Nat} {locs : List Nat}
    (h : ∀ c ∈ (s.strand sid).chunks, ∀ u ∈ c.undo, ∀ l ∈ locs, u.loc / 16 ≠ l / 16) : s.undoWriters sid locs = s := by
  have hnone : (s.strand sid).chunks.zipIdx.find? (fun c =>
      c.1.undo.any fun u => locs.any fun l => l / 16 == u.loc / 16 && decide (padOrigin ≤ l)) = none := by
    refine List.find?_eq_none.mpr fun c hc hwrites => ?_
    simp only [List.any_eq_true, Bool.and_eq_true, beq_iff_eq] at hwrites
    obtain ⟨u, hu, l, hl, heq, -⟩ := hwrites
    exact h c.1 (List.fst_mem_of_mem_zipIdx hc) u hu l hl heq.symm
  unfold State.undoWriters
  rw [hnone]

section
variable {s : State} {sid loc n : Nat} (h : AtomicFree s sid loc n) (hn : n = 4 ∨ n = 8)
include h hn

theorem atomicFree_here {k : Nat} (hk : k < n) : isForeign (loc + k) = false := by
  have hhere := h.here
  have haligned := h.aligned
  simp only [isForeign, Bool.and_eq_false_iff, decide_eq_false_iff_not] at hhere ⊢
  simp only [padOrigin] at hhere ⊢
  obtain rfl | rfl := hn <;> omega

omit hn in
/-- The bytes of a free location lie side by side. -/
theorem atomicFree_runLocs : s.runLocs loc n = (List.range n).map (loc + ·) := by
  unfold State.runLocs
  split
  · next hpad =>
    refine List.map_congr_left fun k hk => ?_
    have hk := List.mem_range.mp hk
    have hfits := h.fits hpad
    rw [Nat.mod_eq_of_lt (by omega)]
    simp only [padLoc, padCore, padRaw]
    omega
  · rfl

theorem atomicFree_map_real : ((List.range n).map (loc + ·)).map s.real = (List.range n).map (loc + ·) := by
  rw [List.map_map]
  exact List.map_congr_left fun k hk => real_of_local s (atomicFree_here h hn (List.mem_range.mp hk))

theorem atomicFree_line {k : Nat} (hk : k < n) : lineOf (loc + k) = loc / 128 := by
  have haligned := h.aligned
  unfold lineOf
  obtain rfl | rfl := hn <;> omega

theorem atomicFree_map_lineOf : ((List.range n).map (loc + ·)).map lineOf = List.replicate n (loc / 128) := by
  rw [List.map_map]
  refine List.eq_replicate_iff.mpr ⟨by simp, fun l hl => ?_⟩
  obtain ⟨k, hk, rfl⟩ := List.mem_map.mp hl
  exact atomicFree_line h hn (List.mem_range.mp hk)

theorem atomicFree_linesOf : linesOf loc n = [loc / 128] := by
  have hlines : (loc % 128 + n + 127) / 128 = 1 := by
    have haligned := h.aligned
    obtain rfl | rfl := hn <;> omega
  rw [linesOf, hlines]
  rfl

theorem atomicFree_eraseDups : (List.replicate n (loc / 128)).eraseDups = [loc / 128] := by
  obtain rfl | rfl := hn <;> simp [List.replicate, List.eraseDups_cons]

omit hn in
theorem atomicFree_padWriter (self : Option Nat) {l : Nat} (hl : l ∈ (List.range n).map (loc + ·)) : s.padWriter self l = none := by
  obtain ⟨k, hk, rfl⟩ := List.mem_map.mp hl
  exact padWriter_of_none (h.unwritten k (List.mem_range.mp hk)) self

omit hn in
theorem atomicFree_undoWriters : s.undoWriters sid ((List.range n).map (loc + ·)) = s := by
  refine undoWriters_of_unwritten fun c hc u hu l hl => ?_
  obtain ⟨k, hk, rfl⟩ := List.mem_map.mp hl
  exact h.earlier c hc u hu k (List.mem_range.mp hk)

omit hn in
/-- An amo that comes as a message has nothing to wait for. -/
theorem atomicFree_atomHeld : s.atomHeld sid (s.runLocs loc n) = false := by
  have hwriters : ((List.range n).map (loc + ·)).any (fun l => (s.padWriter (some sid) l).isSome) = false :=
    List.any_eq_false.mpr fun l hl => by simp [atomicFree_padWriter h _ hl]
  rw [atomicFree_runLocs h, State.atomHeld, hwriters, Bool.false_or]
  split
  · exact placeBlocked_of_unpinned (h.unpinned _) _ _
  · rfl

/-- An atomic that is a remote access has nothing to wait for. -/
theorem atomicFree_sectorsHeld : s.sectorsHeld none (s.runLocs loc n) = none := by
  have hwriters : ((List.range n).map (loc + ·)).findSome? (s.padWriter none) = none :=
    List.findSome?_eq_none_iff.mpr fun l hl => atomicFree_padWriter h _ hl
  simp [State.sectorsHeld, atomicFree_runLocs h, atomicFree_map_real h hn, hwriters, placeBlocked_of_unpinned (h.unpinned _)]

/-- The bytes of an atomic lie in one line. -/
theorem atomicFree_lines : (s.runLocs loc n).map (fun l => lineOf (s.real l)) = List.replicate n (loc / 128) := by
  have hsplit : (fun l => lineOf (s.real l)) = lineOf ∘ s.real := rfl
  rw [hsplit, ← List.map_map, atomicFree_runLocs h, atomicFree_map_real h hn, atomicFree_map_lineOf h hn]

end

/-- What an access waits for depends on which lines it names, and not on how often (16 R318). -/
theorem heldBack_replicate (s : State) (r : Remote) {n : Nat} (hn : n ≠ 0) (line : Nat) :
    s.heldBack r (List.replicate n line) = s.heldBack r [line] := by
  have hcontains : (List.replicate n line).contains = [line].contains := by
    funext x
    simp [hn]
  rw [State.heldBack, hcontains, State.heldBack]

section
variable {s : State} {sid loc n op : Nat} {wide : Bool} {x e : Word} (h : AtomicFree s sid loc n) (hop : op ≤ 10)
  (hwide : wide = true → op ≤ 9) (hn : n = if wide then 8 else 4)
include h hop hwide hn

omit h hwide in
theorem atomBytes_eq : atomBytes op wide = n := by
  rw [hn, atomBytes, if_neg (by omega)]

/-- At a free location an atomic is a store of its new bytes, and its result is the old value. -/
theorem atomic_eq : s.atomic sid loc op wide x e =
    (s.placeStore loc (atomicEffect s loc op wide x e).1 none, (atomicEffect s loc op wide x e).2) := by
  have hn' : n = 4 ∨ n = 8 := by cases wide <;> simp [hn]
  have hbytes : ((List.range n).map (loc + ·)).map s.byteAt = (List.range n).map fun k => readByte s.mem (loc + k) := by
    rw [List.map_map]
    exact List.map_congr_left fun k hk => congrArg (readByte s.mem) (real_of_local s (atomicFree_here h hn' (List.mem_range.mp hk)))
  have hreal : s.real loc = loc := real_of_local s h.here
  have hlen := atomicEffect_length (s := s) (loc := loc) (op := op) (x := x) (e := e) hn
  have hstore := forAll_store s loc (atomicEffect s loc op wide x e).1
  rw [hlen] at hstore
  simp only [State.atomic, atomBytes_eq hop hn, atomicFree_runLocs h, atomicFree_undoWriters h, hbytes,
    atomOp_eq hop hwide hn, atomicFree_map_real h hn', hstore, atomicFree_map_lineOf h hn', atomicFree_eraseDups h hn', hreal,
    State.placeStore, hlen, atomicFree_linesOf h hn']


section
variable {p : State} {bs : List Byte} {v : Word} {fl : Flags} {out : Nat} {d : BitVec 6} {o : Out}
  (heff : atomicEffect s loc op wide x e = (bs, v, fl)) (hp : p = s.placeStore loc bs none)
  (hout : (p.strand sid).outOf out = some o) (hdst : o.dsts = [.g d])
include heff hp

theorem atomic_eq_of_effect : s.atomic sid loc op wide x e = (p, v, fl) := by
  rw [atomic_eq h hop hwide hn, heff, hp]

include hout hdst

/-- AMO_EXECUTE of an amo at a free location (09 R168, R169). -/
theorem amoExecute_eq {m : Msg} (hm : s.msg (s.argN 0) = some m) (hkind : m.kind = .amo sid out loc op wide x e) :
    exec .amoExecute s = .next (((p.dropMsg (s.argN 0)).onStrand sid fun t =>
      { t with places := t.places.filter (· != s.argN 0) }).answer sid out [.g d (.data v)] fl) := by
  obtain ⟨id, src, eng, kind⟩ := m
  cases hkind
  show execAmoExecute s = _
  have hatomic := atomic_eq_of_effect h hop hwide hn heff hp
  have hout' : (((p.dropMsg (s.argN 0)).onStrand sid fun t =>
      { t with places := t.places.filter (· != s.argN 0) }).strand sid).outOf out = some o := by
    rw [State.strand_onStrand_self]
    exact hout
  simp only [execAmoExecute, hm, h.reach, atomBytes_eq hop hn, atomicFree_atomHeld h, hatomic, hout', hdst, Bool.not_true,
    Bool.false_eq_true, if_false, Option.bind_some, List.head?_cons]

/-- REMOTE_PERFORM of an atomic at a free location that no earlier access holds back (09 R168, 16 R318). -/
theorem remotePerform_rmw_eq {r : Remote} {va : Nat} {amo : Bool} (hr : s.remote (s.argN 0) = some r)
    (hkind : r.kind = .rmw va out loc op wide x e amo) (hsid : r.sid = sid) (hperformed : r.performed = false)
    (hfailed : r.failed = none) (harg : s.argN 2 ≠ 2) (hentered : s.entered r = true) (hheld : s.heldBack r [loc / 128] = false) :
    exec .remotePerform s = .next ((p.answer sid out [.g d (.data v)] fl).remoteDone r.id) := by
  have hn' : n = 4 ∨ n = 8 := by cases wide <;> simp [hn]
  have hatomic := atomic_eq_of_effect h hop hwide hn heff hp
  have hlines : s.remoteLines r = List.replicate n (loc / 128) := by
    simp only [State.remoteLines, hperformed, hfailed, hkind, atomBytes_eq hop hn, ← atomicFree_lines h hn']
    rfl
  have hfree : s.heldBack r (s.remoteLines r) = false := by
    rw [hlines, heldBack_replicate s r (by omega), hheld]
  show execRemotePerform s = _
  simp only [execRemotePerform, if_neg harg, hr, hperformed, hfailed, hentered, hkind, hfree, Option.isSome_none, Bool.not_true,
    Bool.or_self, Bool.false_eq_true, if_false, State.performRmw, hsid, h.reach, atomBytes_eq hop hn, atomicFree_sectorsHeld h hn',
    hatomic, State.answerG, hout, hdst, Option.bind_some, List.head?_cons]

end

end

/-! ## The statement -/

/-- What a terminator leaves that sends for one result and completes with one more place. -/
theorem settleT_addPlace_addOut {u v : State} {o : Out} (hcur : v.cur = u.cur)
    (hst : v.strands = (u.onStrand u.cur (Strand.addOut o)).strands) (id : Nat) :
    let t := (Act.done (v.onStrand u.cur (Strand.addPlace id))).settleT
    t.arch u.cur = u.me.ended ∧ (t.strand u.cur).out = (u.strand u.cur).out ++ [o] ∧
      (t.strand u.cur).places = (u.strand u.cur).places ++ [id] ∧ (∀ k, k ≠ u.cur → t.strand k = u.strand k) := by
  obtain ⟨harch, hplaces, hout, hothers⟩ := settleT_addPlace v id
  have hstrand (k : Nat) : v.strand k = (u.onStrand u.cur (Strand.addOut o)).strand k := by rw [State.strand, hst, State.strand]
  have hown : v.strand u.cur = (u.strand u.cur).addOut o := (hstrand _).trans (State.strand_onStrand_self _ _ _)
  have hme : v.me = u.me := by
    rw [State.me, hcur, State.arch, hown]
    rfl
  rw [hme, hcur] at harch
  rw [hcur, hown] at hplaces hout
  rw [hcur] at hothers
  exact ⟨harch, hout, hplaces, fun k hk => (hothers k hk).trans ((hstrand k).trans (State.strand_onStrand_ne u hk _))⟩

/-- What an amo to its die leaves: its result outstanding, and a place before the next chunk of its strand. -/
theorem settleT_near {f : AtomicForm} {u : State} {loc : Nat} (hlocal : f.remote = false)
    (hdie : locOnDie (dieOf u.cur) loc = true) :
    let t := (atomicSent f u loc).settleT
    t.arch u.cur = u.me.ended ∧
      (t.strand u.cur).out = (u.strand u.cur).out ++ [left u ((u.strand u.cur).openId - 1) [.g f.d] .reply] ∧
      (t.strand u.cur).places = (u.strand u.cur).places ++ [u.serial + 1] ∧
      t.msgs = u.msgs ++ [
        { id := u.serial + 1, src := coreOf u.cur, eng := none,
          kind := .amo u.cur u.serial loc f.op f.wide (u.me.word f.b) (u.me.word f.d) }] ∧
      (∀ k, k ≠ u.cur → t.strand k = u.strand k) ∧ t.remotes = u.remotes ∧ t.mem = u.mem ∧ t.tags = u.tags := by
  obtain ⟨c, hsent⟩ := atomicSent_near (f := f) hlocal hdie
  rw [hsent]
  obtain ⟨harch, hout, hplaces, hothers⟩ := settleT_addPlace_addOut (u := u)
    (v := (({ u with cores := c } : State).setPendingT [.g f.d] .reply).send (coreOf u.cur)
      (.amo u.cur u.serial loc f.op f.wide (u.me.word f.b) (u.me.word f.d))) rfl rfl (u.serial + 1)
  exact ⟨harch, hout, hplaces, rfl, hothers, rfl, rfl, rfl⟩

theorem setPendingT_arch (u : State) (dsts : List RegName) (src : Source) : (u.setPendingT dsts src).arch u.cur = u.me := by
  have hown : (u.setPendingT dsts src).strand u.cur = (u.strand u.cur).addOut (left u ((u.strand u.cur).openId - 1) dsts src) :=
    State.strand_setStrand_self u u.cur _
  rw [State.arch, hown]
  rfl

/-- What an amo to another die, or a ramo, leaves: its result outstanding, and an entry of the remote-access unit. -/
theorem settleT_far {f : AtomicForm} {u : State} {loc : Nat} (hfar : f.remote = true ∨ locOnDie (dieOf u.cur) loc = false)
    (hroom : (u.remotes.filter (·.cid == coreOf u.cur)).length < 32) :
    let t := (atomicSent f u loc).settleT
    Own u t u.me.ended ((u.strand u.cur).out ++ [left u ((u.strand u.cur).openId - 1) [.g f.d] .reply]) ∧
      t.remotes = u.remotes ++ [
        { id := u.serial + 1, cid := coreOf u.cur, sid := u.cur, gang := u.me.gangNo, group := u.me.group, live := true,
          kind := .rmw (u.me.readG f.a).cursor u.serial loc f.op f.wide (u.me.word f.b) (u.me.word f.d) (!f.remote),
          performed := false, failed := none }] ∧
      t.msgs = u.msgs ∧ t.mem = u.mem ∧ t.tags = u.tags := by
  obtain ⟨c, hsent⟩ := atomicSent_far (f := f) hfar hroom
  rw [hsent]
  have harch : (({ u with cores := c } : State).setPendingT [.g f.d] .reply).arch u.cur = u.me := setPendingT_arch _ _ _
  refine ⟨own_end_pending rfl rfl, ?_, rfl, rfl, rfl⟩
  rw [← harch]
  rfl

/-- Settles O21: the checks decide what an atomic does when it issues, and at a free location performing it is a store. -/
theorem atomicsAreSentAndPerformed : Obligations.AtomicsAreSentAndPerformed := by
  unfold Obligations.AtomicsAreSentAndPerformed
  refine ⟨?issued, ?performed⟩
  case issued =>
    intro s u i f hf h
    rw [exec_atomic hf h, ← h.cur]
    refine ⟨fun cause hcheck => by rw [atomicAct_of_fault hcheck]; rfl, fun hcheck => ⟨?_, fun htry loc hloc => ?_⟩⟩
    · rintro ⟨htry, hdepth⟩
      rw [atomicAct_of_try hcheck htry hdepth]
      rfl
    · rw [atomicAct_of_target hcheck htry hloc]
      refine ⟨fun hlocal hdie => ⟨_, _, rfl, settleT_near hlocal hdie⟩,
        fun hfar => ⟨fun hroom => ⟨_, _, rfl, settleT_far hfar hroom⟩, fun hfull => ⟨_, rfl, ?_⟩⟩⟩
      obtain ⟨c, hsent⟩ := atomicSent_full (f := f) hfar hfull
      rw [hsent]
      obtain ⟨-, hwait, -⟩ := waiting_eq ({ u with cores := c } : State) .full
      exact ⟨hwait, rfl, rfl, rfl⟩
  case performed =>
    intro s p sid out loc op wide x e d o n bs v fl hop hwide hn hfree heff hp hout hdst
    exact ⟨fun m => amoExecute_eq hfree hop hwide hn heff hp hout hdst,
      fun r va amo hr hkind hsid hperformed hfailed harg hentered hheld =>
        ⟨_, remotePerform_rmw_eq hfree hop hwide hn heff hp hout hdst hr hkind hsid hperformed hfailed harg hentered hheld, rfl⟩⟩

end Sys2Proof.Machine

/-! SUPPORT. The instructions of Stitch (10 R184 to R195): what a context reads after a change, what each member of major 0x1D does once
its chunk has ended, and which strands a break reaches. -/

namespace Sys2Proof.Machine

open Sys2Proof Claims

/-! ## Contexts -/

section
variable (d : Die) {j n : Nat}

@[simp] theorem Die.ctx_onCtx_self (f : Ctx → Ctx) : (d.onCtx n f).ctx n = f (d.ctx n) := mapGet_mapSet_self _ _ _ _

theorem Die.ctx_onCtx_ne (h : j ≠ n) (f : Ctx → Ctx) : (d.onCtx n f).ctx j = d.ctx j := mapGet_mapSet_ne _ _ h _

/-- A context whose items are released stops no new ones (10 R195). -/
@[simp] theorem Die.ctx_releaseItems_self : (d.releaseItems n).ctx n = { d.ctx n with stopped := false } :=
  d.ctx_onCtx_self fun c => { c with stopped := false }

end

theorem mapGet_filter_of_false {α : Type} {d : α} {k : Nat} {keep : Nat → Bool} (h : keep k = false) (m : Map α) :
    mapGet d k (m.filter fun x => keep x.1) = d := by
  induction m with
  | nil => rfl
  | cons e m ih =>
    obtain ⟨i, x⟩ := e
    rw [List.filter_cons]
    split
    · next hi =>
      have hne : i ≠ k := by
        rintro rfl
        exact absurd hi (by simp [h])
      rw [mapGet, if_neg hne, ih]
    · exact ih

theorem phaseKey_mod {ctx : Nat} (hctx : ctx < 64) (cid : Nat) : phaseKey cid ctx % 64 = ctx := by
  unfold phaseKey
  omega

/-- Every core's copy of a phase that begins anew is 0 (10 R184). -/
theorem mapGet_freshPhases (d : Die) {ctx : Nat} (hctx : ctx < 64) (cid : Nat) :
    mapGet 0 (phaseKey cid ctx) (d.freshPhases ctx).phases = 0 :=
  mapGet_filter_of_false (keep := fun k => k % 64 != ctx) (by simp [phaseKey_mod hctx]) _

theorem State.quiet_eq_false {s : State} {die ctx : Nat} (h : (∃ i ∈ (s.die die).items, i.ctx = ctx ∧ i.layer ≠ 17) ∨
    (∃ m ∈ s.msgs, ∃ phase l, m.kind = .release die ctx phase l)) : s.quiet die ctx = false := by
  unfold State.quiet
  rw [Bool.and_eq_false_iff, Bool.not_eq_false', Bool.not_eq_false', List.any_eq_true, List.any_eq_true]
  obtain ⟨i, hi, hctx, hlayer⟩ | ⟨m, hm, phase, l, hkind⟩ := h
  · exact Or.inl ⟨i, hi, by simp [hctx, hlayer]⟩
  · exact Or.inr ⟨m, hm, by simp [hkind]⟩

/-! ## The steps that the unprivileged members share (10 R185, R194) -/

section
variable {u : State} {ctx mode : Nat} {c : Ctx} (hc : c = (u.die (dieOf u.cur)).ctx ctx)
include hc

theorem State.refuses_of_off (h : c.mode = 0 ∨ c.domain ≠ (u.strand u.cur).domain.toNat) :
    u.refuses ctx mode = some (BitVec.ofNat 64 ctx) := by
  subst hc
  exact if_pos h

theorem State.refuses_of_mode (hon : c.mode ≠ 0) (hdomain : c.domain = (u.strand u.cur).domain.toNat) (hmode : c.mode ≠ mode) :
    u.refuses ctx mode = some (BitVec.ofNat 64 (256 + ctx)) := by
  subst hc
  exact (if_neg (by simp [hon, hdomain])).trans (if_pos hmode)

theorem State.refuses_none (hon : c.mode ≠ 0) (hdomain : c.domain = (u.strand u.cur).domain.toNat) (hmode : c.mode = mode) :
    u.refuses ctx mode = none := by
  subst hc
  exact (if_neg (by simp [hon, hdomain])).trans (if_neg (by simp [hmode]))

end

section
variable {reads : List RegName} {a : BitVec 6} {mode ctx : Nat} {f : Nat → State → Act} {s u : State}
  (h : MayEnd false false reads s u) (hctx : ctx = (u.me.word a).toNat % 64)
include h hctx

theorem stitchOp_of_refused {v : Word} (hv : u.refuses ctx mode = some v) :
    stitchOp reads a mode f s = .next (u.raise s.cur .bndom v) := by
  subst hctx
  refine (terminate_of_mayEnd h _).trans ?_
  rw [← h.cur]
  simp only [State.me] at hv
  simp only [ctxField, hv, Act.settleT]

variable (haccepts : u.refuses ctx mode = none)
include haccepts

theorem stitchOp_of_broken (hmode : mode = 2) (hbroken : ((u.die (dieOf s.cur)).ctx ctx).broken = true) :
    stitchOp reads a mode f s = .next (u.raise s.cur .sbbroken (BitVec.ofNat 64 ctx)) := by
  subst hctx hmode
  refine (terminate_of_mayEnd h _).trans ?_
  rw [← h.cur] at hbroken ⊢
  simp only [State.me] at haccepts hbroken ⊢
  simp only [ctxField, haccepts, hbroken, and_self, if_true, Act.settleT]

theorem stitchOp_of_accepted (hwhole : mode = 2 → ((u.die (dieOf s.cur)).ctx ctx).broken = false) :
    stitchOp reads a mode f s = .next (f ctx u).settleT := by
  subst hctx
  refine (terminate_of_mayEnd h _).trans ?_
  rw [← h.cur] at hwhole
  have hpass : ¬ (mode = 2 ∧ ((u.die (dieOf u.cur)).ctx (ctxField ((u.arch u.cur).word a))).broken = true) :=
    fun ⟨hmode, hbroken⟩ => Bool.false_ne_true ((hwhole hmode).symm.trans hbroken)
  have hnone : u.refuses (ctxField ((u.arch u.cur).word a)) mode = none := haccepts
  simp only [hnone, if_neg hpass]
  rfl

end

/-! ## An item enters (10 R182, R186, R188, R191) -/

/-- What a member of the table does in a context that accepts it. -/
def enterAct (f : StitchForm) (ctx : Nat) (u : State) : Act :=
  match f.dst with
  | some d => injectFor f.kind d ctx u
  | none => .done (u.inject (dieOf u.cur) ctx f.kind u.cur 0 ((f.payload.map u.me.word).getD 0) 0)

theorem exec_of_stitchOf {i : Instr} {f : StitchForm} (hf : stitchOf i = some f) (s : State) :
    exec i s = stitchOp f.reads f.a f.mode (enterAct f) s := by
  unfold stitchOf at hf
  split at hf <;> cases hf <;> rfl

/-- A member with a destination carries no payload. -/
theorem stitchOf_payload {i : Instr} {f : StitchForm} (hf : stitchOf i = some f) {d : BitVec 6} (hd : f.dst = some d) :
    f.payload = none := by
  unfold stitchOf at hf
  split at hf <;> cases hf
  case h_1 | h_2 => rfl
  all_goals cases hd

theorem State.die_inject (u : State) (die ctx : Nat) (kind : Token) (sid out : Nat) (payload ref : Word) :
    (u.inject die ctx kind sid out payload ref).die die = { u.die die with
      items := (u.die die).items ++ [
        { id := u.serial, ctx := ctx, kind := kind, pos := sid / 16 % 32 % 2 ^ ((u.die die).ctx ctx).lw,
          layer := if ((u.die die).ctx ctx).stopped then 17 else 0, arrived := u.serial, sid := sid, out := out,
          payload := payload, ref := ref }] } :=
  mapGet_mapSet_self _ _ _ _

/-- One item enters, no context changes, and a member with a destination leaves it outstanding. -/
theorem settleT_enterAct {u : State} {ctx : Nat} {c : Ctx} (hc : c = (u.die (dieOf u.cur)).ctx ctx) {f : StitchForm}
    (hpayload : ∀ d, f.dst = some d → f.payload = none) :
    ∃ t n out chunk, (enterAct f ctx u).settleT = t ∧
      (t.die (dieOf u.cur)).items = (u.die (dieOf u.cur)).items ++ [enteringItem u c ctx n f out] ∧
      (∀ k, (t.die (dieOf u.cur)).ctx k = (u.die (dieOf u.cur)).ctx k) ∧ t.mem = u.mem ∧ t.tags = u.tags ∧
      (f.dst = none → Own u t u.me.ended (u.strand u.cur).out) ∧
      (∀ d, f.dst = some d → out = u.serial ∧ Own u t u.me.ended ((u.strand u.cur).out ++ [left u chunk [.g d] .reply])) := by
  subst hc
  obtain ⟨a, mode, kind, payload, dst⟩ := f
  cases dst with
  | none =>
    have hdie := u.die_inject (dieOf u.cur) ctx kind u.cur 0 ((payload.map u.me.word).getD 0) 0
    have hctxs := congrArg Die.ctxs hdie
    exact ⟨_, u.serial, 0, 0, rfl, congrArg Die.items hdie, fun k => congrArg (mapGet Ctx.off k) hctxs, rfl, rfl,
      fun _ => end_own rfl rfl, fun _ hd => (nomatch hd)⟩
  | some d =>
    obtain rfl : payload = none := hpayload d rfl
    have hdie := (u.setPendingT [.g d] .reply).die_inject (dieOf u.cur) ctx kind u.cur u.serial 0 0
    have hctxs := congrArg Die.ctxs hdie
    refine ⟨_, u.serial + 1, u.serial, (u.strand u.cur).openId - 1, rfl, congrArg Die.items hdie,
      fun k => congrArg (mapGet Ctx.off k) hctxs, rfl, rfl, fun hd => (nomatch hd), fun d' hd => ⟨rfl, ?_⟩⟩
    cases hd
    exact own_end_pending rfl rfl

/-- bn.cnt, bn.anti, bn.spread and bn.arr (10 R185, R186, R188, R191). -/
theorem exec_stitchOf_spec {s u : State} {i : Instr} {f : StitchForm} {ctx : Nat} {c : Ctx} (hf : stitchOf i = some f)
    (h : MayEnd false false f.reads s u) (hctx : ctx = (u.me.word f.a).toNat % 64) (hc : c = (u.die (dieOf s.cur)).ctx ctx)
    (hon : c.mode ≠ 0) (hdomain : c.domain = (u.strand s.cur).domain.toNat) (hmode : c.mode = f.mode)
    (hwhole : f.mode = 2 → c.broken = false) :
    ∃ t n out chunk, exec i s = .next t ∧
      (t.die (dieOf s.cur)).items = (u.die (dieOf s.cur)).items ++ [enteringItem u c ctx n f out] ∧
      (∀ k, (t.die (dieOf s.cur)).ctx k = (u.die (dieOf s.cur)).ctx k) ∧ t.mem = u.mem ∧ t.tags = u.tags ∧
      (f.dst = none → Own u t u.me.ended (u.strand s.cur).out) ∧
      (∀ d, f.dst = some d → out = u.serial ∧ Own u t u.me.ended ((u.strand s.cur).out ++ [left u chunk [.g d] .reply])) := by
  subst hc
  have hexec : exec i s = .next (enterAct f ctx u).settleT := by
    rw [← h.cur] at hon hdomain hmode
    exact (exec_of_stitchOf hf s).trans (stitchOp_of_accepted h hctx (State.refuses_none rfl hon hdomain hmode) hwhole)
  rw [← h.cur]
  obtain ⟨t, n, out, chunk, ht, hspec⟩ := settleT_enterAct (ctx := ctx) rfl fun _ hd => stitchOf_payload hf hd
  exact ⟨t, n, out, chunk, hexec.trans (congrArg _ ht), hspec⟩

/-! ## bn.wait (10 R188, R189) -/

theorem phaseOver_iff {copy p : Nat} (hp : p < 2 ^ 16) :
    phaseOver copy p = true ↔ 1 ≤ (copy + 2 ^ 16 - p) % 2 ^ 16 ∧ (copy + 2 ^ 16 - p) % 2 ^ 16 < 2 ^ 15 := by
  simp only [phaseOver, Nat.mod_eq_of_lt hp, Bool.and_eq_true, decide_eq_true_eq]

/-- What bn.wait does in a context that accepts it. -/
def waitAct (b : BitVec 6) (ctx : Nat) (u : State) : Act :=
  let p := (u.me.word b).toNat % 2 ^ 16
  if phaseOver (mapGet 0 (phaseKey (coreOf u.cur) ctx) (u.die (dieOf u.cur)).phases) p then .done u
  else .hold (u.waiting (.phase ctx p))

section
variable {s u : State} {a b : BitVec 6} (h : MayEnd false false [.g a, .g b] s u)
include h

theorem bnWait_of_passed (hwait : (s.strand s.cur).wait = .passed) :
    ∃ t, exec (.bnWait a b) s = .next t ∧ Ran u t u.me.ended (u.strand s.cur).out := by
  have hexec : exec (.bnWait a b) s = terminate false false [.g a, .g b] s .done := by
    show execBnWait a b s = _
    rw [execBnWait, hwait]
  rw [hexec]
  exact h.ran rfl

omit h in
theorem exec_bnWait (hphase : ∀ k q, (s.strand s.cur).wait ≠ .phase k q) (hpassed : (s.strand s.cur).wait ≠ .passed) :
    exec (.bnWait a b) s = stitchOp [.g a, .g b] a 2 (waitAct b) s := by
  show execBnWait a b s = _
  unfold execBnWait
  split
  · next hwait => exact absurd hwait hpassed
  · next hwait => exact absurd hwait (hphase _ _)
  · rfl

variable {ctx copy p : Nat} (hcopy : copy = mapGet 0 (phaseKey (coreOf u.cur) ctx) (u.die (dieOf u.cur)).phases)
  (hp : p = (u.me.word b).toNat % 2 ^ 16)
include hcopy hp

theorem settleT_waitAct_of_over (hover : phaseOver copy p = true) :
    Ran u (waitAct b ctx u).settleT u.me.ended (u.strand s.cur).out := by
  subst hcopy hp
  have hact : waitAct b ctx u = .done u := if_pos hover
  obtain ⟨t, ht, hran⟩ := h.ran (body := fun _ => .done u) rfl
  rw [terminate_of_mayEnd h] at ht
  cases ht
  rw [hact]
  exact hran

omit h in
theorem settleT_waitAct_of_open (hopen : ¬ phaseOver copy p = true) : (waitAct b ctx u).settleT = u.waiting (.phase ctx p) := by
  subst hcopy hp
  have hact : waitAct b ctx u = .hold (u.waiting (.phase ctx ((u.me.word b).toNat % 2 ^ 16))) := if_neg hopen
  rw [hact]
  rfl

end

/-! ## A context changes once it is quiescent (10 R195) -/

section
variable {u : State} {ctx : Nat} {c : Ctx} (hc : c = (u.die (dieOf u.cur)).ctx ctx)

theorem State.whenQuiet_of_quiet (hquiet : u.quiet (dieOf u.cur) ctx = true) (f : State → State) : u.whenQuiet ctx f = .done (f u) :=
  if_pos hquiet

/-- Until then its new items are stopped, and the strand waits. -/
theorem settleT_whenQuiet_of_busy (hbusy : u.quiet (dieOf u.cur) ctx = false) (f : State → State) :
    ((u.whenQuiet ctx f).settleT.strand u.cur).wait = .instr ∧
      ((u.whenQuiet ctx f).settleT.die (dieOf u.cur)).ctx ctx = { (u.die (dieOf u.cur)).ctx ctx with stopped := true } := by
  have hact : u.whenQuiet ctx f = .hold ((u.onDie (dieOf u.cur) fun d => d.onCtx ctx fun c => { c with stopped := true }).waiting
      .instr) := if_neg (by simp [hbusy])
  rw [hact]
  refine ⟨(waiting_eq (u.onDie (dieOf u.cur) fun d => d.onCtx ctx fun c => { c with stopped := true }) .instr).2.1, ?_⟩
  have hdie := u.die_onDie_self (dieOf u.cur) fun d => d.onCtx ctx fun c => { c with stopped := true }
  have hctxs := congrArg (Die.ctx · ctx) hdie
  exact hctxs.trans (Die.ctx_onCtx_self _ _)

include hc in
/-- A change of a quiescent context releases its items, and the cores' copies of its phase begin anew. -/
theorem settleT_changeCtx (hquiet : u.quiet (dieOf u.cur) ctx = true) (hctx : ctx < 64) (f : Ctx → Ctx) :
    ∃ t, (u.changeCtx ctx f).settleT = t ∧ Own u t u.me.ended (u.strand u.cur).out ∧ t.mem = u.mem ∧ t.tags = u.tags ∧
      (t.die (dieOf u.cur)).ctx ctx = { f c with stopped := false } ∧
      ∀ cid, mapGet 0 (phaseKey cid ctx) (t.die (dieOf u.cur)).phases = 0 := by
  subst hc
  have hact : u.changeCtx ctx f = .done _ := State.whenQuiet_of_quiet hquiet _
  have hdie := u.die_onDie_self (dieOf u.cur) fun d => ((d.onCtx ctx f).releaseItems ctx).freshPhases ctx
  have hctxs := congrArg (Die.ctx · ctx) hdie
  have hphases := congrArg Die.phases hdie
  rw [hact]
  refine ⟨_, rfl, end_own rfl rfl, rfl, rfl, hctxs.trans ?_, fun cid => ?_⟩
  · exact (Die.ctx_releaseItems_self _).trans (by rw [Die.ctx_onCtx_self])
  · exact (congrArg (mapGet 0 (phaseKey cid ctx)) hphases).trans (mapGet_freshPhases _ hctx cid)

end

/-! ## Strands that a break, or a release, reaches (10 R188, R189) -/

/-- `t` differs from `s` only in its strands. -/
def StrandsOnly (s t : State) : Prop := ∃ a, t = { s with strands := a }

theorem StrandsOnly.refl (s : State) : StrandsOnly s s := ⟨s.strands, rfl⟩

theorem StrandsOnly.trans {a b c : State} (h : StrandsOnly a b) (g : StrandsOnly b c) : StrandsOnly a c := by
  obtain ⟨x, rfl⟩ := h
  obtain ⟨y, rfl⟩ := g
  exact ⟨y, rfl⟩

/-- A strand of a list, which each step for another leaves alone, ends as its own step leaves it. -/
theorem forAll_strand_of_mem {g : State → Nat → State} {k : Nat} {x : Strand} {Q : Strand → Prop}
    (hothers : ∀ s j, j ≠ k → (g s j).strand k = s.strand k) (hreach : ∀ s : State, s.strand k = x → Q ((g s k).strand k))
    (hkeep : ∀ s : State, Q (s.strand k) → Q ((g s k).strand k)) {l : List Nat} (hk : k ∈ l) {s : State} (hx : s.strand k = x) :
    Q ((forAll l g s).strand k) := by
  have hstays : ∀ (l : List Nat) (s : State), Q (s.strand k) → Q ((forAll l g s).strand k) := fun l s =>
    forAll_rel (fun s t => Q (s.strand k) → Q (t.strand k)) (fun _ => id) (fun h h' => h' ∘ h) g
      (fun s j hQ => by
        obtain rfl | hj : j = k ∨ j ≠ k := Decidable.em _
        · exact hkeep s hQ
        · rw [hothers s j hj]
          exact hQ) l s
  induction l generalizing s with
  | nil => cases hk
  | cons j l ih =>
    obtain rfl | hj : j = k ∨ j ≠ k := Decidable.em _
    · exact hstays l _ (hreach s hx)
    · exact ih ((List.mem_cons.mp hk).resolve_left hj.symm) ((hothers s j hj).trans hx)

/-- A strand whose wait a break of its barrier ends. -/
def Strand.broken (hit : Wait → Option Word) (t : Strand) : Strand :=
  match hit t.wait with
  | some v => { t with trap := some { cause := .sbbroken, val := v }, wait := .none }
  | none => t

section
variable (s : State) (l : List Nat) {hit : Wait → Option Word} {k : Nat}

theorem State.trapParked_strandsOnly (hit : Wait → Option Word) : StrandsOnly s (s.trapParked l hit) :=
  forAll_rel StrandsOnly StrandsOnly.refl StrandsOnly.trans _ (fun _ _ => ⟨_, rfl⟩) l s

theorem State.trapParked_strand_of_miss (hmiss : hit (s.strand k).wait = none) : (s.trapParked l hit).strand k = s.strand k := by
  have hsame : (s.strand k).broken hit = s.strand k := by rw [Strand.broken, hmiss]
  refine forAll_rel (fun s' t => s'.strand k = s.strand k → t.strand k = s.strand k) (fun _ => id) (fun h h' => h' ∘ h)
    (fun s j => s.onStrand j (Strand.broken hit)) (fun s' j hs' => ?_) l s rfl
  obtain rfl | hj : k = j ∨ k ≠ j := Decidable.em _
  · rw [State.strand_onStrand_self, hs', hsame]
  · rw [State.strand_onStrand_ne s' hj, hs']

/-- Every strand whose wait the break ends traps SBBROKEN. -/
theorem State.trapParked_strand_of_hit {v : Word} (hnone : hit .none = none) (hk : k ∈ l) (hv : hit (s.strand k).wait = some v) :
    ((s.trapParked l hit).strand k).wait = .none ∧
      ((s.trapParked l hit).strand k).trap = some { cause := .sbbroken, val := v } := by
  refine forAll_strand_of_mem (g := fun s j => s.onStrand j (Strand.broken hit)) (x := s.strand k)
    (Q := fun t => t.wait = .none ∧ t.trap = some { cause := .sbbroken, val := v }) (fun s' j hj => ?_) (fun s' hs' => ?_)
    (fun s' hs' => ?_) hk rfl
  · exact State.strand_onStrand_ne s' hj.symm _
  · rw [State.strand_onStrand_self, hs', Strand.broken, hv]
    exact ⟨rfl, rfl⟩
  · rw [State.strand_onStrand_self, Strand.broken, hs'.1, hnone]
    exact hs'

end

/-- The strands that a break of a context reaches, with the value that they trap with. -/
def parkedOn (ctx : Nat) : Wait → Option Word
  | .phase c _ => if c = ctx then some (BitVec.ofNat 64 ctx) else none
  | _ => none

theorem parkedOn_phase (ctx p : Nat) : parkedOn ctx (.phase ctx p) = some (BitVec.ofNat 64 ctx) := if_pos rfl

theorem parkedOn_eq_none {ctx : Nat} {w : Wait} (h : ∀ p, w ≠ .phase ctx p) : parkedOn ctx w = none := by
  unfold parkedOn
  split
  · next c p =>
    refine if_neg ?_
    rintro rfl
    exact h p rfl
  · rfl

/-- A break: the context is broken and stops no items, and the strands of the die that are parked on it trap. -/
theorem State.breakCtx_spec (u : State) (die ctx : Nat) :
    ∃ a, u.breakCtx die ctx = { u.onDie die (fun d => (d.onCtx ctx fun c => { c with broken := true, breaking := false }).releaseItems
      ctx) with strands := a } ∧
      (∀ k, parkedOn ctx (u.strand k).wait = none → (u.breakCtx die ctx).strand k = u.strand k) ∧
      (∀ k ∈ u.strands.map Prod.fst, dieOf k = die → ∀ p, (u.strand k).wait = .phase ctx p →
        ((u.breakCtx die ctx).strand k).wait = .none ∧
        ((u.breakCtx die ctx).strand k).trap = some { cause := .sbbroken, val := BitVec.ofNat 64 ctx }) := by
  have hbreak : u.breakCtx die ctx =
      (u.onDie die fun d => (d.onCtx ctx fun c => { c with broken := true, breaking := false }).releaseItems ctx).trapParked
        ((u.strands.map (·.1)).filter fun sid => dieOf sid == die) (parkedOn ctx) := rfl
  rw [hbreak]
  obtain ⟨a, ha⟩ := State.trapParked_strandsOnly
    (u.onDie die fun d => (d.onCtx ctx fun c => { c with broken := true, breaking := false }).releaseItems ctx)
    ((u.strands.map (·.1)).filter fun sid => dieOf sid == die) (parkedOn ctx)
  refine ⟨a, ha, fun k hk => State.trapParked_strand_of_miss _ _ hk, fun k hk hdie p hp => ?_⟩
  refine State.trapParked_strand_of_hit _ _ rfl (List.mem_filter.mpr ⟨hk, by simp [hdie]⟩) ?_
  rw [State.strand_onDie, hp, parkedOn_phase]

/-! ## bn.clr (10 R189, R195) -/

/-- What bn.clr with the break option does to a quiescent context. -/
def State.breakOrRelease (die ctx : Nat) (s : State) : State :=
  if ((s.die die).ctx ctx).mode = 2 then s.breakCtx die ctx else s.onDie die fun d => d.releaseItems ctx

section
variable {s u : State} {a b : BitVec 6} {ctx : Nat} {c : Ctx} (h : MayEnd true false [.g a, .g b] s u)
  (hctx : ctx = (u.me.word a).toNat % 64) (hc : c = (u.die (dieOf s.cur)).ctx ctx)
include h hctx

theorem exec_bnClr_clear (hbit : (u.me.word b).getLsbD 0 = false) :
    exec (.bnClr a b) s = .next (u.changeCtx ctx Ctx.cleared).settleT := by
  subst hctx
  exact (terminate_of_mayEnd h _).trans (congrArg (fun x : Act => Host.Outcome.next x.settleT) (if_pos hbit))

theorem exec_bnClr_break (hbit : (u.me.word b).getLsbD 0 = true) :
    exec (.bnClr a b) s = .next (u.whenQuiet ctx (State.breakOrRelease (dieOf u.cur) ctx)).settleT := by
  subst hctx
  have hset : ¬ (u.me.word b).getLsbD 0 = false := by simp [hbit]
  exact (terminate_of_mayEnd h _).trans (congrArg (fun x : Act => Host.Outcome.next x.settleT) (if_neg hset))

include hc

theorem bnClr_waits (hbusy : u.quiet (dieOf s.cur) ctx = false) :
    ∃ t, exec (.bnClr a b) s = .next t ∧ (t.strand s.cur).wait = .instr ∧
      (t.die (dieOf s.cur)).ctx ctx = { c with stopped := true } := by
  subst hc
  rw [← h.cur] at hbusy ⊢
  cases hbit : (u.me.word b).getLsbD 0 with
  | false => exact ⟨_, exec_bnClr_clear h hctx hbit, settleT_whenQuiet_of_busy hbusy _⟩
  | true => exact ⟨_, exec_bnClr_break h hctx hbit, settleT_whenQuiet_of_busy hbusy _⟩

variable (hquiet : u.quiet (dieOf s.cur) ctx = true)
include hquiet

theorem bnClr_clears (hbit : (u.me.word b).getLsbD 0 = false) :
    ∃ t, exec (.bnClr a b) s = .next t ∧ Own u t u.me.ended (u.strand s.cur).out ∧ t.mem = u.mem ∧ t.tags = u.tags ∧
      (t.die (dieOf s.cur)).ctx ctx = { c.cleared with stopped := false } ∧
      mapGet 0 (phaseKey (coreOf s.cur) ctx) (t.die (dieOf s.cur)).phases = 0 := by
  rw [← h.cur] at hquiet hc ⊢
  have hlt : ctx < 64 := hctx ▸ Nat.mod_lt _ (by decide)
  obtain ⟨t, ht, hown, hmem, htags, hx, hphases⟩ := settleT_changeCtx hc hquiet hlt Ctx.cleared
  exact ⟨t, (exec_bnClr_clear h hctx hbit).trans (congrArg _ ht), hown, hmem, htags, hx, hphases _⟩

variable (hbit : (u.me.word b).getLsbD 0 = true)
include hbit

/-- Outside a barrier the break option only lets the items that were stopped enter. -/
theorem bnClr_releases (hmode : c.mode ≠ 2) :
    ∃ t, exec (.bnClr a b) s = .next t ∧ t.arch s.cur = u.me.ended ∧ (t.strand s.cur).out = (u.strand s.cur).out ∧
      t.mem = u.mem ∧ t.tags = u.tags ∧
      (t.die (dieOf s.cur)).ctx ctx = { c with stopped := false } := by
  have hexec := exec_bnClr_break h hctx hbit
  subst hc
  rw [← h.cur] at hquiet hmode ⊢
  have hrelease : State.breakOrRelease (dieOf u.cur) ctx u = u.onDie (dieOf u.cur) fun d => d.releaseItems ctx := if_neg hmode
  rw [State.whenQuiet_of_quiet hquiet, hrelease] at hexec
  have hctxs := congrArg (Die.ctx · ctx) (u.die_onDie_self (dieOf u.cur) fun d => d.releaseItems ctx)
  have hown := end_own (u := u) (v := u.onDie (dieOf u.cur) fun d => d.releaseItems ctx) rfl rfl
  exact ⟨_, hexec, hown.arch, hown.out, rfl, rfl, hctxs.trans (Die.ctx_releaseItems_self _)⟩

theorem bnClr_breaks (hmode : c.mode = 2) (hself : ∀ p, (u.strand s.cur).wait ≠ .phase ctx p) :
    ∃ t, exec (.bnClr a b) s = .next t ∧ t.arch s.cur = u.me.ended ∧ (t.strand s.cur).out = (u.strand s.cur).out ∧
      t.mem = u.mem ∧ t.tags = u.tags ∧
      (t.die (dieOf s.cur)).ctx ctx = { c with broken := true, breaking := false, stopped := false } ∧
      ∀ k ∈ u.strands.map Prod.fst, k ≠ s.cur → dieOf k = dieOf s.cur → ∀ p, (u.strand k).wait = .phase ctx p →
        (t.strand k).wait = .none ∧ (t.strand k).trap = some { cause := .sbbroken, val := BitVec.ofNat 64 ctx } := by
  have hexec := exec_bnClr_break h hctx hbit
  subst hc
  rw [← h.cur] at hquiet hmode hself ⊢
  have hbreak : State.breakOrRelease (dieOf u.cur) ctx u = u.breakCtx (dieOf u.cur) ctx := if_pos hmode
  rw [State.whenQuiet_of_quiet hquiet, hbreak] at hexec
  obtain ⟨l, hbroken, hmiss, hhit⟩ := u.breakCtx_spec (dieOf u.cur) ctx
  have hcur : (u.breakCtx (dieOf u.cur) ctx).cur = u.cur := by rw [hbroken]; rfl
  have hown := hmiss u.cur (parkedOn_eq_none hself)
  obtain ⟨harch, -, hout, hothers, hrest⟩ := settleT_done (v := u.breakCtx (dieOf u.cur) ctx)
  rw [hcur] at harch hout hothers
  have hmem := congrArg State.mem hrest
  have htags := congrArg State.tags hrest
  have hdies := congrArg State.dies hrest
  refine ⟨_, hexec, ?_, ?_, ?_, ?_, ?_, fun k hk hne hdie p hp => ?_⟩
  · rw [harch, State.arch, hown]
    rfl
  · exact (congrArg Strand.out hout).trans (congrArg Strand.out hown)
  · exact hmem.trans (by rw [hbroken]; rfl)
  · exact htags.trans (by rw [hbroken]; rfl)
  · have hdie : ∀ k, (Act.done (u.breakCtx (dieOf u.cur) ctx)).settleT.die k = (u.breakCtx (dieOf u.cur) ctx).die k :=
      fun k => congrArg (mapGet Die.reset k) hdies
    have hctxs := congrArg (Die.ctx · ctx) (u.die_onDie_self (dieOf u.cur) fun d =>
      (d.onCtx ctx fun c => { c with broken := true, breaking := false }).releaseItems ctx)
    rw [hdie, hbroken]
    exact hctxs.trans ((Die.ctx_releaseItems_self _).trans (by rw [Die.ctx_onCtx_self]))
  · rw [hothers k hne]
    exact hhit k hk hdie p hp

end

/-! ## bn.cfg (10 R184, R195) -/

/-- What bn.cfg does with a record that it has read, to a quiescent context. -/
def cfgAct (u : State) (ctx : Nat) (bs : List Byte) : Act :=
  match ctxRecordBad (dieOf u.cur) bs with
  | some off => u.cfgTrap ctx .ill (BitVec.ofNat 64 off)
  | none => u.changeCtx ctx fun _ => ctxOfRecord bs

section
variable {s u : State} {a b : BitVec 6} {ctx : Nat} (h : MayEnd true false [.g a, .g b] s u)
  (hctx : ctx = (u.me.word a).toNat % 64) (hquiet : u.quiet (dieOf s.cur) ctx = true) {l : List Nat} {bs : List Byte}
  (hcheck : checkCap true (u.me.readG b) (u.me.readG b).cursor 256 [permLD] 0 = none) (hmode : u.me.smode = true)
  (halign : (u.me.readG b).cursor % 64 = 0) (harea : u.areaLocs u.cur false (u.me.readG b).cursor 16 = .ok l)
  (hshadow : u.shadowArea u.cur (u.me.readG b).cursor 256 = false) (hserve : u.serveArea u.cur (u.me.readG b).cursor 256 l = none)
  (hbs : bs = (l.flatMap fun loc => (List.range 16).map fun j => byteOf (u.sectorAt loc).bits j))
include h hctx hquiet hcheck hmode halign harea hshadow hserve hbs

/-- The record is read, and then its fields decide. -/
theorem exec_bnCfg : exec (.bnCfg a b) s = .next (cfgAct u ctx bs).settleT := by
  subst hctx hbs
  rw [← h.cur] at hquiet
  rw [← hmode] at hcheck
  have hpass : ¬ (u.me.readG b).cursor % 64 ≠ 0 := by simp [halign]
  refine (terminate_of_mayEnd h _).trans ?_
  simp only [State.me] at hcheck hpass harea hshadow hserve hquiet ⊢
  simp only [hcheck, if_neg hpass, harea, hshadow, ctxField, hquiet, hserve, Bool.not_true, Bool.false_eq_true, if_false]
  rfl

theorem bnCfg_traps {off : Nat} (hbad : ctxRecordBad (dieOf s.cur) bs = some off)
    (hstopped : ((u.die (dieOf s.cur)).ctx ctx).stopped = false) :
    exec (.bnCfg a b) s = .next (u.raise s.cur .ill (BitVec.ofNat 64 off)) := by
  have hexec := exec_bnCfg h hctx hquiet hcheck hmode halign harea hshadow hserve hbs
  rw [← h.cur] at hbad hstopped ⊢
  simpa only [cfgAct, hbad, State.cfgTrap, hstopped, Bool.false_eq_true, if_false, Act.settleT] using hexec

theorem bnCfg_configures (hgood : ctxRecordBad (dieOf s.cur) bs = none) :
    ∃ t, exec (.bnCfg a b) s = .next t ∧ Own u t u.me.ended (u.strand s.cur).out ∧ t.mem = u.mem ∧ t.tags = u.tags ∧
      (t.die (dieOf s.cur)).ctx ctx = { ctxOfRecord bs with stopped := false } := by
  have hexec := exec_bnCfg h hctx hquiet hcheck hmode halign harea hshadow hserve hbs
  rw [← h.cur] at hgood hquiet ⊢
  have hlt : ctx < 64 := hctx ▸ Nat.mod_lt _ (by decide)
  obtain ⟨t, ht, hown, hmem, htags, hx, -⟩ := settleT_changeCtx rfl hquiet hlt fun _ => ctxOfRecord bs
  rw [cfgAct, hgood] at hexec
  exact ⟨t, hexec.trans (congrArg _ ht), hown, hmem, htags, hx⟩

end

/-! ## bn.rd (10 R195) -/

/-- A terminator that leaves a result outstanding and changes nothing else. -/
theorem ran_end_pending (u : State) (dsts : List RegName) (src : Source) :
    Ran u (Act.done (u.setPendingT dsts src)).settleT u.me.ended
      ((u.strand u.cur).out ++ [left u ((u.strand u.cur).openId - 1) dsts src]) :=
  ran_settleT (s := u) (t := (u.strand u.cur).addOut (left u ((u.strand u.cur).openId - 1) dsts src)) (k := u.serial + 1) rfl

theorem Ctx.item_cell (c : Ctx) {k : Nat} (h8 : 8 ≤ k) (h39 : k ≤ 39) :
    c.item k = BitVec.ofInt 64 (mapGet 0 (k - 8) c.cells).toInt := by
  rw [Ctx.item, if_neg (by omega), if_neg (by omega), if_neg (by omega), if_neg (by omega), if_neg (by omega), if_pos ⟨h8, h39⟩,
    BitVec.signExtend]

theorem Ctx.item_of_ge (c : Ctx) {k : Nat} (h55 : 55 ≤ k) : c.item k = 0 := by
  rw [Ctx.item, if_neg (by omega), if_neg (by omega), if_neg (by omega), if_neg (by omega), if_neg (by omega), if_neg (by omega),
    if_neg (by omega)]

theorem bnRd_spec {s u : State} {d a : BitVec 6} {ctx k : Nat} {c : Ctx} (h : MayEnd true false [.g a, .g d] s u)
    (hctx : ctx = (u.me.word a).toNat % 64) (hc : c = (u.die (dieOf s.cur)).ctx ctx) (hk : k = (u.me.word a).toNat / 256 % 256) :
    ∃ t chunk, exec (.bnRd d a) s = .next t ∧
      Ran u t u.me.ended ((u.strand s.cur).out ++ [left u chunk [.g d] (.ready [.g d (.data (c.item k))] .none)]) := by
  subst hctx hc
  have hfield : ((u.me.word a).extractLsb' 8 8).toNat = k := by
    rw [hk, BitVec.extractLsb'_toNat, Nat.shiftRight_eq_div_pow]
  rw [← h.cur, ← hfield]
  exact ⟨_, _, terminate_of_mayEnd h _, ran_end_pending u _ _⟩

end Sys2Proof.Machine

/-! SUPPORT. The network of Stitch (10 R181 to R191): what a turn of a balancer, of a cell, of a barrier's tree and of a release leaves of
the contexts, the items, the messages and the strands. -/

namespace Sys2Proof.Machine

open Sys2Proof Claims

/-! ## Balancers (10 R181, R182) -/

/-- The exit of an item at a balancer whose toggle reads `t`. -/
def exitOf (i : Item) (b : Nat × Nat) (t : Bool) : Nat := if (if i.kind = .anti then t else !t) then b.1 else b.2

theorem exitOf_eq (i : Item) (b : Nat × Nat) (t : Bool) : exitOf i b t = if (i.kind = .anti) = (t = true) then b.1 else b.2 := by
  by_cases hanti : i.kind = .anti <;> cases t <;> simp [exitOf, hanti]

/-- The item as it leaves a balancer. -/
def Ctx.movedItem (c : Ctx) (layer key serial : Nat) (b : Nat × Nat) (i : Item) : Item :=
  { i with pos := if layer < depthOf c.lw then exitOf i b (mapGet false key c.toggles) else i.pos, layer := layer + 1, arrived := serial }

/-- A context with one toggle inverted. -/
def Ctx.toggle (c : Ctx) (key : Nat) : Ctx := { c with toggles := mapSet key (!mapGet false key c.toggles) c.toggles }

/-- The die as a balancer leaves it. -/
def Die.balanced (d : Die) (layer key serial : Nat) (b : Nat × Nat) (i : Item) : Die :=
  { (if layer < depthOf (d.ctx i.ctx).lw then d.onCtx i.ctx fun c => c.toggle key else d) with
    items := d.items.filter (·.id != i.id) ++ [(d.ctx i.ctx).movedItem layer key serial b i]
    served := mapSet key i.ctx d.served }

section
variable (d : Die) (layer key serial : Nat) (b : Nat × Nat) (i : Item)

theorem Die.ctx_balanced_self : (d.balanced layer key serial b i).ctx i.ctx =
    if layer < depthOf (d.ctx i.ctx).lw then (d.ctx i.ctx).toggle key else d.ctx i.ctx := by
  by_cases hcount : layer < depthOf (d.ctx i.ctx).lw
  · rw [Die.balanced, if_pos hcount, if_pos hcount]
    exact d.ctx_onCtx_self fun c => c.toggle key
  · rw [Die.balanced, if_neg hcount, if_neg hcount]
    rfl

theorem Die.ctx_balanced_ne {k : Nat} (hk : k ≠ i.ctx) : (d.balanced layer key serial b i).ctx k = d.ctx k := by
  by_cases hcount : layer < depthOf (d.ctx i.ctx).lw
  · rw [Die.balanced, if_pos hcount]
    exact d.ctx_onCtx_ne hk fun c => c.toggle key
  · rw [Die.balanced, if_neg hcount]
    rfl

end

theorem exec_balancer {s : State} {layer key : Nat} {i : Item} {b : Nat × Nat} (hlayer : layer = s.argN 1) (h15 : layer < 15)
    (h16 : s.argN 2 < 16) (hb : b = balancerAt layer (s.argN 2)) (hkey : key = 16 * layer + s.argN 2)
    (hi : nextItem (mapGet 63 key (s.die (s.argN 0)).served)
      ((s.die (s.argN 0)).items.filter fun i => i.layer == layer && (i.pos == b.1 || i.pos == b.2)) = some i) :
    exec .balancer s = .next (s.bump.setDie (s.argN 0) ((s.die (s.argN 0)).balanced layer key s.serial b i)) := by
  subst hlayer hb hkey
  have hin : ¬ (15 ≤ s.argN 1 ∨ 16 ≤ s.argN 2) := by omega
  show execBalancer s = _
  by_cases hcount : s.argN 1 < depthOf ((s.die (s.argN 0)).ctx i.ctx).lw
  · simp only [execBalancer, hi, if_neg hin, Die.balanced, Ctx.movedItem, hcount, decide_true, if_true, Bool.not_true,
      Bool.false_eq_true, if_false]
    rfl
  · simp only [execBalancer, hi, if_neg hin, Die.balanced, Ctx.movedItem, hcount, decide_false, if_true, Bool.not_false,
      Bool.false_eq_true, if_false]
    rfl

/-! ## Cells (10 R186, R188, R191) -/

/-- The value of a cell is 10 R186's, modulo 2^64. -/
theorem cellValue_eq (c : Ctx) (j : Nat) (n : BitVec 32) :
    cellValue c j n = BitVec.ofInt 64 (c.base.toInt + j + 2 ^ c.lw * n.toInt) := by
  have hpow : (2 : Int) ^ c.lw = ((2 ^ c.lw : Nat) : Int) := by push_cast; rfl
  rw [cellValue, hpow, BitVec.ofInt_add, BitVec.ofInt_add, BitVec.ofInt_mul, BitVec.ofInt_toInt, BitVec.ofInt_natCast,
    BitVec.ofInt_natCast, BitVec.signExtend]

theorem State.answerG_eq {s : State} {sid out : Nat} {o : Out} {d : BitVec 6} (ho : (s.strand sid).outOf out = some o)
    (hd : o.dsts = [.g d]) (v : Word) (fl : Flags) : s.answerG sid out v fl = s.answer sid out [.g d (.data v)] fl := by
  simp only [State.answerG, ho, hd, Option.bind_some, List.head?_cons]

/-- The state once a cell has taken an item, and counts `n`. -/
def State.cellTaken (s : State) (j : Nat) (i : Item) (n : BitVec 32) : State :=
  s.bump.onDie (s.argN 0) fun d =>
    { (d.dropItem i.id).onCtx i.ctx fun c => { c with cells := mapSet j n c.cells } with served := mapSet (240 + j) i.ctx d.served }

theorem State.ctx_cellTaken (s : State) (j : Nat) (i : Item) (n : BitVec 32) :
    ((s.cellTaken j i n).die (s.argN 0)).ctx i.ctx =
      { (s.die (s.argN 0)).ctx i.ctx with cells := mapSet j n ((s.die (s.argN 0)).ctx i.ctx).cells } := by
  rw [State.cellTaken, State.die_onDie_self]
  exact mapGet_mapSet_self _ _ _ _

section
variable {s : State} {i : Item} {j : Nat} {c : Ctx} (hj : j = s.argN 1) (hc : c = (s.die (s.argN 0)).ctx i.ctx)
  (hi : nextItem (mapGet 63 (240 + j) (s.die (s.argN 0)).served)
    ((s.die (s.argN 0)).items.filter fun i => i.layer == 15 && i.pos == j) = some i)
include hj hc hi

theorem counterCell_token (hkind : i.kind = .token) : exec .counterCell s =
    .next ((s.cellTaken j i (mapGet 0 j c.cells + 1)).answerG i.sid i.out (cellValue c j (mapGet 0 j c.cells)) .none) := by
  subst hj hc
  show execCounterCell s = _
  simp only [execCounterCell, hi, hkind, reduceCtorEq, if_false]
  rfl

theorem counterCell_anti (hkind : i.kind = .anti) : exec .counterCell s =
    .next ((s.cellTaken j i (mapGet 0 j c.cells - 1)).answerG i.sid i.out (cellValue c j (mapGet 0 j c.cells - 1)) .none) := by
  subst hj hc
  show execCounterCell s = _
  simp only [execCounterCell, hi, hkind, if_true]
  rfl

theorem counterCell_spread (hkind : i.kind = .spread) : exec .counterCell s =
    .next ((s.cellTaken j i (mapGet 0 j c.cells + 1)).send (coreOf i.sid)
      (.push none c.gang (BitVec.ofNat 64 (s.argN 0 * 2 ^ 23 + c.ends.getD j 0)) i.payload false)) := by
  subst hj hc
  show execCounterCell s = _
  simp only [execCounterCell, hi, hkind, reduceCtorEq, if_false]
  rfl

omit hc in
/-- Whatever the item, memory is as before. -/
theorem counterCell_mem : ∃ t, exec .counterCell s = .next t ∧ t.mem = s.mem := by
  subst hj
  show ∃ t, execCounterCell s = .next t ∧ t.mem = s.mem
  simp only [execCounterCell, hi]
  split
  case h_5 | h_6 => split <;> exact ⟨_, rfl, rfl⟩
  all_goals exact ⟨_, rfl, rfl⟩

theorem counterCell_spec : ∃ t, exec .counterCell s = .next t ∧ t.mem = s.mem ∧
    (i.kind = .token → (t.die (s.argN 0)).ctx i.ctx = { c with cells := mapSet j (mapGet 0 j c.cells + 1) c.cells } ∧
      ∀ o d, (s.strand i.sid).outOf i.out = some o → o.dsts = [.g d] → t.strands =
        (s.answer i.sid i.out [.g d (.data (cellValue c j (mapGet 0 j c.cells)))] .none).strands) ∧
    (i.kind = .anti → (t.die (s.argN 0)).ctx i.ctx = { c with cells := mapSet j (mapGet 0 j c.cells - 1) c.cells } ∧
      ∀ o d, (s.strand i.sid).outOf i.out = some o → o.dsts = [.g d] → t.strands =
        (s.answer i.sid i.out [.g d (.data (cellValue c j (mapGet 0 j c.cells - 1)))] .none).strands) ∧
    (i.kind = .spread → t.msgs = s.msgs ++ [
      { id := s.serial + 1, src := coreOf i.sid, eng := none,
        kind := .push none c.gang (BitVec.ofNat 64 (s.argN 0 * 2 ^ 23 + c.ends.getD j 0)) i.payload false }]) := by
  obtain ⟨t, ht, hmem⟩ := counterCell_mem hj hi
  have hstrands (n : BitVec 32) (v : Word) (o : Out) (d : BitVec 6) (ho : (s.strand i.sid).outOf i.out = some o) (hd : o.dsts = [.g d]) :
      ((s.cellTaken j i n).answerG i.sid i.out v .none).strands = (s.answer i.sid i.out [.g d (.data v)] .none).strands := by
    rw [State.answerG_eq (s := s.cellTaken j i n) ho hd]
    rfl
  refine ⟨t, ht, hmem, fun hkind => ?_, fun hkind => ?_, fun hkind => ?_⟩
  · rw [counterCell_token hj hc hi hkind] at ht
    cases ht
    exact ⟨hc ▸ s.ctx_cellTaken j i _, hstrands _ _⟩
  · rw [counterCell_anti hj hc hi hkind] at ht
    cases ht
    exact ⟨hc ▸ s.ctx_cellTaken j i _, hstrands _ _⟩
  · rw [counterCell_spread hj hc hi hkind] at ht
    cases ht
    rfl

end

/-! ## Barrier trees (10 R188) -/

theorem State.finishBreak_of_not_breaking {s : State} {die ctx : Nat} (h : ((s.die die).ctx ctx).breaking = false) :
    s.finishBreak die ctx = s := by
  rw [State.finishBreak, h]
  rfl

theorem addSums_eq (f0 f1 f2 f3 : Nat) (p : Word) : addSums [f0, f1, f2, f3] p =
    [min 0xFFFF (f0 + p.toNat % 2 ^ 16), min 0xFFFF (f1 + p.toNat / 2 ^ 16 % 2 ^ 16),
      min 0xFFFF (f2 + p.toNat / 2 ^ 32 % 2 ^ 16), min 0xFFFF (f3 + p.toNat / 2 ^ 48)] := by
  have htop : p.toNat / 2 ^ 48 % 2 ^ 16 = p.toNat / 2 ^ 48 := Nat.mod_eq_of_lt (by have := p.isLt; omega)
  have hfield (k : Nat) : (p.extractLsb' (16 * k) 16).toNat = p.toNat / 2 ^ (16 * k) % 2 ^ 16 := by
    rw [BitVec.extractLsb'_toNat, Nat.shiftRight_eq_div_pow]
  show [min 0xFFFF (f0 + (p.extractLsb' (16 * 0) 16).toNat), min 0xFFFF (f1 + (p.extractLsb' (16 * 1) 16).toNat),
    min 0xFFFF (f2 + (p.extractLsb' (16 * 2) 16).toNat), min 0xFFFF (f3 + (p.extractLsb' (16 * 3) 16).toNat)] = _
  rw [hfield 0, hfield 1, hfield 2, hfield 3, htop]
  simp only [Nat.mul_zero, Nat.pow_zero, Nat.div_one, Nat.reduceMul]

/-- The die once an arrival has left the network for its barrier, which is then `f` of what it was. -/
def Die.arrived (d : Die) (ctx id : Nat) (f : Ctx → Ctx) : Die := (d.dropItem id).onCtx ctx f

theorem State.ctx_arrived (s : State) (die ctx id : Nat) (f : Ctx → Ctx) :
    ((s.onDie die fun d => d.arrived ctx id f).die die).ctx ctx = f ((s.die die).ctx ctx) := by
  rw [State.die_onDie_self]
  exact ((s.die die).dropItem id).ctx_onCtx_self f

section
variable {s : State} {i : Item} {c : Ctx} {sums : List Nat} (hc : c = (s.die (s.argN 0)).ctx (s.argN 1))
  (hi : nextItem 63 ((s.die (s.argN 0)).items.filter fun i => i.layer == 16 && i.ctx == s.argN 1) = some i)
  (hsums : addSums c.sums i.payload = sums)
include hc hi hsums

theorem barrierTree_joins (hmore : c.arrived + 1 < c.target) (hbreaking : c.breaking = false) :
    ∃ t, exec .barrierTree s = .next t ∧ t.mem = s.mem ∧
      (t.die (s.argN 0)).ctx (s.argN 1) = { c with arrived := c.arrived + 1, sums := sums } := by
  subst hc
  have hctx := s.ctx_arrived (s.argN 0) (s.argN 1) i.id fun c => { c with arrived := c.arrived + 1, sums := sums }
  have hexec : exec .barrierTree s = .next ((s.onDie (s.argN 0) fun d => d.arrived (s.argN 1) i.id fun c =>
      { c with arrived := c.arrived + 1, sums := sums }).finishBreak (s.argN 0) (s.argN 1)) := by
    show execBarrierTree s = _
    simp only [execBarrierTree, hi, hsums, if_pos hmore]
    rfl
  rw [State.finishBreak_of_not_breaking (by rw [hctx]; exact hbreaking)] at hexec
  exact ⟨_, hexec, rfl, hctx⟩

theorem barrierTree_releases (hlast : c.target ≤ c.arrived + 1) (hfree : ∀ d, s.pinned d = none) :
    ∃ t v, exec .barrierTree s = .next t ∧ v = s.placeStore c.release.toNat (bytesOfNat 16 (releaseWord sums c.phase)) none ∧
      t.mem = v.mem ∧ t.tags = v.tags ∧ (∃ m, t.msgs = v.msgs ++ [m] ∧ m.kind =
        .release (s.argN 0) (s.argN 1) ((c.phase + 1) % 2 ^ 16) (List.range 128)) ∧
      (t.die (s.argN 0)).ctx (s.argN 1) = { c with phase := (c.phase + 1) % 2 ^ 16, arrived := 0, sums := [0, 0, 0, 0] } := by
  subst hc
  have hdie (v : State) (hv : v.dies = s.dies) : v.die (s.argN 0) = s.die (s.argN 0) := congrArg (mapGet Die.reset (s.argN 0)) hv
  have hexec : exec .barrierTree s = .next (((s.placeStore ((s.die (s.argN 0)).ctx (s.argN 1)).release.toNat
      (bytesOfNat 16 (releaseWord sums ((s.die (s.argN 0)).ctx (s.argN 1)).phase)) none).onDie (s.argN 0) fun d =>
        d.arrived (s.argN 1) i.id fun c => { c with phase := (c.phase + 1) % 2 ^ 16, arrived := 0, sums := [0, 0, 0, 0] }).send 0
      (.release (s.argN 0) (s.argN 1) ((((s.die (s.argN 0)).ctx (s.argN 1)).phase + 1) % 2 ^ 16) (List.range 128))) := by
    show execBarrierTree s = _
    simp only [execBarrierTree, hi, hsums, if_neg (Nat.not_lt.mpr hlast), placeBlocked_of_unpinned (hfree _), Bool.false_eq_true, if_false]
    rfl
  refine ⟨_, _, hexec, rfl, rfl, rfl, ⟨_, rfl, rfl⟩, ?_⟩
  refine (State.ctx_arrived _ _ _ _ _).trans ?_
  rw [hdie _ (placeStore_only _ _ _ _).dies]

end

/-! ## Releases (10 R188) -/

/-- A release that would reach a core before another. -/
def Msg.releasesBefore (die ctx id : Nat) (m : Msg) : Bool :=
  match m.kind with
  | .release d c _ _ => d == die && c == ctx && decide (m.id < id)
  | _ => false

theorem Msg.releasesBefore_eq_false {die ctx id : Nat} {m : Msg} (h : ∀ p l, m.kind = .release die ctx p l → id ≤ m.id) :
    m.releasesBefore die ctx id = false := by
  unfold Msg.releasesBefore
  split
  · next d c p l hkind =>
    by_cases hsame : d = die ∧ c = ctx
    · obtain ⟨rfl, rfl⟩ := hsame
      simpa using h p l hkind
    · simp only [not_and] at hsame
      by_cases hd : d = die <;> simp [hd, hsame]
  · rfl

/-- A number to which something is written once or more reads as that. -/
theorem mapGet_foldl_mapSet {α : Type} {d x : α} {key : Nat → Nat} {l : List Nat} {c : Nat} (hc : c ∈ l) (m : Map α) :
    mapGet d (key c) (l.foldl (fun m c => mapSet (key c) x m) m) = x := by
  have hstays : ∀ (l : List Nat) (m : Map α), mapGet d (key c) m = x →
      mapGet d (key c) (l.foldl (fun m c => mapSet (key c) x m) m) = x := by
    intro l
    induction l with
    | nil => exact fun m hm => hm
    | cons b l ih =>
      intro m hm
      refine ih _ ?_
      obtain hb | hb : key c = key b ∨ key c ≠ key b := Decidable.em _
      · rw [hb, mapGet_mapSet_self]
      · rw [mapGet_mapSet_ne _ _ hb, hm]
  induction l generalizing m with
  | nil => cases hc
  | cons b l ih =>
    obtain rfl | hb : c = b ∨ c ≠ b := Decidable.em _
    · exact hstays l _ (mapGet_mapSet_self _ _ _ _)
    · exact ih ((List.mem_cons.mp hc).resolve_left hb) _

/-- An instruction that completes changes no other strand. -/
theorem settle_done_strand_ne (v : State) {k : Nat} (h : k ≠ v.cur) : (Act.done v).settle.strand k = v.strand k := by
  simp only [Act.settle, State.counted_eq, State.onArch, State.onStrand, State.setStrand_cur]
  rw [State.strand_setStrand_ne _ h, State.strand_setStrand_ne _ h]

section
variable (s : State) {j k ctx phase : Nat}

theorem State.wakeIdle_strandsOnly (j : Nat) : StrandsOnly s (s.wakeIdle j) := by
  unfold State.wakeIdle
  split
  · exact ⟨_, rfl⟩
  · exact StrandsOnly.refl s

theorem State.wakeIdle_strand_ne (h : k ≠ j) : (s.wakeIdle j).strand k = s.strand k := by
  unfold State.wakeIdle
  split
  · exact settle_done_strand_ne { s with cur := j } h
  · rfl

theorem State.wakeIdle_of_passed (h : (s.strand j).wait = .passed) : s.wakeIdle j = s := by
  rw [State.wakeIdle, h]

theorem State.phaseReaches_strandsOnly (j ctx phase : Nat) : StrandsOnly s (s.phaseReaches j ctx phase) :=
  StrandsOnly.trans (b := s.onStrand j _) ⟨_, rfl⟩ (State.wakeIdle_strandsOnly _ _)

theorem State.phaseReaches_strand_ne (h : k ≠ j) : (s.phaseReaches j ctx phase).strand k = s.strand k :=
  (State.wakeIdle_strand_ne _ h).trans (State.strand_onStrand_ne _ h _)

/-- A strand that a phase reaches, as bn.wait sees it. -/
def Strand.phaseSeen (ctx phase : Nat) (t : Strand) : Strand :=
  match t.wait with
  | .phase c p => if c = ctx ∧ phaseOver phase p then { t with wait := .passed } else t
  | _ => t

variable {s}

theorem State.phaseReaches_wait_of_seen (h : ((s.strand k).phaseSeen ctx phase).wait = .passed) :
    ((s.phaseReaches k ctx phase).strand k).wait = .passed := by
  have hseen : ((s.onStrand k (Strand.phaseSeen ctx phase)).strand k).wait = .passed := by
    rw [State.strand_onStrand_self]
    exact h
  have hsame : s.phaseReaches k ctx phase = s.onStrand k (Strand.phaseSeen ctx phase) := State.wakeIdle_of_passed _ hseen
  rw [hsame]
  exact hseen

theorem State.phaseReaches_passes {p : Nat} (hwait : (s.strand k).wait = .phase ctx p) (hover : phaseOver phase p = true) :
    ((s.phaseReaches k ctx phase).strand k).wait = .passed := by
  refine State.phaseReaches_wait_of_seen ?_
  simp only [Strand.phaseSeen, hwait, hover, and_self, if_true]

theorem State.phaseReaches_keeps (hwait : (s.strand k).wait = .passed) : ((s.phaseReaches k ctx phase).strand k).wait = .passed := by
  refine State.phaseReaches_wait_of_seen ?_
  simp only [Strand.phaseSeen, hwait]

end

/-- The cores that a release reaches last, and the strands on them. -/
def State.releaseReaches (s : State) (die ctx phase : Nat) (left : List Nat) : State :=
  forAll ((s.strands.map (·.1)).filter fun sid => dieOf sid == die && left.contains (coreOf sid % 128))
    (fun s sid => s.phaseReaches sid ctx phase)
    (s.onDie die fun d => { d with phases := left.foldl (fun l c => mapSet (phaseKey c ctx) phase l) d.phases })

section
variable {s : State} {die ctx phase : Nat} {left : List Nat}

theorem State.releaseReaches_strandsOnly : StrandsOnly
    (s.onDie die fun d => { d with phases := left.foldl (fun l c => mapSet (phaseKey c ctx) phase l) d.phases })
    (s.releaseReaches die ctx phase left) :=
  forAll_rel StrandsOnly StrandsOnly.refl StrandsOnly.trans _ (fun s sid => s.phaseReaches_strandsOnly sid ctx phase) _ _

theorem State.releaseReaches_die : (s.releaseReaches die ctx phase left).die die =
    { s.die die with phases := left.foldl (fun l c => mapSet (phaseKey c ctx) phase l) (s.die die).phases } := by
  obtain ⟨a, ha⟩ := State.releaseReaches_strandsOnly (s := s) (die := die) (ctx := ctx) (phase := phase) (left := left)
  rw [ha]
  exact mapGet_mapSet_self _ _ _ _

theorem State.releaseReaches_passes {k p : Nat} (hk : k ∈ s.strands.map Prod.fst) (hdie : dieOf k = die)
    (hleft : coreOf k % 128 ∈ left) (hwait : (s.strand k).wait = .phase ctx p) (hover : phaseOver phase p = true) :
    ((s.releaseReaches die ctx phase left).strand k).wait = .passed :=
  forAll_strand_of_mem (Q := fun t => t.wait = .passed) (fun s _ hj => s.phaseReaches_strand_ne hj.symm)
    (fun _ hs => State.phaseReaches_passes (hs ▸ hwait) hover) (fun _ => State.phaseReaches_keeps)
    (List.mem_filter.mpr ⟨hk, by simp [hdie, hleft]⟩) (State.strand_onDie s die _ k)

theorem exec_releaseMulticast {m : Msg} (hm : s.msg (s.argN 0) = some m) (hkind : m.kind = .release die ctx phase left)
    (hall : s.arg.n.length ≤ 1) (hfirst : ∀ x ∈ s.msgs, ∀ p l, x.kind = .release die ctx p l → s.argN 0 ≤ x.id) :
    exec .releaseMulticast s =
      .next (((s.dropMsg (s.argN 0)).releaseReaches die ctx phase left).finishBreak die ctx) := by
  have hid : m.id = s.argN 0 := by simpa using List.find?_some hm
  have hearlier : s.msgs.any (Msg.releasesBefore die ctx (s.argN 0)) = false :=
    List.any_eq_false.mpr fun x hx => by simp [Msg.releasesBefore_eq_false (hfirst x hx)]
  have hnone : left.filter (fun c => !left.contains c) = [] := by
    rw [List.filter_eq_nil_iff]
    intro c hc
    simp [hc]
  obtain ⟨id, src, eng, kind⟩ := m
  cases hid
  cases hkind
  show execReleaseMulticast s = _
  simp only [execReleaseMulticast, hm, if_pos hall, hnone]
  exact if_neg (Bool.not_eq_true _ ▸ hearlier)

theorem releaseMulticast_spec {m : Msg} (hm : s.msg (s.argN 0) = some m) (hkind : m.kind = .release die ctx phase left)
    (hall : s.arg.n.length ≤ 1) (hbreaking : ((s.die die).ctx ctx).breaking = false)
    (hfirst : ∀ x ∈ s.msgs, ∀ p l, x.kind = .release die ctx p l → s.argN 0 ≤ x.id) :
    ∃ t, exec .releaseMulticast s = .next t ∧ (∀ c ∈ left, mapGet 0 (phaseKey c ctx) (t.die die).phases = phase) ∧
      (∀ k ∈ s.strands.map Prod.fst, dieOf k = die → coreOf k % 128 ∈ left → ∀ p, (s.strand k).wait = .phase ctx p →
        phaseOver phase p = true → (t.strand k).wait = .passed) ∧
      t.mem = s.mem ∧ t.tags = s.tags ∧ t.msgs = s.msgs.filter (·.id != s.argN 0) := by
  have hexec := exec_releaseMulticast hm hkind hall hfirst
  have hdie := State.releaseReaches_die (s := s.dropMsg (s.argN 0)) (die := die) (ctx := ctx) (phase := phase) (left := left)
  obtain ⟨a, ha⟩ := State.releaseReaches_strandsOnly (s := s.dropMsg (s.argN 0)) (die := die) (ctx := ctx) (phase := phase) (left := left)
  rw [State.finishBreak_of_not_breaking (by rw [hdie]; exact hbreaking)] at hexec
  refine ⟨_, hexec, fun c hc => ?_,
    fun k hk hdie hleft p hwait hover => State.releaseReaches_passes hk hdie hleft hwait hover, ?_, ?_, ?_⟩
  · rw [hdie]
    exact mapGet_foldl_mapSet (key := fun c => phaseKey c ctx) hc _
  all_goals
    rw [ha]
    rfl

end

/-! ## The statement -/

/-- Settles O25: each instruction does what its lemmas say once its chunk has ended, and each turn of the network what its lemma says. -/
theorem stitchInstructionsAndNetwork : Obligations.StitchInstructionsAndNetwork := by
  unfold Obligations.StitchInstructionsAndNetwork
  refine ⟨⟨?enters, ?waits, fun s u a b => bnWait_of_passed, ?changes, ?reads⟩, ?balancer, ?cell, ?tree, ?release⟩
  case enters =>
    intro s u i f ctx c hf h hctx hc
    rw [exec_of_stitchOf hf]
    refine ⟨fun hoff => ?_, fun hon hdomain => ⟨fun hmode => ?_, fun hmode => ⟨?_, fun hwhole => ?_⟩⟩⟩
    · rw [← h.cur] at hc hoff
      exact stitchOp_of_refused h hctx (State.refuses_of_off hc hoff)
    · rw [← h.cur] at hc hdomain
      exact stitchOp_of_refused h hctx (State.refuses_of_mode hc hon hdomain hmode)
    · rintro ⟨hbarrier, hbroken⟩
      have hnone : u.refuses ctx f.mode = none := by
        rw [← h.cur] at hc hdomain
        exact State.refuses_none hc hon hdomain hmode
      exact stitchOp_of_broken h hctx hnone hbarrier (hc ▸ hbroken)
    · rw [← exec_of_stitchOf hf]
      exact exec_stitchOf_spec hf h hctx hc hon hdomain hmode hwhole
  case waits =>
    intro s u a b ctx p copy c h hphase hpassed hctx hc hmode hdomain hp hcopy _
    have hnone : u.refuses ctx 2 = none := by
      rw [← h.cur] at hc hdomain
      exact State.refuses_none hc (by simp [hmode]) hdomain hmode
    have hlt : p < 2 ^ 16 := hp ▸ Nat.mod_lt _ (by decide)
    have hexec := exec_bnWait (a := a) (b := b) hphase hpassed
    rw [← h.cur] at hcopy
    refine ⟨fun hbroken => ?_, fun hwhole h1 h2 => ?_, fun hwhole hopen => ?_⟩
    · rw [hexec]
      exact stitchOp_of_broken h hctx hnone rfl (hc ▸ hbroken)
    · exact ⟨_, hexec.trans (stitchOp_of_accepted h hctx hnone fun _ => hc ▸ hwhole),
        settleT_waitAct_of_over h hcopy hp ((phaseOver_iff hlt).mpr ⟨h1, h2⟩)⟩
    · have hover : ¬ phaseOver copy p = true := by
        rw [phaseOver_iff hlt]
        omega
      rw [hexec, stitchOp_of_accepted h hctx hnone fun _ => hc ▸ hwhole, settleT_waitAct_of_open hcopy hp hover]
  case changes =>
    intro s u a b ctx c h hctx hc
    refine ⟨fun hquiet => ⟨fun hbit => ?_, fun hbit hself => ?_, ?_⟩, fun hbusy => bnClr_waits h hctx hc (State.quiet_eq_false hbusy)⟩
    · obtain ⟨t, ht, hown, hmem, htags, hx, hphase⟩ := bnClr_clears h hctx hc hquiet hbit
      exact ⟨t, _, ht, hown, hmem, htags, hx, rfl, rfl, rfl, rfl, rfl, rfl, rfl, rfl, rfl, rfl, hphase⟩
    · by_cases hmode : c.mode = 2
      · obtain ⟨t, ht, harch, hout, hmem, htags, hx, htraps⟩ := bnClr_breaks h hctx hc hquiet hbit hmode hself
        exact ⟨t, _, ht, harch, hout, hmem, htags, hx, fun hne => absurd hmode hne, fun _ => ⟨rfl, htraps⟩⟩
      · obtain ⟨t, ht, harch, hout, hmem, htags, hx⟩ := bnClr_releases h hctx hc hquiet hbit hmode
        exact ⟨t, _, ht, harch, hout, hmem, htags, hx, fun _ => rfl, fun heq => absurd heq hmode⟩
    · intro l bs hcheck hsmode halign harea hshadow hserve hbs
      refine ⟨fun off hbad hstopped => bnCfg_traps h hctx hquiet hcheck hsmode halign harea hshadow hserve hbs hbad (hc ▸ hstopped),
        fun hgood => ?_⟩
      obtain ⟨t, ht, hown, hmem, htags, hx⟩ := bnCfg_configures h hctx hquiet hcheck hsmode halign harea hshadow hserve hbs hgood
      exact ⟨t, _, ht, hown, hmem, htags, hx, rfl, rfl, rfl, rfl, rfl, BitVec.toNat_ofNat _ _, rfl, rfl, rfl, rfl, rfl⟩
  case reads =>
    intro s u d a ctx k c h hctx hc hk
    obtain ⟨t, chunk, ht, hran⟩ := bnRd_spec h hctx hc hk
    refine ⟨t, chunk, _, ht, hran, ?_, ?_, ?_, c.item_cell, c.item_of_ge⟩
    all_goals
      rintro rfl
      rfl
  case balancer =>
    intro s i layer key b hlayer h15 h16 hb hkey hi
    refine ⟨_, _, exec_balancer hlayer h15 h16 hb hkey hi, rfl, ?_⟩
    rw [State.die_setDie_self]
    refine ⟨⟨_, rfl, fun hin => ?_, fun hout => if_neg (Nat.not_lt.mpr hout)⟩, Die.ctx_balanced_self .., mapGet_mapSet_self ..,
      fun k hk => Die.ctx_balanced_ne _ _ _ _ _ _ hk, rfl, rfl⟩
    exact (if_pos hin).trans (exitOf_eq i b _)
  case cell =>
    rintro s i j n c hj hc hi rfl
    simp only [← cellValue_eq]
    exact counterCell_spec hj hc hi
  case tree =>
    intro s i c sums f0 f1 f2 f3 hc hi hf hsums
    have hadd : addSums c.sums i.payload = sums := by rw [hf, hsums, addSums_eq]
    refine ⟨barrierTree_joins hc hi hadd, fun hlast hfree => ?_⟩
    obtain ⟨t, v, ht, hv, hmem, htags, hmsgs, hctx⟩ := barrierTree_releases hc hi hadd hlast hfree
    exact ⟨t, v, ht, hv, hmem, htags, hmsgs, congrArg Ctx.phase hctx, congrArg Ctx.arrived hctx, congrArg Ctx.sums hctx⟩
  case release =>
    intro s m die ctx phase left hm hkind hall hbreaking hfirst
    exact releaseMulticast_spec hm hkind hall hbreaking hfirst

end Sys2Proof.Machine

/-! SUPPORT. The vector pipe (12 R216 to R219): what an instruction that enters its core's dispatch queue does, and what a turn of the
pipe does. -/

namespace Sys2Proof.Machine

open Sys2Proof Claims

/-! ## The dispatch queues (12 R217, R219) -/

theorem Issues.of_subset {priv : Bool} {l l' : List RegName} {s u : State} (h : Issues priv l s u) (hl : l' ⊆ l) :
    Issues priv l' s u :=
  ⟨h.mode, h.marker, fun r hr => h.settled r (hl hr), h.joined⟩

theorem State.pipeFull_iff (s : State) (cid : Nat) : s.pipeFull cid = true ↔
    4 ≤ (s.core cid).vq.length ∨ (s.core cid).paired = true ∧ 4 ≤ (s.core (cid + 1)).vq.length := by
  simp [State.pipeFull]

theorem State.pipeFull_eq_false {s : State} {cid : Nat} (hown : (s.core cid).vq.length < 4)
    (hodd : (s.core cid).paired = true → (s.core (cid + 1)).vq.length < 4) : s.pipeFull cid = false := by
  rw [Bool.eq_false_iff, ne_eq, s.pipeFull_iff]
  rintro (hfull | ⟨hpaired, hfull⟩)
  · omega
  · exact absurd (hodd hpaired) (Nat.not_lt.mpr hfull)

/-- A core whose dispatch queue has one more entry. -/
def Core.queue (sid out : Nat) (c : Core) : Core := { c with vq := c.vq ++ [(sid, out)] }

section
variable (s : State) (out : Nat)

theorem State.enterPipe_eq : s.enterPipe out =
    if (s.core (coreOf s.cur)).paired = true then
      (s.onCore (coreOf s.cur) (Core.queue s.cur out)).onCore (coreOf s.cur + 1) (Core.queue (s.cur + 4) out)
    else s.onCore (coreOf s.cur) (Core.queue s.cur out) := rfl

/-- Nothing changes but cores. -/
theorem State.enterPipe_rest : { s.enterPipe out with cores := s.cores } = s := by
  rw [State.enterPipe_eq]
  split <;> rfl

theorem State.vq_enterPipe : ((s.enterPipe out).core (coreOf s.cur)).vq = (s.core (coreOf s.cur)).vq ++ [(s.cur, out)] := by
  rw [State.enterPipe_eq]
  split
  · rw [State.core_onCore_ne _ (Nat.succ_ne_self _).symm, State.core_onCore_self, Core.queue]
  · rw [State.core_onCore_self, Core.queue]

theorem State.vq_enterPipe_odd (hpaired : (s.core (coreOf s.cur)).paired = true) :
    ((s.enterPipe out).core (coreOf s.cur + 1)).vq = (s.core (coreOf s.cur + 1)).vq ++ [(s.cur + 4, out)] := by
  rw [State.enterPipe_eq, if_pos hpaired, State.core_onCore_self, State.core_onCore_ne _ (Nat.succ_ne_self _), Core.queue]

end

/-! ## A vector instruction that issues -/

/-- An instruction that leaves a result outstanding and changes nothing else of the strands. -/
theorem Issues.own_pending {priv : Bool} {reads dsts : List RegName} {s u v : State} {src : Source} (h : Issues priv reads s u)
    (hcur : v.cur = u.cur) (hst : v.strands = (u.setPending dsts src).strands) :
    ∃ chunk, Own s (Act.done v).settle s.me.advance ((s.strand s.cur).out ++ [left s chunk dsts src]) := by
  obtain ⟨cs, n, rfl⟩ := h.eq
  have hown := (own_done hcur hst rfl).of_joined
  rw [State.joined_cur, State.joined_strand] at hown
  exact ⟨_, hown⟩

section
variable {s : State} {reads : List RegName} {d : RegName} {f : Arch → RegWrite × Flags}

theorem vectorOp_of_full (h : s.pipeFull (coreOf s.cur) = true) : vectorOp reads [d] f s = .next s := if_pos h

/-- What a vector instruction leaves that has entered the queue: its result, computed at issue, is outstanding (R217, R218). -/
structure Queued (s t : State) (d : RegName) (w : RegWrite) (fl : Flags) : Prop where
  own : ∃ chunk, Own s t s.me.advance ((s.strand s.cur).out ++ [left s chunk [d] (.queued [w] fl)])
  vq : (t.core (coreOf s.cur)).vq = (s.core (coreOf s.cur)).vq ++ [(s.cur, s.serial)]
  odd : (s.core (coreOf s.cur)).paired = true →
    (t.core (coreOf s.cur + 1)).vq = (s.core (coreOf s.cur + 1)).vq ++ [(s.cur + 4, s.serial)]
  mem : t.mem = s.mem
  tags : t.tags = s.tags

theorem vectorOp_enters {u : State} (hroom : s.pipeFull (coreOf s.cur) = false) (h : Issues false reads s u) :
    ∃ t, vectorOp reads [d] f s = .next t ∧ Queued s t d (f s.me).1 (f s.me).2 := by
  let p := u.setPending [d] (.queued [(f s.me).1] (f s.me).2)
  have hexec : vectorOp reads [d] f s = .next (Act.done (p.enterPipe u.serial)).settle := by
    rw [vectorOp, if_neg (Bool.eq_false_iff.mp hroom), issue_of_issues h, h.me]
  have hrest := p.enterPipe_rest u.serial
  have hcur := congrArg State.cur hrest
  have hstrands := congrArg State.strands hrest
  have hmem := congrArg State.mem hrest
  have htags := congrArg State.tags hrest
  have hown := h.own_pending (v := p.enterPipe u.serial) hcur hstrands
  obtain ⟨cs, n, rfl⟩ := h.eq
  exact ⟨_, hexec, hown, p.vq_enterPipe _, p.vq_enterPipe_odd _, hmem, htags⟩

end

/-! ## A turn of the pipe (12 R217) -/

/-- A result that the pipe has taken settles in time (R218). -/
def Out.taken (out : Nat) (o : Out) : Out :=
  if o.id = out then { o with src := (match o.src with | .queued ws fl => .ready ws fl | x => x) } else o

/-- The search of the four cores in turn stops at the first that succeeds. -/
theorem find?_of_first {p : Nat → Bool} {k : Nat} (h1 : 1 ≤ k) (h4 : k ≤ 4) (hbefore : ∀ j, 1 ≤ j → j < k → p j = false)
    (hk : p k = true) : [1, 2, 3, 4].find? p = some k := by
  refine (List.find?_range'_eq_some (s := 1) (n := 4)).mpr ⟨hk, List.mem_range'_1.mpr ⟨h1, by omega⟩, fun j hj hjk => ?_⟩
  rw [hbefore j hj hjk, Bool.not_false]

section
variable {s : State} {q k n sid out : Nat} {rest : List (Nat × Nat)} (hq : q = s.argN 0) (h1 : 1 ≤ k) (h4 : k ≤ 4)
  (hempty : ∀ j, 1 ≤ j → j < k → (s.core (4 * q + ((s.quire q).lastVec + j) % 4)).vq = [])
  (hn : n = ((s.quire q).lastVec + k) % 4) (hvq : (s.core (4 * q + n)).vq = (sid, out) :: rest)
include hq h1 h4 hempty hn hvq

theorem exec_vectorDispatch : exec .vectorDispatch s =
    .next (((s.onCore (4 * q + n) fun c => { c with vq := rest }).onQuire q fun x => { x with lastVec := n }).onStrand sid fun t =>
      { t with out := t.out.map (Out.taken out) }) := by
  subst hq hn
  have hfind : [1, 2, 3, 4].find? (fun k => (s.core (4 * s.argN 0 + ((s.quire (s.argN 0)).lastVec + k) % 4)).vq != []) = some k :=
    find?_of_first h1 h4 (fun j hj hjk => by rw [hempty j hj hjk]; rfl) (by rw [hvq]; rfl)
  show execVectorDispatch s = _
  simp only [execVectorDispatch, hfind, hvq]
  refine congrArg (fun g => Host.Outcome.next (State.onStrand _ sid fun t => { t with out := t.out.map g })) (funext fun o => ?_)
  obtain ⟨id, chunk, smode, dead, dsts, src⟩ := o
  cases src <;> rfl

theorem vectorDispatch_spec : ∃ t, exec .vectorDispatch s = .next t ∧ (t.core (4 * q + n)).vq = rest ∧ (t.quire q).lastVec = n ∧
    (t.strand sid).out = (s.strand sid).out.map (Out.taken out) ∧ t.arch sid = s.arch sid ∧
    (∀ j, j ≠ sid → t.strand j = s.strand j) ∧ t.mem = s.mem := by
  refine ⟨_, exec_vectorDispatch hq h1 h4 hempty hn hvq, ?_, ?_, ?_, ?_, fun j hj => ?_, rfl⟩
  · simp
  · simp
  · simp
  · simp [State.arch]
  · rw [State.strand_onStrand_ne _ hj]
    rfl

end

end Sys2Proof.Machine

/-! SUPPORT. The lanes of a vector result (12 R220 to R222, R229): what each shared shape of the vector instructions gives. -/

namespace Sys2Proof.Machine

open Sys2Proof Claims

/-! ## Lanes put together (12 R220) -/

section
variable {w : Nat} {f : Nat → Nat × Flags}

theorem lanesNat_lt (n : Nat) : (lanesNat w f n).1 < 2 ^ (w * n) := by
  induction n with
  | zero => simp [lanesNat]
  | succ n ih =>
    have hlane : (f n).1 % 2 ^ w + 1 ≤ 2 ^ w := Nat.mod_lt _ (Nat.two_pow_pos w)
    calc (lanesNat w f n).1 + 2 ^ (w * n) * ((f n).1 % 2 ^ w)
        < 2 ^ (w * n) * ((f n).1 % 2 ^ w + 1) := by rw [Nat.mul_succ]; omega
      _ ≤ 2 ^ (w * n) * 2 ^ w := Nat.mul_le_mul_left _ hlane
      _ = 2 ^ (w * (n + 1)) := by rw [← Nat.pow_add, Nat.mul_succ]

/-- A lane is read where it has been put. -/
theorem lanesNat_lane {n i : Nat} (hi : i < n) : (lanesNat w f n).1 / 2 ^ (w * i) % 2 ^ w = (f i).1 % 2 ^ w := by
  induction n with
  | zero => omega
  | succ n ih =>
    have hpos := Nat.two_pow_pos (w * n)
    show ((lanesNat w f n).1 + 2 ^ (w * n) * ((f n).1 % 2 ^ w)) / 2 ^ (w * i) % 2 ^ w = _
    obtain rfl | hlt := Nat.eq_or_lt_of_le (Nat.le_of_lt_succ hi)
    · rw [Nat.add_mul_div_left _ _ hpos, Nat.div_eq_of_lt (lanesNat_lt i), Nat.zero_add, Nat.mod_mod]
    · obtain ⟨k, rfl⟩ : ∃ k, n = i + (k + 1) := ⟨n - i - 1, by omega⟩
      have hsplit : 2 ^ (w * (i + (k + 1))) = 2 ^ (w * i) * (2 ^ w * 2 ^ (w * k)) := by
        rw [← Nat.pow_add, ← Nat.pow_add, Nat.mul_add, Nat.mul_succ, Nat.add_comm (w * k)]
      rw [hsplit, Nat.mul_assoc, Nat.add_mul_div_left _ _ (Nat.two_pow_pos _), Nat.mul_assoc, Nat.add_mul_mod_self_left, ih hlt]

/-- A lane of the register that holds the lanes. -/
theorem extractLsb'_lanesNat {n i : Nat} (hn : w * n ≤ 2048) (hi : i < n) :
    (BitVec.ofNat 2048 (lanesNat w f n).1).extractLsb' (w * i) w = BitVec.ofNat w (f i).1 := by
  apply BitVec.eq_of_toNat_eq
  have hlt := Nat.lt_of_lt_of_le (lanesNat_lt (f := f) n) (Nat.pow_le_pow_right Nat.two_pos hn)
  rw [BitVec.extractLsb'_toNat, BitVec.toNat_ofNat, BitVec.toNat_ofNat, Nat.mod_eq_of_lt hlt, Nat.shiftRight_eq_div_pow,
    lanesNat_lane hi]

/-- The flags are those of the active lanes. -/
theorem lanesNat_flags {active : Nat → Bool} {flags : Nat → Flags} (n : Nat)
    (h : ∀ i < n, (f i).2 = if active i then flags i else Flags.none) : (lanesNat w f n).2 = laneFlags n active flags := by
  induction n with
  | zero => rfl
  | succ n ih =>
    show (lanesNat w f n).2.add (f n).2 = _
    rw [ih fun i hi => h i (by omega), h n (by omega), laneFlags, laneFlags, List.range_succ, List.filter_append, List.foldl_append]
    cases hn : active n <;> simp [hn]

end

theorem laneFlags_noFlags (n : Nat) (active : Nat → Bool) : laneFlags n active noFlags = Flags.none := by
  unfold laneFlags
  induction (List.range n).filter active with
  | nil => rfl
  | cons i l ih => exact ih

/-! ## The shapes of a result (12 R220 to R222, R229) -/

section
variable {x : Arch} {d : BitVec 5} {vm : BitVec 3} {z m : Bool}

/-- A masked form of 32- or 16-bit lanes (R220, R221). -/
theorem gives_maskedLanes (w : Nat) (f : Nat → Nat × Flags) :
    (VecResult.lanes w d z (lit x vm m) (fun i => BitVec.ofNat w (f i).1) fun i => (f i).2).Gives x
      (.v d (maskedLanes w x d vm z m f).1) (maskedLanes w x d vm z m f).2 := by
  refine ⟨_, rfl, lanesNat_flags _ fun i _ => apply_ite Prod.snd .., fun i hi => ?_⟩
  rw [maskedLanes, extractLsb'_lanesNat (Nat.mul_div_le 2048 w) hi]
  show _ = if laneActive x vm m i = true then _ else _
  split
  · rfl
  · split
    · rfl
    · apply BitVec.eq_of_toNat_eq
      rw [BitVec.toNat_ofNat, BitVec.extractLsb'_toNat, Nat.shiftRight_eq_div_pow]

/-- A bit of the mask that a compare writes, and its flags (R222). -/
def maskBit (x : Arch) (d : BitVec 5) (vm : BitVec 3) (z m : Bool) (f : Nat → Bool × Flags) (i : Nat) : Nat × Flags :=
  if laneActive x vm m i then (if (f i).1 then 1 else 0, (f i).2) else (if (x.readV d).getLsbD i && !z then 1 else 0, Flags.none)

theorem maskBit_eq_one (f : Nat → Bool × Flags) (i : Nat) : decide ((maskBit x d vm z m f i).1 % 2 = 1) =
    if lit x vm m i then (f i).1 else if z then false else (x.readV d).getLsbD i := by
  unfold maskBit
  show _ = if laneActive x vm m i = true then _ else _
  cases laneActive x vm m i
  · cases z <;> cases (x.readV d).getLsbD i <;> rfl
  · cases (f i).1 <;> rfl

/-- A compare (R222). -/
theorem gives_maskBits (f : Nat → Bool × Flags) : (VecResult.mask d z (lit x vm m) (fun i => (f i).1) fun i => (f i).2).Gives x
    (.v d (BitVec.ofNat 2048 (lanesNat 1 (maskBit x d vm z m f) 64).1)) (lanesNat 1 (maskBit x d vm z m f) 64).2 := by
  refine ⟨_, rfl, lanesNat_flags _ fun i _ => apply_ite Prod.snd .., ?_, fun i hi => ?_⟩
  · rw [BitVec.toNat_ofNat]
    exact Nat.lt_of_le_of_lt (Nat.mod_le ..) (lanesNat_lt 64)
  · have hbit := lanesNat_lane (w := 1) (f := maskBit x d vm z m f) hi
    rw [Nat.one_mul, Nat.pow_one] at hbit
    rw [BitVec.getLsbD_ofNat, decide_eq_true (by omega), Bool.true_and, Nat.testBit_eq_decide_div_mod_eq, hbit, maskBit_eq_one]

end

/-! ## Reductions, counts and single lanes (12 R229, R232) -/

theorem reduceTree_eq_treeOf (join : BitVec 32 → BitVec 32 → BitVec 32 × Flags) (v : Nat → BitVec 32) (n i : Nat) :
    reduceTree join v n i = treeOf join v n i := by
  induction n generalizing i with
  | zero => rfl
  | succ n ih => simp only [reduceTree, treeOf, ih]

theorem onesBelow_eq_countP (v : BitVec 2048) (n : Nat) : onesBelow v n = (List.range n).countP v.getLsbD := by
  induction n with
  | zero => rfl
  | succ n ih => rw [onesBelow, ih, List.range_succ, List.countP_append, List.countP_singleton]

theorem getLsbD_setLane (v : BitVec 2048) (w n k : Nat) {j : Nat} (hj : j < 2048) : (setLane v w n k).getLsbD j =
    if w * n ≤ j ∧ j < w * n + w then k.testBit (j - w * n) else v.getLsbD j := by
  have hoff : j - w * n < 2048 := by omega
  simp only [setLane, BitVec.getLsbD_or, BitVec.getLsbD_and, BitVec.getLsbD_not, BitVec.getLsbD_shiftLeft, BitVec.getLsbD_ofNat, hj,
    hoff, Nat.testBit_two_pow_sub_one, Nat.testBit_mod_two_pow, decide_true, Bool.true_and]
  by_cases hin : w * n ≤ j ∧ j < w * n + w
  · rw [if_pos hin]
    simp [show ¬ j < w * n by omega, show j - w * n < w by omega]
  · rw [if_neg hin]
    by_cases hlow : j < w * n
    · simp [hlow]
    · simp [show ¬ j - w * n < w by omega]

/-- The lane that is replaced, and every other one. -/
theorem extractLsb'_setLane {w n i : Nat} (v : BitVec 2048) (k : Nat) (hi : w * (i + 1) ≤ 2048) :
    (setLane v w n k).extractLsb' (w * i) w = if i = n then BitVec.ofNat w k else v.extractLsb' (w * i) w := by
  ext b hb
  have hbit : w * i + b < 2048 := by
    rw [Nat.mul_succ] at hi
    omega
  rw [BitVec.getElem_extractLsb', getLsbD_setLane _ _ _ _ hbit]
  obtain hlt | rfl | hgt := Nat.lt_trichotomy i n
  · have hbelow := Nat.mul_le_mul_left w (Nat.succ_le_of_lt hlt)
    rw [Nat.mul_succ] at hbelow
    rw [if_neg (by omega), if_neg (by omega), BitVec.getElem_extractLsb']
  · rw [if_pos (by omega), if_pos rfl, Nat.add_sub_cancel_left, ← BitVec.getLsbD_eq_getElem, BitVec.getLsbD_ofNat,
      decide_eq_true hb, Bool.true_and]
  · have habove := Nat.mul_le_mul_left w (Nat.succ_le_of_lt hgt)
    rw [Nat.mul_succ] at habove
    rw [if_neg (by omega), if_neg (by omega), BitVec.getElem_extractLsb']

end Sys2Proof.Machine

/-! SUPPORT. The vector instructions (12 R224 to R234): each goes to the pipe with the lanes, the mask bits or the word of its row of the
spec's tables. -/

namespace Sys2Proof.Machine

open Sys2Proof Claims

/-! ## Instructions that enter the pipe -/

/-- The instruction enters the pipe with a result computed from the registers of its strand alone, and tests only `reads`. -/
def Pipes (i : Instr) (s : State) (reads : List RegName) (r : VecResult) : Prop :=
  ∃ tested f, exec i s = vectorOp tested [r.dst] f s ∧ tested ⊆ reads ∧ r.Gives s.me (f s.me).1 (f s.me).2

theorem Pipes.of_full {i : Instr} {s : State} {reads : List RegName} {r : VecResult} (h : Pipes i s reads r)
    (hfull : s.pipeFull (coreOf s.cur) = true) : exec i s = .next s := by
  obtain ⟨tested, f, hexec, -, -⟩ := h
  rw [hexec, vectorOp_of_full hfull]

theorem Pipes.enters {i : Instr} {s u : State} {reads : List RegName} {r : VecResult} (h : Pipes i s reads r)
    (hroom : s.pipeFull (coreOf s.cur) = false) (hissue : Issues false reads s u) :
    ∃ t w fl, exec i s = .next t ∧ r.Gives s.me w fl ∧ Queued s t r.dst w fl := by
  obtain ⟨tested, f, hexec, hreads, hgives⟩ := h
  obtain ⟨t, ht, hqueued⟩ := vectorOp_enters (d := r.dst) (f := f) hroom (hissue.of_subset hreads)
  exact ⟨t, _, _, hexec.trans ht, hgives, hqueued⟩

/-! ## The shapes of the instructions -/

section
variable {i : Instr} {s : State} {d a b : BitVec 5} {g : BitVec 6} {vm : BitVec 3} {z m : Bool} {l : List RegName}

theorem maskReads_append_subset (vm : BitVec 3) (m : Bool) (l : List RegName) : maskReads vm m ++ l ⊆ l ++ maskReads vm m :=
  List.perm_append_comm.subset

/-- A masked form whose lanes are computed one by one (R221). -/
theorem pipes_lanes (w : Nat) (f : Arch → Nat → Nat × Flags)
    (hexec : exec i s = vectorOp (maskReads vm m ++ l) [.v d] (fun x => (.v d (maskedLanes w x d vm z m (f x)).1,
      (maskedLanes w x d vm z m (f x)).2)) s) :
    Pipes i s (l ++ maskReads vm m)
      (.lanes w d z (lit s.me vm m) (fun j => BitVec.ofNat w (f s.me j).1) fun j => (f s.me j).2) :=
  ⟨_, _, hexec, maskReads_append_subset .., gives_maskedLanes w (f s.me)⟩

/-- A masked form of 32-bit lanes. -/
theorem pipes_lanes32 (f : Arch → Nat → BitVec 32 × Flags)
    (hexec : exec i s = vectorOp (maskReads vm m ++ l) [.v d]
      (fun x => (.v d (maskedLanes 32 x d vm z m fun j => lane32Of (f x j)).1,
        (maskedLanes 32 x d vm z m fun j => lane32Of (f x j)).2)) s) :
    Pipes i s (l ++ maskReads vm m) (.lanes 32 d z (lit s.me vm m) (fun j => (f s.me j).1) fun j => (f s.me j).2) := by
  have h := pipes_lanes 32 (fun x j => lane32Of (f x j)) hexec
  simp only [lane32Of, BitVec.ofNat_toNat, BitVec.setWidth_eq] at h
  exact h

theorem pipes_lanes2 {f : Nat → BitVec 32 → BitVec 32 → BitVec 32 × Flags} (hexec : exec i s = lanes2 d a b vm z m f s) :
    Pipes i s (.v a :: .v b :: .v d :: maskReads vm m) (.lanes 32 d z (lit s.me vm m)
      (fun j => (f (s.me.frm.toNat % 8) (vlane s.me a j) (vlane s.me b j)).1)
      fun j => (f (s.me.frm.toNat % 8) (vlane s.me a j) (vlane s.me b j)).2) :=
  pipes_lanes32 (l := [.v a, .v b, .v d]) (fun x j => f (x.frm.toNat % 8) (vlane x a j) (vlane x b j)) hexec

theorem pipes_lanes1 {f : Nat → BitVec 32 → BitVec 32 × Flags} (hexec : exec i s = lanes1 d a vm z m f s) :
    Pipes i s (.v a :: .v d :: maskReads vm m) (.lanes 32 d z (lit s.me vm m)
      (fun j => (f (s.me.frm.toNat % 8) (vlane s.me a j)).1) fun j => (f (s.me.frm.toNat % 8) (vlane s.me a j)).2) :=
  pipes_lanes32 (l := [.v a, .v d]) (fun x j => f (x.frm.toNat % 8) (vlane x a j)) hexec

/-- A fused form (R224). -/
theorem pipes_lanesFma {np nc : Bool} (hexec : exec i s = lanesFma np nc d a b vm z m s) :
    Pipes i s (.v d :: .v a :: .v b :: maskReads vm m) (.lanes 32 d z (lit s.me vm m)
      (fun j => (fFma (s.me.frm.toNat % 8) np nc (vlane s.me a j) (vlane s.me b j) (vlane s.me d j)).1)
      fun j => (fFma (s.me.frm.toNat % 8) np nc (vlane s.me a j) (vlane s.me b j) (vlane s.me d j)).2) :=
  pipes_lanes32 (l := [.v d, .v a, .v b])
    (fun x j => fFma (x.frm.toNat % 8) np nc (vlane x a j) (vlane x b j) (vlane x d j)) hexec

/-- A form with a g-register, whose low word is the operand (R231). -/
theorem pipes_lanesG (l : List RegName) {f : Arch → Word → Nat → BitVec 32 × Flags}
    (hexec : exec i s = lanesG l d g vm z m f s) :
    Pipes i s (l ++ maskReads vm m) (.lanes 32 d z (lit s.me vm m) (fun j => (f s.me (s.me.word g) j).1)
      fun j => (f s.me (s.me.word g) j).2) :=
  pipes_lanes32 (fun x j => f x (x.word g) j) hexec

/-- A narrowing (R234). -/
theorem pipes_narrowLanes {f : Nat → BitVec 32 → BitVec 16 × Flags} (hexec : exec i s = narrowLanes d a b vm z m f s) :
    Pipes i s (.v a :: .v b :: .v d :: maskReads vm m) (.lanes 16 d z (lit s.me vm m)
      (fun j => (f (s.me.frm.toNat % 8) (vlane s.me (if j < 64 then a else b) (j % 64))).1)
      fun j => (f (s.me.frm.toNat % 8) (vlane s.me (if j < 64 then a else b) (j % 64))).2) := by
  have h := pipes_lanes (l := [.v a, .v b, .v d]) 16 (fun x j =>
    ((f (x.frm.toNat % 8) (vlane x (if j < 64 then a else b) (j % 64))).1.toNat,
      (f (x.frm.toNat % 8) (vlane x (if j < 64 then a else b) (j % 64))).2)) hexec
  simp only [BitVec.ofNat_toNat, BitVec.setWidth_eq] at h
  exact h

/-- A widening (R234). -/
theorem pipes_widenLanes {f : BitVec 16 → BitVec 32} (hexec : exec i s = widenLanes d a vm z m f s) :
    Pipes i s (.v a :: .v d :: maskReads vm m) (.lanes 32 d z (lit s.me vm m)
      (fun j => f ((s.me.readV a).extractLsb' (16 * j) 16)) noFlags) :=
  pipes_lanes32 (l := [.v a, .v d]) (fun x j => quiet (f (lane16 (x.readV a) j))) hexec

/-- A compare (R222). -/
theorem pipes_mask {f : BitVec 32 → BitVec 32 → Bool × Flags} (hexec : exec i s = lanesCmp d a b vm z m f s) :
    Pipes i s (.v a :: .v b :: .v d :: maskReads vm m) (.mask d z (lit s.me vm m)
      (fun j => (f (vlane s.me a j) (vlane s.me b j)).1) fun j => (f (vlane s.me a j) (vlane s.me b j)).2) :=
  ⟨_, _, hexec, maskReads_append_subset _ _ [.v a, .v b, .v d],
    gives_maskBits fun j => f (vlane s.me a j) (vlane s.me b j)⟩

/-- A reduction (R229). -/
theorem pipes_tree {unit : BitVec 32} {f join : BitVec 32 → BitVec 32 → BitVec 32 × Flags}
    (hexec : exec i s = reduce d a vm m unit f s) (hjoin : ∀ p q, f p q = join p q) :
    Pipes i s (.v a :: .v d :: maskReads vm m) (.tree d (lit s.me vm m) (vlane s.me a) unit join) := by
  obtain rfl : f = join := funext fun p => funext (hjoin p)
  refine ⟨_, _, hexec, maskReads_append_subset _ _ [.v a, .v d], ?_, ?_⟩
  · rw [reduceTree_eq_treeOf, BitVec.ofNat_toNat]
    rfl
  · rw [reduceTree_eq_treeOf]
    rfl

/-- A word for a g-register (R232). -/
theorem pipes_word {f : BitVec 2048 → Word} {value : BitVec 64} (hexec : exec i s = toG a g f s)
    (hvalue : f (s.me.readV a) = value) : Pipes i s [.v a, .g g] (.word g value) :=
  ⟨_, _, hexec, List.Subset.refl _, congrArg (fun v => RegWrite.g g (.data v)) hvalue, rfl⟩

/-- An integer operation on the lanes of two registers (R230). -/
theorem pipes_int2 (f : BitVec 32 → BitVec 32 → BitVec 32) {value : Nat → BitVec 32}
    (hexec : exec i s = lanes2 d a b vm z m (fun _ p q => quiet (f p q)) s)
    (hvalue : ∀ j, f (vlane s.me a j) (vlane s.me b j) = value j) :
    Pipes i s (.v a :: .v b :: .v d :: maskReads vm m) (.lanes 32 d z (lit s.me vm m) value noFlags) :=
  funext hvalue ▸ pipes_lanes2 hexec

end

section
variable (s : State) (d a b : BitVec 5) (vm : BitVec 3)

/-- vsel, whose mask chooses a source (R228). -/
theorem pipes_vsel : Pipes (.vsel d a b vm) s (.v a :: .v b :: .v d :: maskReads vm true) (.lanes 32 d false (fun _ => true)
    (fun j => if (s.me.readV (vm.setWidth 5)).getLsbD j then vlane s.me a j else vlane s.me b j) noFlags) := by
  have hexec : exec (.vsel d a b vm) s = execVsel d a b vm s := rfl
  refine ⟨_, _, hexec, maskReads_append_subset _ _ [.v a, .v b, .v d], _, rfl, (laneFlags_noFlags ..).symm,
    fun j hj => ?_⟩
  rw [extractLsb'_lanesNat (by omega) hj, if_pos rfl, BitVec.ofNat_toNat, BitVec.setWidth_eq]
  exact apply_ite (fun r => vlane s.me r j) ..

/-- vidx, which adds each lane's number (R231). -/
theorem pipes_vidx (g : BitVec 6) (z m : Bool) : Pipes (.vidx d g vm z m) s (.g g :: .v d :: maskReads vm m)
    (.lanes 32 d z (lit s.me vm m) (fun j => BitVec.ofNat 32 (j + (s.me.word g).toNat)) noFlags) := by
  have hsum : (fun j => BitVec.ofNat 32 (j + (s.me.word g).toNat)) = fun j => BitVec.ofNat 32 j + (s.me.word g).setWidth 32 :=
    funext fun j => by rw [BitVec.ofNat_add, BitVec.ofNat_toNat]
  rw [hsum]
  exact pipes_lanesG [.g g, .v d] (f := fun _ n j => quiet (BitVec.ofNat 32 j + n.setWidth 32)) rfl

/-- vins, which replaces one lane (R232). -/
theorem pipes_vins (v : BitVec 5) (g idx : BitVec 6) : Pipes (.vins v g idx) s [.v v, .g g]
    (.lanes 32 v false (fun j => decide (j = idx.toNat)) (fun _ => BitVec.ofNat 32 (s.me.word g).toNat) noFlags) := by
  have hexec : exec (.vins v g idx) s = execVins v g idx s := rfl
  refine ⟨_, _, hexec, List.Subset.refl _, _, rfl, (laneFlags_noFlags ..).symm, fun j hj => ?_⟩
  have hword : BitVec.ofNat 32 ((s.me.word g).toNat % 2 ^ 32) = BitVec.ofNat 32 (s.me.word g).toNat := by
    apply BitVec.eq_of_toNat_eq
    rw [BitVec.toNat_ofNat, BitVec.toNat_ofNat, Nat.mod_mod]
  rw [extractLsb'_setLane _ _ (by omega), hword]
  simp only [decide_eq_true_eq, Bool.false_eq_true, if_false]

end

/-! ## Integers and moves (R228 to R232) -/

section
variable {w : Nat} (p q : BitVec w)

theorem sub_eq_ofInt_sub : p - q = BitVec.ofInt w (p.toInt - q.toInt) := by
  apply BitVec.eq_of_toInt_eq
  simp [BitVec.toInt_sub]

theorem mul_eq_ofNat_mul : p * q = BitVec.ofNat w (p.toNat * q.toNat) := by
  apply BitVec.eq_of_toNat_eq
  simp

theorem shiftLeft_eq_ofNat (n : Nat) : p <<< n = BitVec.ofNat w (p.toNat * 2 ^ n) := by
  apply BitVec.eq_of_toNat_eq
  simp [Nat.shiftLeft_eq]

theorem ushiftRight_eq_ofNat (n : Nat) : p >>> n = BitVec.ofNat w (p.toNat / 2 ^ n) := by
  apply BitVec.eq_of_toNat_eq
  rw [BitVec.toNat_ushiftRight, BitVec.toNat_ofNat, Nat.shiftRight_eq_div_pow, Nat.mod_eq_of_lt]
  exact Nat.lt_of_le_of_lt (Nat.div_le_self ..) p.isLt

theorem sshiftRight_eq_ofInt (n : Nat) : p.sshiftRight n = BitVec.ofInt w (p.toInt / 2 ^ n) := by
  simp [BitVec.sshiftRight, Int.shiftRight_eq_div_pow]

theorem ite_sle_eq_ofInt_min : (if p.sle q then p else q) = BitVec.ofInt w (min p.toInt q.toInt) := by
  rw [BitVec.sle_eq_decide, Int.min_def]
  by_cases h : p.toInt ≤ q.toInt <;> simp [h]

theorem ite_sle_eq_ofInt_max : (if p.sle q then q else p) = BitVec.ofInt w (max p.toInt q.toInt) := by
  rw [BitVec.sle_eq_decide, Int.max_def]
  by_cases h : p.toInt ≤ q.toInt <;> simp [h]

end

/-- Each row of the table of integers and moves is what its instruction computes. -/
theorem pipes_of_integerVector {s : State} {i : Instr} {reads : List RegName} {r : VecResult}
    (h : integerVector s.me i = some (reads, r)) : Pipes i s reads r := by
  unfold integerVector at h
  split at h <;> cases h
  case h_1 => exact pipes_int2 (· + ·) rfl fun _ => BitVec.add_def _ _
  case h_2 => exact pipes_int2 (· - ·) rfl fun _ => sub_eq_ofInt_sub _ _
  case h_3 => exact pipes_int2 (· * ·) rfl fun _ => mul_eq_ofNat_mul _ _
  case h_4 => exact pipes_int2 (· &&& ·) rfl fun _ => rfl
  case h_5 => exact pipes_int2 (· ||| ·) rfl fun _ => rfl
  case h_6 => exact pipes_int2 (· ^^^ ·) rfl fun _ => rfl
  case h_7 => exact pipes_int2 (fun p q => p <<< laneShift q) rfl fun _ => shiftLeft_eq_ofNat _ _
  case h_8 => exact pipes_int2 (fun p q => p >>> laneShift q) rfl fun _ => ushiftRight_eq_ofNat _ _
  case h_9 => exact pipes_int2 (fun p q => p.sshiftRight (laneShift q)) rfl fun _ => sshiftRight_eq_ofInt _ _
  case h_10 => exact pipes_int2 (fun p q => if p.sle q then p else q) rfl fun _ => ite_sle_eq_ofInt_min _ _
  case h_11 => exact pipes_int2 (fun p q => if p.sle q then q else p) rfl fun _ => ite_sle_eq_ofInt_max _ _
  case h_12 d a b vm z m =>
    exact pipes_lanes32 (l := [.v a, .v b, .v d]) (fun x j => quiet (vlane x a ((vlane x b j).toNat % 64))) rfl
  case h_13 => exact pipes_mask (f := fun p q => (p == q, Flags.none)) rfl
  case h_14 => exact pipes_mask (f := fun p q => (p.slt q, Flags.none)) rfl
  case h_15 => exact pipes_mask (f := fun p q => (p.ult q, Flags.none)) rfl
  case h_16 => exact pipes_tree (f := fun p q => quiet (p + q)) rfl fun _ _ => congrArg quiet (BitVec.add_def _ _)
  case h_17 => exact pipes_vsel ..
  case h_18 d b vm z m => exact pipes_lanesG [.g b, .v d] (f := fun _ n _ => quiet (n.setWidth 32)) rfl
  case h_19 => exact pipes_vidx ..
  case h_20 d a b vm z m =>
    exact pipes_lanesG [.v a, .g b, .v d]
      (f := fun x n j => quiet (if n.toNat ≤ j then vlane x a (j - n.toNat) else 0)) rfl
  case h_21 d a b vm z m =>
    exact pipes_lanesG [.v a, .g b, .v d]
      (f := fun x n j => quiet (if j + n.toNat ≤ 63 then vlane x a (j + n.toNat) else 0)) rfl
  case h_22 => exact pipes_vins ..
  case h_23 idx => exact pipes_word (f := fun v => (lane32 v idx.toNat).setWidth 64) rfl (BitVec.ofNat_toNat ..).symm
  case h_24 =>
    exact pipes_word (f := fun v => BitVec.ofNat 64 (onesBelow v 64)) rfl (congrArg (BitVec.ofNat 64) (onesBelow_eq_countP ..))
  case h_25 => exact pipes_word (f := fun v => BitVec.ofNat 64 (((List.range 64).find? fun j => v.getLsbD j).getD 64)) rfl rfl

/-! ## FP32 (R224 to R227, R229, R231, R233, R234) -/

/-- Each row of the table of FP32 instructions is what its instruction computes. -/
theorem pipes_of_floatVector {s : State} {i : Instr} {reads : List RegName} {r : VecResult}
    (h : floatVector s.me i = some (reads, r)) : Pipes i s reads r := by
  unfold floatVector at h
  split at h <;> cases h
  case h_1 => exact pipes_lanes2 (f := fAdd) rfl
  case h_2 => exact pipes_lanes2 (f := fSub) rfl
  case h_3 => exact pipes_lanes2 (f := fMul) rfl
  case h_4 => exact pipes_lanes2 (f := fun _ => fMinMax false) rfl
  case h_5 => exact pipes_lanes2 (f := fun _ => fMinMax true) rfl
  case h_6 => exact pipes_lanes2 (f := scaleLane) rfl
  case h_7 | h_8 | h_9 => exact pipes_lanesFma rfl
  case h_10 => exact pipes_lanes1 (f := fun _ => signOp fun w => w &&& 0x7FFFFFFF) rfl
  case h_11 => exact pipes_lanes1 (f := fun _ => signOp negBit) rfl
  case h_12 => exact pipes_lanes1 (f := fun _ => seedRcp) rfl
  case h_13 => exact pipes_lanes1 (f := fun _ => seedRsq) rfl
  case h_14 => exact pipes_lanes1 (f := fun _ => expLane) rfl
  case h_15 => exact pipes_lanes1 (f := rndLane) rfl
  case h_16 => exact pipes_lanes1 (f := fun frm w => intToF32 frm w.toInt) rfl
  case h_17 => exact pipes_lanes1 (f := toIntLane) rfl
  case h_18 => exact pipes_widenLanes (f := fromBf16) rfl
  case h_19 => exact pipes_widenLanes (f := fromFp16) rfl
  case h_20 => exact pipes_narrowLanes (f := toBf16) rfl
  case h_21 => exact pipes_narrowLanes (f := toFp16) rfl
  case h_22 => exact pipes_mask (f := fCompare (fun p q => p == q) false false) rfl
  case h_23 => exact pipes_mask (f := fCompare (fun p q => decide (p < q)) false true) rfl
  case h_24 => exact pipes_mask (f := fCompare (fun p q => decide (p ≤ q)) false true) rfl
  case h_25 => exact pipes_mask (f := fCompare (fun _ _ => false) true false) rfl
  case h_26 => exact pipes_tree (f := fAdd 0) rfl fun _ _ => rfl
  case h_27 => exact pipes_tree (f := fMinMax true) rfl fun _ _ => rfl
  case h_28 => exact pipes_tree (f := fMinMax false) rfl fun _ _ => rfl
  case h_29 d a b vm z m =>
    exact pipes_lanesG [.v a, .g b, .v d] (f := fun x n j => fAdd (x.frm.toNat % 8) (vlane x a j) (n.setWidth 32)) rfl
  case h_30 d a b vm z m =>
    exact pipes_lanesG [.v a, .g b, .v d] (f := fun x n j => fMul (x.frm.toNat % 8) (vlane x a j) (n.setWidth 32)) rfl
  case h_31 d a b vm z m =>
    exact pipes_lanesG [.v d, .v a, .g b]
      (f := fun x n j => fFma (x.frm.toNat % 8) false false (vlane x a j) (n.setWidth 32) (vlane x d j)) rfl

/-! ## The statements -/

/-- What a vector instruction does, by the room in the queues that it enters (R217, R219). -/
theorem Pipes.spec {i : Instr} {s u : State} {reads : List RegName} {f : VecResult} (h : Pipes i s reads f) :
    (4 ≤ (s.core (coreOf s.cur)).vq.length → exec i s = .next s) ∧
    ((s.core (coreOf s.cur)).paired = true → 4 ≤ (s.core (coreOf s.cur + 1)).vq.length → exec i s = .next s) ∧
    ((s.core (coreOf s.cur)).vq.length < 4 →
      ((s.core (coreOf s.cur)).paired = true → (s.core (coreOf s.cur + 1)).vq.length < 4) → Issues false reads s u →
      ∃ t chunk w fl, exec i s = .next t ∧ f.Gives s.me w fl ∧
      Own s t s.me.advance ((s.strand s.cur).out ++ [left s chunk [f.dst] (.queued [w] fl)]) ∧
      (t.core (coreOf s.cur)).vq = (s.core (coreOf s.cur)).vq ++ [(s.cur, s.serial)] ∧
      ((s.core (coreOf s.cur)).paired = true →
        (t.core (coreOf s.cur + 1)).vq = (s.core (coreOf s.cur + 1)).vq ++ [(s.cur + 4, s.serial)]) ∧
      t.mem = s.mem ∧ t.tags = s.tags) := by
  refine ⟨fun hfull => h.of_full ((s.pipeFull_iff _).mpr (.inl hfull)),
    fun hpaired hfull => h.of_full ((s.pipeFull_iff _).mpr (.inr ⟨hpaired, hfull⟩)), fun hroom hodd hissue => ?_⟩
  obtain ⟨t, w, fl, ht, hgives, ⟨chunk, hown⟩, hvq, hvqOdd, hmem, htags⟩ :=
    h.enters (State.pipeFull_eq_false hroom hodd) hissue
  exact ⟨t, chunk, w, fl, ht, hgives, hown, hvq, hvqOdd, hmem, htags⟩

/-- Settles O26: each instruction of the table enters the pipe with its result, or waits for room. -/
theorem vectorIntegersActLaneByLane : Obligations.VectorIntegersActLaneByLane := by
  unfold Obligations.VectorIntegersActLaneByLane
  intro s u i reads f h
  exact (pipes_of_integerVector h).spec

/-- Settles O27: the same of the FP32 instructions, and the turn of the pipe. -/
theorem vectorFloatsActLaneByLane : Obligations.VectorFloatsActLaneByLane := by
  unfold Obligations.VectorFloatsActLaneByLane
  refine ⟨fun s u i reads f h => (pipes_of_floatVector h).spec, ?dispatch⟩
  case dispatch =>
    intro s q k n sid out rest hq h1 h4 hempty hn hvq
    exact vectorDispatch_spec hq h1 h4 hempty hn hvq

end Sys2Proof.Machine

/-! SUPPORT. The members of 0x23 (13 R239, R247, R253 to R255): the claim, the checks of an entry, and how it enters its core's queue. -/

namespace Sys2Proof.Machine

open Sys2Proof Claims

/-! ## The claim (13 R239) -/

section
variable {u v : State}

theorem checkClaim_of_claimed (h : Claimed u v) : u.checkClaim = (v, none) := by
  unfold State.checkClaim
  obtain ⟨hS, rfl⟩ | ⟨hU, hown, rfl⟩ | ⟨hU, hfree, rfl⟩ := h
  · rw [if_pos hS]
  · simp [hU, hown]
  · simp [hU, hfree]

theorem checkClaim_of_other {h : Nat} (hU : u.me.smode = false) (hclaim : (u.core (coreOf u.cur)).claim = some h)
    (hne : h ≠ u.cur) : u.checkClaim = (u, some (.trap .accbusy (u.arch h).gang)) := by
  unfold State.checkClaim
  simp [hU, hclaim, hne]

theorem cur_of_claimed (h : Claimed u v) : v.cur = u.cur := by
  obtain ⟨-, rfl⟩ | ⟨-, -, rfl⟩ | ⟨-, -, rfl⟩ := h <;> rfl

/-- CheckClaim changes nothing but the core's claim. -/
theorem coresOnly_of_claimed (h : Claimed u v) : CoresOnly u v := by
  obtain ⟨-, rfl⟩ | ⟨-, -, rfl⟩ | ⟨-, -, rfl⟩ := h
  · exact CoresOnly.refl _
  · exact CoresOnly.refl _
  · exact ⟨_, rfl⟩

theorem mq_of_claimed (h : Claimed u v) : (v.core (coreOf u.cur)).mq = (u.core (coreOf u.cur)).mq := by
  obtain ⟨-, rfl⟩ | ⟨-, -, rfl⟩ | ⟨-, -, rfl⟩ := h
  · rfl
  · rfl
  · rw [State.core_onCore_self]

theorem Wait.took_iff (w : Wait) : w.took = true ↔ w = .array true := by
  cases w <;> simp [Wait.took]

/-- Whether a member took the claim: now, or before it waited for the array. -/
theorem took_of_claimed (h : Claimed u v) :
    ((v.core (coreOf u.cur)).claim != (u.core (coreOf u.cur)).claim || (u.strand u.cur).wait.took) =
      decide ((u.me.smode = false ∧ (u.core (coreOf u.cur)).claim = none) ∨ (u.strand u.cur).wait = .array true) := by
  have hwait : (u.strand u.cur).wait.took = decide ((u.strand u.cur).wait = .array true) := by
    rw [Bool.eq_iff_iff, Wait.took_iff, decide_eq_true_eq]
  rw [hwait]
  obtain ⟨hS, rfl⟩ | ⟨-, hown, rfl⟩ | ⟨hU, hfree, rfl⟩ := h
  · simp [hS]
  · simp [hown]
  · simp [hU, hfree]

section
variable {body : State → Act} (h : Claimed u v)
include h

theorem claimed_of_done {x : State} (hbody : body v = .done x) : claimed body u = .done x := by
  simp only [claimed, checkClaim_of_claimed h, hbody]

/-- A member that traps gives back the claim that it took. -/
theorem claimed_of_trap {x : State} {cause : Cause} {w : Word} (hbody : body v = .trap x cause w) :
    claimed body u = .trap (unclaimed u x) cause w := by
  simp only [claimed, checkClaim_of_claimed h, hbody, took_of_claimed h, decide_eq_true_eq, unclaimed]

/-- A member that waits for the array keeps the claim that it took, and remembers that it did. -/
theorem claimed_of_array {x : State} {b : Bool} (hbody : body v = .hold x) (hwait : (x.strand u.cur).wait = .array b) :
    claimed body u = .hold (x.onStrand u.cur fun t => { t with wait := .array (decide
      ((u.me.smode = false ∧ (u.core (coreOf u.cur)).claim = none) ∨ (u.strand u.cur).wait = .array true)) }) := by
  simp only [claimed, checkClaim_of_claimed h, hbody, hwait, took_of_claimed h]

end

theorem claimed_of_other {body : State → Act} {h : Nat} (hU : u.me.smode = false)
    (hclaim : (u.core (coreOf u.cur)).claim = some h) (hne : h ≠ u.cur) :
    claimed body u = .trap u .accbusy (u.arch h).gang := by
  simp only [claimed, checkClaim_of_other hU hclaim hne, Stop.act]

end

/-! ## The shared steps of a member (13 R247) -/

/-- A strand that waits for the array, with another note of its claim. -/
theorem onStrand_waiting_array (v : State) (a b : Bool) :
    (v.waiting (.array a)).onStrand v.cur (fun t => { t with wait := .array b }) = v.waiting (.array b) := by
  simp [State.waiting, State.onStrand, Wait.parks]

section
variable {s u : State} {reads : List RegName} {body : State → Act}

theorem matrixOp_of_full (h : 2 ≤ (s.core (coreOf s.cur)).mq.length) : matrixOp reads body s = .next s := if_pos h

theorem matrixOp_of_mayEnd (hroom : (s.core (coreOf s.cur)).mq.length < 2) (h : MayEnd false false reads s u) :
    matrixOp reads body s = .next (claimed body u).settleT :=
  (if_neg (Nat.not_le.mpr hroom)).trans (terminate_of_mayEnd h _)

variable {v x : State} (hroom : (s.core (coreOf s.cur)).mq.length < 2) (hend : MayEnd false false reads s u) (hclaimed : Claimed u v)
include hroom hend hclaimed

theorem matrixOp_of_done (hbody : body v = .done x) : matrixOp reads body s = .next (Act.done x).settleT := by
  rw [matrixOp_of_mayEnd hroom hend, claimed_of_done hclaimed hbody]

theorem matrixOp_of_trap {cause : Cause} {y : Word} (hbody : body v = .trap x cause y) (hcur : x.cur = u.cur) :
    matrixOp reads body s = .next ((unclaimed u x).raise s.cur cause y) := by
  have hissuer : (unclaimed u x).cur = s.cur := by
    rw [← hend.cur, ← hcur, unclaimed]
    split <;> rfl
  rw [matrixOp_of_mayEnd hroom hend, claimed_of_trap hclaimed hbody, Act.settleT, hissuer]

theorem matrixOp_of_array (hbody : body v = .hold (v.waiting (.array false))) :
    matrixOp reads body s = .next (v.waiting (.array (decide
      ((u.me.smode = false ∧ (u.core (coreOf u.cur)).claim = none) ∨ (u.strand u.cur).wait = .array true)))) := by
  have hcur := cur_of_claimed hclaimed
  have hwait : ((v.waiting (.array false)).strand u.cur).wait = .array false := by rw [← hcur, (waiting_eq v _).2.1]
  rw [matrixOp_of_mayEnd hroom hend, claimed_of_array hclaimed hbody hwait, Act.settleT, ← hcur, onStrand_waiting_array]

end

/-! ## The checks of an entry (13 R242, R244, R253, R255) -/

theorem geM_eq (e : Word) : geM e = e.toNat % 128 := by simp [geM]
theorem geN_eq (e : Word) : geN e = e.toNat / 2 ^ 7 % 128 := by simp [geN, Nat.shiftRight_eq_div_pow]
theorem geKb_eq (e : Word) : geKb e = e.toNat / 2 ^ 14 % 32 := by simp [geKb, Nat.shiftRight_eq_div_pow]
theorem geKl_eq (e : Word) : geKl e = e.toNat / 2 ^ 19 % 512 := by simp [geKl, Nat.shiftRight_eq_div_pow]

/-- The bits of ge above klast are zero. -/
theorem ge_high_eq_zero_iff (e : Word) : e.extractLsb' 28 36 = 0 ↔ e.toNat < 2 ^ 28 := by
  rw [← BitVec.toNat_inj, BitVec.extractLsb'_toNat, Nat.shiftRight_eq_div_pow]
  have := e.isLt
  simp only [BitVec.ofNat_eq_ofNat, BitVec.toNat_ofNat]
  omega

theorem geFitsMma_iff (e : Word) : geFitsMma e = true ↔ e.toNat < 2 ^ 28 ∧ 1 ≤ e.toNat % 128 ∧ e.toNat % 128 ≤ 64 ∧
    1 ≤ e.toNat / 2 ^ 7 % 128 ∧ e.toNat / 2 ^ 7 % 128 ≤ 64 ∧ 1 ≤ e.toNat / 2 ^ 14 % 32 ∧ e.toNat / 2 ^ 14 % 32 ≤ 16 ∧
    1 ≤ e.toNat / 2 ^ 19 % 512 ∧ e.toNat / 2 ^ 19 % 512 ≤ 256 := by
  rw [geFitsMma, geFits, Bool.and_eq_true, Bool.and_eq_true, beq_iff_eq, ge_high_eq_zero_iff, decide_eq_true_eq,
    decide_eq_true_eq, geM_eq, geN_eq, geKb_eq, geKl_eq]
  tauto

theorem operandCheck_eq_none_iff (u : State) (fn r : Nat) (e : Word) (c : Reg) :
    u.operandCheck fn r e c = none ↔ OperandFits u fn r e c := by
  unfold State.operandCheck OperandFits
  dsimp only
  split
  · next hcheck => simp [hcheck]
  · next hcheck =>
    split
    · next cid off hplace =>
      simp only [hcheck, hplace, Place.pad.injEq, true_and]
      constructor
      · intro h
        split at h
        · next hfits => exact ⟨hfits.1, cid, off, ⟨rfl, rfl⟩, hfits.2⟩
        · cases h
      · rintro ⟨halign, _, _, ⟨rfl, rfl⟩, hfits⟩
        exact if_pos ⟨halign, hfits⟩
    · next hplace =>
      refine iff_of_false (by simp) ?_
      rintro ⟨-, -, cid, off, hpad, -⟩
      exact hplace cid off hpad

/-- The extents of an mma are in range, and both its operands fit (13 R253). -/
theorem mmaCheck_eq_none_iff (u : State) (fn : Nat) (e : Word) (a b : Reg) : u.mmaCheck fn e a b = none ↔
    geFitsMma e = true ∧ OperandFits u fn (geM e) e a ∧ OperandFits u fn (geN e) e b := by
  rw [State.mmaCheck, ← operandCheck_eq_none_iff, ← operandCheck_eq_none_iff]
  cases geFitsMma e <;> simp

/-- The checks of mld and mst may fill the PLB, and do nothing else. -/
theorem imageCheck_cores (v : State) (store : Bool) (e : Word) (c : Reg) : CoresOnly v (v.imageCheck store e c).1 := by
  have hrights := areaRights_cores v v.cur [if store then .w else .r] c.cursor (imageBytes e)
  unfold State.imageCheck
  dsimp only
  split
  · exact CoresOnly.refl v
  · split
    · exact CoresOnly.refl v
    · split
      all_goals
        split
        · exact CoresOnly.refl v
        · split
          · exact CoresOnly.refl v
          · split
            · next heq =>
              rw [heq] at hrights
              exact hrights
            · next heq =>
              rw [heq] at hrights
              split <;> exact hrights

/-! ## An entry enters the queue (13 R247) -/

/-- The checks of an entry: the state after the fills of the PLB, and the sectors of its image. -/
def State.entryCheck (v : State) (x : MEntry) : State × Except Stop (List Nat) :=
  if x.fn ≤ 4 then (v, (v.mmaCheck x.fn x.ge x.a x.b).elim (.ok []) .error)
  else if x.fn = 5 then (v, .ok [])
  else v.imageCheck (x.fn == 7) x.ge x.a

theorem entryCheck_of_mma {v : State} {x : MEntry} (h : x.fn ≤ 4) :
    v.entryCheck x = (v, (v.mmaCheck x.fn x.ge x.a x.b).elim (.ok []) .error) := if_pos h

theorem entryCheck_of_mzero {v : State} {x : MEntry} (h : x.fn = 5) : v.entryCheck x = (v, .ok []) := by
  simp [State.entryCheck, h]

theorem entryCheck_of_image {v : State} {x : MEntry} (h : 6 ≤ x.fn) :
    v.entryCheck x = v.imageCheck (x.fn == 7) x.ge x.a := by
  rw [State.entryCheck, if_neg (by omega), if_neg (by omega)]

theorem entryCheck_cores (v : State) (x : MEntry) : CoresOnly v (v.entryCheck x).1 := by
  unfold State.entryCheck
  split
  · exact CoresOnly.refl v
  · split
    · exact CoresOnly.refl v
    · exact imageCheck_cores v _ _ _

/-- The part of a member that enters an entry after its claim. -/
def enterChecked (x : MEntry) (v : State) : Act :=
  match v.entryCheck x with
  | (w, .error e) => e.act w
  | (w, .ok l) => .done (w.enterMatrix { x with locs := l })

/-- What the members that enter an entry are: its number, and no sectors yet. -/
theorem locs_of_queuedEntry {u : State} {i : Instr} {reads : List RegName} {x : MEntry} (h : queuedEntry u i = some (reads, x)) :
    x.locs = [] ∧ x.id = u.serial := by
  unfold queuedEntry at h
  split at h <;> cases h <;> exact ⟨rfl, rfl⟩

section
variable {s : State} {fn : Nat} {acc : BitVec 2} {a b ge : BitVec 6}

theorem mma_eq (hfn : fn ≤ 4) : mma fn acc a b ge s = matrixOp [.g a, .g b, .g ge] (fun v =>
    enterChecked (v.entry fn acc.toNat (v.me.word ge) (v.me.readG a) (v.me.readG b) 0 []) v) s := by
  refine congrArg (fun body => matrixOp _ body s) (funext fun v => ?_)
  rw [enterChecked, entryCheck_of_mma hfn]
  dsimp only [State.entry]
  cases v.mmaCheck fn (v.me.word ge) (v.me.readG a) (v.me.readG b) <;> rfl

theorem execMzero_eq : execMzero acc s = matrixOp [] (fun v =>
    enterChecked (v.entry 5 acc.toNat 0 .null .null 0 []) v) s := rfl

theorem accTransfer_eq (hfn : 6 ≤ fn) : accTransfer fn acc a ge s = matrixOp [.g a, .g ge] (fun v =>
    enterChecked (v.entry fn acc.toNat (v.me.word ge) (v.me.readG a) .null 0 []) v) s := by
  refine congrArg (fun body => matrixOp _ body s) (funext fun v => ?_)
  rw [enterChecked, entryCheck_of_image hfn]
  dsimp only [State.entry]
  obtain ⟨c, hc⟩ := imageCheck_cores v (fn == 7) (v.me.word ge) (v.me.readG a)
  generalize v.imageCheck (fn == 7) (v.me.word ge) (v.me.readG a) = y at hc ⊢
  obtain ⟨w, r⟩ := y
  obtain rfl : w = { v with cores := c } := hc
  cases r <;> rfl

end

/-- A member that takes an entry makes its checks, and enters it if they pass. -/
theorem exec_of_queuedEntry {u : State} {i : Instr} {reads : List RegName} {x : MEntry} (h : queuedEntry u i = some (reads, x)) :
    ∃ body, (∀ s, exec i s = matrixOp reads body s) ∧ ∀ v, CoresOnly u v → body v = enterChecked x v := by
  unfold queuedEntry at h
  split at h <;> cases h
  case h_6 => exact ⟨_, fun s => execMzero_eq, by rintro v ⟨c, rfl⟩; rfl⟩
  case h_7 | h_8 => exact ⟨_, fun s => accTransfer_eq (by decide), by rintro v ⟨c, rfl⟩; rfl⟩
  all_goals exact ⟨_, fun s => mma_eq (by decide), by rintro v ⟨c, rfl⟩; rfl⟩

/-! ## What a member comes to -/

section
variable {s u v w : State} {i : Instr} {reads : List RegName} {x : MEntry} (hi : queuedEntry u i = some (reads, x))
include hi

theorem queued_of_full (hfull : 2 ≤ (s.core (coreOf s.cur)).mq.length) : exec i s = .next s := by
  obtain ⟨body, hexec, -⟩ := exec_of_queuedEntry hi
  rw [hexec, matrixOp_of_full hfull]

variable (hroom : (s.core (coreOf s.cur)).mq.length < 2) (hend : MayEnd false false reads s u)
include hroom hend

theorem queued_of_other {h : Nat} (hU : u.me.smode = false) (hclaim : (u.core (coreOf s.cur)).claim = some h)
    (hne : h ≠ s.cur) : exec i s = .next (u.raise s.cur .accbusy (u.arch h).gang) := by
  obtain ⟨body, hexec, -⟩ := exec_of_queuedEntry hi
  rw [← hend.cur] at hclaim hne
  rw [hexec, matrixOp_of_mayEnd hroom hend, claimed_of_other hU hclaim hne, Act.settleT, hend.cur]

variable (hclaimed : Claimed u v)
include hclaimed

/-- A check that fails traps precisely, and a claim just taken is free again (03 R57). -/
theorem queued_of_fault {cause : Cause} {y : Word} (hcheck : v.entryCheck x = (w, .error (.trap cause y))) :
    exec i s = .next ((unclaimed u w).raise s.cur cause y) := by
  obtain ⟨body, hexec, hbody⟩ := exec_of_queuedEntry hi
  have hv := coresOnly_of_claimed hclaimed
  have hw : CoresOnly v w := by simpa [hcheck] using entryCheck_cores v x
  have htrap : body v = .trap w cause y := by
    rw [hbody v hv, enterChecked, hcheck]
    rfl
  rw [hexec, matrixOp_of_trap hroom hend hclaimed htrap (hw.cur.trans hv.cur)]

theorem queued_of_pass {l : List Nat} (hcheck : v.entryCheck x = (w, .ok l)) :
    exec i s = .next (Act.done (w.enterMatrix { x with locs := l })).settleT := by
  obtain ⟨body, hexec, hbody⟩ := exec_of_queuedEntry hi
  have hdone : body v = .done (w.enterMatrix { x with locs := l }) := by
    rw [hbody v (coresOnly_of_claimed hclaimed), enterChecked, hcheck]
  rw [hexec, matrixOp_of_done hroom hend hclaimed hdone]

/-- An entry without an image is the last of its core's queue. -/
theorem queued_enters (hcheck : v.entryCheck x = (v, .ok [])) :
    ∃ t, exec i s = .next t ∧ Own u t u.me.ended (u.strand s.cur).out ∧
      (t.core (coreOf s.cur)).mq = (u.core (coreOf s.cur)).mq ++ [x] ∧
      (t.core (coreOf s.cur)).claim = (v.core (coreOf s.cur)).claim ∧ t.mem = u.mem ∧ t.tags = u.tags := by
  refine ⟨_, queued_of_pass hi hroom hend hclaimed hcheck, ?_⟩
  obtain ⟨hlocs, hid⟩ := locs_of_queuedEntry hi
  have hmq := mq_of_claimed hclaimed
  have hcores (y : State) (k : Nat) : (Act.done y).settleT.core k = y.core k := rfl
  obtain ⟨c, rfl⟩ := coresOnly_of_claimed hclaimed
  rw [← hend.cur, hcores, State.enterMatrix, State.core_onCore_self, ← hmq, ← hlocs, ← hid]
  exact ⟨end_own rfl rfl, rfl, rfl, rfl, rfl⟩

end

/-- Settles O28: the members and the checks of an mma. -/
theorem matrixCommandsEnterTheQueue : Obligations.MatrixCommandsEnterTheQueue := by
  unfold Obligations.MatrixCommandsEnterTheQueue
  refine ⟨fun s u i reads x hi => ⟨queued_of_full hi, fun hroom hend =>
    ⟨fun h hU hclaim hne => queued_of_other hi hroom hend hU hclaim hne, fun v hclaimed => ⟨fun hfn => ⟨?mmaTraps, ?mmaEnters⟩,
      fun hfn => queued_enters hi hroom hend hclaimed (entryCheck_of_mzero hfn), fun hfn w => ⟨?imageTraps, ?imageEnters⟩⟩⟩⟩, ?extents⟩
  case mmaTraps =>
    intro cause y hcheck
    exact queued_of_fault hi hroom hend hclaimed (by rw [entryCheck_of_mma hfn, hcheck, Option.elim])
  case mmaEnters =>
    intro hcheck
    exact queued_enters hi hroom hend hclaimed (by rw [entryCheck_of_mma hfn, hcheck, Option.elim])
  case imageTraps =>
    intro cause y hcheck
    exact queued_of_fault hi hroom hend hclaimed (by rw [entryCheck_of_image hfn, hcheck])
  case imageEnters =>
    intro l hcheck
    exact queued_of_pass hi hroom hend hclaimed (by rw [entryCheck_of_image hfn, hcheck])
  case extents =>
    intro u fn e a b
    rw [mmaCheck_eq_none_iff, geFitsMma_iff, geM_eq, geN_eq]
    simp only [and_assoc]

end Sys2Proof.Machine

/-! SUPPORT. Waiting, suspending and resuming (13 R256 to R258): the members of 0x23 that take no entry, and the suspend record. -/

namespace Sys2Proof.Machine

open Sys2Proof Claims

/-! ## The members (13 R256, R258) -/

section
variable {s u v : State} (hroom : (s.core (coreOf s.cur)).mq.length < 2) (hend : MayEnd false false [] s u) (hclaimed : Claimed u v)
include hroom hend hclaimed

theorem mwait_of_empty (hempty : (v.core (coreOf s.cur)).mq = []) : exec .mwait s = .next (Act.done v).settleT := by
  rw [← hend.cur, ← cur_of_claimed hclaimed] at hempty
  exact matrixOp_of_done hroom hend hclaimed (if_pos hempty)

theorem mwait_of_entries (hentries : (v.core (coreOf s.cur)).mq ≠ []) : exec .mwait s = .next (v.waiting (.array
    (decide ((u.me.smode = false ∧ (u.core (coreOf u.cur)).claim = none) ∨ (u.strand u.cur).wait = .array true)))) := by
  rw [← hend.cur, ← cur_of_claimed hclaimed] at hentries
  exact matrixOp_of_array hroom hend hclaimed (if_neg hentries)

end

section
variable {s u v w : State} {b : BitVec 6} {l : List Nat} (hroom : (s.core (coreOf s.cur)).mq.length < 2)
  (hend : MayEnd false false [.g b] s u) (hclaimed : Claimed u v)
include hroom hend hclaimed

/-- mwait.sus where no transfer is queued and the record's sectors are free. -/
theorem mwaitSus_of_area
    (harea : v.recordArea (u.me.readG b) 256 256 [permST, permSTC] true false = (w, .ok l))
    (hcompute : ∀ x ∈ (w.core (coreOf w.cur)).mq, x.fn < 6) (hfree : w.sectorsHeld (some w.cur) l = none) :
    exec (.mwaitSus b) s = .next (Act.done ((w.placeSectors (some w.cur)
      (l.zipIdx.map fun y => (y.1, recordSector (w.core (coreOf w.cur)).mq y.2))).onCore (coreOf w.cur) fun c =>
        { c with mq := [] })).settleT := by
  rw [← (coresOnly_of_claimed hclaimed).me] at harea
  have hnone : ((w.core (coreOf w.cur)).mq.any fun x => 6 ≤ x.fn) = false := by
    simpa [List.any_eq_false] using hcompute
  have hcur := (placeSectors_same w w.cur (l.zipIdx.map fun y => (y.1, recordSector (w.core (coreOf w.cur)).mq y.2))).cur
  refine matrixOp_of_done hroom hend hclaimed ?_
  simp only [State.suspendArea, if_true, harea, hnone, hfree, Bool.false_eq_true, if_false, hcur]

/-- mwait.res on an empty queue, where no uncommitted chunk has written the record. -/
theorem mwaitRes_of_area {y z : State} {x1 x2 : Option MEntry}
    (harea : v.recordArea (u.me.readG b) 256 256 [permLD, permLDC] false false = (w, .ok l))
    (hempty : (w.core (coreOf w.cur)).mq = []) (hfree : ∀ a ∈ l, w.padWriter (some w.cur) a = none)
    (hfirst : w.readEntry (u.me.readG b) (fun k => (l[k]?.map w.sectorAt).getD .null) 0 = (y, .ok x1))
    (hsecond : y.readEntry (u.me.readG b) (fun k => (l[k]?.map w.sectorAt).getD .null) 1 = (z, .ok x2)) :
    exec (.mwaitRes b) s = .next (Act.done (forAll (x1.toList ++ x2.toList) State.enterMatrix z)).settleT := by
  rw [← (coresOnly_of_claimed hclaimed).me] at harea hfirst hsecond
  have hunwritten : l.findSome? (w.padWriter (some w.cur)) = none := List.findSome?_eq_none_iff.mpr hfree
  refine matrixOp_of_done hroom hend hclaimed ?_
  simp only [State.suspendArea, Bool.false_eq_true, if_false, harea, hempty, ne_eq, not_true_eq_false, hunwritten, hfirst, hsecond]

end

/-! ## The suspend record (13 R257) -/

theorem pairSector_low (lo hi : Word) : (pairSector lo hi).low = lo := by
  rw [Reg.low, pairSector, BitVec.setWidth_append, dif_pos (le_refl 64), BitVec.setWidth_eq]

theorem pairSector_high (lo hi : Word) : (pairSector lo hi).bits.extractLsb' 64 64 = hi := by
  apply BitVec.eq_of_getLsbD_eq
  intro i hi
  rw [pairSector, BitVec.getLsbD_extractLsb', BitVec.getLsbD_append]
  simp [hi]

theorem recordSector_header {l : List MEntry} (h : l.length ≤ 2) : (recordSector l 0).low.toNat = l.length + 256 := by
  rw [recordSector, if_pos rfl, pairSector_low, BitVec.toNat_ofNat]
  omega

section
variable {l : List MEntry} {e : Nat} {x : MEntry} (hx : l[e]? = some x)
include hx

/-- Sectors 4e + 1 to 4e + 3 are those of entry e. -/
theorem recordSector_control : recordSector l (4 * e + 1) = pairSector x.control x.ge := by
  have hentry : (4 * e + 1 - 1) / 4 = e := by omega
  have hpart : (4 * e + 1 - 1) % 4 = 0 := by omega
  simp only [recordSector, if_neg (Nat.succ_ne_zero (4 * e)), hentry, hpart, hx]

theorem recordSector_a : recordSector l (4 * e + 2) = x.a := by
  have hentry : (4 * e + 2 - 1) / 4 = e := by omega
  have hpart : (4 * e + 2 - 1) % 4 = 1 := by omega
  simp only [recordSector, if_neg (Nat.succ_ne_zero (4 * e + 1)), hentry, hpart, hx]

theorem recordSector_b : recordSector l (4 * e + 3) = x.b := by
  have hentry : (4 * e + 3 - 1) / 4 = e := by omega
  have hpart : (4 * e + 3 - 1) % 4 = 2 := by omega
  simp only [recordSector, if_neg (Nat.succ_ne_zero (4 * e + 2)), hentry, hpart, hx]

end

section
variable {x : MEntry} (hfn : x.fn ≤ 5) (hacc : x.acc < 4) (hnext : x.next < 16)
include hfn hacc hnext

theorem control_toNat : x.control.toNat = x.fn + x.acc * 32 + (if x.fn ≤ 4 then x.next else 0) * 128 + 2 ^ 16 := by
  rw [MEntry.control, BitVec.toNat_ofNat]
  split <;> omega

/-- The fields of a control word. -/
theorem control_fields : x.control.getLsbD 16 = true ∧ x.control.toNat % 32 = x.fn ∧ x.control.toNat / 32 % 4 = x.acc ∧
    (x.fn ≤ 4 → x.control.toNat / 128 % 16 = x.next) := by
  have hword := control_toNat hfn hacc hnext
  have hvalid : x.control.toNat / 2 ^ 16 % 2 = 1 := by
    rw [hword]
    split <;> omega
  refine ⟨?_, ?_, ?_, fun h => ?_⟩
  · rw [BitVec.getLsbD, Nat.testBit_eq_decide_div_mod_eq, hvalid]
    rfl
  · rw [hword]
    split <;> omega
  · rw [hword]
    split <;> omega
  · rw [hword, if_pos h]
    omega

end

end Sys2Proof.Machine

/-! SUPPORT. The entry that the array or the transfer path takes (13 R247, R248), and the elements of an accumulator (13 R238). -/

namespace Sys2Proof.Machine

open Sys2Proof Claims

/-! ## A core with another queue -/

/-- A core whose queue is replaced. -/
def State.withQueue (s : State) (cid : Nat) (l : List MEntry) : State := s.onCore cid fun c => { c with mq := l }

section
variable (s : State) (cid : Nat) (l : List MEntry)

theorem core_withQueue (k : Nat) :
    (s.withQueue cid l).core k = { s.core k with mq := if k = cid then l else (s.core k).mq } := by
  by_cases h : k = cid
  · subst h
    rw [State.withQueue, State.core_onCore_self, if_pos rfl]
  · rw [State.withQueue, State.core_onCore_ne s h, if_neg h]

theorem core_withQueue_self : (s.withQueue cid l).core cid = { s.core cid with mq := l } := by rw [core_withQueue, if_pos rfl]

theorem place_withQueue (k a : Nat) : (s.withQueue cid l).place k a = s.place k a := by
  simp only [State.place, State.owner, core_withQueue]

theorem operandLoc_withQueue (k : Nat) (c : Reg) : (s.withQueue cid l).operandLoc k c = s.operandLoc k c := by
  simp only [State.operandLoc, place_withQueue]

theorem startScales_withQueue (k : Nat) (x : MEntry) : (s.withQueue cid l).startScales k (running x) = s.startScales k x := by
  simp only [State.startScales, operandLoc_withQueue]
  rfl

theorem blockBytesOf_withQueue (k : Nat) (x : MEntry) : (s.withQueue cid l).blockBytesOf k (running x) = s.blockBytesOf k x := by
  simp only [State.blockBytesOf, operandLoc_withQueue, startScales_withQueue]
  rfl

theorem blockElement_withQueue (k : Nat) (x : MEntry) (i j : Nat) (old : BitVec 32) :
    blockElement (s.withQueue cid l) k (running x) i j old = blockElement s k x i j old := by
  simp only [blockElement, operandLoc_withQueue]
  rfl

theorem sectorAt_withQueue (loc : Nat) : (s.withQueue cid l).sectorAt loc = s.sectorAt loc := by
  simp only [State.sectorAt, State.runLocs, State.padSize, core_withQueue]
  rfl

end

/-! ## The entry whose turn it is (13 R247, R248) -/

theorem mem_coresOf {k q : Nat} : k ∈ coresOf q ↔ quireOfCore k = q := by
  simp only [coresOf, quireOfCore, List.mem_cons, List.not_mem_nil, or_false]
  omega

/-- A search that gives the same wherever it gives something, and gives something. -/
theorem findSome?_eq_of_mem {α β : Type} {f : α → Option β} {l : List α} {a : α} {r : β} (ha : a ∈ l) (hfa : f a = some r)
    (h : ∀ b ∈ l, f b = none ∨ f b = some r) : l.findSome? f = some r := by
  obtain ⟨y, hy⟩ := Option.isSome_iff_exists.mp (List.findSome?_isSome_iff.mpr ⟨a, ha, Option.isSome_of_eq_some hfa⟩)
  obtain ⟨b, hb, hfb⟩ := List.exists_of_findSome?_eq_some hy
  obtain hnone | hsome := h b hb
  · rw [hnone] at hfb
    cases hfb
  · rw [hy, ← hfb, hsome]

section
variable {s : State} {cid : Nat} {x : MEntry} (h : OnlyEntry s cid x)
include h

theorem readyEntry_of_only {path : Bool} (hpath : decide (6 ≤ x.fn) = path) :
    s.readyEntry cid path [] (s.core cid).mq = ([running x], some 0) := by
  obtain ⟨hmq, -, hready⟩ := h
  have hgo : (x.started || !s.entryLocked cid x) = true := by
    obtain ⟨hstarted, -⟩ | ⟨-, hfree⟩ := hready
    · rw [hstarted, Bool.true_or]
    · rw [hfree, Bool.not_false, Bool.or_true]
  rw [hmq, State.readyEntry]
  simp only [hpath, hgo, List.any_nil, Bool.not_false, Bool.and_true, beq_self_eq_true, if_true, List.length_nil]
  rfl

theorem readyEntry_of_other {k : Nat} (hk : k ∈ coresOf (quireOfCore cid)) (hne : k ≠ cid) (path : Bool) :
    s.readyEntry k path [] (s.core k).mq = ([], none) := by
  rw [h.2.1 k hk hne, State.readyEntry]

theorem markWaiting_of_only {path : Bool} (hpath : decide (6 ≤ x.fn) = path) : s.markWaiting (quireOfCore cid) path = s := by
  refine forAll_id _ _ _ fun k hk => ?_
  by_cases hne : k = cid
  · subst hne
    simp only [readyEntry_of_only h hpath]
  · simp only [readyEntry_of_other h hk hne]
    rw [if_pos (h.2.1 k hk hne).symm]

theorem takeEntry_of_only {path : Bool} (hpath : decide (6 ≤ x.fn) = path) (last : Nat) :
    s.takeEntry (quireOfCore cid) last path = some (cid, [running x], 0) := by
  have hturn : ∃ j ∈ [1, 2, 3, 4], 4 * quireOfCore cid + (last + j) % 4 = cid := by
    have hj : ∃ j, 1 ≤ j ∧ j ≤ 4 ∧ (last + j) % 4 = cid % 4 :=
      ⟨4 - (last + (4 - cid % 4)) % 4, by omega, by omega, by omega⟩
    obtain ⟨j, h1, h4, hmod⟩ := hj
    refine ⟨j, ?_, ?_⟩
    · simp only [List.mem_cons, List.not_mem_nil, or_false]
      omega
    · rw [hmod, quireOfCore]
      omega
  obtain ⟨j, hj, hcid⟩ := hturn
  refine findSome?_eq_of_mem hj ?_ fun i hi => ?_
  · simp only [hcid, readyEntry_of_only h hpath]
  · by_cases hne : 4 * quireOfCore cid + (last + i) % 4 = cid
    · exact Or.inr (by simp only [hne, readyEntry_of_only h hpath])
    · have hk : 4 * quireOfCore cid + (last + i) % 4 ∈ coresOf (quireOfCore cid) := by
        rw [mem_coresOf, quireOfCore]
        omega
      exact Or.inl (by simp only [readyEntry_of_other h hk hne])

/-- The transfer that has begun, or else the one that begins, is the core's entry. -/
theorem transfer_of_only (hfn : 6 ≤ x.fn) (last : Nat) :
    ((coresOf (quireOfCore cid)).findSome? fun k =>
      ((s.core k).mq.findIdx? fun y => 6 ≤ y.fn && y.started).map fun i => (k, (s.core k).mq, i)).or
        (s.takeEntry (quireOfCore cid) last true) = some (cid, [running x], 0) := by
  rw [takeEntry_of_only h (decide_eq_true hfn)]
  obtain ⟨hmq, hothers, hready⟩ := h
  have hother : ∀ k ∈ coresOf (quireOfCore cid), k ≠ cid →
      (((s.core k).mq.findIdx? fun y => 6 ≤ y.fn && y.started).map fun i => (k, (s.core k).mq, i)) = none := by
    intro k hk hne
    rw [hothers k hk hne, List.findIdx?_nil, Option.map_none]
  have hself := mem_coresOf.mpr (rfl : quireOfCore cid = quireOfCore cid)
  obtain ⟨hstarted, hwaiting⟩ | ⟨hstarted, -⟩ := hready
  · have hx : running x = x := by
      cases x
      cases hstarted
      cases hwaiting
      rfl
    have hfound : (((s.core cid).mq.findIdx? fun y => 6 ≤ y.fn && y.started).map fun i => (cid, (s.core cid).mq, i)) =
        some (cid, [x], 0) := by
      simp [hmq, List.findIdx?_cons, hfn, hstarted]
    rw [findSome?_eq_of_mem hself hfound, hx, Option.or_some, Option.getD_some]
    intro k hk
    by_cases hne : k = cid
    · exact Or.inr (hne ▸ hfound)
    · exact Or.inl (hother k hk hne)
  · have hnone : ((coresOf (quireOfCore cid)).findSome? fun k =>
        ((s.core k).mq.findIdx? fun y => 6 ≤ y.fn && y.started).map fun i => (k, (s.core k).mq, i)) = none := by
      rw [List.findSome?_eq_none_iff]
      intro k hk
      by_cases hne : k = cid
      · simp [hne, hmq, List.findIdx?_cons, hstarted]
      · exact hother k hk hne
    rw [hnone, Option.none_or]

end

/-! ## What a fold leaves of a part of its state -/

section
variable {σ α β : Type} {step : σ → α → σ} {read : σ → β} {l : List α}

theorem foldl_read_of_kept (h : ∀ a ∈ l, ∀ st, read (step st a) = read st) (st : σ) : read (l.foldl step st) = read st := by
  induction l generalizing st with
  | nil => rfl
  | cons a l ih =>
    rw [List.foldl_cons, ih (fun b hb => h b (List.mem_cons_of_mem a hb)), h a List.mem_cons_self]

/-- Where one element decides a part of the state and no other touches it. -/
theorem foldl_read_of_mem {a : α} {v : β} (ha : a ∈ l) (hset : ∀ st, read (step st a) = v)
    (hkeep : ∀ b ∈ l, b ≠ a → ∀ st, read (step st b) = read st) (st : σ) : read (l.foldl step st) = v := by
  induction l generalizing st with
  | nil => cases ha
  | cons b l ih =>
    rw [List.foldl_cons]
    by_cases hl : a ∈ l
    · exact ih hl (fun c hc => hkeep c (List.mem_cons_of_mem b hc)) _
    · obtain rfl : a = b := (List.mem_cons.mp ha).resolve_right hl
      rw [foldl_read_of_kept fun c hc => hkeep c (List.mem_cons_of_mem a hc) fun hca => hl (hca ▸ hc)]
      exact hset st

end

/-! ## Elements and flags of an accumulator (13 R238, R240) -/

theorem mapGet_setElem (m : Map (BitVec 32)) (acc i j k : Nat) (x : BitVec 32) :
    mapGet 0 k (setElem acc i j m x) = if k = 4096 * acc + 64 * i + j then x else mapGet 0 k m := by
  unfold setElem
  dsimp only
  by_cases hx : x = 0
  · rw [if_pos hx, mapGet_filter, hx]
  · rw [if_neg hx]
    by_cases hk : k = 4096 * acc + 64 * i + j
    · rw [if_pos hk, hk, mapGet_mapSet_self]
    · rw [if_neg hk, mapGet_mapSet_ne _ _ hk]

/-- Elements of tiles of 64 × 64 lie apart. -/
theorem elemKey_inj {a i j b p q : Nat} (hi : i < 64) (hj : j < 64) (hp : p < 64) (hq : q < 64) :
    4096 * a + 64 * i + j = 4096 * b + 64 * p + q ↔ a = b ∧ i = p ∧ j = q := by omega

theorem accFlags_setFlags (c : Core) (acc : Nat) (f : BitVec 5 → BitVec 5) {k : Nat} (hk : k < 4) :
    (c.setFlags acc f).accFlags[k] = if k = acc then f c.accFlags[k] else c.accFlags[k] := by
  rw [Core.setFlags, Vector.getElem_ofFn]
  rfl

theorem accBits_add (a b : Flags) : (a.add b).accBits = a.accBits ||| b.accBits := by
  have key : ∀ (x y : Nat) (v : BitVec 5), (if x + y = 0 then 0 else v) = (if x = 0 then 0 else v) ||| (if y = 0 then 0 else v) := by
    intro x y v
    by_cases hx : x = 0 <;> by_cases hy : y = 0 <;> simp [hx, hy]
  rw [Flags.add]
  simp only [Flags.accBits, key]
  ac_rfl

end Sys2Proof.Machine

/-! SUPPORT. A turn of the array (13 R237, R241, R243, R245, R248, R253, R254, 11 R211): an mzero, and a block applied to the elements of
its extent. -/

namespace Sys2Proof.Machine

open Sys2Proof Claims

/-! ## mzero (13 R254) -/

/-- A core one of whose accumulators is cleared. -/
def Core.cleared (acc : Nat) (c : Core) : Core :=
  { c with acc := c.acc.filter fun e => e.1 / 4096 != acc }.setFlags acc fun _ => 0

theorem elem_cleared_self (c : Core) {acc i j : Nat} (hi : i < 64) (hj : j < 64) : (c.cleared acc).elem acc i j = 0 := by
  have hkey : (4096 * acc + 64 * i + j) / 4096 = acc := by omega
  exact mapGet_filter_of_false (keep := fun k => k / 4096 != acc) (by simp [hkey]) _

theorem mapGet_filter_of_true {α : Type} {d : α} {k : Nat} {keep : Nat → Bool} (h : keep k = true) (m : Map α) :
    mapGet d k (m.filter fun x => keep x.1) = mapGet d k m := by
  induction m with
  | nil => rfl
  | cons e m ih =>
    obtain ⟨i, x⟩ := e
    rw [List.filter_cons]
    split
    · rw [mapGet, mapGet, ih]
    · next hi =>
      have hne : i ≠ k := by
        rintro rfl
        exact hi h
      rw [ih, mapGet, if_neg hne]

theorem elem_cleared_ne (c : Core) {acc a i j : Nat} (hi : i < 64) (hj : j < 64) (ha : a ≠ acc) :
    (c.cleared acc).elem a i j = c.elem a i j := by
  have hkey : (4096 * a + 64 * i + j) / 4096 = a := by omega
  exact mapGet_filter_of_true (keep := fun k => k / 4096 != acc) (by simp [hkey, ha]) _

theorem accFlags_cleared (c : Core) {acc : Nat} (hacc : acc < 4) : (c.cleared acc).accFlags[acc]? = some 0 := by
  rw [Vector.getElem?_eq_getElem hacc, Core.cleared, accFlags_setFlags _ _ _ hacc, if_pos rfl]

/-! ## A block (13 R241, R243, R253) -/

theorem rowStride_eq (fn kb : Nat) : rowStride fn kb = blockBytes fn * kb := by
  unfold rowStride blockBytes
  congr 1
  match fn with
  | 0 | 1 | 2 => rfl
  | n + 3 => rfl

/-- A block applied to one element of an accumulator and to the flags so far. -/
def applyElem (acc : Nat) (f : Nat × Nat → BitVec 32 × Flags) (st : Map (BitVec 32) × Flags) (p : Nat × Nat) :
    Map (BitVec 32) × Flags :=
  (setElem acc p.1 p.2 st.1 (f p).1, st.2.add (f p).2)

/-- The elements in an extent. -/
def extent (m n : Nat) : List (Nat × Nat) := (List.range m).flatMap fun i => (List.range n).map fun j => (i, j)

theorem mem_extent {m n : Nat} {p : Nat × Nat} : p ∈ extent m n ↔ p.1 < m ∧ p.2 < n := by
  obtain ⟨i, j⟩ := p
  simp [extent]

/-- The elements and the flags of an accumulator after a block on its extent. -/
def applyBlock (acc m n : Nat) (f : Nat × Nat → BitVec 32 × Flags) (e : Map (BitVec 32)) : Map (BitVec 32) × Flags :=
  (extent m n).foldl (applyElem acc f) (e, Flags.none)

/-- A core after a block that gives each element of an extent what `f` says. -/
def Core.applied (acc m n : Nat) (f : Nat × Nat → BitVec 32 × Flags) (c : Core) : Core :=
  { c with acc := (applyBlock acc m n f c.acc).1 }.setFlags acc (· ||| (applyBlock acc m n f c.acc).2.accBits)

section
variable {acc m n : Nat} {f : Nat × Nat → BitVec 32 × Flags} {c : Core} (hm : m ≤ 64) (hn : n ≤ 64)
include hm hn

theorem elem_applied_of_mem {i j : Nat} (hi : i < m) (hj : j < n) : (c.applied acc m n f).elem acc i j = (f (i, j)).1 := by
  refine foldl_read_of_mem (read := fun st : Map (BitVec 32) × Flags => mapGet 0 (4096 * acc + 64 * i + j) st.1)
    (mem_extent.mpr (show (i, j).1 < m ∧ (i, j).2 < n from ⟨hi, hj⟩)) (fun st => ?_) (fun p hp hne st => ?_) _
  · rw [applyElem, mapGet_setElem, if_pos rfl]
  · obtain ⟨hp1, hp2⟩ := mem_extent.mp hp
    rw [applyElem, mapGet_setElem, if_neg]
    rw [elemKey_inj (by omega) (by omega) (by omega) (by omega)]
    rintro ⟨-, rfl, rfl⟩
    exact hne rfl

theorem elem_applied_of_not_mem {a i j : Nat} (hi : i < 64) (hj : j < 64) (hout : a ≠ acc ∨ m ≤ i ∨ n ≤ j) :
    (c.applied acc m n f).elem a i j = c.elem a i j := by
  refine foldl_read_of_kept (read := fun st : Map (BitVec 32) × Flags => mapGet 0 (4096 * a + 64 * i + j) st.1)
    (fun p hp st => ?_) _
  obtain ⟨hp1, hp2⟩ := mem_extent.mp hp
  rw [applyElem, mapGet_setElem, if_neg]
  rw [elemKey_inj (by omega) (by omega) (by omega) (by omega)]
  rintro ⟨rfl, rfl, rfl⟩
  omega

end

section
variable {acc m n : Nat} {f : Nat × Nat → BitVec 32 × Flags} {c : Core}

theorem accBits_foldl_applyElem (l : List (Nat × Nat)) (st : Map (BitVec 32) × Flags) (k : Nat) :
    (l.foldl (applyElem acc f) st).2.accBits.getLsbD k =
      (st.2.accBits.getLsbD k || l.any fun p => (f p).2.accBits.getLsbD k) := by
  induction l generalizing st with
  | nil => simp
  | cons p l ih =>
    rw [List.foldl_cons, ih, applyElem, accBits_add, BitVec.getLsbD_or, List.any_cons, Bool.or_assoc]

theorem accFlags_applied_ne {a : Nat} (h : a < 4) (hne : a ≠ acc) : (c.applied acc m n f).accFlags[a] = c.accFlags[a] := by
  rw [Core.applied, accFlags_setFlags _ _ _ h, if_neg hne]

/-- The accumulator's flags are those before and those that some element raises (13 R240). -/
theorem accFlags_applied_self (h : acc < 4) (k : Nat) : (c.applied acc m n f).accFlags[acc].getLsbD k =
    (c.accFlags[acc].getLsbD k || (List.range m).any fun i => (List.range n).any fun j => (f (i, j)).2.accBits.getLsbD k) := by
  have hnone : Flags.none.accBits.getLsbD k = false := by
    rw [show Flags.none.accBits = 0 from rfl]
    exact BitVec.getLsbD_zero
  rw [Core.applied, accFlags_setFlags _ _ _ h, if_pos rfl, BitVec.getLsbD_or, applyBlock, accBits_foldl_applyElem, hnone,
    Bool.false_or, extent, List.any_flatMap]
  simp only [List.any_map]
  rfl

end

/-- What the array does to a core with a block (13 R253). -/
theorem runBlock_eq (s : State) (cid : Nat) (x : MEntry) : s.runBlock cid x = s.onCore cid (Core.applied x.acc (geM x.ge) (geN x.ge)
    fun p => blockElement s cid x p.1 p.2 ((s.core cid).elem x.acc p.1 p.2)) := by
  rw [State.runBlock, State.onCore, Core.applied, applyBlock, extent, List.foldl_flatMap]
  simp only [List.foldl_map, blockElement, rowStride_eq, Nat.mul_one, ← geKb_eq, ← geKl_eq, -Nat.reducePow]
  rfl

/-! ## mma.i8 (11 R211) -/

/-- The sum of products of rows whose terms are all numbers. -/
theorem dotSum_map_some (u : Int) (f g : Nat → Num) (l : List Nat) :
    dotSum u (l.map fun t => some (f t)) (l.map fun t => some (g t)) = (l.map fun t => (f t).units u * (g t).units u).sum := by
  induction l with
  | nil => rfl
  | cons t l ih => rw [List.map_cons, List.map_cons, dotSum, ih, List.map_cons, List.sum_cons]

theorem byteDot_eq_sum (m : List Host.Cell) (a b k : Nat) : byteDot m a b k = ((List.range k).map fun t =>
    (BitVec.ofNat 8 (readNat m (a + t) 1)).toInt * (BitVec.ofNat 8 (readNat m (b + t) 1)).toInt).sum := by
  induction k with
  | zero => rfl
  | succ k ih => rw [byteDot, ih, List.range_succ, List.map_append, List.sum_append, List.map_singleton, List.sum_singleton]

/-- A signed byte as an element of INT8. -/
def int8Num (raw : Nat) : Num := .fin (decide (128 ≤ raw)) (if 128 ≤ raw then 256 - raw else raw) 0

theorem int8Num_units {raw : Nat} (h : raw < 256) : (int8Num raw).units 0 = (BitVec.ofNat 8 raw).toInt := by
  have hint : (BitVec.ofNat 8 raw).toInt = if 2 * raw < 256 then (raw : Int) else raw - 256 := by
    rw [BitVec.toInt_eq_toNat_cond, BitVec.toNat_ofNat, Nat.mod_eq_of_lt h]
    rfl
  rw [hint, int8Num, Num.units, signedOf]
  by_cases hneg : 128 ≤ raw
  · simp [hneg, Int.ofNat_sub h.le]
    omega
  · simp [hneg]
    omega

theorem rowTerms_int8 (m : List Host.Cell) (loc k : Nat) :
    rowTerms 2 m loc k = (List.range k).map fun t => some (int8Num (readNat m (loc + t) 1)) := rfl

theorem readNat_one_lt (m : List Host.Cell) (a : Nat) : readNat m a 1 < 256 := (readByte m a).isLt

theorem dotSum_int8 (m : List Host.Cell) (a b k : Nat) : dotSum 0 (rowTerms 2 m a k) (rowTerms 2 m b k) = byteDot m a b k := by
  rw [rowTerms_int8, rowTerms_int8, dotSum_map_some, byteDot_eq_sum]
  simp only [int8Num_units (readNat_one_lt m _)]

theorem blockElement_int8 {s : State} {cid : Nat} {x : MEntry} (hfn : x.fn = 2) (i j : Nat) (old : BitVec 32) {kb k : Nat}
    (hkb : kb = x.ge.toNat / 2 ^ 14 % 32) (hk : k = if x.next + 1 < kb then 256 else x.ge.toNat / 2 ^ 19 % 512) :
    (blockElement s cid x i j old).1 = BitVec.ofInt 32 (old.toInt + byteDot s.mem
      (s.operandLoc cid x.a + (i * kb + x.next) * 256) (s.operandLoc cid x.b + (j * kb + x.next) * 256) k) := by
  have hrow (loc r : Nat) : loc + r * rowStride 2 kb + x.next * rowStride 2 1 = loc + (r * kb + x.next) * 256 := by
    simp only [rowStride]
    ring
  simp only [blockElement, hfn, ← hkb, ← hk, hrow, blockI, dotSum_int8, BitVec.ofInt_add, BitVec.ofInt_toInt, -Nat.reducePow]

/-! ## The turn (13 R245, R248) -/

/-- The next entry of a queue of one, or none when the entry is complete. -/
theorem core_putEntry_self (s : State) (cid : Nat) {x y : MEntry} {b : Bool} (h : (s.core cid).mq = [y]) :
    (s.putEntry cid 0 x b).core cid = { s.core cid with mq := if b then [] else [x] } := by
  rw [State.putEntry, State.core_onCore_self, h]
  rfl

/-- The array served a core of the quire. -/
def Quire.arrayServed (cid : Nat) (q : Quire) : Quire := { q with lastArr := cid % 4 }

/-- What the array does with the one entry of a core whose turn it is. -/
def State.arrayTurn (v : State) (cid : Nat) (x : MEntry) : State :=
  if x.fn = 5 then ((v.onCore cid (Core.cleared x.acc)).putEntry cid 0 x true).onQuire (quireOfCore cid) (Quire.arrayServed cid)
  else if (v.blockBytesOf cid x).any fun b => (v.padWriter none b).isSome then v
  else ((v.runBlock cid x).putEntry cid 0
    { x with next := x.next + 1, scales := x.scales ++ (v.startScales cid x).map fun b => (b, readByte v.mem b) }
    (decide (geKb x.ge ≤ x.next + 1))).onQuire (quireOfCore cid) (Quire.arrayServed cid)

section
variable {s : State} {cid : Nat} {x : MEntry} (hq : s.argN 0 = quireOfCore cid) (h : OnlyEntry s cid x)
include hq h

theorem matrixBlock_eq (hfn : x.fn ≤ 5) :
    exec .matrixBlock s = .next ((s.withQueue cid [running x]).arrayTurn cid (running x)) := by
  have hpath : decide (6 ≤ x.fn) = false := decide_eq_false (by omega)
  show execMatrixBlock s = _
  simp only [execMatrixBlock, hq, markWaiting_of_only h hpath, takeEntry_of_only h hpath]
  rw [List.getElem?_cons_zero, State.arrayTurn, apply_ite Host.Outcome.next, apply_ite Host.Outcome.next]
  rfl

theorem matrixBlock_clears (hfn : x.fn = 5) (hacc : x.acc < 4) : ∃ t, exec .matrixBlock s = .next t ∧ (t.core cid).mq = [] ∧
    (∀ i j, i < 64 → j < 64 → (t.core cid).elem x.acc i j = 0) ∧ (t.core cid).accFlags[x.acc]? = some 0 ∧
    (∀ a i j, a < 4 → i < 64 → j < 64 → a ≠ x.acc → (t.core cid).elem a i j = (s.core cid).elem a i j) ∧ t.mem = s.mem := by
  refine ⟨_, matrixBlock_eq hq h hfn.le, ?_⟩
  have hfive : (running x).fn = 5 := hfn
  have hcore : ((s.withQueue cid [running x]).arrayTurn cid (running x)).core cid =
      { Core.cleared x.acc { s.core cid with mq := [running x] } with mq := [] } := by
    rw [State.arrayTurn, if_pos hfive, State.core_onQuire, State.putEntry, State.core_onCore_self, State.core_onCore_self,
      core_withQueue_self]
    rfl
  rw [hcore]
  refine ⟨rfl, fun i j hi hj => elem_cleared_self _ hi hj, accFlags_cleared _ hacc,
    fun a i j _ hi hj ha => elem_cleared_ne _ hi hj ha, ?_⟩
  rw [State.arrayTurn, if_pos hfive]
  rfl

/-- A block whose bytes an uncommitted chunk has written waits (13 R245). -/
theorem matrixBlock_waits (hfn : x.fn ≤ 4) (hheld : ∃ b ∈ s.blockBytesOf cid x, s.padWriter none b ≠ none) :
    exec .matrixBlock s = .next (s.withQueue cid [running x]) := by
  have hne : ¬ (running x).fn = 5 := fun hfive => absurd hfive (Nat.ne_of_lt (Nat.lt_succ_of_le hfn))
  have hany : ((s.withQueue cid [running x]).blockBytesOf cid (running x)).any
      (fun b => ((s.withQueue cid [running x]).padWriter none b).isSome) = true := by
    obtain ⟨b, hb, hsome⟩ := hheld
    rw [blockBytesOf_withQueue, List.any_eq_true]
    exact ⟨b, hb, Option.isSome_iff_ne_none.mpr hsome⟩
  rw [matrixBlock_eq hq h (by omega), State.arrayTurn, if_neg hne, if_pos hany]

/-- The core after a block that runs: its accumulator, and its queue. -/
theorem matrixBlock_runs (hfn : x.fn ≤ 4) (hfree : ∀ b ∈ s.blockBytesOf cid x, s.padWriter none b = none) :
    ∃ t, exec .matrixBlock s = .next t ∧ t.core cid =
      { Core.applied x.acc (x.ge.toNat % 128) (x.ge.toNat / 2 ^ 7 % 128)
          (fun p => blockElement s cid x p.1 p.2 ((s.core cid).elem x.acc p.1 p.2)) (s.core cid) with
        mq := if x.ge.toNat / 2 ^ 14 % 32 ≤ x.next + 1 then [] else
          [{ running x with
             next := x.next + 1, scales := x.scales ++ (s.startScales cid x).map fun b => (b, readByte s.mem b) }] } ∧
      t.mem = s.mem ∧ t.tags = s.tags ∧ t.strands = s.strands := by
  refine ⟨_, matrixBlock_eq hq h (by omega), ?_⟩
  have hne : ¬ (running x).fn = 5 := fun hfive => absurd hfive (Nat.ne_of_lt (Nat.lt_succ_of_le hfn))
  have hnone : ¬ ((s.withQueue cid [running x]).blockBytesOf cid (running x)).any
      (fun b => ((s.withQueue cid [running x]).padWriter none b).isSome) = true := by
    rw [blockBytesOf_withQueue, List.any_eq_true]
    rintro ⟨b, hb, hsome⟩
    exact absurd (hfree b hb) (Option.isSome_iff_ne_none.mp hsome)
  rw [State.arrayTurn, if_neg hne, if_neg hnone, runBlock_eq]
  refine ⟨?_, rfl, rfl, rfl⟩
  rw [State.core_onQuire, core_putEntry_self (y := running x), State.core_onCore_self, core_withQueue_self, startScales_withQueue]
  · simp only [blockElement_withQueue, geM_eq, geN_eq, geKb_eq, decide_eq_true_eq, -Nat.reducePow]
    rfl
  · rw [State.core_onCore_self, core_withQueue_self]
    rfl

end

end Sys2Proof.Machine

/-! SUPPORT. A turn of the transfer path (13 R248, R250, R251, R255): one sector of an accumulator's image. -/

namespace Sys2Proof.Machine

open Sys2Proof Claims

/-! ## The sectors of an image (13 R255) -/

/-- A word of an accumulator's image: an element, row by row; the flags; or zero. -/
def imageWord (c : Core) (acc : Nat) (e : Word) (q : Nat) : BitVec 32 :=
  if q < geM e * geN e then c.elem acc (q / geN e) (q % geN e)
  else if q = geM e * geN e then (c.accFlags.toList.getD acc 0).setWidth 32 else 0

/-- Four words side by side, taken apart. -/
theorem extractLsb'_ofNat_words (w : Nat → BitVec 32) {j : Nat} (hj : j < 4) : (BitVec.ofNat 128 ((w 0).toNat +
    2 ^ 32 * (w 1).toNat + 2 ^ 64 * (w 2).toNat + 2 ^ 96 * (w 3).toNat)).extractLsb' (32 * j) 32 = w j := by
  have h0 := (w 0).isLt
  have h1 := (w 1).isLt
  have h2 := (w 2).isLt
  have h3 := (w 3).isLt
  apply BitVec.eq_of_toNat_eq
  rw [BitVec.extractLsb'_toNat, BitVec.toNat_ofNat, Nat.shiftRight_eq_div_pow]
  match j, hj with
  | 0, _ | 1, _ | 2, _ | 3, _ => omega

theorem imageSector_eq (c : Core) (acc : Nat) (e : Word) (k : Nat) : imageSector c acc e k = BitVec.ofNat 128
    ((imageWord c acc e (4 * k)).toNat + 2 ^ 32 * (imageWord c acc e (4 * k + 1)).toNat +
      2 ^ 64 * (imageWord c acc e (4 * k + 2)).toNat + 2 ^ 96 * (imageWord c acc e (4 * k + 3)).toNat) := by
  have hword (q : Nat) : (imageWord c acc e q).toNat = if q < geM e * geN e then (c.elem acc (q / geN e) (q % geN e)).toNat
      else if q = geM e * geN e then (c.accFlags.toList.getD acc 0).toNat else 0 := by
    have hflags : ((c.accFlags.toList.getD acc 0).setWidth 32).toNat = (c.accFlags.toList.getD acc 0).toNat :=
      BitVec.toNat_setWidth_of_le (by decide)
    rw [imageWord]
    split
    · rfl
    · split
      · exact hflags
      · rfl
  simp only [imageSector, hword]

theorem imageSector_word (c : Core) (acc : Nat) (e : Word) (k : Nat) {j : Nat} (hj : j < 4) :
    (imageSector c acc e k).extractLsb' (32 * j) 32 = imageWord c acc e (4 * k + j) := by
  rw [imageSector_eq]
  exact extractLsb'_ofNat_words (fun i => imageWord c acc e (4 * k + i)) hj

/-- A core after word `q` of an accumulator's image has been read. -/
def Core.loadWord (acc : Nat) (e : Word) (q : Nat) (w : BitVec 32) (c : Core) : Core :=
  if q < geM e * geN e then { c with acc := setElem acc (q / geN e) (q % geN e) c.acc w }
  else if q = geM e * geN e then c.setFlags acc fun _ => w.setWidth 5 else c

theorem loadSector_eq (c : Core) (acc : Nat) (e : Word) (k : Nat) (x : BitVec 128) : loadSector c acc e k x =
    (List.range 4).foldl (fun c j => c.loadWord acc e (4 * k + j) (x.extractLsb' (32 * j) 32)) c := rfl

section
variable {acc : Nat} {e : Word} {q : Nat} {w : BitVec 32} {c : Core}

theorem loadWord_of_elem (h : q < geM e * geN e) :
    c.loadWord acc e q w = { c with acc := setElem acc (q / geN e) (q % geN e) c.acc w } := if_pos h

theorem loadWord_of_flags (h : q = geM e * geN e) : c.loadWord acc e q w = c.setFlags acc fun _ => w.setWidth 5 := by
  rw [Core.loadWord, if_neg (by omega), if_pos h]

theorem loadWord_of_rest (h : geM e * geN e < q) : c.loadWord acc e q w = c := by
  rw [Core.loadWord, if_neg (by omega), if_neg (by omega)]

/-- A word of the image is an element of the extent. -/
theorem image_row_col (h : q < geM e * geN e) : q / geN e < geM e ∧ q % geN e < geN e := by
  have hn : 0 < geN e := Nat.pos_of_ne_zero fun h0 => by
    rw [h0, Nat.mul_zero] at h
    exact absurd h (Nat.not_lt_zero q)
  exact ⟨Nat.div_lt_of_lt_mul (Nat.mul_comm _ _ ▸ h), Nat.mod_lt q hn⟩

theorem elem_loadWord_self (h : q < geM e * geN e) : (c.loadWord acc e q w).elem acc (q / geN e) (q % geN e) = w := by
  rw [loadWord_of_elem h, Core.elem, mapGet_setElem, if_pos rfl]

variable (hm : geM e ≤ 64) (hn : geN e ≤ 64)
include hm hn

theorem elem_loadWord_ne {a i j : Nat} (hi : i < 64) (hj : j < 64)
    (hne : q < geM e * geN e → ¬ (a = acc ∧ i = q / geN e ∧ j = q % geN e)) : (c.loadWord acc e q w).elem a i j = c.elem a i j := by
  obtain hlt | heq | hgt := Nat.lt_trichotomy q (geM e * geN e)
  · obtain ⟨hrow, hcol⟩ := image_row_col hlt
    rw [loadWord_of_elem hlt, Core.elem, mapGet_setElem, if_neg]
    · rfl
    · rw [elemKey_inj hi hj (by omega) (by omega)]
      exact hne hlt
  · rw [loadWord_of_flags heq]
    rfl
  · rw [loadWord_of_rest hgt]

end

section
variable {c : Core} {acc : Nat} {e : Word} {k : Nat} {x : BitVec 128}

theorem loadSector_mq : (loadSector c acc e k x).mq = c.mq := by
  rw [loadSector_eq]
  refine foldl_read_of_kept (read := Core.mq) (fun j _ st => ?_) c
  rw [Core.loadWord]
  split
  · rfl
  · split <;> rfl

/-- The word after the last element gives the flags. -/
theorem loadSector_flags (hacc : acc < 4) {j : Nat} (hj : j < 4) (hlast : 4 * k + j = geM e * geN e) :
    (loadSector c acc e k x).accFlags[acc]? = some ((x.extractLsb' (32 * j) 32).setWidth 5) := by
  rw [loadSector_eq, Vector.getElem?_eq_getElem hacc, Option.some.injEq]
  refine foldl_read_of_mem (read := fun c : Core => c.accFlags[acc]) (List.mem_range.mpr hj) (fun st => ?_) (fun i _ hne st => ?_) c
  · rw [loadWord_of_flags hlast, accFlags_setFlags _ _ _ hacc, if_pos rfl]
  · obtain hlt | hgt : 4 * k + i < geM e * geN e ∨ geM e * geN e < 4 * k + i := by omega
    · rw [loadWord_of_elem hlt]
    · rw [loadWord_of_rest hgt]

variable (hm : geM e ≤ 64) (hn : geN e ≤ 64)
include hm hn

theorem elem_loadSector_of_mem {j : Nat} (hj : j < 4) (hq : 4 * k + j < geM e * geN e) :
    (loadSector c acc e k x).elem acc ((4 * k + j) / geN e) ((4 * k + j) % geN e) = x.extractLsb' (32 * j) 32 := by
  obtain ⟨hrow, hcol⟩ := image_row_col hq
  rw [loadSector_eq]
  refine foldl_read_of_mem (read := fun c : Core => c.elem acc ((4 * k + j) / geN e) ((4 * k + j) % geN e))
    (List.mem_range.mpr hj) (fun st => elem_loadWord_self hq)
    (fun i _ hne st => elem_loadWord_ne hm hn (by omega) (by omega) fun _ hsame => hne ?_) c
  obtain ⟨-, hdiv, hmod⟩ := hsame
  have hsplit := Nat.div_add_mod (4 * k + j) (geN e)
  rw [hdiv, hmod, Nat.div_add_mod] at hsplit
  omega

theorem elem_loadSector_of_not_mem {a i j : Nat} (hi : i < 64) (hj : j < 64)
    (hout : a ≠ acc ∨ geM e ≤ i ∨ geN e ≤ j ∨ i * geN e + j < 4 * k ∨ 4 * k + 4 ≤ i * geN e + j) :
    (loadSector c acc e k x).elem a i j = c.elem a i j := by
  rw [loadSector_eq]
  refine foldl_read_of_kept (read := fun c : Core => c.elem a i j) (fun p hp st => elem_loadWord_ne hm hn hi hj fun hlt hsame => ?_) c
  obtain ⟨rfl, hdiv, hmod⟩ := hsame
  have hp4 := List.mem_range.mp hp
  obtain ⟨hrow, hcol⟩ := image_row_col hlt
  have hsplit := Nat.div_add_mod' (4 * k + p) (geN e)
  rw [← hdiv, ← hmod] at hsplit
  rw [← hdiv] at hrow
  rw [← hmod] at hcol
  omega

end

/-! ## The turn (13 R248, R250, R251) -/

/-- The transfer path served a core of the quire. -/
def State.transferring (s : State) (cid : Nat) (x : MEntry) : State :=
  (s.withQueue cid [running x]).onQuire (quireOfCore cid) fun q => { q with lastXfer := cid % 4 }

/-- An entry whose next sector has been moved. -/
def State.sectorMoved (s : State) (cid : Nat) (x : MEntry) : State :=
  s.putEntry cid 0 { x with next := x.next + 1 } (decide (x.sectors ≤ x.next + 1))

/-- What the transfer path does with the sector whose turn it is. -/
def State.transferTurn (v : State) (cid : Nat) (x : MEntry) (loc : Nat) : State :=
  if v.transferHeld x loc then v
  else if !v.reachable (dieOfCore cid) loc then (v.lostAccess x.sid loc).sectorMoved cid x
  else if x.fn = 6 then
    if (v.padWriter none loc).isSome then v
    else (v.onCore cid fun c => loadSector c x.acc x.ge x.next (v.sectorAt loc).bits).sectorMoved cid x
  else if (v.sectorsHeld none [loc]).isSome then v
  else ((v.writeSector (v.real loc) (imageSector (v.core cid) x.acc x.ge x.next) (x.sectorBits x.next) false).squashHome
    (v.real loc) [lineOf (v.real loc)] none).sectorMoved cid x

section
variable {s : State} {cid loc : Nat} {x : MEntry} (hq : s.argN 0 = quireOfCore cid) (h : OnlyEntry s cid x) (hfn : 6 ≤ x.fn)
  (hloc : x.locs[x.next]? = some loc)
include hq h hfn hloc

theorem accTransfer_eq_turn : exec .accTransfer s = .next ((s.transferring cid x).transferTurn cid (running x) loc) := by
  have hloc' : (running x).locs[(running x).next]? = some loc := hloc
  show execAccTransfer s = _
  simp only [execAccTransfer, hq, markWaiting_of_only h (decide_eq_true hfn), transfer_of_only h hfn]
  rw [List.getElem?_cons_zero]
  simp only [hloc']
  rw [← State.withQueue, ← State.transferring]
  simp only [State.transferTurn, apply_ite Host.Outcome.next]
  cases (s.transferring cid x).sectorsHeld none [loc] <;> rfl

/-- A sector waits behind an access of its strand that came before it to its line (13 R250). -/
theorem accTransfer_waits (hheld : s.transferHeld x loc = true) : exec .accTransfer s = .next (s.transferring cid x) := by
  have hheld' : (s.transferring cid x).transferHeld (running x) loc = true := hheld
  rw [accTransfer_eq_turn hq h hfn hloc, State.transferTurn, if_pos hheld']

section
variable (hfree : s.transferHeld x loc = false) (hreach : s.reachable (dieOfCore cid) loc = true)
include hfree hreach

theorem accTransfer_of_reachable : exec .accTransfer s = .next (
    if x.fn = 6 then
      if (s.padWriter none loc).isSome then s.transferring cid x
      else ((s.transferring cid x).onCore cid fun c => loadSector c x.acc x.ge x.next (s.sectorAt loc).bits).sectorMoved cid (running x)
    else if (s.sectorsHeld none [loc]).isSome then s.transferring cid x
    else (((s.transferring cid x).writeSector (s.real loc) (imageSector (s.core cid) x.acc x.ge x.next)
      (x.sectorBits x.next) false).squashHome (s.real loc) [lineOf (s.real loc)] none).sectorMoved cid (running x)) := by
  have hfree' : (s.transferring cid x).transferHeld (running x) loc = false := hfree
  have hreach' : (s.transferring cid x).reachable (dieOfCore cid) loc = true := hreach
  have hsector : (s.transferring cid x).sectorAt loc = s.sectorAt loc := sectorAt_withQueue s cid [running x] loc
  have himage : imageSector ((s.transferring cid x).core cid) x.acc x.ge x.next = imageSector (s.core cid) x.acc x.ge x.next := by
    rw [State.transferring, State.core_onQuire, core_withQueue_self]
    rfl
  rw [accTransfer_eq_turn hq h hfn hloc, State.transferTurn, if_neg (by simp [hfree']), if_neg (by simp [hreach'])]
  rw [← hsector, ← himage]
  rfl

/-- A sector of mld gives the core its words (13 R255). -/
theorem accTransfer_loads (hmld : x.fn = 6) (hwritten : s.padWriter none loc = none) : ∃ t, exec .accTransfer s = .next t ∧
    t.core cid = { loadSector { s.core cid with mq := [running x] } x.acc x.ge x.next (s.sectorAt loc).bits with
      mq := if x.sectors ≤ x.next + 1 then [] else [{ running x with next := x.next + 1 }] } ∧
    t.mem = s.mem ∧ t.strands = s.strands := by
  refine ⟨_, accTransfer_of_reachable hq h hfn hloc hfree hreach, ?_⟩
  rw [if_pos hmld, if_neg (by simp [hwritten])]
  refine ⟨?_, rfl, rfl⟩
  have hcore : ((s.transferring cid x).onCore cid fun c => loadSector c x.acc x.ge x.next (s.sectorAt loc).bits).core cid =
      loadSector { s.core cid with mq := [running x] } x.acc x.ge x.next (s.sectorAt loc).bits := by
    rw [State.core_onCore_self, State.transferring, State.core_onQuire, core_withQueue_self]
  rw [State.sectorMoved, core_putEntry_self (y := running x), hcore]
  · simp only [decide_eq_true_eq]
    rfl
  · rw [hcore, loadSector_mq]

/-- A sector of mst is written, and its readers are squashed (13 R251, R255). -/
theorem accTransfer_stores (hmst : x.fn = 7) (hunheld : s.sectorsHeld none [loc] = none) : exec .accTransfer s = .next
    ((((s.transferring cid x).writeSector (s.real loc) (imageSector (s.core cid) x.acc x.ge x.next) (x.sectorBits x.next)
      false).squashHome (s.real loc) [lineOf (s.real loc)] none).sectorMoved cid (running x)) := by
  rw [accTransfer_of_reachable hq h hfn hloc hfree hreach, if_neg (by omega), if_neg (by simp [hunheld])]

end

end

/-- Settles O29: the turns of the array, the members that take no entry, the suspend record, and the turns of the transfer path. -/
theorem matrixBlocksAndTransfersRun : Obligations.MatrixBlocksAndTransfersRun := by
  unfold Obligations.MatrixBlocksAndTransfersRun
  refine ⟨fun s cid x hq h => ⟨fun hfn hacc => matrixBlock_clears hq h hfn hacc, fun hfn hheld => matrixBlock_waits hq h hfn hheld,
    ?block⟩, ?full, ?mwait, ?suspend, ?record, ?transfer⟩
  case block =>
    intro hfn hacc hm hn hfree
    obtain ⟨t, ht, hcore, hmem, htags, hstrands⟩ := matrixBlock_runs hq h hfn hfree
    have helem : ∀ i j, i < x.ge.toNat % 128 → j < x.ge.toNat / 2 ^ 7 % 128 →
        (t.core cid).elem x.acc i j = (blockElement s cid x i j ((s.core cid).elem x.acc i j)).1 := fun i j hi hj => by
      rw [hcore]
      exact elem_applied_of_mem hm hn hi hj
    refine ⟨t, ht, helem, fun a i j _ hi hj hout => ?_, fun a ha hne => ?_, fun h4 k => ?_, ?_, hmem, htags, hstrands,
      fun htwo i j k kb hkb hk hi hj => ?_⟩
    · rw [hcore]
      exact elem_applied_of_not_mem hm hn hi hj hout
    · rw [hcore]
      exact accFlags_applied_ne ha hne
    · rw [hcore]
      exact accFlags_applied_self h4 k
    · rw [hcore]
    · rw [helem i j hi hj, blockElement_int8 htwo i j _ hkb hk]
  case full =>
    rintro s i b (rfl | rfl | rfl) hfull <;> exact matrixOp_of_full hfull
  case mwait =>
    exact fun s u v hroom hend hclaimed => ⟨mwait_of_empty hroom hend hclaimed, mwait_of_entries hroom hend hclaimed⟩
  case suspend =>
    refine fun s u v w b l hroom hend hclaimed => ⟨mwaitSus_of_area hroom hend hclaimed, ?_⟩
    rintro harea hempty hfree img y z x1 x2 rfl hfirst hsecond
    exact mwaitRes_of_area hroom hend hclaimed harea hempty hfree hfirst hsecond
  case record =>
    intro l e x hlen hx hfn hacc hnext
    rw [recordSector_control hx, pairSector_low, pairSector_high]
    obtain ⟨hvalid, hop, hnumber, hblock⟩ := control_fields hfn hacc hnext
    exact ⟨recordSector_header hlen, hvalid, hop, hnumber, hblock, rfl, recordSector_a hx, recordSector_b hx⟩
  case transfer =>
    rintro s cid k m n loc x hq h hfn hacc hmx hnx hm hn rfl hloc v w rfl
    rw [← geM_eq] at hmx
    rw [← geN_eq] at hnx
    subst hmx hnx
    refine ⟨accTransfer_waits hq h hfn hloc, fun hmld hfree hreach hwritten => ?_, fun hmst hfree hreach hunheld hw => ⟨?_, ?_⟩⟩
    · obtain ⟨t, ht, hcore, hmem, hstrands⟩ := accTransfer_loads hq h hfn hloc hfree hreach hmld hwritten
      refine ⟨t, ht, fun j hj hlt => ?_, fun a i j _ hi hj hout => ?_, fun j hj hlast => ?_, ?_, hmem, hstrands⟩
      · rw [hcore]
        exact elem_loadSector_of_mem hm hn hj hlt
      · rw [hcore]
        exact elem_loadSector_of_not_mem hm hn hi hj hout
      · rw [hcore]
        exact loadSector_flags hacc hj hlast
      · rw [hcore]
        rfl
    · rw [accTransfer_stores hq h hfn hloc hfree hreach hmst hunheld, hw]
      simp only [State.sectorMoved, State.putEntry, decide_eq_true_eq]
      rfl
    · intro j hj
      exact imageSector_word _ _ _ _ hj

end Sys2Proof.Machine

/-! SUPPORT. The state right after reset. -/

namespace Sys2Proof.Machine

open Sys2Proof Sys2Proof.Claims

theorem readG_reset (n : BitVec 6) : Arch.reset.readG n = .null := by
  simp [Arch.readG, Arch.reset]

/-- Settles O57: each clause is a computation. -/
theorem resetHoldsNothing : Obligations.ResetHoldsNothing := by
  unfold Obligations.ResetHoldsNothing
  refine ⟨⟨rfl, rfl⟩, rfl, rfl, fun _ => rfl, fun _ => rfl, fun sid => ⟨rfl, rfl, readG_reset⟩, ?_⟩
  rintro i (rfl | rfl | rfl | rfl | rfl) <;> rfl

end Sys2Proof.Machine

/-! SUPPORT. What keeps memory and tags in canonical form: the state operations that all instructions and events share. Each lemma
`State.Sound.f` says that `f` keeps it. -/

namespace Sys2Proof.Machine

open Sys2Proof Sys2Proof.Claims

/-! ## Results that hold a sound state -/

/-- The state that an instruction's own part leaves is sound. -/
def Act.Sound : Act → Prop
  | .done s | .jump s | .hold s | .trap s _ _ | .gone s => s.Sound

/-- The state in which the end of a chunk leaves the package is sound. -/
def Ended.Sound : Ended → Prop
  | .ready s | .hold s | .stflt s _ => s.Sound

/-- The state that an operation answers, if it answers one, is sound. -/
def SomeSound : Option State → Prop
  | some s => s.Sound
  | none => True

/-- The state that a step answers, if it answers one, is sound. -/
def NextSound : Host.Outcome State Fault Refusal → Prop
  | .next s => s.Sound
  | _ => True

theorem SomeSound.get {o : Option State} (h : SomeSound o) {s : State} (e : o = some s) : s.Sound := by
  subst e; exact h

theorem SomeSound.getD {o : Option State} (h : SomeSound o) {s : State} (hs : s.Sound) : (o.getD s).Sound := by
  cases o with
  | none => exact hs
  | some u => exact h

theorem SomeSound.map {o : Option State} (h : SomeSound o) {f : State → State} (hf : ∀ s : State, s.Sound → (f s).Sound) :
    SomeSound (o.map f) := by
  cases o with
  | none => trivial
  | some u => exact hf u h

theorem SomeSound.bind {o : Option State} (h : SomeSound o) {f : State → Option State} (hf : ∀ s : State, s.Sound → SomeSound (f s)) :
    SomeSound (o.bind f) := by
  cases o with
  | none => trivial
  | some u => exact hf u h

/-- A list of operations, each of which may answer no state, one after another. -/
theorem SomeSound.foldl {α : Type} {f : State → α → Option State} (hf : ∀ (s : State) x, s.Sound → SomeSound (f s x)) (l : List α) :
    ∀ {o : Option State}, SomeSound o → SomeSound (l.foldl (fun s x => s.bind fun s => f s x) o) := by
  induction l with
  | nil => exact fun h => h
  | cons x l ih => exact fun h => ih (h.bind fun s hs => hf s x hs)

/-- The state beside another answer of a sound operation is sound. -/
theorem sound_fst {α : Type} {x : State × α} (h : x.1.Sound) {s : State} {a : α} (e : x = (s, a)) : s.Sound := by
  subst e; exact h

theorem sound_fst_ite {α : Type} {c : Prop} {_ : Decidable c} {x y : State × α} (hx : x.1.Sound) (hy : y.1.Sound) :
    (if c then x else y).1.Sound := by
  split
  · exact hx
  · exact hy

theorem NextSound.ite {c : Prop} {_ : Decidable c} {x y : Host.Outcome State Fault Refusal} (hx : NextSound x) (hy : NextSound y) :
    NextSound (if c then x else y) := by
  split
  · exact hx
  · exact hy

theorem SomeSound.ite {c : Prop} {_ : Decidable c} {x y : Option State} (hx : SomeSound x) (hy : SomeSound y) :
    SomeSound (if c then x else y) := by
  split
  · exact hx
  · exact hy

theorem Act.Sound.ite {c : Prop} {_ : Decidable c} {x y : Act} (hx : x.Sound) (hy : y.Sound) : (if c then x else y).Sound := by
  split
  · exact hx
  · exact hy

section
variable {s t : State}

theorem State.Sound.ite {c : Prop} {_ : Decidable c} (hs : s.Sound) (ht : t.Sound) : (if c then s else t).Sound := by
  split
  · exact hs
  · exact ht

theorem State.Sound.forAll {α : Type} {l : List α} {f : State → α → State} (h : s.Sound)
    (hf : ∀ u x, u.Sound → (f u x).Sound) : (forAll l f s).Sound :=
  forAll_rel (fun a b => a.Sound → b.Sound) (fun _ => id) (fun f g => g ∘ f) f (fun u x => hf u x) l s h

theorem State.Sound.next (h : s.Sound) : NextSound (.next s) := h

theorem State.Sound.pair {α : Type} {a : α} (h : s.Sound) : (s, a).1.Sound := h

theorem CoresOnly.sound (hc : CoresOnly s t) (h : s.Sound) : t.Sound := by
  obtain ⟨c, rfl⟩ := hc
  exact h

/-! ## The parts of the state -/

theorem State.Sound.setStrand (h : s.Sound) {k x} : (s.setStrand k x).Sound := h
theorem State.Sound.setCore (h : s.Sound) {k x} : (s.setCore k x).Sound := h
theorem State.Sound.onStrand (h : s.Sound) {k f} : (s.onStrand k f).Sound := h
theorem State.Sound.onArch (h : s.Sound) {k f} : (s.onArch k f).Sound := h
theorem State.Sound.onCore (h : s.Sound) {k f} : (s.onCore k f).Sound := h
theorem State.Sound.onQuire (h : s.Sound) {k f} : (s.onQuire k f).Sound := h
theorem State.Sound.onDie (h : s.Sound) {k f} : (s.onDie k f).Sound := h
theorem State.Sound.onBindery (h : s.Sound) {f} : (s.onBindery f).Sound := h
theorem State.Sound.event (h : s.Sound) {k c d a v} : (s.event k c d a v).Sound := h
theorem State.Sound.send (h : s.Sound) {c k} : (s.send c k).Sound := h
theorem State.Sound.sendAction (h : s.Sound) {c d e k} : (s.sendAction c d e k).Sound := h
theorem State.Sound.dropMsg (h : s.Sound) {k} : (s.dropMsg k).Sound := h
theorem State.Sound.addRemote (h : s.Sound) {c k} : (s.addRemote c k).Sound := h
theorem State.Sound.pendIn (h : s.Sound) {c l k} : (s.pendIn c l k).Sound := h
theorem State.Sound.setPending (h : s.Sound) {l k} : (s.setPending l k).Sound := h
theorem State.Sound.setPendingT (h : s.Sound) {l k} : (s.setPendingT l k).Sound := h
theorem State.Sound.waiting (h : s.Sound) {w} : (s.waiting w).Sound := h
theorem State.Sound.answer (h : s.Sound) {a b c d} : (s.answer a b c d).Sound := h
theorem State.Sound.dropResults (h : s.Sound) {k} : (s.dropResults k).Sound := h

/-! ## Memory and tags -/

theorem State.Sound.writeSector (h : s.Sound) {loc d b t} : (s.writeSector loc d b t).Sound :=
  ⟨mergeBytes_wf _ _ _ _ h.1, mergeTags_wf _ _ _ _ h.2⟩

theorem State.Sound.store (h : s.Sound) {loc bs} : (s.store loc bs).Sound :=
  ⟨writeBytes_wf _ _ h.1, clearTags_wf _ _ h.2⟩

/-! ## Places and commits -/

theorem State.Sound.squash (h : s.Sound) {sid k c m} : (s.squash sid k c m).Sound := by
  unfold State.squash
  dsimp only
  split
  · exact h
  · exact (h.forAll fun _ _ hu => hu.writeSector).setStrand

theorem State.Sound.squashReaders (h : s.Sound) {d l o} : (s.squashReaders d l o).Sound := by
  unfold State.squashReaders
  refine h.forAll fun u k hu => ?_
  refine .ite ?_ hu
  split
  · exact hu.squash
  · exact hu

theorem State.Sound.squashHome (h : s.Sound) {loc l o} : (s.squashHome loc l o).Sound := by
  unfold State.squashHome
  split
  · exact h.squashReaders
  · exact h

theorem State.Sound.placeStore (h : s.Sound) {loc bs o} : (s.placeStore loc bs o).Sound := h.store.squashHome

theorem State.Sound.discard (h : s.Sound) {sid c p} : (s.discard sid c p).Sound :=
  h.setCore.ite h.onStrand

theorem State.Sound.memoryCheck (h : s.Sound) {sid loc} : (s.memoryCheck sid loc).Sound := h.onStrand.ite h

theorem commitPiece_sound {x : State × Option Word} {sid p} (h : x.1.Sound) : (State.commitPiece sid x p).1.Sound := by
  unfold State.commitPiece
  split
  · exact h
  · exact h
  · exact h.discard
  · split
    · exact h.addRemote
    · split
      · exact h.memoryCheck
      · exact h.writeSector.ite h.writeSector.onCore

theorem State.Sound.commitOldest (h : s.Sound) {sid} : (s.commitOldest sid).1.Sound := by
  unfold State.commitOldest
  dsimp only
  split
  · exact h
  · rename_i c rest _
    have held : ∀ (l : List Piece) (x : State × Option Word), x.1.Sound → (l.foldl (State.commitPiece sid) x).1.Sound := fun l => by
      induction l with
      | nil => exact fun _ hx => hx
      | cons p l ih => exact fun x hx => ih _ (commitPiece_sound hx)
    refine State.Sound.setStrand (State.Sound.onCore (State.Sound.squashReaders ?_))
    exact State.Sound.ite (held _ _ (h.onStrand.ite h)) (held _ _ (h.onStrand.ite h)).onCore

theorem State.Sound.dropLater (h : s.Sound) {sid} : (s.dropLater sid).Sound := h.ite h.squash

theorem State.Sound.commitAll {sid} (n : Nat) : ∀ {s : State}, s.Sound → (s.commitAll sid n).Sound := by
  induction n with
  | zero => exact fun h => h
  | succ n ih =>
    intro s h
    unfold State.commitAll
    split
    · exact h
    · split
      · split
        · exact ih (sound_fst h.commitOldest ‹_›)
        · exact (sound_fst h.commitOldest ‹_›).dropLater
      · exact h

theorem State.Sound.commitQuiet {sid} (n : Nat) : ∀ {s : State}, s.Sound → SomeSound (s.commitQuiet sid n) := by
  induction n with
  | zero => exact fun h => h
  | succ n ih =>
    intro s h
    unfold State.commitQuiet
    split
    · exact h
    · split
      · exact ih h.commitOldest
      · trivial

/-! ## Losses and machine checks -/

theorem State.Sound.sendQuit (h : s.Sound) {c g k} : (s.sendQuit c g k).Sound := h.onBindery.forAll fun _ _ hu => hu.send

theorem State.Sound.freeStrand (h : s.Sound) {sid} : (s.freeStrand sid).Sound := by
  unfold State.freeStrand
  refine State.Sound.onStrand (.ite ?_ ?_)
  all_goals exact State.Sound.ite h.onCore h.onCore.onQuire

theorem State.Sound.trapParked (h : s.Sound) {l f} : (s.trapParked l f).Sound := h.forAll fun _ _ hu => hu.onStrand

theorem State.Sound.breakBarrier (h : s.Sound) {loc} : (s.breakBarrier loc).Sound := by
  unfold State.breakBarrier
  exact h.placeStore.trapParked

theorem State.Sound.breakGangBarriers (h : s.Sound) {g} : (s.breakGangBarriers g).Sound := h.forAll fun _ _ hu => hu.breakBarrier

theorem State.Sound.breakCtx (h : s.Sound) {d c} : (s.breakCtx d c).Sound := h.onDie.trapParked

theorem State.Sound.clearCtx (h : s.Sound) {d c} : (s.clearCtx d c).Sound := h.breakCtx.ite h.onDie

theorem State.Sound.breakGangContexts (h : s.Sound) {g} : (s.breakGangContexts g).Sound := h.forAll fun _ _ hu => hu.clearCtx

theorem State.Sound.emptyQueues (h : s.Sound) {g} : (s.emptyQueues g).Sound := h.forAll fun _ _ hu => hu.onCore

theorem State.Sound.breakImages (h : s.Sound) {g} : (s.breakImages g).Sound :=
  h.forAll fun _ _ hu => hu.forAll fun _ _ hv => hv.placeStore

theorem State.Sound.gangLoss (h : s.Sound) {g v l} : (s.gangLoss g v l).Sound :=
  State.Sound.forAll (h.breakGangBarriers.breakImages.breakGangContexts.emptyQueues.onBindery) fun _ _ hu => hu.onStrand

theorem State.Sound.killFiring (h : s.Sound) {sid} : (s.killFiring sid).Sound :=
  State.Sound.ite (h.ite h.squash).dropResults.freeStrand h

theorem State.Sound.machineCheck (h : s.Sound) {c l v} : (s.machineCheck c l v).Sound := by
  unfold State.machineCheck
  have h1 : ∀ u : State, u.Sound → (State.killFiring u c).Sound := fun _ hu => hu.killFiring
  dsimp only
  split
  · exact ((h.forAll fun _ _ hu => hu.onArch.ite hu).forAll fun _ _ hu => hu.killFiring.onArch).gangLoss
  · exact (h.forAll fun _ _ hu => hu.onArch.ite hu).forAll fun _ _ hu => hu.killFiring.onArch

theorem State.Sound.lostAccess (h : s.Sound) {sid loc} : (s.lostAccess sid loc).Sound := h.memoryCheck.ite h.machineCheck

theorem State.Sound.endFiring (h : s.Sound) {sid} : (s.endFiring sid).Sound := by
  unfold State.endFiring
  split
  · exact h.freeStrand.machineCheck
  · exact h.freeStrand

/-! ## Traps -/

theorem State.Sound.enterTrap (h : s.Sound) {sid c v} : (s.enterTrap sid c v).Sound :=
  h.machineCheck.ite (h.machineCheck.ite (h.setStrand.event.sendQuit.ite h.setStrand))

theorem State.Sound.tryTrap (h : s.Sound) {sid} : (s.tryTrap sid).Sound := by
  unfold State.tryTrap
  dsimp only
  split
  · exact h
  · refine h.ite ?_
    have hc := State.Sound.commitAll (sid := sid) ((s.strand sid).chunks.length + 1) h
    split <;> rename_i e <;> rw [e] at hc
    · exact hc.enterTrap
    · exact hc.enterTrap
    · exact hc

theorem State.Sound.raise (h : s.Sound) {sid c v} : (s.raise sid c v).Sound := h.onStrand.tryTrap

theorem State.Sound.takeCause (h : s.Sound) {sid} : (s.takeCause sid).Sound := by
  unfold State.takeCause
  refine State.Sound.ite ?_ h
  split
  · exact h
  · have hc := State.Sound.commitAll (sid := sid) ((s.strand sid).chunks.length + 1) h
    split <;> rename_i e <;> rw [e] at hc
    · exact hc.onStrand.enterTrap
    · exact hc.enterTrap
    · exact hc

/-! ## Issue -/

theorem Act.Sound.settle {a : Act} (h : a.Sound) : a.settle.Sound := by
  cases a with
  | done | jump | hold | gone => exact h
  | trap => exact State.Sound.raise h

theorem State.Sound.begun (h : s.Sound) : s.begun.Sound := h

theorem Act.Sound.settleT {a : Act} (h : a.Sound) : a.settleT.Sound := by
  cases a with
  | done | jump | hold | gone => exact h
  | trap => exact State.Sound.raise h

theorem State.Sound.joinChunk (h : s.Sound) : s.joinChunk.Sound := h

theorem State.Sound.pinDue (h : s.Sound) : SomeSound s.pinDue := by
  unfold State.pinDue
  dsimp only
  split
  · exact h
  · split
    · exact h
    · split
      · trivial
      · exact h

theorem State.Sound.issue (h : s.Sound) {p r} {body : State → Act} (hb : ∀ u : State, u.Sound → (body u).Sound) :
    NextSound (issue p r s body) := by
  unfold Machine.issue
  dsimp only
  split
  · exact h.raise
  · split
    · exact h
    · split
      · exact h.raise
      · split
        · exact h
        · exact Act.Sound.settle (hb _ (h.joinChunk.pinDue.get ‹_›))

theorem State.Sound.endChunk (h : s.Sound) : s.endChunk.Sound := by
  unfold State.endChunk
  dsimp only
  split
  · exact h
  · have hc := State.Sound.commitAll (sid := s.cur) ((s.strand s.cur).chunks.length + 1) h
    split <;> rename_i e <;> rw [e] at hc <;> exact hc

theorem State.Sound.quitEnd (h : s.Sound) {sid} : (s.quitEnd sid).Sound := by
  unfold State.quitEnd
  split
  · exact ((h.commitQuiet _).get ‹_›).endFiring
  · exact h

theorem State.Sound.boundary (h : s.Sound) {act : State → State} (ha : ∀ u : State, u.Sound → (act u).Sound) : (s.boundary act).Sound := by
  unfold State.boundary
  refine h.quitEnd.ite ?_
  have hc := h.endChunk
  split <;> rename_i e <;> rw [e] at hc
  · exact State.Sound.ite hc.takeCause (ha _ hc)
  · exact hc
  · exact hc.raise

theorem State.Sound.terminate (h : s.Sound) {p w r} {body : State → Act} (hb : ∀ u : State, u.Sound → (body u).Sound) :
    NextSound (terminate p w r s body) := by
  unfold Machine.terminate
  dsimp only
  split
  · exact h.raise
  · split
    · exact h
    · split
      · exact h.raise
      · exact h.boundary fun u hu => (hb u hu).settleT

theorem State.Sound.wakeIdle (h : s.Sound) {sid} : (s.wakeIdle sid).Sound := by
  unfold State.wakeIdle
  split <;> exact h

end

end Sys2Proof.Machine

/-! SUPPORT. Memory and tags stay in canonical form: the instructions, and the events of the core, of Stitch, of the codelets and of the
copy engine. -/

namespace Sys2Proof.Machine

open Sys2Proof Sys2Proof.Claims

section
variable {s : State}

/-! ## Shared shapes of register instructions -/

theorem State.Sound.fixedReg (h : s.Sound) {l d f} : NextSound (fixedReg l d f s) := h.issue fun _ hu => hu.onArch

theorem State.Sound.multiply (h : s.Sound) {d a b f} : NextSound (multiply d a b f s) := h.issue fun _ hu => hu.setPending

theorem State.Sound.divide (h : s.Sound) {d a b f} : NextSound (divide d a b f s) := by
  unfold Machine.divide
  split
  · exact h
  · exact h.issue fun _ hu => hu.setPending

theorem State.Sound.capOp (h : s.Sound) {l d f} : NextSound (capOp l d f s) := by
  refine h.issue fun u hu => ?_
  split <;> exact hu

theorem stop_act_sound (h : s.Sound) (e : Stop) : (e.act s).Sound := by
  cases e <;> exact h

/-! ## Loads, stores and areas -/

theorem State.Sound.usePlb (h : s.Sound) {k a} : (s.usePlb k a).Sound := h
theorem State.Sound.enterLines (h : s.Sound) {k a b} : (s.enterLines k a b).Sound := h

theorem State.Sound.touchAccess (h : s.Sound) {k b x} : (s.touchAccess k b x).Sound := by
  obtain ⟨c, e, -⟩ := touch_eq s k b x
  rw [e]
  exact h

theorem State.Sound.l1Fill (h : s.Sound) {k w a} : (s.l1Fill k w a).Sound := by
  obtain ⟨c, e⟩ := fill_eq s k w a
  rw [e]
  exact h

theorem State.Sound.l1Load (h : s.Sound) {k x} : (s.l1Load k x).Sound := by
  obtain ⟨c, e, -⟩ := l1_eq s k x
  rw [e]
  exact h

theorem State.Sound.sendNeeds (h : s.Sound) {k o l} : (sendNeeds k o l s).Sound := h.forAll fun _ _ hu => hu.addRemote

theorem State.Sound.startLoad (h : s.Sound) {k l f d} : (s.startLoad k l f d).Sound := by
  have ht : ∀ a : List Access, (Machine.forAll a (fun s x => (s.touchAccess k false x).l1Load k x) s).Sound := fun _ =>
    h.forAll fun _ _ hu => hu.touchAccess.l1Load
  unfold State.startLoad
  dsimp only
  split
  · exact h
  · split
    · exact h
    · split
      · exact h
      · split
        · exact h
        · split
          · exact (ht _).setPending.memoryCheck
          · exact (ht _).enterLines.setPending.sendNeeds

theorem State.Sound.writeOwn (h : s.Sound) {k l d b t} : (s.writeOwn k l d b t).Sound := h.onStrand.writeSector

theorem State.Sound.putPiece (h : s.Sound) {k p} : (s.putPiece k p).Sound := by
  unfold State.putPiece
  split
  · exact h.writeOwn
  · exact h

theorem State.Sound.trailWord (h : s.Sound) {k w} : (s.trailWord k w).Sound := h.writeOwn.onArch

theorem State.Sound.advanceSeed (h : s.Sound) {k l} : (s.advanceSeed k l).Sound := h.onArch.ite h

theorem State.Sound.scaleNeeds (h : s.Sound) {k p o} : (s.scaleNeeds k p o).Sound := h.ite h.setPending.sendNeeds

theorem State.Sound.startStore (h : s.Sound) {k c l t} : (s.startStore k c l t).Sound := by
  unfold State.startStore
  dsimp only
  split
  · exact stop_act_sound h _
  · split
    · exact h
    · split
      · exact h
      · split
        · exact h
        · split
          · exact h
          · refine State.Sound.onArch (State.Sound.advanceSeed (State.Sound.scaleNeeds (State.Sound.forAll ?_ fun _ _ hu => hu.putPiece)))
            exact (h.enterLines.forAll fun _ _ hu => hu.touchAccess).forAll fun _ _ hu => hu.trailWord

theorem State.Sound.plbRange (h : s.Sound) {k r b a n} : (s.plbRange k r b a n).1.Sound := (plbRange_cores ..).sound h
theorem State.Sound.areaRights (h : s.Sound) {k r a n} : (s.areaRights k r a n).1.Sound := (areaRights_cores ..).sound h
theorem State.Sound.areaCheck (h : s.Sound) {k b r a n} : (s.areaCheck k b r a n).1.Sound := (areaCheck_cores ..).sound h
theorem State.Sound.recordArea (h : s.Sound) {c n al p b r} : (s.recordArea c n al p b r).1.Sound := (recordArea_cores ..).sound h

theorem State.Sound.putSector (h : s.Sound) {l x} : (s.putSector l x).Sound := h.writeSector.ite (h.forAll fun _ _ hu => hu.store)

theorem State.Sound.placeSectors (h : s.Sound) {o l} : (s.placeSectors o l).Sound :=
  (h.forAll fun _ _ hu => hu.putSector).forAll fun _ _ hu => hu.squashReaders

/-! ## Fetch and control -/

theorem State.Sound.touchWords (h : s.Sound) {k a n} : (s.touchWords k a n).Sound := h.forAll fun _ _ hu => hu.usePlb.onCore

theorem State.Sound.unready (h : s.Sound) {k} : (s.unready k).Sound := h.quitEnd.ite h

theorem State.Sound.fetched (h : s.Sound) {k} : (s.fetched k).Sound := by
  unfold State.fetched
  dsimp only
  split
  · exact h
  · split <;> exact h

theorem State.Sound.transfer (h : s.Sound) {t f} : (transfer s t f).Sound := by
  unfold Machine.transfer
  dsimp only
  split <;> exact h

theorem State.Sound.branch (h : s.Sound) {c a b o} : NextSound (branch c a b o s) := by
  refine h.issue fun u hu => ?_
  dsimp only
  split
  · exact hu.transfer
  · exact hu

theorem State.Sound.jumpThrough (h : s.Sound) {a f} : (jumpThrough a f s).Sound := by
  unfold Machine.jumpThrough
  dsimp only
  split <;> exact h

theorem State.Sound.startFrame (h : s.Sound) {l d a b c} : (startFrame l d a b c s).Sound := by
  unfold Machine.startFrame
  dsimp only
  split
  · exact h
  · split
    · exact stop_act_sound h _
    · split <;> exact h.touchWords

theorem State.Sound.done (h : s.Sound) : s.done.Sound := h.onArch.endFiring

theorem State.Sound.cdone (h : s.Sound) : NextSound (execCdone s) := by
  refine h.terminate fun u hu => ?_
  split
  · exact hu
  · exact hu.done

/-! ## Memory instructions -/

theorem State.Sound.scalarLoad (h : s.Sound) {n g a o f} : NextSound (scalarLoad n g a o f s) := by
  refine h.issue fun u hu => ?_
  dsimp only
  split
  · exact stop_act_sound hu _
  · exact hu.startLoad

theorem State.Sound.scalarStore (h : s.Sound) {n g a o} : NextSound (scalarStore n g a o s) := by
  refine h.issue fun u hu => ?_
  dsimp only
  split
  · exact stop_act_sound hu _
  · exact hu.startStore

theorem State.Sound.stc (h : s.Sound) {g a o} : NextSound (execStc g a o s) := by
  refine h.issue fun u hu => ?_
  dsimp only
  split
  · exact stop_act_sound hu _
  · exact hu.startStore

theorem State.Sound.vectorLoad (h : s.Sound) {w e m v a vm z x} : NextSound (vectorLoad w e m v a vm z x s) := by
  refine h.issue fun u hu => ?_
  dsimp only
  split
  · exact hu
  · split
    · exact stop_act_sound hu _
    · exact hu.startLoad

theorem State.Sound.vectorStore (h : s.Sound) {w e m v a vm x} : NextSound (vectorStore w e m v a vm x s) := by
  refine h.issue fun u hu => ?_
  dsimp only
  split
  · exact stop_act_sound hu _
  · exact hu.startStore

theorem State.Sound.lineUse (h : s.Sound) {a} : (s.lineUse a).Sound := by
  unfold State.lineUse
  split <;> exact h

theorem State.Sound.pref (h : s.Sound) {a o} : NextSound (execPref a o s) := by
  refine h.issue fun u hu => ?_
  dsimp only
  split
  · exact hu
  · exact hu
  · exact hu.lineUse.l1Fill

theorem State.Sound.lineOp (h : s.Sound) {d a o} : NextSound (lineOp d a o s) := by
  refine h.issue fun u hu => ?_
  dsimp only
  split
  · exact stop_act_sound hu _
  · split
    · split <;> exact hu.lineUse
    · exact hu.lineUse

theorem State.Sound.drainst (h : s.Sound) : NextSound (execDrainst s) := by
  refine h.terminate fun u hu => ?_
  split <;> exact hu

theorem State.Sound.fence (h : s.Sound) {e k} : NextSound (execFence e k s) := by
  refine h.terminate fun u hu => ?_
  split <;> exact hu

/-! ## System instructions -/

theorem State.Sound.sretBody (h : s.Sound) {f} : (sretBody f s).Sound := by
  unfold Machine.sretBody
  dsimp only
  split
  · exact h
  · split
    · exact stop_act_sound h _
    · refine State.Sound.onArch ?_
      split
      · exact h.ite h.touchWords
      · exact h

theorem State.Sound.ebrk (h : s.Sound) : NextSound (execEbrk s) := by
  refine h.issue fun u hu => ?_
  split <;> exact hu

theorem State.Sound.csrPut (h : s.Sound) {k c w} : (s.csrPut k c w).Sound := by
  unfold State.csrPut
  dsimp only
  split <;> exact h

theorem State.Sound.csrWrite (h : s.Sound) {k c w t} (e : s.csrWrite k c w = .ok t) : t.Sound := by
  unfold State.csrWrite at e
  split at e
  · cases e
  · cases e
    exact h.csrPut

theorem State.Sound.csrr (h : s.Sound) {d c} : NextSound (execCsrr d c s) := by
  refine h.issue fun u hu => ?_
  split
  · exact hu
  · split <;> exact hu

theorem State.Sound.writeCsr (h : s.Sound) {l a c f} (hf : ∀ x (u : State), u.Sound → (f x u).Sound) : NextSound (writeCsr l a c f s) := by
  unfold Machine.writeCsr
  split
  · refine h.terminate fun u hu => ?_
    split
    · exact hu
    · split
      · exact hu
      · have := hf ((u.csrRead u.cur c.toNat).getD 0) _ (hu.csrWrite ‹_›)
        dsimp only
        split <;> exact this
  · exact h.issue fun _ hu => hu

theorem State.Sound.ctxArea (h : s.Sound) {c b} : (s.ctxArea c b).1.Sound := by
  unfold State.ctxArea
  dsimp only
  split
  · exact h
  · split
    · exact h
    · refine sound_fst_ite h ?_
      split
      · exact sound_fst h.areaCheck ‹_›
      · split <;> exact sound_fst h.areaCheck ‹_›

theorem State.Sound.takeToken (h : s.Sound) : SomeSound s.takeToken := by
  unfold State.takeToken
  split
  · trivial
  · split
    · split
      · exact h
      · trivial
    · exact h

theorem State.Sound.ctxSave (h : s.Sound) {x} : NextSound (execCtxSave x s) := by
  refine h.issue fun u hu => ?_
  split
  · exact hu
  · split
    · exact stop_act_sound (sound_fst hu.ctxArea ‹_›) _
    · have hv := sound_fst hu.ctxArea ‹_›
      split
      · exact hv
      · split
        · exact hv
        · exact (hv.takeToken.get ‹_›).placeSectors

theorem State.Sound.ctxLoad (h : s.Sound) {x} : NextSound (execCtxLoad x s) := by
  refine h.issue fun u hu => ?_
  split
  · exact hu
  · dsimp only
    split
    · exact stop_act_sound (sound_fst hu.ctxArea ‹_›) _
    · have hv := sound_fst hu.ctxArea ‹_›
      split
      · exact hv
      · split
        · exact hv
        · have hw := hv.takeToken.get ‹_›
          split
          · exact hw
          · split
            · exact hw
            · exact State.Sound.onStrand (hw.setCore.ite hw)

theorem State.Sound.stubReturn (h : s.Sound) {k} : (s.stubReturn k).Sound :=
  Act.Sound.settleT (State.Sound.sretBody (s := { s with cur := k }) h)

theorem State.Sound.gquit (h : s.Sound) {x} : NextSound (execGquit x s) := by
  refine h.issue fun u hu => ?_
  split
  · split <;> exact hu
  · exact State.Sound.waiting hu.sendQuit

theorem State.Sound.killGang (h : s.Sound) {g} : (s.killGang g).Sound := by
  unfold State.killGang
  refine State.Sound.onBindery (State.Sound.forAll ?_ fun _ _ hu => hu.onCore)
  exact (h.forAll fun _ _ hu => hu.killFiring).breakGangBarriers.breakGangContexts.emptyQueues

theorem State.Sound.preemptGang (h : s.Sound) {g} : (s.preemptGang g).Sound := h.onBindery.forAll fun _ _ hu => hu.onStrand

theorem State.Sound.cpstkWrite (h : s.Sound) : NextSound (execCpstkWrite s) := by
  unfold execCpstkWrite
  split
  · exact h.csrWrite ‹_›
  · exact h.raise

theorem State.Sound.trailWrite (h : s.Sound) : NextSound (execTrailWrite s) := by
  unfold execTrailWrite
  split
  · exact h.csrWrite ‹_›
  · exact h.raise

theorem State.Sound.fflagsAccess (h : s.Sound) : NextSound (execFflagsAccess s) := by
  unfold execFflagsAccess
  dsimp only
  split <;> exact h

end

section
variable {s : State}

/-! ## The matrix class -/

theorem State.Sound.checkClaim (h : s.Sound) : s.checkClaim.1.Sound := by
  unfold State.checkClaim
  split
  · exact h
  · split
    · exact h
    · split <;> exact h

theorem State.Sound.imageCheck (h : s.Sound) {b e c} : (s.imageCheck b e c).1.Sound := by
  unfold State.imageCheck
  refine sound_fst_ite h ?_
  split
  · exact h
  · refine sound_fst_ite h (sound_fst_ite h ?_)
    split
    · exact sound_fst h.areaRights ‹_›
    · split <;> exact sound_fst h.areaRights ‹_›

theorem State.Sound.enterMatrix (h : s.Sound) {x} : (s.enterMatrix x).Sound := h

/-- Whether the claim is given back says nothing about memory. -/
theorem claimed_sound {body : State → Act} (hb : ∀ u : State, u.Sound → (body u).Sound) (h : s.Sound) : (claimed body s).Sound := by
  unfold claimed
  split
  · exact stop_act_sound (sound_fst h.checkClaim ‹_›) _
  · have hv := hb _ (sound_fst h.checkClaim ‹_›)
    dsimp only
    split
    · rename_i e
      rw [e] at hv
      exact State.Sound.ite hv.onCore hv
    · rename_i e
      rw [e] at hv
      split
      · exact hv
      · exact State.Sound.ite hv.onCore hv
    · exact hv

theorem State.Sound.matrixOp (h : s.Sound) {l} {body : State → Act} (hb : ∀ u : State, u.Sound → (body u).Sound) :
    NextSound (matrixOp l body s) := NextSound.ite h (h.terminate fun _ hu => claimed_sound hb hu)

theorem State.Sound.mma (h : s.Sound) {f c a b g} : NextSound (mma f c a b g s) := by
  refine h.matrixOp fun u hu => ?_
  dsimp only
  split
  · exact stop_act_sound hu _
  · exact hu

theorem State.Sound.accTransfer (h : s.Sound) {f c a g} : NextSound (accTransfer f c a g s) := by
  refine h.matrixOp fun u hu => ?_
  dsimp only
  split
  · exact stop_act_sound (sound_fst hu.imageCheck ‹_›) _
  · exact State.Sound.enterMatrix (sound_fst hu.imageCheck ‹_›)

theorem State.Sound.mwait (h : s.Sound) : NextSound (execMwait s) := by
  refine h.matrixOp fun u hu => ?_
  split <;> exact hu

theorem State.Sound.suspendArea (h : s.Sound) {b c} : (s.suspendArea b c).1.Sound := h.recordArea

theorem State.Sound.mwaitSus (h : s.Sound) {b} : NextSound (execMwaitSus b s) := by
  refine h.matrixOp fun u hu => ?_
  split
  · exact stop_act_sound (sound_fst hu.suspendArea ‹_›) _
  · have hv := sound_fst hu.suspendArea ‹_›
    dsimp only
    split
    · exact hv
    · split
      · exact hv
      · exact hv.placeSectors.onCore

theorem State.Sound.readEntry (h : s.Sound) {c i k} : (s.readEntry c i k).1.Sound := by
  unfold State.readEntry
  refine sound_fst_ite h (sound_fst_ite ?_ (sound_fst_ite h (sound_fst_ite ?_ h)))
  · split
    · exact h
    · split <;> exact h
  · split <;> exact sound_fst h.imageCheck ‹_›

theorem State.Sound.mwaitRes (h : s.Sound) {b} : NextSound (execMwaitRes b s) := by
  refine h.matrixOp fun u hu => ?_
  dsimp only
  split
  · exact stop_act_sound (sound_fst hu.suspendArea ‹_›) _
  · have hv := sound_fst hu.suspendArea ‹_›
    split
    · exact hv
    · split
      · exact hv
      · split
        · exact stop_act_sound (sound_fst hv.readEntry ‹_›) _
        · have hw := sound_fst hv.readEntry ‹_›
          split
          · exact stop_act_sound (sound_fst hw.readEntry ‹_›) _
          · exact (sound_fst hw.readEntry ‹_›).forAll fun _ _ hx => hx.enterMatrix

theorem State.Sound.markWaiting (h : s.Sound) {q p} : (s.markWaiting q p).Sound := by
  refine h.forAll fun u k hu => ?_
  split
  · exact hu.ite hu.onCore
  · exact hu

theorem State.Sound.runBlock (h : s.Sound) {c x} : (s.runBlock c x).Sound := h

theorem State.Sound.putEntry (h : s.Sound) {c i x b} : (s.putEntry c i x b).Sound := h

-- The two lemmas speak of a variable `o`, since the elaborator would evaluate the events themselves.
theorem State.Sound.matrixBlock (h : s.Sound) {o} (e : execMatrixBlock s = o) : NextSound o := by
  subst e
  unfold execMatrixBlock
  dsimp only
  have hm := h.markWaiting (q := s.argN 0) (p := false)
  revert hm
  generalize s.markWaiting (s.argN 0) false = u
  intro hm
  split
  · exact hm
  · split
    · exact hm
    · exact NextSound.ite hm (NextSound.ite hm hm.onCore.runBlock.putEntry.onQuire)

theorem State.Sound.accTransferTurn (h : s.Sound) {o} (e : execAccTransfer s = o) : NextSound o := by
  subst e
  unfold execAccTransfer
  dsimp only
  have hm := h.markWaiting (q := s.argN 0) (p := true)
  revert hm
  generalize s.markWaiting (s.argN 0) true = u
  intro hm
  split
  · exact hm
  · split
    · exact hm
    · split
      · exact hm
      · refine NextSound.ite hm (NextSound.ite ?_ (NextSound.ite (NextSound.ite hm hm) ?_))
        · exact hm.onCore.onQuire.lostAccess.putEntry
        · split
          · exact hm
          · exact hm.onCore.onQuire.writeSector.squashHome.putEntry

/-! ## Store faults, translation and fills -/

theorem State.Sound.sfqRd (h : s.Sound) {x y z} : NextSound (execSfqRd x y z s) := by
  refine h.issue fun u hu => ?_
  split <;> exact hu

theorem State.Sound.sfqPop (h : s.Sound) : NextSound (execSfqPop s) := by
  refine h.issue fun u hu => ?_
  split <;> exact hu

theorem State.Sound.invalidate (h : s.Sound) {f g} : (s.invalidate f g).Sound := h
theorem State.Sound.invalidatePage (h : s.Sound) {p b} : (s.invalidatePage p b).Sound := h

theorem State.Sound.invalidating (h : s.Sound) {x y} {act : State → State} (ha : ∀ u : State, u.Sound → (act u).Sound) :
    NextSound (invalidating x y act s) := by
  refine h.issue fun u hu => ?_
  split
  · split <;> exact hu
  · exact State.Sound.waiting (ha u hu)

theorem State.Sound.plbFill (h : s.Sound) : NextSound (execPlbFill s) := by
  unfold execPlbFill
  dsimp only
  split
  · split <;> exact h
  · exact h

theorem State.Sound.translationLookup (h : s.Sound) : NextSound (execTranslationLookup s) := by
  unfold execTranslationLookup
  dsimp only
  split
  · split <;> exact h
  · split
    · exact h
    · refine State.Sound.onStrand ?_
      split <;> exact h

/-! ## Chunks and results -/

theorem State.Sound.lineLimit (h : s.Sound) : NextSound (execLineLimit s) := NextSound.ite h h

theorem State.Sound.breakWaits (h : s.Sound) {k} : (s.breakWaits k).Sound := by
  unfold State.breakWaits
  dsimp only
  split
  · exact h.squash
  · exact h

theorem State.Sound.chunkCommit (h : s.Sound) : NextSound (execChunkCommit s) := by
  unfold execChunkCommit
  dsimp only
  split
  · refine NextSound.ite ?_ h.breakWaits
    split
    · exact sound_fst h.commitOldest ‹_›
    · have hc := sound_fst h.commitOldest ‹_›
      exact NextSound.ite hc hc.dropLater.raise
  · exact h.breakWaits

theorem State.Sound.pairMismatch (h : s.Sound) : NextSound (execPairMismatch s) := by
  unfold execPairMismatch
  refine NextSound.ite ?_ h
  dsimp only
  split
  · exact h
  · exact NextSound.ite h.machineCheck h.onCore.squash

theorem State.Sound.resultReturn (h : s.Sound) : NextSound (execResultReturn s) := by
  unfold execResultReturn
  dsimp only
  split
  · exact h
  · split
    · exact h
    · exact h
    · exact NextSound.ite h h
    · exact h

theorem State.Sound.readNeed (h : s.Sound) {a b c} : (s.readNeed a b c).Sound := h

theorem State.Sound.readLost (h : s.Sound) {a b c} : (s.readLost a b c).Sound := h.answer.lostAccess

theorem State.Sound.siblingAccess (h : s.Sound) : NextSound (execSiblingAccess s) := by
  unfold execSiblingAccess
  dsimp only
  split
  · split
    · exact NextSound.ite h.readNeed h
    · exact h
  · exact h

theorem State.Sound.icacheFill (h : s.Sound) : NextSound (execIcacheFill s) := by
  unfold execIcacheFill
  dsimp only
  split
  · split
    · exact h.raise
    · split
      · exact NextSound.ite h.raise (NextSound.ite h.raise h)
      · exact h.raise
  · exact h

theorem State.Sound.trapEntry (h : s.Sound) : NextSound (execTrapEntry s) := NextSound.ite h.tryTrap h.takeCause

theorem State.Sound.machineCheckEvent (h : s.Sound) : NextSound (execMachineCheck s) :=
  NextSound.ite h (NextSound.ite h.onStrand h.machineCheck)

end

section
variable {s : State}

/-! ## Atomics -/

theorem State.Sound.undoWriters (h : s.Sound) {k l} : (s.undoWriters k l).Sound := by
  unfold State.undoWriters
  split
  · exact h.squash
  · exact h

theorem State.Sound.atomic (h : s.Sound) {a b c d e f} : (s.atomic a b c d e f).1.Sound :=
  (h.undoWriters.forAll fun _ _ hu => hu.store).squashHome

theorem State.Sound.amoExecute (h : s.Sound) : NextSound (execAmoExecute s) := by
  unfold execAmoExecute
  split
  · exact NextSound.ite h.dropMsg.onStrand.readLost (NextSound.ite h h.atomic.dropMsg.onStrand.answer)
  · exact h

theorem State.Sound.sendAtomic (h : s.Sound) {a b c d e f g} : (s.sendAtomic a b c d e f g).Sound := by
  unfold State.sendAtomic
  dsimp only
  split
  · exact h
  · split <;> exact h

theorem State.Sound.amo (h : s.Sound) {o w d a b} : NextSound (amo o w d a b s) := by
  refine h.terminate fun u hu => ?_
  dsimp only
  split
  · exact hu
  · split
    · exact hu
    · split
      · exact stop_act_sound hu _
      · exact hu.touchAccess.sendAtomic

/-! ## The Stitch network -/

theorem State.Sound.inject (h : s.Sound) {a b c d e f g} : (s.inject a b c d e f g).Sound := h

theorem State.Sound.balancer (h : s.Sound) : NextSound (execBalancer s) := by
  unfold execBalancer
  dsimp only
  split
  · exact h
  · exact NextSound.ite h h

theorem State.Sound.answerG (h : s.Sound) {a b c d} : (s.answerG a b c d).Sound := h

theorem State.Sound.counterCell (h : s.Sound) : NextSound (execCounterCell s) := by
  unfold execCounterCell
  dsimp only
  split
  · exact h
  · split
    · exact h
    · exact h
    · exact h
    · exact h
    · split <;> exact h
    · split <;> exact h

theorem State.Sound.finishBreak (h : s.Sound) {a b} : (s.finishBreak a b).Sound := h.breakCtx.ite h

theorem State.Sound.barrierTree (h : s.Sound) : NextSound (execBarrierTree s) := by
  unfold execBarrierTree
  dsimp only
  split
  · exact h
  · exact NextSound.ite h.onDie.finishBreak (NextSound.ite h h.placeStore.onDie.send)

theorem State.Sound.phaseReaches (h : s.Sound) {a b c} : (s.phaseReaches a b c).Sound := h.onStrand.wakeIdle

theorem State.Sound.releaseMulticast (h : s.Sound) : NextSound (execReleaseMulticast s) := by
  unfold execReleaseMulticast
  split
  · refine NextSound.ite h (State.Sound.finishBreak (State.Sound.forAll (State.Sound.onDie ?_) fun _ _ hu => hu.phaseReaches))
    refine State.Sound.ite ?_ ?_
    · exact h.dropMsg
    · exact h
  · exact h

theorem State.Sound.stitchOp (h : s.Sound) {l a m} {f : Nat → State → Act} (hf : ∀ n (u : State), u.Sound → (f n u).Sound) :
    NextSound (stitchOp l a m f s) := by
  refine h.terminate fun u hu => ?_
  dsimp only
  split
  · exact hu
  · split
    · exact hu
    · exact hf _ _ hu

theorem State.Sound.injectFor (h : s.Sound) {k d c} : (injectFor k d c s).Sound := h

theorem State.Sound.bnWait (h : s.Sound) {a b} : NextSound (execBnWait a b s) := by
  unfold execBnWait
  split
  · exact h.terminate fun _ hu => hu
  · exact h
  · refine h.stitchOp fun c u hu => ?_
    dsimp only
    split <;> exact hu

theorem State.Sound.whenQuiet (h : s.Sound) {c} {f : State → State} (hf : (f s).Sound) : (s.whenQuiet c f).Sound := Act.Sound.ite hf h

theorem State.Sound.changeCtx (h : s.Sound) {c f} : (s.changeCtx c f).Sound := h.whenQuiet h

theorem State.Sound.cfgTrap (h : s.Sound) {c d v} : (s.cfgTrap c d v).Sound := State.Sound.ite h.onDie h

theorem State.Sound.bnCfg (h : s.Sound) {a b} : NextSound (execBnCfg a b s) := by
  refine h.terminate fun u hu => ?_
  dsimp only
  split
  · exact hu.cfgTrap
  · refine Act.Sound.ite hu.cfgTrap ?_
    split
    · exact hu.cfgTrap
    · refine Act.Sound.ite hu.cfgTrap (Act.Sound.ite hu.changeCtx ?_)
      split
      · exact hu
      · split
        · exact hu.cfgTrap
        · exact hu.changeCtx

theorem State.Sound.bnClr (h : s.Sound) {a b} : NextSound (execBnClr a b s) := by
  refine h.terminate fun u hu => ?_
  exact Act.Sound.ite hu.changeCtx (hu.whenQuiet (State.Sound.ite hu.breakCtx hu.onDie))

/-! ## Codelets -/

theorem State.Sound.putSlot (h : s.Sound) {a b c} : (s.putSlot a b c).Sound := h.placeStore

theorem State.Sound.setDeque (h : s.Sound) {c l} : (s.setDeque c l).Sound :=
  State.Sound.ite h (State.Sound.onCore (h.forAll fun _ _ hu => hu.putSlot))

theorem State.Sound.arrival (h : s.Sound) {c} : (s.arrival c).Sound := by
  refine State.Sound.forAll ?_ fun _ _ hu => hu.wakeIdle
  split <;> exact h

theorem State.Sound.spill (h : s.Sound) {a b c} : (s.spill a b c).Sound := by
  unfold State.spill
  split <;> exact h

theorem State.Sound.push (h : s.Sound) {a b c d} : (s.push a b c d).Sound :=
  State.Sound.ite h (State.Sound.ite h.spill h.putSlot.onCore.arrival)

theorem State.Sound.decrement (h : s.Sound) {a b c} : (s.decrement a b c).Sound := State.Sound.ite h.placeStore.push h.placeStore

theorem State.Sound.placed (h : s.Sound) {a b} : (s.placed a b).Sound := h

theorem State.Sound.applyCdec (h : s.Sound) {a b c d} : (s.applyCdec a b c d).Sound := h.undoWriters.decrement

theorem State.Sound.applyCarm (h : s.Sound) {a b c} : (s.applyCarm a b c).Sound := h.undoWriters.placeStore

theorem State.Sound.arrived (h : s.Sound) {m} : (s.arrived m).Sound := by
  unfold State.arrived
  split <;> exact h

theorem State.Sound.keepMsg (h : s.Sound) {a b c} : (s.keepMsg a b c).Sound := h.onBindery.arrived

theorem State.Sound.cdecApply (h : s.Sound) : NextSound (execCdecApply s) := by
  unfold execCdecApply
  split
  · exact NextSound.ite h.keepMsg (NextSound.ite h h.applyCdec.placed)
  · exact h

theorem State.Sound.dequePush (h : s.Sound) : NextSound (execDequePush s) := by
  unfold execDequePush
  split
  · refine NextSound.ite h.keepMsg (NextSound.ite h ?_)
    split
    · exact h.push.placed
    · exact h.push.dropMsg
  · exact h

theorem State.Sound.carmApply (h : s.Sound) : NextSound (execCarmApply s) := by
  unfold execCarmApply
  split
  · exact NextSound.ite h.keepMsg (NextSound.ite h h.applyCarm.placed)
  · exact h

theorem State.Sound.dieQueueSpill (h : s.Sound) : NextSound (execDieQueueSpill s) := by
  unfold execDieQueueSpill
  split
  · split
    · exact h
    · generalize readNat s.mem _ 8 = seq
      split
      · exact h.placeStore.dropMsg
      · exact h
  · exact h

theorem State.Sound.emptySlot (h : s.Sound) {q t} : (s.emptySlot q t).Sound := h.placeStore

theorem State.Sound.claimAgain (h : s.Sound) {c} : (s.claimAgain c).Sound := by
  unfold State.claimAgain
  split <;> exact h

theorem State.Sound.dieQueueClaim (h : s.Sound) : NextSound (execDieQueueClaim s) := by
  unfold execDieQueueClaim
  dsimp only
  split
  · rename_i place q _ _
    generalize s.slotSeq q place = seq
    split
    · exact h
    · split
      · exact h.onCore.claimAgain
      · split
        · exact h.onCore.emptySlot.claimAgain
        · split
          · exact h
          · exact h.onCore.emptySlot.push
  · exact h

theorem State.Sound.startFiring (h : s.Sound) {a b c} : SomeSound (s.startFiring a b c) := by
  unfold State.startFiring
  dsimp only
  split
  · trivial
  · split
    · exact State.Sound.onBindery h.placeStore
    · exact State.Sound.onStrand (State.Sound.ite h.placeStore.onCore h.placeStore)

theorem State.Sound.stealFrom (h : s.Sound) {a b} : (s.stealFrom a b).1.Sound := h

theorem State.Sound.claimAndSleep (h : s.Sound) {a} : (s.claimAndSleep a).Sound := by
  unfold State.claimAndSleep
  dsimp only
  split
  · split <;> exact h
  · exact h

theorem State.Sound.fromOwn (h : s.Sound) {a} : (s.fromOwn a).1.Sound ∧ ∀ o, (s.fromOwn a).2 = some o → SomeSound o := by
  unfold State.fromOwn
  dsimp only
  split
  · exact ⟨h.setDeque, fun _ e => nomatch e⟩
  · refine ⟨h.setDeque, fun o e => ?_⟩
    cases e
    exact h.setDeque.startFiring

theorem State.Sound.findWork (h : s.Sound) : NextSound (execFindWork s) := by
  unfold execFindWork
  -- kept opaque: the kernel would evaluate it when it compares the cases
  obtain ⟨start, hs⟩ : ∃ f, f = State.startFiring := ⟨_, rfl⟩
  rw [← hs]
  dsimp only
  refine NextSound.ite h ?_
  obtain ⟨h1, h2⟩ := h.fromOwn (a := s.argN 0)
  split
  · rename_i e
    exact h2 _ (by rw [e])
  · exact h
  · rename_i e
    rw [e] at h1
    split
    · exact h1.claimAndSleep
    · split
      · exact State.Sound.claimAndSleep (State.Sound.forAll h1.stealFrom fun _ _ hv => hv.push)
      · split
        · rename_i e
          rw [hs] at e
          exact State.Sound.forAll (h1.stealFrom.startFiring.get e) fun _ _ hv => hv.push
        · exact h

theorem State.Sound.recordMsg (h : s.Sound) {a b k} : NextSound (recordMsg a b k s) := by
  refine h.terminate fun u hu => ?_
  dsimp only
  split
  · exact stop_act_sound hu _
  · exact Act.Sound.ite hu (State.Sound.ite hu hu)

theorem State.Sound.csteal (h : s.Sound) {x y} : NextSound (execCsteal x y s) := by
  refine h.terminate fun u hu => ?_
  dsimp only
  split <;> exact hu

theorem State.Sound.applySteal (h : s.Sound) {a b c d} : (s.applySteal a b c d).Sound := by
  unfold State.applySteal
  refine State.Sound.answerG (State.Sound.forAll ?_ fun _ _ hu => hu.push)
  split <;> exact h

theorem State.Sound.cstealTake (h : s.Sound) : NextSound (execCstealTake s) := by
  unfold execCstealTake
  split
  · exact NextSound.ite h.keepMsg h.applySteal.dropMsg
  · exact h

theorem State.Sound.applyHeld (h : s.Sound) {m} : (s.applyHeld m).Sound := by
  unfold State.applyHeld
  split
  · exact h.applyCdec
  · exact h.push
  · exact h.applyCarm
  · exact h.applySteal
  · exact h

end

section
variable {s : State}

/-! ## Stage barriers -/

theorem State.Sound.sbPut (h : s.Sound) {a b c d} : (s.sbPut a b c d).Sound := h.placeStore

theorem State.Sound.stageReaches (h : s.Sound) {a b c} : (s.stageReaches a b c).Sound := h.onStrand.wakeIdle

theorem State.Sound.sbAdvance (h : s.Sound) {a b c} : (s.sbAdvance a b c).1.Sound := by
  unfold State.sbAdvance
  dsimp only
  split
  · exact h.sbPut.breakBarrier.pair
  · split
    · exact State.Sound.pair (State.Sound.forAll h.sbPut fun _ _ hu => hu.stageReaches)
    · exact h.sbPut.pair

theorem State.Sound.sbArrive (h : s.Sound) {a b} : (s.sbArrive a b).1.Sound := by
  unfold State.sbArrive
  split
  · exact h.breakBarrier.pair
  · exact h.sbAdvance

theorem State.Sound.sbBytes (h : s.Sound) {a b} : (s.sbBytes a b).Sound := h.sbAdvance

theorem State.Sound.barrierBytes (h : s.Sound) : NextSound (execBarrierBytes s) := by
  unfold execBarrierBytes
  split
  · exact NextSound.ite h (State.Sound.dropMsg (State.Sound.ite h.sbBytes h))
  · exact h

theorem State.Sound.purgeQueue (h : s.Sound) {a} : (s.purgeQueue a).Sound := by
  unfold State.purgeQueue
  split
  · exact h
  · refine h.forAll fun u k hu => ?_
    exact State.Sound.ite hu.emptySlot hu

theorem State.Sound.markQuit (h : s.Sound) {a b c} : (s.markQuit a b c).Sound :=
  State.Sound.forAll (h.onCore.setDeque.purgeQueue) fun _ _ hu => hu.breakBarrier

theorem State.Sound.quitMark (h : s.Sound) : NextSound (execQuitMark s) := by
  unfold execQuitMark
  split
  · exact NextSound.ite h (NextSound.ite h h.markQuit.dropMsg)
  · exact h

theorem State.Sound.barrierOp (h : s.Sound) {l x p i} {f : State → Nat → Nat → Act}
    (hf : ∀ (u : State) c o, u.Sound → (f u c o).Sound) : NextSound (barrierOp l x p i f s) := by
  refine h.terminate fun u hu => ?_
  dsimp only
  split
  · exact hu
  · split
    · refine Act.Sound.ite hu (Act.Sound.ite hu (Act.Sound.ite hu ?_))
      split
      · exact hu
      · exact hf _ _ _ hu
    · exact hu

theorem State.Sound.sbInit (h : s.Sound) {x y} : NextSound (execSbInit x y s) := by
  refine h.barrierOp fun u c o hu => ?_
  refine Act.Sound.ite hu (Act.Sound.ite hu ?_)
  exact State.Sound.onQuire hu.placeStore

theorem State.Sound.arriveAt (h : s.Sound) {x a b c} : (s.arriveAt x a b c).Sound := by
  unfold State.arriveAt
  refine Act.Sound.ite h ?_
  split <;> exact sound_fst h.sbArrive ‹_›

theorem State.Sound.sbExp (h : s.Sound) {x y} : NextSound (execSbExp x y s) :=
  h.barrierOp fun _ _ _ hu => Act.Sound.ite hu hu.arriveAt

theorem State.Sound.sbWait (h : s.Sound) {x y} : NextSound (execSbWait x y s) := by
  unfold execSbWait
  split
  · exact h.terminate fun _ hu => hu
  · exact h
  · exact h.barrierOp fun _ _ _ hu => Act.Sound.ite hu (Act.Sound.ite hu hu)

theorem State.Sound.sbBrk (h : s.Sound) {x y} : NextSound (execSbBrk x y s) := by
  refine h.barrierOp fun u c o hu => Act.Sound.ite ?_ ?_
  · exact State.Sound.onQuire hu.breakBarrier.placeStore
  · exact hu.breakBarrier

/-! ## Copies -/

theorem State.Sound.readShape (h : s.Sound) {g c} : (s.readShape g c).1.Sound := by
  unfold State.readShape
  split
  · exact sound_fst h.recordArea ‹_›
  · have hu := sound_fst h.recordArea ‹_›
    split
    · exact hu
    · refine sound_fst_ite hu ?_
      split
      · exact sound_fst hu.recordArea ‹_›
      · split <;> exact sound_fst hu.recordArea ‹_›

theorem State.Sound.sideCheck (h : s.Sound) {c d e l i a v} : (s.sideCheck c d e l i a v).1.Sound := by
  unfold State.sideCheck
  dsimp only
  split
  · exact h
  · refine sound_fst_ite h ?_
    split
    · exact h
    · exact sound_fst_ite h (sound_fst_ite h h)
    · split <;> exact sound_fst h.plbRange ‹_›

theorem State.Sound.rowChecks {e n} (l : List Reg) : ∀ {s : State}, s.Sound → (s.rowChecks e n l).1.Sound := by
  induction l with
  | nil => exact fun h => h
  | cons c l ih =>
    intro s h
    unfold State.rowChecks
    split
    · exact sound_fst h.sideCheck ‹_›
    · split <;> exact sound_fst (ih (sound_fst h.sideCheck ‹_›)) ‹_›

theorem State.Sound.dstCheck (h : s.Sound) {k} : (s.dstCheck k).1.Sound := by
  unfold State.dstCheck
  split
  · exact h
  · split <;> exact sound_fst h.sideCheck ‹_›

theorem State.Sound.srcCheck (h : s.Sound) {k} : (s.srcCheck k).1.Sound := by
  unfold State.srcCheck
  refine sound_fst_ite (sound_fst_ite h ?_) ?_
  · split
    · exact sound_fst h.recordArea ‹_›
    · have hu := sound_fst h.recordArea ‹_›
      split
      · exact hu
      · dsimp only
        split <;> exact sound_fst (hu.rowChecks _) ‹_›
  · split
    · exact h
    · split <;> exact sound_fst h.sideCheck ‹_›

theorem State.Sound.issueCopy (h : s.Sound) {k} : (s.issueCopy k).Sound := by
  unfold State.issueCopy
  split
  · exact stop_act_sound (sound_fst h.dstCheck ‹_›) _
  · have hu := sound_fst h.dstCheck ‹_›
    split
    · exact stop_act_sound (sound_fst hu.srcCheck ‹_›) _
    · have hv := sound_fst hu.srcCheck ‹_›
      refine Act.Sound.ite hv (Act.Sound.ite hv ?_)
      split
      · exact stop_act_sound hv _
      · exact Act.Sound.ite hv hv

theorem State.Sound.cpT (h : s.Sound) {x y z} : NextSound (execCpT x y z s) := by
  refine h.terminate fun u hu => ?_
  split
  · exact stop_act_sound (sound_fst hu.readShape ‹_›) _
  · exact State.Sound.issueCopy (sound_fst hu.readShape ‹_›)

theorem State.Sound.cpB (h : s.Sound) {x y z} : NextSound (execCpB x y z s) :=
  h.terminate fun _ hu => Act.Sound.ite hu hu.issueCopy

theorem State.Sound.cpG (h : s.Sound) {x y z} : NextSound (execCpG x y z s) := by
  refine h.terminate fun u hu => ?_
  split
  · exact stop_act_sound (sound_fst hu.readShape ‹_›) _
  · exact State.Sound.issueCopy (sound_fst hu.readShape ‹_›)

theorem State.Sound.cpWait (h : s.Sound) {x} : NextSound (execCpWait x s) :=
  h.terminate fun _ hu => Act.Sound.ite (Act.Sound.ite hu hu) (Act.Sound.ite hu hu)

theorem State.Sound.cpSt (h : s.Sound) {x y} : NextSound (execCpSt x y s) := by
  refine h.terminate fun u hu => ?_
  dsimp only
  split <;> exact hu

theorem State.Sound.copyAccept (h : s.Sound) : NextSound (execCopyAccept s) := by
  unfold execCopyAccept
  dsimp only
  split
  · exact h
  · exact NextSound.ite h h

/-- A step of the engine that moves leaves a sound state. -/
def MovedSound : Moved → Prop
  | .moved s _ => s.Sound
  | _ => True

theorem moveSome_sound {f : State → CopyCmd → Moved} (hf : ∀ (u : State) c, u.Sound → MovedSound (f u c)) (n : Nat) :
    ∀ {s : State} {c}, s.Sound → (moveSome f s c n).1.Sound := by
  induction n with
  | zero => exact fun h => h
  | succ n ih =>
    intro s c h
    have hm := hf s c h
    unfold moveSome
    split
    · rename_i e
      rw [e] at hm
      exact ih hm
    · exact h

theorem State.Sound.putCommand (h : s.Sound) {q c} : (s.putCommand q c).Sound := h
theorem State.Sound.dropCommand (h : s.Sound) {q c} : (s.dropCommand q c).Sound := h

theorem State.Sound.sendCompletion (h : s.Sound) {c} : (s.sendCompletion c).Sound := by
  unfold State.sendCompletion
  dsimp only
  split
  · split <;> exact h
  · split
    · exact State.Sound.ite h h
    · exact h
  · split
    · exact State.Sound.ite h h
    · exact h
  · exact h

theorem State.Sound.engFault (h : s.Sound) {a b c d} : (s.engFault a b c d).Sound := State.Sound.ite h (State.Sound.ite h h)

theorem State.Sound.targetLost (h : s.Sound) {g l} : (s.targetLost g l).Sound := by
  unfold State.targetLost
  split
  · exact State.Sound.ite h.gangLoss h
  · exact h

end

section
variable {s : State}

/-! ## The copy engine -/

theorem MovedSound.ite {c : Prop} {_ : Decidable c} {x y : Moved} (hx : MovedSound x) (hy : MovedSound y) :
    MovedSound (if c then x else y) := by
  split
  · exact hx
  · exact hy

theorem State.Sound.readRun (h : s.Sound) {b c} : MovedSound (s.readRun b c) := by
  unfold State.readRun
  dsimp only
  refine MovedSound.ite trivial (MovedSound.ite h ?_)
  split
  · trivial
  · exact MovedSound.ite trivial h

theorem State.Sound.writeRead (h : s.Sound) {b k c} : MovedSound (s.writeRead b k c) := by
  unfold State.writeRead
  dsimp only
  refine MovedSound.ite trivial (MovedSound.ite h ?_)
  split
  · trivial
  · exact MovedSound.ite trivial h.writeSector.squashHome

theorem State.Sound.writeRun (h : s.Sound) {b c} : MovedSound (s.writeRun b c) := h.writeRead

theorem State.Sound.copyComplete (h : s.Sound) : NextSound (execCopyComplete s) := by
  unfold execCopyComplete
  dsimp only
  split
  · exact h
  · rename_i before c _
    have hx := moveSome_sound (f := (State.readRun · before ·)) (c := c) (fun _ _ hu => hu.readRun) (s.argN 2) h
    have hr := moveSome_sound (f := (State.writeRun · before ·)) (c := (moveSome (State.readRun · before ·) s c (s.argN 2)).2)
      (fun _ _ hu => hu.writeRun) (s.argN 3) hx
    split
    · exact hr.putCommand.dropCommand.sendCompletion
    · exact hr.putCommand

theorem State.Sound.copyStop (h : s.Sound) {c b t k a} (e : s.copyStop c b = some (t, k, a)) : t.Sound := by
  unfold State.copyStop at e
  have hf : ∀ m : Moved, (match m with
      | .failed k a => some (s, k, a)
      | _ => none) = some (t, k, a) → t.Sound := by
    intro m hm
    split at hm
    · cases hm
      exact h
    · cases hm
  dsimp only at e
  split at e
  · cases e
  · split at e
    · rename_i hm
      exact hf _ (hm.trans e)
    · split at e
      · cases e
        exact moveSome_sound (fun _ _ hu => hu.writeRead) _ h
      · cases e

theorem State.Sound.copyFault (h : s.Sound) : NextSound (execCopyFault s) := by
  unfold execCopyFault
  dsimp only
  split
  · split
    · exact h
    · have ht := h.copyStop ‹_›
      refine State.Sound.targetLost (State.Sound.onBindery (State.Sound.engFault ?_))
      split
      · exact State.Sound.ite ht.dropCommand.breakBarrier ht.dropCommand
      · exact ht.dropCommand
  · exact h

end

end Sys2Proof.Machine

/-! SUPPORT. Memory and tags stay in canonical form: the clock, the links between dies, try-each and the Bindery. -/

namespace Sys2Proof.Machine

open Sys2Proof Sys2Proof.Claims

section
variable {s : State}

/-! ## The clock and stamped lines -/

theorem State.Sound.pass (h : s.Sound) {e} : (s.pass e).Sound := h

theorem State.Sound.clkRd (h : s.Sound) {x y} : NextSound (execClkRd x y s) := h.issue fun _ hu => Act.Sound.ite hu hu

theorem State.Sound.clkWt (h : s.Sound) {x} : NextSound (execClkWt x s) := h.terminate fun _ hu => Act.Sound.ite hu hu

theorem State.Sound.clockWaitExpiry (h : s.Sound) : NextSound (execClockWaitExpiry s) := by
  unfold execClockWaitExpiry
  dsimp only
  split
  · exact NextSound.ite h h
  · exact h

theorem State.Sound.stampVersion (h : s.Sound) : NextSound (execStampVersion s) := by
  unfold execStampVersion
  split
  · exact NextSound.ite h (NextSound.ite h h)
  · exact h

theorem State.Sound.releaseVersions (h : s.Sound) {a b c} : (s.releaseVersions a b c).Sound := h

theorem State.Sound.applyVersions (h : s.Sound) {l g} : (s.applyVersions l g).Sound :=
  State.Sound.store (State.Sound.forAll h.store fun _ _ hu => hu.store)

theorem State.Sound.versionApply (h : s.Sound) : NextSound (execVersionApply s) :=
  NextSound.ite h (NextSound.ite h h.applyVersions.onDie.squashReaders)

theorem State.Sound.multicastHorizon (h : s.Sound) {g} : (s.multicastHorizon g).Sound := h

theorem State.Sound.horizonCollect (h : s.Sound) : NextSound (execHorizonCollect s) := by
  unfold execHorizonCollect
  split
  · exact h
  · exact State.Sound.ite h h

theorem State.Sound.horizonExchange (h : s.Sound) : NextSound (execHorizonExchange s) := by
  unfold execHorizonExchange
  split
  · exact NextSound.ite h h
  · exact h

theorem State.Sound.stale (h : s.Sound) {a b c d} : (s.stale a b c d).Sound := by
  unfold State.stale
  dsimp only
  split
  · exact h.answer.squash.raise
  · exact h

theorem State.Sound.serveStamp (h : s.Sound) {a b c} : (s.serveStamp a b c).1.Sound := by
  unfold State.serveStamp
  split
  · exact h
  · refine sound_fst_ite h ?_
    split
    · exact h
    · exact State.Sound.ite h.answer h.stale

theorem State.Sound.serveNeed (h : s.Sound) {a b c d e} : (s.serveNeed a b c d e).1.Sound := by
  unfold State.serveNeed
  dsimp only
  split
  · exact h
  · exact sound_fst_ite h h

theorem State.Sound.stampedRead (h : s.Sound) : NextSound (execStampedRead s) := by
  unfold execStampedRead
  dsimp only
  split
  · exact h
  · split
    · exact NextSound.ite h (NextSound.ite h.readLost h.serveStamp)
    · split
      · exact NextSound.ite h (NextSound.ite h.readLost h.serveNeed)
      · exact h
    · exact h

theorem State.Sound.stampUse (h : s.Sound) {a} : (s.stampUse a).Sound := h.touchAccess

theorem State.Sound.stampRead (h : s.Sound) {a l r o t} (e : s.stampRead a l r o = .ok t) : t.Sound := by
  unfold State.stampRead at e
  dsimp only at e
  split at e
  · cases e
  · split at e
    · cases e
    · split at e
      · cases e
      · cases e
        exact State.Sound.ite h.stampUse h.stampUse

theorem State.Sound.stStamp (h : s.Sound) {x y z} : NextSound (execStStamp x y z s) := by
  refine h.terminate fun u hu => ?_
  dsimp only
  split
  · exact stop_act_sound hu _
  · refine Act.Sound.ite hu (Act.Sound.ite hu (Act.Sound.ite hu ?_))
    exact Act.Sound.ite hu.stampUse hu.stampUse

theorem State.Sound.asofDone (h : s.Sound) : s.asofDone.Sound := h

theorem State.Sound.ldAsof (h : s.Sound) {x y z} : NextSound (execLdAsof x y z s) := by
  refine h.terminate fun u hu => ?_
  dsimp only
  split
  · exact stop_act_sound hu _
  · refine Act.Sound.ite hu ?_
    split
    · exact hu
    · exact State.Sound.asofDone (hu.stampRead ‹_›)

theorem State.Sound.stpRd (h : s.Sound) {x y} : NextSound (execStpRd x y s) := by
  refine h.issue fun u hu => ?_
  split
  · exact stop_act_sound hu _
  · split
    · exact hu
    · exact hu.stampRead ‹_›

/-! ## Remote accesses -/

theorem State.Sound.onRemote (h : s.Sound) {r f} : (s.onRemote r f).Sound := h
theorem State.Sound.failRemote (h : s.Sound) {r e} : (s.failRemote r e).Sound := h
theorem State.Sound.remoteDone (h : s.Sound) {r} : (s.remoteDone r).Sound := h
theorem State.Sound.dropRemote (h : s.Sound) {r} : (s.dropRemote r).Sound := h

theorem State.Sound.addMove (h : s.Sound) {a b c} : (s.addMove a b c).Sound := by
  unfold State.addMove
  dsimp only
  split <;> exact h

theorem State.Sound.sidePlb (h : s.Sound) {a b c} : (s.sidePlb a b c).1.Sound := by
  unfold State.sidePlb
  split
  · exact h.plbRange
  · exact h

theorem State.Sound.moveStop (h : s.Sound) {a b c d} : (s.moveStop a b c d).1.Sound := by
  unfold State.moveStop
  dsimp only
  split
  · exact h
  · split
    · exact h
    · refine sound_fst_ite h (sound_fst_ite h (sound_fst_ite h (sound_fst_ite h (sound_fst_ite h (sound_fst_ite h
        (sound_fst_ite h ?_))))))
      split
      · exact sound_fst h.sidePlb ‹_›
      · have hu := sound_fst h.sidePlb ‹_›
        split
        · exact sound_fst hu.sidePlb ‹_›
        · split <;> exact sound_fst hu.sidePlb ‹_›

theorem State.Sound.getPut (h : s.Sound) {w l x y f} : NextSound (getPut w l x y f s) := by
  refine h.terminate fun u hu => Act.Sound.ite hu ?_
  split
  · exact stop_act_sound (sound_fst hu.moveStop ‹_›) _
  · have hv := sound_fst hu.moveStop ‹_›
    exact Act.Sound.ite hv hv.addMove

theorem State.Sound.mig (h : s.Sound) {x y z} : NextSound (execMig x y z s) := by
  refine h.terminate fun u hu => ?_
  dsimp only
  split
  · exact hu
  · split
    · exact sound_fst hu.sidePlb ‹_›
    · have hv := sound_fst hu.sidePlb ‹_›
      exact Act.Sound.ite hv hv

theorem State.Sound.ramo (h : s.Sound) {o w d a b} : NextSound (ramo o w d a b s) := by
  refine h.terminate fun u hu => ?_
  dsimp only
  split
  · exact hu
  · refine Act.Sound.ite hu ?_
    split
    · exact stop_act_sound hu _
    · exact Act.Sound.ite hu hu.touchAccess

theorem served_sound {x : State × Bool} (h : x.1.Sound) {r} : (State.served x r).Sound := State.Sound.ite h.remoteDone h

theorem State.Sound.performLoad (h : s.Sound) {r o l} : (s.performLoad r o l).Sound := by
  unfold State.performLoad
  split
  · exact h.readLost.remoteDone.targetLost
  · refine State.Sound.ite h ?_
    split
    · exact h
    · split
      · split
        · exact served_sound (sound_fst_ite h.serveNeed h)
        · exact h
      · exact served_sound h.serveStamp
      · exact h

theorem State.Sound.performStore (h : s.Sound) {r l a b c} : (s.performStore r l a b c).Sound :=
  State.Sound.ite h.lostAccess.remoteDone.targetLost (State.Sound.ite h h.remoteDone.writeSector.squashHome)

theorem State.Sound.performRmw (h : s.Sound) {r a b c d e f g i} : (s.performRmw r a b c d e f g i).Sound :=
  State.Sound.ite (State.Sound.ite h.readLost.remoteDone.targetLost h.answerG.failRemote.targetLost)
    (State.Sound.ite h h.atomic.answerG.remoteDone)

theorem State.Sound.performPart (h : s.Sound) {r a b c d e f g} : (s.performPart r a b c d e f g).Sound := by
  unfold State.performPart
  dsimp only
  split
  · exact h
  · refine State.Sound.ite h.failRemote.targetLost (State.Sound.ite ?_ (State.Sound.ite h ?_))
    · split
      · exact h
      · exact State.Sound.ite h h.onRemote.placeStore
    · refine State.Sound.ite ?_ (State.Sound.ite h h)
      split
      · exact h
      · exact State.Sound.ite h h

theorem State.Sound.askRebinder (h : s.Sound) {r a b c} : (s.askRebinder r a b c).Sound :=
  State.Sound.ite h (State.Sound.ite h h)

theorem State.Sound.peerAccess (h : s.Sound) : s.peerAccess.Sound := by
  unfold State.peerAccess
  dsimp only
  refine State.Sound.ite h ?_
  split
  · exact State.Sound.ite h h.placeStore
  · exact State.Sound.ite h h.atomic
  · exact State.Sound.ite h h
  · exact h
  · exact h

theorem State.Sound.remotePerform (h : s.Sound) : NextSound (execRemotePerform s) := by
  unfold execRemotePerform
  refine NextSound.ite h.peerAccess ?_
  split
  · exact h
  · refine NextSound.ite h ?_
    split
    · exact State.Sound.ite h h.performLoad
    · exact State.Sound.ite h h.performStore
    · exact State.Sound.ite h h.performPart
    · exact State.Sound.ite h h.performRmw
    · exact h.askRebinder

theorem State.Sound.remoteComplete (h : s.Sound) : NextSound (execRemoteComplete s) := by
  unfold execRemoteComplete
  split
  · exact h
  · split
    · exact State.Sound.onBindery h.dropRemote.engFault
    · exact NextSound.ite h h

theorem State.Sound.remoteTimeout (h : s.Sound) : NextSound (execRemoteTimeout s) := by
  unfold execRemoteTimeout
  split
  · exact h
  · refine NextSound.ite h ?_
    split
    · split
      · exact h.readLost.remoteDone
      · exact h
    · exact NextSound.ite h.lostAccess.remoteDone h
    · split <;> exact h
    · exact NextSound.ite h (NextSound.ite h.readLost.remoteDone h)
    · exact h

/-! ## Migrations and losses -/

theorem State.Sound.redirect (h : s.Sound) {a b} : (s.redirect a b).Sound := h
theorem State.Sound.onMigration (h : s.Sound) {a f} : (s.onMigration a f).Sound := h

theorem State.Sound.copyPage (h : s.Sound) {a b} : (s.copyPage a b).Sound := h.placeSectors

theorem State.Sound.writeFrame (h : s.Sound) {a b} : (s.writeFrame a b).Sound := by
  refine State.Sound.forAll h.onBindery fun u t hu => ?_
  split
  · exact hu
  · exact hu.store

theorem State.Sound.endMigration (h : s.Sound) {r m k} : (s.endMigration r m k).Sound := by
  unfold State.endMigration
  dsimp only
  split
  · exact h
  · have hg : { s with migrations := s.migrations.filter (·.rid != m.rid) }.Sound := h
    exact State.Sound.ite hg.failRemote (State.Sound.ite h hg.remoteDone.placeStore)

theorem State.Sound.migration (h : s.Sound) : NextSound (execMigration s) := by
  unfold execMigration
  dsimp only
  split
  · split
    · exact h
    · split
      · split
        · exact h
        · split
          · exact h.endMigration
          · exact h.onMigration
      · split
        · split
          · exact h
          · split
            · exact h.endMigration
            · generalize s.sectorsHeld none _ = held
              split
              · exact h
              · exact h.copyPage.writeFrame.invalidatePage.redirect.onMigration
        · split
          · exact h
          · exact h.endMigration
  · exact h

theorem State.Sound.logged (h : s.Sound) : s.logged.Sound := by
  unfold State.logged State.Sound
  dsimp only
  exact h

theorem reset_sound : State.reset.Sound := ⟨rfl, rfl⟩

theorem powerOff_sound : s.powerOff.Sound := reset_sound

theorem State.Sound.discardVersions (h : s.Sound) {a} : (s.discardVersions a).Sound := h

theorem State.Sound.dieFence (h : s.Sound) : NextSound (execDieFence s) := by
  unfold execDieFence
  dsimp only
  split
  · exact h
  · split
    · exact State.Sound.next (powerOff_sound (s := s.logged))
    · refine State.Sound.forAll (State.Sound.forAll ?_ fun _ _ hu => hu.killFiring) fun _ _ hu => hu.gangLoss
      split
      · exact h.logged.onDie.discardVersions.onBindery
      · exact h.logged.onDie.discardVersions

theorem State.Sound.onPorts (h : s.Sound) {p} : State.Sound { s with ports := p } := h

theorem State.Sound.portLoss (h : s.Sound) : NextSound (execPortLoss s) := by
  unfold execPortLoss
  dsimp only
  split
  · exact h
  · exact State.Sound.onPorts h.logged

end

section
variable {s : State}

/-! ## Try-each -/

theorem State.Sound.tryEach (h : s.Sound) {x y z} : NextSound (execTryEach x y z s) := by
  refine h.terminate fun u hu => ?_
  -- kept opaque: the kernel would evaluate it when it compares the cases
  obtain ⟨held, e⟩ : ∃ f, f = State.sectorsHeld := ⟨_, rfl⟩
  rw [← e]
  dsimp only
  refine Act.Sound.ite hu (Act.Sound.ite hu ?_)
  split
  · exact hu
  · split
    · exact hu
    · refine Act.Sound.ite hu ?_
      split
      · exact stop_act_sound hu _
      · refine Act.Sound.ite hu (Act.Sound.ite hu ?_)
        split
        · exact hu
        · exact State.Sound.onArch hu.placeSectors

theorem State.Sound.putWord (h : s.Sound) {a b c} : (s.putWord a b c).Sound := h.writeSector
theorem State.Sound.tookPlace (h : s.Sound) {o l} : (s.tookPlace o l).Sound := h.squashReaders

theorem State.Sound.fail (h : s.Sound) : NextSound (execFail s) := by
  refine h.terminate fun u hu => ?_
  -- kept opaque: the kernel would evaluate it when it compares the cases
  obtain ⟨held, e⟩ : ∃ f, f = State.sectorsHeld := ⟨_, rfl⟩
  rw [← e]
  dsimp only
  refine Act.Sound.ite hu ?_
  split
  · exact stop_act_sound hu _
  · split
    · exact hu
    · refine State.Sound.onArch (State.Sound.tookPlace ?_)
      have hw : ∀ es : List TrailEntry, (Machine.forAll es (fun s e => s.putWord (padLoc (u.owner (coreOf u.cur)) e.raw) e.old e.tag) u).Sound :=
        fun _ => hu.forAll fun _ _ hv => hv.putWord
      exact State.Sound.ite (hw _) (hw _).store

theorem State.Sound.undoVictim (h : s.Sound) {a b} : (s.undoVictim a b).Sound := by
  unfold State.undoVictim
  split
  · exact h.squash
  · exact h

theorem State.Sound.copyArea (h : s.Sound) {a b c d e} : (s.copyArea a b c d e).Sound := h.forAll fun _ _ hu => hu.putWord

theorem State.Sound.stealChoice (h : s.Sound) {a b c} : (s.stealChoice a b c).Sound := by
  unfold State.stealChoice
  -- kept opaque: the kernel would evaluate it when it compares the cases
  obtain ⟨held, e⟩ : ∃ f, f = State.sectorsHeld := ⟨_, rfl⟩
  rw [← e]
  extract_lets
  refine Act.Sound.ite h (Act.Sound.ite h ?_)
  split
  · exact stop_act_sound h _
  · split
    · exact h
    · exact State.Sound.onArch h.undoVictim.copyArea.placeSectors.store.tookPlace

theorem State.Sound.tsteal (h : s.Sound) {x y} : NextSound (execTsteal x y s) := by
  refine h.terminate fun u hu => Act.Sound.ite hu ?_
  split
  · exact hu
  · exact Act.Sound.ite hu (Act.Sound.ite hu (Act.Sound.ite hu hu.stealChoice))

/-! ## The Bindery's tables -/

theorem State.Sound.out (h : s.Sound) {x} : (s.out x).Sound := h
theorem State.Sound.reply (h : s.Sound) {a b c d e} : (s.reply a b c d e).Sound := h

theorem State.Sound.blank (h : s.Sound) {r} : (s.blank r).Sound := ⟨cellsRise_filter _ h.1, natsRise_filter _ h.2⟩

theorem State.Sound.writeDomain (h : s.Sound) {d x} : (s.writeDomain d x).Sound := h.onBindery.placeStore.placeStore

theorem State.Sound.writeEntry (h : s.Sound) {e v} : SomeSound (s.writeEntry e v) := by
  refine SomeSound.foldl (fun u t hu => ?_) _ h.onBindery
  split
  · exact hu.placeStore
  · exact SomeSound.ite trivial hu

theorem State.Sound.makeShadows (h : s.Sound) {f} : (s.makeShadows f).Sound := h.forAll fun _ _ hu => hu.placeStore.placeStore

theorem State.Sound.mapReply (h : s.Sound) {o} : (s.mapReply o).Sound := by
  unfold State.mapReply
  dsimp only
  split
  · exact h
  · exact State.Sound.ite h h

theorem State.Sound.mapEnd (h : s.Sound) {o k l} : (s.mapEnd o k l).Sound := h.onBindery.mapReply

/-- What an operation of a MAP answers with no status is sound. -/
def OkSound : Except Nat (State × List OpenRef) → Prop
  | .ok (s, _) => s.Sound
  | .error _ => True

theorem OkSound.ite {c : Prop} {_ : Decidable c} {x y : Except Nat (State × List OpenRef)} (hx : OkSound x) (hy : OkSound y) :
    OkSound (if c then x else y) := by
  split
  · exact hx
  · exact hy

theorem State.Sound.mapping (h : s.Sound) {op f} (hf : ∀ o, OkSound (f o)) : NextSound (mapping op s f) := by
  have ho := hf s.mapOp
  unfold Machine.mapping
  dsimp only
  refine NextSound.ite h (NextSound.ite h.mapReply (NextSound.ite h.reply (NextSound.ite h.mapEnd (NextSound.ite h ?_))))
  split
  · exact h.mapEnd
  · rename_i e
    rw [e] at ho
    exact State.Sound.mapEnd ho

theorem State.Sound.mapPage (h : s.Sound) : NextSound (execMapPage s) := by
  refine h.mapping fun o => ?_
  split
  · trivial
  · dsimp only
    split
    · trivial
    · have hu := h.writeEntry.get ‹_›
      exact OkSound.ite (State.Sound.invalidatePage (State.Sound.ite hu.makeShadows hu)) (State.Sound.ite hu.makeShadows hu)

theorem State.Sound.unmapPage (h : s.Sound) : NextSound (execUnmapPage s) := by
  refine h.mapping fun o => ?_
  split
  · trivial
  · dsimp only
    split
    · trivial
    · have hu := h.writeEntry.get ‹_›
      exact OkSound.ite hu.invalidatePage hu

theorem State.Sound.invalidateRegion (h : s.Sound) {d r} : (s.invalidateRegion d r).Sound := h

theorem State.Sound.setRegion (h : s.Sound) : NextSound (execSetRegion s) := by
  refine h.mapping fun o => ?_
  dsimp only
  refine OkSound.ite trivial (OkSound.ite trivial ?_)
  split
  · trivial
  · refine OkSound.ite trivial (OkSound.ite trivial (OkSound.ite trivial ?_))
    split
    · exact h.writeDomain.invalidateRegion
    · exact h.writeDomain

theorem State.Sound.removeRegion (h : s.Sound) : NextSound (execRemoveRegion s) := by
  refine h.mapping fun o => OkSound.ite trivial ?_
  split
  · trivial
  · split
    · trivial
    · exact OkSound.ite trivial h.writeDomain.invalidateRegion

theorem State.Sound.setDomain (h : s.Sound) : NextSound (execSetDomain s) := by
  refine NextSound.ite h (h.mapping fun o => OkSound.ite trivial (OkSound.ite trivial ?_))
  exact h.writeDomain

theorem State.Sound.setSender (h : s.Sound) : NextSound (execSetSender s) := by
  refine h.mapping fun o => OkSound.ite trivial ?_
  split
  · trivial
  · exact OkSound.ite h (OkSound.ite h (OkSound.ite trivial h))

theorem State.Sound.registerPeer (h : s.Sound) : NextSound (execRegisterPeer s) := h.mapping fun _ => OkSound.ite trivial h

/-! ## LOAD -/

theorem State.Sound.placePages {w} (l : List Nat) : ∀ {s : State} {bs fr t k}, s.Sound →
    s.placePages w l bs fr = some (some (t, k)) → t.Sound := by
  induction l with
  | nil =>
    intro s bs fr t k h e
    cases e
    exact h
  | cons p l ih =>
    have go : ∀ (u : State) (now rest : List Byte) (fr : List Nat) {t k}, u.Sound → (match u.mappedLoc p with
        | some loc => (u.placeStore loc now none).placePages w l rest fr
        | none => some none) = some (some (t, k)) → t.Sound := by
      intro u now rest fr t k hu e
      split at e
      · exact ih hu.placeStore e
      · cases e
    intro s bs fr t k h e
    unfold State.placePages at e
    dsimp only at e
    split at e
    · exact go _ _ _ _ h e
    · split at e
      · cases e
      · split at e
        · cases e
        · split at e
          · cases e
          · exact go _ _ _ _ (h.writeEntry.get ‹_›) e

theorem State.Sound.placeCaps (h : s.Sound) {a l} : (s.placeCaps a l).Sound := by
  refine h.forAll fun u x hu => ?_
  split
  · exact hu.writeSector
  · exact hu

theorem State.Sound.dropCode (h : s.Sound) : s.dropCode.Sound := h

theorem State.Sound.load (h : s.Sound) : NextSound (execLoad s) := by
  unfold execLoad
  -- kept opaque: the kernel would evaluate it when it compares the cases
  obtain ⟨place, hp⟩ : ∃ f, f = State.placePages := ⟨_, rfl⟩
  rw [← hp]
  extract_lets
  refine NextSound.ite h ?_
  split
  · exact h
  · split
    · exact h
    · exact h
    · split
      · exact h
      · exact h
      · rename_i e
        rw [hp] at e
        have hu := h.placePages _ e
        split
        · exact h
        · exact h
        · rename_i e
          rw [hp] at e
          exact State.Sound.reply (State.Sound.onBindery (hu.placePages _ e).placeCaps.dropCode)

/-! ## QUERY, page faults, power and cooling -/

theorem State.Sound.serving (h : s.Sound) {k} {f : Nat → Nat → State} (hf : ∀ a b, (f a b).Sound) : NextSound (serving k s f) :=
  NextSound.ite (hf _ _) h

theorem State.Sound.querying (h : s.Sound) {k} {f : Nat → Nat → Nat → State} (hf : ∀ a b c, (f a b c).Sound) :
    NextSound (querying k s f) := h.serving fun _ _ => State.Sound.ite h (State.Sound.ite (hf _ _ _) h)

theorem State.Sound.queryGang (h : s.Sound) : NextSound (execQueryGang s) := by
  refine h.querying fun a b c => ?_
  split
  · exact h
  · exact State.Sound.ite h h

theorem State.Sound.queryFeatures (h : s.Sound) : NextSound (execQueryFeatures s) := by
  refine h.querying fun a b c => ?_
  split <;> exact h

theorem State.Sound.querySensors (h : s.Sound) : NextSound (execQuerySensors s) := h.querying fun _ _ _ => State.Sound.ite h h

theorem State.Sound.queryLog (h : s.Sound) : NextSound (execQueryLog s) := h.querying fun _ _ _ => State.Sound.ite h h

theorem State.Sound.queryIdentity (h : s.Sound) : NextSound (execQueryIdentity s) :=
  h.querying fun _ _ _ => State.Sound.ite h (State.Sound.ite h h)

theorem State.Sound.installPage (h : s.Sound) {k} : SomeSound (s.installPage k) :=
  SomeSound.ite trivial (h.writeEntry.map fun _ hu => State.Sound.ite hu hu)

theorem State.Sound.pgfltAnswer (h : s.Sound) : NextSound (execPgfltAnswer s) := by
  unfold execPgfltAnswer
  refine NextSound.ite h (NextSound.ite (h.installPage.getD h) (NextSound.ite (NextSound.ite h (NextSound.ite ?_ h.stubReturn)) ?_))
  · exact h.onBindery.stubReturn
  · exact h.event.sendQuit

theorem State.Sound.powerOn (h : s.Sound) : State.Sound { s with power := true } := h

theorem State.Sound.startDies (h : s.Sound) {l} : (Machine.forAll l State.startDie s).Sound := h.forAll fun _ _ hu => hu

theorem State.Sound.blankAll (h : s.Sound) {l} : (Machine.forAll l State.blank s).Sound :=
  h.forAll fun _ _ hu => State.Sound.blank hu

theorem State.Sound.powerUp (h : s.Sound) {p f} : State.Sound (State.onBindery { s with power := true, ports := p } f) := h

theorem State.Sound.powerGood (h : s.Sound) : NextSound (execPowerGood s) := by
  unfold execPowerGood
  extract_lets failed drt word t64 t32 ranges u v
  split
  · exact h
  split
  · exact State.Sound.ite h.powerOn.logged h.powerOn
  split
  · exact h
  · have hv : v.Sound := h.startDies.blankAll
    exact hv.powerUp

theorem State.Sound.notice (h : s.Sound) {a b c d e} : (s.notice a b c d e).Sound := h

theorem State.Sound.thermalAlarm (h : s.Sound) : NextSound (execThermalAlarm s) := NextSound.ite h h.logged.notice.onBindery

theorem powerRemoval_sound (h : s.Sound) : NextSound (execPowerRemoval s) := by
  unfold execPowerRemoval
  split
  · exact State.Sound.next (powerOff_sound (s := s.logged))
  · exact h

theorem State.Sound.lossOfDiscipline (h : s.Sound) : NextSound (execLossOfDiscipline s) := NextSound.ite h.logged.onDie h

theorem State.Sound.firmwareUpdate (h : s.Sound) : NextSound (execFirmwareUpdate s) := NextSound.ite h h

theorem State.Sound.adminListWrite (h : s.Sound) : NextSound (execAdminListWrite s) := NextSound.ite h h

end

section
variable {s : State}

/-! ## The start of a launch -/

/-- Tags set one after another stay in canonical form. -/
theorem setTags_wf {α : Type} (f : α → Nat) (l : List α) : ∀ {ts : List Nat}, Tags.wf ts = true →
    Tags.wf (l.foldl (fun t k => setTag t (f k) true) ts) = true := by
  induction l with
  | nil => exact fun h => h
  | cons k l ih => exact fun h => ih (setTag_wf _ _ h)

/-- Bytes written one after another leave memory in canonical form. -/
theorem writeCells_wf {α : Type} (f : α → Nat) (g : α → Byte) (l : List α) : ∀ {m : List Host.Cell}, Memory.wf m = true →
    Memory.wf (l.foldl (fun m x => writeByte m (f x) (g x)) m) = true := by
  induction l with
  | nil => exact fun h => h
  | cons k l ih => exact fun h => ih (writeByte_wf _ _ h)

theorem State.Sound.onLaunch (h : s.Sound) {g f} : (s.onLaunch g f).Sound := h
theorem State.Sound.putLaunch (h : s.Sound) {l} : (s.putLaunch l).Sound := h

theorem State.Sound.placeFeatures (h : s.Sound) {l c} : SomeSound (s.placeFeatures l c) := by
  unfold State.placeFeatures
  refine (h.blank.placeStore.writeEntry).map fun u hu => ?_
  split
  · exact State.Sound.ite hu hu.writeDomain
  · exact hu

theorem State.Sound.placeImage (h : s.Sound) {o g c} : (s.placeImage o g c).Sound :=
  ⟨h.blank.store.1, setTags_wf _ _ h.blank.store.2⟩

theorem State.Sound.setCtx (h : s.Sound) {a c} : (s.setCtx a c).Sound := h

theorem State.Sound.setUpCtxs (h : s.Sound) {l o} : (s.setUpCtxs l o).Sound := by
  unfold State.setUpCtxs
  have hs := h.forAll (l := l.held.zip l.ctxs)
    (f := fun s x => s.setCtx x.1 (ctxOfRecord (fillRecord l.domain l.gang x.2.2))) fun _ _ hu => hu.setCtx
  dsimp only
  split
  · refine hs.forAll fun u x hu => ?_
    split
    · exact hu.placeStore
    · exact hu
  · exact hs

theorem State.Sound.setUpQueue (h : s.Sound) {l q} : (s.setUpQueue l q).Sound :=
  (h.setCtx.setCtx.onDie).forAll fun _ _ hu => hu.store

theorem State.Sound.setUp (h : s.Sound) {l o c} : SomeSound (s.setUp l o c) := by
  unfold State.setUp
  refine SomeSound.ite trivial (h.placeFeatures.map fun u hu => ?_)
  have h1 := ((hu.putLaunch (l := l)).forAll (l := l.allCores) (f := fun s cid => s.setUpCore l o cid) fun _ _ hu => hu.onCore)
  have h2 := h1.forAll (l := l.allCores.flatMap strandsOf) (f := fun s sid => s.setUpStrand l sid) fun _ _ hu => hu.onStrand
  have h3 := h2.forAll (l := l.cores) (f := fun s cid => s.placeImage o l.gang cid) fun _ _ hu => hu.placeImage
  exact h3.setUpCtxs.forAll fun _ _ hu => hu.setUpQueue

theorem State.Sound.startEntry (h : s.Sound) {e c} : SomeSound (s.startEntry e c) := h.putSlot.startFiring

theorem State.Sound.startGang (h : s.Sound) {g} : SomeSound (s.startGang g) := by
  unfold State.startGang
  cases s.launch g with
  | none => trivial
  | some l => exact SomeSound.foldl (fun _ _ hu => hu.startEntry) _ h.onLaunch

theorem State.Sound.enlist (h : s.Sound) {l f c} : SomeSound (s.enlist l f c) := by
  unfold State.enlist
  split
  · trivial
  · exact h.setUp

theorem State.Sound.enlistStart (h : s.Sound) {l f c g} : SomeSound ((s.enlist l f c).bind fun u => u.startGang g) :=
  h.enlist.bind fun _ hu => hu.startGang

theorem State.Sound.launchHere (h : s.Sound) {l c} : (s.launchHere l c).Sound := by
  unfold State.launchHere
  dsimp only
  split
  · exact h.reply
  · refine State.Sound.ite h.putLaunch.reply ?_
    split
    · exact h.reply
    · exact (h.putLaunch.forAll fun _ _ hu => hu.preemptGang).reply
    · split
      · exact h
      · rename_i e
        exact (h.enlistStart.get e).reply

/-! ## Reservations, and the end of a launch -/

theorem State.Sound.dropLaunch (h : s.Sound) {l} : (s.dropLaunch l).Sound :=
  have h1 := h.forAll (l := l.held) (f := fun s x => s.setCtx x .off) fun _ _ hu => hu.setCtx
  h1.forAll fun _ _ hu => hu.onCore

theorem State.Sound.toChips (h : s.Sound) {l t v} : (s.toChips l t v).Sound := h.forAll fun _ _ hu => hu.out

theorem State.Sound.abort (h : s.Sound) {l} : (s.abort l).Sound := h.toChips.dropLaunch.reply

theorem State.Sound.reserve (h : s.Sound) {l c u} (e : s.reserve l c = some (.ok u)) : u.Sound := by
  unfold State.reserve at e
  split at e
  · cases e
  · split at e
    · cases e
    · cases e
    · obtain ⟨v, hv, ev⟩ := Option.map_eq_some_iff.mp e
      cases ev
      exact h.enlist.get hv

theorem State.Sound.prepareAll (h : s.Sound) {l b c} : SomeSound (s.prepareAll l b c) := by
  unfold State.prepareAll
  dsimp only
  split
  · trivial
  · exact h.reply
  · rename_i e
    exact (h.reserve e).toChips

theorem State.Sound.launch (h : s.Sound) : NextSound (execLaunch s) := by
  unfold execLaunch
  refine NextSound.ite h (NextSound.ite h.reply (NextSound.ite h.reply ?_))
  split
  · exact h.reply
  · exact NextSound.ite h.launchHere (h.prepareAll.getD h)

theorem State.Sound.launchEvent (h : s.Sound) {l c d} : (s.launchEvent l c d).Sound := h
theorem State.Sound.gangEvent (h : s.Sound) {l c} : (s.gangEvent l c).Sound := h

theorem State.Sound.launchDequeue (h : s.Sound) : NextSound (execLaunchDequeue s) := by
  unfold execLaunchDequeue
  split
  · exact h
  · split
    · exact h.enlistStart.getD h
    · exact h.dropLaunch.launchEvent
    · exact h

theorem State.Sound.gangEnd (h : s.Sound) : NextSound (execGangEnd s) := by
  unfold execGangEnd
  split
  · exact NextSound.ite h.dropLaunch.gangEvent h
  · exact h

theorem State.Sound.gangTimeout (h : s.Sound) : NextSound (execGangTimeout s) := by
  unfold execGangTimeout
  split
  · exact NextSound.ite h.killGang.gangEvent h
  · exact h

theorem State.Sound.killLaunch (h : s.Sound) {l} : (s.killLaunch l).Sound := State.Sound.ite h.killGang h.dropLaunch

theorem State.Sound.kill (h : s.Sound) : NextSound (execKill s) := by
  refine h.serving fun a b => ?_
  dsimp only
  split
  · exact h.killLaunch.reply
  · split
    · exact h.reply
    · exact State.Sound.ite h.reply (State.Sound.ite h.abort.reply h.killLaunch.reply)

/-! ## Pre-emption and resume -/

theorem State.Sound.moveImage (h : s.Sound) {a b n} : (s.moveImage a b n).Sound :=
  ⟨writeCells_wf _ _ _ h.blank.1, setTags_wf _ _ h.blank.2⟩

theorem State.Sound.stubAreas (h : s.Sound) {c} : (s.stubAreas c).Sound := by
  unfold State.stubAreas
  have hs : ∀ l, (Machine.forAll l State.stubSave s).Sound := fun _ => h.forAll fun _ _ hu => hu.placeSectors
  exact State.Sound.ite h (State.Sound.ite (hs _).placeSectors (hs _))

theorem State.Sound.saveTransfer (h : s.Sound) : NextSound (execSaveTransfer s) := by
  unfold execSaveTransfer
  dsimp only
  split
  · exact h
  split
  · exact h
  refine NextSound.ite h ?_
  have h1 := fun l => h.forAll (l := l) (f := State.stubAreas) fun _ _ hu => hu.stubAreas
  refine State.Sound.onLaunch (State.Sound.onQuire (State.Sound.forAll (State.Sound.forAll (State.Sound.forAll (h1 _) ?_) ?_) ?_))
  · exact fun _ _ hu => hu.moveImage
  · exact fun _ _ hu => hu.onCore
  · exact fun _ _ hu => hu.onStrand

theorem State.Sound.restoreCore (h : s.Sound) {x} : (s.restoreCore x).Sound :=
  (h.moveImage.setCore.onQuire).forAll fun _ _ hu => hu.setStrand

theorem State.Sound.catchUp (h : s.Sound) {g x} : (s.catchUp g x).Sound :=
  State.Sound.forAll (h.forAll fun _ _ hu => hu.markQuit) fun _ _ hu => hu.applyHeld

theorem State.Sound.stubResume (h : s.Sound) {k} : (s.stubResume k).Sound := State.Sound.ite h.wakeIdle h.stubReturn

theorem State.Sound.gangResume (h : s.Sound) : NextSound (execGangResume s) := by
  unfold execGangResume
  split
  · exact h
  · refine NextSound.ite h ?_
    have h1 := fun l => h.forAll (l := l) (f := State.restoreCore) fun _ _ hu => hu.restoreCore
    refine State.Sound.forAll (State.Sound.forAll (State.Sound.onLaunch (h1 _)) ?_) ?_
    · exact fun _ _ hu => hu.catchUp
    · exact fun _ _ hu => hu.stubResume

/-! ## Launches over several chips -/

theorem State.Sound.fromPeer (h : s.Sound) {f : Nat → Nat → State} (hf : ∀ a b, (f a b).Sound) : NextSound (fromPeer s f) :=
  NextSound.ite (hf _ _) h

theorem State.Sound.prepare (h : s.Sound) : NextSound (execPrepare s) := by
  refine h.fromPeer fun a b => ?_
  dsimp only
  refine State.Sound.ite h.out (State.Sound.ite h.out ?_)
  split
  · exact h
  · exact h.out
  · rename_i e
    exact (h.reserve e).out

theorem State.Sound.ready (h : s.Sound) : NextSound (execReady s) := by
  refine h.fromPeer fun a b => ?_
  split
  · exact h
  · exact State.Sound.ite h.abort (State.Sound.ite h.onLaunch (State.Sound.ite h h.onLaunch.toChips.reply))

theorem State.Sound.launchDeadline (h : s.Sound) : NextSound (execLaunchDeadline s) := by
  unfold execLaunchDeadline
  split
  · exact NextSound.ite h.abort h
  · exact h

theorem State.Sound.go (h : s.Sound) : NextSound (execGo s) := by
  refine h.fromPeer fun a b => ?_
  split
  · exact h
  · exact State.Sound.ite h (State.Sound.ite h.out.gangEvent h.onLaunch)

theorem State.Sound.chipStart (h : s.Sound) : NextSound (execChipStart s) := by
  unfold execChipStart
  split
  · split
    · exact NextSound.ite (h.startGang.getD h) h
    · exact h
  · exact h

theorem State.Sound.abortEvent (h : s.Sound) : NextSound (execAbort s) := by
  refine h.fromPeer fun a b => ?_
  split
  · exact State.Sound.ite h h.dropLaunch
  · exact h

theorem State.Sound.loseChip (h : s.Sound) {l c} : (s.loseChip l c).Sound := State.Sound.ite h.gangLoss h

theorem State.Sound.late (h : s.Sound) : NextSound (execLate s) := by
  refine h.fromPeer fun a b => ?_
  split
  · exact h
  · exact State.Sound.ite h.killLaunch h.loseChip.toChips

theorem State.Sound.chipLoss (h : s.Sound) : NextSound (execChipLoss s) := by
  unfold execChipLoss
  split
  · exact h.loseChip
  · exact h

end

end Sys2Proof.Machine

/-! SUPPORT. Memory and tags stay in canonical form: every instruction and event, and so every step. -/

namespace Sys2Proof.Machine

open Sys2Proof Sys2Proof.Claims

section
variable {s : State}

/-! ## The vector class, and every instruction and event -/

theorem State.Sound.enterPipe (h : s.Sound) {k} : (s.enterPipe k).Sound := State.Sound.ite (h.onCore.onCore) h.onCore

theorem State.Sound.vectorOp (h : s.Sound) {l d f} : NextSound (vectorOp l d f s) :=
  NextSound.ite h (h.issue fun _ hu => hu.setPending.enterPipe)

theorem State.Sound.vectorDispatch (h : s.Sound) : NextSound (execVectorDispatch s) := by
  unfold execVectorDispatch
  dsimp only
  split
  · exact h
  · split
    · exact h
    · exact h.onCore.onQuire.onStrand

theorem State.Sound.lanes2 (h : s.Sound) {d a b vm z m f} : NextSound (lanes2 d a b vm z m f s) := h.vectorOp
theorem State.Sound.lanes1 (h : s.Sound) {d a vm z m f} : NextSound (lanes1 d a vm z m f s) := h.vectorOp
theorem State.Sound.lanesFma (h : s.Sound) {n c d a b vm z m} : NextSound (lanesFma n c d a b vm z m s) := h.vectorOp
theorem State.Sound.lanesCmp (h : s.Sound) {d a b vm z m f} : NextSound (lanesCmp d a b vm z m f s) := h.vectorOp
theorem State.Sound.reduce (h : s.Sound) {d a vm m u f} : NextSound (reduce d a vm m u f s) := h.vectorOp
theorem State.Sound.lanesG (h : s.Sound) {l d b vm z m f} : NextSound (lanesG l d b vm z m f s) := h.vectorOp
theorem State.Sound.toG (h : s.Sound) {v g f} : NextSound (toG v g f s) := h.vectorOp
theorem State.Sound.narrowLanes (h : s.Sound) {d a b vm z m f} : NextSound (narrowLanes d a b vm z m f s) := h.vectorOp
theorem State.Sound.widenLanes (h : s.Sound) {d a vm z m f} : NextSound (widenLanes d a vm z m f s) := h.vectorOp

/-- Every instruction and every event keeps memory and tags in canonical form. -/
theorem exec_sound (h : s.Sound) (i : Instr) : NextSound (exec i s) := by
  cases i <;> dsimp only [exec]
  case add | sub | and | or | xor | andn | shl | shr | sha | rol | min | max | minz | maxz | clz | ctz | popc | mov | sel |
      addI | andI | orI | xorI | shlI | shrI | shaI | rolI | li | lis | setEq | setNe | setLt | setGe | setLo | setHs | cbase |
      clen | cperms | ctag | cclr | ceq | csub => exact h.fixedReg
  case mul | mulh | mulhz => exact h.multiply
  case div | divz | rem | remz => exact h.divide
  case cincr | cset | cbnd | cbndr | cperm | cseal | cunseal | cincrI => exact h.capOp
  case bEq | bNe | bLt | bGe | bLo | bHs => exact h.branch
  case jmp | call => exact h.issue fun _ hu => hu.transfer
  case jr | callr => exact h.issue fun _ hu => hu.jumpThrough
  case rptConst | rptReg => exact h.issue fun _ hu => hu.startFrame
  case ldB | ldBz | ldH | ldHz | ldW | ldWz | ldD | ldQ => exact h.scalarLoad
  case stB | stH | stW | stD | stQ => exact h.scalarStore
  case stc => exact h.stc
  case vld | vldS | vldX | vldB | vldH | vldHs | vldHx => exact h.vectorLoad
  case vst | vstS | vstX | vstH | vstHs | vstHx => exact h.vectorStore
  case pref => exact h.pref
  case cln | inv => exact h.lineOp
  case fence => exact h.fence
  case trap => exact h.terminate fun _ hu => Act.Sound.settleT hu
  case idle => exact h.issue fun _ hu => hu.waiting
  case ctxSave => exact h.ctxSave
  case ctxLoad => exact h.ctxLoad
  case gquit => exact h.gquit
  case gkill => exact h.issue fun _ hu => hu.killGang
  case gpre => exact h.issue fun _ hu => hu.preemptGang
  case csrr => exact h.csrr
  case csrw => exact h.writeCsr fun _ _ hu => hu
  case csrx => exact h.writeCsr fun _ _ hu => hu.setPendingT
  case sfqRd => exact h.sfqRd
  case plbInv => exact h.invalidating fun _ hu => hu.invalidate
  case mapInv => exact h.invalidating fun _ hu => hu.invalidatePage
  case amoAdd | amoAnd | amoOr | amoXor | amoMin | amoMax | amoMinz | amoMaxz | amoSwap | amoCas | amoFaddW | amoTopkD =>
    exact h.amo
  case bnCnt | bnAnti => exact h.stitchOp fun _ _ hu => hu.injectFor
  case bnSpread | bnArr => exact h.stitchOp fun _ _ hu => hu.inject
  case bnWait => exact h.bnWait
  case bnCfg => exact h.bnCfg
  case bnClr => exact h.bnClr
  case bnRd => exact h.terminate fun _ hu => hu.setPendingT
  case vadd | vsub | vmul | vmin | vmax | vscl | vaddI | vsubI | vmulI | vand | vor | vxor | vshl | vshr | vsha | vminI | vmaxI =>
    exact h.lanes2
  case vfma | vfms | vfnma => exact h.lanesFma
  case vabs | vneg | vrcpE | vrsqE | vgexp | vrnd | vcvtI2f | vcvtF2i => exact h.lanes1
  case vcmpEq | vcmpLt | vcmpLe | vcmpUn | vcmpIeq | vcmpIlt | vcmpIlo => exact h.lanesCmp
  case vsel | vperm | vins => exact h.vectorOp
  case vredsum | vredmax | vredmin | vredaddI => exact h.reduce
  case vbc | vaddS | vmulS | vfmaS | vslup | vsldn | vidx => exact h.lanesG
  case vext | mpopc | mfirst => exact h.toG
  case vcvtF2bf | vcvtF2h => exact h.narrowLanes
  case vcvtBf2f | vcvtH2f => exact h.widenLanes
  case mmaT8 | mmaT6 | mmaI8 | mmaBf | mmaH => exact h.mma
  case mzero => exact h.matrixOp fun _ hu => hu.enterMatrix
  case mld | mst => exact h.accTransfer
  case mwaitSus => exact h.mwaitSus
  case mwaitRes => exact h.mwaitRes
  case cdec | cpush | carm => exact h.recordMsg
  case csteal => exact h.csteal
  case cpT => exact h.cpT
  case cpB => exact h.cpB
  case cpG => exact h.cpG
  case cpWait => exact h.cpWait
  case cpSt => exact h.cpSt
  case sbInit => exact h.sbInit
  case sbArr => exact h.barrierOp fun _ _ _ hu => hu.arriveAt
  case sbExp => exact h.sbExp
  case sbTest => exact h.barrierOp fun _ _ _ hu => hu.setPendingT
  case sbWait => exact h.sbWait
  case sbBrk => exact h.sbBrk
  case get | put | getW | putW => exact h.getPut
  case mig => exact h.mig
  case ramoAdd | ramoAnd | ramoOr | ramoXor | ramoMin | ramoMax | ramoMinz | ramoMaxz | ramoSwap | ramoCas => exact h.ramo
  case clkRd => exact h.clkRd
  case stStamp => exact h.stStamp
  case ldAsof => exact h.ldAsof
  case clkWt => exact h.clkWt
  case stpRd => exact h.stpRd
  case tryEach => exact h.tryEach
  case cutto | cut => exact h.terminate fun _ hu => hu.onArch
  case cpmark => exact h.issue fun _ hu => hu.setPending
  case tsteal => exact h.tsteal
  case nop => exact h.issue fun _ hu => hu
  case cdone => exact h.cdone
  case drainst => exact h.drainst
  case cend => exact h.terminate fun _ hu => hu
  case sret => exact h.terminate fun _ hu => hu.sretBody
  case ebrk => exact h.ebrk
  case sfqPop => exact h.sfqPop
  case mwait => exact h.mwait
  case gwait => exact h.terminate fun _ hu => Act.Sound.ite hu.waiting hu
  case fail => exact h.fail
  case chunkCommit => exact h.chunkCommit
  case chunkLimit | ebrkRelease => exact h.onStrand
  case lineLimit => exact h.lineLimit
  case pairMismatch => exact h.pairMismatch
  case resultReturn => exact h.resultReturn
  case icacheFill => exact h.icacheFill
  case trapEntry => exact h.trapEntry
  case machineCheck => exact h.machineCheckEvent
  case translationLookup => exact h.translationLookup
  case plbFill => exact h.plbFill
  case pgfltAnswer => exact h.pgfltAnswer
  case l1Fill => exact h.onCore
  case siblingAccess => exact h.siblingAccess
  case amoExecute => exact h.amoExecute
  case vectorDispatch => exact h.vectorDispatch
  case matrixBlock =>
    generalize e : execMatrixBlock s = o
    exact h.matrixBlock e
  case accTransfer =>
    generalize e : execAccTransfer s = o
    exact h.accTransferTurn e
  case balancer => exact h.balancer
  case counterCell => exact h.counterCell
  case barrierTree => exact h.barrierTree
  case releaseMulticast => exact h.releaseMulticast
  case dieQueueSpill => exact h.dieQueueSpill
  case dieQueueClaim => exact h.dieQueueClaim
  case cdecApply => exact h.cdecApply
  case dequePush => exact h.dequePush
  case carmApply => exact h.carmApply
  case findWork => exact h.findWork
  case cstealTake => exact h.cstealTake
  case copyAccept => exact h.copyAccept
  case copyComplete => exact h.copyComplete
  case barrierBytes => exact h.barrierBytes
  case copyFault => exact h.copyFault
  case saveTransfer => exact h.saveTransfer
  case gangResume => exact h.gangResume
  case quitMark => exact h.quitMark
  case remotePerform => exact h.remotePerform
  case remoteComplete => exact h.remoteComplete
  case remoteTimeout => exact h.remoteTimeout
  case migration => exact h.migration
  case dieFence => exact h.dieFence
  case portLoss => exact h.portLoss
  case stampVersion => exact h.stampVersion
  case stampRelease => exact h.releaseVersions
  case versionApply => exact h.versionApply
  case horizonCollect => exact h.horizonCollect
  case horizonUpdate | clockDiscipline => exact h.onDie
  case horizonExchange => exact h.horizonExchange
  case stampedRead => exact h.stampedRead
  case clockWaitExpiry => exact h.clockWaitExpiry
  case idleTimeout => exact h.wakeIdle
  case gangTimeout => exact h.gangTimeout
  case gangEnd => exact h.gangEnd
  case load => exact h.load
  case mapPage => exact h.mapPage
  case unmapPage => exact h.unmapPage
  case setRegion => exact h.setRegion
  case removeRegion => exact h.removeRegion
  case setDomain => exact h.setDomain
  case setSender => exact h.setSender
  case registerPeer => exact h.registerPeer
  case launch => exact h.launch
  case launchDequeue => exact h.launchDequeue
  case queryGangs => exact h.querying fun _ _ _ => h.reply
  case queryFeatures => exact h.queryFeatures
  case querySensors => exact h.querySensors
  case queryLog => exact h.queryLog
  case queryIdentity => exact h.queryIdentity
  case queryGang => exact h.queryGang
  case kill => exact h.kill
  case prepare => exact h.prepare
  case ready => exact h.ready
  case go => exact h.go
  case abort => exact h.abortEvent
  case late => exact h.late
  case launchDeadline => exact h.launchDeadline
  case chipStart => exact h.chipStart
  case powerGood => exact h.powerGood
  case thermalAlarm => exact h.thermalAlarm
  case powerRemoval => exact powerRemoval_sound h
  case firmwareUpdate => exact h.firmwareUpdate
  case adminListWrite => exact h.adminListWrite
  case cpstkWrite => exact h.cpstkWrite
  case trailWrite => exact h.trailWrite
  case tpcWrite | csrWrite => exact h.csrPut
  case fflagsAccess => exact h.fflagsAccess
  case unassignedWord => exact h.raise
  case chipLoss => exact h.chipLoss
  case lossOfDiscipline => exact h.lossOfDiscipline
  case conditionClears => exact h.onBindery
  case messageDropped => exact h

theorem State.Sound.issueStrand (h : s.Sound) {sid} : NextSound (s.issueStrand sid) := by
  unfold State.issueStrand
  refine NextSound.ite ?_ h.unready
  split
  · exact State.Sound.waiting (w := _) (s := { s with cur := sid }) h
  · refine NextSound.ite ?_ h
    split
    · exact exec_sound (s := { s.fetched sid with cur := sid, park := _ }) h.fetched _
    · exact exec_sound (s := { s.fetched sid with cur := sid, arg := _ }) h.fetched _
    · exact Act.Sound.settle (stop_act_sound (s := { s.fetched sid with cur := sid }) h.fetched _)

theorem State.Sound.turn (h : s.Sound) {t} : NextSound (s.turn t) := by
  cases t with
  | issue sid => exact h.issueStrand
  | event e a => exact NextSound.ite (exec_sound (s := { s with arg := a }) h e) h

/-- Every step that has a next state keeps memory and tags in canonical form. -/
theorem step_sound (h : s.Sound) : NextSound (step s) := by
  unfold step
  split
  · rename_i t rest _
    exact State.Sound.turn (s := { s with turns := rest, ticks := s.ticks + 1 }) h
  · exact State.Sound.turn (s := { s.pass (Config.elapsed s.ticks) with ticks := s.ticks + 1 }) h

end

/-- Settles O58: every operation of the model writes memory through `writeByte` and tags through `setTag` (or drops entries), so
each instruction and each event keeps their canonical form, and a turn is one of these. -/
theorem stepsKeepMemorySound : Obligations.StepsKeepMemorySound := by
  unfold Obligations.StepsKeepMemorySound
  intro s s' h e
  have hs := step_sound h
  rw [e] at hs
  exact hs

end Sys2Proof.Machine

/-! SUPPORT. The clock pair of a die holds the reference time (19 R357). -/

namespace Sys2Proof.Machine

open Sys2Proof Sys2Proof.Claims

/-- A clock that holds the reference time holds it as time passes; no end falls, the width grows by at most 2 ns for each millisecond,
and stays within its bound under discipline. -/
theorem Die.pass_holdsTime {d : Die} {now bound e ms grow : Nat} (h : HoldsTime now d) :
    HoldsTime (now + e) (d.pass bound e ms grow) ∧ d.earliest ≤ (d.pass bound e ms grow).earliest ∧
      d.latest ≤ (d.pass bound e ms grow).latest ∧
      (d.pass bound e ms grow).latest - (d.pass bound e ms grow).earliest ≤ d.latest - d.earliest + 2 * ms ∧
      (d.lost = false → d.latest - d.earliest ≤ bound →
        (d.pass bound e ms grow).latest - (d.pass bound e ms grow).earliest ≤ bound) := by
  obtain ⟨hlow, hhigh⟩ := h
  unfold HoldsTime Die.pass
  cases hl : d.lost
  · simp only [Bool.false_eq_true, if_false]
    omega
  · simp only [↓reduceIte, Bool.true_eq_false, false_implies, and_true]
    omega

/-- The clock of a die as discipline leaves it. -/
def Die.disciplined (d : Die) (now bound up held : Nat) : Die :=
  let d := { d with earliest := max d.earliest (min (d.earliest + up) now), hold := min (d.hold + held) (d.latest - now) }
  { d with lost := d.lost && decide (bound < d.width) }

theorem clockDiscipline_eq (s : State) : exec .clockDiscipline s =
    .next (s.onDie (s.argN 0) fun d => d.disciplined s.now s.widthBound (s.argN 1) (s.argN 2)) := rfl

theorem Die.disciplined_holdsTime {d : Die} {now bound up held : Nat} (h : HoldsTime now d) :
    HoldsTime now (d.disciplined now bound up held) ∧ d.earliest ≤ (d.disciplined now bound up held).earliest ∧
      (d.disciplined now bound up held).latest = d.latest := by
  obtain ⟨hlow, hhigh⟩ := h
  unfold HoldsTime Die.disciplined
  dsimp only
  omega

theorem Die.disciplined_lost {d : Die} {now bound up held : Nat}
    (h : (d.disciplined now bound up held).latest - (d.disciplined now bound up held).earliest ≤ bound) :
    (d.disciplined now bound up held).lost = false := by
  simp only [Die.disciplined, Die.width] at h ⊢
  simp only [Nat.not_lt.mpr h, decide_false, Bool.and_false]

/-- Settles O39, from what the passing of time and discipline each do to one clock. -/
theorem clocksHoldTheReferenceTime : Obligations.ClocksHoldTheReferenceTime := by
  unfold Obligations.ClocksHoldTheReferenceTime
  refine ⟨fun d now bound e ms grow h => d.pass_holdsTime h, fun s h => ⟨_, clockDiscipline_eq s, rfl, fun k => ?_, ?_, ?_, rfl, rfl⟩⟩
  · by_cases hk : k = s.argN 0
    · subst hk
      rw [State.die_onDie_self]
      exact Die.disciplined_holdsTime (h _)
    · rw [State.die_onDie_ne _ hk]
      exact ⟨h k, Nat.le_refl _, rfl⟩
  · rw [State.die_onDie_self]
    rfl
  · rw [State.die_onDie_self]
    exact Die.disciplined_lost

end Sys2Proof.Machine

/-! SUPPORT. What an undo of the trail leaves (20 R380). -/

namespace Sys2Proof.Machine

open Sys2Proof Sys2Proof.Claims

/-! ## A word put back (20 R380) -/

/-- A byte read after a word is put back at a multiple of 8. -/
theorem readByte_putWord (s : State) {loc : Nat} (hl : loc % 8 = 0) (v : Word) (tag : Bool) (a : Nat) :
    readByte (s.putWord loc v tag).mem a =
      if loc ≤ a ∧ a < loc + 8 then BitVec.ofNat 8 (v.toNat / 256 ^ (a - loc)) else readByte s.mem a := by
  unfold State.putWord
  rw [State.writeSector_mem, readByte_mergeBytes, Nat.mul_comm (loc % 16) 8,
    show (v.setWidth 128 : BitVec 128) = BitVec.ofNat 128 v.toNat from (BitVec.ofNat_toNat 128 v).symm]
  by_cases h : loc / 16 * 16 ≤ a ∧ a < loc / 16 * 16 + 16
  · rw [if_pos h, byteOf_bitsFor 8 (loc % 16) _ (by omega) (by omega),
      byteOf_shifted v.toNat 8 (loc % 16) _ v.isLt (by omega)]
    by_cases hin : loc ≤ a ∧ a < loc + 8
    · have hk : loc % 16 ≤ a - loc / 16 * 16 ∧ a - loc / 16 * 16 < loc % 16 + 8 := by omega
      have hd : a - loc / 16 * 16 - loc % 16 = a - loc := by omega
      rw [if_pos hin, if_pos hk, if_pos hk, hd, BitVec.not_allOnes, BitVec.and_zero, BitVec.zero_or, BitVec.and_allOnes]
    · have hk : ¬ (loc % 16 ≤ a - loc / 16 * 16 ∧ a - loc / 16 * 16 < loc % 16 + 8) := by omega
      rw [if_neg hin, if_neg hk, if_neg hk]
      show (_ &&& BitVec.allOnes 8) ||| (0#8 &&& 0#8) = _
      rw [BitVec.and_allOnes, BitVec.and_self, BitVec.or_zero]
  · rw [if_neg h, if_neg (by omega)]

/-- The tag of a sector after a word is put back. -/
theorem tagAt_putWord (s : State) {loc : Nat} (hl : loc % 8 = 0) (v : Word) (tag : Bool) (k : Nat) :
    tagAt (s.putWord loc v tag).tags k = if k = loc / 16 then tag else tagAt s.tags k := by
  have hwritten : ∃ k, k < 16 ∧ byteOf (bitsFor 8 <<< (8 * (loc % 16))) k ≠ 0 := by
    refine ⟨loc % 16, by omega, ?_⟩
    rw [byteOf_bitsFor 8 (loc % 16) _ (by omega) (by omega), if_pos (by omega)]
    decide
  unfold State.putWord
  rw [State.writeSector_tags, Nat.mul_comm (loc % 16) 8, tagAt_mergeTags _ _ _ _ _ _ (by omega) (Nat.le_refl 16),
    show loc / 16 * 16 / 16 = loc / 16 by omega]
  simp only [hwritten, and_true]

/-- A word read where it has been put back. -/
theorem readNat_putWord (s : State) {loc : Nat} (hl : loc % 8 = 0) (v : Word) (tag : Bool) :
    readNat (s.putWord loc v tag).mem loc 8 = v.toNat :=
  readNat_of _ _ _ _ v.isLt fun j hj => by
    rw [readByte_putWord s hl, if_pos (by omega), Nat.add_sub_cancel_left]

/-! ## An undo, entry by entry -/

theorem padLoc_mod (cid : Nat) {raw : Nat} (h : raw % 8 = 0) : padLoc cid raw % 8 = 0 := by
  unfold padLoc padOrigin
  omega

theorem undone_cons (s : State) (cid : Nat) (e : TrailEntry) (l : List TrailEntry) :
    undone s cid (e :: l) = undone (s.putWord (padLoc cid e.raw) e.old e.tag) cid l := by
  unfold undone
  exact List.foldl_cons ..

theorem undone_append (s : State) (cid : Nat) (l k : List TrailEntry) :
    undone s cid (l ++ k) = undone (undone s cid l) cid k := by
  induction l generalizing s with
  | nil => rfl
  | cons e l ih => rw [List.cons_append, undone_cons, undone_cons, ih]

/-- An undo changes no byte outside the words of its entries. -/
theorem readByte_undone {cid a : Nat} {l : List TrailEntry} (s : State)
    (h : ∀ x ∈ l, x.raw % 8 = 0 ∧ (a < padLoc cid x.raw ∨ padLoc cid x.raw + 8 ≤ a)) :
    readByte (undone s cid l).mem a = readByte s.mem a := by
  induction l generalizing s with
  | nil => rfl
  | cons e l ih =>
    obtain ⟨hraw, hout⟩ := h e List.mem_cons_self
    rw [undone_cons, ih _ fun x hx => h x (List.mem_cons_of_mem e hx), readByte_putWord s (padLoc_mod cid hraw), if_neg (by omega)]

/-- An undo changes no tag but those of the sectors of its entries. -/
theorem tagAt_undone {cid k : Nat} {l : List TrailEntry} (s : State) (h : ∀ x ∈ l, x.raw % 8 = 0 ∧ k ≠ padLoc cid x.raw / 16) :
    tagAt (undone s cid l).tags k = tagAt s.tags k := by
  induction l generalizing s with
  | nil => rfl
  | cons e l ih =>
    obtain ⟨hraw, hout⟩ := h e List.mem_cons_self
    rw [undone_cons, ih _ fun x hx => h x (List.mem_cons_of_mem e hx), tagAt_putWord s (padLoc_mod cid hraw), if_neg hout]

/-- Settles O41: what the entry puts back is read again after the older ones, which name other words. -/
theorem undoEndsWithTheOldestEntry : Obligations.UndoEndsWithTheOldestEntry := by
  unfold Obligations.UndoEndsWithTheOldestEntry
  intro s cid newer older e hraw holder hne
  have happ : undone s cid (newer ++ e :: older) =
      undone ((undone s cid newer).putWord (padLoc cid e.raw) e.old e.tag) cid older  := by
    rw [undone_append, undone_cons]
  refine ⟨?_, fun hsector => ?_, fun a h => readByte_undone s h⟩
  · rw [happ, ← readNat_putWord (undone s cid newer) (padLoc_mod cid hraw) e.old e.tag]
    refine readNat_congr _ _ _ _ fun j hj => readByte_undone _ fun x hx => ⟨holder x hx, ?_⟩
    have h8 := holder x hx
    have hx := hne x hx
    unfold padLoc padOrigin
    omega
  · rw [happ, tagAt_undone _ fun x hx => ⟨holder x hx, ?_⟩, tagAt_putWord _ (padLoc_mod cid hraw), if_pos rfl]
    have hx := hsector x hx
    unfold padLoc padOrigin
    omega

end Sys2Proof.Machine

/-! SUPPORT. Waits and tests on a stage barrier (15 R295). -/

namespace Sys2Proof.Machine

open Sys2Proof Sys2Proof.Claims

/-! ## The members of 0x26 at a barrier that passes its checks -/

section
variable {s u : State} {reads : List RegName} {bar : BitVec 6} {perm cid off : Nat} {init : Bool}

/-- A member of 0x26 acts on the barrier that passes the checks (15 R304). -/
theorem barrierOp_of_atBarrier (h : MayEnd false false reads s u) (hat : AtBarrier u bar perm init cid off)
    (body : State → Nat → Nat → Act) : barrierOp reads bar perm init body s = .next (body u cid off).settleT := by
  have hplace : ¬ ((u.me.readG bar).cursor % 16 ≠ 0 ∨ quireOfCore cid ≠ quireOf u.cur ∨ u.padSize cid < off + 16) := by
    simp only [hat.aligned, hat.quire, ne_eq, not_true_eq_false, false_or, Nat.not_lt.mpr hat.inside, not_false_eq_true]
  have hopen : (!u.me.smode && u.protectedRaw cid off) = false := by
    rcases hat.open_ with hm | hp
    · rw [hm]; rfl
    · rw [hp, Bool.and_false]
  have hnamed : (!init && !(u.quire (quireOf u.cur)).names cid off) = false := by
    cases hi : init
    · rw [hat.named hi]; rfl
    · rfl
  refine (terminate_of_mayEnd h _).trans ?_
  simp only [hat.allowed, hat.here, if_neg hplace, hopen, hnamed, hat.free, Bool.false_eq_true, if_false]

end

/-! ## Waits and tests (15 R295, R307) -/

/-- The model's test of a phase is that of 15 R295. -/
theorem phasePassed_iff {phase p : Nat} (hphase : phase < 2 ^ 16) (hp : p < 2 ^ 16) : phasePassed phase p = true ↔
    1 ≤ ((phase : Int) - p) % 2 ^ 16 ∧ ((phase : Int) - p) % 2 ^ 16 < 2 ^ 15 := by
  unfold phasePassed
  simp only [Bool.and_eq_true, decide_eq_true_eq]
  omega

theorem sbWait_of_unparked {s : State} {x y : BitVec 6} (h : Unparked s) : exec (.sbWait x y) s =
    barrierOp [.g x, .g y] x permLD false (fun s cid off =>
      let loc := padLoc cid off
      if s.sbBroken loc then .trap s .sbbroken (s.me.readG x).low
      else if phasePassed (s.sbPhase loc) (s.me.word y).toNat then .done s
      else .hold (s.waiting (.stage loc ((s.me.word y).toNat % 65536) (s.me.readG x).low))) s := by
  obtain ⟨hpassed, hstage⟩ := h
  show execSbWait x y s = _
  unfold execSbWait
  split
  · next hw => exact absurd hw hpassed
  · next hw => exact absurd hw (hstage _ _ _)
  · rfl

/-- A terminator that has nothing more to do has only counted itself. -/
theorem ran_end (u : State) : Ran u (Act.done u).settleT u.me.ended (u.strand u.cur).out where
  toOwn := end_own rfl rfl
  rest := by
    obtain ⟨-, -, -, -, hrest⟩ := settleT_done (v := u)
    exact hrest

/-- Settles O36, from what a member of 0x26 does at a barrier that passes the checks. -/
theorem waitsAndTestsPassOnLaterPhases : Obligations.WaitsAndTestsPassOnLaterPhases := by
  unfold Obligations.WaitsAndTestsPassOnLaterPhases
  refine ⟨fun phase p hphase hp => phasePassed_iff hphase hp, ?test, ?parked, ?passed, ?wait⟩
  case test =>
    rintro s u x y z cid off loc rfl h hat
    rw [← h.cur]
    exact ⟨_, _, barrierOp_of_atBarrier h hat _, ran_end_pending u _ _⟩
  case parked =>
    intro s x y l p a hw
    show execSbWait x y s = _
    unfold execSbWait
    rw [hw]
  case passed =>
    intro s u x y hw h
    obtain ⟨t, ht, hran⟩ := h.ran (body := Act.done) rfl
    refine ⟨t, ?_, hran⟩
    rw [← ht]
    show execSbWait x y s = _
    unfold execSbWait
    rw [hw]
  case wait =>
    rintro s u x y cid off loc rfl h hunparked hat
    rw [sbWait_of_unparked hunparked, barrierOp_of_atBarrier h hat, ← h.cur]
    refine ⟨fun hbroken => ?_, fun hwhole => ⟨fun hpass => ⟨_, rfl, ?_⟩, fun hpass => ?_⟩⟩
    · simp only [hbroken, if_true, Act.settleT]
    · simp only [hwhole, hpass, Bool.false_eq_true, if_false, if_true]
      exact ran_end u
    · simp only [hwhole, hpass, Bool.false_eq_true, if_false, Act.settleT]
      rfl

end Sys2Proof.Machine

/-! SUPPORT. The members of 0x26 and Advance (15 R294, R304 to R308). -/

namespace Sys2Proof.Machine

open Sys2Proof Sys2Proof.Claims

/-! ## The checks of 15 R304 -/

/-- Every member of 0x26 begins with the same checks. -/
theorem exec_of_barrierMember {i : Instr} {bar : BitVec 6} {perm : Nat} {init : Bool} {reads : List RegName} {s : State}
    (hi : barrierMember i = some (bar, perm, init, reads)) (hunparked : Unparked s) :
    ∃ body, exec i s = barrierOp reads bar perm init body s := by
  unfold barrierMember at hi
  split at hi <;> cases hi
  case h_5 => exact ⟨_, sbWait_of_unparked hunparked⟩
  all_goals exact ⟨_, rfl⟩

section
variable {s u : State} {reads : List RegName} {bar : BitVec 6} {perm : Nat} {init : Bool} {body : State → Nat → Nat → Act}
  (h : MayEnd false false reads s u)
include h

theorem barrierOp_trap {cause : Cause} (hcheck : checkCap u.me.smode (u.me.readG bar) (u.me.readG bar).cursor 16 [perm] 0 = some cause) :
    barrierOp reads bar perm init body s = .next (u.raise s.cur cause (u.me.readG bar).low) := by
  rw [← h.cur]
  refine (terminate_of_mayEnd h _).trans ?_
  simp only [hcheck, Act.settleT]

variable (hcheck : checkCap u.me.smode (u.me.readG bar) (u.me.readG bar).cursor 16 [perm] 0 = none)
include hcheck

theorem barrierOp_misplaced (hplace : (u.me.readG bar).cursor % 16 ≠ 0 ∨ ∀ cid off,
      u.place (coreOf s.cur) (u.me.readG bar).cursor = .pad cid 0 off → quireOfCore cid ≠ quireOf s.cur ∨ u.padSize cid < off + 16) :
    barrierOp reads bar perm init body s = .next (u.raise s.cur .align (u.me.readG bar).low) := by
  rw [← h.cur] at hplace ⊢
  refine (terminate_of_mayEnd h _).trans ?_
  simp only [hcheck]
  split
  · next cid off hpad => rw [if_pos (hplace.imp_right fun hp => hp cid off hpad)]; rfl
  · rfl

variable {cid off : Nat} (halign : (u.me.readG bar).cursor % 16 = 0)
  (hpad : u.place (coreOf s.cur) (u.me.readG bar).cursor = .pad cid 0 off) (hquire : quireOfCore cid = quireOf s.cur)
  (hinside : off + 16 ≤ u.padSize cid)
include halign hpad hquire hinside

theorem barrierOp_protected (hmode : u.me.smode = false) (hprotected : u.protectedRaw cid off = true) :
    barrierOp reads bar perm init body s = .next (u.raise s.cur .capbnd (u.me.readG bar).low) := by
  rw [← h.cur] at hpad hquire ⊢
  have hplace : ¬ ((u.me.readG bar).cursor % 16 ≠ 0 ∨ quireOfCore cid ≠ quireOf u.cur ∨ u.padSize cid < off + 16) := by
    simp only [halign, hquire, ne_eq, not_true_eq_false, false_or, Nat.not_lt.mpr hinside, not_false_eq_true]
  have hclosed : (!u.me.smode && u.protectedRaw cid off) = true := by rw [hmode, hprotected]; rfl
  refine (terminate_of_mayEnd h _).trans ?_
  simp only [hcheck, hpad, if_neg hplace, hclosed, if_true, Act.settleT]

theorem barrierOp_unnamed (hinit : init = false) (hopen : u.me.smode = true ∨ u.protectedRaw cid off = false)
    (hnamed : (u.quire (quireOf s.cur)).names cid off = false) :
    barrierOp reads bar perm init body s = .next (u.raise s.cur .sbbroken (u.me.readG bar).low) := by
  rw [← h.cur] at hpad hquire hnamed ⊢
  have hplace : ¬ ((u.me.readG bar).cursor % 16 ≠ 0 ∨ quireOfCore cid ≠ quireOf u.cur ∨ u.padSize cid < off + 16) := by
    simp only [halign, hquire, ne_eq, not_true_eq_false, false_or, Nat.not_lt.mpr hinside, not_false_eq_true]
  have hopen : (!u.me.smode && u.protectedRaw cid off) = false := by
    rcases hopen with hm | hp
    · rw [hm]; rfl
    · rw [hp, Bool.and_false]
  refine (terminate_of_mayEnd h _).trans ?_
  simp only [hcheck, hpad, if_neg hplace, hopen, hinit, hnamed, Bool.not_false, Bool.and_self, Bool.false_eq_true, if_false, if_true,
    Act.settleT]

end

/-! ## Barriers that no open chunk has read -/

/-- A barrier begins a run of 16 bytes. -/
theorem padLoc_aligned (cid : Nat) {off : Nat} (h : off % 16 = 0) : padLoc cid off % 16 = 0 := by
  unfold padLoc padOrigin
  omega

theorem isForeign_padLoc (cid off : Nat) {k : Nat} : isForeign (padLoc cid off + k) = false := by
  have : ¬ padLoc cid off + k < padOrigin := by unfold padLoc; omega
  unfold isForeign
  simp only [this, decide_false, Bool.and_false]

/-- Bytes within the 16 of a barrier lie in its line. -/
theorem mem_linesOf_barrier {loc k n x : Nat} (h : loc % 16 = 0) (hk : k + n ≤ 16) (hn : 0 < n) (hx : x ∈ linesOf (loc + k) n) :
    x = loc / 128 := by
  unfold linesOf at hx
  rw [List.mem_map] at hx
  obtain ⟨j, hj, rfl⟩ := hx
  rw [List.mem_range] at hj
  omega

/-- No open chunk has read the line of a location. -/
def Unread (s : State) (loc : Nat) : Prop := ∀ k, ∀ x ∈ (s.strand k).chunks, loc / 128 ∉ x.reads

/-- A write to a barrier whose line no open chunk has read is a plain store. -/
theorem placeStore_barrier {s : State} {cid off k : Nat} {bs : List Byte} (self : Option Nat) (haligned : off % 16 = 0)
    (hunread : Unread s (padLoc cid off)) (hk : k + bs.length ≤ 16) (hn : 0 < bs.length) :
    s.placeStore (padLoc cid off + k) bs self = s.store (padLoc cid off + k) bs := by
  refine placeStore_none _ _ _ _ (isForeign_padLoc cid off) fun j c hc x hx => ?_
  rw [mem_linesOf_barrier (padLoc_aligned cid haligned) hk hn hx]
  exact hunread j c hc

/-- The strands parked on a barrier, with the value that they trap with when it breaks. -/
def parkedAt (loc : Nat) : Wait → Option Word
  | .stage l _ a => if l = loc then some a else none
  | _ => none

/-- The strands that may be parked on a barrier: those of its quire. -/
def parkers (loc : Nat) : List Nat := (coresOf (quireOfCore (padCore loc))).flatMap strandsOf

theorem breakBarrier_eq {s : State} {cid off : Nat} (haligned : off % 16 = 0) (hunread : Unread s (padLoc cid off)) :
    s.breakBarrier (padLoc cid off) =
      (s.store (padLoc cid off + 10) [readByte s.mem (padLoc cid off + 10) ||| 1]).trapParked (parkers (padLoc cid off))
        (parkedAt (padLoc cid off)) := by
  unfold State.breakBarrier
  dsimp only
  rw [placeStore_barrier none haligned hunread (by simp) (by simp)]
  rfl

theorem trapParked_chunks (s : State) (l : List Nat) (hit : Wait → Option Word) (k : Nat) :
    ((s.trapParked l hit).strand k).chunks = (s.strand k).chunks := by
  refine forAll_rel (fun s t => (t.strand k).chunks = (s.strand k).chunks) (fun _ => rfl) (fun h h' => h'.trans h)
    (fun s j => s.onStrand j (Strand.broken hit)) (fun s' j => ?_) l s
  obtain rfl | hj : k = j ∨ k ≠ j := Decidable.em _
  · rw [State.strand_onStrand_self]
    unfold Strand.broken
    split <;> rfl
  · rw [State.strand_onStrand_ne s' hj]

/-! ## Advance (15 R294) -/

/-- The ten bytes of a barrier's counters. -/
def sbBytes (phase remaining expected : Nat) (pending : Int) : List Byte :=
  bytesOfNat 2 phase ++ bytesOfNat 2 remaining ++ bytesOfNat 2 expected ++ bytesOfNat 4 (BitVec.ofInt 32 pending).toNat

theorem sbBytes_length (p r e : Nat) (n : Int) : (sbBytes p r e n).length = 10 := by
  simp [sbBytes]

theorem sbPut_eq {s : State} {cid off p r : Nat} {n : Int} (haligned : off % 16 = 0) (hunread : Unread s (padLoc cid off)) :
    s.sbPut (padLoc cid off) p r n = s.store (padLoc cid off) (sbBytes p r (s.sbExpected (padLoc cid off)) n) :=
  placeStore_barrier (k := 0) none haligned hunread (by simp) (by simp)

/-- A number read where its bytes stand in a longer run. -/
theorem readNat_writeBytes_mid (m : List Host.Cell) (a n v : Nat) (xs ys : List Byte) (hv : v < 256 ^ n) :
    readNat (writeBytes m a (xs ++ (bytesOfNat n v ++ ys))) (a + xs.length) n = v := by
  refine readNat_part _ _ _ _ _ _ hv (by simp) fun j hj => ?_
  rw [List.getD_append_right _ _ _ _ (Nat.le_add_right _ _), Nat.add_sub_cancel_left,
    List.getD_append _ _ _ _ (by rw [bytesOfNat_length]; exact hj), bytesOfNat_get _ _ _ hj]

/-- The fields of a barrier whose counters have been written. -/
theorem sbFields_of_sbBytes {s t : State} {loc p r e : Nat} {n : Int} (hmem : t.mem = writeBytes s.mem loc (sbBytes p r e n))
    (hp : p < 2 ^ 16) (hr : r < 2 ^ 16) (he : e < 2 ^ 16) :
    t.sbPhase loc = p ∧ t.sbRemaining loc = r ∧ t.sbExpected loc = e ∧ t.sbPending loc = (BitVec.ofInt 32 n).toInt ∧
      t.sbBroken loc = s.sbBroken loc := by
  have hn : (BitVec.ofInt 32 n).toNat < 256 ^ 4 := (BitVec.ofInt 32 n).isLt
  have happ : sbBytes p r e n = bytesOfNat 2 p ++ (bytesOfNat 2 r ++ (bytesOfNat 2 e ++ bytesOfNat 4 (BitVec.ofInt 32 n).toNat)) := by
    simp only [sbBytes, List.append_assoc]
  unfold State.sbPhase State.sbRemaining State.sbExpected State.sbPending State.sbBroken State.int32At
  rw [hmem, happ]
  refine ⟨?_, ?_, ?_, ?_, ?_⟩
  · exact readNat_writeBytes_mid s.mem loc 2 p [] _ hp
  · exact readNat_writeBytes_mid s.mem loc 2 r (bytesOfNat 2 p) _ hr
  · have := readNat_writeBytes_mid s.mem loc 2 e (bytesOfNat 2 p ++ bytesOfNat 2 r) (bytesOfNat 4 (BitVec.ofInt 32 n).toNat) he
    simpa using this
  · have := readNat_writeBytes_mid s.mem loc 4 _ (bytesOfNat 2 p ++ bytesOfNat 2 r ++ bytesOfNat 2 e) [] hn
    rw [show readNat _ (loc + 6) 4 = (BitVec.ofInt 32 n).toNat by simpa using this, BitVec.ofNat_toNat, BitVec.setWidth_eq]
  · rw [readNat_writeBytes_ne _ _ _ _ _ (Or.inr (by simp))]

theorem sbField_lt (s : State) (loc : Nat) : readNat s.mem loc 2 < 2 ^ 16 := by
  have h0 := (readByte s.mem loc).isLt
  have h1 := (readByte s.mem (loc + 1)).isLt
  simp only [readNat]
  omega

/-- A count within 32 bits reads as itself. -/
theorem toInt_ofInt_32 {n : Int} (hlow : -(2 ^ 31) ≤ n) (hhigh : n < 2 ^ 31) : (BitVec.ofInt 32 n).toInt = n :=
  BitVec.toInt_ofInt_eq_self (by decide) hlow hhigh

/-! ## Strands that a phase of a stage barrier reaches (15 R307) -/

/-- A strand that a phase of a stage barrier reaches, as sb.wait sees it. -/
def Strand.stageSeen (loc phase : Nat) (t : Strand) : Strand :=
  match t.wait with
  | .stage l p _ => if l = loc ∧ phasePassed phase p then { t with wait := .passed } else t
  | _ => t

section
variable {s : State} {k loc phase : Nat}

theorem stageReaches_strandsOnly (s : State) (j loc phase : Nat) : StrandsOnly s (s.stageReaches j loc phase) :=
  StrandsOnly.trans (b := s.onStrand j _) ⟨_, rfl⟩ (State.wakeIdle_strandsOnly _ _)

theorem stageReaches_strand_ne {j : Nat} (h : k ≠ j) : (s.stageReaches j loc phase).strand k = s.strand k :=
  (State.wakeIdle_strand_ne _ h).trans (State.strand_onStrand_ne _ h _)

theorem stageReaches_wait_of_seen (h : ((s.strand k).stageSeen loc phase).wait = .passed) :
    ((s.stageReaches k loc phase).strand k).wait = .passed := by
  have hseen : ((s.onStrand k (Strand.stageSeen loc phase)).strand k).wait = .passed := by
    rw [State.strand_onStrand_self]
    exact h
  have hsame : s.stageReaches k loc phase = s.onStrand k (Strand.stageSeen loc phase) := State.wakeIdle_of_passed _ hseen
  rw [hsame]
  exact hseen

theorem stageReaches_passes {p : Nat} {a : Word} (hwait : (s.strand k).wait = .stage loc p a) (hpass : phasePassed phase p = true) :
    ((s.stageReaches k loc phase).strand k).wait = .passed := by
  refine stageReaches_wait_of_seen ?_
  simp only [Strand.stageSeen, hwait, hpass, and_self, if_true]

theorem stageReaches_keeps (hwait : (s.strand k).wait = .passed) : ((s.stageReaches k loc phase).strand k).wait = .passed := by
  refine stageReaches_wait_of_seen ?_
  simp only [Strand.stageSeen, hwait]

theorem forAll_stageReaches_passes {l : List Nat} {p : Nat} {a : Word} (hk : k ∈ l) (hwait : (s.strand k).wait = .stage loc p a)
    (hpass : phasePassed phase p = true) : ((forAll l (fun s sid => s.stageReaches sid loc phase) s).strand k).wait = .passed :=
  forAll_strand_of_mem (x := s.strand k) (Q := fun t => t.wait = .passed) (fun _ _ hj => stageReaches_strand_ne hj.symm)
    (fun _ hs' => stageReaches_passes (hs' ▸ hwait) hpass) (fun _ hs' => stageReaches_keeps hs') hk rfl

theorem forAll_stageReaches_strandsOnly (s : State) (l : List Nat) :
    StrandsOnly s (forAll l (fun s sid => s.stageReaches sid loc phase) s) :=
  forAll_rel StrandsOnly StrandsOnly.refl StrandsOnly.trans (fun s sid => s.stageReaches sid loc phase)
    (fun s j => stageReaches_strandsOnly s j loc phase) l s

end

/-! ## What Advance leaves (15 R294) -/

/-- BROKEN is set in a byte to which it has been added. -/
theorem sbBroken_of_byte {t : State} {loc : Nat} {x : Byte} (h : readByte t.mem (loc + 10) = x ||| 1) : t.sbBroken loc = true := by
  have hodd : (x ||| 1).toNat % 2 = 1 := by
    rw [BitVec.toNat_or]
    exact Nat.or_mod_two_eq_one.mpr (Or.inr rfl)
  unfold State.sbBroken
  simp only [readNat, h, Nat.mul_zero, Nat.add_zero, hodd, beq_self_eq_true]

section
variable {s t : State} {cid off loc rem : Nat} {pend : Int} {held : Bool} (haligned : off % 16 = 0) (hloc : loc = padLoc cid off)
  (hrem : rem < 2 ^ 16) (hunread : Unread s loc)
include haligned hloc hrem hunread

/-- Advance with a count out of range writes the counts and breaks the barrier. -/
theorem sbAdvance_breaks (hout : pend < -(2 ^ 31) ∨ 2 ^ 31 ≤ pend) (ht : s.sbAdvance loc rem pend = (t, held)) :
    held = false ∧ t.sbExpected loc = s.sbExpected loc ∧ t.sbBroken loc = true ∧
      (∀ sid ∈ parkers loc, ∀ p a, (s.strand sid).wait = .stage loc p a →
        (t.strand sid).trap = some { cause := .sbbroken, val := a } ∧ (t.strand sid).wait = .none) ∧
      (∀ a, (a < loc ∨ loc + 11 ≤ a) → readByte t.mem a = readByte s.mem a) := by
  have hputs : s.sbPut loc (s.sbPhase loc) rem pend = s.store loc (sbBytes (s.sbPhase loc) rem (s.sbExpected loc) pend) := by
    rw [hloc]
    exact sbPut_eq haligned (hloc ▸ hunread)
  have hbreaks := breakBarrier_eq (s := s.store loc (sbBytes (s.sbPhase loc) rem (s.sbExpected loc) pend)) haligned (hloc ▸ hunread)
  rw [← hloc] at hbreaks
  have he : s.sbAdvance loc rem pend = ((s.sbPut loc (s.sbPhase loc) rem pend).breakBarrier loc, false) := if_pos hout
  rw [he, hputs, hbreaks] at ht
  generalize hw : s.store loc (sbBytes (s.sbPhase loc) rem (s.sbExpected loc) pend) = w at ht
  obtain ⟨rfl, rfl⟩ := Prod.mk.inj ht
  generalize hv : w.store (loc + 10) [readByte w.mem (loc + 10) ||| 1] = v
  have hwmem : w.mem = writeBytes s.mem loc (sbBytes (s.sbPhase loc) rem (s.sbExpected loc) pend) := by rw [← hw]; rfl
  have hvmem : v.mem = writeBytes w.mem (loc + 10) [readByte w.mem (loc + 10) ||| 1] := by rw [← hv]; rfl
  have hvstrand : ∀ k, v.strand k = s.strand k := by rw [← hv, ← hw]; exact fun _ => rfl
  obtain ⟨a, hstrands⟩ := v.trapParked_strandsOnly (parkers loc) (parkedAt loc)
  have hmem : (v.trapParked (parkers loc) (parkedAt loc)).mem = v.mem := by rw [hstrands]
  obtain ⟨-, -, hexp, -, -⟩ := sbFields_of_sbBytes hwmem (sbField_lt _ _) hrem (sbField_lt s (loc + 4))
  refine ⟨rfl, ?_, ?_, fun sid hsid p a hwait => ?_, fun a ha => ?_⟩
  · rw [← hexp]
    unfold State.sbExpected
    rw [hmem, hvmem, readNat_writeBytes_ne _ _ _ _ _ (Or.inl (by omega))]
  · refine sbBroken_of_byte (x := readByte w.mem (loc + 10)) ?_
    rw [hmem, hvmem, readByte_writeBytes, if_pos (by simp), Nat.sub_self, List.getD_cons_zero]
  · obtain ⟨hnone, htrap⟩ := State.trapParked_strand_of_hit v (parkers loc) (hit := parkedAt loc) (v := a) rfl hsid
      (by rw [hvstrand, hwait]; exact if_pos rfl)
    exact ⟨htrap, hnone⟩
  · rw [hmem, hvmem, readByte_writeBytes, if_neg (by simp; omega), hwmem, readByte_writeBytes, if_neg (by rw [sbBytes_length]; omega)]

omit hrem in
/-- Advance with nothing outstanding opens the next phase, and reaches every strand of the quire. -/
theorem sbAdvance_opens (hzero : rem = 0) (hpend : pend = 0) (ht : s.sbAdvance loc rem pend = (t, held)) :
    held = true ∧ t.sbExpected loc = s.sbExpected loc ∧ t.sbBroken loc = s.sbBroken loc ∧
      t.sbPhase loc = (s.sbPhase loc + 1) % 2 ^ 16 ∧ t.sbRemaining loc = s.sbExpected loc ∧ t.sbPending loc = 0 ∧
      (∀ sid ∈ parkers loc, ∀ p a, (s.strand sid).wait = .stage loc p a →
        phasePassed ((s.sbPhase loc + 1) % 2 ^ 16) p = true → (t.strand sid).wait = .passed) ∧
      (∀ a, (a < loc ∨ loc + 11 ≤ a) → readByte t.mem a = readByte s.mem a) := by
  have hputs : s.sbPut loc ((s.sbPhase loc + 1) % 2 ^ 16) (s.sbExpected loc) 0 =
      s.store loc (sbBytes ((s.sbPhase loc + 1) % 2 ^ 16) (s.sbExpected loc) (s.sbExpected loc) 0) := by
    rw [hloc]
    exact sbPut_eq haligned (hloc ▸ hunread)
  generalize hphase : (s.sbPhase loc + 1) % 2 ^ 16 = phase at hputs ⊢
  have hin : ¬ (pend < -(2 ^ 31) ∨ 2 ^ 31 ≤ pend) := by omega
  have he : s.sbAdvance loc rem pend = (forAll (parkers loc) (fun s sid => s.stageReaches sid loc phase)
      (s.sbPut loc phase (s.sbExpected loc) 0), true) := by
    rw [← hphase]
    exact (if_neg hin).trans (if_pos ⟨hzero, hpend⟩)
  rw [he, hputs] at ht
  generalize hw : s.store loc (sbBytes phase (s.sbExpected loc) (s.sbExpected loc) 0) = w at ht
  obtain ⟨rfl, rfl⟩ := Prod.mk.inj ht
  have hwmem : w.mem = writeBytes s.mem loc (sbBytes phase (s.sbExpected loc) (s.sbExpected loc) 0) := by rw [← hw]; rfl
  have hwstrand : ∀ k, w.strand k = s.strand k := by rw [← hw]; exact fun _ => rfl
  obtain ⟨a, hstrands⟩ := forAll_stageReaches_strandsOnly (loc := loc) (phase := phase) w (parkers loc)
  have hmem : (forAll (parkers loc) (fun s sid => s.stageReaches sid loc phase) w).mem =
      writeBytes s.mem loc (sbBytes phase (s.sbExpected loc) (s.sbExpected loc) 0) := by rw [hstrands]; exact hwmem
  obtain ⟨h1, h2, h3, h4, h5⟩ := sbFields_of_sbBytes hmem (by omega) (sbField_lt s (loc + 4)) (sbField_lt s (loc + 4))
  refine ⟨rfl, h3, h5, h1, h2, h4, fun sid hsid p a hwait hpass => ?_, fun a ha => ?_⟩
  · exact forAll_stageReaches_passes hsid (by rw [hwstrand]; exact hwait) hpass
  · rw [hmem, readByte_writeBytes, if_neg (by rw [sbBytes_length]; omega)]

/-- Advance with an arrival or a byte outstanding writes the counts. -/
theorem sbAdvance_counts (hin : -(2 ^ 31) ≤ pend ∧ pend < 2 ^ 31) (hopen : ¬ (rem = 0 ∧ pend = 0))
    (ht : s.sbAdvance loc rem pend = (t, held)) :
    held = true ∧ t.sbExpected loc = s.sbExpected loc ∧ t.sbBroken loc = s.sbBroken loc ∧ t.sbPhase loc = s.sbPhase loc ∧
      t.sbRemaining loc = rem ∧ t.sbPending loc = pend ∧ (∀ a, (a < loc ∨ loc + 11 ≤ a) → readByte t.mem a = readByte s.mem a) := by
  have hputs : s.sbPut loc (s.sbPhase loc) rem pend = s.store loc (sbBytes (s.sbPhase loc) rem (s.sbExpected loc) pend) := by
    rw [hloc]
    exact sbPut_eq haligned (hloc ▸ hunread)
  have he : s.sbAdvance loc rem pend = (s.sbPut loc (s.sbPhase loc) rem pend, true) :=
    (if_neg (by omega)).trans (if_neg hopen)
  rw [he, hputs] at ht
  obtain ⟨rfl, rfl⟩ := Prod.mk.inj ht
  obtain ⟨h1, h2, h3, h4, h5⟩ := sbFields_of_sbBytes (State.store_mem s loc _) (sbField_lt _ _) hrem (sbField_lt s (loc + 4))
  refine ⟨rfl, h3, h5, h1, h2, h4.trans (toInt_ofInt_32 hin.1 hin.2), fun a ha => ?_⟩
  rw [State.store_mem, readByte_writeBytes, if_neg (by rw [sbBytes_length]; omega)]

end

/-! ## The members (15 R305, R306, R308), and the bytes of a copy (15 R285) -/

section
variable {s u : State} {x y : BitVec 6} {cid off : Nat}

@[simp] theorem settleT_done_mem (v : State) : (Act.done v).settleT.mem = v.mem := rfl
@[simp] theorem settleT_done_quire (v : State) (k : Nat) : (Act.done v).settleT.quire k = v.quire k := rfl

theorem breakBarrier_only (s : State) (loc : Nat) : PlaceOnly s (s.breakBarrier loc) := by
  obtain ⟨a, ha⟩ := (s.placeStore (loc + 10) [readByte s.mem (loc + 10) ||| 1] none).trapParked_strandsOnly
    (parkers loc) (parkedAt loc)
  exact (placeStore_only _ _ _ _).trans ⟨a, _, _, _, ha⟩

/-- The bytes of a number, split where its low part ends. -/
theorem bytesOfNat_add (m n a b : Nat) (ha : a < 256 ^ m) :
    bytesOfNat (m + n) (a + 256 ^ m * b) = bytesOfNat m a ++ bytesOfNat n b := by
  induction m generalizing a with
  | zero =>
    obtain rfl : a = 0 := by simpa using ha
    simp [bytesOfNat]
  | succ m ih =>
    rw [Nat.pow_succ] at ha
    have hdiv : (a + 256 ^ (m + 1) * b) / 256 = a / 256 + 256 ^ m * b := by
      rw [Nat.pow_succ, Nat.mul_comm (256 ^ m) 256, Nat.mul_assoc, Nat.add_mul_div_left _ _ (by decide)]
    have hlow : BitVec.ofNat 8 (a + 256 ^ (m + 1) * b) = BitVec.ofNat 8 a := by
      refine BitVec.eq_of_toNat_eq ?_
      rw [BitVec.toNat_ofNat, BitVec.toNat_ofNat, Nat.pow_succ, Nat.mul_comm (256 ^ m) 256, Nat.mul_assoc]
      exact Nat.add_mul_mod_self_left _ _ _
    rw [Nat.succ_add, bytesOfNat, bytesOfNat, hdiv, hlow, ih _ (Nat.div_lt_of_lt_mul (Nat.mul_comm _ _ ▸ ha)), List.cons_append]

/-- The record that sb.init writes (15 R292). -/
theorem sbInit_bytes (e glo ghi : Nat) (he : e < 2 ^ 16) :
    bytesOfNat 2 0 ++ bytesOfNat 2 e ++ bytesOfNat 2 e ++ bytesOfNat 4 0 ++ bytesOfNat 6 (2 + glo * 2 ^ 16 + ghi * 2 ^ 24) =
      bytesOfNat 16 (e * 2 ^ 16 + e * 2 ^ 32 + 2 ^ 81 + glo * 2 ^ 96 + ghi * 2 ^ 104) := by
  have hsplit : e * 2 ^ 16 + e * 2 ^ 32 + 2 ^ 81 + glo * 2 ^ 96 + ghi * 2 ^ 104 =
      0 + 256 ^ 2 * (e + 256 ^ 2 * (e + 256 ^ 2 * (0 + 256 ^ 4 * (2 + glo * 2 ^ 16 + ghi * 2 ^ 24)))) := by ring
  rw [hsplit, show (16 : Nat) = 2 + (2 + (2 + (4 + 6))) from rfl, bytesOfNat_add _ _ _ _ (by decide), bytesOfNat_add _ _ _ _ he,
    bytesOfNat_add _ _ _ _ he, bytesOfNat_add _ _ _ _ (by decide)]
  simp only [List.append_assoc]

theorem sbInit_eq (h : MayEnd false false [.g x, .g y] s u) (hat : AtBarrier u x permST true cid off) :
    exec (.sbInit x y) s = .next (Act.settleT (
      if (u.me.word y).toNat % 2 ^ 16 = 0 ∨ (u.me.word y).toNat / 2 ^ 24 % 256 < (u.me.word y).toNat / 2 ^ 16 % 256 then
        .trap u .ill (u.me.word y)
      else if (u.quire (quireOf u.cur)).names cid off ∨ 16 ≤ (u.quire (quireOf u.cur)).dir.length then .trap u .range (u.me.readG x).low
      else
        .done ((u.placeStore (padLoc cid off) (bytesOfNat 16 ((u.me.word y).toNat % 2 ^ 16 * 2 ^ 16 +
            (u.me.word y).toNat % 2 ^ 16 * 2 ^ 32 + 2 ^ 81 + (u.me.word y).toNat / 2 ^ 16 % 256 * 2 ^ 96 +
            (u.me.word y).toNat / 2 ^ 24 % 256 * 2 ^ 104)) (some u.cur)).onQuire (quireOf u.cur) fun q =>
          { q with dir := q.dir ++ [{ cid := cid, off := off, gang := u.me.gangNo }] }))) := by
  rw [← sbInit_bytes _ _ _ (Nat.mod_lt _ (by decide))]
  exact barrierOp_of_atBarrier h hat _

/-- What the end of an instruction leaves that has stored to memory and changed its quire. -/
theorem settleT_onQuire {w : State} (hsame : SameStrand u.cur u w) (hquires : w.quires = u.quires) (f : Quire → Quire) :
    ((Act.done (w.onQuire (quireOf u.cur) f)).settleT.arch u.cur = u.me.ended) ∧
      ((Act.done (w.onQuire (quireOf u.cur) f)).settleT.strand u.cur).wait = .none ∧
      (Act.done (w.onQuire (quireOf u.cur) f)).settleT.quire (quireOf u.cur) = f (u.quire (quireOf u.cur)) ∧
      (Act.done (w.onQuire (quireOf u.cur) f)).settleT.mem = w.mem := by
  obtain ⟨harch, hwait, -, -, -⟩ := settleT_done (v := w.onQuire (quireOf u.cur) f)
  rw [State.onQuire_cur, hsame.cur] at harch hwait
  refine ⟨harch.trans ?_, hwait, ?_, rfl⟩
  · exact congrArg (fun t => Arch.ended (Strand.arch t)) hsame.strand
  · show (w.onQuire (quireOf u.cur) f).quire (quireOf u.cur) = _
    rw [State.quire_onQuire_self]
    simp only [State.quire, hquires]

/-- What sb.init leaves when it registers a barrier. -/
theorem sbInit_registers (h : MayEnd false false [.g x, .g y] s u) (hat : AtBarrier u x permST true cid off) {v : Nat}
    (hv : v = (u.me.word y).toNat) (hexpected : 1 ≤ v % 2 ^ 16) (hgroups : v / 2 ^ 16 % 256 ≤ v / 2 ^ 24 % 256)
    (hnamed : (u.quire (quireOf s.cur)).names cid off = false) (hroom : (u.quire (quireOf s.cur)).dir.length < 16) :
    ∃ t, exec (.sbInit x y) s = .next t ∧ t.arch s.cur = u.me.ended ∧ (t.strand s.cur).wait = .none ∧
      (t.quire (quireOf s.cur)).dir = (u.quire (quireOf s.cur)).dir ++ [{ cid := cid, off := off, gang := u.me.gangNo }] ∧
      t.mem = (u.placeStore (padLoc cid off) (bytesOfNat 16 ((v % 2 ^ 16) * 2 ^ 16 + (v % 2 ^ 16) * 2 ^ 32 + 2 ^ 81 +
        (v / 2 ^ 16 % 256) * 2 ^ 96 + (v / 2 ^ 24 % 256) * 2 ^ 104)) (some s.cur)).mem := by
  subst hv
  have hcur := h.cur
  rw [← hcur] at hnamed hroom ⊢
  have hexec := sbInit_eq h hat
  rw [if_neg (by omega), if_neg (by simp only [hnamed, Bool.false_eq_true, false_or]; omega)] at hexec
  generalize bytesOfNat 16 _ = bs at hexec ⊢
  obtain ⟨harch, hwait, hdir, hmem⟩ := settleT_onQuire (placeStore_same u u.cur (padLoc cid off) bs)
    (placeStore_only u (padLoc cid off) bs (some u.cur)).quires
    fun q => { q with dir := q.dir ++ [{ cid := cid, off := off, gang := u.me.gangNo }] }
  exact ⟨_, hexec, harch, hwait, congrArg Quire.dir hdir, hmem⟩

/-- An arrival at a barrier that passes the checks (15 R306). -/
theorem exec_of_arrivalBytes {i : Instr} {bar : BitVec 6} {reads : List RegName} {n : Nat}
    (hi : barrierMember i = some (bar, permST, false, reads)) (h : MayEnd false false reads s u)
    (hn : arrivalBytes u.me i = some (bar, n)) (hat : AtBarrier u bar permST false cid off) :
    exec i s = .next (u.arriveAt bar cid off n).settleT := by
  unfold arrivalBytes at hn
  split at hn
  · next b =>
    cases hn
    cases hi
    exact barrierOp_of_atBarrier h hat _
  · next b y =>
    split at hn
    · next hsmall =>
      cases hn
      cases hi
      refine (barrierOp_of_atBarrier h hat _).trans ?_
      rw [if_neg (Nat.not_le.mpr hsmall)]
    · cases hn
  · cases hn

/-- An offset of a scratchpad is aligned as its address is. -/
theorem place_pad_mod {s : State} {cid a owner win off : Nat} (h : s.place cid a = .pad owner win off) : off % 16 = a % 16 := by
  unfold State.place at h
  split at h
  · cases h
    omega
  · split at h
    · dsimp only at h
      split at h
      · cases h
      · cases h
        omega
    · cases h

/-- A byte with bit 0, which sb.brk writes last, is not blank. -/
theorem lowBit_ne_zero (x : Byte) : x ||| 1 ≠ 0 ∧ (x ||| 1) &&& 0xFD ≠ 0 := by
  revert x
  decide

theorem writeByte_writeByte (m : List Host.Cell) (a : Nat) {b c : Byte} (hb : b ≠ 0) (hc : c ≠ 0) :
    writeByte (writeByte m a b) a c = writeByte m a c := by
  have hb : b ≠ blankByte := hb
  have hc : c ≠ blankByte := hc
  simp only [writeByte, if_neg hb, if_neg hc, mapSet_mapSet]

section
variable {s : State} {m : Msg} {gang cid off n : Nat} (hm : s.msg (s.argN 0) = some m) (hkind : m.kind = .bytes gang cid off n)
  (haway : s.gangAway gang cid = false) (hheld : s.sectorsHeld none [padLoc cid off] = none)
include hm hkind haway hheld

theorem barrierBytes_eq : exec .barrierBytes s =
    .next ((if (s.quire (quireOfCore cid)).names cid off && !s.sbBroken (padLoc cid off) then s.sbBytes (padLoc cid off) n else s).dropMsg
      (s.argN 0)) := by
  obtain ⟨id, src, eng, kind⟩ := m
  subst hkind
  show execBarrierBytes s = _
  unfold execBarrierBytes
  simp only [hm, haway, hheld, Option.isSome_none, Bool.or_self, Bool.false_eq_true, if_false]

theorem barrierBytes_live (hnamed : (s.quire (quireOfCore cid)).names cid off = true) (hwhole : s.sbBroken (padLoc cid off) = false) :
    exec .barrierBytes s = .next ((s.sbAdvance (padLoc cid off) (s.sbRemaining (padLoc cid off))
      (s.sbPending (padLoc cid off) - n)).1.dropMsg (s.argN 0)) := by
  rw [barrierBytes_eq hm hkind haway hheld, if_pos (by rw [hnamed, hwhole]; rfl)]
  rfl

theorem barrierBytes_dead (hdead : (s.quire (quireOfCore cid)).names cid off = false ∨ s.sbBroken (padLoc cid off) = true) :
    exec .barrierBytes s = .next (s.dropMsg (s.argN 0)) := by
  rw [barrierBytes_eq hm hkind haway hheld, if_neg]
  rcases hdead with h | h <;> simp [h]

end

/-- A barrier that sb.brk has broken and released (15 R308). -/
def State.released (u : State) (cid off : Nat) : State :=
  let v := u.breakBarrier (padLoc cid off)
  (v.placeStore (padLoc cid off + 10) [readByte v.mem (padLoc cid off + 10) &&& 0xFD] none).onQuire (quireOf v.cur) fun q =>
    { q with dir := q.dir.filter fun d => !(d.cid == cid && d.off == off) }

theorem sbBrk_breaks (h : MayEnd false false [.g x, .g y] s u) (hat : AtBarrier u x permST false cid off)
    (hoption : (u.me.word y).getLsbD 0 = false) :
    exec (.sbBrk x y) s = .next (Act.done (u.breakBarrier (padLoc cid off))).settleT := by
  refine (barrierOp_of_atBarrier h hat _).trans ?_
  simp only [hoption, Bool.false_eq_true, if_false]

theorem sbBrk_releases (h : MayEnd false false [.g x, .g y] s u) (hat : AtBarrier u x permST false cid off)
    (hoption : (u.me.word y).getLsbD 0 = true) : exec (.sbBrk x y) s = .next (Act.done (u.released cid off)).settleT := by
  have hcur : (u.breakBarrier (padLoc cid off)).cur = u.cur := (breakBarrier_only _ _).cur
  refine (barrierOp_of_atBarrier h hat _).trans ?_
  simp only [hoption, if_true]
  rw [State.released]
  have hplace := placeStore_only (u.breakBarrier (padLoc cid off)) (padLoc cid off + 10)
    [readByte (u.breakBarrier (padLoc cid off)).mem (padLoc cid off + 10) &&& 0xFD] none
  rw [hplace.cur]

/-- The directory of the quire no longer holds the barrier, and keeps its other entries. -/
theorem released_dir (u : State) (cid off : Nat) : ((u.released cid off).quire (quireOf u.cur)).dir =
    (u.quire (quireOf u.cur)).dir.filter fun d => !(d.cid == cid && d.off == off) := by
  have hbreak := breakBarrier_only u (padLoc cid off)
  have hplace := placeStore_only (u.breakBarrier (padLoc cid off)) (padLoc cid off + 10)
    [readByte (u.breakBarrier (padLoc cid off)).mem (padLoc cid off + 10) &&& 0xFD] none
  rw [State.released, hbreak.cur, State.quire_onQuire_self]
  simp only [State.quire, hplace.quires, hbreak.quires]

theorem released_names (u : State) (cid off : Nat) : ((u.released cid off).quire (quireOf u.cur)).names cid off = false := by
  rw [Quire.names, released_dir, List.any_eq_false]
  intro d hd
  obtain ⟨-, hkept⟩ := List.mem_filter.mp hd
  rw [Bool.not_eq_true'] at hkept
  rw [hkept]
  exact Bool.false_ne_true

theorem released_mem {u : State} (haligned : off % 16 = 0) (hunread : Unread u (padLoc cid off)) : (u.released cid off).mem =
    (u.store (padLoc cid off + 10) [(readByte u.mem (padLoc cid off + 10) ||| 1) &&& 0xFD]).mem := by
  have hbreak := breakBarrier_eq haligned hunread
  generalize hv : u.breakBarrier (padLoc cid off) = v at hbreak
  have hvmem : v.mem = writeBytes u.mem (padLoc cid off + 10) [readByte u.mem (padLoc cid off + 10) ||| 1] := by
    rw [hbreak]
    obtain ⟨a, ha⟩ := (u.store (padLoc cid off + 10) [readByte u.mem (padLoc cid off + 10) ||| 1]).trapParked_strandsOnly
      (parkers (padLoc cid off)) (parkedAt (padLoc cid off))
    rw [ha]
    rfl
  have hunread : Unread v (padLoc cid off) := fun k c hc => hunread k c (by rwa [hbreak, trapParked_chunks] at hc)
  have hreleased : (u.released cid off).mem = writeBytes v.mem (padLoc cid off + 10) [readByte v.mem (padLoc cid off + 10) &&& 0xFD] := by
    rw [State.released, hv, placeStore_barrier none haligned hunread (by simp) (by simp)]
    rfl
  have hread : readByte v.mem (padLoc cid off + 10) = readByte u.mem (padLoc cid off + 10) ||| 1 := by
    rw [hvmem, readByte_writeBytes, if_pos (by simp), Nat.sub_self, List.getD_cons_zero]
  rw [hreleased, hread, hvmem, State.store_mem]
  exact writeByte_writeByte _ _ (lowBit_ne_zero _).1 (lowBit_ne_zero _).2

end

/-- Settles O35, from the checks that every member shares, what each does at a barrier that passes them, and what Advance leaves. -/
theorem stageBarriersActAndAdvance : Obligations.StageBarriersActAndAdvance := by
  unfold Obligations.StageBarriersActAndAdvance
  refine ⟨⟨?checks, ?init, ?arrive, ?breaks⟩, ?advance, ?bytes⟩
  case checks =>
    intro s u i bar perm init reads hi h hunparked
    obtain ⟨body, hexec⟩ := exec_of_barrierMember hi hunparked
    rw [hexec]
    refine ⟨fun cause hcheck => barrierOp_trap h hcheck, fun hcheck hplace => barrierOp_misplaced h hcheck hplace, ?_, ?_⟩
    · exact fun cid off hmode hprotected hcheck halign hpad hquire hinside =>
        barrierOp_protected h hcheck halign hpad hquire hinside hmode hprotected
    · exact fun cid off hinit hopen hcheck halign hpad hquire hinside hnamed =>
        barrierOp_unnamed h hcheck halign hpad hquire hinside hinit hopen hnamed
  case init =>
    rintro s u x y cid off v h rfl hat
    have hexec := sbInit_eq h hat
    refine ⟨fun hbad => ?_, fun hexpected hgroups => ⟨fun hfull => ?_, fun hnamed hroom =>
      sbInit_registers h hat rfl hexpected hgroups hnamed hroom⟩⟩
    · rw [hexec, if_pos hbad, ← h.cur]
      rfl
    · rw [← h.cur] at hfull ⊢
      rw [hexec, if_neg (by omega), if_pos hfull]
      rfl
  case arrive =>
    rintro s u i bar reads n cid off loc rfl hi h hn hat
    rw [exec_of_arrivalBytes hi h hn hat, ← h.cur]
    refine ⟨fun hbroken => ?_, fun hwhole hnone => ?_, fun hwhole hsome v held hadvance hcur => ?_⟩
    · simp only [State.arriveAt, hbroken, if_true, Act.settleT]
    · have hcur : (u.breakBarrier (padLoc cid off)).cur = u.cur := (breakBarrier_only _ _).cur
      simp only [State.arriveAt, State.sbArrive, hwhole, hnone, Bool.false_eq_true, if_false, if_true, Act.settleT, hcur]
    · simp only [State.arriveAt, State.sbArrive, hwhole, if_neg hsome, hadvance, Bool.false_eq_true, if_false]
      cases held
      · simp only [Act.settleT, hcur, Bool.false_eq_true, if_false]
      · rfl
  case breaks =>
    intro s u x y cid off h hat
    refine ⟨fun hlarge => ?_, sbBrk_breaks h hat, fun hoption hunread => ⟨_, sbBrk_releases h hat hoption, ?_⟩⟩
    · refine (barrierOp_of_atBarrier h hat _).trans ?_
      rw [if_pos hlarge, ← h.cur]
      rfl
    · rw [← h.cur]
      rw [settleT_done_quire, settleT_done_mem]
      refine ⟨released_names u cid off, fun d hd hne => ?_, ?_⟩
      · rw [released_dir]
        exact List.mem_filter.mpr ⟨hd, by simpa [← Decidable.not_and_iff_or_not] using hne⟩
      · exact released_mem ((place_pad_mod hat.here).trans hat.aligned) hunread
  case advance =>
    intro s t cid off loc rem pend held _ haligned hloc hrem hunread ht
    by_cases hin : -(2 ^ 31) ≤ pend ∧ pend < 2 ^ 31
    · by_cases hzero : rem = 0 ∧ pend = 0
      · obtain ⟨rfl, hexp, hbroken, hphase, hremaining, hpending, hpass, hbytes⟩ :=
          sbAdvance_opens haligned hloc hunread hzero.1 hzero.2 ht
        exact ⟨iff_of_true rfl hin, hexp, nofun, fun _ => hbroken, fun _ _ _ => ⟨hphase, hremaining, hpending⟩,
          fun _ h => absurd hzero (by omega), fun sid hsid p a hwait => ⟨nofun, fun _ _ _ => hpass sid hsid p a hwait⟩, hbytes⟩
      · obtain ⟨rfl, hexp, hbroken, hphase, hremaining, hpending, hbytes⟩ := sbAdvance_counts haligned hloc hrem hunread hin hzero ht
        exact ⟨iff_of_true rfl hin, hexp, nofun, fun _ => hbroken, fun _ h1 h2 => absurd ⟨h1, h2⟩ hzero,
          fun _ _ => ⟨hphase, hremaining, hpending⟩, fun sid hsid p a hwait => ⟨nofun, fun _ h1 h2 => absurd ⟨h1, h2⟩ hzero⟩, hbytes⟩
    · obtain ⟨rfl, hexp, hbroken, htraps, hbytes⟩ := sbAdvance_breaks haligned hloc hrem hunread (by omega) ht
      exact ⟨iff_of_false Bool.false_ne_true hin, hexp, fun _ => hbroken, nofun, nofun, nofun,
        fun sid hsid p a hwait => ⟨fun _ => htraps sid hsid p a hwait, nofun⟩, hbytes⟩
  case bytes =>
    intro s m gang cid off n hm hkind haway hheld
    refine ⟨fun hnamed hwhole => barrierBytes_live hm hkind haway hheld hnamed hwhole,
      fun hdead => barrierBytes_dead hm hkind haway hheld hdead⟩

end Sys2Proof.Machine

/-! SUPPORT. How the operations of a MAP end and are answered (21 R391, R393). -/

namespace Sys2Proof.Machine

open Sys2Proof Sys2Proof.Claims

/-! ## The operations of a MAP (21 R391, R393) -/

/-- No wait of a message has ended it. -/
def Goes (u : State) (o : MapOp) : Prop := ∀ w ∈ u.bindery.mapWaits, w.sender = o.sender → w.id = o.id → w.last = false

section
variable {s : State} {op : Nat} {f : MapOp → Except Nat (State × List OpenRef)}

section
variable (hserves : s.serves 2 = true) (hgoes : Goes s s.mapOp)
include hserves hgoes

theorem mapping_body : Machine.mapping op s f =
    if s.body = [] then .next (s.reply s.mapOp.sender s.mapOp.id 0 0 [])
    else if s.mapOp.op = 0 ∨ 7 < s.mapOp.op ∨ s.body.length < s.mapOp.off + 32 then .next (s.mapEnd s.mapOp 1 [])
    else if s.mapOp.op ≠ op then .next s
    else match f s.mapOp with
      | .error status => .next (s.mapEnd s.mapOp status [])
      | .ok (u, l) => .next (u.mapEnd s.mapOp 0 l) := by
  have hopen : (s.bindery.mapWaits.any fun w => w.sender == s.mapOp.sender && w.id == s.mapOp.id && w.last) = false := by
    rw [List.any_eq_false]
    intro w hw hmine
    simp only [Bool.and_eq_true, beq_iff_eq] at hmine
    exact Bool.false_ne_true ((hgoes w hw hmine.1.1 hmine.1.2).symm.trans hmine.2)
  unfold Machine.mapping
  simp only [hserves, hopen, Bool.not_true, Bool.false_eq_true, if_false]
  all_goals rfl

end

/-- An operation that is neither over nor unserved is carried out. -/
theorem mapping_of_notYet (h : NotYet s op) (hop : 1 ≤ op ∧ op ≤ 7) : Machine.mapping op s f =
    match f s.mapOp with
    | .error status => .next (s.mapEnd s.mapOp status [])
    | .ok (u, l) => .next (u.mapEnd s.mapOp 0 l) := by
  obtain ⟨hserves, hgoes, hwhole, hnumber⟩ := h
  have hbody : s.body ≠ [] := fun e => by
    rw [e, List.length_nil] at hwhole
    omega
  rw [mapping_body hserves hgoes, if_neg hbody, if_neg (by omega), if_neg (not_not.mpr hnumber)]

end

/-- A wait is one of the message of an operation. -/
def MapOp.owns (o : MapOp) (w : MapWait) : Bool := w.sender == o.sender && w.id == o.id

/-- What the Bindery keeps in mind of an operation that is over. -/
def MapOp.wait (o : MapOp) (status : Nat) (l : List OpenRef) : MapWait :=
  { sender := o.sender, id := o.id, ordered := o.ordered, off := o.off, last := o.last || status != 0, status := status, open_ := l }

/-- A state with one more wait of a MAP. -/
def State.remember (u : State) (w : MapWait) : State := u.onBindery fun b => { b with mapWaits := b.mapWaits ++ [w] }

theorem MapOp.owns_iff {o : MapOp} {w : MapWait} : o.owns w = true ↔ w.sender = o.sender ∧ w.id = o.id := by
  simp [MapOp.owns]

@[simp] theorem MapOp.owns_wait (o : MapOp) (status : Nat) (l : List OpenRef) : o.owns (o.wait status l) = true := by
  simp [MapOp.owns, MapOp.wait]

theorem MapOp.last_wait {o : MapOp} {status : Nat} {l : List OpenRef} :
    (o.wait status l).last = true ↔ o.last = true ∨ status ≠ 0 := by
  simp [MapOp.wait]

theorem mapEnd_eq (u : State) (o : MapOp) (status : Nat) (l : List OpenRef) :
    u.mapEnd o status l = (u.remember (o.wait status l)).mapReply o := rfl

section
variable {s : State} {o : MapOp}

theorem mapReply_of_none (h : (s.bindery.mapWaits.filter o.owns).find? (·.last) = none) : s.mapReply o = s := by
  show (match (s.bindery.mapWaits.filter o.owns).find? (·.last) with | none => s | some w => _) = s
  rw [h]

theorem mapReply_of_some {w : MapWait} (h : (s.bindery.mapWaits.filter o.owns).find? (·.last) = some w) :
    s.mapReply o =
      if (s.bindery.mapWaits.filter o.owns).any fun x => x.open_.any s.stillOpen then s
      else (s.onBindery fun b => { b with mapWaits := b.mapWaits.filter fun x => !o.owns x }).reply o.sender o.id w.status
        (if w.status = 1 then w.off else 0) [] := by
  show (match (s.bindery.mapWaits.filter o.owns).find? (·.last) with | none => s | some w => _) = _
  rw [h]
  rfl

end

section
variable {u : State} {o : MapOp} {status : Nat} {l : List OpenRef}

theorem remember_waits : (u.remember (o.wait status l)).bindery.mapWaits.filter o.owns =
    u.bindery.mapWaits.filter o.owns ++ [o.wait status l] := by
  show (u.bindery.mapWaits ++ [o.wait status l]).filter o.owns = _
  rw [List.filter_append, List.filter_cons_of_pos (o.owns_wait status l), List.filter_nil]

theorem remember_last (h : Goes u o) : ((u.remember (o.wait status l)).bindery.mapWaits.filter o.owns).find? (·.last) =
    if (o.wait status l).last then some (o.wait status l) else none := by
  have hnone : (u.bindery.mapWaits.filter o.owns).find? (·.last) = none := by
    rw [List.find?_eq_none]
    intro w hw
    obtain ⟨hw, hm⟩ := List.mem_filter.mp hw
    obtain ⟨hsender, hid⟩ := MapOp.owns_iff.mp hm
    simp [h w hw hsender hid]
  rw [remember_waits, List.find?_append, hnone, Option.none_or, List.find?_cons, List.find?_nil]
  cases (o.wait status l).last <;> rfl

theorem remember_owed : (((u.remember (o.wait status l)).bindery.mapWaits.filter o.owns).any fun x =>
    x.open_.any (u.remember (o.wait status l)).stillOpen) = true ↔ Owed u o l := by
  rw [remember_waits, show (u.remember (o.wait status l)).stillOpen = u.stillOpen from rfl, List.any_append, Bool.or_eq_true, or_comm]
  refine or_congr ?_ ?_
  · simp [MapOp.wait]
  · simp only [List.any_eq_true, List.mem_filter, MapOp.owns_iff, and_assoc]

theorem remember_forgotten : (u.remember (o.wait status l)).bindery.mapWaits.filter (fun w => !o.owns w) =
    u.bindery.mapWaits.filter fun w => !o.owns w := by
  show (u.bindery.mapWaits ++ [o.wait status l]).filter _ = _
  rw [List.filter_append, List.filter_cons_of_neg (by simp), List.filter_nil, List.append_nil]

/-- How an operation that is over is answered, or kept in mind. -/
theorem answered_mapEnd (hgoes : Goes u o) (status : Nat) (l : List OpenRef) : Answered u (u.mapEnd o status l) o status l := by
  refine ⟨fun hover hfree => ?_, fun hwaits => ?_⟩
  · rw [mapEnd_eq, mapReply_of_some ((remember_last hgoes).trans (if_pos (MapOp.last_wait.mpr hover))),
      if_neg (fun h => hfree (remember_owed.mp h))]
    simp only [State.onBindery, State.reply, State.out, remember_forgotten]
    rfl
  · rw [mapEnd_eq]
    rcases hover : (o.wait status l).last with _ | _
    · exact mapReply_of_none ((remember_last hgoes).trans (if_neg (by simp [hover])))
    · have howed : Owed u o l := hwaits.resolve_left fun h => by
        have := MapOp.last_wait.mp hover
        simp [h.1, h.2] at this
      rw [mapReply_of_some ((remember_last hgoes).trans (if_pos hover)), if_pos (remember_owed.mpr howed)]
      rfl

end

/-- An operation of a MAP that fails is answered with its status. -/
theorem mapping_fails {s : State} {op status : Nat} {f : MapOp → Except Nat (State × List OpenRef)} (h : NotYet s op)
    (hop : 1 ≤ op ∧ op ≤ 7) (hf : f s.mapOp = .error status) :
    ∃ t, Machine.mapping op s f = .next t ∧ Answered s t s.mapOp status [] := by
  rw [mapping_of_notYet h hop, hf]
  exact ⟨_, rfl, answered_mapEnd h.goes _ _⟩

/-- One that is applied is answered in the state that it leaves. -/
theorem mapping_applies {s u : State} {op : Nat} {l : List OpenRef} {f : MapOp → Except Nat (State × List OpenRef)} (h : NotYet s op)
    (hop : 1 ≤ op ∧ op ≤ 7) (hf : f s.mapOp = .ok (u, l)) (hwaits : u.bindery.mapWaits = s.bindery.mapWaits) :
    ∃ t, Machine.mapping op s f = .next t ∧ Answered u t s.mapOp 0 l := by
  rw [mapping_of_notYet h hop, hf]
  exact ⟨_, rfl, answered_mapEnd (by unfold Goes; rw [hwaits]; exact h.goes) _ _⟩

end Sys2Proof.Machine

/-! SUPPORT. Domains, senders and peers (21 R392, R393). -/

namespace Sys2Proof.Machine

open Sys2Proof Sys2Proof.Claims

/-! ## The domains, and what is written of one -/

theorem find?_mapSet_self {α : Type} (k : Nat) (x : α) (m : Map α) :
    ((mapSet k x m).find? fun y => y.1 == k) = some (k, x) := by
  induction m with
  | nil => simp [mapSet]
  | cons y m ih =>
    unfold mapSet
    split
    · simp
    · split
      · simp
      · next hlt hne => rw [List.find?_cons_of_neg (by simpa using Ne.symm hne), ih]

/-- The domain that a Bindery names once it has set it. -/
theorem domain_mapSet_self {u : State} {d : Nat} {x : Domain} {m : Map Domain} (h : u.bindery.domains = mapSet d x m) :
    u.domain d = some x := by
  rw [State.domain, h, find?_mapSet_self]
  rfl

theorem writeDomain_only (s : State) (d : Nat) (x : Domain) :
    PlaceOnly (s.onBindery fun b => { b with domains := mapSet d x b.domains }) (s.writeDomain d x) :=
  (placeStore_only _ _ _ _).trans (placeStore_only _ _ _ _)

theorem PlaceOnly.bindery {s t : State} (h : PlaceOnly s t) : t.bindery = s.bindery := by
  obtain ⟨_, _, _, _, rfl⟩ := h
  rfl

theorem writeDomain_waits (s : State) (d : Nat) (x : Domain) :
    (s.writeDomain d x).bindery.mapWaits = s.bindery.mapWaits := by
  rw [(writeDomain_only s d x).bindery]
  rfl

/-! ## Operations 5 to 7 are an administrator's (21 R392) -/

/-- An event of an administrator's operation by another sender. -/
theorem adminOp_refused {s : State} {i : Instr} {op : Nat} (h : NotYet s op) (hadmin : s.isAdmin s.mapOp.sender = false)
    (hi : MapEvent i op) (hop : 5 ≤ op) : ∃ t, exec i s = .next t ∧ Answered s t s.mapOp 3 [] := by
  simp only [MapEvent, List.mem_cons, Prod.mk.injEq, List.not_mem_nil, or_false] at hi
  have hstop {α : Type} (x y : α) : (if !s.isAdmin s.mapOp.sender then x else y) = x := if_pos (by rw [hadmin]; rfl)
  obtain ⟨-, rfl⟩ | ⟨-, rfl⟩ | ⟨-, rfl⟩ | ⟨-, rfl⟩ | ⟨rfl, rfl⟩ | ⟨rfl, rfl⟩ | ⟨rfl, rfl⟩ := hi
  any_goals omega
  · have hguard : ((s.domain s.mapOp.dom).isNone && !(s.argN 2 % 16 == 0 && s.unused (s.argN 2, s.argN 2 + 65536)) &&
        s.isAdmin (s.argN 0)) = false := by
      rw [show s.isAdmin (s.argN 0) = false from hadmin, Bool.and_false]
    show ∃ t, execSetDomain s = .next t ∧ _
    unfold execSetDomain
    simp only [hguard, Bool.false_eq_true, if_false]
    exact mapping_fails h (by decide) (hstop _ _)
  · show ∃ t, execSetSender s = .next t ∧ _
    exact mapping_fails h (by decide) (hstop _ _)
  · show ∃ t, execRegisterPeer s = .next t ∧ _
    exact mapping_fails h (by decide) (hstop _ _)

/-- SET_DOMAIN of a domain that exists, or for which the operand is a place. -/
theorem execSetDomain_eq {s : State} (hroom : (s.domain s.mapOp.dom).isSome = true ∨
    s.argN 2 % 16 = 0 ∧ s.unused (s.argN 2, s.argN 2 + 65536) = true) : exec .setDomain s = Machine.mapping 5 s fun o =>
    if !s.isAdmin o.sender then .error 3
    else if o.dom = 0 then .error 1
    else .ok (s.writeDomain o.dom
      { (s.domain o.dom).getD { caps := 0, otypes := 0, array := s.argN 2, regions := [], senders := [] } with
        caps := (BitVec.ofNat 12 o.a &&& ~~~(permMask [permSYS])).toNat, otypes := o.a / 2 ^ 32 % 2 ^ 16 / 2 * 2 }, []) := by
  have hguard : ((s.domain s.mapOp.dom).isNone && !(s.argN 2 % 16 == 0 && s.unused (s.argN 2, s.argN 2 + 65536)) &&
      s.isAdmin (s.argN 0)) = false := by
    rcases hroom with h | ⟨h1, h2⟩
    · rw [Option.isNone_eq_false_iff.mpr h]
      rfl
    · rw [h1, h2]
      simp
  show execSetDomain s = _
  unfold execSetDomain
  simp only [hguard, Bool.false_eq_true, if_false]

/-- The mask of a domain: the named permissions but SYS (08 R154). -/
theorem capsMask_testBit (a k : Nat) (hk : k < 16) :
    (BitVec.ofNat 12 a &&& ~~~(permMask [permSYS])).toNat.testBit k = (decide (k < 12) && k != permSYS && a.testBit k) := by
  rw [BitVec.testBit_toNat, BitVec.getLsbD_and, BitVec.getLsbD_not]
  by_cases h : k < 12
  · have hmask : (permMask [permSYS]).getLsbD k = (k == permSYS) := by
      revert h
      revert k
      decide
    rw [hmask, BitVec.getLsbD_ofNat]
    simp [h, bne, Bool.and_comm]
  · rw [BitVec.getLsbD_ofNat]
    simp [h]

/-- The object types of a domain: the named ones but 0 (08 R154). -/
theorem otypesMask_testBit (a k : Nat) :
    (a / 2 ^ 32 % 2 ^ 16 / 2 * 2).testBit k = (decide (1 ≤ k) && decide (k < 16) && a.testBit (32 + k)) := by
  rcases k with _ | k
  · simp [Nat.testBit_zero]
  · rw [show a / 2 ^ 32 % 2 ^ 16 / 2 * 2 = 2 ^ 1 * (a / 2 ^ 32 % 2 ^ 16 / 2) by omega, Nat.testBit_two_pow_mul]
    simp only [Nat.add_sub_cancel, Nat.testBit_div_two, Nat.testBit_mod_two_pow, Nat.testBit_div_two_pow]
    simp [Nat.add_comm]

/-- The senders of a list to which one has been added or from which it has been removed. -/
theorem setSender_mem (l : List Nat) (a x : Nat) :
    (x ∈ l.filter (· != a) ↔ if x = a then False else x ∈ l) ∧ (x ∈ l ++ [a] ↔ if x = a then True else x ∈ l) := by
  by_cases h : x = a <;> simp [h]

/-- A state whose Bindery has another list of senders for a domain. -/
def State.withSenders (s : State) (n : Nat) (d : Domain) (l : List Nat) : State :=
  s.onBindery fun b => { b with domains := mapSet n { d with senders := l } b.domains }

section
variable {s : State} (h : NotYet s 6) (hadmin : s.isAdmin s.mapOp.sender = true)
include h hadmin

theorem setSender_unnamed (hd : s.domain s.mapOp.dom = none) : ∃ t, exec .setSender s = .next t ∧ Answered s t s.mapOp 1 [] := by
  show ∃ t, execSetSender s = .next t ∧ _
  exact mapping_fails h (by decide) (by simp only [hadmin, hd, Bool.not_true, Bool.false_eq_true, if_false])

variable {d : Domain} (hd : s.domain s.mapOp.dom = some d)
include hd

theorem setSender_full (hadd : s.mapOp.b.testBit 0 = true) (hnew : s.mapOp.a ∉ d.senders) (hfull : 16 ≤ d.senders.length) :
    ∃ t, exec .setSender s = .next t ∧ Answered s t s.mapOp 2 [] := by
  have hodd : ¬ s.mapOp.b % 2 = 0 := by
    rw [Nat.testBit_zero] at hadd
    simp at hadd
    omega
  show ∃ t, execSetSender s = .next t ∧ _
  exact mapping_fails h (by decide) (by
    simp only [hadmin, hd, Bool.not_true, Bool.false_eq_true, if_false, if_neg hodd, List.contains_eq_mem, hnew, decide_false,
      if_pos hfull])

/-- SET_SENDER leaves the named sender on the list if bit 0 of b is set, and off it otherwise. -/
theorem setSender_applies (hroom : s.mapOp.b.testBit 0 = false ∨ s.mapOp.a ∈ d.senders ∨ d.senders.length < 16) :
    ∃ u t, exec .setSender s = .next t ∧ Answered u t s.mapOp 0 [] ∧ u.mem = s.mem ∧ ∃ e, u.domain s.mapOp.dom = some e ∧
      (∀ x, x ∈ e.senders ↔ if x = s.mapOp.a then s.mapOp.b.testBit 0 = true else x ∈ d.senders) ∧ { e with senders := d.senders } = d := by
  show ∃ u t, execSetSender s = .next t ∧ _
  by_cases heven : s.mapOp.b % 2 = 0
  · obtain ⟨t, hexec, ht⟩ : ∃ t, execSetSender s = .next t ∧
        Answered (s.withSenders s.mapOp.dom d (d.senders.filter (· != s.mapOp.a))) t s.mapOp 0 [] :=
      mapping_applies h (by decide) (by
        simp only [hadmin, hd, Bool.not_true, Bool.false_eq_true, if_false, if_pos heven]
        rfl) rfl
    have hbit : s.mapOp.b.testBit 0 = false := by simp [Nat.testBit_zero, heven]
    refine ⟨_, t, hexec, ht, rfl, _, domain_mapSet_self rfl, fun x => ?_, rfl⟩
    rw [hbit]
    simpa using (setSender_mem d.senders s.mapOp.a x).1
  · have hbit : s.mapOp.b.testBit 0 = true := by simp [Nat.testBit_zero]; omega
    by_cases hknown : s.mapOp.a ∈ d.senders
    · obtain ⟨t, hexec, ht⟩ : ∃ t, execSetSender s = .next t ∧ Answered s t s.mapOp 0 [] :=
        mapping_applies h (by decide) (by
          simp only [hadmin, hd, Bool.not_true, Bool.false_eq_true, if_false, if_neg heven, List.contains_eq_mem, hknown, decide_true,
            if_true]) rfl
      refine ⟨s, t, hexec, ht, rfl, d, hd, fun x => ?_, rfl⟩
      by_cases hx : x = s.mapOp.a <;> simp [hx, hbit, hknown]
    · have hshort : ¬ 16 ≤ d.senders.length := by
        rw [hbit] at hroom
        have := hroom.resolve_left nofun |>.resolve_left hknown
        omega
      obtain ⟨t, hexec, ht⟩ : ∃ t, execSetSender s = .next t ∧
          Answered (s.withSenders s.mapOp.dom d (d.senders ++ [s.mapOp.a])) t s.mapOp 0 [] :=
        mapping_applies h (by decide) (by
          simp only [hadmin, hd, Bool.not_true, Bool.false_eq_true, if_false, if_neg heven, List.contains_eq_mem, hknown, decide_false,
            if_neg hshort]
          rfl) rfl
      refine ⟨_, t, hexec, ht, rfl, _, domain_mapSet_self rfl, fun x => ?_, rfl⟩
      rw [hbit]
      exact (setSender_mem d.senders s.mapOp.a x).2.trans (by simp)

end

section
variable {s : State} (h : NotYet s 5) (hadmin : s.isAdmin s.mapOp.sender = true)
  (hroom : (s.domain s.mapOp.dom).isSome = true ∨ s.argN 2 % 16 = 0 ∧ s.unused (s.argN 2, s.argN 2 + 65536) = true)
include h hadmin hroom

theorem setDomain_zero (hzero : s.mapOp.dom = 0) : ∃ t, exec .setDomain s = .next t ∧ Answered s t s.mapOp 1 [] := by
  rw [execSetDomain_eq hroom]
  exact mapping_fails h (by decide) (by simp only [hadmin, Bool.not_true, Bool.false_eq_true, if_false, if_pos hzero])

/-- SET_DOMAIN writes the masks and keeps the array, the regions and the senders of a domain that was there. -/
theorem setDomain_applies (hne : s.mapOp.dom ≠ 0) : ∃ t d, exec .setDomain s = .next t ∧
    Answered (s.writeDomain s.mapOp.dom d) t s.mapOp 0 [] ∧
    (∀ k < 16, d.caps.testBit k = (decide (k < 12) && k != permSYS && s.mapOp.a.testBit k)) ∧
    (∀ k < 17, d.otypes.testBit k = (decide (1 ≤ k) && decide (k < 16) && s.mapOp.a.testBit (32 + k))) ∧
    (∀ x, s.domain s.mapOp.dom = some x → d.array = x.array ∧ d.regions = x.regions ∧ d.senders = x.senders) ∧
    (s.domain s.mapOp.dom = none → d.array = s.argN 2 ∧ d.regions = [] ∧ d.senders = []) := by
  let d := (s.domain s.mapOp.dom).getD { caps := 0, otypes := 0, array := s.argN 2, regions := [], senders := [] }
  obtain ⟨t, hexec, ht⟩ : ∃ t, exec .setDomain s = .next t ∧ Answered (s.writeDomain s.mapOp.dom
      { d with caps := (BitVec.ofNat 12 s.mapOp.a &&& ~~~(permMask [permSYS])).toNat
               otypes := s.mapOp.a / 2 ^ 32 % 2 ^ 16 / 2 * 2 }) t s.mapOp 0 [] := by
    rw [execSetDomain_eq hroom]
    exact mapping_applies h (by decide) (by
      simp only [hadmin, Bool.not_true, Bool.false_eq_true, if_false, if_neg hne]
      rfl) (writeDomain_waits _ _ _)
  refine ⟨t, _, hexec, ht, fun k hk => capsMask_testBit _ k hk, fun k _ => otypesMask_testBit _ k, fun x hx => ?_, fun hnone => ?_⟩
  · rw [show d = x from by simp only [d, hx, Option.getD_some]]
    exact ⟨rfl, rfl, rfl⟩
  · simp only [d, hnone, Option.getD_none, and_self]

end

/-- REGISTER_PEER by an administrator: the number names the one Bindery. -/
theorem registerPeer_applies {s : State} (h : NotYet s 7) (hadmin : s.isAdmin s.mapOp.sender = true) :
    ∃ t u, exec .registerPeer s = .next t ∧ Answered u t s.mapOp 0 [] ∧
      u = { s with bindery := { s.bindery with peers := u.bindery.peers } } ∧
      ∀ p, p ∈ u.bindery.peers ↔ if p.1 = s.mapOp.a % 64 then p.2 = s.mapOp.b else p ∈ s.bindery.peers := by
  show ∃ t u, execRegisterPeer s = .next t ∧ _
  obtain ⟨t, hexec, ht⟩ : ∃ t, execRegisterPeer s = .next t ∧ Answered (s.onBindery fun b =>
      { b with peers := b.peers.filter (fun p => p.1 != s.mapOp.a % 64) ++ [(s.mapOp.a % 64, s.mapOp.b)] }) t s.mapOp 0 [] :=
    mapping_applies h (by decide) (by simp only [hadmin, Bool.not_true, Bool.false_eq_true, if_false]) rfl
  refine ⟨t, _, hexec, ht, rfl, fun p => ?_⟩
  show p ∈ s.bindery.peers.filter (fun p => p.1 != s.mapOp.a % 64) ++ [(s.mapOp.a % 64, s.mapOp.b)] ↔ _
  obtain ⟨n, a⟩ := p
  by_cases hn : n = s.mapOp.a % 64 <;> simp [hn]

/-- Settles O44: each operation of an administrator, with what another sender is answered. -/
theorem administratorsSetDomainsAndPeers : Obligations.AdministratorsSetDomainsAndPeers := by
  unfold Obligations.AdministratorsSetDomainsAndPeers
  refine ⟨?others, ?domains, ?senders, ?peers, ?list⟩
  case others =>
    rintro s o i op rfl h hadmin hi hop
    exact adminOp_refused h hadmin hi hop
  case domains =>
    rintro s o rfl h hadmin hroom
    exact ⟨Nat.le_of_lt_succ (fieldAt_lt _ _ 1), setDomain_zero h hadmin hroom, setDomain_applies h hadmin hroom⟩
  case senders =>
    rintro s o rfl h hadmin
    exact ⟨setSender_unnamed h hadmin, fun d hd => ⟨setSender_full h hadmin hd, setSender_applies h hadmin hd⟩⟩
  case peers =>
    rintro s o rfl h hadmin
    exact registerPeer_applies h hadmin
  case list =>
    intro s
    show execAdminListWrite s = _
    unfold execAdminListWrite
    by_cases hlen : s.arg.n.length ≤ 8
    · rw [if_pos hlen, if_neg (Nat.not_lt.mpr hlen)]
      rfl
    · rw [if_neg hlen, if_pos (Nat.lt_of_not_le hlen)]

end Sys2Proof.Machine

/-! SUPPORT. Pages and regions (21 R393). -/

namespace Sys2Proof.Machine

open Sys2Proof Sys2Proof.Claims

/-! ## The entries of a page in the tables (08 R155, R156) -/

/-- The Bindery's list of pages once an entry has been written or removed. -/
def State.listEntry (s : State) (e : PageEntry) (valid : Bool) : State :=
  s.onBindery fun b =>
    let rest := b.pages.filter fun x => !(x.big == e.big && x.page == e.page)
    { b with pages := if valid then rest ++ [e] else rest }

/-- One copy of the table that holds the entry of a page. -/
def State.entryStep (e : PageEntry) (valid : Bool) (s : Option State) (csr : Word) : Option State :=
  s.bind fun s =>
    match (if valid then s.entrySlot csr (e.page / pageSize e.big) e.page else s.tableSlot csr (e.page / pageSize e.big) e.page) with
    | some loc => some (s.placeStore loc (bytesOfNat 16 (if valid then e.entry else 0)) none)
    | none => if valid then none else some s

theorem writeEntry_eq (s : State) (e : PageEntry) (valid : Bool) : s.writeEntry e valid =
    (if e.big then (s.listEntry e valid).bindery.t32 else (s.listEntry e valid).bindery.t64).foldl (State.entryStep e valid)
      (some (s.listEntry e valid)) := rfl

theorem entryStep_only {e : PageEntry} {valid : Bool} {s u : State} {csr : Word} (h : State.entryStep e valid (some s) csr = some u) :
    PlaceOnly s u := by
  unfold State.entryStep at h
  rw [Option.bind_some] at h
  split at h
  · cases h
    exact placeStore_only _ _ _ _
  · split at h <;> cases h
    exact .refl _

theorem entrySteps_only {e : PageEntry} {valid : Bool} (l : List Word) {s u : State}
    (h : l.foldl (State.entryStep e valid) (some s) = some u) : PlaceOnly s u := by
  induction l generalizing s with
  | nil =>
    cases h
    exact PlaceOnly.refl u
  | cons csr l ih =>
    rw [List.foldl_cons] at h
    rcases hstep : State.entryStep e valid (some s) csr with _ | v
    · rw [hstep] at h
      have hnone : l.foldl (State.entryStep e valid) none = none := by
        clear h ih
        induction l with
        | nil => rfl
        | cons _ _ ih => exact ih
      rw [hnone] at h
      cases h
    · rw [hstep] at h
      exact (entryStep_only hstep).trans (ih h)

theorem writeEntry_only {s u : State} {e : PageEntry} {valid : Bool} (h : s.writeEntry e valid = some u) :
    PlaceOnly (s.listEntry e valid) u := by
  rw [writeEntry_eq] at h
  exact entrySteps_only _ h

/-- An entry can always be removed. -/
theorem removeEntry_some (s : State) (e : PageEntry) : ∃ u, s.writeEntry e false = some u := by
  rw [writeEntry_eq]
  generalize (if e.big then _ else _ : List Word) = l
  generalize s.listEntry e false = v
  induction l generalizing v with
  | nil => exact ⟨v, rfl⟩
  | cons csr l ih =>
    obtain ⟨w, hw⟩ : ∃ w, State.entryStep e false (some v) csr = some w := by
      unfold State.entryStep
      rw [Option.bind_some]
      split
      · exact ⟨_, rfl⟩
      · exact ⟨v, rfl⟩
    rw [List.foldl_cons, hw]
    exact ih w

theorem writeEntry_waits {s u : State} {e : PageEntry} {valid : Bool} (h : s.writeEntry e valid = some u) :
    u.bindery.mapWaits = s.bindery.mapWaits := by
  rw [(writeEntry_only h).bindery]
  rfl

theorem forAll_only {α : Type} {f : State → α → State} (h : ∀ s x, PlaceOnly s (f s x)) (l : List α) (s : State) :
    PlaceOnly s (forAll l f s) := forAll_rel PlaceOnly .refl .trans f h l s

theorem makeShadows_only (s : State) (frame : Nat) : PlaceOnly s (s.makeShadows frame) :=
  forAll_only (fun _ _ => (placeStore_only _ _ _ _).trans (placeStore_only _ _ _ _)) _ s

/-! ## Operations 1 and 2: a page (21 R393) -/

theorem bit_eq (n k : Nat) : (n / 2 ^ k % 2 == 1) = n.testBit k := by
  rw [Nat.testBit_eq_decide_div_mod_eq]
  rfl

theorem bit_zero_eq (n : Nat) : (n % 2 == 1) = n.testBit 0 := by
  rw [← bit_eq, Nat.pow_zero, Nat.div_one]

theorem not_mayMap {s : State} {sender dom : Nat} :
    (!s.isAdmin sender && !s.hasAuthority sender dom) = true ↔ ¬ MayMap s sender dom := by
  unfold MayMap
  cases s.isAdmin sender <;> cases s.hasAuthority sender dom <;> simp

theorem mayMap {s : State} {sender dom : Nat} (h : MayMap s sender dom) :
    (!s.isAdmin sender && !s.hasAuthority sender dom) = false :=
  Bool.eq_false_iff.mpr fun hn => not_mayMap.mp hn h

theorem inDomain_iff {s : State} {d : Nat} {r : Nat × Nat} : s.inDomain d r = true ↔
    ∃ x, s.domain d = some x ∧ ∃ y ∈ x.regions, y.base ≤ r.1 ∧ r.2 ≤ y.base + 2 ^ y.size := by
  unfold State.inDomain
  split
  · next x hx =>
    simp only [hx, List.any_eq_true, Bool.and_eq_true, decide_eq_true_eq, Option.some.injEq, exists_eq_left']
    rfl
  · next hx => simp [hx]

theorem ofOther_eq_false {s : State} {d : Nat} {e : PageEntry} : s.ofOther d e = false ↔
    ∀ x ∈ s.bindery.domains, x.1 ≠ d → ∀ y ∈ x.2.regions, meet y.range e.addrs = false := by
  simp [State.ofOther, List.any_eq_false]

theorem frameTaken_eq_false {s : State} {o : MapOp} {size : Nat} (hsize : size = if o.c % 2 = 1 then 2 ^ 25 else 2 ^ 16) :
    s.frameTaken o = false ↔
      ∀ e ∈ s.bindery.pages, meet (o.b, o.b + size) e.frames = true → e.big = o.c.testBit 0 ∧ e.page = o.a := by
  have hpage : pageSize (o.c % 2 == 1) = size := by simp only [pageSize, hsize, beq_iff_eq]
  unfold State.frameTaken
  dsimp only
  rw [hpage, bit_zero_eq, List.any_eq_false]
  simp

theorem ite_some_eq_none {α : Type} {c : Prop} [Decidable c] {x : α} {y : Option α} :
    (if c then some x else y) = none ↔ ¬ c ∧ y = none := by
  split <;> simp [*]

/-- When an operation on a page is let through. -/
theorem pageStop_eq_none {s : State} {o : MapOp} {frame : Bool} {size : Nat} (hsize : size = if o.c % 2 = 1 then 2 ^ 25 else 2 ^ 16) :
    s.pageStop o frame = none ↔
      MayMap s o.sender o.dom ∧ (o.a % size = 0 ∧ o.a < 2 ^ 56) ∧
      (frame = true → o.b % size = 0 ∧ o.b < 2 ^ 52 ∧ o.c < 8) ∧ (frame = true → s.frameTaken o = false) ∧
      (s.isAdmin o.sender = true ∨ s.inDomain o.dom (o.a, o.a + size) = true ∧
        (frame = true → ∀ e ∈ s.bindery.pages, meet (o.b, o.b + size) e.frames = true → s.ofOther o.dom e = false)) := by
  have hpage : pageSize (o.c % 2 == 1) = size := by simp only [pageSize, hsize, beq_iff_eq]
  have hothers : (s.bindery.pages.any fun e => meet (o.b, o.b + size) e.frames && s.ofOther o.dom e) = false ↔
      ∀ e ∈ s.bindery.pages, meet (o.b, o.b + size) e.frames = true → s.ofOther o.dom e = false := by
    simp [List.any_eq_false]
  have haddress : ¬ (o.a % size ≠ 0 ∨ 2 ^ 56 ≤ o.a) ↔ o.a % size = 0 ∧ o.a < 2 ^ 56 := by rw [not_or, not_not, Nat.not_le]
  have hframe : ¬ (frame && (o.b % size != 0 || decide (2 ^ 52 ≤ o.b) || decide (8 ≤ o.c))) = true ↔
      (frame = true → o.b % size = 0 ∧ o.b < 2 ^ 52 ∧ o.c < 8) := by
    simp only [Bool.and_eq_true, Bool.or_eq_true, bne_iff_ne, decide_eq_true_eq, not_and, not_or, not_not, Nat.not_le, and_assoc]
  rw [← hothers, ← hframe, ← haddress, ← not_not (a := MayMap s o.sender o.dom), ← not_mayMap]
  unfold State.pageStop
  simp only [hpage, ite_some_eq_none, Bool.and_eq_true, Bool.not_eq_true']
  refine and_congr_right fun _ => and_congr_right fun _ => and_congr_right fun _ => ?_
  generalize (s.bindery.pages.any fun e => meet (o.b, o.b + size) e.frames && s.ofOther o.dom e) = others
  cases s.isAdmin o.sender
  · simp only [Bool.false_eq_true, if_false, false_or, ite_some_eq_none]
    cases frame <;> simp [and_comm, and_left_comm, and_assoc]
  · cases frame <;> simp

theorem pageStop_of_refused {s : State} {o : MapOp} {frame : Bool} (h : ¬ MayMap s o.sender o.dom) : s.pageStop o frame = some 3 :=
  if_pos (not_mayMap.mpr h)

/-- What MAP_PAGE leaves of the tables, a page marked stamped with its shadows. -/
def State.pageWritten (s u : State) (e : PageEntry) : State :=
  if e.st = true ∧ e.big = false ∧ s.localPhys e.frame = .here e.frame then u.makeShadows e.frame else u

theorem pageWritten_waits (s u : State) (e : PageEntry) : (s.pageWritten u e).bindery.mapWaits = u.bindery.mapWaits := by
  unfold State.pageWritten
  split
  · rw [(makeShadows_only _ _).bindery]
  · rfl

theorem pageOf_eq (o : MapOp) :
    pageOf o = { page := o.a, big := o.c % 2 == 1, frame := o.b, w := o.c / 2 % 2 == 1, st := o.c / 4 % 2 == 1 } := by
  rw [pageOf, bit_zero_eq, ← bit_eq o.c 1, ← bit_eq o.c 2]
  rfl

theorem pageWritten_eq (s u : State) (o : MapOp) : s.pageWritten u (pageOf o) =
    if o.c / 4 % 2 == 1 && !(o.c % 2 == 1) && s.localPhys o.b == .here o.b then u.makeShadows o.b else u := by
  rw [pageOf_eq]
  unfold State.pageWritten
  refine if_congr ?_ rfl rfl
  simp [and_assoc]

section
variable {s u : State}

theorem mapPage_fails (h : NotYet s 1) {status : Nat} (hstop : s.pageStop s.mapOp true = some status) :
    ∃ t, exec .mapPage s = .next t ∧ Answered s t s.mapOp status [] := by
  show ∃ t, execMapPage s = .next t ∧ _
  exact mapping_fails h (by decide) (by simp only [hstop])

theorem mapPage_full (h : NotYet s 1) (hstop : s.pageStop s.mapOp true = none) (hfull : s.writeEntry (pageOf s.mapOp) true = none) :
    ∃ t, exec .mapPage s = .next t ∧ Answered s t s.mapOp 2 [] := by
  rw [pageOf_eq] at hfull
  show ∃ t, execMapPage s = .next t ∧ _
  exact mapping_fails h (by decide) (by simp only [hstop, hfull])

/-- The Bindery's list once a page has been mapped. -/
theorem writeEntry_pages {e : PageEntry} (hu : s.writeEntry e true = some u) :
    u.bindery.pages = (s.bindery.pages.filter fun x => !(x.big == e.big && x.page == e.page)) ++ [e] := by
  rw [(writeEntry_only hu).bindery]
  rfl

theorem mapPage_waits {e : PageEntry} {valid : Bool} (hu : s.writeEntry e valid = some u) (p : PageEntry) :
    (s.pageWritten u p).bindery.mapWaits = s.bindery.mapWaits := (pageWritten_waits s u p).trans (writeEntry_waits hu)

section
variable (h : NotYet s 1) (hstop : s.pageStop s.mapOp true = none) (hu : s.writeEntry (pageOf s.mapOp) true = some u)
include h hstop hu

theorem mapPage_changes (hmapped : s.mapped s.mapOp.a (pageOf s.mapOp).big = true) : ∃ t, exec .mapPage s = .next t ∧
      Answered ((s.pageWritten u (pageOf s.mapOp)).invalidatePage s.mapOp.a (pageOf s.mapOp).big) t s.mapOp 0
        ((s.pageWritten u (pageOf s.mapOp)).openChunks none) := by
  have hwaits := mapPage_waits hu (pageOf s.mapOp)
  rw [pageWritten_eq] at hwaits ⊢
  rw [pageOf_eq] at hmapped hu ⊢
  show ∃ t, execMapPage s = .next t ∧ _
  exact mapping_applies h (by decide) (by simp only [hstop, hu]; exact if_pos hmapped) hwaits

theorem mapPage_adds (hmapped : s.mapped s.mapOp.a (pageOf s.mapOp).big = false) :
    ∃ t, exec .mapPage s = .next t ∧ Answered (s.pageWritten u (pageOf s.mapOp)) t s.mapOp 0 [] := by
  have hwaits := mapPage_waits hu (pageOf s.mapOp)
  rw [pageWritten_eq] at hwaits ⊢
  rw [pageOf_eq] at hmapped hu
  show ∃ t, execMapPage s = .next t ∧ _
  exact mapping_applies h (by decide) (by simp only [hstop, hu]; exact if_neg (by rw [hmapped]; exact Bool.false_ne_true)) hwaits

end

theorem unmapPage_fails (h : NotYet s 2) {status : Nat} (hstop : s.pageStop s.mapOp false = some status) :
    ∃ t, exec .unmapPage s = .next t ∧ Answered s t s.mapOp status [] := by
  show ∃ t, execUnmapPage s = .next t ∧ _
  exact mapping_fails h (by decide) (by simp only [hstop])

/-- UNMAP_PAGE leaves no entry of the page, and invalidates one that there was. -/
theorem unmapPage_applies (h : NotYet s 2) (hstop : s.pageStop s.mapOp false = none) {big : Bool} (hbig : big = s.mapOp.c.testBit 0) :
    ∃ u t, s.writeEntry { page := s.mapOp.a, big := big, frame := 0, w := false, st := false } false = some u ∧
      u.mapped s.mapOp.a big = false ∧ exec .unmapPage s = .next t ∧
      (s.mapped s.mapOp.a big = true → Answered (u.invalidatePage s.mapOp.a big) t s.mapOp 0 (u.openChunks none)) ∧
      (s.mapped s.mapOp.a big = false → Answered u t s.mapOp 0 []) := by
  obtain ⟨u, hu⟩ := removeEntry_some s { page := s.mapOp.a, big := big, frame := 0, w := false, st := false }
  have hgone : u.mapped s.mapOp.a big = false := by
    unfold State.mapped
    rw [(writeEntry_only hu).bindery, List.any_eq_false]
    intro e he
    obtain ⟨-, hne⟩ := List.mem_filter.mp he
    rw [Bool.not_eq_true'] at hne
    rw [hne]
    exact Bool.false_ne_true
  have hbody := hu
  rw [hbig, ← bit_zero_eq] at hbody
  refine ⟨u, ?_⟩
  show ∃ t, _ ∧ _ ∧ execUnmapPage s = .next t ∧ _
  rcases hmapped : s.mapped s.mapOp.a big with _ | _
  · obtain ⟨t, hexec, ht⟩ : ∃ t, execUnmapPage s = .next t ∧ Answered u t s.mapOp 0 [] :=
      mapping_applies h (by decide) (by
        simp only [hstop, hbody]
        exact if_neg (by rw [bit_zero_eq, ← hbig, hmapped]; exact Bool.false_ne_true)) (writeEntry_waits hu)
    exact ⟨t, hu, hgone, hexec, nofun, fun _ => ht⟩
  · obtain ⟨t, hexec, ht⟩ : ∃ t, execUnmapPage s = .next t ∧
        Answered (u.invalidatePage s.mapOp.a big) t s.mapOp 0 (u.openChunks none) :=
      mapping_applies h (by decide) (by
        simp only [hstop, hbody, hbig, ← bit_zero_eq]
        exact if_pos (by rw [bit_zero_eq, ← hbig, hmapped])) (show u.bindery.mapWaits = _ from writeEntry_waits hu)
    exact ⟨t, hu, hgone, hexec, fun _ => ht, nofun⟩

end

/-! ## Operations 3 and 4: a region (21 R393) -/

theorem regionOf_eq (o : MapOp) : regionOf o =
    { base := o.a, size := o.b % 64, r := o.b / 2 ^ 8 % 2 == 1, w := o.b / 2 ^ 9 % 2 == 1, x := o.b / 2 ^ 10 % 2 == 1
      e := o.b / 2 ^ 11 % 2 == 1 } := by
  simp only [regionOf, bit_eq]

/-- A sender that is no administrator, and a region that is one of another domain's. -/
theorem not_other {s : State} {sender dom : Nat} {r : Region} (h : s.isAdmin sender = true ∨ s.regionOfOther dom r = false) :
    ¬ (!s.isAdmin sender && s.regionOfOther dom r) = true := by
  rcases h with h | h <;> rw [h] <;> simp

section
variable {s : State} {r : Region} (h : NotYet s 3) (hr : r = regionOf s.mapOp)
include h

theorem setRegion_refused (hmay : ¬ MayMap s s.mapOp.sender s.mapOp.dom) :
    ∃ t, exec .setRegion s = .next t ∧ Answered s t s.mapOp 3 [] := by
  show ∃ t, execSetRegion s = .next t ∧ _
  exact mapping_fails h (by decide) (if_pos (not_mayMap.mpr hmay))

variable (hmay : MayMap s s.mapOp.sender s.mapOp.dom)
include hr hmay

theorem setRegion_bad (hbad : r.size < 20 ∨ 56 < r.size ∨ s.mapOp.a % 2 ^ r.size ≠ 0 ∨ 2 ^ 56 ≤ s.mapOp.a ∨ s.domain s.mapOp.dom = none) :
    ∃ t, exec .setRegion s = .next t ∧ Answered s t s.mapOp 1 [] := by
  subst hr
  show ∃ t, execSetRegion s = .next t ∧ _
  refine mapping_fails h (by decide) ?_
  simp only [mayMap hmay, Bool.false_eq_true, if_false]
  split
  · rfl
  · next hin =>
    have hnone : s.domain s.mapOp.dom = none := by
      have hsize : (regionOf s.mapOp).size = s.mapOp.b % 64 := rfl
      rw [hsize] at hbad
      tauto
    rw [hnone]

variable (hrange : ¬ (r.size < 20 ∨ 56 < r.size ∨ s.mapOp.a % 2 ^ r.size ≠ 0 ∨ 2 ^ 56 ≤ s.mapOp.a))
  {d : Domain} (hd : s.domain s.mapOp.dom = some d)
include hrange hd

theorem setRegion_others (hadmin : s.isAdmin s.mapOp.sender = false) (hother : s.regionOfOther s.mapOp.dom r = true) :
    ∃ t, exec .setRegion s = .next t ∧ Answered s t s.mapOp 3 [] := by
  have hstop : (!s.isAdmin s.mapOp.sender && s.regionOfOther s.mapOp.dom r) = true := by rw [hadmin, hother]; rfl
  subst hr
  rw [regionOf_eq] at hstop hrange
  show ∃ t, execSetRegion s = .next t ∧ _
  refine mapping_fails h (by decide) ?_
  simp only [mayMap hmay, Bool.false_eq_true, if_false, if_neg hrange, hd, hstop, if_true]

variable (hother : s.isAdmin s.mapOp.sender = true ∨ s.regionOfOther s.mapOp.dom r = false)
include hother

theorem setRegion_overlaps (hmeets : ∃ x ∈ d.regions, x.base ≠ s.mapOp.a ∧ meet x.range r.range = true) :
    ∃ t, exec .setRegion s = .next t ∧ Answered s t s.mapOp 1 [] := by
  have hany : (d.regions.any fun x => x.base != s.mapOp.a && meet x.range r.range) = true := by
    obtain ⟨x, hx, hne, hm⟩ := hmeets
    rw [List.any_eq_true]
    exact ⟨x, hx, by simp [hne, hm]⟩
  subst hr
  rw [regionOf_eq] at hother hrange hany
  show ∃ t, execSetRegion s = .next t ∧ _
  refine mapping_fails h (by decide) ?_
  simp only [mayMap hmay, Bool.false_eq_true, if_false, if_neg hrange, hd, not_other hother, hany, if_true]

variable (hapart : ∀ x ∈ d.regions, x.base ≠ s.mapOp.a → meet x.range r.range = false)
include hapart

omit h hr hmay hrange hd hother in
theorem regions_apart : (d.regions.any fun x => x.base != s.mapOp.a && meet x.range r.range) = false := by
  rw [List.any_eq_false]
  intro x hx hm
  simp only [Bool.and_eq_true, bne_iff_ne] at hm
  exact Bool.false_ne_true ((hapart x hx hm.1).symm.trans hm.2)

theorem setRegion_full (hnew : d.regions.find? (fun x => x.base == s.mapOp.a) = none) (hfull : 4096 ≤ d.regions.length) :
    ∃ t, exec .setRegion s = .next t ∧ Answered s t s.mapOp 2 [] := by
  have hany := regions_apart hapart
  subst hr
  rw [regionOf_eq] at hother hrange hany
  show ∃ t, execSetRegion s = .next t ∧ _
  refine mapping_fails h (by decide) ?_
  simp only [mayMap hmay, Bool.false_eq_true, if_false, if_neg hrange, hd, not_other hother, hany, hnew, hfull, and_self, if_true]

theorem setRegion_adds (hnew : d.regions.find? (fun x => x.base == s.mapOp.a) = none) (hroom : d.regions.length < 4096) :
    ∃ t, exec .setRegion s = .next t ∧
      Answered (s.writeDomain s.mapOp.dom { d with regions := putRegion r d.regions }) t s.mapOp 0 [] := by
  have hany := regions_apart hapart
  subst hr
  rw [regionOf_eq] at hother hrange hany ⊢
  show ∃ t, execSetRegion s = .next t ∧ _
  refine mapping_applies h (by decide) ?_ (writeDomain_waits _ _ _)
  simp only [mayMap hmay, Bool.false_eq_true, if_false, if_neg hrange, hd, not_other hother, hany, hnew, Nat.not_le.mpr hroom, and_false]

theorem setRegion_changes {x : Region} (hold : d.regions.find? (fun x => x.base == s.mapOp.a) = some x) {u : State}
    (hu : u = s.writeDomain s.mapOp.dom { d with regions := putRegion r d.regions }) :
    ∃ t, exec .setRegion s = .next t ∧ Answered (u.invalidateRegion s.mapOp.dom x) t s.mapOp 0 (u.openChunks none) := by
  have hany := regions_apart hapart
  subst hr
  rw [regionOf_eq] at hother hrange hany hu
  subst hu
  show ∃ t, execSetRegion s = .next t ∧ _
  refine mapping_applies h (by decide) ?_ (writeDomain_waits _ _ _)
  simp only [mayMap hmay, Bool.false_eq_true, if_false, if_neg hrange, hd, not_other hother, hany, hold, reduceCtorEq, false_and]

end

section
variable {s : State} (h : NotYet s 4)
include h

theorem removeRegion_refused (hmay : ¬ MayMap s s.mapOp.sender s.mapOp.dom) :
    ∃ t, exec .removeRegion s = .next t ∧ Answered s t s.mapOp 3 [] := by
  show ∃ t, execRemoveRegion s = .next t ∧ _
  exact mapping_fails h (by decide) (if_pos (not_mayMap.mpr hmay))

variable (hmay : MayMap s s.mapOp.sender s.mapOp.dom)
include hmay

theorem removeRegion_unknown (hnone : ∀ d, s.domain s.mapOp.dom = some d → ∀ x ∈ d.regions, x.base ≠ s.mapOp.a) :
    ∃ t, exec .removeRegion s = .next t ∧ Answered s t s.mapOp 1 [] := by
  show ∃ t, execRemoveRegion s = .next t ∧ _
  refine mapping_fails h (by decide) ?_
  simp only [mayMap hmay, Bool.false_eq_true, if_false]
  split
  · rfl
  · next d hd =>
    have hfind : d.regions.find? (fun x => x.base == s.mapOp.a) = none := by
      rw [List.find?_eq_none]
      intro x hx hbase
      exact hnone d hd x hx (beq_iff_eq.mp hbase)
    rw [hfind]

variable {d : Domain} {r : Region} (hd : s.domain s.mapOp.dom = some d)
  (hfind : d.regions.find? (fun x => x.base == s.mapOp.a) = some r)
include hd hfind

theorem removeRegion_others (hadmin : s.isAdmin s.mapOp.sender = false) (hother : s.regionOfOther s.mapOp.dom r = true) :
    ∃ t, exec .removeRegion s = .next t ∧ Answered s t s.mapOp 3 [] := by
  have hstop : (!s.isAdmin s.mapOp.sender && s.regionOfOther s.mapOp.dom r) = true := by rw [hadmin, hother]; rfl
  show ∃ t, execRemoveRegion s = .next t ∧ _
  refine mapping_fails h (by decide) ?_
  simp only [mayMap hmay, Bool.false_eq_true, if_false, hd, hfind, hstop, if_true]

theorem removeRegion_removes {u : State}
    (hu : u = s.writeDomain s.mapOp.dom { d with regions := d.regions.filter fun x => x.base != s.mapOp.a })
    (hother : s.isAdmin s.mapOp.sender = true ∨ s.regionOfOther s.mapOp.dom r = false) :
    ∃ t, exec .removeRegion s = .next t ∧ Answered (u.invalidateRegion s.mapOp.dom r) t s.mapOp 0 (u.openChunks none) := by
  subst hu
  show ∃ t, execRemoveRegion s = .next t ∧ _
  refine mapping_applies h (by decide) ?_ (writeDomain_waits _ _ _)
  simp only [mayMap hmay, Bool.false_eq_true, if_false, hd, hfind, not_other hother]

end

/-! ## What every event of a MAP shares (21 R389, R391) -/

/-- The event of an operation, but SET_DOMAIN of a new domain without a place for it. -/
theorem exec_of_mapEvent {s : State} {i : Instr} {op : Nat} (hi : MapEvent i op)
    (hroom : i = .setDomain → (s.domain s.mapOp.dom).isSome = true ∨ s.isAdmin s.mapOp.sender = false) :
    ∃ f, exec i s = Machine.mapping op s f := by
  simp only [MapEvent, List.mem_cons, Prod.mk.injEq, List.not_mem_nil, or_false] at hi
  obtain ⟨rfl, rfl⟩ | ⟨rfl, rfl⟩ | ⟨rfl, rfl⟩ | ⟨rfl, rfl⟩ | ⟨rfl, rfl⟩ | ⟨rfl, rfl⟩ | ⟨rfl, rfl⟩ := hi
  · exact ⟨_, show execMapPage s = _ from rfl⟩
  · exact ⟨_, show execUnmapPage s = _ from rfl⟩
  · exact ⟨_, show execSetRegion s = _ from rfl⟩
  · exact ⟨_, show execRemoveRegion s = _ from rfl⟩
  · refine ⟨_, show execSetDomain s = _ from if_neg ?_⟩
    rcases hroom rfl with h | h
    · simp [Option.isNone_eq_false_iff.mpr h]
    · rw [show s.isAdmin (s.argN 0) = false from h, Bool.and_false]
      exact Bool.false_ne_true
  · exact ⟨_, show execSetSender s = _ from rfl⟩
  · exact ⟨_, show execRegisterPeer s = _ from rfl⟩

section
variable {s : State} {op : Nat} {f : MapOp → Except Nat (State × List OpenRef)}

theorem mapping_of_not_served (h : s.serves 2 = false) : Machine.mapping op s f = .next s := if_pos (by rw [h]; rfl)

theorem exec_of_not_served {i : Instr} (hi : MapEvent i op) (h : s.serves 2 = false) : exec i s = .next s := by
  by_cases hset : i = .setDomain
  · rw [hset]
    show execSetDomain s = _
    unfold execSetDomain
    dsimp only
    split
    · rfl
    · exact mapping_of_not_served h
  · obtain ⟨f, hexec⟩ := exec_of_mapEvent hi (s := s) fun h => absurd h hset
    rw [hexec, mapping_of_not_served h]

end

/-- Settles O43, operation by operation, and what every event of a MAP shares. -/
theorem mapOperationsWriteTheTables : Obligations.MapOperationsWriteTheTables := by
  unfold Obligations.MapOperationsWriteTheTables
  refine ⟨?stop, ?map, ?unmap, ?set, ?remove, ?shared, fun s i op hi h => exec_of_not_served hi h⟩
  case stop =>
    intro s o frame size _ hsize
    refine ⟨?_, pageStop_of_refused⟩
    rw [pageStop_eq_none hsize, frameTaken_eq_false hsize, inDomain_iff]
    simp only [ofOther_eq_false, and_assoc, imp_and]
  case map =>
    rintro s o rfl h
    refine ⟨fun status hstop => mapPage_fails h hstop, mapPage_full h, fun u v hstop hu hv => ?_⟩
    obtain rfl : v = s.pageWritten u (pageOf s.mapOp) := hv
    exact ⟨writeEntry_pages hu, mapPage_changes h hstop hu, mapPage_adds h hstop hu⟩
  case unmap =>
    rintro s o big rfl hbig h
    exact ⟨fun status hstop => unmapPage_fails h hstop, fun hstop => unmapPage_applies h hstop hbig⟩
  case set =>
    rintro s o r rfl hr h
    refine ⟨setRegion_refused h, fun hmay hbad => setRegion_bad h hr hmay hbad, fun d hmay h20 h56 halign hlow hd => ?_⟩
    have hrange : ¬ (r.size < 20 ∨ 56 < r.size ∨ s.mapOp.a % 2 ^ r.size ≠ 0 ∨ 2 ^ 56 ≤ s.mapOp.a) := by
      rw [halign]
      omega
    refine ⟨setRegion_others h hr hmay hrange hd, fun hother => ⟨setRegion_overlaps h hr hmay hrange hd hother, fun hapart => ?_⟩⟩
    exact ⟨setRegion_full h hr hmay hrange hd hother hapart, setRegion_adds h hr hmay hrange hd hother hapart,
      fun x u hold hu => setRegion_changes h hr hmay hrange hd hother hapart hold hu⟩
  case remove =>
    rintro s o rfl h
    exact ⟨removeRegion_refused h, removeRegion_unknown h, fun d r u hmay hd hfind hu =>
      ⟨removeRegion_others h hmay hd hfind, removeRegion_removes h hmay hd hfind hu⟩⟩
  case shared =>
    rintro s o i op rfl hi hserves hgoes hroom
    obtain ⟨f, hexec⟩ := exec_of_mapEvent hi hroom
    rw [hexec, mapping_body hserves hgoes]
    refine ⟨fun hempty => if_pos hempty, fun hbody hbad => ?_, fun hlen hlow hhigh hne => ?_⟩
    · rw [if_neg hbody, if_pos hbad]
      exact ⟨_, rfl, answered_mapEnd hgoes _ _⟩
    · have hbody : s.body ≠ [] := fun e => by
        rw [e, List.length_nil] at hlen
        omega
      rw [if_neg hbody, if_neg (by omega), if_pos hne]

end Sys2Proof.Machine

/-! SUPPORT. Requests, replies and queries (21 R389 to R393). -/

namespace Sys2Proof.Machine

open Sys2Proof Sys2Proof.Claims

/-! ## Requests and their replies (21 R389, R391) -/

theorem replied_reply (s : State) (sender id status off : Nat) (body : List Byte) :
    Replied s (s.reply sender id status off body) sender id status off body := rfl

theorem serving_of_not_served {s : State} {type : Nat} {f : Nat → Nat → State} (h : s.serves type = false) :
    serving type s f = .next s := if_neg (by rw [h]; exact Bool.false_ne_true)

theorem serving_of_serves {s : State} {type sender id : Nat} {f : Nat → Nat → State} (h : Serves s type sender id) :
    serving type s f = .next (f sender id) := by
  obtain ⟨hserves, rfl, rfl⟩ := h
  exact if_pos hserves

/-! ## QUERY (21 R392, R393) -/

section
variable {s : State} {sel k sender id x : Nat} {f : Nat → Nat → Nat → State}

/-- The event of a QUERY for its own selector. -/
theorem querying_of_asks (h : Asks s sel sender id x) (hlow : 1 ≤ sel) (hhigh : sel ≤ 6) :
    querying sel s f = .next (f sender id x) := by
  obtain ⟨hserves, hsel, rfl⟩ := h
  refine (serving_of_serves hserves).trans ?_
  dsimp only
  rw [hsel, if_neg (by omega), if_pos rfl]

theorem querying_of_bad (h : Asks s k sender id x) (hk : k = 0 ∨ 6 < k) : querying sel s f = .next (s.reply sender id 1 0 []) := by
  obtain ⟨hserves, hsel, -⟩ := h
  refine (serving_of_serves hserves).trans ?_
  dsimp only
  rw [hsel, if_pos hk]

theorem querying_of_other (h : Asks s k sender id x) (hlow : 1 ≤ k) (hhigh : k ≤ 6) (hne : k ≠ sel) : querying sel s f = .next s := by
  obtain ⟨hserves, hsel, -⟩ := h
  refine (serving_of_serves hserves).trans ?_
  dsimp only
  rw [hsel, if_neg (by omega), if_neg hne]

end

/-- Every QUERY event. -/
theorem exec_of_queryEvent {i : Instr} {sel : Nat} (h : QueryEvent i sel) (s : State) : ∃ f, exec i s = querying sel s f := by
  simp only [QueryEvent, List.mem_cons, Prod.mk.injEq, List.not_mem_nil, or_false] at h
  obtain ⟨rfl, rfl⟩ | ⟨rfl, rfl⟩ | ⟨rfl, rfl⟩ | ⟨rfl, rfl⟩ | ⟨rfl, rfl⟩ | ⟨rfl, rfl⟩ := h
  · exact ⟨_, show execQueryGangs s = _ from rfl⟩
  · exact ⟨_, show execQueryFeatures s = _ from rfl⟩
  · exact ⟨_, show execQuerySensors s = _ from rfl⟩
  · exact ⟨_, show execQueryLog s = _ from rfl⟩
  · exact ⟨_, show execQueryIdentity s = _ from rfl⟩
  · exact ⟨_, show execQueryGang s = _ from rfl⟩

/-- Which messages are dropped (21 R389, R391). -/
theorem dropped_iff (s : State) : s.dropped = true ↔ s.bindery.accepting = false ∨ s.argN 1 = 2 ∨ fieldAt s.arg.bytes 0 2 ≠ 1 ∨
    fieldAt s.arg.bytes 2 2 ∉ [1, 2, 3, 4, 5, 0x10, 0x11, 0x12, 0x13, 0x81, 0x82] ∨
    s.arg.bytes.length < 32 + fieldAt s.arg.bytes 4 4 ∨ 2 ^ 30 < fieldAt s.arg.bytes 4 4 := by
  unfold State.dropped State.header
  simp only [Bool.or_eq_true, Bool.not_eq_true', beq_iff_eq, bne_iff_ne, decide_eq_true_eq, or_assoc, List.contains_eq_mem,
    decide_eq_false_iff_not]

theorem not_served_of_dropped {s : State} {type : Nat} (h : s.dropped = true) : s.serves type = false := by
  rw [State.serves, h]
  rfl

/-! ## The entry of a gang (21 R393 selector 1) -/

theorem natOfBytes_bytesOfNat (n v : Nat) : natOfBytes (bytesOfNat n v) = v % 256 ^ n := by
  induction n generalizing v with
  | zero => simp [bytesOfNat, natOfBytes, Nat.mod_one]
  | succ n ih =>
    have hmod := Nat.mod_mul (a := 256) (b := 256 ^ n) (x := v)
    rw [bytesOfNat, natOfBytes, ih, BitVec.toNat_ofNat, show 2 ^ 8 = 256 from rfl, Nat.pow_succ', hmod]

theorem bytesOfNat_drop (k n v : Nat) : (bytesOfNat (k + n) v).drop k = bytesOfNat n (v / 256 ^ k) := by
  induction k generalizing v with
  | zero => simp
  | succ k ih => rw [Nat.succ_add, bytesOfNat, List.drop_succ_cons, ih, Nat.div_div_eq_div_mul, Nat.pow_succ']

theorem bytesOfNat_take (n k v : Nat) : (bytesOfNat (n + k) v).take n = bytesOfNat n v := by
  induction n generalizing v with
  | zero => simp [bytesOfNat]
  | succ n ih => rw [Nat.succ_add, bytesOfNat, List.take_succ_cons, ih, bytesOfNat]

/-- A field of a number written out. -/
theorem fieldAt_bytesOfNat (off n k v : Nat) : fieldAt (bytesOfNat (off + (n + k)) v) off n = v / 256 ^ off % 256 ^ n := by
  rw [fieldAt, bytesOfNat_drop, bytesOfNat_take, natOfBytes_bytesOfNat]

theorem GangState.code_eq (g : GangState) : g.code = if g = .running then 1 else if g = .preempted then 2 else 0 := by
  cases g <;> rfl

theorem info_fields (l : Launch) (hgang : l.gang < 2 ^ 16) (hdomain : l.domain < 2 ^ 8) (hcount : l.count < 2 ^ 16)
    (hchips : l.chips.length < 2 ^ 8) :
    fieldAt l.info 0 2 = l.gang ∧ fieldAt l.info 2 1 = l.domain ∧
      fieldAt l.info 3 1 = (if l.state = .running then 1 else if l.state = .preempted then 2 else 0) ∧
      fieldAt l.info 4 2 = l.count ∧ fieldAt l.info 6 1 = max 1 l.chips.length := by
  have hcode : l.state.code < 256 := by
    rw [GangState.code_eq]
    split
    · decide
    · split <;> decide
  rw [← GangState.code_eq]
  have hmax : max 1 l.chips.length < 256 := by omega
  unfold Launch.info
  generalize max 1 l.chips.length = chips at *
  generalize l.state.code = code at *
  rw [fieldAt_bytesOfNat 0 2 14, fieldAt_bytesOfNat 2 1 13, fieldAt_bytesOfNat 3 1 12, fieldAt_bytesOfNat 4 2 10,
    fieldAt_bytesOfNat 6 1 9]
  refine ⟨?_, ?_, ?_, ?_, ?_⟩ <;> norm_num <;> omega

/-! ## The list of features (21 R400) -/

theorem features_enabled (s : State) (pair : Bool) : (s.features pair).map (·.1) = [1, 2, 3, 4] ∧
    (s.features pair).map (·.2.1) = [(List.range 8).any fun k => mapGet 0 k s.ports != 0, pair, s.bindery.peers != [], true] := by
  refine ⟨rfl, ?_⟩
  have hports : ((List.range 8).map fun k => mapGet 0 k s.ports).any (· != 0) = (List.range 8).any fun k => mapGet 0 k s.ports != 0 := by
    rw [List.any_map]
    rfl
  have hpeers : (s.bindery.peers.length != 0) = (s.bindery.peers != []) := by
    cases s.bindery.peers <;> simp
  unfold State.features
  simp only [List.map_cons, List.map_nil, hports, hpeers]

/-- Settles O46, selector by selector. -/
theorem queriesReport : Obligations.QueriesReport := by
  unfold Obligations.QueriesReport
  refine ⟨dropped_iff, fun s type => not_served_of_dropped, fun s => rfl, ?shared, ?gangs, ?gang, ?entry, ?features, features_enabled,
    ?refused, ?admitted⟩
  case shared =>
    intro s i sel hi
    obtain ⟨f, hexec⟩ := exec_of_queryEvent hi s
    rw [hexec]
    exact ⟨serving_of_not_served, fun sender id k x h => ⟨fun hk => ⟨_, querying_of_bad h hk, replied_reply _ _ _ _ _ _⟩,
      fun hlow hhigh hne => querying_of_other h hlow hhigh hne⟩⟩
  case gangs => exact fun s sender id x h => ⟨_, show execQueryGangs s = _ from querying_of_asks h (by decide) (by decide), replied_reply _ _ _ _ _ _⟩
  case gang =>
    intro s sender id x h
    have hexec : exec .queryGang s = .next (match s.launch x with
      | none => s.reply sender id 5 0 []
      | some l => if s.hasAuthority sender l.domain then s.reply sender id 0 0 l.info else s.reply sender id 3 0 []) :=
      show execQueryGang s = _ from querying_of_asks h (by decide) (by decide)
    refine ⟨fun hnone => ⟨_, hexec, ?_⟩, fun l hl => ⟨_, hexec, ?_⟩⟩
    · rw [hnone]
      exact replied_reply _ _ _ _ _ _
    · rw [hl]
      dsimp only
      split <;> exact replied_reply _ _ _ _ _ _
  case entry => exact fun l => ⟨bytesOfNat_length _ _, info_fields l⟩
  case features =>
    intro s sender id x h
    have hexec : exec .queryFeatures s = .next (match s.launch x with
      | some l => s.reply sender id 0 0 (featureBytes l.featva (s.features l.pair))
      | none => s.reply sender id 0 0 (featureBytes 0 (s.features false))) :=
      show execQueryFeatures s = _ from querying_of_asks h (by decide) (by decide)
    refine ⟨fun l hl => ⟨_, hexec, ?_⟩, fun hnone => ⟨_, hexec, ?_⟩⟩
    · rw [hl]
      exact replied_reply _ _ _ _ _ _
    · rw [hnone]
      exact replied_reply _ _ _ _ _ _
  case refused =>
    intro s sender id x k i h hi hlow hhigh hmay
    simp only [QueryEvent, List.mem_cons, Prod.mk.injEq, List.not_mem_nil, or_false] at hi
    obtain ⟨-, rfl⟩ | ⟨-, rfl⟩ | ⟨rfl, rfl⟩ | ⟨rfl, rfl⟩ | ⟨rfl, rfl⟩ | ⟨-, rfl⟩ := hi
    any_goals omega
    · refine ⟨_, show execQuerySensors s = _ from querying_of_asks h (by decide) (by decide), ?_⟩
      exact if_neg (by rw [hmay]; exact Bool.false_ne_true)
    · refine ⟨_, show execQueryLog s = _ from querying_of_asks h (by decide) (by decide), ?_⟩
      exact if_neg (by rw [hmay]; exact Bool.false_ne_true)
    · refine ⟨_, show execQueryIdentity s = _ from querying_of_asks h (by decide) (by decide), ?_⟩
      exact if_pos (by rw [hmay]; rfl)
  case admitted =>
    intro s sender id x hmay
    have hmay' : ¬ (!s.mayQuery sender) = true := by rw [hmay]; exact Bool.false_ne_true
    refine ⟨fun h => ?_, fun h => ?_, fun h hused => ?_, fun h hleft => ?_⟩
    · refine ⟨_, _, show execQuerySensors s = _ from querying_of_asks h (by decide) (by decide), if_pos hmay, ?_⟩
      rw [List.length_flatMap]
      simp only [bytesOfNat_length]
      rfl
    · exact ⟨_, show execQueryLog s = _ from querying_of_asks h (by decide) (by decide), if_pos hmay⟩
    · exact ⟨_, show execQueryIdentity s = _ from querying_of_asks h (by decide) (by decide), (if_neg hmay').trans (if_pos hused)⟩
    · exact ⟨_, _, show execQueryIdentity s = _ from querying_of_asks h (by decide) (by decide), rfl,
        (if_neg hmay').trans (if_neg (Nat.not_le.mpr hleft))⟩

end Sys2Proof.Machine

/-! SUPPORT. Bring-up, power, cooling, the log and the firmware (21 R401 to R404). -/

namespace Sys2Proof.Machine

open Sys2Proof Sys2Proof.Claims

/-! ## Bring-up (21 R403) -/

/-- A byte of memory of which a range has been blanked. -/
theorem readByte_blank (s : State) (r : Nat × Nat) (a : Nat) :
    readByte (s.blank r).mem a = if r.1 ≤ a ∧ a < r.2 then 0 else readByte s.mem a := by
  unfold readByte
  split
  · next h => exact mapGet_filter_of_false (keep := fun k => !(decide (r.1 ≤ k) && decide (k < r.2))) (by simp [h]) _
  · next h =>
    exact mapGet_filter_of_true (keep := fun k => !(decide (r.1 ≤ k) && decide (k < r.2))) (by simp; omega) _

theorem readByte_blankAll (l : List (Nat × Nat)) (s : State) (a : Nat) :
    readByte (forAll l State.blank s).mem a = if ∃ r ∈ l, r.1 ≤ a ∧ a < r.2 then 0 else readByte s.mem a := by
  induction l generalizing s with
  | nil => simp [forAll]
  | cons r l ih =>
    have hcons : forAll (r :: l) State.blank s = forAll l State.blank (s.blank r) := rfl
    rw [hcons, ih, readByte_blank]
    by_cases hr : r.1 ≤ a ∧ a < r.2
    · simp [hr]
    · simp only [List.mem_cons, exists_eq_or_imp, hr, false_or, if_false]

/-- Blanking changes memory and tags alone. -/
theorem blankAll_rest (l : List (Nat × Nat)) (s : State) :
    forAll l State.blank s = { s with mem := (forAll l State.blank s).mem, tags := (forAll l State.blank s).tags } := by
  refine forAll_rel (fun s t => t = { s with mem := t.mem, tags := t.tags }) (fun _ => rfl) (fun h h' => ?_) State.blank
    (fun _ _ => rfl) l s
  rw [h', h]

/-- The clocks start, and nothing else changes. -/
theorem startDie_rest (l : List Nat) (s : State) : forAll l State.startDie s = { s with dies := (forAll l State.startDie s).dies } := by
  refine forAll_rel (fun s t => t = { s with dies := t.dies }) (fun _ => rfl) (fun h h' => ?_) State.startDie (fun _ _ => rfl) l s
  rw [h', h]

/-- A die whose clock has started at the reference time. -/
def Started (now : Nat) (d : Die) : Prop := d.earliest = now ∧ now ≤ d.latest ∧ d.latest ≤ now + 6

theorem startDie_started (s : State) (k : Nat) : Started s.now ((s.startDie k).die k) := by
  rw [State.startDie, State.die_setDie_self]
  refine ⟨rfl, ?_, ?_⟩ <;> dsimp only <;> omega

theorem startDies_started {l : List Nat} {k : Nat} (hk : k ∈ l) (s : State) : Started s.now ((forAll l State.startDie s).die k) := by
  induction l using List.reverseRecOn generalizing s with
  | nil => cases hk
  | append_singleton l j ih =>
    have happend : forAll (l ++ [j]) State.startDie s = (forAll l State.startDie s).startDie j := by simp [forAll]
    have hnow : (forAll l State.startDie s).now = s.now := by rw [startDie_rest]
    rw [happend]
    by_cases hj : k = j
    · rw [hj, ← hnow]
      exact startDie_started _ _
    · rw [State.startDie, State.die_setDie_ne _ hj]
      exact ih (by simpa [hj] using hk) s

theorem mapGet_map_self {α : Type} {d : α} (f : Nat → α) {l : List Nat} {k : Nat} (hk : k ∈ l) :
    mapGet d k (l.map fun k => (k, f k)) = f k := by
  induction l with
  | nil => cases hk
  | cons j l ih =>
    rw [List.map_cons, mapGet]
    split
    · next h => rw [h]
    · next h => exact ih ((List.mem_cons.mp hk).resolve_left (Ne.symm h))

/-- The bytes behind a port (16 R323). -/
theorem portBytes_le (k : Nat) : portBytes k ≤ 2 ^ 40 ∧ (Config.device k = none → portBytes k = 0) ∧
    ∀ n, Config.device k = some n → portBytes k ≤ n - n / 128 := by
  unfold portBytes
  refine ⟨?_, fun h => by rw [h], fun n h => ?_⟩
  · split
    · exact Nat.zero_le _
    · exact Nat.min_le_right _ _
  · rw [h]
    dsimp only
    omega

/-- The words that bring-up writes to the table CSRs (21 R403). -/
def State.tableWord (s : State) (k : Nat) : Word := BitVec.ofNat 64 (s.argN (2 + k) % 2 ^ 52 / 4096 * 4096 + s.argN (2 + k) % 64)

/-- A bring-up that no check stops. -/
theorem powerGood_boots {s : State} {t64 t32 : List Word} {ranges : List (Nat × Nat)} (h64 : t64 = (List.range 8).map s.tableWord)
    (h32 : t32 = (List.range 8).map fun k => s.tableWord (8 + k))
    (hranges : ranges = (s.argN 1, s.argN 1 + 4096) :: (t64 ++ t32).map tableRange) (hpower : s.power = false) (hfailed : s.argN 0 = 0)
    (halign : s.argN 1 % 4096 = 0) (hapart : tablesApart ranges = true)
    (hsize : ∀ x ∈ t64 ++ t32, 4 ≤ x.toNat % 64 ∧ x.toNat % 64 ≤ 30) :
    exec .powerGood s = .next ({ forAll ranges State.blank (forAll (List.range 10) State.startDie s) with
      power := true, ports := (List.range 8).map fun k => (k, portBytes k) }.onBindery fun b =>
        { b with accepting := true, drt := s.argN 1, t64 := t64, t32 := t32 }) := by
  have hall : ((t64 ++ t32).all fun t => decide (4 ≤ t.toNat % 64) && decide (t.toNat % 64 ≤ 30)) = true := by
    rw [List.all_eq_true]
    intro x hx
    simp [hsize x hx]
  have hchecks : ¬ (s.argN 1 % 4096 ≠ 0 ∨ (!tablesApart ranges) = true ∨
      (!(t64 ++ t32).all fun t => decide (4 ≤ t.toNat % 64) && decide (t.toNat % 64 ≤ 30)) = true) := by
    rw [hall, hapart, halign]
    simp
  subst hranges h64 h32
  exact (if_neg (by rw [hpower]; exact Bool.false_ne_true)).trans ((if_neg (by rw [hfailed]; simp)).trans (if_neg hchecks))

/-! ## Alarms, the log and the firmware (21 R401, R402, R404) -/

theorem thermalAlarm_eq (s : State) : exec .thermalAlarm s =
    if s.power = false ∨ ¬ (s.argN 0 < 10 ∧ 95000 ≤ s.argN 1 ∨ s.argN 0 = 28 ∧ s.argN 1 < 2500) then .next s
    else .next ((s.logged.notice s.bindery.admins 6 0 8 (BitVec.ofNat 128 (s.argN 0 + s.argN 1 % 2 ^ 64 * 2 ^ 64))).onBindery fun b =>
      { b with noLaunch := true }) := by
  show execThermalAlarm s = _
  unfold execThermalAlarm
  refine if_congr ?_ rfl rfl
  cases s.power
  · simp
  · simp
    omega

/-- A record goes to the log alone; a log that is not full keeps every record. -/
theorem logged_eq (s : State) : ∃ l, s.logged = { s with colophon := { s.colophon with log := l, logged := s.colophon.logged + 1 } } ∧
    l.length ≤ 16384 ∧ (s.colophon.log.length < 16384 → ∃ r, l = s.colophon.log ++ [r]) := by
  unfold State.logged
  refine ⟨_, rfl, ?_, fun h => ⟨bytesOfNat 8 (s.die 8).earliest ++ bytesOfNat 8 (s.die 8).latest ++ s.freeBytes 20 6, ?_⟩⟩
  · rw [List.length_drop]
    omega
  · rw [List.length_append, List.length_singleton, Nat.sub_eq_zero_of_le (by omega), List.drop_zero]

theorem firmwareUpdate_eq (s : State) : exec .firmwareUpdate s =
    if s.power = true ∧ Config.lmsVerify s.arg.bytes = true ∧
        (if s.argN 0 = 0 then s.colophon.minColophon else s.colophon.minBindery) ≤ s.argN 1 then
      .next { s with colophon := if s.argN 0 = 0 then { s.colophon with minColophon := s.argN 1 }
        else { s.colophon with minBindery := s.argN 1 } }
    else .next s := by
  show execFirmwareUpdate s = _
  unfold execFirmwareUpdate
  refine if_congr ?_ rfl rfl
  rw [Bool.and_eq_true, Bool.and_eq_true, decide_eq_true_eq, and_assoc]

/-- Settles O47, from what each event of Colophon and of the bring-up does. -/
theorem powerCoolingAndFirmware : Obligations.PowerCoolingAndFirmware := by
  unfold Obligations.PowerCoolingAndFirmware
  refine ⟨?powered, ?stopped, ?boots, portBytes_le, ?quiet, ?alarm, fun s => rfl, ?unpowered, ?removal, ?discipline, ?firmware⟩
  case powered => exact fun s h => if_pos h
  case stopped =>
    intro s hpower hfailed
    have hexec : exec .powerGood s = .next ((if 2 ≤ s.argN 0 then { s with power := true }.logged else { s with power := true }).out
        (.board (s.argN 0))) := (if_neg (by rw [hpower]; exact Bool.false_ne_true)).trans (if_pos hfailed)
    obtain ⟨l, hlogged, -, -⟩ := logged_eq { s with power := true }
    refine ⟨_, hexec, ?_⟩
    split
    · rw [hlogged]
      exact ⟨rfl, rfl, rfl, rfl, rfl⟩
    · exact ⟨rfl, rfl, rfl, rfl, rfl⟩
  case boots =>
    intro s word t64 t32 ranges hword h64 h32 hranges hpower hfailed halign hapart hsize
    obtain rfl : word = s.tableWord := hword
    refine ⟨_, powerGood_boots h64 h32 hranges hpower hfailed halign hapart hsize, ?_⟩
    generalize hv : forAll (List.range 10) State.startDie s = v
    generalize hw : forAll ranges State.blank v = w
    have hstarted : v = { s with dies := v.dies } := by rw [← hv]; exact startDie_rest _ s
    have hblanked : w = { v with mem := w.mem, tags := w.tags } := by rw [← hw]; exact blankAll_rest ranges v
    have hbyte (a : Nat) : readByte w.mem a = if ∃ r ∈ ranges, r.1 ≤ a ∧ a < r.2 then 0 else readByte s.mem a := by
      rw [← hw, readByte_blankAll, hstarted]
    have hdies : ∀ k < 10, Started s.now (w.die k) := by
      intro k hk
      rw [hblanked]
      show Started s.now (v.die k)
      rw [← hv]
      exact startDies_started (List.mem_range.mpr hk) s
    refine ⟨rfl, ?_, fun r hr a hlow hhigh => ?_, fun a ha => ?_, ?_, ?_, hdies,
      fun k hk => mapGet_map_self portBytes (List.mem_range.mpr hk)⟩
    · rw [hblanked, hstarted]
      rfl
    · exact (hbyte a).trans (if_pos ⟨r, hr, hlow, hhigh⟩)
    · refine (hbyte a).trans (if_neg ?_)
      rintro ⟨r, hr, hlow, hhigh⟩
      have := ha r hr
      omega
    · rw [hblanked, hstarted]
      rfl
    · rw [hblanked, hstarted]
      rfl
  case quiet => exact fun s h => (thermalAlarm_eq s).trans (if_pos h)
  case alarm =>
    intro s hpower halarm
    obtain ⟨l, hlogged, -, -⟩ := logged_eq s
    refine ⟨_, (thermalAlarm_eq s).trans (if_neg (by simp [hpower, halarm])), ?_⟩
    rw [hlogged]
    exact ⟨rfl, rfl⟩
  case unpowered =>
    rintro s i (rfl | rfl) h
    · exact show execPowerRemoval s = _ from if_neg (by rw [h]; exact Bool.false_ne_true)
    · exact show execLossOfDiscipline s = _ from if_neg (by rw [h]; exact Bool.false_ne_true)
  case removal =>
    intro s hpower
    obtain ⟨l, hlogged, -, hkept⟩ := logged_eq s
    refine ⟨_, show execPowerRemoval s = _ from if_pos hpower, ?_⟩
    rw [hlogged]
    exact ⟨rfl, rfl, rfl, rfl, rfl, rfl, rfl, rfl, rfl, rfl, rfl, rfl, hkept⟩
  case discipline =>
    intro s hpower
    obtain ⟨l, hlogged, hlength, -⟩ := logged_eq s
    refine ⟨_, show execLossOfDiscipline s = _ from if_pos hpower, ?_⟩
    rw [hlogged]
    exact ⟨rfl, State.die_onDie_self _ _ _, fun k hk => State.die_onDie_ne _ hk _, rfl, hlength.trans (Nat.le_max_left _ _)⟩
  case firmware =>
    rintro s c rfl
    rw [firmwareUpdate_eq]
    refine ⟨fun h => if_neg ?_, fun hpower hsigned hversion d hd => ?_⟩
    · rintro ⟨hpower, hsigned, hversion⟩
      rw [hpower, hsigned] at h
      simp only [Bool.true_eq_false, false_or] at h
      omega
    · rw [if_pos ⟨hpower, hsigned, hversion⟩, hd]

end Sys2Proof.Machine

/-! SUPPORT. The clock, and stamped accesses (19 R365 to R369). -/

namespace Sys2Proof.Machine

open Sys2Proof Sys2Proof.Claims

/-! ## The open chunk of a strand that issues (02 R46) -/

theorem joinChunk_opened (s : State) : ∃ c, (s.joinChunk.strand s.cur).opened = some c := by
  rw [State.joinChunk, State.strand_onStrand_self]
  split
  · exact ⟨_, rfl⟩
  · next c hc =>
    split
    · exact ⟨_, Strand.opened_nextOpen _ _⟩
    · exact ⟨c, hc⟩

theorem pinDue_opened {s u : State} (h : s.pinDue = some u) {c : Chunk} (hc : (s.strand s.cur).opened = some c) :
    ∃ c, (u.strand u.cur).opened = some c := by
  unfold State.pinDue at h
  simp only [hc] at h
  split at h
  · cases h
    exact ⟨c, hc⟩
  · split at h
    · cases h
    · cases h
      refine ⟨{ c with pinned := true }, ?_⟩
      rw [State.setStrand_cur, State.strand_setStrand_self, Strand.opened_onOpen, hc]
      rfl

/-- A strand that issues has an open chunk. -/
theorem Issues.opened {priv : Bool} {reads : List RegName} {s u : State} (h : Issues priv reads s u) :
    ∃ c, (u.strand u.cur).opened = some c := by
  obtain ⟨c, hc⟩ := joinChunk_opened s
  exact pinDue_opened h.joined (c := c) hc

/-- So has one whose chunk a terminator has ended: the chunk that follows. -/
theorem MayEnd.opened {priv waits : Bool} {reads : List RegName} {s u : State} (h : MayEnd priv waits reads s u) :
    ∃ c, (u.strand u.cur).opened = some c := by
  have hended := h.ended
  unfold State.endChunk at hended
  dsimp only at hended
  split at hended
  · next hleads =>
    cases hended
    unfold Strand.leads at hleads
    split at hleads
    · next c hc => exact ⟨c, hc⟩
    · cases hleads
  · split at hended <;> cases hended
    next v hv =>
    refine ⟨{ (v.strand v.cur).fresh v.ticks with lead := true }, ?_⟩
    have hself := State.strand_onStrand_self v v.cur fun t => (t.restart v.ticks).onOpen fun c => { c with lead := true }
    exact (congrArg Strand.opened hself).trans (Strand.opened_onOpen _ _)

/-! ## What a change of the own strand leaves -/

/-- A state in which the own strand is `x`, which waits for nothing and differs in its registers, its outstanding results and its
chunks. -/
theorem own_of_strand {s t : State} {x : Strand} (hst : t.strands = mapSet s.cur x s.strands)
    (hx : x = { s.strand s.cur with
      arch := x.arch, out := x.out, wait := .none, chunks := x.chunks, nextChunk := x.nextChunk }) : Own s t x.arch x.out := by
  have hself : t.strand s.cur = x := by simp [State.strand, hst]
  refine ⟨by rw [State.arch, hself], by rw [hself], by rw [hself, hx], ?_, fun k hk => ?_⟩
  · rw [hself, hx]
    rfl
  · simp [State.strand, hst, mapGet_mapSet_ne _ _ hk]

/-! ## clk.rd, clk.wt and the end of its wait (19 R365, R368) -/

theorem clkRd_trap {s u : State} {x y : BitVec 6} (h : Issues false [.g x, .g y] s u) (heq : x = y) (hne : x ≠ 0) :
    exec (.clkRd x y) s = .next (u.raise s.cur .ill 0) := by
  rw [← h.cur]
  refine (issue_of_issues h _).trans ?_
  simp only [if_pos (And.intro heq hne), Act.settle]

theorem clkRd_reads {s u : State} {x y : BitVec 6} (h : Issues false [.g x, .g y] s u) (hne : x ≠ y ∨ x = 0) :
    ∃ t, exec (.clkRd x y) s = .next t ∧ Ran s t ((s.me.writeG x (.data (BitVec.ofNat 64 (s.die (dieOf s.cur)).earliest))).writeG y
      (.data (BitVec.ofNat 64 (s.die (dieOf s.cur)).latest))).advance (s.strand s.cur).out := by
  have hdie : u.myDie = s.die (dieOf s.cur) := by
    obtain ⟨cs, n, rfl⟩ := h.eq
    rfl
  have hbad : ¬ (x = y ∧ x ≠ 0) := fun hb => hne.elim (fun hn => hn hb.1) hb.2
  obtain ⟨t, ht, hran⟩ := h.ran_done (k := u.serial) (x := { u.strand u.cur with
      arch := (u.me.writeG x (.data (BitVec.ofNat 64 u.myDie.earliest))).writeG y (.data (BitVec.ofNat 64 u.myDie.latest)) })
    (body := fun s => if x = y ∧ x ≠ 0 then .trap s .ill 0 else .done (s.onArch s.cur fun a =>
      (a.writeG x (.data (BitVec.ofNat 64 s.myDie.earliest))).writeG y (.data (BitVec.ofNat 64 s.myDie.latest))))
    (if_neg hbad) rfl
  rw [h.me, hdie, h.cur, h.out] at hran
  exact ⟨t, ht, hran⟩

section
variable {s u : State} {x : BitVec 6} (h : MayEnd false false [.g x] s u)
include h

theorem clkWt_done (hpast : (u.me.word x).toNat < (u.die (dieOf s.cur)).earliest) :
    ∃ t, exec (.clkWt x) s = .next t ∧ Ran u t u.me.ended (u.strand s.cur).out := by
  rw [← h.cur] at hpast
  exact h.ran (if_pos hpast)

theorem clkWt_waits (hfuture : (u.die (dieOf s.cur)).earliest ≤ (u.me.word x).toNat) :
    exec (.clkWt x) s = .next (u.waiting (.clock (u.me.word x))) := by
  rw [← h.cur] at hfuture
  refine (terminate_of_mayEnd h _).trans ?_
  have hwaits : ¬ (u.me.word x).toNat < u.myDie.earliest := Nat.not_lt.mpr hfuture
  simp only [if_neg hwaits, Act.settleT]

end

theorem clockWaitExpiry_eq {s : State} {t : BitVec 64} (h : (s.strand (s.argN 0)).wait = .clock t) : exec .clockWaitExpiry s =
    if t.toNat < (s.die (dieOf (s.argN 0))).earliest then .next (s.setStrand (s.argN 0) { s.strand (s.argN 0) with wait := .none })
    else .next s := by
  show execClockWaitExpiry s = _
  unfold execClockWaitExpiry
  simp only [h]
  rfl

/-! ## The operand of a stamped access (19 R366, R367, R369) -/

/-- What an operand that passes is: a doubleword of the current half of a stamped page, outside the stamp sector. -/
theorem stampTarget_ok {u : State} {c : Reg} {store word : Bool} {loc : Nat} (h : u.stampTarget c store word = .ok loc) :
    checkCap u.me.smode c c.cursor 8 [if store then permST else permLD, permSTAMP] 8 = none ∧ c.cursor % 65536 < 32768 ∧
      (word = true → c.cursor % 128 ≤ 104) ∧
      ∃ va e, u.place (coreOf u.cur) c.cursor = .mapped va ∧ u.transLoad u.cur va = .ok loc e ∧ e.st = true := by
  unfold State.stampTarget at h
  dsimp only at h
  split at h
  · cases h
  next hcheck =>
  split at h
  · cases h
  · split at h <;> cases h
  next va hplace =>
  split at h
  · cases h
  · cases h
  split at h
  · cases h
  split at h
  · cases h
  · cases h
  next loc' e htrans =>
  split at h
  · cases h
  next hgood =>
  cases h
  simp only [Bool.or_eq_true, Bool.not_eq_true', decide_eq_true_eq, Bool.and_eq_true, not_or, Bool.not_eq_false, Nat.not_le,
    not_and] at hgood
  obtain ⟨⟨hst, hhalf⟩, hsector⟩ := hgood
  exact ⟨hcheck, hhalf, fun hw => by have := hsector hw; omega, va, e, hplace, htrans, hst⟩

/-! ## A read under way (19 R367, R369) -/

theorem mem_joinLines {old new : List Nat} {a : Nat} (h : a ∈ old ∨ a ∈ new) : a ∈ joinLines old new := by
  unfold joinLines
  induction new generalizing old with
  | nil => simpa using h
  | cons x new ih =>
    rw [List.foldl_cons]
    refine ih ?_
    rcases h with h | h
    · left
      split
      · exact h
      · exact List.mem_append_left _ h
    · rcases List.mem_cons.mp h with rfl | h
      · left
        split
        · next hc => exact List.contains_iff_mem.mp hc
        · exact List.mem_append_right _ (List.mem_singleton.mpr rfl)
      · exact Or.inr h

theorem onDieLines_near {d line : Nat} (h : locOnDie d line = true) : onDieLines d [line] = [lineOf line] := by
  simp only [onDieLines, List.filter_cons_of_pos h, List.filter_nil, List.map_cons, List.map_nil]
  rfl

/-- The strand whose read is under way: its open chunk has entered the lines, and the result is outstanding. -/
def Strand.reading (t : Strand) (lines : List Nat) (o : Out) : Strand :=
  (t.onOpen fun c => { c with reads := joinLines c.reads lines, wlines := joinLines c.wlines [] }).addOut o

/-- The request of a read. -/
def stampReq (loc : Nat) (r : BitVec 6) (asof : Option Word) : StampReq :=
  { line := loc / 128 * 128, off := loc % 128, asof := asof, r := r, arrived := none }

/-- The state in which a read of a line has entered the chunk. -/
def State.readEntered (u : State) (a loc : Nat) (r : BitVec 6) (asof : Option Word) : State :=
  ((u.stampUse a).enterLines u.cur (onDieLines (dieOf u.cur) [loc / 128 * 128]) []).setPending [.g r] (.stamped (stampReq loc r asof))

section
variable {u : State} {a loc : Nat} {r : BitVec 6} {asof : Option Word}

theorem readEntered_eq (u : State) (a loc : Nat) (r : BitVec 6) (asof : Option Word) : ∃ chunk cores,
    u.readEntered a loc r asof = { u with
      cores := cores, serial := u.serial + 1
      strands := mapSet u.cur ((u.strand u.cur).reading (onDieLines (dieOf u.cur) [loc / 128 * 128])
        (left u chunk [.g r] (.stamped (stampReq loc r asof)))) u.strands } := by
  obtain ⟨cores, huse, -⟩ := touch_eq u u.cur false { lane := 0, va := a, n := 8 }
  have huse : u.stampUse a = { u with cores := cores } := huse
  refine ⟨((u.strand u.cur).onOpen fun c => { c with
    reads := joinLines c.reads (onDieLines (dieOf u.cur) [loc / 128 * 128]), wlines := joinLines c.wlines [] }).openId, cores, ?_⟩
  rw [State.readEntered, huse, State.setPending_eq]
  simp only [State.enterLines, State.onStrand, State.setStrand, State.strand, State.me, State.arch, mapGet_mapSet_self, mapSet_mapSet]
  rfl

/-- A read that joins the chunk is an access of the remote-access unit if its line is far. -/
theorem stampRead_of_joins (h : StampJoins u (loc / 128 * 128)) : u.stampRead a loc r asof = .ok (
    if locOnDie (dieOf u.cur) (loc / 128 * 128) then u.readEntered a loc r asof
    else (u.readEntered a loc r asof).addRemote u.cur (.load u.serial [loc / 128 * 128])) := by
  obtain ⟨hordered, hroom, hentry⟩ := h
  have hfull : (!locOnDie (dieOf u.cur) (loc / 128 * 128) && u.rauFull (coreOf u.cur)) = false := by
    rcases hnear : locOnDie (dieOf u.cur) (loc / 128 * 128) with _ | _
    · rw [hentry hnear]
      rfl
    · rfl
  obtain ⟨cores, huse, -⟩ := touch_eq u u.cur false { lane := 0, va := a, n := 8 }
  unfold State.stampRead
  simp only [hordered, hroom, hfull, Bool.not_true, Bool.false_eq_true, if_false]
  rw [State.readEntered, show u.stampUse a = { u with cores := cores } from huse]
  rfl

/-- What a read that joins the chunk leaves. -/
theorem stampRead_joins (h : StampJoins u (loc / 128 * 128)) : ∃ v chunk, u.stampRead a loc r asof = .ok v ∧ v.cur = u.cur ∧
    v.strands = mapSet u.cur ((u.strand u.cur).reading (onDieLines (dieOf u.cur) [loc / 128 * 128])
      (left u chunk [.g r] (.stamped (stampReq loc r asof)))) u.strands ∧
    (v.mem = u.mem ∧ v.tags = u.tags ∧ v.msgs = u.msgs) ∧
    (locOnDie (dieOf u.cur) (loc / 128 * 128) = true → v.remotes = u.remotes) ∧
    (locOnDie (dieOf u.cur) (loc / 128 * 128) = false → v.remotes = u.remotes ++
      [{ id := u.serial + 1, cid := coreOf u.cur, sid := u.cur, gang := u.me.gangNo, group := u.me.group, live := true
         kind := .load u.serial [loc / 128 * 128], performed := false, failed := none }]) := by
  obtain ⟨chunk, cores, hentered⟩ := readEntered_eq u a loc r asof
  rw [stampRead_of_joins h, hentered]
  refine ⟨_, chunk, rfl, ?_⟩
  rcases hnear : locOnDie (dieOf u.cur) (loc / 128 * 128) with _ | _
  · refine ⟨rfl, rfl, ⟨rfl, rfl, rfl⟩, nofun, fun _ => ?_⟩
    simp only [Bool.false_eq_true, if_false, State.addRemote, State.arch, State.strand, mapGet_mapSet_self]
    rfl
  · exact ⟨rfl, rfl, ⟨rfl, rfl, rfl⟩, fun _ => rfl, nofun⟩

end

/-- The read is under way in a state whose open chunk has kept what it has read. -/
theorem stampSent_of_joins {u t v : State} {line : Nat} {x : Strand} {c c' : Chunk} (hopen : x.opened = some c)
    (hreads : c.reads = joinLines c'.reads (onDieLines (dieOf u.cur) [line])) (ht : t.strand u.cur = x) (hremotes : t.remotes = v.remotes)
    (hrest : t.mem = u.mem ∧ t.tags = u.tags ∧ t.msgs = u.msgs)
    (hnear : locOnDie (dieOf u.cur) line = true → v.remotes = u.remotes)
    (hfar : locOnDie (dieOf u.cur) line = false → v.remotes = u.remotes ++
      [{ id := u.serial + 1, cid := coreOf u.cur, sid := u.cur, gang := u.me.gangNo, group := u.me.group, live := true
         kind := .load u.serial [line], performed := false, failed := none }]) : StampSent u t line := by
  refine ⟨fun h => ⟨⟨c, by rw [ht, hopen], ?_⟩, hremotes.trans (hnear h)⟩, fun h => hremotes.trans (hfar h), hrest⟩
  rw [hreads, onDieLines_near h]
  exact mem_joinLines (Or.inr (List.mem_singleton.mpr rfl))

theorem stampSent_of_joined {s t : State} {cs : List Chunk} {n line : Nat} (h : StampSent (s.joined cs n) t line) :
    StampSent s t line := by
  obtain ⟨hnear, hfar, hrest⟩ := h
  rw [State.joined_me] at hfar
  exact ⟨hnear, hfar, hrest⟩

/-! ## stp.rd (19 R369) -/

section
variable {s u : State} {x y : BitVec 6} (h : Issues false [.g y, .g x] s u)
include h

theorem stpRd_trap {cause : Cause} {v : Word} (hstop : u.stampTarget (u.me.readG y) false false = .error (.trap cause v)) :
    exec (.stpRd x y) s = .next (u.raise s.cur cause v) := by
  rw [← h.cur]
  refine (issue_of_issues h _).trans ?_
  simp only [hstop, Stop.act, Act.settle]

theorem stpRd_reads {loc : Nat} (hok : u.stampTarget (u.me.readG y) false false = .ok loc)
    (hjoins : StampJoins u (loc / 128 * 128)) : ∃ t chunk, exec (.stpRd x y) s = .next t ∧
      Own s t s.me.advance ((s.strand s.cur).out ++ [left s chunk [.g x] (.stamped (stampReq loc x none))]) ∧
      StampSent s t (loc / 128 * 128) := by
  obtain ⟨v, chunk, hread, hcur, hstrands, hrest, hnear, hfar⟩ := stampRead_joins (a := (u.me.readG y).cursor) (r := x) (asof := none) hjoins
  have hexec : exec (.stpRd x y) s = .next (Act.done v).settle := by
    refine (issue_of_issues h _).trans ?_
    simp only [hok, hread]
  obtain ⟨c, hopen⟩ := h.opened
  have hself : v.strand u.cur = (u.strand u.cur).reading (onDieLines (dieOf u.cur) [loc / 128 * 128])
      (left u chunk [.g x] (.stamped (stampReq loc x none))) := by simp [State.strand, hstrands]
  have hopened := opened_settle_done (v := v) (c := { c with
    reads := joinLines c.reads (onDieLines (dieOf u.cur) [loc / 128 * 128]), wlines := joinLines c.wlines [] }) (by
      rw [hcur, hself]
      exact (Strand.opened_onOpen _ _).trans (congrArg _ hopen))
  rw [hcur] at hopened
  have hsent : StampSent u (Act.done v).settle (loc / 128 * 128) :=
    stampSent_of_joins hopened (c' := c) rfl rfl rfl hrest hnear hfar
  obtain ⟨cs, n, rfl⟩ := h.eq
  have hown := (own_done hcur hstrands rfl).of_joined
  rw [State.joined_cur, State.joined_strand] at hown
  have hleft : left (s.joined cs n) chunk [.g x] (.stamped (stampReq loc x none)) =
      left s chunk [.g x] (.stamped (stampReq loc x none)) := by
    rw [left, State.joined_me]
    rfl
  rw [hleft] at hown
  exact ⟨_, chunk, hexec, hown, stampSent_of_joined hsent⟩

end

/-! ## st.stamp (19 R366) -/

section
variable {s u : State} {x y z : BitVec 6} (h : MayEnd false false [.g x, .g y, .g z] s u)
include h

theorem stStamp_trap {cause : Cause} {v : Word} (hstop : u.stampTarget (u.me.readG y) true true = .error (.trap cause v)) :
    exec (.stStamp x y z) s = .next (u.raise s.cur cause v) := by
  rw [← h.cur]
  refine (terminate_of_mayEnd h _).trans ?_
  simp only [hstop, Stop.act, Act.settleT]

variable {loc : Nat} (hok : u.stampTarget (u.me.readG y) true true = .ok loc)
include hok

theorem stStamp_wide (hwide : u.me.twmax.toNat % 65536 = 0 ∨ u.me.twmax.toNat % 65536 < u.myDie.width) :
    exec (.stStamp x y z) s = .next (u.raise s.cur .clkwide (BitVec.ofNat 64 u.myDie.width)) := by
  rw [← h.cur]
  refine (terminate_of_mayEnd h _).trans ?_
  simp only [hok, if_pos hwide, Act.settleT]

variable (hnarrow : ¬ (u.me.twmax.toNat % 65536 = 0 ∨ u.me.twmax.toNat % 65536 < u.myDie.width))
include hnarrow

theorem stStamp_low (hlow : (u.me.word z).toNat < u.myDie.latest) :
    exec (.stStamp x y z) s = .next (u.raise s.cur .stamplow (BitVec.ofNat 64 u.myDie.latest)) := by
  rw [← h.cur]
  refine (terminate_of_mayEnd h _).trans ?_
  simp only [hok, if_neg hnarrow, if_pos hlow, Act.settleT]

theorem stStamp_far (hfar : u.myDie.latest + 2 ^ 32 ≤ (u.me.word z).toNat) :
    exec (.stStamp x y z) s = .next (u.raise s.cur .ill (u.me.word z)) := by
  have hhigh : ¬ (u.me.word z).toNat < u.myDie.latest := by omega
  have hfar : 2 ^ 32 ≤ (u.me.word z).toNat - u.myDie.latest := by omega
  rw [← h.cur]
  refine (terminate_of_mayEnd h _).trans ?_
  simp only [hok, if_neg hnarrow, if_neg hhigh, if_pos hfar, Act.settleT]

/-- The state in which st.stamp has sent its version. -/
def State.stamped (u : State) (a : Nat) (v : Version) : State := (u.stampUse a).send (coreOf u.cur) (.version v)

omit h hok hnarrow in
theorem stamped_eq (u : State) (a : Nat) (v : Version) : ∃ cores, u.stamped a v = { u with
    cores := cores, serial := u.serial + 1
    msgs := u.msgs ++ [{ id := u.serial, src := coreOf u.cur, eng := none, kind := .version v }] } := by
  obtain ⟨cores, huse, -⟩ := touch_eq u u.cur false { lane := 0, va := a, n := 8 }
  have huse : u.stampUse a = { u with cores := cores } := huse
  exact ⟨cores, by rw [State.stamped, huse]; rfl⟩

/-- st.stamp of a stamp that the clock admits sends its version, and parks only while the home slice is full. -/
theorem exec_stStamp (hlow : u.myDie.latest ≤ (u.me.word z).toNat) (hhigh : (u.me.word z).toNat < u.myDie.latest + 2 ^ 32) {v : State}
    (hv : v = u.stamped (u.me.readG y).cursor (versionOf (u.real loc) (u.me.word x) (u.me.word z).toNat u.bindery.package (dieOf u.cur)
      u.cur (((u.strand u.cur).opened.map Chunk.born).getD u.ticks))) :
    exec (.stStamp x y z) s = .next (
      if u.sliceHeld (u.real loc) < 32 then (Act.done v).settleT else (Act.done v).settleT.waiting (.sent u.serial)) := by
  have hlow : ¬ (u.me.word z).toNat < u.myDie.latest := Nat.not_lt.mpr hlow
  have hhigh : ¬ 2 ^ 32 ≤ (u.me.word z).toNat - u.myDie.latest := by omega
  obtain ⟨cores, huse, -⟩ := touch_eq u u.cur false { lane := 0, va := (u.me.readG y).cursor, n := 8 }
  have huse : u.stampUse (u.me.readG y).cursor = { u with cores := cores } := huse
  refine (terminate_of_mayEnd h _).trans ?_
  rw [hv, State.stamped, huse]
  simp only [hok, if_neg hnarrow, if_neg hlow, if_neg hhigh, huse]
  split <;> rfl

theorem stStamp_sends (hlow : u.myDie.latest ≤ (u.me.word z).toNat) (hhigh : (u.me.word z).toNat < u.myDie.latest + 2 ^ 32) :
    ∃ v, exec (.stStamp x y z) s = .next v ∧
      v.arch s.cur = (if u.sliceHeld (u.real loc) < 32 then u.me.ended else u.me.ended.count 9 (u.free 9).toNat) ∧
      (v.strand s.cur).wait = (if u.sliceHeld (u.real loc) < 32 then .none else .sent u.serial) ∧
      (v.strand s.cur).out = (u.strand s.cur).out ∧ (∀ k, k ≠ s.cur → v.strand k = u.strand k) ∧
      v.msgs = u.msgs ++ [{ id := u.serial, src := coreOf s.cur, eng := none, kind := .version (versionOf (u.real loc) (u.me.word x)
        (u.me.word z).toNat u.bindery.package (dieOf s.cur) s.cur (((u.strand s.cur).opened.map Chunk.born).getD u.ticks)) }] ∧
      v.mem = u.mem ∧ v.tags = u.tags ∧ v.dies = u.dies := by
  have hexec := exec_stStamp h hok hnarrow hlow hhigh rfl
  rw [← h.cur]
  obtain ⟨cores, hstamped⟩ := stamped_eq u (u.me.readG y).cursor (versionOf (u.real loc) (u.me.word x) (u.me.word z).toNat
    u.bindery.package (dieOf u.cur) u.cur (((u.strand u.cur).opened.map Chunk.born).getD u.ticks))
  rw [hstamped] at hexec
  generalize hw : (Act.done _).settleT = w at hexec
  have hown : Own u w u.me.ended (u.strand u.cur).out := by
    rw [← hw]
    exact end_own rfl rfl
  have hrest : w.msgs = u.msgs ++ [{ id := u.serial, src := coreOf u.cur, eng := none, kind := .version (versionOf (u.real loc) (u.me.word x)
        (u.me.word z).toNat u.bindery.package (dieOf u.cur) u.cur (((u.strand u.cur).opened.map Chunk.born).getD u.ticks)) }] ∧
      w.mem = u.mem ∧ w.tags = u.tags ∧ w.dies = u.dies := by
    rw [← hw]
    exact ⟨rfl, rfl, rfl, rfl⟩
  have hwcur : w.cur = u.cur := by
    rw [← hw]
    rfl
  have hticks : w.ticks = u.ticks := by
    rw [← hw]
    rfl
  obtain ⟨harch, hout, hwait, -, hothers⟩ := hown
  refine ⟨_, hexec, ?_⟩
  split
  · exact ⟨harch, hwait, hout, hothers, hrest⟩
  · obtain ⟨hwothers, hwwait, -⟩ := waiting_eq w (.sent u.serial)
    rw [hwcur] at hwothers hwwait
    refine ⟨?_, hwwait, ?_, fun k hk => (hwothers k hk).trans (hothers k hk), hrest⟩
    · rw [← harch, ← hwcur, State.arch, State.waiting, State.strand_onStrand_self]
      simp only [Wait.parks, if_true, State.free, hticks]
      rfl
    · rw [← hout, ← hwcur, State.waiting, State.strand_onStrand_self]

end

/-! ## ld.asof (19 R367) -/

/-- A strand whose ld.asof is complete: the read belongs to the chunk that follows, which runs it again after a squash. -/
def Strand.asofRun (t : Strand) : Strand :=
  { (t.onOpen fun c => { c with lead := false, redo := true }) with arch := t.arch.ended, wait := .none }

section
variable {s u : State} {x y z : BitVec 6} (h : MayEnd false false [.g y, .g z, .g x] s u)
include h

theorem ldAsof_trap {cause : Cause} {v : Word} (hstop : u.stampTarget (u.me.readG y) false true = .error (.trap cause v)) :
    exec (.ldAsof x y z) s = .next (u.raise s.cur cause v) := by
  rw [← h.cur]
  refine (terminate_of_mayEnd h _).trans ?_
  simp only [hstop, Stop.act, Act.settleT]

variable {loc : Nat} (hok : u.stampTarget (u.me.readG y) false true = .ok loc)
include hok

theorem ldAsof_waits (hfuture : (u.die (dieOf s.cur)).earliest ≤ (u.me.word z).toNat) :
    exec (.ldAsof x y z) s = .next (u.waiting (.clock (u.me.word z))) := by
  rw [← h.cur] at hfuture
  have hfuture : u.myDie.earliest ≤ (u.me.word z).toNat := hfuture
  refine (terminate_of_mayEnd h _).trans ?_
  simp only [hok, if_pos hfuture, Act.settleT]

omit h hok in
theorem asofDone_strands (v : State) : v.asofDone.strands = mapSet v.cur (v.strand v.cur).asofRun v.strands := by
  simp only [State.asofDone, State.onArch, State.onStrand, State.setStrand, State.strand, mapGet_mapSet_self, mapSet_mapSet]
  rfl

theorem ldAsof_reads (hpast : (u.me.word z).toNat < (u.die (dieOf s.cur)).earliest) (hjoins : StampJoins u (loc / 128 * 128)) :
    ∃ t chunk, exec (.ldAsof x y z) s = .next t ∧
      Own u t u.me.ended ((u.strand s.cur).out ++ [left u chunk [.g x] (.stamped (stampReq loc x (some (u.me.word z))))]) ∧
      StampSent u t (loc / 128 * 128) ∧ ∃ c, (t.strand s.cur).opened = some c ∧ c.redo = true := by
  rw [← h.cur] at hpast ⊢
  have hpast : ¬ u.myDie.earliest ≤ (u.me.word z).toNat := Nat.not_le.mpr hpast
  obtain ⟨v, chunk, hread, hcur, hstrands, hrest, hnear, hfar⟩ :=
    stampRead_joins (a := (u.me.readG y).cursor) (r := x) (asof := some (u.me.word z)) hjoins
  have hexec : exec (.ldAsof x y z) s = .next v.asofDone := by
    refine (terminate_of_mayEnd h _).trans ?_
    simp only [hok, if_neg hpast, hread, Act.settleT]
  obtain ⟨c, hopen⟩ := h.opened
  have hself : v.strand u.cur = (u.strand u.cur).reading (onDieLines (dieOf u.cur) [loc / 128 * 128])
      (left u chunk [.g x] (.stamped (stampReq loc x (some (u.me.word z))))) := by simp [State.strand, hstrands]
  have hdone : v.asofDone.strands = mapSet u.cur (v.strand u.cur).asofRun u.strands := by
    rw [asofDone_strands, hcur, hstrands, mapSet_mapSet]
  have hopened : (v.asofDone.strand u.cur).opened = some { c with
      reads := joinLines c.reads (onDieLines (dieOf u.cur) [loc / 128 * 128]), wlines := joinLines c.wlines [], lead := false
      redo := true } := by
    rw [State.strand, hdone, mapGet_mapSet_self, hself]
    refine (Strand.opened_onOpen _ _).trans ?_
    exact congrArg _ ((Strand.opened_onOpen _ _).trans (congrArg _ hopen))
  refine ⟨_, chunk, hexec, ?_, stampSent_of_joins hopened (c' := c) rfl rfl rfl hrest hnear hfar, _, hopened, rfl⟩
  rw [hself] at hdone
  exact own_of_strand hdone rfl

end

/-- Settles O37: each member, and what an operand that passes is. -/
theorem clockReadsAndStampedStores : Obligations.ClockReadsAndStampedStores := by
  unfold Obligations.ClockReadsAndStampedStores
  refine ⟨⟨?read, ?wait, ?expiry, ?stamp⟩, fun u c store word loc h => stampTarget_ok h, ?store, ?asof⟩
  case read => exact fun s u x y h => ⟨clkRd_trap h, clkRd_reads h⟩
  case wait => exact fun s u x h => ⟨clkWt_done h, clkWt_waits h⟩
  case expiry =>
    intro s t h
    rw [clockWaitExpiry_eq h]
    exact ⟨fun hpast => if_pos hpast, fun hfuture => if_neg (Nat.not_lt.mpr hfuture)⟩
  case stamp => exact fun s u x y h => ⟨fun cause v hstop => stpRd_trap h hstop, fun loc hok hjoins => stpRd_reads h hok hjoins⟩
  case store =>
    intro s u x y z d t width h hd ht hwidth
    obtain rfl : d = u.myDie := by rw [hd, ← h.cur]; rfl
    subst ht hwidth
    refine ⟨fun cause v hstop => stStamp_trap h hstop, fun loc hok => ⟨stStamp_wide h hok, ?_⟩⟩
    have hnarrow (h1 : 1 ≤ u.me.twmax.toNat % 65536) (h2 : u.myDie.latest - u.myDie.earliest ≤ u.me.twmax.toNat % 65536) :
        ¬ (u.me.twmax.toNat % 65536 = 0 ∨ u.me.twmax.toNat % 65536 < u.myDie.width) := by
      unfold Die.width
      omega
    exact ⟨fun h1 h2 => stStamp_low h hok (hnarrow h1 h2), fun h1 h2 => stStamp_far h hok (hnarrow h1 h2),
      fun h1 h2 => stStamp_sends h hok (hnarrow h1 h2)⟩
  case asof =>
    exact fun s u x y z h => ⟨fun cause v hstop => ldAsof_trap h hstop, fun loc hok => ⟨ldAsof_waits h hok, ldAsof_reads h hok⟩⟩

end Sys2Proof.Machine

/-! SUPPORT. Sectors written in a scratchpad, and a choice point as an image (20 R376). -/

namespace Sys2Proof.Machine

open Sys2Proof Sys2Proof.Claims

/-! ## Sectors written in a scratchpad -/

theorem byteOf_allOnes {k : Nat} (h : k < 16) : byteOf (BitVec.allOnes 128) k = BitVec.allOnes 8 := by
  revert h
  revert k
  decide

theorem byteOf_eq (data : BitVec 128) (k : Nat) : byteOf data k = BitVec.ofNat 8 (data.toNat / 256 ^ k) := by
  refine BitVec.eq_of_toNat_eq ?_
  rw [byteOf, BitVec.extractLsb'_toNat, BitVec.toNat_ofNat, Nat.shiftRight_eq_div_pow, Nat.pow_mul]

/-- A byte read after a whole sector is written. -/
theorem readByte_writeSector (s : State) (loc x : Nat) (data : BitVec 128) (tag : Bool) :
    readByte (s.writeSector loc data (BitVec.allOnes 128) tag).mem x =
      if loc ≤ x ∧ x < loc + 16 then BitVec.ofNat 8 (data.toNat / 256 ^ (x - loc)) else readByte s.mem x := by
  rw [State.writeSector_mem, readByte_mergeBytes]
  refine if_ctx_congr Iff.rfl (fun h => ?_) fun _ => rfl
  rw [byteOf_allOnes (by omega), byteOf_eq, BitVec.not_allOnes, BitVec.and_zero, BitVec.zero_or, BitVec.and_allOnes]

/-- The sectors of a list, from a location on. -/
def sectorsAt (loc n : Nat) (l : List Reg) : List (Nat × Reg) := (l.zipIdx n).map fun x => (loc + 16 * x.2, x.1)

/-- The sectors of a list written one after another. -/
def State.putSectors (s : State) (l : List (Nat × Reg)) : State := forAll l (fun s x => s.putSector x.1 x.2) s

/-- A location of a sector in a scratchpad. -/
def PadSector (loc : Nat) : Prop := loc % 16 = 0 ∧ padOrigin ≤ loc

theorem putSector_pad (s : State) {loc : Nat} (h : PadSector loc) (x : Reg) :
    s.putSector loc x = s.writeSector loc x.bits (BitVec.allOnes 128) x.tag := by
  have hlocal : isForeign loc = false := by
    have : ¬ loc < padOrigin := Nat.not_lt.mpr h.2
    unfold isForeign
    simp only [this, decide_false, Bool.and_false]
  rw [State.putSector, if_pos h.1, real_of_local s hlocal]

/-- A byte read after sectors are written one behind another. -/
theorem readByte_putSectors {loc : Nat} (h : PadSector loc) (l : List Reg) (s : State) (n x : Nat) :
    readByte (s.putSectors (sectorsAt loc n l)).mem x =
      if loc + 16 * n ≤ x ∧ x < loc + 16 * (n + l.length) then
        BitVec.ofNat 8 ((l.getD ((x - loc) / 16 - n) .null).bits.toNat / 256 ^ ((x - loc) % 16))
      else readByte s.mem x := by
  induction l generalizing s n with
  | nil =>
    rw [if_neg (by simp)]
    rfl
  | cons r l ih =>
    have hcons : s.putSectors (sectorsAt loc n (r :: l)) = (s.putSector (loc + 16 * n) r).putSectors (sectorsAt loc (n + 1) l) := rfl
    have hpad : PadSector (loc + 16 * n) := ⟨by have := h.1; omega, by have := h.2; omega⟩
    rw [hcons, ih, putSector_pad s hpad, readByte_writeSector]
    have := h.1
    by_cases hlow : loc + 16 * n ≤ x ∧ x < loc + 16 * n + 16
    · rw [if_neg (by omega), if_pos hlow, if_pos (by rw [List.length_cons]; omega), show (x - loc) / 16 - n = 0 by omega,
        show x - (loc + 16 * n) = (x - loc) % 16 by omega]
      rfl
    · rw [if_neg hlow]
      by_cases hhigh : loc + 16 * (n + 1) ≤ x ∧ x < loc + 16 * (n + 1 + l.length)
      · rw [if_pos hhigh, if_pos (by rw [List.length_cons]; omega), show (x - loc) / 16 - n = (x - loc) / 16 - (n + 1) + 1 by omega,
          List.getD_cons_succ]
      · rw [if_neg hhigh, if_neg (by rw [List.length_cons]; omega)]

theorem mem_sectorsAt {loc n : Nat} {l : List Reg} {x : Nat × Reg} (h : x ∈ sectorsAt loc n l) : ∃ k, x.1 = loc + 16 * k := by
  unfold sectorsAt at h
  obtain ⟨y, -, rfl⟩ := List.mem_map.mp h
  exact ⟨y.2, rfl⟩

theorem isForeign_of_pad {loc : Nat} (h : padOrigin ≤ loc) : isForeign loc = false := by
  have : ¬ loc < padOrigin := Nat.not_lt.mpr h
  unfold isForeign
  simp only [this, decide_false, Bool.and_false]

/-- Sectors of a scratchpad that no open chunk has read are written, and squash no strand. -/
theorem placeSectors_quiet (s : State) (self : Option Nat) {l : List (Nat × Reg)} (hpad : ∀ x ∈ l, PadSector x.1)
    (hquiet : NoReaders s (l.map (·.1))) : s.placeSectors self l = s.putSectors l := by
  have hstrand (k : Nat) : (s.putSectors l).strand k = s.strand k := by
    have hsame : SameStrand k s (s.putSectors l) := forAll_rel (SameStrand k) (SameStrand.refl k) SameStrand.trans
      (fun (s : State) (x : Nat × Reg) => s.putSector x.1 x.2) (fun s x => putSector_same k s x.1 x.2) l s
    exact hsame.strand
  show forAll ((s.putSectors l).dies.map (·.1)) _ (s.putSectors l) = _
  refine forAll_id _ _ _ fun d _ => squashReaders_none _ _ _ _ fun k c hc line hline => ?_
  rw [hstrand] at hc
  rw [List.mem_eraseDups, List.mem_map] at hline
  obtain ⟨a, ha, rfl⟩ := hline
  obtain ⟨x, hx, hmem⟩ := List.mem_flatMap.mp (List.mem_filter.mp ha).1
  have hreal : (forAll l (fun s x => s.putSector x.1 x.2) s).real x.1 = x.1 := real_of_local _ (isForeign_of_pad (hpad x hx).2)
  rw [if_pos (hpad x hx).1, hreal, Nat.add_zero] at hmem
  obtain rfl : a = x.1 := by simpa using hmem
  exact hquiet k c hc _ (List.mem_map_of_mem hx)

/-! ## A choice point as an image (20 R376) -/

/-- The number of a list of bits, lowest first. -/
def natOfBits : List Bool → Nat
  | [] => 0
  | b :: l => (if b then 1 else 0) + 2 * natOfBits l

theorem natOfBits_lt (l : List Bool) : natOfBits l < 2 ^ l.length := by
  induction l with
  | nil => exact Nat.one_pos
  | cons b l ih =>
    rw [natOfBits, List.length_cons, Nat.pow_succ]
    split <;> omega

theorem natOfBits_bit (l : List Bool) (k : Nat) : natOfBits l / 2 ^ k % 2 = if l.getD k false then 1 else 0 := by
  induction l generalizing k with
  | nil => simp [natOfBits]
  | cons b l ih =>
    cases k with
    | zero =>
      rw [natOfBits, List.getD_cons_zero, Nat.pow_zero, Nat.div_one]
      split <;> omega
    | succ k =>
      rw [natOfBits, List.getD_cons_succ, ← ih, Nat.pow_succ', ← Nat.div_div_eq_div_mul]
      congr 2
      split <;> omega

/-- The tags of the registers of a choice point, from bit 1 on. -/
theorem tagSum_eq (l : List Reg) (n : Nat) :
    ((l.zipIdx n).map fun x => if x.1.tag then 2 ^ (x.2 + 1) else 0).sum = 2 ^ (n + 1) * natOfBits (l.map Reg.tag) := by
  induction l generalizing n with
  | nil => rfl
  | cons r l ih =>
    rw [List.zipIdx_cons, List.map_cons, List.sum_cons, ih, List.map_cons, natOfBits, Nat.pow_succ 2 (n + 1)]
    cases r.tag
    · simp
      ring
    · simp
      ring

theorem natOfBits_append (l : List Bool) (b : Bool) : natOfBits (l ++ [b]) = natOfBits l + if b then 2 ^ l.length else 0 := by
  induction l with
  | nil => simp [natOfBits]
  | cons c l ih =>
    rw [List.cons_append, natOfBits, natOfBits, ih, List.length_cons, Nat.pow_succ]
    cases b
    · simp
    · simp
      ring

theorem tags_eq {p : ChoicePoint} (hregs : p.regs.length = 29) :
    p.tags = natOfBits (p.table.tag :: (p.regs.map Reg.tag ++ [p.area.tag])) := by
  rw [ChoicePoint.tags, tagSum_eq, natOfBits, natOfBits_append, List.length_map, hregs]
  cases p.table.tag <;> cases p.area.tag <;> simp <;> ring

/-- A field of a number of which the bytes of a run of memory are those. -/
theorem readNat_field {m : List Host.Cell} {a off n v : Nat} (h : ∀ j < n, readByte m (a + off + j) = BitVec.ofNat 8 (v / 256 ^ (off + j))) :
    readNat m (a + off) n = v / 256 ^ off % 256 ^ n := by
  refine readNat_of _ _ _ _ (Nat.mod_lt _ (Nat.pow_pos (by decide))) fun j hj => ?_
  rw [h j hj]
  refine BitVec.eq_of_toNat_eq ?_
  rw [BitVec.toNat_ofNat, BitVec.toNat_ofNat, Nat.pow_add, ← Nat.div_div_eq_div_mul]
  have hsplit : 256 ^ n = 256 ^ j * (256 * 256 ^ (n - j - 1)) := by
    rw [← Nat.pow_succ', ← Nat.pow_add]
    congr 1
    omega
  rw [hsplit, Nat.mod_mul_right_div_self, show 2 ^ 8 = 256 from rfl, Nat.mod_mul_right_mod]

section
variable {s : State} {loc : Nat} {p : ChoicePoint} (hpad : PadSector loc)
include hpad

/-- A byte of a choice point that has been written. -/
theorem readByte_choicePoint {i j : Nat} (hi : i < p.sectors.length) (hj : j < 16) :
    readByte (s.putSectors (p.at loc)).mem (loc + 16 * i + j) =
      BitVec.ofNat 8 ((p.sectors.getD i .null).bits.toNat / 256 ^ j) := by
  have hat : p.at loc = sectorsAt loc 0 p.sectors := rfl
  rw [hat, readByte_putSectors hpad, if_pos (by omega), show (loc + 16 * i + j - loc) / 16 - 0 = i by omega,
    show (loc + 16 * i + j - loc) % 16 = j by omega]

theorem readNat_choicePoint {i off n : Nat} (hi : i < p.sectors.length) (hoff : off + n ≤ 16) :
    readNat (s.putSectors (p.at loc)).mem (loc + 16 * i + off) n =
      (p.sectors.getD i .null).bits.toNat / 256 ^ off % 256 ^ n :=
  readNat_field fun j hj => by rw [Nat.add_assoc (loc + 16 * i), readByte_choicePoint hpad hi (by omega)]

theorem readCap_choicePoint {i : Nat} (hi : i < p.sectors.length) :
    BitVec.ofNat 128 (readNat (s.putSectors (p.at loc)).mem (loc + 16 * i) 16) = (p.sectors.getD i .null).bits := by
  have h := readNat_choicePoint (s := s) (off := 0) (n := 16) hpad hi (by omega)
  rw [Nat.add_zero] at h
  rw [h]
  refine BitVec.eq_of_toNat_eq ?_
  rw [BitVec.toNat_ofNat, Nat.pow_zero, Nat.div_one, show 256 ^ 16 = 2 ^ 128 by norm_num, Nat.mod_mod,
    Nat.mod_eq_of_lt (BitVec.isLt _)]

/-- A choice point whose numbers fit their fields. -/
structure Fits (p : ChoicePoint) : Prop where
  regs : p.regs.length = 29
  next : p.next < 2 ^ 32
  count : p.count < 2 ^ 32
  mark : p.mark < 2 ^ 32

omit hpad in
theorem tags_lt (hregs : p.regs.length = 29) : p.tags < 2 ^ 32 := by
  rw [tags_eq hregs]
  refine (natOfBits_lt _).trans ?_
  simp [hregs]

omit hpad in
theorem numbers_toNat (h : Fits p) : (p.sectors.getD 1 .null).bits.toNat =
    p.next + p.count * 2 ^ 32 + p.mark * 2 ^ 64 + p.tags * 2 ^ 96 := by
  obtain ⟨hregs, hnext, hcount, hmark⟩ := h
  have htags := tags_lt hregs
  show (BitVec.ofNat 128 _).toNat = _
  rw [BitVec.toNat_ofNat, Nat.mod_eq_of_lt]
  omega

theorem numbers_choicePoint (h : Fits p) :
    readNat (s.putSectors (p.at loc)).mem (loc + 0x10) 4 = p.next ∧ readNat (s.putSectors (p.at loc)).mem (loc + 0x14) 4 = p.count ∧
      readNat (s.putSectors (p.at loc)).mem (loc + 0x18) 4 = p.mark ∧ readNat (s.putSectors (p.at loc)).mem (loc + 0x1C) 4 = p.tags := by
  have hnumbers := numbers_toNat h
  obtain ⟨hregs, hnext, hcount, hmark⟩ := h
  have hlength : 1 < p.sectors.length := by simp [ChoicePoint.sectors]
  have htags := tags_lt hregs
  refine ⟨?_, ?_, ?_, ?_⟩
  · refine (readNat_choicePoint (off := 0) hpad hlength (by omega)).trans ?_
    rw [hnumbers]
    norm_num
    omega
  · refine (readNat_choicePoint (off := 4) hpad hlength (by omega)).trans ?_
    rw [hnumbers]
    norm_num
    omega
  · refine (readNat_choicePoint (off := 8) hpad hlength (by omega)).trans ?_
    rw [hnumbers]
    norm_num
    omega
  · refine (readNat_choicePoint (off := 12) hpad hlength (by omega)).trans ?_
    rw [hnumbers]
    norm_num
    omega

theorem cpCap_choicePoint (h : Fits p) {i bit : Nat} (hi : i < 32) : (s.putSectors (p.at loc)).cpCap loc (16 * i) bit =
    { bits := (p.sectors.getD i .null).bits
      tag := (p.table.tag :: (p.regs.map Reg.tag ++ [p.area.tag])).getD bit false } := by
  obtain ⟨-, -, -, htags⟩ := numbers_choicePoint (s := s) hpad h
  have hlength : p.sectors.length = 32 := by simp [ChoicePoint.sectors, h.regs]
  rw [State.cpCap, htags, readCap_choicePoint hpad (by omega), tags_eq h.regs, natOfBits_bit]
  congr 1
  cases (p.table.tag :: (p.regs.map Reg.tag ++ [p.area.tag])).getD bit false <;> rfl

/-- A choice point reads as it has been written. -/
theorem choicePoint_putSectors (h : Fits p) : (s.putSectors (p.at loc)).choicePoint loc = p := by
  obtain ⟨hnext, hcount, hmark, -⟩ := numbers_choicePoint (s := s) hpad h
  have htable : (s.putSectors (p.at loc)).cpCap loc 0 0 = p.table := cpCap_choicePoint hpad h (i := 0) (by decide)
  have harea : (s.putSectors (p.at loc)).cpCap loc 0x20 30 = p.area := by
    have htag : (p.regs.map Reg.tag ++ [p.area.tag]).getD 29 false = p.area.tag := by
      rw [List.getD_append_right _ _ _ _ (by simp [h.regs])]
      simp [h.regs]
    have hcap := cpCap_choicePoint (s := s) hpad h (i := 2) (bit := 30) (by decide)
    rw [List.getD_cons_succ, htag] at hcap
    exact hcap
  have hregs : (List.range 29).map (fun k => (s.putSectors (p.at loc)).cpCap loc (0x30 + 16 * k) (k + 1)) = p.regs := by
    refine List.ext_getElem (by simp [h.regs]) fun k hk hk' => ?_
    have htag : (p.regs.map Reg.tag ++ [p.area.tag]).getD k false = p.regs[k].tag := by
      rw [List.getD_append _ _ _ _ (by simpa using hk'), List.getD_eq_getElem _ _ (by simpa using hk'), List.getElem_map]
    have hbits : p.sectors.getD (k + 3) .null = p.regs[k] := List.getD_eq_getElem _ _ hk'
    rw [List.getElem_map, List.getElem_range, show 0x30 + 16 * k = 16 * (k + 3) by omega,
      cpCap_choicePoint hpad h (by have := h.regs; omega), List.getD_cons_succ, htag, hbits]
  rw [State.choicePoint, hnext, hcount, hmark, htable, harea, hregs]

end

end Sys2Proof.Machine

/-! SUPPORT. Try-each: try, fail, cut, cutto and cpmark (20 R377 to R384). -/

namespace Sys2Proof.Machine

open Sys2Proof Sys2Proof.Claims

/-! ## A terminator that sets the PC -/

/-- A terminator that has set the PC itself and changes only registers. -/
theorem ran_jumpT (u : State) (f : Arch → Arch) :
    Ran u (Act.jump (u.onArch u.cur f)).settleT ((f u.me).count 8 1) (u.strand u.cur).out := by
  refine ⟨⟨?_, ?_, ?_, ?_, ?_⟩, ?_⟩
  · simp [Act.settleT, State.begun, State.onArch, State.onStrand, Strand.onOpen, State.arch, State.me]
  · simp [Act.settleT, State.begun, State.onArch, State.onStrand, Strand.onOpen]
  · simp [Act.settleT, State.begun, State.onArch, State.onStrand, Strand.onOpen]
  · simp [Act.settleT, State.begun, State.onArch, State.onStrand, Strand.onOpen, State.me, State.arch]
  · intro j hj
    simp only [Act.settleT, State.begun, State.onArch, State.onStrand, State.setStrand_cur]
    rw [State.strand_setStrand_ne _ hj, State.strand_setStrand_ne _ hj]
  · simp [Act.settleT, State.begun, State.onArch, State.onStrand, State.setStrand]

/-- The same after memory has been written. -/
theorem settleT_jump {u v : State} (h : SameStrand u.cur u v) (f : Arch → Arch) :
    (Act.jump (v.onArch u.cur f)).settleT.arch u.cur = (f u.me).count 8 1 ∧
      ((Act.jump (v.onArch u.cur f)).settleT.strand u.cur).wait = .none ∧
      ((Act.jump (v.onArch u.cur f)).settleT.strand u.cur).out = (u.strand u.cur).out ∧
      (Act.jump (v.onArch u.cur f)).settleT.mem = v.mem := by
  obtain ⟨⟨harch, hout, hwait, -, -⟩, -⟩ := ran_jumpT v f
  have hme : v.me = u.me := by rw [State.me, State.arch, h.cur, h.strand]; rfl
  rw [h.cur] at harch hout hwait
  rw [hme] at harch
  rw [h.strand] at hout
  exact ⟨harch, hwait, hout, rfl⟩

/-! ## try (20 R382) -/

section
variable {s u : State} {x y z : BitVec 6} (h : MayEnd false false [.g x, .g y, .g z] s u)
include h

theorem tryEach_waits (hbusy : (u.strand s.cur).busy = true) : exec (.tryEach x y z) s = .next (u.waiting .park) := by
  rw [← h.cur] at hbusy
  refine (terminate_of_mayEnd h _).trans ?_
  simp only [↓if_pos hbusy, Act.settleT]

variable (hidle : (u.strand s.cur).busy = false)
include hidle

theorem tryEach_bad (hn : (u.me.word y).toNat = 0 ∨ 65535 < (u.me.word y).toNat) :
    exec (.tryEach x y z) s = .next (u.raise s.cur .ill (u.me.word y)) := by
  rw [← h.cur] at hidle ⊢
  have hfree : ¬ (u.strand u.cur).busy = true := by simp [hidle]
  refine (terminate_of_mayEnd h _).trans ?_
  simp only [↓if_neg hfree, ↓if_pos hn, Act.settleT]

variable (hlow : 1 ≤ (u.me.word y).toNat) (hhigh : (u.me.word y).toNat ≤ 65535)
include hlow hhigh

theorem tryEach_table {cause : Cause}
    (hcheck : checkCap u.me.smode (u.me.readG x) (u.me.readG x).cursor (4 * (u.me.word y).toNat) [permLD, permX] 4 = some cause) :
    exec (.tryEach x y z) s = .next (u.raise s.cur cause (u.me.readG x).low) := by
  have hn : ¬ ((u.me.word y).toNat = 0 ∨ 65535 < (u.me.word y).toNat) := by omega
  rw [← h.cur] at hidle ⊢
  have hfree : ¬ (u.strand u.cur).busy = true := by simp [hidle]
  refine (terminate_of_mayEnd h _).trans ?_
  simp only [↓if_neg hfree, ↓if_neg hn, hcheck, Act.settleT]

theorem tryEach_area {cause : Cause}
    (hcheck : checkCap u.me.smode (u.me.readG x) (u.me.readG x).cursor (4 * (u.me.word y).toNat) [permLD, permX] 4 = none)
    (harea : u.checkArea (u.me.readG z) = .error cause) :
    exec (.tryEach x y z) s = .next (u.raise s.cur cause (u.me.readG z).low) := by
  have hn : ¬ ((u.me.word y).toNat = 0 ∨ 65535 < (u.me.word y).toNat) := by omega
  rw [← h.cur] at hidle ⊢
  have hfree : ¬ (u.strand u.cur).busy = true := by simp [hidle]
  refine (terminate_of_mayEnd h _).trans ?_
  simp only [↓if_neg hfree, ↓if_neg hn, hcheck, harea, Act.settleT]

end

/-- Checks that pass, as the tests of the instruction put them. -/
theorem tryChecks_passed {u : State} {x y z : BitVec 6} (h : TryChecks u x y z) :
    ¬ (u.strand u.cur).busy = true ∧ ¬ ((u.me.word y).toNat = 0 ∨ 65535 < (u.me.word y).toNat) ∧
      ¬ (0 < u.me.cpdepth.toNat ∧ ((u.me.readG z).base, (u.me.readG z).top) ≠
        ((u.choicePoint (u.cpLoc u.cur (u.me.cpdepth.toNat - 1))).area.base,
          (u.choicePoint (u.cpLoc u.cur (u.me.cpdepth.toNat - 1))).area.top)) := by
  obtain ⟨hidle, ⟨hlow, hhigh⟩, -, -, hsame⟩ := h
  refine ⟨by simp [hidle], by omega, ?_⟩
  rintro ⟨hpos, hne⟩
  exact hne (Prod.ext (hsame hpos).1 (hsame hpos).2)

/-! ## The registers of a choice point (20 R383) -/

/-- Registers written one after another, from a number on. -/
def Arch.restoredFrom (a : Arch) (n : Nat) (l : List Reg) : Arch :=
  (l.zipIdx n).foldl (fun a x => a.writeG (BitVec.ofNat 6 (x.2 + 1)) x.1) a

theorem restoredFrom_cons (a : Arch) (n : Nat) (r : Reg) (l : List Reg) :
    a.restoredFrom n (r :: l) = (a.writeG (BitVec.ofNat 6 (n + 1)) r).restoredFrom (n + 1) l := rfl

theorem ofNat_six_toNat {k : Nat} (hk : k < 29) : (BitVec.ofNat 6 (k + 1)).toNat = k + 1 := by
  rw [BitVec.toNat_ofNat]
  omega

/-- A register below the bank of S mode is written in g. -/
theorem writeG_low (a : Arch) {n : BitVec 6} (hn : n.toNat < 60) (x : Reg) : { a.writeG n x with g := a.g } = a := by
  unfold Arch.writeG
  split
  · rfl
  · rw [dif_neg (by omega)]

/-- A register that is not written keeps its value. -/
theorem restoredFrom_others {m : BitVec 6} (l : List Reg) (a : Arch) (n : Nat) (hlen : n + l.length ≤ 29)
    (hm : m.toNat ≤ n ∨ 30 ≤ m.toNat) : (a.restoredFrom n l).readG m = a.readG m := by
  induction l generalizing a n with
  | nil => rfl
  | cons r l ih =>
    rw [List.length_cons] at hlen
    have hne : m ≠ BitVec.ofNat 6 (n + 1) := fun h => by
      have := congrArg BitVec.toNat h
      rw [ofNat_six_toNat (by omega)] at this
      omega
    rw [restoredFrom_cons, ih _ _ (by omega) (by omega), Arch.readG_writeG_ne a hne]

/-- A register that is written takes its value. -/
theorem restoredFrom_saved (l : List Reg) (a : Arch) (n : Nat) (hlen : n + l.length ≤ 29) {k : Nat} (hk : k < l.length) :
    (a.restoredFrom n l).readG (BitVec.ofNat 6 (n + k + 1)) = l.getD k .null := by
  induction l generalizing a n k with
  | nil => cases hk
  | cons r l ih =>
    rw [List.length_cons] at hlen hk
    rw [restoredFrom_cons]
    cases k with
    | zero =>
      have hne : BitVec.ofNat 6 (n + 1) ≠ 0 := fun h => by
        have := congrArg BitVec.toNat h
        rw [ofNat_six_toNat (by omega)] at this
        exact absurd this (Nat.succ_ne_zero n)
      rw [Nat.add_zero, restoredFrom_others _ _ _ (by omega) (Or.inl (by rw [ofNat_six_toNat (by omega)])),
        Arch.readG_writeG_self a hne]
      rfl
    | succ k =>
      rw [show n + (k + 1) + 1 = n + 1 + k + 1 by omega, ih _ _ (by omega) (by omega)]
      rfl

theorem restoredFrom_rest (l : List Reg) (a : Arch) (n : Nat) (hlen : n + l.length ≤ 29) :
    { a.restoredFrom n l with g := a.g } = a := by
  induction l generalizing a n with
  | nil => rfl
  | cons r l ih =>
    rw [List.length_cons] at hlen
    have hlow := writeG_low a (n := BitVec.ofNat 6 (n + 1)) (by rw [ofNat_six_toNat (by omega)]; omega) r
    rw [restoredFrom_cons]
    have := ih (a.writeG (BitVec.ofNat 6 (n + 1)) r) (n + 1) (by omega)
    exact (congrArg (fun b : Arch => { b with g := a.g }) this).trans hlow

/-- The registers of a strand that goes back to a choice point, with `top` entries of its trail in use and depth `d`. -/
def Arch.backTo (a : Arch) (p : ChoicePoint) (t : Word) (top d : Nat) : Arch :=
  { ((a.restored p.regs).setTop top).starts p.table t with cpdepth := BitVec.ofNat 64 d }

theorem restored_rest {l : List Reg} (hlen : l.length = 29) (a : Arch) : a.restored l = { a with g := (a.restored l).g } :=
  congrArg (fun b : Arch => { b with g := (a.restored l).g }) (restoredFrom_rest l a 0 (by omega))

theorem backTo_eq {p : ChoicePoint} (hlen : p.regs.length = 29) (a : Arch) (t : Word) (top d : Nat) :
    a.backTo p t top d = { a with
      g := (a.restored p.regs).g, trail := (a.setTop top).trail, pcc := p.table.withCursor t, cpdepth := BitVec.ofNat 64 d } := by
  have hrest := restored_rest hlen a
  rw [Arch.backTo]
  generalize (a.restored p.regs) = b at hrest ⊢
  generalize b.g = g at hrest ⊢
  rw [hrest]
  rfl

theorem readG_congr {a b : Arch} (hg : a.g = b.g) (hmode : a.smode = b.smode) (hbank : a.sbank = b.sbank) (n : BitVec 6) :
    a.readG n = b.readG n := by
  unfold Arch.readG
  simp only [hg, hmode, hbank]

theorem readG_others (a : Arch) (g : Vector Reg 64) (trail cpdepth : Word) (pcc : Reg) (n : BitVec 6) :
    ({ a with g := g, trail := trail, pcc := pcc, cpdepth := cpdepth } : Arch).readG n = ({ a with g := g } : Arch).readG n :=
  readG_congr rfl rfl rfl n

theorem backTo_starts {p : ChoicePoint} (hlen : p.regs.length = 29) (a : Arch) (t : Word) (top d : Nat) :
    Starts a ((a.backTo p t top d).count 8 1) p t := by
  have hread (m : BitVec 6) : ((a.backTo p t top d).count 8 1).readG m = (a.restored p.regs).readG m := by
    rw [Arch.readG_count, backTo_eq hlen, readG_others, ← restored_rest hlen]
  refine ⟨fun k hk => ?_, fun m hm => ?_, ?_, ?_⟩
  · rw [hread, show k + 1 = 0 + k + 1 by omega]
    exact restoredFrom_saved p.regs a 0 (by omega) (by omega)
  · rw [hread]
    exact restoredFrom_others p.regs a 0 (by omega) (Or.inr hm)
  · rw [backTo_eq hlen]
    rfl
  · rw [backTo_eq hlen]
    rfl

theorem trTop_setTop (a : Arch) (n : Nat) : (a.setTop n).trTop = n % 32768 := by
  unfold Arch.trTop Arch.setTop
  simp only [BitVec.toNat_ofNat]
  omega

section
variable {s u : State} {x y z : BitVec 6} (h : MayEnd false false [.g x, .g y, .g z] s u) (hchecks : TryChecks u x y z)
include h hchecks

theorem tryEach_trap {cause : Cause} {v : Word} (hstop : u.alternative (u.me.readG x) 0 = .error (.trap cause v)) :
    exec (.tryEach x y z) s = .next (u.raise s.cur cause v) := by
  obtain ⟨hfree, hn, hnewest⟩ := tryChecks_passed hchecks
  obtain ⟨off, harea⟩ := hchecks.area
  rw [← h.cur]
  refine (terminate_of_mayEnd h _).trans ?_
  simp only [↓if_neg hfree, ↓if_neg hn, hchecks.table, harea, ↓if_neg hnewest, hstop, Stop.act, Act.settleT]

variable {t : Word} (hok : u.alternative (u.me.readG x) 0 = .ok t)
include hok

/-- With one alternative nothing is pushed. -/
theorem tryEach_single (hn : (u.me.word y).toNat = 1) : ∃ v, exec (.tryEach x y z) s = .next v ∧
    Ran u v ({ u.me with pcc := (u.me.readG x).withCursor t }.count 8 1) (u.strand s.cur).out := by
  obtain ⟨hfree, hcount, hnewest⟩ := tryChecks_passed hchecks
  obtain ⟨off, harea⟩ := hchecks.area
  rw [← h.cur]
  refine ⟨_, (terminate_of_mayEnd h _).trans ?_, ran_jumpT u fun r => r.starts (u.me.readG x) t⟩
  simp only [↓if_neg hfree, ↓if_neg hcount, hchecks.table, harea, ↓if_neg hnewest, hok, ↓if_pos hn]

variable (hn : 2 ≤ (u.me.word y).toNat)
include hn

theorem tryEach_full (hfull : u.me.cpdepth.toNat = u.me.cpSlots) :
    exec (.tryEach x y z) s = .next (u.raise s.cur .trailfull (BitVec.ofNat 64 (2 ^ 63 + u.me.cpdepth.toNat))) := by
  obtain ⟨hfree, hcount, hnewest⟩ := tryChecks_passed hchecks
  obtain ⟨off, harea⟩ := hchecks.area
  rw [← h.cur]
  refine (terminate_of_mayEnd h _).trans ?_
  simp only [↓if_neg hfree, ↓if_neg hcount, hchecks.table, harea, ↓if_neg hnewest, hok,
    ↓if_neg (show ¬ (u.me.word y).toNat = 1 by omega), ↓if_pos hfull, Act.settleT]

omit h hchecks hok hn in
theorem pushed_eq (u : State) (x y z : BitVec 6) : pushed u x y z =
    { table := u.me.readG x, next := 1, count := (u.me.word y).toNat, mark := u.me.trTop, area := u.me.readG z, regs := u.me.saved } :=
  rfl

omit h hok hn in
theorem pushed_fits : Fits (pushed u x y z) := by
  obtain ⟨-, ⟨-, hhigh⟩, -⟩ := hchecks
  refine ⟨by simp [pushed], show 1 < 2 ^ 32 by decide, ?_, ?_⟩
  · show (u.me.word y).toNat < 2 ^ 32
    omega
  · show u.me.trTop < 2 ^ 32
    unfold Arch.trTop
    omega

omit h hchecks hok hn in
theorem cpLoc_pad (u : State) (sid d : Nat) : PadSector (u.cpLoc sid d) := by
  unfold PadSector State.cpLoc padLoc padOrigin Arch.cpBase
  omega

omit h hchecks hok hn in
theorem at_pad (p : ChoicePoint) {loc : Nat} (hloc : PadSector loc) : ∀ y ∈ p.at loc, PadSector y.1 := by
  intro y hy
  obtain ⟨k, hk⟩ := mem_sectorsAt (n := 0) hy
  obtain ⟨halign, hhigh⟩ := hloc
  rw [hk]
  exact ⟨by omega, by omega⟩

omit h hchecks hok hn in
theorem choicePoint_congr {s t : State} (h : t.mem = s.mem) (loc : Nat) : t.choicePoint loc = s.choicePoint loc := by
  unfold State.choicePoint State.cpCap
  rw [h]

/-- With more a choice point is pushed. -/
theorem tryEach_pushes (hroom : u.me.cpdepth.toNat ≠ u.me.cpSlots)
    (hheld : u.sectorsHeld (some s.cur) (((pushed u x y z).at (u.cpLoc s.cur u.me.cpdepth.toNat)).map (·.1)) = none) :
    ∃ v, exec (.tryEach x y z) s = .next v ∧ v.arch s.cur =
        { u.me with pcc := (u.me.readG x).withCursor t, cpdepth := BitVec.ofNat 64 (u.me.cpdepth.toNat + 1) }.count 8 1 ∧
      (v.strand s.cur).wait = .none ∧ (v.strand s.cur).out = (u.strand s.cur).out ∧
      v.mem = (u.placeSectors (some s.cur) ((pushed u x y z).at (u.cpLoc s.cur u.me.cpdepth.toNat))).mem ∧
      (NoReaders u (((pushed u x y z).at (u.cpLoc s.cur u.me.cpdepth.toNat)).map (·.1)) →
        v.choicePoint (u.cpLoc s.cur u.me.cpdepth.toNat) = pushed u x y z) := by
  obtain ⟨hfree, hcount, hnewest⟩ := tryChecks_passed hchecks
  obtain ⟨off, harea⟩ := hchecks.area
  rw [← h.cur] at hheld ⊢
  have hsame := placeSectors_same u u.cur ((pushed u x y z).at (u.cpLoc u.cur u.me.cpdepth.toNat))
  have hquiet := placeSectors_quiet u (some u.cur) (at_pad (pushed u x y z) (cpLoc_pad u u.cur u.me.cpdepth.toNat))
  have hreads := choicePoint_putSectors (s := u) (cpLoc_pad u u.cur u.me.cpdepth.toNat) (pushed_fits hchecks)
  have hexec : exec (.tryEach x y z) s = .next (Act.jump ((u.placeSectors (some u.cur)
      ((pushed u x y z).at (u.cpLoc u.cur u.me.cpdepth.toNat))).onArch u.cur fun r =>
        { r.starts (u.me.readG x) t with cpdepth := BitVec.ofNat 64 (u.me.cpdepth.toNat + 1) })).settleT := by
    rw [pushed_eq] at hheld ⊢
    refine (terminate_of_mayEnd h _).trans ?_
    simp only [↓if_neg hfree, ↓if_neg hcount, hchecks.table, harea, ↓if_neg hnewest, hok,
      ↓if_neg (show ¬ (u.me.word y).toNat = 1 by omega), ↓if_neg hroom, hheld]
  generalize hw : u.placeSectors (some u.cur) ((pushed u x y z).at (u.cpLoc u.cur u.me.cpdepth.toNat)) = w at hexec hsame hquiet ⊢
  obtain ⟨harch, hwait, hout, hmem⟩ := settleT_jump hsame fun r =>
    { r.starts (u.me.readG x) t with cpdepth := BitVec.ofNat 64 (u.me.cpdepth.toNat + 1) }
  refine ⟨_, hexec, harch, hwait, hout, hmem, fun hnone => ?_⟩
  rw [← hreads, ← hquiet hnone]
  exact choicePoint_congr hmem _

end

/-! ## fail (20 R383) -/

/-- What fail leaves of memory: the trail undone, and the next alternative of a point that has more. -/
def State.failed (u : State) (cid loc : Nat) (p : ChoicePoint) : State :=
  if p.next + 1 = p.count then undone u cid (u.trailDown cid u.me p.mark)
  else (undone u cid (u.trailDown cid u.me p.mark)).store (loc + 16) (bytesOfNat 4 (p.next + 1))

section
variable {s u : State} (h : MayEnd false true [] s u)
include h

theorem fail_empty (hempty : u.me.cpdepth.toNat = 0) : exec .fail s = .next (u.raise s.cur .tryempty 0) := by
  rw [← h.cur]
  refine (terminate_of_mayEnd h _).trans ?_
  simp only [hempty, if_true, Act.settleT]

variable {d cid loc : Nat} {p : ChoicePoint} (hdepth : u.me.cpdepth.toNat = d + 1) (hcid : cid = u.owner (coreOf s.cur))
  (hloc : loc = u.cpLoc s.cur d) (hp : p = u.choicePoint loc)
include hdepth hcid hloc hp

omit hcid in
theorem fail_trap {cause : Cause} {v : Word} (hstop : u.alternative p.table p.next = .error (.trap cause v)) :
    exec .fail s = .next (u.raise s.cur cause v) := by
  rw [hp, hloc, ← h.cur] at hstop
  rw [← h.cur]
  refine (terminate_of_mayEnd h _).trans ?_
  simp only [hdepth, Nat.succ_ne_zero, if_false, Nat.add_sub_cancel, hstop, Stop.act, Act.settleT]

omit h hdepth hcid hloc hp in
theorem putWord_rest (s : State) (loc : Nat) (v : Word) (tag : Bool) : MemoryOnly s (s.putWord loc v tag) :=
  ⟨(s.putWord loc v tag).mem, (s.putWord loc v tag).tags, rfl⟩

omit h hdepth hcid hloc hp in
theorem undone_rest (u : State) (cid : Nat) (l : List TrailEntry) : MemoryOnly u (undone u cid l) := by
  unfold undone
  exact forAll_rel MemoryOnly MemoryOnly.refl MemoryOnly.trans _ (fun s e => putWord_rest s _ _ _) _ u

omit h hdepth hcid hloc hp in
theorem failed_rest (u : State) (cid loc : Nat) (p : ChoicePoint) : MemoryOnly u (u.failed cid loc p) := by
  unfold State.failed
  split
  · exact undone_rest _ _ _
  · exact (undone_rest _ _ _).trans ⟨_, _, rfl⟩

omit h hdepth hcid hloc hp in
theorem MemoryOnly.cur {s t : State} (h : MemoryOnly s t) : t.cur = s.cur := by
  obtain ⟨m, g, rfl⟩ := h
  rfl

omit h hdepth hcid hloc hp in
theorem MemoryOnly.strand {s t : State} (h : MemoryOnly s t) (k : Nat) : t.strand k = s.strand k := by
  obtain ⟨m, g, rfl⟩ := h
  rfl

/-- What fail leaves when it goes back to a choice point. -/
theorem exec_fail {t : Word} (hok : u.alternative p.table p.next = .ok t)
    (hheld : u.sectorsHeld (some s.cur) ((loc + 16) :: (u.trailDown cid u.me p.mark).map fun e => padLoc cid e.raw) = none) :
    exec .fail s = .next (Act.jump (((u.failed cid loc p).tookPlace (some u.cur)
      ((loc + 16) :: (u.trailDown cid u.me p.mark).map fun e => padLoc cid e.raw)).onArch u.cur fun r =>
        r.backTo p t (if p.next + 1 = p.count ∧ d = 0 then 0 else min u.me.trTop p.mark)
          (if p.next + 1 = p.count then d else d + 1))).settleT := by
  subst hp hloc hcid
  rw [← h.cur] at hheld hok ⊢
  have hsome : ¬ u.me.cpdepth.toNat = 0 := by omega
  have hsucc : d + 1 = u.me.cpdepth.toNat := hdepth.symm
  obtain rfl : d = u.me.cpdepth.toNat - 1 := by omega
  have hcur := (failed_rest u (u.owner (coreOf u.cur)) (u.cpLoc u.cur (u.me.cpdepth.toNat - 1))
    (u.choicePoint (u.cpLoc u.cur (u.me.cpdepth.toNat - 1)))).cur
  unfold State.failed at hcur ⊢
  unfold undone at hcur ⊢
  refine (terminate_of_mayEnd h _).trans ?_
  -- A name for the function keeps the kernel from evaluating it while it compares two forms of the match on its value.
  obtain ⟨held, hfun⟩ : ∃ f, f = State.sectorsHeld := ⟨_, rfl⟩
  rw [← hfun] at hheld ⊢
  by_cases hlast : (u.choicePoint (u.cpLoc u.cur (u.me.cpdepth.toNat - 1))).next + 1 =
      (u.choicePoint (u.cpLoc u.cur (u.me.cpdepth.toNat - 1))).count
  · simp only [↓if_neg hsome, hok, hheld, hlast, decide_true, if_true, true_and] at hcur ⊢
    rw [hcur]
    rfl
  · simp only [↓if_neg hsome, hok, hheld, hlast, decide_false, Bool.false_eq_true, if_false, false_and, hsucc, hsome] at hcur ⊢
    rw [hcur]
    rfl

end

theorem min_trTop (a : Arch) (mark : Nat) (c : Prop) [Decidable c] :
    (if c then 0 else min a.trTop mark) % 32768 = if c then 0 else min a.trTop mark := by
  have htop : a.trTop < 32768 := by
    unfold Arch.trTop
    omega
  split <;> omega

theorem backTo_trTop {p : ChoicePoint} (hlen : p.regs.length = 29) (a : Arch) (t : Word) (top d : Nat) :
    ((a.backTo p t top d).count 8 1).trTop = top % 32768 := by
  rw [← trTop_setTop a top, backTo_eq hlen]
  rfl

theorem backTo_cpdepth {p : ChoicePoint} (hlen : p.regs.length = 29) (a : Arch) (t : Word) (top d : Nat) :
    ((a.backTo p t top d).count 8 1).cpdepth = BitVec.ofNat 64 d := by
  rw [backTo_eq hlen]
  rfl

theorem choicePoint_regs (s : State) (loc : Nat) : (s.choicePoint loc).regs.length = 29 := by
  simp [State.choicePoint]

/-- Memory after a write of locations that no open chunk has read. -/
theorem tookPlace_mem {u v : State} (h : MemoryOnly u v) (self : Option Nat) {l : List Nat} (hnone : NoReaders u l) :
    (v.tookPlace self l).mem = v.mem := by
  rw [State.tookPlace, squashReaders_none]
  intro k c hc x hx
  rw [h.strand] at hc
  rw [List.mem_eraseDups, List.mem_map] at hx
  obtain ⟨a, ha, rfl⟩ := hx
  exact hnone k c hc a ha

theorem tookPlace_same {u v : State} (h : MemoryOnly u v) (l : List Nat) :
    SameStrand u.cur u (v.tookPlace (some u.cur) l) :=
  SameStrand.trans ⟨h.cur, h.strand _⟩ (squashReaders_same v u.cur _ _)

section
variable {s u : State} (h : MayEnd false true [] s u) {d cid loc : Nat} {p : ChoicePoint}
  (hdepth : u.me.cpdepth.toNat = d + 1) (hcid : cid = u.owner (coreOf s.cur))
  (hloc : loc = u.cpLoc s.cur d) (hp : p = u.choicePoint loc)
include h hdepth hcid hloc hp

/-- fail goes back to the newest choice point. -/
theorem fail_backs {t : Word} (hok : u.alternative p.table p.next = .ok t)
    (hheld : u.sectorsHeld (some s.cur) ((loc + 16) :: (u.trailDown cid u.me p.mark).map fun e => padLoc cid e.raw) = none) :
    ∃ v, exec .fail s = .next v ∧ Starts u.me (v.arch s.cur) p t ∧ (v.strand s.cur).wait = .none ∧
      (v.arch s.cur).cpdepth = BitVec.ofNat 64 (if p.next + 1 = p.count then d else d + 1) ∧
      (v.arch s.cur).trTop = (if p.next + 1 = p.count ∧ d = 0 then 0 else min u.me.trTop p.mark) ∧
      (NoReaders u ((loc + 16) :: (u.trailDown cid u.me p.mark).map fun e => padLoc cid e.raw) →
        v.mem = (u.failed cid loc p).mem) := by
  have hexec := exec_fail h hdepth hcid hloc hp hok hheld
  have hlen : p.regs.length = 29 := hp ▸ choicePoint_regs u loc
  have hrest := failed_rest u cid loc p
  have hsame := tookPlace_same hrest ((loc + 16) :: (u.trailDown cid u.me p.mark).map fun e => padLoc cid e.raw)
  have hmem := tookPlace_mem hrest (some u.cur) (l := (loc + 16) :: (u.trailDown cid u.me p.mark).map fun e => padLoc cid e.raw)
  rw [← h.cur]
  generalize (u.failed cid loc p).tookPlace (some u.cur)
    ((loc + 16) :: (u.trailDown cid u.me p.mark).map fun e => padLoc cid e.raw) = w at hexec hsame hmem
  obtain ⟨harch, hwait, -, hmem'⟩ := settleT_jump hsame fun r =>
    r.backTo p t (if p.next + 1 = p.count ∧ d = 0 then 0 else min u.me.trTop p.mark) (if p.next + 1 = p.count then d else d + 1)
  refine ⟨_, hexec, ?_, hwait, ?_, ?_, fun hnone => hmem'.trans (hmem hnone)⟩
  · rw [harch]
    exact backTo_starts hlen _ _ _ _
  · rw [harch]
    exact backTo_cpdepth hlen _ _ _ _
  · rw [harch, backTo_trTop hlen]
    exact min_trTop _ _ _

end

/-! ## cut, cutto and cpmark (20 R384) -/

/-- A terminator that falls through and changes only registers. -/
theorem ran_endT (u : State) (f : Arch → Arch) :
    Ran u (Act.done (u.onArch u.cur f)).settleT (f u.me).ended (u.strand u.cur).out := by
  refine ⟨⟨?_, ?_, ?_, ?_, ?_⟩, ?_⟩
  · simp [Act.settleT, State.begun, State.onArch, State.onStrand, Strand.onOpen, State.arch, State.me, Arch.ended]
  · simp [Act.settleT, State.begun, State.onArch, State.onStrand, Strand.onOpen]
  · simp [Act.settleT, State.begun, State.onArch, State.onStrand, Strand.onOpen]
  · simp [Act.settleT, State.begun, State.onArch, State.onStrand, Strand.onOpen, State.me, State.arch]
  · intro j hj
    simp only [Act.settleT, State.begun, State.onArch, State.onStrand, State.setStrand_cur]
    rw [State.strand_setStrand_ne _ hj, State.strand_setStrand_ne _ hj, State.strand_setStrand_ne _ hj]
  · simp [Act.settleT, State.begun, State.onArch, State.onStrand, State.setStrand]

theorem cutTo_eq (a : Arch) (d : Nat) :
    a.cutTo d = if d = 0 then { a with cpdepth := 0 }.setTop 0 else { a with cpdepth := BitVec.ofNat 64 d } := by
  unfold Arch.cutTo
  split
  · rename_i hd
    rw [hd]
    rfl
  · rfl

theorem exec_cut {s u : State} (h : MayEnd false false [] s u) : ∃ t, exec .cut s = .next t ∧
    Ran u t (if u.me.cpdepth.toNat ≤ 1 then { u.me with cpdepth := 0 }.setTop 0
      else { u.me with cpdepth := BitVec.ofNat 64 (u.me.cpdepth.toNat - 1) }).ended (u.strand s.cur).out := by
  rw [← h.cur]
  refine ⟨_, terminate_of_mayEnd h _, ?_⟩
  have hcut := cutTo_eq u.me (u.me.cpdepth.toNat - 1)
  simp only [Nat.sub_eq_zero_iff_le] at hcut
  rw [← hcut]
  exact ran_endT u _

theorem exec_cutto {s u : State} {x : BitVec 6} (h : MayEnd false false [.g x] s u) : ∃ t, exec (.cutto x) s = .next t ∧
    Ran u t (if min u.me.cpdepth.toNat (u.me.word x).toNat = 0 then { u.me with cpdepth := 0 }.setTop 0
      else { u.me with cpdepth := BitVec.ofNat 64 (min u.me.cpdepth.toNat (u.me.word x).toNat) }).ended (u.strand s.cur).out := by
  rw [← h.cur]
  refine ⟨_, terminate_of_mayEnd h _, ?_⟩
  rw [← cutTo_eq]
  exact ran_endT u _

/-- A search area that passes (20 R378). -/
theorem checkArea_ok {u : State} {c : Reg} {off : Nat} (h : u.checkArea c = .ok off) :
    c.tag = true ∧ c.otype = 0 ∧ c.perm permLD = true ∧
      c.perm permST = true ∧ c.perm permTRY = true ∧ c.base % 8 = 0 ∧ c.top % 8 = 0 ∧ 0 < c.length ∧
      u.place (coreOf u.cur) c.base.toNat = .pad (u.owner (coreOf u.cur)) 0 off ∧
      off + c.length ≤ u.padSize (u.owner (coreOf u.cur)) ∧
      ∀ k < c.length / 8, u.protectedRaw (u.owner (coreOf u.cur)) (off + 8 * k) = false := by
  unfold State.checkArea at h
  simp only at h
  split at h
  · cases h
  rename_i htag
  split at h
  · cases h
  rename_i htype
  split at h
  · cases h
  rename_i hperm
  split at h
  · cases h
  rename_i halign
  split at h
  case h_2 => cases h
  rename_i cid raw hplace
  split at h
  · cases h
  rename_i hown
  split at h
  · cases h
  rename_i hprot
  cases h
  push Not at hown halign htype
  obtain ⟨rfl, hroom⟩ := hown
  obtain ⟨hbase, htop, hlen⟩ := halign
  simp only [List.any_cons, List.any_nil, Bool.or_false, Bool.or_eq_true, not_or, Bool.not_eq_true', Bool.not_eq_false] at hperm
  obtain ⟨hld, hst, htry⟩ := hperm
  refine ⟨by simpa using htag, htype, hld, hst, htry, hbase, htop, by omega, hplace, hroom, fun k hk => ?_⟩
  simpa using (List.any_eq_false.mp (Bool.not_eq_true _ ▸ hprot)) k (List.mem_range.mpr hk)

/-- Settles O40: try and fail clause by clause, a choice point read as it has been pushed, and what a search area that passes holds. -/
theorem searchPushesFailsAndCuts : Obligations.SearchPushesFailsAndCuts := by
  unfold Obligations.SearchPushesFailsAndCuts
  refine ⟨?_, ?_, fun s u h => exec_cut h, fun s u x h => exec_cutto h, fun s u x h => ?_, fun u c off h => checkArea_ok h⟩
  · rintro s u x y z n d h rfl rfl
    refine ⟨tryEach_waits h, tryEach_bad h, fun cause hidle hlow hhigh => tryEach_table h hidle hlow hhigh,
      fun cause hidle hlow hhigh => tryEach_area h hidle hlow hhigh, fun hchecks => ⟨fun cause v =>
      tryEach_trap h hchecks, fun t hok => ⟨tryEach_single h hchecks hok, tryEach_full h hchecks hok, tryEach_pushes h hchecks hok⟩⟩⟩
  · intro s u h
    refine ⟨fail_empty h, fun d cid loc p hdepth hcid hloc hp => ⟨fun cause v => fail_trap h hdepth hloc hp, fun t hok hheld => ?_⟩⟩
    obtain ⟨v, hexec, hstarts, hwait, hd, htop, hmem⟩ := fail_backs h hdepth hcid hloc hp hok hheld
    refine ⟨v, hexec, hstarts, hwait, hd, htop, fun hnone => (hmem hnone).trans ?_⟩
    unfold State.failed
    split <;> rfl
  · obtain ⟨t, chunk, hexec, hran⟩ := h.ran_pending (dsts := [.g x]) (src := .ready [.g x (.data u.me.cpdepth)] Flags.none)
      (body := fun s => .done (s.setPending [.g x] (.ready [.g x (.data s.me.cpdepth)] Flags.none))) rfl
    rw [h.me] at hran
    exact ⟨t, chunk, hexec, hran⟩

end Sys2Proof.Machine

/-! SUPPORT. Theft of alternatives: tsteal (20 R385, R386). -/

namespace Sys2Proof.Machine

open Sys2Proof Sys2Proof.Claims

/-! ## What a theft leaves (20 R385) -/

/-- The memory of a theft: the area copied with the victim's trail undone, the choice point of the thief, and the victim's count. -/
def State.stolenFrom (u U : State) (cid : Nat) (av : Arch) (p : ChoicePoint) (j off len : Nat) (own loc : Nat) (q : ChoicePoint)
    (writes : List Nat) : State :=
  ((((U.copyArea cid p.area.rawBase off len (U.trailDown cid av p.mark)).placeSectors (some u.cur) (q.at own)).store (loc + 0x14)
    (bytesOfNat 4 j)).tookPlace (some u.cur) writes)

theorem copyArea_rest (u : State) (cid from_ to_ len : Nat) (es : List TrailEntry) :
    MemoryOnly u (u.copyArea cid from_ to_ len es) := by
  unfold State.copyArea
  exact forAll_rel MemoryOnly MemoryOnly.refl MemoryOnly.trans _ (fun s e => putWord_rest s _ _ _) _ u

theorem undoVictim_same (u : State) {v sid : Nat} (hv : v ≠ sid) (l : List Nat) : SameStrand sid u (u.undoVictim v l) := by
  unfold State.undoVictim
  split
  · exact squash_same hv.symm _ _ _ _
  · exact SameStrand.refl _ _

theorem MemoryOnly.sameStrand {s t : State} (h : MemoryOnly s t) (sid : Nat) : SameStrand sid s t := ⟨h.cur, h.strand sid⟩

theorem stolenFrom_same (u U : State) (hU : SameStrand u.cur u U) (cid : Nat) (av : Arch) (p : ChoicePoint) (j off len own loc : Nat)
    (q : ChoicePoint) (writes : List Nat) : SameStrand u.cur u (u.stolenFrom U cid av p j off len own loc q writes) := by
  have hcopy := (copyArea_rest U cid p.area.rawBase off len (U.trailDown cid av p.mark)).sameStrand u.cur
  have hplace := placeSectors_same (U.copyArea cid p.area.rawBase off len (U.trailDown cid av p.mark)) u.cur (q.at own)
  have hstore (w : State) : SameStrand u.cur w ((w.store (loc + 0x14) (bytesOfNat 4 j)).tookPlace (some u.cur) writes) :=
    SameStrand.trans (b := w.store (loc + 0x14) (bytesOfNat 4 j)) ⟨rfl, rfl⟩
      (squashReaders_same (w.store (loc + 0x14) (bytesOfNat 4 j)) u.cur _ _)
  exact ((hU.trans hcopy).trans hplace).trans (hstore _)

theorem copyArea_cur (u : State) (cid from_ to_ len : Nat) (es : List TrailEntry) : (u.copyArea cid from_ to_ len es).cur = u.cur :=
  (copyArea_rest u cid from_ to_ len es).cur

theorem placeSectors_cur (u : State) (l : List (Nat × Reg)) : (u.placeSectors (some u.cur) l).cur = u.cur :=
  (placeSectors_same u u.cur l).cur

theorem ofNat_ite_one (c : Prop) [Decidable c] : BitVec.ofNat 64 (if c then 1 else 0) = if c then 1 else 0 := by
  split <;> rfl

/-- The theft of the alternatives from `j` on, when the first of them starts at `t` and the sectors it needs can be had. -/
theorem stealChoice_steals {u U : State} {v off cid loc len own j : Nat} {c : Reg} {av : Arch} {p q : ChoicePoint} {writes : List Nat}
    {t : Word} (hav : av = (u.strand v).committed) (hcid : cid = u.owner (coreOf u.cur)) (hloc : loc = padLoc cid av.cpBase)
    (hp : p = u.choicePoint loc) (hmany : 2 ≤ p.count - p.next) (hlen : c.length = p.area.length)
    (hj : j = p.count - (p.count - p.next + 1) / 2) (hok : u.alternative p.table j = .ok t) (hl : len = c.length)
    (hU : U = u.undoVictim v (theftReads cid av p len)) (hown : own = u.cpLoc u.cur 0) (hq : q = stolen p j c)
    (hwrites : writes = theftWrites cid av own q off len) (hself : v ≠ u.cur)
    (hheld : U.sectorsHeld (some u.cur) (writes ++ theftReads cid av p len) = none) :
    u.stealChoice v off c = .jump ((u.stolenFrom U cid av p j off len own loc q writes).onArch u.cur fun r =>
      r.backTo p t 0 (if j + 1 < p.count then 1 else 0)) := by
  have hsame : SameStrand u.cur u U := hU ▸ undoVictim_same u hself _
  have hcur := (stolenFrom_same u U hsame cid av p j off len own loc q writes).cur
  have hcopy := copyArea_cur U cid p.area.rawBase off len (U.trailDown cid av p.mark)
  have hplace := placeSectors_cur (U.copyArea cid p.area.rawBase off len (U.trailDown cid av p.mark)) (q.at own)
  rw [hcopy, hsame.cur] at hplace
  rw [State.stolenFrom] at hcur ⊢
  rw [State.stealChoice, ← hav, ← hcid, ← hloc, ← hp, if_neg (Nat.not_lt.mpr hmany), if_neg (not_not.mpr hlen), ← hj, ← hl, ← hown]
  -- The locations stay closed from here on: no step turns on what a location is.
  unfold theftReads at hU hheld
  unfold theftWrites at hwrites
  unfold sectorsOf at hU hheld
  rw [← hloc] at hU hheld hwrites
  unfold stolen at hq
  generalize padLoc = place at hU hheld hwrites ⊢
  simp only [hok, ← hU, ← hq, ← hwrites, hheld, hcopy, hsame.cur, hplace, hcur]
  simp only [Arch.backTo, ofNat_ite_one]

/-- The alternatives that a theft takes are the last half, rounded up. -/
theorem lastHalf {count next : Nat} (h : 2 ≤ count - next) :
    next < count - (count - next + 1) / 2 ∧ count - (count - next + 1) / 2 < count := by
  omega

/-! ## tsteal (20 R385, R386) -/

section
variable {s u : State} {x y : BitVec 6} (h : MayEnd false true [] s u)
include h

theorem tsteal_own (hdepth : u.me.cpdepth ≠ 0) : exec (.tsteal x y) s = .next (u.raise s.cur .ill u.me.cpdepth) := by
  rw [← h.cur]
  refine (terminate_of_mayEnd h _).trans ?_
  simp only [if_pos hdepth, Act.settleT]

variable (hdepth : u.me.cpdepth = 0)
include hdepth

theorem tsteal_area {cause : Cause} (harea : u.checkArea (u.me.readG y) = .error cause) :
    exec (.tsteal x y) s = .next (u.raise s.cur cause (u.me.readG y).low) := by
  rw [← h.cur]
  refine (terminate_of_mayEnd h _).trans ?_
  simp only [if_neg (not_not.mpr hdepth), harea, Act.settleT]

variable {off : Nat} (harea : u.checkArea (u.me.readG y) = .ok off)
include harea

theorem tsteal_slots (hslots : u.me.cpSlots = 0) :
    exec (.tsteal x y) s = .next (u.raise s.cur .trailfull (BitVec.ofNat 64 (2 ^ 63))) := by
  rw [← h.cur]
  refine (terminate_of_mayEnd h _).trans ?_
  simp only [if_neg (not_not.mpr hdepth), harea, if_pos hslots, Act.settleT]

variable (hslots : u.me.cpSlots ≠ 0)
include hslots

theorem tsteal_pinned (hpin : ∃ k, u.pinned (dieOf s.cur) = some k ∧ k ≠ s.cur) :
    exec (.tsteal x y) s = .next (u.waiting .instr) := by
  rw [← h.cur] at hpin
  obtain ⟨k, hk, hne⟩ := hpin
  refine (terminate_of_mayEnd h _).trans ?_
  simp only [if_neg (not_not.mpr hdepth), harea, if_neg hslots, hk, Option.any_some, bne_iff_ne, ne_eq, hne, not_false_iff, if_true,
    Act.settleT]

variable (hpin : ∀ k, u.pinned (dieOf s.cur) = some k → k = s.cur)
include hpin

/-- tsteal goes on to look at the victim. -/
theorem tsteal_looks : exec (.tsteal x y) s = .next (if 4 * u.owner (coreOf s.cur) + (u.me.word x).toNat % 4 = s.cur ∨
      (u.strand (4 * u.owner (coreOf s.cur) + (u.me.word x).toNat % 4)).firing.isNone ∨
      (u.strand (4 * u.owner (coreOf s.cur) + (u.me.word x).toNat % 4)).committed.cpdepth = 0 then .done u
    else u.stealChoice (4 * u.owner (coreOf s.cur) + (u.me.word x).toNat % 4) off (u.me.readG y) : Act).settleT := by
  rw [← h.cur] at hpin ⊢
  have hquiet : ((u.pinned (dieOf u.cur)).any fun k => k != u.cur) = false := by
    cases hk : u.pinned (dieOf u.cur) with
    | none => rfl
    | some k =>
      rw [hpin k hk]
      simp
  refine (terminate_of_mayEnd h _).trans ?_
  simp only [if_neg (not_not.mpr hdepth), harea, if_neg hslots, hquiet, Bool.false_eq_true, if_false]

variable {v loc : Nat} {p : ChoicePoint} {av : Arch} (hv : v = 4 * u.owner (coreOf s.cur) + (u.me.word x).toNat % 4)
  (hav : av = (u.strand v).committed) (hloc : loc = padLoc (u.owner (coreOf s.cur)) av.cpBase) (hp : p = u.choicePoint loc)
include hv hav hloc hp

/-- With nothing to take the strand goes on. -/
theorem tsteal_nothing (hnone : v = s.cur ∨ (u.strand v).firing = none ∨ av.cpdepth = 0 ∨ p.count - p.next < 2) :
    ∃ t, exec (.tsteal x y) s = .next t ∧ Ran u t u.me.ended (u.strand s.cur).out := by
  have hexec := tsteal_looks (x := x) h hdepth harea hslots hpin
  rw [← hv] at hexec
  rw [← h.cur] at hloc hexec hnone ⊢
  refine ⟨_, hexec, ?_⟩
  by_cases hidle : v = u.cur ∨ (u.strand v).firing.isNone ∨ (u.strand v).committed.cpdepth = 0
  · rw [if_pos hidle]
    exact ran_end u
  · have hfew : p.count - p.next < 2 := by
      rcases hnone with hself | hfiring | hd | hfew
      · exact absurd (Or.inl hself) hidle
      · exact absurd (Or.inr (Or.inl (by rw [hfiring]; rfl))) hidle
      · exact absurd (Or.inr (Or.inr (hav ▸ hd))) hidle
      · exact hfew
    rw [hp, hloc, hav] at hfew
    rw [if_neg hidle, State.stealChoice]
    simp only [↓if_pos hfew]
    exact ran_end u

variable (hother : v ≠ s.cur) (hfiring : (u.strand v).firing ≠ none) (hpoint : av.cpdepth ≠ 0) (hmany : 2 ≤ p.count - p.next)
include hother hfiring hpoint hmany

omit hloc hp hmany in
theorem tsteal_takes : exec (.tsteal x y) s = .next (u.stealChoice v off (u.me.readG y)).settleT := by
  have hexec := tsteal_looks (x := x) h hdepth harea hslots hpin
  rw [← hv, ← hav] at hexec
  rw [hexec, if_neg]
  rintro (hself | hidle | hd)
  · exact hother hself
  · exact hfiring (Option.isNone_iff_eq_none.mp hidle)
  · exact hpoint hd

theorem tsteal_length (hlen : (u.me.readG y).length ≠ p.area.length) :
    exec (.tsteal x y) s = .next (u.raise s.cur .capbnd (u.me.readG y).low) := by
  rw [tsteal_takes h hdepth harea hslots hpin hv hav hother hfiring hpoint, State.stealChoice]
  rw [← h.cur] at hloc ⊢
  subst hp hloc hav
  simp only [↓if_neg (Nat.not_lt.mpr hmany), ↓if_pos hlen, Act.settleT]

variable {j : Nat} (hj : j = p.count - (p.count - p.next + 1) / 2) (hlen : (u.me.readG y).length = p.area.length)
include hj hlen

theorem tsteal_trap {cause : Cause} {w : Word} (hstop : u.alternative p.table j = .error (.trap cause w)) :
    exec (.tsteal x y) s = .next (u.raise s.cur cause w) := by
  rw [tsteal_takes h hdepth harea hslots hpin hv hav hother hfiring hpoint, State.stealChoice]
  rw [← h.cur] at hloc ⊢
  subst hj hp hloc hav
  simp only [if_neg (Nat.not_lt.mpr hmany), if_neg (not_not.mpr hlen), hstop, Stop.act, Act.settleT]

variable {t : Word} {cid len own : Nat} {U : State} {q : ChoicePoint} {writes : List Nat}
  (hok : u.alternative p.table j = .ok t) (hcid : cid = u.owner (coreOf s.cur)) (hl : len = (u.me.readG y).length)
  (hU : U = u.undoVictim v (theftReads cid av p len)) (hown : own = u.cpLoc s.cur 0) (hq : q = stolen p j (u.me.readG y))
  (hwrites : writes = theftWrites cid av own q off len)
  (hheld : U.sectorsHeld (some s.cur) (writes ++ theftReads cid av p len) = none)
include hok hcid hl hU hown hq hwrites hheld

/-- The theft, as the strand that begins the first alternative taken. -/
theorem exec_tsteal : exec (.tsteal x y) s = .next (Act.jump ((u.stolenFrom U cid av p j off len own loc q writes).onArch u.cur fun r =>
    r.backTo p t 0 (if j + 1 < p.count then 1 else 0))).settleT := by
  rw [tsteal_takes h hdepth harea hslots hpin hv hav hother hfiring hpoint]
  rw [← hcid] at hloc
  rw [← h.cur] at hcid hown hheld hother
  rw [stealChoice_steals hav hcid hloc hp hmany hlen hj hok hl hU hown hq hwrites hother hheld]

/-- The thief takes the last half of the untried alternatives of the victim's oldest point. -/
theorem tsteal_steals : ∃ w, exec (.tsteal x y) s = .next w ∧ Starts u.me (w.arch s.cur) p t ∧ (w.arch s.cur).trTop = 0 ∧
    (w.arch s.cur).cpdepth = (if j + 1 < p.count then 1 else 0) ∧ (w.strand s.cur).wait = .none ∧
    (w.strand s.cur).out = (u.strand s.cur).out ∧
    w.mem = ((((U.copyArea cid p.area.rawBase off len (U.trailDown cid av p.mark)).placeSectors (some s.cur)
      (q.at own)).store (loc + 0x14) (bytesOfNat 4 j)).tookPlace (some s.cur) writes).mem := by
  have hexec := exec_tsteal h hdepth harea hslots hpin hv hav hloc hp hother hfiring hpoint hmany hj hlen hok hcid hl hU hown hq hwrites hheld
  have hregs : p.regs.length = 29 := hp ▸ choicePoint_regs u loc
  rw [← h.cur] at hother ⊢
  have hsame := stolenFrom_same u U (hU ▸ undoVictim_same u hother _) cid av p j off len own loc q writes
  have hmemory : (u.stolenFrom U cid av p j off len own loc q writes).mem =
    ((((U.copyArea cid p.area.rawBase off len (U.trailDown cid av p.mark)).placeSectors (some u.cur)
      (q.at own)).store (loc + 0x14) (bytesOfNat 4 j)).tookPlace (some u.cur) writes).mem := rfl
  rw [← hmemory]
  generalize u.stolenFrom U cid av p j off len own loc q writes = w at hexec hsame
  obtain ⟨harch, hwait, hout, hmem⟩ := settleT_jump hsame fun r => r.backTo p t 0 (if j + 1 < p.count then 1 else 0)
  refine ⟨_, hexec, ?_, ?_, ?_, hwait, hout, hmem⟩
  · rw [harch]
    exact backTo_starts hregs _ _ _ _
  · rw [harch, backTo_trTop hregs]
  · rw [harch, backTo_cpdepth hregs]
    exact ofNat_ite_one _

end

/-- Settles O42: the checks of tsteal in order, and what the thief and the victim hold after a theft. -/
theorem theftTakesTheLastHalf : Obligations.TheftTakesTheLastHalf := by
  unfold Obligations.TheftTakesTheLastHalf
  intro s u x y h
  refine ⟨tsteal_own h, fun hdepth cause harea => tsteal_area h hdepth harea, fun hdepth off harea => ⟨tsteal_slots h hdepth harea,
    tsteal_pinned h hdepth harea, fun hslots hpin v p loc av hv hav hloc hp =>
    ⟨tsteal_nothing h hdepth harea hslots hpin hv hav hloc hp, fun hother hfiring hpoint hmany =>
    ⟨tsteal_length h hdepth harea hslots hpin hv hav hloc hp hother hfiring hpoint hmany, fun j hj hlen => ⟨hj ▸ lastHalf hmany, ?_, ?_⟩⟩⟩⟩⟩
  · exact fun cause w => tsteal_trap h hdepth harea hslots hpin hv hav hloc hp hother hfiring hpoint hmany hj hlen
  · exact fun t cid len U own q writes hok hcid hl hU hown hq hwrites hheld =>
      tsteal_steals h hdepth harea hslots hpin hv hav hloc hp hother hfiring hpoint hmany hj hlen hok hcid hl hU hown hq hwrites hheld

end Sys2Proof.Machine

/-! SUPPORT. The checks of a copy at issue (15 R299, R300). -/

namespace Sys2Proof.Machine

open Sys2Proof Sys2Proof.Claims

/-! ## The checks change only the PLBs (15 R299) -/

theorem sideCheck_cores (s : State) (c : Reg) (dst : Bool) (e : Nat) (lo hi : Int) (aligned : List Int) (val : Word) :
    CoresOnly s (s.sideCheck c dst e lo hi aligned val).1 := by
  unfold State.sideCheck
  dsimp only
  split
  · exact CoresOnly.refl s
  split
  · exact CoresOnly.refl s
  split
  · exact CoresOnly.refl s
  · split
    · exact CoresOnly.refl s
    · split <;> exact CoresOnly.refl s
  · rename_i va _
    have h := plbRange_cores s.cur [.e, if dst then .w else .r] (va + (hi - lo).toNat) ((hi - lo).toNat / 2 ^ 20 + 2) s va
    split
    all_goals
      rename_i e
      rw [e] at h
      exact h

theorem rowChecks_cores (e n : Nat) (l : List Reg) (s : State) : CoresOnly s (s.rowChecks e n l).1 := by
  induction l generalizing s with
  | nil => exact CoresOnly.refl s
  | cons c l ih =>
    have h := sideCheck_cores s c false e c.cursor (c.cursor + n : Nat) [] c.low
    unfold State.rowChecks
    split
    · rename_i hside
      rw [hside] at h
      exact h
    · rename_i v y hside
      rw [hside] at h
      have hrest := h.trans (ih v)
      split
      all_goals
        rename_i hrows
        rw [hrows] at hrest
        exact hrest

theorem dstCheck_cores (s : State) (k : CopyCmd) : CoresOnly s (s.dstCheck k).1 := by
  unfold State.dstCheck
  split
  · exact CoresOnly.refl s
  · rename_i lo hi _
    have h := sideCheck_cores s k.dst true (2 ^ k.esz) lo hi ((k.dst.cursor : Int) :: k.dstride) (intWord lo)
    split
    all_goals
      rename_i hside
      rw [hside] at h
      exact h

theorem srcCheck_cores (s : State) (k : CopyCmd) : CoresOnly s (s.srcCheck k).1 := by
  unfold State.srcCheck
  dsimp only
  split
  · split
    · exact CoresOnly.refl s
    have h := recordArea_cores s k.src (16 * k.valids.getD 1 0) 16 [permLD, permLDC] false true
    split
    · rename_i harea
      rw [harea] at h
      exact h
    · rename_i v l harea
      rw [harea] at h
      split
      · exact h
      have hrows := h.trans (rowChecks_cores (2 ^ k.esz) (2 ^ k.esz * k.valids.headD 0) (l.map v.sectorAt) v)
      split
      all_goals
        rename_i hchecked
        rw [hchecked] at hrows
        exact hrows
  · split
    · exact CoresOnly.refl s
    · rename_i lo hi _
      have h := sideCheck_cores s k.src false (2 ^ k.esz) lo hi ((k.src.cursor : Int) :: k.sstride) (intWord lo)
      split
      all_goals
        rename_i hside
        rw [hside] at h
        exact h

theorem readShape_cores (s : State) (g : Bool) (c : Reg) : CoresOnly s (s.readShape g c).1 := by
  have h := recordArea_cores s c 64 16 [permLD] false true
  unfold State.readShape
  split
  · rename_i harea
    rw [harea] at h
    exact h
  · rename_i v l harea
    rw [harea] at h
    split
    · exact h
    dsimp only
    split
    · exact h
    have htarget := h.trans (recordArea_cores v c 80 16 [permLD, permLDC] false true)
    split
    · rename_i harea
      rw [harea] at htarget
      exact htarget
    · rename_i harea
      rw [harea] at htarget
      split <;> exact htarget

theorem CoresOnly.rest {s t : State} (h : CoresOnly s t) : { t with cores := s.cores } = s := by
  obtain ⟨c, rfl⟩ := h
  rfl

/-! ## The checks after the shape, in order (15 R299) -/

section
variable {u v w : State} {k : CopyCmd} {d : List (Nat × Int × Int)} {r : List (Nat × Int × Int) × List Reg}

theorem issueCopy_dst {cause : Cause} {val : Word} (hdst : u.dstCheck k = (v, .error (.trap cause val))) :
    (u.issueCopy k).settleT = v.raise u.cur cause val := by
  have hcur : v.cur = u.cur := by simpa [hdst] using (dstCheck_cores u k).cur
  simp only [State.issueCopy, hdst, Stop.act, Act.settleT, hcur]

variable (hdst : u.dstCheck k = (v, .ok d))
include hdst

theorem issueCopy_src {cause : Cause} {val : Word} (hsrc : v.srcCheck k = (w, .error (.trap cause val))) :
    (u.issueCopy k).settleT = w.raise u.cur cause val := by
  have hv : CoresOnly u v := by simpa [hdst] using dstCheck_cores u k
  have hw : CoresOnly v w := by simpa [hsrc] using srcCheck_cores v k
  simp only [State.issueCopy, hdst, hsrc, Stop.act, Act.settleT, (hv.trans hw).cur]

variable (hsrc : v.srcCheck k = (w, .ok r))
include hsrc

theorem checked_cores : CoresOnly u w := by
  have hv : CoresOnly u v := by simpa [hdst] using dstCheck_cores u k
  have hw : CoresOnly v w := by simpa [hsrc] using srcCheck_cores v k
  exact hv.trans hw

theorem issueCopy_tried (htry : k.dst.perm permTRY = true) (hdepth : u.me.cpdepth ≠ 0) :
    (u.issueCopy k).settleT = w.raise u.cur .capperm k.dst.low := by
  have hw := checked_cores hdst hsrc
  have hsearch : (k.dst.perm permTRY && w.me.cpdepth != 0) = true := by
    rw [htry, hw.me]
    simpa using hdepth
  simp only [State.issueCopy, hdst, hsrc, hsearch, if_true, Act.settleT, hw.cur]

variable (htry : k.dst.perm permTRY = false ∨ u.me.cpdepth = 0)
include htry

theorem not_searching : (k.dst.perm permTRY && w.me.cpdepth != 0) = false := by
  rw [(checked_cores hdst hsrc).me]
  rcases htry with htry | hdepth
  · rw [htry, Bool.false_and]
  · rw [hdepth]
    exact Bool.and_false _

theorem issueCopy_range (hover : ∃ x ∈ d, (∃ y ∈ r.1, overlapSpan x y = true) ∨
      ∃ b ∈ (w.quire (quireOf u.cur)).dir, overlapSpan x (b.cid + 1, (b.off : Int), (b.off : Int) + 16) = true) :
    (u.issueCopy k).settleT = w.raise u.cur .range (BitVec.ofInt 64 (((k.span true k.dst.cursor).map (·.1)).getD 0)) := by
  have hcur := (checked_cores hdst hsrc).cur
  have hsome : (d.any fun x => r.1.any (overlapSpan x) || (w.quire (quireOf u.cur)).dir.any fun b =>
      overlapSpan x (b.cid + 1, (b.off : Int), (b.off : Int) + 16)) = true := by
    simpa [List.any_eq_true] using hover
  simp only [State.issueCopy, hdst, hsrc, not_searching hdst hsrc htry, Bool.false_eq_true, if_false, hcur, hsome, if_true, Act.settleT,
    intWord]

variable (hapart : ∀ x ∈ d, (∀ y ∈ r.1, overlapSpan x y = false) ∧
  ∀ b ∈ (w.quire (quireOf u.cur)).dir, overlapSpan x (b.cid + 1, (b.off : Int), (b.off : Int) + 16) = false)
include hapart

omit hdst hsrc htry in
theorem no_overlap : (d.any fun x => r.1.any (overlapSpan x) || (w.quire (quireOf u.cur)).dir.any fun b =>
    overlapSpan x (b.cid + 1, (b.off : Int), (b.off : Int) + 16)) = false := by
  simpa [List.any_eq_false] using hapart

theorem issueCopy_target {cause : Cause} {val : Word} (htarget : w.targetCheck k = some (.trap cause val)) :
    (u.issueCopy k).settleT = w.raise u.cur cause val := by
  have hcur := (checked_cores hdst hsrc).cur
  simp only [State.issueCopy, hdst, hsrc, not_searching hdst hsrc htry, Bool.false_eq_true, if_false, hcur, no_overlap hapart, htarget,
    Stop.act, Act.settleT]

variable (htarget : w.targetCheck k = none)
include htarget

theorem issueCopy_stores (hoff : (d ++ r.1).any w.sideOff = true) (hout : w.storesOut u.cur 2 = true) :
    (u.issueCopy k).settleT = w.waiting .instr := by
  have hcur := (checked_cores hdst hsrc).cur
  simp only [State.issueCopy, hdst, hsrc, not_searching hdst hsrc htry, Bool.false_eq_true, if_false, hcur, no_overlap hapart, htarget,
    hoff, hout, Bool.and_self, if_true, Act.settleT]

/-- A command that passes waits for its slot. -/
theorem issueCopy_waits (hready : (d ++ r.1).any w.sideOff = false ∨ w.storesOut u.cur 2 = false) :
    (u.issueCopy k).settleT = w.bump.waiting (.copySlot { k with
      seq := u.serial, cid := coreOf u.cur, sid := u.cur, gang := u.me.gangNo, group := u.me.group, rows := r.2 }) := by
  have hw := checked_cores hdst hsrc
  have hserial : w.serial = u.serial := by
    obtain ⟨c, hc⟩ := hw
    rw [hc]
  have hnow : ((d ++ r.1).any w.sideOff && w.storesOut u.cur 2) = false := by
    rcases hready with h | h <;> simp [h]
  have hplain := not_searching hdst hsrc htry
  rw [hw.me] at hplain
  simp only [State.issueCopy, hdst, hsrc, hplain, Bool.false_eq_true, if_false, hw.cur, no_overlap hapart, htarget, hnow, Act.settleT,
    hw.me, hserial]

end

/-- A strand that waits keeps its registers. -/
theorem waiting_regs (s : State) (w : Wait) :
    (∀ n, ((s.waiting w).arch s.cur).readG n = s.me.readG n) ∧ ((s.waiting w).arch s.cur).pcc = s.me.pcc := by
  refine ⟨fun n => ?_, ?_⟩
  · simp [State.waiting, State.onStrand, State.arch, State.me]
    split <;> simp
  · simp [State.waiting, State.onStrand, State.arch, State.me]
    split <;> rfl

/-- The checks of a command in order. -/
theorem copyGoes (u : State) (k : CopyCmd) : CopyGoes u k (.next (u.issueCopy k).settleT) := by
  refine ⟨fun v cause val hdst => congrArg _ (issueCopy_dst hdst), fun v w d cause val hdst hsrc => congrArg _ (issueCopy_src hdst hsrc),
    fun v w d r hdst hsrc htry hdepth => congrArg _ (issueCopy_tried hdst hsrc htry hdepth),
    fun v w d r hdst hsrc htry hover => congrArg _ (issueCopy_range hdst hsrc htry hover),
    fun v w d r cause val hdst hsrc htry hapart htarget => congrArg _ (issueCopy_target hdst hsrc htry hapart htarget),
    fun v w d r hdst hsrc htry hapart htarget => ⟨fun hoff hout =>
      congrArg _ (issueCopy_stores hdst hsrc htry hapart htarget hoff hout), fun hready => ⟨_,
      congrArg _ (issueCopy_waits hdst hsrc htry hapart htarget hready), ?_⟩⟩⟩
  obtain ⟨c, rfl⟩ := checked_cores hdst hsrc
  generalize Wait.copySlot _ = wait
  obtain ⟨hothers, hwait, hrest⟩ := waiting_eq ({ u with cores := c } : State).bump wait
  obtain ⟨hregs, hpc⟩ := waiting_regs ({ u with cores := c } : State).bump wait
  exact ⟨hwait, hregs, hpc, hothers, congrArg (fun t : State => { t with serial := u.serial, cores := u.cores }) hrest⟩

/-- Settles O32, from the checks in order and what each leaves of the state. -/
theorem copiesAreCheckedAndWaitForASlot : Obligations.CopiesAreCheckedAndWaitForASlot := by
  unfold Obligations.CopiesAreCheckedAndWaitForASlot
  refine ⟨fun s u x y z g h => ⟨fun v cause val hshape => ?_, fun v k hshape => ⟨?_, ?_⟩⟩, fun s u x y z h => ⟨fun hn => ?_, fun hlow hhigh => ?_⟩⟩
  · have hcur : v.cur = s.cur := by
      rw [← h.cur]
      simpa [hshape] using (readShape_cores u g (u.me.readG z)).cur
    rw [← hcur]
    cases g
    · refine (terminate_of_mayEnd h _).trans ?_
      simp only [hshape, Stop.act, Act.settleT]
    · refine (terminate_of_mayEnd h _).trans ?_
      simp only [hshape, Stop.act, Act.settleT]
  · have hv : CoresOnly u v := by simpa [hshape] using readShape_cores u g (u.me.readG z)
    rw [← hv.me]
    cases g
    · have hexec : exec (.cpT x y z) s = .next (v.issueCopy { k with dst := v.me.readG x, src := v.me.readG y }).settleT :=
        (terminate_of_mayEnd h _).trans (by simp only [hshape])
      exact hexec ▸ copyGoes v _
    · have hexec : exec (.cpG x y z) s = .next (v.issueCopy { k with dst := v.me.readG x, src := v.me.readG y }).settleT :=
        (terminate_of_mayEnd h _).trans (by simp only [hshape])
      exact hexec ▸ copyGoes v _
  · have hv : CoresOnly u v := by simpa [hshape] using readShape_cores u g (u.me.readG z)
    exact hv.rest
  · rw [← h.cur]
    refine (terminate_of_mayEnd h _).trans ?_
    simp only [if_pos hn, Act.settleT]
  · have hn : ¬ ((u.me.word z).toNat = 0 ∨ 2 ^ 24 < (u.me.word z).toNat) := by omega
    have hexec : exec (.cpB x y z) s =
        .next (u.issueCopy { blockShape (u.me.word z).toNat with dst := u.me.readG x, src := u.me.readG y }).settleT :=
      (terminate_of_mayEnd h _).trans (by simp only [if_neg hn])
    exact hexec ▸ copyGoes u _

end Sys2Proof.Machine

/-! SUPPORT. Copies accepted, moved and completed (15 R279, R285, R287, R301, R302). -/

namespace Sys2Proof.Machine

open Sys2Proof Sys2Proof.Claims

/-! ## COPY_ACCEPT (15 R279, R288, R299) -/

/-- The lowest slot that no command holds. -/
theorem freeSlot_eq {q : Quire} {n : Nat} (hn : n < 16) (hfree : ∀ c ∈ q.cmds, c.slot ≠ n) (hlower : ∀ j < n, ∃ c ∈ q.cmds, c.slot = j) :
    ((List.range 16).find? fun n => !q.cmds.any (·.slot == n)).getD 0 = n := by
  have hfind : (List.range 16).find? (fun n => !q.cmds.any (·.slot == n)) = some n :=
    List.find?_range_eq_some.mpr ⟨by simpa using hfree, List.mem_range.mpr hn, fun j hj => by simpa using hlower j hj⟩
  rw [hfind, Option.getD_some]

/-- A quire with one more command and its locks. -/
def Quire.taking (k : CopyCmd) (locks : List Lock) (q : Quire) : Quire := { q with cmds := q.cmds ++ [k], locks := q.locks ++ locks }

/-- A waiting command that came first takes its slot and its locks, and its instruction is complete. -/
theorem copyAccept_takes {s : State} {sid n : Nat} {k : CopyCmd} {q : Quire} (hsid : sid = s.argN 0) (hq : q = s.quire (quireOf sid))
    (hk : (s.strand sid).command = some k)
    (hfirst : ∀ j ∈ (coresOf (quireOf sid)).flatMap strandsOf, ∀ c, (s.strand j).command = some c → k.seq ≤ c.seq)
    (hroom : q.cmds.length < 16) (hn : n < 16) (hfree : ∀ c ∈ q.cmds, c.slot ≠ n) (hlower : ∀ j < n, ∃ c ∈ q.cmds, c.slot = j)
    (hlocks : q.locks.length + (s.locksOf { k with slot := n }).length ≤ 32) :
    ∃ t, exec .copyAccept s = .next t ∧ (t.quire (quireOf sid)).cmds = q.cmds ++ [{ k with slot := n }] ∧
      (t.quire (quireOf sid)).locks = q.locks ++ s.locksOf { k with slot := n } ∧ (t.strand sid).wait = .none ∧
      t.arch sid = (s.arch sid).ended ∧ (∀ j, j ≠ sid → t.strand j = s.strand j) ∧
      { t with strands := s.strands, quires := s.quires } = s := by
  have hslot := freeSlot_eq hn hfree hlower
  have hexec : exec .copyAccept s = .next { (Act.done { s.onQuire (quireOf sid) (Quire.taking { k with slot := n } (s.locksOf { k with slot := n })) with cur := sid }).settleT with
        cur := s.cur } := by
    show execCopyAccept s = _
    rw [hq] at hslot hroom hlocks
    simp only [execCopyAccept, ← hsid, hk, hslot]
    refine if_neg fun hwaits => ?_
    rcases (Bool.or_eq_true _ _).mp hwaits with hlate | hlate
    · rcases (Bool.or_eq_true _ _).mp hlate with hlate | hlate
      · refine absurd (List.all_eq_true.mpr fun j hj => ?_) (Bool.not_eq_true _ ▸ (Bool.not_eq_true' _).mp hlate)
        split
        · rename_i c hc
          exact decide_eq_true (hfirst j hj c hc)
        · rfl
      · exact absurd (of_decide_eq_true hlate) (by omega)
    · exact absurd (of_decide_eq_true hlate) (by omega)
  obtain ⟨harch, hwait, hrest, hothers, hkept⟩ := settleT_done (v := { s.onQuire (quireOf sid) (Quire.taking { k with slot := n } (s.locksOf { k with slot := n })) with cur := sid })
  refine ⟨_, hexec, ?_, ?_, hwait, harch, hothers, ?_⟩
  · rw [hq]
    exact congrArg Quire.cmds (State.quire_onQuire_self s (quireOf sid)
      (Quire.taking { k with slot := n } (s.locksOf { k with slot := n })))
  · rw [hq]
    exact congrArg Quire.locks (State.quire_onQuire_self s (quireOf sid)
      (Quire.taking { k with slot := n } (s.locksOf { k with slot := n })))
  · exact congrArg (fun t : State => { t with strands := s.strands, quires := s.quires, cur := s.cur }) hkept

/-! ## COPY_COMPLETE (15 R279 to R286) -/

section
variable {s t : State} {before : List CopyCmd} {c x : CopyCmd} (hc : (s.quire (s.argN 0)).command (s.argN 1) = some (before, c))

theorem readRun_progress (h : s.readRun before c = .moved t x) : x.at_ = c.at_ ∧ x.total = c.total ∧ c.at_ < c.total := by
  unfold State.readRun at h
  dsimp only at h
  split at h
  · cases h
  rename_i hopen
  have hlow : c.at_ < c.total := by
    simp only [Bool.or_eq_true, decide_eq_true_eq, not_or] at hopen
    have := hopen.1
    unfold CopyCmd.reads at this
    omega
  split at h
  · cases h
    exact ⟨rfl, rfl, hlow⟩
  split at h
  · cases h
  split at h
  · cases h
  · cases h
    exact ⟨rfl, rfl, hlow⟩

include hc

theorem copyComplete_reads (hreads : s.argN 2 = 1) (hwrites : s.argN 3 = 0) (h : s.readRun before c = .moved t x) :
    exec .copyComplete s = .next (t.putCommand (s.argN 0) x) := by
  obtain ⟨hat, htotal, hlow⟩ := readRun_progress h
  have hopen : ¬ (x.total ≤ x.at_ ∧ before = []) := by omega
  show execCopyComplete s = _
  simp only [execCopyComplete, hc, hreads, hwrites, moveSome, h, if_neg hopen]

theorem copyComplete_writes (hreads : s.argN 2 = 0) (hwrites : s.argN 3 = 1) (h : s.writeRun before c = .moved t x) :
    exec .copyComplete s = .next
      (if x.total ≤ x.at_ ∧ before = [] then ((t.putCommand (s.argN 0) x).dropCommand (s.argN 0) c.slot).sendCompletion x
       else t.putCommand (s.argN 0) x) := by
  show execCopyComplete s = _
  simp only [execCopyComplete, hc, hreads, hwrites, moveSome, h]
  split <;> rfl

end

theorem dropCommand_keeps (s : State) (qid slot : Nat) :
    (∀ c ∈ ((s.dropCommand qid slot).quire qid).cmds, c.slot ≠ slot ∧ c ∈ (s.quire qid).cmds) ∧
    (∀ l ∈ ((s.dropCommand qid slot).quire qid).locks, l.slot ≠ slot ∧ l ∈ (s.quire qid).locks) := by
  rw [State.dropCommand, State.quire_onQuire_self]
  refine ⟨fun c hc => ?_, fun l hl => ?_⟩
  · obtain ⟨hmem, hslot⟩ := List.mem_filter.mp hc
    exact ⟨by simpa using hslot, hmem⟩
  · obtain ⟨hmem, hslot⟩ := List.mem_filter.mp hl
    exact ⟨by simpa using hslot, hmem⟩

/-! ## COPY_FAULT (15 R287) -/

section
variable {s : State} {c : CopyCmd} {ix : List Nat} {code va : Nat}

/-- What stops the engine at the next element of a command. -/
def Stops (s : State) (c : CopyCmd) (ix : List Nat) (code va : Nat) : Prop :=
  (c.buf = [] ∧ s.readRun [] c = .failed code va) ∨ (c.buf ≠ [] ∧ s.writeRun [] c = .failed code va) ∨
    (c.buf = [] ∧ (∀ k a, s.readRun [] c ≠ .failed k a) ∧ s.argN 2 = 1 ∧ c.edge ix = false ∧ code = 5 ∧ va = c.srcAt ix)

theorem copyStop_of_stops (hix : ix = indices c.counts c.at_) (hat : c.at_ < c.total) (h : Stops s c ix code va) :
    s.copyStop c (s.argN 2 == 1) = some (s, code, va) := by
  unfold State.copyStop
  rw [if_neg (Nat.not_le.mpr hat)]
  rcases h with ⟨hbuf, hread⟩ | ⟨hbuf, hwrite⟩ | ⟨hbuf, hread, hbad, hedge, rfl, rfl⟩
  · simp only [hbuf, ne_eq, not_true_eq_false, if_false, hread]
  · simp only [hbuf, ne_eq, not_false_eq_true, if_true, hwrite]
  · have hreads : c.reads = c.at_ := by rw [CopyCmd.reads, hbuf]; rfl
    rw [hix, ← hreads] at hedge
    have hnext : c.reads < c.total := hreads ▸ hat
    cases hresult : s.readRun [] c with
    | failed k a => exact absurd hresult (hread k a)
    | moved t x =>
      simp only [hbuf, ne_eq, not_true_eq_false, if_false, hbad, hedge, hnext, List.length_nil, moveSome, beq_self_eq_true,
        Bool.not_false, and_self, if_true, hix, ← hreads]
    | held =>
      simp only [hbuf, ne_eq, not_true_eq_false, if_false, hbad, hedge, hnext, List.length_nil, moveSome, beq_self_eq_true,
        Bool.not_false, and_self, if_true, hix, ← hreads]

end

/-- A report and an ENGFAULT change strands and the Bindery alone. -/
def ReportOnly (s t : State) : Prop := ∃ a b, t = { s with strands := a, bindery := b } ∧ b.package = s.bindery.package

theorem engFault_only (s : State) (sid gang : Nat) (live : Bool) (val : Word) : ReportOnly s (s.engFault sid gang live val) := by
  unfold State.engFault
  dsimp only
  split
  · exact ⟨_, s.bindery, rfl, rfl⟩
  split
  · exact ⟨s.strands, _, rfl, rfl⟩
  · exact ⟨s.strands, s.bindery, rfl, rfl⟩

/-- ENGFAULT pends on the strand that issued the command, if it still holds its firing. -/
theorem engFault_pends {s : State} {sid gang : Nat} {val : Word} (hfiring : (s.strand sid).firing.isSome = true)
    (hgang : (s.arch sid).gangNo = gang) (hhere : s.gangAway gang (coreOf sid) = false) :
    ((s.engFault sid gang true val).strand sid).engfault = (s.strand sid).engfault ++ [val] := by
  have hmine : (true && (s.strand sid).firing.isSome && (s.strand sid).arch.gangNo == gang && !s.gangAway gang (coreOf sid)) = true := by
    have hgang : (s.strand sid).arch.gangNo = gang := hgang
    rw [hfiring, hgang, hhere, beq_self_eq_true]
    rfl
  unfold State.engFault
  dsimp only
  rw [if_pos hmine, State.strand_setStrand_self]

theorem targetLost_near {s : State} {gang loc : Nat} (h : ∀ d, homeDie (s.real loc) = some d → (s.die d).fenced = false) :
    s.targetLost gang loc = s := by
  unfold State.targetLost
  split
  · rename_i d hd
    rw [h d hd]
    rfl
  · rfl

section
variable {s : State} {c : CopyCmd} {code va : Nat} (hc : (s.quire (s.argN 0)).command (s.argN 1) = some ([], c))
  (hstop : s.copyStop c (s.argN 2 == 1) = some (s, code, va)) (haction : c.action ≠ 1)
include hc hstop haction

/-- The oldest command leaves the engine at its first failing element. -/
theorem exec_copyFault : exec .copyFault s = .next ((((s.dropCommand (s.argN 0) c.slot).engFault c.sid c.gang c.live (engValue code va)).eventOf
    c.sid c.gang c.group 3 Cause.engfault.code (engValue code va)).targetLost c.gang (s.copyLoc c.cid va)) := by
  show execCopyFault s = _
  simp only [execCopyFault, hc, hstop]
  split
  · rename_i hone _
    exact absurd hone haction
  · rfl

theorem copyFault_leaves (hnear : ∀ d, homeDie (s.real (s.copyLoc c.cid va)) = some d → (s.die d).fenced = false) :
    ∃ t, exec .copyFault s = .next t ∧
      (∀ x ∈ (t.quire (s.argN 0)).cmds, x.slot ≠ c.slot) ∧ (∀ x ∈ (t.quire (s.argN 0)).locks, x.slot ≠ c.slot) ∧
      (c.live = true → (s.strand c.sid).firing.isSome = true → (s.arch c.sid).gangNo = c.gang →
        s.gangAway c.gang (coreOf c.sid) = false →
        (t.strand c.sid).engfault = (s.strand c.sid).engfault ++ [BitVec.ofNat 64 (code * 2 ^ 60 + va % 2 ^ 56)]) ∧
      t.mem = s.mem ∧ t.tags = s.tags := by
  have hexec := exec_copyFault hc hstop haction
  obtain ⟨hcmds, hlocks⟩ := dropCommand_keeps s (s.argN 0) c.slot
  have hpends : c.live = true → (s.strand c.sid).firing.isSome = true → (s.arch c.sid).gangNo = c.gang →
      s.gangAway c.gang (coreOf c.sid) = false → (((s.dropCommand (s.argN 0) c.slot).engFault c.sid c.gang c.live
        (engValue code va)).strand c.sid).engfault = (s.strand c.sid).engfault ++ [engValue code va] := by
    intro hlive hfiring hgang hhere
    rw [hlive]
    exact engFault_pends (s := s.dropCommand (s.argN 0) c.slot) hfiring hgang hhere
  have hleft := engFault_only (s.dropCommand (s.argN 0) c.slot) c.sid c.gang c.live (engValue code va)
  generalize (s.dropCommand (s.argN 0) c.slot).engFault c.sid c.gang c.live (engValue code va) = w at hexec hpends hleft
  obtain ⟨a, b, hw, hpackage⟩ := hleft
  have hnear' : ∀ d, homeDie ((w.eventOf c.sid c.gang c.group 3 Cause.engfault.code (engValue code va)).real (s.copyLoc c.cid va)) = some d →
      ((w.eventOf c.sid c.gang c.group 3 Cause.engfault.code (engValue code va)).die d).fenced = false := by
    have hreal (loc : Nat) : (w.eventOf c.sid c.gang c.group 3 Cause.engfault.code (engValue code va)).real loc = s.real loc := by
      rw [State.real, State.real, hw]
      exact congrArg (fun p => if isForeign loc && loc / 2 ^ 45 % 64 == p then loc % 2 ^ 45 else loc) hpackage
    have hdie (d : Nat) : (w.eventOf c.sid c.gang c.group 3 Cause.engfault.code (engValue code va)).die d = s.die d := by
      rw [hw]
      rfl
    intro d hd
    rw [hreal] at hd
    rw [hdie]
    exact hnear d hd
  rw [targetLost_near hnear'] at hexec
  refine ⟨_, hexec, fun x hx => (hcmds x ?_).1, fun x hx => (hlocks x ?_).1, hpends, ?_, ?_⟩
  · rw [hw] at hx
    exact hx
  · rw [hw] at hx
    exact hx
  · rw [hw]
    rfl
  · rw [hw]
    rfl

end

/-! ## The completion action (15 R285) -/

theorem sendCompletion_bytes {s : State} {c : CopyCmd} {cid off : Nat} (hbarrier : s.barrierAt c.cid c.target = some (cid, off))
    (haction : c.action = 1) :
    s.sendCompletion c = s.sendAction c.cid c.sid (s.commandScope c) (.bytes c.gang cid off c.bytes) := by
  simp only [State.sendCompletion, haction, hbarrier]

theorem sendCompletion_record {s : State} {c : CopyCmd} {cid off : Nat} (hplace : s.place c.cid c.target.cursor = .pad cid 0 off) :
    (c.action = 2 → s.sendCompletion c =
      s.sendAction c.cid c.sid (s.commandScope c) (.cdec c.sid c.gang (mkRef cid off) (c.arg.extractLsb' 0 32).toInt)) ∧
    (c.action = 3 → s.sendCompletion c =
      s.sendAction c.cid c.sid (s.commandScope c) (.push (some c.sid) c.gang (mkRef cid off) c.arg (cid == c.cid))) := by
  refine ⟨fun haction => ?_, fun haction => ?_⟩
  · simp only [State.sendCompletion, haction, hplace, if_true]
  · simp only [State.sendCompletion, haction, hplace, show ¬ (3 = 2) by decide, if_false]

/-! ## cp.wait and cp.st (15 R301, R302) -/

section
variable {s u : State} {x : BitVec 6} (h : MayEnd false false [.g x] s u)
include h

section
variable (hmode : u.me.smode = true) (hgang : (u.me.word x).getLsbD 8 = true)
include hmode hgang

theorem cpWait_owes (howes : ∃ c ∈ (u.quire (quireOf s.cur)).cmds, c.gang = u.me.gangNo ∧ u.owed c = true) :
    exec (.cpWait x) s = .next (u.waiting .instr) := by
  have hany : ((u.quire (quireOf u.cur)).cmds.any fun c => c.gang == u.me.gangNo && u.owed c) = true := by
    rw [← h.cur] at howes
    simpa using howes
  refine (terminate_of_mayEnd h _).trans ?_
  simp only [hmode, hgang, Bool.and_self, if_true, hany, Act.settleT]

theorem cpWait_settled (hnone : ∀ c ∈ (u.quire (quireOf s.cur)).cmds, c.gang = u.me.gangNo → u.owed c = false) :
    ∃ t, exec (.cpWait x) s = .next t ∧ Ran u t u.me.ended (u.strand s.cur).out := by
  rw [← h.cur] at hnone ⊢
  have hany : ((u.quire (quireOf u.cur)).cmds.any fun c => c.gang == u.me.gangNo && u.owed c) = false := by simpa using hnone
  refine ⟨_, (terminate_of_mayEnd h _).trans ?_, ran_end u⟩
  simp only [hmode, hgang, Bool.and_self, if_true, hany, Bool.false_eq_true, if_false]

end

variable (hown : u.me.smode = false ∨ (u.me.word x).getLsbD 8 = false)
include hown

omit h in
theorem not_gangForm : (u.me.smode && (u.me.word x).getLsbD 8) = false := by
  rcases hown with h | h
  · rw [h, Bool.false_and]
  · rw [h, Bool.and_false]

theorem cpWait_done (hfew : u.commands s.cur ≤ (u.me.word x).toNat % 32) :
    ∃ t, exec (.cpWait x) s = .next t ∧ Ran u t u.me.ended (u.strand s.cur).out := by
  rw [← h.cur] at hfew ⊢
  refine ⟨_, (terminate_of_mayEnd h _).trans ?_, ran_end u⟩
  simp only [not_gangForm hown, Bool.false_eq_true, if_false, if_neg (Nat.not_lt.mpr hfew)]

theorem cpWait_waits (hmany : (u.me.word x).toNat % 32 < u.commands s.cur) : exec (.cpWait x) s = .next (u.waiting .instr) := by
  rw [← h.cur] at hmany
  refine (terminate_of_mayEnd h _).trans ?_
  simp only [not_gangForm hown, Bool.false_eq_true, if_false, if_pos hmany, Act.settleT]

end

section
variable {s u : State} {x y : BitVec 6} (h : MayEnd false false [.g y, .g x] s u)
include h

theorem cpSt_bad (hsel : 2 ≤ (u.me.word y).toNat) : exec (.cpSt x y) s = .next (u.raise s.cur .ill (u.me.word y)) := by
  obtain ⟨n, hn⟩ := Nat.exists_eq_add_of_le' hsel
  rw [← h.cur]
  refine (terminate_of_mayEnd h _).trans ?_
  simp only [hn, Act.settleT]

theorem cpSt_gives {r : Reg} (hsel : ((u.me.word y).toNat = 0 ∧ r = .data (BitVec.ofNat 64 (u.commands s.cur % 32 +
        (16 - (u.quire (quireOf s.cur)).cmds.length) * 2 ^ 8 + (32 - (u.quire (quireOf s.cur)).locks.length) * 2 ^ 16))) ∨
      ((u.me.word y).toNat = 1 ∧ r = u.quireCap)) :
    ∃ t chunk, exec (.cpSt x y) s = .next t ∧ Ran u t u.me.ended ((u.strand s.cur).out ++
      [left u chunk [.g x] (.ready [.g x r] Flags.none)]) := by
  rw [← h.cur] at hsel ⊢
  refine ⟨_, _, (terminate_of_mayEnd h _).trans ?_, ran_end_pending u [.g x] (.ready [.g x r] Flags.none)⟩
  rcases hsel with ⟨hsel, rfl⟩ | ⟨hsel, rfl⟩
  · simp only [hsel]
  · simp only [hsel]

end

/-- Settles O34, from COPY_ACCEPT, the engine's events, the completion action, cp.wait and cp.st. -/
theorem copiesAreAcceptedMovedAndCompleted : Obligations.CopiesAreAcceptedMovedAndCompleted := by
  unfold Obligations.CopiesAreAcceptedMovedAndCompleted
  refine ⟨fun s sid n k q hsid hq hk hfirst hroom hn hfree hlower hlocks =>
      copyAccept_takes hsid hq hk hfirst hroom hn hfree hlower hlocks, ?_, dropCommand_keeps, fun s c cid off => sendCompletion_bytes,
    fun s c cid off => sendCompletion_record, fun s u x h hmode hgang => ⟨cpWait_owes h hmode hgang, cpWait_settled h hmode hgang⟩,
    fun s u x h hown => ⟨cpWait_done h hown, cpWait_waits h hown⟩, fun s u x y h => ⟨cpSt_bad h, fun r => cpSt_gives h⟩⟩
  intro s t before c x hc
  refine ⟨copyComplete_reads hc, copyComplete_writes hc, fun ix code va hix hbefore hat haction hstop hnear => ?_⟩
  subst hbefore
  exact copyFault_leaves hc (copyStop_of_stops hix hat hstop) haction hnear

end Sys2Proof.Machine

/-! SUPPORT. The end of a gang, its timeout and KILL (21 R396, R398). -/

namespace Sys2Proof.Machine

open Sys2Proof Sys2Proof.Claims

/-! ## The end and the timeout of a gang (21 R398) -/

section
variable {s : State} {l : Launch} (hl : s.launch (s.argN 0) = some l)
include hl

theorem gangEnd_over (hstarted : l.started = true) (hover : s.gangOver l = true) :
    exec .gangEnd s = .next ((s.dropLaunch l).gangEvent l 4) := by
  show execGangEnd s = _
  simp only [execGangEnd, hl, hstarted, hover, Bool.and_self, if_true]

theorem gangEnd_goesOn (h : l.started = false ∨ s.gangOver l = false) : exec .gangEnd s = .next s := by
  have hnot : (l.started && s.gangOver l) = false := by rcases h with h | h <;> simp [h]
  show execGangEnd s = _
  simp only [execGangEnd, hl, hnot, Bool.false_eq_true, if_false]

theorem gangTimeout_passed (hstarted : l.started = true) (hkilled : l.killed = false) (hlate : 1000 * l.timeout ≤ s.now - l.start) :
    exec .gangTimeout s = .next ((s.killGang l.gang).gangEvent l 5) := by
  show execGangTimeout s = _
  simp only [execGangTimeout, hl, hstarted, hkilled, decide_eq_true hlate, Bool.not_false, Bool.and_self, if_true]

theorem gangTimeout_goesOn (h : l.started = false ∨ l.killed = true ∨ s.now - l.start < 1000 * l.timeout) :
    exec .gangTimeout s = .next s := by
  have hnot : (l.started && !l.killed && decide (1000 * l.timeout ≤ s.now - l.start)) = false := by
    rcases h with h | h | h
    · simp [h]
    · simp [h]
    · simp [h]
  show execGangTimeout s = _
  simp only [execGangTimeout, hl, hnot, Bool.false_eq_true, if_false]

end

theorem gangEvents_unknown {s : State} {i : Instr} (hl : s.launch (s.argN 0) = none) (hi : i = .gangEnd ∨ i = .gangTimeout) :
    exec i s = .next s := by
  rcases hi with rfl | rfl
  · show execGangEnd s = _
    simp only [execGangEnd, hl]
  · show execGangTimeout s = _
    simp only [execGangTimeout, hl]

/-- What a gang that is over has left behind. -/
theorem gangOver_left {s : State} {l : Launch} (h : s.gangOver l = true) :
    (∀ cid ∈ l.allCores, (s.core cid).gang = some l.gang → dqCount (s.core cid).dqstate = 0 ∧ (s.core cid).mq = [] ∧
      ∀ sid ∈ strandsOf cid, (s.strand sid).firing = none ∧ (s.strand sid).out = []) ∧
    l.saved = [] ∧ (∀ x ∈ l.held, s.quiet x.1 x.2 = true) ∧
    (∀ d ∈ s.dies, ∀ q ∈ d.2.queues, q.gang = l.gang → ∀ k < 2 ^ q.log, s.slotEmpty q k = true) ∧
    (∀ d ∈ s.dies, ∀ i ∈ d.2.items, (d.1, i.ctx) ∉ l.held) ∧ (∀ m ∈ s.msgs, m.kind.gangOf ≠ some l.gang) ∧
    (∀ q ∈ s.quires, ∀ c ∈ q.2.cmds, c.gang ≠ l.gang) ∧ (∀ r ∈ s.remotes, r.gang ≠ l.gang) := by
  simp only [State.gangOver, Bool.and_eq_true, Bool.not_eq_true', List.all_eq_true, List.any_eq_false, beq_iff_eq, List.mem_filter,
    Bool.or_eq_true, bne_iff_ne, not_or, Option.isNone_iff_eq_none, List.any_eq_true, not_exists, not_and, List.mem_range,
    List.contains_eq_mem, decide_eq_false_iff_not, and_imp] at h
  obtain ⟨⟨⟨⟨⟨⟨hsaved, hcores⟩, hdies⟩, hheld⟩, hmsgs⟩, hcmds⟩, hremotes⟩ := h
  refine ⟨fun cid hcid hgang => ?_, hsaved, hheld, fun d hd q hq hgang => ?_, fun d hd => (hdies d hd).1, fun m hm => (hmsgs m hm).1,
    hcmds, hremotes⟩
  · obtain ⟨⟨hempty, hqueue⟩, hstrands⟩ := hcores cid hcid hgang
    exact ⟨hempty, hqueue, hstrands⟩
  · exact ((hdies d hd).2 q hq).resolve_left fun hne => hne hgang

/-! ## A launch that leaves the Bindery (21 R396) -/

/-- Two states that differ at most in the dies. -/
def DiesOnly (s t : State) : Prop := ∃ d, t = { s with dies := d }

theorem DiesOnly.refl (s : State) : DiesOnly s s := ⟨s.dies, rfl⟩
theorem DiesOnly.trans {s t u : State} (h : DiesOnly s t) (g : DiesOnly t u) : DiesOnly s u := by
  obtain ⟨_, rfl⟩ := h
  obtain ⟨d, rfl⟩ := g
  exact ⟨d, rfl⟩

theorem resetCtxs_only (l : List (Nat × Nat)) (s : State) : DiesOnly s (forAll l (fun s x => s.setCtx x .off) s) :=
  forAll_rel DiesOnly DiesOnly.refl DiesOnly.trans (fun (s : State) (x : Nat × Nat) => s.setCtx x .off) (fun _ _ => ⟨_, rfl⟩) l s

theorem forAll_onCore_only (f : Core → Core) (l : List Nat) (s : State) : CoresOnly s (forAll l (fun s k => s.onCore k f) s) :=
  forAll_rel CoresOnly CoresOnly.refl CoresOnly.trans (fun (s : State) (k : Nat) => s.onCore k f) (fun _ _ => ⟨_, rfl⟩) l s

/-- Changes of cores read nothing but the cores. -/
theorem cores_forAll_onCore (f : Core → Core) (l : List Nat) {s t : State} (h : t.cores = s.cores) :
    (forAll l (fun s k => s.onCore k f) t).cores = (forAll l (fun s k => s.onCore k f) s).cores := by
  induction l generalizing s t with
  | nil => exact h
  | cons j l ih =>
    refine ih (s := s.onCore j f) (t := t.onCore j f) ?_
    unfold State.onCore State.setCore State.core
    rw [h]

/-- A core that is none of those changed. -/
theorem core_forAll_onCore_others (f : Core → Core) {k : Nat} (l : List Nat) (s : State) (hk : k ∉ l) :
    (forAll l (fun s k => s.onCore k f) s).core k = s.core k := by
  induction l generalizing s with
  | nil => rfl
  | cons j l ih =>
    rw [List.mem_cons, not_or] at hk
    exact (ih (s.onCore j f) hk.2).trans (State.core_onCore_ne s hk.1 f)

/-- A core that is one of those changed has what every change gives. -/
theorem core_forAll_onCore_mem {f : Core → Core} {Q : Core → Prop} (hf : ∀ c, Q (f c)) {k : Nat} (l : List Nat) (s : State)
    (hk : k ∈ l) : Q ((forAll l (fun s k => s.onCore k f) s).core k) := by
  induction l generalizing s with
  | nil => cases hk
  | cons j l ih =>
    by_cases hrest : k ∈ l
    · exact ih (s.onCore j f) hrest
    · obtain rfl : k = j := (List.mem_cons.mp hk).resolve_right hrest
      have hkept := core_forAll_onCore_others f l (s.onCore k f) hrest
      rw [State.core_onCore_self] at hkept
      exact (congrArg Q hkept).mpr (hf _)

/-- A core that a gang leaves at its end. -/
def Core.ended (c : Core) : Core :=
  { c with gang := none, sfrq := [], dqstate := 0, quit := [], claim := none, mq := [], paired := false,
           msplit := c.msplitNext.getD c.msplit, l1 := if c.msplitNext.isSome then [] else c.l1, msplitNext := none,
           claiming := false, claimDq := none }

/-- What goes with a launch once its cores are free. -/
def dropped (s : State) (l : Launch) : State :=
  { s with
    quires := s.quires.map fun q => (q.1, { q.2 with dir := q.2.dir.filter (·.gang != l.gang) })
    dies := s.dies.map fun d => (d.1, { d.2 with queues := d.2.queues.filter (·.gang != l.gang) })
    bindery := { s.bindery with launches := s.bindery.launches.filter (·.gang != l.gang) } }

/-- The cores that a launch holds. -/
def State.coresHeld (s : State) (l : Launch) : List Nat := l.allCores.filter fun c => (s.core c).gang == some l.gang

/-- The end of a launch: the contexts, then the cores, then the entries of the gang. -/
theorem dropLaunch_eq (s : State) (l : Launch) : ∃ (c : Map Core) (d : Map Die), c = (forAll (s.coresHeld l) (fun s k => s.onCore k Core.ended) s).cores ∧
    s.dropLaunch l = { s with
      cores := c
      quires := s.quires.map fun q => (q.1, { q.2 with dir := q.2.dir.filter (·.gang != l.gang) })
      dies := d.map fun x => (x.1, { x.2 with queues := x.2.queues.filter (·.gang != l.gang) })
      bindery := { s.bindery with launches := s.bindery.launches.filter (·.gang != l.gang) } } := by
  obtain ⟨d, hd⟩ := resetCtxs_only l.held s
  have hcores := cores_forAll_onCore Core.ended (s.coresHeld l) (s := s) (t := { s with dies := d }) rfl
  obtain ⟨c, hc⟩ := forAll_onCore_only Core.ended (s.coresHeld l) { s with dies := d }
  rw [hc] at hcores
  refine ⟨c, d, hcores, ?_⟩
  have hdrop : s.dropLaunch l = dropped (forAll ((forAll l.held (fun s x => s.setCtx x .off) s).coresHeld l)
      (fun s k => s.onCore k Core.ended) (forAll l.held (fun s x => s.setCtx x .off) s)) l := rfl
  rw [hdrop, hd]
  exact congrArg (fun t => dropped t l) hc

theorem dropLaunch_leaves (s : State) (l : Launch) :
    (s.dropLaunch l).bindery.launches = s.bindery.launches.filter (·.gang != l.gang) ∧ (s.dropLaunch l).mem = s.mem ∧
    (s.dropLaunch l).strands = s.strands ∧
    (∀ cid ∈ l.allCores, (s.core cid).gang = some l.gang → ((s.dropLaunch l).core cid).gang = none) ∧
    (∀ cid, cid ∉ l.allCores → (s.dropLaunch l).core cid = s.core cid) ∧
    (∀ d ∈ (s.dropLaunch l).dies, ∀ q ∈ d.2.queues, q.gang ≠ l.gang) ∧
    (∀ q ∈ (s.dropLaunch l).quires, ∀ x ∈ q.2.dir, x.gang ≠ l.gang) := by
  obtain ⟨c, d, hc, hd⟩ := dropLaunch_eq s l
  have hcore (k : Nat) : (s.dropLaunch l).core k = (forAll (s.coresHeld l) (fun s k => s.onCore k Core.ended) s).core k := by
    rw [hd, State.core, hc]
    rfl
  refine ⟨?_, ?_, ?_, fun cid hcid hgang => ?_, fun cid hcid => ?_, ?_, ?_⟩
  · rw [hd]
  · rw [hd]
  · rw [hd]
  · rw [hcore]
    refine core_forAll_onCore_mem (Q := fun c => c.gang = none) (fun c => rfl) _ s (List.mem_filter.mpr ⟨hcid, ?_⟩)
    rw [hgang]
    exact beq_self_eq_true _
  · rw [hcore]
    exact core_forAll_onCore_others _ _ s fun h => hcid (List.mem_filter.mp h).1
  · rw [hd]
    intro x hx q hq
    obtain ⟨y, -, rfl⟩ := List.mem_map.mp hx
    simpa using (List.mem_filter.mp hq).2
  · rw [hd]
    intro q hq x hx
    obtain ⟨y, -, rfl⟩ := List.mem_map.mp hq
    simpa using (List.mem_filter.mp hx).2

/-! ## KILL (21 R390, R392, R393) -/

section
variable {s : State} {sender id gang : Nat} (h : Serves s 5 sender id) (hgang : gang = fieldAt s.body 0 2)
include h hgang

theorem kill_peer {l : Launch} (hpart : ((s.peerOf sender).bind fun p => s.partOf p gang) = some l) :
    exec .kill s = .next (replyState (s.killLaunch l) sender id 0 0 []) := by
  show execKill s = _
  rw [execKill, serving_of_serves h]
  rw [hgang] at hpart
  simp only [hpart]
  rfl

variable (hpart : ((s.peerOf sender).bind fun p => s.partOf p gang) = none)
include hpart

theorem kill_unknown (hl : s.launch gang = none) : exec .kill s = .next (replyState s sender id 5 0 []) := by
  show execKill s = _
  rw [execKill, serving_of_serves h]
  rw [hgang] at hpart hl
  simp only [hpart, hl]
  rfl

variable {l : Launch} (hl : s.launch gang = some l)
include hl

theorem kill_refused (hauth : s.hasAuthority sender l.domain = false) : exec .kill s = .next (replyState s sender id 3 0 []) := by
  show execKill s = _
  rw [execKill, serving_of_serves h]
  rw [hgang] at hpart hl
  simp only [hpart, hl, hauth, Bool.not_false, if_true]
  rfl

variable (hauth : s.hasAuthority sender l.domain = true)
include hauth

theorem kill_aborts (hcoord : l.coordinator = true) (hstate : l.state = .reserved) :
    exec .kill s = .next (replyState (s.abort l) sender id 0 0 []) := by
  show execKill s = _
  rw [execKill, serving_of_serves h]
  rw [hgang] at hpart hl
  simp only [hpart, hl, hauth, hcoord, hstate, Bool.not_true, Bool.false_eq_true, if_false, beq_self_eq_true, Bool.and_self, if_true]
  rfl

theorem kill_kills (hplain : l.coordinator = false ∨ l.state ≠ .reserved) :
    exec .kill s = .next (replyState (s.killLaunch l) sender id 0 0 []) := by
  have hnot : (l.coordinator && l.state == .reserved) = false := by
    rcases hplain with h | h
    · rw [h, Bool.false_and]
    · rw [beq_false_of_ne h, Bool.and_false]
  show execKill s = _
  rw [execKill, serving_of_serves h]
  rw [hgang] at hpart hl
  simp only [hpart, hl, hauth, hnot, Bool.not_true, Bool.false_eq_true, if_false]
  rfl

end

theorem started_iff (l : Launch) : l.started = true ↔ l.state = .running ∨ l.state = .preempted := by
  simp [Launch.started]

/-- Settles O49, from the events of a gang's end, what its end leaves, and KILL case by case. -/
theorem gangsEndTimeOutAndAreKilled : Obligations.GangsEndTimeOutAndAreKilled := by
  unfold Obligations.GangsEndTimeOutAndAreKilled
  refine ⟨fun s i hl hi => gangEvents_unknown hl hi, fun s l hl => ⟨gangEnd_over hl, gangEnd_goesOn hl, gangTimeout_passed hl,
    gangTimeout_goesOn hl⟩, fun s l h => gangOver_left h, ?_, fun s h => show execKill s = _ from serving_of_not_served h, fun s sender id gang h hgang =>
    ⟨fun l => kill_peer h hgang, fun hpart => ⟨kill_unknown h hgang hpart, fun l hl => ⟨kill_refused h hgang hpart hl, fun hauth =>
      ⟨kill_aborts h hgang hpart hl hauth, kill_kills h hgang hpart hl hauth⟩⟩⟩⟩, fun s l => ⟨started_iff l, rfl⟩⟩
  rintro s l t rfl
  exact dropLaunch_leaves s l

end Sys2Proof.Machine

/-! SUPPORT. Launches over several chips (21 R391, R399, 07 R146). -/

namespace Sys2Proof.Machine

open Sys2Proof Sys2Proof.Claims

/-! ## Messages between Binderies (21 R391) -/

theorem fromPeer_of_known {s : State} {peer gang : Nat} {f : Nat → Nat → State} (h : FromPeer s peer gang) :
    fromPeer s f = .next (f peer gang) := by
  obtain ⟨haccepting, hpeer, hgang, a, ha⟩ := h
  have hknown : (s.bindery.peers.any fun x => x.1 == peer) = true := List.any_eq_true.mpr ⟨_, ha, beq_self_eq_true _⟩
  rw [fromPeer, hpeer, hgang, haccepting, hknown]
  rfl

theorem fromPeer_of_unknown {s : State} {f : Nat → Nat → State}
    (h : s.bindery.accepting = false ∨ ∀ a, (s.argN 0, a) ∉ s.bindery.peers) : fromPeer s f = .next s := by
  refine if_neg fun hserves => ?_
  obtain ⟨haccepting, hknown⟩ := (Bool.and_eq_true _ _).mp hserves
  rcases h with h | h
  · rw [h] at haccepting
    cases haccepting
  · obtain ⟨⟨p, a⟩, ha, hp⟩ := List.any_eq_true.mp hknown
    exact h a (beq_iff_eq.mp hp ▸ ha)

theorem exec_of_unknownPeer {s : State} {i : Instr} (h : s.bindery.accepting = false ∨ ∀ a, (s.argN 0, a) ∉ s.bindery.peers)
    (hi : i = .prepare ∨ i = .ready ∨ i = .go ∨ i = .abort ∨ i = .late) : exec i s = .next s := by
  rcases hi with rfl | rfl | rfl | rfl | rfl
  · exact show execPrepare s = _ from fromPeer_of_unknown h
  · exact show execReady s = _ from fromPeer_of_unknown h
  · exact show execGo s = _ from fromPeer_of_unknown h
  · exact show execAbort s = _ from fromPeer_of_unknown h
  · exact show execLate s = _ from fromPeer_of_unknown h

/-! ## What is sent to the chips of a launch (21 R399) -/

theorem forAll_out (f : Nat → Sent) (l : List Nat) (s : State) :
    forAll l (fun s p => s.out (f p)) s = { s with bindery := { s.bindery with sent := s.bindery.sent ++ l.map f } } := by
  induction l generalizing s with
  | nil => simp [forAll]
  | cons p l ih =>
    refine (ih (s.out (f p))).trans ?_
    simp [State.out, State.onBindery]

theorem toChips_eq (s : State) (l : Launch) (type value : Nat) : s.toChips l type value =
    { s with bindery := { s.bindery with sent := s.bindery.sent ++
      ((l.chips.map Prod.fst).filter (· != s.bindery.package)).map fun p => .peer p type l.gang value } } :=
  forAll_out _ _ s

/-- ABORT leaves no launch of that number, and tells every other chip and the sender. -/
theorem abort_leaves (s : State) (l : Launch) :
    (s.abort l).bindery.launches = s.bindery.launches.filter (·.gang != l.gang) ∧
    (s.abort l).bindery.sent = s.bindery.sent ++
      ((l.chips.map Prod.fst).filter (· != s.bindery.package)).map (fun p => .peer p 0x13 l.gang 0) ++
        [.reply l.sender l.id 4 0 []] := by
  obtain ⟨c, d, -, hdrop⟩ := dropLaunch_eq (s.toChips l 0x13 0) l
  have hreply (t : State) : (t.reply l.sender l.id 4 0 []).bindery =
    { t.bindery with sent := t.bindery.sent ++ [.reply l.sender l.id 4 0 []] } := rfl
  rw [State.abort, hreply, hdrop, toChips_eq]
  exact ⟨rfl, rfl⟩

/-! ## LAUNCH and PREPARE (21 R399) -/

section
variable {s : State} {sender id : Nat} {l own : Launch} (h : Serves s 3 sender id) (hopen : s.bindery.noLaunch = false)
  (hl : l = launchOf sender id s.body) (hauth : s.hasAuthority sender l.domain = true) (hgood : s.launchBad s.body = none)
  (hchips : l.chips ≠ []) (hown : own = { s.ownPart l with gang := s.nextGang, coordinator := true })
include h hopen hl hauth hgood hchips

theorem launch_prepares : exec .launch s = .next ((s.prepareAll l s.body (s.choice 2)).getD s) := by
  obtain ⟨hserves, hsender, hid⟩ := h
  rw [hl, ← hsender, ← hid] at hauth hchips ⊢
  show execLaunch s = _
  simp only [execLaunch, hserves, hopen, hauth, hgood, hchips, Bool.not_true, Bool.false_eq_true, if_false]

include hown

omit h hopen hauth hgood hchips in
theorem ownPart_sender : own.sender = sender ∧ own.id = id := by
  subst hown hl
  unfold State.ownPart
  split <;> exact ⟨rfl, rfl⟩

theorem launch_refused {status : Nat} (hreserve : s.reserve own (s.choice 2) = some (.error status)) :
    exec .launch s = .next (replyState s sender id 4 0 []) := by
  obtain ⟨hsender, hid⟩ := ownPart_sender hl hown
  rw [launch_prepares h hopen hl hauth hgood hchips]
  subst hown
  simp only [State.prepareAll, hreserve, Option.getD_some]
  rw [hsender, hid]
  rfl

theorem launch_reserved {u : State} (hreserve : s.reserve own (s.choice 2) = some (.ok u)) :
    exec .launch s = .next (u.toChips own 0x10 (natOfBytes s.body)) := by
  rw [launch_prepares h hopen hl hauth hgood hchips]
  subst hown
  simp only [State.prepareAll, hreserve, Option.getD_some]

end

section
variable {s : State} {peer gang : Nat} (h : FromPeer s peer gang)
include h

section
variable {l : Launch} (hl : l = { s.ownPart (launchOf peer gang s.arg.bytes) with gang := s.nextGang })
include hl

omit hl in
theorem prepare_closed (hclosed : s.bindery.noLaunch = true) : exec .prepare s = .next (s.out (.peer peer 0x11 gang 2)) := by
  show execPrepare s = _
  rw [execPrepare, fromPeer_of_known h]
  simp only [hclosed, if_true]

variable (hopen : s.bindery.noLaunch = false)
include hopen

theorem prepare_domain (hdomain : s.domain l.domain = none) : exec .prepare s = .next (s.out (.peer peer 0x11 gang 3)) := by
  show execPrepare s = _
  rw [execPrepare, fromPeer_of_known h]
  rw [hl] at hdomain
  simp only [hopen, Bool.false_eq_true, if_false, hdomain, Option.isNone_none, if_true]

variable (hdomain : s.domain l.domain ≠ none)
include hdomain

theorem prepare_refused {status : Nat} (hreserve : s.reserve l (s.choice 2) = some (.error status)) :
    exec .prepare s = .next (s.out (.peer peer 0x11 gang status)) := by
  show execPrepare s = _
  rw [execPrepare, fromPeer_of_known h]
  rw [hl] at hdomain hreserve
  simp only [hopen, Bool.false_eq_true, if_false, Option.isNone_iff_eq_none, hdomain, hreserve]

theorem prepare_reserved {u : State} (hreserve : s.reserve l (s.choice 2) = some (.ok u)) :
    exec .prepare s = .next (u.out (.peer peer 0x11 gang 0)) := by
  show execPrepare s = _
  rw [execPrepare, fromPeer_of_known h]
  rw [hl] at hdomain hreserve
  simp only [hopen, Bool.false_eq_true, if_false, Option.isNone_iff_eq_none, hdomain, hreserve]

end

/-! ## READY (21 R399) -/

theorem ready_unknown (hl : s.coordinated gang = none) : exec .ready s = .next s := by
  show execReady s = _
  rw [execReady, fromPeer_of_known h]
  simp only [hl]

variable {l : Launch}

section
variable (hl : s.coordinated gang = some l)
include hl

theorem ready_aborts (hstop : s.argN 2 ≠ 0 ∨ l.deadline < (s.die 8).earliest) : exec .ready s = .next (s.abort l) := by
  show execReady s = _
  rw [execReady, fromPeer_of_known h]
  simp only [hl, if_pos hstop]

variable (hok : s.argN 2 = 0) (hintime : (s.die 8).earliest ≤ l.deadline)
include hok hintime

omit h hl in
theorem not_stopped : ¬ (s.argN 2 ≠ 0 ∨ l.deadline < (s.die 8).earliest) := by omega

omit h hl hok hintime in
/-- Every other chip of a launch has answered. -/
theorem allReady_iff : (((l.chips.map Prod.fst).filter (· != s.bindery.package)).all (insertNat peer l.readies).contains = true) ↔
    ∀ c ∈ l.chips, c.1 ≠ s.bindery.package → c.1 = peer ∨ c.1 ∈ l.readies := by
  simp only [List.all_eq_true, List.mem_filter, List.mem_map, List.contains_iff_mem, mem_insertNat, bne_iff_ne]
  refine ⟨fun hall c hc hne => hall c.1 ⟨⟨c, hc, rfl⟩, hne⟩, ?_⟩
  rintro hall p ⟨⟨c, hc, rfl⟩, hne⟩
  exact hall c hc hne

theorem ready_counts (hmissing : ∃ c ∈ l.chips, c.1 ≠ s.bindery.package ∧ c.1 ≠ peer ∧ c.1 ∉ l.readies) :
    ∃ r, exec .ready s = .next (s.onLaunch gang fun x => { x with readies := r }) ∧ ∀ p, p ∈ r ↔ p = peer ∨ p ∈ l.readies := by
  refine ⟨insertNat peer l.readies, ?_, fun p => mem_insertNat peer p l.readies⟩
  have hnot : (((l.chips.map Prod.fst).filter (· != s.bindery.package)).all (insertNat peer l.readies).contains) = false := by
    refine Bool.eq_false_iff.mpr fun hall => ?_
    obtain ⟨c, hc, hother, hpeer, hlist⟩ := hmissing
    exact (allReady_iff.mp hall c hc hother).elim hpeer hlist
  show execReady s = _
  rw [execReady, fromPeer_of_known h]
  simp only [hl, if_neg (not_stopped hok hintime), hnot, Bool.not_false, if_true]

variable (hall : ∀ c ∈ l.chips, c.1 ≠ s.bindery.package → c.1 = peer ∨ c.1 ∈ l.readies)
include hall

theorem ready_early (hstamp : s.argN 3 < (s.die 8).latest + 100000) : exec .ready s = .next s := by
  show execReady s = _
  rw [execReady, fromPeer_of_known h]
  simp only [hl, if_neg (not_stopped hok hintime), allReady_iff.mpr hall, Bool.not_true, Bool.false_eq_true, if_false, if_pos hstamp]

theorem ready_goes (hstamp : (s.die 8).latest + 100000 ≤ s.argN 3) : ∃ r, exec .ready s =
    .next (replyState ((s.onLaunch gang fun x => { x with readies := r, stamp := some (s.argN 3), state := .ready }).toChips l 0x12
      (s.argN 3)) l.sender l.id 0 0 (bytesOfNat 8 gang)) := by
  refine ⟨insertNat peer l.readies, ?_⟩
  show execReady s = _
  rw [execReady, fromPeer_of_known h]
  simp only [hl, if_neg (not_stopped hok hintime), allReady_iff.mpr hall, Bool.not_true, Bool.false_eq_true, if_false,
    if_neg (Nat.not_lt.mpr hstamp)]
  rfl

end

/-! ## GO, ABORT and LATE (21 R399) -/

theorem go_unknown (hl : s.partOf peer gang = none) {i : Instr} (hi : i = .go ∨ i = .abort) : exec i s = .next s := by
  rcases hi with rfl | rfl
  · show execGo s = _
    rw [execGo, fromPeer_of_known h]
    simp only [hl]
  · show execAbort s = _
    rw [execAbort, fromPeer_of_known h]
    simp only [hl]

section
variable (hl : s.partOf peer gang = some l)
include hl

theorem go_started (hstate : l.state ≠ .reserved) : exec .go s = .next s := by
  show execGo s = _
  rw [execGo, fromPeer_of_known h]
  simp only [hl, if_pos hstate]

theorem go_late (hstate : l.state = .reserved) (hlate : ∃ d ∈ diesOf l.cores, s.argN 2 < (s.die d).earliest) :
    exec .go s = .next ((s.out (.peer peer 0x82 gang 8)).gangEvent l 8) := by
  have hsome : ((diesOf l.cores).any fun d => decide (s.argN 2 < (s.die d).earliest)) = true := by simpa using hlate
  show execGo s = _
  rw [execGo, fromPeer_of_known h]
  simp only [hl, if_neg (not_not.mpr hstate), hsome, if_true]

theorem go_ready (hstate : l.state = .reserved) (hintime : ∀ d ∈ diesOf l.cores, (s.die d).earliest ≤ s.argN 2) :
    exec .go s = .next (s.onLaunch l.gang fun x => { x with stamp := some (s.argN 2), state := .ready }) := by
  have hnone : ((diesOf l.cores).any fun d => decide (s.argN 2 < (s.die d).earliest)) = false := by simpa using hintime
  show execGo s = _
  rw [execGo, fromPeer_of_known h]
  simp only [hl, if_neg (not_not.mpr hstate), hnone, Bool.false_eq_true, if_false]

theorem abort_part : exec .abort s = .next (if l.started = true then s else s.dropLaunch l) := by
  show execAbort s = _
  rw [execAbort, fromPeer_of_known h]
  simp only [hl]

end

theorem late_unknown (hl : ((s.launch gang).filter fun l => l.coordinator && l.stamp.isSome) = none) : exec .late s = .next s := by
  show execLate s = _
  rw [execLate, fromPeer_of_known h]
  simp only [hl]

section
variable (hl : s.launch gang = some l) (hcoord : l.coordinator = true) (hstamp : l.stamp ≠ none)
include hl hcoord hstamp

omit h in
theorem stamped_launch : ((s.launch gang).filter fun l => l.coordinator && l.stamp.isSome) = some l := by
  rw [hl, Option.filter_some, hcoord, Option.isSome_iff_ne_none.mpr hstamp]
  rfl

theorem late_kill (hkill : s.argN 2 = 1) : exec .late s = .next (s.killLaunch l) := by
  show execLate s = _
  rw [execLate, fromPeer_of_known h]
  simp only [stamped_launch hl hcoord hstamp, if_pos hkill]

theorem late_report (hreport : s.argN 2 ≠ 1) :
    exec .late s = .next ((s.loseChip l ((l.chips.map Prod.fst).idxOf peer)).toChips l 0x05 0) := by
  show execLate s = _
  rw [execLate, fromPeer_of_known h]
  simp only [stamped_launch hl hcoord hstamp, if_neg hreport]

end

end

/-! ## The deadline, the start, and the loss of a chip (21 R399, 07 R146) -/

theorem launchDeadline_unknown {s : State} (hl : s.coordinated (s.argN 0) = none) : exec .launchDeadline s = .next s := by
  show execLaunchDeadline s = _
  simp only [execLaunchDeadline, hl]

theorem launchDeadline_checks {s : State} {l : Launch} (hl : s.coordinated (s.argN 0) = some l) :
    exec .launchDeadline s = .next (if l.deadline < (s.die 8).earliest then s.abort l else s) := by
  show execLaunchDeadline s = _
  simp only [execLaunchDeadline, hl]
  split <;> rfl

theorem chipStart_starts {s : State} {l : Launch} {stamp : Nat} (hl : s.launch (s.argN 0) = some l) (hstamp : l.stamp = some stamp)
    (hstate : l.state = .ready) (hpast : ∀ d ∈ diesOf l.cores, stamp < (s.die d).earliest) :
    exec .chipStart s = .next ((s.startGang l.gang).getD s) := by
  have hall : ((diesOf l.cores).all fun d => decide (stamp < (s.die d).earliest)) = true := by simpa using hpast
  show execChipStart s = _
  simp only [execChipStart, hl, hstamp, hstate, hall, true_and, if_true]

theorem chipStart_waits {s : State} (h : ∀ l, s.launch (s.argN 0) = some l → l.stamp = none ∨ l.state ≠ .ready ∨
      ∃ stamp d, l.stamp = some stamp ∧ d ∈ diesOf l.cores ∧ (s.die d).earliest ≤ stamp) : exec .chipStart s = .next s := by
  show execChipStart s = _
  unfold execChipStart
  split
  · rename_i l hl
    split
    · rename_i t ht
      refine if_neg ?_
      rintro ⟨hstate, hall⟩
      rcases h l hl with hnone | hnot | ⟨stamp, d, hstamp, hd, hlate⟩
      · rw [ht] at hnone
        cases hnone
      · exact hnot hstate
      · obtain rfl : t = stamp := Option.some.inj (ht.symm.trans hstamp)
        have := of_decide_eq_true (List.all_eq_true.mp hall d hd)
        omega
    · rfl
  · rfl

theorem loseChip_started {s : State} {l : Launch} {chip : Nat} (hchip : chip < 64) (hstarted : l.started = true) (hlost : l.lost = false) :
    s.loseChip l chip = s.gangLoss l.gang (BitVec.ofNat 64 (2 ^ 63 + chip * 2 ^ 10)) [] := by
  rw [State.loseChip, hstarted, hlost, chipLost, Nat.mod_eq_of_lt hchip]
  rfl

theorem loseChip_others {s : State} {l : Launch} {chip : Nat} (h : l.started = false ∨ l.lost = true) : s.loseChip l chip = s := by
  refine if_neg ?_
  rcases h with h | h <;> simp [h]

/-- A reservation case by case. -/
theorem reserve_cases (s : State) (l : Launch) (c : Choice) :
    (∀ x, s.objectStop l = some x → s.reserve l c = some (.error x.1)) ∧
    (∀ x, s.objectStop l = none → s.fits l = .error x → s.reserve l c = some (.error x.1)) ∧
    (s.objectStop l = none → s.fits l = .ok none → s.reserve l c = some (.error 2)) ∧
    (∀ fit u, s.objectStop l = none → s.fits l = .ok (some fit) → s.enlist { l with state := .reserved } fit c = some u →
      s.reserve l c = some (.ok u)) := by
  refine ⟨fun x hstop => ?_, fun x hstop hfits => ?_, fun hstop hfits => ?_, fun fit u hstop hfits henlist => ?_⟩
  · simp only [State.reserve, hstop]
  · simp only [State.reserve, hstop, hfits]
  · simp only [State.reserve, hstop, hfits]
  · simp only [State.reserve, hstop, hfits, henlist, Option.map_some]

/-- Settles O51, from each message and event of a launch over several chips. -/
theorem multiChipLaunchesGoTogether : Obligations.MultiChipLaunchesGoTogether := by
  unfold Obligations.MultiChipLaunchesGoTogether
  refine ⟨fun s i h hi => exec_of_unknownPeer h hi, ?_, ?_, reserve_cases, ?_, ?_, fun s => ⟨launchDeadline_unknown, fun l =>
    launchDeadline_checks⟩, ?_, fun s => ⟨fun l stamp => chipStart_starts, chipStart_waits⟩, ?_, fun s => ⟨fun hl => ?_, fun l hl => ?_⟩,
    fun s l chip hchip => ⟨loseChip_started hchip, loseChip_others⟩⟩
  · intro s sender id l own h hopen hl hauth hgood hchips hown
    refine ⟨fun status => launch_refused h hopen hl hauth hgood hchips hown, fun u hreserve =>
      ⟨_, launch_reserved h hopen hl hauth hgood hchips hown hreserve, ?_, ?_⟩⟩
    · rw [toChips_eq]
    · rw [toChips_eq]
  · intro s peer gang l h hl
    exact ⟨prepare_closed h, fun hopen => ⟨prepare_domain h hl hopen, fun hdomain =>
      ⟨fun status => prepare_refused h hl hopen hdomain, fun u => prepare_reserved h hl hopen hdomain⟩⟩⟩
  · intro s peer gang h
    exact ⟨ready_unknown h, fun l hl => ⟨ready_aborts h hl, fun hok hintime => ⟨ready_counts h hl hok hintime, fun hall =>
      ⟨ready_early h hl hok hintime hall, ready_goes h hl hok hintime hall⟩⟩⟩⟩
  · rintro s l t rfl
    exact abort_leaves s l
  · intro s peer gang h
    exact ⟨fun hl i hi => go_unknown h hl hi, fun l hl => ⟨go_started h hl, go_late h hl, go_ready h hl, abort_part h hl⟩⟩
  · intro s peer gang h
    exact ⟨late_unknown h, fun l hl hcoord hstamp => ⟨late_kill h hl hcoord hstamp, late_report h hl hcoord hstamp⟩⟩
  · show execChipLoss s = _
    simp only [execChipLoss, hl]
  · show execChipLoss s = _
    simp only [execChipLoss, hl]

end Sys2Proof.Machine

/-! SUPPORT. Launches are checked and start (21 R397): the statement fails. -/

namespace Sys2Proof.Machine

open Sys2Proof Sys2Proof.Claims

/-- A strand that a launch has set up is awake, so that it looks for work. -/
theorem setUpStrand_awake (s : State) (l : Launch) (sid : Nat) : ((s.setUpStrand l sid).strand sid).asleep = false := by
  rw [State.setUpStrand, State.onStrand, State.strand_setStrand_self]
  rfl

/-- Refutes O48: a launch sets its strands awake (`Strand.reset`), while the statement has each strand asleep. Strand 0 of the machine
after reset, set up for the launch of an empty body, is awake. -/
theorem not_launchesAreCheckedAndStart : ¬ Obligations.LaunchesAreCheckedAndStart := by
  unfold Obligations.LaunchesAreCheckedAndStart
  rintro ⟨-, -, -, -, -, -, -, -, -, hstrands, -⟩
  obtain ⟨-, hasleep, -⟩ := hstrands State.reset (launchOf 0 0 []) 0 _ rfl
  rw [setUpStrand_awake] at hasleep
  cases hasleep

end Sys2Proof.Machine

/-! SUPPORT. Records, deques, finding work and the start of a firing (14 R261 to R268, R277, R278, 10 R193). -/

namespace Sys2Proof.Machine

open Sys2Proof Sys2Proof.Claims

/-! ## Messages about records (14 R261, R264, R265, R277) -/

/-- What is addressed to a core that a pre-empted gang has left is kept for it. -/
theorem exec_gangAway {s : State} {i : Instr} {m : Msg} {gang cid : Nat} (hm : s.msg (s.argN 0) = some m)
    (hto : addressee i m.kind = some (gang, cid)) (haway : s.gangAway gang cid = true) : exec i s = .next (s.keepMsg gang cid m) := by
  obtain ⟨id, src, eng, kind⟩ := m
  unfold addressee at hto
  split at hto
  · rename_i sid g ref d hkind
    cases hto
    subst hkind
    show execCdecApply s = _
    simp only [execCdecApply, hm, haway, if_true]
  · rename_i sid g ref v hkind
    cases hto
    subst hkind
    show execCarmApply s = _
    simp only [execCarmApply, hm, haway, if_true]
  · rename_i sid g ref arg top hkind
    cases hto
    subst hkind
    show execDequePush s = _
    simp only [execDequePush, hm, haway, if_true]
  · rename_i sid out v g hkind
    cases hto
    subst hkind
    show execCstealTake s = _
    simp only [execCstealTake, hm, haway, if_true]
  · cases hto

/-- A record that nothing keeps from being written holds nothing back. -/
theorem recordHeld_of_free {s : State} {sid off n : Nat} {ref : Word} (h : RecordFree s sid ref) (hn : off + n ≤ 64) :
    s.recordHeld sid ref off n = false := by
  obtain ⟨hwriters, hpinned⟩ := h
  have hnone : ((List.range n).map (refLoc ref + off + ·)).any (fun l => (s.padWriter (some sid) l).isSome) = false := by
    refine List.any_eq_false.mpr fun l hl => ?_
    obtain ⟨k, hk, rfl⟩ := List.mem_map.mp hl
    rw [Nat.add_assoc, hwriters _ (by have := List.mem_range.mp hk; omega)]
    simp
  rw [State.recordHeld, State.atomHeld, hnone, Bool.false_or]
  split
  · exact placeBlocked_of_unpinned (hpinned _) _ _
  · rfl

theorem cdecApply_applies {s : State} {m : Msg} {sid gang : Nat} {ref : BitVec 64} {d : Int} (hm : s.msg (s.argN 0) = some m)
    (hkind : m.kind = .cdec sid gang ref d) (hhere : s.gangAway gang (refCore ref) = false) (hfree : RecordFree s sid ref)
    (hpush : s.pushHeld (refCore ref) (m.src == refCore ref) = false) :
    exec .cdecApply s =
      .next (((s.undoWriters sid [refLoc ref + 16, refLoc ref + 24]).decrement m.src ref d).placed sid (s.argN 0)) := by
  obtain ⟨id, src, eng, kind⟩ := m
  subst hkind
  show execCdecApply s = _
  simp only [execCdecApply, hm, hhere, recordHeld_of_free hfree (show 16 + 16 ≤ 64 by decide), hpush, Bool.or_self, Bool.false_eq_true, if_false]
  rfl

theorem carmApply_applies {s : State} {m : Msg} {sid gang : Nat} {ref v : BitVec 64} (hm : s.msg (s.argN 0) = some m)
    (hkind : m.kind = .carm sid gang ref v) (hhere : s.gangAway gang (refCore ref) = false) (hfree : RecordFree s sid ref) :
    exec .carmApply s = .next (((s.undoWriters sid [refLoc ref + 24]).placeStore (refLoc ref + 24)
      (bytesOfNat 8 v.toNat) none).placed sid (s.argN 0)) := by
  obtain ⟨id, src, eng, kind⟩ := m
  subst hkind
  show execCarmApply s = _
  simp only [execCarmApply, hm, hhere, recordHeld_of_free hfree (show 24 + 8 ≤ 64 by decide), Bool.false_eq_true, if_false]
  rfl

theorem msg_dropMsg (s : State) (id : Nat) : (s.dropMsg id).msg id = none := by
  refine List.find?_eq_none.mpr fun m hm => ?_
  simpa using (List.mem_filter.mp hm).2

theorem dequePush_pushes {s : State} {m : Msg} {sid : Option Nat} {gang : Nat} {ref arg : BitVec 64} {top : Bool}
    (hm : s.msg (s.argN 0) = some m) (hkind : m.kind = .push sid gang ref arg top) (hhere : s.gangAway gang (refCore ref) = false)
    (hpush : s.pushHeld (refCore ref) top = false) :
    ∃ t, exec .dequePush s = .next t ∧ t.mem = (s.push (refCore ref) ref arg top).mem ∧
      t.cores = (s.push (refCore ref) ref arg top).cores ∧ t.msg (s.argN 0) = none ∧
      (∀ k, sid = some k → (t.strand k).places = ((s.push (refCore ref) ref arg top).strand k).places.filter (· != s.argN 0)) := by
  obtain ⟨id, src, eng, kind⟩ := m
  subst hkind
  cases sid with
  | none =>
    refine ⟨(s.push (refCore ref) ref arg top).dropMsg (s.argN 0), ?_, rfl, rfl, msg_dropMsg _ _, fun k hk => (by cases hk)⟩
    show execDequePush s = _
    simp only [execDequePush, hm, hhere, hpush, Bool.false_eq_true, if_false]
  | some k =>
    refine ⟨(s.push (refCore ref) ref arg top).placed k (s.argN 0), ?_, rfl, rfl, msg_dropMsg (s.push (refCore ref) ref arg top) _, ?_⟩
    · show execDequePush s = _
      simp only [execDequePush, hm, hhere, hpush, Bool.false_eq_true, if_false]
    · intro j hj
      obtain rfl := Option.some.inj hj
      rw [State.placed, State.onStrand, State.strand_setStrand_self]
      rfl

/-! ## Counters (14 R261) -/

theorem counter32_eq (n : Int) : min (max n (-(2 ^ 31))) (2 ^ 31 - 1) = counter32 n := by
  unfold counter32
  split
  · omega
  split <;> omega

section
variable {s : State} {src : Nat} {ref : BitVec 64} {old rearm d : Int}
  (hold : old = (BitVec.ofNat 32 (readNat s.mem (refLoc ref + 24) 4)).toInt)
  (hrearm : rearm = (BitVec.ofNat 32 (readNat s.mem (refLoc ref + 28) 4)).toInt)
include hold hrearm

/-- A counter that was above zero and no longer is fires. -/
theorem decrement_fires (hpos : 0 < old) (hdone : old - d ≤ 0) {p : State} (hp : p = s.placeStore (refLoc ref + 24)
    (bytesOfNat 4 (BitVec.ofInt 32 (counter32 (old - d + rearm))).toNat) none) :
    s.decrement src ref d =
      p.push (refCore ref) ref (BitVec.ofNat 64 (readNat p.mem (refLoc ref + 16) 8)) (src == refCore ref) := by
  have hcount : countDown (s.int32At (refLoc ref + 24)) (s.int32At (refLoc ref + 28)) d = (counter32 (old - d + rearm), true) := by
    rw [State.int32At, State.int32At, ← hold, ← hrearm, countDown]
    simp only [decide_eq_true hpos, decide_eq_true hdone, Bool.and_self, if_true, counter32_eq]
  rw [State.decrement]
  simp only [hcount, if_true]
  rw [hp]

theorem decrement_counts (h : old ≤ 0 ∨ 0 < old - d) : s.decrement src ref d =
    s.placeStore (refLoc ref + 24) (bytesOfNat 4 (BitVec.ofInt 32 (counter32 (old - d))).toNat) none := by
  have hquiet : (decide (0 < old) && decide (old - d ≤ 0)) = false := by
    rcases h with h | h
    · rw [decide_eq_false (by omega), Bool.false_and]
    · rw [decide_eq_false (show ¬ old - d ≤ 0 by omega), Bool.and_false]
  have hcount : countDown (s.int32At (refLoc ref + 24)) (s.int32At (refLoc ref + 28)) d = (counter32 (old - d), false) := by
    rw [State.int32At, State.int32At, ← hold, ← hrearm, countDown]
    simp only [hquiet, Bool.false_eq_true, if_false, counter32_eq]
  rw [State.decrement]
  simp only [hcount, Bool.false_eq_true, if_false]

end

/-! ## A push on a deque (02 R46, 14 R263, R264) -/

theorem push_discarded {s : State} {cid : Nat} {ref arg : BitVec 64} {top : Bool} (h : s.recQuit cid ref = true ∨ s.gangLost cid = true) :
    s.push cid ref arg top = s := by
  refine if_pos ?_
  rcases h with h | h <;> simp [h]

section
variable {s : State} {cid : Nat} {ref arg : BitVec 64} {top : Bool} (hquit : s.recQuit cid ref = false) (hlost : s.gangLost cid = false)
include hquit hlost

theorem push_spills (hfull : 256 ≤ dqCount (s.core cid).dqstate) : s.push cid ref arg top = s.spill cid ref arg := by
  unfold State.push
  simp only [hquit, hlost, Bool.or_self, Bool.false_eq_true, if_false, if_pos hfull]

/-- Where a push writes: the slot above the top entry, or the one below the bottom. -/
def pushSlot (v : Word) (top : Bool) : Nat := if top then dqBot v + dqCount v else dqBot v + 255

/-- The bottom of a deque after a push. -/
def pushBot (v : Word) (top : Bool) : Nat := if top then dqBot v else (dqBot v + 255) % 256

theorem push_enters (hroom : dqCount (s.core cid).dqstate < 256) : s.push cid ref arg top =
    ((s.putSlot cid (if top then dqBot (s.core cid).dqstate + dqCount (s.core cid).dqstate else pushBot (s.core cid).dqstate top)
      (ref, arg)).onCore cid fun c => { c with dqstate := BitVec.ofNat 64 (pushBot (s.core cid).dqstate top * 2 ^ 16 +
        (dqCount (s.core cid).dqstate + 1)) }).arrival cid := by
  unfold State.push
  simp only [hquit, hlost, Bool.or_self, Bool.false_eq_true, if_false, if_neg (Nat.not_le.mpr hroom), pushBot]

end

/-! ## What a deque holds after a push (14 R263, R264) -/

theorem StrandsOnly.core {s t : State} (h : StrandsOnly s t) (k : Nat) : t.core k = s.core k := by
  obtain ⟨a, rfl⟩ := h
  rfl

theorem StrandsOnly.mem {s t : State} (h : StrandsOnly s t) : t.mem = s.mem := by
  obtain ⟨a, rfl⟩ := h
  rfl

theorem State.arrival_strandsOnly (s : State) (cid : Nat) : StrandsOnly s (s.arrival cid) := by
  unfold State.arrival
  cases s.wakes cid with
  | none => exact forAll_rel StrandsOnly .refl .trans _ (fun s k => s.wakeIdle_strandsOnly k) _ _
  | some sid =>
    exact StrandsOnly.trans ⟨_, rfl⟩ (forAll_rel StrandsOnly .refl .trans _ (fun s k => s.wakeIdle_strandsOnly k) _ _)

/-- The entry that a slot holds. -/
def entryAt (m : List Host.Cell) (loc : Nat) : Word × Word :=
  (BitVec.ofNat 64 (readNat m loc 8), BitVec.ofNat 64 (readNat m (loc + 8) 8))

theorem deque_eq (s : State) (cid : Nat) : s.deque cid = (List.range (dqCount (s.core cid).dqstate)).map fun i =>
    entryAt s.mem (s.dqLoc cid (dqBot (s.core cid).dqstate + i)) := rfl

theorem dqCount_ofNat (bot : Nat) {n : Nat} (h : n < 512) : dqCount (BitVec.ofNat 64 (bot * 2 ^ 16 + n)) = n := by
  rw [dqCount, BitVec.extractLsb'_toNat, BitVec.toNat_ofNat, Nat.shiftRight_zero, Nat.mod_mod_of_dvd _ (by decide),
    show bot * 2 ^ 16 + n = n + 2 ^ 9 * (bot * 2 ^ 7) by omega, Nat.add_mul_mod_self_left]
  exact Nat.mod_eq_of_lt h

theorem dqBot_ofNat {bot n : Nat} (hb : bot < 256) (h : n < 512) : dqBot (BitVec.ofNat 64 (bot * 2 ^ 16 + n)) = bot := by
  rw [dqBot, BitVec.extractLsb'_toNat, BitVec.toNat_ofNat, Nat.shiftRight_eq_div_pow, Nat.mod_eq_of_lt (show bot * 2 ^ 16 + n < 2 ^ 64 by omega),
    Nat.add_comm, Nat.add_mul_div_right _ _ (by decide), Nat.div_eq_of_lt (by omega), Nat.zero_add]
  exact Nat.mod_eq_of_lt hb

theorem dqBot_lt (v : Word) : dqBot v < 256 := (v.extractLsb' 16 8).isLt

/-- A slot holds the entry last written in it. -/
theorem entryAt_writeBytes (m : List Host.Cell) (loc : Nat) (e : Word × Word) :
    entryAt (writeBytes m loc (bytesOfNat 8 e.1.toNat ++ bytesOfNat 8 e.2.toNat)) loc = e := by
  have hlow : readNat (writeBytes m loc (bytesOfNat 8 e.1.toNat ++ bytesOfNat 8 e.2.toNat)) loc 8 = e.1.toNat := by
    refine readNat_part m loc 0 8 _ _ (by have := e.1.isLt; omega) (by simp) fun j hj => ?_
    rw [Nat.zero_add, List.getD_append _ _ _ _ (by simpa using hj), bytesOfNat_get _ _ _ hj]
  have hhigh : readNat (writeBytes m loc (bytesOfNat 8 e.1.toNat ++ bytesOfNat 8 e.2.toNat)) (loc + 8) 8 = e.2.toNat := by
    refine readNat_part m loc 8 8 _ _ (by have := e.2.isLt; omega) (by simp) fun j hj => ?_
    rw [List.getD_append_right _ _ _ _ (by simp), bytesOfNat_length, Nat.add_sub_cancel_left, bytesOfNat_get _ _ _ hj]
  rw [entryAt, hlow, hhigh, BitVec.ofNat_toNat, BitVec.ofNat_toNat, BitVec.setWidth_eq, BitVec.setWidth_eq]

theorem entryAt_writeBytes_ne (m : List Host.Cell) {a b : Nat} {bs : List Byte} (hlen : bs.length = 16) (h : b + 16 ≤ a ∨ a + 16 ≤ b) :
    entryAt (writeBytes m a bs) b = entryAt m b := by
  rw [entryAt, readNat_writeBytes_ne _ _ _ _ _ (by omega), readNat_writeBytes_ne _ _ _ _ _ (by omega)]
  rfl

/-- The slots of a deque are apart, and one number more than 256 later is the same slot. -/
theorem dqLoc_congr (s : State) (cid : Nat) {i j : Nat} (h : i % 256 = j % 256) : s.dqLoc cid i = s.dqLoc cid j := by
  rw [State.dqLoc, State.dqLoc, h]

theorem dqLoc_apart (s : State) (cid : Nat) {i j : Nat} (h : i % 256 ≠ j % 256) :
    s.dqLoc cid i + 16 ≤ s.dqLoc cid j ∨ s.dqLoc cid j + 16 ≤ s.dqLoc cid i := by
  rw [State.dqLoc, State.dqLoc, padLoc, padLoc]
  generalize padOrigin + cid * 2 ^ 19 = origin
  omega

theorem dqLoc_aligned (s : State) (cid slot : Nat) : (s.padSize cid - 4096 + 16 * (slot % 256)) % 16 = 0 := by
  rw [State.padSize]
  omega

/-- An entry written in a slot whose line no open chunk has read changes memory only. -/
theorem putSlot_stores {s : State} {cid slot : Nat} (e : Word × Word) (hunread : Unread s (s.dqLoc cid slot)) :
    s.putSlot cid slot e = s.store (s.dqLoc cid slot) (bytesOfNat 8 e.1.toNat ++ bytesOfNat 8 e.2.toNat) := by
  have h := placeStore_barrier (k := 0) (bs := bytesOfNat 8 e.1.toNat ++ bytesOfNat 8 e.2.toNat) none (dqLoc_aligned s cid slot) hunread
    (by simp) (by simp)
  rw [Nat.add_zero] at h
  exact h

/-- The entry slots of a deque that a push leaves, the new entry among them. -/
theorem entries_pushed {f g : Nat → Word × Word} {e : Word × Word} {bot n : Nat} {top : Bool} (hroom : n < 256)
    (hnew : ∀ i, i % 256 = (if top then bot + n else bot + 255) % 256 → g i = e)
    (hold : ∀ i, i % 256 ≠ (if top then bot + n else bot + 255) % 256 → g i = f (i % 256))
    (hf : ∀ i, f (i % 256) = f i) :
    ((List.range (n + 1)).map fun i => g ((if top then bot else (bot + 255) % 256) + i)) =
      if top then ((List.range n).map fun i => f (bot + i)) ++ [e] else e :: (List.range n).map fun i => f (bot + i) := by
  cases top with
  | true =>
    simp only [if_true] at *
    rw [List.range_succ, List.map_append, List.map_singleton, hnew _ rfl]
    congr 1
    refine List.map_congr_left fun i hi => ?_
    rw [List.mem_range] at hi
    rw [hold _ (by omega), hf]
  | false =>
    simp only [Bool.false_eq_true, if_false] at *
    rw [List.range_succ_eq_map, List.map_cons, List.map_map, hnew _ (by omega)]
    congr 1
    refine List.map_congr_left fun i hi => ?_
    rw [List.mem_range] at hi
    have hsame : ((bot + 255) % 256 + (i + 1)) % 256 = (bot + i) % 256 := by omega
    show g ((bot + 255) % 256 + (i + 1)) = f (bot + i)
    rw [hold _ (by omega), hsame, hf]

section
variable {s : State} {cid : Nat} {ref arg : BitVec 64} {top : Bool} (hquit : s.recQuit cid ref = false) (hlost : s.gangLost cid = false)
  (hroom : dqCount (s.core cid).dqstate < 256) (hunread : Unread s (s.dqLoc cid (pushSlot (s.core cid).dqstate top)))
include hquit hlost hroom hunread

/-- A push on a deque that is not full stores the entry in its slot, and moves the deque's ends. -/
theorem push_stores : StrandsOnly ((s.store (s.dqLoc cid (pushSlot (s.core cid).dqstate top))
      (bytesOfNat 8 ref.toNat ++ bytesOfNat 8 arg.toNat)).onCore cid fun c =>
        { c with dqstate := BitVec.ofNat 64 (pushBot (s.core cid).dqstate top * 2 ^ 16 + (dqCount (s.core cid).dqstate + 1)) })
    (s.push cid ref arg top) := by
  have hslot : s.dqLoc cid (if top then dqBot (s.core cid).dqstate + dqCount (s.core cid).dqstate
      else pushBot (s.core cid).dqstate top) = s.dqLoc cid (pushSlot (s.core cid).dqstate top) := by
    refine dqLoc_congr s cid ?_
    cases top
    · simp only [pushBot, pushSlot, Bool.false_eq_true, if_false]
      omega
    · rfl
  rw [push_enters hquit hlost hroom, putSlot_stores _ (by rw [hslot]; exact hunread), hslot]
  exact State.arrival_strandsOnly _ _

theorem push_mem : (s.push cid ref arg top).mem = writeBytes s.mem (s.dqLoc cid (pushSlot (s.core cid).dqstate top))
    (bytesOfNat 8 ref.toNat ++ bytesOfNat 8 arg.toNat) := 
  (push_stores hquit hlost hroom hunread).mem

theorem push_core : (s.push cid ref arg top).core cid = { s.core cid with
    dqstate := BitVec.ofNat 64 (pushBot (s.core cid).dqstate top * 2 ^ 16 + (dqCount (s.core cid).dqstate + 1)) } := 
  ((push_stores hquit hlost hroom hunread).core cid).trans (State.core_onCore_self _ _ _)

theorem deque_push : (s.push cid ref arg top).deque cid = if top then s.deque cid ++ [(ref, arg)] else (ref, arg) :: s.deque cid := by
  have hcore := push_core (arg := arg) hquit hlost hroom hunread
  have hmem := push_mem (arg := arg) hquit hlost hroom hunread
  have hloc (i : Nat) : (s.push cid ref arg top).dqLoc cid i = s.dqLoc cid i := by
    rw [State.dqLoc, State.padSize, hcore]
    rfl
  have hbot : pushBot (s.core cid).dqstate top < 256 := by
    unfold pushBot
    have := dqBot_lt (s.core cid).dqstate
    split <;> omega
  rw [deque_eq, deque_eq, hcore, dqCount_ofNat _ (by omega), dqBot_ofNat hbot (by omega)]
  refine entries_pushed (f := fun i => entryAt s.mem (s.dqLoc cid i)) (g := fun i => entryAt _ (State.dqLoc _ cid i)) hroom
    (fun i hi => ?_) (fun i hi => ?_) (fun i => congrArg (entryAt s.mem) (dqLoc_congr s cid (Nat.mod_mod _ _)))
  · rw [hloc, hmem, dqLoc_congr s cid hi]
    exact entryAt_writeBytes s.mem _ (ref, arg)
  · rw [hloc, hmem, entryAt_writeBytes_ne _ (by simp) (dqLoc_apart s cid (j := pushSlot (s.core cid).dqstate top) hi), dqLoc_congr s cid (Nat.mod_mod i 256)]

theorem readByte_push {a : Nat} (ha : ∀ j < 16, a ≠ s.dqLoc cid (pushSlot (s.core cid).dqstate top) + j) :
    readByte (s.push cid ref arg top).mem a = readByte s.mem a := by
  rw [push_mem hquit hlost hroom hunread, readByte_writeBytes, if_neg]
  rintro ⟨hlow, hhigh⟩
  simp only [List.length_append, bytesOfNat_length] at hhigh
  exact ha (a - s.dqLoc cid (pushSlot (s.core cid).dqstate top)) (by omega) (by omega)

end

/-! ## Thefts and die queues (14 R264, R278, 10 R193) -/

/-- A theft takes entries from the bottom of the deque. -/
theorem stealFrom_takes {s : State} {v k : Nat} (hk : k ≤ dqCount (s.core v).dqstate) (hn : dqCount (s.core v).dqstate ≤ 256) :
    (s.stealFrom v k).2 = (s.deque v).take k ∧ (s.stealFrom v k).1.deque v = (s.deque v).drop k ∧ (s.stealFrom v k).1.mem = s.mem := by
  have hlen : (s.deque v).length = dqCount (s.core v).dqstate := by rw [deque_eq, List.length_map, List.length_range]
  have hcore : (s.stealFrom v k).1.core v = { s.core v with
      dqstate := BitVec.ofNat 64 ((dqBot (s.core v).dqstate + k) % 256 * 2 ^ 16 + ((s.deque v).length - k)) } :=
    State.core_onCore_self _ _ _
  have hloc (i : Nat) : (s.stealFrom v k).1.dqLoc v i = s.dqLoc v i := by
    rw [State.dqLoc, State.padSize, hcore]
    rfl
  refine ⟨rfl, ?_, rfl⟩
  rw [deque_eq, hcore, dqCount_ofNat _ (by omega), dqBot_ofNat (Nat.mod_lt _ (by decide)) (by omega), hlen]
  refine List.ext_getElem (by rw [List.length_drop, hlen, List.length_map, List.length_range]) fun i hi _ => ?_
  simp only [deque_eq, List.getElem_drop, List.getElem_map, List.getElem_range]
  rw [hloc, dqLoc_congr s v (j := dqBot (s.core v).dqstate + (k + i)) (by omega)]
  rfl

/-- csteal puts the entries that it takes on the thief's top, and gives their number. -/
theorem cstealTake_moves {s p : State} {m : Msg} {sid out v gang k : Nat} {l : List (BitVec 64 × BitVec 64)} (hm : s.msg (s.argN 0) = some m)
    (hkind : m.kind = .steal sid out v gang) (hhere : s.gangAway gang v = false) (hgang : (s.core v).gang = some gang)
    (hk : k = min ((dqCount (s.core v).dqstate + 1) / 2) (256 - dqCount (s.core (coreOf sid)).dqstate)) (hsteal : s.stealFrom v k = (p, l))
    (hlive : ∀ e ∈ l, p.recQuit (coreOf sid) e.1 = false) :
    exec .cstealTake s = .next (((forAll l (fun p e => p.push (coreOf sid) e.1 e.2 true) p).answerG sid out
      (BitVec.ofNat 64 l.length) Flags.none).dropMsg (s.argN 0)) := by
  obtain ⟨id, src, eng, kind⟩ := m
  subst hkind hk
  have hkept : (l.filter fun e => !p.recQuit (coreOf sid) e.1) = l :=
    List.filter_eq_self.mpr fun e he => by rw [hlive e he, Bool.not_false]
  show execCstealTake s = _
  simp only [execCstealTake, hm, hhere, Bool.false_eq_true, if_false, State.applySteal, if_pos hgang, hsteal, hkept]

section
variable {s : State} {m : Msg} {die gang n : Nat} {ref arg : BitVec 64} {q : DieQueue} (hm : s.msg (s.argN 0) = some m)
  (hkind : m.kind = .spill die gang n ref arg) (hq : (s.die die).queues.find? (fun q => q.gang == gang) = some q)
include hm hkind hq

theorem dieQueueSpill_writes (hturn : readNat s.mem (q.slot n + 16) 8 = n) :
    exec .dieQueueSpill s = .next ((s.placeStore (q.slot n)
      (bytesOfNat 8 ref.toNat ++ bytesOfNat 8 arg.toNat ++ bytesOfNat 8 (n + 1)) none).dropMsg (s.argN 0)) := by
  obtain ⟨id, src, eng, kind⟩ := m
  subst hkind
  show execDieQueueSpill s = _
  simp only [execDieQueueSpill, hm, hq, if_pos hturn]

theorem dieQueueSpill_waits (hturn : readNat s.mem (q.slot n + 16) 8 ≠ n) : exec .dieQueueSpill s = .next s := by
  obtain ⟨id, src, eng, kind⟩ := m
  subst hkind
  show execDieQueueSpill s = _
  simp only [execDieQueueSpill, hm, hq, if_neg hturn]

end

section
variable {s : State} {cid h : Nat} {q : DieQueue} (hcid : cid = s.argN 0) (hclaim : (s.core cid).claimDq = some h) (hq : s.dieQueue cid = some q)
include hcid hclaim hq

theorem dieQueueClaim_waits (hearly : readNat s.mem (q.slot h + 16) 8 < h + 1) : exec .dieQueueClaim s = .next s := by
  subst hcid
  show execDieQueueClaim s = _
  simp only [execDieQueueClaim, hclaim, hq, State.slotSeq, if_pos hearly]

variable {p : State} (hp : p = (s.onCore cid fun c => { c with claiming := false, claimDq := none }))
include hp

theorem dieQueueClaim_late (hlate : h + 1 < readNat s.mem (q.slot h + 16) 8) : exec .dieQueueClaim s = .next (p.claimAgain cid) := by
  subst hcid hp
  show execDieQueueClaim s = _
  simp only [execDieQueueClaim, hclaim, hq, State.slotSeq, if_neg (show ¬ readNat s.mem (q.slot h + 16) 8 < h + 1 by omega), if_pos hlate]

variable {ref : BitVec 64} (href : ref = BitVec.ofNat 64 (readNat s.mem (q.slot h) 8)) (hseq : readNat s.mem (q.slot h + 16) 8 = h + 1)
include href hseq

theorem dieQueueClaim_gone (hgone : s.recQuit cid ref = true ∨ s.gangLost cid = true) :
    exec .dieQueueClaim s =
      .next ((p.placeStore (q.slot h + 16) (bytesOfNat 8 (h + 2 ^ q.log)) none).claimAgain cid) := by
  subst hcid hp href
  have hor : (s.recQuit (s.argN 0) (s.slotRef q h) || s.gangLost (s.argN 0)) = true := by rcases hgone with hgone | hgone <;> simp [State.slotRef, hgone]
  show execDieQueueClaim s = _
  simp only [execDieQueueClaim, hclaim, hq, State.slotSeq, hseq, Nat.lt_irrefl, if_false, hor, if_true, State.emptySlot]

theorem dieQueueClaim_takes (hquit : s.recQuit cid ref = false) (hlost : s.gangLost cid = false) (hheld : s.pushHeld cid false = false) :
    exec .dieQueueClaim s = .next ((p.placeStore (q.slot h + 16) (bytesOfNat 8 (h + 2 ^ q.log)) none).push cid ref
      (BitVec.ofNat 64 (readNat s.mem (q.slot h + 8) 8)) false) := by
  subst hcid hp href
  show execDieQueueClaim s = _
  simp only [execDieQueueClaim, hclaim, hq, State.slotSeq, hseq, Nat.lt_irrefl, State.slotRef, hquit, hlost, Bool.or_self, Bool.false_eq_true,
    if_false, hheld, State.emptySlot]

end

/-! ## Finding work (14 R266) -/

/-- The top entry of a deque that may start is the one picked; every other stays. -/
theorem pick_startable {quit pass : Word → Bool} {e : Word × Word} (l : List (Word × Word)) (hquit : quit e.1 = false)
    (hpass : pass e.1 = false) : pick quit pass (e :: l) = (some e, l) := by
  rw [pick, hquit, hpass]
  rfl

/-- A deque that loses its top entry moves no other. -/
theorem setDeque_dropTop {s : State} {cid : Nat} {e : Word × Word} {l : List (Word × Word)} (hdeque : s.deque cid = l ++ [e]) :
    s.setDeque cid l = s.onCore cid fun c => { c with dqstate := BitVec.ofNat 64 (dqBot (s.core cid).dqstate * 2 ^ 16 + l.length) } := by
  have hshort : l ≠ l ++ [e] := by simp
  have hstay : (l.zipIdx.filter fun x => (l ++ [e])[x.2]? != some x.1) = [] := by
    refine List.filter_eq_nil_iff.mpr fun x hx => ?_
    obtain ⟨hlt, hget⟩ := List.mem_zipIdx' hx
    rw [List.getElem?_append_left hlt, List.getElem?_eq_getElem hlt, hget]
    simp
  unfold State.setDeque
  rw [hdeque, if_neg hshort]
  dsimp only
  rw [hstay]
  rfl

theorem State.claimAndSleep_sleeps (s : State) (sid : Nat) :
    ((s.claimAndSleep sid).strand sid).asleep = true ∧ ((s.claimAndSleep sid).strand sid).firing = (s.strand sid).firing ∧
      (s.claimAndSleep sid).arch sid = s.arch sid ∧ (s.claimAndSleep sid).mem = s.mem ∧
      ∀ k, k ≠ sid → (s.claimAndSleep sid).strand k = s.strand k := by
  have hstrands : (s.claimAndSleep sid).strands = (s.onStrand sid fun t => { t with asleep := true }).strands := by
    unfold State.claimAndSleep
    dsimp only
    split
    · split <;> rfl
    · rfl
  have hstrand (k : Nat) : (s.claimAndSleep sid).strand k = (s.onStrand sid fun t => { t with asleep := true }).strand k := by
    rw [State.strand, hstrands]
    rfl
  have hmem : (s.claimAndSleep sid).mem = s.mem := by
    unfold State.claimAndSleep
    dsimp only
    split
    · split <;> rfl
    · rfl
  refine ⟨?_, ?_, ?_, hmem, fun k hk => (hstrand k).trans (State.strand_onStrand_ne s hk _)⟩
  · rw [hstrand, State.strand_onStrand_self]
  · rw [hstrand, State.strand_onStrand_self]
  · rw [State.arch, hstrand, State.strand_onStrand_self]
    rfl

section
variable {s : State} {sid cid : Nat} (hsid : sid = s.argN 0) (hcid : cid = coreOf sid) (hseeks : SeeksWork s sid)
include hcid hseeks

/-- Nothing keeps a strand that may look for work from its core's deque. -/
theorem findWork_looks : ((s.strand sid).firing.isSome || (s.strand sid).asleep || (s.die (dieOf sid)).fenced || (s.strand sid).out != [] ||
    (match (s.core cid).gang with | some g => s.leaving g | none => true) || s.owner cid != cid) = false := by
  obtain ⟨hfree, hawake, hsettled, hown, ⟨g, hg, hstay⟩, hup⟩ := hseeks
  subst hcid
  simp [hfree, hawake, hsettled, hown, hg, hstay, hup]

include hsid

theorem findWork_own {p : State} {r : Option State} (hown : s.fromOwn sid = (p, some r)) : exec .findWork s = .next (r.getD s) := by
  have hlook := findWork_looks hcid hseeks
  subst hsid hcid
  show execFindWork s = _
  unfold execFindWork
  refine (if_neg (Bool.eq_false_iff.mp hlook)).trans ?_
  rw [hown]
  cases r <;> rfl

theorem findWork_empty {p : State} (hown : s.fromOwn sid = (p, none)) (hvictim : p.victim cid = none) :
    exec .findWork s = .next (p.claimAndSleep sid) := by
  have hlook := findWork_looks hcid hseeks
  subst hsid hcid
  show execFindWork s = _
  unfold execFindWork
  refine (if_neg (Bool.eq_false_iff.mp hlook)).trans ?_
  rw [hown]
  simp only [hvictim]

/-- The top entry is started, if its record can be written. -/
theorem findWork_starts {e : BitVec 64 × BitVec 64} {l : List (BitVec 64 × BitVec 64)} (hdeque : s.deque cid = l ++ [e])
    (hstart : Startable s cid e) {p : State}
    (hp : p = s.onCore cid fun c => { c with dqstate := BitVec.ofNat 64 (dqBot c.dqstate * 2 ^ 16 + l.length) }) :
    exec .findWork s = .next ((p.startFiring sid e.1 e.2).getD s) := by
  obtain ⟨hquit, hpass⟩ := hstart
  have hset : s.setDeque cid l = p := by
    rw [setDeque_dropTop hdeque, hp, State.onCore, State.onCore]
  have hfrom : s.fromOwn sid = (p, some (p.startFiring sid e.1 e.2)) := by
    unfold State.fromOwn
    dsimp only
    rw [← hcid, hdeque, List.reverse_append, List.reverse_singleton, List.singleton_append, pick_startable _ hquit hpass]
    dsimp only
    rw [List.reverse_reverse, hset]
  exact findWork_own hsid hcid hseeks hfrom

theorem findWork_sleeps (hnone : dqCount (s.core cid).dqstate = 0)
    (hothers : ∀ k, k < 4 → (s.core (cid / 4 * 4 + k)).gang = (s.core cid).gang → dqCount (s.core (cid / 4 * 4 + k)).dqstate = 0) :
    exec .findWork s = .next (s.claimAndSleep sid) := by
  have hdeque : s.deque cid = [] := by rw [deque_eq, hnone]; rfl
  have hvictim : s.victim cid = none := by
    refine List.findSome?_eq_none_iff.mpr fun k _ => if_neg ?_
    rw [Bool.and_eq_true, beq_iff_eq, bne_iff_ne]
    rintro ⟨hgang, hentries⟩
    exact hentries (hothers _ (Nat.mod_lt _ (by decide)) hgang)
  refine findWork_empty hsid hcid hseeks ?_ hvictim
  unfold State.fromOwn State.setDeque
  dsimp only
  rw [← hcid, hdeque]
  simp [pick]

end

/-! ## The start of a firing (14 R268) -/

theorem recField_lt (s : State) (ref : Word) (off n : Nat) : s.recField ref off n < 256 ^ n := by
  have h := natOfBytes_lt ((List.range n).map fun j => s.committedByte (refLoc ref + off + j))
  rwa [List.length_map, List.length_range] at h

/-- The registers that a firing begins with (14 R268). -/
structure BeginsWith (a : Arch) (sp ar gp feat : Reg) (stage gang group : Nat) : Prop where
  g0 : a.readG 0 = .null
  g1 : a.readG 1 = .null
  sp : a.readG 2 = sp
  ar : a.readG 3 = ar
  gp : a.readG 5 = gp
  feat : a.readG 6 = feat
  others : ∀ n : BitVec 6, 7 ≤ n.toNat → a.readG n = .null
  vectors : ∀ n, a.readV n = 0
  mode : a.smode = false
  fflags : a.fflags = 0
  frm : a.frm = 0
  sclbase : a.sclbase = 0
  depth : a.cpdepth = 0
  stage : a.stage.toNat = stage
  gang : a.gangNo = gang
  group : a.group = group

theorem readG_begin (a : Arch) (sp ar cr gp feat entry : Reg) (stage gang group : Nat) (n : BitVec 6) :
    (a.begin sp ar cr gp feat entry stage gang group).readG n =
      if n = 0 then .null else if n.toNat = 2 then sp else if n.toNat = 3 then ar else if n.toNat = 4 then cr else if n.toNat = 5 then gp
        else if n.toNat = 6 then feat else .null := by
  unfold Arch.readG
  refine if_congr Iff.rfl rfl ?_
  rw [dif_neg (by simp [Arch.begin])]
  simp only [Arch.begin, Vector.getElem_ofFn]

theorem begin_beginsWith (a : Arch) (sp ar cr gp feat entry : Reg) {stage gang group : Nat} (hstage : stage < 256) (hgang : gang < 65536)
    (hgroup : group < 256) : BeginsWith (a.begin sp ar cr gp feat entry stage gang group) sp ar gp feat stage gang group := by
  have hnumber : (BitVec.ofNat 64 (gang * 256 + group)).toNat = gang * 256 + group := Nat.mod_eq_of_lt (by omega)
  refine ⟨readG_begin .., readG_begin .., readG_begin .., readG_begin .., readG_begin .., readG_begin .., fun n hn => ?_, fun n => ?_,
    rfl, rfl, rfl, rfl, rfl, Nat.mod_eq_of_lt (by omega), ?_, ?_⟩
  · rw [readG_begin]
    simp only [if_neg (show ¬ n.toNat = 2 by omega), if_neg (show ¬ n.toNat = 3 by omega), if_neg (show ¬ n.toNat = 4 by omega),
      if_neg (show ¬ n.toNat = 5 by omega), if_neg (show ¬ n.toNat = 6 by omega), ite_self]
  · simp [Arch.readV, Arch.begin]
  · show (BitVec.ofNat 64 (gang * 256 + group)).toNat / 256 % 65536 = gang
    rw [hnumber]
    omega
  · show (BitVec.ofNat 64 (gang * 256 + group)).toNat % 256 = group
    rw [hnumber]
    omega

/-- A strand at the start of a firing. -/
def Strand.starts (x : Strand) (ref : Word) (a : Arch) : Strand :=
  { x with firing := some ref, asleep := false, arch := a, chunks := [], wait := .none, trap := none, mchk := none,
           ganglost := none, preempt := false, engfault := [], halted := false }

theorem arch_starts (p : State) (sid : Nat) (ref : Word) (a : Arch) : (p.onStrand sid fun x => x.starts ref a).arch sid = a := by
  rw [State.arch, State.strand_onStrand_self]
  rfl

/-- Neither an uncommitted write nor a pinned reader of the record's line keeps a firing from its start. -/
def State.recordOpen (s : State) (ref : Word) : Prop :=
  ¬ ((s.padWriter none (refLoc ref + 32)).isSome || s.placeBlocked (dieOfCore (refCore ref)) [lineOf (refLoc ref)] none) = true

theorem State.eventOf_mem (s : State) (sid gang group code cause : Nat) (tval : Word) :
    (s.eventOf sid gang group code cause tval).mem = s.mem := rfl

/-- The core whose claim a firing takes if its record has the ACC flag. -/
def State.claimFor (s : State) (sid : Nat) (acc : Bool) : State :=
  if acc then s.onCore (coreOf sid) fun c => { c with claim := some sid } else s

theorem State.claimFor_mem (s : State) (sid : Nat) (acc : Bool) : (s.claimFor sid acc).mem = s.mem := by cases acc <;> rfl

theorem State.claimFor_claim (s : State) (sid : Nat) : ((s.claimFor sid true).core (coreOf sid)).claim = some sid := by
  rw [State.claimFor, if_pos rfl, State.core_onCore_self]

section
variable {s t : State} {sid cid gang : Nat} {ref arg : BitVec 64} (h : s.startFiring sid ref arg = some t)
include h

theorem recordOpen_of_starts : s.recordOpen ref := by
  intro hheld
  have hnone : s.startFiring sid ref arg = none := if_pos hheld
  rw [hnone] at h
  cases h

variable (hcid : cid = coreOf sid) (hgang : (s.core cid).gang = some gang)
include hcid hgang

/-- An entry of another gang counts in its record, and is reported for the core's gang. -/
theorem startFiring_other (hother : s.recField ref 32 2 ≠ gang) :
    t = (s.placeStore (refLoc ref + 40) (bytesOfNat 8 (s.recField ref 40 8 + 1)) none).eventOf sid gang (s.recField ref 34 1) 9 0 ref := by
  subst hcid
  have hdiffers : some (s.recField ref 32 2) ≠ (s.core (coreOf sid)).gang := by
    rw [hgang]
    exact fun heq => hother (Option.some.inj heq)
  have heq : s.startFiring sid ref arg = some _ := (if_neg (recordOpen_of_starts h)).trans (if_pos hdiffers)
  rw [heq, hgang] at h
  exact (Option.some.inj h).symm

/-- A record of the core's gang starts in the strand. -/
theorem startFiring_own (hown : s.recField ref 32 2 = gang) : ∃ (p : State) (cr entry : Reg),
    p.mem = (s.placeStore (refLoc ref + 40) (bytesOfNat 8 (s.recField ref 40 8 + 1)) none).mem ∧
    (s.recField ref 36 1 % 2 = 1 → (p.core cid).claim = some sid) ∧ entry.bits = BitVec.ofNat 128 (s.recField ref 0 16) ∧
    t = p.onStrand sid fun x => x.starts ref ((s.arch sid).begin (s.stackCap sid) (.data arg) cr (s.core cid).gp (s.core cid).feat entry
      (s.recField ref 35 1) gang (s.recField ref 34 1)) := by
  subst hcid hown
  have hsame : ¬ some (s.recField ref 32 2) ≠ (s.core (coreOf sid)).gang := by
    rw [hgang]
    exact fun hne => hne rfl
  have heq : s.startFiring sid ref arg = some _ := (if_neg (recordOpen_of_starts h)).trans (if_neg hsame)
  rw [heq] at h
  refine ⟨(s.placeStore (refLoc ref + 40) (bytesOfNat 8 (s.recField ref 40 8 + 1)) none).claimFor sid (s.recField ref 36 1 % 2 == 1),
    padCap [permLD, permST] (refCore ref == s.owner (coreOf sid)) (refCore ref) (refRaw ref) 64 0, ⟨BitVec.ofNat 128 (s.recField ref 0 16), _⟩,
    State.claimFor_mem _ _ _, fun hacc => ?_, rfl, (Option.some.inj h).symm⟩
  rw [hacc]
  exact State.claimFor_claim _ _

end

/-- Settles O31: each message and each step of finding work does what the deque, the counter and the registers that it leaves say. -/
theorem recordsFireAndStrandsFindWork : Obligations.RecordsFireAndStrandsFindWork := by
  unfold Obligations.RecordsFireAndStrandsFindWork
  refine ⟨⟨?away, ?cdec, ?count, ?carm, ?pushed, ?push⟩, ?start, ?sleep, ?firing, ?steal, ?csteal, ?spill, ?claim⟩
  case away => exact fun s i m gang cid hm hto haway => exec_gangAway hm hto haway
  case cdec => exact fun s m sid gang ref d hm hkind hhere hfree hpush => cdecApply_applies hm hkind hhere hfree hpush
  case count =>
    exact fun s src ref old rearm d hold hrearm => ⟨fun hpos hdone p hp => decrement_fires hold hrearm hpos hdone hp,
      fun h => decrement_counts hold hrearm h⟩
  case carm => exact fun s m sid gang ref v hm hkind hhere hfree => carmApply_applies hm hkind hhere hfree
  case pushed => exact fun s m sid gang ref arg top hm hkind hhere hpush => dequePush_pushes hm hkind hhere hpush
  case push =>
    rintro s t cid ref arg top rfl
    refine ⟨push_discarded, fun hquit hlost => ⟨push_spills hquit hlost, fun hroom hunread => ?_⟩⟩
    have hslot : Unread s (s.dqLoc cid (pushSlot (s.core cid).dqstate top)) := by
      rw [pushSlot]
      exact hunread
    refine ⟨deque_push hquit hlost hroom hslot, fun a ha => readByte_push hquit hlost hroom hslot ?_⟩
    rw [pushSlot]
    exact ha
  case start =>
    intro s sid cid e l hsid hcid hseeks hdeque hstart p hp
    have hexec := findWork_starts hsid hcid hseeks hdeque hstart hp
    exact ⟨fun t ht => by rw [hexec, ht]; rfl, fun hnone => by rw [hexec, hnone]; rfl⟩
  case sleep =>
    intro s sid cid hsid hcid hseeks hnone hothers
    obtain ⟨hasleep, hfiring, harch, hmem, hstrands⟩ := s.claimAndSleep_sleeps sid
    exact ⟨_, findWork_sleeps hsid hcid hseeks hnone hothers, hasleep, hfiring.trans hseeks.free, harch, hmem, hstrands⟩
  case firing =>
    intro s t sid cid gang ref arg hcid hgang _ _ h
    refine ⟨?_, startFiring_other h hcid hgang, fun hown => ?_⟩
    · by_cases hown : s.recField ref 32 2 = gang
      · obtain ⟨p, cr, entry, hmem, -, -, rfl⟩ := startFiring_own h hcid hgang hown
        exact hmem
      · rw [startFiring_other h hcid hgang hown]
        exact State.eventOf_mem ..
    · obtain ⟨p, cr, entry, -, hclaim, hentry, rfl⟩ := startFiring_own h hcid hgang hown
      obtain ⟨hg0, hg1, hsp, har, hgp, hfeat, hnull, hvec, hmode, hff, hfrm, hscl, hdepth, hstage, hgangNo, hgroup⟩ :=
        begin_beginsWith (s.arch sid) (s.stackCap sid) (.data arg) cr (s.core cid).gp (s.core cid).feat entry (recField_lt s ref 35 1)
          (hown ▸ recField_lt s ref 32 2) (recField_lt s ref 34 1)
      rw [arch_starts, State.strand_onStrand_self, State.core_onStrand]
      exact ⟨rfl, rfl, rfl, hentry, hg0, hg1, hsp, har, hgp, hfeat, hnull, hvec, hmode, hff, hfrm, hscl, hdepth, hstage, hgangNo, hgroup,
        hclaim⟩
  case steal => exact fun s v k hk hn => stealFrom_takes hk hn
  case csteal => exact fun s p m sid out v gang k l hm hkind hhere hgang hk hsteal hlive => cstealTake_moves hm hkind hhere hgang hk hsteal hlive
  case spill =>
    exact fun s m die gang n ref arg q hm hkind hq => ⟨dieQueueSpill_writes hm hkind hq, dieQueueSpill_waits hm hkind hq⟩
  case claim =>
    intro s cid h q hcid hclaim hq p ref hp href
    refine ⟨fun hseq => ⟨fun hquit hlost hheld => ?_, fun hgone => ?_⟩, dieQueueClaim_waits hcid hclaim hq,
      dieQueueClaim_late hcid hclaim hq hp⟩
    · exact dieQueueClaim_takes hcid hclaim hq hp href hseq hquit hlost hheld
    · exact dieQueueClaim_gone hcid hclaim hq hp href hseq hgone

end Sys2Proof.Machine

/-! SUPPORT. Shapes, footprints, and the elements of a copy (15 R280 to R284). -/

namespace Sys2Proof.Machine

open Sys2Proof Sys2Proof.Claims

/-! ## A shape that passes (15 R282, R284) -/

/-- A test that no element of a list fails holds of all. -/
theorem all_of_firstBad {α : Type} {f : α → Bool} {l : List α} (h : firstBad f l = none) : ∀ x ∈ l, f x = true := by
  intro x hx
  have := List.findIdx?_eq_none_iff.mp h x hx
  simpa using this

/-- A field list of a shape, by dimension. -/
theorem getD_range_map (f : Nat → Nat) {n d : Nat} (h : d < n) : ((List.range n).map f).getD d 0 = f d := by
  simp [List.getD_eq_getElem?_getD, h]

theorem parseShape_ok {g : Bool} {bs : List Byte} {c : CopyCmd} (h : parseShape g bs = .ok c) :
    c.esz ≤ 4 ∧ 1 ≤ c.dims ∧ c.dims ≤ 5 ∧ c.action ≤ 3 ∧ (g = true → c.dims = 2 ∧ c.counts.getD 1 0 ≤ 1024) ∧
      c.counts.length = c.dims ∧ c.valids.length = c.dims ∧
      (∀ d < c.dims, 1 ≤ c.counts.getD d 0 ∧ c.counts.getD d 0 ≤ 65535 ∧ c.valids.getD d 0 ≤ c.counts.getD d 0) ∧
      prod c.counts ≤ 2 ^ 21 ∧ 2 ^ c.esz * prod (if c.skip then c.valids else c.counts) ≤ 2 ^ 24 := by
  unfold parseShape at h
  dsimp only at h
  generalize (if g = true then 2 else 0) = kind at h
  split at h
  · cases h
  split at h
  · cases h
  split at h
  · cases h
  split at h
  · cases h
  split at h
  · cases h
  split at h
  · cases h
  split at h
  · cases h
  split at h
  · cases h
  rename_i hesz hdims haction _ hcounts _ hvalids hfirst _ hproducts hbytes
  obtain rfl := Except.ok.inj h
  have hcount := all_of_firstBad hcounts
  have hvalid := all_of_firstBad hvalids
  have hproduct := all_of_firstBad hproducts
  simp only [List.mem_range] at hcount hvalid hproduct
  generalize hn : fieldAt bs 1 1 = n at *
  have hrange : 1 ≤ n ∧ n ≤ 5 := by omega
  refine ⟨Nat.not_lt.mp hesz, hrange.1, hrange.2, Nat.not_lt.mp haction, fun hg => ?_, by simp, by simp, fun d hd => ?_, ?_, Nat.not_lt.mp hbytes⟩
  · have htwo : n = 2 := by by_contra hne; exact hdims (Or.inr (Or.inr ⟨hg, hne⟩))
    have h1 := hcount 1 (by omega)
    simp only [hg] at h1
    refine ⟨htwo, ?_⟩
    simpa using (Bool.and_eq_true_iff.mp h1).2
  · have h1 := (Bool.and_eq_true_iff.mp (hcount d hd)).1
    have hlt := fieldAt_lt bs (4 + 2 * d) 2
    refine ⟨of_decide_eq_true h1, ?_, of_decide_eq_true (hvalid d hd)⟩
    show (List.getD _ d 0) ≤ _
    rw [getD_range_map _ hd]
    omega
  · have hlast := of_decide_eq_true (hproduct (n - 1) (by omega))
    rwa [List.take_of_length_le (by simp; omega)] at hlast

/-! ## The footprint of a side (15 R284) -/

/-- The lowest and the highest offset of a side bound that of each element. -/
theorem strideSum_bounds : ∀ (is ns : List Nat) (ts : List Int), is.length = ns.length → (∀ d < is.length, is.getD d 0 < ns.getD d 0) →
    spread (min 0) ns ts ≤ strideSum is ts ∧ strideSum is ts ≤ spread (max 0) ns ts
  | [], [], ts, _, _ => by cases ts <;> exact ⟨Int.le_refl _, Int.le_refl _⟩
  | i :: is, n :: ns, [], _, _ => ⟨Int.le_refl _, Int.le_refl _⟩
  | i :: is, n :: ns, t :: ts, hlen, hlt => by
    have hrest := strideSum_bounds is ns ts (Nat.succ.inj hlen) fun d hd => by
      simpa using hlt (d + 1) (by simpa using hd)
    have hi : i < n := by simpa using hlt 0 (by simp)
    have hlow : min 0 (((n : Int) - 1) * t) ≤ i * t := by
      rcases Int.le_total 0 t with ht | ht
      · exact (min_le_left _ _).trans (Int.mul_nonneg (by omega) ht)
      · exact (min_le_right _ _).trans (Int.mul_le_mul_of_nonpos_right (by omega) ht)
    have hhigh : i * t ≤ max 0 (((n : Int) - 1) * t) := by
      rcases Int.le_total 0 t with ht | ht
      · exact (Int.mul_le_mul_of_nonneg_right (by omega) ht).trans (le_max_right _ _)
      · exact (Int.mul_nonpos_of_nonneg_of_nonpos (by omega) ht).trans (le_max_left _ _)
    simp only [spread, strideSum]
    omega

theorem span_holds {c : CopyCmd} {dst : Bool} {cursor : Nat} {lo hi : Int} {i0 : Nat} {is : List Nat}
    (h : c.span dst cursor = some (lo, hi)) (hlen : (i0 :: is).length = (c.extents dst).length)
    (hlt : ∀ d < (i0 :: is).length, (i0 :: is).getD d 0 < (c.extents dst).getD d 0) :
    lo ≤ (cursor : Int) + (2 ^ c.esz * i0 : Nat) + strideSum is (if dst then c.dstride else c.sstride) ∧
      (cursor : Int) + (2 ^ c.esz * i0 : Nat) + strideSum is (if dst then c.dstride else c.sstride) + (2 ^ c.esz : Nat) ≤ hi := by
  unfold CopyCmd.span at h
  dsimp only at h
  split at h
  · cases h
  obtain ⟨rfl, rfl⟩ := Prod.mk.inj (Option.some.inj h)
  match hext : c.extents dst with
  | [] =>
    rw [hext] at hlen
    cases hlen
  | n :: ns =>
    rw [hext] at hlen hlt
    obtain ⟨hlow, hhigh⟩ := strideSum_bounds is ns (if dst then c.dstride else c.sstride) (Nat.succ.inj hlen) fun d hd => by
      simpa using hlt (d + 1) (by simpa using hd)
    have hi : i0 + 1 ≤ n := by simpa using hlt 0 (by simp)
    have hmul : 2 ^ c.esz * i0 + 2 ^ c.esz ≤ 2 ^ c.esz * n := by
      rw [← Nat.mul_succ]
      exact Nat.mul_le_mul_left _ hi
    simp only [List.drop_succ_cons, List.drop_zero, List.headD_cons]
    omega

/-! ## The elements of a run (15 R283) -/

/-- The elements of a run lie in one sector. -/
theorem run_fits (c : CopyCmd) (limit i a : Nat) : 1 ≤ c.run limit i a ∧
    (c.run limit i a = 1 ∨ i + c.run limit i a ≤ limit ∧ a % 16 + 2 ^ c.esz * c.run limit i a ≤ 16) := by
  unfold CopyCmd.run
  generalize hm : min (limit - i) ((16 - a % 16) / 2 ^ c.esz) = m
  refine ⟨Nat.le_max_left _ _, ?_⟩
  by_cases hone : m ≤ 1
  · exact Or.inl (Nat.max_eq_left hone)
  · rw [Nat.max_eq_right (by omega)]
    have hsector : 2 ^ c.esz * m ≤ 16 - a % 16 := (Nat.mul_le_mul_left _ (by omega : m ≤ _)).trans (Nat.mul_div_le _ _)
    exact Or.inr ⟨by omega, by omega⟩

/-! ## Reads (15 R280, R283) -/

theorem readRun_held {s : State} {before : List CopyCmd} {c : CopyCmd} (h : c.total ≤ c.reads ∨ ∃ b ∈ before, b.reads < b.total) :
    s.readRun before c = .held := by
  refine if_pos ?_
  rcases h with h | ⟨b, hb, hless⟩
  · simp [h]
  · rw [Bool.or_eq_true, List.any_eq_true]
    exact Or.inr ⟨b, hb, decide_eq_true hless⟩

section
variable {s t : State} {before : List CopyCmd} {c x : CopyCmd} {ix : List Nat} (hix : ix = indices c.counts c.reads)
  (h : s.readRun before c = .moved t x)
include hix h

theorem readRun_edge (hedge : c.edge ix = true) : t = s ∧ x = { c with buf := c.buf ++ [none] } := by
  subst hix
  unfold State.readRun at h
  dsimp only at h
  split at h
  · cases h
  · obtain ⟨rfl, rfl⟩ := Moved.moved.inj h
    exact ⟨rfl, rfl⟩

/-- A read takes the elements of a run that lie in one source sector. -/
theorem readRun_takes (hinner : c.edge ix = false) : ∃ loc n, s.engineLoc c.cid (c.srcAt ix) false = .ok loc ∧ t = s ∧ 1 ≤ n ∧
    (n = 1 ∨ ix.headD 0 + n ≤ c.valids.headD 0 ∧ c.srcAt ix % 16 + 2 ^ c.esz * n ≤ 16) ∧
    x = { c with buf := x.buf } ∧ x.buf = c.buf ++ (List.range n).map fun j =>
      some ((List.range (2 ^ c.esz)).map fun b => s.byteAt (loc + 2 ^ c.esz * j + b)) := by
  subst hix
  unfold State.readRun at h
  dsimp only at h
  split at h
  · cases h
  rw [hinner] at h
  simp only [Bool.false_eq_true, if_false] at h
  split at h
  · cases h
  · rename_i loc hloc
    split at h
    · cases h
    · obtain ⟨rfl, rfl⟩ := Moved.moved.inj h
      obtain ⟨hone, hfits⟩ := run_fits c (c.valids.headD 0) ((indices c.counts c.reads).headD 0) (c.srcAt (indices c.counts c.reads))
      exact ⟨loc, _, hloc, rfl, hone, hfits, rfl, rfl⟩

end

/-! ## The image of a destination sector (15 R283) -/

/-- The bytes that elements of `e` bytes make one after another: an edge element is zero. -/
def elementByte (e : Nat) (l : List (Option (List Byte))) (k : Nat) : Byte := ((l.getD (k / e) none).getD []).getD (k % e) 0

/-- The elements of a buffer have `e` bytes each. -/
def ElementsOf (e : Nat) (l : List (Option (List Byte))) : Prop := ∀ y ∈ l, ∀ bs, y = some bs → bs.length = e

theorem natOfBytes_element {e : Nat} {y : Option (List Byte)} (h : ∀ bs, y = some bs → bs.length = e) : natOfBytes (y.getD []) < 256 ^ e := by
  cases y with
  | none => exact Nat.pow_pos (by decide)
  | some bs =>
    rw [← h bs rfl]
    exact natOfBytes_lt bs

theorem byteOf_fillImage {e : Nat} (he : 0 < e) : ∀ (l : List (Option (List Byte))) (off k : Nat), ElementsOf e l → off + e * l.length ≤ 16 →
    k < 16 →
    byteOf (fillImage e off l).1 k = (if off ≤ k ∧ k < off + e * l.length then elementByte e l (k - off) else 0) ∧
      byteOf (fillImage e off l).2 k = if off ≤ k ∧ k < off + e * l.length then BitVec.allOnes 8 else 0
  | [], off, k, _, _, _ => by
    rw [fillImage, List.length_nil, Nat.mul_zero, if_neg (by omega), if_neg (by omega)]
    exact ⟨byteOf_zero k, byteOf_zero k⟩
  | y :: l, off, k, hl, hfits, hk => by
    rw [List.length_cons, Nat.mul_succ] at hfits
    obtain ⟨hdata, hbits⟩ := byteOf_fillImage he l (off + e) k (fun z hz => hl z (List.mem_cons_of_mem y hz)) (by omega) hk
    rw [fillImage, byteOf_or, byteOf_or, hdata, hbits, byteOf_shifted _ e off k (natOfBytes_element (hl y List.mem_cons_self)) hk,
      byteOf_bitsFor e off k (by omega) hk, List.length_cons, Nat.mul_succ]
    by_cases hfirst : off ≤ k ∧ k < off + e
    · have hall : off ≤ k ∧ k < off + (e * l.length + e) := by omega
      have hrest : ¬ (off + e ≤ k ∧ k < off + e + e * l.length) := by omega
      have hzero : (k - off) / e = 0 := Nat.div_eq_of_lt (by omega)
      have hmod : (k - off) % e = k - off := Nat.mod_eq_of_lt (by omega)
      rw [if_pos hfirst, if_pos hfirst, if_pos hall, if_pos hall, if_neg hrest, if_neg hrest, natOfBytes_get, elementByte, hzero, hmod,
        List.getD_cons_zero]
      exact ⟨BitVec.zero_or, BitVec.zero_or⟩
    · rw [if_neg hfirst, if_neg hfirst]
      by_cases hrest : off + e ≤ k ∧ k < off + e + e * l.length
      · have hall : off ≤ k ∧ k < off + (e * l.length + e) := by omega
        have hstep : k - off = k - (off + e) + e := by omega
        rw [if_pos hrest, if_pos hrest, if_pos hall, if_pos hall, elementByte, elementByte, hstep, Nat.add_div_right _ he,
          Nat.add_mod_right, List.getD_cons_succ]
        exact ⟨BitVec.or_zero, BitVec.or_zero⟩
      · have hnone : ¬ (off ≤ k ∧ k < off + (e * l.length + e)) := by omega
        rw [if_neg hrest, if_neg hrest, if_neg hnone, if_neg hnone]
        exact ⟨BitVec.or_zero, BitVec.or_zero⟩


/-! ## Writes (15 R283) -/

/-- A location and its storage lie at the same place of their sectors. -/
theorem real_mod (s : State) (loc : Nat) : s.real loc % 16 = loc % 16 := by
  unfold State.real
  split <;> omega

theorem exists_bits {e off : Nat} (he : 0 < e) (l : List (Option (List Byte))) (hl : ElementsOf e l) (hn : 0 < l.length)
    (hfits : off + e * l.length ≤ 16) : ∃ k, k < 16 ∧ byteOf (fillImage e off l).2 k ≠ 0 := by
  have hpos : 0 < e * l.length := Nat.mul_pos he hn
  refine ⟨off, by omega, ?_⟩
  rw [(byteOf_fillImage he l off off hl hfits (by omega)).2, if_pos ⟨Nat.le_refl _, by omega⟩]
  decide

section
variable {s : State} {e off sec : Nat} {l : List (Option (List Byte))} (he : 0 < e) (hl : ElementsOf e l) (hfits : off + e * l.length ≤ 16)
include he hl hfits

/-- Each element of the image of a sector brings its bytes to its own place. -/
theorem readByte_image {j b : Nat} (hj : j < l.length) (hb : b < e) :
    readByte (s.writeSector sec (fillImage e off l).1 (fillImage e off l).2 false).mem (sec + off + e * j + b) =
      ((l.getD j none).getD []).getD b 0 := by
  have hmul : e * (j + 1) ≤ e * l.length := Nat.mul_le_mul_left _ hj
  rw [Nat.mul_succ] at hmul
  obtain ⟨hdata, hbits⟩ := byteOf_fillImage he l off (off + (e * j + b)) hl hfits (by omega)
  rw [if_pos (by omega)] at hdata hbits
  have hk : sec + off + e * j + b - sec = off + (e * j + b) := by omega
  rw [State.writeSector_mem, readByte_mergeBytes, if_pos (by omega), hk, hdata, hbits, elementByte, Nat.add_sub_cancel_left,
    Nat.mul_add_div he, Nat.mul_add_mod, Nat.div_eq_of_lt hb, Nat.mod_eq_of_lt hb, Nat.add_zero, BitVec.not_allOnes, BitVec.and_zero,
    BitVec.zero_or, BitVec.and_allOnes]

/-- Every byte outside the elements keeps its value. -/
theorem readByte_image_ne {a : Nat} (ha : ∀ j < l.length, ∀ b < e, a ≠ sec + off + e * j + b) :
    readByte (s.writeSector sec (fillImage e off l).1 (fillImage e off l).2 false).mem a = readByte s.mem a := by
  rw [State.writeSector_mem, readByte_mergeBytes]
  by_cases hin : sec ≤ a ∧ a < sec + 16
  · have hout : ¬ (off ≤ a - sec ∧ a - sec < off + e * l.length) := by
      rintro ⟨hlow, hhigh⟩
      have hj : (a - sec - off) / e < l.length := (Nat.div_lt_iff_lt_mul he).mpr (by rw [Nat.mul_comm]; omega)
      refine ha _ hj _ (Nat.mod_lt (a - sec - off) he) ?_
      have := Nat.div_add_mod (a - sec - off) e
      omega
    obtain ⟨hdata, hbits⟩ := byteOf_fillImage he l off (a - sec) hl hfits (by omega)
    rw [if_pos hin, hdata, hbits, if_neg hout, if_neg hout]
    show (readByte s.mem a &&& BitVec.allOnes 8) ||| (0 &&& 0) = _
    rw [BitVec.and_allOnes, BitVec.and_self]
    exact BitVec.or_zero
  · rw [if_neg hin]

/-- The tag of the sector is cleared, and every other is kept. -/
theorem tagAt_image (hsec : sec % 16 = 0) (hn : 0 < l.length) (k : Nat) :
    tagAt (s.writeSector sec (fillImage e off l).1 (fillImage e off l).2 false).tags k =
      if k = sec / 16 then false else tagAt s.tags k := by
  rw [State.writeSector_tags, tagAt_mergeTags _ _ _ _ _ _ hsec (Nat.le_refl 16)]
  exact if_congr (and_iff_left (exists_bits he l hl hn hfits)) rfl rfl

end

section
variable {s t : State} {before : List CopyCmd} {c x : CopyCmd} {ix : List Nat} {stuck : Bool} (hix : ix = indices c.counts c.at_)
  (h : s.writeRead before stuck c = .moved t x)
include hix h

theorem writeRead_passes (hpassed : (c.skip && c.edge ix) = true) : t = s ∧ x = { c with at_ := c.at_ + 1, buf := c.buf.drop 1 } := by
  subst hix
  unfold State.writeRead at h
  dsimp only at h
  split at h
  · cases h
  · obtain ⟨rfl, rfl⟩ := Moved.moved.inj h
    exact ⟨rfl, rfl⟩

/-- A write takes the elements read that lie in one destination sector. -/
theorem writeRead_writes {loc : Nat} (hinner : (c.skip && c.edge ix) = false) (hloc : s.engineLoc c.cid (c.dstAt ix) true = .ok loc) :
    ∃ m, m = c.run (if c.skip then c.valids.headD 0 else c.counts.headD 0) (ix.headD 0) (c.dstAt ix) ∧ c.buf ≠ [] ∧
      x = { c with at_ := c.at_ + min m c.buf.length, buf := c.buf.drop (min m c.buf.length) } ∧
      t = (s.writeSector (s.real loc / 16 * 16) (fillImage (2 ^ c.esz) (loc % 16) (c.buf.take m)).1
        (fillImage (2 ^ c.esz) (loc % 16) (c.buf.take m)).2 false).squashHome (s.real loc / 16 * 16) [lineOf (s.real loc / 16 * 16)] none := by
  subst hix
  unfold State.writeRead at h
  dsimp only at h
  split at h
  · cases h
  rename_i hsome
  rw [hinner, hloc] at h
  simp only [Bool.false_eq_true, if_false] at h
  generalize hm : c.run (if c.skip then c.valids.headD 0 else c.counts.headD 0) ((indices c.counts c.at_).headD 0)
    (c.dstAt (indices c.counts c.at_)) = m at h
  split at h
  · cases h
  · obtain ⟨rfl, rfl⟩ := Moved.moved.inj h
    exact ⟨m, rfl, hsome, rfl, rfl⟩

end

/-- A write to a sector whose line no open chunk has read squashes none. -/
theorem squashHome_unread {s : State} {sec : Nat} {self : Option Nat} (h : ∀ k, ∀ y ∈ (s.strand k).chunks, lineOf sec ∉ y.reads) :
    s.squashHome sec [lineOf sec] self = s := by
  unfold State.squashHome
  split
  · refine squashReaders_none _ _ _ _ fun k c hc y hy => ?_
    rw [List.mem_singleton.mp hy]
    exact h k c hc
  · rfl

/-- What a write of a run of elements leaves. -/
theorem writeRun_leaves {s t : State} {before : List CopyCmd} {c x : CopyCmd} {ix : List Nat} {loc d : Nat}
    (hix : ix = indices c.counts c.at_) (h : s.writeRun before c = .moved t x) (hinner : (c.skip && c.edge ix) = false)
    (hloc : s.engineLoc c.cid (c.dstAt ix) true = .ok loc) (hd : d = s.real loc) (hplace : loc % 16 = c.dstAt ix % 16)
    (hfirst : loc % 16 + 2 ^ c.esz ≤ 16) (hbuf : ElementsOf (2 ^ c.esz) c.buf) (hunread : ∀ k, ∀ y ∈ (s.strand k).chunks, d / 128 ∉ y.reads) :
    ∃ n, 1 ≤ n ∧ n ≤ c.buf.length ∧ x = { c with at_ := c.at_ + n, buf := c.buf.drop n } ∧
      (n = 1 ∨ ix.headD 0 + n ≤ (if c.skip then c.valids.headD 0 else c.counts.headD 0) ∧ loc % 16 + 2 ^ c.esz * n ≤ 16) ∧
      (∀ j < n, ∀ b < 2 ^ c.esz, readByte t.mem (d + 2 ^ c.esz * j + b) = ((c.buf.getD j none).getD []).getD b 0) ∧
      (∀ a, (∀ j < n, ∀ b < 2 ^ c.esz, a ≠ d + 2 ^ c.esz * j + b) → readByte t.mem a = readByte s.mem a) ∧
      (∀ k, k ≠ d / 16 → tagAt t.tags k = tagAt s.tags k) ∧ tagAt t.tags (d / 16) = false := by
  obtain ⟨m, hm, hsome, hx, ht⟩ := writeRead_writes hix h hinner hloc
  obtain ⟨hone, hrun⟩ := run_fits c (if c.skip then c.valids.headD 0 else c.counts.headD 0) (ix.headD 0) (c.dstAt ix)
  rw [← hm] at hone hrun
  rw [← hplace] at hrun
  have hlen : 0 < c.buf.length := List.length_pos_iff.mpr hsome
  have hoff : d % 16 = loc % 16 := hd ▸ real_mod s loc
  have hsec : d / 16 * 16 + loc % 16 = d := by omega
  have hline : lineOf (d / 16 * 16) = d / 128 := by
    unfold lineOf
    omega
  have he : 0 < 2 ^ c.esz := Nat.two_pow_pos _
  have hl : ElementsOf (2 ^ c.esz) (c.buf.take m) := fun y hy => hbuf y (List.mem_of_mem_take hy)
  have htake : (c.buf.take m).length = min m c.buf.length := List.length_take
  generalize hn : min m c.buf.length = n at hx htake
  have hle : 2 ^ c.esz * n ≤ 2 ^ c.esz * m := Nat.mul_le_mul_left _ (by omega)
  have hfits : loc % 16 + 2 ^ c.esz * (c.buf.take m).length ≤ 16 := by
    rw [htake]
    rcases hrun with hrun | ⟨-, hrun⟩
    · rw [show n = 1 by omega, Nat.mul_one]
      exact hfirst
    · omega
  rw [← hd, squashHome_unread fun k y hy => hline ▸ hunread k y hy] at ht
  subst ht
  refine ⟨n, by omega, by omega, hx, ?_, fun j hj b hb => ?_, fun a ha => ?_, fun k hk => ?_, ?_⟩
  · rcases hrun with hrun | ⟨hindex, hsector⟩
    · exact Or.inl (by omega)
    · exact Or.inr ⟨by omega, by omega⟩
  · have hget : (c.buf.take m).getD j none = c.buf.getD j none := by
      rw [List.getD_eq_getElem?_getD, List.getElem?_take_of_lt (by omega), ← List.getD_eq_getElem?_getD]
    have himage := readByte_image (s := s) (sec := d / 16 * 16) he hl hfits (htake ▸ hj) hb
    rwa [hsec, hget] at himage
  · refine readByte_image_ne he hl hfits fun j hj b hb => ?_
    rw [hsec]
    exact ha j (htake ▸ hj) b hb
  · rw [tagAt_image he hl hfits (by omega) (by omega), if_neg (by omega)]
  · rw [tagAt_image he hl hfits (by omega) (by omega), if_pos (by omega)]

/-- Settles O33: a shape's checks bound its fields and its footprint; what is read and written of a run is the image of its elements. -/
theorem shapesPassAndElementsArrive : Obligations.ShapesPassAndElementsArrive := by
  unfold Obligations.ShapesPassAndElementsArrive
  refine ⟨⟨fun g bs c h => parseShape_ok h, fun c dst cursor lo hi i0 is h hlen hlt => span_holds h hlen hlt⟩,
    fun s before c h => readRun_held h, fun s t before c x ix hix h => ⟨readRun_edge hix h, readRun_takes hix h⟩,
    fun s t before c x ix hix h => ⟨writeRead_passes hix h, ?_⟩⟩
  exact fun loc d hinner hloc hd _ hplace hfirst hbuf hunread => writeRun_leaves hix h hinner hloc hd hplace hfirst hbuf hunread

end Sys2Proof.Machine

/-! SUPPORT. Versions, the horizon, and reads of stamped lines (19 R361 to R363, R367, R369). -/

namespace Sys2Proof.Machine

open Sys2Proof Sys2Proof.Claims

/-! ## Versions at their home (19 R361) -/

section
variable {s : State} {m : Msg} {v : Version} {d : Nat} (hm : s.msg (s.argN 0) = some m) (hkind : m.kind = .version v)
  (hd : d = stampHome v.loc) (hup : (s.die d).fenced = false) (hfrom : (s.die v.die).fenced = false)
include hm hkind hd hup hfrom

theorem stampVersion_waits (hfull : 32 ≤ s.sliceHeld v.loc) : exec .stampVersion s = .next s := by
  obtain ⟨id, src, eng, kind⟩ := m
  subst hkind hd
  show execStampVersion s = _
  simp only [execStampVersion, hm, hup, hfrom, Bool.or_self, Bool.false_eq_true, if_false, if_pos hfull]

theorem stampVersion_held (hroom : s.sliceHeld v.loc < 32) : ∃ t, exec .stampVersion s = .next t ∧
    (t.die d).versions = (s.die d).versions ++ [v] ∧ t.msg (s.argN 0) = none ∧ t.mem = s.mem ∧ t.strands = s.strands := by
  obtain ⟨id, src, eng, kind⟩ := m
  subst hkind hd
  refine ⟨(s.dropMsg (s.argN 0)).onDie (stampHome v.loc) fun x => { x with versions := x.versions ++ [v] }, ?_, ?_, msg_dropMsg s _, rfl, rfl⟩
  · show execStampVersion s = _
    simp only [execStampVersion, hm, hup, hfrom, Bool.or_self, Bool.false_eq_true, if_false, if_neg (Nat.not_le.mpr hroom)]
  · rw [State.die_onDie_self]
    rfl

end

theorem release_eq (package die earliest : Nat) (v : Version) : v.release package die earliest =
    { v with released := v.released || decide (v.package = package ∧ v.die = die ∧ v.stamp < earliest) } := by
  unfold Version.release
  by_cases h : v.package = package ∧ v.die = die ∧ v.stamp < earliest
  · rw [if_pos h, decide_eq_true h, Bool.or_true]
  · rw [if_neg h, decide_eq_false h, Bool.or_false]

theorem releaseVersions_versions (s : State) (package die earliest k : Nat) :
    ((s.releaseVersions package die earliest).die k).versions = (s.die k).versions.map (Version.release package die earliest) := by
  have hdie : (s.releaseVersions package die earliest).die k =
      { s.die k with versions := (s.die k).versions.map (Version.release package die earliest) } :=
    mapGet_map (f := fun x : Die => { x with versions := x.versions.map (Version.release package die earliest) }) rfl k s.dies
  rw [hdie]

/-- The clock of its storing die releases a version wherever it is held. -/
theorem stampRelease_releases (s : State) : ∃ t, exec .stampRelease s = .next t ∧ t.mem = s.mem ∧ t.strands = s.strands ∧
    ∀ d, (t.die d).versions = (s.die d).versions.map (fun v =>
      { v with released := v.released || decide (v.package = s.bindery.package ∧ v.die = s.argN 0 ∧
        v.stamp < (s.die (s.argN 0)).earliest) }) := by
  refine ⟨_, rfl, rfl, rfl, fun d => ?_⟩
  have hrelease : Version.release s.bindery.package (s.argN 0) (s.die (s.argN 0)).earliest = fun v : Version =>
      { v with released := v.released || decide (v.package = s.bindery.package ∧ v.die = s.argN 0 ∧
        v.stamp < (s.die (s.argN 0)).earliest) } := funext fun v => release_eq _ _ _ v
  rw [← hrelease]
  exact releaseVersions_versions ..

section
variable {s : State} {line d : Nat} {g : List Version} (hline : line = s.argN 0) (hd : d = stampHome (128 * line))
  (hg : g = smallestKey ((s.die d).versions.filter fun v => lineOf v.loc == line))
include hline hd hg

theorem versionApply_waits (hheld : ∃ v ∈ g, v.released = false ∨ (s.die d).horizon ≤ v.stamp) : exec .versionApply s = .next s := by
  subst hline hd
  have hany : (g.any fun v => !v.released || decide ((s.die (stampHome (128 * s.argN 0))).horizon ≤ v.stamp)) = true := by
    obtain ⟨v, hv, hearly⟩ := hheld
    refine List.any_eq_true.mpr ⟨v, hv, ?_⟩
    rcases hearly with hearly | hearly <;> simp [hearly]
  subst hg
  exact if_pos (Or.inr hany)

/-- The versions of the smallest key of a line, released and below the horizon, are applied together. -/
theorem versionApply_applies (hsome : g ≠ []) (hready : ∀ v ∈ g, v.released = true ∧ v.stamp < (s.die d).horizon)
    (hfree : s.placeBlocked d [line, line + 256] none = false) :
    exec .versionApply s = .next (((s.applyVersions line g).onDie d fun x =>
      { x with versions := x.versions.filter fun v => !g.contains v }).squashReaders d [line, line + 256] none) := by
  subst hline hd
  have hnone : ¬ (g = [] ∨ (g.any fun v => !v.released || decide ((s.die (stampHome (128 * s.argN 0))).horizon ≤ v.stamp)) = true) := by
    rintro (hempty | hany)
    · exact hsome hempty
    · obtain ⟨v, hv, hearly⟩ := List.any_eq_true.mp hany
      obtain ⟨hreleased, hbelow⟩ := hready v hv
      simp only [hreleased, Bool.not_true, Bool.false_or, decide_eq_true_eq] at hearly
      omega
  subst hg
  exact (if_neg hnone).trans (if_neg (Bool.eq_false_iff.mp hfree))

end

theorem readBytes_length (m : List Host.Cell) (a n : Nat) : (readBytes m a n).length = n := by
  induction n generalizing a with
  | zero => rfl
  | succ n ih => rw [readBytes, List.length_cons, ih]

theorem readBytes_getD (m : List Host.Cell) (a n j : Nat) (h : j < n) : (readBytes m a n).getD j 0 = readByte m (a + j) := by
  induction n generalizing a j with
  | zero => omega
  | succ n ih =>
    cases j with
    | zero => rfl
    | succ j =>
      rw [readBytes, List.getD_cons_succ, ih (a + 1) j (by omega)]
      congr 1
      omega

section
variable {s : State} {line : Nat} {v : Version} (hword : v.loc / 8 * 8 = v.loc) (hline : lineOf v.loc = line) (hoff : v.loc % 128 ≤ 104)
include hword hline hoff

omit hword hline hoff in
/-- A line with one version applied: the shadow, the word, the stamp. -/
theorem applyVersions_one (s : State) (line : Nat) (v : Version) : (s.applyVersions line [v]).mem =
    writeBytes (writeBytes (writeBytes s.mem (128 * line + 0x8000) (readBytes s.mem (128 * line) 128)) v.loc (bytesOfNat 8 v.data.toNat))
      (128 * line + 112) (bytesOfNat 8 v.stamp) := by
  simp only [State.applyVersions, forAll, List.foldl_cons, List.foldl_nil, State.store_mem, List.head?_cons, Option.map_some, Option.getD_some]

/-- The shadow takes the line as it was. -/
theorem applyVersions_shadow : ∀ j < 128,
    readByte (s.applyVersions line [v]).mem (128 * line + 0x8000 + j) = readByte s.mem (128 * line + j) := by
  intro j hj
  have hat : 128 * line ≤ v.loc ∧ v.loc < 128 * line + 112 := by
    unfold lineOf at hline
    omega
  rw [applyVersions_one, readByte_writeBytes, if_neg (by rw [bytesOfNat_length]; omega), readByte_writeBytes,
    if_neg (by rw [bytesOfNat_length]; omega), readByte_writeBytes, if_pos (by rw [readBytes_length]; omega), Nat.add_sub_cancel_left,
    readBytes_getD _ _ _ _ hj]

theorem applyVersions_word : readNat (s.applyVersions line [v]).mem v.loc 8 = v.data.toNat := by
  have hat : v.loc + 8 ≤ 128 * line + 112 := by
    unfold lineOf at hline
    omega
  rw [applyVersions_one, readNat_writeBytes_ne _ _ _ _ _ (Or.inl hat), readNat_writeBytes _ _ _ _ v.data.isLt]

omit hword hline hoff in
theorem applyVersions_stamp (hstamp : v.stamp < 2 ^ 64) : readNat (s.applyVersions line [v]).mem (128 * line + 112) 8 = v.stamp := by
  rw [applyVersions_one, readNat_writeBytes _ _ _ _ hstamp]

omit hword hline hoff in
theorem applyVersions_rest {a : Nat} (hin : a < v.loc ∨ v.loc + 8 ≤ a) (hstamp : a < 128 * line + 112 ∨ 128 * line + 120 ≤ a)
    (hshadow : a < 128 * line + 0x8000 ∨ 128 * line + 0x8080 ≤ a) :
    readByte (s.applyVersions line [v]).mem a = readByte s.mem a := by
  rw [applyVersions_one, readByte_writeBytes, if_neg (by rw [bytesOfNat_length]; omega), readByte_writeBytes,
    if_neg (by rw [bytesOfNat_length]; omega), readByte_writeBytes, if_neg (by rw [readBytes_length]; omega)]

end

/-! ## The horizon (19 R362) -/

theorem multicastHorizon_reaches (s : State) (g : Nat) : ∀ d ∈ (s.multicastHorizon g).dies, d.2.horizonNext = some g := by
  intro d hd
  obtain ⟨x, -, rfl⟩ := List.mem_map.mp hd
  rfl

theorem horizonCollect_collects {s : State} {m : Nat} (hm : s.packageMin = some m) : ∃ t, exec .horizonCollect s = .next t ∧
    t.collected = some m ∧ (s.bindery.peers = [] → ∀ d ∈ t.dies, d.2.horizonNext = some m) ∧ (s.bindery.peers ≠ [] → t.dies = s.dies) := by
  have hexec : exec .horizonCollect s = .next (if s.bindery.peers = [] then ({ s with collected := some m } : State).multicastHorizon m
      else { s with collected := some m }) := by
    show execHorizonCollect s = _
    simp only [execHorizonCollect, hm]
  refine ⟨_, hexec, ?_, fun hone => ?_, fun hmore => ?_⟩
  · split <;> rfl
  · rw [if_pos hone]
    exact multicastHorizon_reaches _ m
  · rw [if_neg hmore]

theorem horizonExchange_sends {s : State} {m : Nat} (hm : s.collected = some m) (hmore : s.bindery.peers ≠ []) :
    ∃ t, exec .horizonExchange s = .next t ∧ ∀ d ∈ t.dies, d.2.horizonNext = some (min m (s.argN 0)) := by
  refine ⟨s.multicastHorizon (min m (s.argN 0)), ?_, multicastHorizon_reaches _ _⟩
  show execHorizonExchange s = _
  simp only [execHorizonExchange, hm, if_neg hmore]

/-- The horizon of a die never falls. -/
theorem horizonUpdate_raises (s : State) : ∃ t, exec .horizonUpdate s = .next t ∧
    (t.die (s.argN 0)).horizon = max (s.die (s.argN 0)).horizon ((s.die (s.argN 0)).horizonNext.getD 0) ∧
    (∀ k, (s.die k).horizon ≤ (t.die k).horizon) ∧ (t.die (s.argN 0)).horizonNext = none := by
  have hnow (d : Die) : (match d.horizonNext with
      | some m => ({ d with horizon := max d.horizon m, horizonNext := none } : Die)
      | none => d) = { d with horizon := max d.horizon (d.horizonNext.getD 0), horizonNext := none } := by
    cases hnext : d.horizonNext with
    | none =>
      simp only [Option.getD_none, Nat.max_eq_left (Nat.zero_le _)]
      rw [← hnext]
    | some m => rfl
  refine ⟨s.onDie (s.argN 0) fun d => { d with horizon := max d.horizon (d.horizonNext.getD 0), horizonNext := none }, ?_, ?_, fun k => ?_, ?_⟩
  · show execHorizonUpdate s = _
    exact congrArg (fun f => Host.Outcome.next (s.onDie (s.argN 0) f)) (funext hnow)
  · rw [State.die_onDie_self]
  · by_cases hk : k = s.argN 0
    · rw [hk, State.die_onDie_self]
      exact Nat.le_max_left _ _
    · rw [State.die_onDie_ne s hk]
  · rw [State.die_onDie_self]

/-! ## Reads of stamped lines (19 R363, R367, R369) -/

/-- The home of a line that a die of this package orders is that die. -/
theorem stampHome_real {s : State} {loc d : Nat} (h : homeDie loc = some d) : stampHome (s.real loc) = d ∧ s.real loc = loc := by
  have hlocal : isForeign loc = false := by
    unfold homeDie at h
    split at h
    · rename_i hpad
      unfold isForeign
      rw [decide_eq_false (Nat.not_lt.mpr hpad), Bool.and_false]
    · split at h
      · cases h
      · rename_i hnear
        exact Bool.eq_false_iff.mpr hnear
  rw [real_of_local s hlocal, stampHome, h]
  exact ⟨rfl, rfl⟩

theorem mayServe_iff (s : State) (loc l : Nat) : s.mayServe loc l = true ↔
    l < (s.die (stampHome (s.real loc))).horizon ∧
      ∀ v ∈ (s.die (stampHome (s.real loc))).versions, lineOf v.loc = lineOf (s.real loc) → l < v.stamp := by
  unfold State.mayServe
  rw [Bool.and_eq_true, decide_eq_true_eq, List.all_eq_true]
  refine and_congr Iff.rfl (forall₂_congr fun v _ => ?_)
  rw [Bool.not_eq_true', Bool.and_eq_false_iff, beq_eq_false_iff_ne, decide_eq_false_iff_not, Nat.not_le, ← imp_iff_not_or]

section
variable {s : State} {o : Out} {q : StampReq} {d : Nat} (hout : (s.strand (s.argN 0)).outOf (s.argN 1) = some o) (hsrc : o.src = .stamped q)
  (hd : d = dieOf (s.argN 0)) (hhome : homeDie q.line = some d) (hreach : s.reachable d q.line = true)
include hout hsrc hd hhome hreach

/-- A read of a stamped line that the die homes is served there. -/
theorem stampedRead_serves : exec .stampedRead s = .next (s.serveStamp (s.argN 0) o q).1 := by
  subst hd
  have hnear : locOnDie (dieOf (s.argN 0)) q.line = true := by rw [locOnDie, hhome, beq_self_eq_true]
  show execStampedRead s = _
  simp only [execStampedRead, hout, hsrc, hnear, hreach, Bool.not_true, Bool.false_eq_true, if_false]

omit hsrc hd hhome hreach in
theorem outOf_id : o.id = s.argN 1 := by simpa using List.find?_some hout

theorem stampedRead_arrives (hnew : q.arrived = none) : exec .stampedRead s = .next (s.onSource (s.argN 0) (s.argN 1) fun _ =>
    .stamped { q with arrived := some (s.die d).latest }) := by
  rw [stampedRead_serves hout hsrc hd hhome hreach, State.serveStamp]
  simp only [hnew, outOf_id hout, State.arriveL, (stampHome_real (s := s) hhome).1]

variable {l : Nat} (harrived : q.arrived = some l)
include harrived

theorem stampedRead_waits (hearly : (s.die d).horizon ≤ l ∨ (∃ v ∈ (s.die d).versions, lineOf v.loc = lineOf q.line ∧ v.stamp ≤ l)) :
    exec .stampedRead s = .next s := by
  have hnot : s.mayServe q.line l = false := by
    refine Bool.eq_false_iff.mpr fun hserve => ?_
    rw [mayServe_iff, (stampHome_real (s := s) hhome).1, (stampHome_real (s := s) hhome).2] at hserve
    obtain ⟨hbelow, hall⟩ := hserve
    rcases hearly with hearly | ⟨v, hv, hline, hstamp⟩
    · omega
    · have := hall v hv hline
      omega
  rw [stampedRead_serves hout hsrc hd hhome hreach, State.serveStamp]
  simp only [harrived, hnot, Bool.not_false, if_true]

variable (hbelow : l < (s.die d).horizon) (hall : ∀ v ∈ (s.die d).versions, lineOf v.loc = lineOf q.line → l < v.stamp)
include hbelow hall

omit hout hsrc hd hreach harrived in
theorem mayServe_of_applied : s.mayServe q.line l = true := by
  rw [mayServe_iff, (stampHome_real (s := s) hhome).1, (stampHome_real (s := s) hhome).2]
  exact ⟨hbelow, hall⟩

theorem stampedRead_answers {w : Word} (hvalue : s.stampValue q = some w) :
    exec .stampedRead s = .next (s.answer (s.argN 0) (s.argN 1) [.g q.r (.data w)] Flags.none) := by
  rw [stampedRead_serves hout hsrc hd hhome hreach, State.serveStamp]
  simp only [harrived, mayServe_of_applied hhome hbelow hall, Bool.not_true, Bool.false_eq_true, if_false, hvalue, outOf_id hout]

theorem stampedRead_stale {t : Word} (hasof : q.asof = some t) (hvalue : s.stampValue q = none) :
    exec .stampedRead s = .next (if o.dead then s.answer (s.argN 0) (s.argN 1) [] Flags.none
      else s.stale (s.argN 0) (s.argN 1) o.chunk t) := by
  rw [stampedRead_serves hout hsrc hd hhome hreach, State.serveStamp]
  simp only [harrived, mayServe_of_applied hhome hbelow hall, Bool.not_true, Bool.false_eq_true, if_false, hvalue, outOf_id hout, hasof,
    Option.getD_some]

end

section
variable {s : State} {q : StampReq} {t : Word} (hasof : q.asof = some t)
include hasof

theorem stampValue_current (h : (s.wordAt (q.line + 112)).toNat ≤ t.toNat) : s.stampValue q = some (s.wordAt (q.line + q.off)) := by
  rw [State.stampValue, hasof]
  exact if_pos h

variable (hnew : t.toNat < (s.wordAt (q.line + 112)).toNat)
include hnew

theorem stampValue_shadow (h : (s.wordAt (q.line + 0x8000 + 112)).toNat ≤ t.toNat) :
    s.stampValue q = some (s.wordAt (q.line + 0x8000 + q.off)) := by
  rw [State.stampValue, hasof]
  exact (if_neg (Nat.not_le.mpr hnew)).trans (if_pos h)

theorem stampValue_stale (h : t.toNat < (s.wordAt (q.line + 0x8000 + 112)).toNat) : s.stampValue q = none := by
  rw [State.stampValue, hasof]
  exact (if_neg (Nat.not_le.mpr hnew)).trans (if_neg (Nat.not_le.mpr h))

end

section
variable {s : State} {o : Out} {l : LoadReq} {n : Need} {d : Nat} (hout : (s.strand (s.argN 0)).outOf (s.argN 1) = some o)
  (hsrc : o.src = .load l) (hn : l.need[s.argN 2]? = some n) (hport : n.port = .stamped)
  (hreach : s.reachable (dieOf (s.argN 0)) (n.locs.headD 0) = true)
include hout hsrc hn hport hreach

theorem stampedRead_serves_need : exec .stampedRead s = .next (s.serveNeed (s.argN 0) (s.argN 1) (s.argN 2) l n).1 := by
  show execStampedRead s = _
  simp only [execStampedRead, hout, hsrc, hn, hport, ne_eq, not_true_eq_false, if_false, hreach, Bool.not_true, Bool.false_eq_true]

variable (hd : d = stampHome (s.real (n.locs.headD 0)))
include hd

theorem stampedRead_need_arrives (hnew : n.arrived = none) : exec .stampedRead s = .next (s.onSource (s.argN 0) (s.argN 1) fun _ =>
    .load { l with need := l.need.set (s.argN 2) { n with arrived := some (s.die d).latest } }) := by
  rw [stampedRead_serves_need hout hsrc hn hport hreach, State.serveNeed]
  simp only [hnew, State.arriveL, hd]

theorem stampedRead_need_reads {x : Nat} (harrived : n.arrived = some x) (hbelow : x < (s.die d).horizon)
    (hall : ∀ v ∈ (s.die d).versions, lineOf v.loc = lineOf (s.real (n.locs.headD 0)) → x < v.stamp) :
    exec .stampedRead s = .next (s.readNeed (s.argN 0) (s.argN 1) (s.argN 2)) := by
  subst hd
  have hserve : s.mayServe (n.locs.headD 0) x = true := (mayServe_iff s _ _).mpr ⟨hbelow, hall⟩
  rw [stampedRead_serves_need hout hsrc hn hport hreach, State.serveNeed]
  simp only [harrived, hserve, if_true]

end

/-- Settles O38: each event about versions and the horizon is its equation, and a read is served by what mayServe and stampValue say. -/
theorem versionsReachLinesThatAreRead : Obligations.VersionsReachLinesThatAreRead := by
  unfold Obligations.VersionsReachLinesThatAreRead
  refine ⟨⟨?version, fun s => stampRelease_releases s, ?apply, ?line, fun s m hm => horizonCollect_collects hm,
    fun s m hm hmore => horizonExchange_sends hm hmore, fun s => horizonUpdate_raises s⟩, ?read, ?need⟩
  case version =>
    exact fun s m v d hm hkind hd hup hfrom => ⟨stampVersion_waits hm hkind hd hup hfrom, stampVersion_held hm hkind hd hup hfrom⟩
  case apply =>
    exact fun s line d g hline hd hg hsome => ⟨versionApply_waits hline hd hg, versionApply_applies hline hd hg hsome⟩
  case line =>
    intro s line v hword hline hoff hstamp
    exact ⟨applyVersions_shadow hword hline hoff, applyVersions_word hword hline hoff, applyVersions_stamp hstamp,
      fun a hin hst hsh => applyVersions_rest hin hst hsh⟩
  case read =>
    intro s o q d hout hsrc hd hhome hreach
    refine ⟨stampedRead_arrives hout hsrc hd hhome hreach, fun l harrived => ⟨stampedRead_waits hout hsrc hd hhome hreach harrived,
      fun hbelow hall => ⟨fun hnone => ?_, fun t hasof => ⟨fun hcur => ?_, fun hnew hshadow => ?_, fun hnew hold => ?_⟩⟩⟩⟩
    · exact stampedRead_answers hout hsrc hd hhome hreach harrived hbelow hall (by rw [State.stampValue, hnone])
    · exact stampedRead_answers hout hsrc hd hhome hreach harrived hbelow hall (stampValue_current hasof hcur)
    · exact stampedRead_answers hout hsrc hd hhome hreach harrived hbelow hall (stampValue_shadow hasof hnew hshadow)
    · exact stampedRead_stale hout hsrc hd hhome hreach harrived hbelow hall hasof (stampValue_stale hasof hnew hold)
  case need =>
    intro s o l n d hout hsrc hn hport hreach hd
    exact ⟨stampedRead_need_arrives hout hsrc hn hport hreach hd,
      fun x harrived hbelow hall => stampedRead_need_reads hout hsrc hn hport hreach hd harrived hbelow hall⟩

end Sys2Proof.Machine

/-! SUPPORT. Migrations, and the loss of a die or a port (16 R325 to R327, R331). -/

namespace Sys2Proof.Machine

open Sys2Proof Sys2Proof.Claims

/-! ## The loss of a die (16 R327, 21 R404) -/

/-- What the fence of a die leaves as it is while it ends firings and gangs: the log, the refusal of launches, and what each die
holds of its fence and of its versions. -/
structure FenceKept (s t : State) : Prop where
  colophon : t.colophon = s.colophon
  noLaunch : t.bindery.noLaunch = s.bindery.noLaunch
  fenced : ∀ k, (t.die k).fenced = (s.die k).fenced
  versions : ∀ k, (t.die k).versions = (s.die k).versions

namespace FenceKept

theorem refl (s : State) : FenceKept s s := ⟨rfl, rfl, fun _ => rfl, fun _ => rfl⟩

theorem trans {s t u : State} (h : FenceKept s t) (g : FenceKept t u) : FenceKept s u :=
  ⟨g.colophon.trans h.colophon, g.noLaunch.trans h.noLaunch, fun k => (g.fenced k).trans (h.fenced k),
    fun k => (g.versions k).trans (h.versions k)⟩

theorem of_placeOnly {s t : State} (h : PlaceOnly s t) : FenceKept s t := by
  obtain ⟨_, _, _, _, rfl⟩ := h
  exact ⟨rfl, rfl, fun _ => rfl, fun _ => rfl⟩

theorem of_strandsOnly {s t : State} (h : StrandsOnly s t) : FenceKept s t := by
  obtain ⟨_, rfl⟩ := h
  exact ⟨rfl, rfl, fun _ => rfl, fun _ => rfl⟩

theorem of_coresOnly {s t : State} (h : CoresOnly s t) : FenceKept s t := by
  obtain ⟨_, rfl⟩ := h
  exact ⟨rfl, rfl, fun _ => rfl, fun _ => rfl⟩

theorem forAll {α : Type} (f : State → α → State) (h : ∀ s x, FenceKept s (f s x)) (l : List α) (s : State) :
    FenceKept s (forAll l f s) := forAll_rel FenceKept refl trans f h l s

/-- A change of a die that leaves its fence and its versions. -/
theorem onDie {f : Die → Die} (hf : ∀ d, (f d).fenced = d.fenced ∧ (f d).versions = d.versions) (s : State) (j : Nat) :
    FenceKept s (s.onDie j f) := by
  refine ⟨rfl, rfl, fun k => ?_, fun k => ?_⟩ <;> by_cases hk : k = j
  · rw [hk, State.die_onDie_self]; exact (hf _).1
  · rw [State.die_onDie_ne s hk]
  · rw [hk, State.die_onDie_self]; exact (hf _).2
  · rw [State.die_onDie_ne s hk]

end FenceKept

theorem clearCtx_fenceKept (s : State) (die ctx : Nat) : FenceKept s (s.clearCtx die ctx) := by
  unfold State.clearCtx State.breakCtx
  split
  · refine FenceKept.trans ?_ (.of_strandsOnly (State.trapParked_strandsOnly _ _ _))
    refine FenceKept.onDie ?_ s die
    exact fun _ => ⟨rfl, rfl⟩
  · refine FenceKept.onDie ?_ s die
    exact fun _ => ⟨rfl, rfl⟩

theorem emptyQueues_fenceKept (s : State) (gang : Nat) : FenceKept s (s.emptyQueues gang) := by
  refine (FenceKept.of_coresOnly (forAll_onCore_only _ (s.members gang) s)).trans ⟨rfl, rfl, fun k => ?_, fun k => ?_⟩
  all_goals
    unfold State.emptyQueues State.die
    dsimp only
    rw [mapGet_map (f := fun d : Die => { d with queues := d.queues.filter (·.gang != gang) }) rfl]

/-- A change of the Bindery that leaves its refusal of launches. -/
theorem FenceKept.onBindery {f : Bindery → Bindery} (hf : ∀ b, (f b).noLaunch = b.noLaunch) (s : State) : FenceKept s (s.onBindery f) :=
  ⟨rfl, hf s.bindery, fun _ => rfl, fun _ => rfl⟩

theorem FenceKept.onStrand (s : State) (sid : Nat) (f : Strand → Strand) : FenceKept s (s.onStrand sid f) :=
  ⟨rfl, rfl, fun _ => rfl, fun _ => rfl⟩

theorem FenceKept.onCore (s : State) (cid : Nat) (f : Core → Core) : FenceKept s (s.onCore cid f) :=
  ⟨rfl, rfl, fun _ => rfl, fun _ => rfl⟩

theorem breakImages_fenceKept (s : State) (gang : Nat) : FenceKept s (s.breakImages gang) := by
  unfold State.breakImages
  refine FenceKept.forAll _ (fun s x => FenceKept.forAll _ (fun s d => ?_) _ s) _ s
  exact .of_placeOnly (placeStore_only s _ _ none)

theorem breakGangBarriers_fenceKept (s : State) (gang : Nat) : FenceKept s (s.breakGangBarriers gang) :=
  FenceKept.forAll (fun s (e : DirEntry) => s.breakBarrier (padLoc e.cid e.off))
    (fun s _ => .of_placeOnly (breakBarrier_only s _)) _ s

theorem breakGangContexts_fenceKept (s : State) (gang : Nat) : FenceKept s (s.breakGangContexts gang) :=
  FenceKept.forAll (fun s (x : Nat × Nat) => s.clearCtx x.1 x.2) (fun s _ => clearCtx_fenceKept s _ _) _ s

theorem gangLoss_fenceKept (s : State) (gang : Nat) (val : Word) (except_ : List Nat) :
    FenceKept s (s.gangLoss gang val except_) := by
  unfold State.gangLoss
  refine .trans (breakGangBarriers_fenceKept s gang) (.trans (breakImages_fenceKept _ gang) ?_)
  refine .trans (breakGangContexts_fenceKept _ gang) (.trans (emptyQueues_fenceKept _ gang) ?_)
  refine .trans (FenceKept.onBindery ?_ _) (FenceKept.forAll _ ?_ _ _)
  · exact fun _ => rfl
  · exact fun s sid => FenceKept.onStrand s sid _

theorem freeStrand_fenceKept (s : State) (sid : Nat) : FenceKept s (s.freeStrand sid) := by
  unfold State.freeStrand
  refine .trans ?_ (FenceKept.onStrand _ sid _)
  split <;> split <;> exact ⟨rfl, rfl, fun _ => rfl, fun _ => rfl⟩

theorem killFiring_fenceKept (s : State) (sid : Nat) : FenceKept s (s.killFiring sid) := by
  unfold State.killFiring
  split
  · refine .trans ?_ (freeStrand_fenceKept _ sid)
    refine .trans ?_ ((FenceKept.onCore _ (coreOf sid) _).trans (.onStrand _ sid _))
    split
    · exact .refl s
    · exact .of_placeOnly (squash_only s sid 0 false false)
  · exact .refl s

theorem discardVersions_die (s : State) (die k : Nat) : ((s.discardVersions die).die k).fenced = (s.die k).fenced ∧
    ((s.die k).versions = [] → ((s.discardVersions die).die k).versions = []) := by
  have hdie : (s.discardVersions die).die k = { s.die k with
      versions := (s.die k).versions.filter fun v => v.package != s.bindery.package || v.die != die } :=
    mapGet_map (f := fun d : Die => { d with
      versions := d.versions.filter fun v => v.package != s.bindery.package || v.die != die }) rfl k s.dies
  rw [hdie]
  exact ⟨rfl, fun h => by dsimp only; rw [h]; rfl⟩

/-- The die that is lost, cut off from the package. -/
def State.cutOff (s : State) (d : Nat) : State :=
  let v := (s.onDie d fun x => { x with fenced := true, items := [], versions := [] }).discardVersions d
  if d < 8 then v.onBindery fun b => { b with noLaunch := true } else v

/-- The firings of a die end. -/
def State.killDie (s : State) (d : Nat) : State :=
  forAll ((s.strands.map (·.1)).filter fun sid => dieOf sid == d) State.killFiring s

/-- The gangs that the loss of a die touches are lost. -/
def State.loseGangs (s : State) (d : Nat) : State :=
  forAll ((s.bindery.launches.filter fun l => !l.lost && s.touched d l.gang).map (·.gang))
    (fun s g => s.gangLoss g (s.dieLost g d) []) s

theorem killDie_fenceKept (s : State) (d : Nat) : FenceKept s (s.killDie d) :=
  FenceKept.forAll State.killFiring killFiring_fenceKept _ s

theorem loseGangs_fenceKept (s : State) (d : Nat) : FenceKept s (s.loseGangs d) :=
  FenceKept.forAll (fun s g => s.gangLoss g (s.dieLost g d) []) (fun s g => gangLoss_fenceKept s g _ []) _ s

section
variable {s : State} (hup : (s.die (s.argN 0)).fenced = false)
include hup

theorem dieFence_of_f0 (h8 : s.argN 0 = 8) : exec .dieFence s = .next s.logged.powerOff := by
  refine (if_neg ?_).trans (if_pos h8)
  rw [hup, h8]
  simp

theorem dieFence_of_other (h10 : s.argN 0 < 10) (h8 : s.argN 0 ≠ 8) :
    exec .dieFence s = .next (((s.logged.cutOff (s.argN 0)).killDie (s.argN 0)).loseGangs (s.argN 0)) := by
  refine (if_neg ?_).trans (if_neg h8)
  rw [hup]
  simp only [Bool.false_eq_true, or_false]
  omega

end

theorem cutOff_die (s : State) (d : Nat) : ((s.cutOff d).die d).fenced = true ∧ ((s.cutOff d).die d).versions = [] := by
  obtain ⟨hfenced, hversions⟩ := discardVersions_die (s.onDie d fun x => { x with fenced := true, items := [], versions := [] }) d d
  rw [State.die_onDie_self] at hfenced hversions
  unfold State.cutOff
  split <;> exact ⟨hfenced, hversions rfl⟩

theorem cutOff_noLaunch (s : State) {d : Nat} (h : d < 8) : (s.cutOff d).bindery.noLaunch = true := by
  unfold State.cutOff
  rw [if_pos h]
  rfl

theorem cutOff_colophon (s : State) (d : Nat) : (s.cutOff d).colophon = s.colophon := by
  unfold State.cutOff
  split <;> rfl

theorem logged_count (s : State) : s.logged.colophon.logged = s.colophon.logged + 1 := rfl

theorem powerOff_rest (s : State) : s.powerOff.power = false ∧ s.powerOff.strands = [] ∧ s.powerOff.mem = [] ∧ s.powerOff.tags = [] ∧
    s.powerOff.colophon = s.colophon := ⟨rfl, rfl, rfl, rfl, rfl⟩

/-! ## A migration (16 R325, R326, R331) -/

theorem redirect_onMigration_rest (v : State) (old new rid : Nat) (f : Migration → Migration) :
    ((v.redirect old new).onMigration rid f).mem = v.mem ∧ ((v.redirect old new).onMigration rid f).tags = v.tags ∧
      ((v.redirect old new).onMigration rid f).migrations = v.migrations.map fun x => if x.rid = rid then f x else x := ⟨rfl, rfl, rfl⟩

section
variable {s : State} {m : Migration} {r : Remote} (hm : s.migrations.find? (·.rid == s.argN 0) = some m)
  (hr : s.remote (s.argN 0) = some r) (hup : (s.die m.reb).fenced = false)
include hm hr hup

theorem migration_begins (hstep : m.step = 0)
    (hfirst : (s.migrations.find? fun x => x.reb == m.reb && x.step == 0).map (·.rid) = some (s.argN 0))
    (hroom : (s.migrations.filter fun x => x.reb == m.reb && x.step != 0).length < 8) {old : Nat}
    (hcheck : s.migrationCheck r.cid m = .ok old) :
    exec .migration s = .next (s.onMigration (s.argN 0) fun m => { m with step := 1, old := old }) := by
  show execMigration s = _
  simp only [execMigration, hm, hr, hup, Bool.false_eq_true, ↓if_false, ↓if_pos hstep, hfirst, ne_eq, not_true_eq_false, false_or,
    ↓if_neg (Nat.not_le.mpr hroom), hcheck]

theorem migration_refused (hstep : m.step = 0)
    (hfirst : (s.migrations.find? fun x => x.reb == m.reb && x.step == 0).map (·.rid) = some (s.argN 0))
    (hroom : (s.migrations.filter fun x => x.reb == m.reb && x.step != 0).length < 8) {c : Nat}
    (hcheck : s.migrationCheck r.cid m = .error c) : exec .migration s = .next (s.endMigration r m c) := by
  show execMigration s = _
  simp only [execMigration, hm, hr, hup, Bool.false_eq_true, ↓if_false, ↓if_pos hstep, hfirst, ne_eq, not_true_eq_false, false_or,
    ↓if_neg (Nat.not_le.mpr hroom), hcheck]

theorem migration_lost (hstep : m.step = 1) (hlost : s.pageLost r m.old = true ∨ s.pageLost r m.frame = true) :
    exec .migration s = .next ({ s with migrations := s.migrations.filter (·.rid != s.argN 0) }.failRemote (s.argN 0) (6, m.va)) := by
  show execMigration s = _
  simp only [execMigration, hm, hr, hup, Bool.false_eq_true, ↓if_false, hstep, Nat.one_ne_zero, ↓if_true, Bool.or_eq_true, ↓if_pos hlost]

theorem migration_ecc (hstep : m.step = 1) (hold : s.pageLost r m.old = false) (hnew : s.pageLost r m.frame = false)
    (hbad : s.argN 1 = 1) : exec .migration s = .next (s.endMigration r m 0x86) := by
  show execMigration s = _
  simp only [execMigration, hm, hr, hup, Bool.false_eq_true, ↓if_false, hstep, Nat.one_ne_zero, ↓if_true, hold, hnew, Bool.or_self,
    ↓if_pos hbad]

/-- The page copied with its tags, its mapping written, and the page invalidated. -/
def State.pageMoved (s : State) (m : Migration) : State :=
  ((s.copyPage m.old m.frame).writeFrame m.va m.frame).invalidatePage m.va false

theorem migration_moves (hstep : m.step = 1) (hold : s.pageLost r m.old = false) (hnew : s.pageLost r m.frame = false)
    (hgood : s.argN 1 ≠ 1) (hfree : s.sectorsHeld none ((List.range 512).map fun k => m.frame + 128 * k) = none) :
    exec .migration s = .next (((s.pageMoved m).redirect m.old m.frame).onMigration (s.argN 0) fun x =>
      { x with step := 2, open_ := (s.pageMoved m).openChunks none }) := by
  show execMigration s = _
  simp only [execMigration, hm, hr, hup, Bool.false_eq_true, ↓if_false, hstep, Nat.one_ne_zero, ↓if_true, hold, hnew, Bool.or_self,
    ↓if_neg hgood, hfree, Option.isSome_none]
  rfl

theorem migration_waits (hstep : 2 ≤ m.step) (hopen : ∃ c ∈ m.open_, s.stillOpen c = true) : exec .migration s = .next s := by
  show execMigration s = _
  simp only [execMigration, hm, hr, hup, Bool.false_eq_true, ↓if_false, ↓if_neg (show m.step ≠ 0 by omega),
    ↓if_neg (show m.step ≠ 1 by omega), List.any_eq_true.mpr hopen, ↓if_true]

theorem migration_ends (hstep : 2 ≤ m.step) (hgone : ∀ c ∈ m.open_, s.stillOpen c = false) :
    exec .migration s = .next (s.endMigration r m 1) := by
  have hany : m.open_.any s.stillOpen = false := List.any_eq_false.mpr fun c hc => by rw [hgone c hc]; exact Bool.false_ne_true
  show execMigration s = _
  simp only [execMigration, hm, hr, hup, Bool.false_eq_true, ↓if_false, ↓if_neg (show m.step ≠ 0 by omega),
    ↓if_neg (show m.step ≠ 1 by omega), hany]

end

section
variable {s : State} {cid : Nat} {m : Migration}

theorem migrationCheck_ok {e : PageEntry} (he : s.lookup cid m.va = some e) (hbig : e.big = false) (hst : e.st = false)
    (hlow : s.localPhys m.frame = .here m.frame) (hhigh : s.localPhys (m.frame + 65535) = .here (m.frame + 65535))
    (hnone : ∀ x ∈ s.migrations, x.step ≠ 0 → x.va ≠ m.va) : s.migrationCheck cid m = .ok e.frame := by
  have hany : (s.migrations.any fun x => x.step != 0 && x.va == m.va) = false := by
    refine List.any_eq_false.mpr fun x hx => ?_
    simpa using hnone x hx
  simp only [State.migrationCheck, he, hbig, hst, hlow, hhigh, hany, ne_eq, not_true_eq_false, or_self, Bool.false_eq_true, if_false]

theorem migrationCheck_stamped {e : PageEntry} (he : s.lookup cid m.va = some e) (hbig : e.big = false) (hst : e.st = true) :
    s.migrationCheck cid m = .error 0x83 := by
  simp only [State.migrationCheck, he, hbig, hst, Bool.false_eq_true, if_false, if_true]

theorem migrationCheck_unmapped (he : s.lookup cid m.va = none)
    (hbig : s.tableFind (s.core cid).mapt32 (m.va / 2 ^ 25) (m.va / 2 ^ 25 * 2 ^ 25) = none) :
    s.migrationCheck cid m = .error 0x81 := by
  simp only [State.migrationCheck, he, hbig, Option.isSome_none, Bool.false_eq_true, if_false]

end

theorem portLoss_marked {s : State} (h : s.argN 0 < 8) :
    exec .portLoss s = .next { s.logged with ports := mapSet (8 + s.argN 0) 1 s.ports } := if_neg (Nat.not_le.mpr h)

theorem portLoss_none {s : State} (h : 8 ≤ s.argN 0) : exec .portLoss s = .next s := if_pos h

/-- Settles O24: a migration goes from step to step as its checks, the page and what is still open say; what follows the fence of
a die ends firings and gangs, and neither writes the log nor changes a fence or a version. -/
theorem migrationsAndLosses : Obligations.MigrationsAndLosses := by
  unfold Obligations.MigrationsAndLosses
  refine ⟨fun s m r hm hr hup => ⟨fun hstep hfirst hroom => ⟨fun e he hbig hst hlow hhigh hnone => ?_, fun e he hbig hst => ?_,
    fun he hbig => ?_⟩, migration_lost hm hr hup, fun hstep hold hnew hgood hfree => ?_, migration_ecc hm hr hup,
    fun hstep => ⟨migration_waits hm hr hup hstep, migration_ends hm hr hup hstep⟩⟩,
    fun s h8 hup => ?_, fun s h10 h8 hup => ?_, fun s h => if_pos h, fun s => portLoss_marked, fun s => portLoss_none⟩
  · exact migration_begins hm hr hup hstep hfirst hroom (migrationCheck_ok he hbig hst hlow hhigh hnone)
  · exact migration_refused hm hr hup hstep hfirst hroom (migrationCheck_stamped he hbig hst)
  · exact migration_refused hm hr hup hstep hfirst hroom (migrationCheck_unmapped he hbig)
  · exact ⟨s.pageMoved m, _, rfl, migration_moves hm hr hup hstep hold hnew hgood hfree, redirect_onMigration_rest _ _ _ _ _⟩
  · obtain ⟨hpower, hstrands, hmem, htags, hcolophon⟩ := powerOff_rest s.logged
    exact ⟨_, dieFence_of_f0 (h8 ▸ hup) h8, hpower, hstrands, hmem, htags, (congrArg _ hcolophon).trans (logged_count s)⟩
  · have hkept := (killDie_fenceKept (s.logged.cutOff (s.argN 0)) (s.argN 0)).trans (loseGangs_fenceKept _ (s.argN 0))
    obtain ⟨hfenced, hversions⟩ := cutOff_die s.logged (s.argN 0)
    refine ⟨_, dieFence_of_other hup h10 h8, (hkept.fenced _).trans hfenced, (hkept.versions _).trans hversions,
      fun h => hkept.noLaunch.trans (cutOff_noLaunch s.logged h), ?_⟩
    rw [hkept.colophon, cutOff_colophon, logged_count]

end Sys2Proof.Machine

/-! SUPPORT. Moves, migrations and remote accesses (16 R317 to R322, R328, R330). -/

namespace Sys2Proof.Machine

open Sys2Proof Sys2Proof.Claims

/-! ## get, put, get.w and put.w at issue (16 R328) -/

/-- The four are one operation, with their length read from a register or fixed. -/
theorem exec_move {x : Arch} {i : Instr} {wide : Bool} {d c : BitVec 6} {n : Nat} (h : moveOf x i = some (wide, d, c, n)) :
    ∃ len : Arch → Nat, len x = n ∧ ∀ s, exec i s = getPut wide (moveReads i) d c len s := by
  unfold moveOf at h
  split at h
  case h_1 d' c' k => cases h; exact ⟨fun a => (a.word k).toNat, rfl, fun _ => rfl⟩
  case h_2 d' c' k => cases h; exact ⟨fun a => (a.word k).toNat, rfl, fun _ => rfl⟩
  case h_3 d' c' => cases h; exact ⟨fun _ => 128, rfl, fun _ => rfl⟩
  case h_4 d' c' => cases h; exact ⟨fun _ => 128, rfl, fun _ => rfl⟩
  case h_5 => cases h

/-- What one of them does once its chunk has ended. -/
def moveAct (wide : Bool) (d c : BitVec 6) (n : Nat) (u : State) : Act :=
  if n < 1 ∨ 4096 < n then .trap u .ill (BitVec.ofNat 64 n)
  else match u.moveStop (u.me.readG d) (u.me.readG c) n wide with
    | (v, some e) => e.act v
    | (v, none) =>
      if v.rauFull (coreOf v.cur) then .hold (v.waiting .full) else .done (v.addMove (v.me.word d) (v.me.word c) n)

theorem exec_move_acts {s u : State} {i : Instr} {wide : Bool} {d c : BitVec 6} {n : Nat} (h : MayEnd false false (moveReads i) s u)
    (hmove : moveOf u.me i = some (wide, d, c, n)) : exec i s = .next (moveAct wide d c n u).settleT := by
  obtain ⟨len, rfl, hexec⟩ := exec_move hmove
  rw [hexec]
  exact terminate_of_mayEnd h _

theorem sidePlb_cores (s : State) (a n : Nat) (right : Right) : CoresOnly s (s.sidePlb a n right).1 := by
  unfold State.sidePlb
  split
  · exact plbRange_cores s.cur [.e, right] _ _ s _
  · exact CoresOnly.refl s

/-- The checks of a move change only the PLB of its core. -/
theorem moveStop_cores (s : State) (d c : Reg) (n : Nat) (wide : Bool) : CoresOnly s (s.moveStop d c n wide).1 := by
  unfold State.moveStop
  dsimp only
  have hdst := sidePlb_cores s d.cursor n .w
  split
  · exact CoresOnly.refl s
  split
  · exact CoresOnly.refl s
  iterate 7
    split
    · exact CoresOnly.refl s
  split
  · rename_i hplb
    rw [hplb] at hdst
    exact hdst
  · rename_i v hplb
    rw [hplb] at hdst
    have hsrc := hdst.trans (sidePlb_cores v c.cursor n .r)
    split
    · rename_i hplb'
      rw [hplb'] at hsrc
      exact hsrc
    · rename_i hplb'
      rw [hplb'] at hsrc
      split
      · exact hsrc
      · exact hsrc

theorem ofNat_cursor (c : Reg) : BitVec.ofNat 64 c.cursor = c.low := BitVec.ofNat_toNat 64 c.low |>.trans (BitVec.setWidth_eq _)

/-- The entry that a move takes, with the parts that it has still to reach. -/
def moveEntry (u : State) (d c : BitVec 6) (n : Nat) (l : List Part) : Remote :=
  { id := u.serial, cid := coreOf u.cur, sid := u.cur, gang := u.me.gangNo, group := u.me.group, live := true,
    kind := .move (u.me.word c) (u.me.word d) n [] l, performed := false, failed := none }

/-- Two states that differ at most in the remote accesses and the serial number. -/
def RemotesOnly (s t : State) : Prop := ∃ a n, t = { s with remotes := a, serial := n }

theorem RemotesOnly.rest {s t : State} (h : RemotesOnly s t) :
    t.cur = s.cur ∧ t.strands = s.strands ∧ t.mem = s.mem ∧ t.tags = s.tags := by
  obtain ⟨_, _, rfl⟩ := h
  exact ⟨rfl, rfl, rfl, rfl⟩

theorem addMove_only (s : State) (dst src : Word) (n : Nat) : RemotesOnly s (s.addMove dst src n) := by
  unfold State.addMove
  dsimp only
  split <;> exact ⟨_, _, rfl⟩

theorem addMove_remotes (s : State) (d c : BitVec 6) (n : Nat) :
    (s.addMove (s.me.word d) (s.me.word c) n).remotes =
      match movedSides s (s.me.readG d).cursor (s.me.readG c).cursor n with
      | .ok l => s.remotes ++ [moveEntry s d c n l]
      | .error e => (s.remotes ++ [moveEntry s d c n []]).map fun q =>
        if q.id = s.serial then { q with failed := some (e.1, BitVec.ofNat 64 e.2) } else q := by
  unfold State.addMove movedSides Arch.word Reg.cursor
  cases hdst : s.sideParts (coreOf s.cur) (s.sclbase s.cur) (s.me.readG d).low.toNat n (if n ≤ 128 then 128 else 16) true 0
      (n / (if n ≤ 128 then 128 else 16) + 4) with
  | error e => simp only [hdst]; rfl
  | ok l =>
    cases hsrc : s.sideParts (coreOf s.cur) (s.sclbase s.cur) (s.me.readG c).low.toNat n (if n ≤ 128 then 128 else 16) false 0
        (n / (if n ≤ 128 then 128 else 16) + 4) with
    | error e => simp only [hdst, hsrc]; rfl
    | ok l' => simp only [hdst, hsrc]; rfl

section
variable {s u : State} {i : Instr} {wide : Bool} {d c : BitVec 6} {n : Nat}

theorem moveAct_length (h : n < 1 ∨ 4096 < n) : moveAct wide d c n u = .trap u .ill (BitVec.ofNat 64 n) := if_pos h

variable (hlow : 1 ≤ n) (hhigh : n ≤ 4096)
include hlow hhigh

theorem moveAct_dst {cause : Cause}
    (hdst : checkCap u.me.smode (u.me.readG d) (u.me.readG d).cursor n [permST, permENG] 0 = some cause) :
    moveAct wide d c n u = .trap u cause (u.me.word d) := by
  simp only [moveAct, if_neg (show ¬(n < 1 ∨ 4096 < n) by omega), State.moveStop, hdst, Option.map_some, Stop.act, Stop.at, ofNat_cursor]
  rfl

theorem moveAct_src {cause : Cause}
    (hdst : checkCap u.me.smode (u.me.readG d) (u.me.readG d).cursor n [permST, permENG] 0 = none)
    (hsrc : checkCap u.me.smode (u.me.readG c) (u.me.readG c).cursor n [permLD, permENG] 0 = some cause) :
    moveAct wide d c n u = .trap u cause (u.me.word c) := by
  simp only [moveAct, if_neg (show ¬(n < 1 ∨ 4096 < n) by omega), State.moveStop, hdst, hsrc, Option.map_none, Option.map_some, Stop.act,
    Stop.at, ofNat_cursor]
  rfl

theorem moveAct_passed {v : State} (hstop : u.moveStop (u.me.readG d) (u.me.readG c) n wide = (v, none)) :
    moveAct wide d c n u =
      if v.rauFull (coreOf v.cur) then .hold (v.waiting .full) else .done (v.addMove (v.me.word d) (v.me.word c) n) := by
  simp only [moveAct, if_neg (show ¬(n < 1 ∨ 4096 < n) by omega), hstop]

end

/-- The unit of a core is full with 32 entries. -/
theorem rauFull_eq (s : State) (cid : Nat) : s.rauFull cid = decide (32 ≤ (s.remotes.filter (·.cid == cid)).length) := rfl

/-- A terminator that enters an access leaves its strand alone, and memory and tags. -/
theorem enters_settled {u v : State} (hcur : v.cur = u.cur) (hst : v.strands = u.strands) :
    Own u (Act.done v).settleT u.me.ended (u.strand u.cur).out ∧ (Act.done v).settleT.mem = v.mem ∧
      (Act.done v).settleT.tags = v.tags ∧ (Act.done v).settleT.remotes = v.remotes :=
  ⟨end_own hcur hst, rfl, rfl, rfl⟩

theorem move_enters {u v : State} {wide : Bool} {d c : BitVec 6} {n : Nat} (hlow : 1 ≤ n) (hhigh : n ≤ 4096)
    (hstop : u.moveStop (u.me.readG d) (u.me.readG c) n wide = (v, none))
    (hroom : (u.remotes.filter (·.cid == coreOf u.cur)).length < 32) :
    ∃ t, (moveAct wide d c n u).settleT = t ∧ Own u t u.me.ended (u.strand u.cur).out ∧ t.mem = u.mem ∧ t.tags = u.tags ∧
      t.remotes = match movedSides v (u.me.readG d).cursor (u.me.readG c).cursor n with
        | .ok l => u.remotes ++ [moveEntry u d c n l]
        | .error e => (u.remotes ++ [moveEntry u d c n []]).map fun q =>
          if q.id = u.serial then { q with failed := some (e.1, BitVec.ofNat 64 e.2) } else q := by
  have hcores := moveStop_cores u (u.me.readG d) (u.me.readG c) n wide
  rw [hstop] at hcores
  obtain ⟨cores, hv⟩ := hcores
  dsimp only at hv
  subst hv
  rw [moveAct_passed hlow hhigh hstop, rauFull_eq]
  refine ⟨_, congrArg Act.settleT (if_neg ?_), ?_⟩
  · simpa using hroom
  obtain ⟨hcur, hstrands, hmem, htags⟩ := (addMove_only { u with cores := cores } (u.me.word d) (u.me.word c) n).rest
  obtain ⟨hown, hmem', htags', hremotes⟩ := enters_settled (u := u) hcur hstrands
  exact ⟨hown, hmem'.trans hmem, htags'.trans htags, hremotes.trans (addMove_remotes { u with cores := cores } d c n)⟩

theorem move_waits {u v : State} {wide : Bool} {d c : BitVec 6} {n : Nat} (hlow : 1 ≤ n) (hhigh : n ≤ 4096)
    (hstop : u.moveStop (u.me.readG d) (u.me.readG c) n wide = (v, none))
    (hfull : 32 ≤ (u.remotes.filter (·.cid == coreOf u.cur)).length) :
    (moveAct wide d c n u).settleT = v.waiting .full ∧ CoresOnly u v := by
  have hcores := moveStop_cores u (u.me.readG d) (u.me.readG c) n wide
  rw [hstop] at hcores
  refine ⟨?_, hcores⟩
  obtain ⟨cores, hv⟩ := hcores
  dsimp only at hv
  subst hv
  rw [moveAct_passed hlow hhigh hstop, rauFull_eq]
  exact congrArg Act.settleT (if_pos (decide_eq_true hfull))

/-- A strand that waits for an entry of its unit. -/
theorem waits_full {u v : State} (h : CoresOnly u v) : ((v.waiting .full).strand u.cur).wait = .full ∧
    (v.waiting .full).remotes = u.remotes ∧ (v.waiting .full).mem = u.mem ∧ (v.waiting .full).tags = u.tags := by
  obtain ⟨cores, rfl⟩ := h
  obtain ⟨-, hwait, -⟩ := waiting_eq ({ u with cores := cores } : State) .full
  exact ⟨hwait, rfl, rfl, rfl⟩

/-! ## mig (16 R330) -/

section
variable {s u : State} {x y z : BitVec 6} (h : MayEnd true false [.g x, .g y, .g z] s u)
include h

theorem mig_stop {cause : Cause} (hcheck : checkCap u.me.smode (u.me.readG z) (u.me.readG z).cursor 8 [permST] 8 = some cause) :
    exec (.mig x y z) s = .next (u.raise u.cur cause (u.me.word z)) := by
  refine (terminate_of_mayEnd h _).trans ?_
  simp only [hcheck]
  rfl

variable (hcheck : checkCap u.me.smode (u.me.readG z) (u.me.readG z).cursor 8 [permST] 8 = none)
include hcheck

theorem mig_plb {v : State} (hplb : u.sidePlb (u.me.readG z).cursor 8 .w = (v, false)) :
    exec (.mig x y z) s = .next (v.raise u.cur .plb (u.me.word z)) := by
  have hcores := sidePlb_cores u (u.me.readG z).cursor 8 .w
  rw [hplb] at hcores
  refine (terminate_of_mayEnd h _).trans ?_
  simp only [hcheck, hplb]
  rw [← hcores.cur]
  rfl

theorem mig_enters {v : State} (hplb : u.sidePlb (u.me.readG z).cursor 8 .w = (v, true))
    (hroom : (u.remotes.filter (·.cid == coreOf u.cur)).length < 32) :
    ∃ t, exec (.mig x y z) s = .next t ∧ Own u t u.me.ended (u.strand u.cur).out ∧ t.mem = u.mem ∧ t.tags = u.tags ∧
      t.remotes = u.remotes ++ [
        { id := u.serial, cid := coreOf u.cur, sid := u.cur, gang := u.me.gangNo, group := u.me.group, live := true,
          kind := .mig ((u.me.word x).toNat % 2 ^ 56 / 2 ^ 16 * 2 ^ 16) ((u.me.word y).toNat % 2 ^ 52 / 2 ^ 16 * 2 ^ 16)
            (u.me.readG z).cursor, performed := false, failed := none }] := by
  have hcores := sidePlb_cores u (u.me.readG z).cursor 8 .w
  rw [hplb] at hcores
  obtain ⟨cores, hv⟩ := hcores
  dsimp only at hv
  subst hv
  have hfree : ({ u with cores := cores } : State).rauFull (coreOf u.cur) = false := by
    rw [rauFull_eq]
    exact decide_eq_false (Nat.not_le.mpr hroom)
  refine ⟨(Act.done (({ u with cores := cores } : State).addRemote u.cur (.mig ((u.me.word x).toNat % 2 ^ 56 / 2 ^ 16 * 2 ^ 16)
    ((u.me.word y).toNat % 2 ^ 52 / 2 ^ 16 * 2 ^ 16) (u.me.readG z).cursor))).settleT, (terminate_of_mayEnd h _).trans ?_, ?_⟩
  · simp only [hcheck, hplb, hfree, Bool.false_eq_true, ↓if_false]
  · exact enters_settled rfl rfl

end

/-! ## Accesses performed at their home (16 R318, R319, R321) -/

section
variable {s : State} {r : Remote} (hr : s.remote (s.argN 0) = some r) (hopen : r.performed = false) (hlive : r.failed = none)
include hr hopen hlive

section
variable (hown : s.argN 2 ≠ 2) (hentered : s.entered r = true)
include hown hentered

section
variable {loc : Nat} {data bits : BitVec 128} {tag : Bool} (hkind : r.kind = .store loc data bits tag)
include hkind

theorem remotePerform_store : exec .remotePerform s =
    .next (if s.heldBack r [s.real loc / 128] then s else s.performStore r loc data bits tag) := by
  show execRemotePerform s = _
  simp only [execRemotePerform, ↓if_neg hown, hr, hopen, hlive, hentered, hkind, Option.isSome_none, Bool.not_true, Bool.or_self,
    Bool.false_eq_true, ↓if_false]
  rfl

theorem store_waits (hheld : s.heldBack r [s.real loc / 128] = true) : exec .remotePerform s = .next s := by
  rw [remotePerform_store hr hopen hlive hown hentered hkind, if_pos hheld]

theorem store_performed (hfirst : s.heldBack r [s.real loc / 128] = false) (hreach : s.reachable (dieOf r.sid) loc = true)
    (hfree : s.sectorsHeld none [loc] = none) :
    exec .remotePerform s = .next (((s.onRemote r.id fun q => { q with performed := true }).writeSector (s.real loc) data bits
      tag).squashHome (s.real loc) [s.real loc / 128] none) := by
  rw [remotePerform_store hr hopen hlive hown hentered hkind, if_neg (Bool.not_eq_true _ ▸ hfirst)]
  simp only [State.performStore, hreach, hfree, Bool.not_true, Option.isSome_none, Bool.false_eq_true, ↓if_false, State.remoteDone, lineOf]

end

section
variable {src dst : Word} {n : Nat} {data : List (Nat × Byte)} {parts : List Part} {p : Part}
  (hkind : r.kind = .move src dst n data parts) (hp : parts[s.argN 1]? = some p) (hfirst : s.heldBack r [s.real p.loc / 128] = false)
include hkind hp hfirst

theorem remotePerform_part : exec .remotePerform s = .next (s.performPart r src dst n data parts (s.argN 1) (s.argN 2 == 1)) := by
  have hfirst : s.heldBack r [lineOf (s.real p.loc)] = false := hfirst
  show execRemotePerform s = _
  simp only [execRemotePerform, ↓if_neg hown, hr, hopen, hlive, hentered, hkind, Option.isSome_none, Bool.not_true, Bool.or_self,
    Bool.false_eq_true, ↓if_false, hp, Option.map_some, Option.toList_some, hfirst]

variable (hreach : s.reachable (dieOf r.sid) p.loc = true)
include hreach

theorem part_read (hread : p.write = false) (hgood : s.argN 2 ≠ 1) (hplain : p.stamped = false)
    (hfree : ∀ j < p.len, s.padWriter none (p.loc + j) = none) :
    exec .remotePerform s = .next (s.onRemote r.id fun q => q.moved src dst n
      (data ++ (List.range p.len).map fun j => (p.off + j, s.byteAt (p.loc + j))) (parts.eraseIdx (s.argN 1))) := by
  have hclear : ((List.range p.len).any fun j => (s.padWriter none (p.loc + j)).isSome) = false :=
    List.any_eq_false.mpr fun j hj => by rw [hfree j (List.mem_range.mp hj)]; exact Bool.false_ne_true
  have hgood : (s.argN 2 == 1) = false := beq_eq_false_iff_ne.mpr hgood
  rw [remotePerform_part hr hopen hlive hown hentered hkind hp hfirst]
  simp only [State.performPart, hp, hreach, hread, hgood, hplain, hclear, Bool.not_true, Bool.false_eq_true, ↓if_false]

theorem part_fails (hread : p.write = false) (hbad : s.argN 2 = 1) :
    exec .remotePerform s = .next (s.failRemote r.id (5, src.toNat + p.off)) := by
  have hbad : (s.argN 2 == 1) = true := beq_iff_eq.mpr hbad
  rw [remotePerform_part hr hopen hlive hown hentered hkind hp hfirst]
  simp only [State.performPart, hp, hreach, hread, hbad, Bool.not_true, Bool.false_eq_true, ↓if_false, ↓if_true]

theorem part_written (hwrite : p.write = true) {bs : List Byte} (hbs : partBytes data p = some bs)
    (hfree : s.sectorsHeld none ((List.range p.len).map (p.loc + ·)) = none) :
    exec .remotePerform s = .next ((s.onRemote r.id fun q => q.moved src dst n data (parts.eraseIdx (s.argN 1))).placeStore
      p.loc bs none) := by
  rw [remotePerform_part hr hopen hlive hown hentered hkind hp hfirst]
  simp only [State.performPart, hp, hreach, hwrite, hbs, hfree, Bool.not_true, Option.isSome_none, Bool.false_eq_true, ↓if_false,
    ↓if_true]

end

end

/-! ## Accesses to another package without an answer (16 R322) -/

theorem timeout_move {src dst : Word} {n : Nat} {data : List (Nat × Byte)} {parts : List Part} {p : Part}
    (hkind : r.kind = .move src dst n data parts) (hp : parts.find? (fun p => isForeign (s.real p.loc)) = some p) :
    exec .remoteTimeout s = .next (s.failRemote r.id (6, (if p.write then dst else src).toNat + p.off)) := by
  show execRemoteTimeout s = _
  simp only [execRemoteTimeout, hr, hopen, hlive, hkind, hp, Option.isSome_none, Bool.or_self, Bool.false_eq_true, ↓if_false]

variable {loc : Nat} (haway : isForeign (s.real loc) = true)
include haway

theorem timeout_store {data bits : BitVec 128} {tag : Bool} (hkind : r.kind = .store loc data bits tag) :
    exec .remoteTimeout s = .next ((s.lostAccess r.sid loc).onRemote r.id fun q => { q with performed := true }) := by
  show execRemoteTimeout s = _
  simp only [execRemoteTimeout, hr, hopen, hlive, hkind, haway, Option.isSome_none, Bool.or_self, Bool.false_eq_true, ↓if_false, ↓if_true,
    State.remoteDone]

theorem timeout_load {out : Nat} (hkind : r.kind = .load out [loc]) :
    exec .remoteTimeout s = .next ((s.readLost r.sid out loc).onRemote r.id fun q => { q with performed := true }) := by
  show execRemoteTimeout s = _
  simp only [execRemoteTimeout, hr, hopen, hlive, hkind, List.find?_cons, haway, Option.isSome_none, Bool.or_self, Bool.false_eq_true,
    ↓if_false, State.remoteDone]

theorem timeout_rmw {va out op : Nat} {wide : Bool} {x e : Word} (hkind : r.kind = .rmw va out loc op wide x e false) :
    exec .remoteTimeout s = .next ((s.answerG r.sid out 0 Flags.none).failRemote r.id (6, va)) := by
  show execRemoteTimeout s = _
  simp only [execRemoteTimeout, hr, hopen, hlive, hkind, haway, Option.isSome_none, Bool.or_self, Bool.false_eq_true, ↓if_false,
    Bool.not_true]

end

/-! ## Accesses that leave their unit (16 R317, R321) -/

section
variable {s : State} {r : Remote} (hr : s.remote (s.argN 0) = some r)
include hr

theorem remoteComplete_performed (hlive : r.failed = none) (hdone : r.performed = true) :
    exec .remoteComplete s = .next { s with remotes := s.remotes.filter (·.id != r.id) } := by
  show execRemoteComplete s = _
  simp only [execRemoteComplete, hr, hlive, hdone, ↓if_true, State.dropRemote]

theorem remoteComplete_open (hlive : r.failed = none) (hopen : r.performed = false) : exec .remoteComplete s = .next s := by
  show execRemoteComplete s = _
  simp only [execRemoteComplete, hr, hlive, hopen, Bool.false_eq_true, ↓if_false]

variable {code : Nat} {va : Word} (hfailed : r.failed = some (code, va))
include hfailed

/-- The report of a failed access, when ENGFAULT has been raised. -/
theorem remoteComplete_failed : exec .remoteComplete s = .next (((s.dropRemote r.id).engFault r.sid r.gang r.live
    (engValue code va.toNat)).eventOf r.sid r.gang r.group 3 Cause.engfault.code (engValue code va.toNat)) := by
  show execRemoteComplete s = _
  simp only [execRemoteComplete, hr, hfailed]

end

/-- ENGFAULT that pends changes one strand, and of it nothing but the pending values. -/
theorem engFault_eq {s : State} {sid gang : Nat} {val : Word} (hfiring : (s.strand sid).firing.isSome = true)
    (hgang : (s.arch sid).gangNo = gang) (hhere : s.gangAway gang (coreOf sid) = false) :
    ∃ x : Strand, s.engFault sid gang true val = s.setStrand sid x ∧ x.engfault = (s.strand sid).engfault ++ [val] ∧
      x.arch = s.arch sid := by
  have hgang : (s.strand sid).arch.gangNo = gang := hgang
  refine ⟨{ s.strand sid with engfault := (s.strand sid).engfault ++ [val] }, if_pos ?_, rfl, rfl⟩
  rw [hfiring, hgang, hhere, beq_self_eq_true]
  rfl

theorem remoteComplete_reports {s : State} {r : Remote} (hr : s.remote (s.argN 0) = some r) {code : Nat} {va : Word}
    (hfailed : r.failed = some (code, va)) (hlive : r.live = true) (hfiring : (s.strand r.sid).firing ≠ none)
    (hgang : (s.arch r.sid).gangNo = r.gang) (hhere : s.gangAway r.gang (coreOf r.sid) = false) :
    ∃ t, exec .remoteComplete s = .next t ∧ t.remotes = s.remotes.filter (·.id != r.id) ∧
      (t.strand r.sid).engfault = (s.strand r.sid).engfault ++ [BitVec.ofNat 64 (code * 2 ^ 60 + va.toNat % 2 ^ 56)] ∧
      t.arch r.sid = s.arch r.sid ∧ (∃ m, t.bindery.sent = s.bindery.sent ++ [m]) ∧ t.mem = s.mem ∧ t.tags = s.tags := by
  have hexec := remoteComplete_failed hr hfailed
  obtain ⟨x, hleft, hpending, harch⟩ := engFault_eq (s := s.dropRemote r.id) (val := engValue code va.toNat)
    (Option.isSome_iff_ne_none.mpr hfiring) hgang hhere
  rw [hlive, hleft] at hexec
  have hself : ((s.dropRemote r.id).setStrand r.sid x).strand r.sid = x := State.strand_setStrand_self _ _ _
  exact ⟨_, hexec, rfl, (congrArg Strand.engfault hself).trans hpending, (congrArg Strand.arch hself).trans harch, ⟨_, rfl⟩, rfl, rfl⟩

/-- Settles O23: the four moves are one operation whose checks change only the PLB; an event on an access goes by its kind, and one
that has failed raises ENGFAULT in its strand alone. -/
theorem movesAreEnteredAndCarriedOut : Obligations.MovesAreEnteredAndCarriedOut := by
  unfold Obligations.MovesAreEnteredAndCarriedOut
  refine ⟨⟨fun s u i wide d c n h hmove => ?_, fun s u x y z h => ?_⟩,
    fun s r loc data bits tag hr hopen hlive hown hentered hkind hreach => ⟨store_waits hr hopen hlive hown hentered hkind,
      fun hfirst hfree => store_performed hr hopen hlive hown hentered hkind hfirst hreach hfree⟩,
    fun s r src dst n data parts p hr hopen hlive hown hentered hkind hp hfirst hreach =>
      ⟨part_read hr hopen hlive hown hentered hkind hp hfirst hreach, part_fails hr hopen hlive hown hentered hkind hp hfirst hreach,
        fun hwrite bs => part_written hr hopen hlive hown hentered hkind hp hfirst hreach hwrite⟩,
    fun s r hr => ⟨remoteComplete_performed hr, remoteComplete_open hr, fun code va => remoteComplete_reports hr⟩,
    fun s r loc hr hopen hlive haway => ⟨fun src dst n data parts p => timeout_move hr hopen hlive,
      fun data bits tag => timeout_store hr hopen hlive haway, fun out => timeout_load hr hopen hlive haway,
      fun va out op wide x e => timeout_rmw hr hopen hlive haway⟩⟩
  · rw [exec_move_acts h hmove, ← h.cur]
    refine ⟨fun hlen => ?_, fun hlow hhigh => ⟨fun cause hdst => ?_, fun cause hdst hsrc => ?_, fun v hstop => ⟨fun hroom => ?_,
      fun hfull => ?_⟩⟩⟩
    · rw [moveAct_length hlen]
      rfl
    · rw [moveAct_dst hlow hhigh hdst]
      rfl
    · rw [moveAct_src hlow hhigh hdst hsrc]
      rfl
    · obtain ⟨t, ht, hown, hmem, htags, hremotes⟩ := move_enters hlow hhigh hstop hroom
      refine ⟨t, moveEntry u d c n, congrArg _ ht, hown, hmem, htags, ?_, rfl⟩
      refine hremotes.trans ?_
      cases movedSides v (u.me.readG d).cursor (u.me.readG c).cursor n <;> rfl
    · obtain ⟨hwaits, hcores⟩ := move_waits hlow hhigh hstop hfull
      exact ⟨_, congrArg _ hwaits, waits_full hcores⟩
  · rw [← h.cur]
    exact ⟨fun cause => mig_stop h, fun hcheck => ⟨fun v => mig_plb h hcheck, fun v => mig_enters h hcheck⟩⟩

end Sys2Proof.Machine
